-- ==== Sys2Proof/Word.lean ====
section
/-! DEFINITION. Word and table types of the model: the plainest names, nothing a repair could need to mend. -/
namespace Sys2Proof

/-- One byte. -/
abbrev Byte := BitVec 8
/-- A word is 32 bits (R5). -/
abbrev Word := BitVec 32
/-- A 64-bit register or counter. -/
abbrev W64 := BitVec 64
/-- A finite table: pairs of an index and a value, indexes strictly rising, no entry equal to what an unlisted
index reads as (the operations are in Machine/Bits.lean). -/
abbrev Tbl (α : Type) := List (Nat × α)

end Sys2Proof
end

