-- ==== Sys2Proof/Syntax.lean ====
section
/-! DEFINITION. The commands of the block, one constructor for each row of spec/opcode_table.json.
A row that names an opcode carries the reference (fn q n) of a command in a queue's execution window: function,
queue and the command's serial number in its queue. Data the device reads from host memory, values its sensors read
and the outcome of an analog or physical act (training, self-test, a corrected or uncorrectable read) are operands. -/
namespace Sys2Proof

/-- A frame of Table 13.2. The check word is not held; `ok` of the rows that carry a frame says whether it checked. -/
structure Frame where
  ty      : Nat        -- TYPE, Table 13.3
  ttl     : Nat        -- hops remaining
  lseq    : Nat        -- link sequence number
  lack    : Nat        -- last LSEQ the sender received in order
  circuit : Nat        -- the receiver's circuit index
  src     : Nat        -- SRC_CHIP
  dst     : Nat        -- DST_CHIP
  tw      : List Word  -- type words 4 to 9
  payload : List Byte
  deriving DecidableEq, Repr

/-- How a memory or SRAM read ends (R90, R284, R285, R368). -/
inductive ReadErr where
  | clean | corrected | uncorrectable
  deriving DecidableEq, Repr

/-- An error that a read of a context address met (R284, R285): the address, and whether it could not be corrected. -/
structure MemErr where
  addr : Nat
  lost : Bool
  deriving DecidableEq, Repr

/-- What a core's own checks find at an issue (R90, R126, R127). -/
inductive CoreErr where
  | clean
  | corrected (units : List Nat)                     -- 64-bit words corrected on the read
  | uncorrectable (units : List Nat) (again : Bool)  -- words that failed; again: the read-back failed too
  | residue                                          -- a residue check mismatch
  deriving DecidableEq, Repr

/-- What a self-test of a core or cluster finds (R462). -/
inductive TestResult where
  | pass
  | cores (mask : Nat)     -- failing cores of the cluster by core within cluster
  | logic                  -- Steering Unit, pass-through register or hand store failed
  deriving DecidableEq, Repr

/-- What the boot finds: location pins, self-test failures, trained memory (orders 5 to 10 of Table 15.1). -/
structure BootFinds where
  loc       : Nat          -- LOC[13:0]
  locPar    : Bool
  locValid  : Bool
  badCores  : List Nat     -- cores that failed order 7
  badClusters : List Nat   -- clusters whose Steering Unit or cluster memory failed order 7
  nearBytes : List Nat     -- capacity of each near stack
  bulkBytes : List Nat     -- capacity of each bulk channel
  bulkKHz   : List Nat     -- trained frequency of each bulk controller island
  nearKHz   : List Nat     -- trained frequency of each near-stack controller island
  flashKHz  : List Nat     -- trained frequency of each flash controller island
  lanesUp   : List Nat     -- lanes that came up, per Quenor port
  neighbours : List (Nat × Nat)   -- neighbour chip and port learned in training, per port
  tempsBelow80 : Bool      -- every sensor below 80 degrees (R478)
  deriving DecidableEq, Repr

/-- The commands. -/
inductive Instr where
  -- opcodes of Table 2.14: fn, queue, serial number of the command
  | nop (fn q n : Nat)
  | cancel (fn q n : Nat)
  | supplyTime (fn q n : Nat)
  | planSubmit (fn q n : Nat) (plan : List Word)
  | contextCreate (fn q n : Nat)
  | contextDestroy (fn q n : Nat)
  | contextConfig (fn q n : Nat)
  | layoutLoad (fn q n : Nat) (errs : List MemErr)
  | layoutReplace (fn q n : Nat) (errs : List MemErr)
  | layoutUnload (fn q n : Nat)
  | placementMove (fn q n : Nat) (errs : List MemErr)
  | blockMap (fn q n : Nat)
  | blockUnmap (fn q n : Nat)
  | copy (fn q n : Nat) (errs : List MemErr)
  | fill (fn q n : Nat) (errs : List MemErr)
  | tierHint (fn q n : Nat)
  | quotaSet (fn q n : Nat)
  | peerMap (fn q n : Nat)
  | lendRecall (fn q n : Nat)
  | hostWrite (fn q n : Nat) (data : List Byte) (errs : List MemErr)
  | hostRead (fn q n : Nat) (errs : List MemErr)
  | run (fn q n : Nat) (errs : List MemErr)
  | streamLoad (fn q n : Nat) (errs : List MemErr)
  | streamResume (fn q n : Nat)
  | shapeWrite (fn q n : Nat) (errs : List MemErr)
  | sessionOpen (fn q n : Nat)
  | sessionClose (fn q n : Nat)
  | stepCmd (fn q n : Nat) (errs : List MemErr)
  | sessionPause (fn q n : Nat)
  | sessionResume (fn q n : Nat)
  | sessionCancel (fn q n : Nat)
  | prefixLookup (fn q n : Nat) (errs : List MemErr)
  | kvPark (fn q n : Nat)
  | kvUnpark (fn q n : Nat)
  | kvRelease (fn q n : Nat)
  | kvTtlSet (fn q n : Nat)
  | kvConfigure (fn q n : Nat)
  | weightWrite (fn q n : Nat) (image : List Byte)
  | weightLoad (fn q n : Nat) (err : ReadErr) (chan : Nat)
  | weightLoadBroadcast (fn q n : Nat) (err : ReadErr) (chan : Nat)
  | weightReplace (fn q n : Nat) (err : ReadErr) (chan : Nat)
  | weightDelete (fn q n : Nat)
  | adapterAttach (fn q n : Nat) (err : ReadErr) (chan : Nat)
  | adapterDetach (fn q n : Nat)
  | jobOpen (fn q n : Nat) (errs : List MemErr)
  | jobClose (fn q n : Nat)
  | linkRestore (fn q n : Nat) (lanes chip port : Nat)
  | linkRecalibrate (fn q n : Nat)
  | selfTest (fn q n : Nat) (result : TestResult)
  | showdown (fn q n : Nat)
  | showdownArm (fn q n : Nat)
  | memoryRetrain (fn q n : Nat) (us : Nat)
  -- queue registers and doorbells
  | sqTailDoorbell (fn q value : Nat)
  | cqHeadDoorbell (fn q value : Nat)
  | queueEnable (fn q : Nat) (value : Word)
  | queueDisable (fn q : Nat) (value : Word)
  | queueReset (fn q : Nat) (value : Word)
  | queueResume (fn q : Nat) (value : Word)
  | queueResetDone (fn q : Nat)
  -- the Command Processor
  | commandFetch (fn q : Nat) (packet : List Word)
  | commandStart (fn q n : Nat) (errs : List MemErr)
  | commandRerun (fn q n : Nat) (errs : List MemErr)
  | commandCommit (fn q : Nat) (errs : List MemErr)
  | coalesceTimeout (fn q : Nat)
  | rateToken (fn vector : Nat)
  -- cores
  | dealUpdateApply (core : Nat)
  | tileArrive (core port channel : Nat)
  | pairIssue (core : Nat) (err : CoreErr)
  | storeWrite (core hand : Nat) (err : CoreErr)
  | drain (core hand : Nat) (err : CoreErr)
  | vectorRun (core : Nat) (err : CoreErr)
  | configItem (core : Nat)
  | loadAcksComplete (ctx layout : Nat)
  | cutArrive (core port channel : Nat)
  | cutComplete (core : Nat)
  | replaceCutDone (ctx layout : Nat)
  | faultedQuiescence (fn q n : Nat)
  -- Stream Engines
  | bindingTakeEffect (cluster slot : Nat)
  | streamRequest (cluster : Nat)
  | streamDataReturn (cluster slot : Nat) (err : ReadErr) (piece : Nat)
  | runAheadRequest (cluster slot : Nat)
  | outputTileArrive (ctx layout station : Nat)
  | faultRecordWrite (cluster slot : Nat)
  | streamAutoResume (cluster slot : Nat)
  | weightLateTimeout (cluster slot : Nat)
  | watchdogTimeout (ctx : Nat)
  | regionUngate (region : Nat)
  | regionGate (region : Nat)
  -- tiers
  | blockMapChangeDone (entry : Nat)
  | frameRelease (frame : Nat)
  | frameScrub (frame : Nat)
  | migrationStart (entry : Nat)
  | migrationDone (entry : Nat) (err : ReadErr)
  | patrolScrubRead (frame : Nat) (err : ReadErr)
  | scrubPassOverdue (island : Nat)
  | recallBorrowerDeadline (chip first : Nat)
  | recallLenderDeadline (first : Nat)
  -- KV
  | parkStart (ctx record : Nat)
  | parkComplete (ctx record : Nat)
  | kvRecordExpire (ctx record : Nat)
  | parkBringIn (ctx record index : Nat) (err : ReadErr)
  | cancelRetire (fn q n : Nat)
  -- expert routing
  | expertSelect (ctx layer : Nat)
  | combineRow (ctx layer row : Nat)
  | routerWaitTimeout (ctx : Nat)
  | dispatch (port : Nat) (frame : Frame) (ok : Bool)
  | dispatchEnd (port : Nat) (frame : Frame) (ok : Bool)
  | returnTile (port : Nat) (frame : Frame) (ok : Bool)
  | returnEnd (port : Nat) (frame : Frame) (ok : Bool)
  | retire (port : Nat) (frame : Frame) (ok : Bool)
  | generationAnnounce (port : Nat) (frame : Frame) (ok : Bool)
  | generationRetiredReport (port : Nat) (frame : Frame) (ok : Bool)
  | stepOutcomes (port : Nat) (frame : Frame) (ok : Bool)
  | stepReady (port : Nat) (frame : Frame) (ok : Bool)
  | stepCommitMessage (port : Nat) (frame : Frame) (ok : Bool)
  | entryDropped (port : Nat) (frame : Frame) (ok : Bool)
  | dealPublication (port : Nat) (frame : Frame) (ok : Bool)
  | pieceRequest (port : Nat) (frame : Frame) (ok : Bool)
  | readerStart (port : Nat) (frame : Frame) (ok : Bool)
  | doneNotice (port : Nat) (frame : Frame) (ok : Bool)
  | piece (port : Nat) (frame : Frame) (ok : Bool)
  | weightReplaceCopy (fn q n : Nat) (err : ReadErr) (place : Nat)
  | stripeErase (slot : Nat) (park : Bool)
  -- Quenor frames and timers
  | linkAck (port : Nat) (frame : Frame) (ok : Bool)
  | lane (port : Nat) (frame : Frame) (ok : Bool)
  | tile (port : Nat) (frame : Frame) (ok : Bool)
  | credit (port : Nat) (frame : Frame) (ok : Bool)
  | tear (port : Nat) (frame : Frame) (ok : Bool)
  | memRead (port : Nat) (frame : Frame) (ok : Bool) (err : ReadErr)
  | memWrite (port : Nat) (frame : Frame) (ok : Bool)
  | memData (port : Nat) (frame : Frame) (ok : Bool)
  | memDone (port : Nat) (frame : Frame) (ok : Bool)
  | memRefused (port : Nat) (frame : Frame) (ok : Bool)
  | unreachable (port : Nat) (frame : Frame) (ok : Bool)
  | reserve (port : Nat) (frame : Frame) (ok : Bool)
  | confirm (port : Nat) (frame : Frame) (ok : Bool)
  | reject (port : Nat) (frame : Frame) (ok : Bool)
  | lendRequest (port : Nat) (frame : Frame) (ok : Bool)
  | lendGrant (port : Nat) (frame : Frame) (ok : Bool)
  | lendRefusal (port : Nat) (frame : Frame) (ok : Bool)
  | recallNotice (port : Nat) (frame : Frame) (ok : Bool)
  | lendFrameRelease (port : Nat) (frame : Frame) (ok : Bool)
  | replayTimeout (port : Nat)
  | ackTimer (port : Nat)
  | lossOfLock (port lanes : Nat)
  | creditTimer (circuit : Nat)
  | creditTimeout (circuit : Nat)
  | peerRequestTimeout (request : Nat)
  | jobOpenTimeout (fn q n : Nat)
  | laneRetrainDone (port : Nat) (good : Bool)
  | routeDataWrite (value : Word)
  -- partitions, resets, registers. The windows of registerWrite and registerReadClear: bar 0 is BAR0, 2 BAR2, 4 BAR4; 3 is the
  -- function's MSI-X Message Control word and 1 the I3C target, whose offset is the register index and where size 0 only
  -- selects a register (log entry 36)
  | partReset (value : Word)
  | warmReset (value : Word)
  | functionLevelReset (fn : Nat)
  | vfRemoval (numVfs : Nat)
  | partitionResetDone (part : Nat)
  | warmResetDone
  | faultRingEnable (fn : Nat) (value : Word)
  | frHeadWrite (fn : Nat) (value : Word)
  | intMaskWrite (fn : Nat) (value : Word)
  | registerWrite (fn bar offset size : Nat) (value : W64)
  | registerReadClear (fn bar offset size : Nat)
  -- mailbox requests
  | info
  | logRead
  | logAck
  | firstErrorRead
  | sensorRead
  | counterRead
  | snapshotRead
  | snapshotRelease
  | updateWrite
  | updateCommit
  | floorRaise
  | identity
  | attest
  | debugWindow
  | ownerSet
  | fenceRead
  | debugWindowRead (offset bytes : Nat)
  -- management island
  | mgmtWatchdogExpire
  | mgmtServiceResume
  | errorReport (island cls code : Nat) (ctx : Option Nat) (detail : W64)
  | errorHubDrain (island : Nat)
  | sensorSample (temps : List Int) (supplies currents volts : List Nat)
  | showdownPin
  | showdownCountMatch
  | showdownTileArrive (core port channel : Nat)
  | showdownCutTimeout
  | correlationMarkerArrive (island : Nat)
  | frequencyChange (cluster code : Nat)
  -- power and package
  | standbyPowerGood
  | standbyPowerLoss
  | locationRetry (finds : BootFinds)
  | tcRelease (finds : BootFinds)
  | tcOffReq
  | tcHeartbeatWrite (value : Word)
  | heartbeatTimeout
  | railBringupTimeout
  | recoveryImageWrite (offset : Nat) (data : List Byte)
  | recoveryImageEnd (length : Nat)
  | recoveryVerifyDone
  | recoveryOwnerKey (key : List Byte)
  | perstAssert
  | perstDeassert
  | powerBrakeAssert
  | powerBrakeRelease
  | governorTick (power : Nat) (temps : List Int)
  | thermalCapStep (die : Nat)
  | iccLimitExceed (die : Nat)
  | iccCapRaise (die : Nat)
  | analogThermalTrip (die : Nat)
  | railFault (die : Nat)
  | precisionLower (die : Option Nat)
  | precisionRestore
  | retrainWaitTimeout (fn q n : Nat)
  | neighbourLinkRestore (port lanes chip nport : Nat)
  | vfEnable (numVfs : Nat)
  | railSettleTimeout (die : Nat)
  | retrainTargetQuiet (fn q n : Nat)
  | testAccessPort (ir : Nat) (tdi : List Bool)
  deriving DecidableEq, Repr

end Sys2Proof
end

