-- ==== Sys2Proof/Decode.lean ====
section
/-! DEFINITION. The block has no instruction words: every row of spec/opcode_table.json is an event with no bit
fields, so no number spells a command (log entry 6). -/
namespace Sys2Proof

/-- The command a word of a row's bits spells: none, since no row gives bits. -/
def decodeTableWord (nbits w : Nat) : Option Instr :=
  match nbits, w with
  | _, _ => none

end Sys2Proof
end

