-- ==== Sys2Proof/Config.lean ====
section
/-! DEFINITION. What an implementation fixes and the manual leaves open: constants without a body, so that no proof
can see a value of them (log entries 2, 3, 4, 10, 18, 25, 32 and 140). -/
namespace Sys2Proof.Config

/-- The n-th free value a step takes; `State.free` counts them (log entry 2). -/
opaque freeValue : Nat → Nat

/-- Where the device would like to place something: the choice number and the number of candidates. Placement is open
(R44): a frame, a shadow block and a migration target may lie anywhere their tier has room (log entry 3). -/
opaque framePick : Nat → Nat → Nat

/-- Whether a signature over a signed image is good for the key given: signed bytes, signature, key (R453, R456). The
manual names SLH-DSA and gives no arithmetic of it (log entry 4). -/
opaque signatureGood : List Byte → List Byte → List Byte → Bool

/-- The bytes of a certificate, of a signature the device makes or of a derived public key, by what it is over and the
number of bytes asked (R457, R458; log entry 4). -/
opaque identityBytes : List Byte → Nat → List Byte

/-- The fabric offset in space 1 of a window frame of a lender: chip and frame. It follows from the lender's own lend
window and channel capacities (R396), which the borrower's state does not hold (log entry 10). -/
opaque lendOffset : Nat → Nat → Nat

/-- The first byte, in a cluster's memory, of the declaration of a layout: by context, layout and cluster. Only a fabric
address can tell it (log entry 25). -/
opaque declPlace : Nat → Nat

/-- Segments of a flash channel: its capacity, which the manual bounds and no register tells (R365; log entry 18). -/
opaque flashSegments : Nat → Nat

/-- The supply V(k) in microvolts that the trims section gives a die and a code, and the margin of its core rail (code 0): the
section's bytes, die, code. The manual gives the section no layout (R444, R470; log entry 32). -/
opaque trimSupply : List Byte → Nat → Nat → Nat

/-- The manufacturer field of IDCODE, which the manual does not give (R497; log entry 140). -/
opaque idcodeMaker : Nat

end Sys2Proof.Config
end

