-- ==== Sys2Proof/Machine/State.lean ====
section
/-! DEFINITION. The state of the block as plain data, grouped by chapter, the reasons it can stop, and the state right
after reset. A `Tbl` lists only what differs from its reset value, so an absent index reads as the default structure. -/
namespace Sys2Proof.Machine

/-- Why the block would stop with a fault. -/
inductive Fault where
  /-- No meaning of this model raises it: the manual gives every event an outcome (R3). Safe. -/
  | noOutcome
  deriving DecidableEq, Repr

/-- Why the block refuses a command. -/
inductive Refusal where
  /-- A command whose meaning is not written yet, rejected by name. Safe: the run stops. -/
  | notModelled (mnemonic : String)
  /-- TEST_ACCESS_PORT raises it for an instruction outside Table 17.5 while DEBUG_ALLOWED is 1 (R497): the manual
  does not say what the debug unit then does. Safe: the run stops. -/
  | debugInstruction
  deriving DecidableEq, Repr

/-! ## Tiles, tokens and configuration (chapters 3 to 6) -/

/-- A tile: the header of Table 3.3 and the bytes of its flits (R92, R94). -/
structure Tile where
  fmt    : Nat := 0     -- FORMAT, Table 3.4
  rowsM1 : Nat := 0
  colsM1 : Nat := 0
  kind   : Nat := 0     -- 0 data, 1 control, 2 cut, 3 showdown
  ctx    : Nat := 0
  hand   : Nat := 0
  deal   : Nat := 0
  tag    : Nat := 0
  data   : List Byte := []
  early  : List Nat := []     -- the model's own: blocks a tile fetched ahead was read from, while it has not been sent (R245)
  own    : Option (Nat × Nat × Nat) := none   -- the model's own: the command whose stream delivered the tile or what it was made from (R188)
  deriving DecidableEq, Repr

/-- A destination byte of a route (Table 4.8). -/
structure Dest where
  target   : Nat := 0
  channel  : Nat := 0
  destHand : Nat := 0
  deriving DecidableEq, Repr

/-- A route entry (Table 4.7). -/
structure Route where
  source : Nat := 0
  select : Nat := 0
  dests  : List Dest := []
  ringBase   : Nat := 0
  ringSizeM1 : Nat := 0
  deriving DecidableEq, Repr

/-- A station entry (Table 4.5). -/
structure Station where
  rx : Nat := 0
  ry : Nat := 0
  port : Nat := 0
  channel : Nat := 0
  out : Bool := false          -- DIR: 1 output
  hand : Nat := 0
  fmt : Nat := 0
  bufTiles : Nat := 0
  deriving DecidableEq, Repr

/-- A resource declaration (Table 4.4). -/
structure Decl where
  cx : Nat := 0
  cy : Nat := 0
  descriptors : Nat := 0
  cmem64K : Nat := 0
  deriving DecidableEq, Repr

/-- A hand image (Table 4.6, Table 4.7 and the chain words). -/
structure HandImage where
  rx : Nat := 0
  ry : Nat := 0
  hand : Nat := 0
  routeOnly : Bool := false
  routes : List Route := []
  chain : List Word := []
  inFmt : Nat := 0
  outFmt : Nat := 0
  unpaired0 : Bool := false
  unpaired1 : Bool := false
  outColsM1 : Nat := 0
  defaultTok : List Word := []
  sramBase : Nat := 0
  sramSizeM1 : Nat := 0
  deriving DecidableEq, Repr

/-- A parsed layout image (R135 to R140). -/
structure Image where
  layoutId : Word := 0
  rectW : Nat := 0
  rectH : Nat := 0
  foldM1 : Nat := 0
  spareTolerant : Bool := false
  decls : List Decl := []
  stations : List Station := []
  hands : List HandImage := []
  spares : List HandImage := []
  deriving DecidableEq, Repr

/-- An accumulator lane (R180): a 192-bit two's complement value in units of 2^-96 and a flag. -/
structure Lane where
  v    : Int := 0
  flag : Nat := 0      -- 0 finite, 1 +infinity, 2 -infinity, 3 NaN
  deriving DecidableEq, Repr

/-- An entry of the Pairing Buffer (R104, R107): a tag and the halves that have arrived. -/
structure PairEntry where
  tag  : Nat
  data : Option Tile
  ctl  : Option Tile
  deriving DecidableEq, Repr

/-- A hand (Table 3.10). -/
structure Hand where
  ctx : Nat := 0
  layout : Nat := 0
  deal : Nat := 0
  img : HandImage := {}
  passes : Nat := 1            -- FP32 pass count written at command start (R133)
  roundTz : Bool := false      -- rounding mode written at command start (R133)
  waiting : Bool := false      -- written ahead of a cut; takes no tiles until the cut completes (R124)
  bank : Tbl Lane := []        -- accumulator bank
  bankRowsM1 : Nat := 0        -- valid rows of the last A tile added (R161)
  pairs : Tbl (List PairEntry) := []   -- by input pair 0 to 2
  expTag : Tbl Nat := []       -- expected tag of each input pair (R106)
  p2Last : Option Nat := none  -- tag of the last completed P2 write (R110)
  stale : Nat := 0
  unrouted : Nat := 0
  issued : Nat := 0
  wideCount : Nat := 0         -- R515
  readCount : Tbl Nat := []    -- R516, by output index
  outCount : Tbl Nat := []     -- R212, by output index
  rowState : Tbl Nat := []     -- R209, register * 32 + row
  preload : List Tile := []    -- the wide tile on the accumulator preload (log entry 149)
  drainTag : Option Nat := none   -- a pair with DRAIN waits for a Tile Queue entry (R112)
  drainOwn : Option (Nat × Nat × Nat) := none   -- the model's own: the command of that pair's A tile (R188)
  cutInputs : List Nat := []   -- inputs (port * 4 + channel) whose cut is latched or forwarded (R122)
  ringPos : Tbl Nat := []      -- next position of each direct-write ring, by route index
  deriving DecidableEq, Repr

/-- A Tile Queue entry (R111). -/
structure TqEntry where
  hand : Nat := 0
  tile : Tile := {}
  deriving DecidableEq, Repr

/-- An item on a core's configuration port (R146, R152, R155). -/
inductive CfgItem where
  | handWrite (slot : Nat) (hand : Hand)
  | dealUpdate (ctx layout deal : Nat)
  | cut (ctx layout : Nat)
  | finish (ctx layout : Nat)
  deriving DecidableEq, Repr

/-- A core (Table 3.1). -/
structure Core where
  fenced : Bool := false
  active : Nat := 0                  -- the active hand (R117)
  runPairs : Nat := 0                -- R118
  hands : Tbl (Option Hand) := []
  tq : List TqEntry := []            -- Tile Queue, oldest first
  inq : Tbl (List Tile) := []        -- pass-through registers: the tiles of an input, by port * 4 + channel (R95)
  turn : Tbl Nat := []               -- by outgoing port * 4 + channel: the input its next round-robin grant begins at (R99)
  heldIn : List Nat := []            -- inputs held by a cut (R122)
  cfg : List CfgItem := []           -- configuration port
  correctable : Nat := 0             -- R90, 16-bit saturating
  badWords : List Nat := []          -- 64-bit words that had an uncorrectable error (R90)
  unrouted : Nat := 0                -- R97, R122
  -- the snapshot registers of a showdown in cut mode (R466)
  snapLatched : Bool := false
  snapIn : Tbl (Nat × Nat × Nat × Bool) := []   -- per input: tiles in flight, first tag, last tag, marker seen
  deriving DecidableEq, Repr

/-! ## Contexts, layouts and streams (chapters 4 and 7) -/

/-- Which stage a layout is in. -/
inductive LayoutPhase where
  | loading       -- items sent, acknowledgements due
  | acked         -- all acknowledgements in, deal published; the command waits to commit
  | loaded
  | cutting       -- a replacement or unload past its commit point (R517)
  | cutDone       -- every cut complete
  deriving DecidableEq, Repr

/-- A loaded layout of a context. -/
structure Layout where
  imageAddr : Nat := 0
  img : Image := {}
  cx : Nat := 0
  cy : Nat := 0
  handBase : Nat := 0
  deal : Nat := 0               -- the deal number held by its hands
  published : Nat := 0          -- the deal number producers have received (R150)
  phase : LayoutPhase := .loading
  acksDue : List Nat := []      -- cores yet to acknowledge
  tags : Tbl Nat := []          -- R138, by input station
  buffers : Tbl (List Tile) := []    -- station buffers (R221)
  idxPos : Tbl Nat := []        -- indices already taken of the first tile of an output station's buffer (R239)
  arrivals : Tbl (List Tile) := []   -- the register before an output station: tiles sent and not yet accepted
  oldDeal : Option Nat := none  -- during a replacement: the deal number the old hands hold
  cutsDue : List Nat := []      -- input stations (buffer keys) whose cut waits for a stream (R155)
  cutStations : List Nat := []  -- output stations (buffer keys) yet to deliver a cut
  cutCores : List Nat := []     -- cores yet to complete their cut
  old : Option (Image × Nat) := none      -- past the commit point: the image being replaced and its hand base
  next : Option (Image × Nat) := none     -- before it: the replacing image and its hand base
  nextAddr : Nat := 0
  nextDeal : Nat := 0
  behind : Bool := false        -- the new hands are written behind the cut (R154)
  unloading : Bool := false     -- a LAYOUT_UNLOAD of it has started (R157)
  redealDue : List Nat := []    -- cores yet to apply a deal update (R152)
  deriving DecidableEq, Repr

/-- KV geometry of a context (R289, R290). -/
structure KvGeom where
  layers : Nat
  groups : Nat
  hpp    : Nat
  dim    : Nat
  fmt    : Nat        -- 0 F8a, 1 F4, 2 INT8
  pool   : Nat        -- context address
  poolBlocks : Nat
  records : Nat
  shards : Nat
  shard  : Nat
  deriving DecidableEq, Repr

/-- One expert of a routed layer (Table 11.3). -/
structure Expert where
  host : Nat
  inSt : Nat
  outSt : Nat
  deriving DecidableEq, Repr

/-- One routed layer (Table 11.2 and its experts). -/
structure RoutedLayer where
  score : Nat
  hidden : Nat
  resid : Nat
  combine : Nat
  capacity : Nat
  hTilesM1 : Nat
  dispFmt : Nat
  ansFmt : Nat
  experts : List Expert
  deriving DecidableEq, Repr

/-- The expert plan kept with a job (R346, R347). -/
structure ExpertPlan where
  layout : Nat
  loadAddr : Nat
  loadEn : Bool
  layers : List RoutedLayer
  deriving DecidableEq, Repr

/-- A station map entry (Table 13.12). -/
structure MapEntry where
  layout : Nat
  station : Nat
  rank : Nat
  remLayout : Nat
  remStation : Nat
  deriving DecidableEq, Repr

/-- A piece of an object (Table 12.4) with its index in the piece table. -/
structure Piece where
  index : Nat
  shard : Nat
  layer : Nat
  code : Nat        -- LAYOUT
  src : Nat         -- SRC_OFF
  dst : Nat         -- DST_OFF
  len : Nat
  deriving DecidableEq, Repr

/-- A broadcast reader's announcement of its start, as far as it has come (R378; log entry 12): the object's name, its KIND, how
many pieces it has, and the pieces. -/
structure Announce where
  name : Nat := 0
  kind : Nat := 0
  total : Nat := 0
  pieces : List Piece := []
  deriving DecidableEq, Repr

/-- A job of a context (R407). -/
structure Job where
  jobId : Word
  members : List Nat          -- ascending chip numbers
  rank : Nat
  isOpen : Bool := false
  plan : Option ExpertPlan := none
  map : List MapEntry := []
  mcastRoot : Option Nat := none
  credits : Nat := 64         -- per circuit direction, 512-byte units
  published : Tbl Nat := []   -- deal last published by a rank for a layout: rank * 8 + layout (R409)
  waitTiles : List (Nat × Tile) := []    -- tiles of mapped stations waiting for a publication: map index, tile
  gen : Nat := 0              -- live generation (R360)
  genEnded : Bool := true     -- the live generation's run has ended
  genCounter : Nat := 0       -- the verifier's counter
  retires : List (Nat × Nat) := []       -- generation and rank of retires received (R362)
  reports : List (Nat × Nat) := []       -- verifier: generation and rank of reports
  retired : List Nat := []    -- generations retired in the job
  held : List (Nat × Frame) := []        -- routed tiles of a newer generation held at the ingress, by rank
  stepMsgs : List (Nat × Nat × List Word) := []   -- step messages not yet taken up: subtype, rank, payload (R338)
  announced : Announce := {}              -- the reader's last announcement
  loadReqs : List (Nat × Nat × Nat) := [] -- piece requests at the reader: rank, object name, shard
  dones : List (Nat × Nat) := []          -- done notices at the reader: rank, object name
  tilesIn : List (Nat × Frame) := []      -- TILE frames not yet accepted, by rank (R409)
  deriving DecidableEq, Repr

/-- An attached adapter (R379): its name, shard, DEST and the extents its pieces cover. -/
structure Adapter where
  shared : Bool
  id : Nat
  shard : Nat
  dest : Nat
  extents : List (Nat × Nat)
  deriving DecidableEq, Repr

/-- A context (R132). -/
structure Context where
  live : Bool := false
  part : Nat := 0
  kvSplit : Bool := false
  passes : Nat := 1             -- configured FP32 pass count
  floor : Nat := 1              -- precision floor
  curPasses : Nat := 1          -- after the governor (R479)
  watchdogMs : Nat := 100
  ttl1 : Nat := 0xFFFFFFFF
  ttl2 : Nat := 0xFFFFFFFF
  dealCtr : Nat := 0
  layouts : Tbl (Option Layout) := []
  quota : Tbl (Option Nat) := []     -- by tier; none: the partition ceiling (R274)
  sweep : Nat := 0                   -- sweep position (R271)
  stale : Nat := 0                   -- stale-tile count (R151)
  weightLate : Nat := 0              -- R246
  haltCtr : Nat := 0                 -- halt numbers (R252)
  discarded : Nat := 0               -- R361
  skipped : Tbl Nat := []            -- R353, by routed layer
  dirFull : Nat := 0                 -- R307
  parkedLost : Nat := 0              -- R314
  bases : List (Bool × Nat) := []    -- last 8 distinct bases: shared, OBJECT_ID (R379)
  adapters : List Adapter := []
  geom : Option KvGeom := none
  job : Option Job := none
  barrier : Option (Nat × Nat × Nat) := none  -- the replacement that raised it (R382)
  deriving DecidableEq, Repr

/-- What feeds or drains a stream. -/
inductive StreamSrc where
  | descriptor                          -- a descriptor of Table 7.2
  | tiles (rest : List Tile)            -- tiles the step or the router built (R329)
  | pages (rest : List (Nat × Nat × Nat))    -- page reads of a step: address, format, tile count 1
  | kvOut                               -- appended keys and values (R297)
  | choice (left : Nat) | cand (left : Nat)    -- tiles still to take (R329)
  | routerIn (layer expert : Nat)       -- the selection gives their length (Table 11.4)
  | routerOut (layer expert : Nat)
  | score (layer left : Nat) | hidden (layer left : Nat) | resid (layer left : Nat) | combine (layer left : Nat)
  deriving DecidableEq, Repr

/-- What state a stream is in. -/
inductive StreamState where
  | waiting                             -- its binding waits (R223)
  | running
  | halted (cause id : Nat)
  | ended
  deriving DecidableEq, Repr

/-- A descriptor slot in use (R219, R226, Table 7.8). -/
structure Slot where
  fn : Nat := 0
  q : Nat := 0
  n : Nat := 0
  bind : Nat := 0                -- binding index
  ctx : Nat := 0
  layout : Nat := 0
  station : Nat := 0
  order : Nat := 0               -- start order of its command, for waiting bindings
  desc : List Word := []         -- words 0 to 11
  count : Nat := 0               -- entries or indices, after COUNT_IND
  src : StreamSrc := .descriptor
  state : StreamState := .waiting
  posEntry : Nat := 0
  posRepeat : Nat := 0
  posTile : Nat := 0             -- position of the next tile to request
  marks : List (Nat × Nat × Nat) := []  -- positions of the tiles requested and not yet delivered, oldest first
  delivered : Nat := 0
  inflight : List (Tile × List (Nat × Nat)) := []   -- tiles requested and not yet returned, with the context addresses read and their frames
  ahead : List (Tile × List (Nat × Nat)) := []      -- run-ahead tiles (R244), likewise
  trump : Bool := false
  stalled : Bool := false
  deadline : Nat := 0
  moves : List Nat := []         -- island counts of the last deliveries (R240)
  indices : List Nat := []       -- indices taken from an output station (R239)
  haltAddr : Nat := 0
  deriving DecidableEq, Repr

/-! ## Commands and queues (chapter 2) -/

/-- Where a command in the execution window stands. -/
inductive CmdPhase where
  | fetched | running | preempted
  | ending        -- ended by a cancel; its work is still being retired (R85)
  | finished
  deriving DecidableEq, Repr

/-- A shadow block of a command (R265). The bytes lie in the frame; `mask` has bit u for a unit that was written. -/
structure Shadow where
  frame : Nat := 0
  tier : Nat := 0
  mask : Nat := 0
  code : Nat := 0           -- stored layout code the writer supplied
  deriving DecidableEq, Repr

/-- A block a command maps (R265): its entry appears at commit. -/
structure NewMap where
  frame : Nat := 0
  tier : Nat := 0
  code : Nat := 0
  hint : Nat := 0
  chip : Nat := 0
  deriving DecidableEq, Repr

/-- One KV position a step has appended and not yet committed (R297). -/
structure KvAppend where
  page : Nat
  isV : Bool
  row : Nat                 -- position within the entry, or tree node
  codes : List Nat          -- HPP * D element codes
  scales : List Nat         -- slots of the quantised lines, in the order of Table 9.3
  deriving DecidableEq, Repr

/-- One batch entry of a running step. -/
structure StepEntry where
  session : Nat := 0
  gen : Bool := true              -- generate (KIND 0)
  outcome : Nat := 0
  version : Nat := 0
  startLen : Nat := 0
  firstRow : Nat := 0
  toks : List Nat := []           -- tokens of its rows
  tree : Bool := false
  choice : Tbl Nat := []          -- by row within the entry
  cands : Tbl (List Nat) := []    -- CAND rows by row within the entry
  kv : List KvAppend := []
  path : List Nat := []           -- accepted path
  dropAcks : List Nat := []       -- ranks yet to acknowledge a drop (R341)
  candRec : Nat := 0xFFFFFF       -- candidate record of a tree (R309)
  tailSlot : Option Nat := none   -- slot of the tail the entry found partly filled and held here (R303)
  newToks : List Nat := []        -- tokens reported (R333)
  newCand : Option (List Nat) := none     -- CAND row kept for the next tree
  deriving DecidableEq, Repr

/-- A running step (R326). -/
structure StepRun where
  layout : Nat := 0
  span : Bool := false
  chunk : Nat := 0
  resultAddr : Nat := 0
  shapeOut : Option Nat := none
  treeNodes : Nat := 1
  heads : Nat := 0
  parents : List Nat := []        -- template: PARENT of each node
  rows : Nat := 0
  entries : List StepEntry := []
  gen : Nat := 0                  -- batch generation of a routed step
  outcomesIn : Bool := false      -- outcomes and paths received from, or sent by, the verifier
  readies : List Nat := []        -- ranks that replied ready
  isReady : Bool := false
  committed : Bool := false       -- the verifier's commit has arrived, or been sent
  kvSent : Bool := false          -- accepted positions that belong to another device have been sent (R309)
  told : Bool := false            -- the job's other members know of the end of this run (R76 case 4)
  skipped : Tbl Nat := []         -- rows skipped per routed layer (R353)
  chosen : Tbl Nat := []          -- rows selected, layer * 512 + expert (R354)
  kvRows : List (List Nat) := []  -- FP32 codes of the rows of the append entry now arriving
  deriving DecidableEq, Repr

/-- What a command keeps of its own work between start and commit. -/
inductive Work where
  | none
  | cancelOf (targets : List (Nat × Bool)) (reached : Bool)    -- CANCEL: serial numbers of its targets as its start found them, ended by
                                                               -- it; whether it has reached them
  | sessionCancel (session : Nat) (count : Nat) (steps : List (Nat × Nat × Nat))
  | supplied (count : Nat)            -- SUPPLY_TIME held behind an earlier set: the management counter at the moment of supply (R48, R50)
  | correlation (num : Nat)
  | plan (words : List Word)
  | ctx (num : Nat)
  | layout (num : Nat) (stage : Nat)
  | move (num : Nat) (stage : Nat) (addr : Nat)
  | mapping (first count : Nat)
  | quota (tier blocks : Nat)
  | hints (first count mode hint : Nat)
  | peer (chip first count : Nat) (granted : Bool)
  | recall (first count released refused : Nat) (done : Bool)
  | streams (total out : Nat)
  | step (st : StepRun)
  | session (num : Nat)
  | lookup (session : Nat) (keys : List Nat) (attach : Nat)
  | kv (root : Nat) (count : Nat)
  | geom (g : KvGeom)
  | object (key : Nat) (stripes : List Nat)
  | load (name kind shard dest pieces : Nat) (extents : List (Nat × Nat))
  | broadcast (name shard dest reader kind sent : Nat) (got : List (Nat × Nat × Nat)) (loaded : Bool)
  | replace (name shard dest stage starts layers held : Nat) (staging : List (Nat × Nat))
  | job (id : Word)
  | port (p lane : Nat) (all : Bool) (left : Nat)
  | restore (port lanes chip nport : Nat)       -- LINK_RESTORE whose training has ended
  | target (kind index : Nat) (stage : Nat)
  | showdown (num : Nat)
  deriving DecidableEq, Repr

/-- An overflow a command has met (R158, R159): layout, station, core, code, tag. -/
structure Overflow where
  layout : Nat
  station : Nat
  core : Nat
  code : Nat
  tag : Nat
  deriving DecidableEq, Repr

/-- A command in a queue's execution window. -/
structure Cmd where
  n : Nat := 0                    -- serial number in its queue
  words : List Word := []         -- the packet as fetched
  eff : List Word := []           -- the packet with shape words substituted (R63)
  phase : CmdPhase := .fetched
  status : Nat := 0
  resA : Word := 0
  resB : Word := 0
  runs : Nat := 0
  preempts : Nat := 0
  np : Bool := false              -- NO_PREEMPT honoured (R78)
  denied : Bool := false          -- NO_PREEMPT was not honoured at a start and the denied counter has counted it (R78)
  moved : Bool := false           -- the last pre-emption was a placement move
  keeps : Bool := false           -- an INVALID_PARAMETER it ends with leaves its context as it is (R153)
  overflowed : Bool := false      -- the overflow indication (R188)
  reduced : Bool := false         -- re-run with fewer FP32 passes (R191)
  begun : Bool := false           -- its opcode's work has begun since the start
  pastCommit : Bool := false      -- past its commit point (R69, R517, R384)
  commitCount : Option Nat := none    -- the Command Processor's counter at a commit point that lies before the record (R80)
  order : Nat := 0                -- start order, from 1; 0 before its first start
  behind : Option (Nat × Nat × Nat) := none   -- pre-empted in favour of this command (R77)
  overflows : List Overflow := []
  waits : Option Nat := none      -- the Block Map entry whose block it last waited for (R258)
  malformed : List (Nat × Nat × Nat) := []    -- status, binding, entry of malformed list entries (R225)
  shadows : Tbl Shadow := []      -- by block number
  maps : Tbl NewMap := []         -- by block number
  work : Work := .none
  deriving DecidableEq, Repr

/-- The four states of a queue (R56). -/
inductive QState where
  | disabled | running | stopped | resetting
  deriving DecidableEq, Repr

/-- A submission queue and its completion queue (Tables 2.5 to 2.12). -/
structure Queue where
  sqBase : W64 := 0
  cqBase : W64 := 0
  sqSizeM1 : Nat := 0
  cqSizeM1 : Nat := 0
  preemptLimit : Nat := 3
  windowM1 : Nat := 0x1F
  stopOnError : Bool := false
  state : QState := .disabled
  stopStatus : Nat := 0
  cfgErr : Bool := false
  dbErr : Bool := false
  sqHead : Nat := 0
  sqTail : Nat := 0
  cqTail : Nat := 0
  phase : Bool := true
  cqHead : Nat := 0
  coalCount : Nat := 0
  intOnError : Bool := true
  vector : Nat := 0
  coalTime : Nat := 0
  lastSeq : Word := 0
  eligible : Nat := 0             -- eligible records written and not yet signalled (R82)
  nextN : Nat := 0                -- serial number of the next command fetched
  window : List Cmd := []         -- submission order
  deriving DecidableEq, Repr

/-- An MSI-X vector with its rate bucket (R424, R427). -/
structure Vec where
  addr : W64 := 0
  data : Word := 0
  masked : Bool := true
  pending : Bool := false
  tokens : Nat := 8
  held : Bool := false
  deriving DecidableEq, Repr

/-- A PCIe function's registers (Tables 2.3 and 14.9). -/
structure Fn where
  queues : Tbl Queue := []
  vecs : Tbl Vec := []
  msixEnable : Bool := false
  msixMask : Bool := false
  intCause : Nat := 0
  intMask : Nat := 0
  intVector : Nat := 0
  preemptDenied : Nat := 0
  intHeld : Nat := 0
  frBase : W64 := 0
  frEnable : Bool := false
  frSizeM1 : Nat := 0
  frHead : Nat := 0
  frTail : Nat := 0
  frWait : List (Nat × List Word) := []   -- unwritten fault records, by descriptor slot (R251)
  fetchFrom : Nat := 0            -- the queue at which the next round of fetches begins (R430)
  deriving DecidableEq, Repr

/-- The command interface. -/
structure Cp where
  fns : Tbl Fn := []
  starts : Nat := 0               -- start order of the last command started
  halted : Bool := false          -- a thermal trip stopped fetching and commits (Table 16.3)
  deriving DecidableEq, Repr

/-! ## Partitions (chapter 14) -/

/-- A partition: its record of the Protection Set-up and its commit sequence number. -/
structure Part where
  record : List Word := []        -- 16 words of Table 14.3; empty reads as zeros
  commitSeq : Word := 1           -- R75
  prep : Option (Nat × Nat × Nat) := none     -- the command whose commit is in preparation: function, queue, serial number (R267)
  resetting : Bool := false       -- orders 1 to 5 of Table 14.8
  shares : Bool := true           -- shares and slots in force (order 3 of Table 14.8)
  deriving DecidableEq, Repr

/-- Package-level partition state. -/
structure Parts where
  recs : Tbl Part := []
  protLock : Bool := false        -- PROT_LOCK: set by applyPlan, cleared only by a cold reset, a device warm reset and the restart after a stop (R12, R423)
  planId : Word := 0
  accepted : Option (List Word) := none    -- the accepted plan
  warm : Bool := false            -- a device warm reset is in progress
  numVfs : Nat := 0
  vfEnable : Bool := false
  deriving DecidableEq, Repr

/-! ## Memory tiers (chapter 8) -/

/-- A Block Map entry (Table 8.1). -/
structure BmEntry where
  state : Nat := 0
  recalled : Bool := false
  tier : Nat := 0
  hint : Nat := 0
  code : Nat := 0                 -- LAYOUT
  part : Nat := 0
  ctx : Nat := 0
  epoch : Nat := 0
  loc : Nat := 0                  -- LOCATION
  chip : Nat := 0
  access : Nat := 0
  block : Nat := 0
  deriving DecidableEq, Repr

/-- What a near or bulk frame is doing (R262, R285, R287). -/
inductive FrameState where
  | free | used | draining | queued | retired
  deriving DecidableEq, Repr

/-- A migration in progress or queued (R270, R273). -/
structure Migration where
  src : Nat := 0                  -- source frame id, or window frame for a home copy
  dst : Nat := 0                  -- destination frame id
  tier : Nat := 0                 -- destination tier
  kind : Nat := 0                 -- 0 background, 1 explicit move, 2 bring-in, 3 home copy
  begun : Bool := false
  deriving DecidableEq, Repr

/-- An entry change whose invalidations are outstanding (R261) and what it unnamed: a frame, or a lender's chip and
window frame (R262, R279). -/
structure Change where
  entry : Nat
  fid   : Option Nat := none
  peer  : Option (Nat × Nat) := none
  deriving DecidableEq, Repr

/-- A Lend Table record (R277). -/
structure Lend where
  chip : Nat
  part : Nat
  first : Nat
  count : Nat
  recalling : Bool
  deriving DecidableEq, Repr

/-- Memory tiers. A frame id is 2^24 * k + frame, k 0 to 3 for a near stack and 4 to 19 for a bulk channel. -/
structure Tiers where
  bm : Tbl BmEntry := []
  frames : Tbl FrameState := []
  nearBytes : Tbl Nat := []       -- capacity of each stack, found at training
  bulkBytes : Tbl Nat := []
  mem : List Host.Cell := []      -- bytes of the frames: frame id * 2^18 + byte
  caches : List (Nat × Nat × BmEntry) := []     -- region, entry index, cached copy
  changes : List Change := []
  migrations : Tbl (Option Migration) := []     -- by Block Map entry index
  lendW : Nat := 0                -- lend window frames
  lendMask : Nat := 0             -- its bulk channels
  lends : List Lend := []         -- Lend Table records in use
  lendScrub : List Nat := []      -- window frames returned and not yet scrubbed
  recalls : List (Nat × Nat) := []     -- first, count of this device's recalls before order 5 (Table 8.5)
  corrected : Tbl Nat := []       -- R284, by memory island identifier
  borrowRecalls : List (Nat × Nat × Nat) := []  -- chip, first, count of recalls received
  peerBuf : List Host.Cell := []  -- bytes read from lenders: entry * 2^18 + offset
  peerGot : List (Nat × Nat) := []              -- entry and 256-byte chunk received
  retraining : List (Nat × Nat) := []           -- targets in retraining: kind, index (R463)
  deriving DecidableEq, Repr

/-! ## KV cache and sessions (chapters 9 and 10) -/

/-- A KV block record (Table 9.4). -/
structure KvRec where
  state : Nat := 0
  stage : Nat := 0
  filled : Nat := 0
  published : Bool := false
  held : Bool := false
  parent : Nat := 0xFFFFFF
  refs : Nat := 0
  active : Nat := 0
  slot : Nat := 0xFFFFFF
  depth : Nat := 0
  pdEntry : Nat := 0xFFFFFFFF
  parkAt : Nat := 0
  freeAt : Nat := 0
  hash : Nat := 0
  toks : List Nat := []           -- FILLED token ids
  deriving DecidableEq, Repr

/-- A Prefix Directory entry (Table 9.5). -/
structure PdEntry where
  used : Bool := false            -- the model's own: the slot has held an entry, so its next use raises GEN (R305)
  valid : Bool := false
  gen : Nat := 0
  ctx : Nat := 0
  parentKey : Nat := 0
  record : Nat := 0
  hash : Nat := 0
  deriving DecidableEq, Repr

/-- A Park Log entry (Table 9.7) with its data. -/
structure ParkEntry where
  entry : Nat
  ctx : Nat
  part : Nat
  record : Nat
  index : Nat
  count : Nat
  first : Nat
  closing : Bool
  dead : Bool := false
  data : List Host.Cell := []
  stripe : Nat := 0         -- park stripe, and the channel of its segment (R366)
  chan : Nat := 0
  deriving DecidableEq, Repr

/-- KV cache state. Records are keyed ctx * 2^24 + record number. -/
structure Kv where
  recs : Tbl KvRec := []
  dir : Tbl PdEntry := []         -- by directory entry index
  park : List ParkEntry := []
  nextEntry : Nat := 0            -- ENTRY of the next Park Log entry
  stripe : Option (Nat × Nat × Nat) := none   -- the open park stripe: its place, sequence number, entry places used
  deriving DecidableEq, Repr

/-- A Session Table entry (Table 10.1), its return state and kept CAND row. -/
structure Session where
  state : Nat := 0
  unpub : Bool := false           -- the bit that keeps its records out of the directory
  truncated : Bool := false
  spec : Bool := false
  ttlOwn : Bool := false
  pendingValid : Bool := false
  ended : Bool := false
  ctx : Nat := 0
  deadline : Nat := 0
  length : Nat := 0
  tail : Nat := 0xFFFFFF
  pending : Nat := 0
  input : Nat := 0
  inputCount : Nat := 0
  inputDone : Nat := 0
  maxLength : Nat := 0
  stopId : Nat := 0
  ttl1 : Nat := 0
  ttl2 : Nat := 0
  seed : Nat := 0
  version : Nat := 0
  returnState : Nat := 0          -- while CANCELLING (R340)
  cand : Option (List Nat) := none     -- R331
  deriving DecidableEq, Repr

/-- Expert Router working state of a running routed step, by context and layer (R346). -/
structure RouterLayer where
  scores : List (List Nat) := []       -- score rows as FP32 codes
  selected : Tbl (List Nat) := []      -- rows selected, ascending, by expert
  done : Bool := false                 -- selection made
  sent : Bool := false                 -- its dispatch tiles and ends have been sent
  returned : Bool := false             -- its return tiles and ends have been sent
  hiddenRows : List (List Nat) := []   -- owned rows, codes of DISPATCH_FORMAT
  residRows : List (List Nat) := []
  placed : Tbl (List Nat) := []        -- elements placed for IN: expert * 2^17 + row
  answers : Tbl (List Nat) := []       -- elements of answers at the owner: expert * 2^17 + row
  outRows : Tbl (List Nat) := []       -- elements of answers from OUT at the host: expert * 2^17 + row
  dispEnds : List Nat := []            -- ranks whose dispatch end arrived
  retEnds : List Nat := []
  combined : Tbl (List Nat) := []      -- combined rows held, by row
  deriving DecidableEq, Repr

/-! ## Weight Store (chapters 12 and 16) -/

/-- An Object Table entry (R372, R373). -/
structure Obj where
  owner : Nat := 0
  shared : Bool := false
  id : Nat := 0
  present : Bool := false         -- false: reserved by a running WEIGHT_WRITE
  isSealed : Bool := false        -- the parity segment of its last stripe is sealed (R487)
  slots : List Nat := []          -- stripe slots in order
  firstSeq : Nat := 0             -- stripe sequence number of its first stripe (R366)
  bytes : Nat := 0
  image : List Byte := []
  deriving DecidableEq, Repr

/-- The Weight Store and the Park Log's stripe accounting. -/
structure Store where
  objs : Tbl (Option Obj) := []   -- by key: owner * 2^33 + shared * 2^32 + OBJECT_ID
  ghosts : List (Nat × Nat × Obj) := []   -- deleted objects with readers: key, start order of the deletion (R374)
  slots : Tbl Nat := []           -- stripe slot: 0 free, 1 present or being written, 2 dead
  slotCount : Nat := 0            -- R487
  parkSegments : Nat := 0         -- park stripes of the division
  parkDead : List Nat := []       -- park stripes freed and not yet erased
  seq : Nat := 0                  -- stripe sequence number
  rebuilt : Tbl Nat := []         -- R368, by channel
  chkNumber : Nat := 0            -- store checkpoint number (R488)
  chkSlots : Tbl Nat := []        -- slot states of the last checkpoint
  chkObjs : Tbl (Option Obj) := []        -- the Object Table of the last checkpoint
  deriving DecidableEq, Repr

/-! ## Fabric (chapter 13) -/

/-- A Quenor port (Table 13.10 and the link layer). -/
structure Port where
  lanesUp : Nat := 0
  lanesFailed : Nat := 0
  recalActive : Bool := false
  recalLane : Nat := 0
  downCause : Nat := 0
  mappedOut : Bool := false
  state : Nat := 0                -- 0 not in service, 1 training, 2 up, 3 down
  nChip : Nat := 0
  nPort : Nat := 0
  correctedCw : Nat := 0
  uncorrectedCw : Nat := 0
  replays : Nat := 0
  crcErrors : Nat := 0
  discarded : Nat := 0
  txSeq : Nat := 0                -- LSEQ of the last frame sent
  rxSeq : Nat := 0                -- last LSEQ accepted in order
  replayBuf : List Frame := []    -- unacknowledged frames, oldest first
  held : List Frame := []         -- frames for which the replay buffer has no room yet (R392)
  failedReplays : Nat := 0
  unreported : Nat := 0           -- accepted frames not yet reported in a LACK
  tx : List Frame := []           -- frames sent, oldest first (output)
  deriving DecidableEq, Repr

/-- A circuit table entry (Table 13.7) and its credits. -/
structure Circuit where
  state : Nat := 0
  kind : Nat := 0
  transit : Bool := false
  part : Nat := 0
  ctx : Nat := 0
  chainValid : Bool := false
  chain : Nat := 0
  jobId : Word := 0
  aPort : Nat := 0
  aLocal : Bool := false
  aCircuit : Nat := 0
  aChip : Nat := 0
  bPort : Nat := 0
  bLocal : Bool := false
  bCircuit : Nat := 0
  bChip : Nat := 0
  limit : Nat := 0                -- credits of a direction
  avail : Nat := 0                -- credits the sender holds
  owed : Nat := 0                 -- credits this receiver has yet to return
  sendQ : List Frame := []        -- frames waiting for credits
  deriving DecidableEq, Repr

/-- An outstanding peer request (R402): a read of a chunk of a peer block, or a PEER_MAP's request for frames. -/
structure PeerReq where
  id : Nat
  chip : Nat
  ctx : Nat
  lend : Bool := false            -- a request for `count` frames
  count : Nat := 0
  frame : Nat := 0                -- window frame it reads
  entry : Nat := 0                -- Block Map entry it reads
  chunk : Nat := 0                -- 256-byte chunk of the block it reads
  port : Nat := 0                 -- port it was last sent on
  tries : Nat := 1
  deriving DecidableEq, Repr

/-- A RESERVE that left on a port and has not been answered: its initiator and target, and the entry that waits for the
answer; none where that entry has been torn. CONFIRM and REJECT carry no index of the receiver (log entry 23). -/
structure Resv where
  port : Nat
  initiator : Nat
  target : Nat
  entry : Option Nat
  deriving DecidableEq, Repr

/-- The fabric. -/
structure Fab where
  chip : Nat := 0                 -- FAB_ID.CHIP
  routeIndex : Nat := 0
  routes : Tbl Nat := []          -- routing entries, Table 13.6
  ports : Tbl Port := []
  circuits : Tbl Circuit := []
  waiting : List (Nat × Frame) := []      -- RESERVEs waiting at this target: arrival port, frame
  resv : List Resv := []                  -- RESERVEs passed on, oldest first
  reqs : List PeerReq := []
  nextReq : Nat := 0
  deriving DecidableEq, Repr

/-! ## Management island (chapters 1, 15, 16, 17) -/

/-- An island's counter (R45, R46). -/
structure Island where
  running : Bool := false
  started : Bool := false         -- it has run since cold reset
  count : W64 := 0
  acc : Nat := 0                  -- fraction of a cycle, in parts of 10^6
  khz : Nat := 0                  -- frequency
  latch : Option W64 := none      -- counter latched by a correlation marker
  snap : Option W64 := none       -- counter latched by a showdown
  fifo : List (List Word) := []   -- error FIFO, oldest first (R447)
  lost : Tbl Nat := []            -- class counters (R448)
  first : Option (List Word) := none   -- first-error capture (R450)
  later : Nat := 0
  deriving DecidableEq, Repr

/-- Where the device stands in the boot (Table 15.1). -/
inductive Boot where
  | off            -- held in cold reset, STBY_PG low
  | recovery       -- R443
  | ready          -- order 4: waiting for release
  | noLocation     -- stopped at order 6 (R442)
  | up             -- order 10 reached
  | tripped        -- after a thermal trip
  deriving DecidableEq, Repr

/-- A slot pair of the management NOR flash and its selector (R453, R454). -/
structure Slots where
  a : List Host.Cell := []
  b : List Host.Cell := []
  activeB : Bool := false
  useB    : Bool := false         -- the slot this boot runs from
  pending : Bool := false         -- the inactive slot is marked pending
  tried : Bool := false           -- the pending slot is being tried by this boot
  floor : Nat := 0
  deriving DecidableEq, Repr

/-- A persistent fence record (R445). -/
structure FenceRec where
  gen : Nat
  cluster : Bool
  index : Nat
  cause : Nat
  deriving DecidableEq, Repr

/-- An arming of the showdown triggers (R464). -/
structure Arming where
  cut : Bool
  pin : Bool
  cls : Option Nat
  count : Option (Nat × W64)
  drive : Bool
  deriving DecidableEq, Repr

/-- The management island. -/
structure Mgmt where
  boot : Boot := .off
  fw : Slots := {}
  cfg : Slots := {}
  ownerKey : Option (List Byte) := none
  fenceRecs : List FenceRec := []         -- the active bank
  fenceBank : Bool := false
  fenceGen : Nat := 0                     -- FENCE_GEN in force (R445)
  fencedCores : List Nat := []            -- Fence Map, ascending
  fencedClusters : List Nat := []
  log : List (List Word) := []            -- retained records, oldest first
  nextLog : Nat := 0
  logAck : Option Nat := none             -- last LOG_ACK
  corrNum : Nat := 0
  corrHost : Nat := 0                     -- host time of the running set
  corrMgmt : W64 := 0                     -- management count when its marker was sent
  corrDue : List Nat := []                -- islands yet to answer
  temps : List Int := []                  -- 96 samples, 1/16 degree
  supplies : List Nat := []
  currents : List Nat := []
  volts : List Nat := []
  reqArea : List Host.Cell := []          -- mailbox request area
  respArea : List Host.Cell := []
  mbDoneSeq : Nat := 0
  mbSeq : Nat := 0                        -- SEQ of the running request
  mbRestarted : Bool := false
  mbOverrun : Bool := false
  mbDone : Bool := false
  mbBusy : Bool := false
  restarting : Bool := false              -- a watchdog restart is in progress
  dbgEnable : Bool := false
  dbgCtx : Nat := 0
  dbgBase : Nat := 0
  dbgEver : Bool := false
  arming : Option Arming := none
  showNum : Nat := 0
  showHeld : Bool := false
  showCut : Bool := false
  showIncomplete : Bool := false
  showRecorded : Bool := false            -- its type 0x13 record is written
  showCounts : Tbl W64 := []              -- counters latched, by block number of R467
  showItems : Tbl (List (Nat × Nat)) := []        -- items latched, by block number
  showFree : Nat := 0                     -- index of the free values of item 0x1000 of this showdown
  showStations : List (Nat × Nat × Nat × Nat × Bool) := []   -- ctx, layout, output station, place of its item, marker seen
  missed : Nat := 0
  testing : List Nat := []                -- clusters under self-test
  cmemFaults : List Nat := []             -- clusters whose cluster memory has had an uncorrectable error (R27; log entry 158)
  recoverImg : List Host.Cell := []       -- bytes received by the recovery target
  recoverLen : Nat := 0
  recoverStat : Nat := 0                  -- status byte of R498
  deriving DecidableEq, Repr

/-! ## Power (chapter 16) and pins (chapter 17) -/

/-- One die's power and thermal state. -/
structure Die where
  ceiling : Nat := 0x50
  thermCap : Nat := 80
  iccCap : Nat := 80
  level : Nat := 0
  hotC : Int := 0
  rail : Nat := 0                 -- core rail set point, uV
  raiseHeld : Bool := false       -- code raises withheld until the rail settles (R505)
  overIcc : Bool := false
  deriving DecidableEq, Repr

/-- The governor and the tray controller's registers. -/
structure Power where
  gov : Nat := 0x50               -- G
  sinceChange : Nat := 100        -- microseconds since G last changed, saturating at 100
  powerW : Nat := 0
  dies : Tbl Die := []
  codes : Tbl Nat := []           -- frequency code by cluster; 32 when unlisted
  supplies : Tbl Nat := []        -- local supply by cluster, uV
  gated : List Nat := []          -- gated regions
  brake : Bool := false
  tripped : Bool := false
  hbLost : Bool := false
  hostLimit : Nat := 0xAF0
  boardMax : Nat := 0x960         -- as taken at release
  hbTimeout : Nat := 5
  brakeCode : Nat := 40
  policyLimit : Nat := 0x960
  tcBoard : Nat := 0x960
  hbSeq : Word := 0
  running : Bool := false
  ready : Bool := false
  releaseHeld : Option BootFinds := none  -- a RELEASE that came before READY, with what the boot will find (R483)
  railFault : Bool := false       -- a bring-up was abandoned and none has succeeded since (R451, R502)
  groups : Nat := 0               -- rail groups up, 0 to 4
  i3cIndex : Nat := 0             -- register last selected on the I3C port
  stbyPg : Bool := false
  perst : Bool := true            -- PERST_N asserted
  linkUp : Bool := false          -- the PCIe link is up or training
  retryStatus : Bool := true      -- configuration requests are answered with retry status
  jtagIr : Nat := 0               -- test access port instruction, 0 BYPASS
  jtagDr : List Bool := []        -- bits shifted out
  jtagCells : List Bool := []     -- bits last shifted into the boundary register
  thermtripN : Bool := true       -- pins, true is released
  showdownDrive : Nat := 0        -- 1 us low pulses driven on SHOWDOWN_N (output)
  loc : Option Nat := none        -- location code as sampled at order 6
  deriving DecidableEq, Repr

/-! ## What the host sees -/

/-- An MSI-X message sent. -/
structure Msg where
  fn : Nat
  vector : Nat
  addr : W64
  data : Word
  deriving DecidableEq, Repr

/-- The host's side: bytes the device wrote to host memory, messages it sent, the last register read. -/
structure HostSide where
  mem : List Host.Cell := []
  msgs : List Msg := []
  readData : W64 := 0
  readBytes : List Byte := []
  deriving DecidableEq, Repr

/-- The state. -/
structure State where
  pending : List Instr            -- commands waiting, first in first out
  cp      : Cp
  parts   : Parts
  ctxs    : Tbl Context
  cores   : Tbl Core
  slots   : Tbl (Option Slot)     -- descriptor slots, cluster * 64 + slot
  cmem    : List Host.Cell        -- cluster memory of layouts, ((ctx * 8 + layout) * 192 + cluster) * 2^24 + byte
  sram    : List Host.Cell        -- core-local SRAM, core * 2^18 + byte
  tiers   : Tiers
  kv      : Kv
  sess    : Tbl Session
  router  : Tbl RouterLayer       -- ctx * 256 + routed layer
  store   : Store
  fab     : Fab
  mgmt    : Mgmt
  isl     : Tbl Island            -- by island identifier (Table 1.7)
  power   : Power
  host    : HostSide
  free    : Nat                   -- the model's own: index of the next free value
  deriving DecidableEq, Repr

/-- The machine right after reset: held in cold reset with the standby rail not yet good (R500). -/
def State.reset : State where
  pending := []
  cp := {}
  parts := {}
  ctxs := []
  cores := []
  slots := []
  cmem := []
  sram := []
  tiers := {}
  kv := {}
  sess := []
  router := []
  store := {}
  fab := {}
  mgmt := {}
  isl := []
  power := {}
  host := {}
  free := 0

end Sys2Proof.Machine
end

