-- ==== Sys2Proof/Machine/Flags.lean ====
section
/-! DEFINITION. Status codes (Table 2.17 to Table 2.24): their names, which of two is reported (R86) and which tear the
context down (the Context column). -/
namespace Sys2Proof.Machine.St

abbrev ok := 0x0000
abbrev okAccOverflow := 0x0001
abbrev okReducedPasses := 0x0002
abbrev preempted := 0x1001
abbrev moved := 0x1002
abbrev contextGone := 0x2001
abbrev invalidOpcode := 0x2002
abbrev reservedField := 0x2003
abbrev invalidParameter := 0x2004
abbrev stationOverflow := 0x2005
abbrev splitMisaligned := 0x2006
abbrev imageInvalid := 0x2007
abbrev residueMismatch := 0x2008
abbrev watchdog := 0x2009
abbrev weightLate := 0x200A
abbrev shapeInvalid := 0x200B
abbrev chainInvalid := 0x200C
abbrev quotaExceeded := 0x3001
abbrev tableFull := 0x3002
abbrev clustersUnavailable := 0x3003
abbrev targetBusy := 0x3004
abbrev circuitsUnavailable := 0x3005
abbrev storeFull := 0x3006
abbrev limitExceeded := 0x3007
abbrev peerLost := 0x4001
abbrev noRoute := 0x4002
abbrev circuitTorn := 0x4003
abbrev creditTimeout := 0x4004
abbrev remoteRefused := 0x4005
abbrev nearUncorrectable := 0x5001
abbrev bulkUncorrectable := 0x5002
abbrev flashUncorrectable := 0x5003
abbrev sramUncorrectable := 0x5004
abbrev blockInvalid := 0x5005
abbrev blockRecalled := 0x5006
abbrev parkLost := 0x5007
abbrev contextNotOwned := 0x6001
abbrev addressNotOwned := 0x6002
abbrev linkClosed := 0x6003
abbrev pfOnly := 0x6004
abbrev restrictedSpace := 0x6005
abbrev byCommand := 0x7001
abbrev queueStopped := 0x7002
abbrev sessionCancelled := 0x7003
abbrev contextDestroyed := 0x7004
abbrev thermalTrip := 0x8001
abbrev clusterFenced := 0x8002
abbrev mgmtUnavailable := 0x8003

end Sys2Proof.Machine.St

namespace Sys2Proof.Machine

/-- The class of a status: bits [15:12] (R15). -/
def statusClass (st : Nat) : Nat := bits st 15 12

/-- The place of a class in the order of R86: 6, 5, 4, 8, 2, 7, 3, 1, and OK after all of them. -/
def classRank : Nat → Nat
  | 6 => 0
  | 5 => 1
  | 4 => 2
  | 8 => 3
  | 2 => 4
  | 7 => 5
  | 3 => 6
  | 1 => 7
  | _ => 8

/-- Whether status a is reported rather than b where both apply to one command (R86). -/
def statusBefore (a b : Nat) : Bool :=
  decide (classRank (statusClass a) < classRank (statusClass b)) ||
  (decide (classRank (statusClass a) = classRank (statusClass b)) && decide (a < b))

/-- A status with its two detail words. -/
structure Verdict where
  status : Nat
  a : Nat := 0
  b : Nat := 0
  deriving DecidableEq, Repr

/-- The verdict reported of two that apply to one command (R86). -/
def Verdict.pick (u v : Verdict) : Verdict := if statusBefore v.status u.status then v else u

/-- The verdict reported of several that apply (R86): none where the list is empty. -/
def pickVerdict : List Verdict → Option Verdict
  | [] => none
  | v :: r => some (r.foldl Verdict.pick v)

/-- Whether a status tears down the context its command names (Context column of Table 2.17 to Table 2.24). -/
def tearsDown (st : Nat) : Bool :=
  (decide (0x2003 ≤ st) && decide (st ≤ 0x200C)) || decide (st = 0x4001) || decide (st = 0x4003) ||
  decide (st = 0x4004) || decide (statusClass st = 5) || decide (st = 0x6002) || decide (st = 0x6003) ||
  decide (st = 0x6005) || decide (st = 0x8001) || decide (st = 0x8002)

end Sys2Proof.Machine
end

