-- ==== Sys2Proof/Machine/Operands.lean ====
section
/-! DEFINITION. The command packet (Tables 2.13 and 2.14): its header fields, what each opcode accepts, and the two
checks every opcode makes of its parameter words: reserved bits and ranges. -/
namespace Sys2Proof.Machine

/-! ### Header fields -/

def opcodeOf (ws : List Word) : Nat := fld (word ws 0) 7 0
def depOf (ws : List Word) : Bool := bit (word ws 0) 8
def intOf (ws : List Word) : Bool := bit (word ws 0) 9
def noPreemptOf (ws : List Word) : Bool := bit (word ws 0) 10
def indirectOf (ws : List Word) : Bool := bit (word ws 0) 11
def tagOf (ws : List Word) : Nat := fld (word ws 0) 31 16
def contextOf (ws : List Word) : Nat := fld (word ws 1) 7 0
def deadlineOf (ws : List Word) : Nat := fld (word ws 1) 11 8
def roundTzOf (ws : List Word) : Bool := bit (word ws 1) 12
def indMaskOf (ws : List Word) : Nat := fld (word ws 13) 10 0
/-- SHAPE_BASE: words 14 and 15, bits [47:0]. -/
def shapeBaseOf (ws : List Word) : Nat := wnat ws 14 + fld (word ws 15) 15 0 * 2 ^ 32

/-- A 48-bit context address in words i [31:0] and i + 1 [15:0]. -/
def addr48 (ws : List Word) (i : Nat) : Nat := wnat ws i + fld (word ws (i + 1)) 15 0 * 2 ^ 32

/-- A row of Table 2.14. -/
structure OpInfo where
  pf : Bool       -- marked PF
  ctx : Bool      -- word 1 CONTEXT names a context
  ind : Bool      -- INDIRECT accepted
  deriving DecidableEq, Repr

/-- Table 2.14; every other value is reserved (R65). -/
def opInfo (op : Nat) : Option OpInfo :=
  if op = 0x00 ∨ op = 0x01 ∨ op = 0x10 ∨ op = 0x60 ∨ op = 0x64 ∨ op = 0x80 then some ⟨false, false, false⟩
  else if op = 0x02 ∨ op = 0x03 ∨ op = 0x27 ∨ op = 0x72 ∨ op = 0x73 ∨ op = 0x81 ∨ op = 0x82 ∨ op = 0x83 then
    some ⟨true, false, false⟩
  else if op = 0x22 ∨ op = 0x23 ∨ op = 0x28 ∨ op = 0x29 ∨ op = 0x30 ∨ op = 0x31 ∨ op = 0x42 then
    some ⟨false, true, true⟩
  else if (0x11 ≤ op ∧ op ≤ 0x16) ∨ (0x20 ≤ op ∧ op ≤ 0x26) ∨ op = 0x32 ∨ op = 0x33 ∨ op = 0x40 ∨ op = 0x41 ∨
      (0x43 ≤ op ∧ op ≤ 0x45) ∨ (0x50 ≤ op ∧ op ≤ 0x54) ∨ (0x61 ≤ op ∧ op ≤ 0x63) ∨ op = 0x65 ∨ op = 0x66 ∨
      op = 0x70 ∨ op = 0x71 then some ⟨false, true, false⟩
  else none

/-- Whether the packet's opcode names a context (R68, R84). -/
def namesContext (ws : List Word) : Bool :=
  match opInfo (opcodeOf ws) with
  | some i => i.ctx
  | none => false

/-- The header's reserved bits: the first word that has one set (Table 2.13). -/
def headerReserved (ws : List Word) (info : OpInfo) : Option Nat :=
  if fld (word ws 0) 15 12 ≠ 0 then some 0
  else if fld (word ws 1) 31 13 ≠ 0 ∨ (info.ctx = false ∧ contextOf ws ≠ 0) then some 1
  else if indirectOf ws ∧ info.ind ∧ fld (word ws 13) 31 11 ≠ 0 then some 13
  else if indirectOf ws ∧ info.ind ∧ fld (word ws 15) 31 16 ≠ 0 then some 15
  else none

/-- The words an opcode defines, each with a mask of the bits it uses; every other bit of words 2 to 15 is reserved.
Words 13 to 15 belong to the header where INDIRECT is set. Answers the words with a reserved bit set, in order. -/
def reservedWords (ws : List Word) (used : List (Nat × Nat)) : List Nat :=
  let top := if indirectOf ws then 11 else 14
  (List.range top).filterMap (fun j =>
    let i := j + 2
    let m := tget 0 used i
    if wnat ws i &&& (0xFFFFFFFF - m) ≠ 0 then some i else none)

/-- The first word with a reserved bit set. -/
def reservedWord (ws : List Word) (used : List (Nat × Nat)) : Option Nat := (reservedWords ws used).head?

/-- A check of a parameter: where it fails, the verdict. -/
structure Check where
  bad : Bool
  v : Verdict
  deriving DecidableEq, Repr

/-- INVALID_PARAMETER naming a word where the condition fails. -/
def param (ok : Bool) (w : Nat) : Check := ⟨!ok, ⟨St.invalidParameter, w, 0⟩⟩

/-- RESERVED_FIELD naming a word where an encoding of it is reserved. -/
def resv (ok : Bool) (w : Nat) : Check := ⟨!ok, ⟨St.reservedField, w, 0⟩⟩

/-- Any other verdict where the condition fails. -/
def need (ok : Bool) (st a b : Nat) : Check := ⟨!ok, ⟨st, a, b⟩⟩

/-- The verdict of a list of checks: of those that fail, the one R86 reports; of equal statuses, the first listed. -/
def verdictOf (cs : List Check) : Option Verdict :=
  pickVerdict ((cs.filter (fun c => c.bad)).map (fun c => c.v))

/-- The reserved-bit check of an opcode's words. -/
def reservedCheck (ws : List Word) (used : List (Nat × Nat)) : List Check :=
  (reservedWords ws used).map (fun i => ⟨true, ⟨St.reservedField, i, 0⟩⟩)

/-- A verdict over a word that INDIRECT substituted becomes SHAPE_INVALID with the word and its value (R63). -/
def shapeVerdict (ws eff : List Word) (v : Verdict) : Verdict :=
  if indirectOf ws ∧ (v.status = St.invalidParameter ∨ v.status = St.reservedField) ∧ 2 ≤ v.a ∧ v.a ≤ 12 ∧
      nbit (indMaskOf ws) (v.a - 2) then
    ⟨St.shapeInvalid, v.a, wnat eff v.a⟩
  else v

/-- The same for a verdict over the address in words A and A + 1: a substituted high word alone makes it SHAPE_INVALID too. -/
def addrVerdict (ws eff : List Word) (v : Verdict) : Verdict :=
  let u := shapeVerdict ws eff v
  if u = v ∧ v.a ≤ 12 then
    let h := shapeVerdict ws eff { v with a := v.a + 1 }
    if h.status = St.shapeInvalid then h else v
  else u

/-- The checks of a command whose words INDIRECT may have substituted: each carries the status its word takes, before one is picked
(R63, R86). -/
def shapeChecks (ws eff : List Word) (cs : List Check) : List Check := cs.map (fun c => { c with v := shapeVerdict ws eff c.v })

end Sys2Proof.Machine
end

