-- ==== Sys2Proof/Machine/Ops.lean ====
section
/-! DEFINITION. The named operations over the state: reading and changing one queue, command, context, layout, core or
slot; who owns what; the numbering of cores and their containers; island counters; and the next free value. -/
namespace Sys2Proof.Machine

/-- The outcome of every command. -/
abbrev Out := Host.Outcome State Fault Refusal

/-- The effect where the event's condition holds; nothing happens where it does not (log entry 1). -/
def onlyIf (c : Bool) (s t : State) : Out := .next (if c then t else s)

/-! ### Functions, queues and commands -/

def State.fnOf (s : State) (f : Nat) : Fn := tget {} s.cp.fns f
def State.modFn (s : State) (f : Nat) (g : Fn → Fn) : State :=
  { s with cp := { s.cp with fns := tmod {} s.cp.fns f g } }
def State.queueOf (s : State) (f q : Nat) : Queue := tget {} (s.fnOf f).queues q
def State.modQueue (s : State) (f q : Nat) (g : Queue → Queue) : State :=
  s.modFn f (fun x => { x with queues := tmod {} x.queues q g })
/-- The command with serial number n of a queue, while it is in the execution window. -/
def State.cmdOf (s : State) (f q n : Nat) : Option Cmd := (s.queueOf f q).window.find? (fun c => c.n = n)
def State.modCmd (s : State) (f q n : Nat) (g : Cmd → Cmd) : State :=
  s.modQueue f q (fun x => { x with window := x.window.map (fun c => if c.n = n then g c else c) })
/-- Every command in an execution window: function, queue, command. -/
def State.allCmds (s : State) : List (Nat × Nat × Cmd) :=
  s.cp.fns.flatMap (fun p => p.2.queues.flatMap (fun r => r.2.window.map (fun c => (p.1, r.1, c))))
/-- Changing every command that meets a condition. -/
def State.mapCmds (s : State) (p : Nat → Nat → Cmd → Bool) (g : Cmd → Cmd) : State :=
  { s with cp := { s.cp with fns := s.cp.fns.map (fun a =>
      (a.1, { a.2 with queues := a.2.queues.map (fun b =>
        (b.1, { b.2 with window := b.2.window.map (fun c => if p a.1 b.1 c then g c else c) })) })) } }

/-- The context a command acts on. -/
def Cmd.ctx (c : Cmd) : Nat := contextOf c.words
/-- The opcode of a command. -/
def Cmd.op (c : Cmd) : Nat := opcodeOf c.words
/-- Whether a command has not completed and is at work: started, and neither finished nor waiting for a re-run. -/
def Cmd.isRunning (c : Cmd) : Bool := decide (c.phase = .running)
/-- Whether a command has completed its work and waits to commit. -/
def Cmd.isFinished (c : Cmd) : Bool := decide (c.phase = .finished)
/-- A command ends with a verdict: it holds the one R86 reports of the verdicts that apply to it. -/
def Cmd.finish (c : Cmd) (v : Verdict) : Cmd :=
  let old : Verdict := ⟨c.status, c.resA.toNat, c.resB.toNat⟩
  let w := if c.phase = .finished ∨ c.status ≠ 0 then Verdict.pick old v else v
  { c with phase := .finished, status := w.status, resA := w32 w.a, resB := w32 w.b }

/-- A command finishes its work with a verdict. -/
def State.finish (s : State) (f q n : Nat) (v : Verdict) : State := s.modCmd f q n (fun c => c.finish v)
/-- It finishes with status OK and two result words. -/
def State.done (s : State) (f q n a b : Nat) : State := s.finish f q n ⟨St.ok, a, b⟩
/-- What the command keeps of its own work. -/
def State.setWork (s : State) (f q n : Nat) (w : Work) : State :=
  s.modCmd f q n (fun c => { c with work := w, begun := true })

/-- The started command (f, q, n) with opcode op, where there is one. -/
def State.started (s : State) (f q n op : Nat) : Option Cmd :=
  match s.cmdOf f q n with
  | some c => if c.phase = .running ∧ c.op = op then some c else none
  | none => none

/-- The next stage of a started command's work; nothing where no such command has started (log entry 1). -/
def State.work (s : State) (f q n op : Nat) (g : Cmd → State) : Out :=
  match s.started f q n op with
  | some c => .next (g c)
  | none => .next s

/-- A command's work after its parameter checks: where one fails, the command ends with its verdict (R63, R86). -/
def State.checked (s : State) (f q n : Nat) (c : Cmd) (cs : List Check) (t : State) : State :=
  match verdictOf (shapeChecks c.words c.eff cs) with
  | some v => s.finish f q n v
  | none => t

/-! ### Partitions (Table 14.1, Table 14.3) -/

def State.partOf (s : State) (p : Nat) : Part := tget {} s.parts.recs p
def State.modPart (s : State) (p : Nat) (g : Part → Part) : State :=
  { s with parts := { s.parts with recs := tmod {} s.parts.recs p g } }
/-- Field [hi:lo] of word i of a partition's record. -/
def State.pfld (s : State) (p i hi lo : Nat) : Nat := fld (word (s.partOf p).record i) hi lo
def State.partEnabled (s : State) (p : Nat) : Bool := s.pfld p 6 0 0 = 1
/-- The partition whose range holds a number, by the range's base and count. -/
def State.partWith (s : State) (base count : Nat → Nat) (k : Nat) : Option Nat :=
  firstBelow 64 (fun p => s.partEnabled p && decide (base p ≤ k) && decide (k < base p + count p))
def State.ctxBase (s : State) (p : Nat) : Nat := s.pfld p 6 15 8
def State.ctxCount (s : State) (p : Nat) : Nat := s.pfld p 6 24 16
/-- The partition whose range holds a context number. -/
def State.ctxOwner (s : State) (c : Nat) : Option Nat := s.partWith s.ctxBase s.ctxCount c
def State.sessBase (s : State) (p : Nat) : Nat := s.pfld p 7 11 0
def State.sessCount (s : State) (p : Nat) : Nat := s.pfld p 7 24 12
def State.bmBase (s : State) (p : Nat) : Nat := s.pfld p 8 25 0
def State.bmLog2 (s : State) (p : Nat) : Nat := s.pfld p 8 30 26
def State.pdBase (s : State) (p : Nat) : Nat := s.pfld p 9 23 0
def State.pdLog2 (s : State) (p : Nat) : Nat := s.pfld p 9 28 24
/-- The owner of a cluster; a cluster no enabled record names belongs to partition 0 (R420, R29). -/
def State.clusterOwner (s : State) (cl : Nat) : Nat :=
  (firstBelow 64 (fun p => s.partEnabled p && nbit (wnat (s.partOf p).record (cl / 32)) (cl % 32))).getD 0
/-- Function n exists: the physical function always, a virtual one while SR-IOV enables it (R423). -/
def State.fnExists (s : State) (f : Nat) : Bool :=
  decide (f = 0) || (s.parts.vfEnable && decide (f ≤ s.parts.numVfs) && decide (f < 64))
/-- Software reaches the device over PCIe: the link is up and configuration requests are no longer retried (R441, R506). -/
def State.hostLive (s : State) : Bool := s.power.linkUp && !s.power.retryStatus
/-- The registers of function f answer: it exists and its partition is in no reset (R432). -/
def State.fnLive (s : State) (f : Nat) : Bool := s.hostLive && s.fnExists f && !(s.partOf f).resetting
/-- Execution slots a partition holds: its commands from fetch to completion record (R430). -/
def State.slotsHeld (s : State) (p : Nat) : Nat :=
  sumNat ((s.fnOf p).queues.map (fun q => q.2.window.length))

/-! ### Numbering of cores and their containers (R17, R18) -/

def coreX (c : Nat) : Nat := c % 64
def coreY (c : Nat) : Nat := c / 64
def coreAt (x y : Nat) : Nat := y * 64 + x
/-- The cluster of the core at (x, y), as the pseudocode of `locate` states. -/
def clusterAt (x y : Nat) : Nat :=
  (((y / 24) * 2 + x / 32) * 4 + (y % 24 / 12) * 2 + x % 32 / 16) * 12 + (y % 24 % 12 / 4) * 4 + x % 32 % 16 / 4
def clusterOf (c : Nat) : Nat := clusterAt (coreX c) (coreY c)
def regionOfCluster (cl : Nat) : Nat := cl / 12
def dieOfCluster (cl : Nat) : Nat := cl / 48
/-- The cluster at column cx and row cy of the device's 16 x 12 clusters (R143). -/
def clusterAtGrid (cx cy : Nat) : Nat := clusterAt (4 * cx) (4 * cy)
/-- Column and row of a cluster. -/
def clusterCol (cl : Nat) : Nat := (dieOfCluster cl % 2) * 8 + (cl / 12 % 4 % 2) * 4 + cl % 12 % 4
def clusterRow (cl : Nat) : Nat := (dieOfCluster cl / 2) * 6 + (cl / 12 % 4 / 2) * 3 + cl % 12 / 4
/-- The sixteen cores of a cluster, by core within cluster. -/
def coresOfCluster (cl : Nat) : List Nat :=
  (List.range 16).map (fun i => coreAt (4 * clusterCol cl + i % 4) (4 * clusterRow cl + i / 4))
/-- The neighbour across a port: 0 north, 1 east, 2 south, 3 west; none at the grid's edge. -/
def neighbour (c port : Nat) : Option Nat :=
  let x := coreX c
  let y := coreY c
  match port with
  | 0 => if y = 0 then none else some (coreAt x (y - 1))
  | 1 => if x = 63 then none else some (coreAt (x + 1) y)
  | 2 => if y = 47 then none else some (coreAt x (y + 1))
  | 3 => if x = 0 then none else some (coreAt (x - 1) y)
  | _ => none

/-! ### Cores, hands, contexts, layouts, slots -/

def State.coreOf (s : State) (c : Nat) : Core := tget {} s.cores c
def State.modCore (s : State) (c : Nat) (g : Core → Core) : State := { s with cores := tmod {} s.cores c g }
def State.handOf (s : State) (c h : Nat) : Option Hand := tget none (s.coreOf c).hands h
def State.modHand (s : State) (c h : Nat) (g : Hand → Hand) : State :=
  s.modCore c (fun k => { k with hands := tmod none k.hands h (fun o => o.map g) })

def State.ctxOf (s : State) (c : Nat) : Context := tget {} s.ctxs c
def State.modCtx (s : State) (c : Nat) (g : Context → Context) : State := { s with ctxs := tmod {} s.ctxs c g }
def State.ctxLive (s : State) (c : Nat) : Bool := (s.ctxOf c).live
def State.layoutOf (s : State) (c l : Nat) : Option Layout := tget none (s.ctxOf c).layouts l
def State.modLayout (s : State) (c l : Nat) (g : Layout → Layout) : State :=
  s.modCtx c (fun x => { x with layouts := tmod none x.layouts l (fun o => o.map g) })
def State.setLayout (s : State) (c l : Nat) (o : Option Layout) : State :=
  s.modCtx c (fun x => { x with layouts := tset none x.layouts l o })

def State.slotOf (s : State) (cl k : Nat) : Option Slot := tget none s.slots (cl * 64 + k)
def State.modSlot (s : State) (cl k : Nat) (g : Slot → Slot) : State :=
  { s with slots := tmod none s.slots (cl * 64 + k) (fun o => o.map g) }
def State.setSlot (s : State) (cl k : Nat) (o : Option Slot) : State :=
  { s with slots := tset none s.slots (cl * 64 + k) o }
/-- The descriptor slots in use: cluster * 64 + slot and its content. -/
def State.usedSlots (s : State) : List (Nat × Slot) :=
  s.slots.filterMap (fun p => p.2.map (fun v => (p.1, v)))
/-- The slots whose stream belongs to a command. -/
def State.cmdSlots (s : State) (f q n : Nat) : List (Nat × Slot) :=
  s.usedSlots.filter (fun p => p.2.fn = f && p.2.q = q && p.2.n = n)

def State.sessOf (s : State) (k : Nat) : Session := tget {} s.sess k
def State.modSess (s : State) (k : Nat) (g : Session → Session) : State := { s with sess := tmod {} s.sess k g }
def State.portOf (s : State) (p : Nat) : Port := tget {} s.fab.ports p
def State.modPort (s : State) (p : Nat) (g : Port → Port) : State :=
  { s with fab := { s.fab with ports := tmod {} s.fab.ports p g } }
def State.circOf (s : State) (k : Nat) : Circuit := tget {} s.fab.circuits k
def State.modCirc (s : State) (k : Nat) (g : Circuit → Circuit) : State :=
  { s with fab := { s.fab with circuits := tmod {} s.fab.circuits k g } }
def State.dieOf (s : State) (d : Nat) : Die := tget {} s.power.dies d
def State.modDie (s : State) (d : Nat) (g : Die → Die) : State :=
  { s with power := { s.power with dies := tmod {} s.power.dies d g } }

/-- A station's core: the rectangle's origin plus its position (R143). -/
def stationCore (l : Layout) (st : Station) : Nat := coreAt (4 * l.cx + st.rx) (4 * l.cy + st.ry)
/-- The clusters of a layout's rectangle. -/
def rectClusters (cx cy w h : Nat) : List Nat :=
  (List.range (w * h)).map (fun i => clusterAtGrid (cx + i % w) (cy + i / w))
def Layout.clusters (l : Layout) : List Nat := rectClusters l.cx l.cy l.img.rectW l.img.rectH
/-- The loaded layouts of a context: number and layout. -/
def Context.loaded (c : Context) : List (Nat × Layout) := c.layouts.filterMap (fun p => p.2.map (fun l => (p.1, l)))
/-- Every layout of the device: context, number, layout. -/
def State.allLayouts (s : State) : List (Nat × Nat × Layout) :=
  s.ctxs.flatMap (fun c => c.2.loaded.map (fun l => (c.1, l.1, l.2)))

/-- The stations of a layout by buffer key: an index of its image, or 1,024 plus an index of the image being replaced
(R155). -/
def Layout.stations (l : Layout) : List (Nat × Station) :=
  l.img.stations.zipIdx.map (fun p => (p.2, p.1)) ++
  (match l.old with
    | some o => o.1.stations.zipIdx.map (fun p => (1024 + p.2, p.1))
    | none => [])
/-- The station with a buffer key. -/
def Layout.stationOf (l : Layout) (key : Nat) : Option Station := (l.stations.find? (fun p => p.1 = key)).map (fun p => p.2)
/-- The hand base and the deal number of a buffer key. -/
def Layout.keyBase (l : Layout) (key : Nat) : Nat :=
  match l.old with
  | some o => if 1024 ≤ key then o.2 else l.handBase
  | none => l.handBase
def Layout.keyDeal (l : Layout) (key : Nat) : Nat := if 1024 ≤ key then l.oldDeal.getD l.deal else l.published

/-- A station found by core, port, channel and direction: context, layout, buffer key, entry. A station of an image
being replaced comes first while it has tiles to send, or its cut to deliver (R155, R224). -/
def State.findStation (s : State) (core port ch : Nat) (out : Bool) : Option (Nat × Nat × Nat × Station) :=
  s.allLayouts.findSome? (fun (c, k, l) =>
    let hits := l.stations.filter (fun p => stationCore l p.2 = core && p.2.port = port && p.2.channel = ch && p.2.out = out)
    let old := hits.find? (fun p => decide (1024 ≤ p.1) &&
      (if out then l.cutStations.contains p.1 else !(tget [] l.buffers p.1).isEmpty))
    match old with
    | some p => some (c, k, p.1, p.2)
    | none => (hits.find? (fun p => decide (p.1 < 1024))).map (fun p => (c, k, p.1, p.2)))

/-! ### Islands (R45 to R47, Table 1.7) -/

def State.islOf (s : State) (k : Nat) : Island := tget {} s.isl k
def State.modIsl (s : State) (k : Nat) (g : Island → Island) : State := { s with isl := tmod {} s.isl k g }
def islNet (r : Nat) : Nat := 0x1000 + r
def islNear (k : Nat) : Nat := 0x2000 + k
def islBulk (k : Nat) : Nat := 0x3000 + k
def islFlash (k : Nat) : Nat := 0x4000 + k
def islQuenor (p : Nat) : Nat := 0x5000 + p
def islPcie : Nat := 0x6000
def islMgmt : Nat := 0x7000
/-- The Command Processor keeps time in the network island of region 0 (Table 4.9). -/
def islCp : Nat := 0x1000

/-- Every island identifier (R40, R47). -/
def allIslands : List Nat :=
  List.range 192 ++ (List.range 16).map islNet ++ (List.range 4).map islNear ++ (List.range 16).map islBulk ++
  (List.range 16).map islFlash ++ (List.range 32).map islQuenor ++ [islPcie, islMgmt]

/-- One nanosecond of a running island: its counter advances by whole cycles of its frequency and the rest is kept
(R46, R513). -/
def Island.tick (i : Island) : Island :=
  if i.running then
    let a := i.acc + i.khz
    { i with count := i.count + BitVec.ofNat 64 (a / 1000000), acc := a % 1000000 }
  else i

/-- A step with an empty queue: one nanosecond passes and every running island counts (log entry 7). -/
def State.idle (s : State) : State := { s with isl := tmap {} s.isl (fun _ i => i.tick) }

/-! ### Free values -/

/-- The next free value (log entry 2). -/
def State.freeNow (s : State) : Nat := Config.freeValue s.free
/-- One free value has been taken. -/
def State.freeNext (s : State) (k : Nat) : State := { s with free := s.free + k }

end Sys2Proof.Machine
end

