-- ==== Sys2Proof/Machine/ConfigImage.lean ====
section
/-! DEFINITION. The images of the management NOR flash (R453, Table 15.7), the sections of the configuration image (R444, Table 15.2),
the supplies its trims give (R31, R36, R470) and which slots a boot runs from (Table 15.1 orders 2 and 3, R454). -/
namespace Sys2Proof.Machine

/-! ### Image header and verification (R453) -/

def Slots.cells (x : Slots) (b : Bool) : List Host.Cell := if b then x.b else x.a
/-- The cells of a slot are replaced. -/
def Slots.setCells (x : Slots) (b : Bool) (m : List Host.Cell) : Slots := if b then { x with b := m } else { x with a := m }

/-- Word i of an image header. -/
def imHead (m : List Host.Cell) (i : Nat) : Nat := cellNat m (4 * i) 4
def imSecurity (m : List Host.Cell) : Nat := imHead m 1
def imVersion (m : List Host.Cell) : Nat := imHead m 2
def imBody (m : List Host.Cell) : Nat := imHead m 3
def imRuntime (m : List Host.Cell) : Nat := imHead m 4
/-- Bytes of an SLH-DSA-SHA2-192s signature. -/
abbrev sigBytes : Nat := 16224
/-- Bytes of the whole image. -/
def imTotal (m : List Host.Cell) : Nat := 64 + imBody m + sigBytes

/-- The header of Table 15.7 for a kind: 0 firmware, 1 configuration. -/
def imHeadOk (kind : Nat) (m : List Host.Cell) : Bool :=
  decide (imHead m 0 = 0x4649 + kind * 2 ^ 16) && decide (imBody m % 64 = 0) &&
  decide (imBody m ≤ (if kind = 0 then 12 else 2) * 2 ^ 20) &&
  (if kind = 0 then decide (imRuntime m ≤ imBody m) else decide (imRuntime m = 0)) &&
  (List.range 11).all (fun i => decide (imHead m (5 + i) = 0))

/-- The signature of a slot's image is good: under the root key for firmware (it stands as the empty key), under the owner key for
configuration (log entry 4). -/
def Mgmt.signed (g : Mgmt) (kind : Nat) (m : List Host.Cell) : Bool :=
  let good := Config.signatureGood (cellRead m 0 (64 + imBody m)) (cellRead m (64 + imBody m) sigBytes)
  if kind = 0 then good [] else match g.ownerKey with
    | some k => good k
    | none => false

def Mgmt.slotsOf (g : Mgmt) (kind : Nat) : Slots := if kind = 0 then g.fw else g.cfg
def Mgmt.modSlots (g : Mgmt) (kind : Nat) (u : Slots → Slots) : Mgmt :=
  if kind = 0 then { g with fw := u g.fw } else { g with cfg := u g.cfg }

/-- An image verifies and is not older than the floor of its kind. -/
def Mgmt.accepts (g : Mgmt) (kind : Nat) (m : List Host.Cell) : Bool :=
  imHeadOk kind m && g.signed kind m && decide ((g.slotsOf kind).floor ≤ imSecurity m)

/-! ### Sections of the configuration image (R444) -/

/-- Word i of the configuration image's body. -/
def cfWord (m : List Host.Cell) (i : Nat) : Nat := cellNat m (64 + 4 * i) 4
/-- A section: its offset in the image and its length in bytes; none where it is missing. Offsets of the table count from the start of
the body (log entry 27). -/
def cfSect (m : List Host.Cell) (kind : Nat) : Option (Nat × Nat) :=
  (firstBelow (bits (cfWord m 1) 7 0) (fun i => bits (cfWord m (16 + 4 * i)) 7 0 = kind)).map (fun i =>
    (64 + cfWord m (16 + 4 * i + 1), cfWord m (16 + 4 * i + 2)))

/-- Every reserved bit of the body's header and of the section table is 0, and every section is of a kind of Table 15.2 (R6, R444). -/
def cfReserved (m : List Host.Cell) : Bool :=
  decide (bits (cfWord m 0) 31 16 = 0) && decide (bits (cfWord m 1) 31 8 = 0) && (List.range 14).all (fun i => decide (cfWord m (2 + i) = 0)) &&
  (List.range (bits (cfWord m 1) 7 0)).all (fun i =>
    decide (1 ≤ cfWord m (16 + 4 * i)) && decide (cfWord m (16 + 4 * i) ≤ 9) && decide (bits (cfWord m (16 + 4 * i + 3)) 31 16 = 0))

/-- Reserved bits within the sections: the lanes of a port above [12:5] (R444 kind 0x04), and the management word above DEBUG_ALLOWED (kind 0x08). -/
def cfFields (m : List Host.Cell) : Bool :=
  (match cfSect m 0x04 with
    | some (o, _) => (List.range 32).all (fun p => decide (cellNat m (o + 4 * p) 4 < 2 ^ 13))
    | none => true) &&
  (match cfSect m 0x08 with
    | some (o, _) => decide (cellNat m (o + 4) 4 < 2)
    | none => true)

/-- The body has its header, no reserved bit set, and every required section. -/
def cfComplete (m : List Host.Cell) : Bool :=
  decide (bits (cfWord m 0) 15 0 = 0x4347) && cfReserved m && cfFields m &&
  [0x01, 0x02, 0x04, 0x05, 0x09].all (fun k => (cfSect m k).isSome)

/-- The configuration image of this boot. -/
def Mgmt.image (g : Mgmt) : List Host.Cell := g.cfg.cells g.cfg.useB
/-- A little-endian number of k bytes at offset o of a section; none where the section is missing. -/
def Mgmt.sectNat (g : Mgmt) (kind o k : Nat) : Option Nat := (cfSect g.image kind).map (fun s => cellNat g.image (s.1 + o) k)

/-- Section 0x01: the boot plan. -/
def Mgmt.bootPlan (g : Mgmt) : List Word :=
  match cfSect g.image 0x01 with
  | some (o, _) => toWords (cellRead g.image o 4160)
  | none => []
/-- Section 0x02: routing entry x. -/
def Mgmt.bootRoute (g : Mgmt) (x : Nat) : Nat := (g.sectNat 0x02 (4 * x) 4).getD 0
/-- Section 0x03. -/
def Mgmt.imageGen (g : Mgmt) : Nat := (g.sectNat 0x03 0 4).getD 0
def Mgmt.imageCores (g : Mgmt) : List Nat := onesOf 3072 ((g.sectNat 0x03 4 384).getD 0)
def Mgmt.imageClusters (g : Mgmt) : List Nat := onesOf 192 ((g.sectNat 0x03 388 24).getD 0)
/-- Section 0x04: port p is in service. -/
def Mgmt.inService (g : Mgmt) (p : Nat) : Bool := nbit ((g.sectNat 0x04 (4 * p) 4).getD 0) 0
/-- Section 0x05: segments of the Weight Store on a flash channel. -/
def Mgmt.storeSegs (g : Mgmt) (chan : Nat) : Nat := (g.sectNat 0x05 (4 * chan) 4).getD 0
/-- Section 0x06. -/
def Mgmt.lendWindow (g : Mgmt) : Nat × Nat := ((g.sectNat 0x06 0 4).getD 0, (g.sectNat 0x06 4 2).getD 0)
/-- Section 0x07: the chip number of a location code. -/
def Mgmt.chipOf (g : Mgmt) (loc : Nat) : Nat :=
  match cfSect g.image 0x07 with
  | some (o, len) =>
    (match firstBelow (len / 4) (fun i => cellNat g.image (o + 4 * i) 2 = loc) with
      | some i => cellNat g.image (o + 4 * i + 2) 2
      | none => loc)
  | none => loc
/-- Section 0x08. -/
def Mgmt.faultClasses (g : Mgmt) : Nat := (g.sectNat 0x08 2 2).getD 0x51F0
def Mgmt.debugAllowed (g : Mgmt) : Bool := nbit ((g.sectNat 0x08 4 4).getD 0) 0

/-! ### Supplies (R31, R36, R470) -/

/-- The trims of section 0x09. -/
def Mgmt.trims (m : Mgmt) : List Byte :=
  match cfSect m.image 0x09 with
  | some (o, len) => cellRead m.image o len
  | none => []
/-- The range of a core rail, 0.65 to 0.85 V, in microvolts. -/
def inRail (v : Nat) : Nat := max 650000 (min v 850000)
/-- V(k) of a die. -/
def State.supplyOf (s : State) (die k : Nat) : Nat := inRail (Config.trimSupply s.mgmt.trims die k)
def State.codeOf (s : State) (cl : Nat) : Nat := tget 32 s.power.codes cl

/-- A die's rail: the highest V(k) among its running clusters plus the margin, within the rail's range (log entry 32). -/
def State.railFor (s : State) (d : Nat) : Nat :=
  let up := (List.range 192).filter (fun cl => dieOfCluster cl = d && (s.islOf cl).running)
  inRail (up.foldl (fun a cl => max a (s.supplyOf d (s.codeOf cl))) 0 + Config.trimSupply s.mgmt.trims d 0)
def State.setRail (s : State) (d : Nat) : State := s.modDie d (fun x => { x with rail := s.railFor d })

/-- A cluster's code, its supply and its die's rail are set. -/
def State.setCode (s : State) (cl k : Nat) : State :=
  let d := dieOfCluster cl
  ({ s.modIsl cl (fun i => { i with khz := 25000 * k }) with
    power := { s.power with codes := tset 32 s.power.codes cl k, supplies := tset 0 s.power.supplies cl (s.supplyOf d k) } }).setRail d

/-- A cluster island stops: its counter holds, and its die's rail follows the clusters that still run. -/
def State.stopCluster (s : State) (cl : Nat) : State :=
  (s.modIsl cl (fun i => { i with running := false })).setRail (dieOfCluster cl)

/-! ### The slots of a boot (Table 15.1 orders 2 and 3, R454) -/

/-- The slots a start tries, in order; a pending slot is tried once. -/
def Slots.order (x : Slots) : List Bool := if x.pending && !x.tried then [!x.activeB, x.activeB] else [x.activeB, !x.activeB]

/-- A kind's slots at a start: the first that passes is used. `lost`: a pending slot was given up, by an earlier start or by this one;
`other`: the first slot tried did not pass. None where no slot passes. -/
def Slots.select (x : Slots) (ok : List Host.Cell → Bool) : Option (Slots × Bool × Bool) :=
  let stale := x.pending && x.tried
  let x0 := if stale then { x with pending := false, tried := false } else x
  let first := x0.order.headD false
  (x0.order.find? (fun b => ok (x0.cells b))).map (fun b =>
    let fell := decide (b ≠ first)
    let onPending := x0.pending && b = !x0.activeB && !fell
    ({ x0 with useB := b, pending := onPending, tried := onPending }, stale || (x0.pending && fell), fell))

/-- The boot has reached order 10: a pending slot that was tried becomes active. -/
def Slots.settle (x : Slots) : Slots := if x.tried then { x with activeB := x.useB, pending := false, tried := false } else x

end Sys2Proof.Machine
end

