-- ==== Sys2Proof/Machine/Report.lean ====
section
/-! DEFINITION. What the block tells the outside: MSI-X messages under masking and the rate limit (R424, R425, R427),
interrupt causes, the error log (R447 to R450), the showdown trigger (R464 to R466) and time records (R49). -/
namespace Sys2Proof.Machine

/-! ### Messages and causes -/

def Fn.vecOf (f : Fn) (v : Nat) : Vec := tget {} f.vecs v
def Fn.modVec (f : Fn) (v : Nat) (g : Vec → Vec) : Fn := { f with vecs := tmod {} f.vecs v g }
def State.modVec (s : State) (f v : Nat) (g : Vec → Vec) : State := s.modFn f (fun x => x.modVec v g)

/-- INT_RATE of a partition. -/
def State.intRate (s : State) (p : Nat) : Nat := s.pfld p 15 31 16

/-- A vector's message cannot leave under the MSI-X rules. -/
def Fn.vecBlocked (f : Fn) (v : Nat) : Bool := !f.msixEnable || f.msixMask || (f.vecOf v).masked

/-- The message of a vector leaves: a token is spent where a rate is set, and the host receives it. -/
def State.sendMsg (s : State) (f v : Nat) : State :=
  let x := (s.fnOf f).vecOf v
  let left := if s.intRate f = 0 then x.tokens else x.tokens - 1
  let s1 := s.modVec f v (fun y => { y with pending := false, held := false, tokens := left })
  { s1 with host := { s1.host with msgs := s1.host.msgs ++ [⟨f, v, x.addr, x.data⟩] } }

/-- A message falls due on a vector: it joins a held one, stays pending where masked, is held where the bucket is
empty, and leaves otherwise. The second answer says that it became held now. -/
def State.dueOnce (s : State) (f v : Nat) : State × Bool :=
  let x := (s.fnOf f).vecOf v
  if (s.partOf f).resetting then (s, false)
  else if x.held then (s.modFn f (fun y => { y with intHeld := satAdd 16 y.intHeld 1 }), false)
  else if (s.fnOf f).vecBlocked v then (s.modVec f v (fun y => { y with pending := true }), false)
  else if s.intRate f ≠ 0 ∧ x.tokens = 0 then (s.modVec f v (fun y => { y with held := true }), true)
  else (s.sendMsg f v, false)

/-- A cause bit is set (R425): the second answer says that it went from 0 to 1 with its mask bit 0. -/
def State.markCause (s : State) (p b : Nat) : State × Bool :=
  let f := s.fnOf p
  if nbit f.intCause b then (s, false)
  else (s.modFn p (fun y => { y with intCause := setBits y.intCause b b 1 }), !nbit f.intMask b)

/-- A message falls due; one newly held sets RATE_HELD, whose own message may fall due on INT_VECTOR. -/
def State.due (s : State) (f v : Nat) : State :=
  let (s1, held) := s.dueOnce f v
  if held then
    let (s2, m) := s1.markCause f 6
    if m then (s2.dueOnce f (s2.fnOf f).intVector).1 else s2
  else s1

/-- The event of a cause happens (R425). -/
def State.cause (s : State) (p b : Nat) : State :=
  let (s1, m) := s.markCause p b
  if m then s1.due p (s1.fnOf p).intVector else s1

/-! ### Island stops and latches -/

/-- The counter an island latches. -/
def State.islCount (s : State) (k : Nat) : Nat := (s.islOf k).count.toNat

/-! ### The error log -/

/-- A record enters the log: the next LOG_INDEX, the oldest record lost where the ring of 8,192 is full (R447). Error
records carry their index in word 6; time records carry host time there (Table 1.9). -/
def State.logAppend (s : State) (r : List Word) : State :=
  let m := s.mgmt
  let r' := if fld (word r 0) 7 0 < 0x10 then r else listMod r 6 (fun _ => w32 m.nextLog)
  let l := m.log ++ [r']
  { s with mgmt := { m with log := l.drop (l.length - 8192), nextLog := m.nextLog + 1 } }

/-- An error record (Table 15.3) as it enters a FIFO; its LOG_INDEX is given when the hub drains it. -/
def errRecord (ty cls code island : Nat) (ctx : Option (Nat × Nat)) (count detail : Nat) : List Word :=
  let cw := match ctx with
    | some (p, c) => p * 2 ^ 16 + c * 2 ^ 22 + 2 ^ 30
    | none => 0
  [w32 (ty + cls * 2 ^ 8 + code * 2 ^ 16), w32 (island + cw)] ++ w64 count ++ w64 detail ++ [0, 0]

/-- A time record (Table 1.9). -/
def timeRecord (ty : Nat) (stopped : Bool) (corr island code count mgmt host : Nat) : List Word :=
  [w32 (ty + b2n stopped * 2 ^ 8 + corr % 65536 * 2 ^ 16), w32 (island + code * 2 ^ 16)] ++ w64 count ++ w64 mgmt ++
  w64 host

/-- The frequency code a time record of an island carries: a cluster's code, 0 for every other island. -/
def State.freqCode (s : State) (k : Nat) : Nat := if k < 192 then tget 32 s.power.codes k else 0

/-- A time record of type 0x02 or 0x03 for an island, with its counter and the management counter now (R48). -/
def State.timeNote (s : State) (ty k : Nat) : State :=
  s.logAppend (timeRecord ty false s.mgmt.corrNum k (s.freqCode k) (s.islCount k) (s.islCount islMgmt) 0)

/-- A cluster island starts or restarts: at code 32 and its supply, as no hand is loaded in it (R469), with a restart record (R48). -/
def State.restartCluster (s : State) (cl : Nat) : State :=
  ((s.modIsl cl (fun i => { i with running := true, started := true })).setCode cl 32).timeNote 0x03 cl

/-! ### The showdown (R464 to R467) -/

/-- An item: ITEM in bits [15:0], VALUE in [63:16]. -/
abbrev SnapItem := Nat × Nat

def Hand.expOf (h : Hand) (p : Nat) : Nat := tget 0 h.expTag p
def Hand.pairsOf (h : Hand) (p : Nat) : List PairEntry := tget [] h.pairs p

/-- The items of a core (Table 15.12). -/
def coreItems (c : Core) : List SnapItem :=
  let hs := List.range 4
  let hand (h : Nat) : Option Hand := tget none c.hands h
  [(0x0001, c.active + b2n c.fenced * 4)] ++
  hs.map (fun h => (0x0010 + h, match hand h with
    | some x => x.deal + x.ctx * 2 ^ 16 + 2 ^ 24
    | none => 0)) ++
  hs.flatMap (fun h => (List.range 3).map (fun p => (0x0100 + 4 * h + p, match hand h with
    | some x =>
      let held := x.pairsOf p
      let one := held.filter (fun e => e.data.isSome != e.ctl.isSome)
      x.expOf p + held.length * 2 ^ 10 + (match one with
        | e :: _ => b2n e.ctl.isSome * 2 ^ 13
        | [] => 0)
    | none => 0))) ++
  hs.map (fun h => (0x0200 + h, (c.tq.filter (fun e => e.hand = h)).length)) ++
  hs.map (fun h => (0x0300 + h, match hand h with
    | some x => x.issued % 2 ^ 48
    | none => 0))

/-- The state item of a descriptor slot: 0 free, 1 running, 2 halted, 3 stalled; trump; delivered tiles. -/
def slotItem (o : Option Slot) : Nat :=
  match o with
  | none => 0
  | some v =>
    (match v.state with
      | .halted _ _ => 2
      | .running => if v.stalled then 3 else 1
      | .waiting => 1
      | .ended => 0) + b2n v.trump * 4 + v.delivered % 2 ^ 32 * 8

/-- The items of a cluster's Stream Engine: its slots, then its station buffers in station-table order. -/
def State.engineItems (s : State) (cl : Nat) : List SnapItem :=
  let bufs := s.allLayouts.flatMap (fun p =>
    (p.2.2.img.stations.zipIdx.filter (fun q => clusterOf (stationCore p.2.2 q.1) = cl)).map
      (fun q => (tget [] p.2.2.buffers q.2).length))
  (List.range 64).map (fun k => (0x0800 + k, slotItem (s.slotOf cl k))) ++
  bufs.zipIdx.map (fun p => (0x0C00 + p.2, p.1))

/-- The item of a Quenor port: STATE and LANES_UP. -/
def portItem (p : Port) : List SnapItem := [(0x1001, p.state + p.lanesUp * 8)]

/-- Every block that latches on the tree trigger does so: every island's counter, and the items of Stream Engines and
ports; in fast mode the cores' too. The queue depths of item 0x1000 are free values (log entry 8). -/
def State.latchTree (s : State) (cores : Bool) : State :=
  let ci : Tbl (List SnapItem) := if cores then s.cores.map (fun p => (p.1, coreItems p.2)) else []
  let used : List Nat := s.usedSlots.map (fun p => p.1 / 64)
  let placed : List Nat := s.allLayouts.flatMap (fun p => p.2.2.clusters)
  let clusters := (used ++ placed).eraseDups
  let ei : Tbl (List SnapItem) := clusters.map (fun cl => (3072 + cl, s.engineItems cl))
  let qi := s.fab.ports.map (fun (p : Nat × Port) => (3300 + p.1, portItem p.2))
  { s with
    isl := tmap {} s.isl (fun _ i => { i with snap := some i.count }),
    free := s.free + 4096,
    mgmt := { s.mgmt with showItems := ci ++ ei ++ qi, showCounts := [], showStations := [], showFree := s.free } }

/-- A showdown tile (R103, R466). -/
def showTile (c : Nat) (hand deal num : Nat) : Tile := { kind := 3, ctx := c, hand := hand, deal := deal, tag := num % 1024 }

/-- The output stations of every layout, for the cut: context, layout, station, the place of its item (cluster * 4096 + its place
in the cluster's station-table order), and whether its showdown tile has come. -/
def State.showPlaces (s : State) : List (Nat × Nat × Nat × Nat × Bool) :=
  let ps := s.allLayouts.flatMap (fun (c, l, y) => y.img.stations.zipIdx.map (fun p =>
    (c, l, p.2, p.1.out, clusterOf (stationCore y p.1))))
  ps.zipIdx.filterMap (fun (p, n) =>
    let (c, l, i, out, cl) := p
    let k := ((ps.take n).filter (fun q => q.2.2.2.2 = cl)).length
    if out then some (c, l, i, cl * 4096 + k, false) else none)

/-- Cut mode: a showdown tile into every input station of every loaded layout. -/
def State.showStart (s : State) (num : Nat) : State :=
  let ins := s.allLayouts.flatMap (fun (c, l, y) =>
    (y.img.stations.zipIdx.filter (fun p => !p.1.out)).map (fun p => (c, l, p.2, p.1, y)))
  let s1 := { s with mgmt := { s.mgmt with showStations := s.showPlaces } }
  ins.foldl (fun u (c, l, i, st, y) =>
    let tl := showTile c (st.hand + y.handBase) y.published num
    u.modLayout c l (fun z => { z with buffers := tmod [] z.buffers i (fun b => b ++ [tl]) })) s1

/-- A showdown in cut mode still waits for tiles. -/
def Mgmt.cutOpen (m : Mgmt) : Bool := m.showHeld && m.showCut && !m.showRecorded

/-- Every routed input and every output station has received its showdown tile (R466). -/
def State.showComplete (s : State) : Bool :=
  s.mgmt.showStations.all (fun p => p.2.2.2.2) &&
  s.cores.all (fun p => p.2.hands.all (fun q => match q.2 with
    | some h => h.waiting || h.img.routes.all (fun r => decide (4 ≤ r.source) ||
        (tget (0, 0, 0, false) p.2.snapIn (r.source * 4 + r.select)).2.2.2)
    | none => true))

/-- The type 0x13 record is written and the showdown counts as recorded. The manual gives the record no class and no code: both are
free (log entry 26). -/
def State.showRecord (s : State) : State :=
  let m := s.mgmt
  let d := m.showNum + b2n m.showCut * 2 ^ 16 + b2n m.showIncomplete * 2 ^ 17
  let s1 := (s.logAppend (errRecord 0x13 (s.freeNow % 16) (Config.freeValue (s.free + 1) % 2 ^ 16) islMgmt none (s.islCount islMgmt) d)).freeNext 2
  { s1 with mgmt := { s1.mgmt with showRecorded := true } }

/-- A cut that is complete is recorded. -/
def State.showCheck (s : State) : State := if s.mgmt.cutOpen && s.showComplete then s.showRecord else s

/-- A trigger (R464): missed while a showdown is held, else the next number, the latch, and in fast mode the record at
once. `drive` pulls SHOWDOWN_N low for 1 us. -/
def State.trigger (s : State) (cut drive : Bool) : State :=
  let m := s.mgmt
  if m.showHeld then { s with mgmt := { m with missed := satAdd 16 m.missed 1 } }
  else
    let num := if m.showNum = 65535 then 1 else m.showNum + 1
    let s1 := { s with
      mgmt := { m with showNum := num, showHeld := true, showCut := cut, showIncomplete := false,
                       showRecorded := false },
      cores := tmap {} s.cores (fun _ c => { c with snapLatched := false, snapIn := [] }),
      power := if drive then { s.power with showdownDrive := s.power.showdownDrive + 1 } else s.power }
    let s2 := s1.latchTree (!cut)
    if cut then (s2.showStart num).showCheck else s2.showRecord

/-- The trigger of an armed error class: the arming fires once (R464). -/
def State.classTrigger (s : State) (cls : Nat) : State :=
  match s.mgmt.arming with
  | some a =>
    (match a.cls with
    | some mask =>
      if nbit mask cls then
        { s with mgmt := { s.mgmt with arming := none } }.trigger a.cut a.drive
      else s
    | none => s)
  | none => s

/-- An island's FIFO takes a record, or its class counter counts it lost (R448); the capture takes the first (R450). -/
def Island.report (i : Island) (cls : Nat) (r : List Word) : Island :=
  let j := if i.fifo.length < 16 then { i with fifo := i.fifo ++ [r] }
    else { i with lost := tmod 0 i.lost cls (fun n => satAdd 16 n 1) }
  match i.first with
  | none => { j with first := some r }
  | some _ => { j with later := satAdd 16 j.later 1 }

/-- A block reports an error record of type 0x10 or 0x12 (R447, R448). -/
def State.reportTy (s : State) (ty island cls code : Nat) (ctx : Option Nat) (detail : Nat) : State :=
  let cx := ctx.map (fun c => ((s.ctxOwner c).getD 0, c))
  let r := errRecord ty cls code island cx (s.islCount island) detail
  (s.modIsl island (fun i => i.report cls r)).classTrigger cls

/-- A type 0x10 record. CODE is a status in class 13; the manual lists the detail codes of no other class, and no DETAIL for classes
10, 11, 13 and 14, so those values are free (R447; log entry 26). -/
def State.report (s : State) (island cls code : Nat) (ctx : Option Nat) (detail : Nat) : State :=
  let c := if cls = 13 then code else s.freeNow % 2 ^ 16
  let d := if cls = 10 ∨ cls = 11 ∨ cls = 13 ∨ cls = 14 then Config.freeValue (s.free + 1) % 2 ^ 64 else detail
  (s.reportTy 0x10 island cls c ctx d).freeNext 2

/-! ### Fences (R27, R128, R131, R446) -/

/-- A persistent fence record, unless the core or cluster has one in force; a full bank is compacted into the other
(R445). -/
def Mgmt.persist (m : Mgmt) (cluster : Bool) (index cause : Nat) : Mgmt :=
  if m.fenceRecs.any (fun r => r.cluster = cluster && r.index = index && decide (m.fenceGen ≤ r.gen)) then m
  else
    let r : FenceRec := ⟨m.fenceGen, cluster, index, cause⟩
    if m.fenceRecs.length < 4096 then { m with fenceRecs := m.fenceRecs ++ [r] }
    else { m with fenceRecs := m.fenceRecs.filter (fun x => decide (m.fenceGen ≤ x.gen)) ++ [r],
                  fenceBank := !m.fenceBank }

/-- A core is fenced during a run: its engines and SRAM are off, the Fence Map and the persistent record name it, and a
type 0x12 record is reported. -/
def State.fenceCore (s : State) (c cause : Nat) : State :=
  let s1 := (s.modCore c (fun k => { k with fenced := true, tq := [], badWords := [] }))
  let s2 := { s1 with mgmt := { (s1.mgmt.persist false c cause) with fencedCores := insertAsc s1.mgmt.fencedCores c },
                      sram := cellClear s1.sram (c * 2 ^ 18) (2 ^ 18) }
  (s2.reportTy 0x12 (clusterOf c) 12 (s.freeNow % 2 ^ 16) none (c + clusterOf c * 2 ^ 12)).freeNext 1

/-- A cluster is fenced during a run: its island stops and holds its count (R46). -/
def State.fenceCluster (s : State) (cl cause : Nat) : State :=
  let s1 := { s with mgmt := { (s.mgmt.persist true cl cause) with
                                fencedClusters := insertAsc s.mgmt.fencedClusters cl } }
  let s2 := (s1.reportTy 0x12 cl 12 (s.freeNow % 2 ^ 16) none (0xFFF + cl * 2 ^ 12 + 2 ^ 20)).freeNext 1
  s2.stopCluster cl

/-- Whether a cluster, or a core, is marked in the Fence Map. -/
def State.clusterFenced (s : State) (cl : Nat) : Bool := s.mgmt.fencedClusters.contains cl
def State.coreFenced (s : State) (c : Nat) : Bool := s.mgmt.fencedCores.contains c

end Sys2Proof.Machine
end

