-- ==== Sys2Proof/Machine/Mem.lean ====
section
/-! DEFINITION. Memory tiers: the Block Map (R254 to R262), frames (R263, R287), quotas (R274, R275), shadow blocks
(R265, R266) and reading and writing context addresses. -/
namespace Sys2Proof.Machine

/-- Bytes of a block. -/
abbrev blockBytes : Nat := 2 ^ 18

/-! ### The Block Map -/

/-- The bucket of a block (R255). -/
def bmBucket (ctx blk buckets : Nat) : Nat :=
  ((blk * 256 + ctx) % 2 ^ 64 * 0x9E3779B97F4A7C15 % 2 ^ 64) / 2 ^ 32 % buckets

/-- The eight candidate entries of a block of a context of partition p, in order (R255). -/
def State.bmCands (s : State) (p ctx blk : Nat) : List Nat :=
  let n := 2 ^ s.bmLog2 p / 4
  let b := bmBucket ctx blk n
  (List.range 4).map (fun i => s.bmBase p + 4 * b + i) ++
  (List.range 4).map (fun i => s.bmBase p + 4 * ((b + 1) % n) + i)

def State.bmOf (s : State) (i : Nat) : BmEntry := tget {} s.tiers.bm i

/-- The entry of a block: the first candidate whose context and block match and that is not UNMAPPED. -/
def State.bmFind (s : State) (p ctx blk : Nat) : Option (Nat × BmEntry) :=
  ((s.bmCands p ctx blk).find? (fun i => (s.bmOf i).state ≠ 0 && (s.bmOf i).ctx = ctx && (s.bmOf i).block = blk)).map
    (fun i => (i, s.bmOf i))

/-- A free candidate slot of a block; which one is open (R255), the model takes the first (log entry 9). -/
def State.bmSlot (s : State) (p ctx blk : Nat) : Option Nat :=
  (s.bmCands p ctx blk).find? (fun i => (s.bmOf i).state = 0)

/-- An entry changes (R261): the table is written and its invalidations go out, with what the change unnames. -/
def State.bmChange (s : State) (i : Nat) (e : BmEntry) (fid : Option Nat) (peer : Option (Nat × Nat)) : State :=
  { s with tiers := { s.tiers with
      bm := tset {} s.tiers.bm i e,
      changes := s.tiers.changes ++ [{ entry := i, fid := fid, peer := peer }],
      peerGot := s.tiers.peerGot.filter (fun g => g.1 ≠ i),
      peerBuf := cellClear s.tiers.peerBuf (i * blockBytes) blockBytes } }

/-- Changing fields of an entry that no translation uses (counts, hint). -/
def State.bmMod (s : State) (i : Nat) (g : BmEntry → BmEntry) : State :=
  { s with tiers := { s.tiers with bm := tmod {} s.tiers.bm i g } }

/-! ### Frames -/

def State.frameOf (s : State) (fid : Nat) : FrameState := tget .free s.tiers.frames fid
def State.setFrame (s : State) (fid : Nat) (v : FrameState) : State :=
  { s with tiers := { s.tiers with frames := tset .free s.tiers.frames fid v } }
/-- Bytes of a frame become zeros. -/
def State.zeroFrame (s : State) (fid : Nat) : State :=
  { s with tiers := { s.tiers with mem := cellClear s.tiers.mem (fid * blockBytes) blockBytes } }

/-- The frame id a LOCATION of the near tier (stack in [1:0]) or the bulk tier (channel in [3:0]) names. -/
def fidOf (tier loc : Nat) : Nat :=
  if tier = 0 then (loc % 4) * 2 ^ 24 + loc / 4 else (4 + loc % 16) * 2 ^ 24 + loc / 16
/-- The LOCATION of a frame id. -/
def locOf (fid : Nat) : Nat :=
  let k := fid / 2 ^ 24
  if k < 4 then k + fid % 2 ^ 24 * 4 else (k - 4) + fid % 2 ^ 24 * 16
def tierOfFid (fid : Nat) : Nat := if fid / 2 ^ 24 < 4 then 0 else 1

/-- Frames of near stack or bulk channel k (R263, Table 8.4); a channel's lend window lies above them (R396). -/
def State.frameCap (s : State) (k : Nat) : Nat :=
  if k < 4 then (tget 0 s.tiers.nearBytes k - 2 ^ 31) / blockBytes
  else
    let chans := onesOf 16 s.tiers.lendMask
    let share := if chans.contains (k - 4) then s.tiers.lendW / chans.length else 0
    tget 0 s.tiers.bulkBytes (k - 4) / blockBytes - share

/-- Frames of k that are in some use, and those that are queued for scrub. -/
def State.framesOf (s : State) (k : Nat) : List (Nat × FrameState) :=
  s.tiers.frames.filter (fun p => p.1 / 2 ^ 24 = k && decide (p.1 % 2 ^ 24 < s.frameCap k))
def State.freeFrames (s : State) (k : Nat) : Nat := s.frameCap k - (s.framesOf k).length

/-- The stacks, or the channels, of a tier. -/
def tierUnits (tier : Nat) : List Nat := if tier = 0 then List.range 4 else (List.range 16).map (4 + ·)

/-- The unit with the most free frames, the lowest of several (R263). -/
def State.bestUnit (s : State) (tier : Nat) : Option Nat :=
  let us := tierUnits tier
  let m := us.foldl (fun a k => max a (s.freeFrames k)) 0
  if m = 0 then none else us.find? (fun k => s.freeFrames k = m)

/-- A free frame of a unit: where the device would like it if that is free, else the lowest (log entry 3). -/
def State.pickFrame (s : State) (k : Nat) : Nat :=
  let want := Config.framePick s.free (s.frameCap k) % s.frameCap k
  if s.frameOf (k * 2 ^ 24 + want) = .free then k * 2 ^ 24 + want
  else k * 2 ^ 24 + (firstBelow (s.frameCap k) (fun i => s.frameOf (k * 2 ^ 24 + i) = .free)).getD 0

/-- A frame of a tier (0 near, 1 bulk): a free one, or, where none is free, a queued one zeroed at once (R287). -/
def State.allocFrame (s : State) (tier : Nat) : Option (Nat × State) :=
  match s.bestUnit tier with
  | some k =>
    let fid := s.pickFrame k
    some (fid, (s.setFrame fid .used).freeNext 1)
  | none =>
    match ((tierUnits tier).flatMap (fun k => s.framesOf k)).find? (fun p => p.2 = .queued) with
    | some p => some (p.1, (s.setFrame p.1 .used).zeroFrame p.1)
    | none => none

/-- A frame that no entry ever named goes to the scrub queue (R262, R287). -/
def State.dropFrame (s : State) (fid : Nat) : State :=
  if s.frameOf fid = .used then s.setFrame fid .queued else s

/-- A frame an entry change unnames waits for the change and its requests (R262). -/
def State.drainFrame (s : State) (fid : Nat) : State :=
  if s.frameOf fid = .used then s.setFrame fid .draining else s

/-! ### Quotas (R274, R275) -/

/-- A partition's ceiling for a tier: 0 near, 1 bulk, 2 peer. -/
def State.ceilOf (s : State) (p tier : Nat) : Nat := wnat (s.partOf p).record (10 + tier)
def State.quotaOf (s : State) (c tier : Nat) : Nat :=
  match tget none (s.ctxOf c).quota tier with
  | some q => q
  | none => s.ceilOf (s.ctxOf c).part tier

/-- Staging frames of a replacement (R381). -/
def Cmd.staging (c : Cmd) : List (Nat × Nat) :=
  match c.work with
  | .replace _ _ _ _ _ _ _ l => l
  | _ => []

/-- Frames of a tier that count against a context (R274): named by its entries, its commands' shadows, destinations of its migrations,
and the staging frames of a replacement (R381). -/
def State.usageOf (s : State) (c tier : Nat) : Nat :=
  (s.tiers.bm.filter (fun p => (p.2.state = 1 || p.2.state = 2) && p.2.tier = tier && p.2.ctx = c)).length +
  sumNat ((s.allCmds.filter (fun x => namesContext x.2.2.words && x.2.2.ctx = c)).map (fun x =>
    (x.2.2.shadows.filter (fun w => w.2.tier = tier)).length +
    (if tier = 1 then x.2.2.staging.length else 0))) +
  (s.tiers.migrations.filter (fun p => match p.2 with
    | some m => m.begun && m.tier = tier && (s.bmOf p.1).ctx = c
    | none => false)).length

/-- Frames of a tier that count against a partition. -/
def State.partUsage (s : State) (p tier : Nat) : Nat :=
  sumNat ((s.ctxs.filter (fun x => x.2.live && x.2.part = p)).map (fun x => s.usageOf x.1 tier))

/-- n more frames of a tier stay within the context's quota and the partition's ceiling. -/
def State.quotaRoom (s : State) (c tier n : Nat) : Bool :=
  decide (s.usageOf c tier + n ≤ s.quotaOf c tier) &&
  decide (s.partUsage (s.ctxOf c).part tier + n ≤ s.ceilOf (s.ctxOf c).part tier)

/-! ### Access counts and demotion (R271) -/

/-- The epoch: 2^20 counts of the management island's counter. -/
def State.epoch (s : State) : Nat := s.islCount islMgmt / 2 ^ 20

/-- An entry's count with the halvings of the epochs begun since it was last updated. -/
def State.countOf (s : State) (e : BmEntry) : Nat := e.access / 2 ^ ((s.epoch + 64 - e.epoch) % 64)

/-- The entry of a near or bulk block moves to a frame of a tier: bytes copied unchanged, the old frame unnamed. -/
def State.moveEntry (s : State) (i : Nat) (e : BmEntry) (tier fid : Nat) : State :=
  let old := fidOf e.tier e.loc
  let s1 := { s with tiers := { s.tiers with
    mem := cellCopy s.tiers.mem (old * blockBytes) blockBytes (fid * blockBytes) } }
  (s1.bmChange i { e with state := 1, tier := tier, loc := locOf fid } (some old) none).drainFrame old

def State.migOf (s : State) (i : Nat) : Option Migration := tget none s.tiers.migrations i
def State.setMig (s : State) (i : Nat) (m : Option Migration) : State :=
  { s with tiers := { s.tiers with migrations := tset none s.tiers.migrations i m } }

/-- The copy of a background migration is abandoned: its destination frame goes back (R267, R270). -/
def State.abandonMig (s : State) (i : Nat) : State :=
  match s.migOf i with
  | some m => (if m.begun then s.dropFrame m.dst else s).setMig i none
  | none => s

/-- The next 16 near blocks of a context with HINT 0 from its sweep position, in entry order (R271). -/
def State.sweepList (s : State) (c : Nat) : List (Nat × BmEntry) :=
  let l := s.tiers.bm.filter (fun p => p.2.state = 1 && p.2.tier = 0 && p.2.hint = 0 && p.2.ctx = c)
  let at' := (s.ctxOf c).sweep
  (l.filter (fun p => at' ≤ p.1) ++ l.filter (fun p => p.1 < at')).take 16

/-- A near block gives way to one with a higher count: it is demoted to bulk, any migration of it abandoned, and the sweep moves on
(R271). -/
def State.demoteVictim (s : State) (c count : Nat) : Option State :=
  let l := s.sweepList c
  match l with
  | [] => none
  | h :: r =>
    let v := r.foldl (fun a b => if s.countOf b.2 < s.countOf a.2 then b else a) h
    if s.countOf v.2 < count && s.quotaRoom c 1 1 then
      match s.allocFrame 1 with
      | some (fid, s1) =>
        let last := (l.getLast?.map (fun p => p.1)).getD 0
        some (((s1.abandonMig v.1).moveEntry v.1 v.2 1 fid).modCtx c (fun x => { x with sweep := last + 1 }))
      | none => none
    else none

/-- A frame of a tier for a context within its limits; a near one may first demote a victim of lower count. -/
def State.allocFor (s : State) (c tier count : Nat) : Option (Nat × State) :=
  if s.quotaRoom c tier 1 then
    match s.allocFrame tier with
    | some r => some r
    | none => if tier = 0 then (s.demoteVictim c count).bind (fun t => t.allocFrame 0) else none
  else if tier = 0 then
    (s.demoteVictim c count).bind (fun t => if t.quotaRoom c 0 1 then t.allocFrame 0 else none)
  else none

/-- A shadow frame for a block (R265, R275): near where its block is near and a frame can be had, else bulk. -/
def State.allocShadow (s : State) (c : Nat) (e : BmEntry) : Option (Nat × State) :=
  if e.tier = 0 then
    match s.allocFor c 0 (s.countOf e) with
    | some r => some r
    | none => s.allocFor c 1 0
  else s.allocFor c 1 0

/-! ### Touching a block -/

/-- What a translation of a block meets (Table 8.2, R463). -/
inductive Touch where
  | unmapped
  | served (entry fid : Nat)          -- RESIDENT near or bulk
  | peer (entry chip frame : Nat)     -- RESIDENT in the peer tier
  | migrating (entry : Nat)
  | parked (entry : Nat)
  | busy (entry : Nat)                -- its memory is retraining, or the path to its lender is being rerouted
  | invalid (recalled : Bool)
  deriving DecidableEq, Repr

/-- Whether the stack or channel of a frame is in retraining. -/
def State.frameBusy (s : State) (fid : Nat) : Bool :=
  let k := fid / 2 ^ 24
  s.tiers.retraining.any (fun t => (t.1 = 0 && decide (k < 4) && t.2 = k) || (t.1 = 1 && decide (4 ≤ k) && t.2 + 4 = k))

/-- A request for a peer block has gone unanswered and been sent again on another path (R402): the path is being rerouted (log entry 159). -/
def State.rerouting (s : State) (i : Nat) : Bool := s.fab.reqs.any (fun r => !r.lend && r.entry = i && decide (2 ≤ r.tries))

/-- The outcome of a touch by what an entry says. -/
def State.touchEntry (s : State) (i : Nat) (e : BmEntry) : Touch :=
  match e.state with
  | 1 =>
    if e.tier = 2 then (if s.rerouting i then .busy i else .peer i e.chip e.loc)
    else if s.frameBusy (fidOf e.tier e.loc) then .busy i
    else .served i (fidOf e.tier e.loc)
  | 2 => .migrating i
  | 3 => .parked i
  | 4 => .invalid e.recalled
  | _ => .unmapped

/-- A touch of block blk of a context. -/
def State.touch (s : State) (c blk : Nat) : Touch :=
  match s.bmFind (s.ctxOf c).part c blk with
  | some (i, e) => s.touchEntry i e
  | none => .unmapped

/-- The status of a touch of an INVALID block at a context address. -/
def invalidVerdict (recalled : Bool) (addr : Nat) : Verdict :=
  ⟨if recalled then St.blockRecalled else St.blockInvalid, addr % 2 ^ 32, addr / 2 ^ 32⟩

/-- The pieces of a range of context addresses, one per block: block, offset, length. -/
def piecesAux : Nat → Nat → Nat → List (Nat × Nat × Nat)
  | 0, _, _ => []
  | n + 1, a, len =>
    if len = 0 then [] else
    let l := min len (blockBytes - a % blockBytes)
    (a / blockBytes, a % blockBytes, l) :: piecesAux n (a + l) (len - l)
def pieces (addr len : Nat) : List (Nat × Nat × Nat) := piecesAux (len / blockBytes + 2) addr len

/-- The 256-byte chunks of a range of a block: one peer request reads one (Table 13.3). -/
def chunksOf (off len : Nat) : List Nat :=
  (List.range ((off + len + 255) / 256 - off / 256)).map (fun i => off / 256 + i)

/-- Whether a range of a peer entry's bytes has been received. -/
def State.peerHas (s : State) (i off len : Nat) : Bool :=
  (chunksOf off len).all (fun k => s.tiers.peerGot.contains (i, k))

/-- What stands in the way of a command's use of a range (Table 8.2): nothing, a wait, bytes of a peer block that have
not come, or a verdict. `w` is the word index of the address in the packet. -/
inductive Access where
  | ready
  | wait (entry : Nat)
  | fetch (entry chip frame off len : Nat)
  | bad (v : Verdict)
  deriving DecidableEq, Repr

/-- One piece of a range. `whole`: the bytes of a peer block are needed. -/
def State.accessPiece (s : State) (c w : Nat) (whole : Bool) (p : Nat × Nat × Nat) : Access :=
  match s.touch c p.1 with
  | .unmapped => .bad ⟨St.invalidParameter, w, 0⟩
  | .served _ _ => .ready
  | .peer i chip fr => if whole && !s.peerHas i p.2.1 p.2.2 then .fetch i chip fr p.2.1 p.2.2 else .ready
  | .migrating i => .wait i
  | .parked i => .wait i
  | .busy i => .wait i
  | .invalid r => .bad (invalidVerdict r (p.1 * blockBytes + p.2.1))

/-- A range of a command: an address beyond 48 bits or an UNMAPPED block anywhere is INVALID_PARAMETER before anything
else happens; then the first piece that is not ready decides. -/
def State.access (s : State) (c w addr len : Nat) (whole : Bool) : Access :=
  if addr + len > 2 ^ 48 then .bad ⟨St.invalidParameter, w, 0⟩
  else
    let l := (pieces addr len).map (s.accessPiece c w whole)
    match l.find? (fun a => a = .bad ⟨St.invalidParameter, w, 0⟩) with
    | some a => a
    | none =>
      match l.find? (fun a => a ≠ .ready) with
      | some a => a
      | none => .ready

/-! ### Reading -/

/-- Committed bytes of one piece of a context's range. -/
def State.blockRead (s : State) (c blk off len : Nat) : List Byte :=
  match s.touch c blk with
  | .served _ fid => cellRead s.tiers.mem (fid * blockBytes + off) len
  | .busy i => if (s.bmOf i).tier = 2 then cellRead s.tiers.peerBuf (i * blockBytes + off) len
    else cellRead s.tiers.mem (fidOf (s.bmOf i).tier (s.bmOf i).loc * blockBytes + off) len
  | .peer i _ _ => cellRead s.tiers.peerBuf (i * blockBytes + off) len
  | _ => List.replicate len 0

/-- Committed bytes of a range; where no block serves an address it reads 0 (used after `access`). -/
def State.readCtx (s : State) (c addr len : Nat) : List Byte :=
  (pieces addr len).flatMap (fun p => s.blockRead c p.1 p.2.1 p.2.2)

/-- One byte of a context's range as a command sees it: from its shadow where it has written the unit (R266). -/
def State.ownByte (s : State) (c : Nat) (sh : Tbl Shadow) (addr : Nat) : Byte :=
  let b := addr / blockBytes
  let off := addr % blockBytes
  match sh.find? (fun p => p.1 = b) with
  | some (_, w) =>
    if nbit w.mask (off / 64) then cellGet s.tiers.mem (w.frame * blockBytes + off)
    else (s.blockRead c b off 1).headD 0
  | none => (s.blockRead c b off 1).headD 0

/-- A range as a command sees it: its own written units, else the committed block (R266). -/
def State.readOwn (s : State) (c : Nat) (sh : Tbl Shadow) (addr len : Nat) : List Byte :=
  if (pieces addr len).any (fun p => sh.any (fun q => q.1 = p.1)) then
    (List.range len).map (fun i => s.ownByte c sh (addr + i))
  else s.readCtx c addr len

/-! ### Writing through shadows -/

/-- The bits of units a to b of a mask. -/
def unitMask (off len : Nat) : Nat :=
  if len = 0 then 0 else 2 ^ ((off + len - 1) / 64 + 1) - 2 ^ (off / 64)

/-- The range widened to whole units: the committed bytes a partial write copies first (R266). -/
def unitRange (off len : Nat) : Nat × Nat :=
  let a := off / 64 * 64
  (a, roundUp (off + len) 64 - a)

/-- The shadow of a block, made where the command has none (R265): none where no frame can be had. -/
def State.withShadow (s : State) (f q n c blk : Nat) : Option (Shadow × State) :=
  match s.cmdOf f q n with
  | none => none
  | some cmd =>
    match cmd.shadows.find? (fun p => p.1 = blk) with
    | some (_, w) => some (w, s)
    | none =>
      match s.bmFind (s.ctxOf c).part c blk with
      | none => none
      | some (_, e) =>
        match s.allocShadow c e with
        | none => none
        | some (fid, s1) =>
          let w : Shadow := { frame := fid, tier := tierOfFid fid, mask := 0, code := e.code }
          some (w, s1.modCmd f q n (fun x => { x with shadows := x.shadows ++ [(blk, w)] }))

/-- A command writes bytes within one block: units it has not written yet take their committed bytes first, then the
bytes are merged; `code` is the stored layout code the writer supplies, none to keep the block's (R266, R267). -/
def State.writePiece (s : State) (f q n c blk off : Nat) (bs : List Byte) (code : Option Nat) : Option State :=
  match s.withShadow f q n c blk with
  | none => none
  | some (w, s1) =>
    let (a, len) := unitRange off bs.length
    let old := (List.range (len / 64)).flatMap (fun i =>
      if nbit w.mask (a / 64 + i) then cellRead s1.tiers.mem (w.frame * blockBytes + a + 64 * i) 64
      else s1.blockRead c blk (a + 64 * i) 64)
    let new := old.take (off - a) ++ bs ++ old.drop (off - a + bs.length)
    let w2 : Shadow := { w with mask := w.mask ||| unitMask off bs.length, code := code.getD w.code }
    let s2 := { s1 with tiers := { s1.tiers with mem := cellWrite s1.tiers.mem (w.frame * blockBytes + a) new } }
    some (s2.modCmd f q n (fun x => { x with shadows := x.shadows.map (fun p => if p.1 = blk then (blk, w2) else p) }))

/-- A command writes bytes at a context address: none where a shadow frame cannot be had (R275). -/
def State.writeCtx (s : State) (f q n c addr : Nat) (bs : List Byte) (code : Option Nat) : Option State :=
  (pieces addr bs.length).foldl (fun (a : Option (State × List Byte)) p =>
    a.bind (fun (t, rest) => (t.writePiece f q n c p.1 p.2.1 (rest.take p.2.2) code).map
      (fun u => (u, rest.drop p.2.2)))) (some (s, bs)) |>.map Prod.fst

/-- The shadow frames and mapping frames of a command go back (R268). -/
def State.dropShadows (s : State) (f q n : Nat) : State :=
  match s.cmdOf f q n with
  | none => s
  | some c =>
    let s1 := c.shadows.foldl (fun t p => t.dropFrame p.2.frame) s
    let s2 := c.maps.foldl (fun t p => if p.2.tier = 2 then t else t.dropFrame p.2.frame) s1
    s2.modCmd f q n (fun x => { x with shadows := [], maps := [] })

/-! ### Unmapping -/

/-- An entry becomes UNMAPPED: its frame, or its lender's window frame, is unnamed. -/
def State.unmapEntry (s : State) (i : Nat) : State :=
  let e := s.bmOf i
  let local' := (e.state = 1 || e.state = 2) && e.tier < 2
  let fid := fidOf e.tier e.loc
  let peer := if (e.state = 1 || e.state = 2) && e.tier = 2 then some (e.chip, e.loc) else none
  let mig := tget none s.tiers.migrations i
  let s1 := s.bmChange i {} (if local' then some fid else none) peer
  let s2 := if local' then s1.drainFrame fid else s1
  let s3 := match mig with
    | some m => if m.begun then s2.dropFrame m.dst else s2
    | none => s2
  { s3 with tiers := { s3.tiers with migrations := tset none s3.tiers.migrations i none } }

/-- The entry becomes INVALID (R281, R285): a migration of it is abandoned. -/
def State.invalidate (s : State) (i : Nat) (recalled : Bool) (release : Bool) : State :=
  let e := s.bmOf i
  let mig := tget none s.tiers.migrations i
  let peer := if release && e.tier = 2 then some (e.chip, e.loc) else none
  let s1 := s.bmChange i { e with state := 4, recalled := recalled, loc := 0, chip := 0, tier := 1 } none peer
  let s2 := match mig with
    | some m => if m.begun then s1.dropFrame m.dst else s1
    | none => s1
  { s2 with tiers := { s2.tiers with migrations := tset none s2.tiers.migrations i none } }

/-- The entry that names a local frame. -/
def State.namedBy (s : State) (fid : Nat) : Option (Nat × BmEntry) :=
  s.tiers.bm.find? (fun p => (p.2.state = 1 || p.2.state = 2) && p.2.tier < 2 && fidOf p.2.tier p.2.loc = fid)

/-- A frame is retired until the next cold reset (R285): the entry naming it becomes INVALID, and a copy into it is abandoned. -/
def State.retireFrame (s : State) (fid : Nat) : State :=
  let s0 := s.setFrame fid .retired
  let s1 := { s0 with tiers := { s0.tiers with migrations := tmap none s0.tiers.migrations (fun _ o => o.filter (fun m => !(m.begun && m.dst = fid))) } }
  let k := fid / 2 ^ 24
  let isl := if k < 4 then islNear k else islBulk (k - 4)
  (match s1.namedBy fid with
   | some (i, _) => s1.invalidate i false false
   | none => s1).report isl (if k < 4 then 5 else 6) 0 none (fid % 2 ^ 24)

/-- A correctable error: counted in the channel's counter and recorded (R284). -/
def State.correctable (s : State) (isl cls detail : Nat) : State :=
  let s1 := { s with tiers := { s.tiers with corrected := tmod 0 s.tiers.corrected isl (fun n => satAdd 16 n 1) } }
  s1.report isl cls 0 none detail

/-- The status of an uncorrectable error in a frame, its controller's island, and the class of a corrected one. -/
def uncStatus (fid : Nat) : Nat := if fid / 2 ^ 24 < 4 then St.nearUncorrectable else St.bulkUncorrectable
def fidIsland (fid : Nat) : Nat := if fid / 2 ^ 24 < 4 then islNear (fid / 2 ^ 24) else islBulk (fid / 2 ^ 24 - 4)
def corrClass (fid : Nat) : Nat := if fid / 2 ^ 24 < 4 then 1 else 2

/-- A flash page was rebuilt from its stripe: counted in the channel's counter and recorded (R368). -/
def State.flashRebuilt (s : State) (chan : Nat) : State :=
  { s with store := { s.store with rebuilt := tmod 0 s.store.rebuilt chan (fun n => satAdd 16 n 1) } }.report (islFlash chan) 3 0 none chan

/-- A flash read that neither LDPC nor the stripe could correct is recorded. -/
def State.flashLost (s : State) (chan : Nat) : State := s.report (islFlash chan) 7 0 none chan

/-! ### The KV pool of a context (R289 to R292) and bringing parked blocks in (R258, R273) -/

/-- Pages of a KV block, and the blocks of a slot. -/
def KvGeom.pages (g : KvGeom) : Nat := g.layers * g.groups
def KvGeom.slotBlocks (g : KvGeom) : Nat := ceilDiv g.pages 8
def KvGeom.recBlocks (g : KvGeom) : Nat := ceilDiv (g.records * 320) blockBytes
def KvGeom.slotBase (g : KvGeom) : Nat := g.pool + g.recBlocks * blockBytes
def KvGeom.poolSlots (g : KvGeom) : Nat := (g.poolBlocks - g.recBlocks) / g.slotBlocks
/-- The first block of a slot, and the context address of a page of it. -/
def KvGeom.slotBlock (g : KvGeom) (slot : Nat) : Nat := g.slotBase / blockBytes + slot * g.slotBlocks
def KvGeom.pageAddr (g : KvGeom) (slot j : Nat) : Nat := g.slotBase + (slot * g.slotBlocks * 8 + j) * 32768

/-- Part of a range of context addresses lies in the context's pool. -/
def State.inPool (s : State) (ctx addr len : Nat) : Bool :=
  match (s.ctxOf ctx).geom with
  | some g => decide (addr < g.pool + g.poolBlocks * blockBytes) && decide (g.pool < addr + len)
  | none => false

/-- The bring-in of a PARKED block begins: it becomes MIGRATING and its copy is due. `tier`: 0 near where there is room, 1
bulk only. -/
def State.bringIn (s : State) (i tier : Nat) : State :=
  let e := s.bmOf i
  if e.state ≠ 3 then s
  else
    let s1 := s.bmChange i { e with state := 2 } none none
    { s1 with tiers := { s1.tiers with migrations := tset none s1.tiers.migrations i (some { src := e.loc, tier := tier, kind := 2 }) } }

/-- A command waits on the block of an entry; a parked one begins to come in (R258). -/
def State.awaitBlock (s : State) (f q n i tier : Nat) : State :=
  (s.bringIn i tier).modCmd f q n (fun c => { c with waits := some i })

/-- Frames of the second of two ranges of window frames that lie in the first. -/
def overlapCount (a n b m : Nat) : Nat := min (a + n) (b + m) - max a b

/-- The block of an entry is on its way or out of service: what waits for it waits still. -/
def State.notReady (s : State) (i : Nat) : Bool :=
  match s.touchEntry i (s.bmOf i) with
  | .migrating _ => true
  | .parked _ => true
  | .busy _ => true
  | _ => false

/-- The command is waiting on a block: answers its entry. -/
def State.waitingOn (s : State) (c : Cmd) : Option Nat := c.waits.filter s.notReady

/-! ### Reads (R260, R271) -/

/-- A bulk block whose count has reached 2,048 is queued for promotion (R271). -/
def State.queuePromotion (s : State) (i : Nat) : State :=
  let e := s.bmOf i
  if e.state = 1 ∧ e.tier = 1 ∧ e.hint = 0 ∧ 2048 ≤ e.access ∧ s.migOf i = none then
    s.setMig i (some { src := fidOf 1 e.loc, tier := 0, kind := 0 })
  else s

/-- A region cache installs a copy of a RESIDENT entry it missed, where none of its copies matches in partition, context and block; a
full cache gives up its oldest copy (R260; log entry 16). -/
def State.cacheFill (s : State) (region i : Nat) : State :=
  let l := s.tiers.caches
  let e := s.bmOf i
  if e.state ≠ 1 ∨ l.any (fun c => c.1 = region && c.2.2.part = e.part && c.2.2.ctx = e.ctx && c.2.2.block = e.block) then s
  else
    let mine := l.filter (fun c => c.1 = region)
    let l' := if mine.length < 8192 then l else match mine with
      | c :: _ => l.erase c
      | [] => l
    { s with tiers := { s.tiers with caches := l' ++ [(region, i, e)] } }

/-- Read requests of at most 256 bytes that a region issues count in the blocks they read (R271); the commands' own come from region 0. -/
def State.countReads (s : State) (region ctx : Nat) (rs : List (Nat × Nat)) : State :=
  (rs.flatMap (fun r => pieces r.1 r.2)).foldl (fun t p =>
    match t.touch ctx p.1 with
    | .served i _ => ((t.bmMod i (fun e => { e with access := min 0xFFFF (t.countOf e + ceilDiv p.2.2 256), epoch := t.epoch % 64 })).queuePromotion
        i).cacheFill region i
    | .peer i _ _ => t.cacheFill region i
    | _ => t) s

/-- Bytes written into the frame a local block lies in now, where it is RESIDENT or MIGRATING from one. -/
def State.rawPiece (s : State) (ctx blk off : Nat) (bs : List Byte) : State :=
  match s.bmFind (s.ctxOf ctx).part ctx blk with
  | some (_, e) =>
    if (e.state = 1 ∨ e.state = 2) ∧ e.tier < 2 then
      { s with tiers := { s.tiers with mem := cellWrite s.tiers.mem (fidOf e.tier e.loc * blockBytes + off) bs } }
    else s
  | none => s

/-- Bytes the device itself writes at a context address. -/
def State.rawWrite (s : State) (ctx addr : Nat) (bs : List Byte) : State :=
  ((pieces addr bs.length).foldl (fun (a : State × List Byte) p =>
    (a.1.rawPiece ctx p.1 p.2.1 (a.2.take p.2.2), a.2.drop p.2.2)) (s, bs)).1

end Sys2Proof.Machine
end

