-- ==== Sys2Proof/Machine/Link.lean ====
section
/-! DEFINITION. The fabric's shared operations (chapter 13): the link layer, routing, credits and circuits, and what every
arriving frame passes through before its own row acts on it. -/
namespace Sys2Proof.Machine

/-! ### Frames -/

/-- Class of a frame type (Table 13.3); none for a reserved type. -/
def frameClass (ty : Nat) : Option Nat :=
  if ty = 0x01 ∨ ty = 0x02 then some 0
  else if 0x10 ≤ ty ∧ ty ≤ 0x15 then some 1
  else if ty = 0x20 ∨ ty = 0x21 ∨ ty = 0x30 ∨ ty = 0x38 then some 2
  else if (0x22 ≤ ty ∧ ty ≤ 0x25) ∨ ty = 0x31 ∨ ty = 0x32 then some 3
  else none

/-- The bits each type uses in its type words 4 to 9 (Table 13.3); every other bit is reserved. -/
def frameMasks (ty : Nat) : List Nat :=
  let f := 0xFFFFFFFF
  if ty = 0x01 then [1]
  else if ty = 0x02 then [0xF]
  else if ty = 0x10 then [f, f, 0x1FFF, 0xFFFF]
  else if ty = 0x11 then [f, f, f, f, f, f]
  else if ty = 0x12 then [0xFFFFF, f, 0x3FFF]
  else if ty = 0x13 then [0xFF]
  else if ty = 0x14 then [0x7FF]
  else if ty = 0x15 then [7, 0x3FFF]
  else if ty = 0x20 ∨ ty = 0x21 then [f, f, 0x3FFFFF, 0x1FF, f]
  else if ty = 0x22 ∨ ty = 0x23 then [0, 0, 0xFFFF]
  else if ty = 0x24 then [0, 0, 0xFFFF, 3]
  else if ty = 0x25 then [0x3FFF]
  else if ty = 0x30 then [f, 0x3FFF, 0x7FF]
  else if ty = 0x31 then [0xFFF]
  else if ty = 0x32 then [0x3FFF]
  else if ty = 0x38 then [0xFF]
  else []

end Sys2Proof.Machine

namespace Sys2Proof
open Sys2Proof.Machine

/-- Type word 4 + i of a frame. -/
def Frame.t (f : Frame) (i : Nat) : Nat := wnat f.tw i
/-- Bits of type word 4 + i. -/
def Frame.tf (f : Frame) (i hi lo : Nat) : Nat := bits (f.t i) hi lo

/-- A field of the type words holds an encoding that its table lists: subtypes, a tear's cause, a circuit's kind and a refusal's reason
(Tables 13.3, 13.4, 13.7 and 13.8; log entry 168). -/
def Frame.known (f : Frame) : Bool :=
  if f.ty = 0x13 then decide (1 ≤ f.tf 0 7 0) && decide (f.tf 0 7 0 ≤ 8)
  else if f.ty = 0x38 then decide (1 ≤ f.tf 0 7 0) && decide (f.tf 0 7 0 ≤ 5)
  else if f.ty = 0x15 then decide (f.tf 0 2 0 ≤ 4)
  else if f.ty = 0x30 then decide (f.tf 1 1 0 ≤ 2)
  else if f.ty = 0x24 then decide (f.tf 3 1 0 ≤ 2)
  else true

/-- Every reserved field of a frame is 0, no field holds a reserved encoding and its type is known (R390). -/
def Frame.clean (f : Frame) : Bool :=
  (frameClass f.ty).isSome && f.known && decide (f.payload.length % 4 = 0) && decide (f.payload.length ≤ 4096) &&
  (List.range 6).all (fun i => f.t i &&& (0xFFFFFFFF - (frameMasks f.ty).getD i 0) = 0) &&
  (decide (frameClass f.ty = some 1) || decide (f.circuit = 0))

/-- A frame's bytes: ten header words, payload, frame check (Table 13.2). -/
def Frame.size (f : Frame) : Nat := 44 + f.payload.length
/-- Credits a frame uses: ceil (frame bytes / 512) (R405). -/
def Frame.cost (f : Frame) : Nat := ceilDiv f.size 512

/-- The address a packet frame is hashed by: type words 4 and 5. -/
def Frame.addr (f : Frame) : Nat := f.t 0 + f.t 1 * 2 ^ 32

end Sys2Proof

namespace Sys2Proof.Machine

/-- A frame of this device. -/
def State.frame (s : State) (ty dst : Nat) (tw : List Word) (payload : List Byte) : Frame :=
  { ty := ty, ttl := 64, lseq := 0, lack := 0, circuit := 0, src := s.fab.chip, dst := dst, tw := tw, payload := payload }

/-! ### The link layer (R392) -/

/-- A port carries frames: it is up and not mapped out. -/
def Port.usable (p : Port) : Bool := p.state = 2 && !p.mappedOut

/-- A frame of class 1 to 3 leaves with the next LSEQ and is kept for replay. -/
def Port.emit (p : Port) (f : Frame) : Port :=
  let n := (p.txSeq + 1) % 65536
  let g := { f with lseq := n, lack := p.rxSeq }
  { p with tx := p.tx ++ [g], replayBuf := p.replayBuf ++ [g], txSeq := n, unreported := 0 }

/-- The 512 KiB replay buffer has no room for a frame. -/
def Port.full (p : Port) (f : Frame) : Bool := decide (2 ^ 19 < sumNat (p.replayBuf.map Frame.size) + f.size)

/-- A frame leaves on a port: a class 0 frame as it is, any other numbered and kept for replay, or behind those that wait for room in the
replay buffer; every frame reports LACK. Nothing leaves a port that is not up. -/
def Port.send (p : Port) (f : Frame) : Port :=
  if !p.usable then p
  else if frameClass f.ty = some 0 then
    { p with tx := p.tx ++ [{ f with lseq := 0, lack := p.rxSeq }], unreported := 0 }
  else if p.held ≠ [] ∨ p.full f then { p with held := p.held ++ [f] }
  else p.emit f

/-- Frames that waited leave while the replay buffer has room. -/
def Port.pump : List Frame → Port → Port
  | [], p => { p with held := [] }
  | f :: r, p => if p.full f then { p with held := f :: r } else Port.pump r (p.emit f)

def State.sendOn (s : State) (port : Nat) (f : Frame) : State := s.modPort port (fun p => p.send f)

/-- Frames up to LSEQ `lack` have been acknowledged. -/
def Port.acked (p : Port) (lack : Nat) : Port :=
  if p.replayBuf.any (fun f => f.lseq = lack) then
    Port.pump p.held { p with replayBuf := (p.replayBuf.dropWhile (fun f => f.lseq ≠ lack)).drop 1, failedReplays := 0 }
  else p

/-- The unacknowledged frames are sent again, oldest first. -/
def Port.replay (p : Port) : Port :=
  if p.replayBuf = [] then p
  else { p with tx := p.tx ++ p.replayBuf.map (fun f => { f with lack := p.rxSeq }), unreported := 0,
                replays := satAdd 16 p.replays 1 }

/-- LINK_ACK, with or without REPLAY_REQ. -/
def State.linkAckFrame (s : State) (replay : Bool) : Frame := s.frame 0x01 0 [w32 (b2n replay)] []

/-! ### Routing (R399 to R401) -/

/-- The listed ports of chip x: list position and port; none where the entry is invalid. -/
def State.routeList (s : State) (x : Nat) : List (Nat × Nat) :=
  let e := tget 0 s.fab.routes x
  if bits e 0 0 = 0 then []
  else (List.range (bits e 2 1 + 1)).map (fun i => (i, bits e (7 + 5 * i) (3 + 5 * i)))
def State.routeValid (s : State) (x : Nat) : Bool := bits (tget 0 s.fab.routes x) 0 0 = 1
/-- The candidates for chip x: listed ports neither mapped out nor marked DEAD, in list order. -/
def State.cands (s : State) (x : Nat) : List Nat :=
  let e := tget 0 s.fab.routes x
  ((s.routeList x).filter (fun p => !(s.portOf p.2).mappedOut && !nbit e (23 + p.1))).map (fun p => p.2)
/-- x is unreachable: its entry is valid and has no candidate (R401). -/
def State.unreach (s : State) (x : Nat) : Bool := s.routeValid x && (s.cands x).isEmpty

/-- The hash that picks a candidate: the low 16 bits of the CRC-32 of the source chip and address bits [63:18]. The
order of the bytes under the check is the model's (log entry 11). -/
def routeHash (src addr : Nat) : Nat := (crc32 (leBytes 2 src ++ leBytes 6 (addr / 2 ^ 18))).toNat % 65536

/-- The candidate a packet frame leaves on: position h mod n, moved on by k for a resend; none without a candidate. -/
def State.pickCand (s : State) (f : Frame) (k : Nat) : Option Nat :=
  let cs := s.cands f.dst
  cs[(routeHash f.src f.addr + k) % cs.length]?

/-- A packet frame of this device or in transit; none where its destination has no candidate. -/
def State.sendPacket (s : State) (f : Frame) : Option State :=
  (s.pickCand f 0).map (fun p => s.sendOn p f)
/-- The same, dropped where there is no candidate. -/
def State.sendAnswer (s : State) (f : Frame) : State := (s.sendPacket f).getD s

/-! ### Circuits (R403 to R406) -/

/-- The side of an endpoint entry that leads away: port, neighbour's index, chip. -/
def Circuit.away (c : Circuit) : Nat × Nat × Nat :=
  if c.aLocal then (c.bPort, c.bCircuit, c.bChip) else (c.aPort, c.aCircuit, c.aChip)

/-- The entries of a multicast chain from one of them. -/
def State.chainFrom (s : State) : Nat → Nat → List Nat
  | 0, _ => []
  | n + 1, k =>
    let c := s.circOf k
    if c.state = 0 then [] else k :: (if c.chainValid then s.chainFrom n c.chain else [])

/-- DST_CHIP of a circuit frame at its next sending: the circuit's far chip; a JOB_CTRL frame keeps the member it is meant for, which it may reach
by way of rank 0 (log entry 165). -/
def Frame.toFar (f : Sys2Proof.Frame) (chip : Nat) : Nat := if f.ty = 0x13 then f.dst else chip

/-- A frame leaves an endpoint on its circuit: on every branch of a multicast tree. -/
def State.emit (s : State) (k : Nat) (f : Frame) : State :=
  (s.chainFrom 4096 k).foldl (fun t j =>
    let (p, n, chip) := (t.circOf j).away
    t.sendOn p { f with circuit := n, dst := Frame.toFar f chip }) s

/-- A frame is sent against credits, or waits behind earlier frames of the circuit (R405). -/
def State.sendCircuit (s : State) (k : Nat) (f : Frame) : State :=
  let c := s.circOf k
  if c.state ≠ 2 then s
  else if c.sendQ = [] ∧ f.cost ≤ c.avail then (s.modCirc k (fun x => { x with avail := x.avail - f.cost })).emit k f
  else s.modCirc k (fun x => { x with sendQ := x.sendQ ++ [f] })

/-- Waiting frames leave while the credits reach. -/
def State.drainCircuit : Nat → State → Nat → State
  | 0, s, _ => s
  | n + 1, s, k =>
    let c := s.circOf k
    match c.sendQ with
    | f :: r =>
      if f.cost ≤ c.avail then
        drainCircuit n ((s.modCirc k (fun x => { x with avail := x.avail - f.cost, sendQ := r })).emit k f) k
      else s
    | [] => s

/-- A free circuit entry, the lowest. -/
def State.freeCircuit (s : State) : Option Nat := firstBelow 4096 (fun k => (s.circOf k).state = 0)

/-- The entries of this device's part of a multicast tree, or the one entry of any other circuit. -/
def State.treeOf (s : State) (k : Nat) : List Nat :=
  let c := s.circOf k
  if c.kind ≠ 2 then [k]
  else (s.fab.circuits.filter (fun p => p.2.state ≠ 0 && p.2.kind = 2 && p.2.jobId = c.jobId && p.2.aPort = c.aPort &&
    p.2.aLocal = c.aLocal && p.2.aCircuit = c.aCircuit)).map (fun p => p.1)

/-- The first entry of the chain: the index the neighbour on side A sends to. -/
def State.treeHead (s : State) (k : Nat) : Nat :=
  let ks := s.treeOf k
  (ks.find? (fun j => !ks.any (fun i => (s.circOf i).chainValid && (s.circOf i).chain = j))).getD k

/-- A circuit is torn at this device (R406): TEAR leaves on each side that is not down, is not the one the tear came from and
whose index is known, and its entries are freed. -/
def State.tearEntry (s : State) (k cause lost : Nat) (from' : Option Nat) : State :=
  let c := s.circOf k
  if c.state = 0 then s
  else
    let ks := s.treeOf k
    let f := s.frame 0x15 0 [w32 cause, w32 lost] []
    let side (t : State) (local' : Bool) (port circ chip : Nat) : State :=
      if local' ∨ from' = some port then t else t.sendOn port { f with circuit := circ, dst := chip }
    let s1 := side s c.aLocal c.aPort c.aCircuit c.aChip
    let s2 := ks.foldl (fun t j =>
      let d := s.circOf j
      if d.state = 2 then side t d.bLocal d.bPort d.bCircuit d.bChip else t) s1
    let s3 := ks.foldl (fun t j => t.modCirc j (fun _ => {})) s2
    { s3 with fab := { s3.fab with resv := s3.fab.resv.map (fun r =>
        if r.entry.any (fun j => ks.contains j) then { r with entry := none } else r) } }

/-- The circuits of a context's job at this device. -/
def State.jobCircuits (s : State) (ctx : Nat) : List Nat :=
  (s.fab.circuits.filter (fun p => p.2.state ≠ 0 && !p.2.transit && p.2.ctx = ctx)).map (fun p => p.1)

/-- Every circuit a context's job holds is torn with a cause. -/
def State.tearJob (s : State) (ctx cause : Nat) : State :=
  (s.jobCircuits ctx).foldl (fun t k => t.tearEntry k cause 0 none) s

/-- The circuit endpoint of a context toward a rank: routed (kind 0) or control (kind 1). -/
def State.circuitTo (s : State) (ctx kind chip : Nat) : Option Nat :=
  (s.fab.circuits.find? (fun p => p.2.state = 2 && !p.2.transit && p.2.ctx = ctx && p.2.kind = kind &&
    p.2.away.2.2 = chip)).map (fun p => p.1)

/-- A frame on the circuit of a kind to a chip of the context's job; nothing where the circuit is gone. -/
def State.toChip (s : State) (ctx kind chip : Nat) (f : Frame) : State :=
  match s.circuitTo ctx kind chip with
  | some k => s.sendCircuit k f
  | none => s

/-! ### Arrival -/

/-- What becomes of an arriving frame: it ends here, or its own row acts on it. -/
inductive Arrival where
  | stop (s : State)
  | deliver (s : State)

/-- A discarded frame (R390). -/
def State.discardFrame (s : State) (port : Nat) : State :=
  s.modPort port (fun p => { p with discarded := satAdd 8 p.discarded 1 })

/-- The side a circuit frame leaves a transit entry on, by the port it came from. -/
def Circuit.across (c : Circuit) (port : Nat) : Nat × Nat × Nat :=
  if c.aPort = port ∧ !c.aLocal then (c.bPort, c.bCircuit, c.bChip) else (c.aPort, c.aCircuit, c.aChip)

/-- A transit device passes a circuit frame on with one hop less, a branch point to every branch (R400, R405); one without a hop left is
discarded (R390). -/
def State.passOn (s : State) (port : Nat) (f0 : Frame) : State :=
  let f := { f0 with ttl := f0.ttl - 1 }
  let c := s.circOf f.circuit
  if f0.ttl ≤ 1 then s.discardFrame port
  else if c.kind = 2 ∧ c.aPort = port then
    (s.chainFrom 4096 f.circuit).foldl (fun t j =>
      let d := t.circOf j
      if d.bLocal then t else t.sendOn d.bPort { f with circuit := d.bCircuit, dst := d.bChip }) s
  else
    let (p, n, chip) := c.across port
    s.sendOn p { f with circuit := n, dst := Frame.toFar f chip }

/-- The link layer and routing of an arriving frame of class 1 to 3 (R390, R392, R400, R401). A multicast frame that is
also for this device is both passed on and delivered. -/
def State.arrive (s : State) (port : Nat) (f : Frame) (ok : Bool) : Arrival :=
  let p := s.portOf port
  if !p.usable then .stop s
  else if !ok then .stop (s.modPort port (fun x => { x with crcErrors := satAdd 8 x.crcErrors 1 }))
  else
    let s1 := s.modPort port (fun x => x.acked f.lack)
    if f.lseq ≠ (p.rxSeq + 1) % 65536 then .stop (s1.sendOn port (s.linkAckFrame true))
    else
      let s2 := s1.modPort port (fun x => { x with rxSeq := f.lseq, unreported := x.unreported + 1 })
      if !f.clean then .stop (s2.discardFrame port)
      else if frameClass f.ty = some 1 then
        let c := s2.circOf f.circuit
        if c.state ≠ 2 ∧ f.ty ≠ 0x15 then .stop s2
        else if c.state = 0 then .stop s2
        else if c.transit then
          if f.ty = 0x15 ∨ (f.ty = 0x14 ∧ c.kind = 2) then .deliver s2 else .stop (s2.passOn port f)
        else if c.kind = 2 ∧ c.aPort = port ∧ !c.aLocal ∧ f.ty ≠ 0x15 ∧ f.ty ≠ 0x14 then
          .deliver (if (s2.chainFrom 4096 f.circuit).any (fun j => !(s2.circOf j).bLocal) then s2.passOn port f else s2)
        else .deliver s2
      else if f.dst = s.fab.chip ∨ f.ty = 0x30 ∨ f.ty = 0x31 ∨ f.ty = 0x32 then .deliver s2
      else if f.ttl ≤ 1 then .stop (s2.discardFrame port)
      else
        match s2.sendPacket { f with ttl := f.ttl - 1 } with
        | some t => .stop t
        | none => .stop (s2.sendAnswer (s.frame 0x25 f.src [w32 f.dst] []))

/-- A row that carries a frame of type ty: nothing happens where the frame is of another type. -/
def State.onFrame (s : State) (port : Nat) (f : Frame) (ok : Bool) (ty : Nat) (g : State → State) : Out :=
  if f.ty ≠ ty then .next s
  else
    match s.arrive port f ok with
    | .stop t => .next t
    | .deliver t => .next (g t)

/-- The entry that holds a member's credits: its own end of a multicast tree, else the entry the frame names. -/
def State.creditEntry (s : State) (k : Nat) : Nat :=
  ((s.treeOf k).find? (fun j => (s.circOf j).kind = 2 && (s.circOf j).bLocal)).getD k

/-- Credits of a received circuit frame come back to the sender as it leaves the ingress buffer: they are owed until the
next CREDIT frame (R405). -/
def State.oweCredits (s : State) (f : Frame) : State :=
  s.modCirc (s.creditEntry f.circuit) (fun c => { c with owed := c.owed + f.cost })

/-- The credits a device can send back: on a tree, those that every branch has returned (R405). -/
def State.owedOn (s : State) (k : Nat) : Nat :=
  match (s.treeOf k).map (fun j => (s.circOf j).owed) with
  | [] => 0
  | n :: r => r.foldl min n

/-- Credits leave what is owed. -/
def State.takeOwed (s : State) (k n : Nat) : State :=
  (s.treeOf k).foldl (fun t j => t.modCirc j (fun x => { x with owed := x.owed - n })) s

/-- A CREDIT frame with everything owed, back toward the sender. -/
def State.sendCredit (s : State) (k : Nat) : State :=
  let c := s.circOf k
  let n := min (s.owedOn k) 1024
  let (p, i, chip) := if c.kind = 2 then (c.aPort, c.aCircuit, c.aChip) else c.away
  (s.takeOwed k n).sendOn p { s.frame 0x14 chip [w32 n] [] with circuit := i }

/-! ### Peer reads (R397, R402) -/

/-- The fabric address of byte off of a lender's window frame: chip, space 1, offset (R395, R396). -/
def peerAddr (chip frame off : Nat) : Nat :=
  chip * 2 ^ 50 + 2 ^ 48 + (Config.lendOffset chip frame + off) % 2 ^ 48

/-- The MEM_READ of one chunk of a peer block. -/
def State.memReadFrame (s : State) (part chip frame id chunk : Nat) : Frame :=
  s.frame 0x20 chip (w64 (peerAddr chip frame (chunk * 256)) ++ [w32 (id % 65536 + part * 2 ^ 16), w32 256, 0]) []

/-- CONTROL frame payload: partition, first frame, count (log entry 12). -/
def State.control (s : State) (dst sub part first count : Nat) : Frame :=
  s.frame 0x38 dst [w32 sub] (leBytes 4 part ++ leBytes 4 first ++ leBytes 4 count)

/-- The frame of a peer request. -/
def State.reqFrame (s : State) (r : PeerReq) : Frame :=
  let p := (s.ctxOf r.ctx).part
  if r.lend then s.control r.chip 0x01 p 0 r.count else s.memReadFrame p r.chip r.frame r.id r.chunk

/-- A new peer request leaves for its chip; none where the chip has no candidate. -/
def State.sendReq (s : State) (r : PeerReq) : Option State :=
  let r := { r with id := s.fab.nextReq % 65536 }
  let f := s.reqFrame r
  (s.pickCand f 0).map (fun p =>
    { s with fab := { s.fab with reqs := s.fab.reqs ++ [{ r with port := p }], nextReq := s.fab.nextReq + 1 } }.sendOn p f)

/-- The chunks of a range of a peer block that are neither here nor asked for are asked of the lender; none where the
lender has no candidate. -/
def State.fetchPeer (s : State) (ctx i chip frame off len : Nat) : State :=
  (chunksOf off len).foldl (fun t k =>
    if t.tiers.peerGot.contains (i, k) ∨ t.fab.reqs.any (fun r => !r.lend && r.entry = i && r.chunk = k) then t
    else (t.sendReq { id := 0, chip := chip, ctx := ctx, frame := frame, entry := i, chunk := k }).getD t) s

/-- A borrowed frame goes back to its lender (R279). -/
def State.lendReturn (s : State) (part chip frame : Nat) : State :=
  s.sendAnswer (s.control chip 0x05 part frame 1)

end Sys2Proof.Machine
end

