-- ==== Sys2Proof/Machine/Teardown.lean ====
section
/-! DEFINITION. Ending commands without commit (R77, R147, R268, R517), retiring a batch generation (R362), context teardown
(R13, R134, R317, Table 14.8) and the faults of the fabric that tear contexts (R282, R406, R413). -/
namespace Sys2Proof.Machine

/-! ### Retiring a batch generation (R362) -/

/-- The payload and type words of a routed message without a tile: GEN, KIND and LAYER, ORDINAL, SRC_RANK (Table 11.6). -/
def routedWords (gen kind layer rank : Nat) : List Word :=
  [0, 0, w32 gen, w32 (kind + layer * 8), 0, w32 rank]

/-- The other members of a job, by rank and chip. -/
def Job.others (j : Job) : List (Nat × Nat) :=
  (j.members.zipIdx.filter (fun p => p.2 ≠ j.rank)).map (fun p => (p.2, p.1))
def Job.chipOf (j : Job) (rank : Nat) : Nat := j.members.getD rank 0

def State.jobOf (s : State) (ctx : Nat) : Option Job := (s.ctxOf ctx).job
def State.modJob (s : State) (ctx : Nat) (g : Job → Job) : State :=
  s.modCtx ctx (fun c => { c with job := c.job.map g })

/-- The chip of the next stop of a JOB_CTRL frame: its member's own, and rank 0's from one of the others to another, since control circuits run
between rank 0 and each other member only (R407; log entry 165). -/
def State.ctrlVia (s : State) (ctx chip : Nat) : Nat :=
  match s.jobOf ctx with
  | some j => if j.rank = 0 then chip else j.chipOf 0
  | none => chip

/-- A JOB_CTRL message to a member's chip. -/
def State.jobCtrl (s : State) (ctx chip sub : Nat) (payload : List Byte) : State :=
  s.toChip ctx 1 (s.ctrlVia ctx chip) (s.frame 0x13 chip [w32 sub] payload)

/-- A generation is newer than another (Table 11.7). -/
def genNewer (g l : Nat) : Bool :=
  let d := (g + 2 ^ 32 - l) % 2 ^ 32
  decide (1 ≤ d) && decide (d < 2 ^ 31)

/-- A routed tile of a generation that is over: discarded and counted, its credits returned (R361). -/
def State.dropRouted (s : State) (ctx : Nat) (f : Frame) : State :=
  (s.oweCredits f).modCtx ctx (fun c => { c with discarded := satAdd 32 c.discarded 1 })

/-- The routed tiles held for a generation that is over are discarded. -/
def State.flushHeld (s : State) (ctx : Nat) : State :=
  match s.jobOf ctx with
  | none => s
  | some j =>
    let (keep, gone) := j.held.partition (fun p => genNewer (p.2.t 2) j.gen || (!j.genEnded && p.2.t 2 = j.gen))
    gone.foldl (fun t p => t.dropRouted ctx p.2) (s.modJob ctx (fun x => { x with held := keep }))

/-- A generation whose retires have arrived from every other member is reported to the verifier; the verifier counts
reports, and with every member's the generation is retired in the job. -/
def State.retireCheck (s : State) (ctx gen : Nat) : State :=
  match s.jobOf ctx with
  | none => s
  | some j =>
    if (j.gen = gen && !j.genEnded) || !(j.others.all (fun p => j.retires.contains (gen, p.1))) ||
        j.reports.contains (gen, j.rank) then s
    else
      let s1 := s.modJob ctx (fun x => { x with reports := x.reports ++ [(gen, x.rank)] })
      if j.rank = 0 then
        let r := j.reports ++ [(gen, 0)]
        if j.members.zipIdx.all (fun p => r.contains (gen, p.2)) then
          s1.modJob ctx (fun x => { x with retired := x.retired ++ [gen] })
        else s1
      else s1.jobCtrl ctx (j.chipOf 0) 0x02 (leBytes 4 gen)

/-- The live generation's run ends without commit: a retire goes to every other member (R362). -/
def State.retireStart (s : State) (ctx : Nat) : State :=
  match s.jobOf ctx with
  | none => s
  | some j =>
    if j.gen = 0 || j.genEnded then s
    else
      let s1 := s.modJob ctx (fun x => { x with genEnded := true })
      let s2 := j.others.foldl (fun t p =>
        t.toChip ctx 0 p.2 (t.frame 0x11 p.2 (routedWords j.gen 4 0 j.rank) [])) s1
      let s3 := (s2.retireCheck ctx j.gen).flushHeld ctx
      { s3 with router := s3.router.filter (fun p => p.1 / 256 ≠ ctx) }

/-! ### Hands and layouts -/

/-- The hands of a context's layout in a core are cleared, with what the core holds of them. Answers the tiles lost. -/
def Core.clearHands (k : Core) (p : Hand → Bool) : Core :=
  let gone := (List.range 4).filter (fun h => match tget none k.hands h with
    | some x => p x
    | none => false)
  { k with
    hands := gone.foldl (fun t h => tset none t h none) k.hands,
    tq := k.tq.filter (fun e => !gone.contains e.hand) }

/-- The Pairing Buffer halves a core holds for hands that meet a condition. -/
def Core.pairItems (k : Core) (p : Hand → Bool) : Nat :=
  let hs := (List.range 4).filter (fun h => match tget none k.hands h with
    | some x => p x
    | none => false)
  sumNat (hs.map (fun h => match tget none k.hands h with
    | some x => sumNat (x.pairs.map (fun q => sumNat (q.2.map (fun e => b2n e.data.isSome + b2n e.ctl.isSome))))
    | none => 0))

/-- Changing every core of a list. -/
def State.modCores (s : State) (cs : List Nat) (g : Core → Core) : State :=
  cs.foldl (fun t c => t.modCore c g) s

/-- The cores of a layout's rectangle. -/
def Layout.cores (l : Layout) : List Nat := l.clusters.flatMap coresOfCluster

/-- The hands of one layout of a context are cleared from its rectangle, with its tiles waiting at core inputs. -/
def State.clearLayoutHands (s : State) (ctx lnum : Nat) (l : Layout) : State :=
  s.modCores l.cores (fun k =>
    let k1 := k.clearHands (fun h => h.ctx = ctx && h.layout = lnum)
    { k1 with cfg := k1.cfg.filter (fun i => match i with
        | .handWrite _ h => !(h.ctx = ctx && h.layout = lnum)
        | .dealUpdate c y _ => !(c = ctx && y = lnum)
        | .cut c y => !(c = ctx && y = lnum)
        | .finish c y => !(c = ctx && y = lnum)) })

/-- A layout is no longer loaded: hands cleared, reservations and buffers released. -/
def State.dropLayout (s : State) (ctx lnum : Nat) : State :=
  match s.layoutOf ctx lnum with
  | some l => (s.clearLayoutHands ctx lnum l).setLayout ctx lnum none
  | none => s

/-! ### Ending one command without commit -/

/-- The tiles of a stream waiting in its station's buffer: kinds 0 and 1. -/
def dropData (l : List Tile) : List Tile := l.filter (fun t => decide (2 ≤ t.kind))
/-- The same without the tiles that came from the fabric, which carry a tag of 1 in the buffer until they are stamped. -/
def dropOwn (l : List Tile) : List Tile := l.filter (fun t => decide (2 ≤ t.kind) || decide (t.tag = 1))

/-- A cut for an input station of a layout (R155). -/
def Layout.cutTile (l : Layout) (ctx key : Nat) : Tile :=
  { kind := 2, ctx := ctx, hand := (match l.stationOf key with
      | some st => st.hand
      | none => 0) + l.keyBase key, deal := l.keyDeal key }

/-- A stream goes out of a station (Table 7.2 DIR), or into cluster memory (ENDPOINT). -/
def Slot.isOut (v : Slot) : Bool := bit (word v.desc 0) 1
def Slot.toCmem (v : Slot) : Bool := bit (word v.desc 0) 5

/-- The cuts of a layout whose stations' streams have all ended go into the stations, behind their last tiles (R155). -/
def State.sendCuts (s : State) (ctx lnum : Nat) : State :=
  match s.layoutOf ctx lnum with
  | none => s
  | some l =>
    let busy (key : Nat) : Bool := s.usedSlots.any (fun p => p.2.ctx = ctx && p.2.layout = lnum && p.2.station = key && !p.2.toCmem)
    let go := l.cutsDue.filter (fun k => !busy k)
    if go = [] then s
    else s.setLayout ctx lnum (some { l with
      cutsDue := l.cutsDue.filter busy,
      buffers := go.foldl (fun b k => tmod [] b k (fun x => x ++ [l.cutTile ctx k])) l.buffers })

/-- A stream ends: its binding breaks and its slot is freed; what an input station's buffer still holds of it is discarded; a
cut that waited for it goes (R155, R222, R225). -/
def State.endSlot (s : State) (key : Nat) (v : Slot) : State :=
  let s1 := { s with slots := tset none s.slots key none }
  let s2 := if v.state = .waiting ∨ v.isOut ∨ v.toCmem then s1
    else s1.modLayout v.ctx v.layout (fun l => { l with buffers := tmod [] l.buffers v.station dropOwn })
  s2.sendCuts v.ctx v.layout

/-- The streams of a command end: bindings broken, slots freed, halts void (R224, R252). -/
def State.endStreams (s : State) (f q n : Nat) : State :=
  (s.cmdSlots f q n).foldl (fun t p => t.endSlot p.1 p.2) s

/-- A replacement that has not sent its first cut clears the new hands it wrote; the old layout stays (R517). -/
def State.undoReplace (s : State) (ctx lnum : Nat) : State :=
  match s.layoutOf ctx lnum with
  | some l =>
    let s1 := s.modCores l.cores (fun k =>
      let k1 := k.clearHands (fun h => h.ctx = ctx && h.layout = lnum && h.waiting)
      { k1 with cfg := k1.cfg.filter (fun i => match i with
          | .handWrite _ h => !(h.ctx = ctx && h.layout = lnum)
          | .finish c y => !(c = ctx && y = lnum)
          | _ => true) })
    s1.setLayout ctx lnum (some { l with next := none, nextDeal := 0, nextAddr := 0, behind := false, acksDue := [] })
  | none => s

/-- The session a cancel marked goes back to its return state, unless another started cancel holds the mark too (R340). -/
def State.undoMark (s : State) (f q n k : Nat) : State :=
  if s.allCmds.any (fun x => !(x.1 = f && x.2.1 = q && x.2.2.n = n) && x.2.2.phase ≠ .preempted && (match x.2.2.work with
      | .sessionCancel j _ _ => j = k
      | _ => false)) then s
  else s.modSess k (fun x => if x.state = 5 then { x with state := x.returnState, returnState := 0 } else x)

/-- A candidate record and its slot are released (R309). -/
def State.freeCand (s : State) (ctx num : Nat) : State :=
  let key := ctx * 2 ^ 24 + num
  let r := tget {} s.kv.recs key
  match (s.ctxOf ctx).geom with
  | some g =>
    if num = 0xFFFFFF ∨ r.state ≠ 3 then s
    else
      let bs := if r.held then (List.range g.slotBlocks).map (g.slotBlock r.slot + ·) else []
      let s1 := bs.foldl (fun t b => match t.bmFind (t.ctxOf ctx).part ctx b with
        | some (i, _) => t.unmapEntry i
        | none => t) s
      { s1 with kv := { s1.kv with recs := tset {} s1.kv.recs key {} } }.rawWrite ctx (g.pool + num * 320) (List.replicate 320 0)
  | none => s

/-- A store checkpoint is written: the present objects, and each slot as in one of them, dead, or free (R488). -/
def State.checkpoint (s : State) : State :=
  let present (o : Option Obj) : Bool := o.any (fun x => x.present)
  let held := s.store.objs.flatMap (fun p => match p.2 with
    | some x => if x.present then x.slots else []
    | none => [])
  { s with store := { s.store with
      chkNumber := s.store.chkNumber + 1,
      chkSlots := s.store.slots.filter (fun p => p.2 = 2 || held.contains p.1),
      chkObjs := s.store.objs.filter (fun p => present p.2) } }

/-- What a command holds beyond its shadows and streams is released, by its opcode and the stage it reached. -/
def State.undoWork (s : State) (f q n : Nat) (c : Cmd) : State :=
  match c.work with
  | .layout num stage =>
    if c.op = 0x13 then (if stage ≥ 1 then s.dropLayout c.ctx num else s)
    else if stage = 0 then s.modLayout c.ctx num (fun (l : Layout) => { l with unloading := false })
    else if c.op = 0x14 ∧ !c.pastCommit then s.undoReplace c.ctx num
    else s
  | .move num stage _ => if stage ≥ 2 then s.dropLayout c.ctx num else s
  | .replace _ _ _ _ _ _ _ staging =>
    let s1 := staging.foldl (fun t p => t.dropFrame p.2) s
    s1.modCtx c.ctx (fun x => if x.barrier = some (f, q, n) then { x with barrier := none } else x)
  | .sessionCancel k _ _ => s.undoMark f q n k
  | .target kind index stage =>
    if c.op = 0x80 then { s with mgmt := { s.mgmt with testing := s.mgmt.testing.filter (· ≠ index) } }
    else if c.op = 0x83 ∧ stage ≥ 1 then
      { s with tiers := { s.tiers with retraining := s.tiers.retraining.erase (kind, index) } }
    else s
  | .port p lane _ _ =>
    s.modPort p (fun x => { x with
      recalActive := false, recalLane := 0,
      lanesUp := if nbit x.lanesFailed lane then x.lanesUp else setBits x.lanesUp lane lane 1 })
  | .recall first count _ _ past =>
    if past then s
    else
      let s1 := { s with tiers := { s.tiers with recalls := s.tiers.recalls.erase (first, count) } }
      { s1 with tiers := { s1.tiers with lends := s1.tiers.lends.map (fun l =>
          { l with recalling := s1.tiers.recalls.any (fun r => decide (overlapCount r.1 r.2 l.first l.count ≠ 0)) }) } }
  | .peer chip _ _ granted =>
    if granted then c.maps.foldl (fun t p => t.lendReturn (t.ctxOf c.ctx).part chip p.2.frame) s else s
  | .job id =>
    let s0 := s.tearJob c.ctx 0
    let s1 := (s0.fab.waiting.filter (fun w => w.2.t 0 = id.toNat)).foldl (fun t w =>
      let g := t.frame 0x15 w.2.src [0] []
      { t with fab := { t.fab with waiting := t.fab.waiting.erase w } }.sendOn w.1 { g with circuit := w.2.tf 1 13 2 }) s0
    s1.modCtx c.ctx (fun x => match x.job with
      | some j => if j.isOpen then x else { x with job := none }
      | none => x)
  | .object key stripes =>
    if c.op = 0x60 ∧ c.pastCommit then
      { s with store := { s.store with objs := tmod none s.store.objs key (fun o => o.map (fun (x : Obj) => { x with present := true })) } }.checkpoint
    else if c.op = 0x60 then
      { s with store := { s.store with
          objs := tset none s.store.objs key none,
          slots := stripes.foldl (fun t k => tset 0 t k 2) s.store.slots } }
    else s
  | .step st =>
    let s1 := st.entries.foldl (fun t e => t.freeCand c.ctx e.candRec) s
    let s2 := if st.span then s1.modJob c.ctx (fun j => { j with stepMsgs := [] }) else s1
    if st.gen ≠ 0 then s2.retireStart c.ctx
    else if st.span && (match s2.jobOf c.ctx with
        | some j => j.plan.any (fun p => p.layout = st.layout)
        | none => false) then { s2 with router := s2.router.filter (fun p => p.1 / 256 ≠ c.ctx) }
    else s2
  | _ => s

/-- A command ends without commit and without yet completing: everything it held goes back (R77, R268). -/
def State.release (s : State) (f q n : Nat) : State :=
  match s.cmdOf f q n with
  | none => s
  | some c =>
    let s1 := (s.undoWork f q n c).endStreams f q n
    let s2 := s1.dropShadows f q n
    s2.modCmd f q n (fun x => { x with work := .none, overflows := [], malformed := [], overflowed := false,
                                       begun := false, waits := none })

/-- The commands running on one layout of the context are concerned. RUN, STREAM_LOAD and STEP name it in word 2. -/
def Cmd.onLayout (c : Cmd) (lnum : Nat) : Bool :=
  (c.op = 0x30 || c.op = 0x31 || c.op = 0x42) && fld (word (if c.eff = [] then c.words else c.eff) 2) 2 0 = lnum

/-- A placement move that has cleared its layout ends without commit: the commands it pre-empted end with INVALID_PARAMETER and leave the
context as it is, or with CONTEXT_GONE where the move's own status tears it down (R153; log entry 154). -/
def State.failMoved (s : State) (ctx lnum status : Nat) : State :=
  let v : Verdict := if tearsDown status && status ≠ St.invalidParameter then ⟨St.contextGone, 0, 0⟩ else ⟨St.invalidParameter, 2, 0⟩
  (s.allCmds.filter (fun x => x.2.2.phase = .preempted && x.2.2.moved && x.2.2.ctx = ctx && x.2.2.onLayout lnum)).foldl (fun t x =>
    (t.finish x.1 x.2.1 x.2.2.n v).modCmd x.1 x.2.1 x.2.2.n (fun c => { c with keeps := true })) s

/-- A command ends without commit and completes in its turn with a verdict. -/
def State.endCmd (s : State) (f q n : Nat) (v : Verdict) : State :=
  let t := (s.release f q n).finish f q n v
  match s.cmdOf f q n with
  | some c => (match c.work with
    | .move lnum 2 _ => t.failMoved c.ctx lnum v.status
    | _ => t)
  | none => t

/-! ### Ending what runs on other devices too (R85, R362) -/

/-- The live generation of a step that runs routed on its context's job; 0 where it has none. -/
def Cmd.routedGen (c : Cmd) : Nat :=
  match c.work with
  | .step st => st.gen
  | _ => 0

/-- A generation is retired as far as this member can tell: in the job at the verifier, reported elsewhere (R362). -/
def State.genRetired (s : State) (ctx gen : Nat) : Bool :=
  match s.jobOf ctx with
  | none => true
  | some j => if j.rank = 0 then j.retired.contains gen else j.reports.contains (gen, j.rank)

/-- Commands that were ended and wait for their generation's retirement finish once it is retired (R85). -/
def State.settle (s : State) : State :=
  s.mapCmds (fun _ _ c => c.phase = .ending && s.genRetired c.ctx c.routedGen)
    (fun c => { c with phase := .finished, work := .none })

/-- A command is cancelled: it ends without commit and completes with the verdict once its work is retired (R85). -/
def State.cancelCmd (s : State) (f q n : Nat) (v : Verdict) : State :=
  match s.cmdOf f q n with
  | none => s
  | some c =>
    let g := c.routedGen
    let s1 := s.endCmd f q n v
    if g ≠ 0 ∧ (c.phase = .running ∨ c.phase = .finished ∧ c.status = 0) ∧ !s1.genRetired c.ctx g then
      s1.modCmd f q n (fun x => { x with phase := .ending, work := .step { gen := g } })
    else s1

/-! ### Context teardown -/

/-- The KV records, directory entries and sessions of a context go; its Park Log entries are dead (R317). -/
def State.dropKv (s : State) (ctx : Nat) : State :=
  { s with
    kv := { s.kv with
      recs := s.kv.recs.filter (fun p => p.1 / 2 ^ 24 ≠ ctx),
      dir := tmap {} s.kv.dir (fun _ e => if e.valid && e.ctx = ctx then { e with valid := false, ctx := 0,
                                                                                  parentKey := 0, record := 0, hash := 0 } else e),
      park := s.kv.park.map (fun e => if e.ctx = ctx then { e with dead := true, data := [] } else e) },
    sess := tmap {} s.sess (fun _ x => if x.state ≠ 0 ∧ x.ctx = ctx then { version := (x.version + 1) % 2 ^ 32 } else x) }

/-- Every Block Map entry of a context becomes UNMAPPED (R259). -/
def State.unmapAll (s : State) (ctx : Nat) : State :=
  (s.tiers.bm.filter (fun p => p.2.state ≠ 0 && p.2.ctx = ctx)).foldl (fun t p => t.unmapEntry p.1) s

/-- The cores of a context's hands are cleared at once, without a cut, with its tiles waiting at their inputs. -/
def State.clearContextCores (s : State) (ctx : Nat) : State :=
  { s with cores := tmap {} s.cores (fun _ k =>
      let k1 := k.clearHands (fun h => h.ctx = ctx)
      let k2 := { k1 with
        inq := tmap [] k1.inq (fun _ l => l.filter (fun t => t.ctx ≠ ctx)),
        cfg := k1.cfg.filter (fun i => match i with
          | .handWrite _ h => h.ctx ≠ ctx
          | .dealUpdate c _ _ => c ≠ ctx
          | .cut c _ => c ≠ ctx
          | .finish c _ => c ≠ ctx) }
      if k.hands.any (fun p => match p.2 with
        | some h => h.ctx = ctx
        | none => false) then { k2 with heldIn := [] } else k2) }

/-- Context teardown (R13): every uncommitted command of the context ends with the verdict given for it, its shadow
blocks and resources are released, and the context is no longer live. `st` is the status recorded in the error log. -/
def State.teardownBy (s : State) (ctx st : Nat) (verdict : Nat → Nat → Cmd → Verdict) : State :=
  if !s.ctxLive ctx then s
  else
    let cs := s.allCmds.filter (fun x => namesContext x.2.2.words && x.2.2.ctx = ctx && (x.2.2.op ≠ 0x11 || !x.2.2.pastCommit))
    let s0 := s.tearJob ctx 1
    let s1 := cs.foldl (fun t x => t.endCmd x.1 x.2.1 x.2.2.n (verdict x.1 x.2.1 x.2.2)) s0
    let s2 := (s1.clearContextCores ctx).dropKv ctx
    let s3 := ({ s2 with
      router := s2.router.filter (fun p => p.1 / 256 ≠ ctx),
      slots := s2.slots.filter (fun p => match p.2 with
        | some v => v.ctx ≠ ctx
        | none => true) }).unmapAll ctx
    let s4 := { s3 with
      fab := { s3.fab with reqs := s3.fab.reqs.filter (fun r => r.ctx ≠ ctx) },
      mgmt := if s3.mgmt.dbgEnable && s3.mgmt.dbgCtx = ctx then { s3.mgmt with dbgEnable := false } else s3.mgmt }
    (s4.modCtx ctx (fun _ => {})).report islCp 13 st (some ctx) 0

/-- A fault tears a context down: the commands it concerns end with its verdict, the others with CONTEXT_GONE. -/
def State.teardown (s : State) (ctx : Nat) (v : Verdict) (hit : Nat → Nat → Cmd → Bool) : State :=
  s.teardownBy ctx v.status (fun f q c => if hit f q c then v else ⟨St.contextGone, 0, 0⟩)

/-- Every running command of the context is concerned. -/
def hitRunning (_ _ : Nat) (c : Cmd) : Bool := decide (c.phase = .running)
/-- The command (f, q, n) is concerned. -/
def hitOne (f q n : Nat) (f' q' : Nat) (c : Cmd) : Bool := f' = f && q' = q && c.n = n
/-- The commands running on one layout of the context are concerned. -/
def hitLayout (lnum : Nat) (_ _ : Nat) (c : Cmd) : Bool := decide (c.phase = .running) && c.onLayout lnum

/-! ### Loss of a cluster (R27, R131) -/

/-- The contexts with hands in a cluster, those still on configuration ports included. -/
def State.ctxsIn (s : State) (cl : Nat) : List Nat :=
  ((coresOfCluster cl).flatMap (fun c =>
    (s.coreOf c).hands.filterMap (fun h => h.2.map (fun x => x.ctx)) ++
    (s.coreOf c).cfg.filterMap (fun i => match i with
      | .handWrite _ h => some h.ctx
      | _ => none))).eraseDups

/-- A cluster is fenced and the contexts with hands in it are torn down with CLUSTER_FENCED. -/
def State.loseCluster (s : State) (cl cause : Nat) : State :=
  (s.ctxsIn cl).foldl (fun t c => t.teardown c ⟨St.clusterFenced, cl, 0⟩ hitRunning) (s.fenceCluster cl cause)

/-- Cluster memory has had an uncorrectable error; a second one of a cluster fences it (R27; log entry 158). -/
def State.cmemFault (s : State) (cl : Nat) : State :=
  if s.mgmt.cmemFaults.contains cl then s.loseCluster cl St.sramUncorrectable
  else { s with mgmt := { s.mgmt with cmemFaults := insertAsc s.mgmt.cmemFaults cl } }

/-! ### Loss of peers, circuits and ports -/

/-- A chip has become unreachable (R282): borrowing contexts are torn down with PEER_LOST, their entries become INVALID,
and grants to that chip end with their frames queued for scrub. -/
def State.peerGone (s : State) (chip : Nat) : State :=
  let hits := s.tiers.bm.filter (fun p => p.2.tier = 2 && p.2.chip = chip && (p.2.state = 1 || p.2.state = 2))
  let s1 := hits.foldl (fun t p => t.invalidate p.1 false false) s
  let s2 := (hits.map (fun p => p.2.ctx)).eraseDups.foldl
    (fun t c => t.teardown c ⟨St.peerLost, chip, 0⟩ hitRunning) s1
  let mine := s2.tiers.lends.filter (fun l => l.chip = chip)
  { s2 with tiers := { s2.tiers with
      lends := s2.tiers.lends.filter (fun l => l.chip ≠ chip),
      lendScrub := s2.tiers.lendScrub ++ mine.flatMap (fun l => (List.range l.count).map (fun i => l.first + i)) } }

/-- Chips that became unreachable between two states. -/
def State.newlyLost (s t : State) : List Nat :=
  (tkeys t.fab.routes).filter (fun x => t.unreach x && !s.unreach x)

/-- What has become unreachable since state `old` is handled as R282 states. -/
def State.afterRoutes (s old : State) : State := (old.newlyLost s).foldl (fun t x => t.peerGone x) s

/-- A command uses its context's job (R410): a SPAN step or a broadcast load that has started and not completed. -/
def Cmd.usesJob (c : Cmd) : Bool :=
  ((c.op = 0x42 && bit (word c.eff 2) 3) || c.op = 0x62) && c.phase ≠ .fetched && c.phase ≠ .preempted

/-- The job of a context ends (R406, R410): every circuit it holds is torn with cause 0. -/
def State.endJob (s : State) (ctx : Nat) : State := (s.tearJob ctx 0).modCtx ctx (fun x => { x with job := none })

/-- A JOB_OPEN that has not committed fails (R408). -/
def State.failOpen (s : State) (ctx a : Nat) : State :=
  match s.allCmds.find? (fun x => x.2.2.op = 0x70 && x.2.2.ctx = ctx && (match x.2.2.work with
      | .job _ => true
      | _ => false)) with
  | some x => s.endCmd x.1 x.2.1 x.2.2.n ⟨St.circuitsUnavailable, a, 0⟩
  | none => s

/-- What a tear with a cause does to the context at an endpoint (Table 13.8). `own`: this device found the cause itself. -/
def State.endpointTorn (s : State) (ctx k cause lost : Nat) (own : Bool) : State :=
  match s.jobOf ctx with
  | none => s
  | some j =>
    if !j.isOpen then s.failOpen ctx 32
    else if cause = 0 ∧ !s.allCmds.any (fun x => x.2.2.ctx = ctx && x.2.2.usesJob) then s.endJob ctx
    else
      let v : Verdict := if cause = 3 then ⟨St.peerLost, lost, 0⟩ else if cause = 4 ∧ own then ⟨St.creditTimeout, k, 0⟩
        else ⟨St.circuitTorn, k, 0⟩
      s.teardown ctx v hitRunning

/-- A circuit is torn at this device for a cause: a transit entry passes the tear on, an endpoint acts on it (R406). -/
def State.tearHere (s : State) (k cause lost : Nat) (from' : Option Nat) : State :=
  let c := s.circOf k
  let s1 := s.tearEntry k cause lost from'
  if c.state = 0 then s1
  else
    match (s.treeOf k).find? (fun j => !(s.circOf j).transit) with
    | some j => s1.endpointTorn (s.circOf j).ctx j cause lost from'.isNone
    | none => s1

/-- A port goes down (R393, R413): it is mapped out, its replay buffer is dropped, every circuit with a side on it is
torn with cause 2 or 3 by whether the chip beyond is reachable, and chips newly unreachable are handled. -/
def State.portDown (s : State) (port cause : Nat) : State :=
  let s1 := s.modPort port (fun p => { p with state := 3, downCause := cause, mappedOut := true, lanesUp := 0, recalActive := false,
                                              replayBuf := [], held := [], failedReplays := 0, unreported := 0 })
  let s1 := { s1 with fab := { s1.fab with waiting := s1.fab.waiting.filter (fun w => w.1 ≠ port),
                                           resv := s1.fab.resv.filter (fun r => r.port ≠ port) } }
  let s1 := (s1.allCmds.filter (fun x => x.2.2.isRunning)).foldl (fun t x => match x.2.2.work with
    | .port p lane _ left => if p = port then t.done x.1 x.2.1 x.2.2.n (left ||| 2 ^ lane) 0 else t
    | _ => t) s1
  let s2 := s1.report (islQuenor port) 9 cause none port
  let hit := s2.fab.circuits.filter (fun p => p.2.state ≠ 0 &&
    ((p.2.aPort = port && !p.2.aLocal) || (p.2.bPort = port && !p.2.bLocal)))
  let s3 := hit.foldl (fun t p =>
    let far := if p.2.aPort = port && !p.2.aLocal then p.2.aChip else p.2.bChip
    let lost := t.unreach far
    t.tearHere p.1 (if lost then 3 else 2) (if lost then far else 0) (some port)) s2
  s3.afterRoutes s

end Sys2Proof.Machine
end

