-- ==== Sys2Proof/Machine/Queues.lean ====
section
/-! DEFINITION. Queues, doorbells, fetching and cancelling (chapter 2). -/
namespace Sys2Proof.Machine

/-! ### Doorbells (R57, R59, R60) -/

/-- A doorbell write is ignored: DB_ERR and QUEUE_ERROR are set. -/
def State.dbError (s : State) (f q : Nat) : State := (s.modQueue f q (fun x => { x with dbErr := true })).cause f 5

/-- Whether the doorbells of a queue take writes. -/
def Queue.takesDoorbell (x : Queue) : Bool := x.state = .running || x.state = .stopped

/-- A submission-queue tail write makes the entries before it visible; after a thermal trip it is ignored and sets DB_ERR (Table 16.3). -/
def State.writeSqTail (s : State) (f q value : Nat) : State :=
  let v := value % 65536
  let x := s.queueOf f q
  if s.cp.halted || !x.takesDoorbell || decide (x.sqSizeM1 < v) then s.dbError f q
  else s.modQueue f q (fun y => { y with sqTail := v })

/-- SQ_TAIL_DOORBELL. -/
def execSqTailDoorbell (f q value : Nat) (s : State) : Out :=
  onlyIf (s.fnLive f && decide (q < 64)) s (s.writeSqTail f q value)

/-- A head write frees read completion entries. It may not pass CQ_TAIL. During a thermal trip the records still waiting
are written as the ring gets room (R478), so the head keeps acting. -/
def State.writeCqHead (s : State) (f q value : Nat) : State :=
  let v := value % 65536
  let x := s.queueOf f q
  let size := x.cqSizeM1 + 1
  if !x.takesDoorbell || decide (x.cqSizeM1 < v) ||
      decide ((x.cqTail + size - x.cqHead) % size < (v + size - x.cqHead) % size) then s.dbError f q
  else s.modQueue f q (fun y => { y with cqHead := v })

/-- CQ_HEAD_DOORBELL. -/
def execCqHeadDoorbell (f q value : Nat) (s : State) : Out :=
  onlyIf (s.fnLive f && decide (q < 64)) s (s.writeCqHead f q value)

/-! ### Q_CONTROL (R56, Table 2.4) -/

/-- The fields of Q_CONTROL that software reads and writes. -/
def Queue.controlFields (x : Queue) (v : Word) : Queue :=
  { x with preemptLimit := fld v 19 16, windowM1 := fld v 12 8, stopOnError := bit v 1 }

/-- A queue's configuration lets it run: neither size field 0, both bases 4 KiB aligned. -/
def Queue.configOk (x : Queue) : Bool :=
  decide (x.sqSizeM1 ≠ 0) && decide (x.cqSizeM1 ≠ 0) && decide (x.sqBase.toNat % 4096 = 0) &&
  decide (x.cqBase.toNat % 4096 = 0)

/-- Head, tail, CQ tail 0 and CQ phase 1. Eligible records not yet signalled stay counted: each of them is signalled by one message
(R82). -/
def Queue.cleared (x : Queue) : Queue :=
  { x with sqHead := 0, sqTail := 0, cqTail := 0, cqHead := 0, phase := true }

/-- The two cases of R57 that a reset of the queue cannot end: a WEIGHT_REPLACE at or after order 5 of Table 12.6, and a LAYOUT_REPLACE
or LAYOUT_UNLOAD that has sent its first cut. -/
def Cmd.outlivesReset (c : Cmd) : Bool := c.pastCommit && (c.op = 0x14 || c.op = 0x15 || c.op = 0x63)

/-- A queue enters RESETTING: every uncommitted command ends without commit and without a completion record, but for the two cases of
R57. -/
def State.enterReset (s : State) (f q : Nat) : State :=
  let cs := (s.queueOf f q).window.filter (fun c => !c.outlivesReset)
  let s1 := cs.foldl (fun t c => t.release f q c.n) s
  s1.modQueue f q (fun x => { x with state := .resetting, window := x.window.filter (fun c => c.outlivesReset) })

/-- A write of Q_CONTROL (Table 2.8). -/
def State.writeControl (s : State) (f q : Nat) (v : Word) : State :=
  let s1 := s.modQueue f q (fun x => x.controlFields v)
  let x := s1.queueOf f q
  match x.state with
  | .disabled =>
    if bit v 0 then
      if x.configOk && s1.partEnabled f then s1.modQueue f q (fun y => { y.cleared with state := .running })
      else (s1.modQueue f q (fun y => { y with cfgErr := true })).cause f 5
    else s1
  | .running => if !bit v 0 || bit v 3 then s1.enterReset f q else s1
  | .stopped =>
    if !bit v 0 || bit v 3 then s1.enterReset f q
    else if bit v 2 then s1.modQueue f q (fun y => { y with state := .running })
    else s1
  | .resetting => s1

def State.qstate (s : State) (f q : Nat) : QState := (s.queueOf f q).state

/-- ENABLE written 1 to a DISABLED queue. -/
def execQueueEnable (f q : Nat) (v : Word) (s : State) : Out :=
  onlyIf (s.fnLive f && decide (q < 64) && bit v 0 && s.qstate f q = .disabled) s (s.writeControl f q v)

/-- ENABLE written 0 to a running or stopped queue. -/
def execQueueDisable (f q : Nat) (v : Word) (s : State) : Out :=
  onlyIf (s.fnLive f && decide (q < 64) && !bit v 0 && (s.qstate f q = .running || s.qstate f q = .stopped)) s
    (s.writeControl f q v)

/-- QUEUE_RESET written 1 to a running or stopped queue. -/
def execQueueReset (f q : Nat) (v : Word) (s : State) : Out :=
  onlyIf (s.fnLive f && decide (q < 64) && bit v 3 && (s.qstate f q = .running || s.qstate f q = .stopped)) s
    (s.writeControl f q v)

/-- RESUME written 1: a stopped queue runs again; the bit is ignored in other states. -/
def execQueueResume (f q : Nat) (v : Word) (s : State) : Out :=
  onlyIf (s.fnLive f && decide (q < 64) && bit v 2 && bit v 0 && !bit v 3) s (s.writeControl f q v)

/-- All commands of a resetting queue have ended: it becomes DISABLED. -/
def execQueueResetDone (f q : Nat) (s : State) : Out :=
  onlyIf (s.qstate f q = .resetting && (s.queueOf f q).window.isEmpty && !(s.partOf f).resetting) s
    (s.modQueue f q (fun y => { y.cleared with state := .disabled }))

/-! ### Fetching (R59, R65, R66, R430) -/

/-- The partition's range holds the context. -/
def State.ownsCtx (s : State) (p c : Nat) : Bool :=
  decide (s.ctxBase p ≤ c) && decide (c < s.ctxBase p + s.ctxCount p)

/-- What the header check of a fetched packet finds (R65, R66, R6, R63). A header fault of a packet whose context is not live gives way
to CONTEXT_GONE, the lower code of the class (R66, R86); the liveness of a packet with a sound header is looked at when it starts. -/
def State.headerVerdict (s : State) (f : Nat) (ws : List Word) : Option Verdict :=
  match opInfo (opcodeOf ws) with
  | none => some ⟨St.invalidOpcode, 0, 0⟩
  | some i =>
    (verdictOf ([
      need (!(i.pf && decide (f ≠ 0))) St.pfOnly 0 0,
      need (!i.ctx || s.ownsCtx f (contextOf ws)) St.contextNotOwned 0 0,
      param (!(indirectOf ws && !i.ind)) 0] ++
      (match headerReserved ws i with
        | some w => [resv false w]
        | none => []))).map (fun v => if i.ctx && !s.ctxLive (contextOf ws) then v.pick ⟨St.contextGone, 0, 0⟩ else v)

/-- A queue asks for a fetch: it is running, an entry is visible and its window has room. -/
def Queue.asks (x : Queue) : Bool :=
  x.state = .running && decide (x.sqHead ≠ x.sqTail) && decide (x.window.length ≤ x.windowM1)

/-- Where the partition's free slots do not reach for every queue that asks, the queues fetch round robin (R430). -/
def State.fetchTurn (s : State) (f q : Nat) : Bool :=
  let g := s.fnOf f
  let place (i : Nat) : Nat := (i + 64 - g.fetchFrom) % 64
  decide ((g.queues.filter (fun x => x.2.asks)).length + s.slotsHeld f ≤ s.pfld f 15 13 0) ||
  g.queues.all (fun x => !(x.2.asks && decide (place x.1 < place q)))

/-- A queue of a partition may fetch: it asks, a slot of the partition is free, and it is its turn. -/
def State.canFetch (s : State) (f q : Nat) : Bool :=
  s.fnLive f && decide (q < 64) && !s.cp.halted && (s.queueOf f q).asks && (s.partOf f).shares &&
  decide (s.slotsHeld f < s.pfld f 15 13 0) && s.fetchTurn f q

/-- The Command Processor reads the entry at SQ_HEAD, which holds `packet`, into the execution window. -/
def execCommandFetch (f q : Nat) (packet : List Word) (s : State) : Out :=
  onlyIf (s.canFetch f q && decide (packet.length = 16)) s
    (let x := s.queueOf f q
     let c : Cmd := { n := x.nextN, words := packet, eff := packet }
     let c' := match s.headerVerdict f packet with
       | some v => c.finish v
       | none => c
     (s.modQueue f q (fun y => { y with window := y.window ++ [c'], nextN := y.nextN + 1,
                                        sqHead := (y.sqHead + 1) % (y.sqSizeM1 + 1) })).modFn f (fun g => { g with fetchFrom := (q + 1) % 64 }))

/-! ### Completion interrupts on time (R82, R427) -/

/-- The oldest counted eligible record has reached the age limit TIME: one message, and the count is cleared. -/
def execCoalesceTimeout (f q : Nat) (s : State) : Out :=
  let x := s.queueOf f q
  onlyIf (decide (x.eligible ≠ 0) && decide (x.coalTime ≠ 0)) s
    ((s.modQueue f q (fun y => { y with eligible := 0 })).due f x.vector)

/-- A vector's bucket gains a token, up to 8; a held message leaves with it. -/
def execRateToken (f v : Nat) (s : State) : Out :=
  let x := (s.fnOf f).vecOf v
  onlyIf (decide (s.intRate f ≠ 0) && !(s.partOf f).resetting) s
    (let s1 := s.modVec f v (fun y => { y with tokens := min 8 (y.tokens + 1) })
     if x.held then
       if (s.fnOf f).vecBlocked v then s1.modVec f v (fun y => { y with held := false, pending := true })
       else s1.sendMsg f v
     else s1)

/-! ### NOP and CANCEL (R67 to R69) -/

/-- NOP: words 2 to 15 are reserved; both results are 0. -/
def execNop (f q n : Nat) (s : State) : Out :=
  s.work f q n 0x00 (fun c => s.checked f q n c (reservedCheck c.eff []) (s.done f q n 0 0))

/-- Whether a command matches a CANCEL (R68): by tag, or by the context its opcode names. -/
def cancelMatch (mode : Bool) (sel : Nat) (c : Cmd) : Bool :=
  if mode then namesContext c.words && c.ctx = sel else tagOf c.words = sel

/-- The queue a CANCEL names, and the commands of it that match as it stands: those fetched and not completed, but for the CANCEL
itself (R68). -/
def cancelQueue (ws : List Word) : Nat := fld (word ws 2) 5 0
def State.cancelTargets (s : State) (f q n : Nat) (ws : List Word) : List (Nat × Bool) :=
  let tq := cancelQueue ws
  let mode := bit (word ws 2) 8
  let sel := if mode then fld (word ws 3) 7 0 else fld (word ws 3) 15 0
  ((s.queueOf f tq).window.filter (fun x => !(tq = q && x.n = n) && cancelMatch mode sel x)).map (fun x => (x.n, false))

/-- CANCEL reaches a target: it ends one that is before its commit point and has not ended with a status of its own. -/
def State.reachable (s : State) (f tq k : Nat) : Bool :=
  match s.cmdOf f tq k with
  | some x => !x.pastCommit && decide (x.status = 0) && decide (x.phase ≠ .ending)
  | none => false

/-- A target needs no more waiting for: it has completed, or it has ended and its record waits; one past its commit point is waited for
until it completes, unless its record comes after CANCEL's own in the queue. -/
def State.cancelOver (s : State) (f q n tq : Nat) (t : Nat × Bool) : Bool :=
  match s.cmdOf f tq t.1 with
  | some x => x.isFinished && (t.2 || x.status ≠ 0 || (tq = q && decide (n < t.1)))
  | none => true

/-- CANCEL. Its targets are those its start found. Its first row ends those before their commit point; it finishes once every target has
been ended or has completed, and reports how many it ended and how many completed on their own (R68, R69). -/
def execCancel (f q n : Nat) (s : State) : Out :=
  s.work f q n 0x01 (fun c =>
    let ws := c.eff
    let tq := cancelQueue ws
    s.checked f q n c (reservedCheck ws [(2, 0x13F), (3, if bit (word ws 2) 8 then 0xFF else 0xFFFF)])
      (match c.work with
       | .cancelOf ts true =>
         if ts.all (s.cancelOver f q n tq) then s.done f q n (ts.filter (fun t => t.2)).length (ts.filter (fun t => !t.2)).length else s
       | .cancelOf ts false =>
         let hit := ts.map (fun t => (t.1, s.reachable f tq t.1))
         let s1 := hit.foldl (fun t x => if x.2 then t.cancelCmd f tq x.1 ⟨St.byCommand, 0, 0⟩ else t) s
         s1.setWork f q n (.cancelOf hit true)
       | _ => s))

end Sys2Proof.Machine
end

