-- ==== Sys2Proof/Machine/Numerics.lean ====
section
/-! DEFINITION. Number formats, scales, products, accumulation, output rounding and FP32 by passes (chapter 5), exact over
integers and powers of two. -/
namespace Sys2Proof.Machine

/-! ### Values -/

/-- A decoded element: a finite value (-1)^neg * m * 2^e, an infinity, or NaN. -/
inductive Num where
  | fin (neg : Bool) (m : Nat) (e : Int)
  | inf (neg : Bool)
  | nan
  deriving DecidableEq, Repr

def Num.zero : Num := .fin false 0 0
def Num.isZero : Num → Bool
  | .fin _ m _ => m = 0
  | _ => false
def Num.isFin : Num → Bool
  | .fin _ _ _ => true
  | _ => false

/-- A binary floating-point format: exponent bits, mantissa bits, bias (Table 5.1). -/
structure FloatFmt where
  eb : Nat
  mb : Nat
  bias : Nat
  deriving DecidableEq, Repr

def fF4 : FloatFmt := ⟨2, 1, 1⟩
def fF8a : FloatFmt := ⟨4, 3, 7⟩
def fF8b : FloatFmt := ⟨5, 2, 15⟩
def fBF16 : FloatFmt := ⟨8, 7, 127⟩
def fFP16 : FloatFmt := ⟨5, 10, 15⟩
def fFP32 : FloatFmt := ⟨8, 23, 127⟩

/-- Exponent of the smallest normal. -/
def FloatFmt.emin (f : FloatFmt) : Int := 1 - (f.bias : Int)
/-- Exponent of the largest finite value of a format whose top exponent field is special. -/
def FloatFmt.emax (f : FloatFmt) : Int := (2 ^ f.eb - 2 : Nat) - (f.bias : Int)

/-- Whether a format of Table 3.4 is an integer, and its width in bits. -/
def fmtIsInt (fmt : Nat) : Bool := fmt = 1 || fmt = 4 || fmt = 8 || fmt = 9
def fmtWidth (fmt : Nat) : Nat :=
  match fmt with
  | 0 => 4
  | 1 => 4
  | 2 => 8
  | 3 => 8
  | 4 => 8
  | 5 => 16
  | 6 => 16
  | 7 => 32
  | 8 => 16
  | 9 => 32
  | _ => 192
/-- Formats of 8 bits or fewer carry scales (R170). -/
def fmtScaled (fmt : Nat) : Bool := decide (fmtWidth fmt ≤ 8)
/-- The float format of a code of Table 3.4; FP32 for codes that are none. -/
def floatOf (fmt : Nat) : FloatFmt :=
  match fmt with
  | 0 => fF4
  | 2 => fF8a
  | 3 => fF8b
  | 5 => fBF16
  | 6 => fFP16
  | _ => fFP32
/-- Payload bytes and all bytes of a tile (Table 3.5). -/
def payloadBytes (fmt : Nat) : Nat := if fmt = 10 then 24576 else 128 * fmtWidth fmt
def tileBytes (fmt : Nat) : Nat :=
  if fmt = 10 then 24832 else payloadBytes fmt + (if fmtScaled fmt then 128 else 0)

/-- The value of a code of a format (R164 to R166). -/
def decodeEl (fmt code : Nat) : Num :=
  if fmtIsInt fmt then
    let i := sext (fmtWidth fmt) code
    .fin (decide (i < 0)) i.natAbs 0
  else
    let f := floatOf fmt
    let neg := nbit code (f.eb + f.mb)
    let e := bits code (f.eb + f.mb - 1) f.mb
    let m := code % 2 ^ f.mb
    let top := decide (e = 2 ^ f.eb - 1)
    if fmt ≠ 0 ∧ fmt ≠ 2 ∧ top then (if m = 0 then .inf neg else .nan)
    else if fmt = 2 ∧ top ∧ m = 2 ^ f.mb - 1 then .nan
    else if e = 0 then .fin neg m (f.emin - f.mb)
    else .fin neg (2 ^ f.mb + m) ((e : Int) - f.bias - f.mb)

/-! ### Rounding -/

/-- n * 2^k over a common scale as a fraction: numerator and denominator. -/
def scaleFrac (n d : Nat) (k : Int) : Nat × Nat :=
  if 0 ≤ k then (n * 2 ^ k.toNat, d) else (n, d * 2 ^ (-k).toNat)

/-- floor (log2 (n / d)) of a positive fraction. -/
def log2Frac (n d : Nat) : Int :=
  let g : Int := (n.log2 : Int) - d.log2
  let (a, b) := scaleFrac n d (-g)
  if a < b then g - 1 else g

/-- n / d rounded to an integer: toward zero, or to nearest even. -/
def roundFrac (tz : Bool) (n d : Nat) : Nat :=
  let m := n / d
  let r := n % d
  if !tz && (decide (d < 2 * r) || (decide (2 * r = d) && m % 2 = 1)) then m + 1 else m

/-- A positive fraction times 2^k rounded to a format's significand: integer and weight of its last bit, with the carry
already moved to the next binade. -/
def roundSig (f : FloatFmt) (tz : Bool) (n d : Nat) : Nat × Int :=
  let q : Int := max (log2Frac n d) f.emin - f.mb
  let (a, b) := scaleFrac n d (-q)
  let m := roundFrac tz a b
  if m = 2 ^ (f.mb + 1) then (2 ^ f.mb, q + 1) else (m, q)

/-- The code of (-1)^neg * m * 2^q, in range, with m below 2^(P): normal or subnormal. -/
def encodeSig (f : FloatFmt) (neg : Bool) (m : Nat) (q : Int) : Nat :=
  let s := b2n neg * 2 ^ (f.eb + f.mb)
  if m < 2 ^ f.mb then s + m
  else s + (q + f.mb + f.bias).toNat * 2 ^ f.mb + (m - 2 ^ f.mb)

/-- The canonical NaN of a format (R166). -/
def canonNan (f : FloatFmt) : Nat := (2 ^ f.eb - 1) * 2 ^ f.mb + 2 ^ (f.mb - 1)
def infCode (f : FloatFmt) (neg : Bool) : Nat := b2n neg * 2 ^ (f.eb + f.mb) + (2 ^ f.eb - 1) * 2 ^ f.mb
def maxCode (f : FloatFmt) (neg : Bool) : Nat := b2n neg * 2 ^ (f.eb + f.mb) + (2 ^ f.eb - 1) * 2 ^ f.mb - 1

/-- A fraction of a sign rounded into BF16, FP16 or FP32, and whether it went to an infinity. -/
def roundFloat (f : FloatFmt) (tz neg : Bool) (n d : Nat) : Nat × Bool :=
  if n = 0 then (b2n neg * 2 ^ (f.eb + f.mb), false)
  else
    let (m, q) := roundSig f tz n d
    if q + f.mb > f.emax then
      if tz then (maxCode f neg, false) else (infCode f neg, true)
    else (encodeSig f neg m q, false)

/-- A value rounded into BF16, FP16 or FP32; NaN becomes the canonical NaN. -/
def encodeNum (f : FloatFmt) (tz : Bool) (v : Num) : Nat :=
  match v with
  | .nan => canonNan f
  | .inf neg => infCode f neg
  | .fin neg m e =>
    let (n, d) := scaleFrac m 1 e
    (roundFloat f tz neg n d).1

/-! ### Elements and scales of a tile -/

/-- The code of element i of a tile's payload (R167). -/
def elemCode (fmt : Nat) (data : List Byte) (i : Nat) : Nat :=
  match fmtWidth fmt with
  | 4 => let b := (data.getD (i / 2) 0).toNat
         if i % 2 = 0 then b % 16 else b / 16
  | 8 => (data.getD i 0).toNat
  | 16 => leNat ((data.drop (2 * i)).take 2)
  | _ => leNat ((data.drop (4 * i)).take 4)

/-- Pairs of 4-bit codes as bytes, low nibble first. -/
def nibbleBytes : List Nat → List Byte
  | a :: b :: r => BitVec.ofNat 8 (a % 16 + b % 16 * 16) :: nibbleBytes r
  | [a] => [BitVec.ofNat 8 (a % 16)]
  | [] => []

/-- The payload bytes of 1,024 element codes. -/
def packElems (fmt : Nat) (codes : List Nat) : List Byte :=
  if fmtWidth fmt = 4 then nibbleBytes codes else codes.flatMap (fun c => leBytes (fmtWidth fmt / 8) c)

/-- Scale slot j of a tile (R170). -/
def scaleSlot (fmt : Nat) (data : List Byte) (j : Nat) : Nat :=
  leNat ((data.drop (payloadBytes fmt + 2 * j)).take 2)

/-- The scale flit of 32 slots; slots 32 to 63 are 0. -/
def packScales (slots : List Nat) : List Byte := slots.flatMap (leBytes 2) ++ List.replicate 64 0

/-- The slot of the scale 1.0. -/
abbrev scaleOne : Nat := 0x7F00
/-- The NaN scale. -/
abbrev scaleNan : Nat := 0xFF00

/-- A scale slot's significand and exponent, none for the NaN scale (R171). -/
def scaleVal (slot : Nat) : Option (Nat × Int) :=
  let e := bits slot 15 8
  if e = 255 then none else some (256 + slot % 256, (e : Int) - 127 - 8)

/-- An E8M0 byte and a BF16 code as slots (Table 5.5). -/
def slotOfE8M0 (b : Nat) : Nat := b % 256 * 256
def slotOfBF16 (c : Nat) : Nat :=
  let x := bits c 14 7
  if nbit c 15 || x = 0 || x = 255 then scaleNan else x * 256 + 2 * (c % 128)
/-- A slot as an E8M0 byte and as a BF16 code. -/
def e8m0OfSlot (s : Nat) : Nat := if s % 256 = 0 then bits s 15 8 else 255
def bf16OfSlot (s : Nat) : Nat :=
  let e := bits s 15 8
  if 1 ≤ e ∧ e ≤ 254 ∧ s % 2 = 0 then e * 128 + s % 256 / 2 else 0x7FC0

/-! ### Quantisation (R174) -/

/-- QMAX and EMAX of a scaled format (Table 5.6). -/
def qmax (fmt : Nat) : Nat :=
  match fmt with
  | 0 => 6
  | 2 => 448
  | 3 => 57344
  | 4 => 127
  | _ => 7
def emaxOf (fmt : Nat) : Int :=
  match fmt with
  | 0 => 2
  | 2 => 8
  | 3 => 15
  | 4 => 6
  | _ => 2

/-- The value of an FP32 code as a fraction of a sign. -/
def fracOf (v : Num) : Bool × Nat × Nat :=
  match v with
  | .fin neg m e => let (n, d) := scaleFrac m 1 e
                    (neg, n, d)
  | _ => (false, 0, 1)

/-- a is less than b, as fractions. -/
def fracLt (a b : Nat × Nat) : Bool := decide (a.1 * b.2 < b.1 * a.2)

/-- The E8M0 scale slot of a line whose largest magnitude is n / d. -/
def quantScaleE8M0 (fmt n d : Nat) : Nat :=
  if n = 0 then scaleOne
  else (min 254 (max 0 (log2Frac n d - emaxOf fmt + 127))).toNat * 256

/-- The BF16 scale slot: the smallest positive normal BF16 not below a / QMAX; none where there is none. -/
def quantScaleBF16 (fmt n d : Nat) : Option Nat :=
  if n = 0 then some scaleOne
  else
    let dq := d * qmax fmt
    let e := log2Frac n dq
    if e < -126 then some 0x0100
    else
      let (a, b) := scaleFrac n dq (7 - e)
      let m := ceilDiv a b
      let (m', e') := if m = 256 then (128, e + 1) else (m, e)
      if e' > 127 then none else some ((e' + 127).toNat * 256 + (m' - 128) * 2)

/-- One element divided by the scale, rounded to the format and saturated to QMAX; zero is written +0. -/
def quantEl (fmt : Nat) (tz : Bool) (slot : Nat) (v : Num) : Nat :=
  match scaleVal slot with
  | none => 0
  | some (sm, se) =>
    let (neg, n, d) := fracOf v
    let (a, b) := scaleFrac n (d * sm) (-se)
    if fmtIsInt fmt then
      let m := min (roundFrac tz a b) (qmax fmt)
      ofInt (fmtWidth fmt) (if neg then -(m : Int) else m)
    else if a = 0 then 0
    else
      let f := floatOf fmt
      let (m, q) := roundSig f tz a b
      let (x, y) := scaleFrac m 1 q
      if m = 0 then 0
      else if fracLt (qmax fmt, 1) (x, y) then
        let (qm, qq) := roundSig f true (qmax fmt) 1
        encodeSig f neg qm qq
      else encodeSig f neg m q

/-- A line of FP32 codes quantised: its scale slot and element codes. `bf`: BF16 scales, else E8M0. -/
def quantLine (fmt : Nat) (bf tz : Bool) (vs : List Nat) : Nat × List Nat :=
  let ns := vs.map (decodeEl 7)
  if ns.any (fun v => !v.isFin) then (scaleNan, vs.map (fun _ => 0))
  else
    let a := ns.foldl (fun x v => let (_, n, d) := fracOf v
                                  if fracLt x (n, d) then (n, d) else x) (0, 1)
    let slot := if bf then quantScaleBF16 fmt a.1 a.2 else some (quantScaleE8M0 fmt a.1 a.2)
    match slot with
    | none => (scaleNan, vs.map (fun _ => 0))
    | some sl => (sl, ns.map (quantEl fmt tz sl))

/-! ### Products, groups and lanes (R175 to R183) -/

/-- A product: sig * 2^exp when flag is 0. -/
structure Prod3 where
  sig : Int
  exp : Int
  flag : Nat
  deriving DecidableEq, Repr

/-- Flags combine (R180). -/
def flagAdd (a b : Nat) : Nat := if a = 0 then b else if b = 0 ∨ a = b then a else 3

/-- The product of two elements neither of which is padding (Table 5.7). -/
def prodOf (a b : Num) : Prod3 :=
  match a, b with
  | .nan, _ => ⟨0, 0, 3⟩
  | _, .nan => ⟨0, 0, 3⟩
  | .inf s, .inf t => ⟨0, 0, if s = t then 1 else 2⟩
  | .inf s, .fin t m _ => if m = 0 then ⟨0, 0, 3⟩ else ⟨0, 0, if s = t then 1 else 2⟩
  | .fin s m _, .inf t => if m = 0 then ⟨0, 0, 3⟩ else ⟨0, 0, if s = t then 1 else 2⟩
  | .fin s m e, .fin t n f => ⟨if s = t then (m * n : Nat) else -((m * n : Nat) : Int), e + f, 0⟩

/-- The top 16 bits of an FP32 encoding as a value: truncation toward zero to BF16 (R189). -/
def trunc16 (v : Num) : Num :=
  match v with
  | .fin neg m e =>
    if m = 0 then v
    else
      let q : Int := max (((m.log2 : Nat) : Int) + e) (-126) - 7
      if q ≤ e then v
      else .fin neg (m / 2 ^ (q - e).toNat) q
  | _ => v

/-- x - y of two finite values of one sign with |y| at most |x|. -/
def subMag (x y : Num) : Num :=
  match x, y with
  | .fin s m e, .fin _ n f =>
    let g := min e f
    .fin s (m * 2 ^ (e - g).toNat - n * 2 ^ (f - g).toNat) g
  | _, _ => x

/-- The three BF16 parts of a finite FP32 element (R189). DEDUCED: they add up exactly from exponent -110 on (log entry 148). -/
def split3 (x : Num) : Num × Num × Num :=
  let x1 := trunc16 x
  let r1 := subMag x x1
  let x2 := trunc16 r1
  (x1, x2, trunc16 (subMag r1 x2))

/-- The products of one element pair: one, or the part products of an FP32 pair by pass (Table 5.9). -/
def pairProds (fmt passes : Nat) (a b : Num) : List Prod3 :=
  if fmt = 7 ∧ a.isFin ∧ b.isFin then
    let (x1, x2, x3) := split3 a
    let (y1, y2, y3) := split3 b
    [prodOf x1 y1] ++ (if passes ≥ 2 then [prodOf x1 y2, prodOf x2 y1] else []) ++
      (if passes ≥ 3 then [prodOf x2 y2, prodOf x1 y3, prodOf x3 y1] else [])
  else [prodOf a b]

/-- A term in units of 2^-96 with its flag, and whether it is an overflow term (R179, the pseudocode of R180). -/
def groupTerm (window : Bool) (ps : List Prod3) : Int × Nat × Bool :=
  let f := ps.foldl (fun a p => flagAdd a p.flag) 0
  if f ≠ 0 then (0, f, false)
  else
    let nz := ps.filter (fun p => p.sig ≠ 0)
    match nz with
    | [] => (0, 0, false)
    | h :: r =>
      let lo := r.foldl (fun a p => min a p.exp) h.exp
      let s := nz.foldl (fun a p => a + p.sig * 2 ^ (p.exp - lo).toNat) 0
      if s = 0 then (0, 0, false)
      else
        let top (p : Prod3) : Int := (p.sig.natAbs.log2 : Int) + p.exp
        let e := r.foldl (fun a p => max a (top p)) (top h)
        let w := e - 56
        let (s', lo') := if window ∧ lo < w then (s / 2 ^ (w - lo).toNat, w) else (s, lo)
        let k := lo' + 96
        let t := if 0 ≤ k then s' * 2 ^ k.toNat else s' / 2 ^ (-k).toNat
        if t.natAbs ≥ 2 ^ 162 then (0, if t > 0 then 1 else 2, true) else (t, 0, false)

/-- A term, or a lane of a wide tile, added into a lane; the second answer is the overflow indication (R180, R181). -/
def accAdd (l : Lane) (t : Int) (flag : Nat) : Lane × Bool :=
  let f := flagAdd l.flag flag
  if f ≠ 0 then ({ v := 0, flag := f }, false)
  else
    let s := l.v + t
    if s < -(2 ^ 191) ∨ s ≥ 2 ^ 191 then ({ v := 0, flag := if s > 0 then 1 else 2 }, true)
    else ({ v := s, flag := 0 }, false)

/-- The element of a line with its scale: NaN where the slot is the NaN scale. -/
def lineEl (fmt : Nat) (data : List Byte) (line k : Nat) : Num :=
  let v := decodeEl fmt (elemCode fmt data (32 * line + k))
  if fmtScaled fmt ∧ (scaleVal (scaleSlot fmt data line)).isNone then .nan else v

/-- The products of group g of lane (r, c): A row r against B row c over the group's indices, scaled; indices outside the
A tile's valid columns are padding and give nothing. -/
def groupProds (fmt passes : Nat) (a b : List Byte) (cols r c g : Nat) : List Prod3 :=
  let size := if fmtScaled fmt then 32 else 8
  let ks := ((List.range size).map (fun i => g * size + i)).filter (fun k => decide (k < cols))
  let sa := if fmtScaled fmt then (scaleVal (scaleSlot fmt a r)).getD (256, -8) else (1, 0)
  let sb := if fmtScaled fmt then (scaleVal (scaleSlot fmt b c)).getD (256, -8) else (1, 0)
  ks.flatMap (fun k => (pairProds fmt passes (lineEl fmt a r k) (lineEl fmt b c k)).map
    (fun p => ⟨p.sig * (sa.1 * sb.1 : Nat), p.exp + sa.2 + sb.2, p.flag⟩))

/-- One lane after a tile pair: the terms of its groups added (R88, R89, R180). -/
def laneAfter (fmt passes : Nat) (a b : List Byte) (cols r c : Nat) (l : Lane) : Lane × Bool :=
  let n := if fmtScaled fmt then 1 else 4
  (List.range n).foldl (fun (x : Lane × Bool) g =>
    let (t, f, o) := groupTerm (!fmtScaled fmt) (groupProds fmt passes a b cols r c g)
    let (l', o') := accAdd x.1 t f
    (l', x.2 || o || o')) (l, false)

/-- The bank of 1,024 lanes, mapped lane by lane; lanes that become the zero lane are not listed. -/
def bankMap (g : Nat → Lane × Bool) : Tbl Lane × Bool :=
  let ls := (List.range 1024).map (fun i => (i, g i))
  ((ls.filter (fun p => p.2.1 ≠ {})).map (fun p => (p.1, p.2.1)), ls.any (fun p => p.2.2))

/-! ### Wide tiles (R184, R185) -/

/-- Lane i of a wide tile. -/
def wideLane (data : List Byte) (i : Nat) : Lane :=
  { v := sext 192 (leNat ((data.drop (24 * i)).take 24)),
    flag := bits (data.getD (24576 + i / 4) 0).toNat (2 * (i % 4) + 1) (2 * (i % 4)) }

/-- The bytes of a wide tile of a bank: lanes outside the valid rows and columns are zero (R161). -/
def wideData (bank : Tbl Lane) (rowsM1 colsM1 : Nat) : List Byte :=
  let lane (i : Nat) : Lane := if i / 32 ≤ rowsM1 ∧ i % 32 ≤ colsM1 then tget {} bank i else {}
  (List.range 1024).flatMap (fun i => leBytes 24 (ofInt 192 (lane i).v)) ++
  (List.range 256).map (fun j => BitVec.ofNat 8 ((lane (4 * j)).flag + (lane (4 * j + 1)).flag * 4 +
    (lane (4 * j + 2)).flag * 16 + (lane (4 * j + 3)).flag * 64))

/-! ### Output rounding (R186, R187) -/

/-- One lane rounded into an output format, and whether a finite lane went to an infinity. -/
def roundOut (fmt : Nat) (tz : Bool) (l : Lane) : Nat × Bool :=
  if fmtIsInt fmt then
    let w := fmtWidth fmt
    let top : Int := 2 ^ (w - 1) - 1
    let i : Int := if l.flag = 3 then 0 else if l.flag = 1 then top else if l.flag = 2 then -top - 1
      else
        let m : Int := roundFrac tz l.v.natAbs (2 ^ 96)
        max (-top - 1) (min top (if l.v < 0 then -m else m))
    (ofInt w i, false)
  else
    let f := floatOf fmt
    if l.flag = 3 then (canonNan f, false)
    else if l.flag = 1 then (infCode f false, false)
    else if l.flag = 2 then (infCode f true, false)
    else
      let (c, o) := roundFloat f tz (decide (l.v < 0)) l.v.natAbs (2 ^ 96)
      (if c % 2 ^ (f.eb + f.mb) = 0 then 0 else c, o)

/-- The drained tile's payload: valid rows and columns rounded, other elements zero; and the overflow indication. -/
def drainData (fmt : Nat) (tz : Bool) (bank : Tbl Lane) (rowsM1 colsM1 : Nat) : List Byte × Bool :=
  let es := (List.range 1024).map (fun i =>
    if i / 32 ≤ rowsM1 ∧ i % 32 ≤ colsM1 then roundOut fmt tz (tget {} bank i) else (0, false))
  (packElems fmt (es.map (fun e => e.1)), es.any (fun e => e.2))

end Sys2Proof.Machine
end

