-- ==== Sys2Proof/Machine/Vector.lean ====
section
/-! DEFINITION. The vector engine (chapter 6): the chain's words, its operations bit for bit, the defined approximations, the
structure checks of Table 6.7 and one run of a chain over a tile. -/
namespace Sys2Proof.Machine

/-! ### FP32 arithmetic on codes (R205) -/

abbrev qNaN : Nat := 0x7FC00000

def decF (c : Nat) : Num := decodeEl 7 c

/-- The exact sum of two finite values as a signed fraction over 2^g. -/
def addExact (s : Bool) (m : Nat) (e : Int) (t : Bool) (n : Nat) (f : Int) : Int × Int :=
  let g := min e f
  let a : Int := (m * 2 ^ (e - g).toNat : Nat)
  let b : Int := (n * 2 ^ (f - g).toNat : Nat)
  ((if s then -a else a) + (if t then -b else b), g)

/-- The precision an operation rounds to: 0 FP32, 1 BF16, 2 FP16. -/
def precFmt (prec : Nat) : FloatFmt := if prec = 1 then fBF16 else if prec = 2 then fFP16 else fFP32
def precCode (prec : Nat) : Nat := if prec = 1 then 5 else if prec = 2 then 6 else 7

/-- rnd: a value rounded once to PREC and stored as its FP32 code (R205). -/
def rnd (prec : Nat) (tz : Bool) (v : Num) : Nat :=
  match v with
  | .nan => qNaN
  | _ =>
    let c := encodeNum (precFmt prec) tz v
    if prec = 0 ∨ prec = 3 then c else encodeNum fFP32 true (decodeEl (precCode prec) c)

/-- A + B. -/
def numAdd (a b : Num) : Num :=
  match a, b with
  | .nan, _ => .nan
  | _, .nan => .nan
  | .inf s, .inf t => if s = t then .inf s else .nan
  | .inf s, _ => .inf s
  | _, .inf t => .inf t
  | .fin s m e, .fin t n f =>
    let (v, g) := addExact s m e t n f
    if v = 0 then .fin (s && t && m = 0 && n = 0) 0 0 else .fin (decide (v < 0)) v.natAbs g

def numNeg (a : Num) : Num :=
  match a with
  | .nan => .nan
  | .inf s => .inf (!s)
  | .fin s m e => .fin (!s) m e

/-- A * B. -/
def numMul (a b : Num) : Num :=
  match a, b with
  | .nan, _ => .nan
  | _, .nan => .nan
  | .inf s, .inf t => .inf (s != t)
  | .inf s, .fin t m _ => if m = 0 then .nan else .inf (s != t)
  | .fin s m _, .inf t => if m = 0 then .nan else .inf (s != t)
  | .fin s m e, .fin t n f => .fin (s != t) (m * n) (e + f)

/-- The value as an integer over 2^g, for comparing finite values. -/
def numCmp (a b : Num) : Option Ordering :=
  match a, b with
  | .nan, _ => none
  | _, .nan => none
  | .inf s, .inf t => some (if s = t then .eq else if s then .lt else .gt)
  | .inf s, _ => some (if s then .lt else .gt)
  | _, .inf t => some (if t then .gt else .lt)
  | .fin s m e, .fin t n f =>
    let d := (addExact s m e (!t) n f).1
    some (if d = 0 then .eq else if d < 0 then .lt else .gt)

/-- FMIN and FMAX on codes: NaN if either is NaN, -0 below +0. -/
def fMinMax (max : Bool) (a b : Nat) : Nat :=
  match numCmp (decF a) (decF b) with
  | none => qNaN
  | some .eq =>
    if (decF a).isZero then (if nbit a 31 = max then b else a) else a
  | some .lt => if max then b else a
  | some .gt => if max then a else b

/-- FADD at FP32, the step of the sum reductions. -/
def fAdd32 (tz : Bool) (a b : Nat) : Nat := rnd 0 tz (numAdd (decF a) (decF b))

/-- An FP32 code rounded to an integer of w bits (R207). -/
def fToInt (tz : Bool) (w a : Nat) : Int :=
  let top : Int := 2 ^ (w - 1) - 1
  match decF a with
  | .nan => 0
  | .inf s => if s then -top - 1 else top
  | .fin s m e =>
    let (n, d) := scaleFrac m 1 e
    let r : Int := roundFrac tz n d
    max (-top - 1) (min top (if s then -r else r))

/-! ### The defined approximations (R215 to R218) -/

/-- T[0] to T[31] of R216: 2^(i/64) * 2^30 rounded to the nearest integer. -/
def exp2T0 : List Nat := [
  1073741824, 1085434106, 1097253708, 1109202018, 1121280436, 1133490379, 1145833280, 1158310587,
  1170923762, 1183674286, 1196563654, 1209593378, 1222764986, 1236080024, 1249540052, 1263146652,
  1276901417, 1290805962, 1304861917, 1319070932, 1333434672, 1347954824, 1362633090, 1377471191,
  1392470869, 1407633882, 1422962010, 1438457051, 1454120821, 1469955159, 1485961921, 1502142985]

/-- T[32] to T[63]. -/
def exp2T1 : List Nat := [
  1518500250, 1535035634, 1551751076, 1568648537, 1585730000, 1602997467, 1620452965, 1638098541,
  1655936265, 1673968228, 1692196547, 1710623359, 1729250827, 1748081133, 1767116489, 1786359126,
  1805811301, 1825475297, 1845353420, 1865448001, 1885761398, 1906295993, 1927054196, 1948038440,
  1969251188, 1990694927, 2012372174, 2034285470, 2056437387, 2078830522, 2101467502, 2124350982]

/-- G[0] to G[31] of R216: 2^31 / sqrt (c_i) rounded to the nearest integer. -/
def rsqrtG0 : List Nat := [
  2130900515, 2098855072, 2068213208, 2038875364, 2010751598, 1983760420, 1957827796, 1932886296,
  1908874354, 1885735628, 1863418444, 1841875310, 1821062491, 1800939636, 1781469447, 1762617387,
  1744351429, 1726641819, 1709460876, 1692782810, 1676583559, 1660840642, 1645533028, 1630641020,
  1616146146, 1602031062, 1588279468, 1574876026, 1561806289, 1549056637, 1536614214, 1524466875]

/-- G[32] to G[63]. -/
def rsqrtG1 : List Nat := [
  1506774204, 1484114654, 1462447584, 1441702596, 1421816090, 1402730445, 1384393311, 1366757007,
  1349778000, 1333416450, 1317635818, 1302402522, 1287685637, 1273456629, 1259689126, 1246358707,
  1233442724, 1220920139, 1208771378, 1196978204, 1185523604, 1174391680, 1163567563, 1153037323,
  1142787899, 1132807028, 1123083182, 1113605518, 1104363818, 1095348453, 1086550331, 1077960865]

def exp2T (i : Nat) : Nat := (exp2T0 ++ exp2T1).getD i 0
def rsqrtG (i : Nat) : Nat := (rsqrtG0 ++ rsqrtG1).getD i 0
/-- n / d rounded to the nearest integer. -/
def nearest (n d : Nat) : Nat := (2 * n + d) / (2 * d)
def recipQ (i : Nat) : Nat := nearest (2 ^ 38) (129 + 2 * i)
/-- The centre C of interval i of RSQRT, in units of 2^-23. -/
def rsqrtC (i : Nat) : Nat := if i < 32 then (i + 32) * 2 ^ 18 + 2 ^ 17 else i * 2 ^ 19 + 2 ^ 18
def rsqrtH (i : Nat) : Nat := nearest (2 ^ 54) (rsqrtC i)

/-- round_fp32 of a positive value n * 2^k. -/
def roundPos (n : Nat) (k : Int) : Nat := encodeNum fFP32 false (.fin false n k)

/-- exp2_def for -151 <= x < 128. -/
def exp2Def (s : Bool) (m : Nat) (e : Int) : Nat :=
  let v : Int := if s then -(m : Int) else m
  let n : Int := if 0 ≤ e then v * 2 ^ e.toNat else v / 2 ^ (-e).toNat
  let k := e + 24
  let x24 : Int := if 0 ≤ k then v * 2 ^ k.toNat else v / 2 ^ (-k).toNat
  let f : Nat := (x24 - n * 2 ^ 24).toNat
  let i := f / 2 ^ 18
  let u := f % 2 ^ 18 * 2 ^ 8
  let p3 := u * 238388332 / 2 ^ 32
  let p2 := u * (1031764991 + p3) / 2 ^ 32
  let p1 := u * (2977044472 + p2) / 2 ^ 32
  roundPos (exp2T i + exp2T i * p1 / 2 ^ 32) (n - 30)

/-- The value normalised: M with 2^23 <= M < 2^24 and e with |x| = M * 2^(e - 23). -/
def normalise (m : Nat) (e : Int) : Nat × Int :=
  let l := m.log2
  (if l ≤ 23 then m * 2 ^ (23 - l) else m / 2 ^ (l - 23), e + l)

def recipDef (s : Bool) (m : Nat) (e0 : Int) : Nat :=
  let (mm, e) := normalise m e0
  let i := mm / 2 ^ 17 - 64
  let d : Int := (mm * 2 ^ 8 : Nat) - (((129 + 2 * i) * 2 ^ 24 : Nat) : Int)
  let w := d * recipQ i / 2 ^ 31
  let w2 := w * w / 2 ^ 31
  let w3 := w2 * w / 2 ^ 31
  let y := ((recipQ i : Int) * (2 ^ 31 - w + w2 - w3) / 2 ^ 31).toNat
  encodeNum fFP32 false (.fin s y (-e - 31))

def rsqrtDef (m : Nat) (e0 : Int) : Nat :=
  let (mm, e) := normalise m e0
  let a := if e % 2 = 1 then 2 * mm else mm
  let h := e / 2
  let i := if a < 2 ^ 24 then a / 2 ^ 18 - 32 else a / 2 ^ 19
  let d : Int := ((a : Int) - rsqrtC i) * 2 ^ 8
  let w := d * rsqrtH i / 2 ^ 31
  let w2 := w * w / 2 ^ 31
  let w3 := w2 * w / 2 ^ 31
  let y := ((rsqrtG i : Int) * (2 ^ 31 - w / 2 + 3 * w2 / 8 - 5 * w3 / 16) / 2 ^ 31).toNat
  roundPos y (-h - 31)

/-- EXP2, with the special inputs of Table 6.9. -/
def fExp2 (c : Nat) : Nat :=
  match decF c with
  | .nan => qNaN
  | .inf s => if s then 0 else infCode fFP32 false
  | .fin s m e =>
    let v := decF c
    if numCmp v (.fin false 128 0) ≠ some .lt then infCode fFP32 false
    else if numCmp v (.fin true 151 0) = some .lt then 0
    else exp2Def s m e

/-- RECIP. -/
def fRecip (c : Nat) : Nat :=
  match decF c with
  | .nan => qNaN
  | .inf s => b2n s * 2 ^ 31
  | .fin s m e => if m = 0 then infCode fFP32 s else recipDef s m e

/-- RSQRT. -/
def fRsqrt (c : Nat) : Nat :=
  match decF c with
  | .nan => qNaN
  | .inf s => if s then qNaN else 0
  | .fin s m e => if m = 0 then infCode fFP32 s else if s then qNaN else rsqrtDef m e

/-! ### The chain's words (Tables 6.2 to 6.5) -/

/-- A stage's fields. -/
structure Stage where
  op : Nat
  srcA : Nat
  srcB : Nat
  srcC : Nat
  prec : Nat
  emit : Bool
  outIdx : Nat
  mod : Nat
  imm : Nat
  deriving DecidableEq, Repr

def chainStages (ch : List Word) : Nat := fld (word ch 0) 2 0 + 1
def chainUsesP1 (ch : List Word) : Bool := bit (word ch 0) 3
def chainPadT (ch : List Word) : Nat := fld (word ch 0) 5 4
def chainPadS2 (ch : List Word) : Nat := fld (word ch 0) 7 6
def chainS2Fmt (ch : List Word) : Nat := fld (word ch 0) 11 8
def chainStateInit (ch : List Word) (k : Nat) : Nat := fld (word ch 0) (2 * k + 17) (2 * k + 16)
def chainOutFmt (ch : List Word) (k : Nat) : Nat := fld (word ch 1) (4 * k + 3) (4 * k)
def chainToken (ch : List Word) : List Word := (ch.drop 2).take 3
def chainStage (ch : List Word) (i : Nat) : Stage :=
  let w := word ch (5 + 2 * i)
  { op := fld w 7 0, srcA := fld w 11 8, srcB := fld w 15 12, srcC := fld w 19 16, prec := fld w 21 20,
    emit := bit w 22, outIdx := fld w 24 23, mod := fld w 29 25, imm := wnat ch (6 + 2 * i) }

/-- The operations of Table 6.6: how many operands each reads; none for a reserved OP. -/
def opArity (op : Nat) : Option Nat :=
  if op = 0x00 ∨ op = 0x04 then some 1
  else if op ≤ 0x08 then some 2
  else if 0x10 ≤ op ∧ op ≤ 0x14 then some 2
  else if op = 0x15 ∨ op = 0x16 then some 1
  else if 0x20 ≤ op ∧ op ≤ 0x22 then some 2
  else if op = 0x23 then some 3
  else if op = 0x24 ∨ op = 0x25 then some 2
  else if op = 0x26 ∨ op = 0x27 then some 1
  else if 0x30 ≤ op ∧ op ≤ 0x35 then some 2
  else if op = 0x36 then some 3
  else if 0x40 ≤ op ∧ op ≤ 0x43 then some 1
  else if 0x50 ≤ op ∧ op ≤ 0x52 then some 1
  else if 0x60 ≤ op ∧ op ≤ 0x62 then some 1
  else if op = 0x70 then some 0
  else if op = 0x71 then some 1
  else none

/-- The MOD values an operation admits (Table 6.6). -/
def modOk (op m : Nat) : Bool :=
  if op = 0x43 then decide (m % 8 ≤ 4) && decide (m < 16)
  else if op = 0x60 ∨ op = 0x61 then decide (m < 3)
  else if op = 0x62 then decide (m < 6)
  else if op = 0x70 ∨ op = 0x71 then decide (m < 4)
  else m = 0

/-- The operations for which a PREC of 3 is a reserved encoding: those that read PREC. -/
def precRead (op : Nat) : Bool :=
  (0x10 ≤ op && op ≤ 0x16) || (0x20 ≤ op && op ≤ 0x23) || (0x33 ≤ op && op ≤ 0x35) || (0x40 ≤ op && op ≤ 0x42)

/-- The source codes a stage reads, in order. -/
def Stage.reads (s : Stage) : List Nat :=
  match opArity s.op with
  | some 1 => [s.srcA]
  | some 2 => [s.srcA, s.srcB]
  | some 3 => [s.srcA, s.srcB, s.srcC]
  | _ => []

/-- The reasons of Table 6.7 that stage i breaks. -/
def stageReasons (ch : List Word) (i : Nat) : List Nat :=
  let st := chainStage ch i
  let rs := st.reads
  let before := (List.range i).map (chainStage ch)
  (if rs.any (fun r => decide (2 ≤ r) && decide (r ≤ 8) && decide (i ≤ r - 2)) then [1] else []) ++
  (if rs.contains 1 && !chainUsesP1 ch then [2] else []) ++
  (if rs.contains 0xE && (rs.contains 9 || decide (st.imm / 2 ^ 12 ≠ 0)) then [3] else []) ++
  (if rs.any (fun r => decide (2 ≤ r) && decide (r ≤ 8) && decide (r - 2 < chainStages ch) &&
      decide ((chainStage ch (r - 2)).op = 0x43)) ||
      (decide (st.op = 0x43) && st.emit && decide (chainOutFmt ch st.outIdx ≠ st.mod % 8)) then [4] else []) ++
  (if decide (st.op ≠ 0x43) && st.emit && decide (chainOutFmt ch st.outIdx ≤ 4) then [5] else []) ++
  (if st.emit && before.any (fun b => b.emit && b.outIdx = st.outIdx) then [6] else [])

/-- The first stage that breaks a condition and its lowest reason (R214). -/
def chainFault (ch : List Word) : Option (Nat × Nat) :=
  if ch = [] then some (0, 7)
  else (List.range (chainStages ch)).findSome? (fun i => ((stageReasons ch i).head?).map (fun r => (i, r)))

/-- A vector control token has a reserved field set (R200). -/
def vtokenBad (tk : List Word) : Bool := decide (fld (word tk 0) 31 8 ≠ 0)

/-! ### Lanes -/

def padLane (code : Nat) : Nat :=
  match code with
  | 1 => 0xFF800000
  | 2 => 0x7F800000
  | 3 => 0x80000000
  | _ => 0

/-- An element on entry to a lane (R195). -/
def entryLane (fmt code : Nat) : Nat :=
  match fmt with
  | 5 => if decodeEl 5 code = .nan then canonNan fFP32 else code * 2 ^ 16
  | 6 => encodeNum fFP32 true (decodeEl 6 code)
  | 8 => ofInt 32 (sext 16 code)
  | _ => code

/-- Lane l of vector j of a tile, padded outside its valid region (R194, R196). A NaN keeps its bits widened. -/
def tileLane (t : Tile) (pad j l : Nat) : Nat :=
  let r := 2 * j + l / 32
  let c := l % 32
  if r ≤ t.rowsM1 ∧ c ≤ t.colsM1 then entryLane t.fmt (elemCode t.fmt t.data (32 * r + c)) else padLane pad

/-- What a run reads beside its stages. -/
structure RunEnv where
  ch : List Word
  tz : Bool
  t : Tile
  s2 : Tile
  token : List Word
  mem : Nat → Nat → Nat      -- 64-byte unit and lane: the SRAM word


/-- Row-state registers in a run: by register * 32 + row. -/
abbrev RowState := Tbl Nat

/-- The value of a row-state register: its STATE_INIT code where nothing has been written; written values are held plus
one, so that 0 means none. -/
def rowGet (ch : List Word) (rs : RowState) (k r : Nat) : Nat :=
  match tget 0 rs (k * 32 + r) with
  | 0 => padLane (chainStateInit ch k)
  | n + 1 => n
def rowSet (rs : RowState) (k r v : Nat) : RowState := tset 0 rs (k * 32 + r) (v + 1)

/-- The 64 lanes of a source for vector j. -/
def sourceLanes (e : RunEnv) (res : List (List Nat)) (j imm code : Nat) : List Nat :=
  let k (v : Nat) : List Nat := List.replicate 64 v
  if code = 0 then (List.range 64).map (tileLane e.t (chainPadT e.ch) j)
  else if code = 1 then (List.range 64).map (tileLane e.s2 (chainPadS2 e.ch) j)
  else if code ≤ 8 then res.getD (code - 2) []
  else if code = 9 then k imm
  else if code = 0xA then k (wnat e.token 1)
  else if code = 0xB then k (wnat e.token 2)
  else if code = 0xC then (List.range 64).map (fun l => 2 * j + l / 32)
  else if code = 0xD then (List.range 64).map (fun l => l % 32)
  else if code = 0xE then (List.range 64).map (fun l => e.mem (imm + 4 * j) l)
  else k 0

/-- The width of an integer operation by PREC. -/
def intWidth (prec : Nat) : Nat := if prec = 1 then 16 else if prec = 2 then 8 else 32

/-- An exact integer saturated to w bits and stored sign-extended. -/
def satInt (w : Nat) (i : Int) : Nat := ofInt 32 (max (-(2 ^ (w - 1))) (min (2 ^ (w - 1) - 1) i))

def maskOf (b : Bool) : Nat := if b then 0xFFFFFFFF else 0

/-- One lane of an operation that works lane by lane (Table 6.6). -/
def laneOp (tz : Bool) (st : Stage) (a b c : Nat) : Nat :=
  let w := intWidth st.prec
  let ia := sext w a
  let ib := sext w b
  let s := b % 32
  let f := decF
  match st.op with
  | 0x00 => a
  | 0x01 => a &&& b
  | 0x02 => a ||| b
  | 0x03 => a ^^^ b
  | 0x04 => 0xFFFFFFFF - a
  | 0x05 => a * 2 ^ s % 2 ^ 32
  | 0x06 => a / 2 ^ s
  | 0x07 => ofInt 32 (sext 32 a / 2 ^ s)
  | 0x08 => if s = 0 then a else ofInt 32 ((sext 32 a + 2 ^ (s - 1)) / 2 ^ s)
  | 0x10 => satInt w (ia + ib)
  | 0x11 => satInt w (ia - ib)
  | 0x12 => satInt w (ia * ib)
  | 0x13 => ofInt 32 (min ia ib)
  | 0x14 => ofInt 32 (max ia ib)
  | 0x15 => satInt w ia.natAbs
  | 0x16 => satInt w (-ia)
  | 0x20 => rnd st.prec tz (numAdd (f a) (f b))
  | 0x21 => rnd st.prec tz (numAdd (f a) (numNeg (f b)))
  | 0x22 => rnd st.prec tz (numMul (f a) (f b))
  | 0x23 => rnd st.prec tz (numAdd (numMul (f a) (f b)) (f c))
  | 0x24 => fMinMax false a b
  | 0x25 => fMinMax true a b
  | 0x26 => if f a = .nan then qNaN else a % 2 ^ 31
  | 0x27 => if f a = .nan then qNaN else a ^^^ 2 ^ 31
  | 0x30 => maskOf (numCmp (f a) (f b) = some .eq)
  | 0x31 => maskOf (numCmp (f a) (f b) = some .lt)
  | 0x32 => maskOf (numCmp (f a) (f b) = some .lt || numCmp (f a) (f b) = some .eq)
  | 0x33 => maskOf (decide (ia = ib))
  | 0x34 => maskOf (decide (ia < ib))
  | 0x35 => maskOf (decide (ia ≤ ib))
  | 0x36 => if a ≠ 0 then b else c
  | 0x40 => let i := sext 32 a
            rnd st.prec tz (.fin (decide (i < 0)) i.natAbs 0)
  | 0x41 => ofInt 32 (fToInt tz w a)
  | 0x42 => if st.prec = 0 then a else rnd st.prec tz (f a)
  | 0x43 => a
  | 0x50 => fExp2 a
  | 0x51 => fRecip a
  | 0x52 => fRsqrt a
  | _ => a

/-- One butterfly step at distance 2^k (R208). -/
def butterfly (op : Nat → Nat → Nat) (k : Nat) (v : List Nat) : List Nat :=
  (List.range 64).map (fun l => let m := l ^^^ 2 ^ k
                                op (v.getD (min l m) 0) (v.getD (max l m) 0))

/-- The reduction operator of a kind: 0 sum, 1 max, 2 min. -/
def reduceOp (tz : Bool) (kind : Nat) : Nat → Nat → Nat :=
  if kind = 0 then fAdd32 tz else fMinMax (kind = 1)

/-- One stage for one vector: its lanes and the row state after it. -/
def stageRun (e : RunEnv) (j : Nat) (st : Stage) (res : List (List Nat)) (rs : RowState) : List Nat × RowState :=
  let src := sourceLanes e res j st.imm
  let a := src st.srcA
  if st.op = 0x60 then ((List.range 5).foldl (fun v k => butterfly (reduceOp e.tz (st.mod % 4)) k v) a, rs)
  else if st.op = 0x61 then ((List.range 6).foldl (fun v k => butterfly (reduceOp e.tz (st.mod % 4)) k v) a, rs)
  else if st.op = 0x62 then ((List.range 64).map (fun l => a.getD (l ^^^ 2 ^ (st.mod % 8)) 0), rs)
  else if st.op = 0x70 then ((List.range 64).map (fun l => rowGet e.ch rs (st.mod % 4) (2 * j + l / 32)), rs)
  else if st.op = 0x71 then
    (a, rowSet (rowSet rs (st.mod % 4) (2 * j) (a.getD 0 0)) (st.mod % 4) (2 * j + 1) (a.getD 32 0))
  else
    let b := src st.srcB
    let c := src st.srcC
    ((List.range 64).map (fun l => laneOp e.tz st (a.getD l 0) (b.getD l 0) (c.getD l 0)), rs)

/-- Every stage of a chain for vector j: results in stage order and the row state after. -/
def vectorStages (e : RunEnv) (j : Nat) (rs : RowState) : List (List Nat) × RowState :=
  (List.range (chainStages e.ch)).foldl (fun (x : List (List Nat) × RowState) i =>
    let (r, s) := stageRun e j (chainStage e.ch i) x.1 x.2
    (x.1 ++ [r], s)) ([], rs)

/-- All sixteen vectors: for each, its stage results; and the row state after the run. -/
def runVectors (e : RunEnv) (rs : RowState) : List (List (List Nat)) × RowState :=
  (List.range 16).foldl (fun (x : List (List (List Nat)) × RowState) j =>
    let (r, s) := vectorStages e j x.2
    (x.1 ++ [r], s)) ([], rs)

/-! ### Outputs (R211, R213) -/

/-- A lane converted to an unscaled output format. -/
def outLane (fmt : Nat) (tz : Bool) (v : Nat) : Nat :=
  match fmt with
  | 5 => encodeNum fBF16 tz (decF v)
  | 6 => encodeNum fFP16 tz (decF v)
  | 8 => ofInt 16 (max (-32768) (min 32767 (sext 32 v)))
  | _ => v

/-- The bytes of an output from its 1,024 lanes in element order: elements outside the valid region are 0; a scaled
output quantises each valid row over its valid columns. -/
def outData (st : Stage) (fmt : Nat) (tz : Bool) (rowsM1 colsM1 : Nat) (lanes : List Nat) : List Byte :=
  if st.op = 0x43 then
    let rows := (List.range 32).map (fun r =>
      if r ≤ rowsM1 then
        let (s, cs) := quantLine fmt (nbit st.mod 3) tz ((lanes.drop (32 * r)).take (colsM1 + 1))
        (s, cs ++ List.replicate (31 - colsM1) 0)
      else (scaleOne, List.replicate 32 0))
    packElems fmt (rows.flatMap (fun p => p.2)) ++ packScales (rows.map (fun p => p.1))
  else
    packElems fmt ((List.range 1024).map (fun i =>
      if i / 32 ≤ rowsM1 ∧ i % 32 ≤ colsM1 then outLane fmt tz (lanes.getD i 0) else 0))

/-- One run of a chain: the outputs it emits in ascending index (index, format, bytes), and the row state it leaves.
STATE_CLEAR acts before the first vector (R209). -/
def chainRun (e : RunEnv) (rs : RowState) : List (Nat × Nat × List Byte) × RowState :=
  let clear := fld (word e.token 0) 3 0
  let rs0 := rs.filter (fun p => !nbit clear (p.1 / 32))
  let (vs, rs1) := runVectors e rs0
  let emits := (List.range 4).filterMap (fun k =>
    if nbit (wnat e.token 0) (4 + k) then
      ((List.range (chainStages e.ch)).find? (fun i => (chainStage e.ch i).emit && (chainStage e.ch i).outIdx = k)).map
        (fun i => (k, i))
    else none)
  (emits.map (fun p =>
    let st := chainStage e.ch p.2
    let fmt := chainOutFmt e.ch p.1
    (p.1, fmt, outData st fmt e.tz e.t.rowsM1 e.t.colsM1 (vs.flatMap (fun v => v.getD p.2 [])))), rs1)

/-- The 64-byte units a chain's MEM sources read, for the window check (R210). -/
def memUnits (ch : List Word) : List Nat :=
  ((List.range (chainStages ch)).map (chainStage ch)).flatMap (fun st =>
    if st.reads.contains 0xE then (List.range 64).map (fun i => st.imm % 4096 + i) else [])

end Sys2Proof.Machine
end

