-- ==== Sys2Proof/Machine/Cores.lean ====
section
/-! DEFINITION. Cores, Steering Units and hands (chapter 3): routing, pairing, issue, drains, chains, cuts and the items of
the configuration port. A tile moves whole, against the credits of the register it moves into (log entry 13). -/
namespace Sys2Proof.Machine

/-! ### Bytes of tiles -/

/-- Bytes of a tile's flits after the header: one flit for control, cut and showdown tiles (R94). -/
def Tile.bytes (t : Tile) : Nat := if t.kind = 0 then tileBytes t.fmt else 128
/-- A byte string of exactly n bytes. -/
def padTo (n : Nat) (bs : List Byte) : List Byte := bs.take n ++ List.replicate (n - bs.length) 0
/-- The flits of a tile. -/
def Tile.flits (t : Tile) : List Byte := padTo t.bytes t.data
/-- The words of a control token, and whether the reserved rest of its flit holds anything (R109, R200, R514). -/
def Tile.words (t : Tile) : List Word := bytesWords 3 t.data
def Tile.restSet (t : Tile) (n : Nat) : Bool := (t.data.drop n).any (fun b => b ≠ 0)

/-! ### Who uses a layout (R158, R188) -/

/-- The command runs on a layout: it has started and not all its streams have ended. -/
def State.runsOn (s : State) (ctx lnum : Nat) (f q : Nat) (c : Cmd) : Bool :=
  namesContext c.words && c.ctx = ctx && hitLayout lnum f q c && !(s.cmdSlots f q c.n).isEmpty

/-- The running commands on a layout meet an overflow; where none runs, the use counts as a stale tile (R158). -/
def State.overflow (s : State) (ctx : Nat) (o : Overflow) : State :=
  if s.allCmds.any (fun x => s.runsOn ctx o.layout x.1 x.2.1 x.2.2) then
    s.mapCmds (s.runsOn ctx o.layout) (fun c => { c with overflows := c.overflows ++ [o] })
  else s.modCtx ctx (fun c => { c with stale := c.stale + 1 })

/-- The overflow indication of the command that formed the overflow, which the tile in use names (R188); a tile that came over the fabric
names none, and then every command running on the layout takes it (log entry 14). -/
def State.indicate (s : State) (ctx lnum : Nat) (own : Option (Nat × Nat × Nat)) (on : Bool) : State :=
  match on, own with
  | false, _ => s
  | true, some (f, q, n) => s.modCmd f q n (fun c => { c with overflowed := true })
  | true, none => s.mapCmds (s.runsOn ctx lnum) (fun c => { c with overflowed := true })

/-- A tile counted as stale in its hand and its context (R102, R151). -/
def State.staleIn (s : State) (core slot ctx n : Nat) : State :=
  (s.modHand core slot (fun h => { h with stale := h.stale + n })).modCtx ctx
    (fun c => if c.live then { c with stale := c.stale + n } else c)

/-- A fault of a context over one of its layouts. -/
def State.faultOn (s : State) (ctx lnum : Nat) (v : Verdict) : State := s.teardown ctx v (hitLayout lnum)

/-! ### Destinations (Table 4.8) -/

/-- The slot base of the layout a hand belongs to. -/
def Hand.base (h : Hand) (slot : Nat) : Nat := slot - h.img.hand

/-- The link from a core across a port is closed: another partition's cluster, a fenced cluster, or no core at all
(R30, R131). -/
def State.linkClosed (s : State) (core port : Nat) : Bool :=
  match neighbour core port with
  | none => true
  | some d =>
    let a := clusterOf core
    let b := clusterOf d
    decide (a ≠ b) && (decide (s.clusterOwner a ≠ s.clusterOwner b) || s.clusterFenced a || s.clusterFenced b)

/-- An item of a pair's side, or of both sides where the pair is unpaired. -/
def Hand.unpaired (h : Hand) (p : Nat) : Bool := (p = 0 && h.img.unpaired0) || (p = 1 && h.img.unpaired1)

/-- Whether an item of a side has room: its partner is held, or fewer than 4 items of its side are (R107). DESIGN CHOICE: the halves of a
matched pair that has not issued still count as held (log entry 150). -/
def Hand.pairRoom (h : Hand) (p : Nat) (ctl : Bool) (tag : Nat) : Bool :=
  let es := h.pairsOf p
  let mine (e : PairEntry) : Bool := if ctl then e.ctl.isSome else e.data.isSome
  es.any (fun e => !h.unpaired p && e.tag = tag && !mine e) || decide ((es.filter mine).length < 4)

/-- Slots of a register of 4 flits that a tile takes: its flits, and all four where it has more (R94, R95; log entry 13). -/
def Tile.slots (t : Tile) : Nat := min 4 (t.bytes / 128)
/-- Free flit slots of a register that holds these tiles. -/
def freeSlots (l : List Tile) : Nat := 4 - sumNat (l.map Tile.slots)
/-- The credits that the sender into a core input holds: one for each free flit slot of its pass-through register (R95). -/
def Core.credits (k : Core) (input : Nat) : Nat := freeSlots (tget [] k.inq input)

/-- A number of flit slots for a neighbour output finds credits: at the output station there, else at the input across the link. A tile for a
closed link waits for none, since it is discarded (R101). -/
def State.outRoom (s : State) (core slots port ch : Nat) : Bool :=
  match s.findStation core port ch true with
  | some (c, l, key, _) => (match s.layoutOf c l with
    | some y => decide (slots ≤ freeSlots (tget [] y.arrivals key))
    | none => true)
  | none =>
    s.linkClosed core port || (match neighbour core port with
      | some d => decide (slots ≤ (s.coreOf d).credits ((port + 2) % 4 * 4 + ch))
      | none => true)

/-- Whether one destination of a route can accept a tile now (R98, R107). The accumulator preload holds one wide tile (log entry 149). -/
def State.destRoom (s : State) (core : Nat) (t : Tile) (d : Dest) : Bool :=
  if d.target ≤ 3 then s.outRoom core t.slots d.target d.channel
  else if d.target ≤ 10 then
    match s.handOf core t.hand with
    | some h => h.ctx ≠ t.ctx || h.deal ≠ t.deal ||
        (if d.target = 10 then h.preload.isEmpty || t.fmt ≠ 10 || t.kind ≠ 0
         else (h.unpaired ((d.target - 4) / 2) && d.target % 2 = 1) || h.pairRoom ((d.target - 4) / 2) (d.target % 2 = 1) t.tag)
    | none => true
  else true

/-- The format a data side expects: the chain's second-input format for P1, the hand's input format otherwise. -/
def Hand.sideFmt (h : Hand) (p : Nat) : Nat := if p = 1 then chainS2Fmt h.img.chain else h.img.inFmt

/-- An item joins a pair: beside its partner, or as an entry of its own. -/
def Hand.putPair (h : Hand) (p : Nat) (ctl : Bool) (t : Tile) : Hand :=
  let es := h.pairsOf p
  let mine (e : PairEntry) : Bool := if ctl then e.ctl.isSome else e.data.isSome
  let new :=
    if h.unpaired p then es ++ [⟨t.tag, some t, none⟩]
    else if es.any (fun e => e.tag = t.tag && !mine e) then
      es.map (fun e => if e.tag = t.tag ∧ !mine e then (if ctl then { e with ctl := some t } else { e with data := some t }) else e)
    else es ++ [if ctl then ⟨t.tag, none, some t⟩ else ⟨t.tag, some t, none⟩]
  { h with pairs := tset [] h.pairs p new }

/-- A tile discarded for want of a route: counted, and its context faults (R97, R108). -/
def State.unroutedTile (s : State) (core : Nat) (t : Tile) : State :=
  let lnum := (s.handOf core t.hand).bind (fun h => if h.ctx = t.ctx then some h.layout else none)
  let s1 := (s.modCore core (fun k => { k with unrouted := k.unrouted + 1 })).modHand core t.hand
    (fun h => { h with unrouted := h.unrouted + 1 })
  match lnum with
  | some l => s1.faultOn t.ctx l ⟨St.reservedField, 0, 0⟩
  | none => s1.teardown t.ctx ⟨St.reservedField, 0, 0⟩ hitRunning

/-- A tile onto a neighbour output: into the output station there, else across the link; nothing crosses a closed link. -/
def State.sendOut (s : State) (core : Nat) (t : Tile) (port ch : Nat) : State :=
  match s.findStation core port ch true with
  | some (c, l, key, _) => s.modLayout c l (fun y => { y with arrivals := tmod [] y.arrivals key (fun x => x ++ [t]) })
  | none =>
    if s.linkClosed core port then s
    else
      match neighbour core port with
      | some d => s.modCore d (fun k => { k with inq := tmod [] k.inq ((port + 2) % 4 * 4 + ch) (fun x => x ++ [t]) })
      | none => s

/-- A destination of a route is a neighbour output whose link is closed (R30, R101). -/
def State.destClosed (s : State) (core : Nat) (d : Dest) : Bool :=
  decide (d.target ≤ 3) && (s.findStation core d.target d.channel true).isNone && s.linkClosed core d.target

/-- A tile whose route names a closed link: the route is not followed, the tile is discarded and its context faults (R101). -/
def State.closedTile (s : State) (core : Nat) (t : Tile) : State :=
  match s.handOf core t.hand with
  | some h => s.faultOn t.ctx h.layout ⟨St.linkClosed, core, 0⟩
  | none => s.teardown t.ctx ⟨St.linkClosed, core, 0⟩ hitRunning

/-- A cut or a showdown tile onto one neighbour output of a route, under the same rule of closed links. -/
def State.sendMark (s : State) (core : Nat) (t : Tile) (d : Dest) : State :=
  if s.destClosed core d then s.closedTile core t else s.sendOut core t d.target d.channel

/-- A tile into an engine or SRAM destination of a hand, after the DEAL check (R102, R158, Table 4.8). DESIGN CHOICE: a data side takes a tile
as data and a control side takes it as a token whatever its KIND, 0 or 1 (log entry 151). -/
def State.intoHand (s : State) (core : Nat) (t : Tile) (r : Route) (ri : Nat) (target : Nat) : State :=
  match s.handOf core t.hand with
  | none => s.modCtx t.ctx (fun c => if c.live then { c with stale := c.stale + 1 } else c)
  | some h =>
    if h.ctx ≠ t.ctx ∨ h.deal ≠ t.deal then s.staleIn core t.hand t.ctx 1
    else if target = 10 then
      if t.fmt = 10 ∧ t.kind = 0 then s.modHand core t.hand (fun x => { x with preload := x.preload ++ [t] })
      else s.unroutedTile core t
    else if target = 11 then
      let u := t.bytes / 64
      let size := r.ringSizeM1 + 1
      let at' := tget 0 h.ringPos ri
      let base := core * 2 ^ 18 + (h.img.sramBase + r.ringBase) * 64
      let m := (List.range u).foldl (fun m i =>
        cellWrite m (base + (at' + i) % size * 64) ((t.flits.drop (64 * i)).take 64)) s.sram
      { s with sram := m }.modHand core t.hand (fun x => { x with ringPos := tset 0 x.ringPos ri ((at' + u) % size) })
    else
      let p := (target - 4) / 2
      let ctl := decide (target % 2 = 1)
      if ctl then
        if h.unpaired p then s.unroutedTile core t
        else s.modHand core t.hand (fun x => x.putPair p true t)
      else if t.fmt ≠ h.sideFmt p then
        (s.overflow t.ctx ⟨h.layout, 0xFFFF, core, 4, t.tag⟩).modHand core t.hand
          (fun x => x.putPair p false { t with kind := 0, fmt := h.sideFmt p, data := [] })
      else s.modHand core t.hand (fun x => x.putPair p false t)

/-- The outgoing channels of a route, as port * 4 + channel. -/
def Route.outs (r : Route) : List Nat := (r.dests.filter (fun d => d.target ≤ 3)).map (fun d => d.target * 4 + d.channel)

/-- The channels of a route are granted to a source: the next grant begins behind it (R99). Sources 16, 17 and 18 are the wide output, the
vector engine and the SRAM read stream. -/
def Core.grant (k : Core) (src : Nat) (r : Route) : Core :=
  { k with turn := r.outs.foldl (fun t o => tset 0 t o ((src + 1) % 19)) k.turn }

/-- A tile goes to every destination of a route, or to none where one is a closed link. `src` is the input it comes from; `mk` gives the tile its
HAND for a destination. -/
def State.toDests (s : State) (core src : Nat) (r : Route) (ri : Nat) (mk : Dest → Tile) : State :=
  match r.dests.find? (s.destClosed core) with
  | some d => s.closedTile core (mk d)
  | none => r.dests.foldl (fun u d =>
      if d.target ≤ 3 then u.sendOut core (mk d) d.target d.channel else u.intoHand core (mk d) r ri d.target)
      (s.modCore core (fun k => k.grant src r))

/-- The route of a hand for a source and output index or channel, with its index. -/
def Hand.routeFor (h : Hand) (src sel : Nat) : Option (Route × Nat) :=
  h.img.routes.zipIdx.find? (fun p => p.1.source = src && p.1.select = sel)

/-- The tile an engine of a hand emits, for one destination (R92, R515, Table 4.8). -/
def Hand.mkTile (h : Hand) (slot : Nat) (t : Tile) (d : Dest) : Tile :=
  { t with ctx := h.ctx, deal := h.deal, hand := (d.destHand + h.base slot) % 4 }

/-- An engine's tile leaves on the emitting hand's route (R97). -/
def State.emitTile (s : State) (core slot src sel : Nat) (t : Tile) : State :=
  match s.handOf core slot with
  | none => s
  | some h =>
    match h.routeFor src sel with
    | some (r, ri) => s.toDests core (12 + src) r ri (h.mkTile slot t)
    | none => s.unroutedTile core { t with ctx := h.ctx, hand := slot }

/-- Every destination of an engine route has room; a missing route discards. -/
def State.emitRoom (s : State) (core slot src sel : Nat) (t : Tile) : Bool :=
  match s.handOf core slot with
  | none => true
  | some h =>
    match h.routeFor src sel with
    | some (r, _) => r.dests.all (fun d => s.destRoom core (h.mkTile slot t d) d)
    | none => true

/-! ### Inputs -/

/-- The tile at the head of a core input: from the link, or from the buffer of the input station there, stamped as R138
states. The second answer is the station it comes from: context, layout, buffer key. -/
def State.inputHead (s : State) (core port ch : Nat) : Option (Tile × Option (Nat × Nat × Nat)) :=
  match tget [] (s.coreOf core).inq (port * 4 + ch) with
  | t :: _ => some (t, none)
  | [] =>
    match s.findStation core port ch false with
    | some (c, l, key, st) =>
      (match s.layoutOf c l with
      | some y =>
        (match tget [] y.buffers key with
        | t :: _ =>
          if 2 ≤ t.kind then some (t, some (c, l, key))
          else some ({ t with ctx := c, hand := st.hand + y.keyBase key, deal := y.keyDeal key, tag := tget 0 y.tags key },
                     some (c, l, key))
        | [] => none)
      | none => none)
    | none => none

/-- A stream has delivered one more tile; with its last it ends (R222). `last` says so for the streams whose length their
producer knows. -/
def Slot.deliver (v : Slot) : Slot := { v with delivered := v.delivered + 1, marks := v.marks.drop 1 }

/-- The bound stream of a station. -/
def State.boundSlot (s : State) (ctx lnum key : Nat) : Option (Nat × Slot) :=
  s.usedSlots.find? (fun p => p.2.ctx = ctx && p.2.layout = lnum && p.2.station = key && !p.2.toCmem && p.2.state ≠ .waiting)

/-- A command's count of tiles its output streams have delivered. -/
def Work.addOut (w : Work) (k : Nat) : Work :=
  match w with
  | .streams t o => .streams t (o + k)
  | x => x

/-- A stream has delivered every tile: its binding breaks and its slot is freed (R222). -/
def State.finishSlot (s : State) (key : Nat) (v : Slot) : State :=
  (s.endSlot key v).modCmd v.fn v.q v.n (fun c => { c with
    work := if v.isOut || v.toCmem then c.work.addOut v.delivered else c.work })

/-- A stream with everything requested and delivered has ended. -/
def State.endIfDone (s : State) (key : Nat) : State :=
  match tget none s.slots key with
  | some v => if v.state = .ended ∧ v.inflight = [] ∧ v.marks = [] then s.finishSlot key v else s
  | none => s

/-- Tiles of kinds 0 and 1 in a station buffer. -/
def State.bufTiles (s : State) (v : Slot) : Nat :=
  match s.layoutOf v.ctx v.layout with
  | some l => ((tget [] l.buffers v.station).filter (fun t => t.kind < 2)).length
  | none => 0

/-- BUF_TILES of a slot's station. -/
def State.bufCap (s : State) (v : Slot) : Nat :=
  match s.layoutOf v.ctx v.layout with
  | some l => (l.stationOf v.station).elim 1 (fun st => st.bufTiles)
  | none => 1

def StreamState.isHalted : StreamState → Bool
  | .halted _ _ => true
  | _ => false

/-- The stall and trump marks of a slot follow its buffer: an input stream with tiles to deliver and an empty buffer is
stalled, and counts where it carries weights (R246); marks are set and cleared as R241 states. -/
def State.remark (s : State) (key : Nat) : State :=
  match tget none s.slots key with
  | none => s
  | some v =>
    if v.toCmem ∨ v.state = .waiting then s
    else
      let n := s.bufTiles v
      let cap := s.bufCap v
      let stall := !v.isOut && n = 0 && !(v.state = .ended && v.marks = [])
      let set := v.state = .running && (if v.isOut then decide (cap ≤ n) else decide (n = 0))
      let clear := v.state.isHalted ||
        (if v.isOut then decide (ceilDiv cap 2 ≤ cap - n) else decide (ceilDiv cap 2 ≤ n))
      let v' := { v with stalled := stall, trump := if clear then false else v.trump || set }
      let s1 := { s with slots := tset none s.slots key (some v') }
      if stall && !v.stalled && bit (word v.desc 0) 2 then
        s1.modCtx v.ctx (fun c => { c with weightLate := satAdd 32 c.weightLate 1 })
      else s1

/-- A core that has latched in cut mode counts the tiles of an input that come before its showdown tile (R466). -/
def Core.snapCount (k : Core) (input : Nat) (t : Tile) : Core :=
  let (n, a, _, seen) := tget (0, 0, 0, false) k.snapIn input
  if k.snapLatched && !seen && t.kind ≠ 3 then
    { k with snapIn := tset (0, 0, 0, false) k.snapIn input ((n + 1) % 65536, if n = 0 then t.tag else a, t.tag, false) }
  else k
def State.snapTake (s : State) (core input : Nat) (t : Tile) : State :=
  if s.mgmt.cutOpen then s.modCore core (fun k => k.snapCount input t) else s

/-- A slot delivers a tile at an island count; the counts of the last 1,024 cycles are kept (R240). -/
def Slot.moved (v : Slot) (now : Nat) : Slot := { v.deliver with moves := v.moves.filter (fun m => now < m + 1024) ++ [now] }

/-- The head tile of an input leaves it; where it came from a station and is no cut or showdown tile, the station's tag
count and its stream's count advance. -/
def State.takeInput (s0 : State) (core port ch : Nat) (t : Tile) (from' : Option (Nat × Nat × Nat)) : State :=
  let s := s0.snapTake core (port * 4 + ch) t
  match from' with
  | none => s.modCore core (fun k => { k with inq := tmod [] k.inq (port * 4 + ch) (fun x => x.drop 1) })
  | some (c, l, key) =>
    let s1 := s.modLayout c l (fun y => { y with
      buffers := tmod [] y.buffers key (fun x => x.drop 1),
      tags := if 2 ≤ t.kind then y.tags else tmod 0 y.tags key (fun n => (n + 1) % 1024) })
    let fabric : Bool := match s.layoutOf c l with
      | some y => decide (((tget [] y.buffers key).headD {}).tag = 1)
      | none => false
    if 2 ≤ t.kind ∨ fabric then s1
    else
      match s1.boundSlot c l key with
      | some (k, v) =>
        let s2 := { s1 with slots := tset none s1.slots k (some (v.moved (s1.islCount (k / 64)))) }
        (s2.endIfDone k).remark k
      | none => s1

/-- The destinations of an arriving tile: the route of the hand its header names. DESIGN CHOICE: a hand of another context than the tile's has no
route for it (log entry 152). -/
def State.arriveRoute (s : State) (core port ch : Nat) (t : Tile) : Option (Hand × Route × Nat) :=
  match s.handOf core t.hand with
  | some h => if h.ctx = t.ctx then (h.routeFor port ch).map (fun p => (h, p.1, p.2)) else none
  | none => none

/-- The hand is written ahead of a cut and takes no tiles yet, or its hand-write item still waits on the configuration port: the first tile of a
new layout meets a complete new hand (R124). -/
def State.handWaits (s : State) (core : Nat) (t : Tile) : Bool :=
  (match s.handOf core t.hand with
    | some h => h.waiting
    | none => false) ||
  (s.coreOf core).cfg.any (fun i => match i with
    | .handWrite slot h => slot = t.hand && h.ctx = t.ctx && h.deal = t.deal
    | _ => false)

/-- An input has a tile that waits for an outgoing channel alone: its hand takes it and every destination has room (R98, R99). -/
def State.wantsChannel (s : State) (core out input : Nat) : Bool :=
  match s.inputHead core (input / 4) (input % 4) with
  | none => false
  | some (t, _) =>
    !(s.coreOf core).heldIn.contains input && !s.handWaits core t && (match s.arriveRoute core (input / 4) (input % 4) t with
      | some (_, r, _) => r.outs.contains out && (if 2 ≤ t.kind then (r.dests.filter (fun d => d.target ≤ 3)).all (s.destRoom core t)
          else r.dests.all (s.destRoom core t))
      | none => false)

/-- It is the turn of an input on the channels of a route: among the inputs waiting for the same channel the grant goes round (R99). A route of
several channels takes its turn at the lowest of them (log entry 13). -/
def State.hasTurn (s : State) (core input : Nat) (r : Route) : Bool :=
  match r.outs with
  | [] => true
  | o :: rest =>
    let low := rest.foldl min o
    let first := tget 0 (s.coreOf core).turn low
    let place (i : Nat) : Nat := (i + 19 - first) % 19
    (List.range 16).all (fun i => !(decide (place i < place input) && s.wantsChannel core low i))

/-- TILE_ARRIVE: the tile at the head of an input takes its route, once every destination can accept it and its channels are granted to it
(R97 to R99). -/
def execTileArrive (core port ch : Nat) (s : State) : Out :=
  match s.inputHead core port ch with
  | none => .next s
  | some (t, o) =>
    if 2 ≤ t.kind ∨ (s.coreOf core).heldIn.contains (port * 4 + ch) ∨ s.handWaits core t then .next s
    else
      match s.arriveRoute core port ch t with
      | none => .next ((s.takeInput core port ch t o).unroutedTile core t)
      | some (_, r, ri) =>
        onlyIf (r.dests.all (s.destRoom core t) && s.hasTurn core (port * 4 + ch) r) s
          ((s.takeInput core port ch t o).toDests core (port * 4 + ch) r ri (fun _ => t))

/-! ### SRAM errors, residue mismatches and fences (R90, R127, R130) -/

/-- A core is fenced while its hands are loaded: its hands are cleared and it keeps nothing. -/
def State.fenceNow (s : State) (core cause : Nat) : State :=
  (s.modCore core (fun k => { k with hands := [], cfg := [] })).fenceCore core cause

/-- What a core's own checks find while a hand uses the bytes [first, first + len) of its SRAM: the state to go on with,
and whether the use went through. -/
def State.coreCheck (s : State) (core ctx lnum first len : Nat) (err : CoreErr) : State × Bool :=
  let hit (us : List Nat) : List Nat := us.filter (fun u => decide (first / 8 ≤ u) && decide (u * 8 < first + len))
  let cl := clusterOf core
  match err with
  | .clean => (s, true)
  | .corrected us =>
    let n := (hit us).length
    if n = 0 then (s, true)
    else ((s.modCore core (fun k => { k with correctable := satAdd 16 k.correctable n })).report cl 0 0 (some ctx) core, true)
  | .uncorrectable us again =>
    let bad := hit us
    if bad = [] then (s, true)
    else
      let recur := again || bad.any (fun u => (s.coreOf core).badWords.contains u)
      let s1 := { s with sram := bad.foldl (fun m u => cellClear m (core * 2 ^ 18 + u * 8) 8) s.sram }
      let s2 := (s1.modCore core (fun k => { k with badWords := k.badWords ++ bad })).report cl 4 0 (some ctx) core
      let s3 := s2.faultOn ctx lnum ⟨St.sramUncorrectable, cl, 0⟩
      (if recur then s3.fenceNow core St.sramUncorrectable else s3, false)
  | .residue =>
    let s1 := s.report cl 8 0 (some ctx) core
    ((s1.faultOn ctx lnum ⟨St.residueMismatch, core, 0⟩).fenceNow core St.residueMismatch, false)

/-! ### Issue (R89, R106 to R118) -/

/-- The pair of an input pair that may issue: for an unpaired one the oldest, else the one both of whose sides hold the
expected tag. -/
def Hand.nextPair (h : Hand) (p : Nat) : Option PairEntry :=
  if h.unpaired p then (h.pairsOf p).head?
  else (h.pairsOf p).find? (fun e => e.tag = h.expOf p && e.data.isSome && e.ctl.isSome)

/-- That pair has issued. -/
def Hand.popPair (h : Hand) (p : Nat) (e : PairEntry) : Hand :=
  { h with
    pairs := tmod [] h.pairs p (fun l => l.erase e),
    expTag := tset 0 h.expTag p ((h.expOf p + 1) % 1024) }

/-- The matrix control token of a pair: the default token of an unpaired P0. -/
def Hand.matrixToken (h : Hand) (e : PairEntry) : List Word × Bool :=
  match e.ctl with
  | some c => (c.words, c.restSet 8)
  | none => (h.img.defaultTok, false)

/-- A reserved field of Table 3.8 is set. -/
def mtokenBad (w : List Word) : Bool :=
  let a := wnat w 0
  decide (bits a 15 8 ≠ 0) || decide (bits a 31 26 ≠ 0) || (nbit a 1 && nbit a 2) || (!nbit a 5 && decide (bits a 7 6 ≠ 0)) ||
  decide (bits (wnat w 1) 31 12 ≠ 0)

/-- The B tile of a token: its bytes, and whether the address stays in the hand's window (R89, R141, R158). -/
def State.bTile (s : State) (core : Nat) (h : Hand) (tok : List Word) : List Byte × Bool :=
  let n := tileBytes h.img.inFmt
  let at' := bits (wnat tok 1) 11 0
  let ok := decide (at' * 64 + n ≤ (h.img.sramSizeM1 + 1) * 64)
  (if ok then cellRead s.sram (core * 2 ^ 18 + (h.img.sramBase + at') * 64) n else List.replicate n 0, ok)

/-- The read-stream tile of a pair with EMIT_B (R516). -/
def Hand.streamTile (h : Hand) (sel : Nat) (data : List Byte) : Tile :=
  { fmt := h.img.inFmt, rowsM1 := 31, colsM1 := 31, data := data, tag := tget 0 h.readCount sel }

/-- A hand is ready: a pair of it can issue (R106, R110, R112, R118). A token with a reserved field is taken up at once and
faults. -/
def State.handReady (s : State) (core slot : Nat) : Bool :=
  match s.handOf core slot with
  | none => false
  | some h =>
    if h.img.routeOnly || (s.coreOf core).fenced || h.drainTag.isSome then false
    else
      match h.nextPair 0 with
      | none => false
      | some e =>
        let (tok, rest) := h.matrixToken e
        let a := wnat tok 0
        if rest || mtokenBad tok then true
        else
          (!nbit a 4 || (match h.p2Last with
            | some l => decide ((l + 1024 - bits a 25 16) % 1024 < 512)
            | none => false)) &&
          (!nbit a 3 || !h.preload.isEmpty) &&
          (!nbit a 2 || s.emitRoom core slot 4 0 { fmt := 10 }) &&
          (!nbit a 5 || s.emitRoom core slot 6 (bits a 7 6) (h.streamTile (bits a 7 6) []))

/-- The choice of the next active hand (the pseudocode of R118). -/
def nextHand (a : Nat) (ready : Nat → Bool) (runPairs : Nat) : Nat :=
  let others := [1, 2, 3].map (fun i => (a + i) % 4)
  let other := others.any ready
  if ready a && !(other && decide (64 ≤ runPairs)) then a
  else (others.find? ready).getD a

/-- The bank after a pair, with the overflow indication: cleared, preloaded, then one contraction step over the valid columns, COLS_M1 + 1 of them
(R110, R88, R89). -/
def Hand.contract (h : Hand) (tok : List Word) (a : Tile) (b : List Byte) : Tbl Lane × Bool :=
  let w := wnat tok 0
  let b0 : Tbl Lane := if nbit w 0 then [] else h.bank
  let pre := if nbit w 3 then h.preload.head? else none
  bankMap (fun i =>
    let l0 := tget {} b0 i
    let (l1, o1) := match pre with
      | some t =>
        let x := wideLane t.data i
        if i / 32 ≤ t.rowsM1 ∧ i % 32 ≤ t.colsM1 then accAdd l0 x.v x.flag else (l0, false)
      | none => (l0, false)
    if i / 32 ≤ a.rowsM1 then
      let (l2, o2) := laneAfter h.img.inFmt h.passes a.data b (a.colsM1 + 1) (i / 32) (i % 32) l1
      (l2, o1 || o2)
    else (l1, o1))

/-- A pair issues to the matrix engine. -/
def State.issue (s : State) (core slot : Nat) (h : Hand) (e : PairEntry) (tok : List Word) : State :=
  let w := wnat tok 0
  let a := e.data.getD {}
  let (b, inWin) := s.bTile core h tok
  let s1 := if inWin then s else s.overflow h.ctx ⟨h.layout, 0xFFFF, core, 1, a.tag⟩
  let (bank, ov) := h.contract tok a b
  let s2 := (s1.indicate h.ctx h.layout a.own ov).modHand core slot (fun x => { x.popPair 0 e with
    bank := bank, bankRowsM1 := a.rowsM1, issued := x.issued + 1,
    preload := if nbit w 3 then x.preload.drop 1 else x.preload,
    drainTag := if nbit w 1 then some a.tag else none, drainOwn := a.own })
  let s3 := s2.modCore core (fun k => { k with runPairs := k.runPairs + 1 })
  let s4 :=
    if nbit w 2 then
      let t : Tile := { fmt := 10, rowsM1 := a.rowsM1, colsM1 := h.img.outColsM1, tag := h.wideCount,
                        data := wideData bank a.rowsM1 h.img.outColsM1, own := a.own }
      (s3.modHand core slot (fun x => { x with wideCount := (x.wideCount + 1) % 1024 })).emitTile core slot 4 0 t
    else s3
  if nbit w 5 then
    let sel := bits w 7 6
    (s4.modHand core slot (fun x => { x with readCount := tmod 0 x.readCount sel (fun n => (n + 1) % 1024) })).emitTile core slot 6 sel
      { h.streamTile sel b with own := a.own }
  else s4

/-- PAIR_ISSUE: the core chooses its active hand by R118 and issues its next pair. -/
def execPairIssue (core : Nat) (err : CoreErr) (s : State) : Out :=
  let k := s.coreOf core
  let slot := nextHand k.active (s.handReady core) k.runPairs
  if !s.handReady core slot then .next s
  else
    let s0 := if slot = k.active then s else s.modCore core (fun x => { x with active := slot, runPairs := 0 })
    match s0.handOf core slot with
    | none => .next s0
    | some h =>
      match h.nextPair 0 with
      | none => .next s0
      | some e =>
        let (tok, rest) := h.matrixToken e
        if rest || mtokenBad tok then .next (s0.faultOn h.ctx h.layout ⟨St.reservedField, 0, 0⟩)
        else
          let first := (h.img.sramBase + bits (wnat tok 1) 11 0) * 64
          let (s1, ok) := s0.coreCheck core h.ctx h.layout first (tileBytes h.img.inFmt) err
          .next (if ok then s1.issue core slot h e tok else s1)

/-- STORE_WRITE: a P2 pair of a hand issues and writes its tile into the hand's window (R104, R514). -/
def execStoreWrite (core slot : Nat) (err : CoreErr) (s : State) : Out :=
  match s.handOf core slot with
  | none => .next s
  | some h =>
    match (if (s.coreOf core).fenced then none else h.nextPair 2) with
    | none => .next s
    | some e =>
      let c := e.ctl.getD {}
      let tok := c.words
      if decide (bits (wnat tok 0) 31 12 ≠ 0) || decide (wnat tok 1 ≠ 0) || c.restSet 8 then
        .next (s.faultOn h.ctx h.layout ⟨St.reservedField, 0, 0⟩)
      else
        let t := e.data.getD {}
        let at' := bits (wnat tok 0) 11 0
        let first := (h.img.sramBase + at') * 64
        let (s1, ok) := s.coreCheck core h.ctx h.layout first t.bytes err
        if !ok then .next s1
        else
          let s2 := s1.modHand core slot (fun x => { x.popPair 2 e with p2Last := some e.tag })
          .next (if at' * 64 + t.bytes ≤ (h.img.sramSizeM1 + 1) * 64 then
              { s2 with sram := cellWrite s2.sram (core * 2 ^ 18 + first) t.flits }
            else s2.overflow h.ctx ⟨h.layout, 0xFFFF, core, 1, e.tag⟩)

/-! ### Tile Queue and chains (R111 to R114, R214) -/

/-- CHAIN_INVALID for a stage and a reason (R214). -/
def chainVerdict (core lnum stage reason : Nat) : Verdict :=
  ⟨St.chainInvalid, 0xFFFF + core * 2 ^ 16, stage + lnum * 2 ^ 8 + reason * 2 ^ 11⟩

/-- DRAIN: a pair with DRAIN reserves a Tile Queue entry within its hand's allowance and the bank is rounded into it. `err` is what the comparison
of the two copies of the rounding stage finds (R126, R127). -/
def execDrain (core slot : Nat) (err : CoreErr) (s : State) : Out :=
  match s.handOf core slot with
  | none => .next s
  | some h =>
    match (if (s.coreOf core).fenced then none else h.drainTag) with
    | none => .next s
    | some tag =>
      if h.img.chain = [] then .next (s.faultOn h.ctx h.layout (chainVerdict core h.layout 0 7))
      else
        let k := s.coreOf core
        let n := ((List.range 4).filter (fun i => match s.handOf core i with
          | some x => !x.img.chain.isEmpty
          | none => false)).length
        onlyIf (decide (k.tq.length < 8) && decide ((k.tq.filter (fun e => e.hand = slot)).length + n < 9)) s
          (let (data, ov) := drainData h.img.outFmt h.roundTz h.bank h.bankRowsM1 h.img.outColsM1
           let t : Tile := { fmt := h.img.outFmt, rowsM1 := h.bankRowsM1, colsM1 := h.img.outColsM1, ctx := h.ctx,
                             hand := slot, deal := h.deal, tag := tag, data := data, own := h.drainOwn }
           let (s1, ok) := s.coreCheck core h.ctx h.layout 0 0 err
           if ok then
             ((s1.indicate h.ctx h.layout h.drainOwn ov).modHand core slot (fun x => { x with drainTag := none, drainOwn := none })).modCore core
               (fun c => { c with tq := c.tq ++ [⟨slot, t⟩] })
           else s1)

/-- The P1 operand and token of a hand's next run: none where it is not there yet. -/
def Hand.p1Ready (h : Hand) : Option (Option PairEntry × List Word × Bool) :=
  if chainUsesP1 h.img.chain then
    (h.nextPair 1).map (fun e => match e.ctl with
      | some c => (some e, c.words, c.restSet 12)
      | none => (some e, chainToken h.img.chain, false))
  else some (none, chainToken h.img.chain, false)

/-- The Tile Queue entry the vector engine takes: the oldest of those first of their hand whose P1 operand is ready. -/
def State.tqPick (s : State) (core : Nat) : Option (TqEntry × Nat) :=
  let q := (s.coreOf core).tq.zipIdx
  q.find? (fun p => !(q.any (fun r => r.2 < p.2 && r.1.hand = p.1.hand)) && (match s.handOf core p.1.hand with
    | some h => h.p1Ready.isSome
    | none => false))

/-- The output tiles of a run, with their output indices (R211, R212). -/
def Hand.outTiles (h : Hand) (t : Tile) (outs : List (Nat × Nat × List Byte)) : List (Nat × Tile) :=
  outs.map (fun o => (o.1, { fmt := o.2.1, rowsM1 := t.rowsM1, colsM1 := t.colsM1, tag := tget 0 h.outCount o.1, data := o.2.2, own := t.own }))

/-- The SRAM a run reads: 64 lanes at a unit of the hand's window; zeros where the read leaves the window (R210). -/
def State.memLanes (s : State) (core : Nat) (h : Hand) (u l : Nat) : Nat :=
  if u + 3 ≤ h.img.sramSizeM1 then cellNat s.sram (core * 2 ^ 18 + (h.img.sramBase + u) * 64 + 4 * l) 4 else 0

/-- A MEM source of the chain leaves the window in some vector. -/
def Hand.memOut (h : Hand) : Bool :=
  ((List.range (chainStages h.img.chain)).map (chainStage h.img.chain)).any (fun st =>
    st.reads.contains 0xE && decide (h.img.sramSizeM1 < st.imm % 4096 + 63))

/-- The range of SRAM bytes a run may read, for the core's checks. -/
def Hand.memRange (h : Hand) : Nat × Nat :=
  let us := memUnits h.img.chain
  match us with
  | [] => (0, 0)
  | u :: r =>
    let lo := r.foldl min u
    let hi := r.foldl max u
    ((h.img.sramBase + lo) * 64, (hi - lo + 1) * 64)

/-- One run of a hand's chain. -/
def Hand.run (h : Hand) (t s2 : Tile) (tok : List Word) (mem : Nat → Nat → Nat) :
    List (Nat × Nat × List Byte) × RowState :=
  chainRun { ch := h.img.chain, tz := h.roundTz, t := t, s2 := s2, token := tok, mem := mem } h.rowState

/-- VECTOR_RUN: the vector engine takes an entry and runs its hand's chain over it. DESIGN CHOICE: the MEM reads of a run that leave the window count
as one overflow, in however many vectors and stages they do, and as one stale tile where no command runs (R158, R210; log entry 153). -/
def execVectorRun (core : Nat) (err : CoreErr) (s : State) : Out :=
  match (if (s.coreOf core).fenced then none else s.tqPick core) with
  | none => .next s
  | some (e, i) =>
    match s.handOf core e.hand with
    | none => .next s
    | some h =>
      match h.p1Ready with
      | none => .next s
      | some (pe, tok, rest) =>
        if rest || vtokenBad tok then .next (s.faultOn h.ctx h.layout ⟨St.reservedField, 0, 0⟩)
        else
          match chainFault h.img.chain with
          | some (stage, reason) => .next (s.faultOn h.ctx h.layout (chainVerdict core h.layout stage reason))
          | none =>
            let (first, len) := h.memRange
            let (s1, ok) := s.coreCheck core h.ctx h.layout first len err
            if !ok then .next s1
            else
              let s2 := match pe with
                | some x => x.data.getD {}
                | none => {}
              let (outs, rs) := h.run e.tile s2 tok (s1.memLanes core h)
              let tiles := h.outTiles e.tile outs
              let popped := match pe with
                | some x => s1.modHand core e.hand (fun y => y.popPair 1 x)
                | none => s1
              onlyIf (tiles.all (fun o => popped.emitRoom core e.hand 5 o.1 o.2)) s
                (let s3 := (popped.modCore core (fun k => { k with tq := k.tq.eraseIdx i })).modHand core e.hand (fun y =>
                    { y with rowState := rs,
                             outCount := tiles.foldl (fun c o => tmod 0 c o.1 (fun n => (n + 1) % 1024)) y.outCount })
                 let s4 := if h.memOut then s3.overflow h.ctx ⟨h.layout, 0xFFFF, core, 1, e.tile.tag⟩ else s3
                 tiles.foldl (fun u o => u.emitTile core e.hand 5 o.1 o.2) s4)

/-! ### The configuration port (R146, R152, R155) -/

/-- A core acknowledges a load, a replacement's hands or the end of what follows a cut. -/
def State.ackCore (s : State) (ctx lnum core : Nat) : State :=
  s.modLayout ctx lnum (fun l => { l with acksDue := l.acksDue.erase core })

/-- A hand-write item is applied (R115). A fenced core takes route-only hands alone (R128, R129). -/
def State.writeHand (s : State) (core slot : Nat) (h : Hand) : State :=
  s.modCore core (fun k => if k.fenced && !h.img.routeOnly then k
    else { k with hands := tset none k.hands slot (some h), tq := k.tq.filter (fun e => e.hand ≠ slot) })

/-- CONFIG_ITEM: a hand-write or end item at the head of the port is applied. -/
def execConfigItem (core : Nat) (s : State) : Out :=
  let pop := s.modCore core (fun k => { k with cfg := k.cfg.drop 1 })
  match (s.coreOf core).cfg with
  | .handWrite slot h :: _ => .next (pop.writeHand core slot h)
  | .finish c l :: _ => .next (pop.ackCore c l core)
  | _ => .next s

/-- Deal publication: the layout's stations, and every other member of the context's job, receive the new number; tag
counts start at 0 (R138, R150, R409). -/
def State.publish (s : State) (ctx lnum : Nat) : State :=
  match s.layoutOf ctx lnum with
  | none => s
  | some l =>
    let s1 := s.setLayout ctx lnum (some { l with published := l.deal, tags := l.tags.filter (fun p => 1024 ≤ p.1) })
    match s.jobOf ctx with
    | some j =>
      if j.isOpen then
        j.others.foldl (fun t p => t.toChip ctx 0 p.2
          (t.frame 0x13 p.2 [w32 0x07] (leBytes 4 lnum ++ leBytes 4 l.deal))) s1
      else s1
    | none => s1

/-- A hand takes a new deal number: what it holds is discarded, counts and row state restart (R106, R152, R209, R212). DESIGN CHOICE: its
direct-write rings begin at their base again (log entry 105). -/
def Hand.redeal (h : Hand) (d : Nat) : Hand :=
  { h with deal := d, pairs := [], expTag := [], p2Last := none, wideCount := 0, readCount := [], outCount := [],
           rowState := [], preload := [], drainTag := none, drainOwn := none, ringPos := [] }

/-- Tiles a hand's re-deal discards, each counted as stale. -/
def Core.redealLoss (k : Core) (slot : Nat) (h : Hand) : Nat :=
  sumNat (h.pairs.map (fun q => sumNat (q.2.map (fun e => b2n e.data.isSome + b2n e.ctl.isSome)))) + h.preload.length +
  (k.tq.filter (fun e => e.hand = slot)).length

/-- Buffered tiles of a killed run, at the stations of a layout. -/
def Layout.dropTiles (l : Layout) : Layout := { l with buffers := tmap [] l.buffers (fun _ b => dropData b), idxPos := [] }

/-- The slots of a core whose hands a deal update of a layout reaches. -/
def State.redealSlots (s : State) (core c lnum : Nat) : List Nat :=
  (List.range 4).filter (fun i => (s.handOf core i).any (fun h => h.ctx = c && h.layout = lnum && !h.waiting))

/-- The hand of a slot takes a new deal number; what it discards is counted. -/
def State.redealHand (s : State) (core c d slot : Nat) : State :=
  match s.handOf core slot with
  | some h =>
    ((s.modHand core slot (fun x => x.redeal d)).modCore core (fun k => { k with tq := k.tq.filter (fun e => e.hand ≠ slot) })).staleIn core slot c
      ((s.coreOf core).redealLoss slot h)
  | none => s

/-- DEAL_UPDATE_APPLY: a core applies a deal-update item once its engines are idle for the layout's hands (R152): no drain is still due. With the
last core of the layout the number is published and the pre-empted commands may re-run. -/
def execDealUpdateApply (core : Nat) (s : State) : Out :=
  match (s.coreOf core).cfg with
  | .dealUpdate c lnum d :: _ =>
    let slots := s.redealSlots core c lnum
    onlyIf (slots.all (fun i => (s.handOf core i).all (fun h => h.drainTag.isNone))) s
      (let s1 := slots.foldl (fun u i => u.redealHand core c d i) (s.modCore core (fun k => { k with cfg := k.cfg.drop 1 }))
       let s2 := s1.modLayout c lnum (fun l => { l with redealDue := l.redealDue.erase core })
       match s2.layoutOf c lnum with
       | some l => if l.redealDue = [] then (s2.modLayout c lnum Layout.dropTiles).publish c lnum else s2
       | none => s2)
  | _ => .next s

/-! ### Cuts (R122 to R125) -/

/-- A cut goes on to a neighbour output: it waits there behind every earlier tile. -/
def State.forwardCut (s : State) (core : Nat) (t : Tile) (r : Route) : State :=
  (r.dests.filter (fun d => d.target ≤ 3)).foldl (fun u d => u.sendMark core t d) s

/-- CUT_ARRIVE: a cut at the head of an input is forwarded, latched or both, and the input is held. -/
def execCutArrive (core port ch : Nat) (s : State) : Out :=
  match s.inputHead core port ch with
  | none => .next s
  | some (t, o) =>
    if t.kind ≠ 2 ∨ (s.coreOf core).heldIn.contains (port * 4 + ch) ∨ s.handWaits core t then .next s
    else
      let s1 := s.takeInput core port ch t o
      match s.arriveRoute core port ch t with
      | none => .next (s1.modCore core (fun k => { k with unrouted := k.unrouted + 1 }))
      | some (_, r, _) =>
        onlyIf ((r.dests.filter (fun d => d.target ≤ 3)).all (s.destRoom core t) && s.hasTurn core (port * 4 + ch) r) s
        ((((s1.modCore core (fun k => k.grant (port * 4 + ch) r)).modHand core t.hand
          (fun h => { h with cutInputs := h.cutInputs ++ [port * 4 + ch] })).modCore core
          (fun k => { k with heldIn := insertAsc k.heldIn (port * 4 + ch) })).forwardCut core t r)

/-- A hand of a layout that a cut retires: one that takes tiles now. -/
def Hand.isOld (ctx lnum : Nat) (h : Hand) : Bool := h.ctx = ctx && h.layout = lnum && !h.waiting

/-- An old hand has nothing left to do but its unmatched items: every input it routes has latched or forwarded its cut, under whichever old hand the
cut named (R123). `cuts`: the inputs cut so far. -/
def Core.handDone (k : Core) (cuts : List Nat) (slot : Nat) (h : Hand) : Bool :=
  (h.img.routes.filter (fun r => r.source ≤ 3)).all (fun r => cuts.contains (r.source * 4 + r.select)) &&
  h.pairs.all (fun q => q.2.all (fun e => !(e.ctl.isSome && e.data.isSome) && !h.unpaired q.1)) &&
  h.drainTag.isNone && k.tq.all (fun e => e.hand ≠ slot)

/-- The old hands of a core, by slot. -/
def Core.oldHands (k : Core) (ctx lnum : Nat) : List (Nat × Hand) :=
  (List.range 4).filterMap (fun i => match tget none k.hands i with
    | some h => if h.isOld ctx lnum then some (i, h) else none
    | none => none)

/-- The items behind a cut, up to the end item, are applied (R156): the rest of the port's items. -/
def applyBehind : List CfgItem → State → Nat → State × List CfgItem
  | [], s, _ => (s, [])
  | .handWrite slot h :: r, s, core => applyBehind r (s.writeHand core slot h) core
  | .finish c l :: r, s, core => (s.ackCore c l core, r)
  | i :: r, s, _ => (s, i :: r)

/-- CUT_COMPLETE: a core whose inputs are cut and whose old work has drained sends a cut on each engine-origin route,
retires the old hands, applies what waits behind the cut on its configuration port and releases its inputs. -/
def execCutComplete (core : Nat) (s : State) : Out :=
  let k := s.coreOf core
  match k.cfg with
  | .cut c lnum :: rest =>
    let olds := k.oldHands c lnum
    let cuts := olds.flatMap (fun p => p.2.cutInputs)
    let cutOf (p : Nat × Hand) (d : Dest) : Tile := { kind := 2, ctx := c, deal := p.2.deal, hand := (d.destHand + p.2.base p.1) % 4 }
    let outs (p : Nat × Hand) : List Dest :=
      (p.2.img.routes.filter (fun r => decide (4 ≤ r.source))).flatMap (fun r => r.dests.filter (fun d => d.target ≤ 3))
    onlyIf (olds.all (fun p => k.handDone cuts p.1 p.2) && olds.all (fun p => (outs p).all (fun d => s.destRoom core (cutOf p d) d))) s
      (let s1 := olds.foldl (fun u p => (outs p).foldl (fun x d => x.sendMark core (cutOf p d) d) u) s
       let left := sumNat (olds.map (fun p => k.redealLoss p.1 p.2))
       let s2 := s1.modCore core (fun x =>
         let y := x.clearHands (fun h => h.isOld c lnum)
         { y with
           hands := tmap none y.hands (fun _ o => o.map (fun h => if h.ctx = c ∧ h.layout = lnum then { h with waiting := false } else h)),
           cfg := [] })
       let s3 := s2.modCtx c (fun x => if x.live then { x with stale := x.stale + left } else x)
       let (s4, cfg) := applyBehind rest s3 core
       let s5 := s4.modCore core (fun x => { x with cfg := cfg, heldIn := x.heldIn.filter (fun i => !cuts.contains i) })
       s5.modLayout c lnum (fun l => { l with cutCores := l.cutCores.erase core }))
  | _ => .next s

end Sys2Proof.Machine
end

