-- ==== Sys2Proof/Machine/Image.lean ====
section
/-! DEFINITION. The layout image: parsing and validation (R135 to R142, R198). Every check that fails gives the byte offset
of its field, the byte that holds the field's lowest bit (log entry 15); the image is refused with the least. -/
namespace Sys2Proof.Machine

/-- An offset where a condition fails. -/
def bad (c : Bool) (off : Nat) : List Nat := if c then [off] else []

/-- Bits [hi:lo] of the word at a byte offset of an image. -/
def imf (ws : List Word) (off hi lo : Nat) : Nat := bits (wnat ws (off / 4)) hi lo

/-- A section: kind, offset, length, count and the offset of its table entry. -/
structure Sect where
  kind : Nat
  off : Nat
  len : Nat
  count : Nat
  entry : Nat
  deriving DecidableEq, Repr

/-! ### Header and section table (R135, R136) -/

def imgBytes (ws : List Word) : Nat := wnat ws 1
def imgW (ws : List Word) : Nat := imf ws 12 4 0
def imgH (ws : List Word) : Nat := imf ws 12 11 8
def imgFold (ws : List Word) : Nat := imf ws 12 13 12
def imgSpare (ws : List Word) : Bool := imf ws 12 14 14 = 1
def imgCount (ws : List Word) : Nat := imf ws 16 7 0

/-- IMAGE_BYTES is a multiple of 64 from 256 B to 64 MiB. -/
def imgBytesOk (n : Nat) : Bool := decide (n % 64 = 0) && decide (256 ≤ n) && decide (n ≤ 2 ^ 26)

/-- Table 4.1. -/
def headerErrs (ws : List Word) : List Nat :=
  bad (imf ws 0 15 0 ≠ 0x4C59) 0 ++ bad (imf ws 0 23 16 ≠ 1) 2 ++ bad (imf ws 0 31 24 ≠ 0) 3 ++
  bad (!imgBytesOk (imgBytes ws)) 4 ++
  bad (imgW ws = 0 ∨ 16 < imgW ws) 12 ++ bad (imf ws 12 7 5 ≠ 0) 12 ++ bad (imgH ws = 0 ∨ 12 < imgH ws) 13 ++
  bad (imf ws 12 31 15 ≠ 0) 13 ++
  bad (imgCount ws ≠ 3 + b2n (imgSpare ws)) 16 ++ bad (imf ws 16 31 8 ≠ 0) 17 ++
  (List.range 11).flatMap (fun i => bad (wnat ws (5 + i) ≠ 0) (20 + 4 * i))

def sections (ws : List Word) : List Sect :=
  (List.range (min (imgCount ws) 4)).map (fun i =>
    let e := 64 + 16 * i
    ⟨imf ws e 7 0, wnat ws (e / 4 + 1), wnat ws (e / 4 + 2), imf ws (e + 12) 15 0, e⟩)

/-- Bytes of a section's entries other than hand images; hand images are measured where they are parsed. -/
def Sect.fixedLen (x : Sect) : Option Nat :=
  if x.kind = 1 then some (8 * x.count) else if x.kind = 2 then some (16 * x.count) else none

def overlaps (a b : Sect) : Bool := decide (a.off < b.off + b.len) && decide (b.off < a.off + a.len)

/-- Table 4.2 and Table 4.3. -/
def tableErrs (ws : List Word) : List Nat :=
  let ss := sections ws
  ss.zipIdx.flatMap (fun (x, i) =>
    let e := x.entry
    let before := ss.take i
    bad (x.kind = 0 ∨ 3 + b2n (imgSpare ws) < x.kind ∨ before.any (fun y => y.kind = x.kind)) e ++
    bad (imf ws e 31 8 ≠ 0) (e + 1) ++
    bad (x.off % 64 ≠ 0 ∨ x.off < 64 + 16 * imgCount ws ∨ before.any (overlaps x)) (e + 4) ++
    bad (decide (imgBytes ws < x.off + x.len) || (match x.fixedLen with
      | some n => decide (x.len ≠ n)
      | none => false)) (e + 8) ++
    bad ((x.kind = 1 ∧ x.count ≠ imgW ws * imgH ws) ∨ (x.kind = 2 ∧ (x.count = 0 ∨ 1024 < x.count))) (e + 12) ++
    bad (imf ws (e + 12) 31 16 ≠ 0) (e + 14))

/-! ### Resource declarations and stations (R137, R138) -/

def declAt (ws : List Word) (o : Nat) : Decl :=
  { cx := imf ws o 3 0, cy := imf ws o 7 4, descriptors := imf ws o 15 8, cmem64K := imf ws o 24 16 }

def declErrs (ws : List Word) (x : Sect) : List Nat :=
  (List.range x.count).flatMap (fun i =>
    let o := x.off + 8 * i
    let d := declAt ws o
    bad (imgW ws ≤ d.cx ∨ imgH ws ≤ d.cy ∨
      (List.range i).any (fun j => (declAt ws (x.off + 8 * j)).cx = d.cx && (declAt ws (x.off + 8 * j)).cy = d.cy)) o ++
    bad (64 < d.descriptors) (o + 1) ++ bad (256 < d.cmem64K) (o + 2) ++ bad (imf ws o 31 25 ≠ 0) (o + 3) ++
    bad (wnat ws (o / 4 + 1) ≠ 0) (o + 4))

def stationAt (ws : List Word) (o : Nat) : Station :=
  { rx := imf ws o 5 0, ry := imf ws o 11 6, port := imf ws o 13 12, channel := imf ws o 15 14, out := imf ws o 16 16 = 1,
    hand := imf ws o 18 17, fmt := imf ws o 23 20, bufTiles := imf ws (o + 4) 7 0 }

/-- Two stations of one DIR on one link channel of one core. -/
def sameTap (a b : Station) : Bool :=
  a.rx = b.rx && a.ry = b.ry && a.port = b.port && a.channel = b.channel && a.out = b.out

def stationErrs (ws : List Word) (x : Sect) : List Nat :=
  (List.range x.count).flatMap (fun i =>
    let o := x.off + 16 * i
    let t := stationAt ws o
    bad (4 * imgW ws ≤ t.rx ∨ 4 * imgH ws ≤ t.ry ∨ (List.range i).any (fun j => sameTap t (stationAt ws (x.off + 16 * j)))) o ++
    bad (imgFold ws < t.hand ∨ (t.out ∧ t.hand ≠ 0) ∨ imf ws o 19 19 ≠ 0 ∨ 10 < t.fmt) (o + 2) ++
    bad (imf ws o 31 24 ≠ 0) (o + 3) ++ bad (t.bufTiles = 0) (o + 4) ++ bad (imf ws (o + 4) 31 8 ≠ 0) (o + 5))

/-! ### Hand images (R140, R141, R198) -/

def destAt (ws : List Word) (o j : Nat) : Dest :=
  let b := imf ws o (8 * j + 15) (8 * j + 8)
  { target := bits b 3 0, channel := bits b 5 4, destHand := bits b 7 6 }

def routeAt (ws : List Word) (o : Nat) : Route :=
  { source := imf ws o 2 0, select := imf ws o 4 3, dests := (List.range (imf ws o 7 6)).map (destAt ws o),
    ringBase := imf ws (o + 4) 11 0, ringSizeM1 := imf ws (o + 4) 23 12 }

def routeCount (ws : List Word) (o : Nat) : Nat := imf ws o 23 16
def chainWords (ws : List Word) (o : Nat) : Nat := imf ws o 31 24

def handAt (ws : List Word) (o : Nat) : HandImage :=
  { rx := imf ws o 5 0, ry := imf ws o 11 6, hand := imf ws o 13 12, routeOnly := imf ws o 14 14 = 1,
    routes := (List.range (routeCount ws o)).map (fun i => routeAt ws (o + 24 + 8 * i)),
    chain := (List.range (chainWords ws o)).map (fun i => word ws (o / 4 + 6 + 2 * routeCount ws o + i)),
    inFmt := imf ws (o + 4) 3 0, outFmt := imf ws (o + 4) 7 4, unpaired0 := imf ws (o + 4) 8 8 = 1,
    unpaired1 := imf ws (o + 4) 9 9 = 1, outColsM1 := imf ws (o + 4) 15 11,
    defaultTok := [word ws (o / 4 + 2), word ws (o / 4 + 3)],
    sramBase := imf ws (o + 16) 11 0, sramSizeM1 := imf ws (o + 16) 23 12 }

/-- The offsets of n hand images that lie back to back, and where they end. -/
def handOffs (ws : List Word) : Nat → Nat → List Nat × Nat
  | 0, o => ([], o)
  | n + 1, o =>
    let (l, e) := handOffs ws n (o + 24 + 8 * routeCount ws o + 4 * chainWords ws o)
    (o :: l, e)

/-- The core beyond a port, in the rectangle's own positions; none outside it. -/
def beyond (w h x y port : Nat) : Option (Nat × Nat) :=
  match port with
  | 0 => if y = 0 then none else some (x, y - 1)
  | 1 => if x + 1 < 4 * w then some (x + 1, y) else none
  | 2 => if y + 1 < 4 * h then some (x, y + 1) else none
  | _ => if x = 0 then none else some (x - 1, y)

/-- A route's own fields and conditions. `outs`: the output stations of the image. -/
def routeErrs (ws : List Word) (h : HandImage) (o : Nat) (outs : List Station) : List Nat :=
  let r := routeAt ws o
  let n := imf ws o 7 6
  let ring := r.dests.any (fun d => d.target = 11)
  bad (r.source = 7 ∨ (h.routeOnly ∧ 4 ≤ r.source) ∨ imf ws o 5 5 ≠ 0 ∨ n = 0) o ++
  (List.range 3).flatMap (fun j =>
    let d := destAt ws o j
    if n ≤ j then bad (imf ws o (8 * j + 15) (8 * j + 8) ≠ 0) (o + 1 + j)
    else bad (12 ≤ d.target ∨ (4 ≤ d.target ∧ d.channel ≠ 0) ∨ (r.source ≤ 3 ∧ d.destHand ≠ 0) ∨ imgFold ws < d.destHand ∨
        (r.source = 4 ∧ 4 ≤ d.target) ∨ (4 ≤ r.source ∧ d.target = 10) ∨ (h.routeOnly ∧ 4 ≤ d.target) ∨
        (d.target ≤ 3 ∧ beyond (imgW ws) (imgH ws) h.rx h.ry d.target = none ∧
          !outs.any (fun t => t.rx = h.rx && t.ry = h.ry && t.port = d.target && t.channel = d.channel))) (o + 1 + j)) ++
  bad (if ring then h.sramSizeM1 < r.ringBase + r.ringSizeM1 else r.ringBase ≠ 0) (o + 4) ++
  bad (!ring ∧ r.ringSizeM1 ≠ 0) (o + 5) ++ bad (imf ws (o + 4) 31 24 ≠ 0) (o + 7)

/-- A chain's reserved fields and encodings (R198, R202). -/
def chainErrs (ch : List Word) (c : Nat) : List Nat :=
  let w0 := wnat ch 0
  let st := (List.range (chainStages ch)).map (chainStage ch)
  bad (if nbit w0 3 then chainS2Fmt ch < 5 ∨ 9 < chainS2Fmt ch ∨ bits w0 15 12 ≠ 0 else bits w0 15 8 ≠ 0) (c + 1) ++
  bad (bits w0 31 24 ≠ 0) (c + 3) ++
  (List.range 4).flatMap (fun k => bad (st.any (fun x => x.emit && x.outIdx = k) && 10 ≤ chainOutFmt ch k) (c + 4 + k / 2)) ++
  bad (bits (wnat ch 1) 31 16 ≠ 0) (c + 6) ++ bad (bits (wnat ch 2) 31 8 ≠ 0) (c + 9) ++
  st.zipIdx.flatMap (fun (x, i) =>
    let s := c + 20 + 8 * i
    bad ((opArity x.op).isNone) s ++ bad (x.prec = 3) (s + 2) ++
    bad (((opArity x.op).isSome && !modOk x.op x.mod) || decide (bits (wnat ch (5 + 2 * i)) 31 30 ≠ 0)) (s + 3))

/-- A hand image's own fields and conditions. -/
def handErrs (ws : List Word) (o : Nat) (spare : Bool) (outs : List Station) : List Nat :=
  let h := handAt ws o
  let rc := routeCount ws o
  let cw := chainWords ws o
  let c := o + 24 + 8 * rc
  bad (4 * imgW ws ≤ h.rx ∨ 4 * imgH ws ≤ h.ry) o ++
  bad (imgFold ws < h.hand ∨ (spare ∧ !h.routeOnly) ∨ imf ws o 15 15 ≠ 0) (o + 1) ++
  bad (rc = 0 ∨ 64 < rc) (o + 2) ++
  bad (if h.routeOnly then cw ≠ 0 else cw ≠ 0 ∧ (cw < 5 ∨ cw ≠ 5 + 2 * chainStages h.chain)) (o + 3) ++
  (if h.routeOnly then (List.range 5).flatMap (fun i => bad (wnat ws (o / 4 + 1 + i) ≠ 0) (o + 4 + 4 * i))
   else
    bad (7 < h.inFmt ∨ h.outFmt < 5 ∨ 9 < h.outFmt) (o + 4) ++ bad (imf ws (o + 4) 10 10 ≠ 0) (o + 5) ++
    bad (imf ws (o + 4) 31 16 ≠ 0) (o + 6) ++
    (let t := imf ws (o + 8) 31 0
     bad ((nbit t 1 ∧ nbit t 2) ∨ (!nbit t 5 ∧ bits t 7 6 ≠ 0)) (o + 8) ++ bad (bits t 15 8 ≠ 0) (o + 9) ++
     bad (bits t 31 26 ≠ 0) (o + 11)) ++
    bad (imf ws (o + 12) 31 12 ≠ 0) (o + 13) ++
    bad (4095 < h.sramBase + h.sramSizeM1) (o + 17) ++ bad (imf ws (o + 16) 31 24 ≠ 0) (o + 19) ++
    bad (wnat ws (o / 4 + 5) ≠ 0) (o + 20)) ++
  (List.range rc).flatMap (fun i => routeErrs ws h (o + 24 + 8 * i) outs) ++
  (if h.chain = [] then [] else chainErrs h.chain c)

/-- A station and a route of the neighbour across its port conflict: reported at the later of the two (R142). -/
def tapErrs (ws : List Word) (stn : Nat × Station) (hs : List Nat) : List Nat :=
  let t := stn.2
  match beyond (imgW ws) (imgH ws) t.rx t.ry t.port with
  | none => []
  | some (x, y) =>
    let back := (t.port + 2) % 4
    hs.flatMap (fun o =>
      let h := handAt ws o
      if h.rx ≠ x ∨ h.ry ≠ y then []
      else h.routes.zipIdx.flatMap (fun (r, i) =>
        let ro := o + 24 + 8 * i
        if t.out then bad (r.source = back ∧ r.select = t.channel) (if stn.1 < ro then ro else stn.1)
        else r.dests.zipIdx.flatMap (fun (d, j) =>
          bad (d.target = back ∧ d.channel = t.channel) (if stn.1 < ro then ro + 1 + j else stn.1))))

/-- Later hand images for a core and logical hand that an earlier one of the section names. -/
def twinErrs (ws : List Word) (hs : List Nat) : List Nat :=
  hs.zipIdx.flatMap (fun (o, i) =>
    let h := handAt ws o
    bad ((hs.take i).any (fun p => (handAt ws p).rx = h.rx && (handAt ws p).ry = h.ry && (handAt ws p).hand = h.hand)) o)

/-- The section of a kind. -/
def sectOf (ws : List Word) (k : Nat) : Sect := ((sections ws).find? (fun x => x.kind = k)).getD ⟨k, 0, 0, 0, 0⟩

/-- Hand sections whose LENGTH is not that of their hand images. -/
def lenErrs (ws : List Word) : List Nat :=
  ((sections ws).filter (fun x => x.kind = 3 || x.kind = 4)).flatMap (fun x =>
    bad ((handOffs ws x.count x.off).2 ≠ x.off + x.len) (x.entry + 8))

/-- The errors of an image's sections, where header and table are in order. -/
def sectionErrs (ws : List Word) : List Nat :=
  let sect (k : Nat) : Sect := sectOf ws k
  let st := sect 2
  let stns := (List.range st.count).map (fun i => (st.off + 16 * i, stationAt ws (st.off + 16 * i)))
  let outs := (stns.filter (fun p => p.2.out)).map (fun p => p.2)
  let part (k : Nat) : List Nat × Nat := handOffs ws (sect k).count (sect k).off
  let kinds := if imgSpare ws then [3, 4] else [3]
  let hs := kinds.flatMap (fun k => (part k).1)
  declErrs ws (sect 1) ++ stationErrs ws st ++
  kinds.flatMap (fun k => (part k).1.flatMap (fun o => handErrs ws o (k = 4) outs) ++ twinErrs ws (part k).1) ++
  stns.flatMap (fun p => tapErrs ws p hs)

/-- The image itself. -/
def imageOf (ws : List Word) : Image :=
  let sect (k : Nat) : Sect := sectOf ws k
  { layoutId := word ws 2, rectW := imgW ws, rectH := imgH ws, foldM1 := imgFold ws, spareTolerant := imgSpare ws,
    decls := (List.range (sect 1).count).map (fun i => declAt ws ((sect 1).off + 8 * i)),
    stations := (List.range (sect 2).count).map (fun i => stationAt ws ((sect 2).off + 16 * i)),
    hands := (handOffs ws (sect 3).count (sect 3).off).1.map (handAt ws),
    spares := (handOffs ws (sect 4).count (sect 4).off).1.map (handAt ws) }

/-- The first offending field of an image, in image order; none where it is valid (R142). -/
def imageFault (ws : List Word) : Option Nat :=
  let l := headerErrs ws
  let l2 := if l = [] then tableErrs ws ++ lenErrs ws else l
  let l3 := if l2 = [] then sectionErrs ws else l2
  l3.foldl (fun a o => match a with
    | some x => some (min x o)
    | none => some o) none

end Sys2Proof.Machine
end

