-- ==== Sys2Proof/Machine/Layouts.lean ====
section
/-! DEFINITION. Contexts and layouts (chapter 4): creating and destroying contexts, loading, replacing, unloading and moving
layouts, and the quiescence of a faulted command. -/
namespace Sys2Proof.Machine

/-! ### Reading what a command names -/

/-- The errors the reads of a command met, in order, where a near or bulk frame serves the address: one that was corrected is counted and
recorded; one that was not retires its frame and tears the context down (R284, R285). Answers whether the reads are good. -/
def State.readErrs (s : State) (f q n ctx : Nat) : List MemErr → State × Bool
  | [] => (s, true)
  | e :: r =>
    match s.touch ctx (e.addr / blockBytes) with
    | .served _ fid =>
      if e.lost then ((s.retireFrame fid).teardown ctx ⟨uncStatus fid, e.addr % 2 ^ 32, e.addr / 2 ^ 32⟩ (hitOne f q n), false)
      else (s.correctable (fidIsland fid) (corrClass fid) (fid % 2 ^ 24)).readErrs f q n ctx r
    | _ => s.readErrs f q n ctx r

/-- The next stage of a started command's work, after the errors its reads met. -/
def State.withErrs (s : State) (f q n op : Nat) (errs : List MemErr) (k : State → Out) : Out :=
  match s.started f q n op with
  | none => .next s
  | some c => match s.readErrs f q n c.ctx errs with
    | (t, true) => k t
    | (t, false) => .next t

/-- Going on with a range of the command's context: it waits where a block is on its way (a parked one begins to come in), asks a lender
for bytes that have not come, or ends with the verdict of R258 and Table 8.2. A range whose bytes it reads counts in its blocks (R271). -/
def State.withRange (s : State) (f q n ctx w addr len : Nat) (whole : Bool) (k : State) : State :=
  match s.access ctx w addr len whole with
  | .ready => if whole then k.countReads 0 ctx [(addr, len)] else k
  | .wait i => s.awaitBlock f q n i 0
  | .fetch i chip fr off l => s.fetchPeer ctx i chip fr off l
  | .bad v => s.endCmd f q n (match s.cmdOf f q n with
    | some c => addrVerdict c.words c.eff v
    | none => v)

/-! ### Contexts (R132 to R134) -/

/-- Context numbers that uncommitted CONTEXT_CREATE commands have chosen. -/
def State.chosenCtxs (s : State) : List Nat :=
  s.allCmds.filterMap (fun x => if x.2.2.op = 0x10 then (match x.2.2.work with
    | .ctx k => some k
    | _ => none) else none)

/-- The lowest free context number of a partition. -/
def State.freeCtx (s : State) (p : Nat) : Option Nat :=
  ((List.range (s.ctxCount p)).map (s.ctxBase p + ·)).find? (fun c => !s.ctxLive c && !s.chosenCtxs.contains c)

/-- PASSES 1 to 3 and FLOOR 1 to PASSES in word 2. -/
def precisionOk (w2 : Word) : Bool :=
  decide (1 ≤ fld w2 2 1) && decide (1 ≤ fld w2 4 3) && decide (fld w2 4 3 ≤ fld w2 2 1)

/-- CONTEXT_CREATE chooses the number; the context is live from the commit. -/
def execContextCreate (f q n : Nat) (s : State) : Out :=
  s.work f q n 0x10 (fun c =>
    let ws := c.eff
    s.checked f q n c (reservedCheck ws [(2, 0x1F), (3, 0xFFFF)] ++ [param (precisionOk (word ws 2)) 2])
      (match s.freeCtx f with
       | some k => (s.setWork f q n (.ctx k)).done f q n k 0
       | none => s.endCmd f q n ⟨St.tableFull, 0, 0⟩))

/-- The context a CONTEXT_CREATE makes at its commit. -/
def newContext (p : Nat) (ws : List Word) : Context :=
  let w2 := word ws 2
  let wd := fld (word ws 3) 15 0
  { live := true, part := p, kvSplit := bit w2 0, passes := fld w2 2 1, floor := fld w2 4 3, curPasses := fld w2 2 1,
    watchdogMs := if wd = 0 then 100 else wd }

/-- The context's steps that run routed on its job end, and each of them is retired in the job before it completes (R85, R362). -/
def State.endRouted (s : State) (ctx : Nat) (v : Verdict) : State :=
  (s.allCmds.filter (fun x => namesContext x.2.2.words && x.2.2.ctx = ctx && x.2.2.routedGen ≠ 0 && x.2.2.phase ≠ .ending &&
    x.2.2.status = 0)).foldl (fun t x => t.cancelCmd x.1 x.2.1 x.2.2.n v) s

/-- CONTEXT_DESTROY ends the routed steps of its context, and once they are retired in the job (R362) it tears the context down and then
commits; its commit point is the teardown. -/
def execContextDestroy (f q n : Nat) (s : State) : Out :=
  s.work f q n 0x11 (fun c =>
    s.checked f q n c (reservedCheck c.eff [])
      (let s0 := s.endRouted c.ctx ⟨St.contextDestroyed, 0, 0⟩
       if s0.allCmds.any (fun x => namesContext x.2.2.words && x.2.2.ctx = c.ctx && x.2.2.phase = .ending) then s0
       else (s0.teardownBy c.ctx St.contextDestroyed (fun _ _ _ => ⟨St.contextDestroyed, 0, 0⟩)).modCmd f q n (fun x =>
        { x with phase := .finished, status := 0, resA := 0, resB := 0, pastCommit := true })))

/-- CONTEXT_CONFIG; the new values apply from its commit. -/
def execContextConfig (f q n : Nat) (s : State) : Out :=
  s.work f q n 0x12 (fun c =>
    let ws := c.eff
    s.checked f q n c (reservedCheck ws [(2, 0x3F), (3, 0xFFFF)] ++
        [param (!bit (word ws 2) 0 || precisionOk (word ws 2)) 2])
      (s.done f q n 0 0))

/-- What CONTEXT_CONFIG changes at its commit. -/
def configContext (ws : List Word) (x : Context) : Context :=
  let w2 := word ws 2
  let wd := fld (word ws 3) 15 0
  let y := if bit w2 0 then { x with passes := fld w2 2 1, floor := fld w2 4 3, curPasses := fld w2 2 1 } else x
  if bit w2 5 then { y with watchdogMs := if wd = 0 then 100 else wd } else y

/-! ### Reading an image (R135, R142, R146 step 1) -/

/-- The image at a context address goes on to `k`; IMAGE_INVALID where it is malformed. `w` is the word that names it. -/
def State.withImage (s : State) (f q n ctx w addr : Nat) (k : Image → State) : State :=
  s.withRange f q n ctx w addr 64 true
    (let hd := toWords (s.readCtx ctx addr 64)
     let total := if imgBytesOk (imgBytes hd) then imgBytes hd else 64
     s.withRange f q n ctx w addr total true
       (let ws := toWords (s.readCtx ctx addr total)
        match imageFault ws with
        | some off => s.endCmd f q n ⟨St.imageInvalid, off, 0⟩
        | none => k (imageOf ws)))

/-! ### Placement (R143, R144, R154) -/

/-- The rectangle fits the device and the hands the slots (R143). -/
def placeFits (im : Image) (cx cy b : Nat) : Bool :=
  decide (cx + im.rectW ≤ 16) && decide (cy + im.rectH ≤ 12) && decide (b + im.foldM1 ≤ 3)

/-- The images of a layout with their hand bases: its own, the one it replaces and the one that will replace it. -/
def Layout.images (l : Layout) : List (Image × Nat) := (l.img, l.handBase) :: (l.old.toList ++ l.next.toList)

/-- The cores in which a layout has hands, each with the slots they hold: those it holds, and those it has reserved (R144). -/
def Layout.held (l : Layout) : List (Nat × Nat) :=
  l.images.flatMap (fun i => i.1.hands.map (fun h => (coreAt (4 * l.cx + h.rx) (4 * l.cy + h.ry), i.2 + h.hand)))

/-- The layout holds none of the slots b to b + n in the core. -/
def Layout.slotsFree (l : Layout) (core b n : Nat) : Bool := l.held.all (fun p => p.1 ≠ core || decide (p.2 < b) || decide (b + n < p.2))

/-- What an image declares for the cluster at (x, y) of its rectangle: descriptors, 64 KiB units. -/
def Image.declAt (im : Image) (x y : Nat) : Nat × Nat :=
  match im.decls.find? (fun d => d.cx = x && d.cy = y) with
  | some d => (d.descriptors, d.cmem64K)
  | none => (0, 0)

/-- What a layout reserves in a cluster: during a replacement the larger of the two images' declarations. -/
def Layout.reserved (l : Layout) (cl : Nat) : Nat × Nat :=
  if l.clusters.contains cl then
    let x := clusterCol cl - l.cx
    let y := clusterRow cl - l.cy
    let ims := [l.img] ++ (match l.old with
      | some o => [o.1]
      | none => []) ++ (match l.next with
      | some o => [o.1]
      | none => [])
    ims.foldl (fun a im => (max a.1 (im.declAt x y).1, max a.2 (im.declAt x y).2)) (0, 0)
  else (0, 0)

/-- The hand image a core gets: the spare of a fenced core, else the image's own (R145). -/
def State.imageHand (s : State) (im : Image) (core rx ry h : Nat) : Option HandImage :=
  (if s.coreFenced core then im.spares else im.hands).find? (fun i => i.rx = rx && i.ry = ry && i.hand = h)

/-- A placement is free of the refusals of R144. `skip`: the layout of the context whose own slots and reservations count
as free. -/
def State.placeOk (s : State) (p ctx : Nat) (skip : Option Nat) (im : Image) (cx cy b : Nat) : Bool :=
  let ls := s.allLayouts.filter (fun x => !(x.1 = ctx && some x.2.1 = skip))
  let cells := (List.range (im.rectW * im.rectH)).map (fun i => (i % im.rectW, i / im.rectW))
  cells.all (fun (x, y) =>
    let cl := clusterAtGrid (cx + x) (cy + y)
    let here := ls.filter (fun l => l.2.2.clusters.contains cl)
    let hands := here.filter (fun l => l.2.2.held.any (fun h => clusterOf h.1 = cl))
    let used := here.foldl (fun a l => (a.1 + (l.2.2.reserved cl).1, a.2 + (l.2.2.reserved cl).2)) (0, 0)
    let d := im.declAt x y
    s.clusterOwner cl = p && hands.all (fun l => l.1 = ctx) && !s.clusterFenced cl && !s.mgmt.testing.contains cl &&
    hands.all (fun l => (coresOfCluster cl).all (fun k => l.2.2.slotsFree k b im.foldM1)) &&
    decide (used.1 + d.1 ≤ 64) && decide (used.2 + d.2 ≤ 256)) &&
  im.hands.all (fun h =>
    let core := coreAt (4 * cx + h.rx) (4 * cy + h.ry)
    !s.coreFenced core || im.spares.any (fun i => i.rx = h.rx && i.ry = h.ry && i.hand = h.hand))

/-- A region of the clusters is gated (R33). -/
def State.gatedIn (s : State) (cls : List Nat) : Bool := cls.any (fun cl => s.power.gated.contains (regionOfCluster cl))

/-! ### Deal numbers (R149) -/

/-- Deal numbers a context does not issue now: those of its layouts, and those its tiles carry in a Stream Engine's buffers, at the
ingress of a job circuit, or held at the Expert Router. -/
def State.dealsHeld (s : State) (ctx : Nat) : List Nat :=
  let c := s.ctxOf ctx
  0 :: c.loaded.flatMap (fun p =>
    [p.2.deal, p.2.published, p.2.nextDeal, p.2.oldDeal.getD 0] ++ p.2.arrivals.flatMap (fun a => a.2.map (fun t => t.deal)) ++
    p.2.buffers.flatMap (fun a => a.2.map (fun t => t.deal))) ++
  (match c.job with
    | some j => j.waitTiles.map (fun t => t.2.deal) ++ (j.held ++ j.tilesIn).map (fun p => bits (p.2.t 1) 15 0)
    | none => [])

/-- The next deal number of a context. -/
def State.nextDeal (s : State) (ctx : Nat) : Nat :=
  let held := s.dealsHeld ctx
  (((List.range 65536).map (fun i => ((s.ctxOf ctx).dealCtr + 1 + i) % 65536)).find? (fun d => !held.contains d)).getD 0

/-- The counter moves to a number it issued. -/
def State.takeDeal (s : State) (ctx d : Nat) : State := s.modCtx ctx (fun c => { c with dealCtr := d })

/-! ### Writing hands (R146 steps 4 to 6) -/

/-- The hands an image puts into a placement: core, slot, hand. -/
def State.handsOf (s : State) (ctx lnum : Nat) (im : Image) (cx cy b deal : Nat) (waiting : Bool) : List (Nat × Nat × Hand) :=
  let names := im.hands.map (fun h => (h.rx, h.ry, h.hand))
  names.filterMap (fun (rx, ry, h) =>
    let core := coreAt (4 * cx + rx) (4 * cy + ry)
    (s.imageHand im core rx ry h).map (fun i =>
      (core, b + h, { ctx := ctx, layout := lnum, deal := deal, img := i, passes := (s.ctxOf ctx).curPasses, waiting := waiting })))

/-- Items for the configuration ports of a rectangle: `pre` first, one hand-write item per hand, then an end item. -/
def State.sendItems (s : State) (ctx lnum : Nat) (cores : List Nat) (pre : List CfgItem) (hs : List (Nat × Nat × Hand)) : State :=
  cores.foldl (fun t c => t.modCore c (fun k => { k with
    cfg := k.cfg ++ pre ++ (hs.filter (fun h => h.1 = c)).map (fun h => .handWrite h.2.1 h.2.2) ++ [.finish ctx lnum] })) s

/-- A layout goes into its rectangle: deal number taken, reservations made, hands sent. What its cluster memory then holds is open; it
reads as memory nothing has written (log entry 40). -/
def State.beginLoad (s : State) (ctx lnum addr : Nat) (im : Image) (cx cy b : Nat) : State :=
  let d := s.nextDeal ctx
  let l : Layout := { imageAddr := addr, img := im, cx := cx, cy := cy, handBase := b, deal := d, phase := .loading }
  let s0 := { s with cmem := cellClear s.cmem ((ctx * 8 + lnum) * 192 * 2 ^ 24) (192 * 2 ^ 24) }
  let s1 := (s0.takeDeal ctx d).setLayout ctx lnum (some { l with acksDue := l.cores })
  s1.sendItems ctx lnum l.cores [] (s1.handsOf ctx lnum im cx cy b d false)

/-! ### LAYOUT_LOAD (R146, Table 4.9) -/

/-- Fields of word 4 of the layout commands. -/
def lwLayout (ws : List Word) : Nat := fld (word ws 4) 2 0
def lwCx (ws : List Word) : Nat := fld (word ws 4) 7 4
def lwCy (ws : List Word) : Nat := fld (word ws 4) 11 8
def lwBase (ws : List Word) : Nat := fld (word ws 4) 13 12

/-- A placement is checked and, where it is free, goes on to `k`; a gated region is waited for. -/
def State.withPlace (s : State) (f q n ctx : Nat) (skip : Option Nat) (im : Image) (cx cy b : Nat) (k : State) : State :=
  if !placeFits im cx cy b then s.endCmd f q n ⟨St.invalidParameter, 4, 0⟩
  else if !s.placeOk (s.ctxOf ctx).part ctx skip im cx cy b then s.endCmd f q n ⟨St.clustersUnavailable, 0, 0⟩
  else if s.gatedIn (rectClusters cx cy im.rectW im.rectH) then s
  else k

def execLayoutLoad (f q n : Nat) (errs : List MemErr) (s0 : State) : Out :=
  s0.withErrs f q n 0x13 errs (fun s => s.work f q n 0x13 (fun c =>
    let ws := c.eff
    let lnum := lwLayout ws
    match c.work with
    | .layout _ _ =>
      (match s.layoutOf c.ctx lnum with
       | some l => if l.phase = .acked then s.done f q n lnum 0 else s
       | none => s)
    | _ =>
      s.checked f q n c (reservedCheck ws [(2, 0xFFFFFFFF), (3, 0xFFFF), (4, 0x3FF7)] ++
          [param (wnat ws 2 % 64 = 0) 2, param (s.layoutOf c.ctx lnum).isNone 4])
        (s.withImage f q n c.ctx 2 (addr48 ws 2) (fun im =>
          s.withPlace f q n c.ctx none im (lwCx ws) (lwCy ws) (lwBase ws)
            ((s.beginLoad c.ctx lnum (addr48 ws 2) im (lwCx ws) (lwCy ws) (lwBase ws)).setWork f q n (.layout lnum 1))))))

/-- LOAD_ACKS_COMPLETE: every core of a load or a move has acknowledged; its deal number is published and the layout is
recorded. -/
def execLoadAcksComplete (ctx lnum : Nat) (s : State) : Out :=
  match s.layoutOf ctx lnum with
  | some l =>
    onlyIf (decide (l.phase = .loading) && l.acksDue.isEmpty) s
      ((s.modLayout ctx lnum (fun x => { x with phase := .acked })).publish ctx lnum)
  | none => .next s

/-! ### LAYOUT_REPLACE and LAYOUT_UNLOAD (R154 to R157, R517) -/

/-- A command that started on a layout before a replacement or unload did is pre-empted: the cut waits for its re-run. -/
def State.rerunDue (s : State) (ctx lnum order : Nat) : Bool :=
  s.allCmds.any (fun x => decide (x.2.2.phase = .preempted) && x.2.2.ctx = ctx && x.2.2.onLayout lnum && decide (x.2.2.order < order))

/-- A number that stays free for commands between a replacement's old and new keys. -/
def oldKey (i : Nat) : Nat := 1024 + i

/-- The commit point of a replacement: the new image takes the layout's place, the old stations keep their buffers and
streams under their old keys, and every input station is due a cut. -/
def Layout.cutOver (l : Layout) : Layout :=
  match l.next with
  | none => l
  | some (im, b) =>
    let ren {α : Type} (t : Tbl α) : Tbl α := t.map (fun p => (oldKey p.1, p.2))
    { l with
      old := some (l.img, l.handBase), oldDeal := some l.deal, img := im, handBase := b, deal := l.nextDeal,
      imageAddr := l.nextAddr, next := none, nextDeal := 0, nextAddr := 0, phase := .cutting,
      tags := ren l.tags, buffers := ren l.buffers, idxPos := ren l.idxPos, arrivals := ren l.arrivals, cutCores := l.cores,
      cutsDue := (l.img.stations.zipIdx.filter (fun p => !p.1.out)).map (fun p => oldKey p.2),
      cutStations := (l.img.stations.zipIdx.filter (fun p => p.1.out)).map (fun p => oldKey p.2) }

/-- The same for an unload: no new image, the keys stay. -/
def Layout.cutOff (l : Layout) : Layout :=
  { l with
    phase := .cutting, cutCores := l.cores,
    cutsDue := (l.img.stations.zipIdx.filter (fun p => !p.1.out)).map (fun p => p.2),
    cutStations := (l.img.stations.zipIdx.filter (fun p => p.1.out)).map (fun p => p.2) }

/-- The new slots of a replacement are free or held by the old layout, the declarations fit beside the rest, and every
fenced core has its spare: that is the placement check with the old layout's own holdings counted as free. -/
def State.replaceOk (s : State) (ctx lnum : Nat) (l : Layout) (im : Image) (b : Nat) : Bool :=
  s.placeOk (s.ctxOf ctx).part ctx (some lnum) im l.cx l.cy b

/-- The first stage of a replacement: the new image is checked, its resources reserved, its deal number taken, and, where
its slots are disjoint from the old ones, its hands written ahead of the cut (R155 steps 1 and 2). -/
def State.prepareReplace (s : State) (ctx lnum addr : Nat) (l : Layout) (im : Image) (b : Nat) : State :=
  let d := s.nextDeal ctx
  let ahead := l.cores.all (fun k => l.slotsFree k b im.foldM1)
  let s1 := (s.takeDeal ctx d).setLayout ctx lnum (some { l with
    next := some (im, b), nextDeal := d, nextAddr := addr, behind := !ahead, acksDue := if ahead then l.cores else [] })
  if ahead then s1.sendItems ctx lnum l.cores [] (s1.handsOf ctx lnum im l.cx l.cy b d true) else s1

/-- The streams of the old layout take their old keys, loads into its cluster memory included. -/
def State.renameStreams (s : State) (ctx lnum : Nat) : State :=
  { s with slots := s.slots.map (fun p => (p.1, p.2.map (fun v =>
      if v.ctx = ctx ∧ v.layout = lnum then { v with station := oldKey v.station } else v))) }

/-- Some cut may be sent now (R155 step 3): a station has no stream, or there is no input station. -/
def State.cutReady (s : State) (ctx lnum : Nat) (l : Layout) : Bool :=
  let ins := l.img.stations.zipIdx.filter (fun p => !p.1.out)
  ins.isEmpty || ins.any (fun p => !s.usedSlots.any (fun v => v.2.ctx = ctx && v.2.layout = lnum && v.2.station = p.2 && !v.2.toCmem))

/-- A command is past a commit point that lies before its record; the record will hold the count of this moment (R80, R517). -/
def State.passCommit (s : State) (f q n : Nat) : State :=
  s.modCmd f q n (fun c => { c with pastCommit := true, commitCount := some (s.islCount islCp) })

/-- The cuts on the configuration ports, followed by hand writes still due and an end item (R155 step 4). -/
def State.cutPorts (s : State) (ctx lnum : Nat) (l : Layout) : State :=
  let hs := if l.behind then s.handsOf ctx lnum l.img l.cx l.cy l.handBase l.deal false else []
  (s.sendItems ctx lnum l.cores [.cut ctx lnum] hs).modLayout ctx lnum (fun x => { x with behind := false })

def execLayoutReplace (f q n : Nat) (errs : List MemErr) (s0 : State) : Out :=
  s0.withErrs f q n 0x14 errs (fun s => s.work f q n 0x14 (fun c =>
    let ws := c.eff
    let lnum := lwLayout ws
    match s.layoutOf c.ctx lnum, c.work with
    | some l, .layout _ stage =>
      if stage = 1 then
        if !l.acksDue.isEmpty || s.rerunDue c.ctx lnum c.order || !s.cutReady c.ctx lnum l then s
        else
          let s1 := (s.setLayout c.ctx lnum (some l.cutOver)).renameStreams c.ctx lnum
          ((s1.sendCuts c.ctx lnum).passCommit f q n).setWork f q n (.layout lnum 2)
      else if stage = 2 then
        if !l.cutsDue.isEmpty then s
        else ((s.cutPorts c.ctx lnum l).publish c.ctx lnum).setWork f q n (.layout lnum 3)
      else if l.phase = .cutDone then s.done f q n lnum 0
      else s
    | o, _ =>
      s.checked f q n c (reservedCheck ws [(2, 0xFFFFFFFF), (3, 0xFFFF), (4, 0x3007)] ++
          [param (wnat ws 2 % 64 = 0) 2, param o.isSome 4])
        (match o with
         | some l =>
           if l.phase ≠ .loaded ∨ l.next.isSome ∨ !l.redealDue.isEmpty then s
           else s.withImage f q n c.ctx 2 (addr48 ws 2) (fun im =>
             if im.rectW ≠ l.img.rectW ∨ im.rectH ≠ l.img.rectH ∨ 3 < lwBase ws + im.foldM1 then
               s.endCmd f q n ⟨St.invalidParameter, 4, 0⟩
             else if !s.replaceOk c.ctx lnum l im (lwBase ws) then s.endCmd f q n ⟨St.clustersUnavailable, 0, 0⟩
             else (s.prepareReplace c.ctx lnum (addr48 ws 2) l im (lwBase ws)).setWork f q n (.layout lnum 1))
         | none => s)))

/-- LAYOUT_UNLOAD. Its start has marked the layout (stage 0). -/
def execLayoutUnload (f q n : Nat) (s : State) : Out :=
  s.work f q n 0x15 (fun c =>
    let ws := c.eff
    let lnum := lwLayout ws
    match s.layoutOf c.ctx lnum, c.work with
    | some l, .layout _ 2 =>
      if !l.cutsDue.isEmpty then s
      else (s.cutPorts c.ctx lnum l).setWork f q n (.layout lnum 3)
    | some l, .layout _ 3 => if l.phase = .cutDone then s.done f q n lnum 0 else s
    | o, _ =>
      s.checked f q n c (reservedCheck ws [(4, 7)] ++ [param o.isSome 4])
        (match o with
         | some l =>
           if l.phase ≠ .loaded ∨ l.next.isSome ∨ !l.redealDue.isEmpty ∨ s.rerunDue c.ctx lnum c.order ∨
               !s.cutReady c.ctx lnum l then s
           else
             let s1 := s.setLayout c.ctx lnum (some { l.cutOff with unloading := true })
             ((s1.sendCuts c.ctx lnum).passCommit f q n).setWork f q n (.layout lnum 2)
         | none => s))

/-- REPLACE_CUT_DONE: every core has completed its cut and every output station delivered one; the old layout's
reservations go. -/
def execReplaceCutDone (ctx lnum : Nat) (s : State) : Out :=
  match s.layoutOf ctx lnum with
  | none => .next s
  | some l =>
    onlyIf (decide (l.phase = .cutting) && l.cutsDue.isEmpty && l.cutCores.isEmpty && l.cutStations.isEmpty) s
      (if l.old.isNone then
        (s.clearLayoutHands ctx lnum l).setLayout ctx lnum (some { unloading := true, phase := .cutDone })
      else
        s.setLayout ctx lnum (some { l with
          phase := .cutDone, old := none, oldDeal := none,
          tags := l.tags.filter (fun p => p.1 < 1024), idxPos := l.idxPos.filter (fun p => p.1 < 1024), buffers := l.buffers.filter (fun p => p.1 < 1024),
          arrivals := l.arrivals.filter (fun p => p.1 < 1024) }))

/-! ### PLACEMENT_MOVE (R153) and pre-emption (R77, R152) -/

/-- A SPAN step that has replied ready is not pre-empted (R338). -/
def Cmd.stepReady (c : Cmd) : Bool :=
  match c.work with
  | .step st => st.span && st.isReady
  | _ => false

/-- The job's other members are told that a SPAN step without routed layers is killed here; the message is a retired report of generation 0
(R76 case 4, R338; log entry 93). A routed step's retires tell them (R362). -/
def State.tellKill (s : State) (c : Cmd) : State :=
  match c.work, s.jobOf c.ctx with
  | .step st, some j =>
    if !st.span || st.told || j.plan.any (fun p => p.layout = st.layout) then s
    else j.others.foldl (fun t p => t.jobCtrl c.ctx p.2 0x02 (leBytes 4 0)) s
  | _, _ => s

/-- A running command is pre-empted: everything it held goes back, and it keeps its place in its queue. -/
def State.preemptCmd (s : State) (f q n : Nat) (moved : Bool) (for' : Option (Nat × Nat × Nat)) : State :=
  let s0 := match s.cmdOf f q n with
    | some c => s.tellKill c
    | none => s
  (s0.release f q n).modCmd f q n (fun c => { c with phase := .preempted, preempts := c.preempts + 1, moved := moved, behind := for' })

/-- The running commands on a layout, by function, queue and command. -/
def State.runnersOn (s : State) (ctx lnum : Nat) : List (Nat × Nat × Cmd) :=
  s.allCmds.filter (fun x => namesContext x.2.2.words && x.2.2.ctx = ctx && hitLayout lnum x.1 x.2.1 x.2.2)

/-- Tiles of a layout's hands waiting at core inputs and in Pairing Buffers: what clearing them counts as stale (R153 step 4). -/
def State.layoutLoss (s : State) (ctx lnum : Nat) (l : Layout) : Nat :=
  sumNat (l.cores.map (fun c =>
    let k := s.coreOf c
    k.pairItems (fun h => h.ctx = ctx && h.layout = lnum) +
    sumNat (k.inq.map (fun p => (p.2.filter (fun t => t.ctx = ctx && (match tget none k.hands t.hand with
      | some h => h.ctx = ctx && h.layout = lnum
      | none => false))).length))))

/-- The old placement of a layout is cleared, with its tiles at core inputs (R153 steps 3 to 5). -/
def State.clearPlacement (s : State) (ctx lnum : Nat) (l : Layout) : State :=
  let lost := s.layoutLoss ctx lnum l
  let s1 := s.modCores l.cores (fun k => { k with
    inq := tmap [] k.inq (fun _ q => q.filter (fun t => !(t.ctx = ctx && (match tget none k.hands t.hand with
      | some h => h.ctx = ctx && h.layout = lnum
      | none => false)))) })
  ((s1.clearLayoutHands ctx lnum l).setLayout ctx lnum none).modCtx ctx (fun x => { x with stale := x.stale + lost })

/-- The image is read again and loaded at the new placement (R153 step 6). -/
def State.moveLoad (s : State) (f q n : Nat) (c : Cmd) (lnum addr : Nat) : State :=
  s.withImage f q n c.ctx 4 addr (fun im =>
    s.withPlace f q n c.ctx none im (lwCx c.eff) (lwCy c.eff) (lwBase c.eff)
      (s.beginLoad c.ctx lnum addr im (lwCx c.eff) (lwCy c.eff) (lwBase c.eff)))

def execPlacementMove (f q n : Nat) (errs : List MemErr) (s0 : State) : Out :=
  s0.withErrs f q n 0x16 errs (fun s => s.work f q n 0x16 (fun c =>
    let ws := c.eff
    let lnum := lwLayout ws
    match s.layoutOf c.ctx lnum, c.work with
    | some l, .move _ 1 addr =>
      let rs := s.runnersOn c.ctx lnum
      if rs.any (fun x => x.2.2.np || x.2.2.stepReady) ∨ l.phase ≠ .loaded ∨ l.next.isSome ∨ !l.redealDue.isEmpty then s
      else
        let s1 := rs.foldl (fun t x => t.preemptCmd x.1 x.2.1 x.2.2.n true none) s
        (((s1.clearPlacement c.ctx lnum l).modCmd f q n (fun x => { x with keeps := true })).setWork f q n (.move lnum 2 addr)).moveLoad
          f q n c lnum addr
    | some l, .move _ 2 _ => if l.phase = .acked then s.done f q n lnum 0 else s
    | none, .move _ 2 addr => s.moveLoad f q n c lnum addr
    | o, _ =>
      s.checked f q n c (reservedCheck ws [(4, 0x3FF7)] ++ [param o.isSome 4])
        (match o with
         | some l =>
           if l.phase ≠ .loaded ∨ l.next.isSome then s
           else s.withImage f q n c.ctx 4 l.imageAddr (fun im =>
             s.withPlace f q n c.ctx (some lnum) im (lwCx ws) (lwCy ws) (lwBase ws) (s.setWork f q n (.move lnum 1 l.imageAddr)))
         | none => s)))

/-! ### Faulted commands (R159, R225) -/

/-- An overflow comes before another in the order of R159. -/
def Overflow.before (a b : Overflow) : Bool :=
  let k (o : Overflow) : List Nat := [o.layout, o.station, o.core, o.code, o.tag]
  decide (k a < k b)

/-- The verdict of the lowest overflow. -/
def overflowVerdict (o : Overflow) : Verdict :=
  ⟨St.stationOverflow, o.station + o.core * 2 ^ 16, o.code + o.layout * 2 ^ 8⟩

/-- The verdict of the malformed list entries a command reached (R225). -/
def malformedVerdict (l : List (Nat × Nat × Nat)) : Option Verdict :=
  let first (a b : Nat × Nat × Nat) : Nat × Nat × Nat := if b.2.1 < a.2.1 ∨ (b.2.1 = a.2.1 ∧ b.2.2 < a.2.2) then b else a
  match l with
  | [] => none
  | x :: r =>
    let w := r.foldl first x
    some ⟨r.foldl (fun a y => min a y.1) x.1, 0x100 + w.2.1, w.2.2⟩

/-- What a faulted command ends with: of its overflows the lowest, its malformed entries, and of both the one R86 reports. -/
def Cmd.faultVerdict (c : Cmd) : Option Verdict :=
  pickVerdict ((malformedVerdict c.malformed).toList ++ (match c.overflows with
    | [] => []
    | o :: r => [overflowVerdict (r.foldl (fun a b => if b.before a then b else a) o)]))

/-- Tiles of a layout are in motion: at a core input, in a pair that can issue, in a Tile Queue, on the way to an output
station. -/
def State.inMotion (s : State) (ctx : Nat) (l : Layout) : Bool :=
  l.arrivals.any (fun p => !p.2.isEmpty) ||
  l.cores.any (fun c =>
    let k := s.coreOf c
    k.inq.any (fun p => p.2.any (fun t => t.ctx = ctx)) || !k.tq.isEmpty ||
    (List.range 4).any (fun i => s.handReady c i || (match s.handOf c i with
      | some h => h.drainTag.isSome || (h.nextPair 2).isSome
      | none => false)))

/-- A stream that only waits for tiles: an output stream, or one the Expert Router feeds, with nothing buffered. -/
def State.starved (s : State) (v : Slot) : Bool :=
  decide (v.inflight = []) && decide (s.bufTiles v = 0) && (v.isOut || (match v.src with
    | .routerIn _ _ => true
    | .combine _ _ => true
    | _ => false))

/-- A stream has halted, or waits for tiles that suppression has taken from it (log entry 22). -/
def State.atRest (s : State) (v : Slot) : Bool := v.state.isHalted || s.starved v

/-- Every stream of a command has ended or is at rest; a binding that waits for one of the command's own is so while that one is. -/
def State.streamsStill (s : State) (f q n : Nat) : Bool :=
  (s.cmdSlots f q n).all (fun p =>
    if p.2.state = .waiting then (match s.boundSlot p.2.ctx p.2.layout p.2.station with
      | some b => b.2.fn = f && b.2.q = q && b.2.n = n && s.atRest b.2
      | none => false)
    else s.atRest p.2)

/-- FAULTED_QUIESCENCE: a faulted command has come to rest, and its context is torn down. -/
def execFaultedQuiescence (f q n : Nat) (s : State) : Out :=
  match s.cmdOf f q n with
  | none => .next s
  | some c =>
    match c.faultVerdict with
    | none => .next s
    | some v =>
      let quiet := match s.layoutOf c.ctx (fld (word c.eff 2) 2 0) with
        | some l => !s.inMotion c.ctx l
        | none => true
      onlyIf (c.isRunning && s.streamsStill f q n && quiet) s (s.teardown c.ctx v (hitOne f q n))

end Sys2Proof.Machine
end

