-- ==== Sys2Proof/Machine/Streams.lean ====
section
/-! DEFINITION. Streams over descriptors (chapter 7): checking bindings and descriptors, the tiles of block lists and gathers,
writing output tiles, halts and resumes. The arms that move every kind of stream stand in Engines.lean. -/
namespace Sys2Proof.Machine

/-! ### Descriptor fields (Tables 7.2, 7.3, 7.6) -/

def dIndexed (d : List Word) : Bool := bit (word d 0) 0
def dOut (d : List Word) : Bool := bit (word d 0) 1
def dWeight (d : List Word) : Bool := bit (word d 0) 2
def dTranspose (d : List Word) : Bool := bit (word d 0) 3
def dCountInd (d : List Word) : Bool := bit (word d 0) 4
def dEndpoint (d : List Word) : Bool := bit (word d 0) 5
def dFmt (d : List Word) : Nat := fld (word d 0) 11 8
def dScale (d : List Word) : Nat := fld (word d 0) 13 12
def dLayer (d : List Word) : Nat := fld (word d 0) 25 16
def dMode (d : List Word) : Nat := fld (word d 5) 17 16
def dBag (d : List Word) : Nat := fld (word d 5) 19 18
def dIdxStation (d : List Word) : Bool := bit (word d 5) 20
def dBagWord (d : List Word) : Nat := fld (word d 9) 31 16
def dRowElems (d : List Word) : Nat := fld (word d 9) 15 0

/-- Bytes of n elements of a format, rounded up. -/
def elemBytes (fmt n : Nat) : Nat := ceilDiv (n * fmtWidth fmt) 8
/-- Bytes of a stored scale. -/
def scaleSize (enc : Nat) : Nat := if enc = 1 then 1 else if enc = 2 then 2 else 0

/-- The verdict of a check of binding i: RESERVED_FIELD or INVALID_PARAMETER, A 0x100 + i (R225). -/
def dres (i : Nat) (ok : Bool) : Check := need ok St.reservedField (0x100 + i) 0
def dpar (i : Nat) (ok : Bool) : Check := need ok St.invalidParameter (0x100 + i) 0

/-- Checks of a descriptor for binding i of a command. `endpoint`: the value ENDPOINT must have; `out`: the station's
direction; `stn`: the station's index. -/
def descChecks (i : Nat) (d : List Word) (endpoint out : Bool) (stn : Nat) : List Check :=
  let w0 := word d 0
  let f := dFmt d
  let kLen := wnat d 5
  [ dres i (fld w0 7 6 = 0 && fld w0 15 14 = 0 && fld w0 31 26 = 0 && decide (f ≤ 10) && dScale d ≠ 3 && !(dIndexed d && dOut d)),
    dres i (fld (word d 3) 31 16 = 0 && (List.range 4).all (fun k => wnat d (12 + k) = 0)),
    dpar i (dEndpoint d = endpoint && dOut d = out && !(dEndpoint d && dIndexed d)),
    dpar i (fmtScaled f || decide (dScale d = 0)),
    dpar i (dWeight d || decide (dLayer d = 0)),
    dpar i (dCountInd d || (decide (1 ≤ wnat d 1) && decide (wnat d 1 ≤ 2 ^ 31))),
    dpar i (if dCountInd d then decide (wnat d 2 % 4 = 0) else wnat d 2 = 0 && fld (word d 3) 15 0 = 0) ] ++
  (if dIndexed d then
    [ dres i (decide (dMode d < 2) && dBag d ≠ 3 && fld (word d 5) 31 21 = 0 && fld (word d 7) 31 16 = 0),
      dpar i (if dIdxStation d then decide (wnat d 4 < 1024) && fld (word d 5) 15 0 = 0 else decide (wnat d 4 % 4 = 0)),
      dpar i (decide (wnat d 6 % 64 = 0)),
      dpar i (if dMode d = 1 then
          dBag d = 0 && decide (dRowElems d ≤ 511) && wnat d 10 = 0 && wnat d 11 = 0 &&
          decide (dRowElems d * 64 + dBagWord d * tileBytes f ≤ 32768)
        else
          f ≠ 10 && decide (1 ≤ dRowElems d) && (dBag d = 0 || decide (1 ≤ dBagWord d)) &&
          (if dBag d = 2 then decide (wnat d 11 % 4 = 0) else wnat d 11 = 0) &&
          (!fmtScaled f || decide (elemBytes f (dRowElems d) + ceilDiv (dRowElems d) 32 * scaleSize (dScale d) ≤ wnat d 10))) ]
   else
    [ dres i (fld (word d 9) 31 17 = 0 && wnat d 10 = 0 && wnat d 11 = 0),
      dpar i (if dEndpoint d then decide (wnat d 7 % 64 = 0) else wnat d 7 = 0),
      dpar i (decide (wnat d 8 % 32 = 0)),
      dpar i (kLen ≠ 0 || decide (wnat d 6 ≤ 2 ^ 31)),
      need (kLen = 0 || (decide (wnat d 4 % 32 = 0) && decide (wnat d 4 + kLen ≤ wnat d 6) && decide (wnat d 6 ≤ 2 ^ 31) &&
        (decide (kLen % 32 = 0) || decide (wnat d 4 + kLen = wnat d 6)))) St.splitMisaligned stn 0 ])

/-! ### Cluster memory of a layout (R220) -/

def cmemBase (ctx lnum cl : Nat) : Nat := ((ctx * 8 + lnum) * 192 + cl) * 2 ^ 24

/-- The image a stream runs on: during a replacement the streams of the old layout keep its own. -/
def Layout.imgOf (l : Layout) (v : Slot) : Image :=
  match l.old with
  | some o => if 1024 ≤ v.station then o.1 else l.img
  | none => l.img

/-- Bytes of the station buffers of an image that lie in a cluster, up to and with station k. -/
def Layout.bufBytes (l : Layout) (im : Image) (cl k : Nat) : Nat :=
  sumNat ((im.stations.zipIdx.filter (fun p => p.2 ≤ k && clusterOf (stationCore l p.1) = cl)).map
    (fun p => p.1.bufTiles * tileBytes p.1.fmt))

/-- Bytes of cluster memory an image declares for a cluster. -/
def Layout.cmemBytes (l : Layout) (im : Image) (cl : Nat) : Nat :=
  if l.clusters.contains cl then (im.declAt (clusterCol cl - l.cx) (clusterRow cl - l.cy)).2 * 65536 else 0

/-- Bytes after the last station buffer: what CMEM offsets address. -/
def Layout.cmemRoom (l : Layout) (im : Image) (cl : Nat) : Nat := l.cmemBytes im cl - l.bufBytes im cl 1024

/-- A station's buffer lies within the declaration. -/
def Layout.bufFits (l : Layout) (cl k : Nat) : Bool := decide (l.bufBytes l.img cl k ≤ l.cmemBytes l.img cl)

/-- Descriptors declared for a cluster. -/
def Layout.descRoom (l : Layout) (cl : Nat) : Nat :=
  if l.clusters.contains cl then (l.img.declAt (clusterCol cl - l.cx) (clusterRow cl - l.cy)).1 else 0

/-! ### Requests (R248, Table 7.7) -/

/-- What a request over context addresses meets. -/
inductive Req where
  | ok
  | halt (cause addr : Nat)
  | fault (v : Verdict)
  | fetch (entry chip frame off len : Nat)
  deriving DecidableEq, Repr

/-- One piece of a request. -/
def State.reqPiece (s : State) (ctx : Nat) (p : Nat × Nat × Nat) : Req :=
  let addr := p.1 * blockBytes + p.2.1
  match s.touch ctx p.1 with
  | .unmapped => .halt 1 addr
  | .served _ _ => .ok
  | .peer i chip fr => if s.peerHas i p.2.1 p.2.2 then .ok else .fetch i chip fr p.2.1 p.2.2
  | .migrating _ => .halt 3 addr
  | .parked _ => .halt 2 addr
  | .busy _ => .halt 4 addr
  | .invalid r => .fault (invalidVerdict r addr)

/-- A request over several ranges: the first that is not served decides. -/
def State.reqRanges (s : State) (ctx : Nat) (rs : List (Nat × Nat)) : Req :=
  ((rs.flatMap (fun r => pieces r.1 r.2)).map (s.reqPiece ctx)).find? (fun a => a ≠ .ok) |>.getD .ok

/-! ### The next tile of a stream -/

/-- What a stream's next step is. -/
inductive Next where
  | tile (t : Tile) (reads : List (Nat × Nat)) (codes : List Nat) (ind : Bool) (pos : Nat × Nat × Nat)
  | skip (codes : List Nat) (pos : Nat × Nat × Nat)      -- nothing to deliver here
  | malformed (st entry : Nat)
  | req (r : Req)
  | starve                                                -- waits for indices
  | finished
  deriving DecidableEq, Repr

/-- A block-list entry (Table 7.4). -/
structure Entry where
  addr : Nat
  layout : Nat
  cmem : Bool
  rows : Nat
  cols : Nat
  stride : Nat
  repeatM1 : Nat
  scale : Nat
  ws : List Word
  deriving DecidableEq, Repr

def entryOf (ws : List Word) : Entry :=
  { addr := addr48 ws 0, layout := fld (word ws 1) 19 16, cmem := bit (word ws 1) 20, rows := wnat ws 2, cols := wnat ws 3,
    stride := wnat ws 4, repeatM1 := fld (word ws 5) 15 0, scale := addr48 ws 6, ws := ws }

/-- The status of a malformed entry for a descriptor; none where it is well formed (R225, R229). -/
def Entry.malformed (e : Entry) (d : List Word) : Option Nat :=
  let f := dFmt d
  let es := max 1 (fmtWidth f / 8)
  let scaled := decide (e.layout = 1) && decide (dScale d ≠ 0)
  (verdictOf [
    need (fld (word e.ws 1) 31 21 = 0 && fld (word e.ws 5) 31 16 = 0 && fld (word e.ws 7) 31 16 = 0 && decide (e.layout < 3))
      St.reservedField 0 0,
    need (e.layout ≠ 2 && (!e.cmem || fld (word e.ws 1) 15 0 = 0) &&
      decide (1 ≤ e.rows) && decide (e.rows ≤ 2 ^ 31) && decide (1 ≤ e.cols) && decide (e.cols ≤ 2 ^ 31) &&
      (if e.layout = 1 then decide (elemBytes f e.cols ≤ e.stride) && decide (e.stride % es = 0) && decide (e.addr % es = 0) && f ≠ 10
       else e.stride = 0) &&
      (scaled || (wnat e.ws 6 = 0 && fld (word e.ws 7) 15 0 = 0)) && !(dTranspose d && e.layout = 0))
      St.invalidParameter 0 0]).map (fun v => v.status)

/-- Rows and columns of the view, and of its tile grid (R229). -/
def Entry.view (e : Entry) (d : List Word) : Nat × Nat := if dTranspose d then (e.cols, e.rows) else (e.rows, e.cols)
def Entry.grid (e : Entry) (d : List Word) : Nat × Nat := (ceilDiv (e.view d).1 32, ceilDiv (e.view d).2 32)
/-- Tile k of the walk. -/
def Entry.tileAt (e : Entry) (d : List Word) (k : Nat) : Nat × Nat :=
  let g := e.grid d
  if bit (word d 9) 16 then (k % g.1, k / g.1) else (k / g.2, k % g.2)

/-- Valid rows and columns of a tile of the view. -/
def Entry.valid (e : Entry) (d : List Word) (tr tc : Nat) : Nat × Nat :=
  let v := e.view d
  (min 32 (v.1 - 32 * tr), min 32 (v.2 - 32 * tc))

/-- The rows of M a tile covers: address, first column's byte taken in, number of elements. -/
def Entry.mrows (e : Entry) (d : List Word) (tr tc : Nat) : List (Nat × Nat) :=
  let (vr, vc) := e.valid d tr tc
  let f := dFmt d
  let (r0, n, c0, m) := if dTranspose d then (32 * tc, vc, 32 * tr, vr) else (32 * tr, vr, 32 * tc, vc)
  (List.range n).map (fun i => (e.addr + (r0 + i) * e.stride + c0 * fmtWidth f / 8, m))

/-- The byte ranges a tile of stored layout 1 reads or writes: its elements, then its lines' scales. -/
def Entry.ranges (e : Entry) (d : List Word) (tr tc : Nat) : List (Nat × Nat) :=
  let f := dFmt d
  if e.layout = 0 then
    [(e.addr + (tr * (e.grid d).2 + tc) * tileBytes f, tileBytes f)]
  else
    (e.mrows d tr tc).map (fun p => (p.1, elemBytes f p.2)) ++
    (if dScale d = 0 then []
     else (List.range (e.valid d tr tc).1).map (fun r =>
      (e.scale + ((32 * tr + r) * (e.grid d).2 + tc) * scaleSize (dScale d), scaleSize (dScale d))))

/-- Element k of a run of packed elements. -/
def runElem (fmt : Nat) (bs : List Byte) (k : Nat) : Nat :=
  match fmtWidth fmt with
  | 4 => bits (bs.getD (k / 2) 0).toNat (4 * (k % 2) + 3) (4 * (k % 2))
  | 8 => (bs.getD k 0).toNat
  | 16 => leNat ((bs.drop (2 * k)).take 2)
  | _ => leNat ((bs.drop (4 * k)).take 4)

/-- A stored scale as a slot; a slot as a stored scale (R172). -/
def slotOfStored (enc n : Nat) : Nat := if enc = 1 then slotOfE8M0 n else if enc = 2 then slotOfBF16 n else scaleOne
def storedOfSlot (enc s : Nat) : Nat := if enc = 1 then e8m0OfSlot s else bf16OfSlot s

/-- The bytes of an input tile from the bytes its ranges hold, in order. -/
def Entry.tileData (e : Entry) (d : List Word) (tr tc : Nat) (bs : List (List Byte)) : List Byte :=
  let f := dFmt d
  if e.layout = 0 then bs.headD []
  else
    let (vr, vc) := e.valid d tr tc
    let n := (e.mrows d tr tc).length
    let rows := bs.take n
    let code (r c : Nat) : Nat :=
      if r < vr ∧ c < vc then (if dTranspose d then runElem f (rows.getD c []) r else runElem f (rows.getD r []) c) else 0
    let els := packElems f ((List.range 1024).map (fun i => code (i / 32) (i % 32)))
    if fmtScaled f then
      els ++ packScales ((List.range 32).map (fun r =>
        if r < vr ∧ dScale d ≠ 0 then slotOfStored (dScale d) (leNat (bs.getD (n + r) [])) else scaleOne))
    else els

/-- The position after tile k of an entry. -/
def Entry.after (e : Entry) (d : List Word) (pos : Nat × Nat × Nat) : Nat × Nat × Nat :=
  let g := e.grid d
  if pos.2.2 + 1 < g.1 * g.2 then (pos.1, pos.2.1, pos.2.2 + 1)
  else if pos.2.1 < e.repeatM1 then (pos.1, pos.2.1 + 1, 0)
  else (pos.1 + 1, 0, 0)

/-- The slot's cluster, by its key. -/
def keyCluster (key : Nat) : Nat := key / 64

/-- Bytes of ranges in a layout's cluster memory; an access beyond the declaration reads zeros and overflows. -/
def State.cmemRanges (s : State) (v : Slot) (cl : Nat) (rs : List (Nat × Nat)) : List (List Byte) × Bool :=
  match s.layoutOf v.ctx v.layout with
  | none => (rs.map (fun r => List.replicate r.2 0), true)
  | some l =>
    let im := l.imgOf v
    let room := l.cmemRoom im cl
    let past := rs.any (fun r => decide (room < r.1 + r.2))
    (rs.map (fun r => if room < r.1 + r.2 then List.replicate r.2 0
      else cellRead s.cmem (cmemBase v.ctx v.layout cl + l.bufBytes im cl 1024 + r.1) r.2), past)

/-- The shadows of a slot's command. -/
def State.slotShadows (s : State) (v : Slot) : Tbl Shadow :=
  match s.cmdOf v.fn v.q v.n with
  | some c => c.shadows
  | none => []

/-- Bytes of ranges of the context as the slot's command sees them (R266). -/
def State.ctxRanges (s : State) (v : Slot) (rs : List (Nat × Nat)) : List (List Byte) :=
  rs.map (fun r => s.readOwn v.ctx (s.slotShadows v) r.1 r.2)

/-- The near and bulk frames that serve ranges of the context for the slot's command, its own shadows where it has written: one for each
piece, with its context address. -/
def State.readFrames (s : State) (v : Slot) (rs : List (Nat × Nat)) : List (Nat × Nat) :=
  (rs.flatMap (fun r => pieces r.1 r.2)).filterMap (fun p =>
    let a := p.1 * blockBytes + p.2.1
    match (s.slotShadows v).find? (fun w => w.1 = p.1 && nbit w.2.mask (p.2.1 / 64)) with
    | some w => some (a, w.2.frame)
    | none => match s.touch v.ctx p.1 with
      | .served _ fid => some (a, fid)
      | _ => none)

/-- The list entry at a position. -/
def State.listEntry (s : State) (v : Slot) (i : Nat) : Entry :=
  entryOf (toWords (s.readOwn v.ctx (s.slotShadows v) (addr48 v.desc 8 + 32 * i) 32))

def Slot.pos (v : Slot) : Nat × Nat × Nat := (v.posEntry, v.posRepeat, v.posTile)

/-- What stands at a block list's position, before its tile is made: an entry, or what ends the look. -/
def State.blockEntry (s : State) (v : Slot) : Sum Entry Next :=
  if v.count ≤ v.posEntry then .inr .finished
  else
    match s.reqRanges v.ctx [(addr48 v.desc 8 + 32 * v.posEntry, 32)] with
    | .ok =>
      let e := s.listEntry v v.posEntry
      (match e.malformed v.desc with
      | some st => .inr (.malformed st v.posEntry)
      | none => .inl e)
    | r => .inr (.req r)

/-- The range of the list entry at a position, where its first tile takes it in. -/
def Slot.entryRead (v : Slot) : List (Nat × Nat) :=
  if v.posRepeat = 0 ∧ v.posTile = 0 then [(addr48 v.desc 8 + 32 * v.posEntry, 32)] else []

/-- The next tile of an input block list. -/
def State.nextBlock (s : State) (cl : Nat) (v : Slot) : Next :=
  match s.blockEntry v with
  | .inr x => x
  | .inl e =>
    let d := v.desc
    let (tr, tc) := e.tileAt d v.posTile
    let rs := e.ranges d tr tc
    let (vr, vc) := e.valid d tr tc
    let mk (data : List Byte) : Tile := { fmt := dFmt d, rowsM1 := vr - 1, colsM1 := vc - 1, data := data }
    if e.cmem then
      let (bs, past) := s.cmemRanges v cl rs
      .tile (mk (e.tileData d tr tc bs)) v.entryRead (if past then [2] else []) false (e.after d v.pos)
    else
      match s.reqRanges v.ctx rs with
      | .ok => .tile (mk (e.tileData d tr tc (s.ctxRanges v rs))) (v.entryRead ++ rs) [] false (e.after d v.pos)
      | r => .req r

/-! ### Gathers (R233 to R239) -/

def dTable (d : List Word) : Nat := addr48 d 6
def dIndexAddr (d : List Word) : Nat := addr48 d 4

/-- Output rows of a row gather. -/
def Slot.outRows (v : Slot) : Nat :=
  match dBag v.desc with
  | 1 => ceilDiv v.count (dBagWord v.desc)
  | 2 => dBagWord v.desc
  | _ => v.count

/-- The range of the index array that indices lo to hi - 1 take. -/
def Slot.indexRead (v : Slot) (lo hi : Nat) : List (Nat × Nat) :=
  if dIdxStation v.desc ∨ hi ≤ lo then [] else [(dIndexAddr v.desc + 4 * lo, 4 * (hi - lo))]

/-- Indices lo to hi - 1: what stands in the way, and the values. -/
def State.indicesOf (s : State) (v : Slot) (lo hi : Nat) : Sum (List Nat) Next :=
  if dIdxStation v.desc then
    if hi ≤ v.indices.length then .inl ((v.indices.drop lo).take (hi - lo)) else .inr .starve
  else
    match s.reqRanges v.ctx (v.indexRead lo hi) with
    | .ok => .inl ((List.range (hi - lo)).map (fun i =>
        leNat (s.readOwn v.ctx (s.slotShadows v) (dIndexAddr v.desc + 4 * (lo + i)) 4)))
    | r => .inr (.req r)

/-- The index ranges of output rows r0 to r1 - 1, with the index-bound overflow of bag offsets (R235, R236). -/
def State.bagRanges (s : State) (v : Slot) (r0 r1 : Nat) : Sum (List (Nat × Nat) × Bool) Next :=
  let d := v.desc
  match dBag d with
  | 1 => .inl ((List.range (r1 - r0)).map (fun i =>
      ((r0 + i) * dBagWord d, min ((r0 + i + 1) * dBagWord d) v.count)), false)
  | 2 =>
    let a := dIndexAddr d + wnat d 11 + 4 * r0
    (match s.reqRanges v.ctx [(a, 4 * (r1 - r0 + 1))] with
    | .ok =>
      let off (i : Nat) : Nat := leNat (s.readOwn v.ctx (s.slotShadows v) (a + 4 * i) 4)
      let badOff (i : Nat) : Bool := decide (off (i + 1) < off i) || decide (v.count < off (i + 1)) || decide (v.count < off i)
      .inl ((List.range (r1 - r0)).map (fun i => if badOff i then (0, 0) else (off i, off (i + 1))),
            (List.range (r1 - r0)).any badOff)
    | r => .inr (.req r))
  | _ => .inl ((List.range (r1 - r0)).map (fun i => (r0 + i, r0 + i + 1)), false)

/-- The byte ranges of column tile tc of a table row: elements, then the scale. -/
def rowRanges (d : List Word) (idx tc : Nat) : List (Nat × Nat) :=
  let f := dFmt d
  let row := dTable d + idx * wnat d 10
  let n := min 32 (dRowElems d - 32 * tc)
  (row + 32 * tc * fmtWidth f / 8, elemBytes f n) ::
  (if dScale d = 0 then []
   else [(row + elemBytes f (dRowElems d) + tc * scaleSize (dScale d), scaleSize (dScale d))])

/-- The codes and scale slot of a table row's column tile. -/
def rowCodes (d : List Word) (n : Nat) (bs : List (List Byte)) : List Nat × Nat :=
  ((List.range n).map (runElem (dFmt d) (bs.headD [])),
   if dScale d = 0 then scaleOne else slotOfStored (dScale d) (leNat (bs.getD 1 [])))

/-- One element with its scale as a term (R237, R179). -/
def bagTerm (fmt code slot : Nat) : Int × Nat × Bool :=
  match decodeEl fmt code with
  | .nan => (0, 3, false)
  | .inf neg => (0, if neg then 2 else 1, false)
  | .fin neg m e =>
    if fmtScaled fmt then
      match scaleVal slot with
      | none => (0, 3, false)
      | some (sm, se) => groupTerm false [⟨(if neg then -1 else 1) * (m * sm : Nat), e + se, 0⟩]
    else groupTerm false [⟨(if neg then -1 else 1) * (m : Int), e, 0⟩]

/-- The exact sum of a bag's elements in one column, rounded once (R237). -/
def bagSum (fmt outFmt : Nat) (tz : Bool) (els : List (Nat × Nat)) : Nat × Bool :=
  let (l, o) := els.foldl (fun (x : Lane × Bool) e =>
    let (t, f, ov) := bagTerm fmt e.1 e.2
    let (l', o') := accAdd x.1 t f
    (l', x.2 || ov || o')) ({}, false)
  let (c, o') := roundOut outFmt tz l
  (c, o || o')

/-- The next tile of a row gather. `outFmt`: the station's format. -/
def State.nextRows (s : State) (v : Slot) (outFmt : Nat) (tz : Bool) : Next :=
  let d := v.desc
  let total := v.outRows
  if total ≤ v.posEntry then .finished
  else
    let r0 := v.posEntry
    let r1 := min total (r0 + 32)
    let tc := v.posTile
    let cols := min 32 (dRowElems d - 32 * tc)
    let pos : Nat × Nat × Nat := if tc + 1 < ceilDiv (dRowElems d) 32 then (r0, 0, tc + 1) else (r0 + 32, 0, 0)
    match s.bagRanges v r0 r1 with
    | .inr x => x
    | .inl (bags, offBad) =>
      let lo := bags.foldl (fun a b => if b.1 < b.2 then min a b.1 else a) v.count
      let hi := bags.foldl (fun a b => if b.1 < b.2 then max a b.2 else a) lo
      match s.indicesOf v lo hi with
      | .inr x => x
      | .inl idx =>
        let at' (b : Nat × Nat) : List Nat := (List.range (b.2 - b.1)).map (fun i => idx.getD (b.1 + i - lo) 0)
        let isNull (i : Nat) : Bool := i = 0xFFFFFFFF
        let past (i : Nat) : Bool := !isNull i && decide (wnat d 8 ≤ i)
        let used := bags.flatMap at'
        let good := (used.filter (fun i => !isNull i && !past i))
        let rs := good.flatMap (fun i => rowRanges d i tc)
        let own := if tc = 0 then v.indexRead lo hi ++ (if dBag d = 2 then [(dIndexAddr d + wnat d 11 + 4 * r0, 4 * (r1 - r0 + 1))] else []) else []
        match s.reqRanges v.ctx rs with
        | .ok =>
          let row (i : Nat) : List Nat × Nat :=
            if isNull i ∨ past i then (List.replicate cols 0, scaleOne)
            else rowCodes d cols (s.ctxRanges v (rowRanges d i tc))
          let codes := (if offBad || used.any past then [5] else [])
          let mk (f : Nat) (lines : List (List Nat × Nat)) : Tile :=
            let pad := lines.map (fun l => (l.1 ++ List.replicate (32 - l.1.length) 0, l.2)) ++
              List.replicate (32 - lines.length) (List.replicate 32 0, scaleOne)
            let els := packElems f (pad.flatMap (fun l => l.1))
            { fmt := f, rowsM1 := r1 - r0 - 1, colsM1 := cols - 1,
              data := if fmtScaled f then els ++ packScales (pad.map (fun l => l.2)) else els }
          if dBag d = 0 then
            .tile (mk (dFmt d) (bags.map (fun b => row ((at' b).headD 0xFFFFFFFF)))) (own ++ rs) codes false pos
          else
            let sums := bags.map (fun b =>
              let lines := ((at' b).filter (fun i => !isNull i && !past i)).map row
              (List.range cols).map (fun c => bagSum (dFmt d) outFmt tz (lines.map (fun l => (l.1.getD c 0, l.2)))))
            .tile (mk outFmt (sums.map (fun l => (l.map (fun x => x.1), scaleOne)))) (own ++ rs) codes
              (sums.any (fun l => l.any (fun x => x.2))) pos
        | r => .req r

/-- The next tile of a page gather. -/
def State.nextPage (s : State) (v : Slot) : Next :=
  let d := v.desc
  let i := v.posEntry
  if v.count ≤ i then .finished
  else
    match s.indicesOf v i (i + 1) with
    | .inr x => x
    | .inl idx =>
      let p := idx.headD 0xFFFFFFFF
      if p = 0xFFFFFFFF then .skip [] (i + 1, 0, 0)
      else if dBagWord d = 0 then .skip (if wnat d 8 ≤ p then [5] else []) (i + 1, 0, 0)
      else
        let f := dFmt d
        let pos : Nat × Nat × Nat := if v.posTile + 1 < dBagWord d then (i, 0, v.posTile + 1) else (i + 1, 0, 0)
        let mk (data : List Byte) : Tile := { fmt := f, rowsM1 := 31, colsM1 := 31, data := data }
        let own := if v.posTile = 0 then v.indexRead i (i + 1) else []
        if wnat d 8 ≤ p then .tile (mk []) own [5] false pos
        else
          let rs := [(dTable d + p * 32768 + dRowElems d * 64 + v.posTile * tileBytes f, tileBytes f)]
          match s.reqRanges v.ctx rs with
          | .ok => .tile (mk ((s.ctxRanges v rs).headD [])) (own ++ rs) [] false pos
          | r => .req r

/-- The next tile of a descriptor's input stream. -/
def State.nextTile (s : State) (key : Nat) (v : Slot) : Next :=
  let outFmt := match s.layoutOf v.ctx v.layout with
    | some l => (l.stationOf v.station).elim (dFmt v.desc) (fun st => st.fmt)
    | none => dFmt v.desc
  let tz := match s.cmdOf v.fn v.q v.n with
    | some c => roundTzOf c.words
    | none => false
  if dIndexed v.desc then (if dMode v.desc = 0 then s.nextRows v outFmt tz else s.nextPage v)
  else s.nextBlock (keyCluster key) v

/-! ### Output block lists (R162, R227, R230) -/

/-- The writes an output tile makes: address and bytes. -/
def Entry.writes (e : Entry) (d : List Word) (tr tc : Nat) (t : Tile) (old : Nat → Byte) : List (Nat × List Byte) :=
  let f := dFmt d
  if e.layout = 0 then [((e.ranges d tr tc).headD (0, 0)).1 |> fun a => (a, t.flits)]
  else
    let (vr, _) := e.valid d tr tc
    let code (r c : Nat) : Nat := elemCode f t.data (32 * r + c)
    let els := (e.mrows d tr tc).zipIdx.map (fun (p, i) =>
      let cs := (List.range p.2).map (fun k => if dTranspose d then code k i else code i k)
      if fmtWidth f = 4 then
        let last := p.1 + p.2 / 2
        (p.1, nibbleBytes (if p.2 % 2 = 1 then cs ++ [bits (old last).toNat 7 4] else cs))
      else (p.1, cs.flatMap (fun c => leBytes (fmtWidth f / 8) c)))
    els ++ (if dScale d = 0 then []
      else (List.range vr).map (fun r =>
        (e.scale + ((32 * tr + r) * (e.grid d).2 + tc) * scaleSize (dScale d),
         leBytes (scaleSize (dScale d)) (storedOfSlot (dScale d) (scaleSlot f t.data r)))))

/-! ### Halts and resumes (R248 to R252, Table 7.9) -/

/-- The next halt number of a context. -/
def State.nextHalt (s : State) (ctx : Nat) : Nat :=
  let held := s.usedSlots.filterMap (fun p => match p.2.state with
    | .halted _ id => if p.2.ctx = ctx then some id else none
    | _ => none)
  (((List.range 65536).map (fun i => ((s.ctxOf ctx).haltCtr + 1 + i) % 65536)).find?
    (fun d => d ≠ 0 && !held.contains d)).getD 0

/-- The position of the first tile not yet delivered. -/
def Slot.firstPos (v : Slot) : Nat × Nat × Nat := v.marks.headD v.pos

/-- A fault record. -/
def State.faultRecord (s : State) (key : Nat) (v : Slot) (cause id addr : Nat) : List Word :=
  let cl := keyCluster key
  let tag := match s.cmdOf v.fn v.q v.n with
    | some c => tagOf c.words
    | none => 0
  let stn := if v.toCmem then 0x3FF else v.station % 1024
  let (e, r, k) := v.firstPos
  [w32 (cause + b2n (cause ≠ 1) * 2 ^ 8 + id * 2 ^ 16), w32 (v.ctx + v.layout * 2 ^ 8 + stn * 2 ^ 16),
   w32 (cl + key % 64 * 2 ^ 8 + v.q * 2 ^ 16), w32 tag, w32 addr, w32 (addr / 2 ^ 32 % 2 ^ 16), w32 e, w32 (r % 65536), w32 k,
   w32 v.delivered, w32 cl] ++ w64 (s.islCount cl) ++ [0, 0, 0]

/-- The fault ring of a partition has room. -/
def Fn.ringRoom (f : Fn) : Bool := f.frEnable && decide ((f.frTail + 1) % (f.frSizeM1 + 1) ≠ f.frHead)

/-- A stream halts: it stays where it is, a parked block begins to come in, and its slot holds a record for its partition's ring in place
of an older one; a full or disabled ring is a cause (R248, R251, R425, R426). -/
def State.haltSlot (s : State) (key : Nat) (v : Slot) (cause addr : Nat) : State :=
  let id := s.nextHalt v.ctx
  let p := (s.ctxOf v.ctx).part
  let w := { v with state := .halted cause id, haltAddr := addr }
  let s1 := ({ s with slots := tset none s.slots key (some w) }.modCtx v.ctx (fun c => { c with haltCtr := id })).remark key
  let s2 := s1.modFn p (fun f => { f with frWait := f.frWait.filter (fun r => r.1 ≠ key) ++ [(key, s.faultRecord key v cause id addr)] })
  let s3 := match s.touch v.ctx (addr / blockBytes) with
    | .parked i => s2.bringIn i 0
    | _ => s2
  if (s.fnOf p).ringRoom then s3 else s3.cause p 3

/-- A halted stream resumes. -/
def State.resumeSlot (s : State) (key : Nat) : State :=
  (s.modSlot (key / 64) (key % 64) (fun (v : Slot) => if v.state.isHalted then { v with state := .running } else v)).remark key

/-- FAULT_RECORD_WRITE: a halt's record goes to the ring at FR_TAIL. -/
def execFaultRecordWrite (cl k : Nat) (s : State) : Out :=
  match s.cp.fns.findSome? (fun p => (p.2.frWait.find? (fun r => r.1 = cl * 64 + k)).map (fun r => (p.1, r.2))) with
  | none => .next s
  | some (p, ws) =>
      let f := s.fnOf p
      onlyIf f.ringRoom s
        (let a := f.frBase.toNat + 64 * f.frTail
         let s2 := s.modFn p (fun x => { x with
           frTail := (x.frTail + 1) % (x.frSizeM1 + 1), frWait := x.frWait.filter (fun r => r.1 ≠ cl * 64 + k) })
         { s2 with host := { s2.host with mem := cellWrite s2.host.mem a (wordBytes ws) } }.cause p 2)

/-- STREAM_AUTO_RESUME: the tier machinery resumes a stream whose block is served again, or has become invalid. -/
def execStreamAutoResume (cl k : Nat) (s : State) : Out :=
  match s.slotOf cl k with
  | none => .next s
  | some v =>
    match v.state with
    | .halted cause _ =>
      let ready := match s.touch v.ctx (v.haltAddr / blockBytes) with
        | .migrating _ => false
        | .parked _ => false
        | .busy _ => false
        | _ => true
      onlyIf (decide (2 ≤ cause) && ready) s (s.resumeSlot (cl * 64 + k))
    | _ => .next s

/-- STREAM_RESUME: its effect lies in its atomic step. -/
def execStreamResume (f q n : Nat) (s : State) : Out :=
  s.work f q n 0x32 (fun c =>
    s.checked f q n c (reservedCheck c.eff [(2, 0xFFFF)] ++ [param (fld (word c.eff 2) 15 0 ≠ 0) 2]) (s.done f q n 0 0))

/-- The stream of a context halted under a number, if any, resumes: 1 where there is one (R252). -/
def State.resumeHalt (s : State) (ctx id : Nat) : State × Nat :=
  match s.usedSlots.find? (fun p => p.2.ctx = ctx && (match p.2.state with
      | .halted _ k => k = id
      | _ => false)) with
  | some (key, _) => (s.resumeSlot key, 1)
  | none => (s, 0)

/-! ### Watchdogs (R247, R258) -/

/-- WEIGHT_LATE_TIMEOUT: a weight stream has stayed stalled, and not halted, for the watchdog period. -/
def execWeightLateTimeout (cl k : Nat) (s : State) : Out :=
  match s.slotOf cl k with
  | none => .next s
  | some v =>
    onlyIf (v.stalled && dWeight v.desc && !v.state.isHalted && decide (v.state ≠ .waiting)) s
      (s.teardown v.ctx ⟨St.weightLate, dLayer v.desc, 0⟩ (hitOne v.fn v.q v.n))

/-- A member's broadcast load waits for pieces, timed as a halted stream is (R378). -/
def State.pieceWait (s : State) (c : Cmd) : Bool :=
  c.isRunning && c.op = 0x62 && (match c.work with
    | .broadcast _ _ _ reader _ _ _ false => (s.jobOf c.ctx).all (fun j => j.rank ≠ reader)
    | _ => false)

/-- What the watchdog of a context times in a command: a stream of it has halted, it waits on a block, or for pieces (R247, R258). -/
def State.watched (s : State) (f q : Nat) (c : Cmd) : Bool :=
  (s.cmdSlots f q c.n).any (fun p => p.2.state.isHalted) || (s.waitingOn c).isSome || s.pieceWait c

/-- WATCHDOG_TIMEOUT: a command of the context has been held up for the watchdog period. -/
def execWatchdogTimeout (ctx : Nat) (s : State) : Out :=
  let hit (f q : Nat) (c : Cmd) : Bool := namesContext c.words && c.ctx = ctx && s.watched f q c
  onlyIf (s.allCmds.any (fun x => hit x.1 x.2.1 x.2.2)) s (s.teardown ctx ⟨St.watchdog, 0, 0⟩ hit)

/-! ### Region gating (R32, R33, R46) -/

def regionClusters (r : Nat) : List Nat := (List.range 12).map (fun i => 12 * r + i)

/-- The cluster a SELF_TEST tests, or that holds the core it tests (Table 15.13). -/
def testCluster (ws : List Word) : Nat :=
  if bit (word ws 2) 0 then fld (word ws 2) 23 12 else clusterOf (fld (word ws 2) 23 12)

/-- A running command may need a region: it places a layout in a partition that owns a cluster of it, or tests one of its clusters. -/
def State.regionWanted (s : State) (r : Nat) : Bool :=
  s.allCmds.any (fun x => x.2.2.isRunning && (((x.2.2.op = 0x13 || x.2.2.op = 0x16) &&
    (regionClusters r).any (fun cl => s.clusterOwner cl = x.1)) ||
    (x.2.2.op = 0x80 && regionOfCluster (testCluster x.2.2.eff) = r)))

/-- REGION_UNGATE: a gated region a command needs has powered up; the islands of its clusters that are not fenced run. -/
def execRegionUngate (r : Nat) (s : State) : Out :=
  onlyIf (s.power.gated.contains r && s.regionWanted r) s
    ((regionClusters r).foldl (fun t cl => if t.clusterFenced cl then t else t.restartCluster cl)
      { s with power := { s.power with gated := s.power.gated.erase r } })

/-- REGION_GATE: a region no layout uses loses the power of its cores; their islands stop and hold their counts. What a core's counters and
its SRAM hold afterwards is open: the model keeps the two error counters and reads the SRAM as zeros (log entry 160). -/
def execRegionGate (r : Nat) (s : State) : Out :=
  let cls := regionClusters r
  let used := s.allLayouts.any (fun l => l.2.2.clusters.any (fun cl => regionOfCluster cl = r))
  onlyIf (decide (r < 16) && !s.power.gated.contains r && !used && !s.regionWanted r && decide (s.mgmt.boot = .up)) s
    (let s1 := cls.foldl (fun t cl => t.stopCluster cl) s
     let s2 := (cls.flatMap coresOfCluster).foldl (fun t c =>
       { t.modCore c (fun k => { fenced := k.fenced, correctable := k.correctable, unrouted := k.unrouted }) with
         sram := cellClear t.sram (c * 2 ^ 18) (2 ^ 18) }) s1
     { s2 with power := { s2.power with gated := insertAsc s2.power.gated r } })

end Sys2Proof.Machine
end

