-- ==== Sys2Proof/Machine/Runs.lean ====
section
/-! DEFINITION. RUN and STREAM_LOAD, the bindings they make, and waiting bindings (R222 to R225, R232, R253). -/
namespace Sys2Proof.Machine

/-- A binding a command is to make. -/
structure Bind where
  idx : Nat
  station : Nat
  cluster : Nat
  desc : List Word
  count : Nat
  deriving DecidableEq, Repr

/-- What reading a command's bindings gives. -/
inductive Plan where
  | wait (entry : Nat)
  | fetch (entry chip frame off len : Nat)
  | bad (v : Verdict)
  | ok (binds : List Bind) (ovs : List Overflow)
  deriving DecidableEq, Repr

/-- A check of a range in a plan: none where it is ready. -/
def accessPlan : Access → Option Plan
  | .ready => none
  | .wait i => some (.wait i)
  | .fetch i c fr o l => some (.fetch i c fr o l)
  | .bad v => some (.bad v)

/-- A station is an output station in the job's station map (R409). -/
def State.mapped (s : State) (ctx lnum stn : Nat) : Option (MapEntry × Nat) :=
  match s.jobOf ctx with
  | some j => j.map.zipIdx.find? (fun p => p.1.layout = lnum && p.1.station = stn)
  | none => none

/-- The overflow of a binding that is not made, if any: its buffer lies beyond the declaration, its format differs from
the station's, or the station is mapped. -/
def State.bindOverflow (s : State) (ctx lnum : Nat) (l : Layout) (b : Bind) (st : Station) : Option Overflow :=
  let fmtOk := if dIndexed b.desc && dMode b.desc = 0 && dBag b.desc ≠ 0 then decide (5 ≤ st.fmt) && decide (st.fmt ≤ 7)
    else dFmt b.desc = st.fmt
  if !l.bufFits b.cluster b.station then some ⟨lnum, b.station, 0xFFFF, 2, 0⟩
  else if !fmtOk ∨ (st.out ∧ (s.mapped ctx lnum b.station).isSome) then some ⟨lnum, b.station, 0xFFFF, 4, 0⟩
  else none

/-- The count of a descriptor: COUNT, or the shape word it names (R234). -/
def State.readCount (s : State) (ctx : Nat) (d : List Word) : Nat :=
  if dCountInd d then leNat (s.readCtx ctx (addr48 d 2) 4) else wnat d 1

/-- One entry of a binding list (Table 7.1), read and checked. -/
def State.planEntry (s : State) (ctx : Nat) (l : Layout) (i : Nat) (w0 w1 : Word) : Plan ⊕ Bind :=
  let stn := fld w1 25 16
  let a := w0.toNat + fld w1 15 0 * 2 ^ 32
  match verdictOf [dres i (fld w1 31 26 = 0), dpar i (decide (a % 64 = 0)), dpar i (decide (stn < l.img.stations.length))] with
  | some v => .inl (.bad v)
  | none =>
    match accessPlan (s.access ctx (0x100 + i) a 64 true) with
    | some p => .inl p
    | none =>
      let d := toWords (s.readCtx ctx a 64)
      let st := l.img.stations.getD stn {}
      let idx := !(dIndexed d && dIdxStation d) || (l.img.stations[wnat d 4]?).any (fun x => x.out)
      match verdictOf (descChecks i d false st.out stn ++ [dpar i idx]) with
      | some v => .inl (.bad v)
      | none =>
        match (if dCountInd d then accessPlan (s.access ctx (0x100 + i) (addr48 d 2) 4 true) else none) with
        | some p => .inl p
        | none =>
          let k := s.readCount ctx d
          if k = 0 ∨ 2 ^ 31 < k then .inl (.bad ⟨St.shapeInvalid, 0x100 + i, k⟩)
          else .inr ⟨i, stn, clusterOf (stationCore l st), d, k⟩

/-- Bindings beyond the descriptors a cluster declares overflow (code 0x03); the answer is those made and those not. -/
def splitDescs (lnum : Nat) (l : Layout) (bs : List Bind) : List Bind × List Overflow :=
  bs.foldl (fun (x : List Bind × List Overflow) b =>
    if (x.1.filter (fun y => y.cluster = b.cluster)).length < l.descRoom b.cluster then (x.1 ++ [b], x.2)
    else (x.1, x.2 ++ [⟨lnum, b.station, 0xFFFF, 3, 0⟩])) ([], [])

/-- What reading the binding list of a RUN gives. -/
def State.runPlan (s : State) (c : Cmd) (l : Layout) : Plan :=
  let ws := c.eff
  let n := fld (word ws 5) 10 0
  let lnum := fld (word ws 2) 2 0
  match accessPlan (s.access c.ctx 3 (addr48 ws 3) (8 * n) true) with
  | some p => p
  | none =>
    let list := toWords (s.readCtx c.ctx (addr48 ws 3) (8 * n))
    let es := (List.range n).map (fun i => s.planEntry c.ctx l i (word list (2 * i)) (word list (2 * i + 1)))
    let plans := es.filterMap (fun e => match e with
      | .inl p => some p
      | .inr _ => none)
    match plans.find? (fun p => match p with
      | .bad _ => false
      | _ => true) with
    | some p => p
    | none =>
      match pickVerdict (plans.filterMap (fun p => match p with
        | .bad v => some v
        | _ => none)) with
      | some v => .bad v
      | none =>
        let bs := es.filterMap (fun e => match e with
          | .inl _ => none
          | .inr b => some b)
        let ov (b : Bind) : Option Overflow := s.bindOverflow c.ctx lnum l b (l.img.stations.getD b.station {})
        let (made, past) := splitDescs lnum l (bs.filter (fun b => (ov b).isNone))
        .ok made (bs.filterMap ov ++ past)

/-- The cluster of a STREAM_LOAD. -/
def loadCluster (l : Layout) (ws : List Word) : Nat := clusterAtGrid (l.cx + fld (word ws 5) 3 0) (l.cy + fld (word ws 5) 7 4)

/-- What reading the descriptor of a STREAM_LOAD gives. -/
def State.loadPlan (s : State) (c : Cmd) (l : Layout) : Plan :=
  let ws := c.eff
  let lnum := fld (word ws 2) 2 0
  let a := addr48 ws 3
  match accessPlan (s.access c.ctx 3 a 64 true) with
  | some p => p
  | none =>
    let d := toWords (s.readCtx c.ctx a 64)
    match verdictOf (descChecks 0 d true false 0x3FF) with
    | some v => .bad v
    | none =>
      match (if dCountInd d then accessPlan (s.access c.ctx 0x100 (addr48 d 2) 4 true) else none) with
      | some p => p
      | none =>
        let k := s.readCount c.ctx d
        if k = 0 ∨ 2 ^ 31 < k then .bad ⟨St.shapeInvalid, 0x100, k⟩
        else
          let b : Bind := ⟨0, 0x3FF, loadCluster l ws, d, k⟩
          let (made, past) := splitDescs lnum l [b]
          .ok made past

/-! ### Slots -/

/-- Descriptor slots a layout uses in a cluster. -/
def State.slotsUsed (s : State) (ctx lnum cl : Nat) : Nat :=
  (s.usedSlots.filter (fun p => p.1 / 64 = cl && p.2.ctx = ctx && p.2.layout = lnum)).length

/-- Every cluster of the bindings has that many declared slots free. -/
def State.slotsRoom (s : State) (ctx lnum : Nat) (l : Layout) (bs : List Bind) : Bool :=
  bs.all (fun b => decide (s.slotsUsed ctx lnum b.cluster + (bs.filter (fun x => x.cluster = b.cluster)).length ≤ l.descRoom b.cluster))

/-- A station of a layout has a binding, or one that waits. -/
def State.stationBusy (s : State) (ctx lnum stn : Nat) : Bool :=
  s.usedSlots.any (fun p => p.2.ctx = ctx && p.2.layout = lnum && p.2.station = stn && !p.2.toCmem)

/-- A slot is loaded with a stream: bound at once, or waiting where its station has a binding (R223). -/
def State.loadSlot (s : State) (cl : Nat) (v : Slot) : State :=
  match firstBelow 64 (fun k => (s.slotOf cl k).isNone) with
  | none => s
  | some k =>
    let busy := !v.toCmem && s.stationBusy v.ctx v.layout v.station
    (s.setSlot cl k (some { v with state := if busy then .waiting else .running })).remark (cl * 64 + k)

/-- The slot of a binding of a command. -/
def Bind.slot (b : Bind) (f q : Nat) (c : Cmd) (lnum : Nat) : Slot :=
  { fn := f, q := q, n := c.n, bind := b.idx, ctx := c.ctx, layout := lnum, station := b.station, order := c.order,
    desc := b.desc, count := b.count, deadline := deadlineOf c.words }

/-- The bindings of a plan are made; what could not be made counts as overflows the command met. -/
def State.makeBinds (s : State) (f q : Nat) (c : Cmd) (lnum : Nat) (bs : List Bind) (ovs : List Overflow) : State :=
  let s1 := bs.foldl (fun t b => t.loadSlot b.cluster (b.slot f q c lnum)) s
  (s1.modCmd f q c.n (fun x => { x with overflows := x.overflows ++ ovs })).setWork f q c.n (.streams bs.length 0)

/-- A command whose streams have all ended, and that met no overflow and no malformed entry, finishes. -/
def State.streamsDone (s : State) (f q : Nat) (c : Cmd) : Bool :=
  (s.cmdSlots f q c.n).isEmpty && c.overflows.isEmpty && c.malformed.isEmpty

/-- What a RUN or a STREAM_LOAD reads at its start: its list, its descriptors, and the shape words they name. -/
def State.planReads (s : State) (c : Cmd) : List (Nat × Nat) :=
  let a := addr48 c.eff 3
  let descs := if c.op = 0x31 then [a] else
    (List.range (fld (word c.eff 5) 10 0)).map (fun i => addr48 (toWords (s.readCtx c.ctx (a + 8 * i) 8)) 0)
  (if c.op = 0x31 then [] else [(a, 8 * fld (word c.eff 5) 10 0)]) ++ descs.flatMap (fun x =>
    let d := toWords (s.readCtx c.ctx x 64)
    (x, 64) :: (if dCountInd d then [(addr48 d 2, 4)] else []))

/-- A plan goes on. -/
def State.withPlan (s : State) (f q : Nat) (c : Cmd) (lnum : Nat) (l : Layout) (p : Plan) : State :=
  match p with
  | .wait i => s.awaitBlock f q c.n i 0
  | .fetch i ch fr o len => s.fetchPeer c.ctx i ch fr o len
  | .bad v => s.endCmd f q c.n (addrVerdict c.words c.eff v)
  | .ok bs ovs => if s.slotsRoom c.ctx lnum l bs then (s.makeBinds f q c lnum bs ovs).countReads 0 c.ctx (s.planReads c) else s

def execRun (f q n : Nat) (errs : List MemErr) (s0 : State) : Out :=
  s0.withErrs f q n 0x30 errs (fun s => s.work f q n 0x30 (fun c =>
    let ws := c.eff
    let lnum := fld (word ws 2) 2 0
    match c.work with
    | .streams total out => if s.streamsDone f q c then s.done f q n total out else s
    | _ =>
      s.checked f q n c (reservedCheck ws [(2, 7), (3, 0xFFFFFFFF), (4, 0xFFFF), (5, 0x7FF)] ++
          [param (s.layoutOf c.ctx lnum).isSome 2, param (wnat ws 3 % 64 = 0) 3,
           param (decide (1 ≤ fld (word ws 5) 10 0) && decide (fld (word ws 5) 10 0 ≤ 1024)) 5])
        (match s.layoutOf c.ctx lnum with
         | some l => s.withPlan f q c lnum l (s.runPlan c l)
         | none => s)))

def execStreamLoad (f q n : Nat) (errs : List MemErr) (s0 : State) : Out :=
  s0.withErrs f q n 0x31 errs (fun s => s.work f q n 0x31 (fun c =>
    let ws := c.eff
    let lnum := fld (word ws 2) 2 0
    match c.work with
    | .streams _ out => if s.streamsDone f q c then s.done f q n out 0 else s
    | _ =>
      let inRect := match s.layoutOf c.ctx lnum with
        | some l => decide (fld (word ws 5) 3 0 < l.img.rectW) && decide (fld (word ws 5) 7 4 < l.img.rectH)
        | none => true
      s.checked f q n c (reservedCheck ws [(2, 7), (3, 0xFFFFFFFF), (4, 0xFFFF), (5, 0xFF)] ++
          [param (s.layoutOf c.ctx lnum).isSome 2, param (wnat ws 3 % 64 = 0) 3, param inRect 5])
        (match s.layoutOf c.ctx lnum with
         | some l => s.withPlan f q c lnum l (s.loadPlan c l)
         | none => s)))

/-! ### Waiting bindings and run-ahead (R223, R244, R245) -/

/-- No other slot on the station comes before this one. -/
def State.nextBinding (s : State) (key : Nat) (v : Slot) : Bool :=
  s.usedSlots.all (fun p => p.1 = key || p.2.toCmem || !(p.2.ctx = v.ctx && p.2.layout = v.layout && p.2.station = v.station) ||
    (decide (p.2.state = .waiting) && (decide (v.order < p.2.order) || (decide (v.order = p.2.order) && decide (v.bind < p.2.bind)))))

/-- BINDING_TAKE_EFFECT: the earlier binding has ended and the next in start order takes its place, with what it fetched
ahead. -/
def execBindingTakeEffect (cl k : Nat) (s : State) : Out :=
  match s.slotOf cl k with
  | none => .next s
  | some v =>
    onlyIf (decide (v.state = .waiting) && s.nextBinding (cl * 64 + k) v) s
      ((((s.modSlot cl k (fun x => { x with state := .running, ahead := [] })).modLayout v.ctx v.layout (fun l =>
        { l with buffers := tmod [] l.buffers v.station (fun b => b ++ v.ahead.map (fun p => { p.1 with own := some (v.fn, v.q, v.n) })) }))).remark (cl * 64 + k))

/-- A block of a context lies elsewhere than it did in an earlier state, or nowhere. -/
def State.movedSince (s old : State) (ctx blk : Nat) : Bool :=
  let p := (s.ctxOf ctx).part
  let place (t : State) : Option (Nat × Nat × Nat × Nat) := (t.bmFind p ctx blk).map (fun x => (x.1, x.2.tier, x.2.loc, x.2.chip))
  decide (place s ≠ place old)

/-- A stream goes back to its k-th tile requested and not yet delivered. -/
def Slot.backTo (v : Slot) (k : Nat) : Slot :=
  match v.marks[k]? with
  | some m => { v with marks := v.marks.take k, posEntry := m.1, posRepeat := m.2.1, posTile := m.2.2, inflight := [],
                       state := if v.state = .ended then .running else v.state }
  | none => v

/-- Tiles fetched ahead and not yet sent whose blocks a commit has replaced since `old` are discarded, with what their stream fetched
behind them, and will be fetched again (R245). -/
def State.dropAhead (s old : State) : State :=
  s.usedSlots.foldl (fun t p =>
    let v := p.2
    let stale (x : Tile) : Bool := x.early.any (s.movedSince old v.ctx)
    if v.state = .waiting then
      (match v.ahead.findIdx? (fun x => stale x.1) with
       | some k => { t with slots := tset none t.slots p.1 (some { v.backTo k with ahead := v.ahead.take k }) }
       | none => t)
    else if v.isOut ∨ v.toCmem then t
    else
      match s.layoutOf v.ctx v.layout with
      | none => t
      | some l =>
        let mine (x : Tile) : Bool := decide (x.own = some (v.fn, v.q, v.n))
        let b := tget [] l.buffers v.station
        match (b.filter mine).findIdx? stale with
        | some k =>
          let gone := (b.filter mine).drop k
          ({ t with slots := tset none t.slots p.1 (some (v.backTo k)) }.modLayout v.ctx v.layout (fun y => { y with
            buffers := tset [] y.buffers v.station (b.filter (fun x => !gone.contains x)) })).remark p.1
        | none => t) s

/-- No command of the queue up to this one that has not started carries DEP or INDIRECT. -/
def State.aheadAllowed (s : State) (f q n : Nat) : Bool :=
  (s.queueOf f q).window.all (fun c => !(c.n ≤ n && c.phase = .fetched && (depOf c.words || indirectOf c.words)))

/-- RUN_AHEAD_REQUEST: a waiting input binding fetches one tile ahead, while the station's buffer has a free slot; a
request that would halt or fault is dropped. -/
def execRunAheadRequest (cl k : Nat) (s : State) : Out :=
  match s.slotOf cl k with
  | none => .next s
  | some v =>
    let key := cl * 64 + k
    let busy := match s.boundSlot v.ctx v.layout v.station with
      | some p => p.2.inflight.length
      | none => 0
    onlyIf (decide (v.state = .waiting) && !v.isOut && !dCountInd v.desc && !(dIndexed v.desc && dIdxStation v.desc) &&
        decide (v.src = .descriptor) && s.aheadAllowed v.fn v.q v.n &&
        decide (s.bufTiles v + busy + v.ahead.length < s.bufCap v)) s
      (match s.nextTile key v with
       | .tile t rs [] false pos =>
         let reads := s.readFrames v rs
         let early := (reads.map (fun r => r.1 / blockBytes)).eraseDups
         (s.modSlot cl k (fun x => { x with ahead := x.ahead ++ [({ t with early := early }, reads)], marks := x.marks ++ [x.pos],
                                             posEntry := pos.1, posRepeat := pos.2.1, posTile := pos.2.2 })).countReads (regionOfCluster cl) v.ctx rs
       | _ => s)

end Sys2Proof.Machine
end

