-- ==== Sys2Proof/Machine/Tiers.lean ====
section
/-! DEFINITION. Tier and memory commands, entry changes, frames, migration, patrol scrub and recall deadlines (chapter 8). -/
namespace Sys2Proof.Machine

/-! ### Block ranges of commands (Table 8.8) -/

/-- ADDR in words 2 and 3 and COUNT in word 4 of a block command. -/
def bwFirst (ws : List Word) : Nat := addr48 ws 2 / blockBytes
def bwCount (ws : List Word) : Nat := fld (word ws 4) 16 0
/-- Words 2 to 4 of a block command. -/
def blockChecks (ws : List Word) : List Check :=
  [param (decide (addr48 ws 2 % blockBytes = 0)) 2,
   param (decide (1 ≤ bwCount ws) && decide (bwCount ws ≤ 65536) && decide (bwFirst ws + bwCount ws ≤ 2 ^ 30)) 4]
/-- No block of the range lies in the context's pool (R291). -/
def State.notPool (s : State) (ctx : Nat) (ws : List Word) : Check :=
  param (!s.inPool ctx (bwFirst ws * blockBytes) (bwCount ws * blockBytes)) 2
def blockWords : List (Nat × Nat) := [(2, 0xFFFFFFFF), (3, 0xFFFF), (4, 0x1FFFF)]
/-- The blocks of a range. -/
def rangeBlocks (first count : Nat) : List Nat := (List.range count).map (first + ·)

/-- A block is mapped: an entry of it is in a state other than UNMAPPED. -/
def State.isMapped (s : State) (ctx blk : Nat) : Bool := (s.bmFind (s.ctxOf ctx).part ctx blk).isSome

/-- Entry slots for new blocks of a context, in order: none where a block finds its candidates taken (R256). -/
def State.slotsFor (s : State) (p ctx : Nat) (blks : List Nat) : Option (List (Nat × Nat)) :=
  blks.foldl (fun (a : Option (List (Nat × Nat))) blk =>
    a.bind (fun l =>
      ((s.bmCands p ctx blk).find? (fun i => (s.bmOf i).state = 0 && !l.any (fun x => x.2 = i))).map (fun i => l ++ [(blk, i)])))
    (some [])

/-- A frame for a mapping of a tier: 2 takes near where the quota allows, else bulk. `near0`, `bulk0`: the frames of each tier that the
same command has taken already and no entry names yet. -/
def State.allocMap (s : State) (ctx tier near0 bulk0 : Nat) : Option (Nat × State) :=
  let near := if s.quotaRoom ctx 0 (near0 + 1) then s.allocFrame 0 else none
  let bulk := if s.quotaRoom ctx 1 (bulk0 + 1) then s.allocFrame 1 else none
  if tier = 0 then near else if tier = 1 then bulk else match near with
    | some r => some r
    | none => bulk

/-- Frames of a tier that a command holds for its mappings. -/
def State.mapsIn (s : State) (f q n tier : Nat) : Nat :=
  match s.cmdOf f q n with
  | some c => (c.maps.filter (fun m => m.2.tier = tier)).length
  | none => 0

/-- Frames for the blocks of a BLOCK_MAP, held by the command. -/
def State.mapFrames (s : State) (f q n ctx tier code hint : Nat) (blks : List Nat) : Option State :=
  blks.foldl (fun (a : Option State) blk =>
    a.bind (fun t => (t.allocMap ctx tier (t.mapsIn f q n 0) (t.mapsIn f q n 1)).map (fun (fid, u) =>
      u.modCmd f q n (fun c => { c with maps := c.maps ++ [(blk, { frame := fid, tier := tierOfFid fid, code := code, hint := hint })] }))))
    (some s)

def execBlockMap (f q n : Nat) (s : State) : Out :=
  s.work f q n 0x20 (fun c =>
    let ws := c.eff
    let tier := fld (word ws 5) 1 0
    let code := fld (word ws 5) 5 2
    let hint := fld (word ws 5) 7 6
    let blks := rangeBlocks (bwFirst ws) (bwCount ws)
    s.checked f q n c (reservedCheck ws (blockWords ++ [(5, 0xFF)]) ++
        [resv (tier ≠ 3 && hint ≠ 3) 5, param (decide (code ≤ 2)) 5] ++ s.notPool c.ctx ws :: blockChecks ws ++
        [param (blks.all (fun b => !s.isMapped c.ctx b)) 2])
      (match s.slotsFor (s.ctxOf c.ctx).part c.ctx blks with
       | none => s.endCmd f q n ⟨St.tableFull, 3, 0⟩
       | some _ =>
         match s.mapFrames f q n c.ctx tier code hint blks with
         | some t => (t.setWork f q n (.mapping (bwFirst ws) (bwCount ws))).done f q n (bwCount ws) 0
         | none => s.endCmd f q n ⟨St.quotaExceeded, if tier = 0 then 0 else 1, 0⟩))

def execBlockUnmap (f q n : Nat) (s : State) : Out :=
  s.work f q n 0x21 (fun c =>
    let ws := c.eff
    s.checked f q n c (reservedCheck ws blockWords ++ s.notPool c.ctx ws :: blockChecks ws)
      ((s.setWork f q n (.mapping (bwFirst ws) (bwCount ws))).done f q n
        ((rangeBlocks (bwFirst ws) (bwCount ws)).filter (fun b => s.isMapped c.ctx b)).length 0))

/-! ### COPY, FILL, HOST_WRITE, HOST_READ -/

/-- A range a command writes is mapped and served; bytes of a peer block are needed for the units it writes in part. -/
def State.withWrite (s : State) (f q n ctx w addr len : Nat) (k : State) : State :=
  s.withRange f q n ctx w addr len false
    (s.withRange f q n ctx w (addr / 64 * 64) (if addr % 64 = 0 then 0 else 64) true
      (s.withRange f q n ctx w ((addr + len) / 64 * 64) (if (addr + len) % 64 = 0 then 0 else 64) true k))

/-- The same for the commands that may not write the KV pool (R291). -/
def State.withDst (s : State) (f q n ctx w addr len : Nat) (k : State) : State :=
  if s.inPool ctx addr len then s.endCmd f q n (match s.cmdOf f q n with
    | some c => addrVerdict c.words c.eff ⟨St.invalidParameter, w, 0⟩
    | none => ⟨St.invalidParameter, w, 0⟩)
  else s.withWrite f q n ctx w addr len k

/-- Bytes written through shadows, or the command ends with QUOTA_EXCEEDED (R275). -/
def State.putBytes (s : State) (f q n ctx addr : Nat) (bs : List Byte) (code : Option Nat) (k : State → State) : State :=
  match s.writeCtx f q n ctx addr bs code with
  | some t => k t
  | none => s.endCmd f q n ⟨St.quotaExceeded, 1, 0⟩

/-- BYTES in word 6 (or 4): 1 to 2^31, and the range within the context. -/
def bytesOk (a len : Nat) : Bool := decide (1 ≤ len) && decide (len ≤ 2 ^ 31) && decide (a + len ≤ 2 ^ 48)

/-- A copy writes each destination block with the stored layout of the source block its first byte there comes from. -/
def State.copyPieces (s : State) (f q n ctx dst src len : Nat) : Option State :=
  let bs := s.readCtx ctx src len
  (pieces dst len).foldl (fun (a : Option State) p =>
    a.bind (fun t =>
      let at' := p.1 * blockBytes + p.2.1 - dst
      let code := match s.bmFind (s.ctxOf ctx).part ctx ((src + at') / blockBytes) with
        | some (_, e) => some e.code
        | none => none
      t.writePiece f q n ctx p.1 p.2.1 ((bs.drop at').take p.2.2) code)) (some s)

def execCopy (f q n : Nat) (errs : List MemErr) (s0 : State) : Out :=
  s0.withErrs f q n 0x22 errs (fun s => s.work f q n 0x22 (fun c =>
    let ws := c.eff
    let dst := addr48 ws 2
    let src := addr48 ws 4
    let len := wnat ws 6
    s.checked f q n c (reservedCheck ws [(2, 0xFFFFFFFF), (3, 0xFFFF), (4, 0xFFFFFFFF), (5, 0xFFFF), (6, 0xFFFFFFFF)] ++
        [param (bytesOk 0 len) 6])
      (s.withRange f q n c.ctx 4 src len true
        (s.withDst f q n c.ctx 2 dst len
          (match s.copyPieces f q n c.ctx dst src len with
           | some t => t.done f q n len 0
           | none => s.endCmd f q n ⟨St.quotaExceeded, 1, 0⟩)))))

def execFill (f q n : Nat) (errs : List MemErr) (s0 : State) : Out :=
  s0.withErrs f q n 0x23 errs (fun s => s.work f q n 0x23 (fun c =>
    let ws := c.eff
    let dst := addr48 ws 2
    let len := wnat ws 4
    let pat := leBytes 4 (wnat ws 5)
    s.checked f q n c (reservedCheck ws [(2, 0xFFFFFFFF), (3, 0xFFFF), (4, 0xFFFFFFFF), (5, 0xFFFFFFFF)] ++ [param (bytesOk 0 len) 4])
      (s.withDst f q n c.ctx 2 dst len
        (s.putBytes f q n c.ctx dst ((List.range len).map (fun i => pat.getD (i % 4) 0)) none (fun t => t.done f q n len 0)))))

/-- HOST_WRITE: `data` is what the host's memory held at the address. -/
def execHostWrite (f q n : Nat) (data : List Byte) (errs : List MemErr) (s0 : State) : Out :=
  s0.withErrs f q n 0x28 errs (fun s => s.work f q n 0x28 (fun c =>
    let ws := c.eff
    let dst := addr48 ws 2
    let len := wnat ws 6
    s.checked f q n c (reservedCheck ws [(2, 0xFFFFFFFF), (3, 0xFFFF), (4, 0xFFFFFFFF), (5, 0xFFFFFFFF), (6, 0xFFFFFFFF)] ++
        [param (bytesOk 0 len) 6])
      (s.withDst f q n c.ctx 2 dst len
        (if data.length ≠ len then s
         else s.putBytes f q n c.ctx dst data none (fun t => t.done f q n len 0)))))

/-- HOST_READ writes host memory before it commits, from committed blocks. -/
def execHostRead (f q n : Nat) (errs : List MemErr) (s0 : State) : Out :=
  s0.withErrs f q n 0x29 errs (fun s => s.work f q n 0x29 (fun c =>
    let ws := c.eff
    let src := addr48 ws 2
    let len := wnat ws 6
    s.checked f q n c (reservedCheck ws [(2, 0xFFFFFFFF), (3, 0xFFFF), (4, 0xFFFFFFFF), (5, 0xFFFFFFFF), (6, 0xFFFFFFFF)] ++
        [param (bytesOk 0 len) 6])
      (s.withRange f q n c.ctx 2 src len true
        ({ s with host := { s.host with mem := cellWrite s.host.mem (wnat2 ws 4) (s.readCtx c.ctx src len) } }.done f q n len 0))))

/-! ### TIER_HINT and QUOTA_SET -/

def execTierHint (f q n : Nat) (s : State) : Out :=
  s.work f q n 0x24 (fun c =>
    let ws := c.eff
    let mode := fld (word ws 5) 1 0
    let hint := fld (word ws 5) 3 2
    s.checked f q n c (reservedCheck ws (blockWords ++ [(5, 0xF)]) ++ [resv (mode ≠ 3 && hint ≠ 3) 5] ++ s.notPool c.ctx ws :: blockChecks ws)
      (s.withRange f q n c.ctx 2 (bwFirst ws * blockBytes) (bwCount ws * blockBytes) false
        ((s.setWork f q n (.hints (bwFirst ws) (bwCount ws) mode hint)).done f q n (bwCount ws) 0)))

def execQuotaSet (f q n : Nat) (s : State) : Out :=
  s.work f q n 0x25 (fun c =>
    let ws := c.eff
    let tier := fld (word ws 2) 1 0
    s.checked f q n c (reservedCheck ws [(2, 3), (3, 0xFFFFFFFF)] ++
        [resv (tier ≠ 3) 2, param (decide (wnat ws 3 ≤ s.ceilOf (s.ctxOf c.ctx).part tier)) 3])
      ((s.setWork f q n (.quota tier (wnat ws 3))).done f q n (s.quotaOf c.ctx tier) (s.usageOf c.ctx tier)))

/-! ### Explicit moves and their effect at commit (R273) -/

/-- An explicit move of a RESIDENT near or bulk block to a tier begins: it becomes MIGRATING. One into near that finds no room is not made
(R273); none where one into bulk finds none (R275). -/
def State.beginMove (s : State) (ctx i tier : Nat) : Option State :=
  let e := s.bmOf i
  if e.state ≠ 1 ∨ e.tier = 2 ∨ e.tier = tier then some s
  else
    match s.allocFor ctx tier (s.countOf e) with
    | none => if tier = 0 then some s else none
    | some (fid, t) =>
      let e' := t.bmOf i
      some (((t.abandonMig i).bmChange i { e' with state := 2 } none none).setMig i
        (some { src := fidOf e'.tier e'.loc, dst := fid, tier := tierOfFid fid, kind := 1, begun := true }))

/-- Near blocks of a context whose demotion is under way. -/
def State.leavingNear (s : State) (ctx : Nat) : Nat :=
  (s.tiers.bm.filter (fun p => (p.2.state = 1 || p.2.state = 2) && p.2.tier = 0 && p.2.ctx = ctx && (match s.migOf p.1 with
    | some m => m.begun && m.tier = 1
    | none => false))).length

/-- Near blocks that QUOTA_SET demotes: HINT 0 or 2, in sweep order, until the usage is within the quota (R276). -/
def State.queueDemotions (s : State) (ctx : Nat) : State :=
  let past := s.usageOf ctx 0 - s.leavingNear ctx - s.quotaOf ctx 0
  let l := s.tiers.bm.filter (fun p => p.2.state = 1 && p.2.tier = 0 && p.2.ctx = ctx && p.2.hint ≠ 1 && (s.migOf p.1).isNone)
  let at' := (s.ctxOf ctx).sweep
  ((l.filter (fun p => at' ≤ p.1) ++ l.filter (fun p => p.1 < at')).take past).foldl
    (fun t p => t.setMig p.1 (some { src := fidOf 0 p.2.loc, tier := 1, kind := 0 })) s

/-! ### Entry changes and frames (R261, R262, R287) -/

/-- The partition whose Block Map range holds an entry. -/
def State.bmOwner (s : State) (i : Nat) : Nat :=
  (s.partWith s.bmBase (fun p => 2 ^ s.bmLog2 p) i).getD 0

/-- BLOCK_MAP_CHANGE_DONE: every region cache has dropped its copy; a borrowed frame it unnamed goes back to its lender once
its requests have drained. -/
def execBlockMapChangeDone (entry : Nat) (s : State) : Out :=
  match s.tiers.changes.find? (fun c => c.entry = entry) with
  | none => .next s
  | some ch =>
    let s1 := { s with tiers := { s.tiers with
      changes := s.tiers.changes.erase ch,
      caches := s.tiers.caches.filter (fun c => c.2.1 ≠ entry) } }
    match ch.peer with
    | none => .next s1
    | some (chip, fr) =>
      onlyIf (!s.fab.reqs.any (fun r => !r.lend && r.entry = entry && r.chip = chip)) s (s1.lendReturn (s.bmOwner entry) chip fr)

/-- A request translated to a frame has not finished. -/
def State.frameRead (s : State) (fid : Nat) : Bool :=
  s.usedSlots.any (fun p => (p.2.inflight ++ p.2.ahead).any (fun t => t.2.any (fun r => r.2 = fid)))

/-- FRAME_RELEASE: a frame whose change is complete and whose requests have finished goes to the scrub queue. -/
def execFrameRelease (fid : Nat) (s : State) : Out :=
  onlyIf (decide (s.frameOf fid = .draining) && !s.tiers.changes.any (fun c => c.fid = some fid) && !s.frameRead fid) s (s.setFrame fid .queued)

/-- The id under which the bytes of a frame of this device's lend window lie. -/
def windowFid (w : Nat) : Nat := 20 * 2 ^ 24 + w

/-- FRAME_SCRUB: a queued frame, or a frame of the lend window that came back, is written with zeros and becomes free. -/
def execFrameScrub (fid : Nat) (s : State) : Out :=
  let w := fid - 20 * 2 ^ 24
  if 20 * 2 ^ 24 ≤ fid ∧ s.tiers.lendScrub.contains w then
    .next ({ s with tiers := { s.tiers with lendScrub := s.tiers.lendScrub.erase w } }.zeroFrame fid)
  else onlyIf (decide (s.frameOf fid = .queued)) s ((s.zeroFrame fid).setFrame fid .free)

/-! ### Migration (R269 to R273) -/

/-- Streams halted on a block resume (R273). -/
def State.resumeBlock (s : State) (ctx blk : Nat) : State :=
  (s.usedSlots.filter (fun p => p.2.ctx = ctx && p.2.haltAddr / blockBytes = blk && (match p.2.state with
    | .halted cause _ => decide (2 ≤ cause)
    | _ => false))).foldl (fun t p => t.resumeSlot p.1) s

/-- The tier an entry's HINT sends it to (R272). -/
def wantTier (e : BmEntry) : Option Nat :=
  if e.state ≠ 1 ∨ e.tier = 2 then none
  else if e.tier = 1 ∧ e.hint = 1 then some 0
  else if e.tier = 0 ∧ e.hint = 2 then some 1
  else none

/-- A frame for what a HINT asks: a pinned block waits for room in near (R272). -/
def State.allocMigration (s : State) (ctx tier : Nat) : Option (Nat × State) :=
  if s.quotaRoom ctx tier 1 then s.allocFrame tier else none

/-- A queued background migration is still due: a promotion while its block stays in bulk, a demotion while it stays near, is not pinned
and the context's usage, less what is already leaving, exceeds its quota (R271, R276). -/
def State.stillDue (s : State) (e : BmEntry) (m : Migration) : Bool :=
  e.state = 1 &&
  (if m.tier = 0 then e.tier = 1 && e.hint ≠ 2
   else e.tier = 0 && e.hint ≠ 1 && decide (s.quotaOf e.ctx 0 + s.leavingNear e.ctx < s.usageOf e.ctx 0))

/-- The block of an entry, RESIDENT, is in the preparation of a commit: until its step no other change is made to it (R267). -/
def State.preparing (s : State) (i : Nat) : Bool :=
  let e := s.bmOf i
  decide (e.state = 1) && s.parts.recs.any (fun p => match p.2.prep with
    | some (f, q, n) => (match s.cmdOf f q n with
      | some c => c.isFinished && c.ctx = e.ctx && c.shadows.any (fun w => w.1 = e.block)
      | none => false)
    | none => false)

/-- A bulk frame for a home copy: beyond the context's quota, never beyond the partition's ceiling (Table 8.5). -/
def State.allocHome (s : State) (ctx : Nat) : Option (Nat × State) :=
  let p := (s.ctxOf ctx).part
  if s.partUsage p 1 + 1 ≤ s.ceilOf p 1 then s.allocFrame 1 else none

/-- MIGRATION_START: a copy begins: a queued background move, one a HINT asks for, or a home copy that has been waiting for a frame. A
queued move that is no longer due, and a promotion that finds neither room nor a victim, is not made. -/
def execMigrationStart (i : Nat) (s : State) : Out :=
  let e := s.bmOf i
  if s.preparing i then .next s
  else
  match s.migOf i with
  | some m =>
    if m.begun ∨ m.kind = 2 then .next s
    else if m.kind = 3 then
      match s.allocHome e.ctx with
      | some (fid, t) => .next ((t.setMig i (some { m with dst := fid, begun := true })).fetchPeer e.ctx i e.chip e.loc 0 blockBytes)
      | none => .next s
    else if !s.stillDue e m then .next (s.setMig i none)
    else
      match s.allocFor e.ctx m.tier (s.countOf e) with
      | some (fid, t) => .next (t.setMig i (some { m with src := fidOf e.tier e.loc, dst := fid, begun := true }))
      | none => .next (if m.tier = 0 then s.setMig i none else s)
  | none =>
    match wantTier e with
    | none => .next s
    | some tier =>
      match s.allocMigration e.ctx tier with
      | some (fid, t) => .next (t.setMig i (some { src := fidOf e.tier e.loc, dst := fid, tier := tier, kind := 0, begun := true }))
      | none => .next s

/-- The bytes of a copy are in the destination and the entry names it. -/
def State.switchEntry (s : State) (i : Nat) (m : Migration) : State :=
  let e := s.bmOf i
  let done : BmEntry := { e with state := 1, recalled := false, tier := m.tier, loc := locOf m.dst, chip := 0 }
  let s0 := if m.kind = 3 then
      { s with tiers := { s.tiers with mem := cellWrite s.tiers.mem (m.dst * blockBytes) (cellRead s.tiers.peerBuf (i * blockBytes) blockBytes) } }
    else { s with tiers := { s.tiers with mem := cellCopy s.tiers.mem (m.src * blockBytes) blockBytes (m.dst * blockBytes) } }
  let s1 := if m.kind = 3 then s0.bmChange i done none (some (e.chip, e.loc))
    else (s0.bmChange i done (some m.src) none).drainFrame m.src
  (s1.setMig i none).resumeBlock e.ctx e.block

/-- MIGRATION_DONE: a copy between near and bulk, or home from a lender, completes; an uncorrectable error in it makes the
entry INVALID and tears nothing down (R285). Bring-ins from the Park Log have their own row. -/
def execMigrationDone (i : Nat) (err : ReadErr) (s : State) : Out :=
  match s.migOf i with
  | none => .next s
  | some m =>
    let e := s.bmOf i
    if !m.begun ∨ m.kind = 2 ∨ s.preparing i ∨ (m.kind = 3 ∧ !s.peerHas i 0 blockBytes) then .next s
    else
      match err with
      | .clean => .next (s.switchEntry i m)
      | .corrected => .next ((if m.kind = 3 then s else s.correctable (fidIsland m.src) (corrClass m.src) (m.src % 2 ^ 24)).switchEntry i m)
      | .uncorrectable =>
        .next ((if m.kind = 3 then s.invalidate i false true else s.retireFrame m.src).resumeBlock e.ctx e.block)

/-! ### Patrol scrub (R286) -/

/-- The command whose shadow lies in a frame, with the block. -/
def State.shadowIn (s : State) (fid : Nat) : Option (Nat × Nat × Cmd × Nat) :=
  s.allCmds.findSome? (fun x => (x.2.2.shadows.find? (fun p => p.2.frame = fid)).map (fun p => (x.1, x.2.1, x.2.2, p.1)))

/-- PATROL_SCRUB_READ: an in-use frame is read and corrected; an uncorrectable error in it retires it. One in a shadow ends
the command that wrote it as its own touch would; a frame that no entry names yet makes the entry INVALID that comes to name it (log
entry 17). -/
def execPatrolScrubRead (fid : Nat) (err : ReadErr) (s : State) : Out :=
  if s.frameOf fid ≠ .used then .next s
  else
    match err with
    | .clean => .next s
    | .corrected => .next (s.correctable (fidIsland fid) (corrClass fid) (fid % 2 ^ 24))
    | .uncorrectable =>
      match s.namedBy fid with
      | some (_, e) => .next ((s.retireFrame fid).resumeBlock e.ctx e.block)
      | none =>
        match s.shadowIn fid with
        | some (f, q, c, blk) =>
          let a := blk * blockBytes
          .next ((s.retireFrame fid).teardown c.ctx ⟨uncStatus fid, a % 2 ^ 32, a / 2 ^ 32⟩ (hitOne f q c.n))
        | none => .next (s.retireFrame fid)

/-- SCRUB_PASS_OVERDUE: a pass of a near stack or bulk channel has taken more than 24 hours (class 15). -/
def execScrubPassOverdue (island : Nat) (s : State) : Out :=
  onlyIf ((decide (0x2000 ≤ island) && decide (island < 0x2004)) || (decide (0x3000 ≤ island) && decide (island < 0x3010))) s
    (s.report island 15 0 none (island % 4096))

/-! ### The peer tier (R277 to R281) -/

def execPeerMap (f q n : Nat) (s : State) : Out :=
  s.work f q n 0x26 (fun c =>
    let ws := c.eff
    let chip := fld (word ws 5) 13 0
    let count := bwCount ws
    let blks := rangeBlocks (bwFirst ws) count
    match c.work with
    | .peer _ _ _ _ => s
    | _ =>
      s.checked f q n c (reservedCheck ws (blockWords ++ [(5, 0x3FFF)]) ++ s.notPool c.ctx ws :: blockChecks ws ++
          [param (chip ≠ s.fab.chip) 5, param (blks.all (fun b => !s.isMapped c.ctx b)) 2])
        (if (s.slotsFor (s.ctxOf c.ctx).part c.ctx blks).isNone then s.endCmd f q n ⟨St.tableFull, 3, 0⟩
         else if !s.quotaRoom c.ctx 2 count then s.endCmd f q n ⟨St.quotaExceeded, 2, 0⟩
         else
           match s.sendReq { id := 0, chip := chip, ctx := c.ctx, lend := true, count := count } with
           | some t => t.setWork f q n (.peer chip 0 count false)
           | none => s.endCmd f q n ⟨St.noRoute, chip, 0⟩))

/-- LEND_RECALL: its first stage is order 1 of Table 8.5, with one notice of the range to each borrower chip (log entry 108); the lender's
deadline gives it its results. -/
def execLendRecall (f q n : Nat) (s : State) : Out :=
  s.work f q n 0x27 (fun c =>
    let ws := c.eff
    let first := wnat ws 2
    let count := wnat ws 3
    match c.work with
    | .recall _ _ released refused past => if past then s.done f q n released refused else s
    | _ =>
      s.checked f q n c (reservedCheck ws [(2, 0xFFFFFFFF), (3, 0xFFFFFFFF)] ++
          [param (decide (first < s.tiers.lendW)) 2, param (decide (1 ≤ count) && decide (first + count ≤ s.tiers.lendW)) 3])
        (let hit (l : Lend) : Bool := decide (overlapCount first count l.first l.count ≠ 0)
         let s1 := { s with tiers := { s.tiers with
           recalls := s.tiers.recalls ++ [(first, count)],
           lends := s.tiers.lends.map (fun l => if hit l then { l with recalling := true } else l) } }
         let s2 := (((s.tiers.lends.filter hit).map (fun l => l.chip)).eraseDups).foldl (fun t chip =>
           t.sendAnswer (t.control chip 0x04 0 first count)) s1
         s2.setWork f q n (.recall first count 0 0 false)))

/-- A RESIDENT entry of a recalled window frame becomes MIGRATING and is to be copied home (order 2 of Table 8.5). -/
def State.recallEntry (s : State) (i : Nat) : State :=
  let e := s.bmOf i
  (s.bmChange i { e with state := 2 } none none).setMig i (some { src := e.loc, tier := 1, kind := 3 })

/-- A recall that reached entries in preparation takes effect after their commit's step (R267). -/
def State.recallLate (s : State) (i : Nat) : State :=
  let e := s.bmOf i
  if e.state = 1 ∧ e.tier = 2 ∧ s.tiers.borrowRecalls.any (fun r => r.1 = e.chip && decide (r.2.1 ≤ e.loc) && decide (e.loc < r.2.1 + r.2.2)) then
    s.recallEntry i
  else s

/-- RECALL_BORROWER_DEADLINE: 50 ms after a notice, what is still migrating becomes INVALID with RECALLED set. -/
def execRecallBorrowerDeadline (chip first : Nat) (s : State) : Out :=
  match s.tiers.borrowRecalls.find? (fun r => r.1 = chip && r.2.1 = first) with
  | none => .next s
  | some r =>
    let hits := s.tiers.bm.filter (fun p => p.2.state = 2 && p.2.tier = 2 && p.2.chip = chip &&
      decide (first ≤ p.2.loc) && decide (p.2.loc < first + r.2.2))
    let s1 := hits.foldl (fun t p => (t.invalidate p.1 true false).resumeBlock p.2.ctx p.2.block) s
    .next { s1 with tiers := { s1.tiers with borrowRecalls := s1.tiers.borrowRecalls.erase r } }

/-- Window frames that a Lend Table record holds. -/
def State.lentFrames (s : State) : List Nat := s.tiers.lends.flatMap (fun l => (List.range l.count).map (l.first + ·))

/-- RECALL_LENDER_DEADLINE: 51 ms after a recall started, the lender ends the records being recalled and queues their frames
for scrub. The recall may have lost its command (R434). -/
def execRecallLenderDeadline (first : Nat) (s : State) : Out :=
  match s.tiers.recalls.find? (fun r => r.1 = first) with
  | none => .next s
  | some (lo, n) =>
  let owner := s.allCmds.find? (fun x => match x.2.2.work with
    | .recall a k _ _ past => x.2.2.isRunning && a = lo && k = n && !past
    | _ => false)
  let gone := s.tiers.lends.filter (fun l => l.recalling && overlapCount lo n l.first l.count ≠ 0)
  let frames := gone.flatMap (fun l => (List.range l.count).map (l.first + ·))
  let refused := (frames.filter (fun w => decide (lo ≤ w) && decide (w < lo + n))).length
  let s1 := { s with tiers := { s.tiers with
    recalls := s.tiers.recalls.erase (lo, n),
    lends := s.tiers.lends.filter (fun l => !gone.contains l),
    lendScrub := s.tiers.lendScrub ++ frames } }
  match owner with
  | some x => .next (s1.modCmd x.1 x.2.1 x.2.2.n (fun c => match c.work with
      | .recall a k r _ _ => { c with work := .recall a k r refused true }
      | _ => c))
  | none => .next s1

end Sys2Proof.Machine
end

