-- ==== Sys2Proof/Machine/Kv.lean ====
section
/-! DEFINITION. The KV cache (chapter 9): records and their tree, the Prefix Directory, parking and expiry, pages and
quantised positions, and the commands of Table 9.8. -/
namespace Sys2Proof.Machine

/-- What the atomic step of a command gives: a state with the two results, a verdict, or a wait. -/
inductive Commit where
  | ok (s : State) (a b : Nat)
  | fail (v : Verdict)
  | wait (s : State)
  | prep (entry tier : Nat)      -- its preparation has begun and waits for a block, which comes into that tier where it is parked

/-! ### Records (R300) -/

/-- No record, no slot. -/
abbrev noRec : Nat := 0xFFFFFF
/-- A deadline that is never reached (R311). -/
abbrev never : Nat := 2 ^ 64 - 1

def recKey (ctx num : Nat) : Nat := ctx * 2 ^ 24 + num
def State.recOf (s : State) (ctx num : Nat) : KvRec := tget {} s.kv.recs (recKey ctx num)
/-- The records of a context in use: number and record. -/
def State.ctxRecs (s : State) (ctx : Nat) : List (Nat × KvRec) :=
  (s.kv.recs.filter (fun p => p.1 / 2 ^ 24 = ctx && p.2.state ≠ 0)).map (fun p => (p.1 % 2 ^ 24, p.2))

/-- A record's 80 words (Table 9.4); a free record is zeros. -/
def KvRec.words (r : KvRec) : List Word :=
  if r.state = 0 then List.replicate 80 0
  else
    [w32 (r.state + r.stage * 4 + r.filled * 16 + b2n r.published * 2 ^ 11 + b2n r.held * 2 ^ 12), w32 r.parent, w32 r.refs,
     w32 r.active, w32 r.slot, w32 r.depth, w32 r.pdEntry, 0] ++ w64 r.parkAt ++ w64 r.freeAt ++
    [w32 r.hash, w32 (r.hash / 2 ^ 32), w32 (r.hash / 2 ^ 64), w32 (r.hash / 2 ^ 96)] ++
    (List.range 64).map (fun i => w32 (r.toks.getD i 0))

/-- A record changes, and with it its bytes in the record area. -/
def State.setRec (s : State) (ctx num : Nat) (r : KvRec) : State :=
  let s1 := { s with kv := { s.kv with recs := tset {} s.kv.recs (recKey ctx num) r } }
  match (s.ctxOf ctx).geom with
  | some g => s1.rawWrite ctx (g.pool + num * 320) (wordBytes r.words)
  | none => s1
def State.modRec (s : State) (ctx num : Nat) (f : KvRec → KvRec) : State := s.setRec ctx num (f (s.recOf ctx num))

/-- The chain of records from one up to depth 0 (R301). -/
def State.chainAux (s : State) (ctx : Nat) : Nat → Nat → List Nat
  | 0, _ => []
  | n + 1, k => if k = noRec ∨ (s.recOf ctx k).state = 0 then [] else k :: s.chainAux ctx n (s.recOf ctx k).parent
def State.chain (s : State) (ctx k : Nat) : List Nat := s.chainAux ctx (s.kv.recs.length + 1) k

/-- The management island's counter (R310). -/
def State.now (s : State) : Nat := s.islCount islMgmt

/-- The blocks of a record's slot. -/
def State.slotBlocks (s : State) (ctx : Nat) (r : KvRec) : List Nat :=
  match (s.ctxOf ctx).geom with
  | some g => if r.held then (List.range g.slotBlocks).map (g.slotBlock r.slot + ·) else []
  | none => []
/-- Their Block Map entries. -/
def State.slotEntries (s : State) (ctx : Nat) (r : KvRec) : List Nat :=
  (s.slotBlocks ctx r).filterMap (fun b => (s.bmFind (s.ctxOf ctx).part ctx b).map (fun p => p.1))

/-! ### The Park Log's entries and stripes (R312, R366, R367) -/

/-- Entry places of a park stripe: 15 data segments of three entries. -/
abbrev stripePlaces : Nat := 45

/-- An entry's header (Table 9.7): what stands in the log ahead of its data. -/
def ParkEntry.header (e : ParkEntry) : List Word :=
  [w32 (0x504B + b2n e.closing * 2 ^ 16), w32 e.entry, w32 (e.ctx + e.part * 2 ^ 8), w32 e.record, w32 (e.index + e.count * 2 ^ 16), w32 e.first] ++
  List.replicate 10 0

/-- Closed park stripes none of whose entries is live are freed; their segments are to be erased. -/
def State.reapPark (s : State) : State :=
  let isOpen (k : Nat) : Bool := match s.kv.stripe with
    | some o => o.1 = k
    | none => false
  let stripes := (s.kv.park.map (fun e => e.stripe)).eraseDups
  let gone := stripes.filter (fun k => !isOpen k && s.kv.park.all (fun e => e.stripe ≠ k || e.dead))
  { s with kv := { s.kv with park := s.kv.park.filter (fun e => !gone.contains e.stripe) },
           store := { s.store with parkDead := s.store.parkDead ++ gone } }

/-- Park Log entries that meet a condition are dead. -/
def State.killPark (s : State) (p : ParkEntry → Bool) : State :=
  { s with kv := { s.kv with park := s.kv.park.map (fun e => if p e then { e with dead := true, data := [] } else e) } }.reapPark

/-! ### Stages (R310, R311) -/

/-- A deadline a time to live after a time; 0xFFFF_FFFF ms is without end. -/
def ttlAfter (t ms : Nat) : Nat := if ms = 0xFFFFFFFF ∨ t = never then never else t + ms * 1000000

/-- The HINT of a slot's blocks follows the stage: blocks in bulk are queued for promotion under HINT 0. -/
def State.hintSlot (s : State) (ctx : Nat) (r : KvRec) (hint : Nat) : State :=
  (s.slotEntries ctx r).foldl (fun t i =>
    let t1 := t.bmMod i (fun e => { e with hint := hint })
    let t2 := match t1.migOf i with
      | some m => if m.kind = 0 then t1.abandonMig i else t1
      | none => t1
    let e := t2.bmOf i
    if hint = 0 ∧ e.state = 1 ∧ e.tier = 1 then t2.setMig i (some { src := fidOf 1 e.loc, tier := 0 }) else t2) s

/-- A record becomes live: a park in progress is abandoned, parked blocks are brought in, its deadlines are cancelled. -/
def State.toLive (s : State) (ctx num : Nat) : State :=
  let r := s.recOf ctx num
  let s1 := if r.stage = 3 then s.killPark (fun e => e.ctx = ctx && e.record = num) else s
  let s2 := (s1.slotEntries ctx r).foldl (fun t i => t.bringIn i 0) s1
  (s2.hintSlot ctx r 0).modRec ctx num (fun x => { x with stage := 0, parkAt := never, freeAt := never })

/-- The latest FREE_AT of a record's idle children. -/
def State.childFree (s : State) (ctx num : Nat) : Nat :=
  (s.ctxRecs ctx).foldl (fun a p => if p.2.parent = num ∧ p.2.active = 0 then max a p.2.freeAt else a) 0

/-- The deadlines of an idle record from a TTL pair. -/
def State.setDeadlines (s : State) (ctx num : Nat) (pair : Nat × Nat) : State :=
  let p := ttlAfter s.now pair.1
  s.modRec ctx num (fun x => { x with parkAt := p, freeAt := max (ttlAfter p pair.2) (s.childFree ctx num) })

/-- A record becomes idle with a TTL pair. -/
def State.toIdle (s : State) (ctx num : Nat) (pair : Nat × Nat) : State :=
  ((s.hintSlot ctx (s.recOf ctx num) 2).modRec ctx num (fun x => { x with stage := 1 })).setDeadlines ctx num pair

/-- ACTIVE of a record rises by one, and up the chain while it leaves 0 (R301). -/
def State.actUp (ctx : Nat) : Nat → State → Nat → State
  | 0, s, _ => s
  | n + 1, s, k =>
    if k = noRec then s
    else
      let r := s.recOf ctx k
      let s1 := (if r.active = 0 then s.toLive ctx k else s).modRec ctx k (fun x => { x with active := x.active + 1 })
      if r.active = 0 then State.actUp ctx n s1 r.parent else s1

/-- ACTIVE of a record falls by one, and up the chain while it reaches 0. -/
def State.actDown (ctx : Nat) (pair : Nat × Nat) : Nat → State → Nat → State
  | 0, s, _ => s
  | n + 1, s, k =>
    if k = noRec then s
    else
      let r := s.recOf ctx k
      let s1 := s.modRec ctx k (fun x => { x with active := x.active - 1 })
      if r.active ≤ 1 then State.actDown ctx pair n (s1.toIdle ctx k pair) r.parent else s1

def State.activate (s : State) (ctx k : Nat) : State := State.actUp ctx (s.kv.recs.length + 1) s k
def State.deactivate (s : State) (ctx k : Nat) (pair : Nat × Nat) : State := State.actDown ctx pair (s.kv.recs.length + 1) s k

/-- FREE_AT of the idle ancestors of a record is no earlier than its own (R311). -/
def State.raiseFree (ctx free : Nat) : Nat → State → Nat → State
  | 0, s, _ => s
  | n + 1, s, k =>
    if k = noRec ∨ (s.recOf ctx k).active ≠ 0 then s
    else State.raiseFree ctx free n (s.modRec ctx k (fun x => { x with freeAt := max x.freeAt free })) (s.recOf ctx k).parent

/-! ### The Prefix Directory (R305 to R307) -/

/-- H of 64 token ids: the first 16 bytes of the SHA-256 digest (R306). -/
def tokenHash (toks : List Nat) : Nat := leNat ((sha256 (toks.flatMap (leBytes 4))).take 16)

/-- The first candidate bucket of a block. -/
def pdBucket (parentKey h buckets : Nat) : Nat :=
  (parentKey * 2 ^ 32 + h % 2 ^ 32) * 0x9E3779B97F4A7C15 % 2 ^ 64 / 2 ^ 32 % buckets

/-- The sixteen slots of a block's two buckets, as indexes in the partition's range. -/
def State.pdSlots (s : State) (p parentKey h : Nat) : List Nat :=
  let n := 2 ^ s.pdLog2 p / 8
  let b := pdBucket parentKey h n
  (List.range 8).map (8 * b + ·) ++ (List.range 8).map (8 * ((b + 1) % n) + ·)

def State.pdOf (s : State) (i : Nat) : PdEntry := tget {} s.kv.dir i
/-- The key of the entry at an index of a partition's range. -/
def State.pdKey (s : State) (p i : Nat) : Nat := (s.pdOf (s.pdBase p + i)).gen * 2 ^ 24 + i

/-- The entry that matches a block of a context: index in the range. -/
def State.pdFind (s : State) (ctx parentKey h : Nat) (toks : List Nat) : Option Nat :=
  let p := (s.ctxOf ctx).part
  (s.pdSlots p parentKey h).find? (fun i =>
    let e := s.pdOf (s.pdBase p + i)
    e.valid && e.ctx = ctx && e.parentKey = parentKey && e.hash = h && (s.recOf ctx e.record).toks = toks)

/-- A directory entry becomes empty; its GEN stays. -/
def State.pdClear (s : State) (i : Nat) : State :=
  { s with kv := { s.kv with dir := tmod {} s.kv.dir i (fun e => { gen := e.gen, used := e.used }) } }

/-- The directory entry of a record is removed. -/
def State.unpublish (s : State) (ctx num : Nat) : State :=
  let r := s.recOf ctx num
  if r.published then
    (s.pdClear (s.pdBase (s.ctxOf ctx).part + r.pdEntry % 2 ^ 24)).modRec ctx num
      (fun x => { x with published := false, pdEntry := 0xFFFFFFFF })
  else s

/-- A record that has become full takes its hash, and is published where R307 lets it. `priv`: its session is private. -/
def State.publishRec (s : State) (ctx num : Nat) (priv : Bool) : State :=
  let r := s.recOf ctx num
  let h := tokenHash r.toks
  let s1 := s.modRec ctx num (fun x => { x with state := 2, hash := h })
  let up := s.recOf ctx r.parent
  if priv ∨ (r.parent ≠ noRec ∧ !up.published) then s1
  else
    let key := if r.parent = noRec then 0xFFFFFFFF else up.pdEntry
    if (s1.pdFind ctx key h r.toks).isSome then s1
    else
      let p := (s.ctxOf ctx).part
      match (s1.pdSlots p key h).find? (fun i => !(s1.pdOf (s1.pdBase p + i)).valid) with
      | none => s1.modCtx ctx (fun c => { c with dirFull := c.dirFull + 1 })
      | some i =>
        let e := s1.pdOf (s1.pdBase p + i)
        let gen := if e.used then (e.gen + 1) % 256 else e.gen
        let new : PdEntry := { used := true, valid := true, gen := gen, ctx := ctx, parentKey := key, record := num, hash := h }
        let s2 := { s1 with kv := { s1.kv with dir := tset {} s1.kv.dir (s1.pdBase p + i) new } }
        s2.modRec ctx num (fun x => { x with published := true, pdEntry := gen * 2 ^ 24 + i })

/-! ### Freeing (R301, R304, R314) -/

/-- One record goes: its directory entry, its Park Log entries, its slot's blocks. Its parent's counts are the caller's. -/
def State.freeOne (s : State) (ctx num : Nat) : State :=
  let r := s.recOf ctx num
  let s1 := (s.unpublish ctx num).killPark (fun e => e.ctx = ctx && e.record = num)
  let s2 := (s1.slotEntries ctx r).foldl (fun t i => t.unmapEntry i) s1
  s2.setRec ctx num {}

/-- A reference to a record goes; an unreferenced, unpublished record is freed and its parent's REFS falls. -/
def State.refDownAux (ctx : Nat) : Nat → State → Nat → State
  | 0, s, _ => s
  | n + 1, s, k =>
    if k = noRec then s
    else
      let r := s.recOf ctx k
      let s1 := s.modRec ctx k (fun x => { x with refs := x.refs - 1 })
      if r.refs ≤ 1 ∧ !r.published then State.refDownAux ctx n (s1.freeOne ctx k) r.parent else s1
def State.refDown (s : State) (ctx k : Nat) : State := State.refDownAux ctx (s.kv.recs.length + 1) s k
def State.refUp (s : State) (ctx k : Nat) : State :=
  if k = noRec then s else s.modRec ctx k (fun x => { x with refs := x.refs + 1 })

/-- A leaf record is freed and its parent loses a reference. -/
def State.freeLeaf (s : State) (ctx num : Nat) : State := (s.freeOne ctx num).refDown ctx (s.recOf ctx num).parent

/-- The TTL pair of a session. -/
def State.pairOf (s : State) (x : Session) : Nat × Nat :=
  if x.ttlOwn then (x.ttl1, x.ttl2) else ((s.ctxOf x.ctx).ttl1, (s.ctxOf x.ctx).ttl2)

/-- A state value that counts as active (R322): a cancelling session by its return state. -/
def Session.active (x : Session) : Bool :=
  let st := if x.state = 5 then x.returnState else x.state
  decide (1 ≤ st) && decide (st ≤ 3)

/-- Every commit or event that changes an entry increments VERSION (R321). -/
def Session.bump (x : Session) : Session := { x with version := (x.version + 1) % 2 ^ 32 }

/-- The sessions of a context with a tail in a list of records. -/
def State.sessOn (s : State) (ctx : Nat) (recs : List Nat) : List (Nat × Session) :=
  s.sess.filter (fun p => p.2.state ≠ 0 && p.2.ctx = ctx && recs.contains p.2.tail)

/-- A session whose tail was freed is set back to the parent of the highest freed record of its chain (R314, R325). -/
def Session.truncate (x : Session) (length tail : Nat) : Session :=
  { x with length := length, tail := tail, truncated := true, pendingValid := false, inputCount := 0, inputDone := 0,
           state := if x.state = 5 then 5 else 4, returnState := if x.state = 5 then 4 else x.returnState }.bump

/-- A record is freed with every record whose chain includes it, and the sessions on them are truncated (R314). -/
def State.freeTree (s : State) (ctx num : Nat) : State :=
  let top := s.recOf ctx num
  let doomed := ((s.ctxRecs ctx).filter (fun p => (s.chain ctx p.1).contains num)).mergeSort (fun a b => b.2.depth ≤ a.2.depth)
  let nums := doomed.map (fun p => p.1)
  let hit := s.sessOn ctx nums
  let s1 := hit.foldl (fun t p => if p.2.active then t.deactivate ctx p.2.tail (t.pairOf p.2) else t) s
  let s2 := nums.foldl (fun t k => t.freeOne ctx k) s1
  let s3 := hit.foldl (fun t p => (t.modSess p.1 (fun x => x.truncate (64 * top.depth) top.parent)).refUp ctx top.parent) s2
  s3.refDown ctx top.parent

/-! ### Allocation (R290, R304) -/

/-- The full, unreferenced record freed first where none is free: the earliest FREE_AT, then the lower number. -/
def State.kvVictim (s : State) (ctx : Nat) (held : Bool) : Option Nat :=
  let l := (s.ctxRecs ctx).filter (fun p => p.2.state = 2 && p.2.refs = 0 && p.2.active = 0 && (!held || p.2.held))
  match l with
  | [] => none
  | h :: r => some (r.foldl (fun a b => if b.2.freeAt < a.2.freeAt ∨ (b.2.freeAt = a.2.freeAt ∧ b.1 < a.1) then b else a) h).1

/-- The lowest free record number of a context, after freeing one where none is free. -/
def State.allocRec (s : State) (ctx : Nat) (g : KvGeom) : Except Verdict (Nat × State) :=
  let free (t : State) : Option Nat := firstBelow g.records (fun k => (t.recOf ctx k).state = 0)
  match free s with
  | some k => .ok (k, s)
  | none =>
    match s.kvVictim ctx false with
    | none => .error ⟨St.limitExceeded, g.records, 0⟩
    | some v =>
      let t := s.freeLeaf ctx v
      .ok ((free t).getD v, t)

/-- A new block of a context is mapped at once as BLOCK_MAP with TIER 2 does: RESIDENT, reading zeros. -/
def State.mapNow (s : State) (ctx blk code : Nat) : Except Verdict State :=
  let p := (s.ctxOf ctx).part
  match s.bmSlot p ctx blk with
  | none => .error ⟨St.tableFull, 3, 0⟩
  | some i =>
    match s.allocMap ctx 2 0 0 with
    | none => .error ⟨St.quotaExceeded, 1, 0⟩
    | some (fid, t) =>
      .ok (t.bmChange i { state := 1, tier := tierOfFid fid, code := code, part := p, ctx := ctx, epoch := t.epoch % 64,
                          loc := locOf fid, block := blk } none none)

/-- The lowest slot of the pool that no record of the context holds (log entry 19). -/
def KvGeom.freeSlot (g : KvGeom) (ctx : Nat) (t : State) : Option Nat :=
  let used := (t.ctxRecs ctx).filterMap (fun p => if p.2.held then some p.2.slot else none)
  firstBelow g.poolSlots (fun k => !used.contains k)

/-- Slot k with its blocks mapped (R290). -/
def KvGeom.mapSlot (g : KvGeom) (ctx : Nat) (t : State) (k : Nat) : Except Verdict (Nat × State) :=
  ((List.range g.slotBlocks).foldl (fun (a : Except Verdict State) i => a.bind (fun u => u.mapNow ctx (g.slotBlock k + i) 2))
    (.ok t)).map (fun u => (k, u))

/-- What is free is taken; where nothing is, the victim is dropped and the search made again. -/
def State.orVictim (s : State) (free : State → Option Nat) (victim : Option Nat) (drop : Nat → State) (full : Verdict)
    (take : State → Nat → Except Verdict (Nat × State)) : Except Verdict (Nat × State) :=
  match free s with
  | some k => take s k
  | none =>
    match victim with
    | none => .error full
    | some v =>
      match free (drop v) with
      | some k => take (drop v) k
      | none => .error full

/-- The lowest free slot of the pool with its blocks mapped (R290, R304; log entry 19). -/
def State.allocSlot (s : State) (ctx : Nat) (g : KvGeom) : Except Verdict (Nat × State) :=
  s.orVictim (g.freeSlot ctx) (s.kvVictim ctx true) (s.freeLeaf ctx) ⟨St.limitExceeded, g.poolSlots, 0⟩ (g.mapSlot ctx)

/-- A record of depth d has its pages on this device (R293). -/
def State.heldHere (s : State) (ctx : Nat) (g : KvGeom) (d : Nat) : Bool :=
  !(s.ctxOf ctx).kvSplit || decide (d % g.shards = g.shard)

/-- A new record, with a slot where its pages lie here. -/
def State.newRec (s : State) (ctx : Nat) (g : KvGeom) (r : KvRec) (held : Bool) : Except Verdict (Nat × State) :=
  (s.allocRec ctx g).bind (fun (k, t) =>
    -- the number is taken before the slot is looked for
    let t1 := t.setRec ctx k { r with held := false, slot := noRec, parkAt := never, freeAt := never }
    if held then (t1.allocSlot ctx g).map (fun (sl, u) => (k, u.modRec ctx k (fun x => { x with held := true, slot := sl })))
    else .ok (k, t1))

/-! ### Pages (R292 to R299) -/

/-- The stored format as a code of Table 3.4, tiles per head, and the bytes a page uses. -/
def KvGeom.fmtCode (g : KvGeom) : Nat := if g.fmt = 0 then 2 else if g.fmt = 1 then 0 else 4
def KvGeom.nt (g : KvGeom) : Nat := g.dim / 16
def KvGeom.tsz (g : KvGeom) : Nat := tileBytes g.fmtCode
def KvGeom.vBase (g : KvGeom) : Nat := g.hpp * g.nt * g.tsz
def KvGeom.sBase (g : KvGeom) : Nat := 2 * g.hpp * g.nt * g.tsz
def KvGeom.pageBytes (g : KvGeom) : Nat := g.sBase + 2048

/-- A byte of a page, by its offset, and which of its bits a write sets to what. -/
abbrev Poke := Nat × Nat × Nat

/-- Element i of the tile at a byte of a page. -/
def pokeEl (g : KvGeom) (base i code : Nat) : Poke :=
  if fmtWidth g.fmtCode = 4 then (base + i / 2, if i % 2 = 0 then 0x0F else 0xF0, if i % 2 = 0 then code % 16 else code % 16 * 16)
  else (base + i, 0xFF, code % 256)

/-- Slot r of the scale flit of the tile at a byte of a page. -/
def pokeScale (g : KvGeom) (base r slot : Nat) : List Poke :=
  let a := base + payloadBytes g.fmtCode + 2 * r
  [(a, 0xFF, slot % 256), (a + 1, 0xFF, slot / 256)]

/-- The scale slot of K for head h, dimension tile dt, among the lines of Table 9.3. -/
def KvGeom.lineOf (g : KvGeom) (h dt : Nat) : Nat := if g.fmt = 0 then h else if g.fmt = 1 then h * (g.dim / 32) + dt else 0

/-- What storing one position's K or V writes into its page (Tables 9.2 and 9.3). `a.row` is the position in the block. -/
def KvGeom.pokes (g : KvGeom) (a : KvAppend) : List Poke :=
  let p := a.row
  let els := (List.range (g.hpp * g.dim)).flatMap (fun i =>
    let h := i / g.dim
    let d := i % g.dim
    let code := a.codes.getD i 0
    if a.isV then
      let base := g.vBase + (h * g.nt + d / 32 * 2 + p / 32) * g.tsz
      pokeEl g base (d % 32 * 32 + p % 32) code :: pokeScale g base (d % 32) scaleOne
    else [pokeEl g ((h * g.nt + p / 32 * (g.dim / 32) + d / 32) * g.tsz) (p % 32 * 32 + d % 32) code])
  if a.isV then
    els ++ a.scales.zipIdx.flatMap (fun (sl, n) =>
      let v := bf16OfSlot sl
      let o := g.sBase + 2 * (n * 64 + p)
      [(o, 0xFF, v % 256), (o + 1, 0xFF, v / 256)])
  else
    els ++ (List.range (g.hpp * (g.dim / 32))).flatMap (fun i =>
      let h := i / (g.dim / 32)
      let dt := i % (g.dim / 32)
      pokeScale g ((h * g.nt + p / 32 * (g.dim / 32) + dt) * g.tsz) (p % 32) (a.scales.getD (g.lineOf h dt) 0))

/-- A byte with a poke applied. -/
def pokeByte (b : Byte) (k : Poke) : Byte := BitVec.ofNat 8 (b.toNat - (b.toNat &&& k.2.1) + k.2.2)

/-- Pokes of a page into the frame it lies in. -/
def State.pokePage (s : State) (ctx : Nat) (g : KvGeom) (slot j : Nat) (ks : List Poke) : State :=
  let a := g.pageAddr slot j
  match s.bmFind (s.ctxOf ctx).part ctx (a / blockBytes) with
  | some (_, e) =>
    if (e.state = 1 ∨ e.state = 2) ∧ e.tier < 2 then
      let base := fidOf e.tier e.loc * blockBytes + a % blockBytes
      { s with tiers := { s.tiers with mem := ks.foldl (fun m k => cellWrite m (base + k.1) [pokeByte (cellGet m (base + k.1)) k]) s.tiers.mem } }
    else s
  | none => s

/-- The bytes of part of a page with a list of pokes over them. -/
def overPokes (bs : List Byte) (off : Nat) (ks : List Poke) : List Byte :=
  ks.foldl (fun l k => if off ≤ k.1 ∧ k.1 < off + bs.length then listMod l (k.1 - off) (fun b => pokeByte b k) else l) bs

/-- The lines one position quantises into (R297, R298): the scale slots in the order of Table 9.3 and the element codes. -/
def KvGeom.quantise (g : KvGeom) (vs : List Nat) : List Nat × List Nat :=
  let len := if g.fmt = 0 then g.dim else if g.fmt = 1 then 32 else g.hpp * g.dim
  let lines := (List.range (ceilDiv (g.hpp * g.dim) len)).map (fun i =>
    quantLine g.fmtCode (g.fmt ≠ 1) false ((vs.drop (i * len)).take len))
  (lines.map (fun l => l.1), lines.flatMap (fun l => l.2))

/-- A page of a slot copied whole to another slot (R299). -/
def State.copySlot (s : State) (ctx : Nat) (g : KvGeom) (src dst : Nat) : State :=
  (List.range g.slotBlocks).foldl (fun t i =>
    t.rawPiece ctx (g.slotBlock dst + i) 0 (t.blockRead ctx (g.slotBlock src + i) 0 blockBytes)) s

/-! ### Parking (R310 to R316) -/

/-- The park of an idle record can start: no block of its slot is on its way or in a commit's preparation (R267). -/
def State.canPark (s : State) (ctx : Nat) (r : KvRec) : Bool :=
  (s.slotEntries ctx r).all (fun i => ((s.bmOf i).state = 1 || (s.bmOf i).state = 4) && !s.preparing i)

/-- The deadlines of a context that have been reached, first in order: time, depth, record, whether it frees. A FREE_AT at PARK_AT skips the
parked stage (R311); a park that cannot start yet does not hold the deadlines behind it up (log entry 162). -/
def State.kvDue (s : State) (ctx : Nat) : Option (Nat × Bool) :=
  let now := s.now
  let l := (s.ctxRecs ctx).flatMap (fun p =>
    (if p.2.stage = 1 ∧ p.2.parkAt ≠ never ∧ p.2.parkAt ≤ now ∧ p.2.parkAt < p.2.freeAt ∧ s.canPark ctx p.2 then [(p.2.parkAt, p.2.depth, p.1, false)] else []) ++
    (if p.2.active = 0 ∧ p.2.stage ≠ 0 ∧ p.2.freeAt ≠ never ∧ p.2.freeAt ≤ now then [(p.2.freeAt, p.2.depth, p.1, true)] else []))
  let before (a b : Nat × Nat × Nat × Bool) : Bool :=
    decide (b.1 < a.1) || (decide (b.1 = a.1) && (decide (a.2.1 < b.2.1) || (decide (a.2.1 = b.2.1) && decide (b.2.2.1 < a.2.2.1))))
  match l with
  | [] => none
  | h :: r =>
    let w := r.foldl (fun a b => if before a b then b else a) h
    some (w.2.2.1, w.2.2.2)

/-- A record is freed because the Park Log gave its place away or could not read it back (R314). -/
def State.parkedLost (s : State) (ctx record : Nat) : State :=
  (s.freeTree ctx record).modCtx ctx (fun c => { c with parkedLost := c.parkedLost + 1 })

/-- A place in the open park stripe; a new stripe takes the lowest free place and the next sequence number, and where none is
free the oldest stripe gives way with every park that has a live entry in it (R314). -/
def State.openPark (s : State) : State :=
  match s.kv.stripe with
  | some (_, _, used) => if used < stripePlaces then s else { s with kv := { s.kv with stripe := none } }.reapPark
  | none => s
def State.freeStripe (s : State) : Option Nat :=
  firstBelow s.store.parkSegments (fun k => !s.store.parkDead.contains k && s.kv.park.all (fun e => e.stripe ≠ k))
/-- The records with a live entry in a stripe. -/
def State.livePark (s : State) (k : Nat) : List (Nat × Nat) :=
  ((s.kv.park.filter (fun (x : ParkEntry) => x.stripe = k && !x.dead)).map (fun (x : ParkEntry) => (x.ctx, x.record))).eraseDups
def State.roomPark (s : State) : State :=
  let s1 := s.openPark
  match s1.kv.stripe with
  | some _ => s1
  | none =>
    let take (t : State) (k : Nat) : State :=
      { t with store := { t.store with seq := t.store.seq + 1 }, kv := { t.kv with stripe := some (k, t.store.seq + 1, 0) } }
    match s1.freeStripe with
    | some k => take s1 k
    | none =>
      let s2 := match s1.kv.park with
        | e :: _ =>
          if s1.store.parkDead ≠ [] then s1
          else
            let live := s1.livePark e.stripe
            live.foldl (fun (t : State) (x : Nat × Nat) => if (t.recOf x.1 x.2).state = 0 then t else t.parkedLost x.1 x.2) s1
        | [] => s1
      match s2.store.parkDead with
      | k :: r => take { s2 with store := { s2.store with parkDead := r } } k
      | [] => s2

/-- An entry is written into the Park Log. -/
def State.putPark (s : State) (e : ParkEntry) : State :=
  let s1 := s.roomPark
  match s1.kv.stripe with
  | none => s1
  | some (k, seq, used) =>
    { s1 with kv := { s1.kv with
        park := s1.kv.park ++ [{ e with entry := s1.kv.nextEntry, stripe := k, chan := (seq + 1 + used / 3) % 16 }],
        nextEntry := (s1.kv.nextEntry + 1) % 2 ^ 32, stripe := some (k, seq, used + 1) } }

/-- A segment whose last entry is a closing entry is sealed early where no entry is waiting. -/
def State.sealPark (s : State) : State :=
  if s.kv.recs.any (fun p => p.2.stage = 3) then s
  else { s with kv := { s.kv with stripe := s.kv.stripe.map (fun o => (o.1, o.2.1, roundUp o.2.2 3)) } }

/-- The data entry of one block of a parking record; none where making room has freed the record itself (R314). -/
def State.parkOne (s : State) (ctx record count first i : Nat) : State :=
  let t := s.roomPark
  let r := t.recOf ctx record
  if r.stage ≠ 3 then t
  else
    let e := t.bmOf i
    let idx := match (t.ctxOf ctx).geom with
      | some g => e.block - g.slotBlock r.slot
      | none => 0
    let fid := fidOf e.tier e.loc
    t.putPark { entry := 0, ctx := ctx, part := (t.ctxOf ctx).part, record := record, index := idx, count := count, first := first,
                closing := false, data := cellCopy (t.tiers.mem.filter (fun c => c.1 / blockBytes = fid)) (fid * blockBytes) blockBytes 0 }

/-- PARK_START: an idle record has reached PARK_AT; a data entry is written for each readable block of its slot. A slot larger than the
whole Park Log would overwrite entries of its own park, which frees the record (R314; log entry 163). -/
def execParkStart (ctx record : Nat) (s : State) : Out :=
  let es := (s.slotEntries ctx (s.recOf ctx record)).filter (fun i => (s.bmOf i).state = 1)
  onlyIf (decide (s.kvDue ctx = some (record, false))) s
    (if es ≠ [] ∧ s.store.parkSegments * stripePlaces ≤ es.length then s.parkedLost ctx record
     else es.foldl (fun t i => t.parkOne ctx record es.length s.kv.nextEntry i) (s.modRec ctx record (fun x => { x with stage := 3 })))

/-- A block becomes PARKED, naming its data entry; its frame is released. -/
def State.parkBlock (s : State) (i entry : Nat) : State :=
  let s1 := s.abandonMig i
  let e := s1.bmOf i
  let fid := fidOf e.tier e.loc
  (s1.bmChange i { e with state := 3, tier := 3, loc := entry } (some fid) none).drainFrame fid

/-- PARK_COMPLETE: the closing entry of a park is written and the slot's blocks become PARKED. -/
def execParkComplete (ctx record : Nat) (s : State) : Out :=
  let r := s.recOf ctx record
  let mine := s.kv.park.filter (fun e => e.ctx = ctx && e.record = record && !e.dead && !e.closing)
  onlyIf (decide (r.state ≠ 0) && decide (r.stage = 3) && (s.slotEntries ctx r).all (fun i => !s.preparing i)) s
    (let s0 := if mine = [] then s else s.roomPark
     if (s0.recOf ctx record).stage ≠ 3 then s0
     else
       let s1 := match mine with
         | e :: _ => s0.putPark { e with closing := true, index := 0, data := [] }
         | [] => s0
       let s2 := mine.foldl (fun t e =>
         match (t.ctxOf ctx).geom with
         | some g =>
           (match t.bmFind (t.ctxOf ctx).part ctx (g.slotBlock r.slot + e.index) with
           | some (i, b) => if b.state = 1 then t.parkBlock i e.entry else t
           | none => t)
         | none => t) s1
       (s2.modRec ctx record (fun x => { x with stage := 2 })).sealPark)

/-- KV_RECORD_EXPIRE: a record has reached FREE_AT with ACTIVE 0. -/
def execKvRecordExpire (ctx record : Nat) (s : State) : Out :=
  onlyIf (decide (s.kvDue ctx = some (record, true))) s (s.freeTree ctx record)

/-- The blocks a freed record takes with it: its own and those of every record whose chain includes it (R314). -/
def State.treeBlocks (s : State) (ctx num : Nat) : List Nat :=
  ((s.ctxRecs ctx).filter (fun p => (s.chain ctx p.1).contains num)).flatMap (fun p => s.slotBlocks ctx p.2)

/-- A command of a context waits on the bring-in of one of a list of blocks: a stream of it is halted there, it waits for the block itself, or
it is a KV_UNPARK of a chain with the block (R258, R315). -/
def State.waitsOn (s : State) (ctx : Nat) (blks : List Nat) : Bool :=
  s.usedSlots.any (fun p => p.2.ctx = ctx && p.2.state.isHalted && blks.contains (p.2.haltAddr / blockBytes)) ||
  s.allCmds.any (fun x =>
    let c := x.2.2
    namesContext c.words && c.ctx = ctx && !(c.isFinished && c.status ≠ 0) &&
    ((match s.waitingOn c with
      | some i => blks.contains (s.bmOf i).block
      | none => false) ||
     (c.op = 0x52 && (c.isRunning || c.isFinished) && (s.sessOf (fld (word c.eff 2) 11 0)).ctx = ctx &&
      (s.chain ctx (s.sessOf (fld (word c.eff 2) 11 0)).tail).any (fun k => (s.slotBlocks ctx (s.recOf ctx k)).any blks.contains))))

/-- PARK_BRING_IN: the copy of a parked block into a frame completes, near where that was asked and there is room, else bulk; a
failed read frees its record, and a command that waits on it tears the context down (R315). -/
def execParkBringIn (ctx record index : Nat) (err : ReadErr) (s : State) : Out :=
  let r := s.recOf ctx record
  match (s.ctxOf ctx).geom with
  | none => .next s
  | some g =>
    let blk := g.slotBlock r.slot + index
    match s.bmFind (s.ctxOf ctx).part ctx blk with
    | none => .next s
    | some (i, _) =>
      match s.migOf i with
      | none => .next s
      | some m =>
        match s.kv.park.find? (fun e => e.ctx = ctx && e.record = record && e.index = index && !e.closing && !e.dead && e.entry = m.src) with
        | none => .next s
        | some pe =>
          if m.kind ≠ 2 ∨ !r.held ∨ g.slotBlocks ≤ index then .next s
          else
            let openNow := match s.kv.stripe with
              | some o => o.1 = pe.stripe
              | none => false
            let lost : Bool := decide (err = .uncorrectable) || (decide (err = .corrected) && openNow)
            if lost then
              let low := (s.sess.filter (fun p => p.2.state ≠ 0 && p.2.ctx = ctx && (s.chain ctx p.2.tail).contains record)).head?
              if s.waitsOn ctx (s.treeBlocks ctx record) then
                .next ((s.flashLost pe.chan).teardown ctx ⟨St.parkLost, (low.map (fun p => p.1)).getD 0, 0⟩ hitRunning)
              else .next (((s.flashLost pe.chan).parkedLost ctx record).resumeBlock ctx blk)
            else
              let s0 := if err = .corrected then s.flashRebuilt pe.chan else s
              let dst := match (if m.tier = 0 && s0.quotaRoom ctx 0 1 then s0.allocFrame 0 else none) with
                | some x => some x
                | none => if s0.quotaRoom ctx 1 1 then s0.allocFrame 1 else none
              match dst with
              | none => .next s
              | some (fid, t) =>
                let t1 := { t with tiers := { t.tiers with
                  mem := cellWrite t.tiers.mem (fid * blockBytes) (cellRead pe.data 0 blockBytes) } }
                let e := t1.bmOf i
                let t2 := (t1.bmChange i { e with state := 1, tier := tierOfFid fid, loc := locOf fid } none none).setMig i none
                .next ((t2.killPark (fun x => x.entry = pe.entry && x.ctx = ctx && x.record = record)).resumeBlock ctx blk)

/-! ### Commands (Table 9.8) -/

/-- The session a word names belongs to the context and is not FREE (R319). -/
def State.sessOk (s : State) (ctx k : Nat) : Bool := decide ((s.sessOf k).state ≠ 0) && decide ((s.sessOf k).ctx = ctx)

/-- A session command that starts on a CANCELLING session ends (R340). -/
def State.cancelling (s : State) (ctx k : Nat) : Check :=
  need (!(s.sessOk ctx k && (s.sessOf k).state = 5)) St.sessionCancelled 0 0

/-- What a command requires of the session it names, as the session stands at its atomic step (R518): it is the context's and not FREE, it is
not CANCELLING (R340), and it meets what the command asks for. -/
def State.sessGate (s : State) (ctx k : Nat) (ok : Session → Bool) : Option Verdict :=
  if !s.sessOk ctx k then some ⟨St.invalidParameter, 2, 0⟩
  else if (s.sessOf k).state = 5 then some ⟨St.sessionCancelled, 0, 0⟩
  else if ok (s.sessOf k) then none
  else some ⟨St.invalidParameter, 2, 0⟩

/-- The blocks of a token list that match the directory from depth 0: keys of their entries, in order. -/
def State.matchAux (s : State) (ctx : Nat) : Nat → Nat → List Nat → List Nat
  | 0, _, _ => []
  | n + 1, key, toks =>
    if toks.length < 64 then []
    else
      match s.pdFind ctx key (tokenHash (toks.take 64)) (toks.take 64) with
      | some i =>
        let k := s.pdKey (s.ctxOf ctx).part i
        k :: s.matchAux ctx n k (toks.drop 64)
      | none => []
def State.matchPrefix (s : State) (ctx : Nat) (toks : List Nat) : List Nat :=
  s.matchAux ctx (toks.length / 64) 0xFFFFFFFF toks

/-- Blocks a lookup attaches of m matched. -/
def attachCount (ws : List Word) (m : Nat) : Nat :=
  let k := fld (word ws 6) 15 0
  if bit (word ws 6) 16 then (if k = 0 then m else if k ≤ m then k else 0) else 0

def execPrefixLookup (f q n : Nat) (errs : List MemErr) (s : State) : Out :=
  s.withErrs f q n 0x50 errs (fun s => s.work f q n 0x50 (fun c =>
    let ws := c.eff
    let k := fld (word ws 2) 11 0
    let cnt := wnat ws 5
    s.checked f q n c (reservedCheck ws [(2, 0xFFF), (3, 0xFFFFFFFF), (4, 0xFFFF), (5, 0xFFFFFFFF), (6, 0x1FFFF)] ++
        [param (s.ctxOf c.ctx).geom.isSome 2, s.cancelling c.ctx k, param (wnat ws 3 % 4 = 0) 3,
         param (decide (64 ≤ cnt) && decide (cnt ≤ 2 ^ 24)) 5])
      (s.withRange f q n c.ctx 3 (addr48 ws 3) (4 * cnt) true
        (let toks := (toWords (s.readCtx c.ctx (addr48 ws 3) (4 * cnt))).map (fun w => w.toNat)
         let keys := s.matchPrefix c.ctx toks
         (s.setWork f q n (.lookup k keys (attachCount ws keys.length))).done f q n keys.length 0))))

/-- The atomic step of a lookup: with ATTACH every entry followed must still hold its key (R308). -/
def State.commitLookup (s : State) (c : Cmd) : Commit :=
  match c.work with
  | .lookup k keys att =>
    let p := (s.ctxOf c.ctx).part
    let x := s.sessOf k
    let holds (key : Nat) : Bool :=
      let e := s.pdOf (s.pdBase p + key % 2 ^ 24)
      e.valid && e.ctx = c.ctx && e.gen = key / 2 ^ 24
    match s.sessGate c.ctx k (fun y => !bit (word c.eff 6) 16 || decide (y.tail = noRec)) with
    | some v => .fail v
    | none =>
    if att = 0 then .ok s keys.length 0
    else if x.inputCount ≤ 64 * att then .fail ⟨St.invalidParameter, 6, 0⟩
    else if !keys.all holds then .ok s keys.length 0
    else
      let tail := (s.pdOf (s.pdBase p + keys.getD (att - 1) 0 % 2 ^ 24)).record
      let s1 := s.refUp c.ctx tail
      let s2 := if x.active then s1.activate c.ctx tail else s1
      .ok (s2.modSess k (fun y => { y with tail := tail, length := 64 * att, inputDone := 64 * att }.bump)) keys.length att
  | _ => .ok s 0 0

def execKvPark (f q n : Nat) (s : State) : Out :=
  s.work f q n 0x51 (fun c =>
    let k := fld (word c.eff 2) 11 0
    s.checked f q n c (reservedCheck c.eff [(2, 0xFFF)] ++ [s.cancelling c.ctx k]) (s.done f q n 0 0))

/-- Every stage-1 record of a paused session's chain has PARK_AT set to now. -/
def State.commitPark (s : State) (c : Cmd) : Commit :=
  let k := fld (word c.eff 2) 11 0
  match s.sessGate c.ctx k (fun x => x.state = 4) with
  | some v => .fail v
  | none =>
    let l := (s.chain c.ctx (s.sessOf k).tail).filter (fun r => (s.recOf c.ctx r).stage = 1)
    .ok (l.foldl (fun t r => t.modRec c.ctx r (fun x => { x with parkAt := s.now })) s) l.length 0

/-- The Block Map entries of a session's chain whose blocks are in the Park Log, or coming out of it. -/
def State.chainParked (s : State) (ctx k : Nat) : List Nat :=
  if s.sessOk ctx k then
    ((s.chain ctx (s.sessOf k).tail).flatMap (fun r => s.slotEntries ctx (s.recOf ctx r))).filter (fun i =>
      (s.bmOf i).state = 3 || ((s.bmOf i).state = 2 && (match s.migOf i with
        | some m => decide (m.kind = 2)
        | none => false)))
  else []

/-- KV_UNPARK begins to bring a chain's parked blocks into bulk and counts them; it waits for the first that is on its way. -/
def State.unparkChain (s : State) (f q n k : Nat) (es : List Nat) (count : Nat) : State :=
  let start := es.filter (fun i => (s.bmOf i).state = 3)
  let t := (start.foldl (fun t i => t.bringIn i 1) s).setWork f q n (.kv k (count + start.length))
  match es with
  | i :: _ => t.awaitBlock f q n i 1
  | [] => t

/-- KV_UNPARK brings the chain's parked blocks into bulk; it finishes once every record is out of the Park Log. -/
def execKvUnpark (f q n : Nat) (s : State) : Out :=
  s.work f q n 0x52 (fun c =>
    let k := fld (word c.eff 2) 11 0
    s.checked f q n c (reservedCheck c.eff [(2, 0xFFF)] ++ [s.cancelling c.ctx k])
      (let es := s.chainParked c.ctx k
       match c.work with
       | .kv _ count => if es = [] then s.done f q n count 0 else s.unparkChain f q n k es count
       | _ => s.unparkChain f q n k es 0))

/-- The records of the chain that are idle restart their deadlines with the context's pair (R313); a park in progress is
abandoned. What has been parked since the command finished is brought in first. -/
def State.commitUnpark (s : State) (f q : Nat) (c : Cmd) : Commit :=
  let k := fld (word c.eff 2) 11 0
  let count := match c.work with
    | .kv _ count => count
    | _ => 0
  let es := s.chainParked c.ctx k
  match s.sessGate c.ctx k (fun _ => true) with
  | some v => .fail v
  | none =>
    if es ≠ [] then .wait (s.unparkChain f q c.n k es count)
    else
      let pair := ((s.ctxOf c.ctx).ttl1, (s.ctxOf c.ctx).ttl2)
      let l := (s.chain c.ctx (s.sessOf k).tail).filter (fun r => (s.recOf c.ctx r).active = 0)
      .ok (l.foldl (fun t r =>
        let t1 := if (t.recOf c.ctx r).stage = 3 then t.killPark (fun e => e.ctx = c.ctx && e.record = r) else t
        let t2 := (t1.modRec c.ctx r (fun x => { x with stage := 1 })).setDeadlines c.ctx r pair
        State.raiseFree c.ctx (t2.recOf c.ctx r).freeAt (t2.kv.recs.length + 1) t2 (t2.recOf c.ctx r).parent) s) count 0

def execKvRelease (f q n : Nat) (s : State) : Out :=
  s.work f q n 0x53 (fun c =>
    let ws := c.eff
    let all := bit (word ws 2) 24
    let g := (s.ctxOf c.ctx).geom
    let inRange := match g with
      | some g => all || decide (fld (word ws 2) 23 0 < g.records)
      | none => all
    s.checked f q n c (reservedCheck ws [(2, 0x1FFFFFF)] ++ [param inRange 2]) (s.done f q n 0 0))

/-- Every directory entry of the subtree goes, and every record left with REFS 0 is freed. -/
def State.commitRelease (s : State) (c : Cmd) : Commit :=
  let root := fld (word c.eff 2) 23 0
  let all := bit (word c.eff 2) 24
  let l := (s.ctxRecs c.ctx).filter (fun p => p.2.state ≠ 3 && (all || (s.chain c.ctx p.1).contains root))
  let pub := l.filter (fun p => p.2.published)
  let s1 := pub.foldl (fun t p => t.unpublish c.ctx p.1) s
  let s2 := l.foldl (fun t p =>
    let r := t.recOf c.ctx p.1
    if r.state ≠ 0 ∧ r.refs = 0 then t.freeLeaf c.ctx p.1 else t) s1
  .ok s2 ((s.ctxRecs c.ctx).length - (s2.ctxRecs c.ctx).length) pub.length

/-- KV_TTL_SET in mode 0. -/
def execKvTtlSet (f q n : Nat) (s : State) : Out :=
  s.work f q n 0x54 (fun c =>
    if bit (word c.eff 2) 0 then s
    else s.checked f q n c (reservedCheck c.eff [(2, 1), (3, 0xFFFFFFFF), (4, 0xFFFFFFFF)]) (s.done f q n 0 0))

/-- The geometry a configure form gives. -/
def geomOf (ws : List Word) : KvGeom :=
  let w := word ws 6
  { layers := fld w 7 0 + 1, groups := fld w 11 8 + 1, hpp := fld w 14 12, dim := 64 * 2 ^ fld w 17 16, fmt := fld w 19 18,
    pool := addr48 ws 3, poolBlocks := wnat ws 5, records := fld (word ws 7) 23 0, shards := fld (word ws 8) 8 0,
    shard := fld (word ws 8) 23 16 }

/-- A block counts as mapped for a new pool: it is mapped and does not belong to the old one. -/
def State.mappedOutside (s : State) (ctx blk : Nat) : Bool :=
  s.isMapped ctx blk && !s.inPool ctx (blk * blockBytes) blockBytes

/-- Whether any mapped block of a context, the old pool's apart, lies in a range of blocks. -/
def State.rangeMapped (s : State) (ctx first count : Nat) : Bool :=
  s.tiers.bm.any (fun p => p.2.state ≠ 0 && p.2.ctx = ctx && decide (first ≤ p.2.block) && decide (p.2.block < first + count) &&
    !s.inPool ctx (p.2.block * blockBytes) blockBytes)

/-- The checks of a configure form (R289 to R293). -/
def State.configChecks (s : State) (c : Cmd) : List Check :=
  let ws := c.eff
  let g := geomOf ws
  let w := word ws 6
  let x := s.ctxOf c.ctx
  reservedCheck ws [(2, 1), (3, 0xFFFFFFFF), (4, 0xFFFF), (5, 0xFFFFFFFF), (6, 0xF7FFF), (7, 0xFFFFFF), (8, 0xFF01FF)] ++
  [resv (fld w 17 16 ≠ 3 && fld w 19 18 ≠ 3) 6, param (s.ctxRecs c.ctx).isEmpty 2, param (g.pool % blockBytes = 0) 3,
   param (decide (1 ≤ g.poolBlocks) && decide (g.poolBlocks ≤ 2 ^ 26) && decide (g.pool + g.poolBlocks * blockBytes ≤ 2 ^ 48)) 5,
   param (decide (1 ≤ g.hpp) && decide (g.hpp ≤ 6) && decide (g.hpp * g.dim * g.tsz / 8 ≤ 30720)) 6,
   param (decide (1 ≤ g.records)) 7,
   param (decide (1 ≤ g.shards) && decide (g.shards ≤ 256) && decide (g.shard < g.shards) && (x.kvSplit || g.shards = 1)) 8,
   param (decide (g.poolSlots ≠ 0)) 5, param (!s.rangeMapped c.ctx (g.pool / blockBytes) g.poolBlocks) 3]

/-- KV_TTL_SET in its configure form: frames for the record area are taken now and mapped at the commit. -/
def execKvConfigure (f q n : Nat) (s : State) : Out :=
  s.work f q n 0x54 (fun c =>
    if !bit (word c.eff 2) 0 then s
    else
      let g := geomOf c.eff
      s.checked f q n c (s.configChecks c)
        (match s.mapFrames f q n c.ctx 2 0 0 (rangeBlocks (g.pool / blockBytes) g.recBlocks) with
         | some t => (t.setWork f q n (.geom g)).done f q n g.poolSlots g.recBlocks
         | none => s.endCmd f q n ⟨St.quotaExceeded, 1, 0⟩))

/-- Entries of a command's mappings are written: none where a slot is missing (R256). A frame that has been retired since it was taken gives an
INVALID entry (R285). -/
def State.writeMaps (s : State) (c : Cmd) : Option State :=
  let p := (s.ctxOf c.ctx).part
  c.maps.foldl (fun (a : Option State) m =>
    a.bind (fun t => (t.bmSlot p c.ctx m.1).map (fun i =>
      let at' := if m.2.tier = 2 then m.2.frame else locOf m.2.frame
      let e : BmEntry := { state := 1, tier := m.2.tier, hint := m.2.hint, code := m.2.code, part := p, ctx := c.ctx,
                           epoch := t.epoch % 64, loc := at', chip := m.2.chip, block := m.1 }
      let lost := decide (m.2.tier < 2) && decide (s.frameOf m.2.frame = .retired)
      t.bmChange i (if lost then { e with state := 4, tier := 1, loc := 0 } else e) none none))) (some s)

/-- The mappings of a command now belong to the map. -/
def State.keepMaps (s : State) (f q n : Nat) : State := s.modCmd f q n (fun x => { x with maps := [] })

/-- KV_TTL_SET at its commit, in either mode. -/
def State.commitTtl (s : State) (f q : Nat) (c : Cmd) : Commit :=
  match c.work with
  | .geom g =>
    (match verdictOf (s.configChecks c) with
    | some v => .fail v
    | none =>
      let old := (s.tiers.bm.filter (fun p => p.2.state ≠ 0 && p.2.ctx = c.ctx && s.inPool c.ctx (p.2.block * blockBytes) blockBytes)).map (fun p => p.1)
      let s1 := old.foldl (fun t i => t.unmapEntry i) s
      match s1.writeMaps c with
      | none => .fail ⟨St.tableFull, 3, 0⟩
      | some t => .ok ((t.keepMaps f q c.n).modCtx c.ctx (fun x => { x with geom := some g })) g.poolSlots g.recBlocks)
  | _ => .ok (s.modCtx c.ctx (fun x => { x with ttl1 := wnat c.eff 3, ttl2 := wnat c.eff 4 })) 0 0

end Sys2Proof.Machine
end

