-- ==== Sys2Proof/Machine/Sessions.lean ====
section
/-! DEFINITION. Sessions and shape words (R319 to R325, R339 to R345, R518): the commands and their atomic steps. -/
namespace Sys2Proof.Machine

/-! ### SHAPE_WRITE (R339) -/

/-- The value of a SHAPE_WRITE from its source words. -/
def shapeValue (op v : Nat) (src : List Word) : Nat :=
  let a := wnat src 0
  (match op with
  | 0 => v
  | 1 => a + v
  | 2 => min a v
  | _ => sumNat (src.map (fun w => w.toNat))) % 2 ^ 32

def execShapeWrite (f q n : Nat) (errs : List MemErr) (s : State) : Out :=
  s.withErrs f q n 0x33 errs (fun s => s.work f q n 0x33 (fun c =>
    let ws := c.eff
    let op := fld (word ws 2) 1 0
    let v := wnat ws 5
    let words := if op = 0 then 0 else if op = 3 then v else 1
    s.checked f q n c (reservedCheck ws [(2, 3), (3, 0xFFFFFFFF), (4, 0xFFFF), (5, 0xFFFFFFFF), (6, 0xFFFFFFFF), (7, 0xFFFF)] ++
        [param (wnat ws 3 % 4 = 0) 3, param (op ≠ 3 || (decide (1 ≤ v) && decide (v ≤ 1024))) 5,
         param (if op = 0 then wnat ws 6 = 0 else wnat ws 6 % 4 = 0) 6, param (op ≠ 0 || wnat ws 7 = 0) 7])
      (s.withRange f q n c.ctx 6 (addr48 ws 6) (4 * words) true
        (let r := shapeValue op v (toWords (s.readCtx c.ctx (addr48 ws 6) (4 * words)))
         s.withWrite f q n c.ctx 3 (addr48 ws 3) 4
           (s.putBytes f q n c.ctx (addr48 ws 3) (leBytes 4 r) none (fun t => t.done f q n r 0))))))

/-! ### SESSION_OPEN (R302, R324) -/

def execSessionOpen (f q n : Nat) (s : State) : Out :=
  s.work f q n 0x40 (fun c =>
    let ws := c.eff
    s.checked f q n c (reservedCheck ws [(2, 0x0FFF00FF), (3, 0xFFFFFFFF), (4, 0xFFFF), (5, 0xFFFFFFFF), (6, 0xFFFFFFFF),
          (7, 0xFFFFFFFF), (8, 0xFFFFFFFF), (9, 0xFFFFFFFF), (10, 0xFFFFFFFF), (11, 0x1FFF)] ++
        [param (wnat ws 3 % 4 = 0) 3, param (decide (wnat ws 5 ≤ 2 ^ 24)) 5])
      (s.done f q n 0 0))

/-- The lowest free session of a partition's range. -/
def State.freeSess (s : State) (p : Nat) : Option Nat :=
  ((List.range (s.sessCount p)).map (s.sessBase p + ·)).find? (fun k => (s.sessOf k).state = 0)

/-- The atomic step of SESSION_OPEN: a fork takes the other session's values and a reference on its tail now. -/
def State.commitOpen (s : State) (f : Nat) (c : Cmd) : Commit :=
  let ws := c.eff
  let w := word ws 2
  let fork := bit w 0
  let o := s.sessOf (fld w 27 16)
  let src : Session := if fork then o else {}
  let cnt := wnat ws 5
  let want := fld (word ws 11) 11 0
  let wantEn := bit (word ws 11) 12
  let wantOk := decide (s.sessBase f ≤ want) && decide (want < s.sessBase f + s.sessCount f) && (s.sessOf want).state = 0
  match verdictOf [
      param (!fork || (s.sessOk c.ctx (fld w 27 16) && o.state ≠ 5)) 2,
      param (decide (cnt ≠ 0) || (fork && o.pendingValid)) 5,
      param (decide (src.length + b2n src.pendingValid + cnt < wnat ws 6)) 6,
      param (!wantEn || wantOk) 11] with
  | some v => .fail v
  | none =>
    match (if wantEn then some want else s.freeSess f) with
    | none => .fail ⟨St.tableFull, 1, 0⟩
    | some k =>
      let s1 := (s.refUp c.ctx src.tail).activate c.ctx src.tail
      .ok (s1.modSess k (fun x => { Session.bump { version := x.version } with
        state := 1, unpub := bit w 1, spec := bit w 2, ttlOwn := bit w 3, deadline := fld w 7 4, ctx := c.ctx,
        length := src.length, tail := src.tail, pendingValid := src.pendingValid, pending := src.pending,
        input := addr48 ws 3, inputCount := cnt, maxLength := wnat ws 6, stopId := wnat ws 7, ttl1 := wnat ws 8, ttl2 := wnat ws 9,
        seed := wnat ws 10 })) k src.length

/-! ### SESSION_CLOSE, SESSION_PAUSE, SESSION_RESUME -/

/-- The session in word 2 [11:0]. -/
def sessionOf (ws : List Word) : Nat := fld (word ws 2) 11 0

def execSessionClose (f q n : Nat) (s : State) : Out :=
  s.work f q n 0x41 (fun c =>
    s.checked f q n c (reservedCheck c.eff [(2, 0xFFF)]) (s.done f q n 0 0))

/-- A session drops its reference on its tail and becomes FREE (R342). -/
def State.freeSession (s : State) (k : Nat) : State :=
  let x := s.sessOf k
  let s1 := if x.active then s.deactivate x.ctx x.tail (s.pairOf x) else s
  (s1.refDown x.ctx x.tail).modSess k (fun y => Session.bump { version := y.version })

def State.commitClose (s : State) (c : Cmd) : Commit :=
  let k := sessionOf c.eff
  if s.sessOk c.ctx k then .ok (s.freeSession k) (s.sessOf k).length 0 else .fail ⟨St.invalidParameter, 2, 0⟩

def execSessionPause (f q n : Nat) (s : State) : Out :=
  s.work f q n 0x43 (fun c =>
    s.checked f q n c (reservedCheck c.eff [(2, 0xFFF)] ++
        [s.cancelling c.ctx (sessionOf c.eff)]) (s.done f q n 0 0))

def State.commitPause (s : State) (c : Cmd) : Commit :=
  let k := sessionOf c.eff
  let x := s.sessOf k
  match s.sessGate c.ctx k (fun y => decide (y.state ≤ 3)) with
  | some v => .fail v
  | none => .ok ((s.deactivate c.ctx x.tail (s.pairOf x)).modSess k (fun y => { y with state := 4 }.bump)) x.length 0

def execSessionResume (f q n : Nat) (s : State) : Out :=
  s.work f q n 0x44 (fun c =>
    let ws := c.eff
    s.checked f q n c (reservedCheck ws [(2, 0x1FFF), (3, 0xFFFFFFFF), (4, 0xFFFF), (5, 0xFFFFFFFF)] ++
        [s.cancelling c.ctx (sessionOf ws), param (wnat ws 3 % 4 = 0) 3,
         param (decide (wnat ws 5 ≤ 2 ^ 24) && (!bit (word ws 2) 12 || decide (wnat ws 5 ≠ 0))) 5])
      (s.done f q n 0 0))

/-- The state a resumed session enters (Table 10.3). -/
def Session.resumed (x : Session) : Nat := if x.inputDone < x.inputCount then 1 else if x.ended then 3 else 2

def State.commitResume (s : State) (c : Cmd) : Commit :=
  let ws := c.eff
  let k := sessionOf ws
  let x := s.sessOf k
  let y : Session := if bit (word ws 2) 12 then
      { x with input := addr48 ws 3, inputCount := wnat ws 5, inputDone := 0, ended := false } else x
  match s.sessGate c.ctx k (fun z => z.state = 4) with
  | some v => .fail v
  | none =>
    match verdictOf [
        param ((y.pendingValid || decide (y.inputDone < y.inputCount)) && (!x.truncated || decide (y.inputDone < y.inputCount)) &&
          decide (y.length + b2n y.pendingValid + (y.inputCount - y.inputDone) < y.maxLength)) 5] with
    | some v => .fail v
    | none =>
      .ok ((s.activate c.ctx x.tail).modSess k (fun _ => { y with state := y.resumed, truncated := false }.bump)) y.resumed 0

/-! ### SESSION_CANCEL (R340, R341) -/

/-- A command names a session directly and ends when the session is cancelled. -/
def Cmd.namesSession (c : Cmd) (ctx k : Nat) : Bool :=
  namesContext c.words && c.ctx = ctx && (c.op = 0x50 || c.op = 0x51 || c.op = 0x52 || c.op = 0x43 || c.op = 0x44) &&
  sessionOf c.eff = k

/-- A step that holds an OK entry of a session; once a SPAN step's commit has been sent or has come, its outcomes stand (R338). -/
def Cmd.stepWith (c : Cmd) (ctx k : Nat) : Bool :=
  (c.isRunning || (c.isFinished && c.status = 0)) && c.ctx = ctx &&
  (match c.work with
    | .step st => c.op = 0x42 && !(st.span && st.committed) && st.entries.any (fun e => e.session = k && e.outcome = 0)
    | _ => false)

/-- An entry is dropped: it takes an outcome and what it had appended goes. -/
def StepEntry.drop (e : StepEntry) (outcome : Nat) : StepEntry := { e with outcome := outcome, kv := [] }

/-- The shadows a command holds of a slot's blocks are released. -/
def State.dropSlot (s : State) (f q n : Nat) (g : KvGeom) (slot : Nat) : State :=
  let bs := (List.range g.slotBlocks).map (g.slotBlock slot + ·)
  match s.cmdOf f q n with
  | some c => ((c.shadows.filter (fun p => bs.contains p.1)).foldl (fun t p => t.dropFrame p.2.frame) s).modCmd f q n (fun x =>
      { x with shadows := x.shadows.filter (fun p => !bs.contains p.1) })
  | none => s

/-- The shadows of tails that only entries which are not OK wrote are released (R334, R341). -/
def State.dropTails (s : State) (f q : Nat) (c : Cmd) (es : List StepEntry) : State :=
  match (s.ctxOf c.ctx).geom with
  | none => s
  | some g =>
    let kept := (es.filter (fun e => e.outcome = 0)).filterMap (fun e => e.tailSlot)
    let gone := (es.filter (fun e => e.outcome ≠ 0)).filterMap (fun e => e.tailSlot)
    (gone.filter (fun k => !kept.contains k)).foldl (fun t k => t.dropSlot f q c.n g k) s

/-- A step gives up its OK entry of a session: the outcome becomes CANCELLED, and its candidate record and shadows go (R341). A member that has
replied ready leaves its outcomes to the commit message (R338). -/
def State.giveUp (s : State) (f q : Nat) (c : Cmd) (st : StepRun) (k : Nat) : State :=
  let first := match s.jobOf c.ctx with
    | some j => decide (j.rank = 0)
    | none => false
  if st.span && (st.committed || (st.isReady && !first)) then s
  else
    let es := st.entries.map (fun e => if e.session = k ∧ e.outcome = 0 then { e.drop 2 with candRec := noRec } else e)
    let s1 := (st.entries.filter (fun e => e.session = k && e.outcome = 0)).foldl (fun t e => t.freeCand c.ctx e.candRec) s
    (s1.modCmd f q c.n (fun x => { x with work := .step { st with entries := es } })).dropTails f q c es

/-- A step drops the entry of a session; on a job the other members are told (R341). -/
def State.dropEntry (s : State) (f q : Nat) (c : Cmd) (k : Nat) : State :=
  match c.work with
  | .step st =>
    let others := match s.jobOf c.ctx with
      | some x => if st.span then x.others else []
      | none => []
    let s1 := (s.giveUp f q c st k).modCmd f q c.n (fun x => match x.work with
      | .step st' => { x with work := .step { st' with entries := st'.entries.map (fun e =>
          if e.session = k then { e with dropAcks := others.map (fun p => p.1) } else e) } }
      | _ => x)
    others.foldl (fun t p => t.jobCtrl c.ctx p.2 0x06 (leBytes 4 0 ++ leBytes 4 k)) s1
  | _ => s

/-- SESSION_CANCEL at its start marks the session, ends the commands that name it and drops its entries; it finishes when
the drops are acknowledged (CANCEL_RETIRE). A session the context does not have then is left to the atomic step (R518). -/
def execSessionCancel (f q n : Nat) (s : State) : Out :=
  s.work f q n 0x45 (fun c =>
    let k := sessionOf c.eff
    match c.work with
    | .sessionCancel _ _ _ => s
    | _ =>
      s.checked f q n c (reservedCheck c.eff [(2, 0xFFF)])
        (if !s.sessOk c.ctx k then s.setWork f q n (.sessionCancel k 0 []) else
         let hit := s.allCmds.filter (fun x => (x.2.2.isRunning || (x.2.2.isFinished && x.2.2.status = 0)) && x.2.2.namesSession c.ctx k)
         let steps := s.allCmds.filter (fun x => x.2.2.stepWith c.ctx k)
         let s1 := s.modSess k (fun x => if x.state = 5 then x else { x with returnState := x.state, state := 5 })
         let s2 := hit.foldl (fun t x => t.endCmd x.1 x.2.1 x.2.2.n ⟨St.sessionCancelled, 0, 0⟩) s1
         let s3 := steps.foldl (fun t x => t.dropEntry x.1 x.2.1 x.2.2 k) s2
         s3.setWork f q n (.sessionCancel k (hit.length + steps.length) (steps.map (fun x => (x.1, x.2.1, x.2.2.n))))))

/-- CANCEL_RETIRE: every device running a step has acknowledged the drop of the entry, and SESSION_CANCEL may commit. -/
def execCancelRetire (f q n : Nat) (s : State) : Out :=
  match s.started f q n 0x45 with
  | none => .next s
  | some c =>
    match c.work with
    | .sessionCancel k count steps =>
      let left := steps.any (fun x => match s.cmdOf x.1 x.2.1 x.2.2 with
        | some d => (match d.work with
          | .step st => st.entries.any (fun e => e.session = k && !e.dropAcks.isEmpty)
          | _ => false)
        | none => false)
      onlyIf (!left) s (s.done f q n count 0)
    | _ => .next s

/-- SESSION_CANCEL commits as SESSION_CLOSE does. -/
def State.commitCancel (s : State) (c : Cmd) : Commit :=
  let k := sessionOf c.eff
  if s.sessOk c.ctx k then .ok (s.freeSession k) c.resA.toNat 0 else .fail ⟨St.invalidParameter, 2, 0⟩

end Sys2Proof.Machine
end

