-- ==== Sys2Proof/Machine/Steps.lean ====
section
/-! DEFINITION. STEP (R326 to R338, R349 to R354): reading its structures, its rows, the streams it builds, the outcomes across
devices, and its atomic step. -/
namespace Sys2Proof.Machine

/-! ### The step map and the template (Tables 10.5 and 10.8) -/

/-- A station of the step map: its word, its bit, whether it is an output. Order: TOKENS, POS, KPAGE, VPAGE, VSCALE, KVOUT,
CHOICE, CAND. -/
def mapStation (m : List Word) (i : Nat) : Nat := fld (word m (i / 2)) (if i % 2 = 0 then 9 else 25) (if i % 2 = 0 then 0 else 16)
def mapNodes (m : List Word) : Nat := fld (word m 4) 6 0
def mapHeads (m : List Word) : Nat := fld (word m 4) 10 8
def mapTemplate (m : List Word) : Nat := addr48 m 5

/-- A field of a structure that breaks a rule: its byte offset and whether it is a reserved field. -/
abbrev BadField := Nat × Bool

/-- The verdict of the bad fields of a structure, in its order (R326). -/
def badVerdict (w : Nat) (l : List BadField) : Option Verdict :=
  match l.find? (fun b => b.2), l with
  | some b, _ => some ⟨St.reservedField, w, b.1⟩
  | none, b :: _ => some ⟨St.invalidParameter, w, b.1⟩
  | none, [] => none

/-- Bad fields of the step map. `verifies`: this device verifies. -/
def mapBad (m : List Word) (l : Layout) (verifies : Bool) : List BadField :=
  let st (i : Nat) : List BadField :=
    let k := mapStation m i
    let absent := (i = 6 && !verifies) || (i = 7 && (!verifies || mapNodes m = 1))
    let ok := if absent then decide (k = 0x3FF) else match l.img.stations[k]? with
      | some x => x.out = decide (5 ≤ i)
      | none => false
    if ok then [] else [(4 * (i / 2) + 2 * (i % 2), false)]
  let rs (i hi lo : Nat) : List BadField := if fld (word m i) hi lo ≠ 0 then [(4 * i + lo / 8, true)] else []
  (List.range 4).flatMap (fun i => st (2 * i) ++ rs i 15 10 ++ st (2 * i + 1) ++ rs i 31 26) ++
  (if 1 ≤ mapNodes m ∧ mapNodes m ≤ 64 then [] else [(16, false)]) ++ rs 4 7 7 ++
  (if decide (mapNodes m = 1) = decide (mapHeads m = 0) then [] else [(17, false)]) ++ rs 4 31 11 ++
  (if wnat m 5 % 4 = 0 then [] else [(20, false)]) ++ rs 6 31 16 ++ (List.range 9).flatMap (fun i => rs (7 + i) 31 0)

/-- Depth of a node by its parents. -/
def nodeDepthAux (par : List Nat) : Nat → Nat → Nat
  | 0, _ => 0
  | n + 1, i => if i = 0 then 0 else nodeDepthAux par n (par.getD i 0) + 1
def nodeDepth (par : List Nat) (i : Nat) : Nat := nodeDepthAux par 64 i

def tplParent (w : Word) : Nat := fld w 5 0
def tplHead (w : Word) : Nat := fld w 8 6
def tplRank (w : Word) : Nat := fld w 11 9

/-- Bad fields of a template (R330). -/
def templateBad (tpl : List Word) (heads : Nat) : List BadField :=
  let par := tpl.map tplParent
  tpl.zipIdx.flatMap (fun (w, i) =>
    if i = 0 then (if w = 0 then [] else [(0, true)])
    else
      let twin := (tpl.zipIdx.take i).any (fun p => p.2 ≠ 0 && fld p.1 11 0 = fld w 11 0)
      (if tplParent w < i then [] else [(4 * i, false)]) ++
      (if tplParent w < i ∧ tplHead w = nodeDepth par i ∧ tplHead w ≤ heads then [] else [(4 * i, false)]) ++
      (if twin then [(4 * i + 1, false)] else []) ++ (if fld w 31 12 = 0 then [] else [(4 * i + 1, true)]))

/-- Bad fields of the batch list. -/
def batchBad (b : List Word) : List BadField := b.zipIdx.flatMap (fun (w, i) => if fld w 31 13 = 0 then [] else [(4 * i + 1, true)])

/-! ### Entries and rows (R327, R328, R331) -/

/-- The outcome of a batch entry at the start (Table 10.6). -/
def State.entryOutcome (s : State) (ctx : Nat) (b : List Word) (i : Nat) : Nat :=
  let w := word b i
  let k := fld w 11 0
  let x := s.sessOf k
  if !s.sessOk ctx k then 5
  else if (b.take i).any (fun v => fld v 11 0 = k) then 4
  else if x.state = 5 then 2
  else if x.state ≠ (if bit w 12 then 1 else 2) then 1
  else 0

/-- Rows a prefill entry of a session takes. -/
def Session.prefillRows (x : Session) (chunk : Nat) : Nat := min chunk (b2n x.pendingValid + (x.inputCount - x.inputDone))

/-- The context range of the input tokens a prefill entry reads: address and count. -/
def Session.inputRange (x : Session) (chunk : Nat) : Nat × Nat :=
  (x.input + 4 * x.inputDone, x.prefillRows chunk - b2n x.pendingValid)

/-- A batch entry with its rows' tokens. -/
def State.makeEntry (s : State) (ctx chunk : Nat) (b tpl : List Word) (i : Nat) : StepEntry :=
  let w := word b i
  let k := fld w 11 0
  let x := s.sessOf k
  let o := s.entryOutcome ctx b i
  let r := s.recOf ctx x.tail
  let e : StepEntry := { session := k, gen := !bit w 12, outcome := o, version := x.version, startLen := x.length,
                         tailSlot := if o = 0 ∧ x.tail ≠ noRec ∧ r.held ∧ x.length % 64 ≠ 0 then some r.slot else none }
  if o ≠ 0 then e
  else if bit w 12 then
    let (a, m) := x.inputRange chunk
    { e with toks := (if x.pendingValid then [x.pending] else []) ++ (toWords (s.readCtx ctx a (4 * m))).map (fun v => v.toNat) }
  else
    match (if x.spec && decide (1 < tpl.length) then x.cand else none) with
    | some cand =>
      { e with tree := true, toks := tpl.zipIdx.map (fun (v, n) =>
          if n = 0 then x.pending else cand.getD (8 * (tplHead v - 1) + tplRank v) 0) }
    | none => { e with toks := [x.pending] }

/-- The entries number their rows across the step. -/
def numberRows : Nat → List StepEntry → List StepEntry
  | _, [] => []
  | r, e :: l => { e with firstRow := r } :: numberRows (r + e.toks.length) l

/-- The POS columns of a row of an entry (Table 10.7). -/
def State.posRow (s : State) (e : StepEntry) (par : List Nat) (i : Nat) : List Nat :=
  let d := if e.tree then nodeDepth par i else i
  let kind := if e.gen then (if e.tree ∧ i ≠ 0 then 2 else 1) else 0
  [e.startLen + d, e.session, kind, if e.tree then i else 0,
   if e.tree ∧ i ≠ 0 then e.firstRow + par.getD i 0 else e.firstRow + i, (s.sessOf e.session).seed]

/-- Tiles of a row stream of INT32 columns (R329). -/
def rowTiles (rows : List (List Nat)) (cols : Nat) : List Tile :=
  (List.range (ceilDiv rows.length 32)).map (fun t =>
    let l := (rows.drop (32 * t)).take 32
    { fmt := 9, rowsM1 := l.length - 1, colsM1 := cols - 1,
      data := packElems 9 ((List.range 1024).map (fun i => ((l.getD (i / 32) []).getD (i % 32) 0))) })

/-! ### The streams of a step -/

/-- A stream a step builds: station, whether it leaves the layout, the format of its tiles, its source. -/
structure StepStream where
  station : Nat
  out : Bool
  fmt : Nat
  src : StreamSrc
  deriving DecidableEq, Repr

/-- The runs of pages a step reads: for each page of a block, each entry with rows, each held record of its committed chain in
ascending depth: the address of the first tile, its format and the number of tiles. -/
def State.pageRuns (s : State) (ctx : Nat) (g : KvGeom) (es : List StepEntry) (off fmt count : Nat) : List (Nat × Nat × Nat) :=
  (List.range g.pages).flatMap (fun j => (es.filter (fun e => e.toks ≠ [])).flatMap (fun e =>
    ((s.chain ctx (s.sessOf e.session).tail).reverse.filter (fun k => (s.recOf ctx k).held)).map (fun k =>
      (g.pageAddr (s.recOf ctx k).slot j + off, fmt, count))))

/-- A LAYOUT 2 entry of KVOUT: page, entry, K or V, first row within the entry, rows. -/
structure KvItem where
  page : Nat
  entry : Nat
  isV : Bool
  first : Nat
  rows : Nat
  deriving DecidableEq, Repr

/-- The runs of an entry's rows, one for each block they touch: first row and rows. -/
def blockRunsAux : Nat → Nat → Nat → Nat → List (Nat × Nat)
  | 0, _, _, _ => []
  | n + 1, pos, first, left =>
    if left = 0 then [] else
    let k := min left (64 - pos % 64)
    (first, k) :: blockRunsAux n (pos + k) (first + k) (left - k)

/-- The LAYOUT 2 entries of KVOUT in order (R297, R329): only blocks this device holds. -/
def State.kvItems (s : State) (ctx : Nat) (g : KvGeom) (es : List StepEntry) : List KvItem :=
  (List.range g.pages).flatMap (fun j => es.zipIdx.flatMap (fun (e, i) =>
    let runs := if e.toks = [] then []
      else if e.tree then (if s.heldHere ctx g (e.startLen / 64) then [(0, e.toks.length)] else [])
      else (blockRunsAux (e.toks.length / 64 + 2) e.startLen 0 e.toks.length).filter (fun r => s.heldHere ctx g ((e.startLen + r.1) / 64))
    runs.map (fun r => (⟨j, i, false, r.1, r.2⟩ : KvItem)) ++ runs.map (fun r => ⟨j, i, true, r.1, r.2⟩)))

/-- The streams of the step map. -/
def State.stepStreams (s : State) (ctx : Nat) (l : Layout) (g : KvGeom) (m : List Word) (st : StepRun) (verifies : Bool) : List StepStream :=
  let es := st.entries
  let rows := es.flatMap (fun e => e.toks.map (fun t => [t]))
  let pos := es.flatMap (fun e => (List.range e.toks.length).map (s.posRow e st.parents))
  let r := st.rows
  let f := g.fmtCode
  let kvFmt := match l.img.stations[mapStation m 5]? with
    | some x => if 5 ≤ x.fmt ∧ x.fmt ≤ 7 then x.fmt else 5
    | none => 5
  let k := s.pageRuns ctx g es 0 f (g.hpp * g.nt)
  let v := s.pageRuns ctx g es g.vBase f (g.hpp * g.nt)
  let sc := s.pageRuns ctx g es g.sBase 5 1
  (if r = 0 then [] else [⟨mapStation m 0, false, 9, .tiles (rowTiles rows 1)⟩, ⟨mapStation m 1, false, 9, .tiles (rowTiles pos 6)⟩]) ++
  (if k = [] then [] else
    [⟨mapStation m 2, false, f, .pages k⟩, ⟨mapStation m 3, false, f, .pages v⟩, ⟨mapStation m 4, false, 5, .pages sc⟩]) ++
  (if s.kvItems ctx g es = [] then [] else [⟨mapStation m 5, true, kvFmt, .kvOut⟩]) ++
  (if r = 0 ∨ !verifies then [] else [⟨mapStation m 6, true, 9, .choice (ceilDiv r 32)⟩]) ++
  (if r = 0 ∨ !verifies ∨ mapNodes m = 1 then []
   else [⟨mapStation m 7, true, 9, .cand (ceilDiv r 32 * ceilDiv (8 * mapHeads m) 32)⟩])

/-- First owned row of a rank (R350). -/
def ownFirst (rank rows members : Nat) : Nat := rank * rows / members
/-- Rows of a rank. -/
def ownCount (rank rows members : Nat) : Nat := ownFirst (rank + 1) rows members - ownFirst rank rows members

/-- The format of RESID: its station's own float format; COMBINE takes it too (Table 11.2). -/
def Layout.residFmt (l : Layout) (resid : Nat) : Nat :=
  match l.img.stations[resid]? with
  | some x => if 5 ≤ x.fmt ∧ x.fmt ≤ 7 then x.fmt else 5
  | none => 5

/-- The router's streams of a routed step on this device (R349, Table 11.4), whether or not the device owns rows; IN and OUT carry what the
selection gives, so their length is known later. -/
def Job.routerStreams (j : Job) (l : Layout) (rows : Nat) : List StepStream :=
  match j.plan with
  | none => []
  | some p =>
    let own := ceilDiv (ownCount j.rank rows j.members.length) 32
    p.layers.zipIdx.flatMap (fun (y, i) =>
      let h := y.hTilesM1 + 1
      let col (n : Nat) : Nat := n * h
      let e := y.experts.length
      [⟨y.score, true, 7, .score i (ceilDiv rows 32 * ceilDiv e 32)⟩, ⟨y.hidden, true, y.dispFmt, .hidden i (col own)⟩,
       ⟨y.resid, true, l.residFmt y.resid, .resid i (col own)⟩, ⟨y.combine, false, l.residFmt y.resid, .combine i (col own)⟩] ++
      (y.experts.zipIdx.filter (fun x => x.1.host = j.rank)).flatMap (fun (x, k) =>
        [⟨x.inSt, false, y.dispFmt, .routerIn i k⟩, ⟨x.outSt, true, y.ansFmt, .routerOut i k⟩]))

/-- The descriptor a slot shows for a built stream: DIR and FORMAT. -/
def StepStream.desc (x : StepStream) : List Word := w32 (b2n x.out * 2 + x.fmt % 16 * 256) :: List.replicate 11 0

/-- The bindings of a step's streams, those that overflow apart (R158, R349). -/
def State.stepBinds (s : State) (ctx lnum : Nat) (l : Layout) (xs : List StepStream) : List (Bind × StreamSrc) × List Overflow :=
  let bs := xs.zipIdx.map (fun (x, i) =>
    let st := l.img.stations.getD x.station {}
    (({ idx := i, station := x.station, cluster := clusterOf (stationCore l st), desc := x.desc, count := 0 } : Bind), x.src, st, x.out))
  let ov (b : Bind × StreamSrc × Station × Bool) : Option Overflow :=
    if b.2.2.1.out ≠ b.2.2.2 then some ⟨lnum, b.1.station, 0xFFFF, 4, 0⟩ else s.bindOverflow ctx lnum l b.1 b.2.2.1
  let good := bs.filter (fun b => (ov b).isNone)
  let (made, past) := splitDescs lnum l (good.map (fun b => b.1))
  ((good.filter (fun b => made.contains b.1)).map (fun b => (b.1, b.2.1)), bs.filterMap ov ++ past)

/-! ### Starting a step -/

/-- The job a SPAN step runs on. -/
def State.spanJob (s : State) (c : Cmd) : Option Job :=
  if bit (word c.eff 2) 3 then (match s.jobOf c.ctx with
    | some j => if j.isOpen then some j else none
    | none => none)
  else none

/-- The layout routes under the context's job (R349). -/
def State.routedLayout (s : State) (ctx lnum : Nat) : Bool :=
  match s.jobOf ctx with
  | some j => j.isOpen && (match j.plan with
    | some p => p.layout = lnum
    | none => false)
  | none => false

/-- The routed run of a context that is at work, or has finished and not yet committed; the router carries one at a time, since
a live generation is the last one received (R360; log entry 21). -/
def State.routedRun (s : State) (ctx : Nat) : Option (Nat × Nat × Cmd × StepRun) :=
  s.allCmds.findSome? (fun x =>
    if (x.2.2.isRunning || x.2.2.isFinished) && x.2.2.op = 0x42 && x.2.2.ctx = ctx then
      (match x.2.2.work with
       | .step st => if st.span && s.routedLayout ctx st.layout then some (x.1, x.2.1, x.2.2, st) else none
       | _ => none)
    else none)

/-- Everything of a routed run has been sent and received: every layer's tiles and ends both ways. -/
def State.routerQuiet (s : State) (ctx : Nat) (st : StepRun) : Bool :=
  match s.jobOf ctx with
  | none => true
  | some j =>
    match j.plan with
    | none => true
    | some p =>
      !(st.span && s.routedLayout ctx st.layout) ||
      (decide (st.gen ≠ 0) && (List.range p.layers.length).all (fun i =>
        let r := tget {} s.router (ctx * 256 + i)
        r.sent && r.returned && j.others.all (fun o => r.dispEnds.contains o.1 && r.retEnds.contains o.1)))

/-- The load shape words of a plan: address and number (R354). -/
def ExpertPlan.loadRange (p : ExpertPlan) : Nat × Nat :=
  (p.loadAddr, if p.loadEn then sumNat (p.layers.map (fun y => y.experts.length + 2)) else 0)

/-- A value limited by R326: 0 is INVALID_PARAMETER and too large LIMIT_EXCEEDED, unless a shape word gave it. -/
def limitCheck (c : Cmd) (w limit : Nat) : List Check :=
  let v := wnat c.eff w
  let sub := indirectOf c.words && nbit (indMaskOf c.words) (w - 2)
  [param (v ≠ 0 && (!sub || decide (v ≤ limit))) w, need (sub || decide (v ≤ limit)) St.limitExceeded limit 0]

/-- The checks of STEP's words. -/
def State.stepChecks (s : State) (c : Cmd) : List Check :=
  let ws := c.eff
  let lnum := fld (word ws 2) 2 0
  let span := bit (word ws 2) 3
  let n := wnat ws 6
  let load := match s.jobOf c.ctx with
    | some j => (match j.plan with
      | some p => p.loadRange
      | none => (0, 0))
    | none => (0, 0)
  reservedCheck ws [(2, 0xF), (3, 0xFFFFFFFF), (4, 0xFFFF), (5, 0xFFFFFFFF), (6, 0xFFFFFFFF), (7, 0xFFFFFFFF), (8, 0xFFFF),
    (9, 0xFFFFFFFF), (10, 0xFFFF), (11, 0xFFFFFFFF), (12, 0x1FFFF)] ++
  [param (s.layoutOf c.ctx lnum).isSome 2, param (s.ctxOf c.ctx).geom.isSome 2, param (!span || (s.spanJob c).isSome) 2,
   param (span || !s.routedLayout c.ctx lnum) 2,
   param (!(span && s.routedLayout c.ctx lnum && decide (load.2 ≠ 0) && s.inPool c.ctx load.1 (4 * load.2))) 2,
   param (wnat ws 3 % 4 = 0 && !s.inPool c.ctx (addr48 ws 3) (4 * n)) 3, param (wnat ws 7 % 64 = 0 && !s.inPool c.ctx (addr48 ws 7) 64) 7,
   param (wnat ws 9 % 64 = 0 && !s.inPool c.ctx (addr48 ws 9) (64 * n)) 9,
   param (wnat ws 11 % 4 = 0 && !(bit (word ws 12) 16 && s.inPool c.ctx (addr48 ws 11) (4 * (4 + n)))) 11] ++
  limitCheck c 5 8192 ++ limitCheck c 6 1024

/-- Candidate records for the tree entries; where one cannot be had, the verdict (R304, R309). -/
def State.takeCands (s : State) (ctx : Nat) (g : KvGeom) (es : List StepEntry) : Except Verdict (List StepEntry × State) :=
  es.foldl (fun (a : Except Verdict (List StepEntry × State)) e => a.bind (fun (l, t) =>
    if e.tree then
      let d := e.startLen / 64
      (t.newRec ctx g { state := 3, refs := 1, depth := d } (t.heldHere ctx g d)).map (fun (k, u) => (l ++ [{ e with candRec := k }], u))
    else .ok (l ++ [e], t))) (.ok ([], s))

/-- The most urgent of the command's class and those of its OK entries (R337). -/
def State.stepDeadline (s : State) (c : Cmd) (es : List StepEntry) : Nat :=
  es.foldl (fun a e => if e.outcome = 0 then min a (s.sessOf e.session).deadline else a) (deadlineOf c.words)

/-- The verifier issues a generation for a routed run: the counter skips 0, and every other member is told (R360). -/
def State.issueGen (s : State) (ctx : Nat) : State :=
  match s.jobOf ctx with
  | none => s
  | some j =>
    let g := if j.genCounter = 2 ^ 32 - 1 then 1 else j.genCounter + 1
    let s1 := s.modJob ctx (fun x => { x with genCounter := g, gen := g, genEnded := false })
    j.others.foldl (fun t p => t.jobCtrl ctx p.2 0x01 (leBytes 4 g)) s1

/-- The step's run is set up: candidates taken, streams bound. -/
def State.beginStep (s : State) (f q : Nat) (c : Cmd) (l : Layout) (g : KvGeom) (m tpl batch : List Word) : State :=
  let ws := c.eff
  let lnum := fld (word ws 2) 2 0
  let es := numberRows 0 ((List.range batch.length).map (s.makeEntry c.ctx (wnat ws 5) batch tpl))
  let rows := sumNat (es.map (fun e => e.toks.length))
  let job := s.spanJob c
  let routed := job.isSome && s.routedLayout c.ctx lnum
  let verifies := match job with
    | some j => decide (j.rank = 0)
    | none => true
  if routed ∧ 65536 < rows then s.endCmd f q c.n ⟨St.limitExceeded, 65536, 0⟩
  else if routed ∧ (s.routedRun c.ctx).isSome then s
  else
    match s.takeCands c.ctx g es with
    | .error v => s.endCmd f q c.n v
    | .ok (es1, s1) =>
      let st : StepRun := {
        layout := lnum, span := job.isSome, chunk := wnat ws 5, resultAddr := addr48 ws 9,
        shapeOut := if bit (word ws 12) 16 then some (addr48 ws 11) else none, treeNodes := mapNodes m, heads := mapHeads m,
        parents := tpl.map tplParent, rows := rows, entries := es1 }
      let xs := s1.stepStreams c.ctx l g m st verifies ++ (if routed then (match job with
        | some j => j.routerStreams l rows
        | none => []) else [])
      let (bs, ovs) := s1.stepBinds c.ctx lnum l xs
      if !s1.slotsRoom c.ctx lnum l (bs.map (fun b => b.1)) then s
      else
        let dl := s1.stepDeadline c es1
        let s2 := bs.foldl (fun t b => t.loadSlot b.1.cluster { b.1.slot f q c lnum with src := b.2, deadline := dl }) s1
        let s3 := (s2.modCmd f q c.n (fun x => { x with overflows := x.overflows ++ ovs })).setWork f q c.n (.step st)
        if routed then
          let s4 := if verifies then s3.issueGen c.ctx else s3
          { s4 with router := (match s4.jobOf c.ctx with
            | some j => (match j.plan with
              | some p => (List.range p.layers.length).foldl (fun t i => tset {} t (c.ctx * 256 + i) {}) s4.router
              | none => s4.router)
            | none => s4.router) }
        else s3

/-- The first stage of a STEP: its structures are read and checked. -/
def State.startStep (s : State) (f q : Nat) (c : Cmd) : State :=
  let ws := c.eff
  let n := wnat ws 6
  let lnum := fld (word ws 2) 2 0
  s.withRange f q c.n c.ctx 3 (addr48 ws 3) (4 * n) true (s.withRange f q c.n c.ctx 7 (addr48 ws 7) 64 true
    (let batch := toWords (s.readCtx c.ctx (addr48 ws 3) (4 * n))
     let m := toWords (s.readCtx c.ctx (addr48 ws 7) 64)
     let verifies := match s.spanJob c with
       | some j => decide (j.rank = 0)
       | none => true
     match s.layoutOf c.ctx lnum, (s.ctxOf c.ctx).geom with
     | some l, some g =>
       (match pickVerdict ((badVerdict 3 (batchBad batch)).toList ++ (badVerdict 7 (mapBad m l verifies)).toList) with
        | some v => s.endCmd f q c.n v
        | none =>
          let k := mapNodes m
          if s.inPool c.ctx (mapTemplate m) (4 * k) then s.endCmd f q c.n ⟨St.invalidParameter, 7, 0⟩
          else s.withRange f q c.n c.ctx 7 (mapTemplate m) (4 * k) true
            (let tpl := toWords (s.readCtx c.ctx (mapTemplate m) (4 * k))
             match badVerdict 7 (templateBad tpl (mapHeads m)) with
             | some v => s.endCmd f q c.n v
             | none =>
               s.withRange f q c.n c.ctx 9 (addr48 ws 9) (64 * n) false
                 (s.withRange f q c.n c.ctx 11 (addr48 ws 11) (if bit (word ws 12) 16 then 4 * (4 + n) else 0) true
                   (let inputs := (List.range n).filterMap (fun i =>
                      if s.entryOutcome c.ctx batch i = 0 ∧ bit (word batch i) 12 then
                        some ((s.sessOf (fld (word batch i) 11 0)).inputRange (wnat ws 5)) else none)
                    inputs.foldr (fun r k => s.withRange f q c.n c.ctx 3 r.1 (4 * r.2) true k) (s.beginStep f q c l g m tpl batch)))))
     | _, _ => s))

/-! ### Outcomes (R332, R333, R338) -/

/-- The accepted path of a tree: nodes by depth (the pseudocode of R332). -/
def acceptedPath (toks par choice : List Nat) : List Nat :=
  let n := toks.length
  let acc := (List.range n).foldl (fun (a : List Bool) i =>
    a ++ [if i = 0 then true
          else a.getD (par.getD i 0) false && choice.getD (par.getD i 0) 0 = toks.getD i 0]) []
  let best := (List.range n).foldl (fun b i => if acc.getD i false ∧ nodeDepth par b < nodeDepth par i then i else b) 0
  let up := (List.range (nodeDepth par best)).foldl (fun (l : List Nat) _ => par.getD (l.headD 0) 0 :: l) [best]
  up

/-- New tokens cut back (R324): up to the first STOP_ID, and to the room under MAX_LENGTH. -/
def cutTokens (stop room : Nat) (toks : List Nat) : List Nat :=
  let l := toks.take room
  if stop = 0xFFFFFFFF then l
  else match l.findIdx? (fun t => t = stop) with
    | some i => l.take (i + 1)
    | none => l

/-- The choices of an entry's rows. -/
def StepEntry.choices (e : StepEntry) : List Nat := (List.range e.toks.length).map (fun i => tget 0 e.choice i)

/-- The accepted path and the new tokens of an OK entry, and the CAND row it keeps. -/
def State.decideEntry (s : State) (st : StepRun) (e : StepEntry) : StepEntry :=
  if e.outcome ≠ 0 then e
  else
    let x := s.sessOf e.session
    let ch := e.choices
    let keep (row : Nat) : Option (List Nat) := if st.heads = 0 then none else some (tget [] e.cands row)
    if e.gen then
      let path := if e.tree then acceptedPath e.toks st.parents ch else [0]
      let toks := cutTokens x.stopId (x.maxLength - 1 - x.length) ((path.drop 1).map (fun i => e.toks.getD i 0) ++ [ch.getD (path.getLastD 0) 0])
      { e with path := path.take toks.length, newToks := toks, newCand := keep ((path.take toks.length).getLastD 0) }
    else
      let m := e.toks.length
      let last := x.inputDone + (m - b2n x.pendingValid) = x.inputCount
      { e with path := List.range m, newToks := if last then [ch.getD (m - 1) 0] else [], newCand := keep (m - 1) }

/-- An OK entry whose session has changed since the start is STALE, and one whose session is being cancelled CANCELLED. -/
def State.checkEntry (s : State) (ctx : Nat) (e : StepEntry) : StepEntry :=
  if e.outcome = 0 ∧ (!s.sessOk ctx e.session ∨ (s.sessOf e.session).version ≠ e.version) then e.drop 3 else e

/-- Every stream of the step has ended and nothing has gone wrong. -/
def State.stepQuiet (s : State) (f q : Nat) (c : Cmd) (st : StepRun) : Bool := s.streamsDone f q c && s.routerQuiet c.ctx st

/-! ### The atomic step (R303, R309, R324, R334 to R336) -/

/-- What an entry appended for row `row` of page j: what arrived, or free values where another device wrote it (R309). -/
def State.kvFor (s : State) (g : KvGeom) (e : StepEntry) (j row : Nat) (isV : Bool) : KvAppend × State :=
  match e.kv.find? (fun a => a.page = j && a.row = row && a.isV = isV) with
  | some a => (a, s)
  | none =>
    let n := g.hpp * g.dim
    let lines := if g.fmt = 0 then g.hpp else if g.fmt = 1 then n / 32 else 1
    ({ page := j, isV := isV, row := row, codes := (List.range n).map (fun i => Config.freeValue (s.free + i) % 256),
       scales := (List.range lines).map (fun i => Config.freeValue (s.free + n + i) % 65536) }, s.freeNext (n + lines))

/-- The pages of one new position are written into its record's slot. -/
def State.putPosition (s : State) (ctx : Nat) (g : KvGeom) (e : StepEntry) (slot row pos : Nat) : State :=
  (List.range g.pages).foldl (fun t j =>
    let (k, t1) := t.kvFor g e j row false
    let (v, t2) := t1.kvFor g e j row true
    t2.pokePage ctx g slot j (g.pokes { k with row := pos } ++ g.pokes { v with row := pos })) s

/-- The tail a session writes into: itself, a new child where it is full or absent, a private copy where it is shared, by REFS as committed
before the step (`old`; R303, log entry 87). A tail written in place is written through shadows of its slot; a copied one's are released. -/
def State.openTail (s old : State) (f q n ctx : Nat) (g : KvGeom) (k : Nat) : Except Verdict (Nat × State) :=
  let x := s.sessOf k
  let t := x.tail
  let r := s.recOf ctx t
  let first := decide ((old.sessOf k).tail = t)
  if t = noRec ∨ r.filled = 64 then
    let d := if t = noRec then 0 else r.depth + 1
    (s.newRec ctx g { state := 1, parent := t, refs := 1, active := 1, depth := d } (s.heldHere ctx g d)).map (fun (m, u) =>
      (m, u.modSess k (fun y => { y with tail := m })))
  else if first ∧ 1 < (old.recOf ctx t).refs then
    (s.newRec ctx g { state := 1, parent := r.parent, refs := 1, filled := r.filled, depth := r.depth, toks := r.toks } r.held).map
      (fun (m, u) =>
        let u1 := if r.held then (u.copySlot ctx g r.slot (u.recOf ctx m).slot).dropSlot f q n g r.slot else u
        let u2 := (u1.refUp ctx r.parent).activate ctx m
        let u3 := (u2.deactivate ctx t (u2.pairOf x)).refDown ctx t
        (m, u3.modSess k (fun y => { y with tail := m })))
  else if first ∧ r.held then
    match (s.slotBlocks ctx r).foldl (fun (a : Option State) b => a.bind (fun u => (u.withShadow f q n ctx b).map (fun p => p.2))) (some s) with
    | some u => .ok (t, u)
    | none => .error ⟨St.quotaExceeded, 1, 0⟩
  else .ok (t, s)

/-- One position is appended: its codes, its token id, and the publication of a record it fills. -/
def State.appendOne (s old : State) (f q n ctx : Nat) (g : KvGeom) (e : StepEntry) (row : Nat) : Except Verdict State :=
  (s.openTail old f q n ctx g e.session).map (fun (k, t) =>
    let r := t.recOf ctx k
    let t1 := if r.held then t.putPosition ctx g e r.slot row r.filled else t
    let t2 := t1.modRec ctx k (fun x => { x with filled := x.filled + 1, toks := x.toks ++ [e.toks.getD row 0] })
    let t3 := t2.modSess e.session (fun y => { y with length := y.length + 1 })
    if r.filled = 63 then t3.publishRec ctx k (t3.sessOf e.session).unpub else t3)

/-- The Session Table entry after an entry commits (R324, R328, R333); a cancel that came after the job's commit keeps its mark (R340). -/
def Session.afterStep (x : Session) (e : StepEntry) : Session :=
  let last := e.newToks.getLast?
  let y := if e.gen then x else { x with inputDone := x.inputDone + (e.toks.length - b2n x.pendingValid) }
  let z := match last with
    | some t => { y with pending := t, pendingValid := true }
    | none => { y with pendingValid := false }
  let ended := match last with
    | some t => (x.stopId ≠ 0xFFFFFFFF && t = x.stopId) || decide (z.length + 1 = z.maxLength)
    | none => false
  let st := if ended then 3 else if z.inputDone < z.inputCount then 1 else 2
  let w : Session := { z with cand := e.newCand, ended := z.ended || ended, state := if x.state = 5 then 5 else st,
                              returnState := if x.state = 5 then st else z.returnState }
  w.bump

/-- An OK entry takes effect. -/
def State.commitEntry (s old : State) (f q n ctx : Nat) (g : KvGeom) (e : StepEntry) : Except Verdict State :=
  let s1 : Except Verdict State := if e.outcome = 0 then
      (e.path.foldl (fun (a : Except Verdict State) row => a.bind (fun t => t.appendOne old f q n ctx g e row)) (.ok s)).map
        (fun t => t.modSess e.session (fun x => x.afterStep e))
    else .ok s
  s1.map (fun t => t.freeCand ctx e.candRec)

/-- The result record of an entry (Table 10.9). -/
def State.resultRecord (s : State) (e : StepEntry) : List Word :=
  let x := s.sessOf e.session
  let toks := if e.outcome = 0 then e.newToks else []
  [w32 (e.session + e.outcome * 2 ^ 12 + toks.length * 2 ^ 16 + b2n (e.outcome = 0 && x.state = 3) * 2 ^ 20), w32 x.length,
   w32 x.inputDone, w32 x.version] ++ (List.range 8).map (fun i => w32 (toks.getD i 0xFFFFFFFF)) ++ [0, 0, 0, 0]

/-- The shape words of a step (Table 10.10). -/
def State.shapeWords (s : State) (st : StepRun) (es : List StepEntry) : List Word :=
  let acc (e : StepEntry) : Nat := if e.outcome = 0 then e.newToks.length else 0
  let ok := es.filter (fun e => e.outcome = 0)
  [w32 st.rows, w32 (sumNat (es.map acc)), w32 ok.length, w32 (ok.filter (fun e => (s.sessOf e.session).state = 3)).length] ++
  es.map (fun e => w32 (acc e))

/-- Bytes a committing step writes, through its shadows. -/
def State.commitBytes (s : State) (f q : Nat) (c : Cmd) (addr : Nat) (bs : List Byte) : Except Verdict State :=
  match s.writeCtx f q c.n c.ctx addr bs none with
  | some t => .ok t
  | none => .error ⟨St.quotaExceeded, 1, 0⟩

/-- The load shape words and skipped-row counters of a routed step (R353, R354); the live generation ends with the run that carries it, and stays
where a later one has been announced (R361). -/
def State.commitRouter (s : State) (f q : Nat) (c : Cmd) (st : StepRun) : Except Verdict State :=
  match s.jobOf c.ctx with
  | none => .ok s
  | some j =>
    match (if st.gen = 0 then none else j.plan) with
    | none => .ok s
    | some p =>
      let s1 := s.modCtx c.ctx (fun x => { x with skipped := p.layers.zipIdx.foldl (fun t (_, i) =>
        tmod 0 t i (fun n => satAdd 32 n (tget 0 st.skipped i))) x.skipped })
      let s1' := if j.gen = st.gen then (s1.modJob c.ctx (fun x => { x with genEnded := true })).flushHeld c.ctx else s1
      let s2 := { s1' with router := s1'.router.filter (fun r => r.1 / 256 ≠ c.ctx) }
      if p.loadEn then
        let ws := p.layers.zipIdx.flatMap (fun (y, i) =>
          [w32 st.rows, w32 (tget 0 st.skipped i)] ++ (List.range y.experts.length).map (fun x => w32 (tget 0 st.chosen (i * 512 + x))))
        s2.commitBytes f q c p.loadAddr (wordBytes ws)
      else .ok s2

/-- The slot blocks a step's OK entries copy or write beside what they allocate: of tails found partly filled, and of candidate records. -/
def State.stepBlocks (s : State) (ctx : Nat) (g : KvGeom) (es : List StepEntry) : List Nat :=
  (es.filter (fun e => e.outcome = 0 && !e.path.isEmpty)).flatMap (fun e =>
    (match e.tailSlot with
      | some k => (List.range g.slotBlocks).map (g.slotBlock k + ·)
      | none => []) ++ (if e.tree then s.slotBlocks ctx (s.recOf ctx e.candRec) else []))

/-- What the preparation of a step meets at one of those blocks: a verdict, or the entry it waits for (R258, R267). -/
def State.stepBlock (s : State) (ctx b : Nat) : Option (Verdict ⊕ Nat) :=
  match s.touch ctx b with
  | .migrating i => some (.inr i)
  | .parked i => some (.inr i)
  | .busy i => some (.inr i)
  | .invalid r => some (.inl (invalidVerdict r (b * blockBytes)))
  | _ => none

/-- Preparation (R334) and atomic step of STEP. -/
def State.commitStep (s : State) (f q : Nat) (c : Cmd) : Commit :=
  match c.work, (s.ctxOf c.ctx).geom with
  | .step st, some g =>
    let es := if st.span then st.entries else st.entries.map (s.checkEntry c.ctx)
    (match (s.stepBlocks c.ctx g es).findSome? (s.stepBlock c.ctx) with
    | some (.inl v) => .fail v
    | some (.inr i) => .prep i 0
    | none =>
    let r : Except Verdict State := es.foldl (fun a e => a.bind (fun t => t.commitEntry s f q c.n c.ctx g e)) (.ok (s.dropTails f q c es))
    let r2 := r.bind (fun t => t.commitBytes f q c st.resultAddr (wordBytes (es.flatMap t.resultRecord)))
    let r3 := r2.bind (fun t => match st.shapeOut with
      | some a => t.commitBytes f q c a (wordBytes (t.shapeWords st es))
      | none => .ok t)
    (match r3.bind (fun t => t.commitRouter f q c st) with
     | .error v => .fail v
     | .ok t =>
       let ok := es.filter (fun e => e.outcome = 0)
       .ok (t.modCmd f q c.n (fun x => { x with work := .none })) ok.length (sumNat (ok.map (fun e => e.newToks.length)))))
  | _, _ => .ok s 0 0

/-! ### The outcomes across devices (R338) -/

/-- Words as the bytes of a message. -/
def numBytes (l : List Nat) : List Byte := l.flatMap (leBytes 4)

/-- What the verifier sends of entry i (log entry 12). -/
def outcomeMsg (i n : Nat) (e : StepEntry) : List Byte :=
  let cand := e.newCand.getD []
  numBytes ([i, n, e.outcome, e.newToks.length] ++ e.newToks ++ [e.path.length] ++ (if e.gen then e.path else []) ++
    [b2n e.newCand.isSome, cand.length] ++ cand)

/-- The outcomes of all entries, one byte each. -/
def outcomeBytes (es : List StepEntry) : List Byte := padToWord (es.map (fun e => BitVec.ofNat 8 e.outcome))
where padToWord (l : List Byte) : List Byte := l ++ List.replicate ((4 - l.length % 4) % 4) 0

/-- Outcomes other than OK are taken over. -/
def mergeOutcomes (es : List StepEntry) (bs : List Byte) : List StepEntry :=
  es.zipIdx.map (fun (e, i) =>
    let o := (bs.getD i 0).toNat
    if e.outcome = 0 ∧ o ≠ 0 then e.drop o else e)

/-- The entry a verifier's message describes. -/
def readOutcome (e : StepEntry) (ws : List Word) : StepEntry :=
  let k := wnat ws 3
  let toks := ((ws.drop 4).take k).map (fun w => w.toNat)
  let r := ws.drop (4 + k)
  let p := wnat r 0
  let path := if e.gen then ((r.drop 1).take p).map (fun w => w.toNat) else List.range p
  let r2 := r.drop (1 + (if e.gen then p else 0))
  let cand := ((r2.drop 2).take (wnat r2 1)).map (fun w => w.toNat)
  if e.outcome = 0 ∧ wnat ws 2 ≠ 0 then e.drop (wnat ws 2)
  else { e with newToks := toks, path := path, newCand := if wnat r2 0 = 1 then some cand else none }

/-- The work of a step with its state changed. -/
def State.setStep (s : State) (f q n : Nat) (st : StepRun) : State := s.modCmd f q n (fun x => { x with work := .step st })

/-- The run of a STEP. -/
def State.stepOf (s : State) (f q n : Nat) : Option StepRun :=
  match s.cmdOf f q n with
  | some c => (match c.work with
    | .step st => some st
    | _ => none)
  | none => none

/-- The command is the oldest of its queue: its commit is next there (R74). -/
def State.atHead (s : State) (f q n : Nat) : Bool :=
  match (s.queueOf f q).window with
  | h :: _ => h.n = n
  | [] => false

/-- A SPAN step of the context has been prepared and not yet committed: no other commit of the context comes between (R338; log entry 20). -/
def State.spanHeld (s : State) (f q n ctx : Nat) : Bool :=
  s.allCmds.any (fun x => !(x.1 = f && x.2.1 = q && x.2.2.n = n) && x.2.2.ctx = ctx && x.2.2.op = 0x42 &&
    (x.2.2.isRunning || (x.2.2.isFinished && x.2.2.status = 0)) && (match x.2.2.work with
      | .step st => st.span && st.isReady
      | _ => false))

/-- A SPAN step prepares its commit where its turn has come: it goes on where the preparation succeeds, else it ends or waits (R338 order 3). -/
def State.prepStep (s : State) (f q : Nat) (c : Cmd) (st : StepRun) (k : State) : State :=
  if !s.atHead f q c.n || s.spanHeld f q c.n c.ctx then s
  else match s.commitStep f q { c with work := .step st } with
  | .ok _ _ _ => k
  | .fail v => s.endCmd f q c.n v
  | .prep i tier => s.awaitBlock f q c.n i tier
  | .wait t => t

/-! ### Accepted positions that belong to another device (R309) -/

/-- The rows of an entry's path whose positions fall into the block after its candidate record's. -/
def StepEntry.farRows (e : StepEntry) : List Nat :=
  if e.tree ∧ e.outcome = 0 then
    (e.path.zipIdx.filter (fun p => (e.startLen + p.2) / 64 ≠ e.startLen / 64)).map (fun p => p.1)
  else []

/-- This device holds an entry's candidate record, and not the block its far rows fall into; or the other way round. -/
def State.sendsFar (s : State) (ctx : Nat) (g : KvGeom) (e : StepEntry) : Bool :=
  s.heldHere ctx g (e.startLen / 64) && !s.heldHere ctx g (e.startLen / 64 + 1)
def State.wantsFar (s : State) (ctx : Nat) (g : KvGeom) (e : StepEntry) : Bool :=
  !s.heldHere ctx g (e.startLen / 64) && s.heldHere ctx g (e.startLen / 64 + 1)

/-- Every far row this device is to write has come. -/
def State.farIn (s : State) (ctx : Nat) (st : StepRun) : Bool :=
  match (s.ctxOf ctx).geom with
  | none => true
  | some g => st.entries.all (fun e => !s.wantsFar ctx g e || e.farRows.all (fun r => (List.range g.pages).all (fun j =>
      e.kv.any (fun a => a.page = j && a.row = r && !a.isV) && e.kv.any (fun a => a.page = j && a.row = r && a.isV))))

/-- The message that carries one row's K or V of a page for entry i: word 1 is 0, where an outcome has the number of entries (log entry 12). -/
def farMsg (i : Nat) (a : KvAppend) : List Byte :=
  numBytes ([i, 0, a.row, a.page * 2 + b2n a.isV, a.scales.length] ++ a.scales ++ a.codes)
def readFar (ws : List Word) : KvAppend :=
  let k := wnat ws 4
  { page := wnat ws 3 / 2, isV := bit (word ws 3) 0, row := wnat ws 2, scales := ((ws.drop 5).take k).map (fun w => w.toNat),
    codes := (ws.drop (5 + k)).map (fun w => w.toNat) }

/-- The holder of candidate records sends the far rows to the job's other members. -/
def State.sendFar (s : State) (f q : Nat) (c : Cmd) (st : StepRun) (j : Job) : State :=
  let s0 := s.setStep f q c.n { st with kvSent := true }
  match (s.ctxOf c.ctx).geom with
  | none => s0
  | some g => st.entries.zipIdx.foldl (fun t (e, i) =>
      if s.sendsFar c.ctx g e then
        e.farRows.foldl (fun u r => (List.range g.pages).foldl (fun v pg => [false, true].foldl (fun w isV =>
          let (a, w1) := w.kvFor g e pg r isV
          j.others.foldl (fun x p => x.jobCtrl c.ctx p.2 0x03 (farMsg i a)) w1) v) u) t
      else t) s0

/-! ### The commit across devices (R338) -/

/-- The verifier has every member's ready reply and its own far rows, and sends the commit (R338 order 4). -/
def State.sendCommit (s : State) (f q : Nat) (c : Cmd) (j : Job) : State :=
  match s.stepOf f q c.n with
  | none => s
  | some st =>
    if j.rank = 0 ∧ st.isReady ∧ !st.committed ∧ j.others.all (fun p => st.readies.contains p.1) ∧ s.farIn c.ctx st then
      j.others.foldl (fun t p => t.jobCtrl c.ctx p.2 0x05 (outcomeBytes st.entries)) (s.setStep f q c.n { st with committed := true })
    else s

/-- The verifier decides every entry's outcome and path, prepares, and sends them to every member (R338 orders 1 and 2). -/
def State.verifyStep (s : State) (f q : Nat) (c : Cmd) (st : StepRun) (j : Job) : State :=
  let es := st.entries.map (fun e => s.decideEntry st (s.checkEntry c.ctx e))
  let st' := { st with entries := es, outcomesIn := true, isReady := true }
  s.prepStep f q c st'
    (let s1 := s.setStep f q c.n st'
     let s2 := j.others.foldl (fun t p => es.zipIdx.foldl (fun u (e, i) => u.jobCtrl c.ctx p.2 0x03 (outcomeMsg i es.length e)) t) s1
     (s2.sendFar f q c st' j).sendCommit f q c j)

/-- A member with the outcomes sends its far rows; with those it wants itself it prepares and replies ready with what it has found (R338 order
3). -/
def State.replyReady (s : State) (f q : Nat) (c : Cmd) (st : StepRun) (j : Job) : State :=
  let es := st.entries.map (s.checkEntry c.ctx)
  let st' := { st with entries := es, isReady := true, kvSent := true }
  let s0 := if st.kvSent then s else s.sendFar f q c st j
  if !s0.farIn c.ctx st then s0
  else s0.prepStep f q c st' ((s0.setStep f q c.n st').jobCtrl c.ctx (j.chipOf 0) 0x04 (outcomeBytes es))

/-- The step a step message concerns: the oldest of the context's SPAN steps that still waits for that kind. -/
def State.stepFor (s : State) (ctx : Nat) (want : StepRun → Bool) : Option (Nat × Nat × Cmd × StepRun) :=
  let l := s.allCmds.filterMap (fun x =>
    if (x.2.2.isRunning || x.2.2.isFinished) && x.2.2.op = 0x42 && x.2.2.ctx = ctx then
      (match x.2.2.work with
       | .step st => if st.span && want st then some (x.1, x.2.1, x.2.2, st) else none
       | _ => none)
    else none)
  match l with
  | [] => none
  | h :: r => some (r.foldl (fun a b => if b.2.2.1.order < a.2.2.1.order then b else a) h)

/-- One waiting step message is taken up where a step waits for it: the message goes. -/
def State.takeStepMsg (s : State) (ctx : Nat) (j : Job) (m : Nat × Nat × List Word) : Option State :=
  let rest (t : State) : State := t.modJob ctx (fun x => { x with stepMsgs := x.stepMsgs.erase m })
  match m.1 with
  | 3 =>
    if wnat m.2.2 1 = 0 then
      (s.stepFor ctx (fun st => st.outcomesIn && !st.committed)).map (fun (f, q, c, st) =>
        let es := listMod st.entries (wnat m.2.2 0) (fun e => if e.outcome = 0 then { e with kv := e.kv ++ [readFar m.2.2] } else e)
        (rest (s.setStep f q c.n { st with entries := es })).sendCommit f q c j)
    else
    (s.stepFor ctx (fun st => !st.outcomesIn)).map (fun (f, q, c, st) =>
      let es := listMod st.entries (wnat m.2.2 0) (fun e => readOutcome e m.2.2)
      rest (s.setStep f q c.n { st with entries := es, outcomesIn := decide (wnat m.2.2 0 + 1 = wnat m.2.2 1) }))
  | 4 =>
    (s.stepFor ctx (fun st => st.isReady && !st.committed && !st.readies.contains m.2.1)).map (fun (f, q, c, st) =>
      let st' := { st with entries := mergeOutcomes st.entries (wordBytes m.2.2), readies := st.readies ++ [m.2.1] }
      (rest (s.setStep f q c.n st')).sendCommit f q c j)
  | _ =>
    (s.stepFor ctx (fun st => st.isReady && !st.committed)).map (fun (f, q, c, st) =>
      rest (s.setStep f q c.n { st with entries := mergeOutcomes st.entries (wordBytes m.2.2), committed := true }))

/-- Waiting step messages of a context are taken up in order, as far as they apply. -/
def State.pollSteps (ctx : Nat) : Nat → State → State
  | 0, s => s
  | n + 1, s =>
    match s.jobOf ctx with
    | none => s
    | some j =>
      match j.stepMsgs.findSome? (fun m => s.takeStepMsg ctx j m) with
      | some t => State.pollSteps ctx n t
      | none => s

/-- A member of a routed run takes the live generation for its own run once it has been announced (R360). -/
def State.joinGen (s : State) (f q : Nat) (c : Cmd) (st : StepRun) : State × StepRun :=
  match s.jobOf c.ctx with
  | some j =>
    if st.span && st.gen = 0 && s.routedLayout c.ctx st.layout && !j.genEnded && decide (j.gen ≠ 0) then
      let st' := { st with gen := j.gen }
      (s.setStep f q c.n st', st')
    else (s, st)
  | none => (s, st)

/-- A STEP at work: it joins its generation, takes up messages, and with every stream ended goes through R338. -/
def State.continueStep (s : State) (f q : Nat) (c : Cmd) (st0 : StepRun) : State :=
  let (s0, st) := s.joinGen f q c st0
  if !s0.stepQuiet f q c st then s0
  else if !st.span then
    (s0.setStep f q c.n { st with entries := st.entries.map (fun e => s0.decideEntry st e) }).done f q c.n 0 0
  else
    match s0.jobOf c.ctx with
    | none => s0
    | some j =>
      let s1 :=
        if j.rank = 0 then (if st.outcomesIn then s0.sendCommit f q c j else s0.verifyStep f q c st j)
        else if st.outcomesIn ∧ !st.isReady then s0.replyReady f q c st j
        else s0
      let s2 := State.pollSteps c.ctx (j.stepMsgs.length + 1) s1
      match s2.stepOf f q c.n with
      | some st' => if st'.committed ∧ (s2.cmdOf f q c.n).any (fun d => d.isRunning) then s2.done f q c.n 0 0 else s2
      | none => s2

def execStepCmd (f q n : Nat) (errs : List MemErr) (s : State) : Out :=
  s.withErrs f q n 0x42 errs (fun s => s.work f q n 0x42 (fun c =>
    match c.work with
    | .step st => s.continueStep f q c st
    | _ => s.checked f q n c (s.stepChecks c) (s.startStep f q c)))

end Sys2Proof.Machine
end

