-- ==== Sys2Proof/Machine/Router.lean ====
section
/-! DEFINITION. The Expert Router (chapter 11): what it takes from and feeds to its stations, the selection, dispatches and
returns, the combination, and batch generations. -/
namespace Sys2Proof.Machine

/-! ### Re-deals and forced pre-emption (R152, R338) -/

/-- A layout takes a new deal number: every core of it receives a deal-update item (R149, R152). -/
def State.redealLayout (s : State) (ctx lnum : Nat) : State :=
  match s.layoutOf ctx lnum with
  | none => s
  | some l =>
    let d := s.nextDeal ctx
    let s1 := (s.takeDeal ctx d).setLayout ctx lnum (some { l with deal := d, redealDue := l.cores })
    s1.modCores l.cores (fun k => { k with cfg := k.cfg ++ [.dealUpdate ctx lnum d] })

/-- Every command running on a layout is pre-empted together, and the layout is re-dealt (R76 case 3, R152). The command that
case 1 chose is (f, q, n), pre-empted in favour of `for'`; only a step named so is killed after it has replied ready. -/
def State.preemptLayout (s : State) (ctx lnum f q n : Nat) (for' : Option (Nat × Nat × Nat)) : State :=
  (((s.runnersOn ctx lnum).filter (fun x => !x.2.2.stepReady || (x.1 = f && x.2.1 = q && x.2.2.n = n))).foldl (fun t x =>
    t.preemptCmd x.1 x.2.1 x.2.2.n false (if x.1 = f ∧ x.2.1 = q ∧ x.2.2.n = n then for' else none)) s).redealLayout ctx lnum

/-- Another member has ended the run of a step before it replied ready, so that the job cannot commit it: it is killed here too (R76 case 4,
R338). -/
def State.killRouted (s : State) (ctx gen : Nat) : State :=
  match s.routedRun ctx with
  | some (f, q, c, st) =>
    if st.gen = gen ∧ c.isRunning ∧ !st.committed then s.preemptLayout ctx st.layout f q c.n none else s
  | none => s

/-- The same for a SPAN step without routed layers: the oldest of the context that has not committed (log entry 93). -/
def State.killSpan (s : State) (ctx : Nat) : State :=
  match s.stepFor ctx (fun st => st.gen = 0 && !st.committed && !s.routedLayout ctx st.layout) with
  | some (f, q, c, st) =>
    if c.isRunning then (s.setStep f q c.n { st with told := true }).preemptLayout ctx st.layout f q c.n none else s
  | none => s

/-! ### Plans and rows -/

def State.routerOf (s : State) (ctx i : Nat) : RouterLayer := tget {} s.router (ctx * 256 + i)
def State.modRouter (s : State) (ctx i : Nat) (g : RouterLayer → RouterLayer) : State :=
  { s with router := tmod {} s.router (ctx * 256 + i) g }
def RoutedLayer.cols (y : RoutedLayer) : Nat := y.hTilesM1 + 1
def RoutedLayer.width (y : RoutedLayer) : Nat := 32 * y.cols
def RouterLayer.chosen (r : RouterLayer) (x : Nat) : List Nat := tget [] r.selected x
/-- Key of an expert's row in the router's tables. -/
def rowKey (x g : Nat) : Nat := x * 2 ^ 17 + g

/-- The rows of a list that a rank owns (R350). -/
def ownedOf (l : List Nat) (rank rows members : Nat) : List Nat :=
  l.filter (fun g => decide (ownFirst rank rows members ≤ g) && decide (g < ownFirst (rank + 1) rows members))

/-- The rows of a group of 32, taken from a list in order. -/
def group32 {α : Type} (l : List α) (g : Nat) : List α := (l.drop (32 * g)).take 32

/-- A tile's codes join the rows of group g, of which `total` are expected in all: a row starts with column tile 0 and grows by 32
elements with every further one. -/
def joinRows (l : List (List Nat)) (g total : Nat) (t : Tile) : List (List Nat) :=
  (List.range (min 32 (total - 32 * g))).foldl (fun a i =>
    let codes := (List.range 32).map (fun k => elemCode t.fmt t.data (32 * i + k))
    if 32 * g + i < a.length then listMod a (32 * g + i) (fun r => r ++ codes) else a ++ [codes]) l

/-- The same for rows held in a table by the keys of the group's rows. -/
def joinTable (tb : Tbl (List Nat)) (keys : List Nat) (t : Tile) : Tbl (List Nat) :=
  keys.zipIdx.foldl (fun a (k, i) =>
    tmod [] a k (fun r => r ++ (List.range 32).map (fun e => elemCode t.fmt t.data (32 * i + e)))) tb

/-- A tile of up to 32 rows' elements [32c, 32c + 31]. -/
def rowsTile (fmt c : Nat) (rows : List (List Nat)) : Tile :=
  { fmt := fmt, rowsM1 := rows.length - 1, colsM1 := 31,
    data := packElems fmt ((List.range 1024).map (fun i => (rows.getD (i / 32) []).getD (32 * c + i % 32) 0)) }

/-- Whether rows are complete: all of them there, each of the full width. -/
def rowsFull (l : List (List Nat)) (n width : Nat) : Bool := decide (l.length = n) && l.all (fun r => decide (r.length = width))

/-- The rows of a table under a list of keys are all complete. -/
def tableFull (tb : Tbl (List Nat)) (keys : List Nat) (width : Nat) : Bool := keys.all (fun k => decide ((tget [] tb k).length = width))

/-! ### Selection (R352) -/

/-- Row a is ahead of row b: `ahead` of R352 on FP32 scores that are not NaN. -/
def rowAhead (a b : Nat × Nat) : Bool :=
  match numCmp (decF a.1) (decF b.1) with
  | some .gt => true
  | some .eq => decide (a.2 < b.2)
  | _ => false

/-- Inserting a candidate at its place. -/
def insertRow (a : Nat × Nat) : List (Nat × Nat) → List (Nat × Nat)
  | [] => [a]
  | b :: r => if rowAhead a b then a :: b :: r else b :: insertRow a r

/-- The rows an expert selects, ascending: the first `capacity` of its candidates, a row with a NaN score being none. -/
def selectRows (capacity : Nat) (scores : List Nat) : List Nat :=
  let cand := scores.zipIdx.filter (fun p => decF p.1 ≠ .nan)
  (((cand.foldr insertRow []).take capacity).map (fun p => p.2)).foldr (fun g l => insertAsc l g) []

/-- EXPERT_SELECT: every expert of the layer selects; skipped rows and chosen counts are kept with the run. -/
def State.selectLayer (s : State) (ctx i f q : Nat) (c : Cmd) (st : StepRun) (y : RoutedLayer) : State :=
  let r := s.routerOf ctx i
  let sel : List (Nat × List Nat) := (List.range y.experts.length).map (fun x =>
    (x, selectRows y.capacity (r.scores.map (fun row => row.getD x 0))))
  let skip := ((List.range st.rows).filter (fun g => !sel.any (fun p => p.2.contains g))).length
  let st' := { st with
    skipped := tset 0 st.skipped i skip,
    chosen := sel.foldl (fun t p => tset 0 t (i * 512 + p.1) p.2.length) st.chosen }
  (s.modRouter ctx i (fun z => { z with done := true, selected := sel.foldl (fun t p => tset [] t p.1 p.2) z.selected })).setStep f q c.n st'

/-! ### Dispatch and return (R355 to R357) -/

/-- A routed frame of this member to another: a tile, or an end without payload. -/
def State.routedFrame (s : State) (j : Job) (chip kind layer x ordinal col : Nat) (gen : Nat) (t : Option Tile) : Frame :=
  let hdr := match t with
    | some t => t.fmt + t.rowsM1 * 16 + t.colsM1 * 512
    | none => 0
  s.frame 0x11 chip [w32 hdr, 0, w32 gen, w32 (kind + layer * 8 + x * 2 ^ 11), w32 (ordinal + col * 2 ^ 16), w32 j.rank]
    (match t with
      | some t => t.flits
      | none => [])

/-- Rows of one expert go to a member in groups of 32 ordinals, each group as its column tiles. -/
def State.sendRows (s : State) (ctx : Nat) (j : Job) (chip kind layer x fmt cols gen : Nat) (rows : List (List Nat)) : State :=
  (List.range (ceilDiv rows.length 32)).foldl (fun t g => (List.range cols).foldl (fun u k =>
    u.toChip ctx 0 chip (u.routedFrame j chip kind layer x (32 * g) k gen (some (rowsTile fmt k (group32 rows g))))) t) s

/-- The experts of a layer that a rank hosts. -/
def RoutedLayer.hosted (y : RoutedLayer) (rank : Nat) : List Nat :=
  (y.experts.zipIdx.filter (fun p => p.1.host = rank)).map (fun p => p.2)

/-- An owner sends its dispatches and ends of a layer, and places its rows for the experts it hosts itself. -/
def State.sendDispatches (s : State) (ctx : Nat) (j : Job) (i : Nat) (y : RoutedLayer) (st : StepRun) : State :=
  let r := s.routerOf ctx i
  let n := j.members.length
  let first := ownFirst j.rank st.rows n
  let mine (x : Nat) : List Nat := ownedOf (r.chosen x) j.rank st.rows n
  let row (g : Nat) : List Nat := r.hiddenRows.getD (g - first) []
  let s1 := j.others.foldl (fun t p =>
    ((y.hosted p.1).foldl (fun u x => u.sendRows ctx j p.2 0 i x y.dispFmt y.cols st.gen ((mine x).map row)) t).toChip ctx 0 p.2
      (t.routedFrame j p.2 1 i 0 0 0 st.gen none)) s
  s1.modRouter ctx i (fun z => { z with
    sent := true,
    placed := (y.hosted j.rank).foldl (fun t x => (mine x).foldl (fun u g => tset [] u (rowKey x g) (row g)) t) z.placed })

/-- A host returns the answers of a layer to every owner, with its ends; its own rows' answers stay here. -/
def State.sendReturns (s : State) (ctx : Nat) (j : Job) (i : Nat) (y : RoutedLayer) (st : StepRun) : State :=
  let r := s.routerOf ctx i
  let n := j.members.length
  let rows (x rank : Nat) : List Nat := ownedOf (r.chosen x) rank st.rows n
  let row (x g : Nat) : List Nat := tget [] r.outRows (rowKey x g)
  let s1 := j.others.foldl (fun t p =>
    ((y.hosted j.rank).foldl (fun u x => u.sendRows ctx j p.2 2 i x y.ansFmt y.cols st.gen ((rows x p.1).map (row x))) t).toChip ctx 0 p.2
      (t.routedFrame j p.2 3 i 0 0 0 st.gen none)) s
  s1.modRouter ctx i (fun z => { z with
    returned := true,
    answers := (y.hosted j.rank).foldl (fun t x => (rows x j.rank).foldl (fun u g => tset [] u (rowKey x g) (row x g)) t) z.answers })

/-- Every hosted expert of the layer has answered every row it selected. -/
def RouterLayer.answered (r : RouterLayer) (y : RoutedLayer) (rank : Nat) : Bool :=
  (y.hosted rank).all (fun x => tableFull r.outRows ((r.chosen x).map (rowKey x)) y.width)

/-! ### Routed tiles (R356, R359) -/

/-- A routed tile disagrees with this member's selection: overflow code 0x06 at the layer's SCORE station. Where the plan has
no such layer, the manual names no station, and the value is free. -/
def State.routeOverflow (s : State) (ctx : Nat) (p : ExpertPlan) (i : Nat) : State :=
  match p.layers[i]? with
  | some y => s.overflow ctx ⟨p.layout, y.score, 0xFFFF, 6, 0⟩
  | none => (s.overflow ctx ⟨p.layout, s.freeNow % 1024, 0xFFFF, 6, 0⟩).freeNext 1

/-- Fields of the expert header (Table 11.6). -/
def rKind (f : Frame) : Nat := f.tf 3 2 0
def rLayer (f : Frame) : Nat := f.tf 3 10 3
def rExpert (f : Frame) : Nat := f.tf 3 19 11
def rOrdinal (f : Frame) : Nat := f.tf 4 11 0
def rCol (f : Frame) : Nat := f.tf 4 24 16
def rRank (f : Frame) : Nat := f.tf 5 13 0
def rReserved (f : Frame) : Bool := f.tf 3 31 20 ≠ 0 || f.tf 4 15 12 ≠ 0 || f.tf 4 31 25 ≠ 0 || f.tf 5 31 14 ≠ 0 || decide (4 < rKind f)
/-- Fields that are 0 in ends and retires. -/
def endBad (f : Frame) : Bool := rExpert f ≠ 0 || rOrdinal f ≠ 0

/-- The tile a routed frame carries. -/
def rTile (f : Frame) : Tile := { fmt := f.tf 0 3 0, rowsM1 := f.tf 0 8 4, colsM1 := f.tf 0 13 9, data := f.payload }

/-- The table keys of the rows of a routed tile, by its first ordinal: none where it goes beyond the rows expected, or out of
order. -/
def tileKeys (rows : List Nat) (x cols fmt : Nat) (f : Frame) (tb : Tbl (List Nat)) : Option (List Nat) :=
  let t := rTile f
  let o := rOrdinal f
  let keys := ((rows.drop o).take (t.rowsM1 + 1)).map (rowKey x)
  if o % 32 = 0 ∧ o + t.rowsM1 + 1 ≤ rows.length ∧ t.fmt = fmt ∧ rCol f < cols ∧ f.payload.length = tileBytes fmt ∧
      keys.all (fun k => (tget [] tb k).length = 32 * rCol f) then some keys else none

/-- An accepted routed tile of a layer whose selection is made. -/
def State.takeRouted (s : State) (ctx : Nat) (j : Job) (p : ExpertPlan) (i : Nat) (y : RoutedLayer) (st : StepRun) (f : Frame) : State :=
  let r := s.routerOf ctx i
  let n := j.members.length
  let x := rExpert f
  let from' := rRank f
  let past := s.routeOverflow ctx p i
  match rKind f with
  | 0 =>
    if (y.hosted j.rank).contains x then
      (match tileKeys (ownedOf (r.chosen x) from' st.rows n) x y.cols y.dispFmt f r.placed with
       | some ks => s.modRouter ctx i (fun z => { z with placed := joinTable z.placed ks (rTile f) })
       | none => past)
    else past
  | 1 =>
    if (y.hosted j.rank).all (fun e => tableFull r.placed ((ownedOf (r.chosen e) from' st.rows n).map (rowKey e)) y.width) then
      s.modRouter ctx i (fun z => { z with dispEnds := insertAsc z.dispEnds from' })
    else past
  | 2 =>
    if (y.hosted from').contains x then
      (match tileKeys (ownedOf (r.chosen x) j.rank st.rows n) x y.cols y.ansFmt f r.answers with
       | some ks => s.modRouter ctx i (fun z => { z with answers := joinTable z.answers ks (rTile f) })
       | none => past)
    else past
  | _ =>
    if (y.hosted from').all (fun e => tableFull r.answers ((ownedOf (r.chosen e) j.rank st.rows n).map (rowKey e)) y.width) then
      s.modRouter ctx i (fun z => { z with retEnds := insertAsc z.retEnds from' })
    else past

/-- A routed tile held at the ingress is processed where its layer's selection is made, or where it can belong to none. -/
def State.tryRouted (s : State) (ctx : Nat) (j : Job) (p : ExpertPlan) (st : StepRun) (h : Nat × Frame) : Option State :=
  let f := h.2
  let gone (t : State) : State := (t.modJob ctx (fun x => { x with held := x.held.erase h })).oweCredits f
  if f.t 2 ≠ st.gen then none
  else if rReserved f ∨ rRank f ≠ h.1 ∨ (rKind f % 2 = 1 ∧ endBad f) then some (gone (s.routeOverflow ctx p (rLayer f)))
  else match p.layers[rLayer f]? with
    | none => some (gone (s.routeOverflow ctx p (rLayer f)))
    | some y => if (s.routerOf ctx (rLayer f)).done then some (gone (s.takeRouted ctx j p (rLayer f) y st f)) else none

/-- The held tiles that can be processed are, in order. -/
def State.drainHeld (ctx : Nat) (st : StepRun) : Nat → State → State
  | 0, s => s
  | n + 1, s =>
    match s.jobOf ctx with
    | some j =>
      (match j.plan with
       | some p =>
         (match j.held.findSome? (fun h => s.tryRouted ctx j p st h) with
          | some t => State.drainHeld ctx st n t
          | none => s)
       | none => s)
    | none => s

/-- What the router can do now for the run at work: it joins its generation, sends what is complete, takes what is held. -/
def State.pumpRouter (s0 : State) (ctx : Nat) : State :=
  match s0.routedRun ctx with
  | none => s0
  | some (f, q, c, st0) =>
    let (s, st) := s0.joinGen f q c st0
    match s.jobOf ctx with
    | none => s
    | some j =>
      match j.plan with
      | none => s
      | some p =>
        if st.gen = 0 ∨ !c.isRunning then s
        else
          let own := ownCount j.rank st.rows j.members.length
          let s1 := p.layers.zipIdx.foldl (fun t (y, i) =>
            let r := t.routerOf ctx i
            if r.done && !r.sent && rowsFull r.hiddenRows own y.width then t.sendDispatches ctx j i y st else t) s
          let s2 := State.drainHeld ctx st (j.held.length + 1) s1
          p.layers.zipIdx.foldl (fun t (y, i) =>
            let r := t.routerOf ctx i
            if r.sent && !r.returned && r.answered y j.rank then t.sendReturns ctx j i y st else t) s2

/-! ### The router's stations (Table 11.4) -/

/-- What the router makes of a tile taken from one of its output stations, by the slot's source and position. -/
def State.routerTake (s : State) (v : Slot) (t : Tile) : State :=
  match s.routedRun v.ctx, s.jobOf v.ctx with
  | some (_, _, _, st), some j =>
    (match j.plan with
     | none => s
     | some p =>
       let own := ownCount j.rank st.rows j.members.length
       let g := v.posEntry
       (match v.src with
        | .score i _ => s.modRouter v.ctx i (fun r => { r with scores := joinRows r.scores g st.rows t })
        | .hidden i _ => (s.modRouter v.ctx i (fun r => { r with hiddenRows := joinRows r.hiddenRows g own t })).pumpRouter v.ctx
        | .resid i _ => s.modRouter v.ctx i (fun r => { r with residRows := joinRows r.residRows g own t })
        | .routerOut i x =>
          let keys := (group32 ((s.routerOf v.ctx i).chosen x) g).map (rowKey x)
          ((s.modRouter v.ctx i (fun r => { r with outRows := joinTable r.outRows keys t }))).pumpRouter v.ctx
        | _ => let _ := p; s))
  | _, _ => s

/-- Rows and column tiles of a router stream. -/
structure RowShape where
  rows : Nat
  cols : Nat
  deriving DecidableEq, Repr

/-- How long a router stream is: none while the selection that gives it has not been made. -/
def State.routerShape (s : State) (v : Slot) : Option RowShape :=
  match s.jobOf v.ctx, s.routedRun v.ctx with
  | some j, some (_, _, _, st) =>
    (match j.plan with
     | none => none
     | some p =>
       let own := ownCount j.rank st.rows j.members.length
       let y (i : Nat) : RoutedLayer := p.layers.getD i ⟨0, 0, 0, 0, 0, 0, 5, 5, []⟩
       let sel (i x : Nat) : Option RowShape :=
         let r := s.routerOf v.ctx i
         if r.done then some ⟨(r.chosen x).length, (y i).cols⟩ else none
       (match v.src with
        | .score i _ => some ⟨st.rows, ceilDiv (y i).experts.length 32⟩
        | .hidden i _ => some ⟨own, (y i).cols⟩
        | .resid i _ => some ⟨own, (y i).cols⟩
        | .combine i _ => some ⟨own, (y i).cols⟩
        | .routerIn i x => sel i x
        | .routerOut i x => sel i x
        | _ => none))
  | _, _ => none

/-- The position after a column tile of a group, and whether the stream is complete there. -/
def RowShape.after (sh : RowShape) (g k : Nat) : (Nat × Nat × Nat) × Bool :=
  let pos : Nat × Nat × Nat := if k + 1 < sh.cols then (g, 0, k + 1) else (g + 1, 0, 0)
  (pos, decide (sh.rows ≤ 32 * pos.1))

/-- The tile the router feeds next into IN or COMBINE, where its rows are there. -/
def State.routerFeed (s : State) (v : Slot) : Option Tile :=
  match s.jobOf v.ctx, s.routedRun v.ctx with
  | some j, some (_, _, _, st) =>
    (match j.plan with
     | none => none
     | some p =>
       let make (y : RoutedLayer) (fmt : Nat) (tb : Tbl (List Nat)) (keys : List Nat) : Option Tile :=
         if tableFull tb keys y.width && !keys.isEmpty then some (rowsTile fmt v.posTile (keys.map (tget [] tb))) else none
       (match v.src with
        | .routerIn i x =>
          (match p.layers[i]? with
           | some y =>
             let r := s.routerOf v.ctx i
             if r.done then make y y.dispFmt r.placed ((group32 (r.chosen x) v.posEntry).map (rowKey x)) else none
           | none => none)
        | .combine i _ =>
          (match p.layers[i]? with
           | some y =>
             let own := ownCount j.rank st.rows j.members.length
             make y (dFmt v.desc) (s.routerOf v.ctx i).combined (group32 (List.range own) v.posEntry)
           | none => none)
        | _ => none))
  | _, _ => none

/-! ### The combination (R358) -/

/-- One element: the residual widened, the answers added in ascending expert order with one rounding each, narrowed to RESID's
format. -/
def combineElem (tz : Bool) (fmt ansFmt resid : Nat) (wy : List (Nat × Nat)) : Nat :=
  let a := wy.foldl (fun a p => rnd 0 tz (numAdd (numMul (decF p.1) (decF (entryLane ansFmt p.2))) (decF a))) (entryLane fmt resid)
  encodeNum (floatOf fmt) tz (decF a)

/-- The experts of a layer that selected a row. -/
def RouterLayer.by (r : RouterLayer) (n g : Nat) : List Nat := (List.range n).filter (fun x => (r.chosen x).contains g)

/-- The combined row g (numbered in the step), whose place among the owned rows is k. A skipped row is its residual unchanged. -/
def RouterLayer.combineRow (r : RouterLayer) (y : RoutedLayer) (tz : Bool) (fmt g k : Nat) : List Nat :=
  let resid := r.residRows.getD k []
  let xs := r.by y.experts.length g
  if xs = [] then resid
  else (List.range y.width).map (fun e =>
    combineElem tz fmt y.ansFmt (resid.getD e 0) (xs.map (fun x =>
      ((r.scores.getD g []).getD x 0, (tget [] r.answers (rowKey x g)).getD e 0))))

/-- EXPERT_SELECT: all score rows of the layer are there. -/
def execExpertSelect (ctx layer : Nat) (s : State) : Out :=
  match s.routedRun ctx, s.jobOf ctx with
  | some (f, q, c, st), some j =>
    (match j.plan with
     | none => .next s
     | some p =>
       match p.layers[layer]? with
       | none => .next s
       | some y =>
         let r := s.routerOf ctx layer
         onlyIf (c.isRunning && !r.done && rowsFull r.scores st.rows (32 * ceilDiv y.experts.length 32)) s
           ((s.selectLayer ctx layer f q c st y).pumpRouter ctx))
  | _, _ => .next s

/-- COMBINE_ROW: an owned row of the step has its residual and all its answers. -/
def execCombineRow (ctx layer row : Nat) (s : State) : Out :=
  match s.routedRun ctx, s.jobOf ctx with
  | some (_, _, c, st), some j =>
    (match j.plan with
     | none => .next s
     | some p =>
       match p.layers[layer]? with
       | none => .next s
       | some y =>
         let r := s.routerOf ctx layer
         let n := j.members.length
         let k := row - ownFirst j.rank st.rows n
         let fmt := match s.layoutOf ctx p.layout with
           | some l => l.residFmt y.resid
           | none => 5
         let ready := r.done && (ownedOf [row] j.rank st.rows n).contains row && decide ((r.residRows.getD k []).length = y.width) &&
           (r.by y.experts.length row).all (fun x => decide ((tget [] r.answers (rowKey x row)).length = y.width)) &&
           decide (tget [] r.combined k = [])
         onlyIf (c.isRunning && ready) s
           (s.modRouter ctx layer (fun z => { z with combined := tset [] z.combined k (r.combineRow y (roundTzOf c.words) fmt row k) })))
  | _, _ => .next s

/-- ROUTER_WAIT_TIMEOUT: a routed run has waited for a tile, an end or an announcement for the watchdog period (R363). -/
def execRouterWaitTimeout (ctx : Nat) (s : State) : Out :=
  match s.routedRun ctx with
  | some (f, q, c, st) =>
    onlyIf (c.isRunning && !s.routerQuiet ctx st) s (s.teardown ctx ⟨St.watchdog, 0, 0⟩ (hitOne f q c.n))
  | none => .next s

/-! ### Arriving frames (R360 to R362) -/

/-- The member at the far end of the circuit a frame came on: context and rank. -/
def State.senderOf (s : State) (f : Frame) : Option (Nat × Nat) :=
  let c := s.circOf f.circuit
  if c.transit ∨ c.state = 0 then none
  else match s.jobOf c.ctx with
    | some j => (j.members.findIdx? (fun m => m = c.away.2.2)).map (fun r => (c.ctx, r))
    | none => none

/-- A routed tile or end by its generation (Table 11.7). -/
def State.routedArrive (s : State) (f : Frame) : State :=
  match s.senderOf f with
  | none => s.oweCredits f
  | some (ctx, rank) =>
    match s.jobOf ctx with
    | none => s.oweCredits f
    | some j =>
      let keep := s.modJob ctx (fun x => { x with held := x.held ++ [(rank, f)] })
      if f.t 2 = j.gen then (if j.genEnded then s.dropRouted ctx f else keep.pumpRouter ctx)
      else if genNewer (f.t 2) j.gen then keep
      else s.dropRouted ctx f

/-- A retire with a field that is not 0 although it is reserved or 0 in a retire, or with another sender's rank (R359). -/
def retireBad (f : Frame) (rank : Nat) : Bool := rReserved f || rLayer f ≠ 0 || endBad f || rRank f ≠ rank

/-- A retire: it is kept, and where it ends the live run, this member's run of it ends too (R362). -/
def State.retireArrive (s : State) (f : Frame) : State :=
  match s.senderOf f with
  | none => s.oweCredits f
  | some (ctx, rank) =>
    match (match s.jobOf ctx with
      | some j => if retireBad f rank then j.plan else none
      | none => none) with
    | some p => (s.oweCredits f).routeOverflow ctx p (rLayer f)
    | none =>
    let gen := f.t 2
    let s1 := (s.oweCredits f).modJob ctx (fun x =>
      { x with retires := if x.retires.contains (gen, rank) then x.retires else x.retires ++ [(gen, rank)] })
    match s1.jobOf ctx with
    | none => s1
    | some j =>
      let s2 := if j.gen = gen ∧ !j.genEnded then (s1.killRouted ctx gen).retireStart ctx else s1
      (s2.retireCheck ctx gen).settle

/-- A row of a routed frame of one KIND; the kinds that are reserved go with dispatches. -/
def State.onRouted (s : State) (port : Nat) (f : Frame) (ok : Bool) (kind : Nat) (g : State → State) : Out :=
  if rKind f = kind ∨ (kind = 0 ∧ 4 < rKind f) then s.onFrame port f ok 0x11 g else .next s

def execDispatch (port : Nat) (frame : Frame) (ok : Bool) (s : State) : Out :=
  s.onRouted port frame ok 0 (fun t => t.routedArrive frame)
def execDispatchEnd (port : Nat) (frame : Frame) (ok : Bool) (s : State) : Out :=
  s.onRouted port frame ok 1 (fun t => t.routedArrive frame)
def execReturnTile (port : Nat) (frame : Frame) (ok : Bool) (s : State) : Out :=
  s.onRouted port frame ok 2 (fun t => t.routedArrive frame)
def execReturnEnd (port : Nat) (frame : Frame) (ok : Bool) (s : State) : Out :=
  s.onRouted port frame ok 3 (fun t => t.routedArrive frame)
def execRetire (port : Nat) (frame : Frame) (ok : Bool) (s : State) : Out :=
  s.onRouted port frame ok 4 (fun t => t.retireArrive frame)

/-- The member that sent a JOB_CTRL frame, which rank 0 may have passed on: context and rank. -/
def State.ctrlSender (s : State) (f : Frame) : Option (Nat × Nat) :=
  let c := s.circOf f.circuit
  if c.transit ∨ c.state = 0 then none
  else match s.jobOf c.ctx with
    | some j => (j.members.findIdx? (fun m => m = f.src)).map (fun r => (c.ctx, r))
    | none => none

/-- A row of a JOB_CTRL frame of one subtype; `g` gets the context and the sender's rank. Rank 0 passes on what is meant for another member
(log entry 165). -/
def State.onJobCtrl (s : State) (port : Nat) (f : Frame) (ok : Bool) (sub : Nat) (g : State → Nat → Nat → State) : Out :=
  if f.tf 0 7 0 ≠ sub then .next s
  else s.onFrame port f ok 0x13 (fun t =>
    let u := t.oweCredits f
    match u.ctrlSender f with
    | some (ctx, rank) => if f.dst = u.fab.chip then g u ctx rank else u.toChip ctx 1 f.dst f
    | none => u)

/-- Words of a frame's payload. -/
def Frame.words (f : Sys2Proof.Frame) : List Word := toWords f.payload

/-- GENERATION_ANNOUNCE: the verifier has started a run; an own run of the generation before it is killed (R338, R360). -/
def execGenerationAnnounce (port : Nat) (frame : Frame) (ok : Bool) (s : State) : Out :=
  s.onJobCtrl port frame ok 0x01 (fun t ctx rank =>
    if rank ≠ 0 then t
    else
      let gen := wnat (Frame.words frame) 0
      match t.jobOf ctx with
      | none => t
      | some j =>
        let went := match t.routedRun ctx with      -- the run before has gone through its commit at the verifier
          | some (_, _, _, st) => decide (st.gen = j.gen) && st.committed
          | none => false
        let t1 := if !j.genEnded && !went then (t.killRouted ctx j.gen).retireStart ctx else t
        let t2 := (t1.modJob ctx (fun x => { x with gen := gen, genEnded := false })).flushHeld ctx
        if j.retires.any (fun r => r.1 = gen) then t2.retireStart ctx else t2.pumpRouter ctx)

/-- GENERATION_RETIRED_REPORT: the verifier counts it; with every member's the generation is retired in the job. Generation 0 tells of the kill
of a SPAN step without routed layers (log entry 93). -/
def execGenerationRetiredReport (port : Nat) (frame : Frame) (ok : Bool) (s : State) : Out :=
  s.onJobCtrl port frame ok 0x02 (fun t ctx rank =>
    let gen := wnat (Frame.words frame) 0
    match t.jobOf ctx with
    | none => t
    | some j =>
      if gen = 0 then t.killSpan ctx
      else if j.rank ≠ 0 ∨ j.reports.contains (gen, rank) then t
      else
        let r := j.reports ++ [(gen, rank)]
        (t.modJob ctx (fun x => { x with
          reports := r,
          retired := if x.members.zipIdx.all (fun m => r.contains (gen, m.2)) then x.retired ++ [gen] else x.retired })).settle)

/-! ### Step messages (R338, R341) -/

/-- A step message joins those of the context's job and is taken up where a step waits for it. -/
def State.stepMsg (s : State) (ctx sub rank : Nat) (ws : List Word) : State :=
  let s1 := s.modJob ctx (fun x => { x with stepMsgs := x.stepMsgs ++ [(sub, rank, ws)] })
  State.pollSteps ctx (match s1.jobOf ctx with
    | some j => j.stepMsgs.length + 1
    | none => 1) s1

/-- STEP_OUTCOMES, from the verifier; or a row of accepted KV that another device holds, from that device (R309). -/
def execStepOutcomes (port : Nat) (frame : Frame) (ok : Bool) (s : State) : Out :=
  s.onJobCtrl port frame ok 0x03 (fun t ctx rank =>
    let ws := Frame.words frame
    if rank = 0 ∨ wnat ws 1 = 0 then t.stepMsg ctx 3 rank ws else t)
/-- STEP_READY, at the verifier. -/
def execStepReady (port : Nat) (frame : Frame) (ok : Bool) (s : State) : Out :=
  s.onJobCtrl port frame ok 0x04 (fun t ctx rank => t.stepMsg ctx 4 rank (Frame.words frame))
/-- STEP_COMMIT_MESSAGE, from the verifier. -/
def execStepCommitMessage (port : Nat) (frame : Frame) (ok : Bool) (s : State) : Out :=
  s.onJobCtrl port frame ok 0x05 (fun t ctx rank => if rank = 0 then t.stepMsg ctx 5 rank (Frame.words frame) else t)

/-- The entry of a session in this member's SPAN steps is dropped as CANCELLED. -/
def State.dropMember (s : State) (ctx k : Nat) : State :=
  (s.allCmds.filter (fun x => x.2.2.stepWith ctx k)).foldl (fun t x =>
    match x.2.2.work with
    | .step st => if st.span then t.giveUp x.1 x.2.1 x.2.2 st k else t
    | _ => t) s

/-- ENTRY_DROPPED: a member has cancelled a session and this one drops its entry and acknowledges, or an acknowledgement has come
(R341). -/
def execEntryDropped (port : Nat) (frame : Frame) (ok : Bool) (s : State) : Out :=
  s.onJobCtrl port frame ok 0x06 (fun t ctx rank =>
    let k := wnat (Frame.words frame) 1
    match t.jobOf ctx with
    | none => t
    | some j =>
      if wnat (Frame.words frame) 0 = 0 then (t.dropMember ctx k).jobCtrl ctx (j.chipOf rank) 0x06 (numBytes [1, k])
      else t.mapCmds (fun _ _ c => c.op = 0x42 && c.ctx = ctx) (fun c => match c.work with
        | .step st => { c with work := .step { st with entries := st.entries.map (fun e =>
            if e.session = k then { e with dropAcks := e.dropAcks.erase rank } else e) } }
        | _ => c))

end Sys2Proof.Machine
end

