-- ==== Sys2Proof/Machine/Weights.lean ====
section
/-! DEFINITION. The Weight Store and weight commands (chapter 12, R487, R488): object images, loads, broadcast loads, adapters,
replacement in place, and erasing stripes. -/
namespace Sys2Proof.Machine

/-! ### Names (R372) -/

/-- The name a command gives an object: 2^32 for SHARED_OBJ plus OBJECT_ID. -/
def weightName (ws : List Word) (bitNo : Nat) : Nat := b2n (bit (word ws 3) bitNo) * 2 ^ 32 + wnat ws 2
/-- The Object Table key of a name used by a partition; shared objects belong to the physical function. -/
def objKey (p name : Nat) : Nat := if 2 ^ 32 ≤ name then name else p * 2 ^ 33 + name

def State.objOf (s : State) (key : Nat) : Option Obj := tget none s.store.objs key
def State.setObj (s : State) (key : Nat) (o : Option Obj) : State :=
  { s with store := { s.store with objs := tset none s.store.objs key o } }

/-- The object a started command names: one deleted since it started is still there for it (R374). -/
def State.findObj (s : State) (f : Nat) (c : Cmd) : Option Obj :=
  let k := objKey f (weightName c.eff 31)
  match s.store.ghosts.find? (fun g => g.1 = k && decide (c.order ≤ g.2.1)) with
  | some g => some g.2.2
  | none => (s.objOf k).bind (fun o => if o.present then some o else none)

/-! ### Object images (R370, R371) -/

def stripeBytes : Nat := 15 * 2 ^ 20
/-- A word of an image at a byte offset. -/
def imWord (im : List Byte) (off : Nat) : Word := w32 (leNat ((im.drop off).take 4))
def imNat (im : List Byte) (off k : Nat) : Nat := leNat ((im.drop off).take k)

def imPieces (im : List Byte) : Nat := imNat im 4 4
def imKind (im : List Byte) : Nat := fld (imWord im 0) 24 24
def imDataOff (im : List Byte) : Nat := imNat im 16 8
/-- BASE_SHARED and BASE_ID as a name. -/
def imBase (im : List Byte) : Nat := fld (imWord im 12) 0 0 * 2 ^ 32 + imNat im 8 4

/-- Piece i of the piece table. -/
def pieceAt (im : List Byte) (i : Nat) : Piece :=
  let o := 64 + 32 * i
  let w := imWord im o
  { index := i, shard := fld w 13 0, layer := fld w 25 16, code := fld w 29 26, src := imNat im (o + 4) 8,
    dst := imNat im (o + 12) 6, len := imNat im (o + 20) 4 }
def imTable (im : List Byte) : List Piece := (List.range (imPieces im)).map (pieceAt im)

/-- Offending bytes of the header. -/
def objHeaderErrs (im : List Byte) : List Nat :=
  let adapter := imKind im = 1
  let id := imNat im 8 4
  bad (imNat im 0 2 ≠ 0x574F) 0 ++ bad (imNat im 2 1 ≠ 1) 2 ++ bad (fld (imWord im 0) 31 25 ≠ 0) 3 ++
  bad (imPieces im = 0 || decide (2 ^ 20 < imPieces im) || decide (im.length < 64 + 32 * imPieces im)) 4 ++
  bad (if adapter then id = 0 || id = 0xFFFFFFFF else id ≠ 0) 8 ++
  bad ((!adapter && fld (imWord im 12) 0 0 ≠ 0) || fld (imWord im 12) 31 1 ≠ 0) 12 ++
  bad (imDataOff im % 64 ≠ 0 || decide (imDataOff im < 64 + 32 * imPieces im)) 16 ++
  (List.range 10).flatMap (fun i => bad (imWord im (24 + 4 * i) ≠ 0) (24 + 4 * i))

/-- (SHARD, LAYER, DST_OFF) of a piece is before that of another. -/
def pieceBefore (a b : Piece) : Bool :=
  decide (a.shard < b.shard) || (a.shard = b.shard && (decide (a.layer < b.layer) || (a.layer = b.layer && decide (a.dst < b.dst))))

/-- Offending bytes of piece i; the pieces before it are given. -/
def pieceErrs (im : List Byte) (earlier : List Piece) (p : Piece) : List Nat :=
  let o := 64 + 32 * p.index
  bad (match earlier.getLast? with
    | some e => !pieceBefore e p
    | none => false) o ++
  bad (fld (imWord im o) 15 14 ≠ 0) (o + 1) ++ bad (decide (1 < p.code) || fld (imWord im o) 31 30 ≠ 0) (o + 3) ++
  bad (p.src % 64 ≠ 0 || decide (im.length < imDataOff im + p.src + p.len)) (o + 4) ++
  bad (p.dst % 64 ≠ 0 || earlier.any (fun e => e.shard = p.shard && decide (e.dst < p.dst + p.len) && decide (p.dst < e.dst + e.len))) (o + 12) ++
  bad (fld (imWord im (o + 16)) 31 16 ≠ 0) (o + 18) ++
  bad (p.len % 64 ≠ 0 || decide (p.len < 64) || decide (2 ^ 31 < p.len)) (o + 20) ++
  bad (imWord im (o + 24) ≠ 0) (o + 24) ++ bad (imWord im (o + 28) ≠ 0) (o + 28)

/-- The first offending byte of an object image; none where it is well formed. -/
def objectFault (im : List Byte) : Option Nat :=
  match objHeaderErrs im with
  | e :: r => some (r.foldl min e)
  | [] =>
    let t := imTable im
    (List.range t.length).findSome? (fun i =>
      match pieceErrs im (t.take i) (pieceAt im i) with
      | e :: r => some (r.foldl min e)
      | [] => none)

/-- The bytes of a piece. -/
def Obj.pieceBytes (o : Obj) (p : Piece) : List Byte := (o.image.drop (imDataOff o.image + p.src)).take p.len
def Obj.shardPieces (o : Obj) (shard : Nat) : List Piece := (imTable o.image).filter (fun p => p.shard = shard)

/-! ### Segments (R366, R367) -/

/-- The channel of segment j of stripe s: data segments 0 to 14, and 15 for the parity segment. -/
def segChannel (s j : Nat) : Nat := if j = 15 then s % 16 else (s + 1 + j) % 16

/-- Payload bytes in use in segment j of an object's stripe; the parity of a stripe is as long as its longest data segment, its first. -/
def Obj.segBytes (o : Obj) (stripe j : Nat) : Nat := min (2 ^ 20) (o.bytes - (15 * stripe + j % 15) * 2 ^ 20)

/-- The header and the seal of segment j of an object's stripe (Tables 12.1 and 12.2). -/
def Obj.segHeader (o : Obj) (stripe j : Nat) : List Word :=
  [w32 (0x5347 + b2n (decide (j = 15)) * 2 ^ 16)] ++ w64 (o.firstSeq + stripe) ++
  [w32 o.id, w32 (o.owner + b2n o.shared * 2 ^ 6 + j * 2 ^ 12), w32 stripe, w32 o.slots.length] ++ w64 o.bytes ++ List.replicate 7 0
def Obj.segSeal (o : Obj) (stripe j : Nat) : List Word :=
  [0x534C] ++ w64 (o.firstSeq + stripe) ++ [w32 (o.segBytes stripe j)] ++ List.replicate 12 0

/-! ### WEIGHT_WRITE and WEIGHT_DELETE (R373, R374, R487, R488) -/

/-- Running WEIGHT_WRITE commands that have begun. -/
def State.writersBegun (s : State) : Nat :=
  (s.allCmds.filter (fun x => x.2.2.isRunning && x.2.2.op = 0x60 && (match x.2.2.work with
    | .object _ _ => true
    | _ => false))).length

/-- Stripes an owner's objects hold, present or being written. -/
def State.stripesOf (s : State) (p : Nat) : Nat :=
  sumNat (s.store.objs.map (fun o => match o.2 with
    | some x => if x.owner = p then x.slots.length else 0
    | none => 0))
def State.slotsIn (s : State) (st : Nat) : List Nat := (List.range s.store.slotCount).filter (fun k => tget 0 s.store.slots k = st)

/-- WEIGHT_WRITE: `image` is what the host's memory held. The first stage refuses or takes name and stripes; the second has
written and sealed them, which is the commit point. -/
def execWeightWrite (f q n : Nat) (image : List Byte) (s : State) : Out :=
  s.work f q n 0x60 (fun c =>
    let ws := c.eff
    let len := wnat ws 6 + fld (word ws 7) 7 0 * 2 ^ 32
    let shared := bit (word ws 3) 0
    let key := objKey f (weightName ws 0)
    let stripes := ceilDiv len stripeBytes
    match c.work with
    | .object k slots =>
      (((match s.objOf k with
        | some o => s.setObj k (some { o with isSealed := true })
        | none => s).modCmd f q n (fun x => { x with pastCommit := true })).done f q n slots.length 0)
    | _ =>
      s.checked f q n c (reservedCheck ws [(2, 0xFFFFFFFF), (3, 1), (4, 0xFFFFFFFF), (5, 0xFFFFFFFF), (6, 0xFFFFFFFF), (7, 0xFF)] ++
          [need (!shared || decide (f = 0)) St.pfOnly 0 0, param (wnat ws 2 ≠ 0 && wnat ws 2 ≠ 0xFFFFFFFF) 2,
           param (s.objOf key).isNone 2, param (wnat ws 4 % 64 = 0) 4, param (decide (64 ≤ len) && decide (len ≤ 2 ^ 40)) 6])
        (if image.length ≠ len ∨ 8 ≤ s.writersBegun then s
         else
          let free := s.slotsIn 0
          let full := decide (wnat (s.partOf f).record 13 < s.stripesOf f + stripes) || decide (free.length + (s.slotsIn 2).length < stripes) ||
            decide (16384 ≤ s.store.objs.length)
          match pickVerdict ((match objectFault image with
              | some o => [(⟨St.invalidParameter, 4, o⟩ : Verdict)]
              | none => []) ++ (if full then [⟨St.storeFull, 0, 0⟩] else [])) with
          | some v => s.endCmd f q n v
          | none =>
            if free.length < stripes then s
            else
              let slots := free.take stripes
              let o : Obj := { owner := f, shared := shared, id := wnat ws 2, slots := slots, firstSeq := s.store.seq + 1, bytes := len, image := image }
              let s1 := s.setObj key (some o)
              ({ s1 with store := { s1.store with
                  slots := slots.foldl (fun t k => tset 0 t k 1) s1.store.slots, seq := s1.store.seq + stripes } }.setWork f q n (.object key slots))))

/-- WEIGHT_WRITE commits: the object becomes loadable, and a checkpoint is written. -/
def State.commitObject (s : State) (c : Cmd) : Commit :=
  match c.work with
  | .object key slots =>
    .ok (match s.objOf key with
      | some o => (s.setObj key (some { o with present := true })).checkpoint
      | none => s) slots.length 0
  | _ => .ok s 0 0

def execWeightDelete (f q n : Nat) (s : State) : Out :=
  s.work f q n 0x64 (fun c =>
    let ws := c.eff
    let o := s.objOf (objKey f (weightName ws 31))
    s.checked f q n c (reservedCheck ws [(2, 0xFFFFFFFF), (3, 0x80000000)] ++
        [need (!bit (word ws 3) 31 || decide (f = 0)) St.pfOnly 0 0, param (o.any (fun x => x.present)) 2])
      (s.done f q n ((o.map (fun x => x.slots.length)).getD 0) 0))

/-- A started command may still read an object deleted at start order `at'`: it names it and started before. -/
def State.hasReaders (s : State) (key at' : Nat) : Bool :=
  s.allCmds.any (fun x => (x.2.2.isRunning || x.2.2.phase = .preempted) && [0x61, 0x62, 0x63, 0x65].contains x.2.2.op && decide (x.2.2.order ≠ 0) && decide (x.2.2.order ≤ at') &&
    objKey x.1 (weightName x.2.2.eff 31) = key)

/-- WEIGHT_DELETE commits: the object goes, its stripes are dead, and a checkpoint says so first (R374, R488). -/
def State.commitDelete (s : State) (f : Nat) (c : Cmd) : Commit :=
  let key := objKey f (weightName c.eff 31)
  match s.objOf key with
  | some o =>
    if !o.present then .fail ⟨St.invalidParameter, 2, 0⟩
    else
      let s1 := { s with store := { s.store with
        objs := tset none s.store.objs key none,
        slots := o.slots.foldl (fun t k => tset 0 t k 2) s.store.slots,
        ghosts := if s.hasReaders key s.cp.starts then s.store.ghosts ++ [(key, s.cp.starts, o)] else s.store.ghosts } }
      .ok s1.checkpoint o.slots.length 0
  | none => .fail ⟨St.invalidParameter, 2, 0⟩

/-- STRIPE_ERASE: a dead stripe of the store that no earlier command still reads, or a freed park stripe, is erased. -/
def execStripeErase (slot : Nat) (park : Bool) (s : State) : Out :=
  if park then
    onlyIf (s.store.parkDead.contains slot) s { s with store := { s.store with parkDead := s.store.parkDead.erase slot } }
  else
    let live := s.store.ghosts.filter (fun g => s.hasReaders g.1 g.2.1)
    onlyIf (decide (tget 0 s.store.slots slot = 2) && !live.any (fun g => g.2.2.slots.contains slot)) s
      { s with store := { s.store with slots := tset 0 s.store.slots slot 0, ghosts := live } }

/-! ### Loading a shard (R375) -/

/-- Words 2 to 5 of the load commands. -/
def loadWords : List (Nat × Nat) := [(2, 0xFFFFFFFF), (3, 0x80003FFF), (4, 0xFFFFFFFF), (5, 0xFFFF)]
def loadShard (ws : List Word) : Nat := fld (word ws 3) 13 0
def loadDest (ws : List Word) : Nat := addr48 ws 4

/-- Every block a piece touches is mapped, near or bulk, and outside the pool. -/
def State.destOk (s : State) (ctx dest : Nat) (ps : List Piece) : Bool :=
  ps.all (fun p => decide (dest + p.dst + p.len ≤ 2 ^ 48) && !s.inPool ctx (dest + p.dst) p.len &&
    (pieces (dest + p.dst) p.len).all (fun b => match s.bmFind (s.ctxOf ctx).part ctx b.1 with
      | some (_, e) => decide (e.tier < 2)
      | none => false))

/-- Going on with the destination of pieces: a block that is on its way is waited for. -/
def State.withPieces (s : State) (f q n ctx dest : Nat) (ps : List Piece) (k : State) : State :=
  ps.foldr (fun p k => s.withRange f q n ctx 4 (dest + p.dst) p.len false k) k

/-- A flash read of a command: one that cannot be corrected ends it and its context (R368). -/
def State.withFlash (s : State) (f q : Nat) (c : Cmd) (err : ReadErr) (chan : Nat) (k : State → State) : State :=
  match err with
  | .clean => k s
  | .corrected => k (s.flashRebuilt chan)
  | .uncorrectable =>
    if namesContext c.words then (s.flashLost chan).teardown c.ctx ⟨St.flashUncorrectable, chan, 0⟩ (hitOne f q c.n)
    else (s.flashLost chan).endCmd f q c.n ⟨St.flashUncorrectable, chan, 0⟩

/-- Pieces written through shadows; none where a shadow frame cannot be had. -/
def State.writePieces (s : State) (f q n ctx dest : Nat) (ps : List (Piece × List Byte)) : Option State :=
  ps.foldl (fun a p => a.bind (fun t => t.writeCtx f q n ctx (dest + p.1.dst) p.2 (some p.1.code))) (some s)

/-- The extents of pieces at a destination. -/
def extentsOf (dest : Nat) (ps : List Piece) : List (Nat × Nat) := ps.map (fun p => (dest + p.dst, p.len))

/-- The load of a shard for a command: `k` follows with the shard written. -/
def State.loadShardOf (s : State) (f q : Nat) (c : Cmd) (o : Obj) (err : ReadErr) (chan : Nat) (k : State → State) : State :=
  let dest := loadDest c.eff
  let ps := o.shardPieces (loadShard c.eff)
  s.withPieces f q c.n c.ctx dest ps
    (s.withFlash f q c err chan (fun t =>
      match t.writePieces f q c.n c.ctx dest (ps.map (fun p => (p, o.pieceBytes p))) with
      | some u => k u
      | none => t.endCmd f q c.n ⟨St.quotaExceeded, 1, 0⟩))

/-- The checks of a load: the object, its shard, the destination. -/
def State.loadChecks (s : State) (c : Cmd) (o : Option Obj) : List Check :=
  let ws := c.eff
  let ps := (o.map (fun x => x.shardPieces (loadShard ws))).getD []
  [param (!ps.isEmpty) 2, param (loadDest ws % blockBytes = 0 && s.destOk c.ctx (loadDest ws) ps) 4]

def execWeightLoad (f q n : Nat) (err : ReadErr) (chan : Nat) (s : State) : Out :=
  s.work f q n 0x61 (fun c =>
    let o := s.findObj f c
    s.checked f q n c (reservedCheck c.eff loadWords ++ s.loadChecks c o)
      (match o with
       | some x =>
         let ps := x.shardPieces (loadShard c.eff)
         s.loadShardOf f q c x err chan (fun t =>
           (t.setWork f q n (.load (weightName c.eff 31) (imKind x.image) (loadShard c.eff) (loadDest c.eff) ps.length [])).done f q n ps.length 0)
       | none => s))

/-- The context has loaded or replaced a base: its name is among the last 8 distinct ones (R379). -/
def State.noteBase (s : State) (ctx name : Nat) : State :=
  let b := (decide (2 ^ 32 ≤ name), name % 2 ^ 32)
  s.modCtx ctx (fun x =>
    let l := x.bases.filter (· ≠ b) ++ [b]
    { x with bases := l.drop (l.length - 8) })

/-! ### Adapters (R379, R380) -/

def State.adapterOf (s : State) (ctx name : Nat) : Option Adapter :=
  (s.ctxOf ctx).adapters.find? (fun a => b2n a.shared * 2 ^ 32 + a.id = name)

def execAdapterAttach (f q n : Nat) (err : ReadErr) (chan : Nat) (s : State) : Out :=
  s.work f q n 0x65 (fun c =>
    let o := s.findObj f c
    let name := weightName c.eff 31
    let fits := match o with
      | some x => decide (imKind x.image = 1) && (s.ctxOf c.ctx).bases.contains (decide (2 ^ 32 ≤ imBase x.image), imBase x.image % 2 ^ 32)
      | none => false
    s.checked f q n c (reservedCheck c.eff loadWords ++ s.loadChecks c o ++
        [param (fits && (s.adapterOf c.ctx name).isNone) 2, need (decide ((s.ctxOf c.ctx).adapters.length < 256)) St.limitExceeded 256 0])
      (match o with
       | some x =>
         let ps := x.shardPieces (loadShard c.eff)
         s.loadShardOf f q c x err chan (fun t =>
           (t.setWork f q n (.load name 1 (loadShard c.eff) (loadDest c.eff) ps.length (extentsOf (loadDest c.eff) ps))).done f q n ps.length 0)
       | none => s))

/-- ADAPTER_ATTACH commits: the attach is recorded, unless another has come first. -/
def State.commitAttach (s : State) (c : Cmd) : Commit :=
  match c.work with
  | .load name _ shard dest k ext =>
    if (s.adapterOf c.ctx name).isSome then .fail ⟨St.invalidParameter, 2, 0⟩
    else if 256 ≤ (s.ctxOf c.ctx).adapters.length then .fail ⟨St.limitExceeded, 256, 0⟩
    else
      let a : Adapter := ⟨decide (2 ^ 32 ≤ name), name % 2 ^ 32, shard, dest, ext⟩
      .ok (s.modCtx c.ctx (fun x => { x with adapters := x.adapters ++ [a] })) k 0
  | _ => .ok s 0 0

def execAdapterDetach (f q n : Nat) (s : State) : Out :=
  s.work f q n 0x66 (fun c =>
    let name := weightName c.eff 31
    let a := s.adapterOf c.ctx name
    s.checked f q n c (reservedCheck c.eff [(2, 0xFFFFFFFF), (3, 0x80000000)] ++ [param a.isSome 2])
      (match a with
       | some x =>
         x.extents.foldr (fun e k => s.withRange f q n c.ctx 2 e.1 e.2 false k)
           (match x.extents.foldl (fun (t : Option State) e => t.bind (fun u =>
                u.writeCtx f q n c.ctx e.1 (List.replicate e.2 0) none)) (some s) with
            | some t => (t.setWork f q n (.load name 1 x.shard x.dest x.extents.length [])).done f q n x.extents.length 0
            | none => s.endCmd f q n ⟨St.quotaExceeded, 1, 0⟩)
       | none => s))

/-- ADAPTER_DETACH commits: its record is dropped. -/
def State.commitDetach (s : State) (c : Cmd) : Commit :=
  match c.work with
  | .load name _ _ _ k _ =>
    .ok (s.modCtx c.ctx (fun x => { x with adapters := x.adapters.filter (fun a => b2n a.shared * 2 ^ 32 + a.id ≠ name) })) k 0
  | _ => .ok s 0 0

/-! ### Broadcast loads (R378, R411; the payloads are log entry 12) -/

/-- The announcement of a reader's start: header words, then five words a piece, at most 200 pieces a message. -/
def announceMsgs (name kind : Nat) (ps : List Piece) : List (List Byte) :=
  (List.range (max 1 (ceilDiv ps.length 200))).map (fun i =>
    numBytes ([1, name % 2 ^ 32, name / 2 ^ 32 + kind * 2, ps.length, 200 * i] ++
      (((ps.drop (200 * i)).take 200).flatMap (fun p =>
        [p.index, p.layer + p.code * 2 ^ 10 + p.shard * 2 ^ 16, p.dst % 2 ^ 32, p.dst / 2 ^ 32, p.len]))))

/-- The pieces of an announcement's message. -/
def readPieces : Nat → List Word → List Piece
  | 0, _ => []
  | n + 1, ws =>
    { index := wnat ws 0, shard := fld (word ws 1) 29 16, layer := fld (word ws 1) 9 0, code := fld (word ws 1) 13 10, src := 0,
      dst := wnat ws 2 + wnat ws 3 * 2 ^ 32, len := wnat ws 4 } :: readPieces n (ws.drop 5)

/-- A member's request for its shard's pieces. -/
def State.requestPieces (s : State) (ctx : Nat) (j : Job) (reader name shard : Nat) : State :=
  s.jobCtrl ctx (j.chipOf reader) 0x08 (numBytes [0, name % 2 ^ 32, name / 2 ^ 32, shard])

/-- The reader announces the start of its command to every other member. -/
def State.announce (s : State) (ctx : Nat) (j : Job) (o : Obj) (name : Nat) : State :=
  j.others.foldl (fun t p => (announceMsgs name (imKind o.image) (imTable o.image)).foldl (fun u m => u.jobCtrl ctx p.2 0x08 m) t) s

/-- The multicast circuit of a context's job at its root. -/
def State.mcastCircuit (s : State) (ctx : Nat) : Option Nat :=
  (s.fab.circuits.find? (fun p => p.2.state = 2 && p.2.kind = 2 && p.2.ctx = ctx && !p.2.transit && p.2.aLocal)).map
    (fun p => s.treeHead p.1)

/-- The PIECE frames of a piece, at most 4,096 bytes each. -/
def State.pieceFrames (s : State) (p : Piece) (bs : List Byte) : List Frame :=
  (List.range (ceilDiv bs.length 4096)).map (fun i =>
    s.frame 0x12 0 [w32 p.index, w32 (4096 * i), w32 p.shard] ((bs.drop (4096 * i)).take 4096))

/-- A shard's pieces go to the members that asked for it: once on the multicast circuit, or on each one's routed circuit. -/
def State.sendShard (s : State) (ctx : Nat) (j : Job) (o : Obj) (shard : Nat) (ranks : List Nat) : State :=
  (o.shardPieces shard).foldl (fun t p =>
    let fs := t.pieceFrames p (o.pieceBytes p)
    match (if j.mcastRoot = some j.rank then t.mcastCircuit ctx else none) with
    | some k => fs.foldl (fun u f => u.sendCircuit k f) t
    | none => ranks.foldl (fun u r => fs.foldl (fun v f => v.toChip ctx 0 (j.chipOf r) f) u) t) s

/-- The reader serves the requests that have come for its object. Answers the pieces sent. -/
def State.serveRequests (s : State) (ctx : Nat) (j : Job) (o : Obj) (name : Nat) : State × Nat :=
  let mine := j.loadReqs.filter (fun r => r.2.1 = name)
  let shards := (mine.map (fun r => r.2.2)).eraseDups
  let s1 := s.modJob ctx (fun x => { x with loadReqs := x.loadReqs.filter (fun r => r.2.1 ≠ name) })
  (shards.foldl (fun t sh => t.sendShard ctx j o sh ((mine.filter (fun r => r.2.2 = sh)).map (fun r => r.1))) s1,
   sumNat (shards.map (fun sh => (o.shardPieces sh).length)))

/-- The open job of a context. -/
def State.openJob (s : State) (ctx : Nat) : Option Job :=
  match s.jobOf ctx with
  | some j => if j.isOpen then some j else none
  | none => none

/-- The pieces of a member's shard, once the reader's announcement of the object is whole. -/
def Job.announcedShard (j : Job) (name shard : Nat) : Option (List Piece) :=
  let a := j.announced
  if a.name = name ∧ 0 < a.total ∧ a.pieces.length = a.total then some (a.pieces.filter (fun p => p.shard = shard)) else none

/-- The reader's part of a broadcast load. -/
def State.broadcastRead (s : State) (f q : Nat) (c : Cmd) (j : Job) (err : ReadErr) (chan : Nat) : State :=
  let ws := c.eff
  let name := weightName ws 31
  let o := s.findObj f c
  s.checked f q c.n c (s.loadChecks c o)
    (match o with
     | none => s
     | some x =>
       match c.work with
       | .broadcast _ shard dest reader kind sent got true =>
         s.withFlash f q c err chan (fun t =>
           let (u, k) := t.serveRequests c.ctx j x name
           let u1 := u.modCmd f q c.n (fun y => { y with work := .broadcast name shard dest reader kind (sent + k) got true })
           if j.others.all (fun p => j.dones.contains (p.1, name)) then
             u1.done f q c.n (x.shardPieces shard).length (sent + k)
           else u1)
       | .broadcast _ shard dest reader kind sent got false =>
         s.loadShardOf f q c x err chan (fun t => t.setWork f q c.n (.broadcast name shard dest reader kind sent got true))
       | _ =>
         (s.announce c.ctx j x name).setWork f q c.n (.broadcast name (loadShard ws) (loadDest ws) j.rank (imKind x.image) 0 [] false))

/-- A piece has come whole: its frames' distinct bytes reach its length. -/
def pieceWhole (got : List (Nat × Nat × Nat)) (p : Piece) : Bool :=
  decide (p.len ≤ sumNat ((got.filter (fun g => g.1 = p.index)).map (fun g => g.2.2)))

/-- A member's part of a broadcast load. -/
def State.broadcastTake (s : State) (f q : Nat) (c : Cmd) (j : Job) : State :=
  let ws := c.eff
  let name := weightName ws 31
  let reader := fld (word ws 6) 13 0
  match c.work with
  | .broadcast _ shard dest _ _ _ got _ =>
    (match j.announcedShard name shard with
     | none => s
     | some ps =>
       s.checked f q c.n c [param (!ps.isEmpty) 2, param (s.destOk c.ctx dest ps) 4]
         (if ps.all (pieceWhole got) then
            (s.modCmd f q c.n (fun y => { y with work := .broadcast name shard dest reader j.announced.kind 0 got true })).done f q c.n ps.length 0
          else s))
  | _ =>
    (s.requestPieces c.ctx j reader name (loadShard ws)).setWork f q c.n (.broadcast name (loadShard ws) (loadDest ws) reader 0 0 [] false)

def execWeightLoadBroadcast (f q n : Nat) (err : ReadErr) (chan : Nat) (s : State) : Out :=
  s.work f q n 0x62 (fun c =>
    let ws := c.eff
    let j := s.openJob c.ctx
    s.checked f q n c (reservedCheck ws (loadWords ++ [(6, 0x3FFF)]) ++
        [param j.isSome 2, param (loadDest ws % blockBytes = 0) 4,
         param (match j with
           | some x => decide (fld (word ws 6) 13 0 < x.members.length)
           | none => true) 6])
      (match j with
       | some x => if x.rank = fld (word ws 6) 13 0 then s.broadcastRead f q c x err chan else s.broadcastTake f q c x
       | none => s))

/-- WEIGHT_LOAD_BROADCAST commits: a base is noted, and a member sends its done notice. -/
def State.commitBroadcast (s : State) (c : Cmd) : Commit :=
  match c.work, s.openJob c.ctx with
  | .broadcast name _ _ reader kind _ _ _, some j =>
    let s1 := if kind = 0 then s.noteBase c.ctx name else s
    let s2 := if j.rank = reader then s1.modJob c.ctx (fun x => { x with dones := x.dones.filter (fun d => d.2 ≠ name) })
      else s1.jobCtrl c.ctx (j.chipOf reader) 0x08 (numBytes [2, name % 2 ^ 32, name / 2 ^ 32])
    .ok s2 c.resA.toNat c.resB.toNat
  | _, _ => .fail ⟨St.invalidParameter, 2, 0⟩

/-- The message kind of a JOB_CTRL 0x08 frame. -/
def loadKind (f : Frame) : Nat := wnat (Frame.words f) 0
def loadMsgName (ws : List Word) : Nat := wnat ws 1 + fld (word ws 2) 0 0 * 2 ^ 32

/-- PIECE_REQUEST at the reader: kept until its command serves it. A message of no known kind ends here. -/
def execPieceRequest (port : Nat) (frame : Frame) (ok : Bool) (s : State) : Out :=
  if loadKind frame = 1 ∨ loadKind frame = 2 then .next s
  else s.onJobCtrl port frame ok 0x08 (fun t ctx rank =>
    let ws := Frame.words frame
    let r := (rank, loadMsgName ws, wnat ws 3)
    if loadKind frame ≠ 0 then t else t.modJob ctx (fun x => { x with loadReqs := x.loadReqs.filter (· ≠ r) ++ [r] }))

/-- READER_START: the announcement is kept; when it is whole, every waiting member command sends its request again. -/
def execReaderStart (port : Nat) (frame : Frame) (ok : Bool) (s : State) : Out :=
  if loadKind frame ≠ 1 then .next s
  else s.onJobCtrl port frame ok 0x08 (fun t ctx rank =>
    let ws := Frame.words frame
    let name := loadMsgName ws
    let ps := readPieces ((ws.length - 5) / 5) (ws.drop 5)
    let t1 := t.modJob ctx (fun x =>
      let a := if wnat ws 4 = 0 then { name := name, kind := fld (word ws 2) 1 1, total := wnat ws 3 } else x.announced
      { x with announced := if a.name = name then { a with pieces := a.pieces ++ ps } else a })
    match t1.jobOf ctx with
    | none => t1
    | some j =>
      (t1.allCmds.filter (fun x => x.2.2.isRunning && x.2.2.op = 0x62 && x.2.2.ctx = ctx)).foldl (fun u x =>
        match x.2.2.work with
        | .broadcast nm shard _ reader _ _ _ _ =>
          if nm = name ∧ reader = rank ∧ (j.announcedShard nm shard).isSome then u.requestPieces ctx j reader nm shard else u
        | _ => u) t1)

/-- DONE_NOTICE at the reader. -/
def execDoneNotice (port : Nat) (frame : Frame) (ok : Bool) (s : State) : Out :=
  if loadKind frame ≠ 2 then .next s
  else s.onJobCtrl port frame ok 0x08 (fun t ctx rank =>
    let d := (rank, loadMsgName (Frame.words frame))
    t.modJob ctx (fun x => { x with dones := x.dones.filter (· ≠ d) ++ [d] }))

/-- A member's running broadcast command that wants a piece: command, destination, piece. -/
def State.wantsPiece (s : State) (ctx index shard : Nat) : Option (Nat × Nat × Cmd × Nat × Piece) :=
  match s.jobOf ctx with
  | none => none
  | some j =>
    s.allCmds.findSome? (fun x =>
      if x.2.2.isRunning && x.2.2.op = 0x62 && x.2.2.ctx = ctx then
        (match x.2.2.work with
         | .broadcast nm sh dest reader _ _ _ false =>
           if sh = shard ∧ reader ≠ j.rank then
             ((j.announcedShard nm sh).bind (fun ps => ps.find? (fun p => p.index = index))).map (fun p => (x.1, x.2.1, x.2.2, dest, p))
           else none
         | _ => none)
      else none)

/-- PIECE: the bytes of a piece this member asked for are written through its shadows; others are dropped. -/
def execPiece (port : Nat) (frame : Frame) (ok : Bool) (s : State) : Out :=
  s.onFrame port frame ok 0x12 (fun t =>
    let u := t.oweCredits frame
    let off := frame.t 1
    match u.senderOf frame with
    | none => u
    | some (ctx, _) =>
      match u.wantsPiece ctx (frame.tf 0 19 0) (frame.tf 2 13 0) with
      | none => u
      | some (f, q, c, dest, p) =>
        if p.len < off + frame.payload.length ∨ !u.destOk ctx dest [p] then u
        else
          match u.writeCtx f q c.n ctx (dest + p.dst + off) frame.payload (some p.code) with
          | some v => v.modCmd f q c.n (fun x => match x.work with
              | .broadcast nm sh de re ki se got lo =>
                { x with work := .broadcast nm sh de re ki se (got.filter (fun g => !(g.1 = p.index && g.2.1 = off)) ++ [(p.index, off, frame.payload.length)]) lo }
              | _ => x)
          | none => u.endCmd f q c.n ⟨St.quotaExceeded, 1, 0⟩)

/-! ### Replacement in place (R381 to R384) -/

/-- Opcodes the barrier holds. -/
def barrierHolds (op : Nat) : Bool :=
  [0x30, 0x31, 0x42, 0x22, 0x23, 0x28, 0x29, 0x21, 0x24].contains op || (decide (0x61 ≤ op) && decide (op ≤ 0x66))

/-- Staging frames of a shard: n bulk frames within quota and ceiling. -/
def State.takeStaging (s : State) (ctx : Nat) : Nat → Option (List (Nat × Nat) × State)
  | 0 => some ([], s)
  | n + 1 =>
    match State.takeStaging s ctx n with
    | some (l, t) => (t.allocFrame 1).map (fun (fid, u) => (l ++ [(n, fid)], u))
    | none => none

/-- The shard's bytes, in piece order. -/
def Obj.shardBytes (o : Obj) (ps : List Piece) : List Byte := ps.flatMap o.pieceBytes

/-- Bytes laid into staging frames in order. -/
def State.fillStaging (s : State) (bs : List Byte) (staging : List (Nat × Nat)) : State :=
  staging.foldl (fun t p => { t with tiers := { t.tiers with
    mem := cellWrite t.tiers.mem (p.2 * blockBytes) ((bs.drop (p.1 * blockBytes)).take blockBytes) } }) s

/-- Bytes read from staging frames. -/
def State.readStaging (s : State) (staging : List (Nat × Nat)) : List Byte :=
  staging.flatMap (fun p => cellRead s.tiers.mem (p.2 * blockBytes) blockBytes)

/-- WEIGHT_REPLACE up to its barrier: checks and staging (orders 1 and 2), then the barrier (order 3). -/
def execWeightReplace (f q n : Nat) (err : ReadErr) (chan : Nat) (s : State) : Out :=
  s.work f q n 0x63 (fun c =>
    let ws := c.eff
    let o := s.findObj f c
    match c.work with
    | .replace name shard dest 1 _ layers held staging =>
      (match o with
       | some x =>
         s.withFlash f q c err chan (fun t =>
           let t1 := t.fillStaging (x.shardBytes (x.shardPieces shard)) staging
           if (t1.ctxOf c.ctx).barrier.isSome then t1
           else (t1.modCtx c.ctx (fun y => { y with barrier := some (f, q, n) })).setWork f q n
             (.replace name shard dest 2 t1.cp.starts layers held staging))
       | none => s)
    | .replace _ _ _ _ _ _ _ _ => s
    | _ =>
      s.checked f q n c (reservedCheck ws loadWords ++ s.loadChecks c o ++
          [param (match o with
            | some x => decide (imKind x.image = 0)
            | none => false) 2])
        (match o with
         | some x =>
           let ps := x.shardPieces (loadShard ws)
           let k := ceilDiv (sumNat (ps.map (fun p => p.len))) blockBytes
           let layers := ((ps.map (fun p => p.layer)).eraseDups).length
           if !s.quotaRoom c.ctx 1 k then s.endCmd f q n ⟨St.quotaExceeded, 1, 0⟩
           else
             match s.takeStaging c.ctx k with
             | some (l, t) => t.setWork f q n (.replace (weightName ws 31) (loadShard ws) (loadDest ws) 1 0 layers 0 l)
             | none => s.endCmd f q n ⟨St.quotaExceeded, 1, 0⟩
         | none => s))

/-- Every command of the context that started before the barrier, and every earlier command of the replacement's own queue, has
completed. -/
def State.behindBarrier (s : State) (f q n ctx starts : Nat) : Bool :=
  s.allCmds.all (fun x =>
    (x.1 = f && x.2.1 = q && x.2.2.n = n) ||
    (!(x.1 = f && x.2.1 = q && decide (x.2.2.n < n)) &&
     !(namesContext x.2.2.words && x.2.2.ctx = ctx && decide (x.2.2.order ≠ 0) && decide (x.2.2.order ≤ starts))))

/-- Commands the barrier holds now. -/
def State.heldAtBarrier (s : State) (f q n ctx : Nat) : Nat :=
  (s.allCmds.filter (fun x => namesContext x.2.2.words && x.2.2.ctx = ctx && x.2.2.phase = .fetched && barrierHolds x.2.2.op &&
    !(x.1 = f && x.2.1 = q && decide (x.2.2.n < n)))).length

/-- Every block the pieces lie in has a frame of its own now. -/
def State.destSettled (s : State) (ctx dest : Nat) (ps : List Piece) : Bool :=
  ps.all (fun p => (pieces (dest + p.dst) p.len).all (fun b => match s.touch ctx b.1 with
    | .served _ _ => true
    | _ => false))

/-- The first block of the pieces that has become invalid, as the verdict of its touch. -/
def State.destInvalid (s : State) (ctx dest : Nat) (ps : List Piece) : Option Verdict :=
  (ps.flatMap (fun p => pieces (dest + p.dst) p.len)).findSome? (fun b => match s.touch ctx b.1 with
    | .invalid r => some (invalidVerdict r (b.1 * blockBytes + b.2.1))
    | _ => none)

/-- Pieces in copying order: ascending layer. -/
def byLayer (ps : List (Piece × Nat)) : List (Piece × Nat) :=
  (List.range 1024).flatMap (fun l => ps.filter (fun p => p.1.layer = l))

/-- The offsets of pieces in staging. -/
def stagingOffs : Nat → List Piece → List (Piece × Nat)
  | _, [] => []
  | a, p :: r => (p, a) :: stagingOffs (a + p.len) r

/-- The copy of order 5: layer by layer from staging into the destination blocks' frames; background migrations of those blocks
are abandoned. -/
def State.copyStaging (s : State) (ctx dest : Nat) (ps : List Piece) (staging : List (Nat × Nat)) : State :=
  let bs := s.readStaging staging
  let s1 := (ps.flatMap (fun p => pieces (dest + p.dst) p.len)).foldl (fun t b =>
    match t.bmFind (t.ctxOf ctx).part ctx b.1 with
    | some (i, _) => (match tget none t.tiers.migrations i with
      | some m => if m.kind = 0 then t.abandonMig i else t
      | none => t)
    | none => t) s
  (byLayer (stagingOffs 0 ps)).foldl (fun t p => t.rawWrite ctx (dest + p.1.dst) ((bs.drop p.2).take p.1.len)) s1

/-- The frame an error of order 5 lies in, and the context address reported where it has one: the staging frames in order, then the
destination's blocks. -/
def State.replacePlace (s : State) (ctx dest : Nat) (ps : List Piece) (staging : List (Nat × Nat)) (place : Nat) : Option (Nat × Option Nat) :=
  match staging[place]? with
  | some p => some (p.2, none)
  | none =>
    match ((ps.flatMap (fun p => (pieces (dest + p.dst) p.len).map (fun b => b.1))).eraseDups)[place - staging.length]? with
    | none => none
    | some b => match s.touch ctx b with
      | .served _ fid => some (fid, some (b * blockBytes))
      | _ => none

/-- What an error of order 5 leaves: a corrected one is counted and recorded (R284); an uncorrectable one retires its frame and tears the context
down with the tier's status (R384), with a free address where it lay in staging. Answers whether the copies go on. -/
def State.replaceErr (s : State) (f q n ctx : Nat) (err : ReadErr) : Option (Nat × Option Nat) → State × Bool
  | none => (s, true)
  | some (fid, addr) =>
    match err with
    | .clean => (s, true)
    | .corrected => (s.correctable (fidIsland fid) (corrClass fid) (fid % 2 ^ 24), true)
    | .uncorrectable =>
      (match addr with
       | some a => (s.retireFrame fid).teardown ctx ⟨uncStatus fid, a % 2 ^ 32, a / 2 ^ 32⟩ (hitOne f q n)
       | none => ((s.freeNext 2).retireFrame fid).teardown ctx
           ⟨uncStatus fid, s.freeNow % 2 ^ 32, Config.freeValue (s.free + 1) % 2 ^ 16⟩ (hitOne f q n), false)

/-- WEIGHT_REPLACE_COPY: orders 4 and 5, with the error the copies met and its place. The barrier falls at the commit that follows (order 6). -/
def execWeightReplaceCopy (f q n : Nat) (err : ReadErr) (place : Nat) (s : State) : Out :=
  s.work f q n 0x63 (fun c =>
    match c.work, s.findObj f c with
    | .replace _ shard dest 2 starts layers _ staging, some o =>
      let ps := o.shardPieces shard
      if !s.behindBarrier f q n c.ctx starts then s
      else
        match s.destInvalid c.ctx dest ps with
        | some v => s.endCmd f q n v
        | none =>
          if !s.destSettled c.ctx dest ps then s
          else match s.replaceErr f q n c.ctx err (s.replacePlace c.ctx dest ps staging place) with
            | (t, false) => t
            | (t, true) =>
              let held := t.heldAtBarrier f q n c.ctx
              let s1 := t.copyStaging c.ctx dest ps staging
              let s2 := staging.foldl (fun t p => t.dropFrame p.2) s1
              (s2.modCmd f q n (fun x => { x with
                pastCommit := true, commitCount := some (s2.islCount islCp),
                work := .load (weightName c.eff 31) 0 shard dest layers [] })).done f q n layers held
    | _, _ => s)

end Sys2Proof.Machine
end

