-- ==== Sys2Proof/Machine/Fabric.lean ====
section
/-! DEFINITION. The fabric's own rows (chapter 13): the link layer, lanes, circuits and jobs, tiles between layouts, fabric
memory requests, lending, routing and restoration. -/
namespace Sys2Proof.Machine

/-! ### Class 0 frames and link timers (R392, R393) -/

/-- A class 0 frame of type ty reaches its row: its check, its fields, and what it acknowledges. -/
def State.onLink (s : State) (port : Nat) (f : Frame) (ok : Bool) (ty : Nat) (g : State → State) : Out :=
  if f.ty ≠ ty ∨ !(s.portOf port).usable then .next s
  else if !ok then .next (s.modPort port (fun x => { x with crcErrors := satAdd 8 x.crcErrors 1 }))
  else if !f.clean then .next (s.discardFrame port)
  else .next (g (s.modPort port (fun x => x.acked f.lack)))

/-- A replay is an error of the link class. -/
def State.replayOn (s : State) (port : Nat) : State :=
  (s.modPort port Port.replay).report (islQuenor port) 9 0 none port

/-- LINK_ACK. A frame of a reserved TYPE has no row of its own and ends here: the link layer takes it and discards it. -/
def execLinkAck (port : Nat) (frame : Frame) (ok : Bool) (s : State) : Out :=
  if (frameClass frame.ty).isNone then
    match s.arrive port frame ok with
    | .stop t => .next t
    | .deliver t => .next t
  else
    s.onLink port frame ok 0x01 (fun t =>
      if frame.tf 0 0 0 = 1 ∧ (t.portOf port).replayBuf ≠ [] then
        (t.replayOn port).modPort port (fun x => { x with failedReplays := max 1 x.failedReplays })
      else t)

/-- REPLAY_TIMEOUT: the oldest unacknowledged frame has waited 2.0 us: replay, or, after three failed ones, the port goes
down. -/
def execReplayTimeout (port : Nat) (s : State) : Out :=
  let p := s.portOf port
  onlyIf (p.usable && !p.replayBuf.isEmpty) s
    (if 3 ≤ p.failedReplays then s.portDown port 1
     else (s.replayOn port).modPort port (fun x => { x with failedReplays := x.failedReplays + 1 }))

/-- ACK_TIMER: accepted frames not yet reported are reported. -/
def execAckTimer (port : Nat) (s : State) : Out :=
  let p := s.portOf port
  onlyIf (p.usable && decide (p.unreported ≠ 0)) s (s.sendOn port (s.linkAckFrame false))

/-! ### Lanes, restoration and recalibration (R393, R413 to R415) -/

/-- Lanes in a mask of four. -/
def laneCount (m : Nat) : Nat := (onesOf 4 m).length

/-- LOSS_OF_LOCK: for 1 us only the lanes of `lanes` have held lock. With three left the lost lane is left out; with fewer
the port goes down. -/
def execLossOfLock (port lanes : Nat) (s : State) : Out :=
  let p := s.portOf port
  let held := p.lanesUp &&& lanes
  onlyIf (p.usable && decide (held ≠ p.lanesUp)) s
    (if held = 0 then s.portDown port 2
     else if laneCount held < 3 then s.portDown port 3
     else (s.modPort port (fun x => { x with lanesUp := held, lanesFailed := x.lanesFailed ||| (x.lanesUp - held) })).report
       (islQuenor port) 9 0x10 none port)

/-- Every DEAD bit of the routing table is cleared. -/
def State.clearDead (s : State) : State :=
  { s with fab := { s.fab with routes := tmap 0 s.fab.routes (fun _ e => setBits e 26 23 0) } }

/-- Training of a port has ended with the lanes given. -/
def State.trained (s : State) (port lanes chip nport : Nat) : State :=
  if laneCount lanes < 3 then s.modPort port (fun x => { x with downCause := 4 })
  else
    let s1 := s.modPort port (fun x => { x with
      state := 2, mappedOut := false, downCause := 0, lanesUp := lanes % 16, lanesFailed := 15 - lanes % 16, nChip := chip,
      nPort := nport, txSeq := 0, rxSeq := 0, replayBuf := [], held := [], failedReplays := 0, unreported := 0 })
    let s2 := if lanes % 16 = 15 then s1 else s1.report (islQuenor port) 9 0x10 none port
    s2.clearDead

/-- LINK_RESTORE: training a mapped-out port has ended with the lanes given; the port returns to service at the commit. -/
def execLinkRestore (f q n : Nat) (lanes chip port : Nat) (s : State) : Out :=
  s.work f q n 0x72 (fun c =>
    let p := fld (word c.eff 2) 4 0
    s.checked f q n c (reservedCheck c.eff [(2, 0x1F)])
      (if (s.portOf p).usable then s.done f q n (s.portOf p).lanesUp 0
       else (s.setWork f q n (.restore p lanes chip port)).done f q n (if laneCount lanes < 3 then 0 else lanes % 16) 0))

/-- What a LINK_RESTORE's training found takes effect (R73, R414), unless the neighbour has brought the port up meanwhile. -/
def State.commitRestore (s : State) (port lanes chip nport : Nat) : State :=
  if (s.portOf port).usable then s else s.trained port lanes chip nport

/-- NEIGHBOUR_LINK_RESTORE: training the neighbour started reaches a mapped-out port. -/
def execNeighbourLinkRestore (port lanes chip nport : Nat) (s : State) : Out :=
  onlyIf (decide (port < 32) && (s.portOf port).mappedOut) s (s.trained port lanes chip nport)

/-- A LANE frame of a kind for a lane: 0 request, 1 grant, 2 refuse, 3 rejoin. -/
def State.laneFrame (s : State) (lane kind : Nat) : Frame := s.frame 0x02 0 [w32 (lane + kind * 4)] []

/-- The lane of a recalibration is asked for, or, where only three lanes are in service and it is one of them, passed over
(log entry 24); after the last lane the command has finished. -/
def State.recalLane (f q n p : Nat) (all : Bool) (left : Nat) : List Nat → State → State
  | [], s => (s.modPort p (fun x => { x with recalActive := false, recalLane := 0 })).done f q n left 0
  | lane :: r, s =>
    let up := (s.portOf p).lanesUp
    if nbit up lane ∧ laneCount up < 4 then State.recalLane f q n p all left r s
    else
      ((s.modPort p (fun x => { x with recalActive := true, recalLane := lane })).sendOn p (s.laneFrame lane 0)).setWork f q n
        (.port p lane all left)

def execLinkRecalibrate (f q n : Nat) (s : State) : Out :=
  s.work f q n 0x73 (fun c =>
    let w := word c.eff 2
    let p := fld w 4 0
    match c.work with
    | .port _ _ _ _ => s
    | _ =>
      s.checked f q n c (reservedCheck c.eff [(2, 0xFF)] ++
          [param (s.portOf p).usable 2, need (!(s.portOf p).recalActive) St.targetBusy 0 0])
        (State.recalLane f q n p (bit w 7) 0 (if bit w 7 then [0, 1, 2, 3] else [fld w 6 5]) s))

/-- The recalibration that is at work on a port. -/
def State.recalOf (s : State) (port : Nat) : Option (Nat × Nat × Cmd × Nat × Bool × Nat) :=
  s.allCmds.findSome? (fun x => match x.2.2.work with
    | .port p lane all left => if p = port ∧ x.2.2.isRunning then some (x.1, x.2.1, x.2.2, lane, all, left) else none
    | _ => none)

/-- LANE: the neighbour asks for a lane, grants or refuses one asked for here, or announces that one rejoins. -/
def execLane (port : Nat) (frame : Frame) (ok : Bool) (s : State) : Out :=
  s.onLink port frame ok 0x02 (fun t =>
    let lane := frame.tf 0 1 0
    let p := t.portOf port
    match frame.tf 0 3 2 with
    | 0 =>
      if p.recalActive then t.sendOn port (t.laneFrame lane 2)
      else (t.sendOn port (t.laneFrame lane 1)).modPort port (fun x => { x with lanesUp := setBits x.lanesUp lane lane 0 })
    | 1 =>
      if p.recalActive ∧ p.recalLane = lane then t.modPort port (fun x => { x with lanesUp := setBits x.lanesUp lane lane 0 }) else t
    | 2 =>
      match t.recalOf port with
      | some (f, q, c, k, _, _) =>
        if k = lane then (t.modPort port (fun x => { x with recalActive := false, recalLane := 0 })).endCmd f q c.n ⟨St.targetBusy, 0, 0⟩
        else t
      | none => t
    | _ => t.modPort port (fun x => { x with lanesUp := setBits x.lanesUp lane lane 1, lanesFailed := setBits x.lanesFailed lane lane 0 }))

/-- LANE_RETRAIN_DONE: the lane out of service rejoins, or is left out; then the next lane follows, or the command ends. -/
def execLaneRetrainDone (port : Nat) (good : Bool) (s : State) : Out :=
  match s.recalOf port with
  | none => .next s
  | some (f, q, c, lane, all, left) =>
    let p := s.portOf port
    onlyIf (p.usable && p.recalActive && !nbit p.lanesUp lane) s
      (let s1 := if good then
          (s.sendOn port (s.laneFrame lane 3)).modPort port (fun x =>
            { x with lanesUp := setBits x.lanesUp lane lane 1, lanesFailed := setBits x.lanesFailed lane lane 0 })
        else (s.modPort port (fun x => { x with lanesFailed := setBits x.lanesFailed lane lane 1 })).report (islQuenor port) 9 0x10 none port
       let left' := if good then left else left ||| 2 ^ lane
       if laneCount (s1.portOf port).lanesUp < 3 then s1.portDown port 3
       else State.recalLane f q c.n port all left' (if all then [0, 1, 2, 3].filter (lane < ·) else []) s1)

/-! ### Credits and tears (R405, R406) -/

/-- CREDIT: credits come back to the sender; a branch point passes on what every branch has returned. -/
def execCredit (port : Nat) (frame : Frame) (ok : Bool) (s : State) : Out :=
  s.onFrame port frame ok 0x14 (fun t =>
    let k := frame.circuit
    let n := frame.tf 0 10 0
    let c := t.circOf k
    if c.kind = 2 then
      let t1 := t.modCirc k (fun x => { x with owed := x.owed + n })
      let m := t1.owedOn k
      if c.aLocal then
        let h := t1.treeHead k
        State.drainCircuit ((t1.circOf h).sendQ.length + 1) ((t1.takeOwed k m).modCirc h (fun x => { x with avail := min x.limit (x.avail + m) })) h
      else if m = 0 then t1 else t1.sendCredit (t1.treeHead k)
    else State.drainCircuit (c.sendQ.length + 1) (t.modCirc k (fun x => { x with avail := min x.limit (x.avail + n) })) k)

/-- An endpoint of an open circuit that receives frames on it: one that is not the root of a tree. -/
def Circuit.receives (c : Circuit) : Bool := c.state = 2 && !c.transit && !(c.kind = 2 && c.aLocal)
/-- An endpoint that sends frames against credits: any end of a circuit, the root of a tree. -/
def Circuit.sends (c : Circuit) : Bool := c.state = 2 && !c.transit && (c.kind ≠ 2 || c.aLocal)

/-- CREDIT_TIMER. -/
def execCreditTimer (circuit : Nat) (s : State) : Out := onlyIf (s.circOf circuit).receives s (s.sendCredit circuit)

/-- CREDIT_TIMEOUT: credits are outstanding and no CREDIT frame has come for 8 us. -/
def execCreditTimeout (circuit : Nat) (s : State) : Out :=
  let c := s.circOf circuit
  onlyIf (c.sends && decide (c.avail < c.limit)) s (s.tearHere circuit 4 0 none)

/-- TEAR: every hop passes it on and frees its entry; an endpoint acts on its cause. -/
def execTear (port : Nat) (frame : Frame) (ok : Bool) (s : State) : Out :=
  s.onFrame port frame ok 0x15 (fun t => t.tearHere frame.circuit (frame.tf 0 2 0) (frame.tf 1 13 0) (some port))

/-! ### Reserving circuits (R404, R407, R408) -/

/-- The tree a RESERVE of a multicast circuit continues: this device's entries reached from the neighbour's index. -/
def State.treeAt (s : State) (job : Word) (port idx : Nat) : List Nat :=
  (s.fab.circuits.filter (fun p => p.2.state ≠ 0 && p.2.kind = 2 && p.2.jobId = job && p.2.aPort = port && !p.2.aLocal &&
    p.2.aCircuit = idx)).map (fun p => p.1)

/-- A new entry joins the end of a tree's chain. -/
def State.chainTo (s : State) (tree : List Nat) (k : Nat) : State :=
  match tree.find? (fun j => !(s.circOf j).chainValid) with
  | some j => s.modCirc j (fun c => { c with chainValid := true, chain := k })
  | none => s

/-- RESERVE leaves on a port for an entry. -/
def State.passReserve (s : State) (port : Nat) (f : Frame) (k : Nat) : State :=
  let r : Resv := { port := port, initiator := f.src, target := f.dst, entry := some k }
  { s with fab := { s.fab with resv := s.fab.resv ++ [r] } }.sendOn port
    { f with tw := [w32 (f.t 0), w32 (f.tf 1 1 0 + k * 4), w32 (f.tf 2 10 0)] }

/-- REJECT goes back to the initiator of a RESERVE. -/
def State.refuseReserve (s : State) (port : Nat) (f : Frame) : State :=
  s.sendOn port (s.frame 0x32 f.src [w32 s.fab.chip] [])

/-- A transit device passes a RESERVE on. -/
def State.transitReserve (s : State) (port : Nat) (f : Frame) : State :=
  let kind := f.tf 1 1 0
  let idx := f.tf 1 13 2 % 4096
  match (s.cands f.dst).head?, s.freeCircuit with
  | some p, free =>
    let tree := if kind = 2 then s.treeAt (w32 (f.t 0)) port idx else []
    let g := { f with ttl := f.ttl - 1 }
    (match tree.find? (fun j => (s.circOf j).bPort = p && !(s.circOf j).bLocal), free with
    | some j, _ => s.passReserve p g j
    | none, some k =>
      let c : Circuit := { state := 1, kind := kind, transit := true, jobId := w32 (f.t 0), aPort := port, aCircuit := idx,
                           aChip := f.src, bPort := p, bChip := if kind = 2 then 0 else f.dst }
      ((s.modCirc k (fun _ => c)).chainTo tree k).passReserve p g k
    | none, none => s.refuseReserve port f)
  | none, _ => s.refuseReserve port f

/-- The target of a RESERVE whose JOB_OPEN has started takes an endpoint entry and confirms. -/
def State.acceptReserve (s : State) (ctx port : Nat) (f : Frame) : State :=
  let kind := f.tf 1 1 0
  let idx := f.tf 1 13 2 % 4096
  let n := f.tf 2 10 0
  let confirm (t : State) (k : Nat) : State := t.sendOn port (t.frame 0x31 f.src [w32 k] [])
  match s.freeCircuit with
  | none => s.refuseReserve port f
  | some k =>
    let tree := if kind = 2 then s.treeAt (w32 (f.t 0)) port idx else []
    let part := (s.ctxOf ctx).part
    let c : Circuit := { state := 2, kind := kind, part := part, ctx := ctx, jobId := w32 (f.t 0), aPort := port, aCircuit := idx,
                         aChip := f.src, bLocal := true, limit := n, avail := n }
    let s1 := (s.modCirc k (fun _ => c)).chainTo tree k
    let h := s1.treeHead k
    confirm (s1.modCirc h (fun x => { x with transit := false, part := part, ctx := ctx })) h

/-- The context whose JOB_OPEN for a JOB_ID has started and not committed. -/
def State.opening (s : State) (id : Nat) : Option Nat :=
  (s.ctxs.find? (fun p => match p.2.job with
    | some j => !j.isOpen && decide (j.jobId.toNat = id)
    | none => false)).map (fun p => p.1)

/-- RESERVE. At its target it waits until the target's JOB_OPEN for the JOB_ID has started. -/
def execReserve (port : Nat) (frame : Frame) (ok : Bool) (s : State) : Out :=
  s.onFrame port frame ok 0x30 (fun t =>
    if frame.dst = t.fab.chip then
      match t.opening (frame.t 0) with
      | some ctx => t.acceptReserve ctx port frame
      | none => { t with fab := { t.fab with waiting := t.fab.waiting ++ [(port, frame)] } }
    else if frame.ttl ≤ 1 then t.discardFrame port
    else t.transitReserve port frame)

/-- The record of a RESERVE is answered. -/
def State.dropResv (s : State) (r : Resv) : State := { s with fab := { s.fab with resv := s.fab.resv.erase r } }

/-- CONFIRM: the entry opens and the confirmation goes on toward the initiator. One for a reservation that has been torn is
answered with TEAR (log entry 23). -/
def execConfirm (port : Nat) (frame : Frame) (ok : Bool) (s : State) : Out :=
  s.onFrame port frame ok 0x31 (fun t =>
    let idx := frame.tf 0 11 0
    match t.fab.resv.find? (fun r => r.port = port && r.initiator = frame.dst && r.target = frame.src) with
    | some r =>
      let t1 := t.dropResv r
      (match r.entry with
      | some k =>
        let c := t.circOf k
        let t2 := t1.modCirc k (fun x => { x with state := 2, bCircuit := idx })
        if c.aLocal then t2
        else if frame.ttl ≤ 1 then t2.discardFrame port
        else t2.sendOn c.aPort { frame with ttl := frame.ttl - 1, tw := [w32 (t2.treeHead k)] }
      | none => t1.sendOn port { t.frame 0x15 frame.src [0] [] with circuit := idx })
    | none => t.sendOn port { t.frame 0x15 frame.src [0] [] with circuit := idx })

/-- REJECT: a hop frees its entry and passes the refusal on; at the initiator JOB_OPEN fails with the port it came on. -/
def execReject (port : Nat) (frame : Frame) (ok : Bool) (s : State) : Out :=
  s.onFrame port frame ok 0x32 (fun t =>
    let mine := t.fab.resv.filter (fun r => r.port = port && r.initiator = frame.dst)
    match (match mine.find? (fun r => r.target = frame.tf 0 13 0) with
      | some r => some r
      | none => mine.head?) with
    | none => t
    | some r =>
      let t1 := t.dropResv r
      match r.entry with
      | none => t1
      | some k =>
        let c := t.circOf k
        if c.aLocal then t1.failOpen c.ctx port
        else
          let alone := c.state = 1 && decide (t1.treeOf k = [k]) && !t1.fab.resv.any (fun x => x.entry = some k)
          let t2 := if alone then t1.modCirc k (fun _ => {}) else t1
          if frame.ttl ≤ 1 then t2.discardFrame port else t2.sendOn c.aPort { frame with ttl := frame.ttl - 1 })

/-! ### JOB_OPEN and JOB_CLOSE (R346 to R348, R407 to R410) -/

/-- Bytes of an expert plan by its header. -/
def planBytes (hd : List Word) : Nat :=
  let l := fld (word hd 1) 15 8 + 1
  64 + 16 * l + 8 * (l * (fld (word hd 1) 24 16 + 1))

/-- A plan's header breaks a rule: of a reserved field, or of any other. -/
def planHeaderBad (hd : List Word) : Bool × Bool :=
  (fld (word hd 0) 31 24 ≠ 0 || fld (word hd 1) 7 3 ≠ 0 || fld (word hd 1) 31 25 ≠ 0 || fld (word hd 3) 31 17 ≠ 0 ||
     (List.range 12).any (fun i => word hd (4 + i) ≠ 0),
   fld (word hd 0) 15 0 ≠ 0x4550 || fld (word hd 0) 23 16 ≠ 1 || fld (word hd 2) 1 0 ≠ 0)

def planLayer (ws : List Word) (i : Nat) : List Word := (ws.drop (16 + 4 * i)).take 4
def planExpert (ws : List Word) (i x : Nat) : List Word :=
  let l := fld (word ws 1) 15 8 + 1
  (ws.drop (16 + 4 * l + 2 * (i * (fld (word ws 1) 24 16 + 1) + x))).take 2

/-- The verdict of a plan for a job of `count` members (R348). -/
def planVerdict (ws : List Word) (count : Nat) : Option Verdict :=
  let ls := (List.range (fld (word ws 1) 15 8 + 1)).map (planLayer ws)
  let es := (List.range (fld (word ws 1) 15 8 + 1)).flatMap (fun i => (List.range (fld (word ws 1) 24 16 + 1)).map (planExpert ws i))
  let (r, p) := planHeaderBad ws
  let lr (w : List Word) : Bool := fld (word w 0) 15 10 ≠ 0 || fld (word w 0) 31 26 ≠ 0 || fld (word w 1) 15 10 ≠ 0 ||
    fld (word w 1) 31 26 ≠ 0 || fld (word w 2) 15 13 ≠ 0 || fld (word w 2) 31 25 ≠ 0 || fld (word w 3) 31 8 ≠ 0
  let fmtBad (k : Nat) : Bool := decide (k < 5) || decide (7 < k)
  let lp (w : List Word) : Bool := fld (word w 2) 12 0 = 0 || fmtBad (fld (word w 3) 3 0) || fmtBad (fld (word w 3) 7 4)
  let er (w : List Word) : Bool := fld (word w 0) 15 14 ≠ 0 || fld (word w 0) 31 26 ≠ 0 || fld (word w 1) 31 10 ≠ 0
  verdictOf [
    need (!ls.any (fun w => decide (4096 < fld (word w 2) 12 0))) St.limitExceeded 4096 0,
    param (!p && !ls.any lp && !es.any (fun w => decide (count ≤ fld (word w 0) 13 0))) 6,
    resv (!r && !ls.any lr && !es.any er) 6]

/-- The plan a job keeps. -/
def planOf (ws : List Word) : ExpertPlan :=
  { layout := fld (word ws 1) 2 0, loadAddr := addr48 ws 2, loadEn := bit (word ws 3) 16,
    layers := (List.range (fld (word ws 1) 15 8 + 1)).map (fun i =>
      let w := planLayer ws i
      { score := fld (word w 0) 9 0, hidden := fld (word w 0) 25 16, resid := fld (word w 1) 9 0, combine := fld (word w 1) 25 16,
        capacity := fld (word w 2) 12 0, hTilesM1 := fld (word w 2) 24 16, dispFmt := fld (word w 3) 3 0, ansFmt := fld (word w 3) 7 4,
        experts := (List.range (fld (word ws 1) 24 16 + 1)).map (fun x =>
          let e := planExpert ws i x
          { host := fld (word e 0) 13 0, inSt := fld (word e 0) 25 16, outSt := fld (word e 1) 9 0 }) }) }

/-- The plan of a JOB_OPEN, where it names one, goes on to `k`. -/
def State.withExpertPlan (s : State) (f q n ctx : Nat) (ws : List Word) (count : Nat) (k : Option ExpertPlan → State) : State :=
  if !bit (word ws 7) 16 then k none
  else
    let a := addr48 ws 6
    s.withRange f q n ctx 6 a 64 true
      (let hd := toWords (s.readCtx ctx a 64)
       let (r, p) := planHeaderBad hd
       match verdictOf [param (!p) 6, resv (!r) 6] with
       | some v => s.endCmd f q n v
       | none =>
         s.withRange f q n ctx 6 a (planBytes hd) true
           (let all := toWords (s.readCtx ctx a (planBytes hd))
            match planVerdict all count with
            | some v => s.endCmd f q n v
            | none => k (some (planOf all))))

def ascending : List Nat → Bool
  | a :: b :: r => decide (a < b) && ascending (b :: r)
  | _ => true

/-- A station map entry. -/
def mapEntryOf (ws : List Word) : MapEntry :=
  { layout := fld (word ws 0) 2 0, station := fld (word ws 0) 12 3, rank := fld (word ws 0) 26 13,
    remLayout := fld (word ws 1) 2 0, remStation := fld (word ws 1) 12 3 }

/-- The circuits a member initiates: kind and chip (R407). -/
def Job.initiates (j : Job) : List (Nat × Nat) :=
  ((j.others.filter (fun p => j.rank < p.1)).map (fun p => (0, p.2))) ++
  (if j.rank = 0 then j.others.map (fun p => (1, p.2)) else []) ++
  (if j.mcastRoot = some j.rank then j.others.map (fun p => (2, p.2)) else [])

/-- One circuit is begun at its initiator: an endpoint entry and a RESERVE; none where the device has no entry or port. -/
def State.initiate (s : State) (ctx : Nat) (j : Job) (kind chip : Nat) : Option State :=
  match (s.cands chip).head? with
  | none => none
  | some p =>
    let f := s.frame 0x30 chip [j.jobId, w32 kind, w32 j.credits] []
    let tree := if kind = 2 then
        (s.fab.circuits.filter (fun x => x.2.state ≠ 0 && x.2.kind = 2 && x.2.ctx = ctx && x.2.aLocal && !x.2.transit)).map (fun x => x.1)
      else []
    match tree.find? (fun k => (s.circOf k).bPort = p), s.freeCircuit with
    | some k, _ => some (s.passReserve p f k)
    | none, some k =>
      let c : Circuit := { state := 1, kind := kind, part := (s.ctxOf ctx).part, ctx := ctx, jobId := j.jobId, aLocal := true, bPort := p,
                           bChip := if kind = 2 then 0 else chip, limit := j.credits, avail := j.credits }
      some (((s.modCirc k (fun _ => c)).chainTo tree k).passReserve p f k)
    | none, none => none

/-- A member's circuits are all open. -/
def State.jobReady (s : State) (ctx : Nat) (j : Job) : Bool :=
  j.others.all (fun p => (s.circuitTo ctx 0 p.2).isSome) &&
  (if j.rank = 0 then j.others.all (fun p => (s.circuitTo ctx 1 p.2).isSome)
   else (s.circuitTo ctx 1 (j.chipOf 0)).isSome) &&
  (match j.mcastRoot with
   | none => true
   | some r =>
     if j.others = [] then true
     else if r = j.rank then
       !(s.fab.resv.any (fun x => match x.entry with
         | some k => (s.circOf k).kind = 2 && (s.circOf k).ctx = ctx && (s.circOf k).aLocal && !(s.circOf k).transit
         | none => false))
     else s.fab.circuits.any (fun p => p.2.state = 2 && p.2.kind = 2 && p.2.ctx = ctx && p.2.bLocal && !p.2.transit))

/-- The circuits a member is an endpoint of: routed, control, and the tree as one. -/
def State.circuitCount (s : State) (ctx : Nat) : Nat :=
  let ks := (s.jobCircuits ctx).map (fun k => (s.circOf k).kind)
  (ks.filter (fun k => k ≠ 2)).length + b2n (ks.contains 2)

/-- The first work of a JOB_OPEN: the job's record, its own RESERVEs, and those that waited for it. -/
def State.beginJob (s : State) (f q n ctx : Nat) (j : Job) : State :=
  let s1 := (s.modCtx ctx (fun x => { x with job := some j })).setWork f q n (.job j.jobId)
  match j.initiates.foldl (fun (a : Option State) p => a.bind (fun t => t.initiate ctx j p.1 p.2)) (some s1) with
  | none => s1.endCmd f q n ⟨St.circuitsUnavailable, 32, 0⟩
  | some s2 =>
    (s2.fab.waiting.filter (fun w => w.2.t 0 = j.jobId.toNat)).foldl (fun t w =>
      { t with fab := { t.fab with waiting := t.fab.waiting.erase w } }.acceptReserve ctx w.1 w.2) s2

/-- What the words of JOB_OPEN must hold. -/
def State.jobChecks (s : State) (ctx : Nat) (ws : List Word) : List Check :=
  let count := fld (word ws 5) 14 0
  let cr := fld (word ws 9) 10 0
  reservedCheck ws [(2, 0xFFFFFFFF), (3, 0xFFFFFFFF), (4, 0xFFFF), (5, 0x7FFF), (6, 0xFFFFFFFF), (7, 0x1FFFF), (8, 0x7FFF), (9, 0x7FF),
    (10, 0xFFFF), (11, 0xFFFFFFFF), (12, 0x07FFFFFF)] ++
  [param (wnat ws 2 ≠ 0 && (s.openJob ctx).isNone) 2, param (decide (wnat ws 3 % 4 = 0)) 3,
   param (decide (1 ≤ count) && decide (count ≤ 16384)) 5, param (decide (wnat ws 6 % 64 = 0)) 6,
   param (!bit (word ws 8) 14 || decide (fld (word ws 8) 13 0 < count)) 8,
   param (cr = 0 || (decide (16 ≤ cr) && decide (cr ≤ 1024))) 9, param (decide (wnat ws 11 % 8 = 0)) 11,
   param (decide (fld (word ws 12) 26 16 ≤ 1024)) 12]

def execJobOpen (f q n : Nat) (errs : List MemErr) (s0 : State) : Out :=
  s0.withErrs f q n 0x70 errs (fun s => s.work f q n 0x70 (fun c =>
    let ws := c.eff
    let count := fld (word ws 5) 14 0
    let maps := fld (word ws 12) 26 16
    match c.work, s.jobOf c.ctx with
    | .job _, some j => if s.jobReady c.ctx j then s.done f q n j.rank (s.circuitCount c.ctx) else s
    | _, some j =>
      if j.isOpen then s.checked f q n c (s.jobChecks c.ctx ws) s else s
    | _, none =>
      s.checked f q n c (s.jobChecks c.ctx ws)
        (s.withRange f q n c.ctx 3 (addr48 ws 3) (2 * count) true
          (s.withRange f q n c.ctx 11 (addr48 ws 11) (8 * maps) true
            (let mb := s.readCtx c.ctx (addr48 ws 3) (2 * count)
             let members := (List.range count).map (fun i => leNat ((mb.drop (2 * i)).take 2))
             let mw := toWords (s.readCtx c.ctx (addr48 ws 11) (8 * maps))
             let es := (List.range maps).map (fun i => (mw.drop (2 * i)).take 2)
             let rank := (members.findIdx? (fun m => m = s.fab.chip)).getD 0
             let unrouted := members.find? (fun m => m ≠ s.fab.chip && !s.routeValid m)
             s.checked f q n c
               [param (ascending members && members.contains s.fab.chip && members.all (fun m => decide (m < 16384))) 3,
                resv (es.all (fun w => fld (word w 0) 31 27 = 0 && fld (word w 1) 31 13 = 0)) 11,
                param (es.all (fun w => decide ((mapEntryOf w).rank < count) && (mapEntryOf w).rank ≠ rank)) 11,
                need unrouted.isNone St.noRoute (unrouted.getD 0) 0]
               (s.withExpertPlan f q n c.ctx ws count (fun plan =>
                 s.beginJob f q n c.ctx {
                   jobId := word ws 2, members := members, rank := rank, plan := plan, map := es.map mapEntryOf,
                   mcastRoot := if bit (word ws 8) 14 then some (fld (word ws 8) 13 0) else none,
                   credits := if fld (word ws 9) 10 0 = 0 then 64 else fld (word ws 9) 10 0 })))))))

/-- JOB_OPEN commits: its context's job is open. -/
def State.commitJob (s : State) (c : Cmd) : State := s.modJob c.ctx (fun j => { j with isOpen := true })

/-- JOB_OPEN_TIMEOUT: OPEN_MS has passed and not all circuits are open. -/
def execJobOpenTimeout (f q n : Nat) (s : State) : Out :=
  s.work f q n 0x70 (fun c => match c.work, s.jobOf c.ctx with
    | .job _, some j => if s.jobReady c.ctx j then s else s.endCmd f q n ⟨St.circuitsUnavailable, 32, 0⟩
    | _, _ => s)

/-- JOB_CLOSE waits for the users of the job that started before it, but for those behind it in its own queue, which commit
after it. -/
def execJobClose (f q n : Nat) (s : State) : Out :=
  s.work f q n 0x71 (fun c =>
    s.checked f q n c (reservedCheck c.eff [])
      (if (s.openJob c.ctx).isNone then s.done f q n 0 0
       else if s.allCmds.any (fun x => x.2.2.ctx = c.ctx && x.2.2.usesJob && decide (x.2.2.order < c.order) &&
           !(x.1 = f && x.2.1 = q && decide (n < x.2.2.n))) then s
       else s.done f q n (s.circuitCount c.ctx) 0))

/-- JOB_CLOSE commits: the job ends; commands that use it and started later need a job that is gone. -/
def State.commitJobClose (s : State) (c : Cmd) : State :=
  if (s.openJob c.ctx).isNone then s
  else
    let later := s.allCmds.filter (fun x => x.2.2.ctx = c.ctx && x.2.2.usesJob)
    (later.foldl (fun t x => t.endCmd x.1 x.2.1 x.2.2.n ⟨St.invalidParameter, 2, 0⟩) s).endJob c.ctx

/-! ### Tiles between devices (R409) -/

/-- The frames of a tile for a map entry. -/
def State.tileFrames (s : State) (chip : Nat) (e : MapEntry) (deal : Nat) (t : Tile) : List Frame :=
  let bs := t.flits
  let parts := max 1 (ceilDiv bs.length 4096)
  (List.range parts).map (fun i =>
    s.frame 0x10 chip [w32 (t.fmt + t.rowsM1 * 16 + t.colsM1 * 512 + t.kind * 2 ^ 14 + t.hand * 2 ^ 24), w32 (deal + t.tag * 2 ^ 16),
      w32 (e.remLayout + e.remStation * 8), w32 (i + parts * 256)] ((bs.drop (4096 * i)).take 4096))

/-- A tile of a mapped station leaves, stamped with the number last published for the remote layout, or waits for the first. -/
def State.sendMapped (s : State) (ctx idx : Nat) (t : Tile) : State :=
  match s.jobOf ctx with
  | none => s
  | some j =>
    let e := j.map.getD idx { layout := 0, station := 0, rank := 0, remLayout := 0, remStation := 0 }
    let d := tget 0 j.published (e.rank * 8 + e.remLayout)
    if d = 0 then s.modJob ctx (fun x => { x with waitTiles := x.waitTiles ++ [(idx, t)] })
    else (s.tileFrames (j.chipOf e.rank) e d t).foldl (fun u f => u.toChip ctx 0 (j.chipOf e.rank) f) s

/-- DEAL_PUBLICATION: the rank's number for its layout; tiles that waited for it leave. Control messages of a reserved subtype have no row and end
here, discarded by the link layer. -/
def execDealPublication (port : Nat) (frame : Frame) (ok : Bool) (s : State) : Out :=
  if frame.ty = 0x13 ∧ (frame.tf 0 7 0 = 0 ∨ 8 < frame.tf 0 7 0) then s.onFrame port frame ok 0x13 (fun t => t)
  else s.onJobCtrl port frame ok 0x07 (fun t ctx rank =>
    let ws := Frame.words frame
    let key := rank * 8 + wnat ws 0 % 8
    let t1 := t.modJob ctx (fun x => { x with published := tset 0 x.published key (wnat ws 1 % 65536) })
    match t1.jobOf ctx with
    | none => t1
    | some j =>
      let mine (w : Nat × Tile) : Bool := match j.map[w.1]? with
        | some e => e.rank * 8 + e.remLayout = key
        | none => false
      (j.waitTiles.filter mine).foldl (fun u w => u.sendMapped ctx w.1 w.2)
        (t1.modJob ctx (fun x => { x with waitTiles := x.waitTiles.filter (fun w => !mine w) })))

/-- The layout and input station of a TILE frame, and its part of how many. -/
def tileTo (f : Frame) : Nat × Nat := (f.tf 2 2 0, f.tf 2 12 3)

/-- What becomes of the first held frame of a rank for a station: discarded, accepted with the parts that make its tile, or
still waiting. A tile whose FORMAT is not the station's enters as zeros and overflows (R158). -/
def State.takeTile (s : State) (ctx rank : Nat) (f : Frame) (same : List Frame) : Option State :=
  let (lnum, stn) := tileTo f
  let gone (t : State) (fs : List Frame) : State :=
    fs.foldl (fun u g => (u.oweCredits g).modJob ctx (fun x => { x with tilesIn := x.tilesIn.erase (rank, g) })) t
  let stale : State := (gone s [f]).modCtx ctx (fun c => { c with stale := c.stale + b2n (f.tf 3 7 0 = 0) })
  match s.layoutOf ctx lnum with
  | none => some stale
  | some l =>
    match l.img.stations[stn]? with
    | none => some stale
    | some st =>
      let n := f.tf 3 15 8
      if st.out ∨ f.tf 1 15 0 ≠ l.published ∨ f.tf 3 7 0 ≠ 0 ∨ n = 0 then some stale
      else if same.length < n ∨ s.stationBusy ctx lnum stn ∨
          st.bufTiles ≤ ((tget [] l.buffers stn).filter (fun t => t.kind < 2)).length then none
      else
        let good := decide (f.tf 0 3 0 = st.fmt)
        let t : Tile := { fmt := st.fmt, rowsM1 := f.tf 0 8 4, colsM1 := f.tf 0 13 9, kind := f.tf 0 15 14, tag := 1,
                          data := if good then (same.take n).flatMap (fun g => g.payload) else [] }
        let s1 := gone s (same.take n)
        let s2 := if good then s1 else s1.overflow ctx ⟨lnum, stn, 0xFFFF, 4, f.tf 1 31 16⟩
        some (s2.modLayout ctx lnum (fun y => { y with buffers := tmod [] y.buffers stn (fun b => b ++ [t]) }))

/-- Held TILE frames of a context are taken as far as they can be. -/
def State.pumpTiles (ctx : Nat) : Nat → State → State
  | 0, s => s
  | n + 1, s =>
    match s.jobOf ctx with
    | none => s
    | some j =>
      match j.tilesIn.zipIdx.findSome? (fun p =>
        let key := (p.1.1, tileTo p.1.2)
        if (j.tilesIn.take p.2).any (fun x => (x.1, tileTo x.2) = key) then none
        else s.takeTile ctx p.1.1 p.1.2 ((j.tilesIn.filter (fun x => (x.1, tileTo x.2) = key)).map (fun x => x.2))) with
      | some t => State.pumpTiles ctx n t
      | none => s

/-- The same, for every frame a context holds. -/
def State.takeTiles (s : State) (ctx : Nat) : State :=
  match s.jobOf ctx with
  | some j => State.pumpTiles ctx j.tilesIn.length s
  | none => s

/-- TILE: a frame for a mapped input station; it waits in the ingress buffer until it is discarded or its tile accepted. -/
def execTile (port : Nat) (frame : Frame) (ok : Bool) (s : State) : Out :=
  s.onFrame port frame ok 0x10 (fun t =>
    match t.senderOf frame with
    | none => t.oweCredits frame
    | some (ctx, rank) => (t.modJob ctx (fun x => { x with tilesIn := x.tilesIn ++ [(rank, frame)] })).takeTiles ctx)

/-! ### Fabric memory requests (R395 to R397) -/

/-- What a fabric address names on this device. -/
inductive FabricPlace where
  | window (frame off : Nat)      -- space 1, a frame of the lend window
  | near (fid off : Nat)          -- space 0, a near frame
  | cluster (cl off : Nat)        -- space 2
  | nothing                        -- nothing that can be granted or owned
  | malformed                      -- bits outside the listed fields, or space 3
  deriving DecidableEq, Repr

/-- The window frame at a byte of a bulk channel, and the byte within it (R396). -/
def State.windowAt (s : State) (chan byte : Nat) : Option (Nat × Nat) :=
  let chans := onesOf 16 s.tiers.lendMask
  match chans.findIdx? (fun c => c = chan) with
  | none => none
  | some i =>
    let cap := tget 0 s.tiers.bulkBytes chan
    let base := cap - s.tiers.lendW / chans.length * blockBytes
    if base ≤ byte ∧ byte < cap ∧ s.tiers.lendW ≠ 0 then some ((byte - base) / blockBytes * chans.length + i, (byte - base) % blockBytes)
    else none

def State.fabricPlace (s : State) (addr : Nat) : FabricPlace :=
  let off := addr % 2 ^ 48
  match addr / 2 ^ 48 % 4 with
  | 0 =>
    if 2 ^ 39 ≤ off then .malformed
    else
      let b := off % 2 ^ 37
      if b < 2 ^ 31 then .nothing else .near (off / 2 ^ 37 * 2 ^ 24 + (b - 2 ^ 31) / blockBytes) ((b - 2 ^ 31) % blockBytes)
  | 1 =>
    if 2 ^ 43 ≤ off then .malformed
    else
      let b := off % 2 ^ 39
      match s.windowAt (off / 2 ^ 39) b with
      | some (w, o) => .window w o
      | none => .nothing
  | 2 => if 2 ^ 32 ≤ off then .malformed else if off / 2 ^ 24 < 192 then .cluster (off / 2 ^ 24) (off % 2 ^ 24) else .nothing
  | _ => .malformed

/-- A window frame lies in a record of a chip and partition, one being recalled included: it is served until order 5 of Table 8.5. -/
def State.granted (s : State) (chip part w : Nat) : Bool :=
  s.tiers.lends.any (fun l => l.chip = chip && l.part = part && decide (l.first ≤ w) && decide (w < l.first + l.count))

/-- The partitions whose open job carries a JOB_ID and has a chip as member. -/
def State.jobParts (s : State) (id chip : Nat) : List Nat :=
  s.ctxs.filterMap (fun p => match p.2.job with
    | some j => if j.isOpen ∧ j.jobId.toNat = id ∧ j.members.contains chip then some p.2.part else none
    | none => none)

/-- Where the declaration of a layout lies in a cluster's memory is the device's choice (log entry 25). The bytes of a fabric
address of a cluster: a layout's declaration and the byte within it, or the undeclared rest. -/
def State.cmemKey (s : State) (cl off : Nat) : Option Nat :=
  match s.allLayouts.findSome? (fun x =>
      let b := Config.declPlace ((x.1 * 8 + x.2.1) * 192 + cl)
      if b ≤ off ∧ off < b + x.2.2.cmemBytes x.2.2.img cl then some (x.1, x.2.1, x.2.2, off - b) else none) with
  | some (c, k, l, o) => if o < l.bufBytes l.img cl 1024 then none else some (cmemBase c k cl + o)
  | none => some (cmemBase 256 0 cl + off)

/-- The places that n bytes from a fabric address lie in, with the bytes in each: one, or two where a frame of memory ends between. -/
def State.fabricPlaces (s : State) (addr n : Nat) : List (FabricPlace × Nat) :=
  let p := s.fabricPlace addr
  let room := match p with
    | .window _ o => blockBytes - o
    | .near _ o => blockBytes - o
    | .cluster _ o => 2 ^ 24 - o
    | _ => n
  if n ≤ room then [(p, n)] else [(p, room), (s.fabricPlace (addr + room), n - room)]

/-- Why one place is refused to a request; none where it is served. -/
def State.placeRefusal (s : State) (f : Frame) (ps : List Nat) (p : FabricPlace) : Option Nat :=
  let no (b : Bool) : Option Nat := if b then none else some 0
  match p with
  | .malformed => some 2
  | .nothing => some 0
  | .window w _ => no (s.granted f.src (f.tf 2 21 16) w)
  | .near fid _ => no (match s.namedBy fid with
      | some (_, e) => e.tier = 0 && ps.contains e.part
      | none => false)
  | .cluster cl _ => no (ps.contains (s.clusterOwner cl))

/-- Why a request is refused; none where it is served. -/
def State.memRefusal (s : State) (f : Frame) : Option Nat :=
  let n := f.tf 3 8 0
  match (s.fabricPlaces f.addr n).findSome? (fun p => s.placeRefusal f (s.jobParts (f.t 4) f.src) p.1) with
  | some r => some r
  | none => if 1 ≤ n ∧ n ≤ 256 then none else some 0

/-- The bytes a read finds in a place; those of station buffers in cluster memory have no stated arrangement and are free values. -/
def State.placeRead (s : State) (p : FabricPlace) (n : Nat) : List Byte × State :=
  match p with
  | .window w off => (cellRead s.tiers.mem (windowFid w * blockBytes + off) n, s)
  | .near fid off => (cellRead s.tiers.mem (fid * blockBytes + off) n, s)
  | .cluster cl off => ((List.range n).map (fun i => match s.cmemKey cl (off + i) with
      | some k => cellGet s.cmem k
      | none => BitVec.ofNat 8 (Config.freeValue (s.free + i))), s.freeNext n)
  | _ => ([], s)

/-- The bytes a read finds. -/
def State.fabricRead (s : State) (ps : List (FabricPlace × Nat)) : List Byte × State :=
  ps.foldl (fun (a : List Byte × State) p => let (bs, t) := a.2.placeRead p.1 p.2; (a.1 ++ bs, t)) ([], s)

/-- A write into one of the places; bytes of station buffers are not written (log entry 25). -/
def State.placeWrite (s : State) (p : FabricPlace) (bs : List Byte) : State :=
  match p with
  | .window w off => { s with tiers := { s.tiers with mem := cellWrite s.tiers.mem (windowFid w * blockBytes + off) bs } }
  | .near fid off => { s with tiers := { s.tiers with mem := cellWrite s.tiers.mem (fid * blockBytes + off) bs } }
  | .cluster cl off => bs.zipIdx.foldl (fun t b => match t.cmemKey cl (off + b.2) with
      | some k => { t with cmem := cellWrite t.cmem k [b.1] }
      | none => t) s
  | _ => s

/-- A write. -/
def State.fabricWrite (s : State) (ps : List (FabricPlace × Nat)) (bs : List Byte) : State :=
  (ps.foldl (fun (a : State × List Byte) p => (a.1.placeWrite p.1 (a.2.take p.2), a.2.drop p.2)) (s, bs)).1

/-- The island and classes of a place, and the detail of its record. -/
def State.placeIsland (s : State) (p : FabricPlace) : Nat × Nat × Nat :=
  match p with
  | .window w _ =>
    let chans := onesOf 16 s.tiers.lendMask
    (islBulk (chans.getD (w % max 1 chans.length) 0), 2, w)
  | .near fid _ => (islNear (fid / 2 ^ 24), 1, fid % 2 ^ 24)
  | .cluster cl _ => (cl, 0, cl)
  | _ => (islMgmt, 0, 0)

/-- An answer to a request. -/
def State.memAnswer (s : State) (f : Frame) (ty : Nat) (more : List Word) (payload : List Byte) : State :=
  s.sendAnswer (s.frame ty f.src ([0, 0, w32 (f.tf 2 15 0)] ++ more) payload)

/-- An uncorrectable error at a place: its frame is retired and the entry that names it becomes INVALID (R285); in cluster memory one that
recurs fences the cluster (R27). -/
def State.placeLost (s : State) (p : FabricPlace) : State :=
  let (isl, cls, d) := s.placeIsland p
  match p with
  | .window w _ => (s.setFrame (windowFid w) .retired).report isl (cls + 4) 0 none d
  | .near fid _ => s.retireFrame fid
  | .cluster cl _ => (s.report isl (cls + 4) 0 none d).cmemFault cl
  | _ => s

/-- MEM_READ: served, or refused with its reason. `err` is how the read of the memory ends. -/
def execMemRead (port : Nat) (frame : Frame) (ok : Bool) (err : ReadErr) (s : State) : Out :=
  s.onFrame port frame ok 0x20 (fun t =>
    match t.memRefusal frame with
    | some r => t.memAnswer frame 0x24 [w32 r] []
    | none =>
      let p := t.fabricPlace frame.addr
      let (isl, cls, d) := t.placeIsland p
      match err with
      | .uncorrectable => (t.placeLost p).memAnswer frame 0x24 [1] []
      | e =>
        let (bs, t1) := t.fabricRead (t.fabricPlaces frame.addr (frame.tf 3 8 0))
        let t2 := if e = .corrected then t1.correctable isl cls d else t1
        t2.memAnswer frame 0x22 [] (padTo (roundUp bs.length 4) bs))

/-- MEM_WRITE. -/
def execMemWrite (port : Nat) (frame : Frame) (ok : Bool) (s : State) : Out :=
  s.onFrame port frame ok 0x21 (fun t =>
    match t.memRefusal frame with
    | some r => t.memAnswer frame 0x24 [w32 r] []
    | none =>
      if frame.payload.length < frame.tf 3 8 0 then t.memAnswer frame 0x24 [0] []
      else (t.fabricWrite (t.fabricPlaces frame.addr (frame.tf 3 8 0)) (frame.payload.take (frame.tf 3 8 0))).memAnswer frame 0x23 [] [])

/-! ### Answers to this device's requests (R279, R285, R401, R402) -/

/-- The outstanding read a frame answers. -/
def State.reqOf (s : State) (f : Frame) : Option PeerReq :=
  s.fab.reqs.find? (fun r => !r.lend && r.id = f.tf 2 15 0 && r.chip = f.src)
def State.dropReq (s : State) (r : PeerReq) : State := { s with fab := { s.fab with reqs := s.fab.reqs.erase r } }

/-- The entry of a request still names the frame it reads. -/
def State.reqLive (s : State) (r : PeerReq) : Bool :=
  let e := s.bmOf r.entry
  (e.state = 1 || e.state = 2) && e.tier = 2 && e.chip = r.chip && e.loc = r.frame

/-- MEM_DATA: the chunk it asked for is here. -/
def execMemData (port : Nat) (frame : Frame) (ok : Bool) (s : State) : Out :=
  s.onFrame port frame ok 0x22 (fun t => match t.reqOf frame with
    | none => t
    | some r =>
      let t1 := t.dropReq r
      if t1.reqLive r then
        { t1 with tiers := { t1.tiers with
            peerBuf := cellWrite t1.tiers.peerBuf (r.entry * blockBytes + 256 * r.chunk) (padTo 256 frame.payload),
            peerGot := t1.tiers.peerGot ++ [(r.entry, r.chunk)] } }
      else t1)

/-- MEM_DONE answers a write; the device's own requests are reads. -/
def execMemDone (port : Nat) (frame : Frame) (ok : Bool) (s : State) : Out :=
  s.onFrame port frame ok 0x23 (fun t => match t.reqOf frame with
    | some r => t.dropReq r
    | none => t)

/-- MEM_REFUSED: the block is lost to this device. A refusal makes its entry INVALID with RECALLED 1, and an uncorrectable error
is this device's own bulk error (R285): the commands that use the block are torn down with their context, but for a copy home. -/
def execMemRefused (port : Nat) (frame : Frame) (ok : Bool) (s : State) : Out :=
  s.onFrame port frame ok 0x24 (fun t => match t.reqOf frame with
    | none => t
    | some r =>
      let t1 := t.dropReq r
      if !t1.reqLive r then t1
      else
        let e := t1.bmOf r.entry
        let unc := frame.tf 3 1 0 = 1
        let home := (t1.migOf r.entry).isSome
        let t2 := (t1.invalidate r.entry (!unc) unc).resumeBlock e.ctx e.block
        if unc ∧ !home then
          let a := e.block * blockBytes + 256 * r.chunk
          t2.teardown r.ctx ⟨St.bulkUncorrectable, a % 2 ^ 32, a / 2 ^ 32⟩ hitRunning
        else t2)

/-- A request is sent again on a candidate; with none left the context that asked loses its peer. -/
def State.resend (s : State) (r : PeerReq) (k : Nat) : State :=
  let f := s.reqFrame r
  match s.pickCand f k with
  | some p =>
    { s with fab := { s.fab with reqs := s.fab.reqs.map (fun x => if x = r then { x with port := p, tries := x.tries + k } else x) } }.sendOn p f
  | none => (s.dropReq r).teardown r.ctx ⟨St.peerLost, r.chip, 0⟩ hitRunning

/-- UNREACHABLE: the port it came on is DEAD for the chip; requests sent there go out again, or the chip is lost. -/
def execUnreachable (port : Nat) (frame : Frame) (ok : Bool) (s : State) : Out :=
  s.onFrame port frame ok 0x25 (fun t =>
    let x := frame.tf 0 13 0
    let dead := (t.routeList x).filter (fun p => p.2 = port)
    let mark (e : Nat) : Nat := dead.foldl (fun a p => setBits a (23 + p.1) (23 + p.1) 1) e
    let t1 : State := { t with fab := { t.fab with routes := tmod 0 t.fab.routes x mark } }
    let mine := t1.fab.reqs.filter (fun r => r.chip = x && r.port = port)
    (mine.foldl (fun u r => if u.fab.reqs.contains r then u.resend r 0 else u) (t1.afterRoutes t)))

/-- PEER_REQUEST_TIMEOUT: 100 us without an answer. -/
def execPeerRequestTimeout (request : Nat) (s : State) : Out :=
  match s.fab.reqs.find? (fun r => r.id = request) with
  | none => .next s
  | some r =>
    .next (if r.tries = 1 then s.resend r 1 else (s.dropReq r).teardown r.ctx ⟨St.peerLost, r.chip, 0⟩ hitRunning)

/-! ### Lending (R278 to R281; the payloads are log entry 12) -/

/-- A row of one CONTROL subtype; a reserved subtype has no row and ends with the lend request's, discarded by the link layer. -/
def State.onControl (s : State) (port : Nat) (f : Frame) (ok : Bool) (sub : Nat) (g : State → Nat → Nat → Nat → State) : Out :=
  let ws := Frame.words f
  if f.tf 0 7 0 = sub then s.onFrame port f ok 0x38 (fun t => g t (wnat ws 0 % 64) (wnat ws 1) (wnat ws 2))
  else if sub = 1 ∧ (f.tf 0 7 0 = 0 ∨ 5 < f.tf 0 7 0) then s.onFrame port f ok 0x38 (fun t => t)
  else .next s

/-- Window frames of a recall that is at work. -/
def State.recalled (s : State) (w : Nat) : Bool := s.tiers.recalls.any (fun r => decide (r.1 ≤ w) && decide (w < r.1 + r.2))

/-- A window frame can be granted: in no record, scrubbed, not retired and in no recall. -/
def State.lendable (s : State) (w : Nat) : Bool :=
  !s.tiers.lends.any (fun l => decide (l.first ≤ w) && decide (w < l.first + l.count)) && !s.tiers.lendScrub.contains w &&
  s.frameOf (windowFid w) ≠ .retired && !s.recalled w

/-- LEND_REQUEST: the lowest contiguous range of free frames with a free record, or a refusal. -/
def execLendRequest (port : Nat) (frame : Frame) (ok : Bool) (s : State) : Out :=
  s.onControl port frame ok 0x01 (fun t part _ count =>
    let run (a : Nat) : Bool := (List.range count).all (fun i => t.lendable (a + i))
    let place := if count = 0 ∨ t.tiers.lendW < count then none else firstBelow (t.tiers.lendW - count + 1) run
    match place with
    | some (a : Nat) =>
      if t.tiers.lends.length < 4096 then
        { t with tiers := { t.tiers with lends := t.tiers.lends ++ [Lend.mk frame.src part a count false] } }.sendAnswer
          (t.control frame.src 0x02 part a count)
      else t.sendAnswer (t.control frame.src 0x03 part 0 count)
    | none => t.sendAnswer (t.control frame.src 0x03 part 0 count))

/-- The PEER_MAP that waits for an answer of a chip. -/
def State.peerMapOf (s : State) (part chip count : Nat) : Option (Nat × Nat × Cmd) :=
  s.allCmds.find? (fun x => x.2.2.isRunning && (s.ctxOf x.2.2.ctx).part = part && (match x.2.2.work with
    | .peer c _ k granted => c = chip && k = count && !granted
    | _ => false))

/-- The request of a PEER_MAP has been answered. -/
def State.lendAnswered (s : State) (ctx chip count : Nat) : State :=
  match s.fab.reqs.find? (fun r => r.lend && r.ctx = ctx && r.chip = chip && r.count = count) with
  | some r => s.dropReq r
  | none => s

/-- LEND_GRANT: the waiting PEER_MAP takes its frames; a grant nothing waits for goes back. -/
def execLendGrant (port : Nat) (frame : Frame) (ok : Bool) (s : State) : Out :=
  s.onControl port frame ok 0x02 (fun t part first count =>
    match t.peerMapOf part frame.src count with
    | some (f, q, c) =>
      let maps : Tbl NewMap := (rangeBlocks (bwFirst c.eff) count).zipIdx.map (fun p =>
        (p.1, { frame := first + p.2, tier := 2, chip := frame.src }))
      (((t.lendAnswered c.ctx frame.src count).modCmd f q c.n (fun x => { x with maps := maps })).setWork f q c.n
        (.peer frame.src first count true)).done f q c.n count 0
    | none => (List.range count).foldl (fun u i => u.lendReturn part frame.src (first + i)) t)

/-- LEND_REFUSAL. -/
def execLendRefusal (port : Nat) (frame : Frame) (ok : Bool) (s : State) : Out :=
  s.onControl port frame ok 0x03 (fun t part _ count =>
    match t.peerMapOf part frame.src count with
    | some (f, q, c) => (t.lendAnswered c.ctx frame.src count).endCmd f q c.n ⟨St.remoteRefused, frame.src, 0⟩
    | none => t)

/-- RECALL_NOTICE: every RESIDENT entry of the chip in the range becomes MIGRATING and is to be copied home; one in a commit's preparation
waits for its step (R267). -/
def execRecallNotice (port : Nat) (frame : Frame) (ok : Bool) (s : State) : Out :=
  s.onControl port frame ok 0x04 (fun t _ first count =>
    let hits := t.tiers.bm.filter (fun p => p.2.state = 1 && p.2.tier = 2 && p.2.chip = frame.src && decide (first ≤ p.2.loc) &&
      decide (p.2.loc < first + count) && !t.preparing p.1)
    let t1 := hits.foldl (fun u p => u.recallEntry p.1) t
    { t1 with tiers := { t1.tiers with borrowRecalls := t1.tiers.borrowRecalls ++ [(frame.src, first, count)] } })

/-- A record without one of its frames: what lies before it and what lies after. -/
def Lend.without (l : Lend) (w : Nat) : List Lend :=
  [{ l with count := w - l.first }, { l with first := w + 1, count := l.first + l.count - (w + 1) }].filter (fun x => x.count ≠ 0)

/-- LEND_FRAME_RELEASE: frames come back to the lender and are scrubbed before they are granted again. -/
def execLendFrameRelease (port : Nat) (frame : Frame) (ok : Bool) (s : State) : Out :=
  s.onControl port frame ok 0x05 (fun t part first count =>
    (List.range count).foldl (fun u i =>
      let w := first + i
      match u.tiers.lends.find? (fun l => l.chip = frame.src && l.part = part && decide (l.first ≤ w) && decide (w < l.first + l.count)) with
      | none => u
      | some l =>
        let u1 := { u with tiers := { u.tiers with
          lends := u.tiers.lends.flatMap (fun x => if x = l then l.without w else [x]),
          lendScrub := u.tiers.lendScrub ++ [w] } }
        u1.mapCmds (fun _ _ c => c.isRunning) (fun c => match c.work with
          | .recall a k r rf past => if a ≤ w ∧ w < a + k ∧ !past then { c with work := .recall a k (r + 1) rf past } else c
          | _ => c)) t)

/-! ### Routing (R399) -/

/-- The entry at ROUTE_INDEX is replaced whole, its DEAD bits clear. -/
def State.writeRoute (s : State) (value : Word) : State :=
  { s with fab := { s.fab with routes := tset 0 s.fab.routes s.fab.routeIndex (value.toNat % 2 ^ 23) } }.afterRoutes s

/-- ROUTE_DATA_WRITE. -/
def execRouteDataWrite (value : Word) (s : State) : Out := onlyIf s.hostLive s (s.writeRoute value)

end Sys2Proof.Machine
end

