-- ==== Sys2Proof/Machine/Partitions.lean ====
section
/-! DEFINITION. The partition plan (R419 to R421), partition resets and device warm resets (R422, R431 to R434) and the functions that
SR-IOV gives and takes (R423). -/
namespace Sys2Proof.Machine

/-! ### The plan (R419, R420). A fault is given by the byte that holds the lowest bit of its field; a fault between two records is
blamed on the later one (log entry 28). -/

/-- Two ranges, given by base and count, share an entry; an empty range shares none. -/
def recordsMeet (b n c m : Nat) : Bool := decide (0 < n) && decide (0 < m) && decide (b < c + m) && decide (c < b + n)

/-- The byte of a record. -/
def recAt (p : Nat) : Nat := 64 + 64 * p
def planOn (ws : List Word) (p : Nat) : Bool := imf ws (recAt p + 24) 0 0 = 1
def planClusters (ws : List Word) (p : Nat) : Nat := sumNat ((List.range 6).map (fun i => wnat ws (recAt p / 4 + i) * 2 ^ (32 * i)))

/-- A range field of a record against the range's end and the earlier enabled records. -/
def rangeBad (ws : List Word) (p size : Nat) (base count : Nat → Nat) : Bool :=
  decide (size < base p + count p) ||
  (List.range p).any (fun e => planOn ws e && recordsMeet (base e) (count e) (base p) (count p))

/-- The fields of a record that must be 0 where ENABLE is 0: byte, word of the record, highest and lowest bit. -/
def recordFields : List (Nat × Nat × Nat × Nat) :=
  [(24, 6, 1, 1), (24, 6, 7, 2), (25, 6, 15, 8), (26, 6, 24, 16), (27, 6, 31, 25), (28, 7, 11, 0), (29, 7, 24, 12), (31, 7, 31, 25),
   (32, 8, 25, 0), (35, 8, 30, 26), (35, 8, 31, 31), (36, 9, 23, 0), (39, 9, 28, 24), (39, 9, 31, 29), (40, 10, 31, 0), (44, 11, 31, 0),
   (48, 12, 31, 0), (52, 13, 31, 0), (56, 14, 7, 0), (57, 14, 15, 8), (58, 14, 23, 16), (59, 14, 29, 24), (59, 14, 31, 30),
   (60, 15, 13, 0), (61, 15, 15, 14), (62, 15, 31, 16)]

def recordErrs (ws : List Word) (p : Nat) : List Nat :=
  let o := recAt p
  let w (q i hi lo : Nat) : Nat := imf ws (recAt q + 4 * i) hi lo
  if !planOn ws p then
    bad (planClusters ws p ≠ 0) o ++ bad (p = 0) (o + 24) ++
    recordFields.flatMap (fun (b, i, hi, lo) => bad (w p i hi lo ≠ 0) (o + b))
  else
    bad ((List.range p).any (fun e => decide (planClusters ws e &&& planClusters ws p ≠ 0))) o ++
    bad (w p 6 7 2 ≠ 0) (o + 24) ++
    bad (rangeBad ws p 256 (fun q => w q 6 15 8) (fun q => w q 6 24 16)) (o + 25) ++
    bad (256 < w p 6 24 16) (o + 26) ++ bad (w p 6 31 25 ≠ 0) (o + 27) ++
    bad (rangeBad ws p 4096 (fun q => w q 7 11 0) (fun q => w q 7 24 12)) (o + 28) ++
    bad (4096 < w p 7 24 12) (o + 29) ++ bad (w p 7 31 25 ≠ 0) (o + 31) ++
    bad (w p 8 25 0 % 2 ^ w p 8 30 26 ≠ 0 || rangeBad ws p (2 ^ 26) (fun q => w q 8 25 0) (fun q => 2 ^ w q 8 30 26)) (o + 32) ++
    bad (w p 8 30 26 < 3 ∨ 26 < w p 8 30 26 ∨ w p 8 31 31 ≠ 0) (o + 35) ++
    bad (w p 9 23 0 % 2 ^ w p 9 28 24 ≠ 0 || rangeBad ws p (2 ^ 24) (fun q => w q 9 23 0) (fun q => 2 ^ w q 9 28 24)) (o + 36) ++
    bad (w p 9 28 24 < 4 ∨ 24 < w p 9 28 24 ∨ w p 9 31 29 ≠ 0) (o + 39) ++
    bad (w p 14 7 0 = 0) (o + 56) ++ bad (w p 14 15 8 = 0) (o + 57) ++ bad (w p 14 23 16 = 0) (o + 58) ++ bad (w p 14 31 30 ≠ 0) (o + 59) ++
    bad (8192 < w p 15 13 0 ∨ 8192 < sumNat (((List.range (p + 1)).filter (planOn ws)).map (fun q => w q 15 13 0))) (o + 60) ++
    bad (w p 15 15 14 ≠ 0) (o + 61)

/-- The first offending field of a plan in plan order; none where it is valid. -/
def planFault (ws : List Word) : Option Nat :=
  let errs := bad (imf ws 0 15 0 ≠ 0x504E) 0 ++ bad (imf ws 0 23 16 ≠ 1) 2 ++ bad (imf ws 0 31 24 ≠ 0) 3 ++
    (List.range 14).flatMap (fun i => bad (wnat ws (2 + i) ≠ 0) (8 + 4 * i)) ++ (List.range 64).flatMap (recordErrs ws)
  match errs with
  | [] => none
  | e :: r => some (r.foldl min e)

/-- PLAN_SUBMIT: `plan` is what the host's memory held. It is accepted at commit. -/
def execPlanSubmit (f q n : Nat) (plan : List Word) (s : State) : Out :=
  s.work f q n 0x03 (fun c =>
    let ws := c.eff
    s.checked f q n c (reservedCheck ws [(2, 0xFFFFFFFF), (3, 0xFFFFFFFF), (4, 1)] ++ [param (wnat ws 2 % 64 = 0) 2])
      (if plan.length ≠ 1040 then s
       else
        match planFault plan with
        | some o => s.finish f q n ⟨St.invalidParameter, 2, o⟩
        | none => (s.setWork f q n (.plan plan)).done f q n (wnat plan 1) 0))

/-! ### Partition reset (R431 to R434, Table 14.8) -/

/-- A LEND_RECALL that its queue loses leaves its recall at work (R434). -/
def Cmd.leaveRecall (c : Cmd) : Cmd :=
  match c.work with
  | .recall _ _ _ _ _ => { c with work := .none }
  | _ => c

/-- Order 1: no message of the function is sent, held messages are dropped, causes are cleared; every command of its queues ends without
a completion record and the queues are RESETTING. -/
def State.resetQueues (s : State) (p : Nat) : State :=
  let cs := s.allCmds.filter (fun x => x.1 = p)
  let s0 := s.mapCmds (fun f _ _ => decide (f = p)) Cmd.leaveRecall
  let s1 := cs.foldl (fun t x => t.release p x.2.1 x.2.2.n) s0
  s1.modFn p (fun g => { g with
    intCause := 0, intHeld := 0,
    vecs := tmap {} g.vecs (fun _ v => { v with held := false, pending := false }),
    queues := tmap {} g.queues (fun _ x => { x with window := [], eligible := 0,
                                                    state := if x.state = .disabled then .disabled else .resetting }) })

/-- The cores, SRAM and descriptor slots of the clusters that meet a condition are zeroed and their hands cleared. -/
def State.scrubClusters (s : State) (own : Nat → Bool) : State :=
  { s with
    cores := tmap {} s.cores (fun c k => if own (clusterOf c) then
        { fenced := k.fenced, correctable := k.correctable, unrouted := k.unrouted, snapLatched := k.snapLatched, snapIn := k.snapIn }
      else k),
    sram := s.sram.filter (fun c => !own (clusterOf (c.1 / 2 ^ 18))),
    slots := s.slots.filter (fun e => !own (e.1 / 64)) }

/-- The Block Map range of a partition is written as free: frames its entries named go to the scrub queue, borrowed frames back to
their lenders, and its region cache entries are removed. -/
def State.freeBlockMap (s : State) (p : Nat) : State :=
  let mine (i : Nat) : Bool := decide (s.bmBase p ≤ i) && decide (i < s.bmBase p + 2 ^ s.bmLog2 p)
  let s1 := (s.tiers.changes.filter (fun c => mine c.entry)).foldl (fun t c =>
    let t1 := match c.fid with
      | some fid => if t.frameOf fid = .draining then t.setFrame fid .queued else t
      | none => t
    match c.peer with
    | some (chip, fr) => t1.lendReturn p chip fr
    | none => t1) s
  { s1 with tiers := { s1.tiers with
      bm := s1.tiers.bm.filter (fun e => !mine e.1),
      migrations := s1.tiers.migrations.filter (fun e => !mine e.1),
      changes := s1.tiers.changes.filter (fun c => !mine c.entry),
      caches := s1.tiers.caches.filter (fun c => c.2.2.part ≠ p) } }

/-- Orders 1 to 4 of a partition reset; absorbed by one in progress, or by a device warm reset (R14, R434). -/
def State.beginPartReset (s : State) (p : Nat) : State :=
  if (s.partOf p).resetting || s.parts.warm then s
  else
    let s1 := (s.resetQueues p).modPart p (fun x => { x with resetting := true, shares := false, prep := none })
    let ctxs := (tkeys s1.ctxs).filter (fun c => s.ownsCtx p c)
    let s2 := ctxs.foldl (fun t c => t.teardownBy c St.contextGone (fun _ _ _ => ⟨St.contextGone, 0, 0⟩)) s1
    let s3 := (s2.scrubClusters (fun cl => s.clusterOwner cl = p)).freeBlockMap p
    { s3 with
      cmem := s3.cmem.filter (fun c => decide (s.clusterOwner (c.1 / 2 ^ 24 % 192) ≠ p)),
      sess := s3.sess.filter (fun e => decide (e.1 < s.sessBase p) || decide (s.sessBase p + s.sessCount p ≤ e.1)),
      kv := { s3.kv with
        dir := s3.kv.dir.filter (fun e => decide (e.1 < s.pdBase p) || decide (s.pdBase p + 2 ^ s.pdLog2 p ≤ e.1)) } }.reapPark

/-- Configuration requests complete normally again once order 10 has been reached, PERST_N is high and no partition reset is left
(R506). -/
def State.retryCheck (s : State) : State :=
  if (s.mgmt.boot = .up ∨ s.mgmt.boot = .tripped) ∧ !s.power.perst ∧ s.parts.recs.all (fun p => !p.2.resetting) then
    { s with power := { s.power with retryStatus := false } }
  else s

/-- Order 5: the registers of function p take their reset values except INT_CAUSE; MSI-X enable and mask stand in configuration space.
The manual resets no cause here. -/
def State.resetFn (s : State) (p : Nat) : State :=
  s.modFn p (fun g => { intCause := g.intCause, msixEnable := g.msixEnable, msixMask := g.msixMask })

/-- The boot has reached order 10, so partitions are in use. -/
def State.booted (s : State) : Bool := s.mgmt.boot = .up || s.mgmt.boot = .tripped

/-- PARTITION_RESET_DONE: order 5. A reset inside a warm reset, or of an orderly stop, ends with those. -/
def execPartitionResetDone (p : Nat) (s : State) : Out :=
  onlyIf ((s.partOf p).resetting && !s.parts.warm && s.booted) s
    ((((s.resetFn p).modPart p (fun x => { x with resetting := false, shares := true, commitSeq := 1 })).cause p 0).retryCheck)

/-- PART_RESET: DEV_CTRL written with bit 1 and without bit 0. -/
def execPartReset (value : Word) (s : State) : Out :=
  onlyIf (s.hostLive && bit value 1 && !bit value 0) s (s.beginPartReset (fld value 13 8))

/-- MSI-X enable and mask of a function's configuration space take their reset values. -/
def State.resetMsix (s : State) (f : Nat) : State := s.modFn f (fun g => { g with msixEnable := false, msixMask := false })

/-- The functions above `keep` go: each of their partitions is reset (R423). -/
def State.dropVfs (s : State) (keep : Nat) : State :=
  let gone := if s.parts.vfEnable then (List.range 64).filter (fun f => decide (keep < f) && decide (f ≤ s.parts.numVfs)) else []
  let s1 := gone.foldl (fun t f => (t.resetMsix f).beginPartReset f) s
  { s1 with parts := { s1.parts with numVfs := keep, vfEnable := s1.parts.vfEnable && decide (keep ≠ 0) } }

/-- FUNCTION_LEVEL_RESET: of function 0 it also clears VF Enable, and BAR4 with its enable (log entry 29). -/
def execFunctionLevelReset (f : Nat) (s : State) : Out :=
  onlyIf (s.hostLive && s.fnExists f) s
    (if f = 0 then
      let s1 := ((s.dropVfs 0).resetMsix 0).beginPartReset 0
      { s1 with mgmt := { s1.mgmt with dbgEnable := false } }
     else (s.resetMsix f).beginPartReset f)

/-- VF_REMOVAL: NumVFs falls to `numVfs`; 0 clears VF Enable. -/
def execVfRemoval (numVfs : Nat) (s : State) : Out :=
  onlyIf (s.hostLive && s.parts.vfEnable && decide (numVfs < s.parts.numVfs)) s (s.dropVfs numVfs)

/-- VF_ENABLE: VF Enable is set or NumVFs rises; functions up to `numVfs` exist. -/
def execVfEnable (numVfs : Nat) (s : State) : Out :=
  onlyIf (s.hostLive && decide (1 ≤ numVfs) && decide (numVfs ≤ 63) && (!s.parts.vfEnable || decide (s.parts.numVfs < numVfs))) s
    { s with parts := { s.parts with numVfs := numVfs, vfEnable := true } }

/-! ### Device warm reset (R422, Table 14.5) -/

/-- All grants of this device end: their frames are queued for scrub (R281). -/
def State.endLends (s : State) : State :=
  { s with tiers := { s.tiers with
      lends := [], recalls := [], lendScrub := s.tiers.lendScrub ++ s.tiers.lends.flatMap (fun l => (List.range l.count).map (fun i => l.first + i)) } }

/-- The enabled partitions. -/
def State.enabledParts (s : State) : List Nat := (List.range 64).filter s.partEnabled

/-- Order 1: orders 1 to 4 of the partition reset for every enabled partition at once; PROT_LOCK is cleared (R12). -/
def State.beginWarm (s : State) : State :=
  if s.parts.warm || !s.booted then s
  else
    let s1 := (s.enabledParts.foldl (fun t p => t.beginPartReset p) s).endLends
    { s1 with parts := { s1.parts with warm := true, protLock := false } }

/-- WARM_RESET: DEV_CTRL written with bit 0. -/
def execWarmReset (value : Word) (s : State) : Out := onlyIf (s.hostLive && bit value 0) s s.beginWarm

/-- The Protection Set-up is written from a plan and locked (PROT_LOCK, which stays set until the next reset or restart; R12); commit
sequence numbers are 1. -/
def State.applyPlan (s : State) (plan : List Word) : State :=
  let recs := (List.range 64).foldl (fun (t : Tbl Part) p => tset {} t p { record := (plan.drop (16 + 16 * p)).take 16 }) []
  { s with parts := { s.parts with recs := recs, planId := word plan 1, protLock := true, warm := false } }

/-- The plan in force at a warm reset (R421). -/
def State.plan (s : State) : List Word := s.parts.accepted.getD s.mgmt.bootPlan

/-- CLEAR_STORE: the objects of the partitions that ask for it go, and a checkpoint says so (log entry 30). -/
def State.clearStore (s : State) : State :=
  let gone := s.store.objs.filter (fun o => o.2.any (fun x => x.present && s.partEnabled x.owner && decide (s.pfld x.owner 6 1 1 = 1)))
  if gone.isEmpty then s
  else
    { s with store := { s.store with
        objs := s.store.objs.filter (fun o => !gone.any (fun g => g.1 = o.1)),
        slots := (gone.flatMap (fun (g : Nat × Option Obj) => match g.2 with
          | some x => x.slots
          | none => [])).foldl (fun t k => tset 0 t k 2) s.store.slots } }.checkpoint

/-- The Fence Map from the image's fences, the persistent records in force and `more` cores and clusters that failed (R445); each
fence without a record gets one. Cause status 0: the manual names none for these (log entry 31). -/
def Mgmt.buildFences (m : Mgmt) (cores clusters : List Nat) : Mgmt :=
  let gen := m.imageGen
  let live := m.fenceRecs.filter (fun r => decide (gen ≤ r.gen))
  let cs := (m.imageCores ++ (live.filter (fun r => !r.cluster)).map (fun r => r.index) ++ cores).foldl insertAsc []
  let ls := (m.imageClusters ++ (live.filter (fun r => r.cluster)).map (fun r => r.index) ++ clusters).foldl insertAsc []
  let m1 := { m with fenceGen := gen, fencedCores := cs, fencedClusters := ls }
  let m2 := cs.foldl (fun t c => t.persist false c 0) m1
  ls.foldl (fun t c => t.persist true c 0) m2

/-- The cores follow the Fence Map. -/
def State.fenceCores (s : State) : State :=
  let cs := (s.mgmt.fencedCores ++ tkeys s.cores).eraseDups
  cs.foldl (fun t c => t.modCore c (fun k => { k with fenced := s.mgmt.fencedCores.contains c })) s

/-- The island of a cluster runs, with a restart record, unless it is fenced or its region is gated. -/
def State.startCluster (s : State) (cl : Nat) : State :=
  if s.clusterFenced cl || s.power.gated.contains (regionOfCluster cl) || (s.islOf cl).running then s
  else s.restartCluster cl

/-- RESET_DONE in every enabled partition, with WARM where a warm reset ends. -/
def State.resetDone (s : State) (warm : Bool) : State :=
  s.enabledParts.foldl (fun t p => (if warm then t.cause p 1 else t).cause p 0) s

/-- WARM_RESET_DONE: orders 2 to 5. The links follow the new owners, since ownership is read from the records. -/
def execWarmResetDone (s : State) : Out :=
  onlyIf s.parts.warm s
    (let s1 := ((tkeys s.cp.fns).foldl (fun t p => if (t.partOf p).resetting then t.resetFn p else t) s).applyPlan s.plan
     let s2 := s1.clearStore
     let s3 := ({ s2 with mgmt := s2.mgmt.buildFences [] [] }).fenceCores
     let s4 := s3.mgmt.fencedClusters.foldl (fun t cl => t.stopCluster cl) s3
     let s5 := if s.mgmt.boot = .up then (List.range 192).foldl (fun t cl => t.startCluster cl) s4 else s4
     (s5.resetDone true).retryCheck)

end Sys2Proof.Machine
end

