-- ==== Sys2Proof/Machine/Power.lean ====
section
/-! DEFINITION. Frequency and voltage (R469, R470), the governor and its caps (R471 to R476), the thermal trip (R477, R504), lowered
precision (R479), the heartbeat (R480) and the pins ALERT_N and FAULT_N (R451, R481). -/
namespace Sys2Proof.Machine

/-! ### Codes (R469, R470) -/

/-- A hand of some context is loaded in a cluster. -/
def State.handsIn (s : State) (cl : Nat) : Bool :=
  s.cores.any (fun p => clusterOf p.1 = cl && p.2.hands.any (fun h => h.2.isSome))
/-- The code a running cluster is to run at: the lowest of its die's ceiling, 80, and 32 where no hand is loaded in it. -/
def State.codeFor (s : State) (cl : Nat) : Nat :=
  min (min (s.dieOf (dieOfCluster cl)).ceiling 80) (if s.handsIn cl then 80 else 32)

/-- The clock of a cluster switches to a code: its frequency, its supply, its die's rail and a frequency change record (R48). -/
def State.switchCode (s : State) (cl k : Nat) : State := (s.setCode cl k).timeNote 0x02 cl

/-- FREQUENCY_CHANGE: a running cluster switches to the code it is to run at; a raise waits while the rail has not settled (R505). -/
def execFrequencyChange (cluster code : Nat) (s : State) : Out :=
  onlyIf (decide (cluster < 192) && (s.islOf cluster).running && decide (code = s.codeFor cluster) && decide (code ≠ s.codeOf cluster) &&
      (decide (code < s.codeOf cluster) || !(s.dieOf (dieOfCluster cluster)).raiseHeld)) s
    (s.switchCode cluster code)

/-! ### Limits (R471) -/

/-- A power limit clamped to 1,200 W to BOARD_MAX. -/
def Power.clamp (p : Power) (w : Nat) : Nat := max 1200 (min w p.boardMax)
/-- The effective limit: the lower of the policy limit and HOST_LIMIT. -/
def Power.limit (p : Power) : Nat := min (p.clamp p.policyLimit) (p.clamp p.hostLimit)
/-- BRAKE_CODE as used. -/
def Power.brakeAt (p : Power) : Nat := max 32 (min p.brakeCode 80)
/-- A die's ceiling as the governor sets it. -/
def Power.ceilingOf (p : Power) (x : Die) : Nat := min (min p.gov x.thermCap) (min x.iccCap (if p.brake then p.brakeAt else 80))

/-- The governor's records stand under the network island of die 0's first region, where it keeps time (log entry 33). -/
def State.powerReport (s : State) (cls : Nat) : State := s.report islCp cls 0 none 0

/-- The core rails are up and no trip has happened: the governor and its caps act. -/
def State.governed (s : State) : Bool := decide (s.power.groups = 4) && !s.power.tripped

/-! ### Thermal trip (R477, Table 16.3) -/

/-- The core rails go off: cluster islands stop and hold their counts, and what the cores held is lost. -/
def State.coresOff (s : State) : State :=
  let s1 := (List.range 192).foldl (fun t cl => t.modIsl cl (fun i => { i with running := false })) s
  let s2 := (List.range 4).foldl (fun t d => t.modDie d (fun x => { x with rail := 0 })) (s1.scrubClusters (fun _ => true))
  { s2 with power := { s2.power with supplies := [], groups := min s2.power.groups 3, running := false } }

/-- The package-wide trip: fetching and commits stop, every uncommitted command ends with THERMAL_TRIP and its context is torn down,
THERMTRIP_N falls, the core rails go off and one record of the class is written. -/
def State.trip (s : State) (cls : Nat) : State :=
  if s.power.tripped then s
  else
    let s1 := { s with
      cp := { s.cp with halted := true },
      power := { s.power with tripped := true, thermtripN := false },
      mgmt := { s.mgmt with boot := .tripped } }
    let v : Verdict := ⟨St.thermalTrip, 0, 0⟩
    let s2 := (tkeys s1.ctxs).foldl (fun t c => t.teardownBy c St.thermalTrip (fun _ _ _ => v)) s1
    let s3 := (s2.allCmds.filter (fun x => !x.2.2.pastCommit)).foldl (fun t x => t.endCmd x.1 x.2.1 x.2.2.n v) s2
    s3.coresOff.report islMgmt cls 0 none 0

/-! ### The governor (R472, R476) -/

/-- The hottest sensor of a die, in 1/16 degree. -/
def hottest (temps : List Int) (d : Nat) : Int :=
  match (temps.drop (24 * d)).take 24 with
  | [] => 0
  | t :: r => r.foldl max t

/-- The level a die goes to from a level at a temperature (Table 16.2). -/
def levelNext (level : Nat) (t : Int) : Nat :=
  if 110 * 16 ≤ t then 3
  else if 102 * 16 ≤ t ∨ (2 ≤ level ∧ 98 * 16 ≤ t) then 2
  else if 95 * 16 ≤ t ∨ (1 ≤ level ∧ 92 * 16 ≤ t) then 1
  else 0

/-- A die at a sample of its sensors. -/
def Die.sample (x : Die) (t : Int) : Die :=
  let l := levelNext x.level t
  { x with hotC := t / 16, level := l, thermCap := if l = 2 then 48 else x.thermCap, raiseHeld := false }

/-- The package code after a tick. -/
def Power.govern (p : Power) : Power :=
  if p.sinceChange < 100 then p
  else if p.limit < p.powerW then { p with gov := max (p.gov - 1) 32, sinceChange := 0 }
  else if p.powerW < p.limit - p.limit / 50 ∧ p.gov < 80 then { p with gov := p.gov + 1, sinceChange := 0 }
  else p

/-- Every die's ceiling from G and its caps. -/
def State.setCeilings (s : State) : State :=
  (List.range 4).foldl (fun t d => t.modDie d (fun x => { x with ceiling := t.power.ceilingOf x })) s

/-- GOVERNOR_TICK: `power` is P averaged over the last 100 us and `temps` the 96 sensors. -/
def execGovernorTick (power : Nat) (temps : List Int) (s : State) : Out :=
  onlyIf (s.governed && decide (temps.length = 96)) s
    (let p := { s.power with powerW := power, sinceChange := min 100 (s.power.sinceChange + 10) }
     let s1 := (List.range 4).foldl (fun t d =>
       let was := (t.dieOf d).level
       let t1 := t.modDie d (fun x => x.sample (hottest temps d))
       let now := (t1.dieOf d).level
       if now ≠ was ∧ now ≠ 3 then t1.powerReport 10 else t1) { s with power := p.govern }
     let s2 := s1.setCeilings
     if (List.range 4).any (fun d => (s2.dieOf d).level = 3) then s2.trip 10 else s2)

/-- The thermal cap after 1 ms at a level: one code lower at level 1, one higher at level 0. -/
def capStep (level cap : Nat) : Nat := if level = 1 then max (cap - 1) 32 else if level = 0 then min (cap + 1) 80 else cap

/-- THERMAL_CAP_STEP: 1 ms has passed; the cap falls at level 1 and rises at level 0. -/
def execThermalCapStep (die : Nat) (s : State) : Out :=
  onlyIf (s.governed && decide (die < 4)) s (s.modDie die (fun x => { x with thermCap := capStep x.level x.thermCap }))

/-- ICC_LIMIT_EXCEED: the cap falls 4 codes below the die's present ceiling, no lower than 32. -/
def execIccLimitExceed (die : Nat) (s : State) : Out :=
  onlyIf (s.governed && decide (die < 4)) s
    ((s.modDie die (fun x => { x with iccCap := max (x.ceiling - 4) 32 })).powerReport 11)

/-- ICC_CAP_RAISE: 100 us below 0.9 x ICC_MAX. -/
def execIccCapRaise (die : Nat) (s : State) : Out :=
  onlyIf (s.governed && decide (die < 4)) s (s.modDie die (fun x => { x with iccCap := min (x.iccCap + 1) 80 }))

/-- ANALOG_THERMAL_TRIP: the comparator of a die acts as level 3. -/
def execAnalogThermalTrip (die : Nat) (s : State) : Out :=
  onlyIf (s.governed && decide (die < 4)) s ((s.modDie die (fun x => { x with level := 3 })).trip 10)

/-- RAIL_FAULT: the trip sequence with a class 11 record, for a rail of any group that is up (R504). -/
def execRailFault (die : Nat) (s : State) : Out :=
  onlyIf (decide (1 ≤ s.power.groups) && !s.power.tripped && decide (die < 4)) s (s.trip 11)

/-- RAIL_SETTLE_TIMEOUT: the raises that waited on the rail are withheld until the next governor step (R505). -/
def execRailSettleTimeout (die : Nat) (s : State) : Out :=
  onlyIf (s.governed && decide (die < 4)) s ((s.modDie die (fun x => { x with raiseHeld := true })).powerReport 11)

/-! ### The brake (R474) -/

/-- POWER_BRAKE_ASSERT: running clusters above BRAKE_CODE drop to it at once, every ceiling is capped and a class 11 record is
written. -/
def execPowerBrakeAssert (s : State) : Out :=
  onlyIf (s.power.stbyPg && !s.power.brake) s
    (let s1 := ({ s with power := { s.power with brake := true } }).setCeilings
     let k := s.power.brakeAt
     let s2 := (List.range 192).foldl (fun t cl =>
       if (t.islOf cl).running && decide (k < t.codeOf cl) then t.switchCode cl k else t) s1
     s2.powerReport 11)

/-- POWER_BRAKE_RELEASE: the governor climbs from BRAKE_CODE. -/
def execPowerBrakeRelease (s : State) : Out :=
  onlyIf s.power.brake s { s with power := { s.power with brake := false, gov := min s.power.gov s.power.brakeAt } }

/-! ### Precision (R479, R191) -/

/-- A context has a layout on a cluster of a die. -/
def State.onDie (s : State) (ctx d : Nat) : Bool :=
  (s.ctxOf ctx).loaded.any (fun l => l.2.clusters.any (fun cl => dieOfCluster cl = d))

/-- The commands running on a layout are killed, without counting as pre-empted, and the layout is re-dealt. A SPAN step that has
replied ready has done its work and stays (log entry 34). -/
def State.killRunners (s : State) (ctx lnum : Nat) : State :=
  let rs := (s.runnersOn ctx lnum).filter (fun x => !x.2.2.stepReady)
  if rs.isEmpty then s
  else
    (rs.foldl (fun t x => (t.release x.1 x.2.1 x.2.2.n).modCmd x.1 x.2.1 x.2.2.n (fun c => { c with
      phase := .preempted, behind := none })) s).redealLayout ctx lnum

/-- The pass count of a context goes down by one, and its running commands are re-run with it. -/
def State.lowerPasses (s : State) (ctx : Nat) : State :=
  let c := s.ctxOf ctx
  if c.live && decide (c.floor < c.curPasses) then
    (tkeys c.layouts).foldl (fun t l => t.killRunners ctx l) (s.modCtx ctx (fun x => { x with curPasses := x.curPasses - 1 }))
  else s

/-- The second condition of R479: G is 32 while P exceeds the limit. -/
def Power.starved (p : Power) : Bool := decide (p.gov = 32) && decide (p.limit < p.powerW)

/-- PRECISION_LOWER: a condition has held for 10 ms: a die at level 2, or (no die) the power overrun. -/
def execPrecisionLower (die : Option Nat) (s : State) : Out :=
  match die with
  | some d => onlyIf (s.governed && decide (d < 4) && decide ((s.dieOf d).level = 2)) s
      (((tkeys s.ctxs).filter (fun c => s.onDie c d)).foldl (fun t c => t.lowerPasses c) s)
  | none => onlyIf (s.governed && s.power.starved) s ((tkeys s.ctxs).foldl (fun t c => t.lowerPasses c) s)

/-- PRECISION_RESTORE: neither condition has held for 100 ms; commands that start afterwards take the configured count. -/
def execPrecisionRestore (s : State) : Out :=
  onlyIf (s.governed && !s.power.starved && (List.range 4).all (fun d => decide ((s.dieOf d).level ≠ 2))) s
    { s with ctxs := tmap {} s.ctxs (fun _ c => { c with curPasses := c.passes }) }

/-! ### The heartbeat (R480) and the alert pins -/

/-- HB_SEQ is written: a change restarts the timeout and clears HB_LOST. -/
def State.writeHeartbeat (s : State) (v : Word) : State :=
  { s with power := { s.power with hbSeq := v, hbLost := s.power.hbLost && decide (v = s.power.hbSeq) } }

/-- TC_HEARTBEAT_WRITE. -/
def execTcHeartbeatWrite (value : Word) (s : State) : Out := onlyIf s.power.stbyPg s (s.writeHeartbeat value)

/-- HEARTBEAT_TIMEOUT: HB_SEQ has not changed for HB_TIMEOUT_S seconds since the release or its last change. -/
def execHeartbeatTimeout (s : State) : Out :=
  onlyIf (decide (s.power.hbTimeout ≠ 0) && s.power.running) s { s with power := { s.power with hbLost := true } }

/-- ICC_ACTIVE: bit d where the current cap of die d is below its ceiling. -/
def State.iccActive (s : State) : Nat :=
  sumNat ((List.range 4).map (fun d => b2n (decide ((s.dieOf d).iccCap < (s.dieOf d).ceiling)) * 2 ^ d))

/-- ALERT_N (R481); true is released. -/
def State.alertN (s : State) : Bool :=
  !(s.power.hbLost || s.power.brake || decide (s.iccActive ≠ 0) || (List.range 4).any (fun d => (s.dieOf d).level = 2))

/-- FAULT_N (R451); true is released. -/
def State.faultN (s : State) : Bool :=
  let m := s.mgmt
  let newer (r : List Word) : Bool := match m.logAck with
    | some k => decide (k < wnat r 6)
    | none => true
  !(m.log.any (fun r => decide (0x10 ≤ fld (word r 0) 7 0) && newer r && nbit m.faultClasses (fld (word r 0) 11 8)) ||
    m.boot = .recovery || m.boot = .noLocation || s.power.railFault)

end Sys2Proof.Machine
end

