-- ==== Sys2Proof/Machine/Package.lean ====
section
/-! DEFINITION. Standby power, the boot (Table 15.1, R441 to R445), recovery (R443, R498), release and orderly stop (R483, R484, R501,
R502), the PCIe reset pin (R506, R507) and the test access port (R497). -/
namespace Sys2Proof.Machine

/-! ### Orders 1 to 4 -/

/-- An island starts at a frequency, with a restart record, unless it runs. -/
def State.startIsland (s : State) (k khz : Nat) : State :=
  if (s.islOf k).running then s
  else (s.modIsl k (fun i => { i with running := true, started := true, khz := khz })).timeNote 0x03 k

/-- Recovery: the core rails stay off and the recovery target takes an image. -/
def State.enterRecovery (s : State) : State :=
  { s with mgmt := { s.mgmt with boot := .recovery, recoverStat := 0, recoverImg := [], recoverLen := 0 },
           power := { s.power with ready := false } }

/-- A class 14 record of the management island. -/
def State.mgmtReport (s : State) : State := s.report islMgmt 14 0 none 0

/-- Orders 2 to 4: the slots of both kinds are verified and the device is READY, or recovery is entered. -/
def State.bootRom (s : State) : State :=
  match s.mgmt.fw.select (s.mgmt.accepts 0) with
  | none => s.enterRecovery
  | some (fw, lostFw, _) =>
    let s1 := { s with mgmt := { s.mgmt with fw := fw } }
    let s2 := if lostFw then s1.mgmtReport else s1
    match s2.mgmt.cfg.select (fun m => s2.mgmt.accepts 1 m && cfComplete m) with
    | none => s2.enterRecovery
    | some (cfg, lostCfg, fell) =>
      let s3 := { s2 with mgmt := { s2.mgmt with cfg := cfg, boot := .ready }, power := { s2.power with ready := true } }
      if lostCfg || fell then s3.mgmtReport else s3

/-! ### Orders 5 to 10 -/

/-- The location code can be read (R496). -/
def locOk (b : BootFinds) : Bool :=
  b.locValid && (((onesOf 14 b.loc).length + b2n b.locPar) % 2 = 1)

/-- Parks found in the Park Log: with a closing record, and without one (R490). -/
def parkCounts (l : List ParkEntry) : Nat × Nat :=
  let closed := (l.filter (fun e => e.closing)).length
  (closed, ((l.map (fun e => e.first)).eraseDups).length - closed)

/-- The class 14 record of a recovery, with both counts (R490; log entry 166). -/
def State.parkReport (s : State) : State :=
  let (a, b) := parkCounts s.kv.park
  (s.reportTy 0x10 islMgmt 14 (s.freeNow % 2 ^ 16) none (a % 2 ^ 32 + b % 2 ^ 32 * 2 ^ 32)).freeNext 1

/-- What the Weight Store's recovery finds (R489, R490): objects of the checkpoint and those whose last parity segment is sealed are
present; every other slot that was written waits for its erase; no park is named by any table, so every park stripe is freed. -/
def State.recoverStore (s : State) : State :=
  let live (k : Nat) (o : Option Obj) : Option Obj :=
    if (tget none s.store.chkObjs k).isSome || o.any (fun x => x.isSealed) then
      o.map (fun x => { x with present := true, isSealed := true })
    else none
  let objs := (s.store.objs.map (fun p => (p.1, live p.1 p.2))).filter (fun p => p.2.isSome)
  let held := objs.flatMap (fun p => match p.2 with
    | some x => x.slots
    | none => [])
  let count := (List.range 16).foldl (fun a c => min a (s.mgmt.storeSegs c)) (s.mgmt.storeSegs 0)
  let park := (List.range 16).foldl (fun a c => min a (Config.flashSegments c - s.mgmt.storeSegs c))
    (Config.flashSegments 0 - s.mgmt.storeSegs 0)
  let s1 := { s with
    store := { s.store with
      objs := objs, ghosts := [], slotCount := count, parkSegments := park,
      slots := s.store.slots.map (fun (p : Nat × Nat) => (p.1, if held.contains p.1 then 1 else 2)),
      parkDead := (s.kv.park.map (fun (e : ParkEntry) => e.stripe)).foldl insertAsc s.store.parkDead },
    kv := {} }
  s1.checkpoint

/-- The frequency an island's interface was trained to, in kHz (R513). -/
def khzFound (b : BootFinds) (k : Nat) : Nat :=
  let i := k % 4096
  if k / 4096 = 1 then 1500000
  else if k / 4096 = 2 then b.nearKHz.getD i 0
  else if k / 4096 = 3 then b.bulkKHz.getD i 0
  else if k / 4096 = 4 then b.flashKHz.getD i 0
  else if k / 4096 = 5 then 1328125
  else 1000000

/-- The Quenor ports in service are trained; one that brings up fewer than three lanes goes down (log entry 37). -/
def State.bootPort (s : State) (b : BootFinds) (p : Nat) : State :=
  let lanes := b.lanesUp.getD p 0 % 16
  if !s.mgmt.inService p then s
  else if laneCount lanes < 3 then
    (s.modPort p (fun x => { x with state := 3, downCause := 3, mappedOut := true })).report (islQuenor p) 9 3 none p
  else s.trained p lanes (b.neighbours.getD p (0, 0)).1 (b.neighbours.getD p (0, 0)).2

/-- What a cold reset and the restart after an orderly stop initialise alike: everything but the management island, the PCIe link, the
flash and the island counters (R484). Configuration space keeps its values. -/
def State.coldCore (s : State) : State :=
  { s with
    cp := { fns := s.cp.fns.map (fun p => (p.1, { msixEnable := p.2.msixEnable, msixMask := p.2.msixMask })) },
    parts := { numVfs := s.parts.numVfs, vfEnable := s.parts.vfEnable },
    ctxs := [], cores := [], slots := [], cmem := [], sram := [], tiers := {}, sess := [], router := [], fab := {},
    power := { s.power with gov := 0x50, sinceChange := 100, powerW := 0, dies := [], codes := [], supplies := [], gated := [],
                            hostLimit := 0xAF0, loc := none } }

/-- Orders 6 to 10. `again`: the restart after an orderly stop. -/
def State.bootRest (s : State) (b : BootFinds) (again : Bool) : State :=
  if !locOk b then { s with mgmt := { s.mgmt with boot := .noLocation } }
  else
    let lw := s.mgmt.lendWindow
    let s1 := { s with
      mgmt := s.mgmt.buildFences b.badCores b.badClusters,
      power := { s.power with loc := some b.loc },
      tiers := { s.tiers with
        nearBytes := ((List.range 4).zip b.nearBytes).filter (fun p => decide (p.2 ≠ 0)),
        bulkBytes := ((List.range 16).zip b.bulkBytes).filter (fun p => decide (p.2 ≠ 0)),
        lendW := lw.1, lendMask := lw.2 },
      fab := { s.fab with
        chip := s.mgmt.chipOf b.loc,
        routes := ((List.range 16384).map (fun x => (x, s.mgmt.bootRoute x))).filter (fun p => decide (p.2 ≠ 0)) } }
    let s2 := s1.parkReport.recoverStore
    let s3 := (List.range 32).foldl (fun t p => t.bootPort b p) s2.fenceCores
    let s4 := ((List.range 192).filter (fun k => !s3.clusterFenced k)).foldl (fun t k => if (t.islOf k).running then t else t.restartCluster k) s3
    let s6 := s4.applyPlan s4.mgmt.bootPlan
    let s7 := { s6 with mgmt := { s6.mgmt with boot := .up, fw := s6.mgmt.fw.settle, cfg := s6.mgmt.cfg.settle } }
    (if again then s7.resetDone false else s7).retryCheck

/-- Orders 5 to 10 on a RELEASE: all four rail groups come up, BOARD_MAX is taken and the islands start; cluster islands start once the
Fence Map is known (R46; log entry 39). -/
def State.releaseBoot (s : State) (b : BootFinds) : State :=
  let again := s.parts.recs.any (fun p => p.2.resetting)
  let s1 := s.coldCore
  let s2 := { s1 with
    power := { s1.power with
      boardMax := max 1200 (min s.power.tcBoard 2800), groups := 4, running := true, ready := false, releaseHeld := none,
      railFault := false, linkUp := !s.power.perst, retryStatus := true } }
  let s3 := (allIslands.drop 192).foldl (fun t k =>
    (t.startIsland k (khzFound b k)).modIsl k (fun i => if k = islMgmt then i else { i with khz := khzFound b k })) s2
  s3.bootRest b again

/-- A RELEASE at READY: it continues the boot, or waits while a sensor reads 80 degrees or more (R478; log entry 35). -/
def State.release1 (s : State) (b : BootFinds) : State :=
  if b.tempsBelow80 then s.releaseBoot b else { s with power := { s.power with releaseHeld := some b } }

/-- TC_RELEASE: held before READY, ignored while the core rails are up or after a trip. -/
def execTcRelease (finds : BootFinds) (s : State) : Out :=
  onlyIf (s.power.stbyPg && !s.power.running && !s.power.tripped) s
    (if s.mgmt.boot = .ready then s.release1 finds else { s with power := { s.power with releaseHeld := some finds } })

/-- Orders 2 to 4 with a RELEASE that was held. -/
def State.bootOn (s : State) : State :=
  let s1 := s.bootRom
  match s1.power.releaseHeld with
  | some b => if s1.mgmt.boot = .ready then s1.release1 b else s1
  | none => s1

/-- STANDBY_POWER_GOOD: the management island leaves reset and the cold boot runs to READY. -/
def execStandbyPowerGood (s : State) : Out :=
  onlyIf (decide (s.mgmt.boot = .off)) s
    (({ s with power := { s.power with stbyPg := true } }.startIsland islMgmt 1000000).bootOn)

/-- What a loss of standby power leaves: the flash, what the host holds, the pins, the commands that wait. -/
def State.coldReset (s : State) : State :=
  { State.reset with
    pending := s.pending, host := s.host, free := s.free, store := s.store,
    kv := { park := s.kv.park },
    power := { brake := s.power.brake, perst := s.power.perst },
    mgmt := { fw := s.mgmt.fw, cfg := s.mgmt.cfg, ownerKey := s.mgmt.ownerKey, fenceRecs := s.mgmt.fenceRecs,
              fenceBank := s.mgmt.fenceBank } }

/-- STANDBY_POWER_LOSS: the device enters cold reset at once. -/
def execStandbyPowerLoss (s : State) : Out := onlyIf s.power.stbyPg s s.coldReset

/-- LOCATION_RETRY: the boot stopped at order 6 reads the location code again. -/
def execLocationRetry (finds : BootFinds) (s : State) : Out :=
  onlyIf (decide (s.mgmt.boot = .noLocation)) s (s.bootRest finds false)

/-- RAIL_BRINGUP_TIMEOUT: a bring-up is abandoned; the rails it enabled are off again and the device stays READY. -/
def execRailBringupTimeout (s : State) : Out :=
  onlyIf (decide (s.mgmt.boot = .ready)) s
    ({ s with power := { s.power with railFault := true, releaseHeld := none }, parts := { s.parts with protLock := false } }.report
      islMgmt 11 0 none 0)

/-- OFF_REQ: orders 1 to 4 of the partition reset for every partition, then the core rails go off and the device waits at READY. -/
def State.offReq (s : State) : State :=
  if s.power.running then
    let s1 := { s with parts := { s.parts with warm := false } }
    let s2 := s1.enabledParts.foldl (fun t p => t.beginPartReset p) s1
    let s3 := s2.coresOff
    { s3 with mgmt := { s3.mgmt with boot := .ready }, power := { s3.power with ready := true } }
  else s

/-- TC_OFF_REQ. -/
def execTcOffReq (s : State) : Out := onlyIf s.power.running s s.offReq

/-! ### The recovery target (R443, R498) -/

/-- The kind of the image being received: KIND of the header at offset 0. -/
def Mgmt.recoverKind (m : Mgmt) : Nat := bits (cellNat m.recoverImg 0 4) 16 16

/-- RECOVERY_IMAGE_WRITE: bytes go into slot A of the kind the header names; bytes before the header are discarded. -/
def execRecoveryImageWrite (offset : Nat) (data : List Byte) (s : State) : Out :=
  let m := s.mgmt
  onlyIf (decide (m.boot = .recovery) && (m.recoverStat = 0 || m.recoverStat = 2) && decide (1 ≤ data.length) &&
      decide (data.length ≤ 256) && (offset = 0 || !m.recoverImg.isEmpty)) s
    (let m1 := { m with recoverStat := 0, recoverImg := cellWrite m.recoverImg offset data }
     { s with mgmt := m1.modSlots m1.recoverKind (fun x => { x with a := cellWrite x.a offset data }) })

/-- RECOVERY_IMAGE_END: the image is complete and verification begins. -/
def execRecoveryImageEnd (length : Nat) (s : State) : Out :=
  onlyIf (decide (s.mgmt.boot = .recovery) && s.mgmt.recoverStat = 0) s
    { s with mgmt := { s.mgmt with recoverStat := 1, recoverLen := length } }

/-- RECOVERY_VERIFY_DONE: a good image makes slot A active and restarts the boot; another is rejected. -/
def execRecoveryVerifyDone (s : State) : Out :=
  let m := s.mgmt
  let kind := m.recoverKind
  let a := (m.slotsOf kind).a
  onlyIf (decide (m.boot = .recovery) && m.recoverStat = 1) s
    (if m.accepts kind a && decide (imTotal a = m.recoverLen) then
      { s with mgmt := { m with recoverStat := 3 }.modSlots kind (fun x => { x with activeB := false, pending := false, tried := false }) }.bootOn
     else { s with mgmt := { m with recoverStat := 2, recoverImg := [] } })

/-- RECOVERY_OWNER_KEY: installed while no key is held; otherwise ignored, and the status reads 2. -/
def execRecoveryOwnerKey (key : List Byte) (s : State) : Out :=
  onlyIf (decide (s.mgmt.boot = .recovery) && decide (key.length = 48)) s
    (match s.mgmt.ownerKey with
     | none => { s with mgmt := { s.mgmt with ownerKey := some key } }
     | some _ => { s with mgmt := { s.mgmt with recoverStat := 2 } })

/-! ### PERST_N (R506, R507) -/

/-- Every function's configuration space takes its reset values: SR-IOV, MSI-X and BAR4 are disabled. -/
def State.resetConfigSpace (s : State) : State :=
  { s with
    cp := { s.cp with fns := tmap {} s.cp.fns (fun _ g => { g with msixEnable := false, msixMask := false }) },
    parts := { s.parts with vfEnable := false, numVfs := 0 },
    mgmt := { s.mgmt with dbgEnable := false } }

/-- PERST_ASSERT: while groups 1 and 2 are up, the link goes down, configuration space resets and every enabled partition is reset;
after a trip only the port. -/
def execPerstAssert (s : State) : Out :=
  onlyIf (!s.power.perst) s
    (let s1 := { s with power := { s.power with perst := true } }
     if s.power.groups < 2 then s1
     else
       let s2 := { s1 with power := { s1.power with linkUp := false, retryStatus := true } }.resetConfigSpace
       if s.power.tripped then s2 else s2.enabledParts.foldl (fun t p => t.beginPartReset p) s2)

/-- PERST_DEASSERT: link training begins. -/
def execPerstDeassert (s : State) : Out :=
  onlyIf s.power.perst s
    (let s1 := { s with power := { s.power with perst := false } }
     if s.power.groups < 2 then s1 else { s1 with power := { s1.power with linkUp := true } }.retryCheck)

/-! ### The test access port (R497) -/

/-- IDCODE: version 0, part number 0x4B34, manufacturer, 1. -/
def idcode : Nat := 1 + Config.idcodeMaker % 2048 * 2 + 0x4B34 * 2 ^ 12

/-- TEST_ACCESS_PORT: an instruction (0 BYPASS, 1 IDCODE, 2 SAMPLE/PRELOAD, 3 EXTEST, 4 CLAMP, 5 HIGHZ, 6 EXTEST_PULSE,
7 EXTEST_TRAIN) and a shift of the register it selects. What boundary cells hold when captured is free (log entry 38). -/
def execTestAccessPort (ir : Nat) (tdi : List Bool) (s : State) : Out :=
  if !s.power.stbyPg then .next s
  else if 8 ≤ ir ∧ s.mgmt.debugAllowed then .refused .debugInstruction
  else
    let n := tdi.length
    let id := (List.range 32).map (fun i => nbit idcode i)
    let cells := (List.range n).map (fun i => decide (Config.freeValue (s.free + i) % 2 = 1))
    let p := { s.power with jtagIr := if 8 ≤ ir then 0 else ir }
    if ir = 1 then .next { s with power := { p with jtagDr := (id ++ tdi).take n } }
    else if ir = 2 ∨ ir = 3 ∨ ir = 6 ∨ ir = 7 then
      .next ({ s with power := { p with jtagDr := cells, jtagCells := tdi } }.freeNext n)
    else .next { s with power := { p with jtagDr := (false :: tdi).take n } }

end Sys2Proof.Machine
end

