-- ==== Sys2Proof/Machine/Mgmt.lean ====
section
/-! DEFINITION. The management island's commands and events (chapter 15): correlation sets, self-test, retraining, showdown commands,
the watchdog, the error hub and the sensors. -/
namespace Sys2Proof.Machine

/-! ### Correlation sets (R48 to R50) -/

/-- A correlation set starts: the management island's own record, with its counter at the moment of supply, then a record at once for every stopped
island, and a marker to every running one. -/
def State.startCorrelation (s : State) (host own : Nat) : State :=
  let m := s.mgmt
  let now := s.islCount islMgmt
  let num := m.corrNum + 1
  let s1 := { s with mgmt := { m with corrNum := num, corrHost := host, corrMgmt := (s.islOf islMgmt).count,
                                      corrDue := allIslands.filter (fun k => decide (k ≠ islMgmt) && (s.islOf k).running) } }
  let s2 := s1.logAppend (timeRecord 0x01 false num islMgmt 0 own own host)
  (allIslands.filter (fun k => decide (k ≠ islMgmt) && !(s.islOf k).running)).foldl (fun t k =>
    t.logAppend (timeRecord 0x01 true num k (t.freqCode k) (t.islCount k) now host)) s2

/-- SUPPLY_TIME: the supply is held while an earlier set is not complete, then starts its own set, and finishes when that is. -/
def execSupplyTime (f q n : Nat) (s : State) : Out :=
  s.work f q n 0x02 (fun c =>
    match c.work with
    | .correlation num => if s.mgmt.corrDue.isEmpty then s.done f q n num 0 else s
    | .supplied own =>
      if s.mgmt.corrDue.isEmpty then (s.startCorrelation (wnat2 c.eff 2) own).setWork f q n (.correlation (s.mgmt.corrNum + 1)) else s
    | _ =>
      s.checked f q n c (reservedCheck c.eff [(2, 0xFFFFFFFF), (3, 0xFFFFFFFF)])
        (if s.mgmt.restarting then s
         else if !s.mgmt.corrDue.isEmpty then s.setWork f q n (.supplied (s.islCount islMgmt))
         else (s.startCorrelation (wnat2 c.eff 2) (s.islCount islMgmt)).setWork f q n (.correlation (s.mgmt.corrNum + 1))))

/-- CORRELATION_MARKER_ARRIVE: the marker reaches an island, whose counter is latched and recorded. -/
def execCorrelationMarkerArrive (island : Nat) (s : State) : Out :=
  let m := s.mgmt
  onlyIf (m.corrDue.contains island) s
    ((({ s with mgmt := { m with corrDue := m.corrDue.erase island } }.modIsl island (fun i => { i with latch := some i.count })).logAppend
      (timeRecord 0x01 (!(s.islOf island).running) m.corrNum island (s.freqCode island) (s.islCount island) m.corrMgmt.toNat m.corrHost)))

/-! ### SELF_TEST (R462) -/

/-- The target of a self-test is idle: no hand is loaded in its cluster and no layout reserves a resource of it. -/
def State.testIdle (s : State) (cl : Nat) : Bool :=
  !s.handsIn cl && s.allLayouts.all (fun l => decide (l.2.2.reserved cl = (0, 0)) && l.2.2.held.all (fun h => clusterOf h.1 ≠ cl))

/-- What a test's result fences: cores, then the cluster. -/
def State.fenceTested (s : State) (cl : Nat) (cores : List Nat) (logic : Bool) : State :=
  let s1 := (cores.filter (fun c => !s.coreFenced c)).foldl (fun t c => t.fenceCore c 0) s
  if logic && !s.clusterFenced cl then s1.loseCluster cl 0 else s1

/-- SELF_TEST: the first stage refuses or takes an idle target; the second has the result of the test. -/
def execSelfTest (f q n : Nat) (result : TestResult) (s : State) : Out :=
  s.work f q n 0x80 (fun c =>
    let w := word c.eff 2
    let kind := fld w 0 0
    let index := fld w 23 12
    let cl := testCluster c.eff
    match c.work with
    | .target _ _ _ =>
      let mask := match result with
        | .cores m => m % 65536 &&& (if kind = 1 then 65535 else 2 ^ (coreY index % 4 * 4 + coreX index % 4))
        | _ => 0
      let logic := decide (result = .logic)
      let bad := (onesOf 16 mask).map (fun i => (coresOfCluster cl).getD i 0)
      let fenced := bad.any (fun k => !s.coreFenced k) || (logic && !s.clusterFenced cl)
      let s1 := { s with mgmt := { s.mgmt with testing := s.mgmt.testing.erase cl } }
      (s1.fenceTested cl bad logic).done f q n (mask + b2n logic * 65536) (b2n fenced)
    | _ =>
      s.checked f q n c (reservedCheck c.eff [(2, 0xFFF001)] ++
          [param (decide (index < (if kind = 1 then 192 else 3072))) 2, param (decide (f = 0) || decide (s.clusterOwner cl = f)) 2])
        (if s.mgmt.restarting || s.gatedIn [cl] then s
         else if !s.testIdle cl || s.mgmt.testing.contains cl then s.endCmd f q n ⟨St.targetBusy, 0, 0⟩
         else { s with mgmt := { s.mgmt with testing := s.mgmt.testing ++ [cl] } }.setWork f q n (.target kind cl 1)))

/-! ### MEMORY_RETRAIN (R463) -/

/-- The stack or channel a frame id lies in, as the command names it: kind and index. -/
def unitOf (fid : Nat) : Nat × Nat := if fid / 2 ^ 24 < 4 then (0, fid / 2 ^ 24) else (1, fid / 2 ^ 24 - 4)

/-- An entry that is RESIDENT or MIGRATING names a frame of the target. -/
def State.namesTarget (s : State) (kind index : Nat) : Bool :=
  s.tiers.bm.any (fun e => (e.2.state = 1 || e.2.state = 2) && decide (e.2.tier < 2) && decide (unitOf (fidOf e.2.tier e.2.loc) = (kind, index)))
/-- A stream has a tile in flight whose block lies in the target. -/
def State.targetInFlight (s : State) (kind index : Nat) : Bool :=
  s.usedSlots.any (fun p => p.2.inflight.any (fun t => t.2.any (fun r => decide (unitOf r.2 = (kind, index)))))

/-- MEMORY_RETRAIN: it waits for its target to be quiet; once retraining has begun, the next stage ends it after `us`. -/
def execMemoryRetrain (f q n : Nat) (us : Nat) (s : State) : Out :=
  s.work f q n 0x83 (fun c =>
    let w := word c.eff 2
    let kind := fld w 1 0
    let index := fld w 7 4
    match c.work with
    | .target k i stage =>
      if stage = 1 ∧ us ≤ 5000 then
        { s with tiers := { s.tiers with retraining := s.tiers.retraining.erase (k, i) } }.done f q n us 0
      else s
    | _ =>
      s.checked f q n c (reservedCheck c.eff [(2, 0xF3), (3, 0xFFFF)] ++ [resv (kind ≠ 3) 2, param (kind ≠ 0 || decide (index < 4)) 2])
        (if s.mgmt.restarting then s else s.setWork f q n (.target kind index 0)))

/-- A MEMORY_RETRAIN whose target is still waited for. -/
def State.retrainWaits (s : State) (f q n : Nat) : Option (Nat × Nat) :=
  match s.started f q n 0x83 with
  | some c =>
    (match c.work with
      | .target k i 0 => some (k, i)
      | _ => none)
  | none => none

/-- RETRAIN_TARGET_QUIET: no request for 10 us, or no entry names the target's frames; retraining begins. -/
def execRetrainTargetQuiet (f q n : Nat) (s : State) : Out :=
  match s.retrainWaits f q n with
  | some (k, i) =>
    onlyIf (!s.namesTarget k i || !s.targetInFlight k i) s
      ({ s with tiers := { s.tiers with retraining := s.tiers.retraining ++ [(k, i)] } }.setWork f q n (.target k i 1))
  | none => .next s

/-- RETRAIN_WAIT_TIMEOUT: the target has stayed busy for WAIT_MS. -/
def execRetrainWaitTimeout (f q n : Nat) (s : State) : Out :=
  match s.retrainWaits f q n with
  | some _ => .next (s.endCmd f q n ⟨St.targetBusy, 0, 0⟩)
  | none => .next s

/-! ### SHOWDOWN and SHOWDOWN_ARM (R464) -/

/-- SHOWDOWN: triggers, and finishes once the type 0x13 record is written. One released before that counts as incomplete; one that finds a showdown
held is a missed trigger too (log entry 167). -/
def execShowdown (f q n : Nat) (s : State) : Out :=
  s.work f q n 0x81 (fun c =>
    match c.work with
    | .showdown num =>
      if !s.mgmt.showHeld || decide (s.mgmt.showNum ≠ num) then s.done f q n num 1
      else if s.mgmt.showRecorded then s.done f q n num (b2n s.mgmt.showIncomplete)
      else s
    | _ =>
      s.checked f q n c (reservedCheck c.eff [(2, 1)])
        (if s.mgmt.restarting then s
         else if s.mgmt.showHeld then (s.trigger false false).endCmd f q n ⟨St.targetBusy, 0, 0⟩
         else
           let s1 := s.trigger (bit (word c.eff 2) 0) false
           s1.setWork f q n (.showdown s1.mgmt.showNum)))

/-- The arming a SHOWDOWN_ARM asks for; none where it disarms. -/
def armingOf (ws : List Word) : Option Arming :=
  let w := word ws 2
  if bit w 5 then none
  else some { cut := bit w 0, pin := bit w 1, cls := if bit w 2 then some (fld (word ws 3) 15 0) else none,
              count := if bit w 3 then some (fld (word ws 4) 15 0, BitVec.ofNat 64 (wnat2 ws 5)) else none, drive := bit w 4 }

def execShowdownArm (f q n : Nat) (s : State) : Out :=
  s.work f q n 0x82 (fun c =>
    let w := word c.eff 2
    s.checked f q n c (reservedCheck c.eff [(2, 0x3F), (3, 0xFFFF), (4, 0xFFFF), (5, 0xFFFFFFFF), (6, 0xFFFFFFFF)] ++
        [param (bit w 5 || !bit w 3 || allIslands.contains (fld (word c.eff 4) 15 0)) 4])
      (if s.mgmt.restarting then s else s.done f q n 0 0))

/-! ### Mailbox requests and responses (R459, R460) -/

/-- Word i of the request; words 2 to 7 are PARAM_0 to PARAM_5. -/
def Mgmt.req (m : Mgmt) (i : Nat) : Nat := cellNat m.reqArea (4 * i) 4
def Mgmt.param (m : Mgmt) (j : Nat) : Nat := m.req (2 + j)
/-- The payload that follows the request header. -/
def Mgmt.payload (m : Mgmt) : List Byte := cellRead m.reqArea 32 (m.req 1)

/-- Values of RESULT. -/
abbrev mbOk : Nat := 0
abbrev mbUnknown : Nat := 1
abbrev mbBad : Nat := 2
abbrev mbSignature : Nat := 4
abbrev mbRollback : Nat := 5
abbrev mbDenied : Nat := 6
abbrev mbNone : Nat := 7

/-- The response is written, DONE and DONE_SEQ are set and the MAILBOX cause of partition 0 is raised. -/
def State.respond (s : State) (result : Nat) (outs : List Nat) (payload : List Byte) : State :=
  let m := s.mgmt
  let w0 := bits (m.req 0) 7 0 + result * 2 ^ 8 + bits (m.req 0) 31 16 * 2 ^ 16
  let head := [w32 w0, w32 payload.length] ++ (List.range 6).map (fun i => w32 (outs.getD i 0))
  { s with mgmt := { m with respArea := cellWrite m.respArea 0 (wordBytes head ++ payload), mbBusy := false, mbDone := true,
                            mbDoneSeq := m.mbSeq } }.cause 0 7

/-- A request with RESULT other than 0 changes nothing. -/
def State.refuse (s : State) (result : Nat) : State := s.respond result [] []

/-- A REQ outside Table 15.10 is answered UNKNOWN_REQUEST as soon as the island runs. -/
def State.refuseUnknown (s : State) : State :=
  let r := bits (s.mgmt.req 0) 7 0
  if s.mgmt.mbBusy ∧ !s.mgmt.restarting ∧ (r = 0 ∨ 0x10 < r) then s.refuse mbUnknown else s

/-! ### The watchdog (R439, R440, R454) -/

/-- A command that needs the management island. -/
def mgmtOp (op : Nat) : Bool := op = 0x02 || (decide (0x80 ≤ op) && decide (op ≤ 0x83))

/-- A pending slot that was tried is given up: the boot did not reach order 10. -/
def Slots.giveUp (x : Slots) : Slots := if x.tried then { x with pending := false, tried := false, useB := x.activeB } else x

/-- MGMT_WATCHDOG_EXPIRE: the island restarts. Commands that need it complete with MGMT_UNAVAILABLE, a correlation set is abandoned and
the mailbox request is dropped. -/
def execMgmtWatchdogExpire (s : State) : Out :=
  onlyIf (decide (s.mgmt.boot ≠ .off) && !s.mgmt.restarting) s
    (let cs := s.allCmds.filter (fun x => x.2.2.isRunning && mgmtOp x.2.2.op)
     let s1 := cs.foldl (fun t x => t.endCmd x.1 x.2.1 x.2.2.n ⟨St.mgmtUnavailable, 0, 0⟩) s
     let m := s1.mgmt
     let s2 := { s1 with mgmt := { m with restarting := true, corrDue := [], mbBusy := false, mbDone := false, mbRestarted := true } }
     if (m.boot = .ready ∨ m.boot = .noLocation) ∧ (m.fw.tried || m.cfg.tried) then
       { s2 with mgmt := { s2.mgmt with fw := m.fw.giveUp, cfg := m.cfg.giveUp } }.mgmtReport
     else s2)

/-- MGMT_SERVICE_RESUME: service resumes and a type 0x14 record is written. A doorbell written during the restart is served from then on. -/
def execMgmtServiceResume (s : State) : Out :=
  onlyIf s.mgmt.restarting s
    (({ s with mgmt := { s.mgmt with restarting := false } }.logAppend
      (errRecord 0x14 14 (s.freeNow % 2 ^ 16) islMgmt none (s.islCount islMgmt) (Config.freeValue (s.free + 1) % 2 ^ 64))).freeNext 2).refuseUnknown

/-! ### The error hub and the sensors (R448 to R452) -/

/-- ERROR_REPORT: a block of an island reports a record. -/
def execErrorReport (island cls code : Nat) (ctx : Option Nat) (detail : W64) (s : State) : Out :=
  onlyIf (allIslands.contains island && decide (cls < 16) && decide (s.mgmt.boot ≠ .off)) s
    (s.reportTy 0x10 island cls code ctx detail.toNat)

/-- The freed entry of a FIFO is taken by a lost record of the lowest class that lost any. -/
def Island.refill (i : Island) (island code : Nat) : Island :=
  match i.lost with
  | [] => i
  | (cls, n) :: r => { i with lost := r, fifo := i.fifo ++ [errRecord 0x11 cls code island none i.count.toNat n] }

/-- ERROR_HUB_DRAIN: the oldest record of an island enters the log. A lost record has no code of its own; it is free (log entry 26). -/
def execErrorHubDrain (island : Nat) (s : State) : Out :=
  match (s.islOf island).fifo with
  | [] => .next s
  | r :: rest =>
    .next (((s.logAppend r).modIsl island (fun i => { i with fifo := rest }.refill island (s.freeNow % 2 ^ 16))).freeNext 1)

/-- SENSOR_SAMPLE. -/
def execSensorSample (temps : List Int) (supplies currents volts : List Nat) (s : State) : Out :=
  onlyIf (decide (temps.length = 96) && decide (supplies.length = 192) && decide (currents.length = 4) && decide (volts.length = 4) &&
      decide (s.mgmt.boot ≠ .off) && !s.mgmt.restarting) s
    { s with mgmt := { s.mgmt with temps := temps, supplies := supplies, currents := currents, volts := volts } }

end Sys2Proof.Machine
end

