-- ==== Sys2Proof/Machine/Mailbox.lean ====
section
/-! DEFINITION. The mailbox requests (R459, R460, Table 15.10) and the debug window (R461). -/
namespace Sys2Proof.Machine

/-- A request that is being served: the doorbell has been written, the island runs and the request area holds this REQ. -/
def State.serve (s : State) (req : Nat) (g : Mgmt → State) : Out :=
  onlyIf (s.mgmt.mbBusy && !s.mgmt.restarting && decide (bits (s.mgmt.req 0) 7 0 = req)) s (g s.mgmt)

/-! ### Versions, log, first errors, sensors -/

def execInfo (s : State) : Out :=
  s.serve 0x01 (fun m => s.respond mbOk
    [imVersion m.fw.a, imVersion m.fw.b, imVersion m.cfg.a, imVersion m.cfg.b, m.fw.floor, m.cfg.floor] [])

/-- LOG_READ: records in index order from the oldest retained one at or after PARAM_0. -/
def execLogRead (s : State) : Out :=
  s.serve 0x02 (fun m =>
    let n := m.param 1
    if n = 0 ∨ 8191 < n then s.refuse mbBad
    else
      let first := m.nextLog - m.log.length
      let skip := m.param 0 - first
      let rs := (m.log.drop skip).take n
      s.respond mbOk [if rs.isEmpty then 0 else first + skip, rs.length, m.nextLog] (rs.flatMap wordBytes))

def execLogAck (s : State) : Out :=
  s.serve 0x03 (fun m => { s with mgmt := { m with logAck := some (m.param 0) } }.respond mbOk [] [])

/-- FIRST_ERROR_READ returns an island's capture and releases it (R450). -/
def execFirstErrorRead (s : State) : Out :=
  s.serve 0x04 (fun m =>
    let k := bits (m.param 0) 15 0
    if !allIslands.contains k then s.refuse mbBad
    else
      let i := s.islOf k
      (s.modIsl k (fun x => { x with first := none, later := 0 })).respond mbOk [i.later, b2n i.first.isSome]
        ((i.first.map wordBytes).getD []))

def execSensorRead (s : State) : Out :=
  s.serve 0x05 (fun m => s.respond mbOk []
    (m.temps.flatMap (fun t => leBytes 2 (ofInt 16 t)) ++ (m.supplies ++ m.currents ++ m.volts).flatMap (leBytes 2)))

/-! ### Counters (Table 15.11) -/

/-- The counter of a kind, index and subindex; none where they name none. -/
def State.counter (s : State) (kind i j : Nat) : Option Nat :=
  let c := s.ctxOf i
  let ctx (v : Nat) : Option Nat := if i < 256 ∧ j = 0 then some v else none
  let core (v : Nat) : Option Nat := if i < 3072 ∧ j = 0 then some v else none
  match kind with
  | 1 => ctx c.stale
  | 2 => ctx c.weightLate
  | 3 => if i < 256 ∧ j < 256 then some (tget 0 c.skipped j) else none
  | 4 => ctx c.discarded
  | 5 => ctx c.dirFull
  | 6 => ctx c.parkedLost
  | 7 => core (s.coreOf i).unrouted
  | 8 => core (s.coreOf i).correctable
  | 9 =>
    if i = 0 ∧ j < 4 then some (tget 0 s.tiers.corrected (islNear j))
    else if i = 1 ∧ j < 16 then some (tget 0 s.tiers.corrected (islBulk j)) else none
  | 10 => if i < 16 ∧ j = 0 then some (tget 0 s.store.rebuilt i) else none
  | _ => none

def execCounterRead (s : State) : Out :=
  s.serve 0x06 (fun m =>
    match s.counter (m.param 0) (m.param 1) (m.param 2) with
    | some v => s.respond mbOk [v % 2 ^ 32, v / 2 ^ 32] []
    | none => s.refuse mbBad)

/-! ### Snapshots (R467) -/

/-- The island of a block number. -/
def blockIsland (b : Nat) : Nat :=
  if b < 3072 then clusterOf b
  else if b < 3264 then b - 3072
  else if b < 3268 then islNear (b - 3264)
  else if b < 3284 then islBulk (b - 3268)
  else if b < 3300 then islFlash (b - 3284)
  else if b < 3332 then islQuenor (b - 3300)
  else islPcie

/-- The inputs a core's hands route. -/
def Core.routedIn (k : Core) : List Nat :=
  ((k.hands.flatMap (fun h => match h.2 with
    | some x => (x.img.routes.filter (fun r => decide (r.source ≤ 3))).map (fun r => r.source * 4 + r.select)
    | none => [])).foldl insertAsc [])

/-- The items of a core's inputs in cut mode. -/
def Core.inputItems (k : Core) : List SnapItem :=
  (k.routedIn.foldl insertAsc (tkeys k.snapIn)).map (fun i =>
    let (n, a, b, seen) := tget (0, 0, 0, false) k.snapIn i
    (0x0400 + i, n % 65536 + a % 1024 * 2 ^ 16 + b % 1024 * 2 ^ 26 + b2n seen * 2 ^ 36))

/-- The items of a block, ascending. Requests queued and in flight (item 0x1000) are free values (log entry 8). -/
def State.blockItems (s : State) (b : Nat) : List SnapItem :=
  let m := s.mgmt
  let load := [(0x1000, Config.freeValue (m.showFree + (b - 3264)) % 2 ^ 32)]
  let held := m.showItems.find? (fun p => p.1 = b)
  if b < 3072 then
    let k := s.coreOf b
    match held with
    | some p => p.2 ++ (if m.showCut then k.inputItems else [])
    | none => if !m.showCut then coreItems { fenced := k.fenced } else if k.hands = [] then coreItems k else k.inputItems
  else if b < 3264 then
    match held with
    | some p => p.2
    | none => (List.range 64).map (fun i => (0x0800 + i, 0))
  else if 3300 ≤ b ∧ b < 3332 then
    load ++ (match held with
      | some p => p.2
      | none => portItem {})
  else load

/-- The counter of a block's island at its latch. -/
def State.blockCount (s : State) (b : Nat) : Nat :=
  if b < 3072 ∧ (s.mgmt.showCounts.any (fun p => p.1 = b)) then (tget 0 s.mgmt.showCounts b).toNat
  else ((s.islOf (blockIsland b)).snap.getD 0).toNat

/-- The snapshot record of a block. -/
def State.snapRecord (s : State) (b : Nat) : List Byte :=
  let m := s.mgmt
  let items := s.blockItems b
  wordBytes ([w32 (m.showNum + b2n m.showCut * 2 ^ 16 + b2n m.showIncomplete * 2 ^ 17 + items.length * 2 ^ 18),
    w32 (blockIsland b + m.missed * 2 ^ 16)] ++ w64 (s.blockCount b) ++ [0, 0, 0, 0]) ++
  items.flatMap (fun p => leBytes 8 (p.1 + p.2 * 2 ^ 16))

def execSnapshotRead (s : State) : Out :=
  s.serve 0x07 (fun m =>
    if 3332 < m.param 0 then s.refuse mbBad
    else if !m.showHeld then s.refuse mbNone
    else s.respond mbOk [] (s.snapRecord (m.param 0)))

def execSnapshotRelease (s : State) : Out :=
  s.serve 0x08 (fun m => { s with mgmt := { m with showHeld := false } }.respond mbOk [] [])

/-! ### Updates (R453 to R456) -/

/-- UPDATE_WRITE: bytes go into the inactive slot of the kind. -/
def execUpdateWrite (s : State) : Out :=
  s.serve 0x09 (fun m =>
    let kind := m.param 0
    if 1 < kind ∨ m.param 1 % 64 ≠ 0 ∨ 262112 < m.req 1 then s.refuse mbBad
    else
      let x := m.slotsOf kind
      { s with mgmt := m.modSlots kind (fun y =>
          y.setCells (!x.activeB) (cellWrite (x.cells (!x.activeB)) (m.param 1) m.payload)) }.respond mbOk [] [])

/-- UPDATE_COMMIT: the inactive slot is verified and marked pending. -/
def execUpdateCommit (s : State) : Out :=
  s.serve 0x0A (fun m =>
    let kind := m.param 0
    if 1 < kind then s.refuse mbBad
    else
      let x := m.slotsOf kind
      let im := x.cells (!x.activeB)
      if !imHeadOk kind im || !m.signed kind im || decide (imTotal im ≠ m.param 1) then s.refuse mbSignature
      else if imSecurity im < x.floor then s.refuse mbRollback
      else { s with mgmt := m.modSlots kind (fun y => { y with pending := true, tried := false }) }.respond mbOk [] [])

/-- FLOOR_RAISE: V from the present floor to the SECURITY_VERSION of the active image. -/
def execFloorRaise (s : State) : Out :=
  s.serve 0x0B (fun m =>
    let kind := m.param 0
    let v := m.param 1
    if 1 < kind then s.refuse mbBad
    else
      let x := m.slotsOf kind
      if v < x.floor ∨ imSecurity (x.cells x.activeB) < v then s.refuse mbRollback
      else { s with mgmt := m.modSlots kind (fun y => { y with floor := v }) }.respond mbOk [] [])

/-- OWNER_SET: where a key is held, the request's header and the new key are signed under it (log entry 41). -/
def execOwnerSet (s : State) : Out :=
  s.serve 0x0F (fun m =>
    let key := cellRead m.reqArea 32 48
    let set := { s with mgmt := { m with ownerKey := some key } }.respond mbOk [] []
    match m.ownerKey with
    | none => if m.req 1 < 48 then s.refuse mbBad else set
    | some old =>
      if m.req 1 ≠ 48 + sigBytes ∨ !Config.signatureGood (cellRead m.reqArea 0 80) (cellRead m.reqArea 80 sigBytes) old then
        s.refuse mbSignature
      else set)

/-! ### Identity and attestation (R457, R458; log entry 4) -/

/-- The digests of the boot code, the run-time firmware and the configuration image in use. -/
def Mgmt.bootDigest (m : Mgmt) : List Byte := let im := m.fw.cells m.fw.useB; sha256 (cellRead im 64 (imRuntime im))
def Mgmt.runtimeDigest (m : Mgmt) : List Byte :=
  let im := m.fw.cells m.fw.useB
  sha256 (cellRead im (64 + imRuntime im) (imBody im - imRuntime im))
def Mgmt.configDigest (m : Mgmt) : List Byte := sha256 (cellRead m.image 0 (imTotal m.image))
def Mgmt.digests (m : Mgmt) : List Byte := m.bootDigest ++ m.runtimeDigest ++ m.configDigest

def execIdentity (s : State) : Out :=
  s.serve 0x0C (fun m => s.respond mbOk [] (padTo 32 (Config.identityBytes [] 32) ++ Config.identityBytes m.digests 0))

/-- The report of Table 15.8 over a nonce. -/
def State.attestReport (s : State) (nonce : List Byte) : List Byte :=
  let m := s.mgmt
  wordBytes [w32 (0x4154 + s.fab.chip % 16384 * 2 ^ 16 + b2n s.parts.protLock * 2 ^ 30 + b2n m.dbgEver * 2 ^ 31), s.parts.planId] ++
  padTo 32 nonce ++ m.digests ++
  wordBytes ([w32 m.fw.floor, w32 m.cfg.floor, w32 (m.fencedCores.length + m.fencedClusters.length * 2 ^ 12)] ++
    w64 (s.islCount islMgmt) ++ [0])

def execAttest (s : State) : Out :=
  s.serve 0x0D (fun m =>
    if m.req 1 ≠ 32 then s.refuse mbBad
    else
      let r := s.attestReport m.payload
      s.respond mbOk [] (r ++ padTo 17088 (Config.identityBytes (m.digests ++ r) 17088)))

/-! ### The debug window (R461) -/

def execDebugWindow (s : State) : Out :=
  s.serve 0x0E (fun m =>
    let base := m.param 2 + bits (m.param 3) 15 0 * 2 ^ 32
    if !m.debugAllowed then s.refuse mbDenied
    else if base % 2 ^ 36 ≠ 0 then s.refuse mbBad
    else if nbit (m.param 0) 0 then
      { s with mgmt := { m with dbgEnable := true, dbgEver := true, dbgCtx := bits (m.param 1) 7 0, dbgBase := base } }.respond mbOk [] []
    else { s with mgmt := { m with dbgEnable := false } }.respond mbOk [] [])

/-- The bytes of one block through the window: those of a block that is not RESIDENT are all ones. Bytes of a lender's frame that have
not been fetched are free (log entry 42). -/
def State.windowPiece (s : State) (ctx blk off len : Nat) : List Byte :=
  match s.touch ctx blk with
  | .served _ _ => s.blockRead ctx blk off len
  | .busy _ => s.blockRead ctx blk off len
  | .peer i _ _ =>
    if s.peerHas i off len then s.blockRead ctx blk off len
    else (List.range len).map (fun k => BitVec.ofNat 8 (Config.freeValue (s.free + k)))
  | _ => List.replicate len 0xFF

/-- A read through BAR4: the bytes at the window base plus the offset. -/
def State.readWindow (s : State) (offset bytes : Nat) : State :=
  let m := s.mgmt
  let bs := (pieces (m.dbgBase + offset) bytes).flatMap (fun p => s.windowPiece m.dbgCtx p.1 p.2.1 p.2.2)
  { s with host := { s.host with readBytes := bs, readData := BitVec.ofNat 64 (leNat (bs.take 8)) } }.freeNext bytes

/-- DEBUG_WINDOW_READ: a read of BAR4. -/
def execDebugWindowRead (offset bytes : Nat) (s : State) : Out :=
  onlyIf (s.hostLive && s.mgmt.dbgEnable && decide (offset + bytes ≤ 2 ^ 36)) s (s.readWindow offset bytes)

/-- FENCE_READ: 3,072 core bits, then 192 cluster bits. -/
def execFenceRead (s : State) : Out :=
  s.serve 0x10 (fun m =>
    let mask (l : List Nat) : Nat := sumNat (l.map (fun i => 2 ^ i))
    s.respond mbOk [] (leBytes 384 (mask m.fencedCores) ++ leBytes 24 (mask m.fencedClusters)))

/-! ### The registers (Table 15.9) -/

/-- MB_DOORBELL: the request in the request area is started and DONE cleared; while BUSY the write is ignored and sets OVERRUN. A REQ
outside Table 15.10 is answered UNKNOWN_REQUEST at once. -/
def State.mbDoorbell (s : State) (v : Nat) : State :=
  let m := s.mgmt
  if m.mbBusy then { s with mgmt := { m with mbOverrun := true } }
  else
    { s with mgmt := { m with mbBusy := true, mbDone := false, mbSeq := bits v 15 0 } }.refuseUnknown

/-- MB_STATUS. -/
def Mgmt.status (m : Mgmt) : Nat :=
  b2n m.mbBusy + b2n m.mbDone * 2 + b2n m.mbOverrun * 4 + b2n m.mbRestarted * 8 + m.mbDoneSeq * 2 ^ 16
/-- MB_INFO: interface version 1 and the active slots. -/
def Mgmt.info (m : Mgmt) : Nat := 1 + b2n m.fw.activeB * 2 ^ 8 + b2n m.cfg.activeB * 2 ^ 9

end Sys2Proof.Machine
end

