-- ==== Sys2Proof/Machine/Commands.lean ====
section
/-! DEFINITION. The Command Processor: starting, pre-empting and re-running commands (R63, R70, R76 to R78, R133, R148, R157, R383), and
the commit of a finished command with its completion record (R73 to R75, R80 to R84, R267). -/
namespace Sys2Proof.Machine

/-! ### Shape words (R63) -/

/-- What reading the shape words of a command gives: its words with them, a wait, bytes of a lender that have not come, or a verdict. -/
inductive Shapes where
  | words (ws : List Word)
  | wait (entry : Nat)
  | fetch (entry chip frame off len : Nat)
  | bad (v : Verdict)

/-- The indirect words in ascending order: the first that fails or must wait decides. -/
def State.readShapes (s : State) (ctx base : Nat) : List Nat → List Word → Shapes
  | [], ws => .words ws
  | i :: r, ws =>
    let a := base + 4 * wnat ws (i + 2)
    match s.access ctx (i + 2) a 4 true with
    | .ready => s.readShapes ctx base r (listMod ws (i + 2) (fun _ => w32 (leNat (s.readCtx ctx a 4))))
    | .wait e => .wait e
    | .fetch e chip fr off len => .fetch e chip fr off len
    | .bad v => .bad v

/-- The words of a command as its start finds them. -/
def State.shapesOf (s : State) (c : Cmd) : Shapes :=
  let ws := c.words
  if !indirectOf ws then .words ws
  else if shapeBaseOf ws % 4 ≠ 0 then .bad ⟨St.invalidParameter, 14, 0⟩
  else s.readShapes c.ctx (shapeBaseOf ws) (onesOf 11 (indMaskOf ws)) ws

/-! ### The layout a command names (R148, R157) -/

/-- The word that names the layout: 4 for the layout commands, 2 for those that run on one. -/
def layoutWord (op : Nat) : Option Nat :=
  if 0x13 ≤ op ∧ op ≤ 0x16 then some 4 else if op = 0x30 ∨ op = 0x31 ∨ op = 0x42 then some 2 else none
def Cmd.layoutNum (c : Cmd) : Option Nat := (layoutWord c.op).map (fun w => fld (word c.eff w) 2 0)
def Cmd.runsOnLayout (c : Cmd) : Bool := layoutWord c.op = some 2
/-- A command that has not started may yet name any layout where the word that does so is indirect. -/
def Cmd.mayName (c : Cmd) (lnum : Nat) : Bool :=
  c.layoutNum = some lnum || (c.runsOnLayout && indirectOf c.words && nbit (indMaskOf c.words) 0)
/-- The words an opcode that names a layout defines. -/
def layoutMasks (op : Nat) : List (Nat × Nat) :=
  match op with
  | 0x13 => [(2, 0xFFFFFFFF), (3, 0xFFFF), (4, 0x3FF7)]
  | 0x14 => [(2, 0xFFFFFFFF), (3, 0xFFFF), (4, 0x3007)]
  | 0x15 => [(4, 7)]
  | 0x16 => [(4, 0x3FF7)]
  | 0x30 => [(2, 7), (3, 0xFFFFFFFF), (4, 0xFFFF), (5, 0x7FF)]
  | 0x31 => [(2, 7), (3, 0xFFFFFFFF), (4, 0xFFFF), (5, 0xFF)]
  | _ => [(2, 0xF), (3, 0xFFFFFFFF), (4, 0xFFFF), (5, 0xFFFFFFFF), (6, 0xFFFFFFFF), (7, 0xFFFFFFFF), (8, 0xFFFF),
      (9, 0xFFFFFFFF), (10, 0xFFFF), (11, 0xFFFFFFFF), (12, 0x1FFFF)]

/-- A command that names a layout being unloaded, or a RUN that names the expert plan's, is refused (R157, R349). -/
def State.layoutRefused (s : State) (c : Cmd) : Option Verdict :=
  match layoutWord c.op, c.layoutNum with
  | some w, some lnum =>
    let going := match s.layoutOf c.ctx lnum with
      | some l => l.unloading
      | none => false
    if going || (c.op = 0x30 && s.routedLayout c.ctx lnum) then
      verdictOf (shapeChecks c.words c.eff (reservedCheck c.eff (layoutMasks c.op) ++ [param false w]))
    else none
  | _, _ => none

/-! ### What a start waits for -/

/-- A PLACEMENT_MOVE has cleared the layout and not yet loaded it anew (R153). -/
def State.moving (s : State) (ctx lnum : Nat) : Bool :=
  (s.layoutOf ctx lnum).isNone && s.allCmds.any (fun x => x.2.2.isRunning && x.2.2.ctx = ctx && (match x.2.2.work with
    | .move k 2 _ => k = lnum
    | _ => false))

/-- Commands of one queue that name one layout start in order around a layout command (R148). -/
def State.layoutTurn (s : State) (f q : Nat) (c : Cmd) (lnum : Nat) : Bool :=
  (s.queueOf f q).window.all (fun e =>
    !(decide (e.n < c.n) && decide (e.phase = .fetched) && e.ctx = c.ctx) ||
    !((layoutWord e.op = some 4 && e.layoutNum = some lnum) ||
      ((c.op = 0x14 || c.op = 0x15 || c.op = 0x16) && e.mayName lnum)))

/-- A command that has started on the layout with the other rounding mode has not completed (R133). -/
def State.roundingHeld (s : State) (c : Cmd) (lnum : Nat) : Bool :=
  s.allCmds.any (fun x => x.2.2.runsOnLayout && x.2.2.ctx = c.ctx && x.2.2.layoutNum = some lnum &&
    decide (x.2.2.order ≠ 0) && roundTzOf x.2.2.words != roundTzOf c.words)

/-- Commands run on the layout with another pass count than the context has now: its hands carry it (R133, R191). -/
def State.passesHeld (s : State) (ctx lnum : Nat) (l : Layout) : Bool :=
  !(s.runnersOn ctx lnum).isEmpty &&
  l.cores.any (fun k => (s.coreOf k).hands.any (fun h => match h.2 with
    | some x => x.ctx = ctx && x.layout = lnum && x.deal = l.deal && x.passes ≠ (s.ctxOf ctx).curPasses
    | none => false))

/-- A replacement of the layout that started before the command has not published the new deal number (R155). -/
def State.replaceHeld (s : State) (c : Cmd) (lnum : Nat) (l : Layout) : Bool :=
  s.allCmds.any (fun x => x.2.2.isRunning && x.2.2.op = 0x14 && x.2.2.ctx = c.ctx && x.2.2.layoutNum = some lnum &&
    (c.order = 0 || decide (x.2.2.order < c.order))) &&
  !(decide (l.published = l.deal) && (l.phase = .cutting || l.phase = .cutDone))

/-- The layout a command names is not ready for it. -/
def State.layoutHeld (s : State) (f q : Nat) (c : Cmd) : Bool :=
  match c.layoutNum with
  | none => false
  | some lnum =>
    !s.layoutTurn f q c lnum || s.roundingHeld c lnum || s.moving c.ctx lnum ||
    (c.runsOnLayout && (match s.layoutOf c.ctx lnum with
      | none => false
      | some l => l.phase = .loading || l.phase = .acked || !l.redealDue.isEmpty || s.passesHeld c.ctx lnum l || s.replaceHeld c lnum l))

/-- A replacement's barrier holds the command (R383). -/
def State.barred (s : State) (f q : Nat) (c : Cmd) : Bool :=
  namesContext c.words && barrierHolds c.op && (match (s.ctxOf c.ctx).barrier with
    | some (bf, bq, bn) => !(f = bf && q = bq && decide (c.n ≤ bn))
    | none => false)

/-! ### Starting -/

/-- NP_ALLOW leaves room for another honoured NO_PREEMPT in the partition (R78, R430). -/
def State.honours (s : State) (f : Nat) (c : Cmd) : Bool :=
  noPreemptOf c.words &&
  decide ((s.allCmds.filter (fun x => x.1 = f && x.2.2.isRunning && x.2.2.np)).length < s.pfld f 14 29 24)

/-- Rounding mode and pass count go into every hand of the layout's deal, those still on configuration ports included (R133). -/
def State.writeHands (s : State) (ctx lnum passes : Nat) (tz : Bool) : State :=
  match s.layoutOf ctx lnum with
  | none => s
  | some l =>
    let put (h : Hand) : Hand := if h.ctx = ctx ∧ h.layout = lnum ∧ h.deal = l.deal then { h with passes := passes, roundTz := tz } else h
    s.modCores l.cores (fun k => { k with
      hands := tmap none k.hands (fun _ o => o.map put),
      cfg := k.cfg.map (fun i => match i with
        | .handWrite slot h => .handWrite slot (put h)
        | x => x) })

/-- The command runs: its shape words are in, its start order is given once, a NO_PREEMPT that is not honoured is counted once for the
command (R78), a CANCEL takes its targets (R68), and the hands of its layout are written. -/
def State.beginCmd (s : State) (f q : Nat) (c : Cmd) : State :=
  let first : Bool := c.order = 0
  let x := s.ctxOf c.ctx
  let np := s.honours f c
  let low := (c.op = 0x30 || c.op = 0x42) && decide (x.curPasses < x.passes)
  let s1 := s.modCmd f q c.n (fun y => { y with
    eff := c.eff, phase := .running, runs := min 15 (y.runs + 1), order := if first then s.cp.starts + 1 else y.order, np := np,
    reduced := low, begun := false, behind := none })
  let s2 := if first then { s1 with cp := { s1.cp with starts := s1.cp.starts + 1 } } else s1
  let s3 := if noPreemptOf c.words && !np && !c.denied then
      (s2.modFn f (fun g => { g with preemptDenied := satAdd 16 g.preemptDenied 1 })).modCmd f q c.n (fun y => { y with denied := true })
    else s2
  let s3 := if c.op = 0x01 then s3.setWork f q c.n (.cancelOf (s.cancelTargets f q c.n c.eff) false) else s3
  match c.layoutNum with
  | none => s3
  | some lnum =>
    if c.op = 0x15 then
      (s3.modLayout c.ctx lnum (fun l => { l with unloading := true })).setWork f q c.n (.layout lnum 0)
    else if c.runsOnLayout then s3.writeHands c.ctx lnum x.curPasses (roundTzOf c.words)
    else s3

/-- The slots a command would load if no other command held any on its layout: those of its own work in such a state. -/
def State.trialSlots (s : State) (f q : Nat) (c : Cmd) (lnum : Nat) : List (Nat × Slot) :=
  let s1 := { s with slots := s.slots.filter (fun p => match p.2 with
    | some v => !(v.ctx = c.ctx && v.layout = lnum)
    | none => false) }
  let s2 := s1.modCmd f q c.n (fun y => { y with eff := c.eff, phase := .running, order := s.cp.starts + 1 })
  let out := if c.op = 0x30 then execRun f q c.n [] s2 else if c.op = 0x31 then execStreamLoad f q c.n [] s2 else execStepCmd f q c.n [] s2
  match out with
  | .next t => t.cmdSlots f q c.n
  | _ => []

/-- Clusters whose declared descriptors do not suffice for what a command needs beside what the layout uses now. -/
def State.shortClusters (s : State) (ctx lnum : Nat) (l : Layout) (needs : List (Nat × Slot)) : List Nat :=
  ((needs.map (fun p => p.1 / 64)).eraseDups).filter (fun cl =>
    decide (l.descRoom cl < s.slotsUsed ctx lnum cl + (needs.filter (fun p => p.1 / 64 = cl)).length))

/-- The running commands with a less urgent deadline class that hold what the command needs: a station's binding, or descriptor slots of a
cluster that is short of them (R76 case 1). -/
def State.rivals (s : State) (ctx lnum : Nat) (short : List Nat) (needs : List (Nat × Slot)) : List (Nat × Nat × Nat) :=
  let mine := s.usedSlots.filter (fun p => p.2.ctx = ctx && p.2.layout = lnum)
  let hold := mine.filter (fun p => needs.any (fun w => decide (w.2.deadline < p.2.deadline) &&
    ((w.1 / 64 = p.1 / 64 && short.contains (p.1 / 64)) ||
     (!w.2.toCmem && !p.2.toCmem && w.2.station = p.2.station && p.2.state ≠ .waiting))))
  ((hold.map (fun p => (p.2.fn, p.2.q, p.2.n))).eraseDups).filter (fun r => match s.cmdOf r.1 r.2.1 r.2.2 with
    | some x => x.isRunning && !x.stepReady
    | none => false)

/-- A layout may be re-dealt for a waiting command: it is loaded, no replacement has begun, and no command on it is protected. -/
def State.preemptable (s : State) (ctx lnum : Nat) (l : Layout) : Bool :=
  l.phase = .loaded && l.next.isNone && (s.runnersOn ctx lnum).all (fun x => !x.2.2.np)

/-- Case 1 of R76: every command on the layout is pre-empted, the rivals in favour of the waiting one. -/
def State.preemptFor (s : State) (f q : Nat) (c : Cmd) (lnum : Nat) (rs : List (Nat × Nat × Nat)) : State :=
  let s1 := s.preemptLayout c.ctx lnum f q c.n none
  rs.foldl (fun t r => t.modCmd r.1 r.2.1 r.2.2 (fun y => { y with behind := some (f, q, c.n) })) s1

/-- A command whose words and layout are ready starts, pre-empts for its bindings, or waits for descriptor slots. `may`: it may pre-empt. -/
def State.claimAndBegin (s : State) (f q : Nat) (c : Cmd) (may : Bool) : State :=
  match c.runsOnLayout, c.layoutNum with
  | true, some lnum =>
    (match s.layoutOf c.ctx lnum with
    | none => s.beginCmd f q c
    | some l =>
      let needs := s.trialSlots f q c lnum
      let short := s.shortClusters c.ctx lnum l needs
      let rs := s.rivals c.ctx lnum short needs
      if may && !rs.isEmpty && s.preemptable c.ctx lnum l then s.preemptFor f q c lnum rs
      else if !short.isEmpty then s
      else s.beginCmd f q c)
  | _, _ => s.beginCmd f q c

/-- Reading the shape words of a command, then its layout's readiness, then its start. -/
def State.tryStart (s : State) (f q : Nat) (c : Cmd) (may : Bool) : State :=
  match s.shapesOf c with
  | .wait i => s.awaitBlock f q c.n i 0
  | .fetch i chip fr off len => s.fetchPeer c.ctx i chip fr off len
  | .bad v => s.endCmd f q c.n v
  | .words ws =>
    let d := { c with eff := ws }
    match s.layoutRefused d with
    | some v => s.endCmd f q c.n v
    | none => if s.layoutHeld f q d then s else s.claimAndBegin f q d may

/-- The context addresses of a command's shape words, for the count of its reads (R271). -/
def shapeReads (c : Cmd) : List (Nat × Nat) :=
  if indirectOf c.words then (onesOf 11 (indMaskOf c.words)).map (fun i => (shapeBaseOf c.words + 4 * wnat c.words (i + 2), 4)) else []

/-- The errors its shape words' reads met, then `tryStart` (R63, R284, R285). -/
def State.startAfter (s : State) (f q : Nat) (c : Cmd) (errs : List MemErr) (may : Bool) : State :=
  if !indirectOf c.words then s.tryStart f q c may
  else match s.readErrs f q c.n c.ctx errs with
    | (t, true) => (t.countReads 0 c.ctx (shapeReads c)).tryStart f q c may
    | (t, false) => t

/-- COMMAND_START. A command with DEP or INDIRECT waits for every earlier one of its queue to complete; one whose context is not live ends
with CONTEXT_GONE. -/
def execCommandStart (f q n : Nat) (errs : List MemErr) (s : State) : Out :=
  match s.cmdOf f q n with
  | none => .next s
  | some c =>
    let first := match (s.queueOf f q).window with
      | h :: _ => h.n = n
      | [] => false
    onlyIf (decide (c.phase = .fetched) && !s.cp.halted && (first || !(depOf c.words || indirectOf c.words))) s
      (if namesContext c.words && !s.ctxLive c.ctx then s.finish f q n ⟨St.contextGone, 0, 0⟩
       else if s.barred f q c then s
       else s.startAfter f q c errs true)

/-- COMMAND_RERUN. At its limit a pre-empted command ends with RETRY; one pre-empted for another command waits until that has started. -/
def execCommandRerun (f q n : Nat) (errs : List MemErr) (s : State) : Out :=
  match s.cmdOf f q n with
  | none => .next s
  | some c =>
    let lnum := c.layoutNum.getD 0
    let waits : Bool := match c.behind with
      | some (bf, bq, bn) => (match s.cmdOf bf bq bn with
        | some b => decide (b.phase = .fetched)
        | none => false)
      | none => false
    onlyIf (decide (c.phase = .preempted) && !s.cp.halted && !s.moving c.ctx lnum) s
      (if (s.queueOf f q).preemptLimit < c.preempts then
         s.endCmd f q n ⟨if c.moved then St.moved else St.preempted, 0, 0⟩
       else if waits then s
       else s.startAfter f q c errs false)

/-! ### The table updates of each opcode at its commit (R73) -/

/-- The blocks of a command are no part of its context's pool when it takes effect (R291). -/
def State.poolHit (s : State) (c : Cmd) : Bool := s.inPool c.ctx (bwFirst c.eff * blockBytes) (bwCount c.eff * blockBytes)

/-- Entries of a mapping command appear. -/
def State.commitMap (s : State) (f q : Nat) (c : Cmd) : Commit :=
  if s.poolHit c || c.maps.any (fun m => s.isMapped c.ctx m.1) then .fail ⟨St.invalidParameter, 2, 0⟩
  else match s.writeMaps c with
    | some t => .ok (t.keepMaps f q c.n) c.maps.length 0
    | none => .fail ⟨St.tableFull, 3, 0⟩

/-- The entries of a range's blocks, with each block. -/
def State.rangeEntries (s : State) (ctx first count : Nat) : List (Nat × Nat) :=
  s.tiers.bm.filterMap (fun p => if p.2.state ≠ 0 ∧ p.2.ctx = ctx ∧ first ≤ p.2.block ∧ p.2.block < first + count then
    some (p.1, p.2.block) else none)

def State.commitUnmap (s : State) (c : Cmd) : Commit :=
  let es := s.rangeEntries c.ctx (bwFirst c.eff) (bwCount c.eff)
  if s.poolHit c then .fail ⟨St.invalidParameter, 2, 0⟩
  else .ok (es.foldl (fun t e => t.unmapEntry e.1) s) es.length 0

/-- A block's HINT is written, and a background migration against it is abandoned (R272). -/
def State.setHint (s : State) (i hint : Nat) : State :=
  let s1 := s.bmMod i (fun x => { x with hint := hint })
  match s.migOf i with
  | some m => if m.kind = 0 ∧ ((m.tier = 0 ∧ hint = 2) ∨ (m.tier = 1 ∧ hint = 1)) then s1.abandonMig i else s1
  | none => s1

/-- TIER_HINT writes the hints and begins the moves, or fails where a move into bulk finds no frame (R275); a block on its way is waited
for and an INVALID one fails the commit (Table 8.2). -/
def State.commitHints (s : State) (f q : Nat) (c : Cmd) (mode hint : Nat) : Commit :=
  let es := s.rangeEntries c.ctx (bwFirst c.eff) (bwCount c.eff)
  if s.poolHit c then .fail ⟨St.invalidParameter, 2, 0⟩
  else match es.findSome? (fun e => if (s.bmOf e.1).state = 4 then some (invalidVerdict (s.bmOf e.1).recalled (e.2 * blockBytes)) else none) with
  | some v => .fail v
  | none =>
    match es.find? (fun e => (s.bmOf e.1).state = 2 || (s.bmOf e.1).state = 3) with
    | some e => .wait (s.awaitBlock f q c.n e.1 0)
    | none =>
      let s1 := es.foldl (fun t e => t.setHint e.1 hint) s
      let moved := if mode = 0 then some s1
        else es.foldl (fun (a : Option State) e => a.bind (fun t => t.beginMove c.ctx e.1 (mode - 1))) (some s1)
      match moved with
      | some t => .ok t c.resA.toNat 0
      | none => .fail ⟨St.quotaExceeded, 1, 0⟩

def State.commitQuota (s : State) (c : Cmd) (tier blocks : Nat) : Commit :=
  let a := s.quotaOf c.ctx tier
  let b := s.usageOf c.ctx tier
  let s1 := s.modCtx c.ctx (fun x => { x with quota := tset none x.quota tier (some blocks) })
  .ok (if tier = 0 then s1.queueDemotions c.ctx else s1) a b

/-- A replacement's barrier falls (R382 order 6). -/
def State.dropBarrier (s : State) (f q : Nat) (c : Cmd) : State :=
  s.modCtx c.ctx (fun x => if x.barrier = some (f, q, c.n) then { x with barrier := none } else x)

/-- A base loaded or replaced is noted (R379). -/
def State.commitLoad (s : State) (c : Cmd) : State :=
  match c.work with
  | .load name 0 _ _ _ _ => s.noteBase c.ctx name
  | _ => s

/-- The context whose number CONTEXT_CREATE chose becomes live. -/
def State.commitCreate (s : State) (f : Nat) (c : Cmd) : Commit :=
  match c.work with
  | .ctx k => .ok (s.modCtx k (fun _ => newContext f c.eff)) k 0
  | _ => .ok s c.resA.toNat c.resB.toNat

/-- The atomic step of a command, by opcode, but for its shadow blocks. -/
def State.commitTables (s : State) (f q : Nat) (c : Cmd) : Commit :=
  let same (t : State) : Commit := .ok t c.resA.toNat c.resB.toNat
  match c.op, c.work with
  | 0x03, .plan ws => same { s with parts := { s.parts with accepted := some ws } }
  | 0x10, _ => s.commitCreate f c
  | 0x12, _ => same (s.modCtx c.ctx (configContext c.eff))
  | 0x13, .layout k _ => same (s.modLayout c.ctx k (fun l => { l with phase := .loaded }))
  | 0x14, .layout k _ => same (s.modLayout c.ctx k (fun l => { l with phase := .loaded }))
  | 0x15, .layout k _ => same (s.setLayout c.ctx k none)
  | 0x16, .move k _ _ => same (s.modLayout c.ctx k (fun l => { l with phase := .loaded }))
  | 0x20, _ => s.commitMap f q c
  | 0x21, _ => s.commitUnmap c
  | 0x24, .hints _ _ mode hint => s.commitHints f q c mode hint
  | 0x25, .quota tier blocks => s.commitQuota c tier blocks
  | 0x26, _ => s.commitMap f q c
  | 0x32, _ => let (t, k) := s.resumeHalt c.ctx (fld (word c.eff 2) 15 0); .ok t k 0
  | 0x40, _ => s.commitOpen f c
  | 0x41, _ => s.commitClose c
  | 0x42, _ => s.commitStep f q c
  | 0x43, _ => s.commitPause c
  | 0x44, _ => s.commitResume c
  | 0x45, _ => s.commitCancel c
  | 0x50, _ => s.commitLookup c
  | 0x51, _ => s.commitPark c
  | 0x52, _ => s.commitUnpark f q c
  | 0x53, _ => s.commitRelease c
  | 0x54, _ => s.commitTtl f q c
  | 0x60, _ => s.commitObject c
  | 0x61, _ => same (s.commitLoad c)
  | 0x62, _ => s.commitBroadcast c
  | 0x63, _ => same ((s.commitLoad c).dropBarrier f q c)
  | 0x64, _ => s.commitDelete f c
  | 0x65, _ => s.commitAttach c
  | 0x66, _ => s.commitDetach c
  | 0x70, _ => same (s.commitJob c)
  | 0x71, _ => same (s.commitJobClose c)
  | 0x72, .restore p lanes chip nport => same (s.commitRestore p lanes chip nport)
  | 0x82, _ => same { s with mgmt := { s.mgmt with arming := armingOf c.eff } }
  | _, _ => same s

/-! ### Shadow blocks at the commit (R267) -/

/-- What one shadowed block asks of the preparation. -/
inductive Prep where
  | go
  | wait (entry : Nat)
  | fetch (entry chip frame : Nat)
  | bad (v : Verdict)
  deriving DecidableEq

/-- A shadow that holds every unit of its block. -/
def Shadow.full (w : Shadow) : Bool := w.mask % 2 ^ 4096 = 2 ^ 4096 - 1

def State.prepShadow (s : State) (ctx : Nat) (b : Nat) (w : Shadow) : Prep :=
  match s.touch ctx b with
  | .unmapped => .go
  | .served _ _ => .go
  | .peer i chip fr => if w.full || s.peerHas i 0 blockBytes then .go else .fetch i chip fr
  | .migrating i => .wait i
  | .parked i => .wait i
  | .busy i => .wait i
  | .invalid r => .bad (invalidVerdict r (b * blockBytes))

/-- The units a shadow does not hold, with the block's committed bytes. -/
def State.fillShadow (s : State) (ctx b : Nat) (w : Shadow) : State :=
  if w.full then s
  else
    let old := s.blockRead ctx b 0 blockBytes
    let mine := cellRead s.tiers.mem (w.frame * blockBytes) blockBytes
    let new := ((List.range 4096).map (fun u => ((if nbit w.mask u then mine else old).drop (64 * u)).take 64)).flatten
    { s with tiers := { s.tiers with mem := cellWrite s.tiers.mem (w.frame * blockBytes) new } }

/-- A shadow takes its block's place. -/
def State.switchShadow (s : State) (ctx b : Nat) (w : Shadow) : State :=
  match s.touch ctx b with
  | .served i fid =>
    let s1 := (s.fillShadow ctx b w).abandonMig i
    (s1.bmChange i { s1.bmOf i with tier := w.tier, loc := locOf w.frame, code := w.code } (some fid) none).drainFrame fid
  | .peer i chip fr =>
    let s1 := s.fillShadow ctx b w
    s1.bmChange i { s1.bmOf i with tier := w.tier, loc := locOf w.frame, code := w.code, chip := 0 } none (some (chip, fr))
  | _ => s.dropFrame w.frame

/-- The shadows of a command become its blocks. -/
def State.mergeShadows (s : State) (f q : Nat) (c : Cmd) : State :=
  if c.shadows.isEmpty then s
  else
    let s1 := c.shadows.foldl (fun t p => t.switchShadow c.ctx p.1 p.2) s
    s1.modCmd f q c.n (fun x => { x with shadows := [] })

/-- Another command's commit is in preparation in the partition: commits happen one at a time (R267). -/
def State.prepHeld (s : State) (f q n : Nat) : Bool :=
  match (s.partOf f).prep with
  | some (f', q', n') => !(f' = f && q' = q && n' = n) && (match s.cmdOf f' q' n' with
    | some c => c.isFinished && decide (c.status = 0)
    | none => false)
  | none => false

/-- A preparation begins, or goes on, and waits: background migrations of its blocks are abandoned (R267). -/
def State.beginPrep (s : State) (f q : Nat) (c : Cmd) (shadows : Tbl Shadow) : State :=
  shadows.foldl (fun t p => match t.touch c.ctx p.1 with
    | .served i _ => t.abandonMig i
    | _ => t) (s.modPart f (fun p => { p with prep := some (f, q, c.n) }))

/-- The preparation of a command's commit is over: a recall that reached its blocks meanwhile takes effect. -/
def State.prepOver (s : State) (f q : Nat) (c : Cmd) : State :=
  if (s.partOf f).prep = some (f, q, c.n) then
    c.shadows.foldl (fun t p => match t.bmFind (t.ctxOf c.ctx).part c.ctx p.1 with
      | some (i, _) => t.recallLate i
      | none => t) (s.modPart f (fun p => { p with prep := none }))
  else s

/-- Preparation and atomic step of a command: both happen, or it fails, or it waits; a wait leaves the tables as they were and changes only
what it asks for. -/
def State.commitStepOf (s : State) (f q : Nat) (c : Cmd) : Commit :=
  if s.prepHeld f q c.n || (namesContext c.words && s.spanHeld f q c.n c.ctx) then .wait s
  else
    match s.commitTables f q c with
    | .fail v => .fail v
    | .wait t => .wait t
    | .prep i tier => .prep i tier
    | .ok t a b =>
      let d := (t.cmdOf f q c.n).getD c
      let ps := d.shadows.map (fun p => s.prepShadow c.ctx p.1 p.2)
      match ps.findSome? (fun p => match p with
        | .bad v => some v
        | _ => none) with
      | some v => .fail v
      | none =>
        match ps.find? (fun p => p ≠ .go) with
        | some (.wait i) => .prep i 0
        | some (.fetch i chip fr) => .wait ((s.beginPrep f q c c.shadows).fetchPeer c.ctx i chip fr 0 blockBytes)
        | _ => .ok (t.mergeShadows f q d) a b

/-! ### The completion record (R80 to R83) -/

/-- The ring has no free entry (R61). -/
def Queue.ringFull (x : Queue) : Bool := (x.cqTail + 1) % (x.cqSizeM1 + 1) = x.cqHead

/-- The eight words of a record (Table 2.16). `made`: the context a CONTEXT_CREATE created. -/
def recordWords (x : Queue) (q : Nat) (c : Cmd) (seq : Word) (count : Nat) (made : Option Nat) : List Word :=
  [w32 (tagOf c.words + c.status * 2 ^ 16), seq, c.resA, c.resB, w32 (x.sqHead + q * 2 ^ 16 + b2n x.phase * 2 ^ 31),
   w32 (made.getD (contextOf c.words) + c.runs * 2 ^ 8)] ++ w64 count

/-- An eligible record is counted; the count that reaches COAL_COUNT is signalled and cleared (R82). -/
def State.countRecord (s : State) (f q : Nat) (eligible : Bool) : State :=
  let x := s.queueOf f q
  if !eligible then s
  else if max 1 x.coalCount ≤ x.eligible + 1 then (s.modQueue f q (fun y => { y with eligible := 0 })).due f x.vector
  else s.modQueue f q (fun y => { y with eligible := y.eligible + 1 })

/-- A completion with a class other than 0 stops a queue that asks for it: what it has fetched and not committed ends (R56). -/
def State.stopOnError (s : State) (f q status : Nat) : State :=
  let x := s.queueOf f q
  if statusClass status = 0 || !x.stopOnError || x.state ≠ .running then s
  else
    let s1 := s.modQueue f q (fun y => { y with state := .stopped, stopStatus := status })
    let s2 := (x.window.filter (fun c => !c.pastCommit)).foldl (fun t c => t.cancelCmd f q c.n ⟨St.queueStopped, 0, 0⟩) s1
    s2.cause f 4

/-- The record of the oldest command is written, or dropped where its queue is being reset and the ring has no room (R57); the command
leaves the window. -/
def State.writeRecord (s : State) (f q : Nat) (c : Cmd) (made : Option Nat) : State :=
  let x := s.queueOf f q
  let out (t : State) : State := t.modQueue f q (fun y => { y with window := y.window.filter (fun d => d.n ≠ c.n) })
  if x.state = .resetting && (x.ringFull || !s.power.linkUp) then out s
  else
    let seq := (s.partOf f).commitSeq
    let rec0 := wordBytes (recordWords x q c seq (c.commitCount.getD (s.islCount islCp)) made)
    let s1 := { s with host := { s.host with mem := cellWrite s.host.mem (x.cqBase.toNat + 32 * x.cqTail) rec0 } }
    let wrap := decide (x.cqTail = x.cqSizeM1)
    let s2 := (out s1).modQueue f q (fun y => { y with
      cqTail := if wrap then 0 else y.cqTail + 1, phase := if wrap then !y.phase else y.phase, lastSeq := seq })
    let s3 := s2.modPart f (fun p => { p with commitSeq := p.commitSeq + 1 })
    (s3.countRecord f q (intOf c.words || (decide (statusClass c.status ≠ 0) && x.intOnError))).stopOnError f q c.status

/-- A command that ends without commit: it gives back what it still holds, its context is torn down where its status says so, and its
record is written (R74, R84). -/
def State.completeFailed (s : State) (f q : Nat) (c : Cmd) : State :=
  let s1 := s.release f q c.n
  let v : Verdict := ⟨c.status, c.resA.toNat, c.resB.toNat⟩
  let s2 := if tearsDown c.status && !(c.keeps && c.status = St.invalidParameter) && namesContext c.words && s1.ownsCtx f c.ctx then s1.teardown c.ctx v (hitOne f q c.n) else s1
  s2.writeRecord f q c none

/-- The status of a committed command (R188, R191). -/
def Cmd.okStatus (c : Cmd) : Nat := if c.overflowed then St.okAccOverflow else if c.reduced then St.okReducedPasses else St.ok

/-- A committed command's record, and what follows it: PLAN_SUBMIT with RESET starts a device warm reset (R421). -/
def State.completeOk (s : State) (f q : Nat) (c : Cmd) (a b : Nat) : State :=
  let d := { c with status := c.okStatus, resA := w32 a, resB := w32 b }
  let s1 := s.writeRecord f q d (if c.op = 0x10 then some a else none)
  if c.op = 0x03 ∧ bit (word c.eff 4) 0 then s1.beginWarm else s1

/-- COMMAND_COMMIT: the oldest command of a queue, once it has finished and its ring has room. After a thermal trip only the records of
commands that had ended or passed their commit point are written (R478). -/
def execCommandCommit (f q : Nat) (errs : List MemErr) (s : State) : Out :=
  let x := s.queueOf f q
  match x.window with
  | [] => .next s
  | c :: _ =>
    onlyIf (c.isFinished && decide (x.state ≠ .disabled) && !(s.partOf f).resetting &&
        (x.state = .resetting || (s.power.linkUp && !x.ringFull)) && (!s.cp.halted || c.status ≠ 0 || c.pastCommit)) s
      (if c.status ≠ 0 then s.completeFailed f q c
       else
        match s.readErrs f q c.n c.ctx (if namesContext c.words then errs else []) with
        | (t, false) => t
        | (s1, true) =>
          match s1.commitStepOf f q c with
          | .wait t => t
          | .prep i tier => (s1.beginPrep f q c c.shadows).awaitBlock f q c.n i tier
          | .ok t a b => (((t.dropAhead s).prepOver f q c).completeOk f q c a b)
          | .fail v =>
            let t := (s1.prepOver f q c).endCmd f q c.n v
            match t.cmdOf f q c.n with
            | some d => t.completeFailed f q d
            | none => t)

end Sys2Proof.Machine
end

