-- ==== Sys2Proof/Machine/Showdown.lean ====
section
/-! DEFINITION. Showdowns as they run (R464 to R466): the showdown tiles of cut mode, the armed pin and counter, and the end of a
cut that does not complete. The commands and requests stand in Mgmt.lean and Mailbox.lean. -/
namespace Sys2Proof.Machine

/-- The item of an output station in the snapshot of its cluster's Stream Engine changes. -/
def State.showItem (s : State) (place : Nat) (g : Nat → Nat) : State :=
  { s with mgmt := { s.mgmt with showItems := tmod [] s.mgmt.showItems (3072 + place / 4096) (fun l => l.map (fun p =>
      if p.1 = 0x0C00 + place % 4096 then (p.1, g p.2) else p)) } }

/-- A tile reaches an output station during a cut: counted in flight until the station's showdown tile, which closes it. -/
def State.showArrive (s : State) (ctx lnum stn : Nat) (t : Tile) : State :=
  if !s.mgmt.cutOpen then s
  else
    match s.mgmt.showStations.find? (fun p => p.1 = ctx && p.2.1 = lnum && p.2.2.1 = stn && !p.2.2.2.2) with
    | none => s
    | some p =>
      let place := p.2.2.2.1
      if t.kind = 3 then
        (({ s with mgmt := { s.mgmt with showStations := s.mgmt.showStations.map (fun q =>
            if q = p then (p.1, p.2.1, p.2.2.1, place, true) else q) } }).showItem place (fun v => setBits v 24 24 1)).showCheck
      else s.showItem place (fun v => setBits v 23 8 (bits v 23 8 + 1))

/-- The showdown tiles a latch sends: one on each route of the core's hands that take tiles, to every neighbour output (R466). A tile on a route from
an input keeps the HAND that takes it there, as one passing through does (R92). -/
def State.latchTiles (s : State) (core : Nat) : List (Tile × Dest) :=
  let hs := (List.range 4).filterMap (fun i => ((tget none (s.coreOf core).hands i).filter (fun h => !h.waiting)).map (fun h => (i, h)))
  hs.flatMap (fun (i, h) => h.img.routes.flatMap (fun r => (r.dests.filter (fun d => decide (d.target ≤ 3))).map (fun d =>
    (showTile h.ctx (if r.source ≤ 3 then i else (d.destHand + h.base i) % 4) h.deal s.mgmt.showNum, d))))

/-- Every neighbour output has room for the showdown tiles that are to go out on it. -/
def State.latchRoom (s : State) (core : Nat) : Bool :=
  let ts := s.latchTiles core
  ts.all (fun p => s.outRoom core (min 4 (ts.filter (fun x => x.2.target = p.2.target && x.2.channel = p.2.channel)).length) p.2.target p.2.channel)

/-- A core that holds hands latches: its items, its cluster's counter, and a showdown tile on each route of its hands (R466). -/
def State.latchCore (s : State) (core : Nat) : State :=
  let s1 := s.modCore core (fun c => { c with snapLatched := true })
  let s2 := { s1 with mgmt := { s1.mgmt with
    showItems := tset [] s1.mgmt.showItems core (coreItems (s.coreOf core)),
    showCounts := tset 0 s1.mgmt.showCounts core (s1.islOf (clusterOf core)).count } }
  (s.latchTiles core).foldl (fun u p => u.sendOut core p.1 p.2.target p.2.channel) s2

/-- A showdown tile closes its input's count. -/
def State.markSeen (s : State) (core input : Nat) : State :=
  s.modCore core (fun k => { k with snapIn := tmod (0, 0, 0, false) k.snapIn input (fun (n, a, b, _) => (n, a, b, true)) })

/-- SHOWDOWN_TILE_ARRIVE: the showdown tile at the head of an input. The core's first one of a running cut latches the core, which sends one on each
of its routes; any other is routed as a data tile is, and enters no engine (R103, R466). One without a route is counted and changes nothing else,
since a showdown tile changes no result (log entry 64). -/
def execShowdownTileArrive (core port channel : Nat) (s : State) : Out :=
  match s.inputHead core port channel with
  | none => .next s
  | some (t, o) =>
    let input := port * 4 + channel
    if t.kind ≠ 3 ∨ (s.coreOf core).heldIn.contains input ∨ s.handWaits core t then .next s
    else
      let now := s.mgmt.cutOpen && decide (t.tag = s.mgmt.showNum % 1024)
      let seen (u : State) : State := if now then (u.markSeen core input).showCheck else u
      let s1 := s.takeInput core port channel t o
      if now ∧ !(s.coreOf core).snapLatched ∧ (s.coreOf core).hands.any (fun h => h.2.isSome) then
        onlyIf (s.latchRoom core) s (seen (s1.latchCore core))
      else match s.arriveRoute core port channel t with
        | none => .next (seen (s1.modCore core (fun k => { k with unrouted := k.unrouted + 1 })))
        | some (_, r, _) =>
          onlyIf ((r.dests.filter (fun d => d.target ≤ 3)).all (s.destRoom core t) && s.hasTurn core input r) s
            (seen ((r.dests.filter (fun d => d.target ≤ 3)).foldl (fun u d => u.sendOut core t d.target d.channel)
              (s1.modCore core (fun k => k.grant input r))))

/-- SHOWDOWN_CUT_TIMEOUT: 1 ms after the trigger the cut is not complete; the snapshot is marked incomplete. -/
def execShowdownCutTimeout (s : State) : Out :=
  onlyIf s.mgmt.cutOpen s { s with mgmt := { s.mgmt with showIncomplete := true } }.showRecord

/-- An arming fires once (R464). -/
def State.fire (s : State) (a : Arming) : State := { s with mgmt := { s.mgmt with arming := none } }.trigger a.cut a.drive

/-- SHOWDOWN_PIN: a falling edge on SHOWDOWN_N, which triggers where the pin is armed. -/
def execShowdownPin (s : State) : Out :=
  match s.mgmt.arming with
  | some a => onlyIf a.pin s (s.fire a)
  | none => .next s

/-- SHOWDOWN_COUNT_MATCH: the counter of the armed island has reached or passed the armed value. -/
def execShowdownCountMatch (s : State) : Out :=
  match s.mgmt.arming with
  | some a =>
    (match a.count with
     | some (i, v) => onlyIf (decide (v.toNat ≤ s.islCount i)) s (s.fire a)
     | none => .next s)
  | none => .next s

end Sys2Proof.Machine
end

