-- ==== Sys2Proof/Machine/Engines.lean ====
section
/-! DEFINITION. Stream Engines (R221, R224, R240, R241): what each kind of stream does with its next tile, the choice among a
cluster's streams, data that return, and tiles that reach output stations. -/
namespace Sys2Proof.Machine

/-! ### Slots by key -/

def State.setKey (s : State) (key : Nat) (v : Slot) : State := { s with slots := tset none s.slots key (some v) }

/-- The slot after a position; with its descriptor exhausted the stream has nothing left to request. -/
def Slot.exhausted (v : Slot) : Bool :=
  if dIndexed v.desc ∧ dMode v.desc = 0 then decide (v.outRows ≤ v.posEntry) else decide (v.count ≤ v.posEntry)
def Slot.moveTo (v : Slot) (pos : Nat × Nat × Nat) : Slot := { v with posEntry := pos.1, posRepeat := pos.2.1, posTile := pos.2.2 }
def Slot.endIf (v : Slot) (b : Bool) : Slot := if b then { v with state := .ended } else v

/-- A stream has nothing left to request. -/
def State.closeStream (s : State) (key : Nat) (v : Slot) : State := (s.setKey key { v with state := .ended }).endIfDone key

/-- A tile has been requested. -/
def Slot.request (v : Slot) (t : Tile) (a : List (Nat × Nat)) : Slot :=
  { v with inflight := v.inflight ++ [(t, a)], marks := v.marks ++ [v.pos] }

/-- A request that was not served: the stream halts, the context faults, or a lender is asked once. -/
def State.unserved (s : State) (key : Nat) (v : Slot) (r : Req) : Option State :=
  match r with
  | .ok => none
  | .halt cause addr => some (s.haltSlot key v cause addr)
  | .fault x => some (s.teardown v.ctx x (hitOne v.fn v.q v.n))
  | .fetch i chip fr off len =>
    if (chunksOf off len).all (fun k => s.tiers.peerGot.contains (i, k) || s.fab.reqs.any (fun q => !q.lend && q.entry = i && q.chunk = k))
    then none else some (s.fetchPeer v.ctx i chip fr off len)

/-- A malformed list entry ends its stream and marks its command (R225). -/
def State.malformedEntry (s : State) (key : Nat) (v : Slot) (st entry : Nat) : State :=
  (s.modCmd v.fn v.q v.n (fun c => { c with malformed := c.malformed ++ [(st, v.bind, entry)] })).closeStream key v

/-- The station index a slot names in overflows. -/
def Slot.stn (v : Slot) : Nat := if v.toCmem then 0x3FF else v.station % 1024

def State.overflowAt (s : State) (v : Slot) (code tag : Nat) : State := s.overflow v.ctx ⟨v.layout, v.stn, 0xFFFF, code, tag⟩

/-! ### Indices from a station (R239) -/

/-- The valid elements of an index tile, row by row. -/
def tileIndices (t : Tile) : List Nat :=
  (List.range (t.rowsM1 + 1)).flatMap (fun r => (List.range (t.colsM1 + 1)).map (fun c => elemCode 9 t.data (32 * r + c)))

/-- A row or page gather takes what it still needs of the first tile of its index station. -/
def State.takeIndices (s : State) (key : Nat) (v : Slot) : Option State :=
  let stn := if 1024 ≤ v.station then oldKey (wnat v.desc 4) else wnat v.desc 4
  match s.layoutOf v.ctx v.layout with
  | none => none
  | some l =>
    match tget [] l.buffers stn with
    | [] => none
    | t :: _ =>
      let at' := tget 0 l.idxPos stn
      let vals := tileIndices (if t.fmt = 9 then t else { t with data := [] })
      let new := (vals.drop at').take (v.count - v.indices.length)
      let s1 := if t.fmt = 9 ∨ at' ≠ 0 then s else s.overflow v.ctx ⟨v.layout, stn % 1024, 0xFFFF, 4, t.tag⟩
      let done := decide (vals.length ≤ at' + new.length)
      if new = [] ∧ !done then none
      else
        some ((s1.setKey key { v with indices := v.indices ++ new }).modLayout v.ctx v.layout (fun y => { y with
          buffers := if done then tmod [] y.buffers stn (fun b => b.drop 1) else y.buffers,
          idxPos := tset 0 y.idxPos stn (if done then 0 else at' + new.length) }))

/-! ### Input streams -/

/-- The next request of a descriptor's input stream. -/
def State.stepDesc (s : State) (key : Nat) (v : Slot) : Option State :=
  match s.nextTile key v with
  | .tile t rs codes ind pos =>
    let w := (v.request t (s.readFrames v rs)).moveTo pos
    let s1 := (s.setKey key (w.endIf w.exhausted)).countReads (regionOfCluster (keyCluster key)) v.ctx rs
    some ((codes.foldl (fun u c => u.overflowAt v c t.tag) s1).indicate v.ctx v.layout (some (v.fn, v.q, v.n)) ind)
  | .skip codes pos =>
    let w := v.moveTo pos
    some (((codes.foldl (fun u c => u.overflowAt v c 0) s).setKey key (w.endIf w.exhausted)).endIfDone key)
  | .malformed st entry => some (s.malformedEntry key v st entry)
  | .req r => s.unserved key v r
  | .starve => s.takeIndices key v
  | .finished => some (s.closeStream key v)

/-- The step of a slot's command. -/
def State.slotStep (s : State) (v : Slot) : Option StepRun := s.stepOf v.fn v.q v.n

/-- The page bytes at an address with the step's own appended rows over them (R297). -/
def State.ownPage (s : State) (v : Slot) (a : Nat) (bs : List Byte) : List Byte :=
  match (s.ctxOf v.ctx).geom, s.slotStep v with
  | some g, some st =>
    let size := g.slotBlocks * 8 * 32768
    let rel := a - g.slotBase
    let slot := rel / size
    let j := rel % size / 32768
    let mine := st.entries.filter (fun e => !e.tree && decide (e.toks ≠ []) && decide (e.tailSlot = some slot))
    let ks := mine.flatMap (fun e =>
      (e.kv.filter (fun k => k.page = j && decide ((e.startLen + k.row) / 64 = e.startLen / 64))).flatMap (fun k =>
        g.pokes { k with row := (e.startLen + k.row) % 64 }))
    overPokes bs (rel % 32768) ks
  | _, _ => bs

/-- The next request of a stream the step or the router built. -/
def State.stepBuilt (s : State) (key : Nat) (v : Slot) : Option State :=
  match v.src with
  | .tiles [] => some (s.closeStream key v)
  | .tiles (t :: rest) => some (s.setKey key ({ (v.request t []) with src := .tiles rest }.endIf rest.isEmpty))
  | .pages [] => some (s.closeStream key v)
  | .pages ((addr, fmt, count) :: rest) =>
    let a := addr + v.posTile * tileBytes fmt
    let rs := [(a, tileBytes fmt)]
    (match s.reqRanges v.ctx rs with
     | .ok =>
       let bs := s.ownPage v a ((s.ctxRanges v rs).headD [])
       let w := v.request { fmt := fmt, rowsM1 := 31, colsM1 := 31, data := bs } (s.readFrames v rs)
       let last := decide (count ≤ v.posTile + 1)
       let x : Slot := if last then { w with src := .pages rest, posEntry := v.posEntry + 1, posTile := 0 }
         else { w with posTile := v.posTile + 1 }
       some ((s.setKey key (x.endIf (last && rest.isEmpty))).countReads (regionOfCluster (keyCluster key)) v.ctx rs)
     | r => s.unserved key v r)
  | _ =>
    match s.routerShape v with
    | none => none
    | some sh =>
      if sh.rows ≤ 32 * v.posEntry then some (s.closeStream key v)
      else
        (s.routerFeed v).map (fun t =>
          let (pos, last) := sh.after v.posEntry v.posTile
          s.setKey key (((v.request t []).moveTo pos).endIf last))

/-! ### Output streams -/

/-- The head tile of an output station's buffer has been taken by its stream. -/
def State.deliverOut (s : State) (key : Nat) (pos : Nat × Nat × Nat) (src : StreamSrc) (last : Bool) : State :=
  match tget none s.slots key with
  | none => s
  | some v =>
    let s1 := s.modLayout v.ctx v.layout (fun y => { y with buffers := tmod [] y.buffers v.station (fun b => b.drop 1) })
    let w := { ((v.moved (s.islCount (keyCluster key))).moveTo pos) with src := src }
    ((s1.setKey key (w.endIf last)).remark key).endIfDone key

/-- An output tile goes to its block-list entry (R162, R227, R230). -/
def State.stepWrite (s : State) (key : Nat) (v : Slot) (t : Tile) : Option State :=
  match s.blockEntry v with
  | .inr (.malformed st entry) => some (s.malformedEntry key v st entry)
  | .inr (.req r) => s.unserved key v r
  | .inr _ => some (s.closeStream key v)
  | .inl e =>
    let d := v.desc
    let cl := keyCluster key
    let (tr, tc) := e.tileAt d v.posTile
    let rs := e.ranges d tr tc
    let pos := e.after d v.pos
    let fin (u : State) : State := u.deliverOut key pos v.src (v.moveTo pos).exhausted
    if e.layout = 1 ∧ fmtScaled (dFmt d) ∧ dScale d = 0 then some (fin (s.overflowAt v 4 t.tag))
    else if e.cmem then
      match s.layoutOf v.ctx v.layout with
      | none => some (fin s)
      | some l =>
        if rs.any (fun r => decide (l.cmemRoom (l.imgOf v) cl < r.1 + r.2)) then some (fin (s.overflowAt v 2 t.tag))
        else
          let base := cmemBase v.ctx v.layout cl + l.bufBytes (l.imgOf v) cl 1024
          let ws := e.writes d tr tc t (fun a => cellGet s.cmem (base + a))
          some (fin { s with cmem := ws.foldl (fun m p => cellWrite m (base + p.1) p.2) s.cmem })
    else
      match s.reqRanges v.ctx rs with
      | .ok =>
        let ws := e.writes d tr tc t (fun a => (s.readOwn v.ctx (s.slotShadows v) a 1).headD 0)
        (match ws.foldl (fun (o : Option State) p => o.bind (fun u => u.writeCtx v.fn v.q v.n v.ctx p.1 p.2 (some e.layout))) (some s) with
         | some u => some (fin u)
         | none => some (s.endCmd v.fn v.q v.n ⟨St.quotaExceeded, 1, 0⟩))
      | r => s.unserved key v r

/-- The step of a slot's command changes. -/
def State.modStep (s : State) (v : Slot) (g : StepRun → StepRun) : State :=
  match s.slotStep v with
  | some st => s.setStep v.fn v.q v.n (g st)
  | none => s

/-- Codes of a row of a tile. -/
def Tile.rowOf (t : Tile) (i n : Nat) : List Nat := (List.range n).map (fun k => elemCode t.fmt t.data (32 * i + k))

/-- The rows of an entry number `row` of the step belong to: changed by their index within it. -/
def StepRun.putRow (st : StepRun) (row : Nat) (g : StepEntry → Nat → StepEntry) : StepRun :=
  { st with entries := st.entries.map (fun e =>
      if e.firstRow ≤ row ∧ row < e.firstRow + e.toks.length then g e (row - e.firstRow) else e) }

/-- The rows of a completed append item, quantised (R297, R298). -/
def StepRun.itemRows (st : StepRun) (g : KvGeom) (it : KvItem) : List KvAppend :=
  st.kvRows.zipIdx.map (fun (vs, r) =>
    let (scales, codes) := g.quantise vs
    { page := it.page, isV := it.isV, row := it.first + r, codes := codes, scales := scales })

/-- They are kept with their entry. -/
def StepRun.keepItem (st : StepRun) (g : KvGeom) (it : KvItem) : StepRun :=
  { st with
    kvRows := [],
    entries := st.entries.zipIdx.map (fun (e, i) =>
      if i = it.entry ∧ e.outcome = 0 then { e with kv := e.kv ++ st.itemRows g it } else e) }

/-- Where they lie until the commit: a tree's rows in the slot of its candidate record, at the position of their node (R309); rows that join the
tail found partly filled, whatever its REFS, in shadows of its slot (R303): none where no frame can be had. -/
def State.placeItem (s : State) (v : Slot) (g : KvGeom) (st : StepRun) (it : KvItem) : Option State :=
  match st.entries[it.entry]? with
  | none => some s
  | some e =>
    if e.outcome ≠ 0 then some s
    else if e.tree then
      let r := s.recOf v.ctx e.candRec
      some (if r.held then (st.itemRows g it).foldl (fun t a => t.pokePage v.ctx g r.slot a.page (g.pokes a)) s else s)
    else match e.tailSlot with
      | some k => if (e.startLen + it.first) / 64 = e.startLen / 64 then
          (s.withShadow v.fn v.q v.n v.ctx (g.slotBlock k + it.page / 8)).map (fun p => p.2) else some s
      | none => some s

/-- A tile of appended keys or values. -/
def State.stepKvOut (s : State) (key : Nat) (v : Slot) (t : Tile) : Option State :=
  match (s.ctxOf v.ctx).geom, s.slotStep v with
  | some g, some st =>
    let items := s.kvItems v.ctx g st.entries
    (match items[v.posEntry]? with
     | none => some (s.closeStream key v)
     | some it =>
       let cols := g.hpp * g.dim / 32
       let tr := v.posTile / cols
       let rows := (List.range (min 32 (it.rows - 32 * tr))).foldl (fun (l : List (List Nat)) i =>
         let codes := (t.rowOf i 32).map (entryLane t.fmt)
         if 32 * tr + i < l.length then listMod l (32 * tr + i) (fun r => r ++ codes) else l ++ [codes]) st.kvRows
       let st1 := { st with kvRows := rows }
       if v.posTile + 1 < ceilDiv it.rows 32 * cols then
         some ((s.setStep v.fn v.q v.n st1).deliverOut key (v.posEntry, 0, v.posTile + 1) v.src false)
       else
         match s.placeItem v g st1 it with
         | none => some (s.endCmd v.fn v.q v.n ⟨St.quotaExceeded, 1, 0⟩)
         | some u => some ((u.setStep v.fn v.q v.n (st1.keepItem g it)).deliverOut key (v.posEntry + 1, 0, 0) v.src
             (decide (items.length ≤ v.posEntry + 1))))
  | _, _ => some (s.closeStream key v)

/-- A tile of CHOICE: column 0 of each row (R331). -/
def StepRun.takeChoice (st : StepRun) (k : Nat) (t : Tile) : StepRun :=
  (List.range 32).foldl (fun x i => x.putRow (32 * k + i) (fun e r =>
    { e with choice := tset 0 e.choice r ((t.rowOf i 1).headD 0) })) st

/-- A tile of CAND: the candidates of its rows, column tile by column tile. -/
def StepRun.takeCand (st : StepRun) (k : Nat) (t : Tile) : StepRun :=
  let n := 8 * st.heads
  let nc := max 1 (ceilDiv n 32)
  (List.range 32).foldl (fun x i => x.putRow (32 * (k / nc) + i) (fun e r =>
    { e with cands := tmod [] e.cands r (fun l => l ++ t.rowOf i (min 32 (n - 32 * (k % nc)))) })) st

/-- An output stream takes the tile at the head of its station's buffer. -/
def State.stepOut (s : State) (key : Nat) (v : Slot) (t : Tile) : Option State :=
  let next : Nat × Nat × Nat := (v.posEntry, 0, v.posTile + 1)
  match v.src with
  | .descriptor => s.stepWrite key v t
  | .kvOut => s.stepKvOut key v t
  | .choice left => some ((s.modStep v (fun st => st.takeChoice v.posTile t)).deliverOut key next (.choice (left - 1)) (decide (left ≤ 1)))
  | .cand left => some ((s.modStep v (fun st => st.takeCand v.posTile t)).deliverOut key next (.cand (left - 1)) (decide (left ≤ 1)))
  | _ =>
    match s.routerShape v with
    | none => none
    | some sh =>
      if sh.rows ≤ 32 * v.posEntry then some (s.closeStream key v)
      else
        let (pos, last) := sh.after v.posEntry v.posTile
        some ((s.routerTake v t).deliverOut key pos v.src last)

/-! ### The choice (R240, R241) -/

/-- What the stream of a slot can do now: none where it can do nothing. -/
def State.streamStep (s : State) (key : Nat) (v : Slot) : Option State :=
  if v.state ≠ .running then none
  else if v.isOut then
    match s.layoutOf v.ctx v.layout with
    | none => none
    | some l =>
      match tget [] l.buffers v.station with
      | t :: _ => s.stepOut key v t
      | [] =>
        match v.src with
        | .descriptor => if v.count ≤ v.posEntry then some (s.closeStream key v) else none
        | .kvOut => none
        | .choice _ => none
        | .cand _ => none
        | _ => (match s.routerShape v with
          | some sh => if sh.rows ≤ 32 * v.posEntry then some (s.closeStream key v) else none
          | none => none)
  else if (if v.toCmem then v.inflight = [] else s.bufTiles v + v.inflight.length < s.bufCap v) then
    (if v.src = .descriptor then s.stepDesc key v else s.stepBuilt key v)
  else none

/-- The slack of a stream (R240). -/
def State.slack (s : State) (key : Nat) (v : Slot) : Nat :=
  let n := s.bufTiles v
  let cover := if v.isOut then s.bufCap v - n else n + v.inflight.length
  let now := s.islCount (keyCluster key)
  let rate := max (v.moves.filter (fun m => now < m + 1024)).length 1
  min (cover * 1024 / rate) 0xFFFFF + 512 * v.deadline

/-- Stream a comes before stream b: trump first, then lowest slack, then lowest slot. -/
def State.before (s : State) (a b : Nat × Slot) : Bool :=
  if a.2.trump ≠ b.2.trump then a.2.trump
  else
    let x := s.slack a.1 a.2
    let y := s.slack b.1 b.2
    decide (x < y) || (decide (x = y) && decide (a.1 < b.1))

/-- The first of a list of streams. -/
def State.chooseStream (s : State) : List (Nat × Slot) → Option (Nat × Slot)
  | [] => none
  | p :: r => match s.chooseStream r with
    | some b => if s.before p b then some p else some b
    | none => some p

/-- STREAM_REQUEST: the engine of a cluster issues the request of the stream R240 chooses. Tiles held at the fabric ingress enter
their stations first, where there is room. -/
def execStreamRequest (cluster : Nat) (s : State) : Out :=
  let waiting := (s.ctxs.filter (fun p => p.2.job.any (fun j => !j.tilesIn.isEmpty))).map (fun p => p.1)
  let s0 := waiting.foldl (fun t c => t.takeTiles c) s
  let l := s0.usedSlots.filter (fun p => keyCluster p.1 = cluster && (s0.streamStep p.1 p.2).isSome)
  match s0.chooseStream l with
  | some p => .next ((s0.streamStep p.1 p.2).getD s0)
  | none => .next s0

/-! ### Returning data -/

/-- A read of cluster memory met an uncorrectable error: the context is torn down (R90), and one that recurs fences the cluster. -/
def State.cmemLost (s : State) (cl : Nat) (v : Slot) : State :=
  ((s.report cl 4 0 (some v.ctx) cl).teardown v.ctx ⟨St.sramUncorrectable, cl, 0⟩ (hitOne v.fn v.q v.n)).cmemFault cl

/-- What one read of a returned tile met: the state to go on with, and whether the data are good (R90, R284, R285). `piece`: which of the
tile's reads of near and bulk frames; a number beyond them is its read of cluster memory. -/
def State.returnErr (s : State) (cl : Nat) (v : Slot) (reads : List (Nat × Nat)) (err : ReadErr) (piece : Nat) : State × Bool :=
  match reads[piece]? with
  | some (addr, fid) =>
    (match err with
     | .clean => (s, true)
     | .corrected => (s.correctable (fidIsland fid) (corrClass fid) (fid % 2 ^ 24), true)
     | .uncorrectable =>
       ((s.retireFrame fid).teardown v.ctx ⟨uncStatus fid, addr % 2 ^ 32, addr / 2 ^ 32⟩ (hitOne v.fn v.q v.n), false))
  | none =>
    if v.src ≠ .descriptor ∨ dIndexed v.desc then (s, true)
    else
      match err with
      | .clean => (s, true)
      | .corrected => (s.report cl 0 0 (some v.ctx) cl, true)
      | .uncorrectable => (s.cmemLost cl v, false)

/-- A tile of a STREAM_LOAD is written to cluster memory (R232). -/
def State.intoCmem (s : State) (key : Nat) (v : Slot) (t : Tile) : State :=
  let cl := keyCluster key
  match s.layoutOf v.ctx v.layout with
  | none => s
  | some l =>
    let at' := wnat v.desc 7 + v.delivered * t.bytes
    let s1 := if l.cmemRoom (l.imgOf v) cl < at' + t.bytes then s.overflowAt v 2 t.tag
      else { s with cmem := cellWrite s.cmem (cmemBase v.ctx v.layout cl + l.bufBytes (l.imgOf v) cl 1024 + at') t.flits }
    (s1.modSlot cl (key % 64) (fun x => x.deliver)).endIfDone key

/-- STREAM_DATA_RETURN: the data of a slot's oldest request are back, and its tile enters the station's buffer or cluster
memory. -/
def execStreamDataReturn (cluster slot : Nat) (err : ReadErr) (piece : Nat) (s : State) : Out :=
  match s.slotOf cluster slot with
  | none => .next s
  | some v =>
    match v.inflight with
    | [] => .next s
    | (t, a) :: rest =>
      let key := cluster * 64 + slot
      let (s1, good) := s.returnErr cluster v a err piece
      if !good then .next s1
      else
        let s2 := s1.modSlot cluster slot (fun x => { x with inflight := rest })
        .next (match s2.slotOf cluster slot with
          | none => s2
          | some w =>
            if w.toCmem then s2.intoCmem key w t
            else ((s2.modLayout w.ctx w.layout (fun y => { y with buffers := tmod [] y.buffers w.station (fun b => b ++ [{ t with own := some (w.fn, w.q, w.n) }]) })).remark
              key).endIfDone key)

/-! ### Output stations (R155, R224, R409) -/

/-- A cut reaches an output station: what no binding has taken is stale, and what comes behind it goes to the new layout's station
there. -/
def State.cutStation (s : State) (ctx lnum key : Nat) (l : Layout) (rest : List Tile) : State :=
  let left := ((tget [] l.buffers key).filter (fun t => t.kind < 2)).length
  let s1 := (s.setLayout ctx lnum (some { l with
    buffers := tset [] l.buffers key [],
    idxPos := tset 0 l.idxPos key 0,
    arrivals := tset [] l.arrivals key [],
    cutStations := l.cutStations.erase key })).modCtx ctx (fun c => { c with stale := c.stale + left })
  match l.stationOf key with
  | none => s1
  | some st =>
    match s1.findStation (stationCore l st) st.port st.channel true with
    | some (c, n, k, _) => s1.modLayout c n (fun y => { y with arrivals := tmod [] y.arrivals k (fun b => rest ++ b) })
    | none => s1

/-- OUTPUT_TILE_ARRIVE: the first tile sent toward an output station reaches it. -/
def execOutputTileArrive (ctx layout station : Nat) (s : State) : Out :=
  match s.layoutOf ctx layout with
  | none => .next s
  | some l =>
    match tget [] l.arrivals station, l.stationOf station with
    | t :: rest, some st =>
      let s1 := (s.modLayout ctx layout (fun y => { y with arrivals := tset [] y.arrivals station rest })).showArrive ctx layout station t
      if t.kind = 3 then .next s1
      else if t.kind = 2 then
        let taking := match s.boundSlot ctx layout station with
          | some p => s.bufTiles p.2
          | none => 0
        onlyIf (taking = 0) s ((s.showArrive ctx layout station t).cutStation ctx layout station l rest)
      else
        let deal := if 1024 ≤ station then l.oldDeal.getD l.deal else l.deal
        if t.deal ≠ deal then .next (s1.modCtx ctx (fun c => { c with stale := c.stale + 1 }))
        else
          let good := decide (t.fmt = st.fmt)
          let s2 := if good then s1 else s1.overflow ctx ⟨layout, station % 1024, 0xFFFF, 4, t.tag⟩
          let t' := if good then t else { t with kind := 0, fmt := st.fmt, data := [] }
          match (if station < 1024 then s.mapped ctx layout station else none) with
          | some (_, idx) => .next (s2.sendMapped ctx idx t')
          | none =>
            let held := ((tget [] l.buffers station).filter (fun x => x.kind < 2)).length
            let s3 := s2.modLayout ctx layout (fun y => { y with buffers := tmod [] y.buffers station (fun b => b ++ [t']) })
            onlyIf (decide (held < st.bufTiles)) s (match s3.boundSlot ctx layout station with
              | some p => s3.remark p.1
              | none => s3)
    | _, _ => .next s

end Sys2Proof.Machine
end

