-- ==== Sys2Proof/Machine/Registers.lean ====
section
/-! DEFINITION. The register windows: BAR0 of every function (R54, R58, R424 to R426, R435), its device-global part (R416, R436, R482),
the mailbox of BAR2 (R459), the I3C target port (R498) and MSI-X Message Control (log entry 36). An access is of one register here,
cut from accesses of 32 or 64 bits; a register with a command of its own acts alike through both. -/
namespace Sys2Proof.Machine

/-! ### Interrupt and fault-ring registers (R425, R426) -/

/-- A message pending on a vector that no longer is blocked falls due (R425). -/
def State.unpend (s : State) (f v : Nat) : State :=
  if ((s.fnOf f).vecOf v).pending && !(s.fnOf f).vecBlocked v then
    (s.modVec f v (fun y => { y with pending := false })).due f v
  else s

/-- INT_MASK is written: each set cause whose bit is cleared makes one message due. -/
def State.writeIntMask (s : State) (f v : Nat) : State :=
  let g := s.fnOf f
  let opened := (List.range 8).filter (fun b => nbit g.intCause b && nbit g.intMask b && !nbit v b)
  let s1 := s.modFn f (fun x => { x with intMask := v % 256 })
  opened.foldl (fun t _ => t.due f g.intVector) s1

/-- INT_MASK_WRITE. -/
def execIntMaskWrite (f : Nat) (value : Word) (s : State) : Out := onlyIf (s.fnLive f) s (s.writeIntMask f value.toNat)

/-- FR_CTRL is written. SIZE_M1 may be written while ENABLE is 0; ENABLE with SIZE_M1 0 is refused. -/
def State.writeFrCtrl (s : State) (f v : Nat) : State :=
  if (s.fnOf f).frEnable then s.modFn f (fun x => { x with frEnable := nbit v 31 })
  else
    let s1 := s.modFn f (fun x => { x with frSizeM1 := v % 4096 })
    if !nbit v 31 then s1
    else if v % 4096 = 0 then s1.cause f 5
    else s1.modFn f (fun x => { x with frEnable := true, frHead := 0, frTail := 0 })

/-- FAULT_RING_ENABLE. -/
def execFaultRingEnable (f : Nat) (value : Word) (s : State) : Out := onlyIf (s.fnLive f) s (s.writeFrCtrl f value.toNat)

/-- FR_HEAD is written: a head that would pass FR_TAIL, or lies outside the ring, is ignored and sets QUEUE_ERROR. -/
def State.writeFrHead (s : State) (f v : Nat) : State :=
  let g := s.fnOf f
  let size := g.frSizeM1 + 1
  let h := v % 4096
  if size ≤ h ∨ (g.frTail + size - g.frHead) % size < (h + size - g.frHead) % size then s.cause f 5
  else s.modFn f (fun x => { x with frHead := h })

/-- FR_HEAD_WRITE. -/
def execFrHeadWrite (f : Nat) (value : Word) (s : State) : Out := onlyIf (s.fnLive f) s (s.writeFrHead f value.toNat)

/-! ### BAR0 below 0x100_0000 -/

/-- The registers of function f as a read finds them: reset values while its partition is being reset (R432). -/
def State.fnSeen (s : State) (f : Nat) : Fn := if (s.partOf f).resetting then {} else s.fnOf f

/-- A queue's state as Q_STATUS reports it. -/
def QState.code : QState → Nat
  | .disabled => 0
  | .running => 1
  | .stopped => 2
  | .resetting => 3

/-- The queue registers, by offset in their block (Tables 2.5 to 2.11). ENABLE reads 1 while the queue is RUNNING or STOPPED (log entry
161). -/
def Queue.read (x : Queue) (off : Nat) : Nat :=
  match off with
  | 0x00 => x.sqBase.toNat % 2 ^ 32
  | 0x04 => x.sqBase.toNat / 2 ^ 32
  | 0x08 => x.cqBase.toNat % 2 ^ 32
  | 0x0C => x.cqBase.toNat / 2 ^ 32
  | 0x10 => x.sqSizeM1 + x.cqSizeM1 * 2 ^ 16
  | 0x14 => b2n (x.state = .running || x.state = .stopped) + b2n x.stopOnError * 2 + x.windowM1 * 2 ^ 8 + x.preemptLimit * 2 ^ 16
  | 0x18 => x.state.code + b2n x.dbErr * 4 + b2n x.cfgErr * 8 + x.window.length * 2 ^ 8 + x.stopStatus * 2 ^ 16
  | 0x1C => x.sqHead
  | 0x20 => x.cqTail + b2n x.phase * 2 ^ 16
  | 0x24 => x.vector + b2n x.intOnError * 2 ^ 8 + x.coalCount * 2 ^ 16
  | 0x28 => x.coalTime
  | 0x2C => x.lastSeq.toNat
  | _ => 0

/-- The low or high half of a 64-bit register is replaced. -/
def setLo (a : W64) (v : Nat) : W64 := BitVec.ofNat 64 (setBits a.toNat 31 0 v)
def setHi (a : W64) (v : Nat) : W64 := BitVec.ofNat 64 (setBits a.toNat 63 32 v)

/-- A write of a ring base or size, while the queue is DISABLED (R58). -/
def Queue.writeRing (x : Queue) (off v : Nat) : Queue :=
  match off with
  | 0x00 => { x with sqBase := setLo x.sqBase (v / 4096 * 4096) }
  | 0x04 => { x with sqBase := setHi x.sqBase v }
  | 0x08 => { x with cqBase := setLo x.cqBase (v / 4096 * 4096) }
  | 0x0C => { x with cqBase := setHi x.cqBase v }
  | 0x10 => { x with sqSizeM1 := v % 65536, cqSizeM1 := v / 65536 }
  | _ => x

/-- A write of a queue register. -/
def State.writeQueue (s : State) (f q off v : Nat) : State :=
  if off < 0x14 then s.modQueue f q (fun x => if x.state = .disabled then x.writeRing off v else x)
  else
    match off with
    | 0x14 => s.writeControl f q (w32 v)
    | 0x18 => s.modQueue f q (fun x => { x with dbErr := x.dbErr && !nbit v 2, cfgErr := x.cfgErr && !nbit v 3 })
    | 0x24 => s.modQueue f q (fun x => { x with vector := v % 64, intOnError := nbit v 8, coalCount := bits v 23 16 })
    | 0x28 => s.modQueue f q (fun x => { x with coalTime := v % 65536 })
    | _ => s

/-- The interrupt and partition registers (Tables 14.9 and 14.10). -/
def State.readPart (s : State) (f off : Nat) : Nat :=
  let g := s.fnSeen f
  let rec0 := (s.partOf f).record
  match off with
  | 0x100 => f + b2n (s.partEnabled f) * 2 ^ 7 + ((List.range 192).filter (fun cl => s.clusterOwner cl = f)).length * 2 ^ 8
  | 0x104 => g.intCause
  | 0x108 => g.intMask
  | 0x10C => g.intVector
  | 0x110 => g.intHeld + g.preemptDenied * 2 ^ 16
  | 0x120 => g.frBase.toNat % 2 ^ 32
  | 0x124 => g.frBase.toNat / 2 ^ 32
  | 0x128 => g.frSizeM1 + b2n g.frEnable * 2 ^ 31
  | 0x12C => g.frHead
  | 0x130 => g.frTail
  | o => if 0x140 ≤ o ∧ o < 0x180 then wnat rec0 ((o - 0x140) / 4) else 0

/-- A field of an MSI-X table entry: address, data, vector control. -/
def Vec.read (x : Vec) (k : Nat) : Nat :=
  match k with
  | 0 => x.addr.toNat % 2 ^ 32
  | 1 => x.addr.toNat / 2 ^ 32
  | 2 => x.data.toNat
  | _ => b2n x.masked

def Vec.write (x : Vec) (k v : Nat) : Vec :=
  match k with
  | 0 => { x with addr := setLo x.addr v }
  | 1 => { x with addr := setHi x.addr v }
  | 2 => { x with data := w32 v }
  | _ => { x with masked := nbit v 0 }

/-- The value of a 32-bit register of function f below the doorbell pages. -/
def State.readFn (s : State) (f off : Nat) : Nat :=
  let g := s.fnSeen f
  if off = 0 then 0x20 + 0x40 * 2 ^ 8 + f * 2 ^ 16
  else if off < 0x800 then s.readPart f off
  else if off < 0xC00 then (g.vecOf ((off - 0x800) / 16)).read (off % 16 / 4)
  else if off = 0xC00 ∨ off = 0xC04 then
    sumNat ((List.range 32).map (fun i => b2n (g.vecOf ((off - 0xC00) * 8 + i)).pending * 2 ^ i))
  else if 0x1000 ≤ off ∧ off < 0x2000 then (tget {} g.queues ((off - 0x1000) / 64)).read (off % 64)
  else 0

/-- A write of an interrupt or partition register. -/
def State.writePart (s : State) (f off v : Nat) : State :=
  match off with
  | 0x104 => s.modFn f (fun g => { g with intCause := g.intCause &&& (255 - v % 256) })
  | 0x108 => s.writeIntMask f v
  | 0x10C => s.modFn f (fun g => { g with intVector := v % 64 })
  | 0x120 => s.modFn f (fun g => if g.frEnable then g else { g with frBase := setLo g.frBase (v / 4096 * 4096) })
  | 0x124 => s.modFn f (fun g => if g.frEnable then g else { g with frBase := setHi g.frBase v })
  | 0x128 => s.writeFrCtrl f v
  | 0x12C => s.writeFrHead f v
  | _ => s

/-- A 32-bit write to function f's BAR0 below the doorbell pages. -/
def State.writeFn (s : State) (f off v : Nat) : State :=
  if off < 0x800 then s.writePart f off v
  else if off < 0xC00 then
    let i := (off - 0x800) / 16
    (s.modVec f i (fun x => x.write (off % 16 / 4) v)).unpend f i
  else if 0x1000 ≤ off ∧ off < 0x2000 then s.writeQueue f ((off - 0x1000) / 64) (off % 64) v
  else s

/-- A 32-bit write to a doorbell page (Table 2.12). -/
def State.writeDoorbell (s : State) (f off v : Nat) : State :=
  let q := (off - 0x10000) / 4096
  match off % 4096 with
  | 0 => s.writeSqTail f q v
  | 4 => s.writeCqHead f q v
  | _ => s

/-! ### Device-global registers -/

/-- Bit n of a half of RESET_BUSY. -/
def State.resetBusy (s : State) (base : Nat) : Nat :=
  sumNat ((List.range 32).map (fun i => b2n (s.partOf (base + i)).resetting * 2 ^ i))

/-- A register of a port block (Table 13.10). -/
def State.readPort (s : State) (p off : Nat) : Nat :=
  let x := s.portOf p
  match off with
  | 0x00 => x.state + b2n x.mappedOut * 2 ^ 4 + x.downCause * 2 ^ 8 + x.recalLane * 2 ^ 16 + b2n x.recalActive * 2 ^ 19 +
      x.lanesFailed * 2 ^ 20 + x.lanesUp * 2 ^ 24
  | 0x04 => x.nPort + x.nChip * 2 ^ 16
  | 0x08 => x.uncorrectedCw + x.correctedCw * 2 ^ 16
  | 0x0C => x.discarded + x.crcErrors * 2 ^ 8 + x.replays * 2 ^ 16
  | 0x10 => (s.fab.circuits.filter (fun c => decide (c.2.state ≠ 0) &&
      ((!c.2.aLocal && decide (c.2.aPort = p)) || (!c.2.bLocal && decide (c.2.bPort = p))))).length
  | _ => 0

/-- A power register (Table 16.5). -/
def State.readPower (s : State) (off : Nat) : Nat :=
  let p := s.power
  let die (d : Nat) : Nat := let x := s.dieOf d; x.ceiling + ofInt 8 x.hotC * 2 ^ 16 + x.level * 2 ^ 24
  match off with
  | 0x00 => p.hostLimit + p.boardMax * 2 ^ 16
  | 0x04 => s.iccActive + b2n p.tripped * 2 ^ 4 + b2n p.brake * 2 ^ 5 + b2n p.hbLost * 2 ^ 6 + p.gov * 2 ^ 12 + p.powerW % 4096 * 2 ^ 20
  | 0x08 => p.policyLimit + p.limit * 2 ^ 16
  | 0x10 => die 0
  | 0x14 => die 1
  | 0x18 => die 2
  | 0x1C => die 3
  | _ => 0

/-- The value of a device-global register. -/
def State.readGlobal (s : State) (off : Nat) : Nat :=
  if off = 0x1000000 then b2n s.parts.protLock
  else if off = 0x1000004 then s.parts.planId.toNat
  else if off = 0x100000C then s.resetBusy 0
  else if off = 0x1000010 then s.resetBusy 32
  else if 0x1001000 ≤ off ∧ off < 0x1002000 then wnat (s.partOf ((off - 0x1001000) / 64)).record (off % 64 / 4)
  else if off = 0x1010000 then 0x20 + s.fab.chip * 2 ^ 16
  else if off = 0x1010004 then s.fab.routeIndex
  else if off = 0x1010008 then tget 0 s.fab.routes s.fab.routeIndex
  else if 0x1011000 ≤ off ∧ off < 0x1011800 then s.readPort ((off - 0x1011000) / 64) (off % 64)
  else if 0x1020000 ≤ off ∧ off < 0x1021000 then s.readPower (off - 0x1020000)
  else 0

/-- A 32-bit write of a device-global register. FAB_ID.CHIP takes writes while PROT_LOCK is 0 (R10). -/
def State.writeGlobal (s : State) (off v : Nat) : State :=
  if off = 0x1000008 then
    if nbit v 0 then s.beginWarm else if nbit v 1 then s.beginPartReset (bits v 13 8) else s
  else if off = 0x1010000 then
    if s.parts.protLock then s else { s with fab := { s.fab with chip := bits v 29 16 } }
  else if off = 0x1010004 then { s with fab := { s.fab with routeIndex := v % 16384 } }
  else if off = 0x1010008 then s.writeRoute (w32 v)
  else if off = 0x1020000 then { s with power := { s.power with hostLimit := v % 4096 } }
  else s

/-! ### The mailbox of BAR2 -/

def State.readMailbox (s : State) (off : Nat) : Nat :=
  match off with
  | 0x04 => s.mgmt.status
  | 0x08 => s.mgmt.info
  | _ => 0

def State.writeMailbox (s : State) (off v : Nat) : State :=
  match off with
  | 0x00 => s.mbDoorbell v
  | 0x04 => { s with mgmt := { s.mgmt with mbOverrun := s.mgmt.mbOverrun && !nbit v 2, mbRestarted := s.mgmt.mbRestarted && !nbit v 3 } }
  | _ => s

/-- The bytes of a write that lie in the request area. -/
def State.writeRequest (s : State) (off : Nat) (bs : List Byte) : State :=
  let keep := bs.take (0x50000 - off)
  { s with mgmt := { s.mgmt with reqArea := cellWrite s.mgmt.reqArea (off - 0x10000) keep } }

/-- The bytes a read of the request and response areas covers. -/
def Mgmt.areaByte (m : Mgmt) (a : Nat) : Byte :=
  if a < 0x50000 then cellGet m.reqArea (a - 0x10000)
  else if a < 0x90000 then cellGet m.respArea (a - 0x50000)
  else 0

/-! ### The I3C target port (Table 16.4) -/

def State.readI3c (s : State) (index : Nat) : Nat :=
  let p := s.power
  match index with
  | 0x04 => p.policyLimit + p.brakeCode * 2 ^ 12 + p.hbTimeout * 2 ^ 24
  | 0x08 => p.tcBoard
  | 0x0C => p.hbSeq.toNat
  | 0x10 => b2n p.ready + b2n p.running * 2 + b2n p.hbLost * 4 + b2n p.tripped * 8
  | _ => 0

/-- A register of Table 16.4 is written. RELEASE has a command of its own, which carries what the boot will find. -/
def State.writeI3c (s : State) (index : Nat) (v : Word) : State :=
  match index with
  | 0x00 => if bit v 1 then s.offReq else s
  | 0x04 => { s with power := { s.power with policyLimit := fld v 11 0, brakeCode := fld v 18 12, hbTimeout := fld v 31 24 } }
  | 0x08 => if s.power.running then s else { s with power := { s.power with tcBoard := fld v 11 0 } }
  | 0x0C => s.writeHeartbeat v
  | _ => s

/-! ### Accesses -/

/-- An access of `size` bytes acts on registers: aligned, and of 32 or 64 bits (R54). -/
def aligned (off size : Nat) : Bool := (size = 4 || size = 8) && decide (off % size = 0)

/-- A 32-bit write at an offset of BAR0. -/
def State.writeBar0 (s : State) (f off v : Nat) : State :=
  if off < 0x10000 then (if s.fnLive f then s.writeFn f off v else s)
  else if off < 0x50000 then s
  else if f = 0 then s.writeGlobal off v
  else s

/-- A 32-bit read at an offset of BAR0. -/
def State.readBar0 (s : State) (f off : Nat) : Nat :=
  if off < 0x10000 then s.readFn f off
  else if f = 0 ∧ 0x1000000 ≤ off then s.readGlobal off
  else 0

/-- A write of MSI-X Message Control: enable in bit 15, function mask in bit 14; messages no longer blocked are sent (log entry 36). -/
def State.writeMsixControl (s : State) (f v : Nat) : State :=
  let s1 := s.modFn f (fun g => { g with msixEnable := nbit v 15, msixMask := nbit v 14 })
  (List.range 64).foldl (fun t i => t.unpend f i) s1

/-- A write in two halves, the lower first, through a 32-bit write. -/
def State.halves (s : State) (size off v : Nat) (w : State → Nat → Nat → State) : State :=
  let s1 := w s off (v % 2 ^ 32)
  if size = 8 then w s1 (off + 4) (v / 2 ^ 32 % 2 ^ 32) else s1

/-- REGISTER_WRITE. BAR 1 is the I3C target port, whose offset is the register index: four bytes write it, none selects it. BAR 3 is
MSI-X Message Control. Writes to BAR4 are discarded (R461). -/
def execRegisterWrite (f bar off size : Nat) (value : W64) (s : State) : Out :=
  let v := value.toNat
  match bar with
  | 0 => onlyIf (s.hostLive && s.fnExists f && aligned off size) s
      (if 0x10000 ≤ off ∧ off < 0x50000 then (if size = 4 ∧ s.fnLive f then s.writeDoorbell f off (v % 2 ^ 32) else s)
       else s.halves size off v (fun t o x => t.writeBar0 f o x))
  | 1 => onlyIf (decide (s.mgmt.boot ≠ .off)) s
      (if size = 0 then { s with power := { s.power with i3cIndex := off % 256 } }
       else if size = 4 then s.writeI3c (off % 256) (w32 v)
       else s)
  | 2 => onlyIf (s.hostLive && decide (f = 0)) s
      (if 0x10000 ≤ off ∧ off < 0x50000 then s.writeRequest off (leBytes (min size 8) v)
       else if aligned off size then s.halves size off v (fun t o x => t.writeMailbox o x)
       else s)
  | 3 => onlyIf (s.hostLive && s.fnExists f) s (s.writeMsixControl f v)
  | _ => .next s

/-- The RC fields of the 32-bit register at an offset of BAR0 are cleared. -/
def State.readClears (s : State) (f off : Nat) : State :=
  if off = 0x110 ∧ s.fnLive f then s.modFn f (fun g => { g with intHeld := 0, preemptDenied := 0 })
  else if f = 0 ∧ 0x1011000 ≤ off ∧ off < 0x1011800 then
    let p := (off - 0x1011000) / 64
    if off % 64 = 8 then s.modPort p (fun x => { x with uncorrectedCw := 0, correctedCw := 0 })
    else if off % 64 = 12 then s.modPort p (fun x => { x with discarded := 0, crcErrors := 0, replays := 0 })
    else s
  else s

/-- What a read answers, beside its effect. -/
def State.answer (s : State) (v : Nat) (bs : List Byte) : State :=
  { s with host := { s.host with readData := BitVec.ofNat 64 v, readBytes := bs } }

/-- A read of registers through a 32-bit read: the lower first. -/
def readHalves (size off : Nat) (r : Nat → Nat) : Nat := r off % 2 ^ 32 + (if size = 8 then r (off + 4) % 2 ^ 32 * 2 ^ 32 else 0)

/-- REGISTER_READ_CLEAR: a read of any register. It answers in the host's read data; its RC fields are then cleared. -/
def execRegisterReadClear (f bar off size : Nat) (s : State) : Out :=
  let regs (r : Nat → Nat) : State :=
    if aligned off size then (let v := readHalves size off r; s.answer v (leBytes size v)) else s.answer 0 (leBytes size 0)
  match bar with
  | 0 => onlyIf (s.hostLive && s.fnExists f) s
      ((regs (s.readBar0 f)).halves size off 0 (fun t o _ => if aligned off size then t.readClears f o else t))
  | 1 => onlyIf (decide (s.mgmt.boot ≠ .off)) s
      (let v := s.readI3c s.power.i3cIndex
       s.answer v (leBytes 4 v))
  | 2 => onlyIf (s.hostLive && decide (f = 0)) s
      (if 0x10000 ≤ off ∧ off < 0x90000 then
         (let bs := (List.range size).map (fun i => s.mgmt.areaByte (off + i))
          s.answer (leNat (bs.take 8)) bs)
       else regs s.readMailbox)
  | 3 => onlyIf (s.hostLive && s.fnExists f) s
      (let g := s.fnOf f
       s.answer (b2n g.msixEnable * 2 ^ 15 + b2n g.msixMask * 2 ^ 14 + 63) [])
  | 4 => onlyIf (s.hostLive && decide (f = 0) && s.mgmt.dbgEnable && decide (off + size ≤ 2 ^ 36)) s (s.readWindow off size)
  | _ => .next s

end Sys2Proof.Machine
end

