-- ==== Sys2Proof/Machine/Dispatch.lean ====
section
/-! DEFINITION. One arm per command: its meaning, or its rejection by name. -/
namespace Sys2Proof.Machine

def exec (i : Instr) (s : State) : Host.Outcome State Fault Refusal :=
  match i with
  | .nop fn q n => Sys2Proof.Machine.execNop fn q n s
  | .cancel fn q n => Sys2Proof.Machine.execCancel fn q n s
  | .supplyTime fn q n => Sys2Proof.Machine.execSupplyTime fn q n s
  | .planSubmit fn q n plan => Sys2Proof.Machine.execPlanSubmit fn q n plan s
  | .contextCreate fn q n => Sys2Proof.Machine.execContextCreate fn q n s
  | .contextDestroy fn q n => Sys2Proof.Machine.execContextDestroy fn q n s
  | .contextConfig fn q n => Sys2Proof.Machine.execContextConfig fn q n s
  | .layoutLoad fn q n errs => Sys2Proof.Machine.execLayoutLoad fn q n errs s
  | .layoutReplace fn q n errs => Sys2Proof.Machine.execLayoutReplace fn q n errs s
  | .layoutUnload fn q n => Sys2Proof.Machine.execLayoutUnload fn q n s
  | .placementMove fn q n errs => Sys2Proof.Machine.execPlacementMove fn q n errs s
  | .blockMap fn q n => Sys2Proof.Machine.execBlockMap fn q n s
  | .blockUnmap fn q n => Sys2Proof.Machine.execBlockUnmap fn q n s
  | .copy fn q n errs => Sys2Proof.Machine.execCopy fn q n errs s
  | .fill fn q n errs => Sys2Proof.Machine.execFill fn q n errs s
  | .tierHint fn q n => Sys2Proof.Machine.execTierHint fn q n s
  | .quotaSet fn q n => Sys2Proof.Machine.execQuotaSet fn q n s
  | .peerMap fn q n => Sys2Proof.Machine.execPeerMap fn q n s
  | .lendRecall fn q n => Sys2Proof.Machine.execLendRecall fn q n s
  | .hostWrite fn q n data errs => Sys2Proof.Machine.execHostWrite fn q n data errs s
  | .hostRead fn q n errs => Sys2Proof.Machine.execHostRead fn q n errs s
  | .run fn q n errs => Sys2Proof.Machine.execRun fn q n errs s
  | .streamLoad fn q n errs => Sys2Proof.Machine.execStreamLoad fn q n errs s
  | .streamResume fn q n => Sys2Proof.Machine.execStreamResume fn q n s
  | .shapeWrite fn q n errs => Sys2Proof.Machine.execShapeWrite fn q n errs s
  | .sessionOpen fn q n => Sys2Proof.Machine.execSessionOpen fn q n s
  | .sessionClose fn q n => Sys2Proof.Machine.execSessionClose fn q n s
  | .stepCmd fn q n errs => Sys2Proof.Machine.execStepCmd fn q n errs s
  | .sessionPause fn q n => Sys2Proof.Machine.execSessionPause fn q n s
  | .sessionResume fn q n => Sys2Proof.Machine.execSessionResume fn q n s
  | .sessionCancel fn q n => Sys2Proof.Machine.execSessionCancel fn q n s
  | .prefixLookup fn q n errs => Sys2Proof.Machine.execPrefixLookup fn q n errs s
  | .kvPark fn q n => Sys2Proof.Machine.execKvPark fn q n s
  | .kvUnpark fn q n => Sys2Proof.Machine.execKvUnpark fn q n s
  | .kvRelease fn q n => Sys2Proof.Machine.execKvRelease fn q n s
  | .kvTtlSet fn q n => Sys2Proof.Machine.execKvTtlSet fn q n s
  | .kvConfigure fn q n => Sys2Proof.Machine.execKvConfigure fn q n s
  | .weightWrite fn q n image => Sys2Proof.Machine.execWeightWrite fn q n image s
  | .weightLoad fn q n err chan => Sys2Proof.Machine.execWeightLoad fn q n err chan s
  | .weightLoadBroadcast fn q n err chan => Sys2Proof.Machine.execWeightLoadBroadcast fn q n err chan s
  | .weightReplace fn q n err chan => Sys2Proof.Machine.execWeightReplace fn q n err chan s
  | .weightDelete fn q n => Sys2Proof.Machine.execWeightDelete fn q n s
  | .adapterAttach fn q n err chan => Sys2Proof.Machine.execAdapterAttach fn q n err chan s
  | .adapterDetach fn q n => Sys2Proof.Machine.execAdapterDetach fn q n s
  | .jobOpen fn q n errs => Sys2Proof.Machine.execJobOpen fn q n errs s
  | .jobClose fn q n => Sys2Proof.Machine.execJobClose fn q n s
  | .linkRestore fn q n lanes chip port => Sys2Proof.Machine.execLinkRestore fn q n lanes chip port s
  | .linkRecalibrate fn q n => Sys2Proof.Machine.execLinkRecalibrate fn q n s
  | .selfTest fn q n result => Sys2Proof.Machine.execSelfTest fn q n result s
  | .showdown fn q n => Sys2Proof.Machine.execShowdown fn q n s
  | .showdownArm fn q n => Sys2Proof.Machine.execShowdownArm fn q n s
  | .memoryRetrain fn q n us => Sys2Proof.Machine.execMemoryRetrain fn q n us s
  | .sqTailDoorbell fn q value => Sys2Proof.Machine.execSqTailDoorbell fn q value s
  | .cqHeadDoorbell fn q value => Sys2Proof.Machine.execCqHeadDoorbell fn q value s
  | .queueEnable fn q value => Sys2Proof.Machine.execQueueEnable fn q value s
  | .queueDisable fn q value => Sys2Proof.Machine.execQueueDisable fn q value s
  | .queueReset fn q value => Sys2Proof.Machine.execQueueReset fn q value s
  | .queueResume fn q value => Sys2Proof.Machine.execQueueResume fn q value s
  | .queueResetDone fn q => Sys2Proof.Machine.execQueueResetDone fn q s
  | .commandFetch fn q packet => Sys2Proof.Machine.execCommandFetch fn q packet s
  | .commandStart fn q n errs => Sys2Proof.Machine.execCommandStart fn q n errs s
  | .commandRerun fn q n errs => Sys2Proof.Machine.execCommandRerun fn q n errs s
  | .commandCommit fn q errs => Sys2Proof.Machine.execCommandCommit fn q errs s
  | .coalesceTimeout fn q => Sys2Proof.Machine.execCoalesceTimeout fn q s
  | .rateToken fn vector => Sys2Proof.Machine.execRateToken fn vector s
  | .dealUpdateApply core => Sys2Proof.Machine.execDealUpdateApply core s
  | .tileArrive core port channel => Sys2Proof.Machine.execTileArrive core port channel s
  | .pairIssue core err => Sys2Proof.Machine.execPairIssue core err s
  | .storeWrite core hand err => Sys2Proof.Machine.execStoreWrite core hand err s
  | .drain core hand err => Sys2Proof.Machine.execDrain core hand err s
  | .vectorRun core err => Sys2Proof.Machine.execVectorRun core err s
  | .configItem core => Sys2Proof.Machine.execConfigItem core s
  | .loadAcksComplete ctx layout => Sys2Proof.Machine.execLoadAcksComplete ctx layout s
  | .cutArrive core port channel => Sys2Proof.Machine.execCutArrive core port channel s
  | .cutComplete core => Sys2Proof.Machine.execCutComplete core s
  | .replaceCutDone ctx layout => Sys2Proof.Machine.execReplaceCutDone ctx layout s
  | .faultedQuiescence fn q n => Sys2Proof.Machine.execFaultedQuiescence fn q n s
  | .bindingTakeEffect cluster slot => Sys2Proof.Machine.execBindingTakeEffect cluster slot s
  | .streamRequest cluster => Sys2Proof.Machine.execStreamRequest cluster s
  | .streamDataReturn cluster slot err piece => Sys2Proof.Machine.execStreamDataReturn cluster slot err piece s
  | .runAheadRequest cluster slot => Sys2Proof.Machine.execRunAheadRequest cluster slot s
  | .outputTileArrive ctx layout station => Sys2Proof.Machine.execOutputTileArrive ctx layout station s
  | .faultRecordWrite cluster slot => Sys2Proof.Machine.execFaultRecordWrite cluster slot s
  | .streamAutoResume cluster slot => Sys2Proof.Machine.execStreamAutoResume cluster slot s
  | .weightLateTimeout cluster slot => Sys2Proof.Machine.execWeightLateTimeout cluster slot s
  | .watchdogTimeout ctx => Sys2Proof.Machine.execWatchdogTimeout ctx s
  | .regionUngate region => Sys2Proof.Machine.execRegionUngate region s
  | .regionGate region => Sys2Proof.Machine.execRegionGate region s
  | .blockMapChangeDone entry => Sys2Proof.Machine.execBlockMapChangeDone entry s
  | .frameRelease frame => Sys2Proof.Machine.execFrameRelease frame s
  | .frameScrub frame => Sys2Proof.Machine.execFrameScrub frame s
  | .migrationStart entry => Sys2Proof.Machine.execMigrationStart entry s
  | .migrationDone entry err => Sys2Proof.Machine.execMigrationDone entry err s
  | .patrolScrubRead frame err => Sys2Proof.Machine.execPatrolScrubRead frame err s
  | .scrubPassOverdue island => Sys2Proof.Machine.execScrubPassOverdue island s
  | .recallBorrowerDeadline chip first => Sys2Proof.Machine.execRecallBorrowerDeadline chip first s
  | .recallLenderDeadline first => Sys2Proof.Machine.execRecallLenderDeadline first s
  | .parkStart ctx record => Sys2Proof.Machine.execParkStart ctx record s
  | .parkComplete ctx record => Sys2Proof.Machine.execParkComplete ctx record s
  | .kvRecordExpire ctx record => Sys2Proof.Machine.execKvRecordExpire ctx record s
  | .parkBringIn ctx record index err => Sys2Proof.Machine.execParkBringIn ctx record index err s
  | .cancelRetire fn q n => Sys2Proof.Machine.execCancelRetire fn q n s
  | .expertSelect ctx layer => Sys2Proof.Machine.execExpertSelect ctx layer s
  | .combineRow ctx layer row => Sys2Proof.Machine.execCombineRow ctx layer row s
  | .routerWaitTimeout ctx => Sys2Proof.Machine.execRouterWaitTimeout ctx s
  | .dispatch port frame ok => Sys2Proof.Machine.execDispatch port frame ok s
  | .dispatchEnd port frame ok => Sys2Proof.Machine.execDispatchEnd port frame ok s
  | .returnTile port frame ok => Sys2Proof.Machine.execReturnTile port frame ok s
  | .returnEnd port frame ok => Sys2Proof.Machine.execReturnEnd port frame ok s
  | .retire port frame ok => Sys2Proof.Machine.execRetire port frame ok s
  | .generationAnnounce port frame ok => Sys2Proof.Machine.execGenerationAnnounce port frame ok s
  | .generationRetiredReport port frame ok => Sys2Proof.Machine.execGenerationRetiredReport port frame ok s
  | .stepOutcomes port frame ok => Sys2Proof.Machine.execStepOutcomes port frame ok s
  | .stepReady port frame ok => Sys2Proof.Machine.execStepReady port frame ok s
  | .stepCommitMessage port frame ok => Sys2Proof.Machine.execStepCommitMessage port frame ok s
  | .entryDropped port frame ok => Sys2Proof.Machine.execEntryDropped port frame ok s
  | .dealPublication port frame ok => Sys2Proof.Machine.execDealPublication port frame ok s
  | .pieceRequest port frame ok => Sys2Proof.Machine.execPieceRequest port frame ok s
  | .readerStart port frame ok => Sys2Proof.Machine.execReaderStart port frame ok s
  | .doneNotice port frame ok => Sys2Proof.Machine.execDoneNotice port frame ok s
  | .piece port frame ok => Sys2Proof.Machine.execPiece port frame ok s
  | .weightReplaceCopy fn q n err place => Sys2Proof.Machine.execWeightReplaceCopy fn q n err place s
  | .stripeErase slot park => Sys2Proof.Machine.execStripeErase slot park s
  | .linkAck port frame ok => Sys2Proof.Machine.execLinkAck port frame ok s
  | .lane port frame ok => Sys2Proof.Machine.execLane port frame ok s
  | .tile port frame ok => Sys2Proof.Machine.execTile port frame ok s
  | .credit port frame ok => Sys2Proof.Machine.execCredit port frame ok s
  | .tear port frame ok => Sys2Proof.Machine.execTear port frame ok s
  | .memRead port frame ok err => Sys2Proof.Machine.execMemRead port frame ok err s
  | .memWrite port frame ok => Sys2Proof.Machine.execMemWrite port frame ok s
  | .memData port frame ok => Sys2Proof.Machine.execMemData port frame ok s
  | .memDone port frame ok => Sys2Proof.Machine.execMemDone port frame ok s
  | .memRefused port frame ok => Sys2Proof.Machine.execMemRefused port frame ok s
  | .unreachable port frame ok => Sys2Proof.Machine.execUnreachable port frame ok s
  | .reserve port frame ok => Sys2Proof.Machine.execReserve port frame ok s
  | .confirm port frame ok => Sys2Proof.Machine.execConfirm port frame ok s
  | .reject port frame ok => Sys2Proof.Machine.execReject port frame ok s
  | .lendRequest port frame ok => Sys2Proof.Machine.execLendRequest port frame ok s
  | .lendGrant port frame ok => Sys2Proof.Machine.execLendGrant port frame ok s
  | .lendRefusal port frame ok => Sys2Proof.Machine.execLendRefusal port frame ok s
  | .recallNotice port frame ok => Sys2Proof.Machine.execRecallNotice port frame ok s
  | .lendFrameRelease port frame ok => Sys2Proof.Machine.execLendFrameRelease port frame ok s
  | .replayTimeout port => Sys2Proof.Machine.execReplayTimeout port s
  | .ackTimer port => Sys2Proof.Machine.execAckTimer port s
  | .lossOfLock port lanes => Sys2Proof.Machine.execLossOfLock port lanes s
  | .creditTimer circuit => Sys2Proof.Machine.execCreditTimer circuit s
  | .creditTimeout circuit => Sys2Proof.Machine.execCreditTimeout circuit s
  | .peerRequestTimeout request => Sys2Proof.Machine.execPeerRequestTimeout request s
  | .jobOpenTimeout fn q n => Sys2Proof.Machine.execJobOpenTimeout fn q n s
  | .laneRetrainDone port good => Sys2Proof.Machine.execLaneRetrainDone port good s
  | .routeDataWrite value => Sys2Proof.Machine.execRouteDataWrite value s
  | .partReset value => Sys2Proof.Machine.execPartReset value s
  | .warmReset value => Sys2Proof.Machine.execWarmReset value s
  | .functionLevelReset fn => Sys2Proof.Machine.execFunctionLevelReset fn s
  | .vfRemoval numVfs => Sys2Proof.Machine.execVfRemoval numVfs s
  | .partitionResetDone part => Sys2Proof.Machine.execPartitionResetDone part s
  | .warmResetDone => Sys2Proof.Machine.execWarmResetDone s
  | .faultRingEnable fn value => Sys2Proof.Machine.execFaultRingEnable fn value s
  | .frHeadWrite fn value => Sys2Proof.Machine.execFrHeadWrite fn value s
  | .intMaskWrite fn value => Sys2Proof.Machine.execIntMaskWrite fn value s
  | .registerWrite fn bar offset size value => Sys2Proof.Machine.execRegisterWrite fn bar offset size value s
  | .registerReadClear fn bar offset size => Sys2Proof.Machine.execRegisterReadClear fn bar offset size s
  | .info => Sys2Proof.Machine.execInfo s
  | .logRead => Sys2Proof.Machine.execLogRead s
  | .logAck => Sys2Proof.Machine.execLogAck s
  | .firstErrorRead => Sys2Proof.Machine.execFirstErrorRead s
  | .sensorRead => Sys2Proof.Machine.execSensorRead s
  | .counterRead => Sys2Proof.Machine.execCounterRead s
  | .snapshotRead => Sys2Proof.Machine.execSnapshotRead s
  | .snapshotRelease => Sys2Proof.Machine.execSnapshotRelease s
  | .updateWrite => Sys2Proof.Machine.execUpdateWrite s
  | .updateCommit => Sys2Proof.Machine.execUpdateCommit s
  | .floorRaise => Sys2Proof.Machine.execFloorRaise s
  | .identity => Sys2Proof.Machine.execIdentity s
  | .attest => Sys2Proof.Machine.execAttest s
  | .debugWindow => Sys2Proof.Machine.execDebugWindow s
  | .ownerSet => Sys2Proof.Machine.execOwnerSet s
  | .fenceRead => Sys2Proof.Machine.execFenceRead s
  | .debugWindowRead offset bytes => Sys2Proof.Machine.execDebugWindowRead offset bytes s
  | .mgmtWatchdogExpire => Sys2Proof.Machine.execMgmtWatchdogExpire s
  | .mgmtServiceResume => Sys2Proof.Machine.execMgmtServiceResume s
  | .errorReport island cls code ctx detail => Sys2Proof.Machine.execErrorReport island cls code ctx detail s
  | .errorHubDrain island => Sys2Proof.Machine.execErrorHubDrain island s
  | .sensorSample temps supplies currents volts => Sys2Proof.Machine.execSensorSample temps supplies currents volts s
  | .showdownPin => Sys2Proof.Machine.execShowdownPin s
  | .showdownCountMatch => Sys2Proof.Machine.execShowdownCountMatch s
  | .showdownTileArrive core port channel => Sys2Proof.Machine.execShowdownTileArrive core port channel s
  | .showdownCutTimeout => Sys2Proof.Machine.execShowdownCutTimeout s
  | .correlationMarkerArrive island => Sys2Proof.Machine.execCorrelationMarkerArrive island s
  | .frequencyChange cluster code => Sys2Proof.Machine.execFrequencyChange cluster code s
  | .standbyPowerGood => Sys2Proof.Machine.execStandbyPowerGood s
  | .standbyPowerLoss => Sys2Proof.Machine.execStandbyPowerLoss s
  | .locationRetry finds => Sys2Proof.Machine.execLocationRetry finds s
  | .tcRelease finds => Sys2Proof.Machine.execTcRelease finds s
  | .tcOffReq => Sys2Proof.Machine.execTcOffReq s
  | .tcHeartbeatWrite value => Sys2Proof.Machine.execTcHeartbeatWrite value s
  | .heartbeatTimeout => Sys2Proof.Machine.execHeartbeatTimeout s
  | .railBringupTimeout => Sys2Proof.Machine.execRailBringupTimeout s
  | .recoveryImageWrite offset data => Sys2Proof.Machine.execRecoveryImageWrite offset data s
  | .recoveryImageEnd length => Sys2Proof.Machine.execRecoveryImageEnd length s
  | .recoveryVerifyDone => Sys2Proof.Machine.execRecoveryVerifyDone s
  | .recoveryOwnerKey key => Sys2Proof.Machine.execRecoveryOwnerKey key s
  | .perstAssert => Sys2Proof.Machine.execPerstAssert s
  | .perstDeassert => Sys2Proof.Machine.execPerstDeassert s
  | .powerBrakeAssert => Sys2Proof.Machine.execPowerBrakeAssert s
  | .powerBrakeRelease => Sys2Proof.Machine.execPowerBrakeRelease s
  | .governorTick power temps => Sys2Proof.Machine.execGovernorTick power temps s
  | .thermalCapStep die => Sys2Proof.Machine.execThermalCapStep die s
  | .iccLimitExceed die => Sys2Proof.Machine.execIccLimitExceed die s
  | .iccCapRaise die => Sys2Proof.Machine.execIccCapRaise die s
  | .analogThermalTrip die => Sys2Proof.Machine.execAnalogThermalTrip die s
  | .railFault die => Sys2Proof.Machine.execRailFault die s
  | .precisionLower die => Sys2Proof.Machine.execPrecisionLower die s
  | .precisionRestore => Sys2Proof.Machine.execPrecisionRestore s
  | .retrainWaitTimeout fn q n => Sys2Proof.Machine.execRetrainWaitTimeout fn q n s
  | .neighbourLinkRestore port lanes chip nport => Sys2Proof.Machine.execNeighbourLinkRestore port lanes chip nport s
  | .vfEnable numVfs => Sys2Proof.Machine.execVfEnable numVfs s
  | .railSettleTimeout die => Sys2Proof.Machine.execRailSettleTimeout die s
  | .retrainTargetQuiet fn q n => Sys2Proof.Machine.execRetrainTargetQuiet fn q n s
  | .testAccessPort ir tdi => Sys2Proof.Machine.execTestAccessPort ir tdi s

end Sys2Proof.Machine
end

