-- ==== Sys2Proof/Safety.lean ====
section
/-! DEFINITION. The terms the statements use: what a well-kept state is, which groups of the state may differ, when a command of an
execution window is at work, and how it ended. -/
namespace Sys2Proof.Machine

/-- Both images of a slot pair are in canonical form. -/
def Slots.wf (x : Slots) : Bool := cellsWf x.a && cellsWf x.b

/-- The byte areas of the management island are in canonical form, and its log holds at most 8,192 records (R447). -/
def Mgmt.wf (m : Mgmt) : Bool :=
  cellsWf m.reqArea && cellsWf m.respArea && cellsWf m.recoverImg && m.fw.wf && m.cfg.wf && decide (m.log.length ≤ 8192)

/-- The frames' bytes and the received bytes of peer blocks are in canonical form. -/
def Tiers.wf (t : Tiers) : Bool := cellsWf t.mem && cellsWf t.peerBuf

/-- The invariant every step keeps: every byte memory of the block lists its addresses strictly rising and no byte 0, so that equal
memories are equal data, and the error log stays within its ring. -/
structure State.Inv (s : State) : Prop where
  cmem  : cellsWf s.cmem = true
  sram  : cellsWf s.sram = true
  tiers : s.tiers.wf = true
  host  : cellsWf s.host.mem = true
  mgmt  : s.mgmt.wf = true

/-! ### What may differ -/

/-- The groups of the state. -/
inductive Group where
  | cp | parts | ctxs | cores | slots | cmem | sram | tiers | kv | sess | router | store | fab | mgmt | isl | power | host | free
  deriving DecidableEq, Repr

/-- From s to t only the groups listed may differ. The queue of waiting commands never does. -/
structure State.Only (gs : List Group) (s t : State) : Prop where
  pending : t.pending = s.pending
  cp      : Group.cp ∈ gs ∨ t.cp = s.cp
  parts   : Group.parts ∈ gs ∨ t.parts = s.parts
  ctxs    : Group.ctxs ∈ gs ∨ t.ctxs = s.ctxs
  cores   : Group.cores ∈ gs ∨ t.cores = s.cores
  slots   : Group.slots ∈ gs ∨ t.slots = s.slots
  cmem    : Group.cmem ∈ gs ∨ t.cmem = s.cmem
  sram    : Group.sram ∈ gs ∨ t.sram = s.sram
  tiers   : Group.tiers ∈ gs ∨ t.tiers = s.tiers
  kv      : Group.kv ∈ gs ∨ t.kv = s.kv
  sess    : Group.sess ∈ gs ∨ t.sess = s.sess
  router  : Group.router ∈ gs ∨ t.router = s.router
  store   : Group.store ∈ gs ∨ t.store = s.store
  fab     : Group.fab ∈ gs ∨ t.fab = s.fab
  mgmt    : Group.mgmt ∈ gs ∨ t.mgmt = s.mgmt
  isl     : Group.isl ∈ gs ∨ t.isl = s.isl
  power   : Group.power ∈ gs ∨ t.power = s.power
  host    : Group.host ∈ gs ∨ t.host = s.host
  free    : Group.free ∈ gs ∨ t.free = s.free

/-- From s to t, of the command interface, only the command (f, q, n) may differ: every register and every other command is as it was. -/
def State.OnlyCmd (f q n : Nat) (s t : State) : Prop :=
  ∃ g : Cmd → Cmd, (∀ c, (g c).n = c.n ∧ (g c).words = c.words) ∧ t.cp = (s.modCmd f q n g).cp

/-! ### Commands of an execution window -/

/-- The command (f, q, n) with opcode op has started, runs without a status so far, and sets no reserved bit of the words it defines. -/
structure State.Runs (s : State) (f q n op : Nat) (used : List (Nat × Nat)) (c : Cmd) : Prop where
  started  : s.started f q n op = some c
  clean    : c.status = 0
  reserved : reservedWord c.eff used = none

/-- The bytes from addr of a context take a write now: every block is there, and so are the bytes of a lender's block that a partly
written 64-byte unit keeps (R265, R290). -/
structure State.WriteReady (s : State) (ctx w addr len : Nat) : Prop where
  range : s.access ctx w addr len false = .ready
  first : s.access ctx w (addr / 64 * 64) (if addr % 64 = 0 then 0 else 64) true = .ready
  last  : s.access ctx w ((addr + len) / 64 * 64) (if (addr + len) % 64 = 0 then 0 else 64) true = .ready

/-- The same for a command that may not write its context's KV pool (R291). -/
structure State.DstReady (s : State) (ctx w addr len : Nat) : Prop where
  pool  : s.inPool ctx addr len = false
  write : s.WriteReady ctx w addr len

/-- The command has a shadow of the block. -/
def Cmd.Shadowed (c : Cmd) (blk : Nat) : Prop := ∃ w, c.shadows.find? (fun p => p.1 = blk) = some (blk, w)

/-- Shadow frames for a command's writes to ranges of its context can be had: of their blocks at most one has no shadow of the command yet,
and then one more bulk frame stays within the quotas and a bulk channel has a free one (R265, R274, R275). -/
def State.WriteRoom (s : State) (c : Cmd) (ranges : List (Nat × Nat)) : Prop :=
  ∃ b, (∀ r ∈ ranges, ∀ p ∈ pieces r.1 r.2, p.1 = b ∨ c.Shadowed p.1) ∧
    (c.Shadowed b ∨ s.quotaRoom c.ctx 1 1 = true ∧ ∃ k ∈ tierUnits 1, 0 < s.freeFrames k)

/-- Of the contexts only the sweep position of ctx may differ (R271). -/
def State.OnlySweep (ctx : Nat) (s t : State) : Prop :=
  t.ctxOf ctx = { s.ctxOf ctx with sweep := (t.ctxOf ctx).sweep } ∧ ∀ k, k ≠ ctx → t.ctxOf k = s.ctxOf k

/-- Of the tiers only what reads count may differ: the access counts of blocks with their epochs, the promotions they queue and the copies
of the region caches (R260, R271). -/
def State.OnlyCounts (s t : State) : Prop :=
  t.tiers = { s.tiers with bm := t.tiers.bm, migrations := t.tiers.migrations, caches := t.tiers.caches } ∧
  ∀ i, t.bmOf i = { s.bmOf i with access := (t.bmOf i).access, epoch := (t.bmOf i).epoch }

/-- The command (f, q, n) has finished with a status and two result words. -/
def State.Ended (t : State) (f q n st a b : Nat) : Prop :=
  ∃ c, t.cmdOf f q n = some c ∧ c.phase = .finished ∧ c.status = st ∧ c.resA = w32 a ∧ c.resB = w32 b

/-- The row i answers a next state in which the command (f, q, n) has finished with a status and two result words, and nothing but that
command differs. -/
def Finishes (i : Instr) (s : State) (f q n st a b : Nat) : Prop :=
  ∃ t, exec i s = .next t ∧ t.Ended f q n st a b ∧ s.OnlyCmd f q n t ∧ s.Only [.cp] t

/-- The row i answers a next state that meets P, and only the groups listed differ. -/
def Answers (i : Instr) (s : State) (gs : List Group) (P : State → Prop) : Prop :=
  ∃ t, exec i s = .next t ∧ s.Only gs t ∧ P t

/-! ### Values of decoded elements -/

/-- The value of a finite element in units of 2^-149, the smallest FP32 value above 0; none for infinities, NaN and what lies below the
unit. -/
def Num.units : Num → Option Int
  | .fin neg m e => if -149 ≤ e then some ((if neg then -1 else 1) * ((m * 2 ^ (e + 149).toNat : Nat) : Int)) else none
  | .inf _ => none
  | .nan => none

/-! ### Arriving frames -/

/-- The state after the link layer has taken an arriving frame: the acknowledgement it carries, and its sequence number (R392). -/
def State.received (s : State) (port : Nat) (f : Frame) : State :=
  (s.modPort port (fun x => x.acked f.lack)).modPort port (fun x => { x with rxSeq := f.lseq, unreported := x.unreported + 1 })

/-- A frame of a known type without reserved bits comes in order on a port that carries frames. -/
structure State.InOrder (s : State) (port : Nat) (f : Frame) : Prop where
  usable : (s.portOf port).usable = true
  seq    : f.lseq = ((s.portOf port).rxSeq + 1) % 65536
  clean  : f.clean = true

/-- It is a circuit frame and this device is the endpoint of its circuit, which is open and no multicast tree. -/
structure State.AtEndpoint (s : State) (port : Nat) (f : Frame) : Prop where
  order   : s.InOrder port f
  circuit : frameClass f.ty = some 1
  here    : (s.circOf f.circuit).state = 2
  ends    : (s.circOf f.circuit).transit = false
  single  : (s.circOf f.circuit).kind ≠ 2

/-- It is a packet frame, and this device is its destination. -/
structure State.ForUs (s : State) (port : Nat) (f : Frame) : Prop where
  order  : s.InOrder port f
  packet : frameClass f.ty ≠ some 1
  dst    : f.dst = s.fab.chip

/-! ### Mapping commands -/

/-- The blocks a mapping command prepares: each block of the range in order, beside those it had. -/
def PreparesMaps (s t : State) (f q n : Nat) (c : Cmd) (blks : List Nat) : Prop :=
  t.tiers.bm = s.tiers.bm ∧ ∃ d, t.cmdOf f q n = some d ∧ d.maps.map Prod.fst = c.maps.map Prod.fst ++ blks

/-! ### The mailbox -/

/-- The management island serves a request with this REQ: its doorbell has been written and the island runs (R459). -/
structure State.Asked (s : State) (req : Nat) : Prop where
  busy  : s.mgmt.mbBusy = true
  runs  : s.mgmt.restarting = false
  asked : bits (s.mgmt.req 0) 7 0 = req

/-! ### Teardown -/

/-- A context is no longer live, and no descriptor slot, peer request or layout of it is left. -/
structure State.Torn (t : State) (ctx : Nat) : Prop where
  gone  : t.ctxLive ctx = false
  slots : ∀ p ∈ t.usedSlots, p.2.ctx ≠ ctx
  reqs  : ∀ r ∈ t.fab.reqs, r.ctx ≠ ctx
  maps  : ∀ l, t.layoutOf ctx l = none

end Sys2Proof.Machine
end

