-- ==== Sys2Proof/Certificates/Slice0/Obligations.lean ====
section
/-! DEFINITION. The statements for the provers: one proposition each, over the machine of
`Sys2Proof/Machine/` and the terms of `Sys2Proof/Safety.lean`. -/

open Sys2Proof Sys2Proof.Machine

/-- The commands whose whole effect is their atomic step finish at once with OK and results 0; until they commit nothing but the
command differs (R73). What they require of a session's state they require at that step (R518); a session of the context that is
CANCELLING turns them away at once (R340). -/
def Obligations.PlainCommandsFinish : Prop :=
  ∀ (s : State) (f q n : Nat) (c : Cmd),
    (s.Runs f q n 0x00 [] c → Finishes (.nop f q n) s f q n St.ok 0 0) ∧
    (s.Runs f q n 0x12 [(2, 0x3F), (3, 0xFFFF)] c → (bit (word c.eff 2) 0 = true → precisionOk (word c.eff 2) = true) →
      Finishes (.contextConfig f q n) s f q n St.ok 0 0) ∧
    (s.Runs f q n 0x40 [(2, 0x0FFF00FF), (3, 0xFFFFFFFF), (4, 0xFFFF), (5, 0xFFFFFFFF), (6, 0xFFFFFFFF), (7, 0xFFFFFFFF),
        (8, 0xFFFFFFFF), (9, 0xFFFFFFFF), (10, 0xFFFFFFFF), (11, 0x1FFF)] c → wnat c.eff 3 % 4 = 0 → wnat c.eff 5 ≤ 2 ^ 24 →
      Finishes (.sessionOpen f q n) s f q n St.ok 0 0) ∧
    (s.Runs f q n 0x41 [(2, 0xFFF)] c → Finishes (.sessionClose f q n) s f q n St.ok 0 0) ∧
    (s.Runs f q n 0x43 [(2, 0xFFF)] c →
      (s.sessOk c.ctx (sessionOf c.eff) = true → (s.sessOf (sessionOf c.eff)).state ≠ 5) →
      Finishes (.sessionPause f q n) s f q n St.ok 0 0) ∧
    (s.Runs f q n 0x44 [(2, 0x1FFF), (3, 0xFFFFFFFF), (4, 0xFFFF), (5, 0xFFFFFFFF)] c →
      (s.sessOk c.ctx (sessionOf c.eff) = true → (s.sessOf (sessionOf c.eff)).state ≠ 5) →
      wnat c.eff 3 % 4 = 0 → wnat c.eff 5 ≤ 2 ^ 24 → (bit (word c.eff 2) 12 = true → wnat c.eff 5 ≠ 0) →
      Finishes (.sessionResume f q n) s f q n St.ok 0 0) ∧
    (s.Runs f q n 0x51 [(2, 0xFFF)] c →
      (s.sessOk c.ctx (sessionOf c.eff) = true → (s.sessOf (sessionOf c.eff)).state ≠ 5) →
      Finishes (.kvPark f q n) s f q n St.ok 0 0) ∧
    (s.Runs f q n 0x53 [(2, 0x1FFFFFF)] c →
      (bit (word c.eff 2) 24 = true ∨ ∃ g, (s.ctxOf c.ctx).geom = some g ∧ fld (word c.eff 2) 23 0 < g.records) →
      Finishes (.kvRelease f q n) s f q n St.ok 0 0) ∧
    (s.Runs f q n 0x54 [(2, 1), (3, 0xFFFFFFFF), (4, 0xFFFFFFFF)] c → bit (word c.eff 2) 0 = false →
      Finishes (.kvTtlSet f q n) s f q n St.ok 0 0) ∧
    (s.Runs f q n 0x82 [(2, 0x3F), (3, 0xFFFF), (4, 0xFFFF), (5, 0xFFFFFFFF), (6, 0xFFFFFFFF)] c → s.mgmt.restarting = false →
      (bit (word c.eff 2) 5 = false → bit (word c.eff 2) 3 = true → fld (word c.eff 4) 15 0 ∈ allIslands) →
      Finishes (.showdownArm f q n) s f q n St.ok 0 0) ∧
    (s.Runs f q n 0x71 [] c → s.openJob c.ctx = none → Finishes (.jobClose f q n) s f q n St.ok 0 0)

/-- The commands that report a result and act at their atomic step finish with that result; until they commit nothing but the
command differs, and for the tokens that a PREFIX_LOOKUP reads what reads count. -/
def Obligations.ResultCommandsFinish : Prop :=
  ∀ (s : State) (f q n : Nat) (c : Cmd),
    (∀ plan : List Word, s.Runs f q n 0x03 [(2, 0xFFFFFFFF), (3, 0xFFFFFFFF), (4, 1)] c → wnat c.eff 2 % 64 = 0 →
      plan.length = 1040 → planFault plan = none → Finishes (.planSubmit f q n plan) s f q n St.ok (wnat plan 1) 0) ∧
    (∀ k, s.Runs f q n 0x10 [(2, 0x1F), (3, 0xFFFF)] c → precisionOk (word c.eff 2) = true → s.freeCtx f = some k →
      Finishes (.contextCreate f q n) s f q n St.ok k 0 ∧
      s.ctxBase f ≤ k ∧ k < s.ctxBase f + s.ctxCount f ∧ s.ctxLive k = false ∧ k ∉ s.chosenCtxs) ∧
    (s.Runs f q n 0x21 [(2, 0xFFFFFFFF), (3, 0xFFFF), (4, 0x1FFFF)] c → s.inPool c.ctx (bwFirst c.eff * blockBytes) (bwCount c.eff * blockBytes) = false →
      addr48 c.eff 2 % blockBytes = 0 → 1 ≤ bwCount c.eff → bwCount c.eff ≤ 65536 → bwFirst c.eff + bwCount c.eff ≤ 2 ^ 30 →
      Finishes (.blockUnmap f q n) s f q n St.ok
        ((rangeBlocks (bwFirst c.eff) (bwCount c.eff)).filter (fun b => s.isMapped c.ctx b)).length 0) ∧
    (s.Runs f q n 0x24 [(2, 0xFFFFFFFF), (3, 0xFFFF), (4, 0x1FFFF), (5, 0xF)] c → s.inPool c.ctx (bwFirst c.eff * blockBytes) (bwCount c.eff * blockBytes) = false →
      addr48 c.eff 2 % blockBytes = 0 → 1 ≤ bwCount c.eff → bwCount c.eff ≤ 65536 → bwFirst c.eff + bwCount c.eff ≤ 2 ^ 30 →
      fld (word c.eff 5) 1 0 ≠ 3 → fld (word c.eff 5) 3 2 ≠ 3 →
      s.access c.ctx 2 (bwFirst c.eff * blockBytes) (bwCount c.eff * blockBytes) false = .ready →
      Finishes (.tierHint f q n) s f q n St.ok (bwCount c.eff) 0) ∧
    (s.Runs f q n 0x25 [(2, 3), (3, 0xFFFFFFFF)] c → fld (word c.eff 2) 1 0 ≠ 3 →
      wnat c.eff 3 ≤ s.ceilOf (s.ctxOf c.ctx).part (fld (word c.eff 2) 1 0) →
      Finishes (.quotaSet f q n) s f q n St.ok (s.quotaOf c.ctx (fld (word c.eff 2) 1 0)) (s.usageOf c.ctx (fld (word c.eff 2) 1 0))) ∧
    (∀ o : Obj, s.Runs f q n 0x64 [(2, 0xFFFFFFFF), (3, 0x80000000)] c → (bit (word c.eff 3) 31 = true → f = 0) →
      s.objOf (objKey f (weightName c.eff 31)) = some o → o.present = true →
      Finishes (.weightDelete f q n) s f q n St.ok o.slots.length 0) ∧
    (s.Runs f q n 0x50 [(2, 0xFFF), (3, 0xFFFFFFFF), (4, 0xFFFF), (5, 0xFFFFFFFF), (6, 0x1FFFF)] c →
      (s.ctxOf c.ctx).geom.isSome = true → (s.sessOk c.ctx (sessionOf c.eff) = true → (s.sessOf (sessionOf c.eff)).state ≠ 5) →
      wnat c.eff 3 % 4 = 0 → 64 ≤ wnat c.eff 5 → wnat c.eff 5 ≤ 2 ^ 24 →
      s.access c.ctx 3 (addr48 c.eff 3) (4 * wnat c.eff 5) true = .ready →
      Answers (.prefixLookup f q n []) s [.cp, .tiers] (fun t =>
        t.Ended f q n St.ok (s.matchPrefix c.ctx
          ((toWords (s.readCtx c.ctx (addr48 c.eff 3) (4 * wnat c.eff 5))).map (fun w => w.toNat))).length 0 ∧
        s.OnlyCmd f q n t ∧ s.OnlyCounts t)) ∧
    (∀ lanes chip port, s.Runs f q n 0x72 [(2, 0x1F)] c → (s.portOf (fld (word c.eff 2) 4 0)).state = 2 →
      (s.portOf (fld (word c.eff 2) 4 0)).mappedOut = false →
      Finishes (.linkRestore f q n lanes chip port) s f q n St.ok (s.portOf (fld (word c.eff 2) 4 0)).lanesUp 0)

/-- A command that has done its work finishes with its result, and only the command differs: the last stage of the long commands. -/
def Obligations.LongCommandsFinish : Prop :=
  ∀ (s : State) (f q n : Nat) (c : Cmd), c.status = 0 →
    (∀ ts, s.Runs f q n 0x01 [(2, 0x13F), (3, if bit (word c.eff 2) 8 then 0xFF else 0xFFFF)] c → c.work = .cancelOf ts true →
      (∀ t ∈ ts, ∀ x, s.cmdOf f (fld (word c.eff 2) 5 0) t.1 = some x → x.phase = .finished ∧
        (t.2 = true ∨ x.status ≠ 0 ∨ (fld (word c.eff 2) 5 0 = q ∧ n < t.1))) →
      Finishes (.cancel f q n) s f q n St.ok (ts.filter (fun t => t.2)).length (ts.filter (fun t => !t.2)).length) ∧
    (∀ num, s.started f q n 0x02 = some c → c.work = .correlation num → s.mgmt.corrDue = [] →
      Finishes (.supplyTime f q n) s f q n St.ok num 0) ∧
    (∀ k g l, s.started f q n 0x13 = some c → c.work = .layout k g → s.layoutOf c.ctx (lwLayout c.eff) = some l → l.phase = .acked →
      Finishes (.layoutLoad f q n []) s f q n St.ok (lwLayout c.eff) 0) ∧
    (∀ k l, s.started f q n 0x14 = some c → c.work = .layout k 3 → s.layoutOf c.ctx (lwLayout c.eff) = some l → l.phase = .cutDone →
      Finishes (.layoutReplace f q n []) s f q n St.ok (lwLayout c.eff) 0) ∧
    (∀ k l, s.started f q n 0x15 = some c → c.work = .layout k 3 → s.layoutOf c.ctx (lwLayout c.eff) = some l → l.phase = .cutDone →
      Finishes (.layoutUnload f q n) s f q n St.ok (lwLayout c.eff) 0) ∧
    (∀ k a l, s.started f q n 0x16 = some c → c.work = .move k 2 a → s.layoutOf c.ctx (lwLayout c.eff) = some l → l.phase = .acked →
      Finishes (.placementMove f q n []) s f q n St.ok (lwLayout c.eff) 0) ∧
    (∀ total out, s.started f q n 0x30 = some c → c.work = .streams total out → s.cmdSlots f q n = [] → c.overflows = [] →
      c.malformed = [] → Finishes (.run f q n []) s f q n St.ok total out) ∧
    (∀ total out, s.started f q n 0x31 = some c → c.work = .streams total out → s.cmdSlots f q n = [] → c.overflows = [] →
      c.malformed = [] → Finishes (.streamLoad f q n []) s f q n St.ok out 0) ∧
    (∀ i k released refused, s.started f q n 0x27 = some c → c.work = .recall i k released refused true →
      Finishes (.lendRecall f q n) s f q n St.ok released refused) ∧
    (∀ num, s.started f q n 0x81 = some c → c.work = .showdown num → s.mgmt.showHeld = true → s.mgmt.showNum = num →
      s.mgmt.showRecorded = true → Finishes (.showdown f q n) s f q n St.ok num (b2n s.mgmt.showIncomplete)) ∧
    (∀ root count, s.Runs f q n 0x52 [(2, 0xFFF)] c → c.work = .kv root count →
      (s.sessOk c.ctx (sessionOf c.eff) = true → (s.sessOf (sessionOf c.eff)).state ≠ 5 ∧
        ∀ r ∈ s.chain c.ctx (s.sessOf (sessionOf c.eff)).tail, ∀ i ∈ s.slotEntries c.ctx (s.recOf c.ctx r),
          (s.bmOf i).state ≠ 2 ∧ (s.bmOf i).state ≠ 3) →
      Finishes (.kvUnpark f q n) s f q n St.ok count 0) ∧
    (∀ id j, s.started f q n 0x70 = some c → c.work = .job id → s.jobOf c.ctx = some j → s.jobReady c.ctx j = true →
      Finishes (.jobOpen f q n []) s f q n St.ok j.rank (s.circuitCount c.ctx))

/-- COPY, FILL, HOST_WRITE and SHAPE_WRITE finish where the source can be read, the destination takes a write and its shadows have
frames: beside the command itself only the tiers, the context's sweep position and the counter of free values differ (R265). HOST_READ
finishes where its source can be read, and writes exactly its host bytes. -/
def Obligations.DataCommandsFinish : Prop :=
  ∀ (s : State) (f q n : Nat) (c : Cmd),
    (s.Runs f q n 0x22 [(2, 0xFFFFFFFF), (3, 0xFFFF), (4, 0xFFFFFFFF), (5, 0xFFFF), (6, 0xFFFFFFFF)] c →
      bytesOk 0 (wnat c.eff 6) = true → s.access c.ctx 4 (addr48 c.eff 4) (wnat c.eff 6) true = .ready →
      s.DstReady c.ctx 2 (addr48 c.eff 2) (wnat c.eff 6) → s.WriteRoom c [(addr48 c.eff 2, wnat c.eff 6)] →
      Answers (.copy f q n []) s [.cp, .tiers, .ctxs, .free] (fun t =>
        t.Ended f q n St.ok (wnat c.eff 6) 0 ∧ s.OnlyCmd f q n t ∧ s.OnlySweep c.ctx t)) ∧
    (s.Runs f q n 0x23 [(2, 0xFFFFFFFF), (3, 0xFFFF), (4, 0xFFFFFFFF), (5, 0xFFFFFFFF)] c →
      bytesOk 0 (wnat c.eff 4) = true → s.DstReady c.ctx 2 (addr48 c.eff 2) (wnat c.eff 4) →
      s.WriteRoom c [(addr48 c.eff 2, wnat c.eff 4)] →
      Answers (.fill f q n []) s [.cp, .tiers, .ctxs, .free] (fun t =>
        t.Ended f q n St.ok (wnat c.eff 4) 0 ∧ s.OnlyCmd f q n t ∧ s.OnlySweep c.ctx t)) ∧
    (∀ data : List Byte, s.Runs f q n 0x28 [(2, 0xFFFFFFFF), (3, 0xFFFF), (4, 0xFFFFFFFF), (5, 0xFFFFFFFF), (6, 0xFFFFFFFF)] c →
      bytesOk 0 (wnat c.eff 6) = true → s.DstReady c.ctx 2 (addr48 c.eff 2) (wnat c.eff 6) → data.length = wnat c.eff 6 →
      s.WriteRoom c [(addr48 c.eff 2, wnat c.eff 6)] →
      Answers (.hostWrite f q n data []) s [.cp, .tiers, .ctxs, .free] (fun t =>
        t.Ended f q n St.ok (wnat c.eff 6) 0 ∧ s.OnlyCmd f q n t ∧ s.OnlySweep c.ctx t)) ∧
    (s.Runs f q n 0x29 [(2, 0xFFFFFFFF), (3, 0xFFFF), (4, 0xFFFFFFFF), (5, 0xFFFFFFFF), (6, 0xFFFFFFFF)] c →
      bytesOk 0 (wnat c.eff 6) = true → s.access c.ctx 2 (addr48 c.eff 2) (wnat c.eff 6) true = .ready →
      Answers (.hostRead f q n []) s [.cp, .host, .tiers] (fun t => t.Ended f q n St.ok (wnat c.eff 6) 0 ∧ s.OnlyCmd f q n t ∧
        s.OnlyCounts t ∧ t.host.msgs = s.host.msgs ∧ ∀ a, cellGet t.host.mem a =
          if wnat2 c.eff 4 ≤ a ∧ a < wnat2 c.eff 4 + wnat c.eff 6 then
            (s.readCtx c.ctx (addr48 c.eff 2) (wnat c.eff 6)).getD (a - wnat2 c.eff 4) 0
          else cellGet s.host.mem a)) ∧
    (∀ op words r, s.Runs f q n 0x33 [(2, 3), (3, 0xFFFFFFFF), (4, 0xFFFF), (5, 0xFFFFFFFF), (6, 0xFFFFFFFF), (7, 0xFFFF)] c →
      op = fld (word c.eff 2) 1 0 → words = (if op = 0 then 0 else if op = 3 then wnat c.eff 5 else 1) →
      r = shapeValue op (wnat c.eff 5) (toWords (s.readCtx c.ctx (addr48 c.eff 6) (4 * words))) →
      wnat c.eff 3 % 4 = 0 → (op = 3 → 1 ≤ wnat c.eff 5 ∧ wnat c.eff 5 ≤ 1024) → wnat c.eff 6 % 4 = 0 →
      (op = 0 → wnat c.eff 6 = 0 ∧ wnat c.eff 7 = 0) → s.access c.ctx 6 (addr48 c.eff 6) (4 * words) true = .ready →
      s.WriteReady c.ctx 3 (addr48 c.eff 3) 4 → s.WriteRoom c [(addr48 c.eff 3, 4)] →
      Answers (.shapeWrite f q n []) s [.cp, .tiers, .ctxs, .free] (fun t =>
        t.Ended f q n St.ok r 0 ∧ s.OnlyCmd f q n t ∧ s.OnlySweep c.ctx t))

/-- FILL over whole 64-byte units of one block that the command has shadowed: the stored bytes are the pattern's, at the range's place in
the shadow's frame, and every byte of every frame outside them reads as before (R265). -/
def Obligations.FillStoresItsPattern : Prop :=
  ∀ (s : State) (f q n blk off : Nat) (w : Shadow) (c : Cmd),
    s.Runs f q n 0x23 [(2, 0xFFFFFFFF), (3, 0xFFFF), (4, 0xFFFFFFFF), (5, 0xFFFFFFFF)] c →
    addr48 c.eff 2 = blk * blockBytes + off → off % 64 = 0 → wnat c.eff 4 % 64 = 0 → 1 ≤ wnat c.eff 4 →
    off + wnat c.eff 4 ≤ blockBytes → s.DstReady c.ctx 2 (addr48 c.eff 2) (wnat c.eff 4) →
    c.shadows.find? (fun p => p.1 = blk) = some (blk, w) →
    Answers (.fill f q n []) s [.cp, .tiers] (fun t =>
      t.Ended f q n St.ok (wnat c.eff 4) 0 ∧ s.OnlyCmd f q n t ∧
      (∀ a, cellGet t.tiers.mem a =
        if w.frame * blockBytes + off ≤ a ∧ a < w.frame * blockBytes + off + wnat c.eff 4 then
          (leBytes 4 (wnat c.eff 5)).getD ((a - (w.frame * blockBytes + off)) % 4) 0
        else cellGet s.tiers.mem a) ∧
      ∃ d v, t.cmdOf f q n = some d ∧ d.shadows.find? (fun p => p.1 = blk) = some (blk, v) ∧ v.frame = w.frame ∧
        v.mask = w.mask ||| unitMask off (wnat c.eff 4))

/-- COPY and HOST_WRITE over whole 64-byte units of one block that the command has shadowed, and SHAPE_WRITE of a word in such a block:
the bytes stored are the source's, the host's and the new value's, at the range's place in the shadow's frame; a unit that a SHAPE_WRITE
writes for the first time takes the committed bytes of its block around the word; every other byte of every frame reads as before, and of
the Block Map only what reads count differs (R265, R266, R271, R339). -/
def Obligations.WritesLandInTheShadow : Prop :=
  ∀ (s : State) (f q n blk off base : Nat) (w : Shadow) (c : Cmd), base = w.frame * blockBytes + off →
    c.shadows.find? (fun p => p.1 = blk) = some (blk, w) → addr48 c.eff (if c.op = 0x33 then 3 else 2) = blk * blockBytes + off →
    (∀ len, s.Runs f q n 0x22 [(2, 0xFFFFFFFF), (3, 0xFFFF), (4, 0xFFFFFFFF), (5, 0xFFFF), (6, 0xFFFFFFFF)] c → len = wnat c.eff 6 →
      off % 64 = 0 → len % 64 = 0 → 1 ≤ len → off + len ≤ blockBytes → s.access c.ctx 4 (addr48 c.eff 4) len true = .ready →
      s.DstReady c.ctx 2 (addr48 c.eff 2) len →
      Answers (.copy f q n []) s [.cp, .tiers] (fun t => t.Ended f q n St.ok len 0 ∧ s.OnlyCmd f q n t ∧
        s.OnlyCounts { t with tiers := { t.tiers with mem := s.tiers.mem } } ∧
        ∀ a, cellGet t.tiers.mem a =
          if base ≤ a ∧ a < base + len then (s.readCtx c.ctx (addr48 c.eff 4) len).getD (a - base) 0 else cellGet s.tiers.mem a)) ∧
    (∀ (data : List Byte) len,
      s.Runs f q n 0x28 [(2, 0xFFFFFFFF), (3, 0xFFFF), (4, 0xFFFFFFFF), (5, 0xFFFFFFFF), (6, 0xFFFFFFFF)] c → len = wnat c.eff 6 →
      off % 64 = 0 → len % 64 = 0 → 1 ≤ len → off + len ≤ blockBytes → data.length = len → s.DstReady c.ctx 2 (addr48 c.eff 2) len →
      Answers (.hostWrite f q n data []) s [.cp, .tiers] (fun t => t.Ended f q n St.ok len 0 ∧ s.OnlyCmd f q n t ∧
        t.tiers = { s.tiers with mem := t.tiers.mem } ∧
        ∀ a, cellGet t.tiers.mem a = if base ≤ a ∧ a < base + len then data.getD (a - base) 0 else cellGet s.tiers.mem a)) ∧
    (∀ r, s.Runs f q n 0x33 [(2, 3), (3, 0xFFFFFFFF), (4, 0xFFFF), (5, 0xFFFFFFFF), (6, 0xFFFFFFFF), (7, 0xFFFF)] c →
      fld (word c.eff 2) 1 0 = 0 → r = wnat c.eff 5 → off % 4 = 0 → off + 4 ≤ blockBytes → wnat c.eff 6 = 0 → wnat c.eff 7 = 0 →
      s.WriteReady c.ctx 3 (addr48 c.eff 3) 4 →
      Answers (.shapeWrite f q n []) s [.cp, .tiers] (fun t => t.Ended f q n St.ok r 0 ∧ s.OnlyCmd f q n t ∧
        s.OnlyCounts { t with tiers := { t.tiers with mem := s.tiers.mem } } ∧
        ∀ a, cellGet t.tiers.mem a =
          if base ≤ a ∧ a < base + 4 then (leBytes 4 r).getD (a - base) 0
          else if w.frame * blockBytes + off / 64 * 64 ≤ a ∧ a < w.frame * blockBytes + off / 64 * 64 + 64 ∧ nbit w.mask (off / 64) = false then
            (s.blockRead c.ctx blk (off / 64 * 64) 64).getD (a - (w.frame * blockBytes + off / 64 * 64)) 0
          else cellGet s.tiers.mem a))

/-- BLOCK_MAP, KV_CONFIGURE, PEER_MAP, STREAM_RESUME, LINK_RESTORE and LINK_RECALIBRATE at work, and what STREAM_RESUME and LINK_RESTORE
do at their commit (R73). -/
def Obligations.MappingCommandsPrepare : Prop :=
  ∀ (s : State) (f q n : Nat) (c : Cmd),
    (s.Runs f q n 0x20 [(2, 0xFFFFFFFF), (3, 0xFFFF), (4, 0x1FFFF), (5, 0xFF)] c →
      fld (word c.eff 5) 1 0 ≠ 3 → fld (word c.eff 5) 7 6 ≠ 3 → fld (word c.eff 5) 5 2 ≤ 2 →
      s.inPool c.ctx (bwFirst c.eff * blockBytes) (bwCount c.eff * blockBytes) = false → addr48 c.eff 2 % blockBytes = 0 →
      1 ≤ bwCount c.eff → bwCount c.eff ≤ 65536 → bwFirst c.eff + bwCount c.eff ≤ 2 ^ 30 →
      (∀ b ∈ rangeBlocks (bwFirst c.eff) (bwCount c.eff), s.isMapped c.ctx b = false) →
      (s.slotsFor (s.ctxOf c.ctx).part c.ctx (rangeBlocks (bwFirst c.eff) (bwCount c.eff))).isSome = true →
      (s.mapFrames f q n c.ctx (fld (word c.eff 5) 1 0) (fld (word c.eff 5) 5 2) (fld (word c.eff 5) 7 6)
        (rangeBlocks (bwFirst c.eff) (bwCount c.eff))).isSome = true →
      Answers (.blockMap f q n) s [.cp, .tiers, .ctxs, .free] (fun t => t.Ended f q n St.ok (bwCount c.eff) 0 ∧ s.OnlyCmd f q n t ∧
        PreparesMaps s t f q n c (rangeBlocks (bwFirst c.eff) (bwCount c.eff)))) ∧
    (s.started f q n 0x54 = some c → c.status = 0 → bit (word c.eff 2) 0 = true → verdictOf (s.configChecks c) = none →
      (s.mapFrames f q n c.ctx 2 0 0 (rangeBlocks ((geomOf c.eff).pool / blockBytes) (geomOf c.eff).recBlocks)).isSome = true →
      Answers (.kvConfigure f q n) s [.cp, .tiers, .ctxs, .free] (fun t =>
        t.Ended f q n St.ok (geomOf c.eff).poolSlots (geomOf c.eff).recBlocks ∧ s.OnlyCmd f q n t ∧
        PreparesMaps s t f q n c (rangeBlocks ((geomOf c.eff).pool / blockBytes) (geomOf c.eff).recBlocks))) ∧
    (s.Runs f q n 0x26 [(2, 0xFFFFFFFF), (3, 0xFFFF), (4, 0x1FFFF), (5, 0x3FFF)] c → c.work = .none →
      s.inPool c.ctx (bwFirst c.eff * blockBytes) (bwCount c.eff * blockBytes) = false → addr48 c.eff 2 % blockBytes = 0 →
      1 ≤ bwCount c.eff → bwCount c.eff ≤ 65536 → bwFirst c.eff + bwCount c.eff ≤ 2 ^ 30 → fld (word c.eff 5) 13 0 ≠ s.fab.chip →
      (∀ b ∈ rangeBlocks (bwFirst c.eff) (bwCount c.eff), s.isMapped c.ctx b = false) →
      (s.slotsFor (s.ctxOf c.ctx).part c.ctx (rangeBlocks (bwFirst c.eff) (bwCount c.eff))).isSome = true →
      s.quotaRoom c.ctx 2 (bwCount c.eff) = true →
      (s.sendReq { id := 0, chip := fld (word c.eff 5) 13 0, ctx := c.ctx, lend := true, count := bwCount c.eff }).isSome = true →
      Answers (.peerMap f q n) s [.cp, .fab] (fun t => s.OnlyCmd f q n t ∧
        t.cmdOf f q n = some { c with begun := true, work := .peer (fld (word c.eff 5) 13 0) 0 (bwCount c.eff) false } ∧
        ∃ r p, t.fab.reqs = s.fab.reqs ++ [r] ∧ r.lend = true ∧ r.chip = fld (word c.eff 5) 13 0 ∧ r.ctx = c.ctx ∧
          r.count = bwCount c.eff ∧ r.port = p ∧ r.id = s.fab.nextReq % 65536 ∧ ∀ j, j ≠ p → t.portOf j = s.portOf j)) ∧
    (s.Runs f q n 0x32 [(2, 0xFFFF)] c → fld (word c.eff 2) 15 0 ≠ 0 → Finishes (.streamResume f q n) s f q n St.ok 0 0) ∧
    (∀ key v cause, c.op = 0x32 → tget none s.slots key = some v → v.ctx = c.ctx → v.state = .halted cause (fld (word c.eff 2) 15 0) →
      (∀ p ∈ s.usedSlots, p.2.ctx = c.ctx → (∃ k, p.2.state = .halted k (fld (word c.eff 2) 15 0)) → p.1 = key) →
      ∃ t, s.commitTables f q c = .ok t 1 0 ∧ s.Only [.slots, .ctxs] t ∧
        (∃ u, tget none t.slots key = some u ∧ u.state = .running ∧ u.posTile = v.posTile ∧ u.marks = v.marks ∧
          u.desc = v.desc) ∧ ∀ j, j ≠ key → tget none t.slots j = tget none s.slots j) ∧
    (c.op = 0x32 → (∀ p ∈ s.usedSlots, p.2.ctx = c.ctx → ∀ k, p.2.state ≠ .halted k (fld (word c.eff 2) 15 0)) →
      s.commitTables f q c = .ok s 0 0) ∧
    (∀ lanes chip port, s.Runs f q n 0x72 [(2, 0x1F)] c → (s.portOf (fld (word c.eff 2) 4 0)).usable = false →
      Answers (.linkRestore f q n lanes chip port) s [.cp] (fun t =>
        t.Ended f q n St.ok (if laneCount lanes < 3 then 0 else lanes % 16) 0 ∧ s.OnlyCmd f q n t ∧
        ∃ d, t.cmdOf f q n = some d ∧ d.work = .restore (fld (word c.eff 2) 4 0) lanes chip port)) ∧
    (∀ p lanes chip nport, c.op = 0x72 → c.work = .restore p lanes chip nport → (s.portOf p).usable = false → 3 ≤ laneCount lanes →
      ∃ t, s.commitTables f q c = .ok t c.resA.toNat c.resB.toNat ∧ s.Only [.fab, .isl, .mgmt, .cores, .power, .ctxs, .free] t ∧
        (t.portOf p).usable = true ∧ (t.portOf p).lanesUp = lanes % 16 ∧ (t.portOf p).nChip = chip ∧ (t.portOf p).nPort = nport ∧
        (t.portOf p).downCause = 0 ∧ ∀ j, j ≠ p → t.portOf j = s.portOf j) ∧
    (s.Runs f q n 0x73 [(2, 0xFF)] c → c.work = .none → (s.portOf (fld (word c.eff 2) 4 0)).usable = true →
      (s.portOf (fld (word c.eff 2) 4 0)).recalActive = false → bit (word c.eff 2) 7 = false →
      ¬ (nbit (s.portOf (fld (word c.eff 2) 4 0)).lanesUp (fld (word c.eff 2) 6 5) = true ∧
        laneCount (s.portOf (fld (word c.eff 2) 4 0)).lanesUp < 4) →
      Answers (.linkRecalibrate f q n) s [.cp, .fab] (fun t => s.OnlyCmd f q n t ∧
        t.cmdOf f q n = some { c with begun := true, work := .port (fld (word c.eff 2) 4 0) (fld (word c.eff 2) 6 5) false 0 } ∧
        (t.portOf (fld (word c.eff 2) 4 0)).recalActive = true ∧ (t.portOf (fld (word c.eff 2) 4 0)).recalLane = fld (word c.eff 2) 6 5 ∧
        (t.portOf (fld (word c.eff 2) 4 0)).lanesUp = (s.portOf (fld (word c.eff 2) 4 0)).lanesUp ∧
        ∀ j, j ≠ fld (word c.eff 2) 4 0 → t.portOf j = s.portOf j))

/-- What a doorbell and a write of Q_CONTROL leave in the queue (Tables 2.4 and 2.8); nothing else differs where an equation says so. -/
def Obligations.QueueRegistersAct : Prop :=
  ∀ (s : State) (f q value : Nat) (v : Word), q < 64 →
    (s.fnLive f = true → s.cp.halted = false → (s.queueOf f q).takesDoorbell = true → value % 65536 ≤ (s.queueOf f q).sqSizeM1 →
      exec (.sqTailDoorbell f q value) s = .next (s.modQueue f q (fun x => { x with sqTail := value % 65536 }))) ∧
    (∀ size, s.fnLive f = true → (s.queueOf f q).takesDoorbell = true → size = (s.queueOf f q).cqSizeM1 + 1 → value % 65536 < size →
      (value % 65536 + size - (s.queueOf f q).cqHead) % size ≤ ((s.queueOf f q).cqTail + size - (s.queueOf f q).cqHead) % size →
      exec (.cqHeadDoorbell f q value) s = .next (s.modQueue f q (fun x => { x with cqHead := value % 65536 }))) ∧
    (s.fnLive f = true → bit v 0 = true → (s.queueOf f q).state = .disabled → s.partEnabled f = true →
      (s.queueOf f q).sqSizeM1 ≠ 0 → (s.queueOf f q).cqSizeM1 ≠ 0 → (s.queueOf f q).sqBase.toNat % 4096 = 0 →
      (s.queueOf f q).cqBase.toNat % 4096 = 0 →
      exec (.queueEnable f q v) s = .next (s.modQueue f q (fun x => { x with
        preemptLimit := fld v 19 16, windowM1 := fld v 12 8, stopOnError := bit v 1, sqHead := 0, sqTail := 0, cqTail := 0,
        cqHead := 0, phase := true, state := .running }))) ∧
    (s.fnLive f = true → bit v 0 = false → (s.queueOf f q).takesDoorbell = true → ∃ t, exec (.queueDisable f q v) s = .next t ∧
      (t.queueOf f q).state = .resetting ∧ (∀ c ∈ (t.queueOf f q).window, c.outlivesReset = true)) ∧
    (s.fnLive f = true → bit v 3 = true → (s.queueOf f q).takesDoorbell = true → ∃ t, exec (.queueReset f q v) s = .next t ∧
      (t.queueOf f q).state = .resetting ∧ (∀ c ∈ (t.queueOf f q).window, c.outlivesReset = true)) ∧
    (s.fnLive f = true → bit v 0 = true → bit v 2 = true → bit v 3 = false → (s.queueOf f q).state = .stopped →
      exec (.queueResume f q v) s = .next (s.modQueue f q (fun x => { x with
        preemptLimit := fld v 19 16, windowM1 := fld v 12 8, stopOnError := bit v 1, state := .running }))) ∧
    ((s.queueOf f q).state = .resetting → (s.queueOf f q).window = [] → (s.partOf f).resetting = false →
      exec (.queueResetDone f q) s = .next (s.modQueue f q (fun x => { x with
        sqHead := 0, sqTail := 0, cqTail := 0, cqHead := 0, phase := true, state := .disabled })))

/-- Fetching a packet, and the two timed messages. -/
def Obligations.FetchTakesThePacket : Prop :=
  ∀ (s : State) (f q : Nat),
    (∀ packet : List Word, s.canFetch f q = true → packet.length = 16 → s.headerVerdict f packet = none →
      exec (.commandFetch f q packet) s = .next ((s.modQueue f q (fun y => { y with
        window := y.window ++ [{ n := (s.queueOf f q).nextN, words := packet, eff := packet }], nextN := y.nextN + 1,
        sqHead := (y.sqHead + 1) % (y.sqSizeM1 + 1) })).modFn f (fun g => { g with fetchFrom := (q + 1) % 64 }))) ∧
    (∀ (packet : List Word) (v : Verdict), s.canFetch f q = true → packet.length = 16 → s.headerVerdict f packet = some v →
      exec (.commandFetch f q packet) s = .next ((s.modQueue f q (fun y => { y with
        window := y.window ++ [{ n := (s.queueOf f q).nextN, words := packet, eff := packet, phase := .finished, status := v.status,
                                 resA := w32 v.a, resB := w32 v.b }],
        nextN := y.nextN + 1, sqHead := (y.sqHead + 1) % (y.sqSizeM1 + 1) })).modFn f (fun g => { g with fetchFrom := (q + 1) % 64 }))) ∧
    (∀ x, x = s.queueOf f q → x.eligible ≠ 0 → x.coalTime ≠ 0 →
      Answers (.coalesceTimeout f q) s [.cp, .host] (fun t => (t.queueOf f q).eligible = 0 ∧
        ((s.partOf f).resetting = false → ((s.fnOf f).vecOf x.vector).held = false → (s.fnOf f).vecBlocked x.vector = false →
          s.intRate f = 0 → t.host.msgs = s.host.msgs ++
            [⟨f, x.vector, ((s.fnOf f).vecOf x.vector).addr, ((s.fnOf f).vecOf x.vector).data⟩]))) ∧
    (∀ v x, x = (s.fnOf f).vecOf v → s.intRate f ≠ 0 → (s.partOf f).resetting = false → x.held = false →
      Answers (.rateToken f v) s [.cp] (fun t => (t.fnOf f).vecOf v = { x with tokens := min 8 (x.tokens + 1) } ∧
        ∀ w, w ≠ v → (t.fnOf f).vecOf w = (s.fnOf f).vecOf w)) ∧
    (∀ v x, x = (s.fnOf f).vecOf v → s.intRate f ≠ 0 → (s.partOf f).resetting = false → x.held = true → (s.fnOf f).vecBlocked v = false →
      Answers (.rateToken f v) s [.cp, .host] (fun t => ((t.fnOf f).vecOf v).held = false ∧
        ((t.fnOf f).vecOf v).tokens = min 8 (x.tokens + 1) - 1 ∧ t.host.msgs = s.host.msgs ++ [⟨f, v, x.addr, x.data⟩]))

/-- Starting a command and re-running a pre-empted one. -/
def Obligations.CommandsStartAndRerun : Prop :=
  ∀ (s : State) (f q n : Nat) (c : Cmd), s.cmdOf f q n = some c → s.cp.halted = false →
    (c.phase = .fetched → ((∃ r, (s.queueOf f q).window = c :: r) ∨ (depOf c.words = false ∧ indirectOf c.words = false)) →
      (namesContext c.words = true → s.ctxLive c.ctx = true) → s.barred f q c = false → indirectOf c.words = false →
      layoutWord c.op = none → c.order = 0 →
      Answers (.commandStart f q n []) s [.cp] (fun t => t.cp.starts = s.cp.starts + 1 ∧ ∃ d, t.cmdOf f q n = some d ∧
        d.phase = .running ∧ d.words = c.words ∧ d.eff = c.words ∧ d.order = s.cp.starts + 1 ∧ d.runs = min 15 (c.runs + 1) ∧
        d.np = s.honours f c)) ∧
    (c.phase = .fetched → c.status = 0 →
      ((∃ r, (s.queueOf f q).window = c :: r) ∨ (depOf c.words = false ∧ indirectOf c.words = false)) →
      namesContext c.words = true → s.ctxLive c.ctx = false →
      Finishes (.commandStart f q n []) s f q n St.contextGone 0 0) ∧
    (∀ l lnum, c.phase = .fetched → (∃ r, (s.queueOf f q).window = c :: r) → namesContext c.words = true → s.ctxLive c.ctx = true →
      s.barred f q c = false → indirectOf c.words = false → c.eff = c.words → c.runsOnLayout = true → c.layoutNum = some lnum →
      s.layoutRefused c = none → s.layoutHeld f q c = false → s.layoutOf c.ctx lnum = some l →
      s.shortClusters c.ctx lnum l (s.trialSlots f q c lnum) = [] →
      s.rivals c.ctx lnum [] (s.trialSlots f q c lnum) = [] →
      Answers (.commandStart f q n []) s [.cp, .cores] (fun t => ∃ d, t.cmdOf f q n = some d ∧ d.phase = .running ∧
        d.eff = c.words ∧ d.runs = min 15 (c.runs + 1) ∧ d.order = (if c.order = 0 then s.cp.starts + 1 else c.order))) ∧
    (∀ l lnum, c.phase = .preempted → c.preempts ≤ (s.queueOf f q).preemptLimit → c.behind = none → c.order ≠ 0 →
      indirectOf c.words = false → c.eff = c.words → c.runsOnLayout = true → c.layoutNum = some lnum →
      s.moving c.ctx lnum = false → s.layoutRefused c = none → s.layoutHeld f q c = false → s.layoutOf c.ctx lnum = some l →
      s.shortClusters c.ctx lnum l (s.trialSlots f q c lnum) = [] →
      Answers (.commandRerun f q n []) s [.cp, .cores] (fun t => ∃ d, t.cmdOf f q n = some d ∧ d.phase = .running ∧
        d.eff = c.words ∧ d.runs = min 15 (c.runs + 1) ∧ d.order = c.order)) ∧
    (∀ l, c.phase = .preempted → c.status = 0 → (s.queueOf f q).preemptLimit < c.preempts → s.moving c.ctx (c.layoutNum.getD 0) = false →
      s.layoutOf c.ctx (c.layoutNum.getD 0) = some l → c.work = .none → s.cmdSlots f q n = [] → c.shadows = [] → c.maps = [] →
      ∃ t, exec (.commandRerun f q n []) s = .next t ∧ t.Ended f q n (if c.moved then St.moved else St.preempted) 0 0)

/-- The commit of the oldest command of a queue: its table updates and its record (R73, R75, R80, R81). -/
def Obligations.CommitWritesItsRecord : Prop :=
  ∀ (s u : State) (f q a b : Nat) (c : Cmd) (r : List Cmd) (x : Queue), x = s.queueOf f q → x.window = c :: r → c.phase = .finished →
    c.status = 0 → c.overflowed = false → c.reduced = false → c.shadows = [] → intOf c.words = false → c.op ≠ 0x03 → c.op ≠ 0x10 →
    x.state = .running → x.ringFull = false → s.power.linkUp = true → (s.partOf f).resetting = false → s.cp.halted = false →
    s.prepHeld f q c.n = false → (namesContext c.words = true → s.spanHeld f q c.n c.ctx = false) →
    s.commitTables f q c = .ok u a b → u.cp = s.cp → u.parts = s.parts → u.isl = s.isl →
    ∃ t, exec (.commandCommit f q []) s = .next t ∧ u.Only [.cp, .parts, .host, .slots, .ctxs] t ∧
      (∀ i, cellGet t.host.mem i =
        if x.cqBase.toNat + 32 * x.cqTail ≤ i ∧ i < x.cqBase.toNat + 32 * x.cqTail + 32 then
          (wordBytes ([w32 (tagOf c.words), (s.partOf f).commitSeq, w32 a, w32 b,
              w32 (x.sqHead + q * 2 ^ 16 + b2n x.phase * 2 ^ 31), w32 (contextOf c.words + c.runs * 2 ^ 8)] ++
            w64 (c.commitCount.getD (s.islCount islCp)))).getD (i - (x.cqBase.toNat + 32 * x.cqTail)) 0
        else cellGet u.host.mem i) ∧
      t.host.msgs = u.host.msgs ∧
      (t.partOf f).commitSeq = (s.partOf f).commitSeq + 1 ∧
      t.queueOf f q = { x with
        window := x.window.filter (fun d => d.n ≠ c.n), lastSeq := (s.partOf f).commitSeq,
        cqTail := if x.cqTail = x.cqSizeM1 then 0 else x.cqTail + 1, phase := if x.cqTail = x.cqSizeM1 then !x.phase else x.phase }

/-- Stages of commands that change more than the command. -/
def Obligations.StagedCommandsAct : Prop :=
  ∀ (s : State) (f q n : Nat) (c : Cmd), s.started f q n c.op = some c → c.status = 0 →
    (c.op = 0x45 → c.work = .none → reservedWord c.eff [(2, 0xFFF)] = none → s.sessOk c.ctx (sessionOf c.eff) = true →
      (s.sessOf (sessionOf c.eff)).state ≠ 5 →
      (∀ x ∈ s.allCmds, x.2.2.namesSession c.ctx (sessionOf c.eff) = false ∧ x.2.2.stepWith c.ctx (sessionOf c.eff) = false) →
      exec (.sessionCancel f q n) s = .next ((s.modSess (sessionOf c.eff) (fun x =>
        { x with returnState := (s.sessOf (sessionOf c.eff)).state, state := 5 })).setWork f q n
          (.sessionCancel (sessionOf c.eff) 0 []))) ∧
    (∀ k count steps, c.op = 0x45 → c.work = .sessionCancel k count steps →
      (∀ x ∈ steps, ∀ d st, s.cmdOf x.1 x.2.1 x.2.2 = some d → d.work = .step st →
        ∀ e ∈ st.entries, e.session = k → e.dropAcks = []) →
      Finishes (.cancelRetire f q n) s f q n St.ok count 0) ∧
    (c.op = 0x45 → c.work = .none → reservedWord c.eff [(2, 0xFFF)] = none → s.sessOk c.ctx (sessionOf c.eff) = false →
      exec (.sessionCancel f q n) s = .next (s.setWork f q n (.sessionCancel (sessionOf c.eff) 0 []))) ∧
    (∀ st, c.op = 0x42 → c.work = .step st → st.span = false → s.cmdSlots f q n = [] → c.overflows = [] → c.malformed = [] →
      Answers (.stepCmd f q n []) s [.cp] (fun t => t.Ended f q n St.ok 0 0 ∧ s.OnlyCmd f q n t ∧ ∃ d, t.cmdOf f q n = some d ∧
        d.work = .step { st with entries := st.entries.map (fun e => s.decideEntry st e) })) ∧
    (∀ (image : List Byte) len key stripes, c.op = 0x60 → c.work = .none →
      reservedWord c.eff [(2, 0xFFFFFFFF), (3, 1), (4, 0xFFFFFFFF), (5, 0xFFFFFFFF), (6, 0xFFFFFFFF), (7, 0xFF)] = none →
      len = wnat c.eff 6 + fld (word c.eff 7) 7 0 * 2 ^ 32 → key = objKey f (weightName c.eff 0) → stripes = ceilDiv len stripeBytes →
      (bit (word c.eff 3) 0 = true → f = 0) → wnat c.eff 2 ≠ 0 → wnat c.eff 2 ≠ 0xFFFFFFFF → s.objOf key = none →
      wnat c.eff 4 % 64 = 0 → 64 ≤ len → len ≤ 2 ^ 40 → image.length = len → s.writersBegun < 8 →
      s.stripesOf f + stripes ≤ wnat (s.partOf f).record 13 → stripes ≤ (s.slotsIn 0).length → s.store.objs.length < 16384 →
      objectFault image = none →
      Answers (.weightWrite f q n image) s [.cp, .store] (fun t => s.OnlyCmd f q n t ∧
        t.objOf key = some { owner := f, shared := bit (word c.eff 3) 0, id := wnat c.eff 2, slots := (s.slotsIn 0).take stripes,
                             firstSeq := s.store.seq + 1, bytes := len, image := image } ∧
        (∀ k, k ≠ key → t.objOf k = s.objOf k) ∧ t.store.seq = s.store.seq + stripes)) ∧
    (∀ (image : List Byte) k slots o, c.op = 0x60 → c.work = .object k slots → s.objOf k = some o →
      Answers (.weightWrite f q n image) s [.cp, .store] (fun t => t.Ended f q n St.ok slots.length 0 ∧ s.OnlyCmd f q n t ∧
        t.objOf k = some { o with isSealed := true } ∧ ∀ j, j ≠ k → t.objOf j = s.objOf j)) ∧
    (∀ result, c.op = 0x80 → c.work = .none → reservedWord c.eff [(2, 0xFFF001)] = none →
      fld (word c.eff 2) 23 12 < (if fld (word c.eff 2) 0 0 = 1 then 192 else 3072) →
      (f ≠ 0 → s.clusterOwner (testCluster c.eff) = f) → s.mgmt.restarting = false → s.gatedIn [testCluster c.eff] = false →
      s.testIdle (testCluster c.eff) = true → testCluster c.eff ∉ s.mgmt.testing →
      exec (.selfTest f q n result) s = .next ({ s with mgmt := { s.mgmt with
        testing := s.mgmt.testing ++ [testCluster c.eff] } }.setWork f q n
          (.target (fld (word c.eff 2) 0 0) (testCluster c.eff) 1))) ∧
    (∀ a b d, c.op = 0x80 → c.work = .target a b d →
      exec (.selfTest f q n .pass) s = .next ({ s with mgmt := { s.mgmt with
        testing := s.mgmt.testing.erase (testCluster c.eff) } }.done f q n 0 0)) ∧
    (∀ us, c.op = 0x83 → c.work = .none → reservedWord c.eff [(2, 0xF3), (3, 0xFFFF)] = none → fld (word c.eff 2) 1 0 ≠ 3 →
      (fld (word c.eff 2) 1 0 = 0 → fld (word c.eff 2) 7 4 < 4) → s.mgmt.restarting = false →
      exec (.memoryRetrain f q n us) s = .next (s.setWork f q n (.target (fld (word c.eff 2) 1 0) (fld (word c.eff 2) 7 4) 0))) ∧
    (∀ us k i, c.op = 0x83 → c.work = .target k i 1 → us ≤ 5000 →
      exec (.memoryRetrain f q n us) s = .next ({ s with tiers := { s.tiers with
        retraining := s.tiers.retraining.erase (k, i) } }.done f q n us 0)) ∧
    (∀ k i, s.retrainWaits f q n = some (k, i) → s.targetInFlight k i = false →
      exec (.retrainTargetQuiet f q n) s = .next ({ s with tiers := { s.tiers with
        retraining := s.tiers.retraining ++ [(k, i)] } }.setWork f q n (.target k i 1))) ∧
    (∀ k i, s.retrainWaits f q n = some (k, i) → c.work = .target k i 0 → s.cmdSlots f q n = [] → c.shadows = [] → c.maps = [] →
      ∃ t, exec (.retrainWaitTimeout f q n) s = .next t ∧ t.Ended f q n St.targetBusy 0 0)

/-- WEIGHT_LOAD, ADAPTER_ATTACH and ADAPTER_DETACH finish where the object and the destination are as the commands require and shadow frames
can be had, and then beside the command only the tiers, the context's sweep position and the counter of free values differ; a member and
the reader of a WEIGHT_LOAD_BROADCAST finish with their pieces; WEIGHT_REPLACE takes its staging frames, fills them and raises its
barrier, and WEIGHT_REPLACE_COPY ends it past its commit point. The flash and the staging frames read clean. -/
def Obligations.WeightCommandsAct : Prop :=
  ∀ (s : State) (f q n : Nat) (c : Cmd) (o : Obj) (ps : List Piece) (chan : Nat),
    (s.Runs f q n 0x61 [(2, 0xFFFFFFFF), (3, 0x80003FFF), (4, 0xFFFFFFFF), (5, 0xFFFF)] c → s.findObj f c = some o →
      ps = o.shardPieces (loadShard c.eff) → ps ≠ [] → loadDest c.eff % blockBytes = 0 → s.destOk c.ctx (loadDest c.eff) ps = true →
      (∀ p ∈ ps, s.access c.ctx 4 (loadDest c.eff + p.dst) p.len false = .ready ∧ (o.pieceBytes p).length = p.len) →
      s.WriteRoom c (ps.map (fun p => (loadDest c.eff + p.dst, p.len))) →
      Answers (.weightLoad f q n .clean chan) s [.cp, .tiers, .ctxs, .free] (fun t =>
        t.Ended f q n St.ok ps.length 0 ∧ s.OnlyCmd f q n t ∧ s.OnlySweep c.ctx t)) ∧
    (s.Runs f q n 0x65 [(2, 0xFFFFFFFF), (3, 0x80003FFF), (4, 0xFFFFFFFF), (5, 0xFFFF)] c → s.findObj f c = some o →
      ps = o.shardPieces (loadShard c.eff) → ps ≠ [] → loadDest c.eff % blockBytes = 0 → s.destOk c.ctx (loadDest c.eff) ps = true →
      imKind o.image = 1 → (decide (2 ^ 32 ≤ imBase o.image), imBase o.image % 2 ^ 32) ∈ (s.ctxOf c.ctx).bases →
      s.adapterOf c.ctx (weightName c.eff 31) = none → (s.ctxOf c.ctx).adapters.length < 256 →
      (∀ p ∈ ps, s.access c.ctx 4 (loadDest c.eff + p.dst) p.len false = .ready ∧ (o.pieceBytes p).length = p.len) →
      s.WriteRoom c (ps.map (fun p => (loadDest c.eff + p.dst, p.len))) →
      Answers (.adapterAttach f q n .clean chan) s [.cp, .tiers, .ctxs, .free] (fun t =>
        t.Ended f q n St.ok ps.length 0 ∧ s.OnlyCmd f q n t ∧ s.OnlySweep c.ctx t)) ∧
    (∀ a : Adapter, s.Runs f q n 0x66 [(2, 0xFFFFFFFF), (3, 0x80000000)] c → s.adapterOf c.ctx (weightName c.eff 31) = some a →
      (∀ e ∈ a.extents, s.access c.ctx 2 e.1 e.2 false = .ready) → s.WriteRoom c a.extents →
      Answers (.adapterDetach f q n) s [.cp, .tiers, .ctxs, .free] (fun t =>
        t.Ended f q n St.ok a.extents.length 0 ∧ s.OnlyCmd f q n t ∧ s.OnlySweep c.ctx t)) ∧
    (∀ err j nm shard dest rd kd sent got ld,
      s.Runs f q n 0x62 [(2, 0xFFFFFFFF), (3, 0x80003FFF), (4, 0xFFFFFFFF), (5, 0xFFFF), (6, 0x3FFF)] c →
      c.work = .broadcast nm shard dest rd kd sent got ld → s.openJob c.ctx = some j → fld (word c.eff 6) 13 0 < j.members.length →
      j.rank ≠ fld (word c.eff 6) 13 0 → loadDest c.eff % blockBytes = 0 →
      j.announcedShard (weightName c.eff 31) shard = some ps → ps ≠ [] → s.destOk c.ctx dest ps = true → ps.all (pieceWhole got) = true →
      Finishes (.weightLoadBroadcast f q n err chan) s f q n St.ok ps.length 0) ∧
    (∀ j nm shard dest rd kd sent got,
      s.Runs f q n 0x62 [(2, 0xFFFFFFFF), (3, 0x80003FFF), (4, 0xFFFFFFFF), (5, 0xFFFF), (6, 0x3FFF)] c →
      c.work = .broadcast nm shard dest rd kd sent got true → s.openJob c.ctx = some j → j.rank < j.members.length →
      fld (word c.eff 6) 13 0 = j.rank → loadDest c.eff % blockBytes = 0 → s.findObj f c = some o →
      o.shardPieces (loadShard c.eff) ≠ [] → s.destOk c.ctx (loadDest c.eff) (o.shardPieces (loadShard c.eff)) = true →
      (∀ r ∈ j.loadReqs, r.2.1 ≠ weightName c.eff 31) → (∀ p ∈ j.others, (p.1, weightName c.eff 31) ∈ j.dones) →
      Answers (.weightLoadBroadcast f q n .clean chan) s [.cp, .ctxs] (fun t =>
        t.Ended f q n St.ok (o.shardPieces shard).length sent ∧ s.OnlyCmd f q n t)) ∧
    (∀ staging u k, s.Runs f q n 0x63 [(2, 0xFFFFFFFF), (3, 0x80003FFF), (4, 0xFFFFFFFF), (5, 0xFFFF)] c → c.work = .none →
      s.findObj f c = some o → imKind o.image = 0 → ps = o.shardPieces (loadShard c.eff) → ps ≠ [] →
      loadDest c.eff % blockBytes = 0 → s.destOk c.ctx (loadDest c.eff) ps = true →
      k = ceilDiv (sumNat (ps.map (fun p => p.len))) blockBytes → s.quotaRoom c.ctx 1 k = true →
      s.takeStaging c.ctx k = some (staging, u) →
      Answers (.weightReplace f q n .clean chan) s [.cp, .tiers, .free] (fun t => s.OnlyCmd f q n t ∧ t.tiers.bm = s.tiers.bm ∧
        t.cmdOf f q n = some { c with
          begun := true
          work := .replace (weightName c.eff 31) (loadShard c.eff) (loadDest c.eff) 1 0 ((ps.map (fun p => p.layer)).eraseDups).length 0 staging } ∧
        staging.length = k ∧ ∀ p ∈ staging, t.frameOf p.2 = .used)) ∧
    (∀ shard dest k layers held staging nm, s.started f q n 0x63 = some c → c.work = .replace nm shard dest 1 k layers held staging →
      s.findObj f c = some o → (s.ctxOf c.ctx).barrier = none →
      Answers (.weightReplace f q n .clean chan) s [.cp, .tiers, .ctxs] (fun t => s.OnlyCmd f q n t ∧
        t.cmdOf f q n = some { c with begun := true, work := .replace nm shard dest 2 s.cp.starts layers held staging } ∧
        t.ctxOf c.ctx = { s.ctxOf c.ctx with barrier := some (f, q, n) } ∧ (∀ k, k ≠ c.ctx → t.ctxOf k = s.ctxOf k) ∧
        t.tiers = { s.tiers with mem := t.tiers.mem } ∧
        (∀ a, (∀ p ∈ staging, a < p.2 * blockBytes ∨ (p.2 + 1) * blockBytes ≤ a) → cellGet t.tiers.mem a = cellGet s.tiers.mem a))) ∧
    (∀ shard dest starts layers held staging nm place, s.started f q n 0x63 = some c → c.status = 0 →
      c.work = .replace nm shard dest 2 starts layers held staging → s.findObj f c = some o → ps = o.shardPieces shard →
      s.behindBarrier f q n c.ctx starts = true → s.destInvalid c.ctx dest ps = none → s.destSettled c.ctx dest ps = true →
      Answers (.weightReplaceCopy f q n .clean place) s [.cp, .tiers] (fun t =>
        t.Ended f q n St.ok layers (s.heldAtBarrier f q n c.ctx) ∧ s.OnlyCmd f q n t ∧
        ∃ d, t.cmdOf f q n = some d ∧ d.pastCommit = true ∧ d.commitCount = some (s.islCount islCp) ∧
          d.work = .load (weightName c.eff 31) 0 shard dest layers []))

/-- One operation of each engine of a core, where no check fails. -/
def Obligations.CoreEnginesCompute : Prop :=
  ∀ (s : State) (core slot : Nat) (h : Hand),
    (∀ e tok bank, s.handReady core slot = true → slot = nextHand (s.coreOf core).active (s.handReady core) (s.coreOf core).runPairs →
      s.handOf core slot = some h → h.nextPair 0 = some e → h.matrixToken e = (tok, false) → mtokenBad tok = false →
      nbit (wnat tok 0) 2 = false → nbit (wnat tok 0) 5 = false → (s.bTile core h tok).2 = true →
      h.contract tok (e.data.getD {}) (s.bTile core h tok).1 = (bank, false) →
      Answers (.pairIssue core .clean) s [.cores] (fun t =>
        t.handOf core slot = some { h.popPair 0 e with
          bank := bank, bankRowsM1 := (e.data.getD {}).rowsM1, issued := h.issued + 1,
          preload := if nbit (wnat tok 0) 3 then h.preload.drop 1 else h.preload,
          drainTag := if nbit (wnat tok 0) 1 then some (e.data.getD {}).tag else none, drainOwn := (e.data.getD {}).own } ∧
        (t.coreOf core).active = slot ∧
        (t.coreOf core).runPairs = (if slot = (s.coreOf core).active then (s.coreOf core).runPairs + 1 else 1) ∧
        (t.coreOf core).tq = (s.coreOf core).tq ∧
        (∀ i, i ≠ slot → t.handOf core i = s.handOf core i) ∧ ∀ j, j ≠ core → t.coreOf j = s.coreOf j)) ∧
    (∀ e first tile, s.handOf core slot = some h → (s.coreOf core).fenced = false → h.nextPair 2 = some e → tile = e.data.getD {} →
      bits (wnat (e.ctl.getD {}).words 0) 31 12 = 0 → wnat (e.ctl.getD {}).words 1 = 0 → (e.ctl.getD {}).restSet 8 = false →
      first = (h.img.sramBase + bits (wnat (e.ctl.getD {}).words 0) 11 0) * 64 →
      bits (wnat (e.ctl.getD {}).words 0) 11 0 * 64 + tile.bytes ≤ (h.img.sramSizeM1 + 1) * 64 →
      Answers (.storeWrite core slot .clean) s [.cores, .sram] (fun t =>
        t.handOf core slot = some { h.popPair 2 e with p2Last := some e.tag } ∧
        (∀ a, cellGet t.sram a =
          if core * 2 ^ 18 + first ≤ a ∧ a < core * 2 ^ 18 + first + tile.flits.length then
            tile.flits.getD (a - (core * 2 ^ 18 + first)) 0
          else cellGet s.sram a) ∧
        (∀ i, i ≠ slot → t.handOf core i = s.handOf core i) ∧ ∀ j, j ≠ core → t.coreOf j = s.coreOf j)) ∧
    (∀ tag data n, s.handOf core slot = some h → (s.coreOf core).fenced = false → h.drainTag = some tag → h.img.chain ≠ [] → (s.coreOf core).tq.length < 8 →
      n = ((List.range 4).filter (fun i => match s.handOf core i with
        | some x => !x.img.chain.isEmpty
        | none => false)).length →
      ((s.coreOf core).tq.filter (fun e => e.hand = slot)).length + n < 9 →
      drainData h.img.outFmt h.roundTz h.bank h.bankRowsM1 h.img.outColsM1 = (data, false) →
      Answers (.drain core slot .clean) s [.cores] (fun t =>
        t.handOf core slot = some { h with drainTag := none, drainOwn := none } ∧
        (t.coreOf core).tq = (s.coreOf core).tq ++ [⟨slot, {
          fmt := h.img.outFmt, rowsM1 := h.bankRowsM1, colsM1 := h.img.outColsM1,
          ctx := h.ctx, hand := slot, deal := h.deal, tag := tag, data := data, own := h.drainOwn }⟩] ∧
        (∀ i, i ≠ slot → t.handOf core i = s.handOf core i) ∧ ∀ j, j ≠ core → t.coreOf j = s.coreOf j)) ∧
    (∀ e i tok outs rs o tile r ri d nb, (s.coreOf core).fenced = false → s.tqPick core = some (e, i) → s.handOf core e.hand = some h →
      h.p1Ready = some (none, tok, false) → vtokenBad tok = false → chainFault h.img.chain = none → h.memOut = false →
      h.run e.tile {} tok (s.memLanes core h) = (outs, rs) → h.outTiles e.tile outs = [(o, tile)] →
      h.routeFor 5 o = some (r, ri) → r.dests = [d] → d.target ≤ 3 → s.findStation core d.target d.channel true = none →
      s.linkClosed core d.target = false → neighbour core d.target = some nb → nb ≠ core →
      tile.slots ≤ (s.coreOf nb).credits ((d.target + 2) % 4 * 4 + d.channel) →
      Answers (.vectorRun core .clean) s [.cores] (fun t =>
        (t.coreOf core).tq = (s.coreOf core).tq.eraseIdx i ∧
        t.handOf core e.hand = some { h with rowState := rs, outCount := tmod 0 h.outCount o (fun n => (n + 1) % 1024) } ∧
        tget [] (t.coreOf nb).inq ((d.target + 2) % 4 * 4 + d.channel) =
          tget [] (s.coreOf nb).inq ((d.target + 2) % 4 * 4 + d.channel) ++ [h.mkTile e.hand tile d] ∧
        (∀ j, j ≠ e.hand → t.handOf core j = s.handOf core j) ∧ ∀ j, j ≠ core → j ≠ nb → t.coreOf j = s.coreOf j))

/-- The steering unit and the configuration port of a core, and the layout's stages they complete. -/
def Obligations.TilesAndCutsMove : Prop :=
  ∀ (s : State) (core port ch ctx lnum : Nat) (t0 : Tile) (rest : List Tile), s.mgmt.cutOpen = false →
    (∀ h r ri d nb, tget [] (s.coreOf core).inq (port * 4 + ch) = t0 :: rest → t0.kind < 2 → port * 4 + ch ∉ (s.coreOf core).heldIn →
      s.handWaits core t0 = false → s.arriveRoute core port ch t0 = some (h, r, ri) → r.dests = [d] → d.target ≤ 3 →
      s.findStation core d.target d.channel true = none → s.linkClosed core d.target = false → neighbour core d.target = some nb →
      nb ≠ core → t0.slots ≤ (s.coreOf nb).credits ((d.target + 2) % 4 * 4 + d.channel) → s.hasTurn core (port * 4 + ch) r = true →
      Answers (.tileArrive core port ch) s [.cores] (fun t => tget [] (t.coreOf core).inq (port * 4 + ch) = rest ∧
        tget [] (t.coreOf nb).inq ((d.target + 2) % 4 * 4 + d.channel) =
          tget [] (s.coreOf nb).inq ((d.target + 2) % 4 * 4 + d.channel) ++ [t0] ∧
        ∀ j, j ≠ core → j ≠ nb → t.coreOf j = s.coreOf j)) ∧
    (∀ h r ri d, tget [] (s.coreOf core).inq (port * 4 + ch) = t0 :: rest → t0.kind < 2 → port * 4 + ch ∉ (s.coreOf core).heldIn →
      s.handWaits core t0 = false → s.arriveRoute core port ch t0 = some (h, r, ri) → r.dests = [d] → 4 ≤ d.target → d.target ≤ 9 →
      h.deal = t0.deal → (d.target % 2 = 1 → h.unpaired ((d.target - 4) / 2) = false) →
      (d.target % 2 = 0 → t0.fmt = h.sideFmt ((d.target - 4) / 2)) →
      h.pairRoom ((d.target - 4) / 2) (d.target % 2 = 1) t0.tag = true →
      Answers (.tileArrive core port ch) s [.cores] (fun t => tget [] (t.coreOf core).inq (port * 4 + ch) = rest ∧
        t.handOf core t0.hand = some (h.putPair ((d.target - 4) / 2) (d.target % 2 = 1) t0) ∧
        (∀ i, i ≠ t0.hand → t.handOf core i = s.handOf core i) ∧ ∀ j, j ≠ core → t.coreOf j = s.coreOf j)) ∧
    (∀ h r ri, tget [] (s.coreOf core).inq (port * 4 + ch) = t0 :: rest → t0.kind = 2 → port * 4 + ch ∉ (s.coreOf core).heldIn →
      s.handWaits core t0 = false → s.arriveRoute core port ch t0 = some (h, r, ri) → (∀ d ∈ r.dests, 3 < d.target) →
      Answers (.cutArrive core port ch) s [.cores] (fun t => tget [] (t.coreOf core).inq (port * 4 + ch) = rest ∧
        t.handOf core t0.hand = some { h with cutInputs := h.cutInputs ++ [port * 4 + ch] } ∧
        (t.coreOf core).heldIn = insertAsc (s.coreOf core).heldIn (port * 4 + ch) ∧
        ∀ j, j ≠ core → t.coreOf j = s.coreOf j)) ∧
    (∀ slot h r, (s.coreOf core).cfg = .handWrite slot h :: r → (s.coreOf core).fenced = true → h.img.routeOnly = false →
      Answers (.configItem core) s [.cores] (fun t => (t.coreOf core).cfg = r ∧ (∀ i, t.handOf core i = s.handOf core i) ∧
        ∀ j, j ≠ core → t.coreOf j = s.coreOf j)) ∧
    (∀ slot h r, (s.coreOf core).cfg = .handWrite slot h :: r → ((s.coreOf core).fenced = false ∨ h.img.routeOnly = true) →
      Answers (.configItem core) s [.cores] (fun t => t.handOf core slot = some h ∧ (t.coreOf core).cfg = r ∧
        (∀ i, i ≠ slot → t.handOf core i = s.handOf core i) ∧
        (t.coreOf core).tq = (s.coreOf core).tq.filter (fun e => e.hand ≠ slot) ∧ ∀ j, j ≠ core → t.coreOf j = s.coreOf j)) ∧
    (∀ l r, (s.coreOf core).cfg = .finish ctx lnum :: r → s.layoutOf ctx lnum = some l →
      Answers (.configItem core) s [.cores, .ctxs] (fun t => (t.coreOf core).cfg = r ∧
        t.layoutOf ctx lnum = some { l with acksDue := l.acksDue.erase core } ∧ ∀ k, k ≠ ctx → t.ctxOf k = s.ctxOf k)) ∧
    (∀ d l r, (s.coreOf core).cfg = .dealUpdate ctx lnum d :: r → s.layoutOf ctx lnum = some l → l.redealDue.erase core ≠ [] →
      (∀ i h, i < 4 → s.handOf core i = some h → h.ctx = ctx → h.layout = lnum → h.waiting = false → h.drainTag = none) →
      Answers (.dealUpdateApply core) s [.cores, .ctxs] (fun t => (t.coreOf core).cfg = r ∧
        (∀ i h, i < 4 → s.handOf core i = some h → h.ctx = ctx → h.layout = lnum → h.waiting = false →
          t.handOf core i = some { h.redeal d with stale := h.stale + (s.coreOf core).redealLoss i h } ∧
          ∀ e ∈ (t.coreOf core).tq, e.hand ≠ i) ∧
        t.layoutOf ctx lnum = some { l with redealDue := l.redealDue.erase core } ∧ ∀ j, j ≠ core → t.coreOf j = s.coreOf j)) ∧
    (∀ l, (s.coreOf core).cfg = [.cut ctx lnum] → s.layoutOf ctx lnum = some l →
      (∀ p ∈ (s.coreOf core).oldHands ctx lnum,
        (s.coreOf core).handDone (((s.coreOf core).oldHands ctx lnum).flatMap (fun p => p.2.cutInputs)) p.1 p.2 = true ∧
        ∀ r ∈ p.2.img.routes, 4 ≤ r.source → ∀ d ∈ r.dests, 3 < d.target) →
      Answers (.cutComplete core) s [.cores, .ctxs] (fun t => (t.coreOf core).cfg = [] ∧
        (∀ i, i < 4 → ∀ h, t.handOf core i = some h → h.ctx = ctx → h.layout = lnum → h.waiting = false) ∧
        (∀ p ∈ (s.coreOf core).oldHands ctx lnum, t.handOf core p.1 = none ∧ ∀ i ∈ p.2.cutInputs, i ∉ (t.coreOf core).heldIn) ∧
        t.layoutOf ctx lnum = some { l with cutCores := l.cutCores.erase core } ∧ ∀ j, j ≠ core → t.coreOf j = s.coreOf j)) ∧
    (∀ l, s.layoutOf ctx lnum = some l → l.phase = .loading → l.acksDue = [] → s.jobOf ctx = none →
      Answers (.loadAcksComplete ctx lnum) s [.ctxs] (fun t => t.layoutOf ctx lnum = some { l with
        phase := .acked, published := l.deal, tags := l.tags.filter (fun p => 1024 ≤ p.1) } ∧ ∀ k, k ≠ ctx → t.ctxOf k = s.ctxOf k)) ∧
    (∀ l o, s.layoutOf ctx lnum = some l → l.phase = .cutting → l.cutsDue = [] → l.cutCores = [] → l.cutStations = [] → l.old = some o →
      exec (.replaceCutDone ctx lnum) s = .next (s.setLayout ctx lnum (some { l with
        phase := .cutDone, old := none, oldDeal := none, tags := l.tags.filter (fun p => p.1 < 1024),
        idxPos := l.idxPos.filter (fun p => p.1 < 1024), buffers := l.buffers.filter (fun p => p.1 < 1024), arrivals := l.arrivals.filter (fun p => p.1 < 1024) }))) ∧
    (∀ f q n c v l, s.cmdOf f q n = some c → c.phase = .running → c.faultVerdict = some v → s.streamsStill f q n = true →
      s.layoutOf c.ctx (fld (word c.eff 2) 2 0) = some l → s.inMotion c.ctx l = false → s.ctxLive c.ctx = true →
      ∃ t, exec (.faultedQuiescence f q n) s = .next t ∧ t.ctxLive c.ctx = false ∧ ∀ p ∈ t.usedSlots, p.2.ctx ≠ c.ctx)

/-- The Stream Engine commands. -/
def Obligations.StreamsMoveTiles : Prop :=
  ∀ (s : State) (cl k : Nat) (v : Slot), s.slotOf cl k = some v →
    ((∀ p ∈ s.ctxs, p.2.job.any (fun j => !j.tilesIn.isEmpty) = false) → k < 64 → (cl * 64 + k, v) ∈ s.usedSlots →
      (∀ u, s.streamStep (cl * 64 + k) v = some u →
        (∀ p ∈ s.usedSlots, p ≠ (cl * 64 + k, v) → keyCluster p.1 = cl → (s.streamStep p.1 p.2).isSome = true →
          s.before (cl * 64 + k, v) p = true) →
        exec (.streamRequest cl) s = .next u) ∧
      (∀ t a rs pos, v.state = .running → v.isOut = false → v.toCmem = false → s.bufTiles v + v.inflight.length < s.bufCap v →
        v.src = .descriptor → s.nextTile (cl * 64 + k) v = .tile t rs [] false pos → a = s.readFrames v rs →
        (∀ p ∈ s.usedSlots, keyCluster p.1 = cl → p = (cl * 64 + k, v)) →
        Answers (.streamRequest cl) s [.slots, .tiers] (fun u => s.OnlyCounts u ∧
          u.slotOf cl k = some (((v.request t a).moveTo pos).endIf ((v.request t a).moveTo pos).exhausted) ∧
          ∀ key, key ≠ cl * 64 + k → tget none u.slots key = tget none s.slots key))) ∧
    (∀ t a rest l piece, v.inflight = (t, a) :: rest → v.marks ≠ [] → s.layoutOf v.ctx v.layout = some l →
      (v.toCmem = false →
        Answers (.streamDataReturn cl k .clean piece) s [.slots, .ctxs] (fun u =>
          (∃ l', u.layoutOf v.ctx v.layout = some l' ∧ tget [] l'.buffers v.station =
              tget [] l.buffers v.station ++ [{ t with own := some (v.fn, v.q, v.n) }] ∧
            ∀ j, j ≠ v.station → tget [] l'.buffers j = tget [] l.buffers j) ∧
          (∃ x y, u.slotOf cl k = some { v with inflight := rest, stalled := x, trump := y }) ∧
          ∀ key, key ≠ cl * 64 + k → tget none u.slots key = tget none s.slots key)) ∧
      (v.toCmem = true → v.state ≠ .ended → wnat v.desc 7 + v.delivered * t.bytes + t.bytes ≤ l.cmemRoom (l.imgOf v) cl →
        Answers (.streamDataReturn cl k .clean piece) s [.slots, .cmem] (fun u =>
          u.slotOf cl k = some ({ v with inflight := rest } : Slot).deliver ∧
          u.cmem = cellWrite s.cmem (cmemBase v.ctx v.layout cl + l.bufBytes (l.imgOf v) cl 1024 + (wnat v.desc 7 + v.delivered * t.bytes)) t.flits)) ∧
      (∀ addr fid, a[piece]? = some (addr, fid) → s.ctxLive v.ctx = true →
        ∃ u, exec (.streamDataReturn cl k .uncorrectable piece) s = .next u ∧ u.Torn v.ctx)) ∧
    (∀ t a rs pos, v.state = .waiting → v.isOut = false → v.src = .descriptor → dCountInd v.desc = false →
      (dIndexed v.desc && dIdxStation v.desc) = false → s.aheadAllowed v.fn v.q v.n = true →
      (∀ n, n = (match s.boundSlot v.ctx v.layout v.station with
        | some p => p.2.inflight.length
        | none => 0) → s.bufTiles v + n + v.ahead.length < s.bufCap v) →
      s.nextTile (cl * 64 + k) v = .tile t rs [] false pos → a = s.readFrames v rs →
      Answers (.runAheadRequest cl k) s [.slots, .tiers] (fun u => s.OnlyCounts u ∧
        u.slotOf cl k = some { v with ahead := v.ahead ++ [({ t with early := (a.map (fun r => r.1 / blockBytes)).eraseDups }, a)], marks := v.marks ++ [v.pos],
                                      posEntry := pos.1, posRepeat := pos.2.1, posTile := pos.2.2 } ∧
        ∀ key, key ≠ cl * 64 + k → tget none u.slots key = tget none s.slots key)) ∧
    (∀ l, v.state = .waiting → s.nextBinding (cl * 64 + k) v = true → s.layoutOf v.ctx v.layout = some l →
      Answers (.bindingTakeEffect cl k) s [.slots, .ctxs] (fun u =>
        (∃ x y, u.slotOf cl k = some { v with state := .running, ahead := [], stalled := x, trump := y }) ∧
        (∃ l', u.layoutOf v.ctx v.layout = some l' ∧
          tget [] l'.buffers v.station =
            tget [] l.buffers v.station ++ v.ahead.map (fun p => { p.1 with own := some (v.fn, v.q, v.n) })) ∧
        ∀ key, key ≠ cl * 64 + k → tget none u.slots key = tget none s.slots key)) ∧
    (∀ p ws f, s.cp.fns.findSome? (fun x => (x.2.frWait.find? (fun r => r.1 = cl * 64 + k)).map (fun r => (x.1, r.2))) = some (p, ws) →
      f = s.fnOf p → f.frEnable = true → (f.frTail + 1) % (f.frSizeM1 + 1) ≠ f.frHead →
      Answers (.faultRecordWrite cl k) s [.cp, .host] (fun u =>
        u.host.mem = cellWrite s.host.mem (f.frBase.toNat + 64 * f.frTail) (wordBytes ws) ∧
        (u.fnOf p).frTail = (f.frTail + 1) % (f.frSizeM1 + 1) ∧ nbit (u.fnOf p).intCause 2 = true ∧
        (u.fnOf p).frWait = f.frWait.filter (fun r => r.1 ≠ cl * 64 + k))) ∧
    (∀ cause id i fid, v.state = .halted cause id → 2 ≤ cause → s.touch v.ctx (v.haltAddr / blockBytes) = .served i fid →
      Answers (.streamAutoResume cl k) s [.slots, .ctxs] (fun u =>
        (∃ x y, u.slotOf cl k = some { v with state := .running, stalled := x, trump := y }) ∧
        ∀ key, key ≠ cl * 64 + k → tget none u.slots key = tget none s.slots key))

/-- Context teardown by command and by the two watchdogs. -/
def Obligations.ContextsAreTornDown : Prop :=
  ∀ (s : State),
    (∀ f q n c, s.Runs f q n 0x11 [] c → s.ctxLive c.ctx = true →
      (∀ x ∈ s.allCmds, namesContext x.2.2.words = true → x.2.2.ctx = c.ctx → x.2.2.routedGen = 0 ∧ x.2.2.phase ≠ .ending) →
      ∃ t, exec (.contextDestroy f q n) s = .next t ∧ t.Torn c.ctx ∧ t.pending = s.pending ∧
        (∀ d, t.cmdOf f q n = some d → d.phase = .finished ∧ d.status = 0 ∧ d.resA = 0 ∧ d.resB = 0 ∧ d.pastCommit = true)) ∧
    (∀ cl k v, s.slotOf cl k = some v → v.stalled = true → dWeight v.desc = true → v.state.isHalted = false → v.state ≠ .waiting →
      s.ctxLive v.ctx = true →
      ∃ t, exec (.weightLateTimeout cl k) s = .next t ∧ t.Torn v.ctx ∧ t.pending = s.pending) ∧
    (∀ ctx x p, x ∈ s.allCmds → namesContext x.2.2.words = true → x.2.2.ctx = ctx → p ∈ s.cmdSlots x.1 x.2.1 x.2.2.n →
      p.2.state.isHalted = true → s.ctxLive ctx = true →
      ∃ t, exec (.watchdogTimeout ctx) s = .next t ∧ t.Torn ctx ∧ t.pending = s.pending) ∧
    (∀ ctx x i, x ∈ s.allCmds → namesContext x.2.2.words = true → x.2.2.ctx = ctx → x.2.2.waits = some i → s.notReady i = true →
      s.ctxLive ctx = true →
      ∃ t, exec (.watchdogTimeout ctx) s = .next t ∧ t.Torn ctx ∧ t.pending = s.pending)

/-- The commands of the tier machinery. -/
def Obligations.FramesAndBlocksMove : Prop :=
  ∀ (s : State) (i fid : Nat) (e : BmEntry), s.tiers.wf = true → s.bmOf i = e →
    (∀ ch, s.tiers.changes.find? (fun c => c.entry = i) = some ch → ch.peer = none →
      Answers (.blockMapChangeDone i) s [.tiers] (fun t => t.tiers = { s.tiers with
        changes := s.tiers.changes.erase ch, caches := s.tiers.caches.filter (fun c => c.2.1 ≠ i) })) ∧
    (s.frameOf fid = .draining → (∀ c ∈ s.tiers.changes, c.fid ≠ some fid) → s.frameRead fid = false →
      Answers (.frameRelease fid) s [.tiers] (fun t => t.frameOf fid = .queued ∧ t.tiers.bm = s.tiers.bm ∧ t.tiers.mem = s.tiers.mem ∧
        ∀ j, j ≠ fid → t.frameOf j = s.frameOf j)) ∧
    (s.frameOf fid = .queued → fid < 20 * 2 ^ 24 →
      Answers (.frameScrub fid) s [.tiers] (fun t => t.frameOf fid = .free ∧ t.tiers.bm = s.tiers.bm ∧
        (∀ a, a / blockBytes = fid → cellGet t.tiers.mem a = 0) ∧
        (∀ a, a / blockBytes ≠ fid → cellGet t.tiers.mem a = cellGet s.tiers.mem a) ∧ ∀ j, j ≠ fid → t.frameOf j = s.frameOf j)) ∧
    (∀ w, w ∈ s.tiers.lendScrub →
      Answers (.frameScrub (windowFid w)) s [.tiers] (fun t => t.tiers.lendScrub = s.tiers.lendScrub.erase w ∧ t.tiers.bm = s.tiers.bm ∧
        (∀ a, a / blockBytes = windowFid w → cellGet t.tiers.mem a = 0) ∧
        ∀ a, a / blockBytes ≠ windowFid w → cellGet t.tiers.mem a = cellGet s.tiers.mem a)) ∧
    (∀ m g u, s.preparing i = false → s.migOf i = some m → m.begun = false → m.kind < 2 → s.stillDue e m = true →
      s.allocFor e.ctx m.tier (s.countOf e) = some (g, u) → u.bmOf i = e →
      Answers (.migrationStart i) s [.tiers, .ctxs, .free] (fun t =>
        t.migOf i = some { m with src := fidOf e.tier e.loc, dst := g, begun := true } ∧ t.bmOf i = e)) ∧
    (∀ tier g u, s.preparing i = false → s.migOf i = none → wantTier e = some tier → s.allocMigration e.ctx tier = some (g, u) →
      Answers (.migrationStart i) s [.tiers, .ctxs, .free] (fun t => t.migOf i = some
        { src := fidOf e.tier e.loc, dst := g, tier := tier, kind := 0, begun := true })) ∧
    (∀ m, s.preparing i = false → s.migOf i = some m → m.begun = true → m.kind < 2 →
      Answers (.migrationDone i .clean) s [.tiers, .slots, .ctxs] (fun t => t.migOf i = none ∧
        t.bmOf i = { e with state := 1, recalled := false, tier := m.tier, loc := locOf m.dst, chip := 0 } ∧
        (∀ a, a < blockBytes → cellGet t.tiers.mem (m.dst * blockBytes + a) = cellGet s.tiers.mem (m.src * blockBytes + a)) ∧
        ∀ a, a / blockBytes ≠ m.dst → cellGet t.tiers.mem a = cellGet s.tiers.mem a)) ∧
    (∀ m, s.preparing i = false → s.migOf i = some m → m.begun = true → m.kind < 2 → s.namedBy m.src = some (i, e) →
      ∃ t, exec (.migrationDone i .uncorrectable) s = .next t ∧ (t.bmOf i).state = 4 ∧ t.frameOf m.src = .retired) ∧
    (s.frameOf fid = .used → exec (.patrolScrubRead fid .clean) s = .next s ∧
      exec (.patrolScrubRead fid .corrected) s = .next (s.correctable (fidIsland fid) (corrClass fid) (fid % 2 ^ 24)) ∧
      (s.namedBy fid = some (i, e) → ∃ t, exec (.patrolScrubRead fid .uncorrectable) s = .next t ∧ t.frameOf fid = .retired ∧
        (t.bmOf i).state = 4)) ∧
    (∀ island, (0x2000 ≤ island ∧ island < 0x2004) ∨ (0x3000 ≤ island ∧ island < 0x3010) →
      exec (.scrubPassOverdue island) s = .next (s.report island 15 0 none (island % 4096)))

/-- Recalls of lent frames. -/
def Obligations.RecallsRunTheirCourse : Prop :=
  ∀ (s : State) (f q n : Nat) (c : Cmd) (first count : Nat),
    (s.Runs f q n 0x27 [(2, 0xFFFFFFFF), (3, 0xFFFFFFFF)] c → c.work = .none → first = wnat c.eff 2 → count = wnat c.eff 3 →
      1 ≤ count → first + count ≤ s.tiers.lendW →
      Answers (.lendRecall f q n) s [.cp, .tiers, .fab] (fun t =>
        t.cmdOf f q n = some { c with begun := true, work := .recall first count 0 0 false } ∧ s.OnlyCmd f q n t ∧
        t.tiers = { s.tiers with recalls := s.tiers.recalls ++ [(first, count)], lends := s.tiers.lends.map (fun l =>
          if overlapCount first count l.first l.count ≠ 0 then { l with recalling := true } else l) })) ∧
    (∀ r e, s.tiers.recalls.find? (fun x => x.1 = first) = some (first, count) →
      s.cmdOf f q n = some c → c.phase = .running → c.work = .recall first count r e false →
      s.allCmds.find? (fun x => match x.2.2.work with
        | .recall a k _ _ past => x.2.2.isRunning && a = first && k = count && !past
        | _ => false) = some (f, q, c) → c.n = n →
      Answers (.recallLenderDeadline first) s [.cp, .tiers] (fun t => t.tiers.recalls = s.tiers.recalls.erase (first, count) ∧
        (∀ l, l ∈ t.tiers.lends ↔ l ∈ s.tiers.lends ∧ ¬(l.recalling = true ∧ overlapCount first count l.first l.count ≠ 0)) ∧
        (∀ l ∈ s.tiers.lends, l.recalling = true → overlapCount first count l.first l.count ≠ 0 →
          ∀ i, i < l.count → l.first + i ∈ t.tiers.lendScrub) ∧
        t.tiers.bm = s.tiers.bm ∧ t.tiers.mem = s.tiers.mem ∧ s.OnlyCmd f q n t ∧
        ∃ k, t.cmdOf f q n = some { c with work := .recall first count r k true })) ∧
    (∀ r, s.tiers.borrowRecalls.find? (fun r => r.1 = n && r.2.1 = first) = some r →
      Answers (.recallBorrowerDeadline n first) s [.tiers, .slots, .ctxs] (fun t =>
        t.tiers.borrowRecalls = s.tiers.borrowRecalls.erase r ∧
        ∀ i, (s.bmOf i).state = 2 → (s.bmOf i).tier = 2 → (s.bmOf i).chip = n → first ≤ (s.bmOf i).loc → (s.bmOf i).loc < first + r.2.2 →
          (t.bmOf i).state = 4 ∧ (t.bmOf i).recalled = true)) ∧
    (∀ i m g u, s.preparing i = false → s.migOf i = some m → m.begun = false → m.kind = 3 → s.allocHome (s.bmOf i).ctx = some (g, u) →
      Answers (.migrationStart i) s [.tiers, .fab, .free] (fun t => t.migOf i = some { m with dst := g, begun := true } ∧
        t.frameOf g = .used ∧ t.tiers.bm = s.tiers.bm))

/-- The commands of the KV cache and of the stripes of the store. -/
def Obligations.KvSlotsParkAndReturn : Prop :=
  ∀ (s : State) (ctx record stripe seq room : Nat) (r : KvRec), s.recOf ctx record = r →
    (s.kvDue ctx = some (record, false) → s.kv.stripe = some (stripe, seq, room) →
      (∀ i ∈ s.slotEntries ctx r, (s.bmOf i).state = 1 ∨ (s.bmOf i).state = 4) →
      (s.slotEntries ctx r ≠ [] → (s.slotEntries ctx r).length + 1 ≤ s.store.parkSegments * stripePlaces) → room + (s.slotEntries ctx r).length ≤ stripePlaces →
      Answers (.parkStart ctx record) s [.kv, .tiers] (fun t => (t.recOf ctx record).stage = 3 ∧ t.tiers.bm = s.tiers.bm ∧
        ∃ es, t.kv.park = s.kv.park ++ es ∧ es.length = ((s.slotEntries ctx r).filter (fun i => (s.bmOf i).state = 1)).length ∧
          ∀ e ∈ es, e.ctx = ctx ∧ e.record = record ∧ e.closing = false ∧ e.dead = false ∧ e.stripe = stripe)) ∧
    (∀ mine g, r.state ≠ 0 → r.stage = 3 → s.kv.stripe = some (stripe, seq, room) → room < stripePlaces →
      (s.ctxOf ctx).geom = some g →
      mine = s.kv.park.filter (fun e => e.ctx = ctx && e.record = record && !e.dead && !e.closing) →
      (∀ i ∈ s.slotEntries ctx r, s.preparing i = false) →
      Answers (.parkComplete ctx record) s [.kv, .tiers] (fun t => (t.recOf ctx record).stage = 2 ∧
        (∀ e ∈ mine, ∀ i b, s.bmFind (s.ctxOf ctx).part ctx (g.slotBlock r.slot + e.index) = some (i, b) → b.state = 1 →
          (t.bmOf i).state = 3 ∧ (t.bmOf i).tier = 3) ∧
        (mine ≠ [] → ∃ e, t.kv.park = s.kv.park ++ [e] ∧ e.closing = true ∧ e.ctx = ctx ∧ e.record = record))) ∧
    (s.kvDue ctx = some (record, true) → record ≠ noRec →
      ∃ t, exec (.kvRecordExpire ctx record) s = .next t ∧ t = s.freeTree ctx record ∧ (t.recOf ctx record).state = 0) ∧
    (∀ g index i e m pe fid u, (s.ctxOf ctx).geom = some g → r.held = true → index < g.slotBlocks →
      s.bmFind (s.ctxOf ctx).part ctx (g.slotBlock r.slot + index) = some (i, e) → s.migOf i = some m → m.kind = 2 → m.tier ≠ 0 →
      s.kv.park.find? (fun e => e.ctx = ctx && e.record = record && e.index = index && !e.closing && !e.dead && e.entry = m.src) = some pe →
      s.quotaRoom ctx 1 1 = true → s.allocFrame 1 = some (fid, u) → u.tiers.wf = true →
      Answers (.parkBringIn ctx record index .clean) s [.kv, .tiers, .store, .slots, .ctxs, .free] (fun t =>
        (t.bmOf i).state = 1 ∧ (t.bmOf i).tier = tierOfFid fid ∧ (t.bmOf i).loc = locOf fid ∧ t.migOf i = none ∧
        (∀ a, a < blockBytes → cellGet t.tiers.mem (fid * blockBytes + a) = cellGet pe.data a))) ∧
    (∀ g index i e m pe, (s.ctxOf ctx).geom = some g → r.held = true → index < g.slotBlocks →
      s.bmFind (s.ctxOf ctx).part ctx (g.slotBlock r.slot + index) = some (i, e) → s.migOf i = some m → m.kind = 2 →
      s.kv.park.find? (fun e => e.ctx = ctx && e.record = record && e.index = index && !e.closing && !e.dead && e.entry = m.src) = some pe →
      s.waitsOn ctx (s.treeBlocks ctx record) = true → s.ctxLive ctx = true →
      ∃ t, exec (.parkBringIn ctx record index .uncorrectable) s = .next t ∧ t.Torn ctx) ∧
    (stripe ∈ s.store.parkDead →
      Answers (.stripeErase stripe true) s [.store] (fun t => t.store = { s.store with parkDead := s.store.parkDead.erase stripe })) ∧
    (tget 0 s.store.slots stripe = 2 → (∀ p ∈ s.store.ghosts, s.hasReaders p.1 p.2.1 = true → stripe ∉ p.2.2.slots) →
      Answers (.stripeErase stripe false) s [.store] (fun t => tget 0 t.store.slots stripe = 0 ∧ t.store.objs = s.store.objs ∧
        ∀ k, k ≠ stripe → tget 0 t.store.slots k = tget 0 s.store.slots k))

/-- What the link layer and routing do with a frame before the row's own effect, or instead of it. -/
def Obligations.LinkLayerTakesFrames : Prop :=
  ∀ (s : State) (port : Nat) (f : Frame) (ok : Bool) (err : ReadErr) (i : Instr),
    (f.ty, i) ∈ [(0x10, Instr.tile port f ok), (0x12, .piece port f ok), (0x20, .memRead port f ok err), (0x21, .memWrite port f ok),
      (0x22, .memData port f ok), (0x23, .memDone port f ok), (0x24, .memRefused port f ok), (0x25, .unreachable port f ok),
      (0x30, .reserve port f ok), (0x31, .confirm port f ok), (0x32, .reject port f ok)] →
    ((s.portOf port).usable = false → exec i s = .next s) ∧
    ((s.portOf port).usable = true → ok = false →
      exec i s = .next (s.modPort port (fun x => { x with crcErrors := satAdd 8 x.crcErrors 1 }))) ∧
    ((s.portOf port).usable = true → ok = true → f.lseq ≠ ((s.portOf port).rxSeq + 1) % 65536 →
      exec i s = .next ((s.modPort port (fun x => x.acked f.lack)).sendOn port (s.linkAckFrame true))) ∧
    ((s.portOf port).usable = true → ok = true → f.lseq = ((s.portOf port).rxSeq + 1) % 65536 → f.clean = false →
      exec i s = .next ((s.received port f).modPort port (fun p => { p with discarded := satAdd 8 p.discarded 1 }))) ∧
    (s.InOrder port f → ok = true → f.ty / 16 = 2 → f.dst ≠ s.fab.chip → f.ttl ≤ 1 →
      exec i s = .next ((s.received port f).modPort port (fun p => { p with discarded := satAdd 8 p.discarded 1 }))) ∧
    (∀ out, s.InOrder port f → ok = true → f.ty / 16 = 2 → f.dst ≠ s.fab.chip → 1 < f.ttl →
      (s.received port f).pickCand { f with ttl := f.ttl - 1 } 0 = some out →
      exec i s = .next ((s.received port f).sendOn out { f with ttl := f.ttl - 1 })) ∧
    (s.InOrder port f → ok = true → f.ty / 16 = 2 → f.dst ≠ s.fab.chip → 1 < f.ttl →
      (s.received port f).pickCand { f with ttl := f.ttl - 1 } 0 = none →
      exec i s = .next ((s.received port f).sendAnswer (s.frame 0x25 f.src [w32 f.dst] [])))

/-- The packet frames of remote memory. -/
def Obligations.MemoryFramesAnswer : Prop :=
  ∀ (s : State) (port : Nat) (f : Frame) (n : Nat), s.ForUs port f → n = f.tf 3 8 0 →
    (f.ty = 0x20 →
      (∀ err r, s.memRefusal f = some r →
        exec (.memRead port f true err) s = .next ((s.received port f).memAnswer f 0x24 [w32 r] [])) ∧
      (∀ w off, s.memRefusal f = none → s.fabricPlace f.addr = .window w off → off + n ≤ blockBytes →
        exec (.memRead port f true .clean) s = .next ((s.received port f).memAnswer f 0x22 []
          (padTo (roundUp n 4) (cellRead s.tiers.mem (windowFid w * blockBytes + off) n)))) ∧
      (∀ fid off, s.memRefusal f = none → s.fabricPlace f.addr = .near fid off → off + n ≤ blockBytes →
        exec (.memRead port f true .clean) s = .next ((s.received port f).memAnswer f 0x22 []
          (padTo (roundUp n 4) (cellRead s.tiers.mem (fid * blockBytes + off) n)))) ∧
      (∀ w off w2 off2 m, s.memRefusal f = none → s.fabricPlace f.addr = .window w off → m = blockBytes - off → off ≤ blockBytes → m < n →
        s.fabricPlace (f.addr + m) = .window w2 off2 →
        exec (.memRead port f true .clean) s = .next ((s.received port f).memAnswer f 0x22 []
          (padTo (roundUp n 4) (cellRead s.tiers.mem (windowFid w * blockBytes + off) m ++
            cellRead s.tiers.mem (windowFid w2 * blockBytes + off2) (n - m))))) ∧
      (∀ cl off, s.memRefusal f = none → s.fabricPlace f.addr = .cluster cl off → off + n ≤ 2 ^ 24 → (∀ i, i < n → (s.cmemKey cl (off + i)).isSome = true) →
        Answers (.memRead port f true .clean) s [.fab, .free] (fun t => t.fab = ((s.received port f).memAnswer f 0x22 []
          (padTo (roundUp n 4) ((List.range n).map (fun i => cellGet s.cmem ((s.cmemKey cl (off + i)).getD 0))))).fab))) ∧
    (f.ty = 0x21 →
      (∀ r, s.memRefusal f = some r →
        exec (.memWrite port f true) s = .next ((s.received port f).memAnswer f 0x24 [w32 r] [])) ∧
      (∀ fid off, s.memRefusal f = none → n ≤ f.payload.length → off + n ≤ blockBytes → s.tiers.wf = true →
        (s.fabricPlace f.addr = .near fid off ∨ ∃ w, s.fabricPlace f.addr = .window w off ∧ fid = windowFid w) →
        Answers (.memWrite port f true) s [.fab, .tiers] (fun t => t.fab = ((s.received port f).memAnswer f 0x23 [] []).fab ∧
          t.tiers.bm = s.tiers.bm ∧
          (∀ i, i < n → cellGet t.tiers.mem (fid * blockBytes + off + i) = f.payload.getD i 0) ∧
          ∀ a, (a < fid * blockBytes + off ∨ fid * blockBytes + off + n ≤ a) → cellGet t.tiers.mem a = cellGet s.tiers.mem a))) ∧
    (∀ r, s.reqOf f = some r →
      (f.ty = 0x22 → s.reqLive r = true → s.tiers.wf = true →
        Answers (.memData port f true) s [.fab, .tiers] (fun t => t.fab.reqs = s.fab.reqs.erase r ∧
          t.tiers.peerGot = s.tiers.peerGot ++ [(r.entry, r.chunk)] ∧ t.tiers.mem = s.tiers.mem ∧
          ∀ i, i < 256 → cellGet t.tiers.peerBuf (r.entry * blockBytes + 256 * r.chunk + i) = f.payload.getD i 0)) ∧
      (f.ty = 0x23 → Answers (.memDone port f true) s [.fab] (fun t => t.fab.reqs = s.fab.reqs.erase r)) ∧
      (f.ty = 0x24 → s.reqLive r = true →
        (f.tf 3 1 0 = 1 → (s.migOf r.entry).isNone = true → s.ctxLive r.ctx = true →
          ∃ t, exec (.memRefused port f true) s = .next t ∧ t.Torn r.ctx) ∧
        (f.tf 3 1 0 ≠ 1 → Answers (.memRefused port f true) s [.fab, .tiers, .slots, .ctxs] (fun t =>
          t.fab.reqs = s.fab.reqs.erase r ∧ (t.bmOf r.entry).state = 4 ∧ (t.bmOf r.entry).recalled = true)))) ∧
    (∀ x p, f.ty = 0x25 → x = f.tf 0 13 0 → p ∈ s.routeList x → p.2 = port →
      (∃ c ∈ s.cands x, c ≠ port) → (∀ r ∈ s.fab.reqs, ¬(r.chip = x ∧ r.port = port)) →
      Answers (.unreachable port f true) s [.fab] (fun t => nbit (tget 0 t.fab.routes x) (23 + p.1) = true ∧ port ∉ t.cands x ∧
        ∀ y, y ≠ x → tget 0 t.fab.routes y = tget 0 s.fab.routes y))

/-- The frames of the link layer and of circuits. -/
def Obligations.CircuitFramesAct : Prop :=
  ∀ (s : State) (port : Nat) (f : Frame) (p : Port), s.portOf port = p → p.usable = true → f.clean = true →
    (f.ty = 1 →
      (f.tf 0 0 0 = 0 → exec (.linkAck port f true) s = .next (s.modPort port (fun x => x.acked f.lack))) ∧
      (f.tf 0 0 0 = 1 → (p.acked f.lack).replayBuf ≠ [] →
        Answers (.linkAck port f true) s [.fab, .isl, .mgmt, .cores, .power, .ctxs, .free] (fun t =>
          (t.portOf port).tx = (p.acked f.lack).tx ++ (p.acked f.lack).replayBuf.map (fun g => { g with lack := p.rxSeq }) ∧
          (t.portOf port).replayBuf = (p.acked f.lack).replayBuf ∧ ∀ j, j ≠ port → t.portOf j = s.portOf j))) ∧
    (∀ lane, f.ty = 2 → lane = f.tf 0 1 0 →
      (f.tf 0 3 2 = 0 → p.recalActive = false → Answers (.lane port f true) s [.fab] (fun t =>
        nbit (t.portOf port).lanesUp lane = false ∧ (∀ b, b ≠ lane → nbit (t.portOf port).lanesUp b = nbit p.lanesUp b) ∧
        (t.portOf port).tx = (p.acked f.lack).tx ++ [{ s.laneFrame lane 1 with lack := p.rxSeq }])) ∧
      (f.tf 0 3 2 = 0 → p.recalActive = true → Answers (.lane port f true) s [.fab] (fun t =>
        (t.portOf port).lanesUp = p.lanesUp ∧ (t.portOf port).tx = (p.acked f.lack).tx ++ [{ s.laneFrame lane 2 with lack := p.rxSeq }])) ∧
      (f.tf 0 3 2 = 1 → p.recalActive = true → p.recalLane = lane → Answers (.lane port f true) s [.fab] (fun t =>
        nbit (t.portOf port).lanesUp lane = false ∧ ∀ b, b ≠ lane → nbit (t.portOf port).lanesUp b = nbit p.lanesUp b)) ∧
      (f.tf 0 3 2 = 3 → Answers (.lane port f true) s [.fab] (fun t =>
        nbit (t.portOf port).lanesUp lane = true ∧ nbit (t.portOf port).lanesFailed lane = false ∧
        ∀ b, b ≠ lane → nbit (t.portOf port).lanesUp b = nbit p.lanesUp b))) ∧
    (∀ ctx rank j l st, s.AtEndpoint port f → f.ty = 0x10 → s.senderOf f = some (ctx, rank) → s.jobOf ctx = some j → j.tilesIn = [] →
      s.layoutOf ctx (f.tf 2 2 0) = some l → l.img.stations[f.tf 2 12 3]? = some st →
      (st.out = false → f.tf 0 3 0 = st.fmt → f.tf 1 15 0 = l.published → f.tf 3 7 0 = 0 → f.tf 3 15 8 = 1 →
        s.stationBusy ctx (f.tf 2 2 0) (f.tf 2 12 3) = false →
        ((tget [] l.buffers (f.tf 2 12 3)).filter (fun t => t.kind < 2)).length < st.bufTiles →
        Answers (.tile port f true) s [.fab, .ctxs] (fun t => t.layoutOf ctx (f.tf 2 2 0) = some { l with
          buffers := tset [] l.buffers (f.tf 2 12 3) (tget [] l.buffers (f.tf 2 12 3) ++ [{ 
            fmt := f.tf 0 3 0, rowsM1 := f.tf 0 8 4, colsM1 := f.tf 0 13 9, kind := f.tf 0 15 14, tag := 1, data := f.payload }]) } ∧ t.jobOf ctx = some j)) ∧
      (f.tf 1 15 0 ≠ l.published → f.tf 3 7 0 = 0 →
        Answers (.tile port f true) s [.fab, .ctxs] (fun t => (t.ctxOf ctx).stale = (s.ctxOf ctx).stale + 1 ∧ t.jobOf ctx = some j ∧
          t.layoutOf ctx (f.tf 2 2 0) = some l))) ∧
    (s.AtEndpoint port f → f.ty = 0x14 → (s.circOf f.circuit).sendQ = [] →
      Answers (.credit port f true) s [.fab] (fun t => t.circOf f.circuit = { (s.circOf f.circuit) with
        avail := min (s.circOf f.circuit).limit ((s.circOf f.circuit).avail + f.tf 0 10 0) } ∧
        ∀ k, k ≠ f.circuit → t.circOf k = s.circOf k)) ∧
    (s.AtEndpoint port f → f.ty = 0x15 →
      ∃ t, exec (.tear port f true) s = .next t ∧ (t.circOf f.circuit).state = 0 ∧ t.pending = s.pending)

/-- The frames that set a circuit up. -/
def Obligations.CircuitsAreSetUp : Prop :=
  ∀ (s : State) (port : Nat) (f : Frame), s.InOrder port f →
    (∀ ctx k, f.ty = 0x30 → f.dst = s.fab.chip → s.opening (f.t 0) = some ctx → s.freeCircuit = some k → f.tf 1 1 0 ≠ 2 →
      Answers (.reserve port f true) s [.fab] (fun t => t.circOf k = {
          state := 2, kind := f.tf 1 1 0, part := (s.ctxOf ctx).part,
          ctx := ctx, jobId := w32 (f.t 0), aPort := port, aCircuit := f.tf 1 13 2 % 4096, aChip := f.src, bLocal := true,
          limit := f.tf 2 10 0, avail := f.tf 2 10 0 } ∧
        (t.portOf port) = ((s.received port f).portOf port).send (s.frame 0x31 f.src [w32 k] []) ∧
        ∀ j, j ≠ k → t.circOf j = s.circOf j)) ∧
    (f.ty = 0x30 → f.dst = s.fab.chip → s.opening (f.t 0) = none →
      Answers (.reserve port f true) s [.fab] (fun t => t.fab = { (s.received port f).fab with
        waiting := s.fab.waiting ++ [(port, f)] })) ∧
    (∀ out rest k, f.ty = 0x30 → f.dst ≠ s.fab.chip → 1 < f.ttl → s.cands f.dst = out :: rest → s.freeCircuit = some k → f.tf 1 1 0 ≠ 2 →
      Answers (.reserve port f true) s [.fab] (fun t => (t.circOf k).state = 1 ∧ (t.circOf k).transit = true ∧
        (t.circOf k).aPort = port ∧ (t.circOf k).bPort = out ∧ (∀ j, j ≠ k → t.circOf j = s.circOf j) ∧
        ∃ r, t.fab.resv = s.fab.resv ++ [r] ∧ r.port = out ∧ r.initiator = f.src ∧ r.target = f.dst ∧ r.entry = some k)) ∧
    (∀ r k, f.ty = 0x31 → s.fab.resv.find? (fun r => r.port = port && r.initiator = f.dst && r.target = f.src) = some r →
      r.entry = some k →
      Answers (.confirm port f true) s [.fab] (fun t => t.circOf k = { s.circOf k with state := 2, bCircuit := f.tf 0 11 0 } ∧
        t.fab.resv = s.fab.resv.erase r ∧ ∀ j, j ≠ k → t.circOf j = s.circOf j)) ∧
    (∀ r k, f.ty = 0x32 →
      (s.fab.resv.filter (fun r => r.port = port && r.initiator = f.dst)).find? (fun r => r.target = f.tf 0 13 0) = some r →
      r.entry = some k → (s.circOf k).aLocal = false → (s.circOf k).state = 1 → (s.circOf k).kind ≠ 2 →
      (∀ x ∈ s.fab.resv.erase r, x.entry ≠ some k) →
      Answers (.reject port f true) s [.fab] (fun t => (t.circOf k).state = 0 ∧ t.fab.resv = s.fab.resv.erase r ∧
        ∀ j, j ≠ k → t.circOf j = s.circOf j))

/-- The router's own commands and its frames. -/
def Obligations.RoutedTilesArrive : Prop :=
  ∀ (s : State) (port : Nat) (f : Frame) (ctx rank fn q : Nat) (c : Cmd) (st : StepRun) (j : Job) (p : ExpertPlan) (i : Nat)
    (y : RoutedLayer), s.jobOf ctx = some j → j.plan = some p → p.layers[i]? = some y →
    (s.routedRun ctx = some (fn, q, c, st) → c.phase = .running →
      ((s.routerOf ctx i).done = false → rowsFull (s.routerOf ctx i).scores st.rows (32 * ceilDiv y.experts.length 32) = true →
        ∃ t, exec (.expertSelect ctx i) s = .next t ∧ t.pending = s.pending ∧ (t.routerOf ctx i).done = true ∧
          ∀ x, x < y.experts.length →
            (t.routerOf ctx i).chosen x = selectRows y.capacity ((s.routerOf ctx i).scores.map (fun row => row.getD x 0))) ∧
      (∀ row k r fmt l, r = s.routerOf ctx i → r.done = true → ownedOf [row] j.rank st.rows j.members.length = [row] →
        k = row - ownFirst j.rank st.rows j.members.length → (r.residRows.getD k []).length = y.width →
        (∀ x ∈ r.by y.experts.length row, (tget [] r.answers (rowKey x row)).length = y.width) → tget [] r.combined k = [] →
        s.layoutOf ctx p.layout = some l → fmt = l.residFmt y.resid →
        exec (.combineRow ctx i row) s = .next (s.modRouter ctx i (fun z => { z with
          combined := tset [] z.combined k (r.combineRow y (roundTzOf c.words) fmt row k) }))) ∧
      (s.routerQuiet ctx st = false → s.ctxLive ctx = true →
        ∃ t, exec (.routerWaitTimeout ctx) s = .next t ∧ t.Torn ctx)) ∧
    (s.AtEndpoint port f → f.ty = 0x11 → s.senderOf f = some (ctx, rank) →
      (∀ row, (rKind f, row) ∈ [(0, Instr.dispatch port f true), (1, .dispatchEnd port f true), (2, .returnTile port f true),
          (3, .returnEnd port f true)] →
        (f.t 2 ≠ j.gen → genNewer (f.t 2) j.gen = true →
          exec row s = .next ((s.received port f).modJob ctx (fun x => { x with held := x.held ++ [(rank, f)] }))) ∧
        ((f.t 2 = j.gen ∧ j.genEnded = true) ∨ (f.t 2 ≠ j.gen ∧ genNewer (f.t 2) j.gen = false) →
          Answers row s [.fab, .ctxs] (fun t => t.jobOf ctx = some j ∧
            (t.ctxOf ctx).discarded = satAdd 32 (s.ctxOf ctx).discarded 1 ∧
            (t.circOf f.circuit).owed = (s.circOf f.circuit).owed + f.cost))) ∧
      (s.routedRun ctx = some (fn, q, c, st) → c.phase = .running → st.gen = j.gen → f.t 2 = j.gen → j.gen ≠ 0 → j.genEnded = false →
        j.held = [] → rReserved f = false → rRank f = rank → rLayer f = i → (s.routerOf ctx i).done = true →
        (∀ k, k < p.layers.length → (s.routerOf ctx k).sent = true ∧ (s.routerOf ctx k).returned = true) →
        (∀ ks, rKind f = 0 → rExpert f ∈ y.hosted j.rank →
          tileKeys (ownedOf ((s.routerOf ctx i).chosen (rExpert f)) rank st.rows j.members.length) (rExpert f) y.cols y.dispFmt f
            (s.routerOf ctx i).placed = some ks →
          Answers (.dispatch port f true) s [.fab, .ctxs, .router] (fun t =>
            t.routerOf ctx i = { (s.routerOf ctx i) with placed := joinTable (s.routerOf ctx i).placed ks (rTile f) })) ∧
        (∀ ks, rKind f = 2 → rExpert f ∈ y.hosted rank →
          tileKeys (ownedOf ((s.routerOf ctx i).chosen (rExpert f)) j.rank st.rows j.members.length) (rExpert f) y.cols y.ansFmt f
            (s.routerOf ctx i).answers = some ks →
          Answers (.returnTile port f true) s [.fab, .ctxs, .router] (fun t =>
            t.routerOf ctx i = { (s.routerOf ctx i) with answers := joinTable (s.routerOf ctx i).answers ks (rTile f) })) ∧
        (rKind f = 1 → endBad f = false → (∀ e ∈ y.hosted j.rank, tableFull (s.routerOf ctx i).placed
            ((ownedOf ((s.routerOf ctx i).chosen e) rank st.rows j.members.length).map (rowKey e)) y.width = true) →
          Answers (.dispatchEnd port f true) s [.fab, .ctxs, .router] (fun t =>
            t.routerOf ctx i = { (s.routerOf ctx i) with dispEnds := insertAsc (s.routerOf ctx i).dispEnds rank })) ∧
        (rKind f = 3 → endBad f = false → (∀ e ∈ y.hosted rank, tableFull (s.routerOf ctx i).answers
            ((ownedOf ((s.routerOf ctx i).chosen e) j.rank st.rows j.members.length).map (rowKey e)) y.width = true) →
          Answers (.returnEnd port f true) s [.fab, .ctxs, .router] (fun t =>
            t.routerOf ctx i = { (s.routerOf ctx i) with retEnds := insertAsc (s.routerOf ctx i).retEnds rank }))) ∧
      (rKind f = 4 →
        (retireBad f rank = false → (j.gen ≠ f.t 2 ∨ j.genEnded = true) →
          Answers (.retire port f true) s [.fab, .ctxs, .cp] (fun t => ∃ j', t.jobOf ctx = some j' ∧ (f.t 2, rank) ∈ j'.retires ∧
            j'.gen = j.gen ∧ j'.held = j.held)) ∧
        (retireBad f rank = true →
          exec (.retire port f true) s = .next (((s.received port f).oweCredits f).routeOverflow ctx p (rLayer f)))))

/-- The JOB_CTRL frames: those for another member go on by rank 0's circuit to it. -/
def Obligations.JobMessagesAreTaken : Prop :=
  ∀ (s : State) (port : Nat) (f : Frame) (ctx rank : Nat) (j : Job) (ws : List Word), s.AtEndpoint port f → f.ty = 0x13 →
    s.ctrlSender f = some (ctx, rank) → s.jobOf ctx = some j → ws = Frame.words f →
    (f.dst ≠ s.fab.chip →
      (∀ sub row, (sub, row) ∈ [(1, Instr.generationAnnounce port f true), (2, .generationRetiredReport port f true),
          (3, .stepOutcomes port f true), (4, .stepReady port f true), (5, .stepCommitMessage port f true), (6, .entryDropped port f true),
          (7, .dealPublication port f true)] → f.tf 0 7 0 = sub →
        exec row s = .next (((s.received port f).oweCredits f).toChip ctx 1 f.dst f)) ∧
      (∀ kind row, (kind, row) ∈ [(0, Instr.pieceRequest port f true), (1, .readerStart port f true), (2, .doneNotice port f true)] →
        f.tf 0 7 0 = 8 → loadKind f = kind →
        exec row s = .next (((s.received port f).oweCredits f).toChip ctx 1 f.dst f))) ∧
    (f.dst = s.fab.chip →
      (f.tf 0 7 0 = 1 → rank = 0 → j.genEnded = true → s.routedRun ctx = none → (∀ r ∈ j.retires, r.1 ≠ wnat ws 0) →
        Answers (.generationAnnounce port f true) s [.fab, .ctxs] (fun t => ∃ j', t.jobOf ctx = some j' ∧ j'.gen = wnat ws 0 ∧
          j'.genEnded = false ∧ ∀ h ∈ j'.held, h ∈ j.held ∧ (h.2.t 2 = wnat ws 0 ∨ genNewer (h.2.t 2) (wnat ws 0) = true))) ∧
      (f.tf 0 7 0 = 2 → wnat ws 0 ≠ 0 → j.rank = 0 → (wnat ws 0, rank) ∉ j.reports →
        Answers (.generationRetiredReport port f true) s [.fab, .ctxs, .cp] (fun t => t.jobOf ctx = some { j with
          reports := j.reports ++ [(wnat ws 0, rank)],
          retired := if ∀ m, m < j.members.length → (wnat ws 0, m) ∈ j.reports ++ [(wnat ws 0, rank)] then j.retired ++ [wnat ws 0]
            else j.retired })) ∧
      (∀ sub row, (sub, row) ∈ [(3, Instr.stepOutcomes port f true), (4, .stepReady port f true), (5, .stepCommitMessage port f true)] →
        f.tf 0 7 0 = sub → (sub = 4 ∨ rank = 0 ∨ (sub = 3 ∧ wnat ws 1 = 0)) → j.stepMsgs = [] →
        (s.stepFor ctx (fun _ => true) = none →
          Answers row s [.fab, .ctxs] (fun t => t.jobOf ctx = some { j with stepMsgs := [(sub, rank, ws)] })) ∧
        (∀ fn q c st, s.cmdOf fn q c.n = some c →
          (sub = 3 → wnat ws 1 ≠ 0 → s.stepFor ctx (fun x => !x.outcomesIn) = some (fn, q, c, st) →
            Answers row s [.fab, .ctxs, .cp] (fun t => t.jobOf ctx = some j ∧ t.stepOf fn q c.n = some { st with
              entries := listMod st.entries (wnat ws 0) (fun e => readOutcome e ws), outcomesIn := decide (wnat ws 0 + 1 = wnat ws 1) })) ∧
          (sub = 3 → wnat ws 1 = 0 → j.rank ≠ 0 → s.stepFor ctx (fun x => x.outcomesIn && !x.committed) = some (fn, q, c, st) →
            Answers row s [.fab, .ctxs, .cp] (fun t => t.jobOf ctx = some j ∧ t.stepOf fn q c.n = some { st with
              entries := listMod st.entries (wnat ws 0) (fun e => if e.outcome = 0 then { e with kv := e.kv ++ [readFar ws] } else e) })) ∧
          (sub = 4 → s.stepFor ctx (fun x => x.isReady && !x.committed && !x.readies.contains rank) = some (fn, q, c, st) →
            (∃ p ∈ j.others, p.1 ∉ st.readies ++ [rank]) →
            Answers row s [.fab, .ctxs, .cp] (fun t => t.jobOf ctx = some j ∧ t.stepOf fn q c.n = some { st with
              entries := mergeOutcomes st.entries (wordBytes ws), readies := st.readies ++ [rank] })) ∧
          (sub = 5 → s.stepFor ctx (fun x => x.isReady && !x.committed) = some (fn, q, c, st) →
            Answers row s [.fab, .ctxs, .cp] (fun t => t.jobOf ctx = some j ∧ t.stepOf fn q c.n = some { st with
              entries := mergeOutcomes st.entries (wordBytes ws), committed := true })))) ∧
      (f.tf 0 7 0 = 6 →
        (∀ fn q n c st, wnat ws 0 = 0 → s.cmdOf fn q n = some c → (∀ x ∈ s.allCmds, x.1 = fn → x.2.1 = q → x.2.2.n = n → x.2.2 = c) →
          (fn, q, c) ∈ s.allCmds → c.phase = .running → c.op = 0x42 → c.ctx = ctx → c.work = .step st → st.span = true →
          st.committed = false → (st.isReady = false ∨ j.rank = 0) →
          ∃ t, exec (.entryDropped port f true) s = .next t ∧ t.stepOf fn q n = some { st with entries := st.entries.map (fun e =>
            if e.session = wnat ws 1 ∧ e.outcome = 0 then { e.drop 2 with candRec := noRec } else e) }) ∧
        (wnat ws 0 = 0 → s.stepFor ctx (fun _ => true) = none →
          ∃ t, exec (.entryDropped port f true) s = .next t ∧
            t = ((s.received port f).oweCredits f).jobCtrl ctx (j.chipOf rank) 0x06 (numBytes [1, wnat ws 1])) ∧
        (wnat ws 0 ≠ 0 → Answers (.entryDropped port f true) s [.fab, .cp] (fun t => ∀ fn q n c st, s.cmdOf fn q n = some c →
          c.op = 0x42 → c.ctx = ctx → c.work = .step st → t.stepOf fn q n = some { st with entries := st.entries.map (fun e =>
            if e.session = wnat ws 1 then { e with dropAcks := e.dropAcks.erase rank } else e) }))) ∧
      (f.tf 0 7 0 = 7 → j.waitTiles = [] →
        Answers (.dealPublication port f true) s [.fab, .ctxs] (fun t => t.jobOf ctx = some { j with
          published := tset 0 j.published (rank * 8 + wnat ws 0 % 8) (wnat ws 1 % 65536) })) ∧
      (f.tf 0 7 0 = 8 →
        (loadKind f = 0 → Answers (.pieceRequest port f true) s [.fab, .ctxs] (fun t => t.jobOf ctx = some { j with
          loadReqs := j.loadReqs.filter (· ≠ (rank, loadMsgName ws, wnat ws 3)) ++ [(rank, loadMsgName ws, wnat ws 3)] })) ∧
        (loadKind f = 2 → Answers (.doneNotice port f true) s [.fab, .ctxs] (fun t => t.jobOf ctx = some { j with
          dones := j.dones.filter (· ≠ (rank, loadMsgName ws)) ++ [(rank, loadMsgName ws)] })) ∧
        (loadKind f = 1 → wnat ws 4 = 0 → (∀ x ∈ s.allCmds, x.2.2.op ≠ 0x62) →
          Answers (.readerStart port f true) s [.fab, .ctxs] (fun t => ∃ a, t.jobOf ctx = some { j with announced := a } ∧
            a.name = loadMsgName ws ∧ a.total = wnat ws 3 ∧ a.pieces = readPieces ((ws.length - 5) / 5) (ws.drop 5)))))

/-- The CONTROL frames of the peer tier. -/
def Obligations.LendingMessagesAct : Prop :=
  ∀ (s : State) (port : Nat) (f : Frame) (part first count : Nat), s.ForUs port f → f.ty = 0x38 →
    part = wnat (Frame.words f) 0 % 64 → first = wnat (Frame.words f) 1 → count = wnat (Frame.words f) 2 →
    (f.tf 0 7 0 = 1 →
      (∀ a, 1 ≤ count → a + count ≤ s.tiers.lendW → (∀ i, i < count → s.lendable (a + i) = true) →
        (∀ b, b < a → ∃ i, i < count ∧ s.lendable (b + i) = false) → s.tiers.lends.length < 4096 →
        Answers (.lendRequest port f true) s [.fab, .tiers] (fun t =>
          t.tiers = { s.tiers with lends := s.tiers.lends ++ [Lend.mk f.src part a count false] } ∧
          t.fab = ((s.received port f).sendAnswer (s.control f.src 0x02 part a count)).fab)) ∧
      ((count = 0 ∨ s.tiers.lendW < count ∨ 4096 ≤ s.tiers.lends.length ∨ ∀ a, a + count ≤ s.tiers.lendW → ∃ i, i < count ∧ s.lendable (a + i) = false) →
        exec (.lendRequest port f true) s = .next ((s.received port f).sendAnswer (s.control f.src 0x03 part 0 count)))) ∧
    (∀ fn q c, s.peerMapOf part f.src count = some (fn, q, c) → s.cmdOf fn q c.n = some c → c.phase = .running → c.status = 0 →
      (f.tf 0 7 0 = 2 → Answers (.lendGrant port f true) s [.fab, .cp] (fun t => t.Ended fn q c.n St.ok count 0 ∧
        (∀ d, t.cmdOf fn q c.n = some d → ∀ i, i < count → ((d.maps.find? (fun m => m.1 = bwFirst c.eff + i)).map (fun m =>
          (m.2.frame, m.2.tier, m.2.chip))) = some (first + i, 2, f.src)))) ∧
      (f.tf 0 7 0 = 3 → c.shadows = [] → c.maps = [] → s.cmdSlots fn q c.n = [] →
        Answers (.lendRefusal port f true) s [.fab, .cp] (fun t => t.Ended fn q c.n St.remoteRefused f.src 0))) ∧
    (f.tf 0 7 0 = 2 → s.peerMapOf part f.src count = none →
      exec (.lendGrant port f true) s = .next ((List.range count).foldl (fun u i => u.lendReturn part f.src (first + i))
        (s.received port f))) ∧
    (f.tf 0 7 0 = 4 → Answers (.recallNotice port f true) s [.fab, .tiers] (fun t =>
      t.tiers.borrowRecalls = s.tiers.borrowRecalls ++ [(f.src, first, count)] ∧ t.tiers.mem = s.tiers.mem ∧
      (∀ i, (s.bmOf i).state = 1 → (s.bmOf i).tier = 2 → (s.bmOf i).chip = f.src → first ≤ (s.bmOf i).loc →
        (s.bmOf i).loc < first + count → s.preparing i = false → (t.bmOf i).state = 2 ∧
        ∃ m, t.migOf i = some m ∧ m.begun = false ∧ m.tier = 1 ∧ m.kind = 3) ∧
      ∀ i, (s.preparing i = true ∨ ∀ e, (i, e) ∈ s.tiers.bm → ¬(e.state = 1 ∧ e.tier = 2)) → t.bmOf i = s.bmOf i)) ∧
    (∀ l, f.tf 0 7 0 = 5 → count = 1 →
      s.tiers.lends.find? (fun l => l.chip = f.src && l.part = part && decide (l.first ≤ first) && decide (first < l.first + l.count)) = some l →
      Answers (.lendFrameRelease port f true) s [.fab, .tiers, .cp] (fun t => t.tiers.lendScrub = s.tiers.lendScrub ++ [first] ∧
        l ∉ t.tiers.lends ∧
        t.tiers.mem = s.tiers.mem ∧ (∀ x ∈ t.tiers.lends, x.chip = f.src → x.part = part → x ∈ s.tiers.lends ∨
          ¬(x.first ≤ first ∧ first < x.first + x.count)) ∧
        ∀ fn q n c a k r e, s.cmdOf fn q n = some c → c.phase = .running → c.work = .recall a k r e false → a ≤ first → first < a + k →
          t.cmdOf fn q n = some { c with work := .recall a k (r + 1) e false }))

/-- The timers and events of the fabric. -/
def Obligations.LinkTimersAct : Prop :=
  ∀ (s : State) (port : Nat) (p : Port), s.portOf port = p →
    (p.usable = true → p.replayBuf ≠ [] → p.failedReplays < 3 →
      Answers (.replayTimeout port) s [.fab, .isl, .mgmt, .cores, .power, .ctxs, .free] (fun t =>
        (t.portOf port).tx = p.tx ++ p.replayBuf.map (fun g => { g with lack := p.rxSeq }) ∧
        (t.portOf port).replayBuf = p.replayBuf ∧ (t.portOf port).failedReplays = p.failedReplays + 1 ∧
        ∀ j, j ≠ port → t.portOf j = s.portOf j)) ∧
    (p.usable = true → p.replayBuf ≠ [] → 3 ≤ p.failedReplays →
      exec (.replayTimeout port) s = .next (s.portDown port 1)) ∧
    (p.usable = true → p.unreported ≠ 0 →
      Answers (.ackTimer port) s [.fab] (fun t => (t.portOf port).unreported = 0 ∧
        (t.portOf port).tx = p.tx ++ [{ (s.linkAckFrame false) with lseq := 0, lack := p.rxSeq }] ∧
        ∀ j, j ≠ port → t.portOf j = s.portOf j)) ∧
    (∀ lanes, p.usable = true → p.lanesUp &&& lanes ≠ p.lanesUp →
      (p.lanesUp &&& lanes = 0 → exec (.lossOfLock port lanes) s = .next (s.portDown port 2)) ∧
      (p.lanesUp &&& lanes ≠ 0 → laneCount (p.lanesUp &&& lanes) < 3 → exec (.lossOfLock port lanes) s = .next (s.portDown port 3)) ∧
      (3 ≤ laneCount (p.lanesUp &&& lanes) →
        Answers (.lossOfLock port lanes) s [.fab, .isl, .mgmt, .cores, .power, .ctxs, .free] (fun t =>
          (t.portOf port).lanesUp = p.lanesUp &&& lanes ∧ (t.portOf port).state = p.state ∧
          ∀ j, j ≠ port → t.portOf j = s.portOf j))) ∧
    (∀ k, (s.circOf k).state = 2 → (s.circOf k).transit = false → (s.circOf k).kind ≠ 2 →
      Answers (.creditTimer k) s [.fab] (fun t =>
        (t.circOf k).owed = (s.circOf k).owed - min (s.circOf k).owed 1024 ∧ (∀ j, j ≠ k → t.circOf j = s.circOf j) ∧
        t.portOf (s.circOf k).away.1 = (s.portOf (s.circOf k).away.1).send { (s.frame 0x14 (s.circOf k).away.2.2
          [w32 (min (s.circOf k).owed 1024)] []) with circuit := (s.circOf k).away.2.1 }) ∧
      ((s.circOf k).avail < (s.circOf k).limit →
        ∃ t, exec (.creditTimeout k) s = .next t ∧ (t.circOf k).state = 0 ∧ t.pending = s.pending)) ∧
    (∀ id r, s.fab.reqs.find? (fun r => r.id = id) = some r →
      (r.tries = 1 → exec (.peerRequestTimeout id) s = .next (s.resend r 1)) ∧
      (r.tries ≠ 1 → s.ctxLive r.ctx = true →
        ∃ t, exec (.peerRequestTimeout id) s = .next t ∧ t.Torn r.ctx)) ∧
    (∀ fn q n c id j, s.started fn q n 0x70 = some c → c.status = 0 → c.work = .job id → s.jobOf c.ctx = some j →
      s.jobReady c.ctx j = false →
      ∃ t, exec (.jobOpenTimeout fn q n) s = .next t ∧ t.Ended fn q n St.circuitsUnavailable 32 0 ∧ t.pending = s.pending) ∧
    (∀ fn q c lane left, s.recalOf port = some (fn, q, c, lane, false, left) → s.cmdOf fn q c.n = some c → c.status = 0 → p.usable = true →
      p.recalActive = true → lane < 4 → nbit p.lanesUp lane = false → 3 ≤ laneCount (setBits p.lanesUp lane lane 1) →
      Answers (.laneRetrainDone port true) s [.fab, .cp] (fun t => t.Ended fn q c.n St.ok left 0 ∧
        nbit (t.portOf port).lanesUp lane = true ∧ (t.portOf port).recalActive = false)) ∧
    (∀ v t, s.hostLive = true → t = { s with fab := { s.fab with
        routes := tset 0 s.fab.routes s.fab.routeIndex (v.toNat % 2 ^ 23) } } → t.unreach s.fab.routeIndex = false →
      exec (.routeDataWrite v) s = .next t) ∧
    (∀ lanes chip nport, port < 32 → p.mappedOut = true → 3 ≤ laneCount lanes → lanes < 16 →
      Answers (.neighbourLinkRestore port lanes chip nport) s [.fab, .isl, .mgmt, .cores, .power, .ctxs, .free] (fun t =>
        (t.portOf port).state = 2 ∧ (t.portOf port).mappedOut = false ∧ (t.portOf port).lanesUp = lanes ∧
        (t.portOf port).nChip = chip ∧ (t.portOf port).nPort = nport ∧ (t.portOf port).rxSeq = 0 ∧ (t.portOf port).txSeq = 0 ∧
        ∀ j, j ≠ port → t.portOf j = s.portOf j))

/-- Resets and SR-IOV. -/
def Obligations.ResetsRunTheirOrder : Prop :=
  ∀ (s : State) (p : Nat),
    (∀ v, s.hostLive = true → bit v 1 = true → bit v 0 = false → fld v 13 8 = p → (s.partOf p).resetting = false → s.parts.warm = false →
      ∃ t, exec (.partReset v) s = .next t ∧ t.pending = s.pending ∧ (t.partOf p).resetting = true ∧
        (∀ q, (t.queueOf p q).window = [] ∧ ((t.queueOf p q).state = .resetting ∨ (t.queueOf p q).state = .disabled)) ∧
        (∀ c, s.ownsCtx p c = true → t.ctxLive c = false) ∧
        (∀ k i, s.clusterOwner (clusterOf k) = p → t.handOf k i = none) ∧
        (∀ r, r ≠ p → (t.partOf r).resetting = (s.partOf r).resetting)) ∧
    (s.hostLive = true → s.fnExists p = true → p ≠ 0 → (s.partOf p).resetting = false → s.parts.warm = false →
      ∃ t, exec (.functionLevelReset p) s = .next t ∧ (t.partOf p).resetting = true ∧ (t.fnOf p).msixEnable = false ∧
        (t.fnOf p).msixMask = false ∧ ∀ c, s.ownsCtx p c = true → t.ctxLive c = false) ∧
    (s.hostLive = true → (s.partOf 0).resetting = false → s.parts.warm = false →
      ∃ t, exec (.functionLevelReset 0) s = .next t ∧ (t.partOf 0).resetting = true ∧ t.parts.vfEnable = false ∧ t.parts.numVfs = 0 ∧
        t.mgmt.dbgEnable = false) ∧
    ((s.partOf p).resetting = true → s.parts.warm = false → s.booted = true →
      Answers (.partitionResetDone p) s [.cp, .parts, .power, .host] (fun t => (t.partOf p).resetting = false ∧
        (t.partOf p).commitSeq = 1 ∧ (t.partOf p).shares = true ∧ (t.fnOf p).queues = [] ∧ nbit (t.fnOf p).intCause 0 = true ∧
        (∀ r, r ≠ p → t.partOf r = s.partOf r) ∧ ∀ r, r ≠ p → t.fnOf r = s.fnOf r)) ∧
    (∀ v, s.hostLive = true → bit v 0 = true → s.parts.warm = false → s.booted = true →
      ∃ t, exec (.warmReset v) s = .next t ∧ t.pending = s.pending ∧ t.parts.warm = true ∧ t.parts.protLock = false ∧
        t.tiers.lends = [] ∧ ∀ r, r < 64 → s.partEnabled r = true → (t.partOf r).resetting = true) ∧
    (s.parts.warm = true →
      ∃ t, exec .warmResetDone s = .next t ∧ t.pending = s.pending ∧ t.parts.warm = false ∧ t.parts.protLock = true ∧
        t.parts.planId = word s.plan 1 ∧
        (∀ r, r < 64 → t.partOf r = { record := (s.plan.drop (16 + 16 * r)).take 16 }) ∧
        (∀ r, r < 64 → t.partEnabled r = true → nbit (t.fnOf r).intCause 0 = true ∧ nbit (t.fnOf r).intCause 1 = true)) ∧
    (∀ n, s.hostLive = true → s.parts.vfEnable = true → n < s.parts.numVfs → s.parts.warm = false →
      ∃ t, exec (.vfRemoval n) s = .next t ∧ t.parts.numVfs = n ∧ (t.parts.vfEnable = true ↔ n ≠ 0) ∧
        ∀ f, n < f → f ≤ s.parts.numVfs → f < 64 → (t.partOf f).resetting = true) ∧
    (∀ n, s.hostLive = true → 1 ≤ n → n ≤ 63 → (s.parts.vfEnable = false ∨ s.parts.numVfs < n) →
      exec (.vfEnable n) s = .next { s with parts := { s.parts with numVfs := n, vfEnable := true } })

/-- The register windows. -/
def Obligations.RegistersReadAndWrite : Prop :=
  ∀ (s : State) (f : Nat) (g : Fn), s.fnOf f = g →
    (s.fnLive f = true →
      (∀ v : Word, g.frEnable = false → bit v 31 = true → v.toNat % 4096 ≠ 0 →
        Answers (.faultRingEnable f v) s [.cp] (fun t => t.fnOf f = { g with
          frSizeM1 := v.toNat % 4096, frEnable := true, frHead := 0, frTail := 0 } ∧ ∀ k, k ≠ f → t.fnOf k = s.fnOf k)) ∧
      (∀ v : Word, g.frEnable = false → bit v 31 = true → v.toNat % 4096 = 0 →
        Answers (.faultRingEnable f v) s [.cp, .host] (fun t => (t.fnOf f).frEnable = false ∧ nbit (t.fnOf f).intCause 5 = true)) ∧
      (∀ v : Word, (v.toNat % 4096 ≤ g.frSizeM1 →
          (v.toNat % 4096 + (g.frSizeM1 + 1) - g.frHead) % (g.frSizeM1 + 1) ≤ (g.frTail + (g.frSizeM1 + 1) - g.frHead) % (g.frSizeM1 + 1) →
          Answers (.frHeadWrite f v) s [.cp] (fun t => t.fnOf f = { g with frHead := v.toNat % 4096 } ∧ ∀ k, k ≠ f → t.fnOf k = s.fnOf k)) ∧
        (g.frSizeM1 < v.toNat % 4096 →
          Answers (.frHeadWrite f v) s [.cp, .host] (fun t => (t.fnOf f).frHead = g.frHead ∧ nbit (t.fnOf f).intCause 5 = true))) ∧
      (∀ v : Word, (∀ b, b < 8 → nbit g.intCause b = true → nbit g.intMask b = true → nbit v.toNat b = true) →
        Answers (.intMaskWrite f v) s [.cp] (fun t => t.fnOf f = { g with intMask := v.toNat % 256 } ∧ ∀ k, k ≠ f → t.fnOf k = s.fnOf k)) ∧
      (∀ v : W64, Answers (.registerWrite f 0 0x104 4 v) s [.cp] (fun t =>
        t.fnOf f = { g with intCause := g.intCause &&& (255 - v.toNat % 256) } ∧ ∀ k, k ≠ f → t.fnOf k = s.fnOf k)) ∧
      (∀ q (v : W64), q < 64 →
        ((s.queueOf f q).state = .disabled → Answers (.registerWrite f 0 (0x1000 + 64 * q + 0x10) 4 v) s [.cp] (fun t =>
          t.queueOf f q = { s.queueOf f q with sqSizeM1 := v.toNat % 2 ^ 32 % 65536, cqSizeM1 := v.toNat % 2 ^ 32 / 65536 } ∧
          ∀ k, k ≠ q → t.queueOf f k = s.queueOf f k)) ∧
        ((s.queueOf f q).state ≠ .disabled → Answers (.registerWrite f 0 (0x1000 + 64 * q + 0x10) 4 v) s [.cp] (fun t =>
          ∀ k, t.queueOf f k = s.queueOf f k))) ∧
      (Answers (.registerReadClear f 0 0x110 4) s [.cp, .host] (fun t =>
        t.host.readData = BitVec.ofNat 64 ((g.intHeld + g.preemptDenied * 2 ^ 16) % 2 ^ 32) ∧ t.host.mem = s.host.mem ∧
        t.fnOf f = { g with intHeld := 0, preemptDenied := 0 } ∧ ∀ k, k ≠ f → t.fnOf k = s.fnOf k)) ∧
      (Answers (.registerReadClear f 0 0x104 4) s [.host] (fun t => t.host.readData = BitVec.ofNat 64 (g.intCause % 2 ^ 32)))) ∧
    (∀ off size v, exec (.registerWrite f 4 off size v) s = .next s) ∧
    (∀ off size v, s.hostLive = true → aligned off size = false → exec (.registerWrite f 0 off size v) s = .next s) ∧
    (∀ p, s.hostLive = true → p < 32 →
      Answers (.registerReadClear 0 0 (0x1011000 + 64 * p + 12) 4) s [.fab, .host] (fun t =>
        t.host.readData = BitVec.ofNat 64 (((s.portOf p).discarded + (s.portOf p).crcErrors * 2 ^ 8 + (s.portOf p).replays * 2 ^ 16) % 2 ^ 32) ∧
        t.portOf p = { s.portOf p with discarded := 0, crcErrors := 0, replays := 0 } ∧ ∀ k, k ≠ p → t.portOf k = s.portOf k))

/-- Requests of the mailbox that read. -/
def Obligations.MailboxAnswers : Prop :=
  ∀ (s : State), s.Inv →
    (∀ result outs payload, s.Only [.mgmt, .cp, .host] (s.respond result outs payload) ∧
      (s.respond result outs payload).mgmt.mbBusy = false ∧ (s.respond result outs payload).mgmt.mbDone = true ∧
      (s.respond result outs payload).mgmt.mbDoneSeq = s.mgmt.mbSeq ∧
      (∀ i, i < payload.length → cellGet (s.respond result outs payload).mgmt.respArea (32 + i) = payload.getD i 0) ∧
      cellRead (s.respond result outs payload).mgmt.respArea 0 32 = wordBytes ([w32 (bits (s.mgmt.req 0) 7 0 + result * 2 ^ 8 +
        bits (s.mgmt.req 0) 31 16 * 2 ^ 16), w32 payload.length] ++ (List.range 6).map (fun i => w32 (outs.getD i 0))) ∧
      nbit ((s.respond result outs payload).fnOf 0).intCause 7 = true) ∧
    (s.Asked 0x01 → exec .info s = .next (s.respond 0 [imVersion s.mgmt.fw.a, imVersion s.mgmt.fw.b, imVersion s.mgmt.cfg.a,
      imVersion s.mgmt.cfg.b, s.mgmt.fw.floor, s.mgmt.cfg.floor] [])) ∧
    (∀ rs first skip, s.Asked 0x02 → 1 ≤ s.mgmt.param 1 → s.mgmt.param 1 ≤ 8191 → first = s.mgmt.nextLog - s.mgmt.log.length →
      skip = s.mgmt.param 0 - first → rs = (s.mgmt.log.drop skip).take (s.mgmt.param 1) →
      exec .logRead s = .next (s.respond 0 [if rs = [] then 0 else first + skip, rs.length, s.mgmt.nextLog] (rs.flatMap wordBytes))) ∧
    (∀ k, s.Asked 0x04 → k = bits (s.mgmt.param 0) 15 0 → k ∈ allIslands →
      Answers .firstErrorRead s [.mgmt, .isl, .cp, .host] (fun t => t.islOf k = { s.islOf k with first := none, later := 0 } ∧
        (∀ j, j ≠ k → t.islOf j = s.islOf j) ∧
        t.mgmt = (s.respond 0 [(s.islOf k).later, b2n (s.islOf k).first.isSome] (((s.islOf k).first.map wordBytes).getD [])).mgmt)) ∧
    (s.Asked 0x05 → exec .sensorRead s = .next (s.respond 0 [] (s.mgmt.temps.flatMap (fun t => leBytes 2 (ofInt 16 t)) ++
      (s.mgmt.supplies ++ s.mgmt.currents ++ s.mgmt.volts).flatMap (leBytes 2)))) ∧
    (s.Asked 0x06 →
      (∀ v, s.counter (s.mgmt.param 0) (s.mgmt.param 1) (s.mgmt.param 2) = some v →
        exec .counterRead s = .next (s.respond 0 [v % 2 ^ 32, v / 2 ^ 32] [])) ∧
      (s.counter (s.mgmt.param 0) (s.mgmt.param 1) (s.mgmt.param 2) = none → exec .counterRead s = .next (s.respond 2 [] []))) ∧
    (s.Asked 0x07 → s.mgmt.param 0 ≤ 3332 → s.mgmt.showHeld = true →
      exec .snapshotRead s = .next (s.respond 0 [] (s.snapRecord (s.mgmt.param 0)))) ∧
    (s.Asked 0x0C → exec .identity s = .next (s.respond 0 [] (padTo 32 (Config.identityBytes [] 32) ++
      Config.identityBytes s.mgmt.digests 0))) ∧
    (∀ r, s.Asked 0x0D → s.mgmt.req 1 = 32 → r = s.attestReport s.mgmt.payload →
      exec .attest s = .next (s.respond 0 [] (r ++ padTo 17088 (Config.identityBytes (s.mgmt.digests ++ r) 17088)))) ∧
    (s.Asked 0x10 → exec .fenceRead s = .next (s.respond 0 [] (leBytes 384 (sumNat (s.mgmt.fencedCores.map (fun i => 2 ^ i))) ++
      leBytes 24 (sumNat (s.mgmt.fencedClusters.map (fun i => 2 ^ i)))))) ∧
    (∀ offset bytes, s.hostLive = true → s.mgmt.dbgEnable = true → offset + bytes ≤ 2 ^ 36 →
      Answers (.debugWindowRead offset bytes) s [.host, .free] (fun t => t.host.mem = s.host.mem ∧ t.host.msgs = s.host.msgs ∧
        t.host.readBytes = (pieces (s.mgmt.dbgBase + offset) bytes).flatMap (fun p => s.windowPiece s.mgmt.dbgCtx p.1 p.2.1 p.2.2)))

/-- Requests of the mailbox that change something. -/
def Obligations.MailboxChanges : Prop :=
  ∀ (s : State) (kind : Nat), kind = s.mgmt.param 0 →
    (s.Asked 0x03 → Answers .logAck s [.mgmt, .cp, .host] (fun t => t.mgmt.logAck = some kind ∧ t.mgmt.log = s.mgmt.log)) ∧
    (s.Asked 0x08 → Answers .snapshotRelease s [.mgmt, .cp, .host] (fun t => t.mgmt.showHeld = false ∧ t.mgmt.log = s.mgmt.log)) ∧
    (∀ x, s.Asked 0x09 → kind ≤ 1 → s.mgmt.param 1 % 64 = 0 → s.mgmt.req 1 ≤ 262112 → x = s.mgmt.slotsOf kind →
      Answers .updateWrite s [.mgmt, .cp, .host] (fun t => (t.mgmt.slotsOf kind).cells (!x.activeB) =
          cellWrite (x.cells (!x.activeB)) (s.mgmt.param 1) s.mgmt.payload ∧
        (t.mgmt.slotsOf kind).cells x.activeB = x.cells x.activeB ∧ t.mgmt.slotsOf (1 - kind) = s.mgmt.slotsOf (1 - kind))) ∧
    (∀ x im, s.Asked 0x0A → kind ≤ 1 → x = s.mgmt.slotsOf kind → im = x.cells (!x.activeB) →
      Answers .updateCommit s [.mgmt, .cp, .host] (fun t =>
        if imHeadOk kind im = true ∧ s.mgmt.signed kind im = true ∧ imTotal im = s.mgmt.param 1 then
          if x.floor ≤ imSecurity im then
            t.mgmt.slotsOf kind = { x with pending := true, tried := false } ∧ t.mgmt.slotsOf (1 - kind) = s.mgmt.slotsOf (1 - kind)
          else t = s.respond 5 [] []
        else t = s.respond 4 [] [])) ∧
    (∀ x, s.Asked 0x0B → kind ≤ 1 → x = s.mgmt.slotsOf kind →
      (x.floor ≤ s.mgmt.param 1 → s.mgmt.param 1 ≤ imSecurity (x.cells x.activeB) →
        Answers .floorRaise s [.mgmt, .cp, .host] (fun t => t.mgmt.slotsOf kind = { x with floor := s.mgmt.param 1 } ∧
          t.mgmt.slotsOf (1 - kind) = s.mgmt.slotsOf (1 - kind))) ∧
      (s.mgmt.param 1 < x.floor → exec .floorRaise s = .next (s.respond 5 [] []))) ∧
    (∀ base, s.Asked 0x0E → base = s.mgmt.param 2 + bits (s.mgmt.param 3) 15 0 * 2 ^ 32 →
      (s.mgmt.debugAllowed = false → exec .debugWindow s = .next (s.respond 6 [] [])) ∧
      (s.mgmt.debugAllowed = true → base % 2 ^ 36 = 0 → nbit kind 0 = true →
        Answers .debugWindow s [.mgmt, .cp, .host] (fun t => t.mgmt.dbgEnable = true ∧ t.mgmt.dbgCtx = bits (s.mgmt.param 1) 7 0 ∧
          t.mgmt.dbgBase = base)) ∧
      (s.mgmt.debugAllowed = true → base % 2 ^ 36 = 0 → nbit kind 0 = false →
        Answers .debugWindow s [.mgmt, .cp, .host] (fun t => t.mgmt.dbgEnable = false ∧ t.mgmt.dbgBase = s.mgmt.dbgBase))) ∧
    (s.Asked 0x0F → s.mgmt.ownerKey = none → 48 ≤ s.mgmt.req 1 →
      Answers .ownerSet s [.mgmt, .cp, .host] (fun t => t.mgmt.ownerKey = some (cellRead s.mgmt.reqArea 32 48))) ∧
    (∀ old, s.Asked 0x0F → s.mgmt.ownerKey = some old → s.mgmt.req 1 = 48 + sigBytes →
      Answers .ownerSet s [.mgmt, .cp, .host] (fun t =>
        if Config.signatureGood (cellRead s.mgmt.reqArea 0 80) (cellRead s.mgmt.reqArea 80 sigBytes) old = true then
          t.mgmt.ownerKey = some (cellRead s.mgmt.reqArea 32 48)
        else t = s.respond 4 [] [])) ∧
    (∀ req row, (req, row) ∈ [(1, Instr.info), (2, .logRead), (3, .logAck), (4, .firstErrorRead), (5, .sensorRead), (6, .counterRead),
        (7, .snapshotRead), (8, .snapshotRelease), (9, .updateWrite), (10, .updateCommit), (11, .floorRaise), (12, .identity),
        (13, .attest), (14, .debugWindow), (15, .ownerSet), (16, .fenceRead)] → ¬s.Asked req → exec row s = .next s)

/-- The events of the management island and of showdowns. -/
def Obligations.ManagementEventsAct : Prop :=
  ∀ (s : State),
    (s.mgmt.boot ≠ .off → s.mgmt.restarting = false →
      ∃ t, exec .mgmtWatchdogExpire s = .next t ∧ t.pending = s.pending ∧ t.mgmt.restarting = true ∧ t.mgmt.mbBusy = false ∧
        t.mgmt.mbDone = false ∧ t.mgmt.mbRestarted = true ∧ t.mgmt.corrDue = [] ∧
        ∀ f q n c, s.cmdOf f q n = some c → (f, q, c) ∈ s.allCmds → c.phase = .running → mgmtOp c.op = true →
          ∃ d, t.cmdOf f q n = some d ∧ d.phase = .finished) ∧
    (s.mgmt.restarting = true →
      Answers .mgmtServiceResume s [.mgmt, .free, .cp, .host] (fun t => t.mgmt.restarting = false ∧ t.mgmt.nextLog = s.mgmt.nextLog + 1 ∧
        (s.mgmt.mbBusy = false → s.Only [.mgmt, .free] t) ∧
        ∀ r, r = bits (s.mgmt.req 0) 7 0 → s.mgmt.mbBusy = true →
          (1 ≤ r → r ≤ 0x10 → s.Only [.mgmt, .free] t ∧ t.mgmt.mbBusy = true) ∧
          (r = 0 ∨ 0x10 < r → t.mgmt.mbBusy = false ∧ t.mgmt.mbDone = true))) ∧
    (∀ island cls code ctx detail r, island ∈ allIslands → cls < 16 → s.mgmt.boot ≠ .off → s.mgmt.arming = none →
      r = errRecord 0x10 cls code island (ctx.map (fun c => ((s.ctxOwner c).getD 0, c))) (s.islCount island) (BitVec.toNat detail) →
      Answers (.errorReport island cls code ctx detail) s [.isl] (fun t =>
        ((s.islOf island).fifo.length < 16 → (t.islOf island).fifo = (s.islOf island).fifo ++ [r]) ∧
        (16 ≤ (s.islOf island).fifo.length → (t.islOf island).fifo = (s.islOf island).fifo ∧
          tget 0 (t.islOf island).lost cls = satAdd 16 (tget 0 (s.islOf island).lost cls) 1) ∧
        (t.islOf island).first = some ((s.islOf island).first.getD r) ∧ ∀ j, j ≠ island → t.islOf j = s.islOf j)) ∧
    (∀ island r rest, (s.islOf island).fifo = r :: rest → (s.islOf island).lost = [] → s.mgmt.log.length < 8192 →
      Answers (.errorHubDrain island) s [.mgmt, .isl, .free] (fun t => t.islOf island = { s.islOf island with fifo := rest } ∧
        t.mgmt.nextLog = s.mgmt.nextLog + 1 ∧ ∃ r', t.mgmt.log = s.mgmt.log ++ [r'] ∧ r'.length = r.length ∧
          (0x10 ≤ fld (word r 0) 7 0 → 6 < r.length → word r' 6 = w32 s.mgmt.nextLog) ∧ ∀ i, i ≠ 6 → word r' i = word r i)) ∧
    (∀ temps supplies currents volts, temps.length = 96 → supplies.length = 192 → currents.length = 4 → volts.length = 4 →
      s.mgmt.boot ≠ .off → s.mgmt.restarting = false →
      exec (.sensorSample temps supplies currents volts) s =
        .next { s with mgmt := { s.mgmt with temps := temps, supplies := supplies, currents := currents, volts := volts } }) ∧
    (∀ a row, s.mgmt.arming = some a → (row = .showdownPin ∧ a.pin = true ∨
        row = .showdownCountMatch ∧ ∃ i v, a.count = some (i, v) ∧ v.toNat ≤ s.islCount i) →
      (s.mgmt.showHeld = false → Answers row s [.isl, .mgmt, .cores, .power, .ctxs, .free] (fun t => t.mgmt.arming = none ∧
        t.mgmt.showHeld = true ∧ t.mgmt.showCut = a.cut ∧ t.mgmt.showNum = (if s.mgmt.showNum = 65535 then 1 else s.mgmt.showNum + 1) ∧
        (a.cut = false → t.mgmt.showRecorded = true) ∧ t.power.showdownDrive = s.power.showdownDrive + b2n a.drive)) ∧
      (s.mgmt.showHeld = true → exec row s = .next { s with mgmt := { s.mgmt with
        arming := none, missed := satAdd 16 s.mgmt.missed 1 } })) ∧
    (∀ core port ch t0 o row, row = Instr.showdownTileArrive core port ch → s.inputHead core port ch = some (t0, o) → t0.kind = 3 →
      port * 4 + ch ∉ (s.coreOf core).heldIn → s.handWaits core t0 = false → s.mgmt.cutOpen = true → t0.tag = s.mgmt.showNum % 1024 →
      ((s.coreOf core).snapLatched = true → (∀ h r i, s.arriveRoute core port ch t0 = some (h, r, i) →
          s.hasTurn core (port * 4 + ch) r = true ∧ ∀ d ∈ r.dests, d.target ≤ 3 → s.destRoom core t0 d = true) →
        ∃ t, exec row s = .next t ∧ t.pending = s.pending ∧ (tget (0, 0, 0, false) (t.coreOf core).snapIn (port * 4 + ch)).2.2.2 = true) ∧
      ((s.coreOf core).snapLatched = false → (∃ h ∈ (s.coreOf core).hands, h.2.isSome = true) →
        (s.latchRoom core = true → ∃ t, exec row s = .next t ∧ t.pending = s.pending ∧ (t.coreOf core).snapLatched = true ∧
          (tget (0, 0, 0, false) (t.coreOf core).snapIn (port * 4 + ch)).2.2.2 = true) ∧
        (s.latchRoom core = false → exec row s = .next s))) ∧
    (s.mgmt.cutOpen = true →
      Answers .showdownCutTimeout s [.mgmt, .free] (fun t => t.mgmt.showIncomplete = true ∧ t.mgmt.showRecorded = true ∧
        t.mgmt.nextLog = s.mgmt.nextLog + 1)) ∧
    (∀ k, k ∈ s.mgmt.corrDue →
      Answers (.correlationMarkerArrive k) s [.mgmt, .isl] (fun t => t.mgmt.corrDue = s.mgmt.corrDue.erase k ∧
        t.islOf k = { s.islOf k with latch := some (s.islOf k).count } ∧ (∀ j, j ≠ k → t.islOf j = s.islOf j) ∧
        t.mgmt.nextLog = s.mgmt.nextLog + 1)) ∧
    (∀ cl k, cl < 192 → (s.islOf cl).running = true → k = s.codeFor cl → k < s.codeOf cl →
      Answers (.frequencyChange cl k) s [.isl, .power, .mgmt] (fun t => t.codeOf cl = k ∧
        t.islOf cl = { s.islOf cl with khz := 25000 * k } ∧ (∀ j, j ≠ cl → t.codeOf j = s.codeOf j) ∧
        650000 ≤ (t.dieOf (dieOfCluster cl)).rail ∧ (t.dieOf (dieOfCluster cl)).rail ≤ 850000 ∧
        t.mgmt.nextLog = s.mgmt.nextLog + 1))

/-- Power and temperature. -/
def Obligations.GovernorAndCapsAct : Prop :=
  ∀ (s : State) (die : Nat),
    (∀ power temps, s.power.groups = 4 → s.power.tripped = false → temps.length = 96 →
      (∀ d, d < 4 → levelNext (s.dieOf d).level (hottest temps d) ≠ 3) →
      Answers (.governorTick power temps) s [.power, .isl, .mgmt, .cores, .ctxs, .free] (fun t => t.power.powerW = power ∧
        t.power.gov ≤ max 32 (s.power.gov + 1) ∧ s.power.gov ≤ t.power.gov + 1 ∧
        (∀ d, d < 4 → (t.dieOf d).level = levelNext (s.dieOf d).level (hottest temps d) ∧
          (t.dieOf d).ceiling = min (min t.power.gov (t.dieOf d).thermCap) (min (t.dieOf d).iccCap
            (if s.power.brake then s.power.brakeAt else 80))) ∧
        t.power.codes = s.power.codes)) ∧
    (s.power.groups = 4 → s.power.tripped = false → die < 4 →
      (Answers (.thermalCapStep die) s [.power] (fun t => (t.dieOf die).thermCap = (if (s.dieOf die).level = 1 then
          max ((s.dieOf die).thermCap - 1) 32 else if (s.dieOf die).level = 0 then min ((s.dieOf die).thermCap + 1) 80
          else (s.dieOf die).thermCap) ∧ ∀ d, d ≠ die → t.dieOf d = s.dieOf d)) ∧
      (Answers (.iccLimitExceed die) s [.power, .isl, .mgmt, .cores, .ctxs, .free] (fun t =>
        t.dieOf die = { s.dieOf die with iccCap := max ((s.dieOf die).ceiling - 4) 32 } ∧ ∀ d, d ≠ die → t.dieOf d = s.dieOf d)) ∧
      (Answers (.iccCapRaise die) s [.power] (fun t =>
        t.dieOf die = { s.dieOf die with iccCap := min ((s.dieOf die).iccCap + 1) 80 } ∧ ∀ d, d ≠ die → t.dieOf d = s.dieOf d)) ∧
      (Answers (.railSettleTimeout die) s [.power, .isl, .mgmt, .cores, .ctxs, .free] (fun t =>
        t.dieOf die = { s.dieOf die with raiseHeld := true } ∧ ∀ d, d ≠ die → t.dieOf d = s.dieOf d))) ∧
    (∀ row, s.power.tripped = false → die < 4 → (s.power.groups = 4 ∧ row = Instr.analogThermalTrip die) ∨
        (1 ≤ s.power.groups ∧ row = .railFault die) →
        ∃ t, exec row s = .next t ∧ t.pending = s.pending ∧ t.power.tripped = true ∧ t.power.thermtripN = false ∧ t.cp.halted = true ∧
          t.power.running = false ∧ t.power.groups ≤ 3 ∧ t.mgmt.boot = .tripped ∧ (∀ c, t.ctxLive c = false) ∧
          (∀ cl, cl < 192 → (t.islOf cl).running = false) ∧ ∀ k i, t.handOf k i = none) ∧
    (s.power.stbyPg = true → s.power.brake = false →
      Answers .powerBrakeAssert s [.power, .isl, .mgmt, .cores, .ctxs, .free] (fun t => t.power.brake = true ∧
        (∀ d, d < 4 → (t.dieOf d).ceiling ≤ max 32 (min s.power.brakeCode 80)) ∧
        (∀ cl, cl < 192 → (s.islOf cl).running = true → t.codeOf cl = min (s.codeOf cl) (max 32 (min s.power.brakeCode 80))) ∧
        t.power.gov = s.power.gov)) ∧
    (s.power.brake = true → exec .powerBrakeRelease s = .next { s with power := { s.power with
      brake := false, gov := min s.power.gov s.power.brakeAt } }) ∧
    (s.power.groups = 4 → s.power.tripped = false →
      (die < 4 → (s.dieOf die).level = 2 → exec (.precisionLower (some die)) s =
        .next (((tkeys s.ctxs).filter (fun c => s.onDie c die)).foldl (fun t c => t.lowerPasses c) s)) ∧
      (die < 4 → (s.dieOf die).level = 2 → (∀ c l, s.runnersOn c l = []) →
        Answers (.precisionLower (some die)) s [.ctxs] (fun t => ∀ c, (tkeys s.ctxs).count c ≤ 1 → (t.ctxOf c).curPasses =
          (if s.onDie c die = true ∧ s.ctxLive c = true ∧ (s.ctxOf c).floor < (s.ctxOf c).curPasses then (s.ctxOf c).curPasses - 1
           else (s.ctxOf c).curPasses))) ∧
      (s.power.gov = 32 → s.power.limit < s.power.powerW →
        exec (.precisionLower none) s = .next ((tkeys s.ctxs).foldl (fun t c => t.lowerPasses c) s))) ∧
    (s.power.groups = 4 → s.power.tripped = false → s.power.starved = false → (∀ d, d < 4 → (s.dieOf d).level ≠ 2) →
      Answers .precisionRestore s [.ctxs] (fun t =>
        ∀ c, s.ctxLive c = true → t.ctxOf c = { s.ctxOf c with curPasses := (s.ctxOf c).passes })) ∧
    (∀ v, s.power.stbyPg = true → exec (.tcHeartbeatWrite v) s = .next { s with power := { s.power with
      hbSeq := v, hbLost := s.power.hbLost && decide (v = s.power.hbSeq) } }) ∧
    (s.power.hbTimeout ≠ 0 → s.power.running = true →
      exec .heartbeatTimeout s = .next { s with power := { s.power with hbLost := true } })

/-- The package's own events. -/
def Obligations.PackageStartsAndStops : Prop :=
  ∀ (s : State),
    (s.mgmt.boot = .off → s.mgmt.arming = none → s.power.releaseHeld = none → (s.islOf islMgmt).running = false →
      ∃ t, exec .standbyPowerGood s = .next t ∧ t.pending = s.pending ∧ t.power.stbyPg = true ∧
        (∀ fw lf x cfg lc y, s.mgmt.fw.select (s.mgmt.accepts 0) = some (fw, lf, x) →
          (∀ m : Mgmt, m = { s.mgmt with fw := fw } → s.mgmt.cfg.select (fun im => m.accepts 1 im && cfComplete im) = some (cfg, lc, y)) →
          t.mgmt.boot = .ready ∧ t.power.ready = true ∧ t.mgmt.fw = fw ∧ t.mgmt.cfg = cfg ∧ (t.islOf islMgmt).running = true) ∧
        (s.mgmt.fw.select (s.mgmt.accepts 0) = none →
          t.mgmt.boot = .recovery ∧ t.power.ready = false ∧ t.mgmt.recoverStat = 0)) ∧
    (s.mgmt.boot = .off → s.mgmt.fw.select (s.mgmt.accepts 0) = none →
      ∃ t, exec .standbyPowerGood s = .next t ∧ s.Only [.mgmt, .power, .isl] t) ∧
    (∀ b, s.power.stbyPg = true → s.power.running = false → s.power.tripped = false →
      (s.mgmt.boot ≠ .ready ∨ b.tempsBelow80 = false →
        exec (.tcRelease b) s = .next { s with power := { s.power with releaseHeld := some b } }) ∧
      (s.mgmt.boot = .ready → b.tempsBelow80 = true →
        ∃ t, exec (.tcRelease b) s = .next t ∧ t.pending = s.pending ∧ t.power.groups = 4 ∧ t.power.running = true ∧
          t.power.boardMax = max 1200 (min s.power.tcBoard 2800) ∧ t.power.releaseHeld = none ∧
          (locOk b = false → t.mgmt.boot = .noLocation) ∧
          (locOk b = true → t.mgmt.boot = .up ∧ t.parts.protLock = true ∧ t.power.loc = some b.loc ∧
            ∀ c, t.ctxLive c = false))) ∧
    (∀ b, s.mgmt.boot = .noLocation → locOk b = true →
      ∃ t, exec (.locationRetry b) s = .next t ∧ t.pending = s.pending ∧ t.mgmt.boot = .up ∧ t.power.loc = some b.loc ∧
        t.parts.protLock = true ∧ (∀ r, r < 64 → t.partOf r = { record := (t.mgmt.bootPlan.drop (16 + 16 * r)).take 16 })) ∧
    (s.power.running = true →
      ∃ t, exec .tcOffReq s = .next t ∧ t.pending = s.pending ∧ t.power.running = false ∧ t.power.groups ≤ 3 ∧ t.power.ready = true ∧
        t.mgmt.boot = .ready ∧ (∀ p, p < 64 → s.partEnabled p = true → (t.partOf p).resetting = true) ∧
        (∀ k i, t.handOf k i = none) ∧ ∀ cl, cl < 192 → (t.islOf cl).running = false) ∧
    (s.power.stbyPg = true → ∃ t, exec .standbyPowerLoss s = .next t ∧ t.pending = s.pending ∧ t.mgmt.boot = .off ∧
      t.power.stbyPg = false ∧ t.power.running = false ∧ t.store = s.store ∧ t.kv.park = s.kv.park ∧ t.mgmt.fw = s.mgmt.fw ∧
      t.mgmt.cfg = s.mgmt.cfg ∧ t.mgmt.ownerKey = s.mgmt.ownerKey ∧ t.mgmt.fenceRecs = s.mgmt.fenceRecs ∧ t.host = s.host ∧
      t.ctxs = [] ∧ t.cores = [] ∧ t.cmem = [] ∧ t.sram = [] ∧ t.tiers.mem = []) ∧
    (s.mgmt.boot = .ready → Answers .railBringupTimeout s [.power, .parts, .isl, .mgmt, .cores, .ctxs, .free] (fun t =>
      t.power.railFault = true ∧ t.power.releaseHeld = none ∧ t.parts.protLock = false ∧ t.mgmt.boot = .ready))

/-- Recovery, the reset pin and the test access port. -/
def Obligations.RecoveryAndPinsAct : Prop :=
  ∀ (s : State),
    (∀ off data, s.mgmt.boot = .recovery → (s.mgmt.recoverStat = 0 ∨ s.mgmt.recoverStat = 2) → 1 ≤ data.length → data.length ≤ 256 →
      off = 0 ∨ s.mgmt.recoverImg ≠ [] →
      Answers (.recoveryImageWrite off data) s [.mgmt] (fun t => t.mgmt.recoverStat = 0 ∧
        t.mgmt.recoverImg = cellWrite s.mgmt.recoverImg off data ∧
        (t.mgmt.slotsOf t.mgmt.recoverKind).a = cellWrite (s.mgmt.slotsOf t.mgmt.recoverKind).a off data ∧
        t.mgmt.slotsOf (1 - t.mgmt.recoverKind) = s.mgmt.slotsOf (1 - t.mgmt.recoverKind) ∧ t.mgmt.fw.b = s.mgmt.fw.b ∧
        t.mgmt.cfg.b = s.mgmt.cfg.b)) ∧
    (∀ n, s.mgmt.boot = .recovery → s.mgmt.recoverStat = 0 →
      exec (.recoveryImageEnd n) s = .next { s with mgmt := { s.mgmt with recoverStat := 1, recoverLen := n } }) ∧
    (∀ m : Mgmt, s.mgmt.boot = .recovery → s.mgmt.recoverStat = 1 → m = { s.mgmt with recoverStat := 3 } →
      ∃ t, exec .recoveryVerifyDone s = .next t ∧
        if s.mgmt.accepts s.mgmt.recoverKind (s.mgmt.slotsOf s.mgmt.recoverKind).a = true ∧
            imTotal (s.mgmt.slotsOf s.mgmt.recoverKind).a = s.mgmt.recoverLen then
          t = State.bootOn { s with
            mgmt := m.modSlots s.mgmt.recoverKind (fun x => { x with activeB := false, pending := false, tried := false }) }
        else t = { s with mgmt := { s.mgmt with recoverStat := 2, recoverImg := [] } }) ∧
    (∀ key, s.mgmt.boot = .recovery → key.length = 48 →
      (s.mgmt.ownerKey = none → exec (.recoveryOwnerKey key) s = .next { s with mgmt := { s.mgmt with ownerKey := some key } }) ∧
      (s.mgmt.ownerKey ≠ none → exec (.recoveryOwnerKey key) s = .next { s with mgmt := { s.mgmt with recoverStat := 2 } })) ∧
    (s.power.perst = false → 2 ≤ s.power.groups → s.power.tripped = false → s.parts.warm = false →
      ∃ t, exec .perstAssert s = .next t ∧ t.pending = s.pending ∧ t.power.perst = true ∧ t.power.linkUp = false ∧
        t.power.retryStatus = true ∧ t.parts.vfEnable = false ∧ t.parts.numVfs = 0 ∧ t.mgmt.dbgEnable = false ∧
        (∀ f, (t.fnOf f).msixEnable = false ∧ (t.fnOf f).msixMask = false) ∧
        ∀ p, p < 64 → s.partEnabled p = true → (t.partOf p).resetting = true) ∧
    (s.power.perst = true → 2 ≤ s.power.groups →
      Answers .perstDeassert s [.power] (fun t => t.power.perst = false ∧ t.power.linkUp = true ∧
        (s.booted = true → (∀ p ∈ s.parts.recs, p.2.resetting = false) → t.power.retryStatus = false))) ∧
    (∀ ir tdi, s.power.stbyPg = true →
      (ir = 1 → exec (.testAccessPort ir tdi) s = .next { s with power := { s.power with
        jtagIr := 1, jtagDr := ((List.range 32).map (fun i => nbit idcode i) ++ tdi).take tdi.length } }) ∧
      (ir = 0 ∨ ir = 4 ∨ ir = 5 → exec (.testAccessPort ir tdi) s = .next { s with power := { s.power with
        jtagIr := ir, jtagDr := (false :: tdi).take tdi.length } }) ∧
      (ir = 2 ∨ ir = 3 ∨ ir = 6 ∨ ir = 7 → Answers (.testAccessPort ir tdi) s [.power, .free] (fun t =>
        t.power.jtagIr = ir ∧ t.power.jtagCells = tdi ∧ t.power.jtagDr.length = tdi.length)) ∧
      (8 ≤ ir → s.mgmt.debugAllowed = false → exec (.testAccessPort ir tdi) s = .next { s with power := { s.power with
        jtagIr := 0, jtagDr := (false :: tdi).take tdi.length } }))

/-- Power gating of regions. -/
def Obligations.RegionsGateAndUngate : Prop :=
  ∀ (s : State) (r : Nat), r < 16 →
    (r ∉ s.power.gated → (∀ l ∈ s.allLayouts, ∀ cl ∈ l.2.2.clusters, regionOfCluster cl ≠ r) → s.regionWanted r = false →
      s.mgmt.boot = .up →
      Answers (.regionGate r) s [.isl, .cores, .sram, .power] (fun t => r ∈ t.power.gated ∧
        (∀ cl ∈ regionClusters r, (t.islOf cl).running = false ∧ (t.islOf cl).count = (s.islOf cl).count) ∧
        (∀ cl, cl ∉ regionClusters r → t.islOf cl = s.islOf cl) ∧
        (∀ cl ∈ regionClusters r, ∀ c ∈ coresOfCluster cl, ∀ i, t.handOf c i = none) ∧
        (∀ cl ∈ regionClusters r, ∀ c ∈ coresOfCluster cl, (t.coreOf c).inq = [] ∧ (t.coreOf c).fenced = (s.coreOf c).fenced))) ∧
    (r ∈ s.power.gated → s.power.gated.count r = 1 → s.regionWanted r = true →
      Answers (.regionUngate r) s [.isl, .power, .mgmt] (fun t => r ∉ t.power.gated ∧
        (∀ cl ∈ regionClusters r, s.clusterFenced cl = false → (t.islOf cl).running = true ∧ (t.islOf cl).count = (s.islOf cl).count ∧
          t.codeOf cl = 32) ∧
        (∀ cl ∈ regionClusters r, s.clusterFenced cl = true → t.islOf cl = s.islOf cl) ∧
        ∀ cl, cl ∉ regionClusters r → t.islOf cl = s.islOf cl))

/-- OUTPUT_TILE_ARRIVE. -/
def Obligations.OutputStationsTakeTiles : Prop :=
  ∀ (s : State) (ctx lnum stn : Nat) (l : Layout) (st : Station) (t0 : Tile) (rest : List Tile), s.mgmt.cutOpen = false →
    s.layoutOf ctx lnum = some l → tget [] l.arrivals stn = t0 :: rest → l.stationOf stn = some st → stn < 1024 →
    (t0.kind < 2 → t0.deal = l.deal → t0.fmt = st.fmt → s.mapped ctx lnum stn = none → s.boundSlot ctx lnum stn = none →
      ((tget [] l.buffers stn).filter (fun x => x.kind < 2)).length < st.bufTiles →
      Answers (.outputTileArrive ctx lnum stn) s [.ctxs] (fun t => t.layoutOf ctx lnum = some { l with
          arrivals := tset [] l.arrivals stn rest, buffers := tset [] l.buffers stn (tget [] l.buffers stn ++ [t0]) } ∧
        (∀ k, k ≠ ctx → t.ctxOf k = s.ctxOf k) ∧ ∀ k, k ≠ lnum → t.layoutOf ctx k = s.layoutOf ctx k)) ∧
    (t0.kind < 2 → t0.deal ≠ l.deal →
      Answers (.outputTileArrive ctx lnum stn) s [.ctxs] (fun t => t.layoutOf ctx lnum = some { l with
          arrivals := tset [] l.arrivals stn rest } ∧ (t.ctxOf ctx).stale = (s.ctxOf ctx).stale + 1 ∧
        (∀ k, k ≠ ctx → t.ctxOf k = s.ctxOf k) ∧ ∀ k, k ≠ lnum → t.layoutOf ctx k = s.layoutOf ctx k)) ∧
    (∀ e idx, t0.kind < 2 → t0.deal = l.deal → t0.fmt = st.fmt → s.mapped ctx lnum stn = some (e, idx) →
      exec (.outputTileArrive ctx lnum stn) s = .next ((s.modLayout ctx lnum (fun y => { y with
        arrivals := tset [] y.arrivals stn rest })).sendMapped ctx idx t0)) ∧
    (t0.kind = 2 → s.boundSlot ctx lnum stn = none → rest = [] →
      Answers (.outputTileArrive ctx lnum stn) s [.ctxs] (fun t => (t.ctxOf ctx).stale = (s.ctxOf ctx).stale +
          ((tget [] l.buffers stn).filter (fun x => x.kind < 2)).length ∧
        ∃ l', t.layoutOf ctx lnum = some l' ∧ tget [] l'.buffers stn = [] ∧ tget [] l'.arrivals stn = [] ∧
          l'.cutStations = l.cutStations.erase stn))

/-- One step. The idle step is the model's choice (log entry 7). -/
def Obligations.StepRunsTheFront : Prop :=
  ∀ (s : State) (c : Instr) (rest : List Instr),
    (s.pending = c :: rest → step s = exec c { s with pending := rest }) ∧
    (s.pending = [] → ∃ t, step s = .next t ∧ s.Only [.isl] t ∧
      ∀ k, (s.islOf k).running = true → (t.islOf k).running = true ∧
        (t.islOf k).count = (s.islOf k).count + BitVec.ofNat 64 (((s.islOf k).acc + (s.islOf k).khz) / 1000000))

/-- The state in cold reset, by the reset columns of the register tables. Contents of memories that the spec leaves open read as 0: the
model's choice (DESIGN CHOICE, see NOTES.md, Assumptions). -/
def Obligations.ResetHoldsItsValues : Prop :=
  (State.reset.pending = []) ∧
  (∀ f q, (State.reset.queueOf f q).state = .disabled ∧ (State.reset.queueOf f q).preemptLimit = 3 ∧
    (State.reset.queueOf f q).windowM1 = 0x1F ∧ (State.reset.queueOf f q).intOnError = true ∧ (State.reset.queueOf f q).phase = true ∧
    (State.reset.queueOf f q).window = []) ∧
  (∀ f v, ((State.reset.fnOf f).vecOf v).masked = true ∧ (State.reset.fnOf f).msixEnable = false ∧ (State.reset.fnOf f).intCause = 0 ∧
    (State.reset.fnOf f).intMask = 0 ∧ (State.reset.fnOf f).frEnable = false) ∧
  (∀ c, State.reset.ctxLive c = false) ∧ (∀ p, (State.reset.partOf p).commitSeq = 1 ∧ (State.reset.partOf p).resetting = false) ∧
  State.reset.parts.protLock = false ∧ State.reset.parts.vfEnable = false ∧
  State.reset.power.hostLimit = 0xAF0 ∧ State.reset.power.policyLimit = 0x960 ∧ State.reset.power.boardMax = 0x960 ∧
  State.reset.power.gov = 0x50 ∧ (∀ d, (State.reset.dieOf d).ceiling = 0x50) ∧ State.reset.power.groups = 0 ∧
  State.reset.power.running = false ∧ State.reset.power.ready = false ∧ State.reset.power.retryStatus = true ∧
  State.reset.mgmt.boot = .off ∧ State.reset.mgmt.showNum = 0 ∧
  (∀ a, cellGet State.reset.cmem a = 0 ∧ cellGet State.reset.sram a = 0 ∧ cellGet State.reset.tiers.mem a = 0)

/-- The invariant at reset. -/
def Obligations.ResetMeetsTheInvariant : Prop := State.reset.Inv

/-- The invariant of every step (R447 for the log's ring). -/
def Obligations.StepKeepsTheInvariant : Prop :=
  ∀ (s t : State), s.Inv → step s = .next t → t.Inv ∧ t.pending = s.pending.drop 1 ∧ s.free ≤ t.free

/-- Where a command stops (R497). -/
def Obligations.EveryCommandIsAnswered : Prop :=
  ∀ (i : Instr) (s : State),
    ((∃ t, exec i s = .next t) ∨ ∃ ir tdi, i = .testAccessPort ir tdi ∧ exec i s = .refused .debugInstruction) ∧
    (∀ ir tdi, exec (.testAccessPort ir tdi) s = .refused .debugInstruction ↔
      s.power.stbyPg = true ∧ 8 ≤ ir ∧ s.mgmt.debugAllowed = true)

/-- R60, whole. The value of a doorbell is its low 16 bits. -/
def Obligations.IgnoredDoorbellsSetDbErr : Prop :=
  ∀ (s : State) (f q v : Nat) (x : Queue), s.fnLive f = true → q < 64 → x = s.queueOf f q → x.state = .running →
    (x.sqSizeM1 + 1 ≤ v % 65536 → Answers (.sqTailDoorbell f q v) s [.cp, .host] (fun t =>
      t.queueOf f q = { x with dbErr := true } ∧ ∀ g k, (g ≠ f ∨ k ≠ q) → t.queueOf g k = s.queueOf g k)) ∧
    (x.cqSizeM1 + 1 ≤ v % 65536 ∨ (x.cqTail + (x.cqSizeM1 + 1) - x.cqHead) % (x.cqSizeM1 + 1) <
        (v % 65536 + (x.cqSizeM1 + 1) - x.cqHead) % (x.cqSizeM1 + 1) →
      Answers (.cqHeadDoorbell f q v) s [.cp, .host] (fun t =>
        t.queueOf f q = { x with dbErr := true } ∧ ∀ g k, (g ≠ f ∨ k ≠ q) → t.queueOf g k = s.queueOf g k))

/-- R165 and Table 5.2, in halves: a finite m 2^e with m 2^(e+1) the number of halves. -/
def Obligations.FourBitFloatValues : Prop :=
  ∀ c, c < 16 → ∃ m e, decodeEl 0 c = .fin (decide (8 ≤ c)) m e ∧ -1 ≤ e ∧
    m * 2 ^ (e + 1).toNat = [0, 1, 2, 3, 4, 6, 8, 12].getD (c % 8) 0

/-- R67, whole: the reserved words, the finish and the commit. Status is bits [31:16] of word 5 of the record. -/
def Obligations.NopCommitsWithZeros : Prop :=
  ∀ (s : State) (f q : Nat) (c : Cmd) (r : List Cmd) (x : Queue), x = s.queueOf f q →
    (s.Runs f q c.n 0x00 [] c → Finishes (.nop f q c.n) s f q c.n 0 0 0) ∧
    (∀ w, s.started f q c.n 0x00 = some c → c.status = 0 → c.work = .none → c.shadows = [] → c.maps = [] → s.cmdSlots f q c.n = [] →
      reservedWord c.eff [] = some w → ∃ t, exec (.nop f q c.n) s = .next t ∧ t.Ended f q c.n St.reservedField w 0) ∧
    (x.window = c :: r → c.op = 0x00 → c.phase = .finished → c.status = 0 → c.resA = 0 → c.resB = 0 → c.overflowed = false →
      c.reduced = false → c.shadows = [] → intOf c.words = false → x.state = .running → x.ringFull = false → s.power.linkUp = true →
      (s.partOf f).resetting = false → s.cp.halted = false → s.prepHeld f q c.n = false →
      Answers (.commandCommit f q []) s [.cp, .parts, .host] (fun t =>
        (∀ i, i < 8 → cellGet t.host.mem (x.cqBase.toNat + 32 * x.cqTail + 8 + i) = 0) ∧
        cellGet t.host.mem (x.cqBase.toNat + 32 * x.cqTail + 22) = 0 ∧ cellGet t.host.mem (x.cqBase.toNat + 32 * x.cqTail + 23) = 0 ∧
        (t.partOf f).commitSeq = (s.partOf f).commitSeq + 1 ∧ ∀ d ∈ (t.queueOf f q).window, d ∈ r))

/-- The refusals of R65 and R66 at fetch. -/
def Obligations.FetchRefusesBadHeaders : Prop :=
  (∀ op, (opInfo op).isSome = true ↔ op ∈ ([0x00, 0x01, 0x02, 0x03, 0x10, 0x11, 0x12, 0x13, 0x14, 0x15, 0x16, 0x20, 0x21, 0x22, 0x23, 0x24,
    0x25, 0x26, 0x27, 0x28, 0x29, 0x30, 0x31, 0x32, 0x33, 0x40, 0x41, 0x42, 0x43, 0x44, 0x45, 0x50, 0x51, 0x52, 0x53, 0x54, 0x60, 0x61,
    0x62, 0x63, 0x64, 0x65, 0x66, 0x70, 0x71, 0x72, 0x73, 0x80, 0x81, 0x82, 0x83] : List Nat)) ∧
  (∀ op, (∃ i, opInfo op = some i ∧ i.pf = true) ↔ op ∈ ([0x02, 0x03, 0x27, 0x72, 0x73, 0x81, 0x82, 0x83] : List Nat)) ∧
  ∀ (s : State) (f q : Nat) (ws : List Word), s.canFetch f q = true → ws.length = 16 →
    (opInfo (opcodeOf ws) = none → ∃ t c, exec (.commandFetch f q ws) s = .next t ∧
      (t.queueOf f q).window = (s.queueOf f q).window ++ [c] ∧ c.words = ws ∧ c.phase = .finished ∧ c.status = St.invalidOpcode) ∧
    (∀ i, opInfo (opcodeOf ws) = some i → i.pf = true → f ≠ 0 → ∃ t c, exec (.commandFetch f q ws) s = .next t ∧
      (t.queueOf f q).window = (s.queueOf f q).window ++ [c] ∧ c.words = ws ∧ c.phase = .finished ∧ c.status = St.pfOnly)

/-- R86, whole: over any list of verdicts, over the checks of a command, and over a command that meets a second verdict. -/
def Obligations.TheGravestStatusIsReported : Prop :=
  (∀ (vs : List Verdict), vs ≠ [] → (∀ v ∈ vs, 1 ≤ statusClass v.status ∧ statusClass v.status ≤ 8) → ∃ v, pickVerdict vs = some v ∧ v ∈ vs ∧
    ∀ u ∈ vs, ([6, 5, 4, 8, 2, 7, 3, 1] : List Nat).idxOf (statusClass v.status) ≤ ([6, 5, 4, 8, 2, 7, 3, 1] : List Nat).idxOf (statusClass u.status) ∧
      (statusClass u.status = statusClass v.status → v.status ≤ u.status)) ∧
  (∀ (cs : List Check), verdictOf cs = pickVerdict ((cs.filter (fun k => k.bad)).map (fun k => k.v))) ∧
  (∀ (c : Cmd) (v w : Verdict), c.phase = .finished → w = ⟨c.status, c.resA.toNat, c.resB.toNat⟩ →
    1 ≤ statusClass w.status → statusClass w.status ≤ 8 → 1 ≤ statusClass v.status → statusClass v.status ≤ 8 →
    ∃ u, pickVerdict [w, v] = some u ∧ (c.finish v).status = u.status ∧ (c.finish v).resA = w32 u.a ∧ (c.finish v).resB = w32 u.b)

/-- R17 and R18: x runs west to east and y north to south; die 0 is the north-west, 1 the north-east, 2 the south-west, 3 the south-east. -/
def Obligations.CoresAreNumberedRowMajor : Prop :=
  (∀ x y, x < 64 → y < 48 → coreAt x y = y * 64 + x ∧ coreAt x y < 3072 ∧ coreX (coreAt x y) = x ∧ coreY (coreAt x y) = y) ∧
  (∀ d r c k, d < 4 → r < 4 → c < 12 → k < 16 →
    (∀ n, n = coreAt (32 * (d % 2) + 16 * (r % 2) + 4 * (c % 4) + k % 4) (24 * (d / 2) + 12 * (r / 2) + 4 * (c / 4) + k / 4) →
      clusterOf n = (d * 4 + r) * 12 + c ∧ regionOfCluster (clusterOf n) = d * 4 + r ∧ dieOfCluster (clusterOf n) = d ∧
      (coresOfCluster (clusterOf n))[k]? = some n)) ∧
  (∀ n, n < 3072 → ∃ d r c k, d < 4 ∧ r < 4 ∧ c < 12 ∧ k < 16 ∧
    n = coreAt (32 * (d % 2) + 16 * (r % 2) + 4 * (c % 4) + k % 4) (24 * (d / 2) + 12 * (r / 2) + 4 * (c / 4) + k / 4))

/-- R58, whole. The five registers are at offsets 0x00 to 0x10 of the queue's block, Table 2.5. -/
def Obligations.RingRegistersNeedADisabledQueue : Prop :=
  (∀ (s : State) (f off size g k : Nat) (v : W64), 0x1000 ≤ off → off < 0x2000 → (s.queueOf g k).state ≠ .disabled →
    ∃ t, exec (.registerWrite f 0 off size v) s = .next t ∧ (t.queueOf g k).sqBase = (s.queueOf g k).sqBase ∧
      (t.queueOf g k).cqBase = (s.queueOf g k).cqBase ∧ (t.queueOf g k).sqSizeM1 = (s.queueOf g k).sqSizeM1 ∧
      (t.queueOf g k).cqSizeM1 = (s.queueOf g k).cqSizeM1) ∧
  (∀ (s : State) (f q r : Nat) (v : W64), s.hostLive = true → s.fnLive f = true → q < 64 → r < 5 →
    (s.queueOf f q).state = .disabled → ∃ t, exec (.registerWrite f 0 (0x1000 + 64 * q + 4 * r) 4 v) s = .next t ∧
      ((t.queueOf f q).read (4 * r) = if r = 0 ∨ r = 2 then v.toNat % 2 ^ 32 / 4096 * 4096 else v.toNat % 2 ^ 32) ∧
      ∀ o, o < 5 → o ≠ r → (t.queueOf f q).read (4 * o) = (s.queueOf f q).read (4 * o))

/-- R206, whole, over one lane: operations 0x30 to 0x36 of Table 6.6. -/
def Obligations.ComparesAndSelect : Prop :=
  ∀ (tz : Bool) (st : Stage) (a b c : Nat), a < 2 ^ 32 → b < 2 ^ 32 →
    (0x30 ≤ st.op → st.op ≤ 0x35 → laneOp tz st a b c = 0xFFFFFFFF ∨ laneOp tz st a b c = 0) ∧
    (0x30 ≤ st.op → st.op ≤ 0x32 → decF a = .nan ∨ decF b = .nan → laneOp tz st a b c = 0) ∧
    ((decF a).isFin = true → (decF b).isFin = true → ∃ x y, (decF a).units = some x ∧ (decF b).units = some y ∧
      (st.op = 0x30 → (laneOp tz st a b c = 0xFFFFFFFF ↔ x = y)) ∧ (st.op = 0x31 → (laneOp tz st a b c = 0xFFFFFFFF ↔ x < y)) ∧
      (st.op = 0x32 → (laneOp tz st a b c = 0xFFFFFFFF ↔ x ≤ y))) ∧
    (decF a = .inf true → decF b ≠ .nan → 0x30 ≤ st.op → st.op ≤ 0x32 →
      (laneOp tz st a b c = 0xFFFFFFFF ↔ st.op = 0x32 ∨ (st.op = 0x31 ∧ decF b ≠ .inf true) ∨ (st.op = 0x30 ∧ decF b = .inf true))) ∧
    (decF b = .inf false → decF a ≠ .nan → 0x30 ≤ st.op → st.op ≤ 0x32 →
      (laneOp tz st a b c = 0xFFFFFFFF ↔ st.op = 0x32 ∨ (st.op = 0x31 ∧ decF a ≠ .inf false) ∨ (st.op = 0x30 ∧ decF a = .inf false))) ∧
    (decF a = .inf false → decF b ≠ .nan → decF b ≠ .inf false → 0x30 ≤ st.op → st.op ≤ 0x32 → laneOp tz st a b c = 0) ∧
    (decF b = .inf true → decF a ≠ .nan → decF a ≠ .inf true → 0x30 ≤ st.op → st.op ≤ 0x32 → laneOp tz st a b c = 0) ∧
    (st.op = 0x33 → (laneOp tz st a b c = 0xFFFFFFFF ↔ sext (intWidth st.prec) a = sext (intWidth st.prec) b)) ∧
    (st.op = 0x34 → (laneOp tz st a b c = 0xFFFFFFFF ↔ sext (intWidth st.prec) a < sext (intWidth st.prec) b)) ∧
    (st.op = 0x35 → (laneOp tz st a b c = 0xFFFFFFFF ↔ sext (intWidth st.prec) a ≤ sext (intWidth st.prec) b)) ∧
    (st.op = 0x36 → (∃ i, i < 32 ∧ a.testBit i = true) → laneOp tz st a b c = b) ∧
    (st.op = 0x36 → (∀ i, i < 32 → a.testBit i = false) → laneOp tz st a b c = c)

/-- R64, whole: the two places where DEP holds, the start of the command (R70) and the reading ahead of later ones. -/
def Obligations.IndirectHoldsLikeDep : Prop :=
  (∀ (s : State) (f q n : Nat) (errs : List MemErr) (h c : Cmd) (r : List Cmd), (s.queueOf f q).window = h :: r → s.cmdOf f q n = some c →
    h.n ≠ n → indirectOf c.words = true ∨ depOf c.words = true → exec (.commandStart f q n errs) s = .next s) ∧
  (∀ (s : State) (f q n : Nat) (c : Cmd), c ∈ (s.queueOf f q).window → c.n ≤ n → c.phase = .fetched →
    indirectOf c.words = true ∨ depOf c.words = true → s.aheadAllowed f q n = false)

/-- The formulas of R189. The bound of the last clause is the one the formulas give, not the one the rule's last sentence names (DEDUCED,
log entry 148). -/
def Obligations.ThreePassSplit : Prop :=
  ∀ (c : Nat), c < 2 ^ 32 → (decF c).isFin = true → ∃ (z y : Nat) (x x1 x2 x3 : Int), z < 2 ^ 32 ∧ y < 2 ^ 32 ∧
    (decF c).units = some x ∧ (split3 (decF c)).1.units = some x1 ∧ (split3 (decF c)).2.1.units = some x2 ∧
    (split3 (decF c)).2.2.units = some x3 ∧ (decF (c / 65536 * 65536)).units = some x1 ∧
    (decF z).units = some (x - x1) ∧ (decF (z / 65536 * 65536)).units = some x2 ∧
    (decF y).units = some (x - x1 - x2) ∧ (decF (y / 65536 * 65536)).units = some x3 ∧
    (17 ≤ bits c 30 23 → x1 + x2 + x3 = x)
end

