-- ==== Sys2Proof/Laws/Cells.lean ====
section
/-! SUPPORT. Byte memories and tables: a read after a write gives what was written, a write leaves every other address alone, and every
operation keeps the canonical form. -/
namespace Sys2Proof.Machine

/-! ### Tables -/

@[simp] theorem tget_nil {α : Type} (d : α) (k : Nat) : tget d [] k = d := rfl

theorem tget_append {α : Type} (d : α) (a b : Tbl α) (k : Nat) :
    tget d (a ++ b) k = if k ∈ tkeys a then tget d a k else tget d b k := by
  induction a with
  | nil => simp [tkeys]
  | cons h r ih =>
    obtain ⟨i, v⟩ := h
    by_cases e : i = k
    · simp [tget, tkeys, e]
    · have e' : k ≠ i := fun h => e h.symm
      have kk : k ∈ tkeys ((i, v) :: r) ↔ k ∈ tkeys r := by simp [tkeys, e']
      simp only [List.cons_append, tget, e, if_false, ih, kk]

theorem tget_absent {α : Type} (d : α) (t : Tbl α) (k : Nat) (h : k ∉ tkeys t) : tget d t k = d := by
  induction t with
  | nil => rfl
  | cons p r ih =>
    obtain ⟨i, v⟩ := p
    simp only [tkeys, List.map_cons, List.mem_cons, not_or] at h
    have e : ¬ i = k := fun x => h.1 x.symm
    simp only [tget, e, if_false]
    exact ih h.2

theorem tget_filter {α : Type} (d : α) (t : Tbl α) (k : Nat) (p : Nat → Bool) :
    tget d (t.filter (fun x => p x.1)) k = if p k then tget d t k else d := by
  induction t with
  | nil => simp
  | cons h r ih =>
    obtain ⟨i, v⟩ := h
    by_cases e : i = k
    · subst e
      by_cases hp : p i <;> simp [hp, tget, ih]
    · by_cases hp : p i <;> simp [hp, tget, ih, e]

/-- A table reads what was written, and every other index as before. -/
theorem tget_tset {α : Type} [DecidableEq α] (d : α) (t : Tbl α) (k : Nat) (v : α) (j : Nat) :
    tget d (tset d t k v) j = if j = k then v else tget d t j := by
  have keysFilter : ∀ (p : Nat → Bool), tkeys (t.filter (fun x => p x.1)) = (tkeys t).filter p := by
    intro p; simp [tkeys, List.filter_map]; rfl
  unfold tset
  rw [List.append_assoc, tget_append, tget_append]
  have k1 := keysFilter (fun i => decide (i < k))
  have g1 := tget_filter d t j (fun i => decide (i < k))
  have g2 := tget_filter d t j (fun i => decide (k < i))
  simp only [k1, g1, g2, List.mem_filter, decide_eq_true_eq]
  rcases Nat.lt_trichotomy j k with h | h | h
  · have hne : ¬ j = k := by omega
    have hkj : ¬ k < j := by omega
    by_cases hm : j ∈ tkeys t
    · simp [hm, h, hne]
    · have := tget_absent d t j hm
      have hf : ¬ (j ∈ tkeys t ∧ j < k) := fun x => hm x.1
      by_cases hv : v = d
      · rw [if_neg hf, if_neg (by simp [hv, tkeys]), if_neg (by simpa using hkj), if_neg hne, this]
      · have hk : ¬ j ∈ tkeys [(k, v)] := by simp [tkeys, hne]
        rw [if_neg hf, if_neg (by simpa [hv] using hk), if_neg (by simpa using hkj), if_neg hne, this]
  · subst h
    by_cases hv : v = d <;> simp [hv, tkeys, tget]
  · have hne : ¬ j = k := by omega
    have hjk : ¬ j < k := by omega
    by_cases hv : v = d <;> simp [hv, tkeys, hne, hjk, h]

@[simp] theorem tget_tset_self {α : Type} [DecidableEq α] (d : α) (t : Tbl α) (k : Nat) (v : α) : tget d (tset d t k v) k = v := by
  simp [tget_tset]

theorem tget_tset_ne {α : Type} [DecidableEq α] (d : α) (t : Tbl α) (k j : Nat) (v : α) (h : j ≠ k) :
    tget d (tset d t k v) j = tget d t j := by
  simp [tget_tset, h]

theorem tget_tmod {α : Type} [DecidableEq α] (d : α) (t : Tbl α) (k : Nat) (f : α → α) (j : Nat) :
    tget d (tmod d t k f) j = if j = k then f (tget d t k) else tget d t j := by
  simp [tmod, tget_tset]

@[simp] theorem tget_tmod_self {α : Type} [DecidableEq α] (d : α) (t : Tbl α) (k : Nat) (f : α → α) :
    tget d (tmod d t k f) k = f (tget d t k) := by
  simp [tget_tmod]

/-! ### Byte memories -/

theorem cellGet_eq_tget (m : List Host.Cell) (a : Nat) : cellGet m a = tget 0 m a := by
  induction m with
  | nil => rfl
  | cons h r ih => obtain ⟨i, b⟩ := h; simp [cellGet, tget, ih]

/-- The canonical form, said of the list as a whole. -/
theorem cellsWf_iff (m : List Host.Cell) :
    cellsWf m = true ↔ m.Pairwise (fun a b => a.1 < b.1) ∧ ∀ c ∈ m, c.2 ≠ 0 := by
  induction m with
  | nil => simp [cellsWf]
  | cons c r ih =>
    cases r with
    | nil => simp [cellsWf]
    | cons d r =>
      simp only [cellsWf, Bool.and_eq_true, decide_eq_true_eq, ih, bne_iff_ne, List.pairwise_cons, List.mem_cons,
        forall_eq_or_imp]
      constructor
      · rintro ⟨⟨hc, hlt⟩, ⟨hd, hr⟩, hnd, hnr⟩
        exact ⟨⟨⟨hlt, fun x hx => Nat.lt_trans hlt (hd x hx)⟩, hd, hr⟩, hc, hnd, hnr⟩
      · rintro ⟨⟨⟨hlt, -⟩, hd, hr⟩, hc, hnd, hnr⟩
        exact ⟨⟨hc, hlt⟩, ⟨hd, hr⟩, hnd, hnr⟩

theorem cellsWf_filter (m : List Host.Cell) (p : Host.Cell → Bool) (h : cellsWf m = true) : cellsWf (m.filter p) = true := by
  rw [cellsWf_iff] at *
  exact ⟨h.1.filter p, fun c hc => h.2 c (List.mem_of_mem_filter hc)⟩

/-- Where every address of one canonical list lies below every address of another, they join to a canonical list. -/
theorem cellsWf_append (a b : List Host.Cell) (ha : cellsWf a = true) (hb : cellsWf b = true)
    (hab : ∀ x ∈ a, ∀ y ∈ b, x.1 < y.1) : cellsWf (a ++ b) = true := by
  rw [cellsWf_iff] at *
  refine ⟨List.pairwise_append.2 ⟨ha.1, hb.1, hab⟩, fun c hc => ?_⟩
  rcases List.mem_append.1 hc with h | h
  · exact ha.2 c h
  · exact hb.2 c h

theorem cellsOf_range (bs : List Byte) (a : Nat) : ∀ c ∈ cellsOf a bs, a ≤ c.1 ∧ c.1 < a + bs.length := by
  induction bs generalizing a with
  | nil => simp [cellsOf]
  | cons b r ih =>
    intro c hc
    unfold cellsOf at hc
    split at hc
    · have := ih (a + 1) c hc
      simp only [List.length_cons]; omega
    · rcases List.mem_cons.1 hc with h | h
      · subst h; simp
      · have := ih (a + 1) c h
        simp only [List.length_cons]; omega

theorem cellsWf_cellsOf (bs : List Byte) (a : Nat) : cellsWf (cellsOf a bs) = true := by
  induction bs generalizing a with
  | nil => rfl
  | cons b r ih =>
    unfold cellsOf
    split
    · exact ih (a + 1)
    · rename_i hb
      rw [cellsWf_iff]
      have h := (cellsWf_iff _).1 (ih (a + 1))
      refine ⟨List.pairwise_cons.2 ⟨fun x hx => ?_, h.1⟩, fun c hc => ?_⟩
      · have := cellsOf_range r (a + 1) x hx
        omega
      · rcases List.mem_cons.1 hc with e | e
        · subst e; exact hb
        · exact h.2 c e

/-- A write keeps the canonical form. -/
theorem cellsWf_cellWrite (m : List Host.Cell) (a : Nat) (bs : List Byte) (h : cellsWf m = true) :
    cellsWf (cellWrite m a bs) = true := by
  unfold cellWrite
  refine cellsWf_append _ _ (cellsWf_append _ _ (cellsWf_filter _ _ h) (cellsWf_cellsOf _ _) ?_) (cellsWf_filter _ _ h) ?_
  · intro x hx y hy
    have := of_decide_eq_true (List.mem_filter.1 hx).2
    have := cellsOf_range bs a y hy
    omega
  · intro x hx y hy
    have hy' := of_decide_eq_true (List.mem_filter.1 hy).2
    rcases List.mem_append.1 hx with e | e
    · have := of_decide_eq_true (List.mem_filter.1 e).2
      omega
    · have := cellsOf_range bs a x e
      omega

/-- Clearing keeps the canonical form. -/
theorem cellsWf_cellClear (m : List Host.Cell) (a n : Nat) (h : cellsWf m = true) : cellsWf (cellClear m a n) = true :=
  cellsWf_filter _ _ h

/-- Copying a range keeps the canonical form. -/
theorem cellsWf_cellCopy (m : List Host.Cell) (src n dst : Nat) (h : cellsWf m = true) :
    cellsWf (cellCopy m src n dst) = true := by
  unfold cellCopy
  have hm := (cellsWf_iff m).1 h
  have moved : cellsWf ((m.filter (fun c => decide (src ≤ c.1) && decide (c.1 < src + n))).map
      (fun c => (c.1 - src + dst, c.2))) = true := by
    rw [cellsWf_iff]
    refine ⟨List.pairwise_map.2 ?_, fun c hc => ?_⟩
    · refine ((hm.1.filter _).imp_of_mem ?_)
      intro x y hx hy hlt
      have hx' := (List.mem_filter.1 hx).2
      simp only [Bool.and_eq_true, decide_eq_true_eq] at hx'
      show x.1 - src + dst < y.1 - src + dst
      omega
    · obtain ⟨d, hd, rfl⟩ := List.mem_map.1 hc
      exact hm.2 d (List.mem_of_mem_filter hd)
  have range : ∀ x ∈ ((m.filter (fun c => decide (src ≤ c.1) && decide (c.1 < src + n))).map
      (fun c => (c.1 - src + dst, c.2))), dst ≤ x.1 ∧ x.1 < dst + n := by
    intro x hx
    obtain ⟨d, hd, rfl⟩ := List.mem_map.1 hx
    have hd' := (List.mem_filter.1 hd).2
    simp only [Bool.and_eq_true, decide_eq_true_eq] at hd'
    simp only
    omega
  refine cellsWf_append _ _ (cellsWf_append _ _ (cellsWf_filter _ _ h) moved ?_) (cellsWf_filter _ _ h) ?_
  · intro x hx y hy
    have := of_decide_eq_true (List.mem_filter.1 hx).2
    have := range y hy
    omega
  · intro x hx y hy
    have hy' := of_decide_eq_true (List.mem_filter.1 hy).2
    rcases List.mem_append.1 hx with e | e
    · have := of_decide_eq_true (List.mem_filter.1 e).2
      omega
    · have := range x e
      omega

/-- A run of writes keeps the canonical form. -/
theorem cellsWf_foldl {α : Type} (l : List α) (g : List Host.Cell → α → List Host.Cell) (m : List Host.Cell)
    (hg : ∀ m x, cellsWf m = true → cellsWf (g m x) = true) (h : cellsWf m = true) : cellsWf (l.foldl g m) = true := by
  induction l generalizing m with
  | nil => exact h
  | cons x r ih => exact ih (g m x) (hg m x h)

theorem cellGet_cellsOf (bs : List Byte) (a k : Nat) :
    cellGet (cellsOf a bs) k = if a ≤ k ∧ k < a + bs.length then bs.getD (k - a) 0 else 0 := by
  induction bs generalizing a with
  | nil => simp [cellsOf, cellGet]
  | cons b r ih =>
    unfold cellsOf
    rcases Nat.lt_trichotomy k a with h | h | h
    · have h1 : ¬ (a ≤ k ∧ k < a + (b :: r).length) := by omega
      have h2 : ¬ (a + 1 ≤ k ∧ k < a + 1 + r.length) := by omega
      have h3 : ¬ a = k := by omega
      split <;> simp only [cellGet, ih, h1, h2, h3, if_false]
    · subst h
      have h2 : ¬ (k + 1 ≤ k ∧ k < k + 1 + r.length) := by omega
      split
      · rename_i hb; simp [hb, ih]
      · simp [cellGet]
    · have h3 : ¬ a = k := by omega
      have e : (a + 1 ≤ k ∧ k < a + 1 + r.length) ↔ (a ≤ k ∧ k < a + (b :: r).length) := by
        simp only [List.length_cons]; omega
      obtain ⟨n, hn⟩ : ∃ n, k - a = n + 1 := ⟨k - a - 1, by omega⟩
      have hk : k - (a + 1) = n := by omega
      split <;> simp only [cellGet, ih, h3, if_false, e, hn, hk] <;> split <;> simp

/-- Reading one byte after a write: the byte written inside the range, the old byte outside. -/
theorem cellGet_cellWrite (m : List Host.Cell) (a k : Nat) (bs : List Byte) :
    cellGet (cellWrite m a bs) k = if a ≤ k ∧ k < a + bs.length then bs.getD (k - a) 0 else cellGet m k := by
  have g1 := tget_filter (0 : Byte) m k (fun i => decide (i < a))
  have g2 := tget_filter (0 : Byte) m k (fun i => decide (a + bs.length ≤ i))
  have k1 : tkeys (m.filter (fun x => decide (x.1 < a))) = (tkeys m).filter (fun i => decide (i < a)) := by
    simp [tkeys, List.filter_map]; rfl
  have gc := cellGet_cellsOf bs a k
  simp only [cellGet_eq_tget] at *
  unfold cellWrite
  rw [List.append_assoc, tget_append, tget_append, g1, g2, gc, k1]
  simp only [List.mem_filter, decide_eq_true_eq]
  by_cases hr : a ≤ k ∧ k < a + bs.length
  · have h1 : ¬ k < a := by omega
    have h2 : ¬ a + bs.length ≤ k := by omega
    simp only [hr, h1, h2, and_false, if_false, and_self, if_true]
    by_cases hm : k ∈ tkeys (cellsOf a bs)
    · simp [hm]
    · have := tget_absent (0 : Byte) _ k hm
      rw [gc] at this
      simp only [hr, and_self, if_true] at this
      rw [if_neg hm]
      simpa using this.symm
  · have hm : k ∉ tkeys (cellsOf a bs) := by
      intro h
      obtain ⟨c, hc, rfl⟩ := List.mem_map.1 h
      exact hr (cellsOf_range bs a c hc)
    simp only [hr, if_false, hm]
    by_cases hlt : k < a
    · have h2 : ¬ a + bs.length ≤ k := by omega
      by_cases hk : k ∈ tkeys m
      · simp [hk, hlt]
      · have := tget_absent (0 : Byte) m k hk
        have hf : ¬ (k ∈ tkeys m ∧ k < a) := fun x => hk x.1
        rw [if_neg hf, if_neg h2]
        exact this.symm
    · have h2 : a + bs.length ≤ k := by omega
      simp [hlt, h2]

/-- Reading one byte after a range was cleared. -/
theorem cellGet_cellClear (m : List Host.Cell) (a n k : Nat) :
    cellGet (cellClear m a n) k = if a ≤ k ∧ k < a + n then 0 else cellGet m k := by
  have g := tget_filter (0 : Byte) m k (fun i => decide (i < a) || decide (a + n ≤ i))
  simp only [cellGet_eq_tget, cellClear]
  rw [g]
  by_cases h : a ≤ k ∧ k < a + n
  · have h1 : ¬ k < a := by omega
    have h2 : ¬ a + n ≤ k := by omega
    simp [h, h1, h2]
  · rcases Nat.lt_or_ge k a with h1 | h1
    · simp [h, h1]
    · have h2 : a + n ≤ k := by omega
      simp [h, h2]

end Sys2Proof.Machine
end

