-- ==== Sys2Proof/Laws/State.lean ====
section
/-! SUPPORT. One lemma per group of state and update: what each named update of the state leaves alone, and what its own accessor
reads afterwards. No proof needs to unfold an update. -/
namespace Sys2Proof.Machine

/-! ### What an update leaves alone -/

@[simp] theorem State.modFn_pending (s : State) (f : Nat) (g : Fn → Fn) : (s.modFn f g).pending = s.pending := rfl
@[simp] theorem State.modFn_parts (s : State) (f : Nat) (g : Fn → Fn) : (s.modFn f g).parts = s.parts := rfl
@[simp] theorem State.modFn_ctxs (s : State) (f : Nat) (g : Fn → Fn) : (s.modFn f g).ctxs = s.ctxs := rfl
@[simp] theorem State.modFn_cores (s : State) (f : Nat) (g : Fn → Fn) : (s.modFn f g).cores = s.cores := rfl
@[simp] theorem State.modFn_slots (s : State) (f : Nat) (g : Fn → Fn) : (s.modFn f g).slots = s.slots := rfl
@[simp] theorem State.modFn_cmem (s : State) (f : Nat) (g : Fn → Fn) : (s.modFn f g).cmem = s.cmem := rfl
@[simp] theorem State.modFn_sram (s : State) (f : Nat) (g : Fn → Fn) : (s.modFn f g).sram = s.sram := rfl
@[simp] theorem State.modFn_tiers (s : State) (f : Nat) (g : Fn → Fn) : (s.modFn f g).tiers = s.tiers := rfl
@[simp] theorem State.modFn_kv (s : State) (f : Nat) (g : Fn → Fn) : (s.modFn f g).kv = s.kv := rfl
@[simp] theorem State.modFn_sess (s : State) (f : Nat) (g : Fn → Fn) : (s.modFn f g).sess = s.sess := rfl
@[simp] theorem State.modFn_router (s : State) (f : Nat) (g : Fn → Fn) : (s.modFn f g).router = s.router := rfl
@[simp] theorem State.modFn_store (s : State) (f : Nat) (g : Fn → Fn) : (s.modFn f g).store = s.store := rfl
@[simp] theorem State.modFn_fab (s : State) (f : Nat) (g : Fn → Fn) : (s.modFn f g).fab = s.fab := rfl
@[simp] theorem State.modFn_mgmt (s : State) (f : Nat) (g : Fn → Fn) : (s.modFn f g).mgmt = s.mgmt := rfl
@[simp] theorem State.modFn_isl (s : State) (f : Nat) (g : Fn → Fn) : (s.modFn f g).isl = s.isl := rfl
@[simp] theorem State.modFn_power (s : State) (f : Nat) (g : Fn → Fn) : (s.modFn f g).power = s.power := rfl
@[simp] theorem State.modFn_host (s : State) (f : Nat) (g : Fn → Fn) : (s.modFn f g).host = s.host := rfl
@[simp] theorem State.modFn_free (s : State) (f : Nat) (g : Fn → Fn) : (s.modFn f g).free = s.free := rfl

@[simp] theorem State.modQueue_pending (s : State) (f q : Nat) (g : Queue → Queue) : (s.modQueue f q g).pending = s.pending := rfl
@[simp] theorem State.modQueue_parts (s : State) (f q : Nat) (g : Queue → Queue) : (s.modQueue f q g).parts = s.parts := rfl
@[simp] theorem State.modQueue_ctxs (s : State) (f q : Nat) (g : Queue → Queue) : (s.modQueue f q g).ctxs = s.ctxs := rfl
@[simp] theorem State.modQueue_cores (s : State) (f q : Nat) (g : Queue → Queue) : (s.modQueue f q g).cores = s.cores := rfl
@[simp] theorem State.modQueue_slots (s : State) (f q : Nat) (g : Queue → Queue) : (s.modQueue f q g).slots = s.slots := rfl
@[simp] theorem State.modQueue_cmem (s : State) (f q : Nat) (g : Queue → Queue) : (s.modQueue f q g).cmem = s.cmem := rfl
@[simp] theorem State.modQueue_sram (s : State) (f q : Nat) (g : Queue → Queue) : (s.modQueue f q g).sram = s.sram := rfl
@[simp] theorem State.modQueue_tiers (s : State) (f q : Nat) (g : Queue → Queue) : (s.modQueue f q g).tiers = s.tiers := rfl
@[simp] theorem State.modQueue_kv (s : State) (f q : Nat) (g : Queue → Queue) : (s.modQueue f q g).kv = s.kv := rfl
@[simp] theorem State.modQueue_sess (s : State) (f q : Nat) (g : Queue → Queue) : (s.modQueue f q g).sess = s.sess := rfl
@[simp] theorem State.modQueue_router (s : State) (f q : Nat) (g : Queue → Queue) : (s.modQueue f q g).router = s.router := rfl
@[simp] theorem State.modQueue_store (s : State) (f q : Nat) (g : Queue → Queue) : (s.modQueue f q g).store = s.store := rfl
@[simp] theorem State.modQueue_fab (s : State) (f q : Nat) (g : Queue → Queue) : (s.modQueue f q g).fab = s.fab := rfl
@[simp] theorem State.modQueue_mgmt (s : State) (f q : Nat) (g : Queue → Queue) : (s.modQueue f q g).mgmt = s.mgmt := rfl
@[simp] theorem State.modQueue_isl (s : State) (f q : Nat) (g : Queue → Queue) : (s.modQueue f q g).isl = s.isl := rfl
@[simp] theorem State.modQueue_power (s : State) (f q : Nat) (g : Queue → Queue) : (s.modQueue f q g).power = s.power := rfl
@[simp] theorem State.modQueue_host (s : State) (f q : Nat) (g : Queue → Queue) : (s.modQueue f q g).host = s.host := rfl
@[simp] theorem State.modQueue_free (s : State) (f q : Nat) (g : Queue → Queue) : (s.modQueue f q g).free = s.free := rfl

@[simp] theorem State.modCmd_pending (s : State) (f q n : Nat) (g : Cmd → Cmd) : (s.modCmd f q n g).pending = s.pending := rfl
@[simp] theorem State.modCmd_parts (s : State) (f q n : Nat) (g : Cmd → Cmd) : (s.modCmd f q n g).parts = s.parts := rfl
@[simp] theorem State.modCmd_ctxs (s : State) (f q n : Nat) (g : Cmd → Cmd) : (s.modCmd f q n g).ctxs = s.ctxs := rfl
@[simp] theorem State.modCmd_cores (s : State) (f q n : Nat) (g : Cmd → Cmd) : (s.modCmd f q n g).cores = s.cores := rfl
@[simp] theorem State.modCmd_slots (s : State) (f q n : Nat) (g : Cmd → Cmd) : (s.modCmd f q n g).slots = s.slots := rfl
@[simp] theorem State.modCmd_cmem (s : State) (f q n : Nat) (g : Cmd → Cmd) : (s.modCmd f q n g).cmem = s.cmem := rfl
@[simp] theorem State.modCmd_sram (s : State) (f q n : Nat) (g : Cmd → Cmd) : (s.modCmd f q n g).sram = s.sram := rfl
@[simp] theorem State.modCmd_tiers (s : State) (f q n : Nat) (g : Cmd → Cmd) : (s.modCmd f q n g).tiers = s.tiers := rfl
@[simp] theorem State.modCmd_kv (s : State) (f q n : Nat) (g : Cmd → Cmd) : (s.modCmd f q n g).kv = s.kv := rfl
@[simp] theorem State.modCmd_sess (s : State) (f q n : Nat) (g : Cmd → Cmd) : (s.modCmd f q n g).sess = s.sess := rfl
@[simp] theorem State.modCmd_router (s : State) (f q n : Nat) (g : Cmd → Cmd) : (s.modCmd f q n g).router = s.router := rfl
@[simp] theorem State.modCmd_store (s : State) (f q n : Nat) (g : Cmd → Cmd) : (s.modCmd f q n g).store = s.store := rfl
@[simp] theorem State.modCmd_fab (s : State) (f q n : Nat) (g : Cmd → Cmd) : (s.modCmd f q n g).fab = s.fab := rfl
@[simp] theorem State.modCmd_mgmt (s : State) (f q n : Nat) (g : Cmd → Cmd) : (s.modCmd f q n g).mgmt = s.mgmt := rfl
@[simp] theorem State.modCmd_isl (s : State) (f q n : Nat) (g : Cmd → Cmd) : (s.modCmd f q n g).isl = s.isl := rfl
@[simp] theorem State.modCmd_power (s : State) (f q n : Nat) (g : Cmd → Cmd) : (s.modCmd f q n g).power = s.power := rfl
@[simp] theorem State.modCmd_host (s : State) (f q n : Nat) (g : Cmd → Cmd) : (s.modCmd f q n g).host = s.host := rfl
@[simp] theorem State.modCmd_free (s : State) (f q n : Nat) (g : Cmd → Cmd) : (s.modCmd f q n g).free = s.free := rfl

@[simp] theorem State.finish_pending (s : State) (f q n : Nat) (v : Verdict) : (s.finish f q n v).pending = s.pending := rfl
@[simp] theorem State.finish_parts (s : State) (f q n : Nat) (v : Verdict) : (s.finish f q n v).parts = s.parts := rfl
@[simp] theorem State.finish_ctxs (s : State) (f q n : Nat) (v : Verdict) : (s.finish f q n v).ctxs = s.ctxs := rfl
@[simp] theorem State.finish_cores (s : State) (f q n : Nat) (v : Verdict) : (s.finish f q n v).cores = s.cores := rfl
@[simp] theorem State.finish_slots (s : State) (f q n : Nat) (v : Verdict) : (s.finish f q n v).slots = s.slots := rfl
@[simp] theorem State.finish_cmem (s : State) (f q n : Nat) (v : Verdict) : (s.finish f q n v).cmem = s.cmem := rfl
@[simp] theorem State.finish_sram (s : State) (f q n : Nat) (v : Verdict) : (s.finish f q n v).sram = s.sram := rfl
@[simp] theorem State.finish_tiers (s : State) (f q n : Nat) (v : Verdict) : (s.finish f q n v).tiers = s.tiers := rfl
@[simp] theorem State.finish_kv (s : State) (f q n : Nat) (v : Verdict) : (s.finish f q n v).kv = s.kv := rfl
@[simp] theorem State.finish_sess (s : State) (f q n : Nat) (v : Verdict) : (s.finish f q n v).sess = s.sess := rfl
@[simp] theorem State.finish_router (s : State) (f q n : Nat) (v : Verdict) : (s.finish f q n v).router = s.router := rfl
@[simp] theorem State.finish_store (s : State) (f q n : Nat) (v : Verdict) : (s.finish f q n v).store = s.store := rfl
@[simp] theorem State.finish_fab (s : State) (f q n : Nat) (v : Verdict) : (s.finish f q n v).fab = s.fab := rfl
@[simp] theorem State.finish_mgmt (s : State) (f q n : Nat) (v : Verdict) : (s.finish f q n v).mgmt = s.mgmt := rfl
@[simp] theorem State.finish_isl (s : State) (f q n : Nat) (v : Verdict) : (s.finish f q n v).isl = s.isl := rfl
@[simp] theorem State.finish_power (s : State) (f q n : Nat) (v : Verdict) : (s.finish f q n v).power = s.power := rfl
@[simp] theorem State.finish_host (s : State) (f q n : Nat) (v : Verdict) : (s.finish f q n v).host = s.host := rfl
@[simp] theorem State.finish_free (s : State) (f q n : Nat) (v : Verdict) : (s.finish f q n v).free = s.free := rfl

@[simp] theorem State.done_pending (s : State) (f q n a b : Nat) : (s.done f q n a b).pending = s.pending := rfl
@[simp] theorem State.done_parts (s : State) (f q n a b : Nat) : (s.done f q n a b).parts = s.parts := rfl
@[simp] theorem State.done_ctxs (s : State) (f q n a b : Nat) : (s.done f q n a b).ctxs = s.ctxs := rfl
@[simp] theorem State.done_cores (s : State) (f q n a b : Nat) : (s.done f q n a b).cores = s.cores := rfl
@[simp] theorem State.done_slots (s : State) (f q n a b : Nat) : (s.done f q n a b).slots = s.slots := rfl
@[simp] theorem State.done_cmem (s : State) (f q n a b : Nat) : (s.done f q n a b).cmem = s.cmem := rfl
@[simp] theorem State.done_sram (s : State) (f q n a b : Nat) : (s.done f q n a b).sram = s.sram := rfl
@[simp] theorem State.done_tiers (s : State) (f q n a b : Nat) : (s.done f q n a b).tiers = s.tiers := rfl
@[simp] theorem State.done_kv (s : State) (f q n a b : Nat) : (s.done f q n a b).kv = s.kv := rfl
@[simp] theorem State.done_sess (s : State) (f q n a b : Nat) : (s.done f q n a b).sess = s.sess := rfl
@[simp] theorem State.done_router (s : State) (f q n a b : Nat) : (s.done f q n a b).router = s.router := rfl
@[simp] theorem State.done_store (s : State) (f q n a b : Nat) : (s.done f q n a b).store = s.store := rfl
@[simp] theorem State.done_fab (s : State) (f q n a b : Nat) : (s.done f q n a b).fab = s.fab := rfl
@[simp] theorem State.done_mgmt (s : State) (f q n a b : Nat) : (s.done f q n a b).mgmt = s.mgmt := rfl
@[simp] theorem State.done_isl (s : State) (f q n a b : Nat) : (s.done f q n a b).isl = s.isl := rfl
@[simp] theorem State.done_power (s : State) (f q n a b : Nat) : (s.done f q n a b).power = s.power := rfl
@[simp] theorem State.done_host (s : State) (f q n a b : Nat) : (s.done f q n a b).host = s.host := rfl
@[simp] theorem State.done_free (s : State) (f q n a b : Nat) : (s.done f q n a b).free = s.free := rfl

@[simp] theorem State.setWork_pending (s : State) (f q n : Nat) (w : Work) : (s.setWork f q n w).pending = s.pending := rfl
@[simp] theorem State.setWork_parts (s : State) (f q n : Nat) (w : Work) : (s.setWork f q n w).parts = s.parts := rfl
@[simp] theorem State.setWork_ctxs (s : State) (f q n : Nat) (w : Work) : (s.setWork f q n w).ctxs = s.ctxs := rfl
@[simp] theorem State.setWork_cores (s : State) (f q n : Nat) (w : Work) : (s.setWork f q n w).cores = s.cores := rfl
@[simp] theorem State.setWork_slots (s : State) (f q n : Nat) (w : Work) : (s.setWork f q n w).slots = s.slots := rfl
@[simp] theorem State.setWork_cmem (s : State) (f q n : Nat) (w : Work) : (s.setWork f q n w).cmem = s.cmem := rfl
@[simp] theorem State.setWork_sram (s : State) (f q n : Nat) (w : Work) : (s.setWork f q n w).sram = s.sram := rfl
@[simp] theorem State.setWork_tiers (s : State) (f q n : Nat) (w : Work) : (s.setWork f q n w).tiers = s.tiers := rfl
@[simp] theorem State.setWork_kv (s : State) (f q n : Nat) (w : Work) : (s.setWork f q n w).kv = s.kv := rfl
@[simp] theorem State.setWork_sess (s : State) (f q n : Nat) (w : Work) : (s.setWork f q n w).sess = s.sess := rfl
@[simp] theorem State.setWork_router (s : State) (f q n : Nat) (w : Work) : (s.setWork f q n w).router = s.router := rfl
@[simp] theorem State.setWork_store (s : State) (f q n : Nat) (w : Work) : (s.setWork f q n w).store = s.store := rfl
@[simp] theorem State.setWork_fab (s : State) (f q n : Nat) (w : Work) : (s.setWork f q n w).fab = s.fab := rfl
@[simp] theorem State.setWork_mgmt (s : State) (f q n : Nat) (w : Work) : (s.setWork f q n w).mgmt = s.mgmt := rfl
@[simp] theorem State.setWork_isl (s : State) (f q n : Nat) (w : Work) : (s.setWork f q n w).isl = s.isl := rfl
@[simp] theorem State.setWork_power (s : State) (f q n : Nat) (w : Work) : (s.setWork f q n w).power = s.power := rfl
@[simp] theorem State.setWork_host (s : State) (f q n : Nat) (w : Work) : (s.setWork f q n w).host = s.host := rfl
@[simp] theorem State.setWork_free (s : State) (f q n : Nat) (w : Work) : (s.setWork f q n w).free = s.free := rfl

@[simp] theorem State.modPart_pending (s : State) (p : Nat) (g : Part → Part) : (s.modPart p g).pending = s.pending := rfl
@[simp] theorem State.modPart_cp (s : State) (p : Nat) (g : Part → Part) : (s.modPart p g).cp = s.cp := rfl
@[simp] theorem State.modPart_ctxs (s : State) (p : Nat) (g : Part → Part) : (s.modPart p g).ctxs = s.ctxs := rfl
@[simp] theorem State.modPart_cores (s : State) (p : Nat) (g : Part → Part) : (s.modPart p g).cores = s.cores := rfl
@[simp] theorem State.modPart_slots (s : State) (p : Nat) (g : Part → Part) : (s.modPart p g).slots = s.slots := rfl
@[simp] theorem State.modPart_cmem (s : State) (p : Nat) (g : Part → Part) : (s.modPart p g).cmem = s.cmem := rfl
@[simp] theorem State.modPart_sram (s : State) (p : Nat) (g : Part → Part) : (s.modPart p g).sram = s.sram := rfl
@[simp] theorem State.modPart_tiers (s : State) (p : Nat) (g : Part → Part) : (s.modPart p g).tiers = s.tiers := rfl
@[simp] theorem State.modPart_kv (s : State) (p : Nat) (g : Part → Part) : (s.modPart p g).kv = s.kv := rfl
@[simp] theorem State.modPart_sess (s : State) (p : Nat) (g : Part → Part) : (s.modPart p g).sess = s.sess := rfl
@[simp] theorem State.modPart_router (s : State) (p : Nat) (g : Part → Part) : (s.modPart p g).router = s.router := rfl
@[simp] theorem State.modPart_store (s : State) (p : Nat) (g : Part → Part) : (s.modPart p g).store = s.store := rfl
@[simp] theorem State.modPart_fab (s : State) (p : Nat) (g : Part → Part) : (s.modPart p g).fab = s.fab := rfl
@[simp] theorem State.modPart_mgmt (s : State) (p : Nat) (g : Part → Part) : (s.modPart p g).mgmt = s.mgmt := rfl
@[simp] theorem State.modPart_isl (s : State) (p : Nat) (g : Part → Part) : (s.modPart p g).isl = s.isl := rfl
@[simp] theorem State.modPart_power (s : State) (p : Nat) (g : Part → Part) : (s.modPart p g).power = s.power := rfl
@[simp] theorem State.modPart_host (s : State) (p : Nat) (g : Part → Part) : (s.modPart p g).host = s.host := rfl
@[simp] theorem State.modPart_free (s : State) (p : Nat) (g : Part → Part) : (s.modPart p g).free = s.free := rfl

@[simp] theorem State.modCore_pending (s : State) (c : Nat) (g : Core → Core) : (s.modCore c g).pending = s.pending := rfl
@[simp] theorem State.modCore_cp (s : State) (c : Nat) (g : Core → Core) : (s.modCore c g).cp = s.cp := rfl
@[simp] theorem State.modCore_parts (s : State) (c : Nat) (g : Core → Core) : (s.modCore c g).parts = s.parts := rfl
@[simp] theorem State.modCore_ctxs (s : State) (c : Nat) (g : Core → Core) : (s.modCore c g).ctxs = s.ctxs := rfl
@[simp] theorem State.modCore_slots (s : State) (c : Nat) (g : Core → Core) : (s.modCore c g).slots = s.slots := rfl
@[simp] theorem State.modCore_cmem (s : State) (c : Nat) (g : Core → Core) : (s.modCore c g).cmem = s.cmem := rfl
@[simp] theorem State.modCore_sram (s : State) (c : Nat) (g : Core → Core) : (s.modCore c g).sram = s.sram := rfl
@[simp] theorem State.modCore_tiers (s : State) (c : Nat) (g : Core → Core) : (s.modCore c g).tiers = s.tiers := rfl
@[simp] theorem State.modCore_kv (s : State) (c : Nat) (g : Core → Core) : (s.modCore c g).kv = s.kv := rfl
@[simp] theorem State.modCore_sess (s : State) (c : Nat) (g : Core → Core) : (s.modCore c g).sess = s.sess := rfl
@[simp] theorem State.modCore_router (s : State) (c : Nat) (g : Core → Core) : (s.modCore c g).router = s.router := rfl
@[simp] theorem State.modCore_store (s : State) (c : Nat) (g : Core → Core) : (s.modCore c g).store = s.store := rfl
@[simp] theorem State.modCore_fab (s : State) (c : Nat) (g : Core → Core) : (s.modCore c g).fab = s.fab := rfl
@[simp] theorem State.modCore_mgmt (s : State) (c : Nat) (g : Core → Core) : (s.modCore c g).mgmt = s.mgmt := rfl
@[simp] theorem State.modCore_isl (s : State) (c : Nat) (g : Core → Core) : (s.modCore c g).isl = s.isl := rfl
@[simp] theorem State.modCore_power (s : State) (c : Nat) (g : Core → Core) : (s.modCore c g).power = s.power := rfl
@[simp] theorem State.modCore_host (s : State) (c : Nat) (g : Core → Core) : (s.modCore c g).host = s.host := rfl
@[simp] theorem State.modCore_free (s : State) (c : Nat) (g : Core → Core) : (s.modCore c g).free = s.free := rfl

@[simp] theorem State.modHand_pending (s : State) (c h : Nat) (g : Hand → Hand) : (s.modHand c h g).pending = s.pending := rfl
@[simp] theorem State.modHand_cp (s : State) (c h : Nat) (g : Hand → Hand) : (s.modHand c h g).cp = s.cp := rfl
@[simp] theorem State.modHand_parts (s : State) (c h : Nat) (g : Hand → Hand) : (s.modHand c h g).parts = s.parts := rfl
@[simp] theorem State.modHand_ctxs (s : State) (c h : Nat) (g : Hand → Hand) : (s.modHand c h g).ctxs = s.ctxs := rfl
@[simp] theorem State.modHand_slots (s : State) (c h : Nat) (g : Hand → Hand) : (s.modHand c h g).slots = s.slots := rfl
@[simp] theorem State.modHand_cmem (s : State) (c h : Nat) (g : Hand → Hand) : (s.modHand c h g).cmem = s.cmem := rfl
@[simp] theorem State.modHand_sram (s : State) (c h : Nat) (g : Hand → Hand) : (s.modHand c h g).sram = s.sram := rfl
@[simp] theorem State.modHand_tiers (s : State) (c h : Nat) (g : Hand → Hand) : (s.modHand c h g).tiers = s.tiers := rfl
@[simp] theorem State.modHand_kv (s : State) (c h : Nat) (g : Hand → Hand) : (s.modHand c h g).kv = s.kv := rfl
@[simp] theorem State.modHand_sess (s : State) (c h : Nat) (g : Hand → Hand) : (s.modHand c h g).sess = s.sess := rfl
@[simp] theorem State.modHand_router (s : State) (c h : Nat) (g : Hand → Hand) : (s.modHand c h g).router = s.router := rfl
@[simp] theorem State.modHand_store (s : State) (c h : Nat) (g : Hand → Hand) : (s.modHand c h g).store = s.store := rfl
@[simp] theorem State.modHand_fab (s : State) (c h : Nat) (g : Hand → Hand) : (s.modHand c h g).fab = s.fab := rfl
@[simp] theorem State.modHand_mgmt (s : State) (c h : Nat) (g : Hand → Hand) : (s.modHand c h g).mgmt = s.mgmt := rfl
@[simp] theorem State.modHand_isl (s : State) (c h : Nat) (g : Hand → Hand) : (s.modHand c h g).isl = s.isl := rfl
@[simp] theorem State.modHand_power (s : State) (c h : Nat) (g : Hand → Hand) : (s.modHand c h g).power = s.power := rfl
@[simp] theorem State.modHand_host (s : State) (c h : Nat) (g : Hand → Hand) : (s.modHand c h g).host = s.host := rfl
@[simp] theorem State.modHand_free (s : State) (c h : Nat) (g : Hand → Hand) : (s.modHand c h g).free = s.free := rfl

@[simp] theorem State.modCtx_pending (s : State) (c : Nat) (g : Context → Context) : (s.modCtx c g).pending = s.pending := rfl
@[simp] theorem State.modCtx_cp (s : State) (c : Nat) (g : Context → Context) : (s.modCtx c g).cp = s.cp := rfl
@[simp] theorem State.modCtx_parts (s : State) (c : Nat) (g : Context → Context) : (s.modCtx c g).parts = s.parts := rfl
@[simp] theorem State.modCtx_cores (s : State) (c : Nat) (g : Context → Context) : (s.modCtx c g).cores = s.cores := rfl
@[simp] theorem State.modCtx_slots (s : State) (c : Nat) (g : Context → Context) : (s.modCtx c g).slots = s.slots := rfl
@[simp] theorem State.modCtx_cmem (s : State) (c : Nat) (g : Context → Context) : (s.modCtx c g).cmem = s.cmem := rfl
@[simp] theorem State.modCtx_sram (s : State) (c : Nat) (g : Context → Context) : (s.modCtx c g).sram = s.sram := rfl
@[simp] theorem State.modCtx_tiers (s : State) (c : Nat) (g : Context → Context) : (s.modCtx c g).tiers = s.tiers := rfl
@[simp] theorem State.modCtx_kv (s : State) (c : Nat) (g : Context → Context) : (s.modCtx c g).kv = s.kv := rfl
@[simp] theorem State.modCtx_sess (s : State) (c : Nat) (g : Context → Context) : (s.modCtx c g).sess = s.sess := rfl
@[simp] theorem State.modCtx_router (s : State) (c : Nat) (g : Context → Context) : (s.modCtx c g).router = s.router := rfl
@[simp] theorem State.modCtx_store (s : State) (c : Nat) (g : Context → Context) : (s.modCtx c g).store = s.store := rfl
@[simp] theorem State.modCtx_fab (s : State) (c : Nat) (g : Context → Context) : (s.modCtx c g).fab = s.fab := rfl
@[simp] theorem State.modCtx_mgmt (s : State) (c : Nat) (g : Context → Context) : (s.modCtx c g).mgmt = s.mgmt := rfl
@[simp] theorem State.modCtx_isl (s : State) (c : Nat) (g : Context → Context) : (s.modCtx c g).isl = s.isl := rfl
@[simp] theorem State.modCtx_power (s : State) (c : Nat) (g : Context → Context) : (s.modCtx c g).power = s.power := rfl
@[simp] theorem State.modCtx_host (s : State) (c : Nat) (g : Context → Context) : (s.modCtx c g).host = s.host := rfl
@[simp] theorem State.modCtx_free (s : State) (c : Nat) (g : Context → Context) : (s.modCtx c g).free = s.free := rfl

@[simp] theorem State.modLayout_pending (s : State) (c l : Nat) (g : Layout → Layout) : (s.modLayout c l g).pending = s.pending := rfl
@[simp] theorem State.modLayout_cp (s : State) (c l : Nat) (g : Layout → Layout) : (s.modLayout c l g).cp = s.cp := rfl
@[simp] theorem State.modLayout_parts (s : State) (c l : Nat) (g : Layout → Layout) : (s.modLayout c l g).parts = s.parts := rfl
@[simp] theorem State.modLayout_cores (s : State) (c l : Nat) (g : Layout → Layout) : (s.modLayout c l g).cores = s.cores := rfl
@[simp] theorem State.modLayout_slots (s : State) (c l : Nat) (g : Layout → Layout) : (s.modLayout c l g).slots = s.slots := rfl
@[simp] theorem State.modLayout_cmem (s : State) (c l : Nat) (g : Layout → Layout) : (s.modLayout c l g).cmem = s.cmem := rfl
@[simp] theorem State.modLayout_sram (s : State) (c l : Nat) (g : Layout → Layout) : (s.modLayout c l g).sram = s.sram := rfl
@[simp] theorem State.modLayout_tiers (s : State) (c l : Nat) (g : Layout → Layout) : (s.modLayout c l g).tiers = s.tiers := rfl
@[simp] theorem State.modLayout_kv (s : State) (c l : Nat) (g : Layout → Layout) : (s.modLayout c l g).kv = s.kv := rfl
@[simp] theorem State.modLayout_sess (s : State) (c l : Nat) (g : Layout → Layout) : (s.modLayout c l g).sess = s.sess := rfl
@[simp] theorem State.modLayout_router (s : State) (c l : Nat) (g : Layout → Layout) : (s.modLayout c l g).router = s.router := rfl
@[simp] theorem State.modLayout_store (s : State) (c l : Nat) (g : Layout → Layout) : (s.modLayout c l g).store = s.store := rfl
@[simp] theorem State.modLayout_fab (s : State) (c l : Nat) (g : Layout → Layout) : (s.modLayout c l g).fab = s.fab := rfl
@[simp] theorem State.modLayout_mgmt (s : State) (c l : Nat) (g : Layout → Layout) : (s.modLayout c l g).mgmt = s.mgmt := rfl
@[simp] theorem State.modLayout_isl (s : State) (c l : Nat) (g : Layout → Layout) : (s.modLayout c l g).isl = s.isl := rfl
@[simp] theorem State.modLayout_power (s : State) (c l : Nat) (g : Layout → Layout) : (s.modLayout c l g).power = s.power := rfl
@[simp] theorem State.modLayout_host (s : State) (c l : Nat) (g : Layout → Layout) : (s.modLayout c l g).host = s.host := rfl
@[simp] theorem State.modLayout_free (s : State) (c l : Nat) (g : Layout → Layout) : (s.modLayout c l g).free = s.free := rfl

@[simp] theorem State.setLayout_pending (s : State) (c l : Nat) (o : Option Layout) : (s.setLayout c l o).pending = s.pending := rfl
@[simp] theorem State.setLayout_cp (s : State) (c l : Nat) (o : Option Layout) : (s.setLayout c l o).cp = s.cp := rfl
@[simp] theorem State.setLayout_parts (s : State) (c l : Nat) (o : Option Layout) : (s.setLayout c l o).parts = s.parts := rfl
@[simp] theorem State.setLayout_cores (s : State) (c l : Nat) (o : Option Layout) : (s.setLayout c l o).cores = s.cores := rfl
@[simp] theorem State.setLayout_slots (s : State) (c l : Nat) (o : Option Layout) : (s.setLayout c l o).slots = s.slots := rfl
@[simp] theorem State.setLayout_cmem (s : State) (c l : Nat) (o : Option Layout) : (s.setLayout c l o).cmem = s.cmem := rfl
@[simp] theorem State.setLayout_sram (s : State) (c l : Nat) (o : Option Layout) : (s.setLayout c l o).sram = s.sram := rfl
@[simp] theorem State.setLayout_tiers (s : State) (c l : Nat) (o : Option Layout) : (s.setLayout c l o).tiers = s.tiers := rfl
@[simp] theorem State.setLayout_kv (s : State) (c l : Nat) (o : Option Layout) : (s.setLayout c l o).kv = s.kv := rfl
@[simp] theorem State.setLayout_sess (s : State) (c l : Nat) (o : Option Layout) : (s.setLayout c l o).sess = s.sess := rfl
@[simp] theorem State.setLayout_router (s : State) (c l : Nat) (o : Option Layout) : (s.setLayout c l o).router = s.router := rfl
@[simp] theorem State.setLayout_store (s : State) (c l : Nat) (o : Option Layout) : (s.setLayout c l o).store = s.store := rfl
@[simp] theorem State.setLayout_fab (s : State) (c l : Nat) (o : Option Layout) : (s.setLayout c l o).fab = s.fab := rfl
@[simp] theorem State.setLayout_mgmt (s : State) (c l : Nat) (o : Option Layout) : (s.setLayout c l o).mgmt = s.mgmt := rfl
@[simp] theorem State.setLayout_isl (s : State) (c l : Nat) (o : Option Layout) : (s.setLayout c l o).isl = s.isl := rfl
@[simp] theorem State.setLayout_power (s : State) (c l : Nat) (o : Option Layout) : (s.setLayout c l o).power = s.power := rfl
@[simp] theorem State.setLayout_host (s : State) (c l : Nat) (o : Option Layout) : (s.setLayout c l o).host = s.host := rfl
@[simp] theorem State.setLayout_free (s : State) (c l : Nat) (o : Option Layout) : (s.setLayout c l o).free = s.free := rfl

@[simp] theorem State.modSlot_pending (s : State) (c k : Nat) (g : Slot → Slot) : (s.modSlot c k g).pending = s.pending := rfl
@[simp] theorem State.modSlot_cp (s : State) (c k : Nat) (g : Slot → Slot) : (s.modSlot c k g).cp = s.cp := rfl
@[simp] theorem State.modSlot_parts (s : State) (c k : Nat) (g : Slot → Slot) : (s.modSlot c k g).parts = s.parts := rfl
@[simp] theorem State.modSlot_ctxs (s : State) (c k : Nat) (g : Slot → Slot) : (s.modSlot c k g).ctxs = s.ctxs := rfl
@[simp] theorem State.modSlot_cores (s : State) (c k : Nat) (g : Slot → Slot) : (s.modSlot c k g).cores = s.cores := rfl
@[simp] theorem State.modSlot_cmem (s : State) (c k : Nat) (g : Slot → Slot) : (s.modSlot c k g).cmem = s.cmem := rfl
@[simp] theorem State.modSlot_sram (s : State) (c k : Nat) (g : Slot → Slot) : (s.modSlot c k g).sram = s.sram := rfl
@[simp] theorem State.modSlot_tiers (s : State) (c k : Nat) (g : Slot → Slot) : (s.modSlot c k g).tiers = s.tiers := rfl
@[simp] theorem State.modSlot_kv (s : State) (c k : Nat) (g : Slot → Slot) : (s.modSlot c k g).kv = s.kv := rfl
@[simp] theorem State.modSlot_sess (s : State) (c k : Nat) (g : Slot → Slot) : (s.modSlot c k g).sess = s.sess := rfl
@[simp] theorem State.modSlot_router (s : State) (c k : Nat) (g : Slot → Slot) : (s.modSlot c k g).router = s.router := rfl
@[simp] theorem State.modSlot_store (s : State) (c k : Nat) (g : Slot → Slot) : (s.modSlot c k g).store = s.store := rfl
@[simp] theorem State.modSlot_fab (s : State) (c k : Nat) (g : Slot → Slot) : (s.modSlot c k g).fab = s.fab := rfl
@[simp] theorem State.modSlot_mgmt (s : State) (c k : Nat) (g : Slot → Slot) : (s.modSlot c k g).mgmt = s.mgmt := rfl
@[simp] theorem State.modSlot_isl (s : State) (c k : Nat) (g : Slot → Slot) : (s.modSlot c k g).isl = s.isl := rfl
@[simp] theorem State.modSlot_power (s : State) (c k : Nat) (g : Slot → Slot) : (s.modSlot c k g).power = s.power := rfl
@[simp] theorem State.modSlot_host (s : State) (c k : Nat) (g : Slot → Slot) : (s.modSlot c k g).host = s.host := rfl
@[simp] theorem State.modSlot_free (s : State) (c k : Nat) (g : Slot → Slot) : (s.modSlot c k g).free = s.free := rfl

@[simp] theorem State.setSlot_pending (s : State) (c k : Nat) (o : Option Slot) : (s.setSlot c k o).pending = s.pending := rfl
@[simp] theorem State.setSlot_cp (s : State) (c k : Nat) (o : Option Slot) : (s.setSlot c k o).cp = s.cp := rfl
@[simp] theorem State.setSlot_parts (s : State) (c k : Nat) (o : Option Slot) : (s.setSlot c k o).parts = s.parts := rfl
@[simp] theorem State.setSlot_ctxs (s : State) (c k : Nat) (o : Option Slot) : (s.setSlot c k o).ctxs = s.ctxs := rfl
@[simp] theorem State.setSlot_cores (s : State) (c k : Nat) (o : Option Slot) : (s.setSlot c k o).cores = s.cores := rfl
@[simp] theorem State.setSlot_cmem (s : State) (c k : Nat) (o : Option Slot) : (s.setSlot c k o).cmem = s.cmem := rfl
@[simp] theorem State.setSlot_sram (s : State) (c k : Nat) (o : Option Slot) : (s.setSlot c k o).sram = s.sram := rfl
@[simp] theorem State.setSlot_tiers (s : State) (c k : Nat) (o : Option Slot) : (s.setSlot c k o).tiers = s.tiers := rfl
@[simp] theorem State.setSlot_kv (s : State) (c k : Nat) (o : Option Slot) : (s.setSlot c k o).kv = s.kv := rfl
@[simp] theorem State.setSlot_sess (s : State) (c k : Nat) (o : Option Slot) : (s.setSlot c k o).sess = s.sess := rfl
@[simp] theorem State.setSlot_router (s : State) (c k : Nat) (o : Option Slot) : (s.setSlot c k o).router = s.router := rfl
@[simp] theorem State.setSlot_store (s : State) (c k : Nat) (o : Option Slot) : (s.setSlot c k o).store = s.store := rfl
@[simp] theorem State.setSlot_fab (s : State) (c k : Nat) (o : Option Slot) : (s.setSlot c k o).fab = s.fab := rfl
@[simp] theorem State.setSlot_mgmt (s : State) (c k : Nat) (o : Option Slot) : (s.setSlot c k o).mgmt = s.mgmt := rfl
@[simp] theorem State.setSlot_isl (s : State) (c k : Nat) (o : Option Slot) : (s.setSlot c k o).isl = s.isl := rfl
@[simp] theorem State.setSlot_power (s : State) (c k : Nat) (o : Option Slot) : (s.setSlot c k o).power = s.power := rfl
@[simp] theorem State.setSlot_host (s : State) (c k : Nat) (o : Option Slot) : (s.setSlot c k o).host = s.host := rfl
@[simp] theorem State.setSlot_free (s : State) (c k : Nat) (o : Option Slot) : (s.setSlot c k o).free = s.free := rfl

@[simp] theorem State.modSess_pending (s : State) (k : Nat) (g : Session → Session) : (s.modSess k g).pending = s.pending := rfl
@[simp] theorem State.modSess_cp (s : State) (k : Nat) (g : Session → Session) : (s.modSess k g).cp = s.cp := rfl
@[simp] theorem State.modSess_parts (s : State) (k : Nat) (g : Session → Session) : (s.modSess k g).parts = s.parts := rfl
@[simp] theorem State.modSess_ctxs (s : State) (k : Nat) (g : Session → Session) : (s.modSess k g).ctxs = s.ctxs := rfl
@[simp] theorem State.modSess_cores (s : State) (k : Nat) (g : Session → Session) : (s.modSess k g).cores = s.cores := rfl
@[simp] theorem State.modSess_slots (s : State) (k : Nat) (g : Session → Session) : (s.modSess k g).slots = s.slots := rfl
@[simp] theorem State.modSess_cmem (s : State) (k : Nat) (g : Session → Session) : (s.modSess k g).cmem = s.cmem := rfl
@[simp] theorem State.modSess_sram (s : State) (k : Nat) (g : Session → Session) : (s.modSess k g).sram = s.sram := rfl
@[simp] theorem State.modSess_tiers (s : State) (k : Nat) (g : Session → Session) : (s.modSess k g).tiers = s.tiers := rfl
@[simp] theorem State.modSess_kv (s : State) (k : Nat) (g : Session → Session) : (s.modSess k g).kv = s.kv := rfl
@[simp] theorem State.modSess_router (s : State) (k : Nat) (g : Session → Session) : (s.modSess k g).router = s.router := rfl
@[simp] theorem State.modSess_store (s : State) (k : Nat) (g : Session → Session) : (s.modSess k g).store = s.store := rfl
@[simp] theorem State.modSess_fab (s : State) (k : Nat) (g : Session → Session) : (s.modSess k g).fab = s.fab := rfl
@[simp] theorem State.modSess_mgmt (s : State) (k : Nat) (g : Session → Session) : (s.modSess k g).mgmt = s.mgmt := rfl
@[simp] theorem State.modSess_isl (s : State) (k : Nat) (g : Session → Session) : (s.modSess k g).isl = s.isl := rfl
@[simp] theorem State.modSess_power (s : State) (k : Nat) (g : Session → Session) : (s.modSess k g).power = s.power := rfl
@[simp] theorem State.modSess_host (s : State) (k : Nat) (g : Session → Session) : (s.modSess k g).host = s.host := rfl
@[simp] theorem State.modSess_free (s : State) (k : Nat) (g : Session → Session) : (s.modSess k g).free = s.free := rfl

@[simp] theorem State.modPort_pending (s : State) (p : Nat) (g : Port → Port) : (s.modPort p g).pending = s.pending := rfl
@[simp] theorem State.modPort_cp (s : State) (p : Nat) (g : Port → Port) : (s.modPort p g).cp = s.cp := rfl
@[simp] theorem State.modPort_parts (s : State) (p : Nat) (g : Port → Port) : (s.modPort p g).parts = s.parts := rfl
@[simp] theorem State.modPort_ctxs (s : State) (p : Nat) (g : Port → Port) : (s.modPort p g).ctxs = s.ctxs := rfl
@[simp] theorem State.modPort_cores (s : State) (p : Nat) (g : Port → Port) : (s.modPort p g).cores = s.cores := rfl
@[simp] theorem State.modPort_slots (s : State) (p : Nat) (g : Port → Port) : (s.modPort p g).slots = s.slots := rfl
@[simp] theorem State.modPort_cmem (s : State) (p : Nat) (g : Port → Port) : (s.modPort p g).cmem = s.cmem := rfl
@[simp] theorem State.modPort_sram (s : State) (p : Nat) (g : Port → Port) : (s.modPort p g).sram = s.sram := rfl
@[simp] theorem State.modPort_tiers (s : State) (p : Nat) (g : Port → Port) : (s.modPort p g).tiers = s.tiers := rfl
@[simp] theorem State.modPort_kv (s : State) (p : Nat) (g : Port → Port) : (s.modPort p g).kv = s.kv := rfl
@[simp] theorem State.modPort_sess (s : State) (p : Nat) (g : Port → Port) : (s.modPort p g).sess = s.sess := rfl
@[simp] theorem State.modPort_router (s : State) (p : Nat) (g : Port → Port) : (s.modPort p g).router = s.router := rfl
@[simp] theorem State.modPort_store (s : State) (p : Nat) (g : Port → Port) : (s.modPort p g).store = s.store := rfl
@[simp] theorem State.modPort_mgmt (s : State) (p : Nat) (g : Port → Port) : (s.modPort p g).mgmt = s.mgmt := rfl
@[simp] theorem State.modPort_isl (s : State) (p : Nat) (g : Port → Port) : (s.modPort p g).isl = s.isl := rfl
@[simp] theorem State.modPort_power (s : State) (p : Nat) (g : Port → Port) : (s.modPort p g).power = s.power := rfl
@[simp] theorem State.modPort_host (s : State) (p : Nat) (g : Port → Port) : (s.modPort p g).host = s.host := rfl
@[simp] theorem State.modPort_free (s : State) (p : Nat) (g : Port → Port) : (s.modPort p g).free = s.free := rfl

@[simp] theorem State.modCirc_pending (s : State) (k : Nat) (g : Circuit → Circuit) : (s.modCirc k g).pending = s.pending := rfl
@[simp] theorem State.modCirc_cp (s : State) (k : Nat) (g : Circuit → Circuit) : (s.modCirc k g).cp = s.cp := rfl
@[simp] theorem State.modCirc_parts (s : State) (k : Nat) (g : Circuit → Circuit) : (s.modCirc k g).parts = s.parts := rfl
@[simp] theorem State.modCirc_ctxs (s : State) (k : Nat) (g : Circuit → Circuit) : (s.modCirc k g).ctxs = s.ctxs := rfl
@[simp] theorem State.modCirc_cores (s : State) (k : Nat) (g : Circuit → Circuit) : (s.modCirc k g).cores = s.cores := rfl
@[simp] theorem State.modCirc_slots (s : State) (k : Nat) (g : Circuit → Circuit) : (s.modCirc k g).slots = s.slots := rfl
@[simp] theorem State.modCirc_cmem (s : State) (k : Nat) (g : Circuit → Circuit) : (s.modCirc k g).cmem = s.cmem := rfl
@[simp] theorem State.modCirc_sram (s : State) (k : Nat) (g : Circuit → Circuit) : (s.modCirc k g).sram = s.sram := rfl
@[simp] theorem State.modCirc_tiers (s : State) (k : Nat) (g : Circuit → Circuit) : (s.modCirc k g).tiers = s.tiers := rfl
@[simp] theorem State.modCirc_kv (s : State) (k : Nat) (g : Circuit → Circuit) : (s.modCirc k g).kv = s.kv := rfl
@[simp] theorem State.modCirc_sess (s : State) (k : Nat) (g : Circuit → Circuit) : (s.modCirc k g).sess = s.sess := rfl
@[simp] theorem State.modCirc_router (s : State) (k : Nat) (g : Circuit → Circuit) : (s.modCirc k g).router = s.router := rfl
@[simp] theorem State.modCirc_store (s : State) (k : Nat) (g : Circuit → Circuit) : (s.modCirc k g).store = s.store := rfl
@[simp] theorem State.modCirc_mgmt (s : State) (k : Nat) (g : Circuit → Circuit) : (s.modCirc k g).mgmt = s.mgmt := rfl
@[simp] theorem State.modCirc_isl (s : State) (k : Nat) (g : Circuit → Circuit) : (s.modCirc k g).isl = s.isl := rfl
@[simp] theorem State.modCirc_power (s : State) (k : Nat) (g : Circuit → Circuit) : (s.modCirc k g).power = s.power := rfl
@[simp] theorem State.modCirc_host (s : State) (k : Nat) (g : Circuit → Circuit) : (s.modCirc k g).host = s.host := rfl
@[simp] theorem State.modCirc_free (s : State) (k : Nat) (g : Circuit → Circuit) : (s.modCirc k g).free = s.free := rfl

@[simp] theorem State.modDie_pending (s : State) (d : Nat) (g : Die → Die) : (s.modDie d g).pending = s.pending := rfl
@[simp] theorem State.modDie_cp (s : State) (d : Nat) (g : Die → Die) : (s.modDie d g).cp = s.cp := rfl
@[simp] theorem State.modDie_parts (s : State) (d : Nat) (g : Die → Die) : (s.modDie d g).parts = s.parts := rfl
@[simp] theorem State.modDie_ctxs (s : State) (d : Nat) (g : Die → Die) : (s.modDie d g).ctxs = s.ctxs := rfl
@[simp] theorem State.modDie_cores (s : State) (d : Nat) (g : Die → Die) : (s.modDie d g).cores = s.cores := rfl
@[simp] theorem State.modDie_slots (s : State) (d : Nat) (g : Die → Die) : (s.modDie d g).slots = s.slots := rfl
@[simp] theorem State.modDie_cmem (s : State) (d : Nat) (g : Die → Die) : (s.modDie d g).cmem = s.cmem := rfl
@[simp] theorem State.modDie_sram (s : State) (d : Nat) (g : Die → Die) : (s.modDie d g).sram = s.sram := rfl
@[simp] theorem State.modDie_tiers (s : State) (d : Nat) (g : Die → Die) : (s.modDie d g).tiers = s.tiers := rfl
@[simp] theorem State.modDie_kv (s : State) (d : Nat) (g : Die → Die) : (s.modDie d g).kv = s.kv := rfl
@[simp] theorem State.modDie_sess (s : State) (d : Nat) (g : Die → Die) : (s.modDie d g).sess = s.sess := rfl
@[simp] theorem State.modDie_router (s : State) (d : Nat) (g : Die → Die) : (s.modDie d g).router = s.router := rfl
@[simp] theorem State.modDie_store (s : State) (d : Nat) (g : Die → Die) : (s.modDie d g).store = s.store := rfl
@[simp] theorem State.modDie_fab (s : State) (d : Nat) (g : Die → Die) : (s.modDie d g).fab = s.fab := rfl
@[simp] theorem State.modDie_mgmt (s : State) (d : Nat) (g : Die → Die) : (s.modDie d g).mgmt = s.mgmt := rfl
@[simp] theorem State.modDie_isl (s : State) (d : Nat) (g : Die → Die) : (s.modDie d g).isl = s.isl := rfl
@[simp] theorem State.modDie_host (s : State) (d : Nat) (g : Die → Die) : (s.modDie d g).host = s.host := rfl
@[simp] theorem State.modDie_free (s : State) (d : Nat) (g : Die → Die) : (s.modDie d g).free = s.free := rfl

@[simp] theorem State.modIsl_pending (s : State) (k : Nat) (g : Island → Island) : (s.modIsl k g).pending = s.pending := rfl
@[simp] theorem State.modIsl_cp (s : State) (k : Nat) (g : Island → Island) : (s.modIsl k g).cp = s.cp := rfl
@[simp] theorem State.modIsl_parts (s : State) (k : Nat) (g : Island → Island) : (s.modIsl k g).parts = s.parts := rfl
@[simp] theorem State.modIsl_ctxs (s : State) (k : Nat) (g : Island → Island) : (s.modIsl k g).ctxs = s.ctxs := rfl
@[simp] theorem State.modIsl_cores (s : State) (k : Nat) (g : Island → Island) : (s.modIsl k g).cores = s.cores := rfl
@[simp] theorem State.modIsl_slots (s : State) (k : Nat) (g : Island → Island) : (s.modIsl k g).slots = s.slots := rfl
@[simp] theorem State.modIsl_cmem (s : State) (k : Nat) (g : Island → Island) : (s.modIsl k g).cmem = s.cmem := rfl
@[simp] theorem State.modIsl_sram (s : State) (k : Nat) (g : Island → Island) : (s.modIsl k g).sram = s.sram := rfl
@[simp] theorem State.modIsl_tiers (s : State) (k : Nat) (g : Island → Island) : (s.modIsl k g).tiers = s.tiers := rfl
@[simp] theorem State.modIsl_kv (s : State) (k : Nat) (g : Island → Island) : (s.modIsl k g).kv = s.kv := rfl
@[simp] theorem State.modIsl_sess (s : State) (k : Nat) (g : Island → Island) : (s.modIsl k g).sess = s.sess := rfl
@[simp] theorem State.modIsl_router (s : State) (k : Nat) (g : Island → Island) : (s.modIsl k g).router = s.router := rfl
@[simp] theorem State.modIsl_store (s : State) (k : Nat) (g : Island → Island) : (s.modIsl k g).store = s.store := rfl
@[simp] theorem State.modIsl_fab (s : State) (k : Nat) (g : Island → Island) : (s.modIsl k g).fab = s.fab := rfl
@[simp] theorem State.modIsl_mgmt (s : State) (k : Nat) (g : Island → Island) : (s.modIsl k g).mgmt = s.mgmt := rfl
@[simp] theorem State.modIsl_power (s : State) (k : Nat) (g : Island → Island) : (s.modIsl k g).power = s.power := rfl
@[simp] theorem State.modIsl_host (s : State) (k : Nat) (g : Island → Island) : (s.modIsl k g).host = s.host := rfl
@[simp] theorem State.modIsl_free (s : State) (k : Nat) (g : Island → Island) : (s.modIsl k g).free = s.free := rfl

@[simp] theorem State.freeNext_pending (s : State) (k : Nat) : (s.freeNext k).pending = s.pending := rfl
@[simp] theorem State.freeNext_cp (s : State) (k : Nat) : (s.freeNext k).cp = s.cp := rfl
@[simp] theorem State.freeNext_parts (s : State) (k : Nat) : (s.freeNext k).parts = s.parts := rfl
@[simp] theorem State.freeNext_ctxs (s : State) (k : Nat) : (s.freeNext k).ctxs = s.ctxs := rfl
@[simp] theorem State.freeNext_cores (s : State) (k : Nat) : (s.freeNext k).cores = s.cores := rfl
@[simp] theorem State.freeNext_slots (s : State) (k : Nat) : (s.freeNext k).slots = s.slots := rfl
@[simp] theorem State.freeNext_cmem (s : State) (k : Nat) : (s.freeNext k).cmem = s.cmem := rfl
@[simp] theorem State.freeNext_sram (s : State) (k : Nat) : (s.freeNext k).sram = s.sram := rfl
@[simp] theorem State.freeNext_tiers (s : State) (k : Nat) : (s.freeNext k).tiers = s.tiers := rfl
@[simp] theorem State.freeNext_kv (s : State) (k : Nat) : (s.freeNext k).kv = s.kv := rfl
@[simp] theorem State.freeNext_sess (s : State) (k : Nat) : (s.freeNext k).sess = s.sess := rfl
@[simp] theorem State.freeNext_router (s : State) (k : Nat) : (s.freeNext k).router = s.router := rfl
@[simp] theorem State.freeNext_store (s : State) (k : Nat) : (s.freeNext k).store = s.store := rfl
@[simp] theorem State.freeNext_fab (s : State) (k : Nat) : (s.freeNext k).fab = s.fab := rfl
@[simp] theorem State.freeNext_mgmt (s : State) (k : Nat) : (s.freeNext k).mgmt = s.mgmt := rfl
@[simp] theorem State.freeNext_isl (s : State) (k : Nat) : (s.freeNext k).isl = s.isl := rfl
@[simp] theorem State.freeNext_power (s : State) (k : Nat) : (s.freeNext k).power = s.power := rfl
@[simp] theorem State.freeNext_host (s : State) (k : Nat) : (s.freeNext k).host = s.host := rfl

/-! ### What its accessor reads -/

theorem tset_below {α : Type} [DecidableEq α] (d : α) (t : Tbl α) (k : Nat) (v : α) :
    (tset d t k v).filter (fun p => p.1 < k) = t.filter (fun p => p.1 < k) := by
  have h : (t.filter (fun p => k < p.1)).filter (fun p => p.1 < k) = [] := by
    rw [List.filter_filter, List.filter_eq_nil_iff]
    intro x _
    simp
    omega
  unfold tset
  rw [List.filter_append, List.filter_append, h, List.filter_filter]
  by_cases hv : v = d <;> simp [hv]

theorem tset_above {α : Type} [DecidableEq α] (d : α) (t : Tbl α) (k : Nat) (v : α) :
    (tset d t k v).filter (fun p => k < p.1) = t.filter (fun p => k < p.1) := by
  have h : (t.filter (fun p => p.1 < k)).filter (fun p => k < p.1) = [] := by
    rw [List.filter_filter, List.filter_eq_nil_iff]
    intro x _
    simp
    omega
  unfold tset
  rw [List.filter_append, List.filter_append, h, List.filter_filter]
  by_cases hv : v = d <;> simp [hv]

/-- Writing an index twice leaves the second value. -/
theorem tset_tset {α : Type} [DecidableEq α] (d : α) (t : Tbl α) (k : Nat) (v w : α) : tset d (tset d t k v) k w = tset d t k w := by
  have a := tset_below d t k v
  have b := tset_above d t k v
  generalize tset d t k v = u at *
  unfold tset
  rw [a, b]

theorem tmod_tmod {α : Type} [DecidableEq α] (d : α) (t : Tbl α) (k : Nat) (f g : α → α) :
    tmod d (tmod d t k f) k g = tmod d t k (fun x => g (f x)) := by
  unfold tmod
  rw [tset_tset, tget_tset, if_pos rfl]

theorem State.modFn_modFn (s : State) (f : Nat) (g k : Fn → Fn) : (s.modFn f g).modFn f k = s.modFn f (fun x => k (g x)) := by
  simp [State.modFn, tmod_tmod]

theorem State.modQueue_modQueue (s : State) (f q : Nat) (g k : Queue → Queue) :
    (s.modQueue f q g).modQueue f q k = s.modQueue f q (fun x => k (g x)) := by
  simp [State.modQueue, State.modFn_modFn, tmod_tmod]

/-- Two updates of one command are one. -/
theorem State.modCmd_modCmd (s : State) (f q n : Nat) (g k : Cmd → Cmd) (hg : ∀ c, (g c).n = c.n) :
    (s.modCmd f q n g).modCmd f q n k = s.modCmd f q n (fun c => k (g c)) := by
  unfold State.modCmd
  rw [State.modQueue_modQueue]
  congr 1
  funext x
  simp only [List.map_map]
  congr 1
  apply List.map_congr_left
  intro c _
  by_cases h : c.n = n <;> simp [h, hg]

theorem State.fnOf_modFn (s : State) (f j : Nat) (g : Fn → Fn) :
    (s.modFn f g).fnOf j = if j = f then g (s.fnOf f) else s.fnOf j := tget_tmod ..

@[simp] theorem State.fnOf_modFn_self (s : State) (f : Nat) (g : Fn → Fn) : (s.modFn f g).fnOf f = g (s.fnOf f) := by
  simp [State.fnOf_modFn]

theorem State.queueOf_modQueue (s : State) (f q i j : Nat) (g : Queue → Queue) :
    (s.modQueue f q g).queueOf i j = if i = f ∧ j = q then g (s.queueOf f q) else s.queueOf i j := by
  unfold State.modQueue State.queueOf
  rw [State.fnOf_modFn]
  by_cases hi : i = f
  · subst hi
    simp only [if_true, tget_tmod, true_and]
  · simp [hi]

@[simp] theorem State.queueOf_modQueue_self (s : State) (f q : Nat) (g : Queue → Queue) :
    (s.modQueue f q g).queueOf f q = g (s.queueOf f q) := by simp [State.queueOf_modQueue]

/-- A list of commands changed at one serial number. -/
theorem find_mapCmd (l : List Cmd) (n : Nat) (g : Cmd → Cmd) (h : ∀ c, (g c).n = c.n) :
    (l.map (fun c => if c.n = n then g c else c)).find? (fun c => c.n = n) = (l.find? (fun c => c.n = n)).map g := by
  induction l with
  | nil => rfl
  | cons x l ih =>
    by_cases hx : x.n = n
    · simp [hx, h]
    · simpa [hx] using ih

theorem find_mapCmd_ne (l : List Cmd) (n m : Nat) (g : Cmd → Cmd) (h : ∀ c, (g c).n = c.n) (hm : m ≠ n) :
    (l.map (fun c => if c.n = n then g c else c)).find? (fun c => c.n = m) = l.find? (fun c => c.n = m) := by
  induction l with
  | nil => rfl
  | cons x l ih =>
    by_cases hx : x.n = n
    · have h1 : ¬ (g x).n = m := by rw [h, hx]; exact fun e => hm e.symm
      have h2 : ¬ n = m := fun e => hm e.symm
      simp only [List.map_cons, hx, if_true, List.find?_cons, h1, h2, decide_false]
      exact ih
    · simp only [List.map_cons, hx, if_false, List.find?_cons, ih]

/-- The command an update names is that command, updated. -/
theorem State.cmdOf_modCmd_self (s : State) (f q n : Nat) (g : Cmd → Cmd) (h : ∀ c, (g c).n = c.n) :
    (s.modCmd f q n g).cmdOf f q n = (s.cmdOf f q n).map g := by
  unfold State.cmdOf State.modCmd
  rw [State.queueOf_modQueue_self]
  exact find_mapCmd _ _ _ h

/-- Every other command is as it was. -/
theorem State.cmdOf_modCmd_ne (s : State) (f q n i j m : Nat) (g : Cmd → Cmd) (h : ∀ c, (g c).n = c.n)
    (hne : ¬ (i = f ∧ j = q ∧ m = n)) : (s.modCmd f q n g).cmdOf i j m = s.cmdOf i j m := by
  unfold State.cmdOf State.modCmd
  rw [State.queueOf_modQueue]
  by_cases hq : i = f ∧ j = q
  · obtain ⟨rfl, rfl⟩ := hq
    have hm : m ≠ n := fun e => hne ⟨rfl, rfl, e⟩
    simp only [and_self, if_true]
    exact find_mapCmd_ne _ _ _ _ h hm
  · simp [hq]

theorem State.modCmd_cp (s t : State) (f q n : Nat) (g : Cmd → Cmd) (h : s.cp = t.cp) : (s.modCmd f q n g).cp = (t.modCmd f q n g).cp := by
  simp [State.modCmd, State.modQueue, State.modFn, h]

theorem State.cmdOf_cp (s t : State) (f q n : Nat) (h : s.cp = t.cp) : s.cmdOf f q n = t.cmdOf f q n := by
  simp [State.cmdOf, State.queueOf, State.fnOf, h]

@[simp] theorem Cmd.finish_n (c : Cmd) (v : Verdict) : (c.finish v).n = c.n := rfl
@[simp] theorem Cmd.finish_phase (c : Cmd) (v : Verdict) : (c.finish v).phase = .finished := rfl
@[simp] theorem Cmd.finish_words (c : Cmd) (v : Verdict) : (c.finish v).words = c.words := rfl
@[simp] theorem Cmd.finish_work (c : Cmd) (v : Verdict) : (c.finish v).work = c.work := rfl

/-- A command that had no status takes the verdict as it is. -/
theorem Cmd.finish_clean (c : Cmd) (v : Verdict) (h : c.phase ≠ .finished) (hs : c.status = 0) :
    c.finish v = { c with phase := .finished, status := v.status, resA := w32 v.a, resB := w32 v.b } := by
  simp [Cmd.finish, h, hs]

theorem State.cmdOf_finish (s : State) (f q n : Nat) (v : Verdict) :
    (s.finish f q n v).cmdOf f q n = (s.cmdOf f q n).map (fun c => c.finish v) :=
  State.cmdOf_modCmd_self _ _ _ _ _ (fun _ => rfl)

theorem State.cmdOf_setWork (s : State) (f q n : Nat) (w : Work) :
    (s.setWork f q n w).cmdOf f q n = (s.cmdOf f q n).map (fun c => { c with work := w, begun := true }) :=
  State.cmdOf_modCmd_self _ _ _ _ _ (fun _ => rfl)

theorem State.partOf_modPart (s : State) (p j : Nat) (g : Part → Part) :
    (s.modPart p g).partOf j = if j = p then g (s.partOf p) else s.partOf j := tget_tmod ..

theorem State.coreOf_modCore (s : State) (c j : Nat) (g : Core → Core) :
    (s.modCore c g).coreOf j = if j = c then g (s.coreOf c) else s.coreOf j := tget_tmod ..
@[simp] theorem State.coreOf_modCore_self (s : State) (c : Nat) (g : Core → Core) :
    (s.modCore c g).coreOf c = g (s.coreOf c) := by simp [State.coreOf_modCore]
@[simp] theorem State.handOf_modHand_self (s : State) (c h : Nat) (g : Hand → Hand) :
    (s.modHand c h g).handOf c h = (s.handOf c h).map g := by
  unfold State.handOf State.modHand
  rw [State.coreOf_modCore_self]
  simp

theorem State.ctxOf_modCtx (s : State) (c j : Nat) (g : Context → Context) :
    (s.modCtx c g).ctxOf j = if j = c then g (s.ctxOf c) else s.ctxOf j := tget_tmod ..
@[simp] theorem State.ctxOf_modCtx_self (s : State) (c : Nat) (g : Context → Context) :
    (s.modCtx c g).ctxOf c = g (s.ctxOf c) := by simp [State.ctxOf_modCtx]
@[simp] theorem State.layoutOf_modLayout_self (s : State) (c l : Nat) (g : Layout → Layout) :
    (s.modLayout c l g).layoutOf c l = (s.layoutOf c l).map g := by
  unfold State.layoutOf State.modLayout
  rw [State.ctxOf_modCtx_self]
  simp
@[simp] theorem State.layoutOf_setLayout_self (s : State) (c l : Nat) (o : Option Layout) :
    (s.setLayout c l o).layoutOf c l = o := by
  unfold State.layoutOf State.setLayout
  rw [State.ctxOf_modCtx_self]
  simp

@[simp] theorem State.slotOf_setSlot_self (s : State) (c k : Nat) (o : Option Slot) : (s.setSlot c k o).slotOf c k = o := by
  simp [State.slotOf, State.setSlot]
@[simp] theorem State.slotOf_modSlot_self (s : State) (c k : Nat) (g : Slot → Slot) :
    (s.modSlot c k g).slotOf c k = (s.slotOf c k).map g := by
  simp [State.slotOf, State.modSlot]

theorem State.sessOf_modSess (s : State) (k j : Nat) (g : Session → Session) :
    (s.modSess k g).sessOf j = if j = k then g (s.sessOf k) else s.sessOf j := tget_tmod ..
@[simp] theorem State.sessOf_modSess_self (s : State) (k : Nat) (g : Session → Session) :
    (s.modSess k g).sessOf k = g (s.sessOf k) := by simp [State.sessOf_modSess]
theorem State.portOf_modPort (s : State) (p j : Nat) (g : Port → Port) :
    (s.modPort p g).portOf j = if j = p then g (s.portOf p) else s.portOf j := tget_tmod ..
@[simp] theorem State.portOf_modPort_self (s : State) (p : Nat) (g : Port → Port) :
    (s.modPort p g).portOf p = g (s.portOf p) := by simp [State.portOf_modPort]
theorem State.circOf_modCirc (s : State) (k j : Nat) (g : Circuit → Circuit) :
    (s.modCirc k g).circOf j = if j = k then g (s.circOf k) else s.circOf j := tget_tmod ..
@[simp] theorem State.circOf_modCirc_self (s : State) (k : Nat) (g : Circuit → Circuit) :
    (s.modCirc k g).circOf k = g (s.circOf k) := by simp [State.circOf_modCirc]
theorem State.dieOf_modDie (s : State) (d j : Nat) (g : Die → Die) :
    (s.modDie d g).dieOf j = if j = d then g (s.dieOf d) else s.dieOf j := tget_tmod ..
@[simp] theorem State.dieOf_modDie_self (s : State) (d : Nat) (g : Die → Die) :
    (s.modDie d g).dieOf d = g (s.dieOf d) := by simp [State.dieOf_modDie]
theorem State.islOf_modIsl (s : State) (k j : Nat) (g : Island → Island) :
    (s.modIsl k g).islOf j = if j = k then g (s.islOf k) else s.islOf j := tget_tmod ..
@[simp] theorem State.islOf_modIsl_self (s : State) (k : Nat) (g : Island → Island) :
    (s.modIsl k g).islOf k = g (s.islOf k) := by simp [State.islOf_modIsl]

end Sys2Proof.Machine
end

