-- ==== Sys2Proof/Laws/Checks.lean ====
section
/-! SUPPORT. What running a command's checks answers, and how a command that runs ends: the lemmas a proof about an opcode's row cites. -/
namespace Sys2Proof.Machine

/-! ### Checks -/

theorem verdictOf_none (cs : List Check) (h : ∀ c ∈ cs, c.bad = false) : verdictOf cs = none := by
  have e : cs.filter (fun c => c.bad) = [] := by
    rw [List.filter_eq_nil_iff]
    intro c hc
    simp [h c hc]
  simp [verdictOf, e, pickVerdict]

@[simp] theorem verdictOf_nil : verdictOf [] = none := rfl

theorem verdictOf_cons_good (c : Check) (cs : List Check) (h : c.bad = false) : verdictOf (c :: cs) = verdictOf cs := by
  simp [verdictOf, h]

@[simp] theorem verdictOf_param (ok : Bool) (w : Nat) (cs : List Check) (h : ok = true) :
    verdictOf (param ok w :: cs) = verdictOf cs := verdictOf_cons_good _ _ (by simp [param, h])

@[simp] theorem verdictOf_resv (ok : Bool) (w : Nat) (cs : List Check) (h : ok = true) :
    verdictOf (resv ok w :: cs) = verdictOf cs := verdictOf_cons_good _ _ (by simp [resv, h])

@[simp] theorem verdictOf_need (ok : Bool) (st a b : Nat) (cs : List Check) (h : ok = true) :
    verdictOf (need ok st a b :: cs) = verdictOf cs := verdictOf_cons_good _ _ (by simp [need, h])

theorem reservedCheck_none (ws : List Word) (used : List (Nat × Nat)) (h : reservedWord ws used = none) :
    reservedCheck ws used = [] := by
  rw [reservedCheck, List.head?_eq_none_iff.1 h, List.map_nil]

/-- A list of checks reports nothing just where none fails. -/
theorem verdictOf_eq_none (cs : List Check) : verdictOf cs = none ↔ ∀ c ∈ cs, c.bad = false := by
  refine ⟨fun h c hc => ?_, verdictOf_none cs⟩
  by_contra hb
  have hm : c.v ∈ (cs.filter (fun c => c.bad)).map (fun c => c.v) :=
    List.mem_map_of_mem (List.mem_filter.2 ⟨hc, by simpa using hb⟩)
  rw [verdictOf] at h
  generalize (cs.filter (fun c => c.bad)).map (fun c => c.v) = l at h hm
  cases l with
  | nil => cases hm
  | cons v l => simp [pickVerdict] at h

/-- INDIRECT changes what a failed check reports, not whether it fails. -/
theorem verdictOf_shapeChecks (ws eff : List Word) (cs : List Check) (h : verdictOf cs = none) :
    verdictOf (shapeChecks ws eff cs) = none := by
  rw [verdictOf_eq_none] at h ⊢
  simpa [shapeChecks] using h

/-- Without INDIRECT the checks report as they stand. -/
theorem shapeChecks_direct (ws eff : List Word) (cs : List Check) (h : indirectOf ws = false) : shapeChecks ws eff cs = cs := by
  simp [shapeChecks, shapeVerdict, h]

/-- Where no check fails the command goes on. -/
theorem State.checked_ok (s : State) (f q n : Nat) (c : Cmd) (cs : List Check) (t : State) (h : verdictOf cs = none) :
    s.checked f q n c cs t = t := by rw [State.checked, verdictOf_shapeChecks _ _ _ h]

/-- Where the reported verdict of the checks is v, the command ends with it. -/
theorem State.checked_bad (s : State) (f q n : Nat) (c : Cmd) (cs : List Check) (t : State) (v : Verdict)
    (h : verdictOf (shapeChecks c.words c.eff cs) = some v) : s.checked f q n c cs t = s.finish f q n v := by rw [State.checked, h]

/-! ### A command that runs -/

theorem State.started_cases (s : State) (f q n op : Nat) (c : Cmd) (h : s.started f q n op = some c) :
    s.cmdOf f q n = some c ∧ c.phase = .running ∧ c.op = op := by
  unfold State.started at h
  split at h
  · rename_i d hd
    split at h
    · rename_i hc
      simp only [Option.some.injEq] at h
      subst h
      exact ⟨hd, hc.1, hc.2⟩
    · cases h
  · cases h

theorem State.Runs.cmd {s : State} {f q n op : Nat} {used : List (Nat × Nat)} {c : Cmd} (h : s.Runs f q n op used c) :
    s.cmdOf f q n = some c := (s.started_cases f q n op c h.started).1

theorem State.Runs.phase {s : State} {f q n op : Nat} {used : List (Nat × Nat)} {c : Cmd} (h : s.Runs f q n op used c) :
    c.phase = .running := (s.started_cases f q n op c h.started).2.1

theorem State.Runs.op {s : State} {f q n op : Nat} {used : List (Nat × Nat)} {c : Cmd} (h : s.Runs f q n op used c) :
    c.op = op := (s.started_cases f q n op c h.started).2.2

theorem State.work_started (s : State) (f q n op : Nat) (g : Cmd → State) (c : Cmd) (h : s.started f q n op = some c) :
    s.work f q n op g = .next (g c) := by simp [State.work, h]

/-- A command with no status so far that a state holds ends as its verdict says. -/
theorem State.finish_ended (t : State) (f q n : Nat) (c : Cmd) (v : Verdict) (h : t.cmdOf f q n = some c) (hp : c.phase ≠ .finished)
    (hs : c.status = 0) : (t.finish f q n v).Ended f q n v.status v.a v.b := by
  refine ⟨c.finish v, ?_, rfl, ?_, ?_, ?_⟩
  · rw [State.cmdOf_finish, h]; rfl
  all_goals rw [Cmd.finish_clean c v hp hs]

theorem State.Runs.ended {s : State} {f q n op : Nat} {used : List (Nat × Nat)} {c : Cmd} (h : s.Runs f q n op used c) (a b : Nat) :
    (s.done f q n a b).Ended f q n St.ok a b :=
  s.finish_ended f q n c ⟨St.ok, a, b⟩ h.cmd (by rw [h.phase]; decide) h.clean

theorem State.onlyCmd_modCmd (s : State) (f q n : Nat) (g : Cmd → Cmd) (h : ∀ c, (g c).n = c.n ∧ (g c).words = c.words) :
    s.OnlyCmd f q n (s.modCmd f q n g) := ⟨g, h, rfl⟩

theorem State.onlyCmd_done (s : State) (f q n a b : Nat) : s.OnlyCmd f q n (s.done f q n a b) :=
  ⟨fun c => c.finish ⟨St.ok, a, b⟩, fun _ => ⟨rfl, rfl⟩, rfl⟩

theorem State.only_modCmd (s : State) (f q n : Nat) (g : Cmd → Cmd) : s.Only [.cp] (s.modCmd f q n g) := by
  constructor <;> simp

/-- The shared form of a row that finishes at once with OK. -/
theorem finishes_done {i : Instr} {s : State} {f q n op : Nat} {used : List (Nat × Nat)} {c : Cmd} (h : s.Runs f q n op used c)
    (a b : Nat) (e : exec i s = .next (s.done f q n a b)) : Finishes i s f q n St.ok a b :=
  ⟨_, e, h.ended a b, s.onlyCmd_done f q n a b, s.only_modCmd f q n _⟩

/-- The same for a stage that makes no check. -/
theorem finishes_started {i : Instr} {s : State} {f q n op : Nat} {c : Cmd} (h : s.started f q n op = some c) (hs : c.status = 0)
    (a b : Nat) (e : exec i s = .next (s.done f q n a b)) : Finishes i s f q n St.ok a b := by
  obtain ⟨hc, hp, _⟩ := s.started_cases f q n op c h
  exact ⟨_, e, s.finish_ended f q n c ⟨St.ok, a, b⟩ hc (by rw [hp]; decide) hs, s.onlyCmd_done f q n a b, s.only_modCmd f q n _⟩

/-- A state that still holds the running command, changed in no more than its own work. -/
theorem State.Runs.ended_of {s : State} {f q n op : Nat} {used : List (Nat × Nat)} {c : Cmd} (h : s.Runs f q n op used c) (t : State)
    (d : Cmd) (hd : t.cmdOf f q n = some d) (hp : d.phase = c.phase) (hs : d.status = c.status) (a b : Nat) :
    (t.done f q n a b).Ended f q n St.ok a b :=
  t.finish_ended f q n d ⟨St.ok, a, b⟩ hd (by rw [hp, h.phase]; decide) (by rw [hs, h.clean])

/-- A state with the same command interface in which the command then finishes. -/
theorem State.done_of {s t : State} {f q n op : Nat} {c : Cmd} (h : s.started f q n op = some c) (hs : c.status = 0) (hc : t.cp = s.cp)
    (a b : Nat) : (t.done f q n a b).Ended f q n St.ok a b ∧ s.OnlyCmd f q n (t.done f q n a b) := by
  obtain ⟨h1, hp, _⟩ := s.started_cases f q n op c h
  exact ⟨t.finish_ended f q n c ⟨St.ok, a, b⟩ (by rw [State.cmdOf_cp _ _ _ _ _ hc, h1]) (by rw [hp]; decide) hs,
    fun c => c.finish ⟨St.ok, a, b⟩, fun _ => ⟨rfl, rfl⟩, State.modCmd_cp _ _ _ _ _ _ hc⟩

/-- The shared form of a row that notes its own work and finishes at once with OK. -/
theorem finishes_work {i : Instr} {s : State} {f q n op : Nat} {used : List (Nat × Nat)} {c : Cmd} (h : s.Runs f q n op used c)
    (w : Work) (a b : Nat) (e : exec i s = .next ((s.setWork f q n w).done f q n a b)) : Finishes i s f q n St.ok a b := by
  refine ⟨_, e, ?_, ?_, ?_⟩
  · exact h.ended_of _ { c with work := w, begun := true } (by rw [State.cmdOf_setWork, h.cmd]; rfl) rfl rfl a b
  · refine ⟨fun c => ({ c with work := w, begun := true } : Cmd).finish ⟨St.ok, a, b⟩, fun _ => ⟨rfl, rfl⟩, ?_⟩
    exact congrArg State.cp (State.modCmd_modCmd s f q n _ _ (fun _ => rfl))
  · constructor <;> simp

end Sys2Proof.Machine
end

