-- ==== Sys2Proof/Laws/Frame.lean ====
section
/-! SUPPORT. Which groups of the state the shared operations touch: how such frames compose, and one lemma per operation. -/
namespace Sys2Proof.Machine

theorem State.Only.refl (gs : List Group) (s : State) : s.Only gs s := by constructor <;> simp

theorem or_trans_eq {α : Type} {p : Prop} {a b c : α} (h : p ∨ b = a) (k : p ∨ c = b) : p ∨ c = a := by
  rcases h with h | h
  · exact .inl h
  · rcases k with k | k
    · exact .inl k
    · exact .inr (k.trans h)

theorem State.Only.trans {gs : List Group} {s t u : State} (h : s.Only gs t) (k : t.Only gs u) : s.Only gs u :=
  ⟨k.1.trans h.1, or_trans_eq h.2 k.2, or_trans_eq h.3 k.3, or_trans_eq h.4 k.4, or_trans_eq h.5 k.5, or_trans_eq h.6 k.6,
   or_trans_eq h.7 k.7, or_trans_eq h.8 k.8, or_trans_eq h.9 k.9, or_trans_eq h.10 k.10, or_trans_eq h.11 k.11,
   or_trans_eq h.12 k.12, or_trans_eq h.13 k.13, or_trans_eq h.14 k.14, or_trans_eq h.15 k.15, or_trans_eq h.16 k.16,
   or_trans_eq h.17 k.17, or_trans_eq h.18 k.18, or_trans_eq h.19 k.19⟩

theorem or_mono_mem {g : Group} {gs hs : List Group} {p : Prop} (m : ∀ x ∈ gs, x ∈ hs) (h : g ∈ gs ∨ p) : g ∈ hs ∨ p := by
  rcases h with h | h
  · exact .inl (m g h)
  · exact .inr h

/-- A frame that allows more. -/
theorem State.Only.mono {gs : List Group} (hs : List Group) {s t : State} (h : s.Only gs t) (m : ∀ x ∈ gs, x ∈ hs) : s.Only hs t :=
  ⟨h.1, or_mono_mem m h.2, or_mono_mem m h.3, or_mono_mem m h.4, or_mono_mem m h.5, or_mono_mem m h.6, or_mono_mem m h.7,
   or_mono_mem m h.8, or_mono_mem m h.9, or_mono_mem m h.10, or_mono_mem m h.11, or_mono_mem m h.12, or_mono_mem m h.13,
   or_mono_mem m h.14, or_mono_mem m h.15, or_mono_mem m h.16, or_mono_mem m h.17, or_mono_mem m h.18, or_mono_mem m h.19⟩

theorem State.Only.foldl {α : Type} {gs : List Group} {s t : State} (l : List α) (g : State → α → State) (h : s.Only gs t)
    (hg : ∀ (u : State) x, u.Only gs (g u x)) : s.Only gs (l.foldl g t) := by
  induction l generalizing t with
  | nil => exact h
  | cons x l ih => exact ih (h.trans (hg t x))

/-! ### One group set -/

theorem State.only_set_cp (s : State) (x : Cp) : s.Only [.cp] { s with cp := x } := by constructor <;> simp
theorem State.only_set_parts (s : State) (x : Parts) : s.Only [.parts] { s with parts := x } := by constructor <;> simp
theorem State.only_set_ctxs (s : State) (x : Tbl Context) : s.Only [.ctxs] { s with ctxs := x } := by constructor <;> simp
theorem State.only_set_cores (s : State) (x : Tbl Core) : s.Only [.cores] { s with cores := x } := by constructor <;> simp
theorem State.only_set_slots (s : State) (x : Tbl (Option Slot)) : s.Only [.slots] { s with slots := x } := by constructor <;> simp
theorem State.only_set_cmem (s : State) (x : List Host.Cell) : s.Only [.cmem] { s with cmem := x } := by constructor <;> simp
theorem State.only_set_sram (s : State) (x : List Host.Cell) : s.Only [.sram] { s with sram := x } := by constructor <;> simp
theorem State.only_set_tiers (s : State) (x : Tiers) : s.Only [.tiers] { s with tiers := x } := by constructor <;> simp
theorem State.only_set_kv (s : State) (x : Kv) : s.Only [.kv] { s with kv := x } := by constructor <;> simp
theorem State.only_set_sess (s : State) (x : Tbl Session) : s.Only [.sess] { s with sess := x } := by constructor <;> simp
theorem State.only_set_router (s : State) (x : Tbl RouterLayer) : s.Only [.router] { s with router := x } := by constructor <;> simp
theorem State.only_set_store (s : State) (x : Store) : s.Only [.store] { s with store := x } := by constructor <;> simp
theorem State.only_set_fab (s : State) (x : Fab) : s.Only [.fab] { s with fab := x } := by constructor <;> simp
theorem State.only_set_mgmt (s : State) (x : Mgmt) : s.Only [.mgmt] { s with mgmt := x } := by constructor <;> simp
theorem State.only_set_isl (s : State) (x : Tbl Island) : s.Only [.isl] { s with isl := x } := by constructor <;> simp
theorem State.only_set_power (s : State) (x : Power) : s.Only [.power] { s with power := x } := by constructor <;> simp
theorem State.only_set_host (s : State) (x : HostSide) : s.Only [.host] { s with host := x } := by constructor <;> simp
theorem State.only_set_free (s : State) (x : Nat) : s.Only [.free] { s with free := x } := by constructor <;> simp

/-! ### The shared operations -/

theorem State.only_modFn (s : State) (f : Nat) (g : Fn → Fn) : s.Only [.cp] (s.modFn f g) := by constructor <;> simp
theorem State.only_modQueue (s : State) (f q : Nat) (g : Queue → Queue) : s.Only [.cp] (s.modQueue f q g) := by constructor <;> simp
theorem State.only_modCmd' (s : State) (f q n : Nat) (g : Cmd → Cmd) : s.Only [.cp] (s.modCmd f q n g) := by constructor <;> simp
theorem State.only_modCtx (s : State) (c : Nat) (g : Context → Context) : s.Only [.ctxs] (s.modCtx c g) := by constructor <;> simp
theorem State.only_modCore (s : State) (c : Nat) (g : Core → Core) : s.Only [.cores] (s.modCore c g) := by constructor <;> simp
theorem State.only_modLayout (s : State) (c l : Nat) (g : Layout → Layout) : s.Only [.ctxs] (s.modLayout c l g) := by
  constructor <;> simp
theorem State.only_modIsl (s : State) (k : Nat) (g : Island → Island) : s.Only [.isl] (s.modIsl k g) := by constructor <;> simp
theorem State.only_modPort (s : State) (k : Nat) (g : Port → Port) : s.Only [.fab] (s.modPort k g) := by constructor <;> simp
theorem State.only_modCirc (s : State) (k : Nat) (g : Circuit → Circuit) : s.Only [.fab] (s.modCirc k g) := by constructor <;> simp
theorem State.only_freeNext (s : State) (k : Nat) : s.Only [.free] (s.freeNext k) := by constructor <;> simp
theorem State.only_logAppend (s : State) (r : List Word) : s.Only [.mgmt] (s.logAppend r) := by
  constructor <;> simp [State.logAppend]

/-- What a showdown touches. -/
abbrev showGroups : List Group := [.isl, .mgmt, .cores, .power, .ctxs, .free]

theorem State.only_showRecord (s : State) : s.Only showGroups s.showRecord := by
  have h : ∀ (r : List Word) (k : Nat), s.Only showGroups ((s.logAppend r).freeNext k) := fun r k =>
    ((State.only_logAppend s r).mono _ (by decide)).trans ((State.only_freeNext _ k).mono _ (by decide))
  exact (h _ 2).trans ((State.only_set_mgmt _ _).mono _ (by decide))

theorem State.only_showCheck (s : State) : s.Only showGroups s.showCheck := by
  unfold State.showCheck
  split
  · exact s.only_showRecord
  · exact State.Only.refl _ _

theorem State.only_showStart (s : State) (n : Nat) : s.Only showGroups (s.showStart n) := by
  unfold State.showStart
  refine State.Only.foldl _ _ ?_ ?_
  · constructor <;> simp [showGroups]
  · intro u x
    exact (State.only_modLayout u _ _ _).mono showGroups (by decide)

theorem State.only_latchTree (s : State) (b : Bool) : s.Only showGroups (s.latchTree b) := by
  constructor <;> simp [State.latchTree, showGroups]

/-- A showdown trigger touches the islands' latches, the log, the latched items, the snapshot registers and the pin. -/
theorem State.only_trigger (s : State) (cut drive : Bool) : s.Only showGroups (s.trigger cut drive) := by
  unfold State.trigger
  dsimp only
  split
  · constructor <;> simp [showGroups]
  · have h1 : s.Only showGroups { s with
      mgmt := { s.mgmt with showNum := if s.mgmt.showNum = 65535 then 1 else s.mgmt.showNum + 1, showHeld := true, showCut := cut,
                            showIncomplete := false, showRecorded := false },
      cores := tmap {} s.cores (fun _ c => { c with snapLatched := false, snapIn := [] }),
      power := if drive then { s.power with showdownDrive := s.power.showdownDrive + 1 } else s.power } := by
      constructor <;> simp [showGroups]
    have h2 := h1.trans (State.only_latchTree _ (!cut))
    split
    · exact (h2.trans (State.only_showStart _ _)).trans (State.only_showCheck _)
    · exact h2.trans (State.only_showRecord _)

theorem State.only_classTrigger (s : State) (cls : Nat) : s.Only showGroups (s.classTrigger cls) := by
  unfold State.classTrigger
  split
  · split
    · split
      · refine State.Only.trans ?_ (State.only_trigger _ _ _)
        constructor <;> simp [showGroups]
      · exact State.Only.refl _ _
    · exact State.Only.refl _ _
  · exact State.Only.refl _ _

theorem State.only_reportTy (s : State) (ty island cls code : Nat) (ctx : Option Nat) (detail : Nat) :
    s.Only showGroups (s.reportTy ty island cls code ctx detail) := by
  unfold State.reportTy
  exact ((s.only_modIsl _ _).mono _ (by decide)).trans (State.only_classTrigger _ _)

/-- An error report touches the reporting island's log, a free value, and what a showdown it triggers touches. -/
theorem State.only_report (s : State) (island cls code : Nat) (ctx : Option Nat) (detail : Nat) :
    s.Only showGroups (s.report island cls code ctx detail) := by
  unfold State.report
  exact (State.only_reportTy ..).trans ((State.only_freeNext _ _).mono _ (by decide))

/-! ### Messages -/

/-- What a message touches. -/
abbrev msgGroups : List Group := [.cp, .host]

theorem State.only_sendMsg (s : State) (f v : Nat) : s.Only msgGroups (s.sendMsg f v) := by
  constructor <;> simp [State.sendMsg, State.modVec, msgGroups]

theorem State.only_dueOnce (s : State) (f v : Nat) : s.Only msgGroups (s.dueOnce f v).1 := by
  unfold State.dueOnce
  dsimp only
  split
  · exact State.Only.refl _ _
  · split
    · exact (State.only_modFn ..).mono _ (by decide)
    · split
      · exact (State.only_modFn ..).mono _ (by decide)
      · split
        · exact (State.only_modFn ..).mono _ (by decide)
        · exact State.only_sendMsg ..

theorem State.only_markCause (s : State) (p b : Nat) : s.Only msgGroups (s.markCause p b).1 := by
  unfold State.markCause
  dsimp only
  split
  · exact State.Only.refl _ _
  · exact (State.only_modFn ..).mono _ (by decide)

theorem State.only_due (s : State) (f v : Nat) : s.Only msgGroups (s.due f v) := by
  unfold State.due
  have h := s.only_dueOnce f v
  revert h
  rcases s.dueOnce f v with ⟨s1, held⟩
  intro h
  dsimp only at *
  split
  · have k := s1.only_markCause f 6
    revert k
    rcases s1.markCause f 6 with ⟨s2, m⟩
    intro k
    dsimp only at *
    split
    · exact (h.trans k).trans (State.only_dueOnce ..)
    · exact h.trans k
  · exact h

/-- An interrupt cause touches its function's registers and what the host received. -/
theorem State.only_cause (s : State) (p b : Nat) : s.Only msgGroups (s.cause p b) := by
  unfold State.cause
  have h := s.only_markCause p b
  revert h
  rcases s.markCause p b with ⟨s1, m⟩
  intro h
  dsimp only at *
  split
  · exact h.trans (State.only_due ..)
  · exact h

end Sys2Proof.Machine
end

