-- ==== Sys2Proof/Laws/Keep.lean ====
section
/-! SUPPORT. What every operation over the state keeps: the queue of waiting commands, the order of free values, and the invariant.
`Keep` is said from a starting state r, so that the lemmas of operations compose: each takes what its argument keeps. -/
namespace Sys2Proof.Machine

/-- From r to t the queue of commands is untouched, no free value is taken twice, and the invariant is carried on. -/
structure Keep (r t : State) : Prop where
  pending : t.pending = r.pending
  free    : r.free ≤ t.free
  inv     : r.Inv → t.Inv

theorem Keep.refl (s : State) : Keep s s := ⟨rfl, Nat.le_refl _, id⟩

theorem Keep.trans {a b c : State} (h : Keep a b) (k : Keep b c) : Keep a c :=
  ⟨k.pending.trans h.pending, Nat.le_trans h.free k.free, fun i => k.inv (h.inv i)⟩

/-- An update of fields keeps what its base keeps where the memories and the log it writes stay well kept. -/
theorem Keep.upd {r u : State} {cp : Cp} {parts : Parts} {ctxs : Tbl Context} {cores : Tbl Core} {slots : Tbl (Option Slot)}
    {cmem sram : List Host.Cell} {tiers : Tiers} {kv : Kv} {sess : Tbl Session} {router : Tbl RouterLayer} {store : Store}
    {fab : Fab} {mgmt : Mgmt} {isl : Tbl Island} {power : Power} {host : HostSide} {free : Nat}
    (h : Keep r u) (hf : u.free ≤ free)
    (hc : cellsWf u.cmem = true → cellsWf cmem = true) (hs : cellsWf u.sram = true → cellsWf sram = true)
    (ht : u.tiers.wf = true → tiers.wf = true) (hh : cellsWf u.host.mem = true → cellsWf host.mem = true)
    (hm : u.mgmt.wf = true → mgmt.wf = true) :
    Keep r ⟨u.pending, cp, parts, ctxs, cores, slots, cmem, sram, tiers, kv, sess, router, store, fab, mgmt, isl, power, host,
      free⟩ :=
  h.trans ⟨rfl, hf, fun i => ⟨hc i.cmem, hs i.sram, ht i.tiers, hh i.host, hm i.mgmt⟩⟩

theorem Keep.foldl {α : Type} {r s : State} {l : List α} {g : State → α → State}
    (h : Keep r s) (hg : ∀ u x, Keep r u → Keep r (g u x)) : Keep r (l.foldl g s) := by
  induction l generalizing s with
  | nil => exact h
  | cons x l ih => exact ih (hg s x h)

theorem Keep.foldlFst {α β : Type} {r : State} {l : List β} {g : State × α → β → State × α} {a : State × α} (h : Keep r a.1)
    (hg : ∀ a x, Keep r a.1 → Keep r (g a x).1) : Keep r (l.foldl g a).1 := by
  induction l generalizing a with
  | nil => exact h
  | cons x l ih => exact ih (hg a x h)

theorem Keep.foldlSnd {α β : Type} {r : State} {l : List β} {g : α × State → β → α × State} {a : α × State} (h : Keep r a.2)
    (hg : ∀ a x, Keep r a.2 → Keep r (g a x).2) : Keep r (l.foldl g a).2 := by
  induction l generalizing a with
  | nil => exact h
  | cons x l ih => exact ih (hg a x h)

theorem Keep.foldr {α : Type} {r s : State} {l : List α} {g : α → State → State}
    (h : Keep r s) (hg : ∀ x u, Keep r u → Keep r (g x u)) : Keep r (l.foldr g s) := by
  induction l with
  | nil => exact h
  | cons x l ih => exact hg x _ ih

/-- Of an outcome: a next state keeps. -/
structure KeepOut (r : State) (o : Out) : Prop where
  out : ∀ t, o = .next t → Keep r t

theorem KeepOut.next {r t : State} (h : Keep r t) : KeepOut r (.next t) := ⟨fun _ e => by cases e; exact h⟩

theorem KeepOut.refused {r : State} {x : Refusal} : KeepOut r (.refused x) := ⟨fun _ e => by cases e⟩

theorem KeepOut.onlyIf {r s t : State} {c : Bool} (hs : Keep r s) (ht : Keep r t) : KeepOut r (onlyIf c s t) := by
  refine KeepOut.next ?_
  cases c
  · exact hs
  · exact ht

/-- Of what may hold a state: a state it holds keeps. -/
structure KeepOpt (r : State) (o : Option State) : Prop where
  out : ∀ t, o = some t → Keep r t

theorem KeepOpt.none {r : State} : KeepOpt r none := ⟨fun _ e => by cases e⟩
theorem KeepOpt.some {r t : State} (h : Keep r t) : KeepOpt r (some t) := ⟨fun _ e => by cases e; exact h⟩
theorem KeepOpt.elim {r t : State} {o : Option State} (e : o = Option.some t) (h : KeepOpt r o) : Keep r t := h.out t e
theorem KeepOpt.getD {r s : State} {o : Option State} (h : KeepOpt r o) (hs : Keep r s) : Keep r (o.getD s) := by
  cases o with
  | none => exact hs
  | some t => exact h.out t rfl
theorem KeepOpt.map {α : Type} {r : State} {o : Option α} {g : α → State} (h : ∀ x, Keep r (g x)) : KeepOpt r (o.map g) := by
  cases o with
  | none => exact KeepOpt.none
  | some t => exact KeepOpt.some (h t)
theorem KeepOpt.bind {r : State} {o : Option State} {g : State → Option State} (ho : KeepOpt r o)
    (h : ∀ u, Keep r u → KeepOpt r (g u)) : KeepOpt r (o.bind g) := by
  cases o with
  | none => exact KeepOpt.none
  | some t => exact h t (ho.out t rfl)

/-- Of a pair that may be held: its state keeps. -/
structure KeepOptSnd {α : Type} (r : State) (o : Option (α × State)) : Prop where
  out : ∀ x t, o = some (x, t) → Keep r t

theorem KeepOptSnd.none {α : Type} {r : State} : KeepOptSnd (α := α) r none := ⟨fun _ _ e => by cases e⟩
theorem KeepOptSnd.some {α : Type} {r t : State} {x : α} (h : Keep r t) : KeepOptSnd r (some (x, t)) :=
  ⟨fun _ _ e => by cases e; exact h⟩
theorem KeepOptSnd.elim {α : Type} {r t : State} {x : α} {o : Option (α × State)} (e : o = Option.some (x, t))
    (h : KeepOptSnd r o) : Keep r t := h.out x t e
theorem KeepOptSnd.snd {α : Type} {r : State} {p : α × State} {o : Option (α × State)} (e : o = Option.some p)
    (h : KeepOptSnd r o) : Keep r p.2 := h.out p.1 p.2 e
theorem KeepOptSnd.again {α : Type} {r : State} {p : α × State} {o : Option (α × State)} (e : o = Option.some p)
    (h : KeepOptSnd r o) : KeepOptSnd r (Option.some p) := e ▸ h
theorem KeepOptSnd.bind {α : Type} {r : State} {o : Option State} {g : State → Option (α × State)} (ho : KeepOpt r o)
    (h : ∀ u, Keep r u → KeepOptSnd r (g u)) : KeepOptSnd r (o.bind g) := by
  cases o with
  | none => exact KeepOptSnd.none
  | some t => exact h t (ho.out t rfl)

/-- Of a state or a verdict: the state keeps. -/
structure KeepExc (r : State) (o : Except Verdict State) : Prop where
  out : ∀ t, o = .ok t → Keep r t

theorem KeepExc.error {r : State} {v : Verdict} : KeepExc r (.error v) := ⟨fun _ e => by cases e⟩
theorem KeepExc.ok {r t : State} (h : Keep r t) : KeepExc r (.ok t) := ⟨fun _ e => by cases e; exact h⟩
theorem KeepExc.elim {r t : State} {o : Except Verdict State} (e : o = .ok t) (h : KeepExc r o) : Keep r t := h.out t e

/-- Of a pair or a verdict: the state keeps. -/
structure KeepExcSnd {α : Type} (r : State) (o : Except Verdict (α × State)) : Prop where
  out : ∀ x t, o = .ok (x, t) → Keep r t

theorem KeepExcSnd.error {α : Type} {r : State} {v : Verdict} : KeepExcSnd (α := α) r (.error v) := ⟨fun _ _ e => by cases e⟩
theorem KeepExcSnd.ok {α : Type} {r t : State} {x : α} (h : Keep r t) : KeepExcSnd r (.ok (x, t)) :=
  ⟨fun _ _ e => by cases e; exact h⟩
theorem KeepExcSnd.elim {α : Type} {r t : State} {x : α} {o : Except Verdict (α × State)} (e : o = .ok (x, t))
    (h : KeepExcSnd r o) : Keep r t := h.out x t e

theorem KeepOpt.foldl {α : Type} {r : State} {l : List α} {g : Option State → α → Option State} {o : Option State}
    (h : KeepOpt r o) (hg : ∀ a x, KeepOpt r a → KeepOpt r (g a x)) : KeepOpt r (l.foldl g o) := by
  induction l generalizing o with
  | nil => exact h
  | cons x l ih => exact ih (hg o x h)
theorem KeepOpt.mapSnd {α : Type} {r : State} {o : Option (α × State)} {g : α × State → State} (h : KeepOptSnd r o)
    (hg : ∀ x u, Keep r u → Keep r (g (x, u))) : KeepOpt r (o.map g) := by
  cases o with
  | none => exact KeepOpt.none
  | some p => exact KeepOpt.some (hg p.1 p.2 (h.out p.1 p.2 rfl))
theorem KeepOpt.bindSnd {α : Type} {r : State} {o : Option (α × State)} {g : α × State → Option State} (h : KeepOptSnd r o)
    (hg : ∀ x u, Keep r u → KeepOpt r (g (x, u))) : KeepOpt r (o.bind g) := by
  cases o with
  | none => exact KeepOpt.none
  | some p => exact hg p.1 p.2 (h.out p.1 p.2 rfl)
theorem KeepOptSnd.mapSnd {α β : Type} {r : State} {o : Option (α × State)} {g : α × State → β × State} (h : KeepOptSnd r o)
    (hg : ∀ x u, Keep r u → Keep r (g (x, u)).2) : KeepOptSnd r (o.map g) := by
  cases o with
  | none => exact KeepOptSnd.none
  | some p =>
    refine ⟨fun x t e => ?_⟩
    have h2 : Keep r (g p).2 := hg p.1 p.2 (h.out p.1 p.2 rfl)
    rw [Option.some.inj e] at h2
    exact h2
theorem KeepOpt.findSome {α : Type} {r : State} {l : List α} {g : α → Option State} (h : ∀ x, KeepOpt r (g x)) :
    KeepOpt r (l.findSome? g) := by
  induction l with
  | nil => exact KeepOpt.none
  | cons x l ih =>
    refine ⟨fun t e => ?_⟩
    rw [List.findSome?_cons] at e
    split at e
    · rename_i e'
      cases e
      exact (h x).out t e'
    · exact ih.out t e
theorem KeepExc.foldl {α : Type} {r : State} {l : List α} {g : Except Verdict State → α → Except Verdict State}
    {o : Except Verdict State} (h : KeepExc r o) (hg : ∀ a x, KeepExc r a → KeepExc r (g a x)) : KeepExc r (l.foldl g o) := by
  induction l generalizing o with
  | nil => exact h
  | cons x l ih => exact ih (hg o x h)
theorem KeepExc.bind {r : State} {o : Except Verdict State} {g : State → Except Verdict State} (h : KeepExc r o)
    (hg : ∀ u, Keep r u → KeepExc r (g u)) : KeepExc r (o.bind g) := by
  cases o with
  | error v => exact KeepExc.error
  | ok t => exact hg t (h.out t rfl)
theorem KeepExc.bindSnd {α : Type} {r : State} {o : Except Verdict (α × State)} {g : α × State → Except Verdict State}
    (h : KeepExcSnd r o) (hg : ∀ x u, Keep r u → KeepExc r (g (x, u))) : KeepExc r (o.bind g) := by
  cases o with
  | error v => exact KeepExc.error
  | ok p => exact hg p.1 p.2 (h.out p.1 p.2 rfl)
theorem KeepExc.mapSnd {α : Type} {r : State} {o : Except Verdict (α × State)} {g : α × State → State} (h : KeepExcSnd r o)
    (hg : ∀ x u, Keep r u → Keep r (g (x, u))) : KeepExc r (o.map g) := by
  cases o with
  | error v => exact KeepExc.error
  | ok p => exact KeepExc.ok (hg p.1 p.2 (h.out p.1 p.2 rfl))
theorem KeepExc.map {r : State} {o : Except Verdict State} {g : State → State}
    (h : KeepExc r o) (hg : ∀ u, Keep r u → Keep r (g u)) : KeepExc r (o.map g) := by
  cases o with
  | error v => exact KeepExc.error
  | ok t => exact KeepExc.ok (hg t (h.out t rfl))
theorem KeepExcSnd.foldl {α β : Type} {r : State} {l : List α} {g : Except Verdict (β × State) → α → Except Verdict (β × State)}
    {o : Except Verdict (β × State)} (h : KeepExcSnd r o) (hg : ∀ a x, KeepExcSnd r a → KeepExcSnd r (g a x)) :
    KeepExcSnd r (l.foldl g o) := by
  induction l generalizing o with
  | nil => exact h
  | cons x l ih => exact ih (hg o x h)
theorem KeepExcSnd.bindSnd {α β : Type} {r : State} {o : Except Verdict (α × State)} {g : α × State → Except Verdict (β × State)}
    (h : KeepExcSnd r o) (hg : ∀ x u, Keep r u → KeepExcSnd r (g (x, u))) : KeepExcSnd r (o.bind g) := by
  cases o with
  | error v => exact KeepExcSnd.error
  | ok p => exact hg p.1 p.2 (h.out p.1 p.2 rfl)
theorem KeepExcSnd.mapSnd {α β : Type} {r : State} {o : Except Verdict (α × State)} {g : α × State → β × State}
    (h : KeepExcSnd r o) (hg : ∀ x u, Keep r u → Keep r (g (x, u)).2) : KeepExcSnd r (o.map g) := by
  cases o with
  | error v => exact KeepExcSnd.error
  | ok p =>
    refine ⟨fun x t e => ?_⟩
    have h2 : Keep r (g p).2 := hg p.1 p.2 (h.out p.1 p.2 rfl)
    rw [Except.ok.inj e] at h2
    exact h2
theorem KeepExcSnd.map {β : Type} {r : State} {o : Except Verdict State} {g : State → β × State}
    (h : KeepExc r o) (hg : ∀ u, Keep r u → Keep r (g u).2) : KeepExcSnd r (o.map g) := by
  cases o with
  | error v => exact KeepExcSnd.error
  | ok p =>
    refine ⟨fun x t e => ?_⟩
    have h2 := hg p (h.out p rfl)
    rw [Except.ok.inj e] at h2
    exact h2

/-- Of the atomic step of a commit: the state it leaves or waits in keeps. -/
structure KeepCom (r : State) (o : Commit) : Prop where
  ok : ∀ t a b, o = .ok t a b → Keep r t
  wait : ∀ t, o = .wait t → Keep r t

theorem KeepCom.fail {r : State} {v : Verdict} : KeepCom r (.fail v) := ⟨fun _ _ _ e => (by cases e), fun _ e => (by cases e)⟩
theorem KeepCom.prep {r : State} {i tier : Nat} : KeepCom r (.prep i tier) := ⟨fun _ _ _ e => (by cases e), fun _ e => (by cases e)⟩
theorem KeepCom.okOf {r t : State} {a b : Nat} (h : Keep r t) : KeepCom r (.ok t a b) :=
  ⟨fun _ _ _ e => (by cases e; exact h), fun _ e => (by cases e)⟩
theorem KeepCom.waitOf {r t : State} (h : Keep r t) : KeepCom r (.wait t) :=
  ⟨fun _ _ _ e => (by cases e), fun _ e => (by cases e; exact h)⟩
theorem KeepCom.ofOk {r t : State} {a b : Nat} {o : Commit} (e : o = .ok t a b) (h : KeepCom r o) : Keep r t := h.ok t a b e
theorem KeepCom.ofWait {r t : State} {o : Commit} (e : o = .wait t) (h : KeepCom r o) : Keep r t := h.wait t e

theorem Keep.ofFst {α : Type} {r t : State} {x : α} {p : State × α} (e : p = (t, x)) (h : Keep r p.1) : Keep r t := by
  subst e; exact h
theorem Keep.ofSnd {α : Type} {r t : State} {x : α} {p : α × State} (e : p = (x, t)) (h : Keep r p.2) : Keep r t := by
  subst e; exact h
theorem Keep.fstMk {α : Type} {r t : State} {x : α} (h : Keep r t) : Keep r (t, x).1 := h
theorem Keep.sndMk {α : Type} {r t : State} {x : α} (h : Keep r t) : Keep r (x, t).2 := h
theorem Keep.ofEqFst {α : Type} {r : State} {p q : State × α} (e : p = q) (h : Keep r p.1) : Keep r q.1 := e ▸ h
theorem Keep.ite {r s t : State} {c : Prop} [Decidable c] (hs : Keep r s) (ht : Keep r t) : Keep r (if c then s else t) := by
  split
  · exact hs
  · exact ht

/-! ### Groups -/

theorem Tiers.wf_mem {t : Tiers} (h : t.wf = true) : cellsWf t.mem = true := (Bool.and_eq_true_iff.1 h).1
theorem Tiers.wf_peer {t : Tiers} (h : t.wf = true) : cellsWf t.peerBuf = true := (Bool.and_eq_true_iff.1 h).2
theorem Tiers.wf_of {t : Tiers} (a : cellsWf t.mem = true) (b : cellsWf t.peerBuf = true) : t.wf = true :=
  Bool.and_eq_true_iff.2 ⟨a, b⟩

theorem Tiers.wf_congr {t u : Tiers} (h : t.wf = true) (a : u.mem = t.mem) (b : u.peerBuf = t.peerBuf) : u.wf = true := by
  simpa [Tiers.wf, a, b] using h
theorem Tiers.wf_upd {t u : Tiers} (h : t.wf = true) (a : cellsWf t.mem = true → cellsWf u.mem = true)
    (b : cellsWf t.peerBuf = true → cellsWf u.peerBuf = true) : u.wf = true :=
  Tiers.wf_of (a (Tiers.wf_mem h)) (b (Tiers.wf_peer h))
theorem Mgmt.wf_congr {m n : Mgmt} (h : m.wf = true) (a : n.reqArea = m.reqArea) (b : n.respArea = m.respArea)
    (c : n.recoverImg = m.recoverImg) (d : n.fw = m.fw) (e : n.cfg = m.cfg) (f : n.log = m.log) : n.wf = true := by
  simpa [Mgmt.wf, a, b, c, d, e, f] using h

theorem Slots.wf_of {x : Slots} (a : cellsWf x.a = true) (b : cellsWf x.b = true) : x.wf = true :=
  Bool.and_eq_true_iff.2 ⟨a, b⟩
theorem Slots.wf_a {x : Slots} (h : x.wf = true) : cellsWf x.a = true := (Bool.and_eq_true_iff.1 h).1
theorem Slots.wf_b {x : Slots} (h : x.wf = true) : cellsWf x.b = true := (Bool.and_eq_true_iff.1 h).2

theorem Mgmt.wf_iff (m : Mgmt) : m.wf = true ↔ cellsWf m.reqArea = true ∧ cellsWf m.respArea = true ∧
    cellsWf m.recoverImg = true ∧ m.fw.wf = true ∧ m.cfg.wf = true ∧ m.log.length ≤ 8192 := by
  simp [Mgmt.wf, and_assoc]

theorem Mgmt.modSlots_wf {m : Mgmt} (kind : Nat) {u : Slots → Slots} (h : m.wf = true)
    (a : m.fw.wf = true → (u m.fw).wf = true) (b : m.cfg.wf = true → (u m.cfg).wf = true) : (m.modSlots kind u).wf = true := by
  rw [Mgmt.wf_iff] at h
  unfold Mgmt.modSlots
  split
  · rw [Mgmt.wf_iff]; exact ⟨h.1, h.2.1, h.2.2.1, a h.2.2.2.1, h.2.2.2.2.1, h.2.2.2.2.2⟩
  · rw [Mgmt.wf_iff]; exact ⟨h.1, h.2.1, h.2.2.1, h.2.2.2.1, b h.2.2.2.2.1, h.2.2.2.2.2⟩

theorem Slots.wf_upd {x y : Slots} (h : x.wf = true) (a : cellsWf x.a = true → cellsWf y.a = true)
    (b : cellsWf x.b = true → cellsWf y.b = true) : y.wf = true :=
  Slots.wf_of (a (Slots.wf_a h)) (b (Slots.wf_b h))
theorem Slots.cells_wf {x : Slots} (b : Bool) (h : x.wf = true) : cellsWf (x.cells b) = true := by
  unfold Slots.cells
  split
  · exact Slots.wf_b h
  · exact Slots.wf_a h
theorem Slots.setCells_wf {x : Slots} (b : Bool) {m : List Host.Cell} (h : x.wf = true) (hm : cellsWf m = true) :
    (x.setCells b m).wf = true := by
  unfold Slots.setCells
  split
  · exact Slots.wf_upd h id (fun _ => hm)
  · exact Slots.wf_upd h (fun _ => hm) id
theorem Slots.wf_congr {x y : Slots} (h : x.wf = true) (a : y.a = x.a) (b : y.b = x.b) : y.wf = true := by
  simpa [Slots.wf, a, b] using h
theorem Slots.settle_wf (x : Slots) : x.settle.wf = x.wf := by
  unfold Slots.settle; split <;> rfl
theorem Slots.giveUp_wf (x : Slots) : x.giveUp.wf = x.wf := by
  unfold Slots.giveUp; split <;> rfl
theorem Slots.select_wf {x y : Slots} {ok : List Host.Cell → Bool} {a b : Bool} (h : x.wf = true)
    (e : x.select ok = some (y, a, b)) : y.wf = true := by
  unfold Slots.select at e
  extract_lets stale x0 first at e
  have h0 : x0.wf = true := by
    show Slots.wf (if stale then _ else x) = true
    split
    · exact Slots.wf_congr h rfl rfl
    · exact h
  clear_value x0
  obtain ⟨c, -, hc⟩ := Option.map_eq_some_iff.1 e
  simp only [Prod.mk.injEq] at hc
  rw [← hc.1]
  exact Slots.wf_congr h0 rfl rfl

theorem Mgmt.slots_wf {m : Mgmt} {x y : Slots} (h : m.wf = true) (hx : x.wf = true) (hy : y.wf = true) :
    ({ m with fw := x, cfg := y } : Mgmt).wf = true := by
  rw [Mgmt.wf_iff] at *
  exact ⟨h.1, h.2.1, h.2.2.1, hx, hy, h.2.2.2.2.2⟩
theorem Mgmt.wf_fw {m : Mgmt} (h : m.wf = true) : m.fw.wf = true := ((Mgmt.wf_iff m).1 h).2.2.2.1
theorem Mgmt.wf_cfg {m : Mgmt} (h : m.wf = true) : m.cfg.wf = true := ((Mgmt.wf_iff m).1 h).2.2.2.2.1

end Sys2Proof.Machine
end

