-- ==== Sys2Proof/Laws/KeepOps.lean ====
section
/-! SUPPORT. What the operations and meanings of Machine/Ops.lean keep (`Keep`, Laws/Keep.lean). -/
set_option linter.all false

namespace Sys2Proof.Machine

theorem onlyIf_keep {r₀ : State} (c : Bool) {s t : State} (keep_s : Keep r₀ s) (keep_t : Keep r₀ t) :
    KeepOut r₀ (onlyIf c s t) := by
  unfold onlyIf
  repeat' first
    | with_reducible assumption
    | with_reducible exact Keep.refl _
    | with_reducible apply KeepOut.next
    | with_reducible apply KeepOut.onlyIf
    | with_reducible exact KeepOut.refused
    | intro _
    | split
    | extract_lets

theorem State.modFn_keep {r₀ : State} {s : State} (f : Nat) (g : Fn → Fn) (keep_s : Keep r₀ s) :
    Keep r₀ (State.modFn s f g) := by
  unfold State.modFn
  repeat' first
    | with_reducible assumption
    | with_reducible exact Keep.refl _
    | with_reducible exact Nat.le_refl _
    | with_reducible exact id
    | exact fun h => Mgmt.wf_congr h rfl rfl rfl rfl rfl rfl
    | exact fun h => Tiers.wf_congr h rfl rfl
    | exact fun _ => rfl
    | intro _
    | split
    | extract_lets
    | (with_reducible apply Keep.upd)

theorem State.modQueue_keep {r₀ : State} {s : State} (f q : Nat) (g : Queue → Queue) (keep_s : Keep r₀ s) :
    Keep r₀ (State.modQueue s f q g) := by
  unfold State.modQueue
  repeat' first
    | with_reducible assumption
    | with_reducible exact Keep.refl _
    | with_reducible apply State.modFn_keep
    | with_reducible exact Nat.le_refl _
    | with_reducible exact id
    | exact fun h => Mgmt.wf_congr h rfl rfl rfl rfl rfl rfl
    | exact fun h => Tiers.wf_congr h rfl rfl
    | exact fun _ => rfl
    | intro _
    | split
    | extract_lets
    | (with_reducible apply Keep.upd)

theorem State.modCmd_keep {r₀ : State} {s : State} (f q n : Nat) (g : Cmd → Cmd) (keep_s : Keep r₀ s) :
    Keep r₀ (State.modCmd s f q n g) := by
  unfold State.modCmd
  repeat' first
    | with_reducible assumption
    | with_reducible exact Keep.refl _
    | with_reducible apply State.modQueue_keep
    | with_reducible exact Nat.le_refl _
    | with_reducible exact id
    | exact fun h => Mgmt.wf_congr h rfl rfl rfl rfl rfl rfl
    | exact fun h => Tiers.wf_congr h rfl rfl
    | exact fun _ => rfl
    | intro _
    | split
    | extract_lets
    | (with_reducible apply Keep.upd)

theorem State.mapCmds_keep {r₀ : State} {s : State} (p : Nat → Nat → Cmd → Bool) (g : Cmd → Cmd) (keep_s : Keep r₀ s) :
    Keep r₀ (State.mapCmds s p g) := by
  unfold State.mapCmds
  repeat' first
    | with_reducible assumption
    | with_reducible exact Keep.refl _
    | with_reducible exact Nat.le_refl _
    | with_reducible exact id
    | exact fun h => Mgmt.wf_congr h rfl rfl rfl rfl rfl rfl
    | exact fun h => Tiers.wf_congr h rfl rfl
    | exact fun _ => rfl
    | intro _
    | split
    | extract_lets
    | (with_reducible apply Keep.upd)

theorem State.finish_keep {r₀ : State} {s : State} (f q n : Nat) (v : Verdict) (keep_s : Keep r₀ s) :
    Keep r₀ (State.finish s f q n v) := by
  unfold State.finish
  repeat' first
    | with_reducible assumption
    | with_reducible exact Keep.refl _
    | with_reducible apply State.modCmd_keep
    | intro _
    | split
    | extract_lets

theorem State.done_keep {r₀ : State} {s : State} (f q n a b : Nat) (keep_s : Keep r₀ s) :
    Keep r₀ (State.done s f q n a b) := by
  unfold State.done
  repeat' first
    | with_reducible assumption
    | with_reducible exact Keep.refl _
    | with_reducible apply State.finish_keep
    | with_reducible exact KeepExc.error
    | with_reducible apply KeepExc.ok
    | intro _
    | split
    | extract_lets

theorem State.setWork_keep {r₀ : State} {s : State} (f q n : Nat) (w : Work) (keep_s : Keep r₀ s) :
    Keep r₀ (State.setWork s f q n w) := by
  unfold State.setWork
  repeat' first
    | with_reducible assumption
    | with_reducible exact Keep.refl _
    | with_reducible apply State.modCmd_keep
    | with_reducible apply State.work_keep
    | with_reducible exact Nat.le_refl _
    | with_reducible exact id
    | exact fun h => Mgmt.wf_congr h rfl rfl rfl rfl rfl rfl
    | exact fun h => Tiers.wf_congr h rfl rfl
    | exact fun _ => rfl
    | intro _
    | split
    | extract_lets
    | (with_reducible apply Keep.upd)

theorem State.work_keep {r₀ : State} {s : State} (f q n op : Nat) (g : Cmd → State) (keep_s : Keep r₀ s) (keep_g : ∀ (x0 : Cmd), Keep r₀ (g x0)) :
    KeepOut r₀ (State.work s f q n op g) := by
  unfold State.work
  repeat' first
    | with_reducible assumption
    | with_reducible exact Keep.refl _
    | with_reducible apply keep_g
    | with_reducible apply KeepOut.next
    | with_reducible apply KeepOut.onlyIf
    | with_reducible exact KeepOut.refused
    | intro _
    | split
    | extract_lets

theorem State.checked_keep {r₀ : State} {s : State} (f q n : Nat) (c : Cmd) (cs : List Check) {t : State} (keep_s : Keep r₀ s) (keep_t : Keep r₀ t) :
    Keep r₀ (State.checked s f q n c cs t) := by
  unfold State.checked
  repeat' first
    | with_reducible assumption
    | with_reducible exact Keep.refl _
    | with_reducible apply State.finish_keep
    | intro _
    | split
    | extract_lets

theorem State.modPart_keep {r₀ : State} {s : State} (p : Nat) (g : Part → Part) (keep_s : Keep r₀ s) :
    Keep r₀ (State.modPart s p g) := by
  unfold State.modPart
  repeat' first
    | with_reducible assumption
    | with_reducible exact Keep.refl _
    | with_reducible exact Nat.le_refl _
    | with_reducible exact id
    | exact fun h => Mgmt.wf_congr h rfl rfl rfl rfl rfl rfl
    | exact fun h => Tiers.wf_congr h rfl rfl
    | exact fun _ => rfl
    | intro _
    | split
    | extract_lets
    | (with_reducible apply Keep.upd)

theorem State.modCore_keep {r₀ : State} {s : State} (c : Nat) (g : Core → Core) (keep_s : Keep r₀ s) :
    Keep r₀ (State.modCore s c g) := by
  unfold State.modCore
  repeat' first
    | with_reducible assumption
    | with_reducible exact Keep.refl _
    | with_reducible exact Nat.le_refl _
    | with_reducible exact id
    | exact fun h => Mgmt.wf_congr h rfl rfl rfl rfl rfl rfl
    | exact fun h => Tiers.wf_congr h rfl rfl
    | exact fun _ => rfl
    | intro _
    | split
    | extract_lets
    | (with_reducible apply Keep.upd)

theorem State.modHand_keep {r₀ : State} {s : State} (c h : Nat) (g : Hand → Hand) (keep_s : Keep r₀ s) :
    Keep r₀ (State.modHand s c h g) := by
  unfold State.modHand
  repeat' first
    | with_reducible assumption
    | with_reducible exact Keep.refl _
    | with_reducible apply State.modCore_keep
    | with_reducible exact Nat.le_refl _
    | with_reducible exact id
    | exact fun h => Mgmt.wf_congr h rfl rfl rfl rfl rfl rfl
    | exact fun h => Tiers.wf_congr h rfl rfl
    | exact fun _ => rfl
    | intro _
    | split
    | extract_lets
    | (with_reducible apply Keep.upd)

theorem State.modCtx_keep {r₀ : State} {s : State} (c : Nat) (g : Context → Context) (keep_s : Keep r₀ s) :
    Keep r₀ (State.modCtx s c g) := by
  unfold State.modCtx
  repeat' first
    | with_reducible assumption
    | with_reducible exact Keep.refl _
    | with_reducible exact Nat.le_refl _
    | with_reducible exact id
    | exact fun h => Mgmt.wf_congr h rfl rfl rfl rfl rfl rfl
    | exact fun h => Tiers.wf_congr h rfl rfl
    | exact fun _ => rfl
    | intro _
    | split
    | extract_lets
    | (with_reducible apply Keep.upd)

theorem State.modLayout_keep {r₀ : State} {s : State} (c l : Nat) (g : Layout → Layout) (keep_s : Keep r₀ s) :
    Keep r₀ (State.modLayout s c l g) := by
  unfold State.modLayout
  repeat' first
    | with_reducible assumption
    | with_reducible exact Keep.refl _
    | with_reducible apply State.modCtx_keep
    | with_reducible exact Nat.le_refl _
    | with_reducible exact id
    | exact fun h => Mgmt.wf_congr h rfl rfl rfl rfl rfl rfl
    | exact fun h => Tiers.wf_congr h rfl rfl
    | exact fun _ => rfl
    | intro _
    | split
    | extract_lets
    | (with_reducible apply Keep.upd)

theorem State.setLayout_keep {r₀ : State} {s : State} (c l : Nat) (o : Option Layout) (keep_s : Keep r₀ s) :
    Keep r₀ (State.setLayout s c l o) := by
  unfold State.setLayout
  repeat' first
    | with_reducible assumption
    | with_reducible exact Keep.refl _
    | with_reducible apply State.modCtx_keep
    | with_reducible exact Nat.le_refl _
    | with_reducible exact id
    | exact fun h => Mgmt.wf_congr h rfl rfl rfl rfl rfl rfl
    | exact fun h => Tiers.wf_congr h rfl rfl
    | exact fun _ => rfl
    | intro _
    | split
    | extract_lets
    | (with_reducible apply Keep.upd)

theorem State.modSlot_keep {r₀ : State} {s : State} (cl k : Nat) (g : Slot → Slot) (keep_s : Keep r₀ s) :
    Keep r₀ (State.modSlot s cl k g) := by
  unfold State.modSlot
  repeat' first
    | with_reducible assumption
    | with_reducible exact Keep.refl _
    | with_reducible exact Nat.le_refl _
    | with_reducible exact id
    | exact fun h => Mgmt.wf_congr h rfl rfl rfl rfl rfl rfl
    | exact fun h => Tiers.wf_congr h rfl rfl
    | exact fun _ => rfl
    | intro _
    | split
    | extract_lets
    | (with_reducible apply Keep.upd)

theorem State.setSlot_keep {r₀ : State} {s : State} (cl k : Nat) (o : Option Slot) (keep_s : Keep r₀ s) :
    Keep r₀ (State.setSlot s cl k o) := by
  unfold State.setSlot
  repeat' first
    | with_reducible assumption
    | with_reducible exact Keep.refl _
    | with_reducible exact Nat.le_refl _
    | with_reducible exact id
    | exact fun h => Mgmt.wf_congr h rfl rfl rfl rfl rfl rfl
    | exact fun h => Tiers.wf_congr h rfl rfl
    | exact fun _ => rfl
    | intro _
    | split
    | extract_lets
    | (with_reducible apply Keep.upd)

theorem State.modSess_keep {r₀ : State} {s : State} (k : Nat) (g : Session → Session) (keep_s : Keep r₀ s) :
    Keep r₀ (State.modSess s k g) := by
  unfold State.modSess
  repeat' first
    | with_reducible assumption
    | with_reducible exact Keep.refl _
    | with_reducible exact Nat.le_refl _
    | with_reducible exact id
    | exact fun h => Mgmt.wf_congr h rfl rfl rfl rfl rfl rfl
    | exact fun h => Tiers.wf_congr h rfl rfl
    | exact fun _ => rfl
    | intro _
    | split
    | extract_lets
    | (with_reducible apply Keep.upd)

theorem State.modPort_keep {r₀ : State} {s : State} (p : Nat) (g : Port → Port) (keep_s : Keep r₀ s) :
    Keep r₀ (State.modPort s p g) := by
  unfold State.modPort
  repeat' first
    | with_reducible assumption
    | with_reducible exact Keep.refl _
    | with_reducible exact Nat.le_refl _
    | with_reducible exact id
    | exact fun h => Mgmt.wf_congr h rfl rfl rfl rfl rfl rfl
    | exact fun h => Tiers.wf_congr h rfl rfl
    | exact fun _ => rfl
    | intro _
    | split
    | extract_lets
    | (with_reducible apply Keep.upd)

theorem State.modCirc_keep {r₀ : State} {s : State} (k : Nat) (g : Circuit → Circuit) (keep_s : Keep r₀ s) :
    Keep r₀ (State.modCirc s k g) := by
  unfold State.modCirc
  repeat' first
    | with_reducible assumption
    | with_reducible exact Keep.refl _
    | with_reducible exact Nat.le_refl _
    | with_reducible exact id
    | exact fun h => Mgmt.wf_congr h rfl rfl rfl rfl rfl rfl
    | exact fun h => Tiers.wf_congr h rfl rfl
    | exact fun _ => rfl
    | intro _
    | split
    | extract_lets
    | (with_reducible apply Keep.upd)

theorem State.modDie_keep {r₀ : State} {s : State} (d : Nat) (g : Die → Die) (keep_s : Keep r₀ s) :
    Keep r₀ (State.modDie s d g) := by
  unfold State.modDie
  repeat' first
    | with_reducible assumption
    | with_reducible exact Keep.refl _
    | with_reducible exact Nat.le_refl _
    | with_reducible exact id
    | exact fun h => Mgmt.wf_congr h rfl rfl rfl rfl rfl rfl
    | exact fun h => Tiers.wf_congr h rfl rfl
    | exact fun _ => rfl
    | intro _
    | split
    | extract_lets
    | (with_reducible apply Keep.upd)

theorem State.modIsl_keep {r₀ : State} {s : State} (k : Nat) (g : Island → Island) (keep_s : Keep r₀ s) :
    Keep r₀ (State.modIsl s k g) := by
  unfold State.modIsl
  repeat' first
    | with_reducible assumption
    | with_reducible exact Keep.refl _
    | with_reducible exact Nat.le_refl _
    | with_reducible exact id
    | exact fun h => Mgmt.wf_congr h rfl rfl rfl rfl rfl rfl
    | exact fun h => Tiers.wf_congr h rfl rfl
    | exact fun _ => rfl
    | intro _
    | split
    | extract_lets
    | (with_reducible apply Keep.upd)

theorem State.idle_keep {r₀ : State} {s : State} (keep_s : Keep r₀ s) :
    Keep r₀ (State.idle s) := by
  unfold State.idle
  repeat' first
    | with_reducible assumption
    | with_reducible exact Keep.refl _
    | with_reducible exact Nat.le_refl _
    | with_reducible exact id
    | exact fun h => Mgmt.wf_congr h rfl rfl rfl rfl rfl rfl
    | exact fun h => Tiers.wf_congr h rfl rfl
    | exact fun _ => rfl
    | intro _
    | split
    | extract_lets
    | (with_reducible apply Keep.upd)

theorem State.freeNext_keep {r₀ : State} {s : State} (k : Nat) (keep_s : Keep r₀ s) :
    Keep r₀ (State.freeNext s k) := by
  unfold State.freeNext
  repeat' first
    | with_reducible assumption
    | with_reducible exact Keep.refl _
    | with_reducible exact Nat.le_refl _
    | with_reducible exact Nat.le_add_right _ _
    | with_reducible exact id
    | exact fun h => Mgmt.wf_congr h rfl rfl rfl rfl rfl rfl
    | exact fun h => Tiers.wf_congr h rfl rfl
    | exact fun _ => rfl
    | intro _
    | split
    | extract_lets
    | (with_reducible apply Keep.upd)

end Sys2Proof.Machine
end

