-- ==== Sys2Proof/Laws/KeepReport.lean ====
section
/-! SUPPORT. What the operations and meanings of Machine/Report.lean keep (`Keep`, Laws/Keep.lean). -/
set_option linter.all false

namespace Sys2Proof.Machine

theorem State.setRail_keep {r₀ : State} {s : State} (d : Nat) (keep_s : Keep r₀ s) :
    Keep r₀ (State.setRail s d) := by
  unfold State.setRail
  repeat' first
    | with_reducible assumption
    | with_reducible exact Keep.refl _
    | with_reducible apply State.modDie_keep
    | intro _
    | split
    | extract_lets

theorem State.setCode_keep {r₀ : State} {s : State} (cl k : Nat) (keep_s : Keep r₀ s) :
    Keep r₀ (State.setCode s cl k) := by
  unfold State.setCode
  repeat' first
    | with_reducible assumption
    | with_reducible exact Keep.refl _
    | with_reducible apply State.modIsl_keep
    | with_reducible apply State.setRail_keep
    | with_reducible exact Nat.le_refl _
    | with_reducible exact id
    | exact fun h => Mgmt.wf_congr h rfl rfl rfl rfl rfl rfl
    | exact fun h => Tiers.wf_congr h rfl rfl
    | exact fun _ => rfl
    | intro _
    | split
    | extract_lets
    | (with_reducible apply Keep.upd)

theorem State.stopCluster_keep {r₀ : State} {s : State} (cl : Nat) (keep_s : Keep r₀ s) :
    Keep r₀ (State.stopCluster s cl) := by
  unfold State.stopCluster
  repeat' first
    | with_reducible assumption
    | with_reducible exact Keep.refl _
    | with_reducible apply State.modIsl_keep
    | with_reducible apply State.setRail_keep
    | intro _
    | split
    | extract_lets

theorem State.modVec_keep {r₀ : State} {s : State} (f v : Nat) (g : Vec → Vec) (keep_s : Keep r₀ s) :
    Keep r₀ (State.modVec s f v g) := by
  unfold State.modVec
  repeat' first
    | with_reducible assumption
    | with_reducible exact Keep.refl _
    | with_reducible apply State.modFn_keep
    | intro _
    | split
    | extract_lets

theorem State.sendMsg_keep {r₀ : State} {s : State} (f v : Nat) (keep_s : Keep r₀ s) :
    Keep r₀ (State.sendMsg s f v) := by
  unfold State.sendMsg
  repeat' first
    | with_reducible assumption
    | with_reducible exact Keep.refl _
    | with_reducible apply State.modVec_keep
    | with_reducible exact Nat.le_refl _
    | with_reducible exact id
    | exact fun h => Mgmt.wf_congr h rfl rfl rfl rfl rfl rfl
    | exact fun h => Tiers.wf_congr h rfl rfl
    | exact fun _ => rfl
    | intro _
    | split
    | extract_lets
    | (with_reducible apply Keep.upd)

theorem State.dueOnce_keep {r₀ : State} {s : State} (f v : Nat) (keep_s : Keep r₀ s) :
    Keep r₀ (State.dueOnce s f v).1 := by
  unfold State.dueOnce
  repeat' first
    | with_reducible assumption
    | with_reducible exact Keep.refl _
    | with_reducible apply State.modFn_keep
    | with_reducible apply State.modVec_keep
    | with_reducible apply State.sendMsg_keep
    | with_reducible exact Nat.le_refl _
    | with_reducible exact id
    | exact fun h => Mgmt.wf_congr h rfl rfl rfl rfl rfl rfl
    | exact fun h => Tiers.wf_congr h rfl rfl
    | exact fun _ => rfl
    | intro _
    | split
    | extract_lets
    | with_reducible apply Keep.fstMk
    | (with_reducible apply Keep.upd)

theorem State.markCause_keep {r₀ : State} {s : State} (p b : Nat) (keep_s : Keep r₀ s) :
    Keep r₀ (State.markCause s p b).1 := by
  unfold State.markCause
  repeat' first
    | with_reducible assumption
    | with_reducible exact Keep.refl _
    | with_reducible apply State.modFn_keep
    | with_reducible exact Nat.le_refl _
    | with_reducible exact id
    | exact fun h => Mgmt.wf_congr h rfl rfl rfl rfl rfl rfl
    | exact fun h => Tiers.wf_congr h rfl rfl
    | exact fun _ => rfl
    | intro _
    | split
    | extract_lets
    | with_reducible apply Keep.fstMk
    | (with_reducible apply Keep.upd)

theorem State.due_keep {r₀ : State} {s : State} (f v : Nat) (keep_s : Keep r₀ s) :
    Keep r₀ (State.due s f v) := by
  unfold State.due
  repeat' first
    | with_reducible assumption
    | with_reducible exact Keep.refl _
    | with_reducible apply State.dueOnce_keep
    | with_reducible apply State.markCause_keep
    | (refine Keep.ofFst (by assumption) ?_)
    | intro _
    | split
    | extract_lets

theorem State.cause_keep {r₀ : State} {s : State} (p b : Nat) (keep_s : Keep r₀ s) :
    Keep r₀ (State.cause s p b) := by
  unfold State.cause
  repeat' first
    | with_reducible assumption
    | with_reducible exact Keep.refl _
    | with_reducible apply State.markCause_keep
    | with_reducible apply State.due_keep
    | (refine Keep.ofFst (by assumption) ?_)
    | intro _
    | split
    | extract_lets

theorem Mgmt.log_wf {m : Mgmt} (l : List (List Word)) (n : Nat) (h : m.wf = true) (hl : l.length ≤ 8192) :
    ({ m with log := l, nextLog := n } : Mgmt).wf = true := by
  rw [Mgmt.wf_iff] at *
  exact ⟨h.1, h.2.1, h.2.2.1, h.2.2.2.1, h.2.2.2.2.1, hl⟩

theorem State.logAppend_keep {r₀ : State} {s : State} (r : List Word) (hs : Keep r₀ s) : Keep r₀ (State.logAppend s r) := by
  unfold State.logAppend
  extract_lets
  apply Keep.upd hs (Nat.le_refl _) id id id id
  intro hi
  refine Mgmt.log_wf _ _ hi ?_
  rw [List.length_drop]
  omega

theorem State.timeNote_keep {r₀ : State} {s : State} (ty k : Nat) (keep_s : Keep r₀ s) :
    Keep r₀ (State.timeNote s ty k) := by
  unfold State.timeNote
  repeat' first
    | with_reducible assumption
    | with_reducible exact Keep.refl _
    | with_reducible apply State.logAppend_keep
    | intro _
    | split
    | extract_lets

theorem State.restartCluster_keep {r₀ : State} {s : State} (cl : Nat) (keep_s : Keep r₀ s) :
    Keep r₀ (State.restartCluster s cl) := by
  unfold State.restartCluster
  repeat' first
    | with_reducible assumption
    | with_reducible exact Keep.refl _
    | with_reducible apply State.modIsl_keep
    | with_reducible apply State.setCode_keep
    | with_reducible apply State.timeNote_keep
    | intro _
    | split
    | extract_lets

theorem State.latchTree_keep {r₀ : State} {s : State} (cores : Bool) (keep_s : Keep r₀ s) :
    Keep r₀ (State.latchTree s cores) := by
  unfold State.latchTree
  repeat' first
    | with_reducible assumption
    | with_reducible exact Keep.refl _
    | with_reducible exact Nat.le_refl _
    | with_reducible exact Nat.le_add_right _ _
    | with_reducible exact id
    | exact fun h => Mgmt.wf_congr h rfl rfl rfl rfl rfl rfl
    | exact fun h => Tiers.wf_congr h rfl rfl
    | exact fun _ => rfl
    | intro _
    | split
    | extract_lets
    | (with_reducible apply Keep.upd)

theorem State.showStart_keep {r₀ : State} {s : State} (num : Nat) (keep_s : Keep r₀ s) :
    Keep r₀ (State.showStart s num) := by
  unfold State.showStart
  repeat' first
    | with_reducible assumption
    | with_reducible exact Keep.refl _
    | with_reducible apply State.modLayout_keep
    | with_reducible apply Keep.foldl
    | with_reducible apply KeepExcSnd.foldl
    | with_reducible apply KeepOpt.foldl
    | with_reducible apply KeepExc.foldl
    | with_reducible exact Nat.le_refl _
    | (intro hi; first
      | exact cellsWf_foldl _ _ _ (fun m x h => cellsWf_cellWrite _ _ _ h) hi
      | exact cellsWf_foldl _ _ _ (fun m x h => cellsWf_cellClear _ _ _ h) hi)
    | with_reducible exact id
    | exact fun h => Mgmt.wf_congr h rfl rfl rfl rfl rfl rfl
    | exact fun h => Tiers.wf_congr h rfl rfl
    | exact fun _ => rfl
    | intro _
    | split
    | extract_lets
    | (with_reducible apply Keep.upd)

theorem State.showRecord_keep {r₀ : State} {s : State} (hs : Keep r₀ s) : Keep r₀ (State.showRecord s) := by
  unfold State.showRecord
  extract_lets m d s1
  have h1 : Keep r₀ s1 := State.freeNext_keep _ (State.logAppend_keep _ hs)
  clear_value s1
  exact Keep.upd h1 (Nat.le_refl _) id id id id (fun h => Mgmt.wf_congr h rfl rfl rfl rfl rfl rfl)

theorem State.showCheck_keep {r₀ : State} {s : State} (keep_s : Keep r₀ s) :
    Keep r₀ (State.showCheck s) := by
  unfold State.showCheck
  repeat' first
    | with_reducible assumption
    | with_reducible exact Keep.refl _
    | with_reducible apply State.showRecord_keep
    | intro _
    | split
    | extract_lets

theorem State.trigger_keep {r₀ : State} {s : State} (cut drive : Bool) (keep_s : Keep r₀ s) :
    Keep r₀ (State.trigger s cut drive) := by
  unfold State.trigger
  repeat' first
    | with_reducible assumption
    | with_reducible exact Keep.refl _
    | with_reducible apply State.latchTree_keep
    | with_reducible apply State.showStart_keep
    | with_reducible apply State.showRecord_keep
    | with_reducible apply State.showCheck_keep
    | with_reducible exact Nat.le_refl _
    | with_reducible exact id
    | exact fun h => Mgmt.wf_congr h rfl rfl rfl rfl rfl rfl
    | exact fun h => Tiers.wf_congr h rfl rfl
    | exact fun _ => rfl
    | intro _
    | split
    | extract_lets
    | (with_reducible apply Keep.upd)

theorem State.classTrigger_keep {r₀ : State} {s : State} (cls : Nat) (keep_s : Keep r₀ s) :
    Keep r₀ (State.classTrigger s cls) := by
  unfold State.classTrigger
  repeat' first
    | with_reducible assumption
    | with_reducible exact Keep.refl _
    | with_reducible apply State.trigger_keep
    | with_reducible exact Nat.le_refl _
    | with_reducible exact id
    | exact fun h => Mgmt.wf_congr h rfl rfl rfl rfl rfl rfl
    | exact fun h => Tiers.wf_congr h rfl rfl
    | exact fun _ => rfl
    | intro _
    | split
    | extract_lets
    | (with_reducible apply Keep.upd)

theorem State.reportTy_keep {r₀ : State} {s : State} (ty island cls code : Nat) (ctx : Option Nat) (detail : Nat) (keep_s : Keep r₀ s) :
    Keep r₀ (State.reportTy s ty island cls code ctx detail) := by
  unfold State.reportTy
  repeat' first
    | with_reducible assumption
    | with_reducible exact Keep.refl _
    | with_reducible apply State.modIsl_keep
    | with_reducible apply State.classTrigger_keep
    | with_reducible apply State.report_keep
    | with_reducible apply KeepOpt.getD
    | intro _
    | split
    | extract_lets

theorem State.report_keep {r₀ : State} {s : State} (island cls code : Nat) (ctx : Option Nat) (detail : Nat) (keep_s : Keep r₀ s) :
    Keep r₀ (State.report s island cls code ctx detail) := by
  unfold State.report
  repeat' first
    | with_reducible assumption
    | with_reducible exact Keep.refl _
    | with_reducible apply State.freeNext_keep
    | with_reducible apply State.reportTy_keep
    | intro _
    | split
    | extract_lets

theorem Mgmt.persist_wf (m : Mgmt) (b : Bool) (i c : Nat) : (m.persist b i c).wf = m.wf := by
  unfold Mgmt.persist
  split
  · rfl
  · extract_lets
    split <;> rfl

theorem State.fenceCore_keep {r₀ : State} {s : State} (c cause : Nat) (hs : Keep r₀ s) : Keep r₀ (State.fenceCore s c cause) := by
  unfold State.fenceCore
  extract_lets s1 s2
  refine State.freeNext_keep _ (State.reportTy_keep _ _ _ _ _ _ ?_)
  apply Keep.upd (State.modCore_keep _ _ hs) (Nat.le_refl _) id (fun hi => cellsWf_cellClear _ _ _ hi) id id
  intro hi
  show (s1.mgmt.persist false c cause).wf = true
  rw [Mgmt.persist_wf]
  exact hi

theorem State.fenceCluster_keep {r₀ : State} {s : State} (cl cause : Nat) (hs : Keep r₀ s) : Keep r₀ (State.fenceCluster s cl cause) := by
  unfold State.fenceCluster
  extract_lets s1 s2
  refine State.stopCluster_keep _ (State.freeNext_keep _ (State.reportTy_keep _ _ _ _ _ _ ?_))
  apply Keep.upd hs (Nat.le_refl _) id id id id
  intro hi
  show (s.mgmt.persist true cl cause).wf = true
  rw [Mgmt.persist_wf]
  exact hi

end Sys2Proof.Machine
end

