-- ==== Sys2Proof/Laws/KeepMem.lean ====
section
/-! SUPPORT. What the operations and meanings of Machine/Mem.lean keep (`Keep`, Laws/Keep.lean). -/
set_option linter.all false

namespace Sys2Proof.Machine

theorem State.bmChange_keep {r₀ : State} {s : State} (i : Nat) (e : BmEntry) (fid : Option Nat) (peer : Option (Nat × Nat)) (keep_s : Keep r₀ s) :
    Keep r₀ (State.bmChange s i e fid peer) := by
  unfold State.bmChange
  repeat' first
    | with_reducible assumption
    | with_reducible exact Keep.refl _
    | with_reducible exact Nat.le_refl _
    | (intro hi; first
      | exact cellsWf_cellClear _ _ _ hi
      | exact Tiers.wf_upd hi (fun h => cellsWf_cellClear _ _ _ h) id
      | exact Tiers.wf_upd hi id (fun h => cellsWf_cellClear _ _ _ h))
    | with_reducible exact id
    | exact fun h => Mgmt.wf_congr h rfl rfl rfl rfl rfl rfl
    | exact fun h => Tiers.wf_congr h rfl rfl
    | exact fun _ => rfl
    | intro _
    | split
    | extract_lets
    | (with_reducible apply Keep.upd)

theorem State.bmMod_keep {r₀ : State} {s : State} (i : Nat) (g : BmEntry → BmEntry) (keep_s : Keep r₀ s) :
    Keep r₀ (State.bmMod s i g) := by
  unfold State.bmMod
  repeat' first
    | with_reducible assumption
    | with_reducible exact Keep.refl _
    | with_reducible exact Nat.le_refl _
    | with_reducible exact id
    | exact fun h => Mgmt.wf_congr h rfl rfl rfl rfl rfl rfl
    | exact fun h => Tiers.wf_congr h rfl rfl
    | exact fun _ => rfl
    | intro _
    | split
    | extract_lets
    | (with_reducible apply Keep.upd)

theorem State.setFrame_keep {r₀ : State} {s : State} (fid : Nat) (v : FrameState) (keep_s : Keep r₀ s) :
    Keep r₀ (State.setFrame s fid v) := by
  unfold State.setFrame
  repeat' first
    | with_reducible assumption
    | with_reducible exact Keep.refl _
    | with_reducible exact Nat.le_refl _
    | with_reducible exact id
    | exact fun h => Mgmt.wf_congr h rfl rfl rfl rfl rfl rfl
    | exact fun h => Tiers.wf_congr h rfl rfl
    | exact fun _ => rfl
    | intro _
    | split
    | extract_lets
    | (with_reducible apply Keep.upd)

theorem State.zeroFrame_keep {r₀ : State} {s : State} (fid : Nat) (keep_s : Keep r₀ s) :
    Keep r₀ (State.zeroFrame s fid) := by
  unfold State.zeroFrame
  repeat' first
    | with_reducible assumption
    | with_reducible exact Keep.refl _
    | with_reducible exact Nat.le_refl _
    | (intro hi; first
      | exact cellsWf_cellClear _ _ _ hi
      | exact Tiers.wf_upd hi (fun h => cellsWf_cellClear _ _ _ h) id)
    | with_reducible exact id
    | exact fun h => Mgmt.wf_congr h rfl rfl rfl rfl rfl rfl
    | exact fun h => Tiers.wf_congr h rfl rfl
    | exact fun _ => rfl
    | intro _
    | split
    | extract_lets
    | (with_reducible apply Keep.upd)

theorem State.allocFrame_keep {r₀ : State} {s : State} (tier : Nat) (keep_s : Keep r₀ s) :
    KeepOptSnd r₀ (State.allocFrame s tier) := by
  unfold State.allocFrame
  repeat' first
    | with_reducible assumption
    | with_reducible exact Keep.refl _
    | with_reducible apply State.freeNext_keep
    | with_reducible apply State.setFrame_keep
    | with_reducible apply State.zeroFrame_keep
    | with_reducible exact KeepOptSnd.none
    | with_reducible apply KeepOptSnd.some
    | intro _
    | split
    | extract_lets

theorem State.dropFrame_keep {r₀ : State} {s : State} (fid : Nat) (keep_s : Keep r₀ s) :
    Keep r₀ (State.dropFrame s fid) := by
  unfold State.dropFrame
  repeat' first
    | with_reducible assumption
    | with_reducible exact Keep.refl _
    | with_reducible apply State.setFrame_keep
    | intro _
    | split
    | extract_lets

theorem State.drainFrame_keep {r₀ : State} {s : State} (fid : Nat) (keep_s : Keep r₀ s) :
    Keep r₀ (State.drainFrame s fid) := by
  unfold State.drainFrame
  repeat' first
    | with_reducible assumption
    | with_reducible exact Keep.refl _
    | with_reducible apply State.setFrame_keep
    | intro _
    | split
    | extract_lets

theorem State.moveEntry_keep {r₀ : State} {s : State} (i : Nat) (e : BmEntry) (tier fid : Nat) (keep_s : Keep r₀ s) :
    Keep r₀ (State.moveEntry s i e tier fid) := by
  unfold State.moveEntry
  repeat' first
    | with_reducible assumption
    | with_reducible exact Keep.refl _
    | with_reducible apply State.bmChange_keep
    | with_reducible apply State.drainFrame_keep
    | with_reducible exact Nat.le_refl _
    | (intro hi; first
      | exact Tiers.wf_upd hi (fun h => cellsWf_cellCopy _ _ _ _ h) id)
    | with_reducible exact id
    | exact fun h => Mgmt.wf_congr h rfl rfl rfl rfl rfl rfl
    | exact fun h => Tiers.wf_congr h rfl rfl
    | exact fun _ => rfl
    | intro _
    | split
    | extract_lets
    | (with_reducible apply Keep.upd)

theorem State.setMig_keep {r₀ : State} {s : State} (i : Nat) (m : Option Migration) (keep_s : Keep r₀ s) :
    Keep r₀ (State.setMig s i m) := by
  unfold State.setMig
  repeat' first
    | with_reducible assumption
    | with_reducible exact Keep.refl _
    | with_reducible exact Nat.le_refl _
    | with_reducible exact id
    | exact fun h => Mgmt.wf_congr h rfl rfl rfl rfl rfl rfl
    | exact fun h => Tiers.wf_congr h rfl rfl
    | exact fun _ => rfl
    | intro _
    | split
    | extract_lets
    | (with_reducible apply Keep.upd)

theorem State.abandonMig_keep {r₀ : State} {s : State} (i : Nat) (keep_s : Keep r₀ s) :
    Keep r₀ (State.abandonMig s i) := by
  unfold State.abandonMig
  repeat' first
    | with_reducible assumption
    | with_reducible exact Keep.refl _
    | with_reducible apply State.dropFrame_keep
    | with_reducible apply State.setMig_keep
    | intro _
    | split
    | extract_lets

theorem State.demoteVictim_keep {r₀ : State} {s : State} (c count : Nat) (keep_s : Keep r₀ s) :
    KeepOpt r₀ (State.demoteVictim s c count) := by
  unfold State.demoteVictim
  dsimp only
  cases s.sweepList c with
  | nil => exact KeepOpt.none
  | cons h r =>
    dsimp only
    split
    · split
      · exact KeepOpt.some (State.modCtx_keep _ _ (State.moveEntry_keep _ _ _ _
          (State.abandonMig_keep _ (KeepOptSnd.elim ‹_› (State.allocFrame_keep _ keep_s)))))
      · exact KeepOpt.none
    · exact KeepOpt.none

theorem State.allocFor_keep {r₀ : State} {s : State} (c tier count : Nat) (keep_s : Keep r₀ s) :
    KeepOptSnd r₀ (State.allocFor s c tier count) := by
  unfold State.allocFor
  repeat' first
    | with_reducible assumption
    | with_reducible exact Keep.refl _
    | with_reducible apply State.allocFrame_keep
    | with_reducible apply State.demoteVictim_keep
    | with_reducible exact KeepOptSnd.none
    | with_reducible apply KeepOptSnd.some
    | with_reducible apply KeepOpt.bind
    | with_reducible apply KeepOptSnd.bind
    | with_reducible apply KeepOpt.bindSnd
    | with_reducible apply KeepExc.bind
    | with_reducible apply KeepExc.bindSnd
    | with_reducible apply KeepExcSnd.bindSnd
    | (refine KeepOpt.elim (by assumption) ?_)
    | (refine KeepOptSnd.elim (by assumption) ?_)
    | (refine KeepOptSnd.again (by assumption) ?_)
    | intro _
    | split
    | extract_lets

theorem State.allocShadow_keep {r₀ : State} {s : State} (c : Nat) (e : BmEntry) (keep_s : Keep r₀ s) :
    KeepOptSnd r₀ (State.allocShadow s c e) := by
  unfold State.allocShadow
  repeat' first
    | with_reducible assumption
    | with_reducible exact Keep.refl _
    | with_reducible apply State.allocFor_keep
    | with_reducible exact KeepOptSnd.none
    | with_reducible apply KeepOptSnd.some
    | (refine KeepOptSnd.elim (by assumption) ?_)
    | (refine KeepOptSnd.again (by assumption) ?_)
    | intro _
    | split
    | extract_lets

theorem State.withShadow_keep {r₀ : State} {s : State} (f q n c blk : Nat) (keep_s : Keep r₀ s) :
    KeepOptSnd r₀ (State.withShadow s f q n c blk) := by
  unfold State.withShadow
  repeat' first
    | with_reducible assumption
    | with_reducible exact Keep.refl _
    | with_reducible apply State.modCmd_keep
    | with_reducible apply State.allocShadow_keep
    | with_reducible exact KeepOptSnd.none
    | with_reducible apply KeepOptSnd.some
    | (refine KeepOptSnd.elim (by assumption) ?_)
    | (refine KeepOptSnd.again (by assumption) ?_)
    | with_reducible exact Nat.le_refl _
    | with_reducible exact id
    | exact fun h => Mgmt.wf_congr h rfl rfl rfl rfl rfl rfl
    | exact fun h => Tiers.wf_congr h rfl rfl
    | exact fun _ => rfl
    | intro _
    | split
    | extract_lets
    | (with_reducible apply Keep.upd)

theorem State.writePiece_keep {r₀ : State} {s : State} (f q n c blk off : Nat) (bs : List Byte) (code : Option Nat) (keep_s : Keep r₀ s) :
    KeepOpt r₀ (State.writePiece s f q n c blk off bs code) := by
  unfold State.writePiece
  repeat' first
    | with_reducible assumption
    | with_reducible exact Keep.refl _
    | with_reducible apply State.modCmd_keep
    | with_reducible apply State.withShadow_keep
    | with_reducible exact KeepOpt.none
    | with_reducible apply KeepOpt.some
    | with_reducible exact KeepOptSnd.none
    | with_reducible apply KeepOptSnd.some
    | with_reducible apply KeepOpt.getD
    | with_reducible apply KeepOpt.mapSnd
    | with_reducible apply KeepOptSnd.mapSnd
    | with_reducible apply KeepOpt.map
    | (refine KeepOptSnd.elim (by assumption) ?_)
    | (refine KeepOptSnd.again (by assumption) ?_)
    | with_reducible exact Nat.le_refl _
    | (intro hi; first
      | exact cellsWf_cellWrite _ _ _ hi
      | exact Tiers.wf_upd hi (fun h => cellsWf_cellWrite _ _ _ h) id)
    | with_reducible exact id
    | exact fun h => Mgmt.wf_congr h rfl rfl rfl rfl rfl rfl
    | exact fun h => Tiers.wf_congr h rfl rfl
    | exact fun _ => rfl
    | intro _
    | split
    | extract_lets
    | (with_reducible apply Keep.upd)

theorem State.writeCtx_keep {r₀ : State} {s : State} (f q n c addr : Nat) (bs : List Byte) (code : Option Nat)
    (hs : Keep r₀ s) : KeepOpt r₀ (State.writeCtx s f q n c addr bs code) := by
  have step : ∀ (l : List (Nat × Nat × Nat)) (a : Option (State × List Byte)), (∀ p, a = some p → Keep r₀ p.1) →
      ∀ p, l.foldl (fun (a : Option (State × List Byte)) p =>
        a.bind (fun (t, rest) => (t.writePiece f q n c p.1 p.2.1 (rest.take p.2.2) code).map
          (fun u => (u, rest.drop p.2.2)))) a = some p → Keep r₀ p.1 := by
    intro l
    induction l with
    | nil => intro a h p e; exact h p e
    | cons x l ih =>
      intro a h p e
      refine ih _ ?_ p e
      intro y ey
      cases a with
      | none => cases ey
      | some z =>
        simp only [Option.bind_some, Option.map_eq_some_iff] at ey
        obtain ⟨u, hu, rfl⟩ := ey
        exact KeepOpt.elim hu (State.writePiece_keep _ _ _ _ _ _ _ _ (h z rfl))
  unfold State.writeCtx
  refine ⟨fun t e => ?_⟩
  obtain ⟨p, hp, rfl⟩ := Option.map_eq_some_iff.1 e
  exact step _ _ (fun q e => by cases e; exact hs) p hp

theorem State.dropShadows_keep {r₀ : State} {s : State} (f q n : Nat) (keep_s : Keep r₀ s) :
    Keep r₀ (State.dropShadows s f q n) := by
  unfold State.dropShadows
  repeat' first
    | with_reducible assumption
    | with_reducible exact Keep.refl _
    | with_reducible apply State.modCmd_keep
    | with_reducible apply State.dropFrame_keep
    | with_reducible apply Keep.foldl
    | with_reducible apply KeepExcSnd.foldl
    | with_reducible apply KeepOpt.foldl
    | with_reducible apply KeepExc.foldl
    | with_reducible exact Nat.le_refl _
    | (intro hi; first
      | exact cellsWf_foldl _ _ _ (fun m x h => cellsWf_cellWrite _ _ _ h) hi
      | exact cellsWf_foldl _ _ _ (fun m x h => cellsWf_cellClear _ _ _ h) hi)
    | with_reducible exact id
    | exact fun h => Mgmt.wf_congr h rfl rfl rfl rfl rfl rfl
    | exact fun h => Tiers.wf_congr h rfl rfl
    | exact fun _ => rfl
    | intro _
    | split
    | extract_lets
    | (with_reducible apply Keep.upd)

theorem State.unmapEntry_keep {r₀ : State} {s : State} (i : Nat) (keep_s : Keep r₀ s) :
    Keep r₀ (State.unmapEntry s i) := by
  unfold State.unmapEntry
  extract_lets e l fid peer mig s1 s2 s3
  have k1 : Keep r₀ s1 := State.bmChange_keep _ _ _ _ keep_s
  have k2 : Keep r₀ s2 := by
    show Keep r₀ (if l = true then s1.drainFrame fid else s1)
    split
    · exact State.drainFrame_keep _ k1
    · exact k1
  have k3 : Keep r₀ s3 := by
    show Keep r₀ (match mig with | some m => if m.begun then s2.dropFrame m.dst else s2 | none => s2)
    cases mig with
    | none => exact k2
    | some m => dsimp only; split; exact State.dropFrame_keep _ k2; exact k2
  exact Keep.upd k3 (Nat.le_refl _) id id (fun h => Tiers.wf_congr h rfl rfl) id id

theorem State.invalidate_keep {r₀ : State} {s : State} (i : Nat) (recalled : Bool) (release : Bool) (keep_s : Keep r₀ s) :
    Keep r₀ (State.invalidate s i recalled release) := by
  unfold State.invalidate
  extract_lets e mig peer s1 s2
  have k1 : Keep r₀ s1 := State.bmChange_keep _ _ _ _ keep_s
  have k2 : Keep r₀ s2 := by
    show Keep r₀ (match mig with | some m => if m.begun then s1.dropFrame m.dst else s1 | none => s1)
    cases mig with
    | none => exact k1
    | some m => dsimp only; split; exact State.dropFrame_keep _ k1; exact k1
  exact Keep.upd k2 (Nat.le_refl _) id id (fun h => Tiers.wf_congr h rfl rfl) id id

theorem State.retireFrame_keep {r₀ : State} {s : State} (fid : Nat) (keep_s : Keep r₀ s) :
    Keep r₀ (State.retireFrame s fid) := by
  unfold State.retireFrame
  repeat' first
    | with_reducible assumption
    | with_reducible exact Keep.refl _
    | with_reducible apply State.report_keep
    | with_reducible apply State.setFrame_keep
    | with_reducible apply State.invalidate_keep
    | with_reducible exact Nat.le_refl _
    | with_reducible exact id
    | exact fun h => Mgmt.wf_congr h rfl rfl rfl rfl rfl rfl
    | exact fun h => Tiers.wf_congr h rfl rfl
    | exact fun _ => rfl
    | intro _
    | split
    | extract_lets
    | (with_reducible apply Keep.upd)

theorem State.correctable_keep {r₀ : State} {s : State} (isl cls detail : Nat) (keep_s : Keep r₀ s) :
    Keep r₀ (State.correctable s isl cls detail) := by
  unfold State.correctable
  repeat' first
    | with_reducible assumption
    | with_reducible exact Keep.refl _
    | with_reducible apply State.report_keep
    | with_reducible exact Nat.le_refl _
    | with_reducible exact id
    | exact fun h => Mgmt.wf_congr h rfl rfl rfl rfl rfl rfl
    | exact fun h => Tiers.wf_congr h rfl rfl
    | exact fun _ => rfl
    | intro _
    | split
    | extract_lets
    | (with_reducible apply Keep.upd)

theorem State.flashRebuilt_keep {r₀ : State} {s : State} (chan : Nat) (keep_s : Keep r₀ s) :
    Keep r₀ (State.flashRebuilt s chan) := by
  unfold State.flashRebuilt
  repeat' first
    | with_reducible assumption
    | with_reducible exact Keep.refl _
    | with_reducible apply State.report_keep
    | with_reducible exact Nat.le_refl _
    | with_reducible exact id
    | exact fun h => Mgmt.wf_congr h rfl rfl rfl rfl rfl rfl
    | exact fun h => Tiers.wf_congr h rfl rfl
    | exact fun _ => rfl
    | intro _
    | split
    | extract_lets
    | (with_reducible apply Keep.upd)

theorem State.flashLost_keep {r₀ : State} {s : State} (chan : Nat) (keep_s : Keep r₀ s) :
    Keep r₀ (State.flashLost s chan) := by
  unfold State.flashLost
  repeat' first
    | with_reducible assumption
    | with_reducible exact Keep.refl _
    | with_reducible apply State.report_keep
    | intro _
    | split
    | extract_lets

theorem State.bringIn_keep {r₀ : State} {s : State} (i tier : Nat) (keep_s : Keep r₀ s) :
    Keep r₀ (State.bringIn s i tier) := by
  unfold State.bringIn
  repeat' first
    | with_reducible assumption
    | with_reducible exact Keep.refl _
    | with_reducible apply State.bmChange_keep
    | with_reducible exact Nat.le_refl _
    | with_reducible exact id
    | exact fun h => Mgmt.wf_congr h rfl rfl rfl rfl rfl rfl
    | exact fun h => Tiers.wf_congr h rfl rfl
    | exact fun _ => rfl
    | intro _
    | split
    | extract_lets
    | (with_reducible apply Keep.upd)

theorem State.awaitBlock_keep {r₀ : State} {s : State} (f q n i tier : Nat) (keep_s : Keep r₀ s) :
    Keep r₀ (State.awaitBlock s f q n i tier) := by
  unfold State.awaitBlock
  repeat' first
    | with_reducible assumption
    | with_reducible exact Keep.refl _
    | with_reducible apply State.modCmd_keep
    | with_reducible apply State.bringIn_keep
    | intro _
    | split
    | extract_lets

theorem State.queuePromotion_keep {r₀ : State} {s : State} (i : Nat) (keep_s : Keep r₀ s) :
    Keep r₀ (State.queuePromotion s i) := by
  unfold State.queuePromotion
  repeat' first
    | with_reducible assumption
    | with_reducible exact Keep.refl _
    | with_reducible apply State.setMig_keep
    | intro _
    | split
    | extract_lets

theorem State.cacheFill_keep {r₀ : State} {s : State} (region i : Nat) (keep_s : Keep r₀ s) :
    Keep r₀ (State.cacheFill s region i) := by
  unfold State.cacheFill
  repeat' first
    | with_reducible assumption
    | with_reducible exact Keep.refl _
    | with_reducible exact Nat.le_refl _
    | with_reducible exact id
    | exact fun h => Mgmt.wf_congr h rfl rfl rfl rfl rfl rfl
    | exact fun h => Tiers.wf_congr h rfl rfl
    | exact fun _ => rfl
    | intro _
    | split
    | extract_lets
    | (with_reducible apply Keep.upd)

theorem State.countReads_keep {r₀ : State} {s : State} (region ctx : Nat) (rs : List (Nat × Nat)) (keep_s : Keep r₀ s) :
    Keep r₀ (State.countReads s region ctx rs) := by
  unfold State.countReads
  repeat' first
    | with_reducible assumption
    | with_reducible exact Keep.refl _
    | with_reducible apply State.bmMod_keep
    | with_reducible apply State.queuePromotion_keep
    | with_reducible apply State.cacheFill_keep
    | with_reducible apply Keep.foldl
    | intro _
    | split
    | extract_lets

theorem State.rawPiece_keep {r₀ : State} {s : State} (ctx blk off : Nat) (bs : List Byte) (keep_s : Keep r₀ s) :
    Keep r₀ (State.rawPiece s ctx blk off bs) := by
  unfold State.rawPiece
  repeat' first
    | with_reducible assumption
    | with_reducible exact Keep.refl _
    | with_reducible exact Nat.le_refl _
    | (intro hi; first
      | exact cellsWf_cellWrite _ _ _ hi
      | exact Tiers.wf_upd hi (fun h => cellsWf_cellWrite _ _ _ h) id)
    | with_reducible exact id
    | exact fun h => Mgmt.wf_congr h rfl rfl rfl rfl rfl rfl
    | exact fun h => Tiers.wf_congr h rfl rfl
    | exact fun _ => rfl
    | intro _
    | split
    | extract_lets
    | (with_reducible apply Keep.upd)

theorem State.rawWrite_keep {r₀ : State} {s : State} (ctx addr : Nat) (bs : List Byte) (hs : Keep r₀ s) :
    Keep r₀ (State.rawWrite s ctx addr bs) := by
  have step : ∀ (l : List (Nat × Nat × Nat)) (a : State × List Byte), Keep r₀ a.1 →
      Keep r₀ (l.foldl (fun (a : State × List Byte) p =>
        (a.1.rawPiece ctx p.1 p.2.1 (List.take p.2.2 a.2), List.drop p.2.2 a.2)) a).1 := by
    intro l
    induction l with
    | nil => intro a h; exact h
    | cons x l ih => intro a h; exact ih _ (State.rawPiece_keep _ _ _ _ h)
  exact step _ _ hs

end Sys2Proof.Machine
end

