-- ==== Sys2Proof/Laws/KeepLink.lean ====
section
/-! SUPPORT. What the operations and meanings of Machine/Link.lean keep (`Keep`, Laws/Keep.lean). -/
set_option linter.all false

namespace Sys2Proof.Machine

theorem State.sendOn_keep {r₀ : State} {s : State} (port : Nat) (f : Frame) (keep_s : Keep r₀ s) :
    Keep r₀ (State.sendOn s port f) := by
  unfold State.sendOn
  repeat' first
    | with_reducible assumption
    | with_reducible exact Keep.refl _
    | with_reducible apply State.modPort_keep
    | intro _
    | split
    | extract_lets

theorem State.sendPacket_keep {r₀ : State} {s : State} (f : Frame) (keep_s : Keep r₀ s) :
    KeepOpt r₀ (State.sendPacket s f) := by
  unfold State.sendPacket
  repeat' first
    | with_reducible assumption
    | with_reducible exact Keep.refl _
    | with_reducible apply State.sendOn_keep
    | with_reducible exact KeepOpt.none
    | with_reducible apply KeepOpt.some
    | with_reducible apply KeepOpt.mapSnd
    | with_reducible apply KeepOptSnd.mapSnd
    | with_reducible apply KeepOpt.map
    | intro _
    | split
    | extract_lets

theorem State.sendAnswer_keep {r₀ : State} {s : State} (f : Frame) (keep_s : Keep r₀ s) :
    Keep r₀ (State.sendAnswer s f) := by
  unfold State.sendAnswer
  repeat' first
    | with_reducible assumption
    | with_reducible exact Keep.refl _
    | with_reducible apply State.sendPacket_keep
    | with_reducible apply KeepOpt.getD
    | (refine KeepOpt.elim (by assumption) ?_)
    | intro _
    | split
    | extract_lets

theorem State.emit_keep {r₀ : State} {s : State} (k : Nat) (f : Frame) (keep_s : Keep r₀ s) :
    Keep r₀ (State.emit s k f) := by
  unfold State.emit
  repeat' first
    | with_reducible assumption
    | with_reducible exact Keep.refl _
    | with_reducible apply State.sendOn_keep
    | with_reducible apply Keep.foldl
    | intro _
    | split
    | extract_lets

theorem State.sendCircuit_keep {r₀ : State} {s : State} (k : Nat) (f : Frame) (keep_s : Keep r₀ s) :
    Keep r₀ (State.sendCircuit s k f) := by
  unfold State.sendCircuit
  repeat' first
    | with_reducible assumption
    | with_reducible exact Keep.refl _
    | with_reducible apply State.modCirc_keep
    | with_reducible apply State.emit_keep
    | with_reducible exact Nat.le_refl _
    | with_reducible exact id
    | exact fun h => Mgmt.wf_congr h rfl rfl rfl rfl rfl rfl
    | exact fun h => Tiers.wf_congr h rfl rfl
    | exact fun _ => rfl
    | intro _
    | split
    | extract_lets
    | (with_reducible apply Keep.upd)

theorem State.drainCircuit_keep {r₀ : State} (n : Nat) {s : State} (k : Nat) (h : Keep r₀ s) :
    Keep r₀ (State.drainCircuit n s k) := by
  induction n generalizing s with
  | zero => exact h
  | succ n ih =>
    unfold State.drainCircuit
    extract_lets
    split
    · split
      · exact ih (State.emit_keep _ _ (State.modCirc_keep _ _ h))
      · exact h
    · exact h

theorem State.tearEntry_keep {r₀ : State} {s : State} (k cause lost : Nat) (from' : Option Nat) (keep_s : Keep r₀ s) :
    Keep r₀ (State.tearEntry s k cause lost from') := by
  unfold State.tearEntry
  repeat' first
    | with_reducible assumption
    | with_reducible exact Keep.refl _
    | with_reducible apply State.modCirc_keep
    | with_reducible apply State.cause_keep
    | with_reducible apply State.sendOn_keep
    | with_reducible apply Keep.foldl
    | with_reducible apply KeepExcSnd.foldl
    | with_reducible apply KeepOpt.foldl
    | with_reducible apply KeepExc.foldl
    | with_reducible exact Nat.le_refl _
    | (intro hi; first
      | exact cellsWf_foldl _ _ _ (fun m x h => cellsWf_cellWrite _ _ _ h) hi
      | exact cellsWf_foldl _ _ _ (fun m x h => cellsWf_cellClear _ _ _ h) hi)
    | with_reducible exact id
    | exact fun h => Mgmt.wf_congr h rfl rfl rfl rfl rfl rfl
    | exact fun h => Tiers.wf_congr h rfl rfl
    | exact fun _ => rfl
    | intro _
    | split
    | extract_lets
    | (with_reducible apply Keep.upd)

theorem State.tearJob_keep {r₀ : State} {s : State} (ctx cause : Nat) (keep_s : Keep r₀ s) :
    Keep r₀ (State.tearJob s ctx cause) := by
  unfold State.tearJob
  repeat' first
    | with_reducible assumption
    | with_reducible exact Keep.refl _
    | with_reducible apply State.cause_keep
    | with_reducible apply State.tearEntry_keep
    | with_reducible apply Keep.foldl
    | with_reducible apply KeepExcSnd.foldl
    | with_reducible apply KeepOpt.foldl
    | with_reducible apply KeepExc.foldl
    | intro _
    | split
    | extract_lets

theorem State.toChip_keep {r₀ : State} {s : State} (ctx kind chip : Nat) (f : Frame) (keep_s : Keep r₀ s) :
    Keep r₀ (State.toChip s ctx kind chip f) := by
  unfold State.toChip
  repeat' first
    | with_reducible assumption
    | with_reducible exact Keep.refl _
    | with_reducible apply State.sendCircuit_keep
    | intro _
    | split
    | extract_lets

theorem State.discardFrame_keep {r₀ : State} {s : State} (port : Nat) (keep_s : Keep r₀ s) :
    Keep r₀ (State.discardFrame s port) := by
  unfold State.discardFrame
  repeat' first
    | with_reducible assumption
    | with_reducible exact Keep.refl _
    | with_reducible apply State.modPort_keep
    | with_reducible exact Nat.le_refl _
    | with_reducible exact id
    | exact fun h => Mgmt.wf_congr h rfl rfl rfl rfl rfl rfl
    | exact fun h => Tiers.wf_congr h rfl rfl
    | exact fun _ => rfl
    | intro _
    | split
    | extract_lets
    | (with_reducible apply Keep.upd)

theorem State.passOn_keep {r₀ : State} {s : State} (port : Nat) (f0 : Frame) (keep_s : Keep r₀ s) :
    Keep r₀ (State.passOn s port f0) := by
  unfold State.passOn
  repeat' first
    | with_reducible assumption
    | with_reducible exact Keep.refl _
    | with_reducible apply State.sendOn_keep
    | with_reducible apply State.discardFrame_keep
    | with_reducible apply Keep.foldl
    | intro _
    | split
    | extract_lets

/-- Of an arrival: the state it leaves keeps, whether its frame stops or is delivered. -/
structure KeepArr (r : State) (a : Arrival) : Prop where
  out : ∀ t, a = .stop t ∨ a = .deliver t → Keep r t
theorem KeepArr.stop {r t : State} (h : Keep r t) : KeepArr r (.stop t) := ⟨fun _ e => by
  rcases e with e | e
  · cases e; exact h
  · cases e⟩

theorem KeepArr.deliver {r t : State} (h : Keep r t) : KeepArr r (.deliver t) := ⟨fun _ e => by
  rcases e with e | e
  · cases e
  · cases e; exact h⟩

theorem State.arrive_keeps {r₀ : State} {s : State} (port : Nat) (f : Frame) (ok : Bool) (keep_s : Keep r₀ s) :
    KeepArr r₀ (State.arrive s port f ok) := by
  unfold State.arrive
  repeat' first
    | with_reducible assumption
    | with_reducible exact Keep.refl _
    | with_reducible apply State.modPort_keep
    | with_reducible apply State.sendOn_keep
    | with_reducible apply State.sendPacket_keep
    | with_reducible apply State.sendAnswer_keep
    | with_reducible apply State.discardFrame_keep
    | with_reducible apply State.passOn_keep
    | with_reducible exact KeepOpt.none
    | with_reducible apply KeepOpt.some
    | (refine KeepOpt.elim (by assumption) ?_)
    | with_reducible apply KeepArr.stop
    | with_reducible apply KeepArr.deliver
    | intro _
    | split
    | extract_lets

theorem State.arrive_keep {r₀ : State} {s t : State} (port : Nat) (f : Frame) (ok : Bool) (hs : Keep r₀ s)
    (h : s.arrive port f ok = .stop t ∨ s.arrive port f ok = .deliver t) : Keep r₀ t :=
  (State.arrive_keeps port f ok hs).out t h

theorem State.onFrame_keep {r₀ : State} {s : State} (port : Nat) (f : Frame) (ok : Bool) (ty : Nat) (g : State → State)
    (hs : Keep r₀ s) (hg : ∀ (x0 : State), Keep r₀ x0 → Keep r₀ (g x0)) : KeepOut r₀ (State.onFrame s port f ok ty g) := by
  unfold State.onFrame
  split
  · exact KeepOut.next hs
  · split
    · rename_i e
      exact KeepOut.next (State.arrive_keep port f ok hs (Or.inl e))
    · rename_i e
      exact KeepOut.next (hg _ (State.arrive_keep port f ok hs (Or.inr e)))

theorem State.oweCredits_keep {r₀ : State} {s : State} (f : Frame) (keep_s : Keep r₀ s) :
    Keep r₀ (State.oweCredits s f) := by
  unfold State.oweCredits
  repeat' first
    | with_reducible assumption
    | with_reducible exact Keep.refl _
    | with_reducible apply State.modCirc_keep
    | with_reducible exact Nat.le_refl _
    | with_reducible exact id
    | exact fun h => Mgmt.wf_congr h rfl rfl rfl rfl rfl rfl
    | exact fun h => Tiers.wf_congr h rfl rfl
    | exact fun _ => rfl
    | intro _
    | split
    | extract_lets
    | (with_reducible apply Keep.upd)

theorem State.takeOwed_keep {r₀ : State} {s : State} (k n : Nat) (keep_s : Keep r₀ s) :
    Keep r₀ (State.takeOwed s k n) := by
  unfold State.takeOwed
  repeat' first
    | with_reducible assumption
    | with_reducible exact Keep.refl _
    | with_reducible apply State.modCirc_keep
    | with_reducible apply Keep.foldl
    | with_reducible apply KeepExcSnd.foldl
    | with_reducible apply KeepOpt.foldl
    | with_reducible apply KeepExc.foldl
    | with_reducible exact Nat.le_refl _
    | (intro hi; first
      | exact cellsWf_foldl _ _ _ (fun m x h => cellsWf_cellWrite _ _ _ h) hi
      | exact cellsWf_foldl _ _ _ (fun m x h => cellsWf_cellClear _ _ _ h) hi)
    | with_reducible exact id
    | exact fun h => Mgmt.wf_congr h rfl rfl rfl rfl rfl rfl
    | exact fun h => Tiers.wf_congr h rfl rfl
    | exact fun _ => rfl
    | intro _
    | split
    | extract_lets
    | (with_reducible apply Keep.upd)

theorem State.sendCredit_keep {r₀ : State} {s : State} (k : Nat) (keep_s : Keep r₀ s) :
    Keep r₀ (State.sendCredit s k) := by
  unfold State.sendCredit
  repeat' first
    | with_reducible assumption
    | with_reducible exact Keep.refl _
    | with_reducible apply State.sendOn_keep
    | with_reducible apply State.takeOwed_keep
    | with_reducible exact Nat.le_refl _
    | with_reducible exact id
    | exact fun h => Mgmt.wf_congr h rfl rfl rfl rfl rfl rfl
    | exact fun h => Tiers.wf_congr h rfl rfl
    | exact fun _ => rfl
    | intro _
    | split
    | extract_lets
    | (with_reducible apply Keep.upd)

theorem State.sendReq_keep {r₀ : State} {s : State} (r : PeerReq) (keep_s : Keep r₀ s) :
    KeepOpt r₀ (State.sendReq s r) := by
  unfold State.sendReq
  repeat' first
    | with_reducible assumption
    | with_reducible exact Keep.refl _
    | with_reducible apply State.sendOn_keep
    | with_reducible exact KeepOpt.none
    | with_reducible apply KeepOpt.some
    | with_reducible apply KeepOpt.mapSnd
    | with_reducible apply KeepOptSnd.mapSnd
    | with_reducible apply KeepOpt.map
    | with_reducible exact Nat.le_refl _
    | with_reducible exact id
    | exact fun h => Mgmt.wf_congr h rfl rfl rfl rfl rfl rfl
    | exact fun h => Tiers.wf_congr h rfl rfl
    | exact fun _ => rfl
    | intro _
    | split
    | extract_lets
    | (with_reducible apply Keep.upd)

theorem State.fetchPeer_keep {r₀ : State} {s : State} (ctx i chip frame off len : Nat) (keep_s : Keep r₀ s) :
    Keep r₀ (State.fetchPeer s ctx i chip frame off len) := by
  unfold State.fetchPeer
  repeat' first
    | with_reducible assumption
    | with_reducible exact Keep.refl _
    | with_reducible apply State.sendReq_keep
    | with_reducible apply Keep.foldl
    | with_reducible apply KeepExcSnd.foldl
    | with_reducible apply KeepOpt.foldl
    | with_reducible apply KeepExc.foldl
    | with_reducible apply KeepOpt.getD
    | (refine KeepOpt.elim (by assumption) ?_)
    | intro _
    | split
    | extract_lets

theorem State.lendReturn_keep {r₀ : State} {s : State} (part chip frame : Nat) (keep_s : Keep r₀ s) :
    Keep r₀ (State.lendReturn s part chip frame) := by
  unfold State.lendReturn
  repeat' first
    | with_reducible assumption
    | with_reducible exact Keep.refl _
    | with_reducible apply State.sendAnswer_keep
    | intro _
    | split
    | extract_lets

end Sys2Proof.Machine
end

