-- ==== Sys2Proof/Laws/KeepTeardown.lean ====
section
/-! SUPPORT. What the operations and meanings of Machine/Teardown.lean keep (`Keep`, Laws/Keep.lean). -/
set_option linter.all false

namespace Sys2Proof.Machine

theorem State.modJob_keep {r₀ : State} {s : State} (ctx : Nat) (g : Job → Job) (keep_s : Keep r₀ s) :
    Keep r₀ (State.modJob s ctx g) := by
  unfold State.modJob
  repeat' first
    | with_reducible assumption
    | with_reducible exact Keep.refl _
    | with_reducible apply State.modCtx_keep
    | with_reducible exact Nat.le_refl _
    | with_reducible exact id
    | exact fun h => Mgmt.wf_congr h rfl rfl rfl rfl rfl rfl
    | exact fun h => Tiers.wf_congr h rfl rfl
    | exact fun _ => rfl
    | intro _
    | split
    | extract_lets
    | (with_reducible apply Keep.upd)

theorem State.jobCtrl_keep {r₀ : State} {s : State} (ctx chip sub : Nat) (payload : List Byte) (keep_s : Keep r₀ s) :
    Keep r₀ (State.jobCtrl s ctx chip sub payload) := by
  unfold State.jobCtrl
  repeat' first
    | with_reducible assumption
    | with_reducible exact Keep.refl _
    | with_reducible apply State.toChip_keep
    | intro _
    | split
    | extract_lets

theorem State.dropRouted_keep {r₀ : State} {s : State} (ctx : Nat) (f : Frame) (keep_s : Keep r₀ s) :
    Keep r₀ (State.dropRouted s ctx f) := by
  unfold State.dropRouted
  repeat' first
    | with_reducible assumption
    | with_reducible exact Keep.refl _
    | with_reducible apply State.modCtx_keep
    | with_reducible apply State.oweCredits_keep
    | with_reducible exact Nat.le_refl _
    | with_reducible exact id
    | exact fun h => Mgmt.wf_congr h rfl rfl rfl rfl rfl rfl
    | exact fun h => Tiers.wf_congr h rfl rfl
    | exact fun _ => rfl
    | intro _
    | split
    | extract_lets
    | (with_reducible apply Keep.upd)

theorem State.flushHeld_keep {r₀ : State} {s : State} (ctx : Nat) (keep_s : Keep r₀ s) :
    Keep r₀ (State.flushHeld s ctx) := by
  unfold State.flushHeld
  repeat' first
    | with_reducible assumption
    | with_reducible exact Keep.refl _
    | with_reducible apply State.modJob_keep
    | with_reducible apply State.dropRouted_keep
    | with_reducible apply Keep.foldl
    | with_reducible apply KeepExcSnd.foldl
    | with_reducible apply KeepOpt.foldl
    | with_reducible apply KeepExc.foldl
    | with_reducible exact Nat.le_refl _
    | (intro hi; first
      | exact cellsWf_foldl _ _ _ (fun m x h => cellsWf_cellWrite _ _ _ h) hi
      | exact cellsWf_foldl _ _ _ (fun m x h => cellsWf_cellClear _ _ _ h) hi)
    | with_reducible exact id
    | exact fun h => Mgmt.wf_congr h rfl rfl rfl rfl rfl rfl
    | exact fun h => Tiers.wf_congr h rfl rfl
    | exact fun _ => rfl
    | intro _
    | split
    | extract_lets
    | (with_reducible apply Keep.upd)

theorem State.retireCheck_keep {r₀ : State} {s : State} (ctx gen : Nat) (keep_s : Keep r₀ s) :
    Keep r₀ (State.retireCheck s ctx gen) := by
  unfold State.retireCheck
  repeat' first
    | with_reducible assumption
    | with_reducible exact Keep.refl _
    | with_reducible apply State.modJob_keep
    | with_reducible apply State.jobCtrl_keep
    | with_reducible exact Nat.le_refl _
    | with_reducible exact id
    | exact fun h => Mgmt.wf_congr h rfl rfl rfl rfl rfl rfl
    | exact fun h => Tiers.wf_congr h rfl rfl
    | exact fun _ => rfl
    | intro _
    | split
    | extract_lets
    | (with_reducible apply Keep.upd)

theorem State.retireStart_keep {r₀ : State} {s : State} (ctx : Nat) (keep_s : Keep r₀ s) :
    Keep r₀ (State.retireStart s ctx) := by
  unfold State.retireStart
  repeat' first
    | with_reducible assumption
    | with_reducible exact Keep.refl _
    | with_reducible apply State.toChip_keep
    | with_reducible apply State.modJob_keep
    | with_reducible apply State.flushHeld_keep
    | with_reducible apply State.retireCheck_keep
    | with_reducible apply Keep.foldl
    | with_reducible apply KeepExcSnd.foldl
    | with_reducible apply KeepOpt.foldl
    | with_reducible apply KeepExc.foldl
    | with_reducible exact Nat.le_refl _
    | (intro hi; first
      | exact cellsWf_foldl _ _ _ (fun m x h => cellsWf_cellWrite _ _ _ h) hi
      | exact cellsWf_foldl _ _ _ (fun m x h => cellsWf_cellClear _ _ _ h) hi)
    | with_reducible exact id
    | exact fun h => Mgmt.wf_congr h rfl rfl rfl rfl rfl rfl
    | exact fun h => Tiers.wf_congr h rfl rfl
    | exact fun _ => rfl
    | intro _
    | split
    | extract_lets
    | (with_reducible apply Keep.upd)

theorem State.modCores_keep {r₀ : State} {s : State} (cs : List Nat) (g : Core → Core) (keep_s : Keep r₀ s) :
    Keep r₀ (State.modCores s cs g) := by
  unfold State.modCores
  repeat' first
    | with_reducible assumption
    | with_reducible exact Keep.refl _
    | with_reducible apply State.modCore_keep
    | with_reducible apply Keep.foldl
    | with_reducible apply KeepExcSnd.foldl
    | with_reducible apply KeepOpt.foldl
    | with_reducible apply KeepExc.foldl
    | intro _
    | split
    | extract_lets

theorem State.clearLayoutHands_keep {r₀ : State} {s : State} (ctx lnum : Nat) (l : Layout) (keep_s : Keep r₀ s) :
    Keep r₀ (State.clearLayoutHands s ctx lnum l) := by
  unfold State.clearLayoutHands
  repeat' first
    | with_reducible assumption
    | with_reducible exact Keep.refl _
    | with_reducible apply State.finish_keep
    | with_reducible apply State.modCores_keep
    | with_reducible exact Nat.le_refl _
    | with_reducible exact id
    | exact fun h => Mgmt.wf_congr h rfl rfl rfl rfl rfl rfl
    | exact fun h => Tiers.wf_congr h rfl rfl
    | exact fun _ => rfl
    | intro _
    | split
    | extract_lets
    | (with_reducible apply Keep.upd)

theorem State.dropLayout_keep {r₀ : State} {s : State} (ctx lnum : Nat) (keep_s : Keep r₀ s) :
    Keep r₀ (State.dropLayout s ctx lnum) := by
  unfold State.dropLayout
  repeat' first
    | with_reducible assumption
    | with_reducible exact Keep.refl _
    | with_reducible apply State.setLayout_keep
    | with_reducible apply State.clearLayoutHands_keep
    | intro _
    | split
    | extract_lets

theorem State.sendCuts_keep {r₀ : State} {s : State} (ctx lnum : Nat) (keep_s : Keep r₀ s) :
    Keep r₀ (State.sendCuts s ctx lnum) := by
  unfold State.sendCuts
  repeat' first
    | with_reducible assumption
    | with_reducible exact Keep.refl _
    | with_reducible apply State.setLayout_keep
    | with_reducible apply Keep.foldl
    | intro _
    | split
    | extract_lets

theorem State.endSlot_keep {r₀ : State} {s : State} (key : Nat) (v : Slot) (keep_s : Keep r₀ s) :
    Keep r₀ (State.endSlot s key v) := by
  unfold State.endSlot
  repeat' first
    | with_reducible assumption
    | with_reducible exact Keep.refl _
    | with_reducible apply State.modLayout_keep
    | with_reducible apply State.sendCuts_keep
    | with_reducible exact Nat.le_refl _
    | with_reducible exact id
    | exact fun h => Mgmt.wf_congr h rfl rfl rfl rfl rfl rfl
    | exact fun h => Tiers.wf_congr h rfl rfl
    | exact fun _ => rfl
    | intro _
    | split
    | extract_lets
    | (with_reducible apply Keep.upd)

theorem State.endStreams_keep {r₀ : State} {s : State} (f q n : Nat) (keep_s : Keep r₀ s) :
    Keep r₀ (State.endStreams s f q n) := by
  unfold State.endStreams
  repeat' first
    | with_reducible assumption
    | with_reducible exact Keep.refl _
    | with_reducible apply State.endSlot_keep
    | with_reducible apply Keep.foldl
    | with_reducible apply KeepExcSnd.foldl
    | with_reducible apply KeepOpt.foldl
    | with_reducible apply KeepExc.foldl
    | intro _
    | split
    | extract_lets

theorem State.undoReplace_keep {r₀ : State} {s : State} (ctx lnum : Nat) (keep_s : Keep r₀ s) :
    Keep r₀ (State.undoReplace s ctx lnum) := by
  unfold State.undoReplace
  repeat' first
    | with_reducible assumption
    | with_reducible exact Keep.refl _
    | with_reducible apply State.finish_keep
    | with_reducible apply State.setLayout_keep
    | with_reducible apply State.modCores_keep
    | with_reducible exact Nat.le_refl _
    | with_reducible exact id
    | exact fun h => Mgmt.wf_congr h rfl rfl rfl rfl rfl rfl
    | exact fun h => Tiers.wf_congr h rfl rfl
    | exact fun _ => rfl
    | intro _
    | split
    | extract_lets
    | (with_reducible apply Keep.upd)

theorem State.undoMark_keep {r₀ : State} {s : State} (f q n k : Nat) (keep_s : Keep r₀ s) :
    Keep r₀ (State.undoMark s f q n k) := by
  unfold State.undoMark
  repeat' first
    | with_reducible assumption
    | with_reducible exact Keep.refl _
    | with_reducible apply State.work_keep
    | with_reducible apply State.modSess_keep
    | with_reducible exact Nat.le_refl _
    | with_reducible exact id
    | exact fun h => Mgmt.wf_congr h rfl rfl rfl rfl rfl rfl
    | exact fun h => Tiers.wf_congr h rfl rfl
    | exact fun _ => rfl
    | intro _
    | split
    | extract_lets
    | (with_reducible apply Keep.upd)

theorem State.freeCand_keep {r₀ : State} {s : State} (ctx num : Nat) (keep_s : Keep r₀ s) :
    Keep r₀ (State.freeCand s ctx num) := by
  unfold State.freeCand
  repeat' first
    | with_reducible assumption
    | with_reducible exact Keep.refl _
    | with_reducible apply State.unmapEntry_keep
    | with_reducible apply State.rawWrite_keep
    | with_reducible apply Keep.foldl
    | with_reducible apply KeepExcSnd.foldl
    | with_reducible apply KeepOpt.foldl
    | with_reducible apply KeepExc.foldl
    | with_reducible exact Nat.le_refl _
    | (intro hi; first
      | exact cellsWf_foldl _ _ _ (fun m x h => cellsWf_cellWrite _ _ _ h) hi
      | exact cellsWf_foldl _ _ _ (fun m x h => cellsWf_cellClear _ _ _ h) hi)
    | with_reducible exact id
    | exact fun h => Mgmt.wf_congr h rfl rfl rfl rfl rfl rfl
    | exact fun h => Tiers.wf_congr h rfl rfl
    | exact fun _ => rfl
    | intro _
    | split
    | extract_lets
    | (with_reducible apply Keep.upd)

theorem State.checkpoint_keep {r₀ : State} {s : State} (keep_s : Keep r₀ s) :
    Keep r₀ (State.checkpoint s) := by
  unfold State.checkpoint
  repeat' first
    | with_reducible assumption
    | with_reducible exact Keep.refl _
    | with_reducible exact Nat.le_refl _
    | with_reducible exact id
    | exact fun h => Mgmt.wf_congr h rfl rfl rfl rfl rfl rfl
    | exact fun h => Tiers.wf_congr h rfl rfl
    | exact fun _ => rfl
    | intro _
    | split
    | extract_lets
    | (with_reducible apply Keep.upd)

theorem State.undoWork_keep {r₀ : State} {s : State} (f q n : Nat) (c : Cmd) (keep_s : Keep r₀ s) :
    Keep r₀ (State.undoWork s f q n c) := by
  unfold State.undoWork
  repeat' first
    | with_reducible assumption
    | with_reducible exact Keep.refl _
    | with_reducible apply State.work_keep
    | with_reducible apply State.modCtx_keep
    | with_reducible apply State.modLayout_keep
    | with_reducible apply State.modPort_keep
    | with_reducible apply State.dropFrame_keep
    | with_reducible apply State.sendOn_keep
    | with_reducible apply State.tearJob_keep
    | with_reducible apply State.lendReturn_keep
    | with_reducible apply State.modJob_keep
    | with_reducible apply State.retireStart_keep
    | with_reducible apply State.dropLayout_keep
    | with_reducible apply State.undoReplace_keep
    | with_reducible apply State.undoMark_keep
    | with_reducible apply State.freeCand_keep
    | with_reducible apply State.checkpoint_keep
    | with_reducible apply Keep.foldl
    | with_reducible exact Nat.le_refl _
    | with_reducible exact id
    | exact fun h => Mgmt.wf_congr h rfl rfl rfl rfl rfl rfl
    | exact fun h => Tiers.wf_congr h rfl rfl
    | exact fun _ => rfl
    | intro _
    | split
    | extract_lets
    | (with_reducible apply Keep.upd)

theorem State.release_keep {r₀ : State} {s : State} (f q n : Nat) (keep_s : Keep r₀ s) :
    Keep r₀ (State.release s f q n) := by
  unfold State.release
  repeat' first
    | with_reducible assumption
    | with_reducible exact Keep.refl _
    | with_reducible apply State.modCmd_keep
    | with_reducible apply State.dropShadows_keep
    | with_reducible apply State.endStreams_keep
    | with_reducible apply State.undoWork_keep
    | intro _
    | split
    | extract_lets

theorem State.failMoved_keep {r₀ : State} {s : State} (ctx lnum status : Nat) (keep_s : Keep r₀ s) :
    Keep r₀ (State.failMoved s ctx lnum status) := by
  unfold State.failMoved
  repeat' first
    | with_reducible assumption
    | with_reducible exact Keep.refl _
    | with_reducible apply State.modCmd_keep
    | with_reducible apply State.finish_keep
    | with_reducible apply Keep.foldl
    | intro _
    | split
    | extract_lets

theorem State.endCmd_keep {r₀ : State} {s : State} (f q n : Nat) (v : Verdict) (keep_s : Keep r₀ s) :
    Keep r₀ (State.endCmd s f q n v) := by
  unfold State.endCmd
  repeat' first
    | with_reducible assumption
    | with_reducible exact Keep.refl _
    | with_reducible apply State.finish_keep
    | with_reducible apply State.work_keep
    | with_reducible apply State.release_keep
    | with_reducible apply State.failMoved_keep
    | intro _
    | split
    | extract_lets

theorem State.settle_keep {r₀ : State} {s : State} (keep_s : Keep r₀ s) :
    Keep r₀ (State.settle s) := by
  unfold State.settle
  repeat' first
    | with_reducible assumption
    | with_reducible exact Keep.refl _
    | with_reducible apply State.mapCmds_keep
    | with_reducible apply State.work_keep
    | with_reducible exact Nat.le_refl _
    | with_reducible exact id
    | exact fun h => Mgmt.wf_congr h rfl rfl rfl rfl rfl rfl
    | exact fun h => Tiers.wf_congr h rfl rfl
    | exact fun _ => rfl
    | intro _
    | split
    | extract_lets
    | (with_reducible apply Keep.upd)

theorem State.cancelCmd_keep {r₀ : State} {s : State} (f q n : Nat) (v : Verdict) (keep_s : Keep r₀ s) :
    Keep r₀ (State.cancelCmd s f q n v) := by
  unfold State.cancelCmd
  repeat' first
    | with_reducible assumption
    | with_reducible exact Keep.refl _
    | with_reducible apply State.modCmd_keep
    | with_reducible apply State.endCmd_keep
    | intro _
    | split
    | extract_lets

theorem State.dropKv_keep {r₀ : State} {s : State} (ctx : Nat) (keep_s : Keep r₀ s) :
    Keep r₀ (State.dropKv s ctx) := by
  unfold State.dropKv
  repeat' first
    | with_reducible assumption
    | with_reducible exact Keep.refl _
    | with_reducible exact Nat.le_refl _
    | with_reducible exact id
    | exact fun h => Mgmt.wf_congr h rfl rfl rfl rfl rfl rfl
    | exact fun h => Tiers.wf_congr h rfl rfl
    | exact fun _ => rfl
    | intro _
    | split
    | extract_lets
    | (with_reducible apply Keep.upd)

theorem State.unmapAll_keep {r₀ : State} {s : State} (ctx : Nat) (keep_s : Keep r₀ s) :
    Keep r₀ (State.unmapAll s ctx) := by
  unfold State.unmapAll
  repeat' first
    | with_reducible assumption
    | with_reducible exact Keep.refl _
    | with_reducible apply State.unmapEntry_keep
    | with_reducible apply Keep.foldl
    | with_reducible apply KeepExcSnd.foldl
    | with_reducible apply KeepOpt.foldl
    | with_reducible apply KeepExc.foldl
    | intro _
    | split
    | extract_lets

theorem State.clearContextCores_keep {r₀ : State} {s : State} (ctx : Nat) (keep_s : Keep r₀ s) :
    Keep r₀ (State.clearContextCores s ctx) := by
  unfold State.clearContextCores
  repeat' first
    | with_reducible assumption
    | with_reducible exact Keep.refl _
    | with_reducible apply State.finish_keep
    | with_reducible exact Nat.le_refl _
    | with_reducible exact id
    | exact fun h => Mgmt.wf_congr h rfl rfl rfl rfl rfl rfl
    | exact fun h => Tiers.wf_congr h rfl rfl
    | exact fun _ => rfl
    | intro _
    | split
    | extract_lets
    | (with_reducible apply Keep.upd)

theorem State.teardownBy_keep {r₀ : State} {s : State} (ctx st : Nat) (verdict : Nat → Nat → Cmd → Verdict) (keep_s : Keep r₀ s) :
    Keep r₀ (State.teardownBy s ctx st verdict) := by
  unfold State.teardownBy
  repeat' first
    | with_reducible assumption
    | with_reducible exact Keep.refl _
    | with_reducible apply State.modCtx_keep
    | with_reducible apply State.report_keep
    | with_reducible apply State.tearJob_keep
    | with_reducible apply State.endCmd_keep
    | with_reducible apply State.dropKv_keep
    | with_reducible apply State.unmapAll_keep
    | with_reducible apply State.clearContextCores_keep
    | with_reducible apply Keep.foldl
    | with_reducible apply KeepExcSnd.foldl
    | with_reducible apply KeepOpt.foldl
    | with_reducible apply KeepExc.foldl
    | with_reducible exact Nat.le_refl _
    | (intro hi; first
      | exact cellsWf_foldl _ _ _ (fun m x h => cellsWf_cellWrite _ _ _ h) hi
      | exact cellsWf_foldl _ _ _ (fun m x h => cellsWf_cellClear _ _ _ h) hi)
    | with_reducible exact id
    | exact fun h => Mgmt.wf_congr h rfl rfl rfl rfl rfl rfl
    | exact fun h => Tiers.wf_congr h rfl rfl
    | exact fun _ => rfl
    | intro _
    | split
    | extract_lets
    | (with_reducible apply Keep.upd)

theorem State.teardown_keep {r₀ : State} {s : State} (ctx : Nat) (v : Verdict) (hit : Nat → Nat → Cmd → Bool) (keep_s : Keep r₀ s) :
    Keep r₀ (State.teardown s ctx v hit) := by
  unfold State.teardown
  repeat' first
    | with_reducible assumption
    | with_reducible exact Keep.refl _
    | with_reducible apply State.teardownBy_keep
    | intro _
    | split
    | extract_lets

theorem State.loseCluster_keep {r₀ : State} {s : State} (cl cause : Nat) (keep_s : Keep r₀ s) :
    Keep r₀ (State.loseCluster s cl cause) := by
  unfold State.loseCluster
  repeat' first
    | with_reducible assumption
    | with_reducible exact Keep.refl _
    | with_reducible apply State.fenceCluster_keep
    | with_reducible apply State.teardown_keep
    | with_reducible apply Keep.foldl
    | intro _
    | split
    | extract_lets

theorem State.cmemFault_keep {r₀ : State} {s : State} (cl : Nat) (keep_s : Keep r₀ s) :
    Keep r₀ (State.cmemFault s cl) := by
  unfold State.cmemFault
  repeat' first
    | with_reducible assumption
    | with_reducible exact Keep.refl _
    | with_reducible apply State.loseCluster_keep
    | with_reducible exact Nat.le_refl _
    | with_reducible exact id
    | exact fun h => Mgmt.wf_congr h rfl rfl rfl rfl rfl rfl
    | exact fun h => Tiers.wf_congr h rfl rfl
    | exact fun _ => rfl
    | intro _
    | split
    | extract_lets
    | (with_reducible apply Keep.upd)

theorem State.peerGone_keep {r₀ : State} {s : State} (chip : Nat) (keep_s : Keep r₀ s) :
    Keep r₀ (State.peerGone s chip) := by
  unfold State.peerGone
  repeat' first
    | with_reducible assumption
    | with_reducible exact Keep.refl _
    | with_reducible apply State.invalidate_keep
    | with_reducible apply State.teardown_keep
    | with_reducible apply Keep.foldl
    | with_reducible apply KeepExcSnd.foldl
    | with_reducible apply KeepOpt.foldl
    | with_reducible apply KeepExc.foldl
    | with_reducible exact Nat.le_refl _
    | (intro hi; first
      | exact cellsWf_foldl _ _ _ (fun m x h => cellsWf_cellWrite _ _ _ h) hi
      | exact cellsWf_foldl _ _ _ (fun m x h => cellsWf_cellClear _ _ _ h) hi
      | exact Tiers.wf_upd hi (fun h => cellsWf_foldl _ _ _ (fun m x h => cellsWf_cellWrite _ _ _ h) h) id)
    | with_reducible exact id
    | exact fun h => Mgmt.wf_congr h rfl rfl rfl rfl rfl rfl
    | exact fun h => Tiers.wf_congr h rfl rfl
    | exact fun _ => rfl
    | intro _
    | split
    | extract_lets
    | (with_reducible apply Keep.upd)

theorem State.afterRoutes_keep {r₀ : State} {s old : State} (keep_s : Keep r₀ s) :
    Keep r₀ (State.afterRoutes s old) := by
  unfold State.afterRoutes
  repeat' first
    | with_reducible assumption
    | with_reducible exact Keep.refl _
    | with_reducible apply State.peerGone_keep
    | with_reducible apply Keep.foldl
    | with_reducible apply KeepExcSnd.foldl
    | with_reducible apply KeepOpt.foldl
    | with_reducible apply KeepExc.foldl
    | intro _
    | split
    | extract_lets

theorem State.endJob_keep {r₀ : State} {s : State} (ctx : Nat) (keep_s : Keep r₀ s) :
    Keep r₀ (State.endJob s ctx) := by
  unfold State.endJob
  repeat' first
    | with_reducible assumption
    | with_reducible exact Keep.refl _
    | with_reducible apply State.modCtx_keep
    | with_reducible apply State.tearJob_keep
    | with_reducible exact Nat.le_refl _
    | with_reducible exact id
    | exact fun h => Mgmt.wf_congr h rfl rfl rfl rfl rfl rfl
    | exact fun h => Tiers.wf_congr h rfl rfl
    | exact fun _ => rfl
    | intro _
    | split
    | extract_lets
    | (with_reducible apply Keep.upd)

theorem State.failOpen_keep {r₀ : State} {s : State} (ctx a : Nat) (keep_s : Keep r₀ s) :
    Keep r₀ (State.failOpen s ctx a) := by
  unfold State.failOpen
  repeat' first
    | with_reducible assumption
    | with_reducible exact Keep.refl _
    | with_reducible apply State.work_keep
    | with_reducible apply State.endCmd_keep
    | intro _
    | split
    | extract_lets

theorem State.endpointTorn_keep {r₀ : State} {s : State} (ctx k cause lost : Nat) (own : Bool) (keep_s : Keep r₀ s) :
    Keep r₀ (State.endpointTorn s ctx k cause lost own) := by
  unfold State.endpointTorn
  repeat' first
    | with_reducible assumption
    | with_reducible exact Keep.refl _
    | with_reducible apply State.cause_keep
    | with_reducible apply State.teardown_keep
    | with_reducible apply State.endJob_keep
    | with_reducible apply State.failOpen_keep
    | intro _
    | split
    | extract_lets

theorem State.tearHere_keep {r₀ : State} {s : State} (k cause lost : Nat) (from' : Option Nat) (keep_s : Keep r₀ s) :
    Keep r₀ (State.tearHere s k cause lost from') := by
  unfold State.tearHere
  repeat' first
    | with_reducible assumption
    | with_reducible exact Keep.refl _
    | with_reducible apply State.cause_keep
    | with_reducible apply State.tearEntry_keep
    | with_reducible apply State.endpointTorn_keep
    | intro _
    | split
    | extract_lets

theorem State.portDown_keep {r₀ : State} {s : State} (port cause : Nat) (keep_s : Keep r₀ s) :
    Keep r₀ (State.portDown s port cause) := by
  unfold State.portDown
  repeat' first
    | with_reducible assumption
    | with_reducible exact Keep.refl _
    | with_reducible apply State.done_keep
    | with_reducible apply State.work_keep
    | with_reducible apply State.modPort_keep
    | with_reducible apply State.report_keep
    | with_reducible apply State.afterRoutes_keep
    | with_reducible apply State.tearHere_keep
    | with_reducible apply Keep.foldl
    | with_reducible exact Nat.le_refl _
    | with_reducible exact id
    | exact fun h => Mgmt.wf_congr h rfl rfl rfl rfl rfl rfl
    | exact fun h => Tiers.wf_congr h rfl rfl
    | exact fun _ => rfl
    | intro _
    | split
    | extract_lets
    | (with_reducible apply Keep.upd)

end Sys2Proof.Machine
end

