-- ==== Sys2Proof/Laws/KeepQueues.lean ====
section
/-! SUPPORT. What the operations and meanings of Machine/Queues.lean keep (`Keep`, Laws/Keep.lean). -/
set_option linter.all false

namespace Sys2Proof.Machine

theorem State.dbError_keep {r₀ : State} {s : State} (f q : Nat) (keep_s : Keep r₀ s) :
    Keep r₀ (State.dbError s f q) := by
  unfold State.dbError
  repeat' first
    | with_reducible assumption
    | with_reducible exact Keep.refl _
    | with_reducible apply State.modQueue_keep
    | with_reducible apply State.cause_keep
    | with_reducible exact Nat.le_refl _
    | with_reducible exact id
    | exact fun h => Mgmt.wf_congr h rfl rfl rfl rfl rfl rfl
    | exact fun h => Tiers.wf_congr h rfl rfl
    | exact fun _ => rfl
    | intro _
    | split
    | extract_lets
    | (with_reducible apply Keep.upd)

theorem State.writeSqTail_keep {r₀ : State} {s : State} (f q value : Nat) (keep_s : Keep r₀ s) :
    Keep r₀ (State.writeSqTail s f q value) := by
  unfold State.writeSqTail
  repeat' first
    | with_reducible assumption
    | with_reducible exact Keep.refl _
    | with_reducible apply State.modQueue_keep
    | with_reducible apply State.dbError_keep
    | with_reducible exact Nat.le_refl _
    | with_reducible exact id
    | exact fun h => Mgmt.wf_congr h rfl rfl rfl rfl rfl rfl
    | exact fun h => Tiers.wf_congr h rfl rfl
    | exact fun _ => rfl
    | intro _
    | split
    | extract_lets
    | (with_reducible apply Keep.upd)

theorem execSqTailDoorbell_keep {r₀ : State} (f q value : Nat) {s : State} (keep_s : Keep r₀ s) :
    KeepOut r₀ (execSqTailDoorbell f q value s) := by
  unfold execSqTailDoorbell
  repeat' first
    | with_reducible assumption
    | with_reducible exact Keep.refl _
    | with_reducible apply onlyIf_keep
    | with_reducible apply State.writeSqTail_keep
    | with_reducible apply KeepOut.next
    | with_reducible apply KeepOut.onlyIf
    | with_reducible exact KeepOut.refused
    | intro _
    | split
    | extract_lets

theorem State.writeCqHead_keep {r₀ : State} {s : State} (f q value : Nat) (keep_s : Keep r₀ s) :
    Keep r₀ (State.writeCqHead s f q value) := by
  unfold State.writeCqHead
  repeat' first
    | with_reducible assumption
    | with_reducible exact Keep.refl _
    | with_reducible apply State.modQueue_keep
    | with_reducible apply State.dbError_keep
    | with_reducible exact Nat.le_refl _
    | with_reducible exact id
    | exact fun h => Mgmt.wf_congr h rfl rfl rfl rfl rfl rfl
    | exact fun h => Tiers.wf_congr h rfl rfl
    | exact fun _ => rfl
    | intro _
    | split
    | extract_lets
    | (with_reducible apply Keep.upd)

theorem execCqHeadDoorbell_keep {r₀ : State} (f q value : Nat) {s : State} (keep_s : Keep r₀ s) :
    KeepOut r₀ (execCqHeadDoorbell f q value s) := by
  unfold execCqHeadDoorbell
  repeat' first
    | with_reducible assumption
    | with_reducible exact Keep.refl _
    | with_reducible apply onlyIf_keep
    | with_reducible apply State.writeCqHead_keep
    | with_reducible apply KeepOut.next
    | with_reducible apply KeepOut.onlyIf
    | with_reducible exact KeepOut.refused
    | intro _
    | split
    | extract_lets

theorem State.enterReset_keep {r₀ : State} {s : State} (f q : Nat) (keep_s : Keep r₀ s) :
    Keep r₀ (State.enterReset s f q) := by
  unfold State.enterReset
  repeat' first
    | with_reducible assumption
    | with_reducible exact Keep.refl _
    | with_reducible apply State.modQueue_keep
    | with_reducible apply State.release_keep
    | with_reducible apply Keep.foldl
    | intro _
    | split
    | extract_lets

theorem State.writeControl_keep {r₀ : State} {s : State} (f q : Nat) (v : Word) (keep_s : Keep r₀ s) :
    Keep r₀ (State.writeControl s f q v) := by
  unfold State.writeControl
  repeat' first
    | with_reducible assumption
    | with_reducible exact Keep.refl _
    | with_reducible apply State.modQueue_keep
    | with_reducible apply State.cause_keep
    | with_reducible apply State.enterReset_keep
    | with_reducible exact Nat.le_refl _
    | with_reducible exact id
    | exact fun h => Mgmt.wf_congr h rfl rfl rfl rfl rfl rfl
    | exact fun h => Tiers.wf_congr h rfl rfl
    | exact fun _ => rfl
    | intro _
    | split
    | extract_lets
    | (with_reducible apply Keep.upd)

theorem execQueueEnable_keep {r₀ : State} (f q : Nat) (v : Word) {s : State} (keep_s : Keep r₀ s) :
    KeepOut r₀ (execQueueEnable f q v s) := by
  unfold execQueueEnable
  repeat' first
    | with_reducible assumption
    | with_reducible exact Keep.refl _
    | with_reducible apply onlyIf_keep
    | with_reducible apply State.writeControl_keep
    | with_reducible apply KeepOut.next
    | with_reducible apply KeepOut.onlyIf
    | with_reducible exact KeepOut.refused
    | intro _
    | split
    | extract_lets

theorem execQueueDisable_keep {r₀ : State} (f q : Nat) (v : Word) {s : State} (keep_s : Keep r₀ s) :
    KeepOut r₀ (execQueueDisable f q v s) := by
  unfold execQueueDisable
  repeat' first
    | with_reducible assumption
    | with_reducible exact Keep.refl _
    | with_reducible apply onlyIf_keep
    | with_reducible apply State.writeControl_keep
    | with_reducible apply KeepOut.next
    | with_reducible apply KeepOut.onlyIf
    | with_reducible exact KeepOut.refused
    | intro _
    | split
    | extract_lets

theorem execQueueReset_keep {r₀ : State} (f q : Nat) (v : Word) {s : State} (keep_s : Keep r₀ s) :
    KeepOut r₀ (execQueueReset f q v s) := by
  unfold execQueueReset
  repeat' first
    | with_reducible assumption
    | with_reducible exact Keep.refl _
    | with_reducible apply onlyIf_keep
    | with_reducible apply State.writeControl_keep
    | with_reducible apply KeepOut.next
    | with_reducible apply KeepOut.onlyIf
    | with_reducible exact KeepOut.refused
    | intro _
    | split
    | extract_lets

theorem execQueueResume_keep {r₀ : State} (f q : Nat) (v : Word) {s : State} (keep_s : Keep r₀ s) :
    KeepOut r₀ (execQueueResume f q v s) := by
  unfold execQueueResume
  repeat' first
    | with_reducible assumption
    | with_reducible exact Keep.refl _
    | with_reducible apply onlyIf_keep
    | with_reducible apply State.writeControl_keep
    | with_reducible apply KeepOut.next
    | with_reducible apply KeepOut.onlyIf
    | with_reducible exact KeepOut.refused
    | intro _
    | split
    | extract_lets

theorem execQueueResetDone_keep {r₀ : State} (f q : Nat) {s : State} (keep_s : Keep r₀ s) :
    KeepOut r₀ (execQueueResetDone f q s) := by
  unfold execQueueResetDone
  repeat' first
    | with_reducible assumption
    | with_reducible exact Keep.refl _
    | with_reducible apply onlyIf_keep
    | with_reducible apply State.modQueue_keep
    | with_reducible apply KeepOut.next
    | with_reducible apply KeepOut.onlyIf
    | with_reducible exact KeepOut.refused
    | with_reducible exact Nat.le_refl _
    | with_reducible exact id
    | exact fun h => Mgmt.wf_congr h rfl rfl rfl rfl rfl rfl
    | exact fun h => Tiers.wf_congr h rfl rfl
    | exact fun _ => rfl
    | intro _
    | split
    | extract_lets
    | (with_reducible apply Keep.upd)

theorem execCommandFetch_keep {r₀ : State} (f q : Nat) (packet : List Word) {s : State} (keep_s : Keep r₀ s) :
    KeepOut r₀ (execCommandFetch f q packet s) := by
  unfold execCommandFetch
  repeat' first
    | with_reducible assumption
    | with_reducible exact Keep.refl _
    | with_reducible apply onlyIf_keep
    | with_reducible apply State.modFn_keep
    | with_reducible apply State.modQueue_keep
    | with_reducible apply State.finish_keep
    | with_reducible apply KeepOut.next
    | with_reducible apply KeepOut.onlyIf
    | with_reducible exact KeepOut.refused
    | intro _
    | split
    | extract_lets

theorem execCoalesceTimeout_keep {r₀ : State} (f q : Nat) {s : State} (keep_s : Keep r₀ s) :
    KeepOut r₀ (execCoalesceTimeout f q s) := by
  unfold execCoalesceTimeout
  repeat' first
    | with_reducible assumption
    | with_reducible exact Keep.refl _
    | with_reducible apply onlyIf_keep
    | with_reducible apply State.modQueue_keep
    | with_reducible apply State.due_keep
    | with_reducible apply KeepOut.next
    | with_reducible apply KeepOut.onlyIf
    | with_reducible exact KeepOut.refused
    | with_reducible exact Nat.le_refl _
    | with_reducible exact id
    | exact fun h => Mgmt.wf_congr h rfl rfl rfl rfl rfl rfl
    | exact fun h => Tiers.wf_congr h rfl rfl
    | exact fun _ => rfl
    | intro _
    | split
    | extract_lets
    | (with_reducible apply Keep.upd)

theorem execRateToken_keep {r₀ : State} (f v : Nat) {s : State} (keep_s : Keep r₀ s) :
    KeepOut r₀ (execRateToken f v s) := by
  unfold execRateToken
  repeat' first
    | with_reducible assumption
    | with_reducible exact Keep.refl _
    | with_reducible apply onlyIf_keep
    | with_reducible apply State.modVec_keep
    | with_reducible apply State.sendMsg_keep
    | with_reducible apply KeepOut.next
    | with_reducible apply KeepOut.onlyIf
    | with_reducible exact KeepOut.refused
    | with_reducible exact Nat.le_refl _
    | with_reducible exact id
    | exact fun h => Mgmt.wf_congr h rfl rfl rfl rfl rfl rfl
    | exact fun h => Tiers.wf_congr h rfl rfl
    | exact fun _ => rfl
    | intro _
    | split
    | extract_lets
    | (with_reducible apply Keep.upd)

theorem execNop_keep {r₀ : State} (f q n : Nat) {s : State} (keep_s : Keep r₀ s) :
    KeepOut r₀ (execNop f q n s) := by
  unfold execNop
  repeat' first
    | with_reducible assumption
    | with_reducible exact Keep.refl _
    | with_reducible apply State.done_keep
    | with_reducible apply State.work_keep
    | with_reducible apply State.checked_keep
    | with_reducible apply KeepOut.next
    | with_reducible apply KeepOut.onlyIf
    | with_reducible exact KeepOut.refused
    | intro _
    | split
    | extract_lets

theorem execCancel_keep {r₀ : State} (f q n : Nat) {s : State} (keep_s : Keep r₀ s) :
    KeepOut r₀ (execCancel f q n s) := by
  unfold execCancel
  repeat' first
    | with_reducible assumption
    | with_reducible exact Keep.refl _
    | with_reducible apply State.done_keep
    | with_reducible apply State.setWork_keep
    | with_reducible apply State.work_keep
    | with_reducible apply State.checked_keep
    | with_reducible apply State.cancelCmd_keep
    | with_reducible apply Keep.foldl
    | with_reducible apply KeepOut.next
    | with_reducible apply KeepOut.onlyIf
    | with_reducible exact KeepOut.refused
    | intro _
    | split
    | extract_lets

end Sys2Proof.Machine
end

