-- ==== Sys2Proof/Laws/KeepCores.lean ====
section
/-! SUPPORT. What the operations and meanings of Machine/Cores.lean keep (`Keep`, Laws/Keep.lean). -/
set_option linter.all false

namespace Sys2Proof.Machine

theorem State.overflow_keep {r₀ : State} {s : State} (ctx : Nat) (o : Overflow) (keep_s : Keep r₀ s) :
    Keep r₀ (State.overflow s ctx o) := by
  unfold State.overflow
  repeat' first
    | with_reducible assumption
    | with_reducible exact Keep.refl _
    | with_reducible apply State.mapCmds_keep
    | with_reducible apply State.modCtx_keep
    | with_reducible exact Nat.le_refl _
    | with_reducible exact id
    | exact fun h => Mgmt.wf_congr h rfl rfl rfl rfl rfl rfl
    | exact fun h => Tiers.wf_congr h rfl rfl
    | exact fun _ => rfl
    | intro _
    | split
    | extract_lets
    | (with_reducible apply Keep.upd)

theorem State.indicate_keep {r₀ : State} {s : State} (ctx lnum : Nat) (own : Option (Nat × Nat × Nat)) (on : Bool) (keep_s : Keep r₀ s) :
    Keep r₀ (State.indicate s ctx lnum own on) := by
  unfold State.indicate
  repeat' first
    | with_reducible assumption
    | with_reducible exact Keep.refl _
    | with_reducible apply State.modCmd_keep
    | with_reducible apply State.mapCmds_keep
    | intro _
    | split
    | extract_lets

theorem State.staleIn_keep {r₀ : State} {s : State} (core slot ctx n : Nat) (keep_s : Keep r₀ s) :
    Keep r₀ (State.staleIn s core slot ctx n) := by
  unfold State.staleIn
  repeat' first
    | with_reducible assumption
    | with_reducible exact Keep.refl _
    | with_reducible apply State.modHand_keep
    | with_reducible apply State.modCtx_keep
    | with_reducible exact Nat.le_refl _
    | with_reducible exact id
    | exact fun h => Mgmt.wf_congr h rfl rfl rfl rfl rfl rfl
    | exact fun h => Tiers.wf_congr h rfl rfl
    | exact fun _ => rfl
    | intro _
    | split
    | extract_lets
    | (with_reducible apply Keep.upd)

theorem State.faultOn_keep {r₀ : State} {s : State} (ctx lnum : Nat) (v : Verdict) (keep_s : Keep r₀ s) :
    Keep r₀ (State.faultOn s ctx lnum v) := by
  unfold State.faultOn
  repeat' first
    | with_reducible assumption
    | with_reducible exact Keep.refl _
    | with_reducible apply State.teardown_keep
    | intro _
    | split
    | extract_lets

theorem State.unroutedTile_keep {r₀ : State} {s : State} (core : Nat) (t : Tile) (keep_s : Keep r₀ s) :
    Keep r₀ (State.unroutedTile s core t) := by
  unfold State.unroutedTile
  extract_lets l s1
  have k1 : Keep r₀ s1 := State.modHand_keep _ _ _ (State.modCore_keep _ _ keep_s)
  cases l with
  | none => exact State.teardown_keep _ _ _ k1
  | some n => exact State.faultOn_keep _ _ _ k1

theorem State.sendOut_keep {r₀ : State} {s : State} (core : Nat) (t : Tile) (port ch : Nat) (keep_s : Keep r₀ s) :
    Keep r₀ (State.sendOut s core t port ch) := by
  unfold State.sendOut
  repeat' first
    | with_reducible assumption
    | with_reducible exact Keep.refl _
    | with_reducible apply State.modCore_keep
    | with_reducible apply State.modLayout_keep
    | intro _
    | split
    | extract_lets

theorem State.closedTile_keep {r₀ : State} {s : State} (core : Nat) (t : Tile) (keep_s : Keep r₀ s) :
    Keep r₀ (State.closedTile s core t) := by
  unfold State.closedTile
  repeat' first
    | with_reducible assumption
    | with_reducible exact Keep.refl _
    | with_reducible apply State.teardown_keep
    | with_reducible apply State.faultOn_keep
    | intro _
    | split
    | extract_lets

theorem State.sendMark_keep {r₀ : State} {s : State} (core : Nat) (t : Tile) (d : Dest) (keep_s : Keep r₀ s) :
    Keep r₀ (State.sendMark s core t d) := by
  unfold State.sendMark
  repeat' first
    | with_reducible assumption
    | with_reducible exact Keep.refl _
    | with_reducible apply State.sendOut_keep
    | with_reducible apply State.closedTile_keep
    | intro _
    | split
    | extract_lets

theorem State.intoHand_keep {r₀ : State} {s : State} (core : Nat) (t : Tile) (r : Route) (ri : Nat) (target : Nat) (keep_s : Keep r₀ s) :
    Keep r₀ (State.intoHand s core t r ri target) := by
  unfold State.intoHand
  repeat' first
    | with_reducible assumption
    | with_reducible exact Keep.refl _
    | with_reducible apply State.modHand_keep
    | with_reducible apply State.modCtx_keep
    | with_reducible apply State.overflow_keep
    | with_reducible apply State.staleIn_keep
    | with_reducible apply State.unroutedTile_keep
    | with_reducible apply Keep.foldl
    | with_reducible apply KeepExcSnd.foldl
    | with_reducible apply KeepOpt.foldl
    | with_reducible apply KeepExc.foldl
    | with_reducible exact Nat.le_refl _
    | (intro hi; first
      | exact cellsWf_cellWrite _ _ _ hi
      | exact cellsWf_foldl _ _ _ (fun m x h => cellsWf_cellWrite _ _ _ h) hi
      | exact cellsWf_foldl _ _ _ (fun m x h => cellsWf_cellClear _ _ _ h) hi)
    | with_reducible exact id
    | exact fun h => Mgmt.wf_congr h rfl rfl rfl rfl rfl rfl
    | exact fun h => Tiers.wf_congr h rfl rfl
    | exact fun _ => rfl
    | intro _
    | split
    | extract_lets
    | (with_reducible apply Keep.upd)

theorem State.toDests_keep {r₀ : State} {s : State} (core src : Nat) (r : Route) (ri : Nat) (mk : Dest → Tile) (keep_s : Keep r₀ s) :
    Keep r₀ (State.toDests s core src r ri mk) := by
  unfold State.toDests
  repeat' first
    | with_reducible assumption
    | with_reducible exact Keep.refl _
    | with_reducible apply State.modCore_keep
    | with_reducible apply State.sendOut_keep
    | with_reducible apply State.closedTile_keep
    | with_reducible apply State.intoHand_keep
    | with_reducible apply Keep.foldl
    | intro _
    | split
    | extract_lets

theorem State.emitTile_keep {r₀ : State} {s : State} (core slot src sel : Nat) (t : Tile) (keep_s : Keep r₀ s) :
    Keep r₀ (State.emitTile s core slot src sel t) := by
  unfold State.emitTile
  repeat' first
    | with_reducible assumption
    | with_reducible exact Keep.refl _
    | with_reducible apply State.unroutedTile_keep
    | with_reducible apply State.toDests_keep
    | intro _
    | split
    | extract_lets

theorem State.finishSlot_keep {r₀ : State} {s : State} (key : Nat) (v : Slot) (keep_s : Keep r₀ s) :
    Keep r₀ (State.finishSlot s key v) := by
  unfold State.finishSlot
  repeat' first
    | with_reducible assumption
    | with_reducible exact Keep.refl _
    | with_reducible apply State.modCmd_keep
    | with_reducible apply State.work_keep
    | with_reducible apply State.endSlot_keep
    | with_reducible exact Nat.le_refl _
    | with_reducible exact id
    | exact fun h => Mgmt.wf_congr h rfl rfl rfl rfl rfl rfl
    | exact fun h => Tiers.wf_congr h rfl rfl
    | exact fun _ => rfl
    | intro _
    | split
    | extract_lets
    | (with_reducible apply Keep.upd)

theorem State.endIfDone_keep {r₀ : State} {s : State} (key : Nat) (keep_s : Keep r₀ s) :
    Keep r₀ (State.endIfDone s key) := by
  unfold State.endIfDone
  repeat' first
    | with_reducible assumption
    | with_reducible exact Keep.refl _
    | with_reducible apply State.finishSlot_keep
    | intro _
    | split
    | extract_lets

theorem State.remark_keep {r₀ : State} {s : State} (key : Nat) (keep_s : Keep r₀ s) :
    Keep r₀ (State.remark s key) := by
  unfold State.remark
  repeat' first
    | with_reducible assumption
    | with_reducible exact Keep.refl _
    | with_reducible apply State.modCtx_keep
    | with_reducible exact Nat.le_refl _
    | with_reducible exact id
    | exact fun h => Mgmt.wf_congr h rfl rfl rfl rfl rfl rfl
    | exact fun h => Tiers.wf_congr h rfl rfl
    | exact fun _ => rfl
    | intro _
    | split
    | extract_lets
    | (with_reducible apply Keep.upd)

theorem State.snapTake_keep {r₀ : State} {s : State} (core input : Nat) (t : Tile) (keep_s : Keep r₀ s) :
    Keep r₀ (State.snapTake s core input t) := by
  unfold State.snapTake
  repeat' first
    | with_reducible assumption
    | with_reducible exact Keep.refl _
    | with_reducible apply State.modCore_keep
    | intro _
    | split
    | extract_lets

theorem State.takeInput_keep {r₀ : State} {s0 : State} (core port ch : Nat) (t : Tile) (from' : Option (Nat × Nat × Nat)) (keep_s0 : Keep r₀ s0) :
    Keep r₀ (State.takeInput s0 core port ch t from') := by
  unfold State.takeInput
  repeat' first
    | with_reducible assumption
    | with_reducible exact Keep.refl _
    | with_reducible apply State.modCore_keep
    | with_reducible apply State.modLayout_keep
    | with_reducible apply State.endIfDone_keep
    | with_reducible apply State.remark_keep
    | with_reducible apply State.snapTake_keep
    | with_reducible exact Nat.le_refl _
    | with_reducible exact id
    | exact fun h => Mgmt.wf_congr h rfl rfl rfl rfl rfl rfl
    | exact fun h => Tiers.wf_congr h rfl rfl
    | exact fun _ => rfl
    | intro _
    | split
    | extract_lets
    | (with_reducible apply Keep.upd)

theorem execTileArrive_keep {r₀ : State} (core port ch : Nat) {s : State} (keep_s : Keep r₀ s) :
    KeepOut r₀ (execTileArrive core port ch s) := by
  unfold execTileArrive
  repeat' first
    | with_reducible assumption
    | with_reducible exact Keep.refl _
    | with_reducible apply onlyIf_keep
    | with_reducible apply State.unroutedTile_keep
    | with_reducible apply State.toDests_keep
    | with_reducible apply State.takeInput_keep
    | with_reducible apply KeepOut.next
    | with_reducible apply KeepOut.onlyIf
    | with_reducible exact KeepOut.refused
    | intro _
    | split
    | extract_lets

theorem State.fenceNow_keep {r₀ : State} {s : State} (core cause : Nat) (keep_s : Keep r₀ s) :
    Keep r₀ (State.fenceNow s core cause) := by
  unfold State.fenceNow
  repeat' first
    | with_reducible assumption
    | with_reducible exact Keep.refl _
    | with_reducible apply State.modCore_keep
    | with_reducible apply State.cause_keep
    | with_reducible apply State.fenceCore_keep
    | with_reducible exact Nat.le_refl _
    | with_reducible exact id
    | exact fun h => Mgmt.wf_congr h rfl rfl rfl rfl rfl rfl
    | exact fun h => Tiers.wf_congr h rfl rfl
    | exact fun _ => rfl
    | intro _
    | split
    | extract_lets
    | (with_reducible apply Keep.upd)

theorem State.coreCheck_keep {r₀ : State} {s : State} (core ctx lnum first len : Nat) (err : CoreErr) (keep_s : Keep r₀ s) :
    Keep r₀ (State.coreCheck s core ctx lnum first len err).1 := by
  unfold State.coreCheck
  extract_lets hit cl s1r
  split
  · exact keep_s
  · extract_lets n
    split
    · exact keep_s
    · exact State.report_keep _ _ _ _ _ (State.modCore_keep _ _ keep_s)
  · extract_lets bad recur s1 s2 s3
    split
    · exact keep_s
    · have h1 : Keep r₀ s1 := Keep.upd keep_s (Nat.le_refl _) id
        (fun h => cellsWf_foldl _ _ _ (fun m x h => cellsWf_cellClear _ _ _ h) h) id id id
      clear_value s1
      have h2 : Keep r₀ s2 := State.report_keep _ _ _ _ _ (State.modCore_keep _ _ h1)
      clear_value s2
      have h3 : Keep r₀ s3 := State.faultOn_keep _ _ _ h2
      clear_value s3
      split
      · exact State.fenceNow_keep _ _ h3
      · exact h3
  · exact State.fenceNow_keep _ _ (State.faultOn_keep _ _ _ (State.report_keep _ _ _ _ _ keep_s))

theorem State.issue_keep {r₀ : State} {s : State} (core slot : Nat) (h : Hand) (e : PairEntry) (tok : List Word) (keep_s : Keep r₀ s) :
    Keep r₀ (State.issue s core slot h e tok) := by
  unfold State.issue
  repeat' first
    | with_reducible assumption
    | with_reducible exact Keep.refl _
    | with_reducible apply State.modCore_keep
    | with_reducible apply State.modHand_keep
    | with_reducible apply State.overflow_keep
    | with_reducible apply State.indicate_keep
    | with_reducible apply State.emitTile_keep
    | intro _
    | split
    | extract_lets

theorem execPairIssue_keep {r₀ : State} (core : Nat) (err : CoreErr) {s : State} (keep_s : Keep r₀ s) :
    KeepOut r₀ (execPairIssue core err s) := by
  unfold execPairIssue
  repeat' first
    | with_reducible assumption
    | with_reducible exact Keep.refl _
    | with_reducible apply State.modCore_keep
    | with_reducible apply State.faultOn_keep
    | with_reducible apply State.coreCheck_keep
    | with_reducible apply State.issue_keep
    | with_reducible apply KeepOut.next
    | with_reducible apply KeepOut.onlyIf
    | with_reducible exact KeepOut.refused
    | (refine Keep.ofFst (by assumption) ?_)
    | with_reducible exact Nat.le_refl _
    | with_reducible exact id
    | exact fun h => Mgmt.wf_congr h rfl rfl rfl rfl rfl rfl
    | exact fun h => Tiers.wf_congr h rfl rfl
    | exact fun _ => rfl
    | intro _
    | split
    | extract_lets
    | (with_reducible apply Keep.upd)

theorem execStoreWrite_keep {r₀ : State} (core slot : Nat) (err : CoreErr) {s : State} (keep_s : Keep r₀ s) :
    KeepOut r₀ (execStoreWrite core slot err s) := by
  unfold execStoreWrite
  repeat' first
    | with_reducible assumption
    | with_reducible exact Keep.refl _
    | with_reducible apply State.modHand_keep
    | with_reducible apply State.overflow_keep
    | with_reducible apply State.faultOn_keep
    | with_reducible apply State.coreCheck_keep
    | with_reducible apply KeepOut.next
    | with_reducible apply KeepOut.onlyIf
    | with_reducible exact KeepOut.refused
    | (refine Keep.ofFst (by assumption) ?_)
    | with_reducible exact Nat.le_refl _
    | (intro hi; first
      | exact cellsWf_cellWrite _ _ _ hi
      | exact Tiers.wf_upd hi (fun h => cellsWf_cellWrite _ _ _ h) id
      | exact Tiers.wf_upd hi id (fun h => cellsWf_cellWrite _ _ _ h))
    | with_reducible exact id
    | exact fun h => Mgmt.wf_congr h rfl rfl rfl rfl rfl rfl
    | exact fun h => Tiers.wf_congr h rfl rfl
    | exact fun _ => rfl
    | intro _
    | split
    | extract_lets
    | (with_reducible apply Keep.upd)

theorem execDrain_keep {r₀ : State} (core slot : Nat) (err : CoreErr) {s : State} (keep_s : Keep r₀ s) :
    KeepOut r₀ (execDrain core slot err s) := by
  unfold execDrain
  repeat' first
    | with_reducible assumption
    | with_reducible exact Keep.refl _
    | with_reducible apply onlyIf_keep
    | with_reducible apply State.modCore_keep
    | with_reducible apply State.modHand_keep
    | with_reducible apply State.indicate_keep
    | with_reducible apply State.faultOn_keep
    | with_reducible apply State.coreCheck_keep
    | with_reducible apply KeepOut.next
    | with_reducible apply KeepOut.onlyIf
    | with_reducible exact KeepOut.refused
    | (refine Keep.ofFst (by assumption) ?_)
    | intro _
    | split
    | extract_lets

theorem execVectorRun_keep {r₀ : State} (core : Nat) (err : CoreErr) {s : State} (keep_s : Keep r₀ s) :
    KeepOut r₀ (execVectorRun core err s) := by
  unfold execVectorRun
  repeat' first
    | with_reducible assumption
    | with_reducible exact Keep.refl _
    | with_reducible apply onlyIf_keep
    | with_reducible apply State.modCore_keep
    | with_reducible apply State.modHand_keep
    | with_reducible apply State.overflow_keep
    | with_reducible apply State.faultOn_keep
    | with_reducible apply State.emitTile_keep
    | with_reducible apply State.coreCheck_keep
    | with_reducible apply Keep.foldl
    | with_reducible apply KeepOut.next
    | with_reducible apply KeepOut.onlyIf
    | with_reducible exact KeepOut.refused
    | (refine Keep.ofFst (by assumption) ?_)
    | intro _
    | split
    | extract_lets

theorem State.ackCore_keep {r₀ : State} {s : State} (ctx lnum core : Nat) (keep_s : Keep r₀ s) :
    Keep r₀ (State.ackCore s ctx lnum core) := by
  unfold State.ackCore
  repeat' first
    | with_reducible assumption
    | with_reducible exact Keep.refl _
    | with_reducible apply State.modLayout_keep
    | with_reducible exact Nat.le_refl _
    | with_reducible exact id
    | exact fun h => Mgmt.wf_congr h rfl rfl rfl rfl rfl rfl
    | exact fun h => Tiers.wf_congr h rfl rfl
    | exact fun _ => rfl
    | intro _
    | split
    | extract_lets
    | (with_reducible apply Keep.upd)

theorem State.writeHand_keep {r₀ : State} {s : State} (core slot : Nat) (h : Hand) (keep_s : Keep r₀ s) :
    Keep r₀ (State.writeHand s core slot h) := by
  unfold State.writeHand
  repeat' first
    | with_reducible assumption
    | with_reducible exact Keep.refl _
    | with_reducible apply State.modCore_keep
    | intro _
    | split
    | extract_lets

theorem execConfigItem_keep {r₀ : State} (core : Nat) {s : State} (keep_s : Keep r₀ s) :
    KeepOut r₀ (execConfigItem core s) := by
  unfold execConfigItem
  repeat' first
    | with_reducible assumption
    | with_reducible exact Keep.refl _
    | with_reducible apply State.finish_keep
    | with_reducible apply State.modCore_keep
    | with_reducible apply State.ackCore_keep
    | with_reducible apply State.writeHand_keep
    | with_reducible apply KeepOut.next
    | with_reducible apply KeepOut.onlyIf
    | with_reducible exact KeepOut.refused
    | with_reducible exact Nat.le_refl _
    | with_reducible exact id
    | exact fun h => Mgmt.wf_congr h rfl rfl rfl rfl rfl rfl
    | exact fun h => Tiers.wf_congr h rfl rfl
    | exact fun _ => rfl
    | intro _
    | split
    | extract_lets
    | (with_reducible apply Keep.upd)

theorem State.publish_keep {r₀ : State} {s : State} (ctx lnum : Nat) (keep_s : Keep r₀ s) :
    Keep r₀ (State.publish s ctx lnum) := by
  unfold State.publish
  repeat' first
    | with_reducible assumption
    | with_reducible exact Keep.refl _
    | with_reducible apply State.setLayout_keep
    | with_reducible apply State.toChip_keep
    | with_reducible apply Keep.foldl
    | with_reducible apply KeepExcSnd.foldl
    | with_reducible apply KeepOpt.foldl
    | with_reducible apply KeepExc.foldl
    | with_reducible exact Nat.le_refl _
    | (intro hi; first
      | exact cellsWf_foldl _ _ _ (fun m x h => cellsWf_cellWrite _ _ _ h) hi
      | exact cellsWf_foldl _ _ _ (fun m x h => cellsWf_cellClear _ _ _ h) hi)
    | with_reducible exact id
    | exact fun h => Mgmt.wf_congr h rfl rfl rfl rfl rfl rfl
    | exact fun h => Tiers.wf_congr h rfl rfl
    | exact fun _ => rfl
    | intro _
    | split
    | extract_lets
    | (with_reducible apply Keep.upd)

theorem State.redealHand_keep {r₀ : State} {s : State} (core c d slot : Nat) (keep_s : Keep r₀ s) :
    Keep r₀ (State.redealHand s core c d slot) := by
  unfold State.redealHand
  repeat' first
    | with_reducible assumption
    | with_reducible exact Keep.refl _
    | with_reducible apply State.modCore_keep
    | with_reducible apply State.modHand_keep
    | with_reducible apply State.staleIn_keep
    | intro _
    | split
    | extract_lets

theorem execDealUpdateApply_keep {r₀ : State} (core : Nat) {s : State} (keep_s : Keep r₀ s) :
    KeepOut r₀ (execDealUpdateApply core s) := by
  unfold execDealUpdateApply
  repeat' first
    | with_reducible assumption
    | with_reducible exact Keep.refl _
    | with_reducible apply onlyIf_keep
    | with_reducible apply State.modCore_keep
    | with_reducible apply State.modLayout_keep
    | with_reducible apply State.publish_keep
    | with_reducible apply State.redealHand_keep
    | with_reducible apply Keep.foldl
    | with_reducible apply KeepOut.next
    | with_reducible apply KeepOut.onlyIf
    | with_reducible exact KeepOut.refused
    | intro _
    | split
    | extract_lets

theorem State.forwardCut_keep {r₀ : State} {s : State} (core : Nat) (t : Tile) (r : Route) (keep_s : Keep r₀ s) :
    Keep r₀ (State.forwardCut s core t r) := by
  unfold State.forwardCut
  repeat' first
    | with_reducible assumption
    | with_reducible exact Keep.refl _
    | with_reducible apply State.sendMark_keep
    | with_reducible apply Keep.foldl
    | intro _
    | split
    | extract_lets

theorem execCutArrive_keep {r₀ : State} (core port ch : Nat) {s : State} (keep_s : Keep r₀ s) :
    KeepOut r₀ (execCutArrive core port ch s) := by
  unfold execCutArrive
  repeat' first
    | with_reducible assumption
    | with_reducible exact Keep.refl _
    | with_reducible apply onlyIf_keep
    | with_reducible apply State.modCore_keep
    | with_reducible apply State.modHand_keep
    | with_reducible apply State.takeInput_keep
    | with_reducible apply State.forwardCut_keep
    | with_reducible apply KeepOut.next
    | with_reducible apply KeepOut.onlyIf
    | with_reducible exact KeepOut.refused
    | intro _
    | split
    | extract_lets

theorem applyBehind_keep {r₀ : State} (l : List CfgItem) {s : State} (core : Nat) (h : Keep r₀ s) :
    Keep r₀ (applyBehind l s core).1 := by
  induction l generalizing s with
  | nil => exact h
  | cons i l ih =>
    cases i with
    | handWrite slot x => exact ih (State.writeHand_keep _ _ _ h)
    | finish c k => exact State.ackCore_keep _ _ _ h
    | dealUpdate => exact h
    | cut => exact h

theorem execCutComplete_keep {r₀ : State} (core : Nat) {s : State} (keep_s : Keep r₀ s) :
    KeepOut r₀ (execCutComplete core s) := by
  unfold execCutComplete
  repeat' first
    | with_reducible assumption
    | with_reducible exact Keep.refl _
    | with_reducible apply onlyIf_keep
    | with_reducible apply State.modCore_keep
    | with_reducible apply State.modCtx_keep
    | with_reducible apply State.modLayout_keep
    | with_reducible apply State.sendMark_keep
    | with_reducible apply applyBehind_keep
    | with_reducible apply Keep.foldl
    | with_reducible apply KeepOut.next
    | with_reducible apply KeepOut.onlyIf
    | with_reducible exact KeepOut.refused
    | intro _
    | split
    | extract_lets

end Sys2Proof.Machine
end

