-- ==== Sys2Proof/Laws/KeepLayouts.lean ====
section
/-! SUPPORT. What the operations and meanings of Machine/Layouts.lean keep (`Keep`, Laws/Keep.lean). -/
set_option linter.all false

namespace Sys2Proof.Machine

theorem State.readErrs_keep {r₀ : State} {s : State} (f q n ctx : Nat) (errs : List MemErr) (keep_s : Keep r₀ s) :
    Keep r₀ (State.readErrs s f q n ctx errs).1 := by
  induction errs generalizing s with
  | nil => exact keep_s
  | cons e r ih =>
    rw [State.readErrs]
    split
    · split
      · exact Keep.fstMk (State.teardown_keep _ _ _ (State.retireFrame_keep _ keep_s))
      · exact ih (State.correctable_keep _ _ _ keep_s)
    · exact ih keep_s

theorem State.withErrs_keep {r₀ : State} {s : State} (f q n op : Nat) (errs : List MemErr) (k : State → Out) (keep_s : Keep r₀ s) (keep_k : ∀ (x0 : State), Keep r₀ x0 → KeepOut r₀ (k x0)) :
    KeepOut r₀ (State.withErrs s f q n op errs k) := by
  unfold State.withErrs
  repeat' first
    | with_reducible assumption
    | with_reducible exact Keep.refl _
    | with_reducible apply keep_k
    | with_reducible apply State.readErrs_keep
    | with_reducible apply KeepOut.next
    | with_reducible apply KeepOut.onlyIf
    | with_reducible exact KeepOut.refused
    | (refine Keep.ofFst (by assumption) ?_)
    | intro _
    | split
    | extract_lets

theorem State.withRange_keep {r₀ : State} {s : State} (f q n ctx w addr len : Nat) (whole : Bool) {k : State} (keep_s : Keep r₀ s) (keep_k : Keep r₀ k) :
    Keep r₀ (State.withRange s f q n ctx w addr len whole k) := by
  unfold State.withRange
  repeat' first
    | with_reducible assumption
    | with_reducible exact Keep.refl _
    | with_reducible apply State.awaitBlock_keep
    | with_reducible apply State.countReads_keep
    | with_reducible apply State.fetchPeer_keep
    | with_reducible apply State.endCmd_keep
    | intro _
    | split
    | extract_lets

theorem execContextCreate_keep {r₀ : State} (f q n : Nat) {s : State} (keep_s : Keep r₀ s) :
    KeepOut r₀ (execContextCreate f q n s) := by
  unfold execContextCreate
  repeat' first
    | with_reducible assumption
    | with_reducible exact Keep.refl _
    | with_reducible apply State.done_keep
    | with_reducible apply State.setWork_keep
    | with_reducible apply State.work_keep
    | with_reducible apply State.checked_keep
    | with_reducible apply State.endCmd_keep
    | with_reducible apply KeepOut.next
    | with_reducible apply KeepOut.onlyIf
    | with_reducible exact KeepOut.refused
    | intro _
    | split
    | extract_lets

theorem State.endRouted_keep {r₀ : State} {s : State} (ctx : Nat) (v : Verdict) (keep_s : Keep r₀ s) :
    Keep r₀ (State.endRouted s ctx v) := by
  unfold State.endRouted
  repeat' first
    | with_reducible assumption
    | with_reducible exact Keep.refl _
    | with_reducible apply State.cancelCmd_keep
    | with_reducible apply Keep.foldl
    | intro _
    | split
    | extract_lets

theorem execContextDestroy_keep {r₀ : State} (f q n : Nat) {s : State} (keep_s : Keep r₀ s) :
    KeepOut r₀ (execContextDestroy f q n s) := by
  unfold execContextDestroy
  repeat' first
    | with_reducible assumption
    | with_reducible exact Keep.refl _
    | with_reducible apply State.modCmd_keep
    | with_reducible apply State.work_keep
    | with_reducible apply State.checked_keep
    | with_reducible apply State.teardownBy_keep
    | with_reducible apply State.endRouted_keep
    | with_reducible apply KeepOut.next
    | with_reducible apply KeepOut.onlyIf
    | with_reducible exact KeepOut.refused
    | intro _
    | split
    | extract_lets

theorem execContextConfig_keep {r₀ : State} (f q n : Nat) {s : State} (keep_s : Keep r₀ s) :
    KeepOut r₀ (execContextConfig f q n s) := by
  unfold execContextConfig
  repeat' first
    | with_reducible assumption
    | with_reducible exact Keep.refl _
    | with_reducible apply State.done_keep
    | with_reducible apply State.work_keep
    | with_reducible apply State.checked_keep
    | with_reducible apply KeepOut.next
    | with_reducible apply KeepOut.onlyIf
    | with_reducible exact KeepOut.refused
    | intro _
    | split
    | extract_lets

theorem State.withImage_keep {r₀ : State} {s : State} (f q n ctx w addr : Nat) (k : Image → State) (keep_s : Keep r₀ s) (keep_k : ∀ (x0 : Image), Keep r₀ (k x0)) :
    Keep r₀ (State.withImage s f q n ctx w addr k) := by
  unfold State.withImage
  repeat' first
    | with_reducible assumption
    | with_reducible exact Keep.refl _
    | with_reducible apply keep_k
    | with_reducible apply State.endCmd_keep
    | with_reducible apply State.withRange_keep
    | intro _
    | split
    | extract_lets

theorem State.takeDeal_keep {r₀ : State} {s : State} (ctx d : Nat) (keep_s : Keep r₀ s) :
    Keep r₀ (State.takeDeal s ctx d) := by
  unfold State.takeDeal
  repeat' first
    | with_reducible assumption
    | with_reducible exact Keep.refl _
    | with_reducible apply State.modCtx_keep
    | with_reducible exact Nat.le_refl _
    | with_reducible exact id
    | exact fun h => Mgmt.wf_congr h rfl rfl rfl rfl rfl rfl
    | exact fun h => Tiers.wf_congr h rfl rfl
    | exact fun _ => rfl
    | intro _
    | split
    | extract_lets
    | (with_reducible apply Keep.upd)

theorem State.sendItems_keep {r₀ : State} {s : State} (ctx lnum : Nat) (cores : List Nat) (pre : List CfgItem) (hs : List (Nat × Nat × Hand)) (keep_s : Keep r₀ s) :
    Keep r₀ (State.sendItems s ctx lnum cores pre hs) := by
  unfold State.sendItems
  repeat' first
    | with_reducible assumption
    | with_reducible exact Keep.refl _
    | with_reducible apply State.finish_keep
    | with_reducible apply State.modCore_keep
    | with_reducible apply Keep.foldl
    | with_reducible apply KeepExcSnd.foldl
    | with_reducible apply KeepOpt.foldl
    | with_reducible apply KeepExc.foldl
    | with_reducible exact Nat.le_refl _
    | (intro hi; first
      | exact cellsWf_foldl _ _ _ (fun m x h => cellsWf_cellWrite _ _ _ h) hi
      | exact cellsWf_foldl _ _ _ (fun m x h => cellsWf_cellClear _ _ _ h) hi)
    | with_reducible exact id
    | exact fun h => Mgmt.wf_congr h rfl rfl rfl rfl rfl rfl
    | exact fun h => Tiers.wf_congr h rfl rfl
    | exact fun _ => rfl
    | intro _
    | split
    | extract_lets
    | (with_reducible apply Keep.upd)

theorem State.beginLoad_keep {r₀ : State} {s : State} (ctx lnum addr : Nat) (im : Image) (cx cy b : Nat) (keep_s : Keep r₀ s) :
    Keep r₀ (State.beginLoad s ctx lnum addr im cx cy b) := by
  unfold State.beginLoad
  repeat' first
    | with_reducible assumption
    | with_reducible exact Keep.refl _
    | with_reducible apply State.setLayout_keep
    | with_reducible apply State.takeDeal_keep
    | with_reducible apply State.sendItems_keep
    | with_reducible exact Nat.le_refl _
    | (intro hi; first
      | exact cellsWf_cellClear _ _ _ hi)
    | with_reducible exact id
    | exact fun h => Mgmt.wf_congr h rfl rfl rfl rfl rfl rfl
    | exact fun h => Tiers.wf_congr h rfl rfl
    | exact fun _ => rfl
    | intro _
    | split
    | extract_lets
    | (with_reducible apply Keep.upd)

theorem State.withPlace_keep {r₀ : State} {s : State} (f q n ctx : Nat) (skip : Option Nat) (im : Image) (cx cy b : Nat) {k : State} (keep_s : Keep r₀ s) (keep_k : Keep r₀ k) :
    Keep r₀ (State.withPlace s f q n ctx skip im cx cy b k) := by
  unfold State.withPlace
  repeat' first
    | with_reducible assumption
    | with_reducible exact Keep.refl _
    | with_reducible apply State.endCmd_keep
    | intro _
    | split
    | extract_lets

theorem execLayoutLoad_keep {r₀ : State} (f q n : Nat) (errs : List MemErr) {s0 : State} (keep_s0 : Keep r₀ s0) :
    KeepOut r₀ (execLayoutLoad f q n errs s0) := by
  unfold execLayoutLoad
  repeat' first
    | with_reducible assumption
    | with_reducible exact Keep.refl _
    | with_reducible apply State.done_keep
    | with_reducible apply State.setWork_keep
    | with_reducible apply State.work_keep
    | with_reducible apply State.checked_keep
    | with_reducible apply State.withErrs_keep
    | with_reducible apply State.withImage_keep
    | with_reducible apply State.beginLoad_keep
    | with_reducible apply State.withPlace_keep
    | with_reducible apply KeepOut.next
    | with_reducible apply KeepOut.onlyIf
    | with_reducible exact KeepOut.refused
    | intro _
    | split
    | extract_lets

theorem execLoadAcksComplete_keep {r₀ : State} (ctx lnum : Nat) {s : State} (keep_s : Keep r₀ s) :
    KeepOut r₀ (execLoadAcksComplete ctx lnum s) := by
  unfold execLoadAcksComplete
  repeat' first
    | with_reducible assumption
    | with_reducible exact Keep.refl _
    | with_reducible apply onlyIf_keep
    | with_reducible apply State.modLayout_keep
    | with_reducible apply State.publish_keep
    | with_reducible apply KeepOut.next
    | with_reducible apply KeepOut.onlyIf
    | with_reducible exact KeepOut.refused
    | with_reducible exact Nat.le_refl _
    | with_reducible exact id
    | exact fun h => Mgmt.wf_congr h rfl rfl rfl rfl rfl rfl
    | exact fun h => Tiers.wf_congr h rfl rfl
    | exact fun _ => rfl
    | intro _
    | split
    | extract_lets
    | (with_reducible apply Keep.upd)

theorem State.prepareReplace_keep {r₀ : State} {s : State} (ctx lnum addr : Nat) (l : Layout) (im : Image) (b : Nat) (keep_s : Keep r₀ s) :
    Keep r₀ (State.prepareReplace s ctx lnum addr l im b) := by
  unfold State.prepareReplace
  repeat' first
    | with_reducible assumption
    | with_reducible exact Keep.refl _
    | with_reducible apply State.setLayout_keep
    | with_reducible apply State.takeDeal_keep
    | with_reducible apply State.sendItems_keep
    | intro _
    | split
    | extract_lets

theorem State.renameStreams_keep {r₀ : State} {s : State} (ctx lnum : Nat) (keep_s : Keep r₀ s) :
    Keep r₀ (State.renameStreams s ctx lnum) := by
  unfold State.renameStreams
  repeat' first
    | with_reducible assumption
    | with_reducible exact Keep.refl _
    | with_reducible exact Nat.le_refl _
    | with_reducible exact id
    | exact fun h => Mgmt.wf_congr h rfl rfl rfl rfl rfl rfl
    | exact fun h => Tiers.wf_congr h rfl rfl
    | exact fun _ => rfl
    | intro _
    | split
    | extract_lets
    | (with_reducible apply Keep.upd)

theorem State.passCommit_keep {r₀ : State} {s : State} (f q n : Nat) (keep_s : Keep r₀ s) :
    Keep r₀ (State.passCommit s f q n) := by
  unfold State.passCommit
  repeat' first
    | with_reducible assumption
    | with_reducible exact Keep.refl _
    | with_reducible apply State.modCmd_keep
    | intro _
    | split
    | extract_lets

theorem State.cutPorts_keep {r₀ : State} {s : State} (ctx lnum : Nat) (l : Layout) (keep_s : Keep r₀ s) :
    Keep r₀ (State.cutPorts s ctx lnum l) := by
  unfold State.cutPorts
  repeat' first
    | with_reducible assumption
    | with_reducible exact Keep.refl _
    | with_reducible apply State.modLayout_keep
    | with_reducible apply State.sendItems_keep
    | with_reducible exact Nat.le_refl _
    | with_reducible exact id
    | exact fun h => Mgmt.wf_congr h rfl rfl rfl rfl rfl rfl
    | exact fun h => Tiers.wf_congr h rfl rfl
    | exact fun _ => rfl
    | intro _
    | split
    | extract_lets
    | (with_reducible apply Keep.upd)

theorem execLayoutReplace_keep {r₀ : State} (f q n : Nat) (errs : List MemErr) {s0 : State} (keep_s0 : Keep r₀ s0) :
    KeepOut r₀ (execLayoutReplace f q n errs s0) := by
  unfold execLayoutReplace
  repeat' first
    | with_reducible assumption
    | with_reducible exact Keep.refl _
    | with_reducible apply State.done_keep
    | with_reducible apply State.setWork_keep
    | with_reducible apply State.work_keep
    | with_reducible apply State.checked_keep
    | with_reducible apply State.setLayout_keep
    | with_reducible apply State.sendCuts_keep
    | with_reducible apply State.endCmd_keep
    | with_reducible apply State.publish_keep
    | with_reducible apply State.withErrs_keep
    | with_reducible apply State.withImage_keep
    | with_reducible apply State.prepareReplace_keep
    | with_reducible apply State.renameStreams_keep
    | with_reducible apply State.passCommit_keep
    | with_reducible apply State.cutPorts_keep
    | with_reducible apply KeepOut.next
    | with_reducible apply KeepOut.onlyIf
    | with_reducible exact KeepOut.refused
    | intro _
    | split
    | extract_lets

theorem execLayoutUnload_keep {r₀ : State} (f q n : Nat) {s : State} (keep_s : Keep r₀ s) :
    KeepOut r₀ (execLayoutUnload f q n s) := by
  unfold execLayoutUnload
  repeat' first
    | with_reducible assumption
    | with_reducible exact Keep.refl _
    | with_reducible apply State.done_keep
    | with_reducible apply State.setWork_keep
    | with_reducible apply State.work_keep
    | with_reducible apply State.checked_keep
    | with_reducible apply State.setLayout_keep
    | with_reducible apply State.sendCuts_keep
    | with_reducible apply State.passCommit_keep
    | with_reducible apply State.cutPorts_keep
    | with_reducible apply KeepOut.next
    | with_reducible apply KeepOut.onlyIf
    | with_reducible exact KeepOut.refused
    | intro _
    | split
    | extract_lets

theorem execReplaceCutDone_keep {r₀ : State} (ctx lnum : Nat) {s : State} (keep_s : Keep r₀ s) :
    KeepOut r₀ (execReplaceCutDone ctx lnum s) := by
  unfold execReplaceCutDone
  repeat' first
    | with_reducible assumption
    | with_reducible exact Keep.refl _
    | with_reducible apply onlyIf_keep
    | with_reducible apply State.setLayout_keep
    | with_reducible apply State.clearLayoutHands_keep
    | with_reducible apply KeepOut.next
    | with_reducible apply KeepOut.onlyIf
    | with_reducible exact KeepOut.refused
    | intro _
    | split
    | extract_lets

theorem State.tellKill_keep {r₀ : State} {s : State} (c : Cmd) (keep_s : Keep r₀ s) :
    Keep r₀ (State.tellKill s c) := by
  unfold State.tellKill
  repeat' first
    | with_reducible assumption
    | with_reducible exact Keep.refl _
    | with_reducible apply State.work_keep
    | with_reducible apply State.jobCtrl_keep
    | with_reducible apply Keep.foldl
    | intro _
    | split
    | extract_lets

theorem State.preemptCmd_keep {r₀ : State} {s : State} (f q n : Nat) (moved : Bool) (for' : Option (Nat × Nat × Nat)) (keep_s : Keep r₀ s) :
    Keep r₀ (State.preemptCmd s f q n moved for') := by
  unfold State.preemptCmd
  repeat' first
    | with_reducible assumption
    | with_reducible exact Keep.refl _
    | with_reducible apply State.modCmd_keep
    | with_reducible apply State.release_keep
    | with_reducible apply State.tellKill_keep
    | intro _
    | split
    | extract_lets

theorem State.clearPlacement_keep {r₀ : State} {s : State} (ctx lnum : Nat) (l : Layout) (keep_s : Keep r₀ s) :
    Keep r₀ (State.clearPlacement s ctx lnum l) := by
  unfold State.clearPlacement
  repeat' first
    | with_reducible assumption
    | with_reducible exact Keep.refl _
    | with_reducible apply State.modCtx_keep
    | with_reducible apply State.setLayout_keep
    | with_reducible apply State.modCores_keep
    | with_reducible apply State.clearLayoutHands_keep
    | with_reducible exact Nat.le_refl _
    | with_reducible exact id
    | exact fun h => Mgmt.wf_congr h rfl rfl rfl rfl rfl rfl
    | exact fun h => Tiers.wf_congr h rfl rfl
    | exact fun _ => rfl
    | intro _
    | split
    | extract_lets
    | (with_reducible apply Keep.upd)

theorem State.moveLoad_keep {r₀ : State} {s : State} (f q n : Nat) (c : Cmd) (lnum addr : Nat) (keep_s : Keep r₀ s) :
    Keep r₀ (State.moveLoad s f q n c lnum addr) := by
  unfold State.moveLoad
  repeat' first
    | with_reducible assumption
    | with_reducible exact Keep.refl _
    | with_reducible apply State.withImage_keep
    | with_reducible apply State.beginLoad_keep
    | with_reducible apply State.withPlace_keep
    | intro _
    | split
    | extract_lets

theorem execPlacementMove_keep {r₀ : State} (f q n : Nat) (errs : List MemErr) {s0 : State} (keep_s0 : Keep r₀ s0) :
    KeepOut r₀ (execPlacementMove f q n errs s0) := by
  unfold execPlacementMove
  repeat' first
    | with_reducible assumption
    | with_reducible exact Keep.refl _
    | with_reducible apply State.modCmd_keep
    | with_reducible apply State.done_keep
    | with_reducible apply State.setWork_keep
    | with_reducible apply State.work_keep
    | with_reducible apply State.checked_keep
    | with_reducible apply State.withErrs_keep
    | with_reducible apply State.withImage_keep
    | with_reducible apply State.withPlace_keep
    | with_reducible apply State.preemptCmd_keep
    | with_reducible apply State.clearPlacement_keep
    | with_reducible apply State.moveLoad_keep
    | with_reducible apply Keep.foldl
    | with_reducible apply KeepOut.next
    | with_reducible apply KeepOut.onlyIf
    | with_reducible exact KeepOut.refused
    | intro _
    | split
    | extract_lets

theorem execFaultedQuiescence_keep {r₀ : State} (f q n : Nat) {s : State} (keep_s : Keep r₀ s) :
    KeepOut r₀ (execFaultedQuiescence f q n s) := by
  unfold execFaultedQuiescence
  repeat' first
    | with_reducible assumption
    | with_reducible exact Keep.refl _
    | with_reducible apply onlyIf_keep
    | with_reducible apply State.teardown_keep
    | with_reducible apply KeepOut.next
    | with_reducible apply KeepOut.onlyIf
    | with_reducible exact KeepOut.refused
    | intro _
    | split
    | extract_lets

end Sys2Proof.Machine
end

