-- ==== Sys2Proof/Laws/KeepStreams.lean ====
section
/-! SUPPORT. What the operations and meanings of Machine/Streams.lean keep (`Keep`, Laws/Keep.lean). -/
set_option linter.all false

namespace Sys2Proof.Machine

theorem State.haltSlot_keep {r₀ : State} {s : State} (key : Nat) (v : Slot) (cause addr : Nat) (keep_s : Keep r₀ s) :
    Keep r₀ (State.haltSlot s key v cause addr) := by
  unfold State.haltSlot
  repeat' first
    | with_reducible assumption
    | with_reducible exact Keep.refl _
    | with_reducible apply State.modFn_keep
    | with_reducible apply State.modCtx_keep
    | with_reducible apply State.cause_keep
    | with_reducible apply State.bringIn_keep
    | with_reducible apply State.remark_keep
    | with_reducible exact Nat.le_refl _
    | with_reducible exact id
    | exact fun h => Mgmt.wf_congr h rfl rfl rfl rfl rfl rfl
    | exact fun h => Tiers.wf_congr h rfl rfl
    | exact fun _ => rfl
    | intro _
    | split
    | extract_lets
    | (with_reducible apply Keep.upd)

theorem State.resumeSlot_keep {r₀ : State} {s : State} (key : Nat) (keep_s : Keep r₀ s) :
    Keep r₀ (State.resumeSlot s key) := by
  unfold State.resumeSlot
  repeat' first
    | with_reducible assumption
    | with_reducible exact Keep.refl _
    | with_reducible apply State.modSlot_keep
    | with_reducible apply State.remark_keep
    | with_reducible exact Nat.le_refl _
    | with_reducible exact id
    | exact fun h => Mgmt.wf_congr h rfl rfl rfl rfl rfl rfl
    | exact fun h => Tiers.wf_congr h rfl rfl
    | exact fun _ => rfl
    | intro _
    | split
    | extract_lets
    | (with_reducible apply Keep.upd)

theorem execFaultRecordWrite_keep {r₀ : State} (cl k : Nat) {s : State} (keep_s : Keep r₀ s) :
    KeepOut r₀ (execFaultRecordWrite cl k s) := by
  unfold execFaultRecordWrite
  repeat' first
    | with_reducible assumption
    | with_reducible exact Keep.refl _
    | with_reducible apply onlyIf_keep
    | with_reducible apply State.modFn_keep
    | with_reducible apply State.cause_keep
    | with_reducible apply KeepOut.next
    | with_reducible apply KeepOut.onlyIf
    | with_reducible exact KeepOut.refused
    | with_reducible apply KeepOpt.getD
    | with_reducible apply KeepOpt.findSome
    | with_reducible exact Nat.le_refl _
    | (intro hi; first
      | exact cellsWf_cellWrite _ _ _ hi
      | exact Tiers.wf_upd hi (fun h => cellsWf_cellWrite _ _ _ h) id
      | exact Tiers.wf_upd hi id (fun h => cellsWf_cellWrite _ _ _ h))
    | with_reducible exact id
    | exact fun h => Mgmt.wf_congr h rfl rfl rfl rfl rfl rfl
    | exact fun h => Tiers.wf_congr h rfl rfl
    | exact fun _ => rfl
    | intro _
    | split
    | extract_lets
    | (with_reducible apply Keep.upd)

theorem execStreamAutoResume_keep {r₀ : State} (cl k : Nat) {s : State} (keep_s : Keep r₀ s) :
    KeepOut r₀ (execStreamAutoResume cl k s) := by
  unfold execStreamAutoResume
  repeat' first
    | with_reducible assumption
    | with_reducible exact Keep.refl _
    | with_reducible apply onlyIf_keep
    | with_reducible apply State.cause_keep
    | with_reducible apply State.resumeSlot_keep
    | with_reducible apply KeepOut.next
    | with_reducible apply KeepOut.onlyIf
    | with_reducible exact KeepOut.refused
    | intro _
    | split
    | extract_lets

theorem execStreamResume_keep {r₀ : State} (f q n : Nat) {s : State} (keep_s : Keep r₀ s) :
    KeepOut r₀ (execStreamResume f q n s) := by
  unfold execStreamResume
  repeat' first
    | with_reducible assumption
    | with_reducible exact Keep.refl _
    | with_reducible apply State.done_keep
    | with_reducible apply State.work_keep
    | with_reducible apply State.checked_keep
    | with_reducible apply KeepOut.next
    | with_reducible apply KeepOut.onlyIf
    | with_reducible exact KeepOut.refused
    | intro _
    | split
    | extract_lets

theorem State.resumeHalt_keep {r₀ : State} {s : State} (ctx id : Nat) (keep_s : Keep r₀ s) :
    Keep r₀ (State.resumeHalt s ctx id).1 := by
  rw [State.resumeHalt]
  split
  · exact Keep.fstMk (State.resumeSlot_keep _ keep_s)
  · exact Keep.fstMk keep_s

theorem execWeightLateTimeout_keep {r₀ : State} (cl k : Nat) {s : State} (keep_s : Keep r₀ s) :
    KeepOut r₀ (execWeightLateTimeout cl k s) := by
  unfold execWeightLateTimeout
  repeat' first
    | with_reducible assumption
    | with_reducible exact Keep.refl _
    | with_reducible apply onlyIf_keep
    | with_reducible apply State.teardown_keep
    | with_reducible apply KeepOut.next
    | with_reducible apply KeepOut.onlyIf
    | with_reducible exact KeepOut.refused
    | intro _
    | split
    | extract_lets

theorem execWatchdogTimeout_keep {r₀ : State} (ctx : Nat) {s : State} (keep_s : Keep r₀ s) :
    KeepOut r₀ (execWatchdogTimeout ctx s) := by
  unfold execWatchdogTimeout
  repeat' first
    | with_reducible assumption
    | with_reducible exact Keep.refl _
    | with_reducible apply onlyIf_keep
    | with_reducible apply State.teardown_keep
    | with_reducible apply KeepOut.next
    | with_reducible apply KeepOut.onlyIf
    | with_reducible exact KeepOut.refused
    | intro _
    | split
    | extract_lets

theorem execRegionUngate_keep {r₀ : State} (r : Nat) {s : State} (keep_s : Keep r₀ s) :
    KeepOut r₀ (execRegionUngate r s) := by
  unfold execRegionUngate
  repeat' first
    | with_reducible assumption
    | with_reducible exact Keep.refl _
    | with_reducible apply onlyIf_keep
    | with_reducible apply State.restartCluster_keep
    | with_reducible apply Keep.foldl
    | with_reducible apply KeepOut.next
    | with_reducible apply KeepOut.onlyIf
    | with_reducible exact KeepOut.refused
    | with_reducible exact Nat.le_refl _
    | with_reducible exact id
    | exact fun h => Mgmt.wf_congr h rfl rfl rfl rfl rfl rfl
    | exact fun h => Tiers.wf_congr h rfl rfl
    | exact fun _ => rfl
    | intro _
    | split
    | extract_lets
    | (with_reducible apply Keep.upd)

/-- A core's local memory is cleared as its region is gated. -/
theorem keep_sramOff {r₀ u : State} (c : Nat) (g : Core → Core) (h : Keep r₀ u) :
    Keep r₀ { u.modCore c g with sram := cellClear u.sram (c * 2 ^ 18) (2 ^ 18) } := by
  have h' := State.modCore_keep c g h
  refine Keep.trans h' ⟨rfl, Nat.le_refl _, fun i => ⟨i.cmem, cellsWf_cellClear _ _ _ i.sram, i.tiers, i.host, i.mgmt⟩⟩

/-- The local memories of a list of cores are cleared. -/
theorem keep_sramsOff {r₀ s1 : State} (l : List Nat) (h1 : Keep r₀ s1) : Keep r₀ (l.foldl (fun t c =>
       { t.modCore c (fun k => { fenced := k.fenced, correctable := k.correctable, unrouted := k.unrouted }) with
         sram := cellClear t.sram (c * 2 ^ 18) (2 ^ 18) }) s1) := by
  apply Keep.foldl h1
  intro u c h
  exact keep_sramOff c _ h

theorem execRegionGate_keep {r₀ : State} (r : Nat) {s : State} (keep_s : Keep r₀ s) : KeepOut r₀ (execRegionGate r s) := by
  unfold execRegionGate
  refine KeepOut.onlyIf keep_s ?_
  exact Keep.upd (keep_sramsOff _ (Keep.foldl keep_s (fun _ _ h => State.stopCluster_keep _ h))) (Nat.le_refl _) id id id id id

end Sys2Proof.Machine
end

