-- ==== Sys2Proof/Laws/KeepRuns.lean ====
section
/-! SUPPORT. What the operations and meanings of Machine/Runs.lean keep (`Keep`, Laws/Keep.lean). -/
set_option linter.all false

namespace Sys2Proof.Machine

theorem State.loadSlot_keep {r₀ : State} {s : State} (cl : Nat) (v : Slot) (keep_s : Keep r₀ s) :
    Keep r₀ (State.loadSlot s cl v) := by
  unfold State.loadSlot
  repeat' first
    | with_reducible assumption
    | with_reducible exact Keep.refl _
    | with_reducible apply State.setSlot_keep
    | with_reducible apply State.remark_keep
    | with_reducible exact Nat.le_refl _
    | with_reducible exact id
    | exact fun h => Mgmt.wf_congr h rfl rfl rfl rfl rfl rfl
    | exact fun h => Tiers.wf_congr h rfl rfl
    | exact fun _ => rfl
    | intro _
    | split
    | extract_lets
    | (with_reducible apply Keep.upd)

theorem State.makeBinds_keep {r₀ : State} {s : State} (f q : Nat) (c : Cmd) (lnum : Nat) (bs : List Bind) (ovs : List Overflow) (keep_s : Keep r₀ s) :
    Keep r₀ (State.makeBinds s f q c lnum bs ovs) := by
  unfold State.makeBinds
  repeat' first
    | with_reducible assumption
    | with_reducible exact Keep.refl _
    | with_reducible apply State.modCmd_keep
    | with_reducible apply State.setWork_keep
    | with_reducible apply State.loadSlot_keep
    | with_reducible apply Keep.foldl
    | with_reducible apply KeepExcSnd.foldl
    | with_reducible apply KeepOpt.foldl
    | with_reducible apply KeepExc.foldl
    | with_reducible exact Nat.le_refl _
    | (intro hi; first
      | exact cellsWf_foldl _ _ _ (fun m x h => cellsWf_cellWrite _ _ _ h) hi
      | exact cellsWf_foldl _ _ _ (fun m x h => cellsWf_cellClear _ _ _ h) hi)
    | with_reducible exact id
    | exact fun h => Mgmt.wf_congr h rfl rfl rfl rfl rfl rfl
    | exact fun h => Tiers.wf_congr h rfl rfl
    | exact fun _ => rfl
    | intro _
    | split
    | extract_lets
    | (with_reducible apply Keep.upd)

theorem State.withPlan_keep {r₀ : State} {s : State} (f q : Nat) (c : Cmd) (lnum : Nat) (l : Layout) (p : Plan) (keep_s : Keep r₀ s) :
    Keep r₀ (State.withPlan s f q c lnum l p) := by
  unfold State.withPlan
  repeat' first
    | with_reducible assumption
    | with_reducible exact Keep.refl _
    | with_reducible apply State.awaitBlock_keep
    | with_reducible apply State.countReads_keep
    | with_reducible apply State.fetchPeer_keep
    | with_reducible apply State.endCmd_keep
    | with_reducible apply State.makeBinds_keep
    | intro _
    | split
    | extract_lets

theorem execRun_keep {r₀ : State} (f q n : Nat) (errs : List MemErr) {s0 : State} (keep_s0 : Keep r₀ s0) :
    KeepOut r₀ (execRun f q n errs s0) := by
  unfold execRun
  repeat' first
    | with_reducible assumption
    | with_reducible exact Keep.refl _
    | with_reducible apply State.done_keep
    | with_reducible apply State.work_keep
    | with_reducible apply State.checked_keep
    | with_reducible apply State.withErrs_keep
    | with_reducible apply State.withPlan_keep
    | with_reducible apply KeepOut.next
    | with_reducible apply KeepOut.onlyIf
    | with_reducible exact KeepOut.refused
    | intro _
    | split
    | extract_lets

theorem execStreamLoad_keep {r₀ : State} (f q n : Nat) (errs : List MemErr) {s0 : State} (keep_s0 : Keep r₀ s0) :
    KeepOut r₀ (execStreamLoad f q n errs s0) := by
  unfold execStreamLoad
  repeat' first
    | with_reducible assumption
    | with_reducible exact Keep.refl _
    | with_reducible apply State.done_keep
    | with_reducible apply State.work_keep
    | with_reducible apply State.checked_keep
    | with_reducible apply State.withErrs_keep
    | with_reducible apply State.withPlan_keep
    | with_reducible apply KeepOut.next
    | with_reducible apply KeepOut.onlyIf
    | with_reducible exact KeepOut.refused
    | intro _
    | split
    | extract_lets

theorem execBindingTakeEffect_keep {r₀ : State} (cl k : Nat) {s : State} (keep_s : Keep r₀ s) :
    KeepOut r₀ (execBindingTakeEffect cl k s) := by
  unfold execBindingTakeEffect
  repeat' first
    | with_reducible assumption
    | with_reducible exact Keep.refl _
    | with_reducible apply onlyIf_keep
    | with_reducible apply State.modLayout_keep
    | with_reducible apply State.modSlot_keep
    | with_reducible apply State.remark_keep
    | with_reducible apply KeepOut.next
    | with_reducible apply KeepOut.onlyIf
    | with_reducible exact KeepOut.refused
    | intro _
    | split
    | extract_lets

theorem State.dropAhead_keep {r₀ : State} {s old : State} (keep_s : Keep r₀ s) (keep_old : Keep r₀ old) :
    Keep r₀ (State.dropAhead s old) := by
  unfold State.dropAhead
  repeat' first
    | with_reducible assumption
    | with_reducible exact Keep.refl _
    | with_reducible apply State.modLayout_keep
    | with_reducible apply State.remark_keep
    | with_reducible apply Keep.foldl
    | with_reducible exact Nat.le_refl _
    | with_reducible exact id
    | exact fun h => Mgmt.wf_congr h rfl rfl rfl rfl rfl rfl
    | exact fun h => Tiers.wf_congr h rfl rfl
    | exact fun _ => rfl
    | intro _
    | split
    | extract_lets
    | (with_reducible apply Keep.upd)

theorem execRunAheadRequest_keep {r₀ : State} (cl k : Nat) {s : State} (keep_s : Keep r₀ s) :
    KeepOut r₀ (execRunAheadRequest cl k s) := by
  unfold execRunAheadRequest
  repeat' first
    | with_reducible assumption
    | with_reducible exact Keep.refl _
    | with_reducible apply onlyIf_keep
    | with_reducible apply State.modSlot_keep
    | with_reducible apply State.countReads_keep
    | with_reducible apply KeepOut.next
    | with_reducible apply KeepOut.onlyIf
    | with_reducible exact KeepOut.refused
    | intro _
    | split
    | extract_lets

end Sys2Proof.Machine
end

