-- ==== Sys2Proof/Laws/KeepTiers.lean ====
section
/-! SUPPORT. What the operations and meanings of Machine/Tiers.lean keep (`Keep`, Laws/Keep.lean). -/
set_option linter.all false

namespace Sys2Proof.Machine

theorem State.allocMap_keep {r₀ : State} {s : State} (ctx tier near0 bulk0 : Nat) (keep_s : Keep r₀ s) :
    KeepOptSnd r₀ (State.allocMap s ctx tier near0 bulk0) := by
  unfold State.allocMap
  repeat' first
    | with_reducible assumption
    | with_reducible exact Keep.refl _
    | with_reducible apply State.allocFrame_keep
    | with_reducible exact KeepOptSnd.none
    | with_reducible apply KeepOptSnd.some
    | (refine KeepOptSnd.elim (by assumption) ?_)
    | (refine KeepOptSnd.again (by assumption) ?_)
    | intro _
    | split
    | dsimp only

theorem State.mapFrames_keep {r₀ : State} {s : State} (f q n ctx tier code hint : Nat) (blks : List Nat) (keep_s : Keep r₀ s) :
    KeepOpt r₀ (State.mapFrames s f q n ctx tier code hint blks) := by
  unfold State.mapFrames
  repeat' first
    | with_reducible assumption
    | with_reducible exact Keep.refl _
    | with_reducible apply State.modCmd_keep
    | with_reducible apply State.allocMap_keep
    | with_reducible apply Keep.foldl
    | with_reducible apply KeepOpt.foldl
    | with_reducible apply KeepExc.foldl
    | with_reducible apply KeepExcSnd.foldl
    | with_reducible exact KeepOpt.none
    | with_reducible apply KeepOpt.some
    | (refine KeepOpt.elim (by assumption) ?_)
    | with_reducible exact KeepOptSnd.none
    | with_reducible apply KeepOptSnd.some
    | (refine KeepOptSnd.elim (by assumption) ?_)
    | (refine KeepOptSnd.again (by assumption) ?_)
    | with_reducible apply KeepOpt.mapSnd
    | with_reducible apply KeepOptSnd.mapSnd
    | with_reducible apply KeepOpt.map
    | with_reducible apply KeepOpt.bind
    | with_reducible apply KeepOptSnd.bind
    | with_reducible apply KeepOpt.bindSnd
    | with_reducible apply KeepExc.bind
    | with_reducible apply KeepExc.bindSnd
    | with_reducible apply KeepExcSnd.bindSnd
    | intro _
    | split
    | extract_lets

theorem execBlockMap_keep {r₀ : State} (f q n : Nat) {s : State} (keep_s : Keep r₀ s) :
    KeepOut r₀ (execBlockMap f q n s) := by
  unfold execBlockMap
  repeat' first
    | with_reducible assumption
    | with_reducible exact Keep.refl _
    | with_reducible apply State.done_keep
    | with_reducible apply State.setWork_keep
    | with_reducible apply State.work_keep
    | with_reducible apply State.checked_keep
    | with_reducible apply State.endCmd_keep
    | with_reducible apply State.mapFrames_keep
    | with_reducible apply KeepOut.next
    | with_reducible apply KeepOut.onlyIf
    | with_reducible exact KeepOut.refused
    | with_reducible apply KeepOpt.mapSnd
    | with_reducible apply KeepOptSnd.mapSnd
    | with_reducible apply KeepOpt.map
    | (refine KeepOpt.elim (by assumption) ?_)
    | intro _
    | split
    | extract_lets

theorem execBlockUnmap_keep {r₀ : State} (f q n : Nat) {s : State} (keep_s : Keep r₀ s) :
    KeepOut r₀ (execBlockUnmap f q n s) := by
  unfold execBlockUnmap
  repeat' first
    | with_reducible assumption
    | with_reducible exact Keep.refl _
    | with_reducible apply State.done_keep
    | with_reducible apply State.setWork_keep
    | with_reducible apply State.work_keep
    | with_reducible apply State.checked_keep
    | with_reducible apply KeepOut.next
    | with_reducible apply KeepOut.onlyIf
    | with_reducible exact KeepOut.refused
    | intro _
    | split
    | extract_lets

theorem State.withWrite_keep {r₀ : State} {s : State} (f q n ctx w addr len : Nat) {k : State} (keep_s : Keep r₀ s) (keep_k : Keep r₀ k) :
    Keep r₀ (State.withWrite s f q n ctx w addr len k) := by
  unfold State.withWrite
  repeat' first
    | with_reducible assumption
    | with_reducible exact Keep.refl _
    | with_reducible apply State.withRange_keep
    | intro _
    | split
    | extract_lets

theorem State.withDst_keep {r₀ : State} {s : State} (f q n ctx w addr len : Nat) {k : State} (keep_s : Keep r₀ s) (keep_k : Keep r₀ k) :
    Keep r₀ (State.withDst s f q n ctx w addr len k) := by
  unfold State.withDst
  repeat' first
    | with_reducible assumption
    | with_reducible exact Keep.refl _
    | with_reducible apply State.endCmd_keep
    | with_reducible apply State.withWrite_keep
    | intro _
    | split
    | extract_lets

theorem State.putBytes_keep {r₀ : State} {s : State} (f q n ctx addr : Nat) (bs : List Byte) (code : Option Nat) (k : State → State) (keep_s : Keep r₀ s) (keep_k : ∀ (x0 : State), Keep r₀ x0 → Keep r₀ (k x0)) :
    Keep r₀ (State.putBytes s f q n ctx addr bs code k) := by
  unfold State.putBytes
  repeat' first
    | with_reducible assumption
    | with_reducible exact Keep.refl _
    | with_reducible apply keep_k
    | with_reducible apply State.writeCtx_keep
    | with_reducible apply State.endCmd_keep
    | (refine KeepOpt.elim (by assumption) ?_)
    | intro _
    | split
    | extract_lets

theorem State.copyPieces_keep {r₀ : State} {s : State} (f q n ctx dst src len : Nat) (keep_s : Keep r₀ s) :
    KeepOpt r₀ (State.copyPieces s f q n ctx dst src len) := by
  unfold State.copyPieces
  repeat' first
    | with_reducible assumption
    | with_reducible exact Keep.refl _
    | with_reducible apply State.writePiece_keep
    | with_reducible apply Keep.foldl
    | with_reducible apply KeepExcSnd.foldl
    | with_reducible apply KeepOpt.foldl
    | with_reducible apply KeepExc.foldl
    | with_reducible exact KeepOpt.none
    | with_reducible apply KeepOpt.some
    | with_reducible apply KeepOpt.bind
    | with_reducible apply KeepOptSnd.bind
    | with_reducible apply KeepOpt.bindSnd
    | with_reducible apply KeepExc.bind
    | with_reducible apply KeepExc.bindSnd
    | with_reducible apply KeepExcSnd.bindSnd
    | (refine KeepOpt.elim (by assumption) ?_)
    | intro _
    | split
    | extract_lets

theorem execCopy_keep {r₀ : State} (f q n : Nat) (errs : List MemErr) {s0 : State} (keep_s0 : Keep r₀ s0) :
    KeepOut r₀ (execCopy f q n errs s0) := by
  unfold execCopy
  repeat' first
    | with_reducible assumption
    | with_reducible exact Keep.refl _
    | with_reducible apply State.done_keep
    | with_reducible apply State.work_keep
    | with_reducible apply State.checked_keep
    | with_reducible apply State.endCmd_keep
    | with_reducible apply State.withErrs_keep
    | with_reducible apply State.withRange_keep
    | with_reducible apply State.withDst_keep
    | with_reducible apply State.copyPieces_keep
    | with_reducible apply KeepOut.next
    | with_reducible apply KeepOut.onlyIf
    | with_reducible exact KeepOut.refused
    | with_reducible exact KeepOpt.none
    | with_reducible apply KeepOpt.some
    | (refine KeepOpt.elim (by assumption) ?_)
    | intro _
    | split
    | extract_lets

theorem execFill_keep {r₀ : State} (f q n : Nat) (errs : List MemErr) {s0 : State} (keep_s0 : Keep r₀ s0) :
    KeepOut r₀ (execFill f q n errs s0) := by
  unfold execFill
  repeat' first
    | with_reducible assumption
    | with_reducible exact Keep.refl _
    | with_reducible apply State.done_keep
    | with_reducible apply State.work_keep
    | with_reducible apply State.checked_keep
    | with_reducible apply State.withErrs_keep
    | with_reducible apply State.withDst_keep
    | with_reducible apply State.putBytes_keep
    | with_reducible apply KeepOut.next
    | with_reducible apply KeepOut.onlyIf
    | with_reducible exact KeepOut.refused
    | intro _
    | split
    | extract_lets

theorem execHostWrite_keep {r₀ : State} (f q n : Nat) (data : List Byte) (errs : List MemErr) {s0 : State} (keep_s0 : Keep r₀ s0) :
    KeepOut r₀ (execHostWrite f q n data errs s0) := by
  unfold execHostWrite
  repeat' first
    | with_reducible assumption
    | with_reducible exact Keep.refl _
    | with_reducible apply State.done_keep
    | with_reducible apply State.work_keep
    | with_reducible apply State.checked_keep
    | with_reducible apply State.withErrs_keep
    | with_reducible apply State.withDst_keep
    | with_reducible apply State.putBytes_keep
    | with_reducible apply KeepOut.next
    | with_reducible apply KeepOut.onlyIf
    | with_reducible exact KeepOut.refused
    | intro _
    | split
    | extract_lets

theorem execHostRead_keep {r₀ : State} (f q n : Nat) (errs : List MemErr) {s0 : State} (keep_s0 : Keep r₀ s0) :
    KeepOut r₀ (execHostRead f q n errs s0) := by
  unfold execHostRead
  repeat' first
    | with_reducible assumption
    | with_reducible exact Keep.refl _
    | with_reducible apply State.done_keep
    | with_reducible apply State.work_keep
    | with_reducible apply State.checked_keep
    | with_reducible apply State.withErrs_keep
    | with_reducible apply State.withRange_keep
    | with_reducible apply KeepOut.next
    | with_reducible apply KeepOut.onlyIf
    | with_reducible exact KeepOut.refused
    | with_reducible exact Nat.le_refl _
    | (intro hi; first
      | exact cellsWf_cellWrite _ _ _ hi
      | exact Tiers.wf_upd hi (fun h => cellsWf_cellWrite _ _ _ h) id
      | exact Tiers.wf_upd hi id (fun h => cellsWf_cellWrite _ _ _ h))
    | with_reducible exact id
    | exact fun h => Mgmt.wf_congr h rfl rfl rfl rfl rfl rfl
    | exact fun h => Tiers.wf_congr h rfl rfl
    | exact fun _ => rfl
    | intro _
    | split
    | extract_lets
    | (with_reducible apply Keep.upd)

theorem execTierHint_keep {r₀ : State} (f q n : Nat) {s : State} (keep_s : Keep r₀ s) :
    KeepOut r₀ (execTierHint f q n s) := by
  unfold execTierHint
  repeat' first
    | with_reducible assumption
    | with_reducible exact Keep.refl _
    | with_reducible apply State.done_keep
    | with_reducible apply State.setWork_keep
    | with_reducible apply State.work_keep
    | with_reducible apply State.checked_keep
    | with_reducible apply State.withRange_keep
    | with_reducible apply KeepOut.next
    | with_reducible apply KeepOut.onlyIf
    | with_reducible exact KeepOut.refused
    | intro _
    | split
    | extract_lets

theorem execQuotaSet_keep {r₀ : State} (f q n : Nat) {s : State} (keep_s : Keep r₀ s) :
    KeepOut r₀ (execQuotaSet f q n s) := by
  unfold execQuotaSet
  repeat' first
    | with_reducible assumption
    | with_reducible exact Keep.refl _
    | with_reducible apply State.done_keep
    | with_reducible apply State.setWork_keep
    | with_reducible apply State.work_keep
    | with_reducible apply State.checked_keep
    | with_reducible apply KeepOut.next
    | with_reducible apply KeepOut.onlyIf
    | with_reducible exact KeepOut.refused
    | intro _
    | split
    | extract_lets

theorem State.beginMove_keep {r₀ : State} {s : State} (ctx i tier : Nat) (keep_s : Keep r₀ s) :
    KeepOpt r₀ (State.beginMove s ctx i tier) := by
  unfold State.beginMove
  repeat' first
    | with_reducible assumption
    | with_reducible exact Keep.refl _
    | with_reducible apply State.bmChange_keep
    | with_reducible apply State.setMig_keep
    | with_reducible apply State.abandonMig_keep
    | with_reducible apply State.allocFor_keep
    | with_reducible exact KeepOpt.none
    | with_reducible apply KeepOpt.some
    | (refine KeepOpt.elim (by assumption) ?_)
    | with_reducible exact KeepOptSnd.none
    | with_reducible apply KeepOptSnd.some
    | (refine KeepOptSnd.elim (by assumption) ?_)
    | (refine KeepOptSnd.again (by assumption) ?_)
    | intro _
    | split
    | extract_lets

theorem State.queueDemotions_keep {r₀ : State} {s : State} (ctx : Nat) (keep_s : Keep r₀ s) :
    Keep r₀ (State.queueDemotions s ctx) := by
  unfold State.queueDemotions
  repeat' first
    | with_reducible assumption
    | with_reducible exact Keep.refl _
    | with_reducible apply State.setMig_keep
    | with_reducible apply Keep.foldl
    | intro _
    | split
    | extract_lets

theorem execBlockMapChangeDone_keep {r₀ : State} (entry : Nat) {s : State} (keep_s : Keep r₀ s) :
    KeepOut r₀ (execBlockMapChangeDone entry s) := by
  unfold execBlockMapChangeDone
  repeat' first
    | with_reducible assumption
    | with_reducible exact Keep.refl _
    | with_reducible apply onlyIf_keep
    | with_reducible apply State.lendReturn_keep
    | with_reducible apply KeepOut.next
    | with_reducible apply KeepOut.onlyIf
    | with_reducible exact KeepOut.refused
    | with_reducible exact Nat.le_refl _
    | with_reducible exact id
    | exact fun h => Mgmt.wf_congr h rfl rfl rfl rfl rfl rfl
    | exact fun h => Tiers.wf_congr h rfl rfl
    | exact fun _ => rfl
    | intro _
    | split
    | extract_lets
    | (with_reducible apply Keep.upd)

theorem execFrameRelease_keep {r₀ : State} (fid : Nat) {s : State} (keep_s : Keep r₀ s) :
    KeepOut r₀ (execFrameRelease fid s) := by
  unfold execFrameRelease
  repeat' first
    | with_reducible assumption
    | with_reducible exact Keep.refl _
    | with_reducible apply onlyIf_keep
    | with_reducible apply State.setFrame_keep
    | with_reducible apply KeepOut.next
    | with_reducible apply KeepOut.onlyIf
    | with_reducible exact KeepOut.refused
    | intro _
    | split
    | extract_lets

theorem execFrameScrub_keep {r₀ : State} (fid : Nat) {s : State} (keep_s : Keep r₀ s) :
    KeepOut r₀ (execFrameScrub fid s) := by
  unfold execFrameScrub
  repeat' first
    | with_reducible assumption
    | with_reducible exact Keep.refl _
    | with_reducible apply onlyIf_keep
    | with_reducible apply State.setFrame_keep
    | with_reducible apply State.zeroFrame_keep
    | with_reducible apply KeepOut.next
    | with_reducible apply KeepOut.onlyIf
    | with_reducible exact KeepOut.refused
    | with_reducible exact Nat.le_refl _
    | with_reducible exact id
    | exact fun h => Mgmt.wf_congr h rfl rfl rfl rfl rfl rfl
    | exact fun h => Tiers.wf_congr h rfl rfl
    | exact fun _ => rfl
    | intro _
    | split
    | extract_lets
    | (with_reducible apply Keep.upd)

theorem State.resumeBlock_keep {r₀ : State} {s : State} (ctx blk : Nat) (keep_s : Keep r₀ s) :
    Keep r₀ (State.resumeBlock s ctx blk) := by
  unfold State.resumeBlock
  repeat' first
    | with_reducible assumption
    | with_reducible exact Keep.refl _
    | with_reducible apply State.cause_keep
    | with_reducible apply State.resumeSlot_keep
    | with_reducible apply Keep.foldl
    | with_reducible apply KeepExcSnd.foldl
    | with_reducible apply KeepOpt.foldl
    | with_reducible apply KeepExc.foldl
    | intro _
    | split
    | extract_lets

theorem State.allocMigration_keep {r₀ : State} {s : State} (ctx tier : Nat) (keep_s : Keep r₀ s) :
    KeepOptSnd r₀ (State.allocMigration s ctx tier) := by
  unfold State.allocMigration
  repeat' first
    | with_reducible assumption
    | with_reducible exact Keep.refl _
    | with_reducible apply State.allocFrame_keep
    | with_reducible exact KeepOptSnd.none
    | with_reducible apply KeepOptSnd.some
    | (refine KeepOptSnd.elim (by assumption) ?_)
    | (refine KeepOptSnd.again (by assumption) ?_)
    | intro _
    | split
    | extract_lets

theorem State.allocHome_keep {r₀ : State} {s : State} (ctx : Nat) (keep_s : Keep r₀ s) :
    KeepOptSnd r₀ (State.allocHome s ctx) := by
  unfold State.allocHome
  repeat' first
    | with_reducible assumption
    | with_reducible exact Keep.refl _
    | with_reducible apply State.allocFrame_keep
    | with_reducible exact KeepOptSnd.none
    | with_reducible apply KeepOptSnd.some
    | (refine KeepOptSnd.elim (by assumption) ?_)
    | (refine KeepOptSnd.again (by assumption) ?_)
    | intro _
    | split
    | extract_lets

theorem execMigrationStart_keep {r₀ : State} (i : Nat) {s : State} (keep_s : Keep r₀ s) :
    KeepOut r₀ (execMigrationStart i s) := by
  unfold execMigrationStart
  repeat' first
    | with_reducible assumption
    | with_reducible exact Keep.refl _
    | with_reducible apply State.setMig_keep
    | with_reducible apply State.allocFor_keep
    | with_reducible apply State.fetchPeer_keep
    | with_reducible apply State.allocMigration_keep
    | with_reducible apply State.allocHome_keep
    | with_reducible apply KeepOut.next
    | with_reducible apply KeepOut.onlyIf
    | with_reducible exact KeepOut.refused
    | with_reducible exact KeepOptSnd.none
    | with_reducible apply KeepOptSnd.some
    | (refine KeepOptSnd.elim (by assumption) ?_)
    | (refine KeepOptSnd.again (by assumption) ?_)
    | intro _
    | split
    | extract_lets

theorem State.switchEntry_keep {r₀ : State} {s : State} (i : Nat) (m : Migration) (keep_s : Keep r₀ s) :
    Keep r₀ (State.switchEntry s i m) := by
  unfold State.switchEntry
  repeat' first
    | with_reducible assumption
    | with_reducible exact Keep.refl _
    | with_reducible apply State.done_keep
    | with_reducible apply State.bmChange_keep
    | with_reducible apply State.drainFrame_keep
    | with_reducible apply State.setMig_keep
    | with_reducible apply State.resumeBlock_keep
    | with_reducible exact Nat.le_refl _
    | (intro hi; first
      | exact cellsWf_cellWrite _ _ _ hi
      | exact Tiers.wf_upd hi (fun h => cellsWf_cellWrite _ _ _ h) id
      | exact Tiers.wf_upd hi (fun h => cellsWf_cellCopy _ _ _ _ h) id
      | exact Tiers.wf_upd hi id (fun h => cellsWf_cellClear _ _ _ h))
    | with_reducible exact id
    | exact fun h => Mgmt.wf_congr h rfl rfl rfl rfl rfl rfl
    | exact fun h => Tiers.wf_congr h rfl rfl
    | exact fun _ => rfl
    | intro _
    | split
    | extract_lets
    | (with_reducible apply Keep.upd)

theorem execMigrationDone_keep {r₀ : State} (i : Nat) (err : ReadErr) {s : State} (keep_s : Keep r₀ s) :
    KeepOut r₀ (execMigrationDone i err s) := by
  unfold execMigrationDone
  repeat' first
    | with_reducible assumption
    | with_reducible exact Keep.refl _
    | with_reducible apply State.invalidate_keep
    | with_reducible apply State.retireFrame_keep
    | with_reducible apply State.correctable_keep
    | with_reducible apply State.resumeBlock_keep
    | with_reducible apply State.switchEntry_keep
    | with_reducible apply KeepOut.next
    | with_reducible apply KeepOut.onlyIf
    | with_reducible exact KeepOut.refused
    | intro _
    | split
    | extract_lets

theorem execPatrolScrubRead_keep {r₀ : State} (fid : Nat) (err : ReadErr) {s : State} (keep_s : Keep r₀ s) :
    KeepOut r₀ (execPatrolScrubRead fid err s) := by
  unfold execPatrolScrubRead
  repeat' first
    | with_reducible assumption
    | with_reducible exact Keep.refl _
    | with_reducible apply State.retireFrame_keep
    | with_reducible apply State.correctable_keep
    | with_reducible apply State.teardown_keep
    | with_reducible apply State.resumeBlock_keep
    | with_reducible apply KeepOut.next
    | with_reducible apply KeepOut.onlyIf
    | with_reducible exact KeepOut.refused
    | intro _
    | split
    | extract_lets

theorem execScrubPassOverdue_keep {r₀ : State} (island : Nat) {s : State} (keep_s : Keep r₀ s) :
    KeepOut r₀ (execScrubPassOverdue island s) := by
  unfold execScrubPassOverdue
  repeat' first
    | with_reducible assumption
    | with_reducible exact Keep.refl _
    | with_reducible apply onlyIf_keep
    | with_reducible apply State.report_keep
    | with_reducible apply KeepOut.next
    | with_reducible apply KeepOut.onlyIf
    | with_reducible exact KeepOut.refused
    | intro _
    | split
    | extract_lets

theorem execPeerMap_keep {r₀ : State} (f q n : Nat) {s : State} (keep_s : Keep r₀ s) :
    KeepOut r₀ (execPeerMap f q n s) := by
  unfold execPeerMap
  repeat' first
    | with_reducible assumption
    | with_reducible exact Keep.refl _
    | with_reducible apply State.setWork_keep
    | with_reducible apply State.work_keep
    | with_reducible apply State.checked_keep
    | with_reducible apply State.sendReq_keep
    | with_reducible apply State.endCmd_keep
    | with_reducible apply KeepOut.next
    | with_reducible apply KeepOut.onlyIf
    | with_reducible exact KeepOut.refused
    | (refine KeepOpt.elim (by assumption) ?_)
    | with_reducible exact Nat.le_refl _
    | with_reducible exact id
    | exact fun h => Mgmt.wf_congr h rfl rfl rfl rfl rfl rfl
    | exact fun h => Tiers.wf_congr h rfl rfl
    | exact fun _ => rfl
    | intro _
    | split
    | extract_lets
    | (with_reducible apply Keep.upd)

theorem execLendRecall_keep {r₀ : State} (f q n : Nat) {s : State} (keep_s : Keep r₀ s) :
    KeepOut r₀ (execLendRecall f q n s) := by
  unfold execLendRecall
  repeat' first
    | with_reducible assumption
    | with_reducible exact Keep.refl _
    | with_reducible apply State.done_keep
    | with_reducible apply State.setWork_keep
    | with_reducible apply State.work_keep
    | with_reducible apply State.checked_keep
    | with_reducible apply State.sendAnswer_keep
    | with_reducible apply Keep.foldl
    | with_reducible apply KeepOut.next
    | with_reducible apply KeepOut.onlyIf
    | with_reducible exact KeepOut.refused
    | with_reducible exact Nat.le_refl _
    | with_reducible exact id
    | exact fun h => Mgmt.wf_congr h rfl rfl rfl rfl rfl rfl
    | exact fun h => Tiers.wf_congr h rfl rfl
    | exact fun _ => rfl
    | intro _
    | split
    | extract_lets
    | (with_reducible apply Keep.upd)

theorem State.recallEntry_keep {r₀ : State} {s : State} (i : Nat) (keep_s : Keep r₀ s) :
    Keep r₀ (State.recallEntry s i) := by
  unfold State.recallEntry
  repeat' first
    | with_reducible assumption
    | with_reducible exact Keep.refl _
    | with_reducible apply State.bmChange_keep
    | with_reducible apply State.setMig_keep
    | intro _
    | split
    | extract_lets

theorem State.recallLate_keep {r₀ : State} {s : State} (i : Nat) (keep_s : Keep r₀ s) :
    Keep r₀ (State.recallLate s i) := by
  unfold State.recallLate
  repeat' first
    | with_reducible assumption
    | with_reducible exact Keep.refl _
    | with_reducible apply State.recallEntry_keep
    | intro _
    | split
    | extract_lets

theorem execRecallBorrowerDeadline_keep {r₀ : State} (chip first : Nat) {s : State} (keep_s : Keep r₀ s) :
    KeepOut r₀ (execRecallBorrowerDeadline chip first s) := by
  unfold execRecallBorrowerDeadline
  repeat' first
    | with_reducible assumption
    | with_reducible exact Keep.refl _
    | with_reducible apply State.invalidate_keep
    | with_reducible apply State.resumeBlock_keep
    | with_reducible apply Keep.foldl
    | with_reducible apply KeepExcSnd.foldl
    | with_reducible apply KeepOpt.foldl
    | with_reducible apply KeepExc.foldl
    | with_reducible apply KeepOut.next
    | with_reducible apply KeepOut.onlyIf
    | with_reducible exact KeepOut.refused
    | with_reducible exact Nat.le_refl _
    | (intro hi; first
      | exact cellsWf_foldl _ _ _ (fun m x h => cellsWf_cellWrite _ _ _ h) hi
      | exact cellsWf_foldl _ _ _ (fun m x h => cellsWf_cellClear _ _ _ h) hi
      | exact Tiers.wf_upd hi (fun h => cellsWf_foldl _ _ _ (fun m x h => cellsWf_cellWrite _ _ _ h) h) id)
    | with_reducible exact id
    | exact fun h => Mgmt.wf_congr h rfl rfl rfl rfl rfl rfl
    | exact fun h => Tiers.wf_congr h rfl rfl
    | exact fun _ => rfl
    | intro _
    | split
    | extract_lets
    | (with_reducible apply Keep.upd)

theorem execRecallLenderDeadline_keep {r₀ : State} (first : Nat) {s : State} (keep_s : Keep r₀ s) :
    KeepOut r₀ (execRecallLenderDeadline first s) := by
  unfold execRecallLenderDeadline
  repeat' first
    | with_reducible assumption
    | with_reducible exact Keep.refl _
    | with_reducible apply State.modCmd_keep
    | with_reducible apply State.work_keep
    | with_reducible apply KeepOut.next
    | with_reducible apply KeepOut.onlyIf
    | with_reducible exact KeepOut.refused
    | with_reducible exact Nat.le_refl _
    | with_reducible exact id
    | exact fun h => Mgmt.wf_congr h rfl rfl rfl rfl rfl rfl
    | exact fun h => Tiers.wf_congr h rfl rfl
    | exact fun _ => rfl
    | intro _
    | split
    | dsimp only
    | (with_reducible apply Keep.upd)

end Sys2Proof.Machine
end

