-- ==== Sys2Proof/Laws/KeepKv.lean ====
section
/-! SUPPORT. What the operations and meanings of Machine/Kv.lean keep (`Keep`, Laws/Keep.lean). -/
set_option linter.all false

namespace Sys2Proof.Machine

theorem State.setRec_keep {r₀ : State} {s : State} (ctx num : Nat) (r : KvRec) (keep_s : Keep r₀ s) :
    Keep r₀ (State.setRec s ctx num r) := by
  unfold State.setRec
  repeat' first
    | with_reducible assumption
    | with_reducible exact Keep.refl _
    | with_reducible apply State.rawWrite_keep
    | with_reducible exact Nat.le_refl _
    | with_reducible exact id
    | exact fun h => Mgmt.wf_congr h rfl rfl rfl rfl rfl rfl
    | exact fun h => Tiers.wf_congr h rfl rfl
    | exact fun _ => rfl
    | intro _
    | split
    | extract_lets
    | (with_reducible apply Keep.upd)

theorem State.modRec_keep {r₀ : State} {s : State} (ctx num : Nat) (f : KvRec → KvRec) (keep_s : Keep r₀ s) :
    Keep r₀ (State.modRec s ctx num f) := by
  unfold State.modRec
  repeat' first
    | with_reducible assumption
    | with_reducible exact Keep.refl _
    | with_reducible apply State.setRec_keep
    | intro _
    | split
    | extract_lets

theorem State.reapPark_keep {r₀ : State} {s : State} (keep_s : Keep r₀ s) :
    Keep r₀ (State.reapPark s) := by
  unfold State.reapPark
  repeat' first
    | with_reducible assumption
    | with_reducible exact Keep.refl _
    | with_reducible exact Nat.le_refl _
    | with_reducible exact id
    | exact fun h => Mgmt.wf_congr h rfl rfl rfl rfl rfl rfl
    | exact fun h => Tiers.wf_congr h rfl rfl
    | exact fun _ => rfl
    | intro _
    | split
    | extract_lets
    | (with_reducible apply Keep.upd)

theorem State.killPark_keep {r₀ : State} {s : State} (p : ParkEntry → Bool) (keep_s : Keep r₀ s) :
    Keep r₀ (State.killPark s p) := by
  unfold State.killPark
  repeat' first
    | with_reducible assumption
    | with_reducible exact Keep.refl _
    | with_reducible apply State.reapPark_keep
    | with_reducible exact Nat.le_refl _
    | with_reducible exact id
    | exact fun h => Mgmt.wf_congr h rfl rfl rfl rfl rfl rfl
    | exact fun h => Tiers.wf_congr h rfl rfl
    | exact fun _ => rfl
    | intro _
    | split
    | extract_lets
    | (with_reducible apply Keep.upd)

theorem State.hintSlot_keep {r₀ : State} {s : State} (ctx : Nat) (r : KvRec) (hint : Nat) (keep_s : Keep r₀ s) :
    Keep r₀ (State.hintSlot s ctx r hint) := by
  unfold State.hintSlot
  repeat' first
    | with_reducible assumption
    | with_reducible exact Keep.refl _
    | with_reducible apply State.bmMod_keep
    | with_reducible apply State.setMig_keep
    | with_reducible apply State.abandonMig_keep
    | with_reducible apply Keep.foldl
    | with_reducible apply KeepExcSnd.foldl
    | with_reducible apply KeepOpt.foldl
    | with_reducible apply KeepExc.foldl
    | with_reducible exact Nat.le_refl _
    | (intro hi; first
      | exact cellsWf_foldl _ _ _ (fun m x h => cellsWf_cellWrite _ _ _ h) hi
      | exact cellsWf_foldl _ _ _ (fun m x h => cellsWf_cellClear _ _ _ h) hi)
    | with_reducible exact id
    | exact fun h => Mgmt.wf_congr h rfl rfl rfl rfl rfl rfl
    | exact fun h => Tiers.wf_congr h rfl rfl
    | exact fun _ => rfl
    | intro _
    | split
    | extract_lets
    | (with_reducible apply Keep.upd)

theorem State.toLive_keep {r₀ : State} {s : State} (ctx num : Nat) (keep_s : Keep r₀ s) :
    Keep r₀ (State.toLive s ctx num) := by
  unfold State.toLive
  repeat' first
    | with_reducible assumption
    | with_reducible exact Keep.refl _
    | with_reducible apply State.bringIn_keep
    | with_reducible apply State.modRec_keep
    | with_reducible apply State.killPark_keep
    | with_reducible apply State.hintSlot_keep
    | with_reducible apply Keep.foldl
    | with_reducible apply KeepExcSnd.foldl
    | with_reducible apply KeepOpt.foldl
    | with_reducible apply KeepExc.foldl
    | with_reducible exact Nat.le_refl _
    | (intro hi; first
      | exact cellsWf_foldl _ _ _ (fun m x h => cellsWf_cellWrite _ _ _ h) hi
      | exact cellsWf_foldl _ _ _ (fun m x h => cellsWf_cellClear _ _ _ h) hi)
    | with_reducible exact id
    | exact fun h => Mgmt.wf_congr h rfl rfl rfl rfl rfl rfl
    | exact fun h => Tiers.wf_congr h rfl rfl
    | exact fun _ => rfl
    | intro _
    | split
    | extract_lets
    | (with_reducible apply Keep.upd)

theorem State.setDeadlines_keep {r₀ : State} {s : State} (ctx num : Nat) (pair : Nat × Nat) (keep_s : Keep r₀ s) :
    Keep r₀ (State.setDeadlines s ctx num pair) := by
  unfold State.setDeadlines
  repeat' first
    | with_reducible assumption
    | with_reducible exact Keep.refl _
    | with_reducible apply State.modRec_keep
    | with_reducible exact Nat.le_refl _
    | with_reducible exact id
    | exact fun h => Mgmt.wf_congr h rfl rfl rfl rfl rfl rfl
    | exact fun h => Tiers.wf_congr h rfl rfl
    | exact fun _ => rfl
    | intro _
    | split
    | extract_lets
    | (with_reducible apply Keep.upd)

theorem State.toIdle_keep {r₀ : State} {s : State} (ctx num : Nat) (pair : Nat × Nat) (keep_s : Keep r₀ s) :
    Keep r₀ (State.toIdle s ctx num pair) := by
  unfold State.toIdle
  repeat' first
    | with_reducible assumption
    | with_reducible exact Keep.refl _
    | with_reducible apply State.modRec_keep
    | with_reducible apply State.hintSlot_keep
    | with_reducible apply State.setDeadlines_keep
    | with_reducible exact Nat.le_refl _
    | with_reducible exact id
    | exact fun h => Mgmt.wf_congr h rfl rfl rfl rfl rfl rfl
    | exact fun h => Tiers.wf_congr h rfl rfl
    | exact fun _ => rfl
    | intro _
    | split
    | extract_lets
    | (with_reducible apply Keep.upd)

theorem State.actUp_keep {r₀ : State} (ctx n : Nat) {s : State} (k : Nat) (h : Keep r₀ s) :
    Keep r₀ (State.actUp ctx n s k) := by
  induction n generalizing s k with
  | zero => exact h
  | succ n ih =>
    unfold State.actUp
    split
    · exact h
    · extract_lets r s1
      have h1 : Keep r₀ s1 := State.modRec_keep _ _ _ (Keep.ite (State.toLive_keep _ _ h) h)
      split
      · exact ih _ h1
      · exact h1

theorem State.actDown_keep {r₀ : State} (ctx : Nat) (pair : Nat × Nat) (n : Nat) {s : State} (k : Nat) (h : Keep r₀ s) :
    Keep r₀ (State.actDown ctx pair n s k) := by
  induction n generalizing s k with
  | zero => exact h
  | succ n ih =>
    unfold State.actDown
    split
    · exact h
    · extract_lets r s1
      have h1 : Keep r₀ s1 := State.modRec_keep _ _ _ h
      split
      · exact ih _ (State.toIdle_keep _ _ _ h1)
      · exact h1

theorem State.activate_keep {r₀ : State} {s : State} (ctx k : Nat) (keep_s : Keep r₀ s) :
    Keep r₀ (State.activate s ctx k) := by
  unfold State.activate
  repeat' first
    | with_reducible assumption
    | with_reducible exact Keep.refl _
    | with_reducible apply State.actUp_keep
    | intro _
    | split
    | extract_lets

theorem State.deactivate_keep {r₀ : State} {s : State} (ctx k : Nat) (pair : Nat × Nat) (keep_s : Keep r₀ s) :
    Keep r₀ (State.deactivate s ctx k pair) := by
  unfold State.deactivate
  repeat' first
    | with_reducible assumption
    | with_reducible exact Keep.refl _
    | with_reducible apply State.actDown_keep
    | intro _
    | split
    | extract_lets

theorem State.raiseFree_keep {r₀ : State} (ctx free n : Nat) {s : State} (k : Nat) (h : Keep r₀ s) :
    Keep r₀ (State.raiseFree ctx free n s k) := by
  induction n generalizing s k with
  | zero => exact h
  | succ n ih =>
    unfold State.raiseFree
    split
    · exact h
    · exact ih _ (State.modRec_keep _ _ _ h)

theorem State.pdClear_keep {r₀ : State} {s : State} (i : Nat) (keep_s : Keep r₀ s) :
    Keep r₀ (State.pdClear s i) := by
  unfold State.pdClear
  repeat' first
    | with_reducible assumption
    | with_reducible exact Keep.refl _
    | with_reducible exact Nat.le_refl _
    | with_reducible exact id
    | exact fun h => Mgmt.wf_congr h rfl rfl rfl rfl rfl rfl
    | exact fun h => Tiers.wf_congr h rfl rfl
    | exact fun _ => rfl
    | intro _
    | split
    | extract_lets
    | (with_reducible apply Keep.upd)

theorem State.unpublish_keep {r₀ : State} {s : State} (ctx num : Nat) (keep_s : Keep r₀ s) :
    Keep r₀ (State.unpublish s ctx num) := by
  unfold State.unpublish
  repeat' first
    | with_reducible assumption
    | with_reducible exact Keep.refl _
    | with_reducible apply State.modRec_keep
    | with_reducible apply State.pdClear_keep
    | with_reducible exact Nat.le_refl _
    | with_reducible exact id
    | exact fun h => Mgmt.wf_congr h rfl rfl rfl rfl rfl rfl
    | exact fun h => Tiers.wf_congr h rfl rfl
    | exact fun _ => rfl
    | intro _
    | split
    | extract_lets
    | (with_reducible apply Keep.upd)

theorem State.publishRec_keep {r₀ : State} {s : State} (ctx num : Nat) (priv : Bool) (keep_s : Keep r₀ s) :
    Keep r₀ (State.publishRec s ctx num priv) := by
  unfold State.publishRec
  repeat' first
    | with_reducible assumption
    | with_reducible exact Keep.refl _
    | with_reducible apply State.modCtx_keep
    | with_reducible apply State.modRec_keep
    | with_reducible exact Nat.le_refl _
    | with_reducible exact id
    | exact fun h => Mgmt.wf_congr h rfl rfl rfl rfl rfl rfl
    | exact fun h => Tiers.wf_congr h rfl rfl
    | exact fun _ => rfl
    | intro _
    | split
    | extract_lets
    | (with_reducible apply Keep.upd)

theorem State.freeOne_keep {r₀ : State} {s : State} (ctx num : Nat) (keep_s : Keep r₀ s) :
    Keep r₀ (State.freeOne s ctx num) := by
  unfold State.freeOne
  repeat' first
    | with_reducible assumption
    | with_reducible exact Keep.refl _
    | with_reducible apply State.unmapEntry_keep
    | with_reducible apply State.setRec_keep
    | with_reducible apply State.killPark_keep
    | with_reducible apply State.unpublish_keep
    | with_reducible apply Keep.foldl
    | with_reducible apply KeepExcSnd.foldl
    | with_reducible apply KeepOpt.foldl
    | with_reducible apply KeepExc.foldl
    | intro _
    | split
    | extract_lets

theorem State.refDownAux_keep {r₀ : State} (ctx n : Nat) {s : State} (k : Nat) (h : Keep r₀ s) :
    Keep r₀ (State.refDownAux ctx n s k) := by
  induction n generalizing s k with
  | zero => exact h
  | succ n ih =>
    unfold State.refDownAux
    split
    · exact h
    · extract_lets r s1
      have h1 : Keep r₀ s1 := State.modRec_keep _ _ _ h
      split
      · exact ih _ (State.freeOne_keep _ _ h1)
      · exact h1

theorem State.refDown_keep {r₀ : State} {s : State} (ctx k : Nat) (keep_s : Keep r₀ s) :
    Keep r₀ (State.refDown s ctx k) := by
  unfold State.refDown
  repeat' first
    | with_reducible assumption
    | with_reducible exact Keep.refl _
    | with_reducible apply State.refDownAux_keep
    | intro _
    | split
    | extract_lets

theorem State.refUp_keep {r₀ : State} {s : State} (ctx k : Nat) (keep_s : Keep r₀ s) :
    Keep r₀ (State.refUp s ctx k) := by
  unfold State.refUp
  repeat' first
    | with_reducible assumption
    | with_reducible exact Keep.refl _
    | with_reducible apply State.modRec_keep
    | with_reducible exact Nat.le_refl _
    | with_reducible exact id
    | exact fun h => Mgmt.wf_congr h rfl rfl rfl rfl rfl rfl
    | exact fun h => Tiers.wf_congr h rfl rfl
    | exact fun _ => rfl
    | intro _
    | split
    | extract_lets
    | (with_reducible apply Keep.upd)

theorem State.freeLeaf_keep {r₀ : State} {s : State} (ctx num : Nat) (keep_s : Keep r₀ s) :
    Keep r₀ (State.freeLeaf s ctx num) := by
  unfold State.freeLeaf
  repeat' first
    | with_reducible assumption
    | with_reducible exact Keep.refl _
    | with_reducible apply State.freeOne_keep
    | with_reducible apply State.refDown_keep
    | intro _
    | split
    | extract_lets

theorem State.freeTree_keep {r₀ : State} {s : State} (ctx num : Nat) (keep_s : Keep r₀ s) :
    Keep r₀ (State.freeTree s ctx num) := by
  unfold State.freeTree
  repeat' first
    | with_reducible assumption
    | with_reducible exact Keep.refl _
    | with_reducible apply State.modSess_keep
    | with_reducible apply State.deactivate_keep
    | with_reducible apply State.freeOne_keep
    | with_reducible apply State.refDown_keep
    | with_reducible apply State.refUp_keep
    | with_reducible apply Keep.foldl
    | with_reducible apply KeepExcSnd.foldl
    | with_reducible apply KeepOpt.foldl
    | with_reducible apply KeepExc.foldl
    | intro _
    | split
    | extract_lets

theorem State.allocRec_keep {r₀ : State} {s : State} (ctx : Nat) (g : KvGeom) (keep_s : Keep r₀ s) :
    KeepExcSnd r₀ (State.allocRec s ctx g) := by
  unfold State.allocRec
  repeat' first
    | with_reducible assumption
    | with_reducible exact Keep.refl _
    | with_reducible apply State.freeLeaf_keep
    | with_reducible exact KeepExc.error
    | with_reducible apply KeepExc.ok
    | with_reducible exact KeepExcSnd.error
    | with_reducible apply KeepExcSnd.ok
    | with_reducible apply KeepOpt.getD
    | intro _
    | split
    | extract_lets

theorem State.mapNow_keep {r₀ : State} {s : State} (ctx blk code : Nat) (keep_s : Keep r₀ s) :
    KeepExc r₀ (State.mapNow s ctx blk code) := by
  unfold State.mapNow
  repeat' first
    | with_reducible assumption
    | with_reducible exact Keep.refl _
    | with_reducible apply State.bmChange_keep
    | with_reducible apply State.allocMap_keep
    | with_reducible exact KeepOptSnd.none
    | with_reducible apply KeepOptSnd.some
    | (refine KeepOptSnd.elim (by assumption) ?_)
    | (refine KeepOptSnd.again (by assumption) ?_)
    | with_reducible exact KeepExc.error
    | with_reducible apply KeepExc.ok
    | (refine KeepExc.elim (by assumption) ?_)
    | with_reducible exact KeepExcSnd.error
    | with_reducible apply KeepExcSnd.ok
    | (refine KeepExcSnd.elim (by assumption) ?_)
    | intro _
    | split
    | extract_lets

/-- Mapping the blocks of a slot. -/
theorem KvGeom.mapSlot_keep {r₀ t : State} (ctx : Nat) (g : KvGeom) (k : Nat) (keep_t : Keep r₀ t) :
    KeepExcSnd r₀ (g.mapSlot ctx t k) := by
  refine KeepExcSnd.map (KeepExc.foldl (KeepExc.ok keep_t) ?_) (fun u hu => hu)
  intro a i ha
  exact KeepExc.bind ha (fun u hu => State.mapNow_keep _ _ _ hu)

/-- Taking what is free, or dropping a victim. -/
theorem State.orVictim_keep {r₀ s : State} {free : State → Option Nat} {victim : Option Nat} {drop : Nat → State} {full : Verdict}
    {take : State → Nat → Except Verdict (Nat × State)} (keep_s : Keep r₀ s) (hd : ∀ v, Keep r₀ (drop v))
    (ht : ∀ t k, Keep r₀ t → KeepExcSnd r₀ (take t k)) : KeepExcSnd r₀ (s.orVictim free victim drop full take) := by
  unfold State.orVictim
  split
  · exact ht _ _ keep_s
  · split
    · exact KeepExcSnd.error
    · split
      · exact ht _ _ (hd _)
      · exact KeepExcSnd.error

theorem State.allocSlot_keep {r₀ : State} {s : State} (ctx : Nat) (g : KvGeom) (keep_s : Keep r₀ s) :
    KeepExcSnd r₀ (State.allocSlot s ctx g) :=
  State.orVictim_keep keep_s (fun _ => State.freeLeaf_keep _ _ keep_s) (fun _ k ht => KvGeom.mapSlot_keep ctx g k ht)

theorem State.newRec_keep {r₀ : State} {s : State} (ctx : Nat) (g : KvGeom) (r : KvRec) (held : Bool) (keep_s : Keep r₀ s) :
    KeepExcSnd r₀ (State.newRec s ctx g r held) := by
  unfold State.newRec
  refine KeepExcSnd.bindSnd (State.allocRec_keep _ _ keep_s) (fun k t ht => ?_)
  have h1 := State.setRec_keep ctx k { r with held := false, slot := noRec, parkAt := never, freeAt := never } ht
  dsimp only
  split
  · exact KeepExcSnd.mapSnd (State.allocSlot_keep _ _ h1) (fun sl u hu => by dsimp only; exact State.modRec_keep _ _ _ hu)
  · exact KeepExcSnd.ok h1

theorem State.pokePage_keep {r₀ : State} {s : State} (ctx : Nat) (g : KvGeom) (slot j : Nat) (ks : List Poke) (keep_s : Keep r₀ s) :
    Keep r₀ (State.pokePage s ctx g slot j ks) := by
  unfold State.pokePage
  repeat' first
    | with_reducible assumption
    | with_reducible exact Keep.refl _
    | with_reducible apply Keep.foldl
    | with_reducible apply KeepExcSnd.foldl
    | with_reducible apply KeepOpt.foldl
    | with_reducible apply KeepExc.foldl
    | with_reducible exact Nat.le_refl _
    | (intro hi; first
      | exact cellsWf_cellWrite _ _ _ hi
      | exact cellsWf_foldl _ _ _ (fun m x h => cellsWf_cellWrite _ _ _ h) hi
      | exact cellsWf_foldl _ _ _ (fun m x h => cellsWf_cellClear _ _ _ h) hi
      | exact Tiers.wf_upd hi (fun h => cellsWf_cellWrite _ _ _ h) id
      | exact Tiers.wf_upd hi (fun h => cellsWf_foldl _ _ _ (fun m x h => cellsWf_cellWrite _ _ _ h) h) id)
    | with_reducible exact id
    | exact fun h => Mgmt.wf_congr h rfl rfl rfl rfl rfl rfl
    | exact fun h => Tiers.wf_congr h rfl rfl
    | exact fun _ => rfl
    | intro _
    | split
    | extract_lets
    | (with_reducible apply Keep.upd)

theorem State.copySlot_keep {r₀ : State} {s : State} (ctx : Nat) (g : KvGeom) (src dst : Nat) (keep_s : Keep r₀ s) :
    Keep r₀ (State.copySlot s ctx g src dst) := by
  unfold State.copySlot
  repeat' first
    | with_reducible assumption
    | with_reducible exact Keep.refl _
    | with_reducible apply State.rawPiece_keep
    | with_reducible apply Keep.foldl
    | with_reducible apply KeepExcSnd.foldl
    | with_reducible apply KeepOpt.foldl
    | with_reducible apply KeepExc.foldl
    | intro _
    | split
    | extract_lets

theorem State.parkedLost_keep {r₀ : State} {s : State} (ctx record : Nat) (keep_s : Keep r₀ s) :
    Keep r₀ (State.parkedLost s ctx record) := by
  unfold State.parkedLost
  repeat' first
    | with_reducible assumption
    | with_reducible exact Keep.refl _
    | with_reducible apply State.modCtx_keep
    | with_reducible apply State.freeTree_keep
    | intro _
    | split
    | extract_lets

theorem State.openPark_keep {r₀ : State} {s : State} (keep_s : Keep r₀ s) :
    Keep r₀ (State.openPark s) := by
  unfold State.openPark
  repeat' first
    | with_reducible assumption
    | with_reducible exact Keep.refl _
    | with_reducible apply State.reapPark_keep
    | with_reducible exact Nat.le_refl _
    | with_reducible exact id
    | exact fun h => Mgmt.wf_congr h rfl rfl rfl rfl rfl rfl
    | exact fun h => Tiers.wf_congr h rfl rfl
    | exact fun _ => rfl
    | intro _
    | split
    | extract_lets
    | (with_reducible apply Keep.upd)

theorem State.roomPark_keep {r₀ : State} {s : State} (keep_s : Keep r₀ s) :
    Keep r₀ (State.roomPark s) := by
  unfold State.roomPark
  repeat' first
    | with_reducible assumption
    | with_reducible exact Keep.refl _
    | with_reducible apply State.parkedLost_keep
    | with_reducible apply State.openPark_keep
    | with_reducible apply Keep.foldl
    | with_reducible exact Nat.le_refl _
    | with_reducible exact id
    | exact fun h => Mgmt.wf_congr h rfl rfl rfl rfl rfl rfl
    | exact fun h => Tiers.wf_congr h rfl rfl
    | exact fun _ => rfl
    | intro _
    | split
    | extract_lets
    | (with_reducible apply Keep.upd)

theorem State.putPark_keep {r₀ : State} {s : State} (e : ParkEntry) (keep_s : Keep r₀ s) :
    Keep r₀ (State.putPark s e) := by
  unfold State.putPark
  repeat' first
    | with_reducible assumption
    | with_reducible exact Keep.refl _
    | with_reducible apply State.roomPark_keep
    | with_reducible exact Nat.le_refl _
    | with_reducible exact id
    | exact fun h => Mgmt.wf_congr h rfl rfl rfl rfl rfl rfl
    | exact fun h => Tiers.wf_congr h rfl rfl
    | exact fun _ => rfl
    | intro _
    | split
    | extract_lets
    | (with_reducible apply Keep.upd)

theorem State.sealPark_keep {r₀ : State} {s : State} (keep_s : Keep r₀ s) :
    Keep r₀ (State.sealPark s) := by
  unfold State.sealPark
  repeat' first
    | with_reducible assumption
    | with_reducible exact Keep.refl _
    | with_reducible exact Nat.le_refl _
    | with_reducible exact id
    | exact fun h => Mgmt.wf_congr h rfl rfl rfl rfl rfl rfl
    | exact fun h => Tiers.wf_congr h rfl rfl
    | exact fun _ => rfl
    | intro _
    | split
    | extract_lets
    | (with_reducible apply Keep.upd)

theorem State.parkOne_keep {r₀ : State} {s : State} (ctx record count first i : Nat) (keep_s : Keep r₀ s) :
    Keep r₀ (State.parkOne s ctx record count first i) := by
  unfold State.parkOne
  repeat' first
    | with_reducible assumption
    | with_reducible exact Keep.refl _
    | with_reducible apply State.roomPark_keep
    | with_reducible apply State.putPark_keep
    | intro _
    | split
    | extract_lets

theorem execParkStart_keep {r₀ : State} (ctx record : Nat) {s : State} (keep_s : Keep r₀ s) :
    KeepOut r₀ (execParkStart ctx record s) := by
  unfold execParkStart
  repeat' first
    | with_reducible assumption
    | with_reducible exact Keep.refl _
    | with_reducible apply onlyIf_keep
    | with_reducible apply State.modRec_keep
    | with_reducible apply State.parkedLost_keep
    | with_reducible apply State.parkOne_keep
    | with_reducible apply Keep.foldl
    | with_reducible apply KeepOut.next
    | with_reducible apply KeepOut.onlyIf
    | with_reducible exact KeepOut.refused
    | intro _
    | split
    | extract_lets

theorem State.parkBlock_keep {r₀ : State} {s : State} (i entry : Nat) (keep_s : Keep r₀ s) :
    Keep r₀ (State.parkBlock s i entry) := by
  unfold State.parkBlock
  repeat' first
    | with_reducible assumption
    | with_reducible exact Keep.refl _
    | with_reducible apply State.bmChange_keep
    | with_reducible apply State.drainFrame_keep
    | with_reducible apply State.abandonMig_keep
    | with_reducible exact Nat.le_refl _
    | with_reducible exact id
    | exact fun h => Mgmt.wf_congr h rfl rfl rfl rfl rfl rfl
    | exact fun h => Tiers.wf_congr h rfl rfl
    | exact fun _ => rfl
    | intro _
    | split
    | extract_lets
    | (with_reducible apply Keep.upd)

theorem execParkComplete_keep {r₀ : State} (ctx record : Nat) {s : State} (keep_s : Keep r₀ s) :
    KeepOut r₀ (execParkComplete ctx record s) := by
  unfold execParkComplete
  repeat' first
    | with_reducible assumption
    | with_reducible exact Keep.refl _
    | with_reducible apply onlyIf_keep
    | with_reducible apply State.modRec_keep
    | with_reducible apply State.roomPark_keep
    | with_reducible apply State.putPark_keep
    | with_reducible apply State.sealPark_keep
    | with_reducible apply State.parkBlock_keep
    | with_reducible apply Keep.foldl
    | with_reducible apply KeepOut.next
    | with_reducible apply KeepOut.onlyIf
    | with_reducible exact KeepOut.refused
    | intro _
    | split
    | extract_lets

theorem execKvRecordExpire_keep {r₀ : State} (ctx record : Nat) {s : State} (keep_s : Keep r₀ s) :
    KeepOut r₀ (execKvRecordExpire ctx record s) := by
  unfold execKvRecordExpire
  repeat' first
    | with_reducible assumption
    | with_reducible exact Keep.refl _
    | with_reducible apply onlyIf_keep
    | with_reducible apply State.freeTree_keep
    | with_reducible apply KeepOut.next
    | with_reducible apply KeepOut.onlyIf
    | with_reducible exact KeepOut.refused
    | intro _
    | split
    | extract_lets

theorem execParkBringIn_keep {r₀ : State} (ctx record index : Nat) (err : ReadErr) {s : State} (keep_s : Keep r₀ s) :
    KeepOut r₀ (execParkBringIn ctx record index err s) := by
  unfold execParkBringIn
  repeat' first
    | with_reducible assumption
    | with_reducible exact Keep.refl _
    | with_reducible apply State.bmChange_keep
    | with_reducible apply State.allocFrame_keep
    | with_reducible apply State.setMig_keep
    | with_reducible apply State.flashRebuilt_keep
    | with_reducible apply State.flashLost_keep
    | with_reducible apply State.teardown_keep
    | with_reducible apply State.resumeBlock_keep
    | with_reducible apply State.killPark_keep
    | with_reducible apply State.parkedLost_keep
    | with_reducible apply KeepOut.next
    | with_reducible apply KeepOut.onlyIf
    | with_reducible exact KeepOut.refused
    | with_reducible exact KeepOptSnd.none
    | with_reducible apply KeepOptSnd.some
    | (refine KeepOptSnd.elim (by assumption) ?_)
    | (refine KeepOptSnd.again (by assumption) ?_)
    | with_reducible apply KeepOpt.mapSnd
    | with_reducible apply KeepOptSnd.mapSnd
    | with_reducible apply KeepOpt.map
    | with_reducible exact Nat.le_refl _
    | (intro hi; first
      | exact cellsWf_cellWrite _ _ _ hi
      | exact Tiers.wf_upd hi (fun h => cellsWf_cellWrite _ _ _ h) id
      | exact Tiers.wf_upd hi id (fun h => cellsWf_cellWrite _ _ _ h))
    | with_reducible exact id
    | exact fun h => Mgmt.wf_congr h rfl rfl rfl rfl rfl rfl
    | exact fun h => Tiers.wf_congr h rfl rfl
    | exact fun _ => rfl
    | intro _
    | split
    | dsimp only
    | (with_reducible apply Keep.upd)

theorem execPrefixLookup_keep {r₀ : State} (f q n : Nat) (errs : List MemErr) {s : State} (keep_s : Keep r₀ s) :
    KeepOut r₀ (execPrefixLookup f q n errs s) := by
  unfold execPrefixLookup
  repeat' first
    | with_reducible assumption
    | with_reducible exact Keep.refl _
    | with_reducible apply State.done_keep
    | with_reducible apply State.setWork_keep
    | with_reducible apply State.work_keep
    | with_reducible apply State.checked_keep
    | with_reducible apply State.withErrs_keep
    | with_reducible apply State.withRange_keep
    | with_reducible apply KeepOut.next
    | with_reducible apply KeepOut.onlyIf
    | with_reducible exact KeepOut.refused
    | intro _
    | split
    | extract_lets

theorem State.commitLookup_keep {r₀ : State} {s : State} (c : Cmd) (keep_s : Keep r₀ s) :
    KeepCom r₀ (State.commitLookup s c) := by
  unfold State.commitLookup
  repeat' first
    | with_reducible assumption
    | with_reducible exact Keep.refl _
    | with_reducible apply State.work_keep
    | with_reducible apply State.modSess_keep
    | with_reducible apply State.activate_keep
    | with_reducible apply State.refUp_keep
    | with_reducible exact KeepCom.fail
    | with_reducible exact KeepCom.prep
    | with_reducible apply KeepCom.okOf
    | with_reducible apply KeepCom.waitOf
    | (refine KeepCom.ofOk (by assumption) ?_)
    | (refine KeepCom.ofWait (by assumption) ?_)
    | intro _
    | split
    | dsimp only

theorem execKvPark_keep {r₀ : State} (f q n : Nat) {s : State} (keep_s : Keep r₀ s) :
    KeepOut r₀ (execKvPark f q n s) := by
  unfold execKvPark
  repeat' first
    | with_reducible assumption
    | with_reducible exact Keep.refl _
    | with_reducible apply State.done_keep
    | with_reducible apply State.work_keep
    | with_reducible apply State.checked_keep
    | with_reducible apply KeepOut.next
    | with_reducible apply KeepOut.onlyIf
    | with_reducible exact KeepOut.refused
    | intro _
    | split
    | extract_lets

theorem State.commitPark_keep {r₀ : State} {s : State} (c : Cmd) (keep_s : Keep r₀ s) :
    KeepCom r₀ (State.commitPark s c) := by
  unfold State.commitPark
  repeat' first
    | with_reducible assumption
    | with_reducible exact Keep.refl _
    | with_reducible apply State.modRec_keep
    | with_reducible apply Keep.foldl
    | with_reducible apply KeepOpt.foldl
    | with_reducible apply KeepExc.foldl
    | with_reducible apply KeepExcSnd.foldl
    | with_reducible exact KeepCom.fail
    | with_reducible exact KeepCom.prep
    | with_reducible apply KeepCom.okOf
    | with_reducible apply KeepCom.waitOf
    | (refine KeepCom.ofOk (by assumption) ?_)
    | (refine KeepCom.ofWait (by assumption) ?_)
    | intro _
    | split
    | extract_lets

theorem State.unparkChain_keep {r₀ : State} {s : State} (f q n k : Nat) (es : List Nat) (count : Nat) (keep_s : Keep r₀ s) :
    Keep r₀ (State.unparkChain s f q n k es count) := by
  unfold State.unparkChain
  repeat' first
    | with_reducible assumption
    | with_reducible exact Keep.refl _
    | with_reducible apply State.setWork_keep
    | with_reducible apply State.bringIn_keep
    | with_reducible apply State.awaitBlock_keep
    | with_reducible apply Keep.foldl
    | intro _
    | split
    | extract_lets

theorem execKvUnpark_keep {r₀ : State} (f q n : Nat) {s : State} (keep_s : Keep r₀ s) :
    KeepOut r₀ (execKvUnpark f q n s) := by
  unfold execKvUnpark
  repeat' first
    | with_reducible assumption
    | with_reducible exact Keep.refl _
    | with_reducible apply State.done_keep
    | with_reducible apply State.work_keep
    | with_reducible apply State.checked_keep
    | with_reducible apply State.unparkChain_keep
    | with_reducible apply KeepOut.next
    | with_reducible apply KeepOut.onlyIf
    | with_reducible exact KeepOut.refused
    | intro _
    | split
    | extract_lets

theorem State.commitUnpark_keep {r₀ : State} {s : State} (f q : Nat) (c : Cmd) (keep_s : Keep r₀ s) :
    KeepCom r₀ (State.commitUnpark s f q c) := by
  unfold State.commitUnpark
  repeat' first
    | with_reducible assumption
    | with_reducible exact Keep.refl _
    | with_reducible apply State.work_keep
    | with_reducible apply State.modRec_keep
    | with_reducible apply State.killPark_keep
    | with_reducible apply State.setDeadlines_keep
    | with_reducible apply State.raiseFree_keep
    | with_reducible apply State.unparkChain_keep
    | with_reducible apply Keep.foldl
    | with_reducible apply KeepOpt.foldl
    | with_reducible apply KeepExc.foldl
    | with_reducible apply KeepExcSnd.foldl
    | with_reducible exact KeepCom.fail
    | with_reducible exact KeepCom.prep
    | with_reducible apply KeepCom.okOf
    | with_reducible apply KeepCom.waitOf
    | (refine KeepCom.ofOk (by assumption) ?_)
    | (refine KeepCom.ofWait (by assumption) ?_)
    | intro _
    | split
    | extract_lets

theorem execKvRelease_keep {r₀ : State} (f q n : Nat) {s : State} (keep_s : Keep r₀ s) :
    KeepOut r₀ (execKvRelease f q n s) := by
  unfold execKvRelease
  repeat' first
    | with_reducible assumption
    | with_reducible exact Keep.refl _
    | with_reducible apply State.done_keep
    | with_reducible apply State.work_keep
    | with_reducible apply State.checked_keep
    | with_reducible apply KeepOut.next
    | with_reducible apply KeepOut.onlyIf
    | with_reducible exact KeepOut.refused
    | intro _
    | split
    | extract_lets

theorem State.commitRelease_keep {r₀ : State} {s : State} (c : Cmd) (keep_s : Keep r₀ s) :
    KeepCom r₀ (State.commitRelease s c) := by
  unfold State.commitRelease
  repeat' first
    | with_reducible assumption
    | with_reducible exact Keep.refl _
    | with_reducible apply State.unpublish_keep
    | with_reducible apply State.freeLeaf_keep
    | with_reducible apply Keep.foldl
    | with_reducible apply KeepExcSnd.foldl
    | with_reducible apply KeepOpt.foldl
    | with_reducible apply KeepExc.foldl
    | with_reducible exact KeepCom.fail
    | with_reducible apply KeepCom.okOf
    | with_reducible apply KeepCom.waitOf
    | with_reducible exact KeepExc.error
    | with_reducible apply KeepExc.ok
    | intro _
    | split
    | extract_lets

theorem execKvTtlSet_keep {r₀ : State} (f q n : Nat) {s : State} (keep_s : Keep r₀ s) :
    KeepOut r₀ (execKvTtlSet f q n s) := by
  unfold execKvTtlSet
  repeat' first
    | with_reducible assumption
    | with_reducible exact Keep.refl _
    | with_reducible apply State.done_keep
    | with_reducible apply State.work_keep
    | with_reducible apply State.checked_keep
    | with_reducible apply KeepOut.next
    | with_reducible apply KeepOut.onlyIf
    | with_reducible exact KeepOut.refused
    | intro _
    | split
    | extract_lets

theorem execKvConfigure_keep {r₀ : State} (f q n : Nat) {s : State} (keep_s : Keep r₀ s) :
    KeepOut r₀ (execKvConfigure f q n s) := by
  unfold execKvConfigure
  repeat' first
    | with_reducible assumption
    | with_reducible exact Keep.refl _
    | with_reducible apply State.done_keep
    | with_reducible apply State.setWork_keep
    | with_reducible apply State.work_keep
    | with_reducible apply State.checked_keep
    | with_reducible apply State.endCmd_keep
    | with_reducible apply State.mapFrames_keep
    | with_reducible apply KeepOut.next
    | with_reducible apply KeepOut.onlyIf
    | with_reducible exact KeepOut.refused
    | with_reducible apply KeepOpt.mapSnd
    | with_reducible apply KeepOptSnd.mapSnd
    | with_reducible apply KeepOpt.map
    | (refine KeepOpt.elim (by assumption) ?_)
    | intro _
    | split
    | extract_lets

theorem State.writeMaps_keep {r₀ : State} {s : State} (c : Cmd) (keep_s : Keep r₀ s) :
    KeepOpt r₀ (State.writeMaps s c) := by
  unfold State.writeMaps
  repeat' first
    | with_reducible assumption
    | with_reducible exact Keep.refl _
    | with_reducible apply State.bmChange_keep
    | with_reducible apply Keep.foldl
    | with_reducible apply KeepOpt.foldl
    | with_reducible apply KeepExc.foldl
    | with_reducible apply KeepExcSnd.foldl
    | with_reducible exact KeepOpt.none
    | with_reducible apply KeepOpt.some
    | (refine KeepOpt.elim (by assumption) ?_)
    | with_reducible apply KeepOpt.mapSnd
    | with_reducible apply KeepOptSnd.mapSnd
    | with_reducible apply KeepOpt.map
    | with_reducible apply KeepOpt.bind
    | with_reducible apply KeepOptSnd.bind
    | with_reducible apply KeepOpt.bindSnd
    | with_reducible apply KeepExc.bind
    | with_reducible apply KeepExc.bindSnd
    | with_reducible apply KeepExcSnd.bindSnd
    | intro _
    | split
    | extract_lets

theorem State.keepMaps_keep {r₀ : State} {s : State} (f q n : Nat) (keep_s : Keep r₀ s) :
    Keep r₀ (State.keepMaps s f q n) := by
  unfold State.keepMaps
  repeat' first
    | with_reducible assumption
    | with_reducible exact Keep.refl _
    | with_reducible apply State.modCmd_keep
    | with_reducible exact Nat.le_refl _
    | with_reducible exact id
    | exact fun h => Mgmt.wf_congr h rfl rfl rfl rfl rfl rfl
    | exact fun h => Tiers.wf_congr h rfl rfl
    | exact fun _ => rfl
    | intro _
    | split
    | extract_lets
    | (with_reducible apply Keep.upd)

theorem State.commitTtl_keep {r₀ : State} {s : State} (f q : Nat) (c : Cmd) (keep_s : Keep r₀ s) :
    KeepCom r₀ (State.commitTtl s f q c) := by
  unfold State.commitTtl
  repeat' first
    | with_reducible assumption
    | with_reducible exact Keep.refl _
    | with_reducible apply State.work_keep
    | with_reducible apply State.modCtx_keep
    | with_reducible apply State.unmapEntry_keep
    | with_reducible apply State.writeMaps_keep
    | with_reducible apply State.keepMaps_keep
    | with_reducible apply Keep.foldl
    | with_reducible apply KeepExcSnd.foldl
    | with_reducible apply KeepOpt.foldl
    | with_reducible apply KeepExc.foldl
    | with_reducible exact KeepCom.fail
    | with_reducible apply KeepCom.okOf
    | with_reducible apply KeepCom.waitOf
    | with_reducible exact KeepExc.error
    | with_reducible apply KeepExc.ok
    | with_reducible apply KeepOpt.mapSnd
    | with_reducible apply KeepOptSnd.mapSnd
    | with_reducible apply KeepOpt.map
    | (refine KeepOpt.elim (by assumption) ?_)
    | with_reducible exact Nat.le_refl _
    | (intro hi; first
      | exact cellsWf_foldl _ _ _ (fun m x h => cellsWf_cellWrite _ _ _ h) hi
      | exact cellsWf_foldl _ _ _ (fun m x h => cellsWf_cellClear _ _ _ h) hi
      | exact Tiers.wf_upd hi (fun h => cellsWf_foldl _ _ _ (fun m x h => cellsWf_cellWrite _ _ _ h) h) id)
    | with_reducible exact id
    | exact fun h => Mgmt.wf_congr h rfl rfl rfl rfl rfl rfl
    | exact fun h => Tiers.wf_congr h rfl rfl
    | exact fun _ => rfl
    | intro _
    | split
    | extract_lets
    | (with_reducible apply Keep.upd)

end Sys2Proof.Machine
end

