-- ==== Sys2Proof/Laws/KeepSessions.lean ====
section
/-! SUPPORT. What the operations and meanings of Machine/Sessions.lean keep (`Keep`, Laws/Keep.lean). -/
set_option linter.all false

namespace Sys2Proof.Machine

theorem execShapeWrite_keep {r₀ : State} (f q n : Nat) (errs : List MemErr) {s : State} (keep_s : Keep r₀ s) :
    KeepOut r₀ (execShapeWrite f q n errs s) := by
  unfold execShapeWrite
  repeat' first
    | with_reducible assumption
    | with_reducible exact Keep.refl _
    | with_reducible apply State.done_keep
    | with_reducible apply State.work_keep
    | with_reducible apply State.checked_keep
    | with_reducible apply State.withErrs_keep
    | with_reducible apply State.withRange_keep
    | with_reducible apply State.withWrite_keep
    | with_reducible apply State.putBytes_keep
    | with_reducible apply KeepOut.next
    | with_reducible apply KeepOut.onlyIf
    | with_reducible exact KeepOut.refused
    | intro _
    | split
    | extract_lets

theorem execSessionOpen_keep {r₀ : State} (f q n : Nat) {s : State} (keep_s : Keep r₀ s) :
    KeepOut r₀ (execSessionOpen f q n s) := by
  unfold execSessionOpen
  repeat' first
    | with_reducible assumption
    | with_reducible exact Keep.refl _
    | with_reducible apply State.done_keep
    | with_reducible apply State.work_keep
    | with_reducible apply State.checked_keep
    | with_reducible apply KeepOut.next
    | with_reducible apply KeepOut.onlyIf
    | with_reducible exact KeepOut.refused
    | intro _
    | split
    | extract_lets

theorem State.commitOpen_keep {r₀ : State} {s : State} (f : Nat) (c : Cmd) (keep_s : Keep r₀ s) :
    KeepCom r₀ (State.commitOpen s f c) := by
  unfold State.commitOpen
  repeat' first
    | with_reducible assumption
    | with_reducible exact Keep.refl _
    | with_reducible apply State.modSess_keep
    | with_reducible apply State.activate_keep
    | with_reducible apply State.refUp_keep
    | with_reducible exact KeepCom.fail
    | with_reducible apply KeepCom.okOf
    | with_reducible apply KeepCom.waitOf
    | with_reducible exact KeepExc.error
    | with_reducible apply KeepExc.ok
    | with_reducible exact Nat.le_refl _
    | with_reducible exact id
    | exact fun h => Mgmt.wf_congr h rfl rfl rfl rfl rfl rfl
    | exact fun h => Tiers.wf_congr h rfl rfl
    | exact fun _ => rfl
    | intro _
    | split
    | extract_lets
    | (with_reducible apply Keep.upd)

theorem execSessionClose_keep {r₀ : State} (f q n : Nat) {s : State} (keep_s : Keep r₀ s) :
    KeepOut r₀ (execSessionClose f q n s) := by
  unfold execSessionClose
  repeat' first
    | with_reducible assumption
    | with_reducible exact Keep.refl _
    | with_reducible apply State.done_keep
    | with_reducible apply State.work_keep
    | with_reducible apply State.checked_keep
    | with_reducible apply KeepOut.next
    | with_reducible apply KeepOut.onlyIf
    | with_reducible exact KeepOut.refused
    | intro _
    | split
    | extract_lets

theorem State.freeSession_keep {r₀ : State} {s : State} (k : Nat) (keep_s : Keep r₀ s) :
    Keep r₀ (State.freeSession s k) := by
  unfold State.freeSession
  repeat' first
    | with_reducible assumption
    | with_reducible exact Keep.refl _
    | with_reducible apply State.modSess_keep
    | with_reducible apply State.deactivate_keep
    | with_reducible apply State.refDown_keep
    | intro _
    | split
    | extract_lets

theorem State.commitClose_keep {r₀ : State} {s : State} (c : Cmd) (keep_s : Keep r₀ s) :
    KeepCom r₀ (State.commitClose s c) := by
  unfold State.commitClose
  repeat' first
    | with_reducible assumption
    | with_reducible exact Keep.refl _
    | with_reducible apply State.freeSession_keep
    | with_reducible exact KeepCom.fail
    | with_reducible apply KeepCom.okOf
    | with_reducible apply KeepCom.waitOf
    | with_reducible exact KeepExc.error
    | with_reducible apply KeepExc.ok
    | intro _
    | split
    | extract_lets

theorem execSessionPause_keep {r₀ : State} (f q n : Nat) {s : State} (keep_s : Keep r₀ s) :
    KeepOut r₀ (execSessionPause f q n s) := by
  unfold execSessionPause
  repeat' first
    | with_reducible assumption
    | with_reducible exact Keep.refl _
    | with_reducible apply State.done_keep
    | with_reducible apply State.work_keep
    | with_reducible apply State.checked_keep
    | with_reducible apply KeepOut.next
    | with_reducible apply KeepOut.onlyIf
    | with_reducible exact KeepOut.refused
    | intro _
    | split
    | extract_lets

theorem State.commitPause_keep {r₀ : State} {s : State} (c : Cmd) (keep_s : Keep r₀ s) :
    KeepCom r₀ (State.commitPause s c) := by
  unfold State.commitPause
  repeat' first
    | with_reducible assumption
    | with_reducible exact Keep.refl _
    | with_reducible apply State.modSess_keep
    | with_reducible apply State.deactivate_keep
    | with_reducible exact KeepCom.fail
    | with_reducible exact KeepCom.prep
    | with_reducible apply KeepCom.okOf
    | with_reducible apply KeepCom.waitOf
    | (refine KeepCom.ofOk (by assumption) ?_)
    | (refine KeepCom.ofWait (by assumption) ?_)
    | intro _
    | split
    | extract_lets

theorem execSessionResume_keep {r₀ : State} (f q n : Nat) {s : State} (keep_s : Keep r₀ s) :
    KeepOut r₀ (execSessionResume f q n s) := by
  unfold execSessionResume
  repeat' first
    | with_reducible assumption
    | with_reducible exact Keep.refl _
    | with_reducible apply State.done_keep
    | with_reducible apply State.work_keep
    | with_reducible apply State.checked_keep
    | with_reducible apply KeepOut.next
    | with_reducible apply KeepOut.onlyIf
    | with_reducible exact KeepOut.refused
    | intro _
    | split
    | extract_lets

theorem State.commitResume_keep {r₀ : State} {s : State} (c : Cmd) (keep_s : Keep r₀ s) :
    KeepCom r₀ (State.commitResume s c) := by
  unfold State.commitResume
  repeat' first
    | with_reducible assumption
    | with_reducible exact Keep.refl _
    | with_reducible apply State.modSess_keep
    | with_reducible apply State.activate_keep
    | with_reducible exact KeepCom.fail
    | with_reducible exact KeepCom.prep
    | with_reducible apply KeepCom.okOf
    | with_reducible apply KeepCom.waitOf
    | (refine KeepCom.ofOk (by assumption) ?_)
    | (refine KeepCom.ofWait (by assumption) ?_)
    | intro _
    | split
    | extract_lets

theorem State.dropSlot_keep {r₀ : State} {s : State} (f q n : Nat) (g : KvGeom) (slot : Nat) (keep_s : Keep r₀ s) :
    Keep r₀ (State.dropSlot s f q n g slot) := by
  unfold State.dropSlot
  repeat' first
    | with_reducible assumption
    | with_reducible exact Keep.refl _
    | with_reducible apply State.modCmd_keep
    | with_reducible apply State.dropFrame_keep
    | with_reducible apply Keep.foldl
    | intro _
    | split
    | extract_lets

theorem State.dropTails_keep {r₀ : State} {s : State} (f q : Nat) (c : Cmd) (es : List StepEntry) (keep_s : Keep r₀ s) :
    Keep r₀ (State.dropTails s f q c es) := by
  unfold State.dropTails
  repeat' first
    | with_reducible assumption
    | with_reducible exact Keep.refl _
    | with_reducible apply State.dropSlot_keep
    | with_reducible apply Keep.foldl
    | intro _
    | split
    | extract_lets

theorem State.giveUp_keep {r₀ : State} {s : State} (f q : Nat) (c : Cmd) (st : StepRun) (k : Nat) (keep_s : Keep r₀ s) :
    Keep r₀ (State.giveUp s f q c st k) := by
  unfold State.giveUp
  repeat' first
    | with_reducible assumption
    | with_reducible exact Keep.refl _
    | with_reducible apply State.modCmd_keep
    | with_reducible apply State.freeCand_keep
    | with_reducible apply State.dropTails_keep
    | with_reducible apply Keep.foldl
    | intro _
    | split
    | extract_lets

theorem State.dropEntry_keep {r₀ : State} {s : State} (f q : Nat) (c : Cmd) (k : Nat) (keep_s : Keep r₀ s) :
    Keep r₀ (State.dropEntry s f q c k) := by
  unfold State.dropEntry
  repeat' first
    | with_reducible assumption
    | with_reducible exact Keep.refl _
    | with_reducible apply State.modCmd_keep
    | with_reducible apply State.work_keep
    | with_reducible apply State.jobCtrl_keep
    | with_reducible apply State.giveUp_keep
    | with_reducible apply Keep.foldl
    | intro _
    | split
    | extract_lets

theorem execSessionCancel_keep {r₀ : State} (f q n : Nat) {s : State} (keep_s : Keep r₀ s) :
    KeepOut r₀ (execSessionCancel f q n s) := by
  unfold execSessionCancel
  repeat' first
    | with_reducible assumption
    | with_reducible exact Keep.refl _
    | with_reducible apply State.setWork_keep
    | with_reducible apply State.work_keep
    | with_reducible apply State.checked_keep
    | with_reducible apply State.modSess_keep
    | with_reducible apply State.endCmd_keep
    | with_reducible apply State.dropEntry_keep
    | with_reducible apply Keep.foldl
    | with_reducible apply KeepOut.next
    | with_reducible apply KeepOut.onlyIf
    | with_reducible exact KeepOut.refused
    | intro _
    | split
    | extract_lets

theorem execCancelRetire_keep {r₀ : State} (f q n : Nat) {s : State} (keep_s : Keep r₀ s) :
    KeepOut r₀ (execCancelRetire f q n s) := by
  unfold execCancelRetire
  repeat' first
    | with_reducible assumption
    | with_reducible exact Keep.refl _
    | with_reducible apply onlyIf_keep
    | with_reducible apply State.done_keep
    | with_reducible apply State.work_keep
    | with_reducible apply KeepOut.next
    | with_reducible apply KeepOut.onlyIf
    | with_reducible exact KeepOut.refused
    | intro _
    | split
    | extract_lets

theorem State.commitCancel_keep {r₀ : State} {s : State} (c : Cmd) (keep_s : Keep r₀ s) :
    KeepCom r₀ (State.commitCancel s c) := by
  unfold State.commitCancel
  repeat' first
    | with_reducible assumption
    | with_reducible exact Keep.refl _
    | with_reducible apply State.freeSession_keep
    | with_reducible exact KeepCom.fail
    | with_reducible apply KeepCom.okOf
    | with_reducible apply KeepCom.waitOf
    | with_reducible exact KeepExc.error
    | with_reducible apply KeepExc.ok
    | intro _
    | split
    | extract_lets

end Sys2Proof.Machine
end

