-- ==== Sys2Proof/Laws/KeepSteps.lean ====
section
/-! SUPPORT. What the operations and meanings of Machine/Steps.lean keep (`Keep`, Laws/Keep.lean). -/
set_option linter.all false

namespace Sys2Proof.Machine

theorem State.takeCands_keep {r₀ : State} {s : State} (ctx : Nat) (g : KvGeom) (es : List StepEntry) (keep_s : Keep r₀ s) :
    KeepExcSnd r₀ (State.takeCands s ctx g es) := by
  unfold State.takeCands
  refine KeepExcSnd.foldl (KeepExcSnd.ok keep_s) (fun a e ha => ?_)
  refine KeepExcSnd.bindSnd ha (fun l t ht => ?_)
  dsimp only
  split
  · exact KeepExcSnd.mapSnd (State.newRec_keep _ _ _ _ ht) (fun _ _ hu => hu)
  · exact KeepExcSnd.ok ht

theorem State.issueGen_keep {r₀ : State} {s : State} (ctx : Nat) (keep_s : Keep r₀ s) :
    Keep r₀ (State.issueGen s ctx) := by
  unfold State.issueGen
  repeat' first
    | with_reducible assumption
    | with_reducible exact Keep.refl _
    | with_reducible apply State.modJob_keep
    | with_reducible apply State.jobCtrl_keep
    | with_reducible apply Keep.foldl
    | with_reducible apply KeepExcSnd.foldl
    | with_reducible apply KeepOpt.foldl
    | with_reducible apply KeepExc.foldl
    | with_reducible exact Nat.le_refl _
    | (intro hi; first
      | exact cellsWf_foldl _ _ _ (fun m x h => cellsWf_cellWrite _ _ _ h) hi
      | exact cellsWf_foldl _ _ _ (fun m x h => cellsWf_cellClear _ _ _ h) hi)
    | with_reducible exact id
    | exact fun h => Mgmt.wf_congr h rfl rfl rfl rfl rfl rfl
    | exact fun h => Tiers.wf_congr h rfl rfl
    | exact fun _ => rfl
    | intro _
    | split
    | extract_lets
    | (with_reducible apply Keep.upd)

theorem State.beginStep_keep {r₀ : State} {s : State} (f q : Nat) (c : Cmd) (l : Layout) (g : KvGeom) (m tpl batch : List Word)
    (keep_s : Keep r₀ s) : Keep r₀ (State.beginStep s f q c l g m tpl batch) := by
  unfold State.beginStep
  extract_lets ws lnum es rows job routed verifies
  split
  · exact State.endCmd_keep _ _ _ _ keep_s
  · split
    · exact keep_s
    · split
      · exact State.endCmd_keep _ _ _ _ keep_s
      · rename_i es1 s1 e
        have h1 : Keep r₀ s1 := KeepExcSnd.elim e (State.takeCands_keep _ _ _ keep_s)
        clear e
        extract_lets st xs dl
        split
        rename_i bs ovs e2
        clear e2
        split
        · exact keep_s
        · extract_lets s2 s3 s4
          have h2 : Keep r₀ s2 := Keep.foldl h1 (fun u b h => State.loadSlot_keep _ _ h)
          clear_value s2
          have h3 : Keep r₀ s3 := State.setWork_keep _ _ _ _ (State.modCmd_keep _ _ _ _ h2)
          clear_value s3
          split
          · have h4 : Keep r₀ s4 := Keep.ite (State.issueGen_keep _ h3) h3
            clear_value s4
            exact Keep.upd h4 (Nat.le_refl _) id id id id id
          · exact h3

theorem State.startStep_keep {r₀ : State} {s : State} (f q : Nat) (c : Cmd) (keep_s : Keep r₀ s) :
    Keep r₀ (State.startStep s f q c) := by
  unfold State.startStep
  repeat' first
    | with_reducible assumption
    | with_reducible exact Keep.refl _
    | with_reducible apply State.endCmd_keep
    | with_reducible apply State.withRange_keep
    | with_reducible apply State.beginStep_keep
    | with_reducible apply Keep.foldr
    | intro _
    | split
    | extract_lets

theorem State.kvFor_keep {r₀ : State} {s : State} (g : KvGeom) (e : StepEntry) (j row : Nat) (isV : Bool) (keep_s : Keep r₀ s) :
    Keep r₀ (State.kvFor s g e j row isV).2 := by
  unfold State.kvFor
  repeat' first
    | with_reducible assumption
    | with_reducible exact Keep.refl _
    | with_reducible apply State.freeNext_keep
    | with_reducible exact Nat.le_refl _
    | with_reducible exact id
    | exact fun h => Mgmt.wf_congr h rfl rfl rfl rfl rfl rfl
    | exact fun h => Tiers.wf_congr h rfl rfl
    | exact fun _ => rfl
    | intro _
    | split
    | extract_lets
    | with_reducible apply Keep.sndMk
    | (with_reducible apply Keep.upd)

theorem State.putPosition_keep {r₀ : State} {s : State} (ctx : Nat) (g : KvGeom) (e : StepEntry) (slot row pos : Nat) (keep_s : Keep r₀ s) :
    Keep r₀ (State.putPosition s ctx g e slot row pos) := by
  unfold State.putPosition
  repeat' first
    | with_reducible assumption
    | with_reducible exact Keep.refl _
    | with_reducible apply State.pokePage_keep
    | with_reducible apply State.kvFor_keep
    | with_reducible apply Keep.foldl
    | with_reducible apply KeepExcSnd.foldl
    | with_reducible apply KeepOpt.foldl
    | with_reducible apply KeepExc.foldl
    | (refine Keep.ofSnd (by assumption) ?_)
    | with_reducible exact Nat.le_refl _
    | (intro hi; first
      | exact cellsWf_foldl _ _ _ (fun m x h => cellsWf_cellWrite _ _ _ h) hi
      | exact cellsWf_foldl _ _ _ (fun m x h => cellsWf_cellClear _ _ _ h) hi)
    | with_reducible exact id
    | exact fun h => Mgmt.wf_congr h rfl rfl rfl rfl rfl rfl
    | exact fun h => Tiers.wf_congr h rfl rfl
    | exact fun _ => rfl
    | intro _
    | split
    | extract_lets
    | (with_reducible apply Keep.upd)

theorem State.openTail_keep {r₀ : State} {s old : State} (f q n ctx : Nat) (g : KvGeom) (k : Nat) (keep_s : Keep r₀ s) (keep_old : Keep r₀ old) :
    KeepExcSnd r₀ (State.openTail s old f q n ctx g k) := by
  unfold State.openTail
  repeat' first
    | with_reducible assumption
    | with_reducible exact Keep.refl _
    | with_reducible apply State.modSess_keep
    | with_reducible apply State.withShadow_keep
    | with_reducible apply State.activate_keep
    | with_reducible apply State.deactivate_keep
    | with_reducible apply State.refDown_keep
    | with_reducible apply State.refUp_keep
    | with_reducible apply State.newRec_keep
    | with_reducible apply State.copySlot_keep
    | with_reducible apply State.dropSlot_keep
    | with_reducible apply Keep.foldl
    | with_reducible apply KeepOpt.foldl
    | with_reducible apply KeepExc.foldl
    | with_reducible apply KeepExcSnd.foldl
    | with_reducible exact KeepOpt.none
    | with_reducible apply KeepOpt.some
    | (refine KeepOpt.elim (by assumption) ?_)
    | with_reducible exact KeepOptSnd.none
    | with_reducible apply KeepOptSnd.some
    | (refine KeepOptSnd.elim (by assumption) ?_)
    | (refine KeepOptSnd.again (by assumption) ?_)
    | with_reducible exact KeepExc.error
    | with_reducible apply KeepExc.ok
    | (refine KeepExc.elim (by assumption) ?_)
    | with_reducible exact KeepExcSnd.error
    | with_reducible apply KeepExcSnd.ok
    | (refine KeepExcSnd.elim (by assumption) ?_)
    | with_reducible apply KeepOpt.mapSnd
    | with_reducible apply KeepOptSnd.mapSnd
    | with_reducible apply KeepOpt.map
    | with_reducible apply KeepExc.mapSnd
    | with_reducible apply KeepExcSnd.mapSnd
    | with_reducible apply KeepExcSnd.map
    | with_reducible apply KeepExc.map
    | with_reducible apply KeepOpt.bind
    | with_reducible apply KeepOptSnd.bind
    | with_reducible apply KeepOpt.bindSnd
    | with_reducible apply KeepExc.bind
    | with_reducible apply KeepExc.bindSnd
    | with_reducible apply KeepExcSnd.bindSnd
    | intro _
    | split
    | extract_lets

theorem State.appendOne_keep {r₀ : State} {s old : State} (f q n ctx : Nat) (g : KvGeom) (e : StepEntry) (row : Nat) (keep_s : Keep r₀ s)
    (keep_old : Keep r₀ old) : KeepExc r₀ (State.appendOne s old f q n ctx g e row) := by
  unfold State.appendOne
  refine KeepExc.mapSnd (State.openTail_keep _ _ _ _ _ _ keep_s keep_old) (fun k t ht => ?_)
  dsimp -zeta only
  extract_lets r t1 t2 t3
  have h1 : Keep r₀ t1 := Keep.ite (State.putPosition_keep _ _ _ _ _ _ ht) ht
  clear_value t1
  have h2 : Keep r₀ t2 := State.modRec_keep _ _ _ h1
  clear_value t2
  have h3 : Keep r₀ t3 := State.modSess_keep _ _ h2
  clear_value t3
  exact Keep.ite (State.publishRec_keep _ _ _ h3) h3

theorem State.commitEntry_keep {r₀ : State} {s old : State} (f q n ctx : Nat) (g : KvGeom) (e : StepEntry) (keep_s : Keep r₀ s) (keep_old : Keep r₀ old) :
    KeepExc r₀ (State.commitEntry s old f q n ctx g e) := by
  unfold State.commitEntry
  repeat' first
    | with_reducible assumption
    | with_reducible exact Keep.refl _
    | with_reducible apply State.modSess_keep
    | with_reducible apply State.freeCand_keep
    | with_reducible apply State.appendOne_keep
    | with_reducible apply Keep.foldl
    | with_reducible apply KeepOpt.foldl
    | with_reducible apply KeepExc.foldl
    | with_reducible apply KeepExcSnd.foldl
    | with_reducible exact KeepExc.error
    | with_reducible apply KeepExc.ok
    | (refine KeepExc.elim (by assumption) ?_)
    | with_reducible exact KeepExcSnd.error
    | with_reducible apply KeepExcSnd.ok
    | (refine KeepExcSnd.elim (by assumption) ?_)
    | with_reducible apply KeepExc.mapSnd
    | with_reducible apply KeepExcSnd.mapSnd
    | with_reducible apply KeepExcSnd.map
    | with_reducible apply KeepExc.map
    | with_reducible apply KeepOpt.bind
    | with_reducible apply KeepOptSnd.bind
    | with_reducible apply KeepOpt.bindSnd
    | with_reducible apply KeepExc.bind
    | with_reducible apply KeepExc.bindSnd
    | with_reducible apply KeepExcSnd.bindSnd
    | intro _
    | split
    | extract_lets

theorem State.commitBytes_keep {r₀ : State} {s : State} (f q : Nat) (c : Cmd) (addr : Nat) (bs : List Byte) (keep_s : Keep r₀ s) :
    KeepExc r₀ (State.commitBytes s f q c addr bs) := by
  unfold State.commitBytes
  repeat' first
    | with_reducible assumption
    | with_reducible exact Keep.refl _
    | with_reducible apply State.writeCtx_keep
    | with_reducible exact KeepExc.error
    | with_reducible apply KeepExc.ok
    | (refine KeepOpt.elim (by assumption) ?_)
    | intro _
    | split
    | extract_lets

theorem State.commitRouter_keep {r₀ : State} {s : State} (f q : Nat) (c : Cmd) (st : StepRun) (keep_s : Keep r₀ s) :
    KeepExc r₀ (State.commitRouter s f q c st) := by
  unfold State.commitRouter
  repeat' first
    | with_reducible assumption
    | with_reducible exact Keep.refl _
    | with_reducible apply State.modCtx_keep
    | with_reducible apply State.modJob_keep
    | with_reducible apply State.flushHeld_keep
    | with_reducible apply State.commitBytes_keep
    | with_reducible apply Keep.foldl
    | with_reducible apply KeepOpt.foldl
    | with_reducible apply KeepExc.foldl
    | with_reducible apply KeepExcSnd.foldl
    | with_reducible exact KeepExc.error
    | with_reducible apply KeepExc.ok
    | (refine KeepExc.elim (by assumption) ?_)
    | with_reducible exact KeepExcSnd.error
    | with_reducible apply KeepExcSnd.ok
    | (refine KeepExcSnd.elim (by assumption) ?_)
    | with_reducible apply KeepExc.mapSnd
    | with_reducible apply KeepExcSnd.mapSnd
    | with_reducible apply KeepExcSnd.map
    | with_reducible apply KeepExc.map
    | with_reducible exact Nat.le_refl _
    | with_reducible exact id
    | exact fun h => Mgmt.wf_congr h rfl rfl rfl rfl rfl rfl
    | exact fun h => Tiers.wf_congr h rfl rfl
    | exact fun _ => rfl
    | intro _
    | split
    | extract_lets
    | (with_reducible apply Keep.upd)

theorem State.commitStep_keep {r₀ : State} {s : State} (f q : Nat) (c : Cmd) (keep_s : Keep r₀ s) :
    KeepCom r₀ (State.commitStep s f q c) := by
  unfold State.commitStep
  repeat' first
    | with_reducible assumption
    | with_reducible exact Keep.refl _
    | with_reducible apply State.modCmd_keep
    | with_reducible apply State.work_keep
    | with_reducible apply State.dropTails_keep
    | with_reducible apply State.commitEntry_keep
    | with_reducible apply State.commitBytes_keep
    | with_reducible apply State.commitRouter_keep
    | with_reducible apply Keep.foldl
    | with_reducible apply KeepOpt.foldl
    | with_reducible apply KeepExc.foldl
    | with_reducible apply KeepExcSnd.foldl
    | with_reducible exact KeepExc.error
    | with_reducible apply KeepExc.ok
    | (refine KeepExc.elim (by assumption) ?_)
    | with_reducible exact KeepExcSnd.error
    | with_reducible apply KeepExcSnd.ok
    | (refine KeepExcSnd.elim (by assumption) ?_)
    | with_reducible exact KeepCom.fail
    | with_reducible exact KeepCom.prep
    | with_reducible apply KeepCom.okOf
    | with_reducible apply KeepCom.waitOf
    | (refine KeepCom.ofOk (by assumption) ?_)
    | (refine KeepCom.ofWait (by assumption) ?_)
    | with_reducible apply KeepOpt.getD
    | with_reducible apply KeepOpt.findSome
    | with_reducible apply KeepExc.mapSnd
    | with_reducible apply KeepExcSnd.mapSnd
    | with_reducible apply KeepExcSnd.map
    | with_reducible apply KeepExc.map
    | with_reducible apply KeepOpt.bind
    | with_reducible apply KeepOptSnd.bind
    | with_reducible apply KeepOpt.bindSnd
    | with_reducible apply KeepExc.bind
    | with_reducible apply KeepExc.bindSnd
    | with_reducible apply KeepExcSnd.bindSnd
    | intro _
    | split
    | extract_lets

theorem State.setStep_keep {r₀ : State} {s : State} (f q n : Nat) (st : StepRun) (keep_s : Keep r₀ s) :
    Keep r₀ (State.setStep s f q n st) := by
  unfold State.setStep
  repeat' first
    | with_reducible assumption
    | with_reducible exact Keep.refl _
    | with_reducible apply State.modCmd_keep
    | with_reducible apply State.work_keep
    | with_reducible exact Nat.le_refl _
    | with_reducible exact id
    | exact fun h => Mgmt.wf_congr h rfl rfl rfl rfl rfl rfl
    | exact fun h => Tiers.wf_congr h rfl rfl
    | exact fun _ => rfl
    | intro _
    | split
    | extract_lets
    | (with_reducible apply Keep.upd)

theorem State.prepStep_keep {r₀ : State} {s : State} (f q : Nat) (c : Cmd) (st : StepRun) {k : State} (keep_s : Keep r₀ s) (keep_k : Keep r₀ k) :
    Keep r₀ (State.prepStep s f q c st k) := by
  unfold State.prepStep
  repeat' first
    | with_reducible assumption
    | with_reducible exact Keep.refl _
    | with_reducible apply State.awaitBlock_keep
    | with_reducible apply State.endCmd_keep
    | with_reducible apply State.commitStep_keep
    | with_reducible exact KeepCom.fail
    | with_reducible exact KeepCom.prep
    | with_reducible apply KeepCom.okOf
    | with_reducible apply KeepCom.waitOf
    | (refine KeepCom.ofOk (by assumption) ?_)
    | (refine KeepCom.ofWait (by assumption) ?_)
    | intro _
    | split
    | extract_lets

theorem State.sendFar_keep {r₀ : State} {s : State} (f q : Nat) (c : Cmd) (st : StepRun) (j : Job) (keep_s : Keep r₀ s) :
    Keep r₀ (State.sendFar s f q c st j) := by
  unfold State.sendFar
  repeat' first
    | with_reducible assumption
    | with_reducible exact Keep.refl _
    | with_reducible apply State.jobCtrl_keep
    | with_reducible apply State.kvFor_keep
    | with_reducible apply State.setStep_keep
    | with_reducible apply Keep.foldl
    | (refine Keep.ofSnd (by assumption) ?_)
    | intro _
    | split
    | extract_lets

theorem State.sendCommit_keep {r₀ : State} {s : State} (f q : Nat) (c : Cmd) (j : Job) (keep_s : Keep r₀ s) :
    Keep r₀ (State.sendCommit s f q c j) := by
  unfold State.sendCommit
  repeat' first
    | with_reducible assumption
    | with_reducible exact Keep.refl _
    | with_reducible apply State.jobCtrl_keep
    | with_reducible apply State.setStep_keep
    | with_reducible apply Keep.foldl
    | with_reducible apply KeepOpt.foldl
    | with_reducible apply KeepExc.foldl
    | with_reducible apply KeepExcSnd.foldl
    | intro _
    | split
    | extract_lets

theorem State.verifyStep_keep {r₀ : State} {s : State} (f q : Nat) (c : Cmd) (st : StepRun) (j : Job) (keep_s : Keep r₀ s) :
    Keep r₀ (State.verifyStep s f q c st j) := by
  unfold State.verifyStep
  repeat' first
    | with_reducible assumption
    | with_reducible exact Keep.refl _
    | with_reducible apply State.jobCtrl_keep
    | with_reducible apply State.setStep_keep
    | with_reducible apply State.prepStep_keep
    | with_reducible apply State.sendFar_keep
    | with_reducible apply State.sendCommit_keep
    | with_reducible apply Keep.foldl
    | intro _
    | split
    | extract_lets

theorem State.replyReady_keep {r₀ : State} {s : State} (f q : Nat) (c : Cmd) (st : StepRun) (j : Job) (keep_s : Keep r₀ s) :
    Keep r₀ (State.replyReady s f q c st j) := by
  unfold State.replyReady
  repeat' first
    | with_reducible assumption
    | with_reducible exact Keep.refl _
    | with_reducible apply State.jobCtrl_keep
    | with_reducible apply State.setStep_keep
    | with_reducible apply State.prepStep_keep
    | with_reducible apply State.sendFar_keep
    | intro _
    | split
    | extract_lets

theorem State.takeStepMsg_keep {r₀ : State} {s : State} (ctx : Nat) (j : Job) (m : Nat × Nat × List Word) (keep_s : Keep r₀ s) :
    KeepOpt r₀ (State.takeStepMsg s ctx j m) := by
  unfold State.takeStepMsg
  repeat' first
    | with_reducible assumption
    | with_reducible exact Keep.refl _
    | with_reducible apply State.modJob_keep
    | with_reducible apply State.setStep_keep
    | with_reducible apply State.sendCommit_keep
    | with_reducible exact KeepOpt.none
    | with_reducible apply KeepOpt.some
    | (refine KeepOpt.elim (by assumption) ?_)
    | with_reducible apply KeepOpt.mapSnd
    | with_reducible apply KeepOptSnd.mapSnd
    | with_reducible apply KeepOpt.map
    | with_reducible exact Nat.le_refl _
    | with_reducible exact id
    | exact fun h => Mgmt.wf_congr h rfl rfl rfl rfl rfl rfl
    | exact fun h => Tiers.wf_congr h rfl rfl
    | exact fun _ => rfl
    | intro _
    | split
    | extract_lets
    | (with_reducible apply Keep.upd)

theorem State.pollSteps_keep {r₀ : State} (ctx n : Nat) {s : State} (h : Keep r₀ s) : Keep r₀ (State.pollSteps ctx n s) := by
  induction n generalizing s with
  | zero => exact h
  | succ n ih =>
    unfold State.pollSteps
    split
    · exact h
    · split
      · rename_i e
        exact ih (KeepOpt.elim e (KeepOpt.findSome (fun _ => State.takeStepMsg_keep _ _ _ h)))
      · exact h

theorem State.joinGen_keep {r₀ : State} {s : State} (f q : Nat) (c : Cmd) (st : StepRun) (keep_s : Keep r₀ s) :
    Keep r₀ (State.joinGen s f q c st).1 := by
  unfold State.joinGen
  repeat' first
    | with_reducible assumption
    | with_reducible exact Keep.refl _
    | with_reducible apply State.setStep_keep
    | intro _
    | split
    | extract_lets
    | with_reducible apply Keep.fstMk

theorem State.continueStep_keep {r₀ : State} {s : State} (f q : Nat) (c : Cmd) (st0 : StepRun) (keep_s : Keep r₀ s) :
    Keep r₀ (State.continueStep s f q c st0) := by
  have verify : ∀ (u : State) (st : StepRun) (j : Job), Keep r₀ u → Keep r₀ (u.verifyStep f q c st j) :=
    fun u st j h => State.verifyStep_keep _ _ _ _ _ h
  unfold State.continueStep
  split
  rename_i s0 st e
  have h0 : Keep r₀ s0 := Keep.ofFst e (State.joinGen_keep _ _ _ _ keep_s)
  clear e
  split
  · exact h0
  · split
    · exact State.done_keep _ _ _ _ _ (State.setStep_keep _ _ _ _ h0)
    · split
      · exact h0
      · rename_i j _
        extract_lets s1 s2
        have h1 : Keep r₀ s1 := by
          dsimp only [s1]
          repeat' first
            | with_reducible assumption
            | with_reducible apply State.sendCommit_keep
            | with_reducible apply State.replyReady_keep
            | with_reducible apply verify
            | split
        clear_value s1
        have h2 : Keep r₀ s2 := State.pollSteps_keep _ _ h1
        clear_value s2
        split
        · split
          · exact State.done_keep _ _ _ _ _ h2
          · exact h2
        · exact h2

theorem execStepCmd_keep {r₀ : State} (f q n : Nat) (errs : List MemErr) {s : State} (keep_s : Keep r₀ s) :
    KeepOut r₀ (execStepCmd f q n errs s) := by
  unfold execStepCmd
  repeat' first
    | with_reducible assumption
    | with_reducible exact Keep.refl _
    | with_reducible apply State.work_keep
    | with_reducible apply State.checked_keep
    | with_reducible apply State.withErrs_keep
    | with_reducible apply State.startStep_keep
    | with_reducible apply State.continueStep_keep
    | with_reducible apply KeepOut.next
    | with_reducible apply KeepOut.onlyIf
    | with_reducible exact KeepOut.refused
    | intro _
    | split
    | extract_lets

end Sys2Proof.Machine
end

