-- ==== Sys2Proof/Laws/KeepRouter.lean ====
section
/-! SUPPORT. What the operations and meanings of Machine/Router.lean keep (`Keep`, Laws/Keep.lean). -/
set_option linter.all false

namespace Sys2Proof.Machine

theorem State.redealLayout_keep {r₀ : State} {s : State} (ctx lnum : Nat) (keep_s : Keep r₀ s) :
    Keep r₀ (State.redealLayout s ctx lnum) := by
  unfold State.redealLayout
  repeat' first
    | with_reducible assumption
    | with_reducible exact Keep.refl _
    | with_reducible apply State.setLayout_keep
    | with_reducible apply State.modCores_keep
    | with_reducible apply State.takeDeal_keep
    | with_reducible exact Nat.le_refl _
    | with_reducible exact id
    | exact fun h => Mgmt.wf_congr h rfl rfl rfl rfl rfl rfl
    | exact fun h => Tiers.wf_congr h rfl rfl
    | exact fun _ => rfl
    | intro _
    | split
    | extract_lets
    | (with_reducible apply Keep.upd)

theorem State.preemptLayout_keep {r₀ : State} {s : State} (ctx lnum f q n : Nat) (for' : Option (Nat × Nat × Nat)) (keep_s : Keep r₀ s) :
    Keep r₀ (State.preemptLayout s ctx lnum f q n for') := by
  unfold State.preemptLayout
  repeat' first
    | with_reducible assumption
    | with_reducible exact Keep.refl _
    | with_reducible apply State.preemptCmd_keep
    | with_reducible apply State.redealLayout_keep
    | with_reducible apply Keep.foldl
    | intro _
    | split
    | extract_lets

theorem State.killRouted_keep {r₀ : State} {s : State} (ctx gen : Nat) (keep_s : Keep r₀ s) :
    Keep r₀ (State.killRouted s ctx gen) := by
  unfold State.killRouted
  repeat' first
    | with_reducible assumption
    | with_reducible exact Keep.refl _
    | with_reducible apply State.preemptLayout_keep
    | intro _
    | split
    | extract_lets

theorem State.killSpan_keep {r₀ : State} {s : State} (ctx : Nat) (keep_s : Keep r₀ s) :
    Keep r₀ (State.killSpan s ctx) := by
  unfold State.killSpan
  repeat' first
    | with_reducible assumption
    | with_reducible exact Keep.refl _
    | with_reducible apply State.setStep_keep
    | with_reducible apply State.preemptLayout_keep
    | intro _
    | split
    | extract_lets

theorem State.modRouter_keep {r₀ : State} {s : State} (ctx i : Nat) (g : RouterLayer → RouterLayer) (keep_s : Keep r₀ s) :
    Keep r₀ (State.modRouter s ctx i g) := by
  unfold State.modRouter
  repeat' first
    | with_reducible assumption
    | with_reducible exact Keep.refl _
    | with_reducible exact Nat.le_refl _
    | with_reducible exact id
    | exact fun h => Mgmt.wf_congr h rfl rfl rfl rfl rfl rfl
    | exact fun h => Tiers.wf_congr h rfl rfl
    | exact fun _ => rfl
    | intro _
    | split
    | extract_lets
    | (with_reducible apply Keep.upd)

theorem State.selectLayer_keep {r₀ : State} {s : State} (ctx i f q : Nat) (c : Cmd) (st : StepRun) (y : RoutedLayer) (keep_s : Keep r₀ s) :
    Keep r₀ (State.selectLayer s ctx i f q c st y) := by
  unfold State.selectLayer
  repeat' first
    | with_reducible assumption
    | with_reducible exact Keep.refl _
    | with_reducible apply State.done_keep
    | with_reducible apply State.setStep_keep
    | with_reducible apply State.modRouter_keep
    | with_reducible apply Keep.foldl
    | with_reducible apply KeepExcSnd.foldl
    | with_reducible apply KeepOpt.foldl
    | with_reducible apply KeepExc.foldl
    | with_reducible apply KeepOpt.getD
    | with_reducible exact Nat.le_refl _
    | (intro hi; first
      | exact cellsWf_foldl _ _ _ (fun m x h => cellsWf_cellWrite _ _ _ h) hi
      | exact cellsWf_foldl _ _ _ (fun m x h => cellsWf_cellClear _ _ _ h) hi)
    | with_reducible exact id
    | exact fun h => Mgmt.wf_congr h rfl rfl rfl rfl rfl rfl
    | exact fun h => Tiers.wf_congr h rfl rfl
    | exact fun _ => rfl
    | intro _
    | split
    | extract_lets
    | (with_reducible apply Keep.upd)

theorem State.sendRows_keep {r₀ : State} {s : State} (ctx : Nat) (j : Job) (chip kind layer x fmt cols gen : Nat) (rows : List (List Nat)) (keep_s : Keep r₀ s) :
    Keep r₀ (State.sendRows s ctx j chip kind layer x fmt cols gen rows) := by
  unfold State.sendRows
  repeat' first
    | with_reducible assumption
    | with_reducible exact Keep.refl _
    | with_reducible apply State.toChip_keep
    | with_reducible apply Keep.foldl
    | with_reducible apply KeepExcSnd.foldl
    | with_reducible apply KeepOpt.foldl
    | with_reducible apply KeepExc.foldl
    | intro _
    | split
    | extract_lets

theorem State.sendDispatches_keep {r₀ : State} {s : State} (ctx : Nat) (j : Job) (i : Nat) (y : RoutedLayer) (st : StepRun) (keep_s : Keep r₀ s) :
    Keep r₀ (State.sendDispatches s ctx j i y st) := by
  unfold State.sendDispatches
  repeat' first
    | with_reducible assumption
    | with_reducible exact Keep.refl _
    | with_reducible apply State.toChip_keep
    | with_reducible apply State.modRouter_keep
    | with_reducible apply State.sendRows_keep
    | with_reducible apply Keep.foldl
    | with_reducible apply KeepExcSnd.foldl
    | with_reducible apply KeepOpt.foldl
    | with_reducible apply KeepExc.foldl
    | with_reducible apply KeepOpt.getD
    | with_reducible exact Nat.le_refl _
    | (intro hi; first
      | exact cellsWf_foldl _ _ _ (fun m x h => cellsWf_cellWrite _ _ _ h) hi
      | exact cellsWf_foldl _ _ _ (fun m x h => cellsWf_cellClear _ _ _ h) hi)
    | with_reducible exact id
    | exact fun h => Mgmt.wf_congr h rfl rfl rfl rfl rfl rfl
    | exact fun h => Tiers.wf_congr h rfl rfl
    | exact fun _ => rfl
    | intro _
    | split
    | extract_lets
    | (with_reducible apply Keep.upd)

theorem State.sendReturns_keep {r₀ : State} {s : State} (ctx : Nat) (j : Job) (i : Nat) (y : RoutedLayer) (st : StepRun) (keep_s : Keep r₀ s) :
    Keep r₀ (State.sendReturns s ctx j i y st) := by
  unfold State.sendReturns
  repeat' first
    | with_reducible assumption
    | with_reducible exact Keep.refl _
    | with_reducible apply State.toChip_keep
    | with_reducible apply State.modRouter_keep
    | with_reducible apply State.sendRows_keep
    | with_reducible apply Keep.foldl
    | with_reducible apply KeepExcSnd.foldl
    | with_reducible apply KeepOpt.foldl
    | with_reducible apply KeepExc.foldl
    | with_reducible exact Nat.le_refl _
    | (intro hi; first
      | exact cellsWf_foldl _ _ _ (fun m x h => cellsWf_cellWrite _ _ _ h) hi
      | exact cellsWf_foldl _ _ _ (fun m x h => cellsWf_cellClear _ _ _ h) hi)
    | with_reducible exact id
    | exact fun h => Mgmt.wf_congr h rfl rfl rfl rfl rfl rfl
    | exact fun h => Tiers.wf_congr h rfl rfl
    | exact fun _ => rfl
    | intro _
    | split
    | extract_lets
    | (with_reducible apply Keep.upd)

theorem State.routeOverflow_keep {r₀ : State} {s : State} (ctx : Nat) (p : ExpertPlan) (i : Nat) (keep_s : Keep r₀ s) :
    Keep r₀ (State.routeOverflow s ctx p i) := by
  unfold State.routeOverflow
  repeat' first
    | with_reducible assumption
    | with_reducible exact Keep.refl _
    | with_reducible apply State.freeNext_keep
    | with_reducible apply State.overflow_keep
    | intro _
    | split
    | extract_lets

theorem State.takeRouted_keep {r₀ : State} {s : State} (ctx : Nat) (j : Job) (p : ExpertPlan) (i : Nat) (y : RoutedLayer) (st : StepRun) (f : Frame) (keep_s : Keep r₀ s) :
    Keep r₀ (State.takeRouted s ctx j p i y st f) := by
  unfold State.takeRouted
  repeat' first
    | with_reducible assumption
    | with_reducible exact Keep.refl _
    | with_reducible apply State.modRouter_keep
    | with_reducible apply State.routeOverflow_keep
    | with_reducible exact Nat.le_refl _
    | with_reducible exact id
    | exact fun h => Mgmt.wf_congr h rfl rfl rfl rfl rfl rfl
    | exact fun h => Tiers.wf_congr h rfl rfl
    | exact fun _ => rfl
    | intro _
    | split
    | extract_lets
    | (with_reducible apply Keep.upd)

theorem State.tryRouted_keep {r₀ : State} {s : State} (ctx : Nat) (j : Job) (p : ExpertPlan) (st : StepRun) (h : Nat × Frame) (keep_s : Keep r₀ s) :
    KeepOpt r₀ (State.tryRouted s ctx j p st h) := by
  unfold State.tryRouted
  repeat' first
    | with_reducible assumption
    | with_reducible exact Keep.refl _
    | with_reducible apply State.done_keep
    | with_reducible apply State.oweCredits_keep
    | with_reducible apply State.modJob_keep
    | with_reducible apply State.routeOverflow_keep
    | with_reducible apply State.takeRouted_keep
    | with_reducible exact KeepOpt.none
    | with_reducible apply KeepOpt.some
    | (refine KeepOpt.elim (by assumption) ?_)
    | intro _
    | split
    | extract_lets

theorem State.drainHeld_keep {r₀ : State} (ctx : Nat) (st : StepRun) (n : Nat) {s : State} (h : Keep r₀ s) :
    Keep r₀ (State.drainHeld ctx st n s) := by
  induction n generalizing s with
  | zero => exact h
  | succ n ih =>
    unfold State.drainHeld
    split
    · split
      · split
        · rename_i e
          exact ih (KeepOpt.elim e (KeepOpt.findSome (fun _ => State.tryRouted_keep _ _ _ _ _ h)))
        · exact h
      · exact h
    · exact h

theorem State.pumpRouter_keep {r₀ : State} {s0 : State} (ctx : Nat) (keep_s0 : Keep r₀ s0) :
    Keep r₀ (State.pumpRouter s0 ctx) := by
  unfold State.pumpRouter
  repeat' first
    | with_reducible assumption
    | with_reducible exact Keep.refl _
    | with_reducible apply State.done_keep
    | with_reducible apply State.joinGen_keep
    | with_reducible apply State.sendDispatches_keep
    | with_reducible apply State.sendReturns_keep
    | with_reducible apply State.drainHeld_keep
    | with_reducible apply Keep.foldl
    | with_reducible apply KeepExcSnd.foldl
    | with_reducible apply KeepOpt.foldl
    | with_reducible apply KeepExc.foldl
    | (refine Keep.ofFst (by assumption) ?_)
    | intro _
    | split
    | extract_lets

theorem State.routerTake_keep {r₀ : State} {s : State} (v : Slot) (t : Tile) (keep_s : Keep r₀ s) :
    Keep r₀ (State.routerTake s v t) := by
  unfold State.routerTake
  repeat' first
    | with_reducible assumption
    | with_reducible exact Keep.refl _
    | with_reducible apply State.modRouter_keep
    | with_reducible apply State.pumpRouter_keep
    | with_reducible exact Nat.le_refl _
    | with_reducible exact id
    | exact fun h => Mgmt.wf_congr h rfl rfl rfl rfl rfl rfl
    | exact fun h => Tiers.wf_congr h rfl rfl
    | exact fun _ => rfl
    | intro _
    | split
    | extract_lets
    | (with_reducible apply Keep.upd)

theorem execExpertSelect_keep {r₀ : State} (ctx layer : Nat) {s : State} (keep_s : Keep r₀ s) :
    KeepOut r₀ (execExpertSelect ctx layer s) := by
  unfold execExpertSelect
  repeat' first
    | with_reducible assumption
    | with_reducible exact Keep.refl _
    | with_reducible apply onlyIf_keep
    | with_reducible apply State.done_keep
    | with_reducible apply State.selectLayer_keep
    | with_reducible apply State.pumpRouter_keep
    | with_reducible apply KeepOut.next
    | with_reducible apply KeepOut.onlyIf
    | with_reducible exact KeepOut.refused
    | intro _
    | split
    | extract_lets

theorem execCombineRow_keep {r₀ : State} (ctx layer row : Nat) {s : State} (keep_s : Keep r₀ s) :
    KeepOut r₀ (execCombineRow ctx layer row s) := by
  unfold execCombineRow
  repeat' first
    | with_reducible assumption
    | with_reducible exact Keep.refl _
    | with_reducible apply onlyIf_keep
    | with_reducible apply State.done_keep
    | with_reducible apply State.modRouter_keep
    | with_reducible apply KeepOut.next
    | with_reducible apply KeepOut.onlyIf
    | with_reducible exact KeepOut.refused
    | intro _
    | split
    | extract_lets

theorem execRouterWaitTimeout_keep {r₀ : State} (ctx : Nat) {s : State} (keep_s : Keep r₀ s) :
    KeepOut r₀ (execRouterWaitTimeout ctx s) := by
  unfold execRouterWaitTimeout
  repeat' first
    | with_reducible assumption
    | with_reducible exact Keep.refl _
    | with_reducible apply onlyIf_keep
    | with_reducible apply State.teardown_keep
    | with_reducible apply KeepOut.next
    | with_reducible apply KeepOut.onlyIf
    | with_reducible exact KeepOut.refused
    | intro _
    | split
    | extract_lets

theorem State.routedArrive_keep {r₀ : State} {s : State} (f : Frame) (keep_s : Keep r₀ s) :
    Keep r₀ (State.routedArrive s f) := by
  unfold State.routedArrive
  repeat' first
    | with_reducible assumption
    | with_reducible exact Keep.refl _
    | with_reducible apply State.oweCredits_keep
    | with_reducible apply State.modJob_keep
    | with_reducible apply State.dropRouted_keep
    | with_reducible apply State.pumpRouter_keep
    | with_reducible exact Nat.le_refl _
    | with_reducible exact id
    | exact fun h => Mgmt.wf_congr h rfl rfl rfl rfl rfl rfl
    | exact fun h => Tiers.wf_congr h rfl rfl
    | exact fun _ => rfl
    | intro _
    | split
    | extract_lets
    | (with_reducible apply Keep.upd)

theorem State.retireArrive_keep {r₀ : State} {s : State} (f : Frame) (keep_s : Keep r₀ s) :
    Keep r₀ (State.retireArrive s f) := by
  unfold State.retireArrive
  repeat' first
    | with_reducible assumption
    | with_reducible exact Keep.refl _
    | with_reducible apply State.oweCredits_keep
    | with_reducible apply State.modJob_keep
    | with_reducible apply State.retireCheck_keep
    | with_reducible apply State.retireStart_keep
    | with_reducible apply State.settle_keep
    | with_reducible apply State.killRouted_keep
    | with_reducible apply State.routeOverflow_keep
    | intro _
    | split
    | extract_lets

theorem State.onRouted_keep {r₀ : State} {s : State} (port : Nat) (f : Frame) (ok : Bool) (kind : Nat) (g : State → State) (keep_s : Keep r₀ s) (keep_g : ∀ (x0 : State), Keep r₀ x0 → Keep r₀ (g x0)) :
    KeepOut r₀ (State.onRouted s port f ok kind g) := by
  unfold State.onRouted
  repeat' first
    | with_reducible assumption
    | with_reducible exact Keep.refl _
    | with_reducible apply keep_g
    | with_reducible apply State.onFrame_keep
    | with_reducible apply KeepOut.next
    | with_reducible apply KeepOut.onlyIf
    | with_reducible exact KeepOut.refused
    | intro _
    | split
    | extract_lets

theorem execDispatch_keep {r₀ : State} (port : Nat) (frame : Frame) (ok : Bool) {s : State} (keep_s : Keep r₀ s) :
    KeepOut r₀ (execDispatch port frame ok s) := by
  unfold execDispatch
  repeat' first
    | with_reducible assumption
    | with_reducible exact Keep.refl _
    | with_reducible apply State.routedArrive_keep
    | with_reducible apply State.onRouted_keep
    | with_reducible apply KeepOut.next
    | with_reducible apply KeepOut.onlyIf
    | with_reducible exact KeepOut.refused
    | intro _
    | split
    | extract_lets

theorem execDispatchEnd_keep {r₀ : State} (port : Nat) (frame : Frame) (ok : Bool) {s : State} (keep_s : Keep r₀ s) :
    KeepOut r₀ (execDispatchEnd port frame ok s) := by
  unfold execDispatchEnd
  repeat' first
    | with_reducible assumption
    | with_reducible exact Keep.refl _
    | with_reducible apply State.routedArrive_keep
    | with_reducible apply State.onRouted_keep
    | with_reducible apply KeepOut.next
    | with_reducible apply KeepOut.onlyIf
    | with_reducible exact KeepOut.refused
    | intro _
    | split
    | extract_lets

theorem execReturnTile_keep {r₀ : State} (port : Nat) (frame : Frame) (ok : Bool) {s : State} (keep_s : Keep r₀ s) :
    KeepOut r₀ (execReturnTile port frame ok s) := by
  unfold execReturnTile
  repeat' first
    | with_reducible assumption
    | with_reducible exact Keep.refl _
    | with_reducible apply State.routedArrive_keep
    | with_reducible apply State.onRouted_keep
    | with_reducible apply KeepOut.next
    | with_reducible apply KeepOut.onlyIf
    | with_reducible exact KeepOut.refused
    | intro _
    | split
    | extract_lets

theorem execReturnEnd_keep {r₀ : State} (port : Nat) (frame : Frame) (ok : Bool) {s : State} (keep_s : Keep r₀ s) :
    KeepOut r₀ (execReturnEnd port frame ok s) := by
  unfold execReturnEnd
  repeat' first
    | with_reducible assumption
    | with_reducible exact Keep.refl _
    | with_reducible apply State.routedArrive_keep
    | with_reducible apply State.onRouted_keep
    | with_reducible apply KeepOut.next
    | with_reducible apply KeepOut.onlyIf
    | with_reducible exact KeepOut.refused
    | intro _
    | split
    | extract_lets

theorem execRetire_keep {r₀ : State} (port : Nat) (frame : Frame) (ok : Bool) {s : State} (keep_s : Keep r₀ s) :
    KeepOut r₀ (execRetire port frame ok s) := by
  unfold execRetire
  repeat' first
    | with_reducible assumption
    | with_reducible exact Keep.refl _
    | with_reducible apply State.retireArrive_keep
    | with_reducible apply State.onRouted_keep
    | with_reducible apply KeepOut.next
    | with_reducible apply KeepOut.onlyIf
    | with_reducible exact KeepOut.refused
    | intro _
    | split
    | extract_lets

theorem State.onJobCtrl_keep {r₀ : State} {s : State} (port : Nat) (f : Frame) (ok : Bool) (sub : Nat) (g : State → Nat → Nat → State) (keep_s : Keep r₀ s) (keep_g : ∀ (x0 : State) (x1 : Nat) (x2 : Nat), Keep r₀ x0 → Keep r₀ (g x0 x1 x2)) :
    KeepOut r₀ (State.onJobCtrl s port f ok sub g) := by
  unfold State.onJobCtrl
  repeat' first
    | with_reducible assumption
    | with_reducible exact Keep.refl _
    | with_reducible apply keep_g
    | with_reducible apply State.toChip_keep
    | with_reducible apply State.onFrame_keep
    | with_reducible apply State.oweCredits_keep
    | with_reducible apply KeepOut.next
    | with_reducible apply KeepOut.onlyIf
    | with_reducible exact KeepOut.refused
    | intro _
    | split
    | extract_lets

theorem execGenerationAnnounce_keep {r₀ : State} (port : Nat) (frame : Frame) (ok : Bool) {s : State} (keep_s : Keep r₀ s) :
    KeepOut r₀ (execGenerationAnnounce port frame ok s) := by
  unfold execGenerationAnnounce
  repeat' first
    | with_reducible assumption
    | with_reducible exact Keep.refl _
    | with_reducible apply State.modJob_keep
    | with_reducible apply State.flushHeld_keep
    | with_reducible apply State.retireStart_keep
    | with_reducible apply State.killRouted_keep
    | with_reducible apply State.pumpRouter_keep
    | with_reducible apply State.onJobCtrl_keep
    | with_reducible apply KeepOut.next
    | with_reducible apply KeepOut.onlyIf
    | with_reducible exact KeepOut.refused
    | intro _
    | split
    | dsimp only

theorem execGenerationRetiredReport_keep {r₀ : State} (port : Nat) (frame : Frame) (ok : Bool) {s : State} (keep_s : Keep r₀ s) :
    KeepOut r₀ (execGenerationRetiredReport port frame ok s) := by
  unfold execGenerationRetiredReport
  repeat' first
    | with_reducible assumption
    | with_reducible exact Keep.refl _
    | with_reducible apply State.modJob_keep
    | with_reducible apply State.settle_keep
    | with_reducible apply State.killSpan_keep
    | with_reducible apply State.onJobCtrl_keep
    | with_reducible apply KeepOut.next
    | with_reducible apply KeepOut.onlyIf
    | with_reducible exact KeepOut.refused
    | intro _
    | split
    | extract_lets

theorem State.stepMsg_keep {r₀ : State} {s : State} (ctx sub rank : Nat) (ws : List Word) (keep_s : Keep r₀ s) :
    Keep r₀ (State.stepMsg s ctx sub rank ws) := by
  unfold State.stepMsg
  repeat' first
    | with_reducible assumption
    | with_reducible exact Keep.refl _
    | with_reducible apply State.modJob_keep
    | with_reducible apply State.pollSteps_keep
    | with_reducible exact Nat.le_refl _
    | with_reducible exact id
    | exact fun h => Mgmt.wf_congr h rfl rfl rfl rfl rfl rfl
    | exact fun h => Tiers.wf_congr h rfl rfl
    | exact fun _ => rfl
    | intro _
    | split
    | extract_lets
    | (with_reducible apply Keep.upd)

theorem execStepOutcomes_keep {r₀ : State} (port : Nat) (frame : Frame) (ok : Bool) {s : State} (keep_s : Keep r₀ s) :
    KeepOut r₀ (execStepOutcomes port frame ok s) := by
  unfold execStepOutcomes
  repeat' first
    | with_reducible assumption
    | with_reducible exact Keep.refl _
    | with_reducible apply State.onJobCtrl_keep
    | with_reducible apply State.stepMsg_keep
    | with_reducible apply KeepOut.next
    | with_reducible apply KeepOut.onlyIf
    | with_reducible exact KeepOut.refused
    | intro _
    | split
    | extract_lets

theorem execStepReady_keep {r₀ : State} (port : Nat) (frame : Frame) (ok : Bool) {s : State} (keep_s : Keep r₀ s) :
    KeepOut r₀ (execStepReady port frame ok s) := by
  unfold execStepReady
  repeat' first
    | with_reducible assumption
    | with_reducible exact Keep.refl _
    | with_reducible apply State.onJobCtrl_keep
    | with_reducible apply State.stepMsg_keep
    | with_reducible apply KeepOut.next
    | with_reducible apply KeepOut.onlyIf
    | with_reducible exact KeepOut.refused
    | intro _
    | split
    | extract_lets

theorem execStepCommitMessage_keep {r₀ : State} (port : Nat) (frame : Frame) (ok : Bool) {s : State} (keep_s : Keep r₀ s) :
    KeepOut r₀ (execStepCommitMessage port frame ok s) := by
  unfold execStepCommitMessage
  repeat' first
    | with_reducible assumption
    | with_reducible exact Keep.refl _
    | with_reducible apply State.onJobCtrl_keep
    | with_reducible apply State.stepMsg_keep
    | with_reducible apply KeepOut.next
    | with_reducible apply KeepOut.onlyIf
    | with_reducible exact KeepOut.refused
    | intro _
    | split
    | extract_lets

theorem State.dropMember_keep {r₀ : State} {s : State} (ctx k : Nat) (keep_s : Keep r₀ s) :
    Keep r₀ (State.dropMember s ctx k) := by
  unfold State.dropMember
  repeat' first
    | with_reducible assumption
    | with_reducible exact Keep.refl _
    | with_reducible apply State.work_keep
    | with_reducible apply State.giveUp_keep
    | with_reducible apply Keep.foldl
    | intro _
    | split
    | extract_lets

theorem execEntryDropped_keep {r₀ : State} (port : Nat) (frame : Frame) (ok : Bool) {s : State} (keep_s : Keep r₀ s) :
    KeepOut r₀ (execEntryDropped port frame ok s) := by
  unfold execEntryDropped
  repeat' first
    | with_reducible assumption
    | with_reducible exact Keep.refl _
    | with_reducible apply State.mapCmds_keep
    | with_reducible apply State.work_keep
    | with_reducible apply State.jobCtrl_keep
    | with_reducible apply State.onJobCtrl_keep
    | with_reducible apply State.dropMember_keep
    | with_reducible apply KeepOut.next
    | with_reducible apply KeepOut.onlyIf
    | with_reducible exact KeepOut.refused
    | intro _
    | split
    | extract_lets

end Sys2Proof.Machine
end

