-- ==== Sys2Proof/Laws/KeepWeights.lean ====
section
/-! SUPPORT. What the operations and meanings of Machine/Weights.lean keep (`Keep`, Laws/Keep.lean). -/
set_option linter.all false

namespace Sys2Proof.Machine

theorem State.setObj_keep {r₀ : State} {s : State} (key : Nat) (o : Option Obj) (keep_s : Keep r₀ s) :
    Keep r₀ (State.setObj s key o) := by
  unfold State.setObj
  repeat' first
    | with_reducible assumption
    | with_reducible exact Keep.refl _
    | with_reducible exact Nat.le_refl _
    | with_reducible exact id
    | exact fun h => Mgmt.wf_congr h rfl rfl rfl rfl rfl rfl
    | exact fun h => Tiers.wf_congr h rfl rfl
    | exact fun _ => rfl
    | intro _
    | split
    | extract_lets
    | (with_reducible apply Keep.upd)

/-- Marking an object sealed, where it is there. -/
theorem keep_seal {r₀ s : State} (k : Nat) (h : Keep r₀ s) : Keep r₀ (match s.objOf k with
    | some o => s.setObj k (some { o with isSealed := true })
    | none => s) := by
  split
  · exact State.setObj_keep _ _ h
  · exact h

theorem execWeightWrite_keep {r₀ : State} (f q n : Nat) (image : List Byte) {s : State} (keep_s : Keep r₀ s) :
    KeepOut r₀ (execWeightWrite f q n image s) := by
  unfold execWeightWrite
  refine State.work_keep _ _ _ _ _ keep_s (fun c => ?_)
  extract_lets ws len shared key stripes free full slots o s1 src
  clear_value len shared key free full
  split
  · exact State.done_keep _ _ _ _ _ (State.modCmd_keep _ _ _ _ (keep_seal _ keep_s))
  · refine State.checked_keep _ _ _ _ _ keep_s ?_
    split
    · exact keep_s
    · split
      · exact State.endCmd_keep _ _ _ _ keep_s
      · split
        · exact keep_s
        · have h1 : Keep r₀ s1 := State.setObj_keep _ _ keep_s
          exact State.setWork_keep _ _ _ _ (Keep.upd h1 (Nat.le_refl _) id id id id id)

theorem State.commitObject_keep {r₀ : State} {s : State} (c : Cmd) (keep_s : Keep r₀ s) :
    KeepCom r₀ (State.commitObject s c) := by
  unfold State.commitObject
  repeat' first
    | with_reducible assumption
    | with_reducible exact Keep.refl _
    | with_reducible apply State.work_keep
    | with_reducible apply State.checkpoint_keep
    | with_reducible apply State.setObj_keep
    | with_reducible exact KeepCom.fail
    | with_reducible apply KeepCom.okOf
    | with_reducible apply KeepCom.waitOf
    | with_reducible exact KeepExc.error
    | with_reducible apply KeepExc.ok
    | with_reducible exact Nat.le_refl _
    | with_reducible exact id
    | exact fun h => Mgmt.wf_congr h rfl rfl rfl rfl rfl rfl
    | exact fun h => Tiers.wf_congr h rfl rfl
    | exact fun _ => rfl
    | intro _
    | split
    | extract_lets
    | (with_reducible apply Keep.upd)

theorem execWeightDelete_keep {r₀ : State} (f q n : Nat) {s : State} (keep_s : Keep r₀ s) :
    KeepOut r₀ (execWeightDelete f q n s) := by
  unfold execWeightDelete
  repeat' first
    | with_reducible assumption
    | with_reducible exact Keep.refl _
    | with_reducible apply State.done_keep
    | with_reducible apply State.work_keep
    | with_reducible apply State.checked_keep
    | with_reducible apply KeepOut.next
    | with_reducible apply KeepOut.onlyIf
    | with_reducible exact KeepOut.refused
    | with_reducible apply KeepOpt.getD
    | intro _
    | split
    | extract_lets

theorem State.commitDelete_keep {r₀ : State} {s : State} (f : Nat) (c : Cmd) (keep_s : Keep r₀ s) :
    KeepCom r₀ (State.commitDelete s f c) := by
  unfold State.commitDelete
  repeat' first
    | with_reducible assumption
    | with_reducible exact Keep.refl _
    | with_reducible apply State.checkpoint_keep
    | with_reducible apply Keep.foldl
    | with_reducible apply KeepExcSnd.foldl
    | with_reducible apply KeepOpt.foldl
    | with_reducible apply KeepExc.foldl
    | with_reducible exact KeepCom.fail
    | with_reducible apply KeepCom.okOf
    | with_reducible apply KeepCom.waitOf
    | with_reducible exact KeepExc.error
    | with_reducible apply KeepExc.ok
    | with_reducible exact Nat.le_refl _
    | (intro hi; first
      | exact cellsWf_foldl _ _ _ (fun m x h => cellsWf_cellWrite _ _ _ h) hi
      | exact cellsWf_foldl _ _ _ (fun m x h => cellsWf_cellClear _ _ _ h) hi)
    | with_reducible exact id
    | exact fun h => Mgmt.wf_congr h rfl rfl rfl rfl rfl rfl
    | exact fun h => Tiers.wf_congr h rfl rfl
    | exact fun _ => rfl
    | intro _
    | split
    | extract_lets
    | (with_reducible apply Keep.upd)

theorem execStripeErase_keep {r₀ : State} (slot : Nat) (park : Bool) {s : State} (keep_s : Keep r₀ s) :
    KeepOut r₀ (execStripeErase slot park s) := by
  unfold execStripeErase
  repeat' first
    | with_reducible assumption
    | with_reducible exact Keep.refl _
    | with_reducible apply onlyIf_keep
    | with_reducible apply KeepOut.next
    | with_reducible apply KeepOut.onlyIf
    | with_reducible exact KeepOut.refused
    | with_reducible exact Nat.le_refl _
    | with_reducible exact id
    | exact fun h => Mgmt.wf_congr h rfl rfl rfl rfl rfl rfl
    | exact fun h => Tiers.wf_congr h rfl rfl
    | exact fun _ => rfl
    | intro _
    | split
    | extract_lets
    | (with_reducible apply Keep.upd)

theorem State.withPieces_keep {r₀ : State} {s : State} (f q n ctx dest : Nat) (ps : List Piece) {k : State} (keep_s : Keep r₀ s) (keep_k : Keep r₀ k) :
    Keep r₀ (State.withPieces s f q n ctx dest ps k) := by
  unfold State.withPieces
  repeat' first
    | with_reducible assumption
    | with_reducible exact Keep.refl _
    | with_reducible apply State.withRange_keep
    | with_reducible apply Keep.foldr
    | intro _
    | split
    | extract_lets

theorem State.withFlash_keep {r₀ : State} {s : State} (f q : Nat) (c : Cmd) (err : ReadErr) (chan : Nat) (k : State → State) (keep_s : Keep r₀ s) (keep_k : ∀ (x0 : State), Keep r₀ x0 → Keep r₀ (k x0)) :
    Keep r₀ (State.withFlash s f q c err chan k) := by
  unfold State.withFlash
  repeat' first
    | with_reducible assumption
    | with_reducible exact Keep.refl _
    | with_reducible apply keep_k
    | with_reducible apply State.flashRebuilt_keep
    | with_reducible apply State.flashLost_keep
    | with_reducible apply State.endCmd_keep
    | with_reducible apply State.teardown_keep
    | intro _
    | split
    | extract_lets

theorem State.writePieces_keep {r₀ : State} {s : State} (f q n ctx dest : Nat) (ps : List (Piece × List Byte)) (keep_s : Keep r₀ s) :
    KeepOpt r₀ (State.writePieces s f q n ctx dest ps) := by
  unfold State.writePieces
  repeat' first
    | with_reducible assumption
    | with_reducible exact Keep.refl _
    | with_reducible apply State.writeCtx_keep
    | with_reducible apply Keep.foldl
    | with_reducible apply KeepExcSnd.foldl
    | with_reducible apply KeepOpt.foldl
    | with_reducible apply KeepExc.foldl
    | with_reducible exact KeepOpt.none
    | with_reducible apply KeepOpt.some
    | with_reducible apply KeepOpt.bind
    | with_reducible apply KeepOptSnd.bind
    | with_reducible apply KeepOpt.bindSnd
    | with_reducible apply KeepExc.bind
    | with_reducible apply KeepExc.bindSnd
    | with_reducible apply KeepExcSnd.bindSnd
    | (refine KeepOpt.elim (by assumption) ?_)
    | intro _
    | split
    | extract_lets

theorem State.loadShardOf_keep {r₀ : State} {s : State} (f q : Nat) (c : Cmd) (o : Obj) (err : ReadErr) (chan : Nat) (k : State → State) (keep_s : Keep r₀ s) (keep_k : ∀ (x0 : State), Keep r₀ x0 → Keep r₀ (k x0)) :
    Keep r₀ (State.loadShardOf s f q c o err chan k) := by
  unfold State.loadShardOf
  repeat' first
    | with_reducible assumption
    | with_reducible exact Keep.refl _
    | with_reducible apply keep_k
    | with_reducible apply State.endCmd_keep
    | with_reducible apply State.withPieces_keep
    | with_reducible apply State.withFlash_keep
    | with_reducible apply State.writePieces_keep
    | with_reducible apply KeepOpt.mapSnd
    | with_reducible apply KeepOptSnd.mapSnd
    | with_reducible apply KeepOpt.map
    | (refine KeepOpt.elim (by assumption) ?_)
    | intro _
    | split
    | extract_lets

theorem execWeightLoad_keep {r₀ : State} (f q n : Nat) (err : ReadErr) (chan : Nat) {s : State} (keep_s : Keep r₀ s) :
    KeepOut r₀ (execWeightLoad f q n err chan s) := by
  unfold execWeightLoad
  repeat' first
    | with_reducible assumption
    | with_reducible exact Keep.refl _
    | with_reducible apply State.done_keep
    | with_reducible apply State.setWork_keep
    | with_reducible apply State.work_keep
    | with_reducible apply State.checked_keep
    | with_reducible apply State.loadShardOf_keep
    | with_reducible apply KeepOut.next
    | with_reducible apply KeepOut.onlyIf
    | with_reducible exact KeepOut.refused
    | intro _
    | split
    | extract_lets

theorem State.noteBase_keep {r₀ : State} {s : State} (ctx name : Nat) (keep_s : Keep r₀ s) :
    Keep r₀ (State.noteBase s ctx name) := by
  unfold State.noteBase
  repeat' first
    | with_reducible assumption
    | with_reducible exact Keep.refl _
    | with_reducible apply State.modCtx_keep
    | with_reducible exact Nat.le_refl _
    | with_reducible exact id
    | exact fun h => Mgmt.wf_congr h rfl rfl rfl rfl rfl rfl
    | exact fun h => Tiers.wf_congr h rfl rfl
    | exact fun _ => rfl
    | intro _
    | split
    | extract_lets
    | (with_reducible apply Keep.upd)

theorem execAdapterAttach_keep {r₀ : State} (f q n : Nat) (err : ReadErr) (chan : Nat) {s : State} (keep_s : Keep r₀ s) :
    KeepOut r₀ (execAdapterAttach f q n err chan s) := by
  unfold execAdapterAttach
  repeat' first
    | with_reducible assumption
    | with_reducible exact Keep.refl _
    | with_reducible apply State.done_keep
    | with_reducible apply State.setWork_keep
    | with_reducible apply State.work_keep
    | with_reducible apply State.checked_keep
    | with_reducible apply State.loadShardOf_keep
    | with_reducible apply KeepOut.next
    | with_reducible apply KeepOut.onlyIf
    | with_reducible exact KeepOut.refused
    | intro _
    | split
    | extract_lets

theorem State.commitAttach_keep {r₀ : State} {s : State} (c : Cmd) (keep_s : Keep r₀ s) :
    KeepCom r₀ (State.commitAttach s c) := by
  unfold State.commitAttach
  repeat' first
    | with_reducible assumption
    | with_reducible exact Keep.refl _
    | with_reducible apply State.work_keep
    | with_reducible apply State.modCtx_keep
    | with_reducible exact KeepCom.fail
    | with_reducible apply KeepCom.okOf
    | with_reducible apply KeepCom.waitOf
    | with_reducible exact KeepExc.error
    | with_reducible apply KeepExc.ok
    | with_reducible exact Nat.le_refl _
    | with_reducible exact id
    | exact fun h => Mgmt.wf_congr h rfl rfl rfl rfl rfl rfl
    | exact fun h => Tiers.wf_congr h rfl rfl
    | exact fun _ => rfl
    | intro _
    | split
    | extract_lets
    | (with_reducible apply Keep.upd)

theorem execAdapterDetach_keep {r₀ : State} (f q n : Nat) {s : State} (keep_s : Keep r₀ s) :
    KeepOut r₀ (execAdapterDetach f q n s) := by
  unfold execAdapterDetach
  repeat' first
    | with_reducible assumption
    | with_reducible exact Keep.refl _
    | with_reducible apply State.done_keep
    | with_reducible apply State.setWork_keep
    | with_reducible apply State.work_keep
    | with_reducible apply State.checked_keep
    | with_reducible apply State.writeCtx_keep
    | with_reducible apply State.endCmd_keep
    | with_reducible apply State.withRange_keep
    | with_reducible apply Keep.foldr
    | with_reducible apply Keep.foldl
    | with_reducible apply KeepExcSnd.foldl
    | with_reducible apply KeepOpt.foldl
    | with_reducible apply KeepExc.foldl
    | with_reducible apply KeepOut.next
    | with_reducible apply KeepOut.onlyIf
    | with_reducible exact KeepOut.refused
    | with_reducible exact KeepOpt.none
    | with_reducible apply KeepOpt.some
    | with_reducible apply KeepOpt.bind
    | with_reducible apply KeepOptSnd.bind
    | with_reducible apply KeepOpt.bindSnd
    | with_reducible apply KeepExc.bind
    | with_reducible apply KeepExc.bindSnd
    | with_reducible apply KeepExcSnd.bindSnd
    | (refine KeepOpt.elim (by assumption) ?_)
    | intro _
    | split
    | extract_lets

theorem State.commitDetach_keep {r₀ : State} {s : State} (c : Cmd) (keep_s : Keep r₀ s) :
    KeepCom r₀ (State.commitDetach s c) := by
  unfold State.commitDetach
  repeat' first
    | with_reducible assumption
    | with_reducible exact Keep.refl _
    | with_reducible apply State.work_keep
    | with_reducible apply State.modCtx_keep
    | with_reducible exact KeepCom.fail
    | with_reducible apply KeepCom.okOf
    | with_reducible apply KeepCom.waitOf
    | with_reducible exact KeepExc.error
    | with_reducible apply KeepExc.ok
    | with_reducible exact Nat.le_refl _
    | with_reducible exact id
    | exact fun h => Mgmt.wf_congr h rfl rfl rfl rfl rfl rfl
    | exact fun h => Tiers.wf_congr h rfl rfl
    | exact fun _ => rfl
    | intro _
    | split
    | extract_lets
    | (with_reducible apply Keep.upd)

theorem State.requestPieces_keep {r₀ : State} {s : State} (ctx : Nat) (j : Job) (reader name shard : Nat) (keep_s : Keep r₀ s) :
    Keep r₀ (State.requestPieces s ctx j reader name shard) := by
  unfold State.requestPieces
  repeat' first
    | with_reducible assumption
    | with_reducible exact Keep.refl _
    | with_reducible apply State.jobCtrl_keep
    | intro _
    | split
    | extract_lets

theorem State.announce_keep {r₀ : State} {s : State} (ctx : Nat) (j : Job) (o : Obj) (name : Nat) (keep_s : Keep r₀ s) :
    Keep r₀ (State.announce s ctx j o name) := by
  unfold State.announce
  repeat' first
    | with_reducible assumption
    | with_reducible exact Keep.refl _
    | with_reducible apply State.jobCtrl_keep
    | with_reducible apply Keep.foldl
    | with_reducible apply KeepExcSnd.foldl
    | with_reducible apply KeepOpt.foldl
    | with_reducible apply KeepExc.foldl
    | intro _
    | split
    | extract_lets

theorem State.sendShard_keep {r₀ : State} {s : State} (ctx : Nat) (j : Job) (o : Obj) (shard : Nat) (ranks : List Nat) (keep_s : Keep r₀ s) :
    Keep r₀ (State.sendShard s ctx j o shard ranks) := by
  unfold State.sendShard
  repeat' first
    | with_reducible assumption
    | with_reducible exact Keep.refl _
    | with_reducible apply State.sendCircuit_keep
    | with_reducible apply State.toChip_keep
    | with_reducible apply Keep.foldl
    | with_reducible apply KeepExcSnd.foldl
    | with_reducible apply KeepOpt.foldl
    | with_reducible apply KeepExc.foldl
    | intro _
    | split
    | extract_lets

theorem State.serveRequests_keep {r₀ : State} {s : State} (ctx : Nat) (j : Job) (o : Obj) (name : Nat) (keep_s : Keep r₀ s) :
    Keep r₀ (State.serveRequests s ctx j o name).1 := by
  unfold State.serveRequests
  repeat' first
    | with_reducible assumption
    | with_reducible exact Keep.refl _
    | with_reducible apply State.modJob_keep
    | with_reducible apply State.sendShard_keep
    | with_reducible apply Keep.foldl
    | with_reducible apply KeepExcSnd.foldl
    | with_reducible apply KeepOpt.foldl
    | with_reducible apply KeepExc.foldl
    | with_reducible exact Nat.le_refl _
    | (intro hi; first
      | exact cellsWf_foldl _ _ _ (fun m x h => cellsWf_cellWrite _ _ _ h) hi
      | exact cellsWf_foldl _ _ _ (fun m x h => cellsWf_cellClear _ _ _ h) hi)
    | with_reducible exact id
    | exact fun h => Mgmt.wf_congr h rfl rfl rfl rfl rfl rfl
    | exact fun h => Tiers.wf_congr h rfl rfl
    | exact fun _ => rfl
    | intro _
    | split
    | extract_lets
    | with_reducible apply Keep.fstMk
    | (with_reducible apply Keep.upd)

theorem State.broadcastRead_keep {r₀ : State} {s : State} (f q : Nat) (c : Cmd) (j : Job) (err : ReadErr) (chan : Nat) (keep_s : Keep r₀ s) :
    Keep r₀ (State.broadcastRead s f q c j err chan) := by
  unfold State.broadcastRead
  repeat' first
    | with_reducible assumption
    | with_reducible exact Keep.refl _
    | with_reducible apply State.modCmd_keep
    | with_reducible apply State.done_keep
    | with_reducible apply State.setWork_keep
    | with_reducible apply State.work_keep
    | with_reducible apply State.checked_keep
    | with_reducible apply State.withFlash_keep
    | with_reducible apply State.loadShardOf_keep
    | with_reducible apply State.announce_keep
    | with_reducible apply State.serveRequests_keep
    | (refine Keep.ofFst (by assumption) ?_)
    | with_reducible exact Nat.le_refl _
    | with_reducible exact id
    | exact fun h => Mgmt.wf_congr h rfl rfl rfl rfl rfl rfl
    | exact fun h => Tiers.wf_congr h rfl rfl
    | exact fun _ => rfl
    | intro _
    | split
    | extract_lets
    | (with_reducible apply Keep.upd)

theorem State.broadcastTake_keep {r₀ : State} {s : State} (f q : Nat) (c : Cmd) (j : Job) (keep_s : Keep r₀ s) :
    Keep r₀ (State.broadcastTake s f q c j) := by
  unfold State.broadcastTake
  repeat' first
    | with_reducible assumption
    | with_reducible exact Keep.refl _
    | with_reducible apply State.modCmd_keep
    | with_reducible apply State.done_keep
    | with_reducible apply State.setWork_keep
    | with_reducible apply State.work_keep
    | with_reducible apply State.checked_keep
    | with_reducible apply State.requestPieces_keep
    | with_reducible exact Nat.le_refl _
    | with_reducible exact id
    | exact fun h => Mgmt.wf_congr h rfl rfl rfl rfl rfl rfl
    | exact fun h => Tiers.wf_congr h rfl rfl
    | exact fun _ => rfl
    | intro _
    | split
    | extract_lets
    | (with_reducible apply Keep.upd)

theorem execWeightLoadBroadcast_keep {r₀ : State} (f q n : Nat) (err : ReadErr) (chan : Nat) {s : State} (keep_s : Keep r₀ s) :
    KeepOut r₀ (execWeightLoadBroadcast f q n err chan s) := by
  unfold execWeightLoadBroadcast
  repeat' first
    | with_reducible assumption
    | with_reducible exact Keep.refl _
    | with_reducible apply State.work_keep
    | with_reducible apply State.checked_keep
    | with_reducible apply State.broadcastRead_keep
    | with_reducible apply State.broadcastTake_keep
    | with_reducible apply KeepOut.next
    | with_reducible apply KeepOut.onlyIf
    | with_reducible exact KeepOut.refused
    | intro _
    | split
    | extract_lets

theorem State.commitBroadcast_keep {r₀ : State} {s : State} (c : Cmd) (keep_s : Keep r₀ s) :
    KeepCom r₀ (State.commitBroadcast s c) := by
  unfold State.commitBroadcast
  repeat' first
    | with_reducible assumption
    | with_reducible exact Keep.refl _
    | with_reducible apply State.work_keep
    | with_reducible apply State.modJob_keep
    | with_reducible apply State.jobCtrl_keep
    | with_reducible apply State.noteBase_keep
    | with_reducible exact KeepCom.fail
    | with_reducible apply KeepCom.okOf
    | with_reducible apply KeepCom.waitOf
    | with_reducible exact KeepExc.error
    | with_reducible apply KeepExc.ok
    | with_reducible exact Nat.le_refl _
    | with_reducible exact id
    | exact fun h => Mgmt.wf_congr h rfl rfl rfl rfl rfl rfl
    | exact fun h => Tiers.wf_congr h rfl rfl
    | exact fun _ => rfl
    | intro _
    | split
    | extract_lets
    | (with_reducible apply Keep.upd)

theorem execPieceRequest_keep {r₀ : State} (port : Nat) (frame : Frame) (ok : Bool) {s : State} (keep_s : Keep r₀ s) :
    KeepOut r₀ (execPieceRequest port frame ok s) := by
  unfold execPieceRequest
  repeat' first
    | with_reducible assumption
    | with_reducible exact Keep.refl _
    | with_reducible apply State.modJob_keep
    | with_reducible apply State.onJobCtrl_keep
    | with_reducible apply KeepOut.next
    | with_reducible apply KeepOut.onlyIf
    | with_reducible exact KeepOut.refused
    | intro _
    | split
    | extract_lets

theorem execReaderStart_keep {r₀ : State} (port : Nat) (frame : Frame) (ok : Bool) {s : State} (keep_s : Keep r₀ s) :
    KeepOut r₀ (execReaderStart port frame ok s) := by
  unfold execReaderStart
  repeat' first
    | with_reducible assumption
    | with_reducible exact Keep.refl _
    | with_reducible apply State.work_keep
    | with_reducible apply State.modJob_keep
    | with_reducible apply State.onJobCtrl_keep
    | with_reducible apply State.requestPieces_keep
    | with_reducible apply Keep.foldl
    | with_reducible apply KeepExcSnd.foldl
    | with_reducible apply KeepOpt.foldl
    | with_reducible apply KeepExc.foldl
    | with_reducible apply KeepOut.next
    | with_reducible apply KeepOut.onlyIf
    | with_reducible exact KeepOut.refused
    | with_reducible exact Nat.le_refl _
    | (intro hi; first
      | exact cellsWf_foldl _ _ _ (fun m x h => cellsWf_cellWrite _ _ _ h) hi
      | exact cellsWf_foldl _ _ _ (fun m x h => cellsWf_cellClear _ _ _ h) hi)
    | with_reducible exact id
    | exact fun h => Mgmt.wf_congr h rfl rfl rfl rfl rfl rfl
    | exact fun h => Tiers.wf_congr h rfl rfl
    | exact fun _ => rfl
    | intro _
    | split
    | extract_lets
    | (with_reducible apply Keep.upd)

theorem execDoneNotice_keep {r₀ : State} (port : Nat) (frame : Frame) (ok : Bool) {s : State} (keep_s : Keep r₀ s) :
    KeepOut r₀ (execDoneNotice port frame ok s) := by
  unfold execDoneNotice
  repeat' first
    | with_reducible assumption
    | with_reducible exact Keep.refl _
    | with_reducible apply State.modJob_keep
    | with_reducible apply State.onJobCtrl_keep
    | with_reducible apply KeepOut.next
    | with_reducible apply KeepOut.onlyIf
    | with_reducible exact KeepOut.refused
    | with_reducible exact Nat.le_refl _
    | with_reducible exact id
    | exact fun h => Mgmt.wf_congr h rfl rfl rfl rfl rfl rfl
    | exact fun h => Tiers.wf_congr h rfl rfl
    | exact fun _ => rfl
    | intro _
    | split
    | extract_lets
    | (with_reducible apply Keep.upd)

theorem execPiece_keep {r₀ : State} (port : Nat) (frame : Frame) (ok : Bool) {s : State} (keep_s : Keep r₀ s) :
    KeepOut r₀ (execPiece port frame ok s) := by
  unfold execPiece
  repeat' first
    | with_reducible assumption
    | with_reducible exact Keep.refl _
    | with_reducible apply State.modCmd_keep
    | with_reducible apply State.work_keep
    | with_reducible apply State.writeCtx_keep
    | with_reducible apply State.onFrame_keep
    | with_reducible apply State.oweCredits_keep
    | with_reducible apply State.endCmd_keep
    | with_reducible apply KeepOut.next
    | with_reducible apply KeepOut.onlyIf
    | with_reducible exact KeepOut.refused
    | (refine KeepOpt.elim (by assumption) ?_)
    | with_reducible exact Nat.le_refl _
    | with_reducible exact id
    | exact fun h => Mgmt.wf_congr h rfl rfl rfl rfl rfl rfl
    | exact fun h => Tiers.wf_congr h rfl rfl
    | exact fun _ => rfl
    | intro _
    | split
    | extract_lets
    | (with_reducible apply Keep.upd)

theorem State.takeStaging_keep {r₀ : State} {s : State} (ctx n : Nat) (h : Keep r₀ s) :
    KeepOptSnd r₀ (State.takeStaging s ctx n) := by
  induction n with
  | zero => exact KeepOptSnd.some h
  | succ n ih =>
    unfold State.takeStaging
    split
    · rename_i e
      exact KeepOptSnd.mapSnd (State.allocFrame_keep _ (KeepOptSnd.elim e ih)) (fun _ _ hu => hu)
    · exact KeepOptSnd.none

theorem State.fillStaging_keep {r₀ : State} {s : State} (bs : List Byte) (staging : List (Nat × Nat)) (keep_s : Keep r₀ s) :
    Keep r₀ (State.fillStaging s bs staging) := by
  unfold State.fillStaging
  repeat' first
    | with_reducible assumption
    | with_reducible exact Keep.refl _
    | with_reducible apply Keep.foldl
    | with_reducible apply KeepExcSnd.foldl
    | with_reducible apply KeepOpt.foldl
    | with_reducible apply KeepExc.foldl
    | with_reducible exact Nat.le_refl _
    | (intro hi; first
      | exact cellsWf_cellWrite _ _ _ hi
      | exact cellsWf_foldl _ _ _ (fun m x h => cellsWf_cellWrite _ _ _ h) hi
      | exact cellsWf_foldl _ _ _ (fun m x h => cellsWf_cellClear _ _ _ h) hi
      | exact Tiers.wf_upd hi (fun h => cellsWf_cellWrite _ _ _ h) id
      | exact Tiers.wf_upd hi (fun h => cellsWf_foldl _ _ _ (fun m x h => cellsWf_cellWrite _ _ _ h) h) id)
    | with_reducible exact id
    | exact fun h => Mgmt.wf_congr h rfl rfl rfl rfl rfl rfl
    | exact fun h => Tiers.wf_congr h rfl rfl
    | exact fun _ => rfl
    | intro _
    | split
    | extract_lets
    | (with_reducible apply Keep.upd)

theorem execWeightReplace_keep {r₀ : State} (f q n : Nat) (err : ReadErr) (chan : Nat) {s : State} (keep_s : Keep r₀ s) :
    KeepOut r₀ (execWeightReplace f q n err chan s) := by
  unfold execWeightReplace
  refine State.work_keep _ _ _ _ _ keep_s (fun c => ?_)
  extract_lets ws o
  clear_value ws o
  split
  · split
    · refine State.withFlash_keep _ _ _ _ _ _ keep_s (fun t h => ?_)
      extract_lets t1
      have h1 : Keep r₀ t1 := State.fillStaging_keep _ _ h
      clear_value t1
      split
      · exact h1
      · exact State.setWork_keep _ _ _ _ (State.modCtx_keep _ _ h1)
    · exact keep_s
  · exact keep_s
  · refine State.checked_keep _ _ _ _ _ keep_s ?_
    split
    · extract_lets ps k layers
      split
      · exact State.endCmd_keep _ _ _ _ keep_s
      · split
        · rename_i e
          exact State.setWork_keep _ _ _ _ (KeepOptSnd.elim e (State.takeStaging_keep _ _ keep_s))
        · exact State.endCmd_keep _ _ _ _ keep_s
    · exact keep_s

theorem State.copyStaging_keep {r₀ : State} {s : State} (ctx dest : Nat) (ps : List Piece) (staging : List (Nat × Nat)) (keep_s : Keep r₀ s) :
    Keep r₀ (State.copyStaging s ctx dest ps staging) := by
  unfold State.copyStaging
  repeat' first
    | with_reducible assumption
    | with_reducible exact Keep.refl _
    | with_reducible apply State.rawWrite_keep
    | with_reducible apply State.abandonMig_keep
    | with_reducible apply Keep.foldl
    | with_reducible apply KeepExcSnd.foldl
    | with_reducible apply KeepOpt.foldl
    | with_reducible apply KeepExc.foldl
    | intro _
    | split
    | extract_lets

theorem State.replaceErr_keep {r₀ : State} {s : State} (f q n ctx : Nat) (err : ReadErr) (at' : Option (Nat × Option Nat))
    (keep_s : Keep r₀ s) : Keep r₀ (State.replaceErr s f q n ctx err at').1 := by
  cases at' with
  | none => exact keep_s
  | some p =>
    obtain ⟨fid, addr⟩ := p
    cases err with
    | clean => exact keep_s
    | corrected => exact Keep.fstMk (State.correctable_keep _ _ _ keep_s)
    | uncorrectable =>
      cases addr with
      | some a => exact Keep.fstMk (State.teardown_keep _ _ _ (State.retireFrame_keep _ keep_s))
      | none => exact Keep.fstMk (State.teardown_keep _ _ _ (State.retireFrame_keep _ (State.freeNext_keep _ keep_s)))

theorem execWeightReplaceCopy_keep {r₀ : State} (f q n : Nat) (err : ReadErr) (place : Nat) {s : State} (keep_s : Keep r₀ s) :
    KeepOut r₀ (execWeightReplaceCopy f q n err place s) := by
  unfold execWeightReplaceCopy
  repeat' first
    | with_reducible assumption
    | with_reducible exact Keep.refl _
    | with_reducible apply State.modCmd_keep
    | with_reducible apply State.done_keep
    | with_reducible apply State.work_keep
    | with_reducible apply State.dropFrame_keep
    | with_reducible apply State.endCmd_keep
    | with_reducible apply State.copyStaging_keep
    | with_reducible apply State.replaceErr_keep
    | with_reducible apply Keep.foldl
    | with_reducible apply KeepOut.next
    | with_reducible apply KeepOut.onlyIf
    | with_reducible exact KeepOut.refused
    | (refine Keep.ofFst (by assumption) ?_)
    | intro _
    | split
    | extract_lets

end Sys2Proof.Machine
end

