-- ==== Sys2Proof/Laws/KeepFabric.lean ====
section
/-! SUPPORT. What the operations and meanings of Machine/Fabric.lean keep (`Keep`, Laws/Keep.lean). -/
set_option linter.all false

namespace Sys2Proof.Machine

theorem State.onLink_keep {r₀ : State} {s : State} (port : Nat) (f : Frame) (ok : Bool) (ty : Nat) (g : State → State) (keep_s : Keep r₀ s) (keep_g : ∀ (x0 : State), Keep r₀ x0 → Keep r₀ (g x0)) :
    KeepOut r₀ (State.onLink s port f ok ty g) := by
  unfold State.onLink
  repeat' first
    | with_reducible assumption
    | with_reducible exact Keep.refl _
    | with_reducible apply keep_g
    | with_reducible apply State.modPort_keep
    | with_reducible apply State.discardFrame_keep
    | with_reducible apply KeepOut.next
    | with_reducible apply KeepOut.onlyIf
    | with_reducible exact KeepOut.refused
    | with_reducible exact Nat.le_refl _
    | with_reducible exact id
    | exact fun h => Mgmt.wf_congr h rfl rfl rfl rfl rfl rfl
    | exact fun h => Tiers.wf_congr h rfl rfl
    | exact fun _ => rfl
    | intro _
    | split
    | extract_lets
    | (with_reducible apply Keep.upd)

theorem State.replayOn_keep {r₀ : State} {s : State} (port : Nat) (keep_s : Keep r₀ s) :
    Keep r₀ (State.replayOn s port) := by
  unfold State.replayOn
  repeat' first
    | with_reducible assumption
    | with_reducible exact Keep.refl _
    | with_reducible apply State.modPort_keep
    | with_reducible apply State.report_keep
    | intro _
    | split
    | extract_lets

theorem execLinkAck_keep {r₀ : State} (port : Nat) (frame : Frame) (ok : Bool) {s : State} (keep_s : Keep r₀ s) :
    KeepOut r₀ (execLinkAck port frame ok s) := by
  unfold execLinkAck
  split
  · split
    · rename_i e
      exact KeepOut.next (State.arrive_keep port frame ok keep_s (Or.inl e))
    · rename_i e
      exact KeepOut.next (State.arrive_keep port frame ok keep_s (Or.inr e))
  · refine State.onLink_keep _ _ _ _ _ keep_s (fun u h => ?_)
    split
    · exact State.modPort_keep _ _ (State.replayOn_keep _ h)
    · exact h

theorem execReplayTimeout_keep {r₀ : State} (port : Nat) {s : State} (keep_s : Keep r₀ s) :
    KeepOut r₀ (execReplayTimeout port s) := by
  unfold execReplayTimeout
  repeat' first
    | with_reducible assumption
    | with_reducible exact Keep.refl _
    | with_reducible apply onlyIf_keep
    | with_reducible apply State.modPort_keep
    | with_reducible apply State.portDown_keep
    | with_reducible apply State.replayOn_keep
    | with_reducible apply KeepOut.next
    | with_reducible apply KeepOut.onlyIf
    | with_reducible exact KeepOut.refused
    | with_reducible exact Nat.le_refl _
    | with_reducible exact id
    | exact fun h => Mgmt.wf_congr h rfl rfl rfl rfl rfl rfl
    | exact fun h => Tiers.wf_congr h rfl rfl
    | exact fun _ => rfl
    | intro _
    | split
    | extract_lets
    | (with_reducible apply Keep.upd)

theorem execAckTimer_keep {r₀ : State} (port : Nat) {s : State} (keep_s : Keep r₀ s) :
    KeepOut r₀ (execAckTimer port s) := by
  unfold execAckTimer
  repeat' first
    | with_reducible assumption
    | with_reducible exact Keep.refl _
    | with_reducible apply onlyIf_keep
    | with_reducible apply State.sendOn_keep
    | with_reducible apply KeepOut.next
    | with_reducible apply KeepOut.onlyIf
    | with_reducible exact KeepOut.refused
    | intro _
    | split
    | extract_lets

theorem execLossOfLock_keep {r₀ : State} (port lanes : Nat) {s : State} (keep_s : Keep r₀ s) :
    KeepOut r₀ (execLossOfLock port lanes s) := by
  unfold execLossOfLock
  repeat' first
    | with_reducible assumption
    | with_reducible exact Keep.refl _
    | with_reducible apply onlyIf_keep
    | with_reducible apply State.modPort_keep
    | with_reducible apply State.report_keep
    | with_reducible apply State.portDown_keep
    | with_reducible apply KeepOut.next
    | with_reducible apply KeepOut.onlyIf
    | with_reducible exact KeepOut.refused
    | with_reducible exact Nat.le_refl _
    | with_reducible exact id
    | exact fun h => Mgmt.wf_congr h rfl rfl rfl rfl rfl rfl
    | exact fun h => Tiers.wf_congr h rfl rfl
    | exact fun _ => rfl
    | intro _
    | split
    | extract_lets
    | (with_reducible apply Keep.upd)

theorem State.clearDead_keep {r₀ : State} {s : State} (keep_s : Keep r₀ s) :
    Keep r₀ (State.clearDead s) := by
  unfold State.clearDead
  repeat' first
    | with_reducible assumption
    | with_reducible exact Keep.refl _
    | with_reducible exact Nat.le_refl _
    | with_reducible exact id
    | exact fun h => Mgmt.wf_congr h rfl rfl rfl rfl rfl rfl
    | exact fun h => Tiers.wf_congr h rfl rfl
    | exact fun _ => rfl
    | intro _
    | split
    | extract_lets
    | (with_reducible apply Keep.upd)

theorem State.trained_keep {r₀ : State} {s : State} (port lanes chip nport : Nat) (keep_s : Keep r₀ s) :
    Keep r₀ (State.trained s port lanes chip nport) := by
  unfold State.trained
  repeat' first
    | with_reducible assumption
    | with_reducible exact Keep.refl _
    | with_reducible apply State.modPort_keep
    | with_reducible apply State.report_keep
    | with_reducible apply State.clearDead_keep
    | intro _
    | split
    | extract_lets

theorem execLinkRestore_keep {r₀ : State} (f q n : Nat) (lanes chip port : Nat) {s : State} (keep_s : Keep r₀ s) :
    KeepOut r₀ (execLinkRestore f q n lanes chip port s) := by
  unfold execLinkRestore
  repeat' first
    | with_reducible assumption
    | with_reducible exact Keep.refl _
    | with_reducible apply State.done_keep
    | with_reducible apply State.setWork_keep
    | with_reducible apply State.work_keep
    | with_reducible apply State.checked_keep
    | with_reducible apply KeepOut.next
    | with_reducible apply KeepOut.onlyIf
    | with_reducible exact KeepOut.refused
    | intro _
    | split
    | extract_lets

theorem State.commitRestore_keep {r₀ : State} {s : State} (port lanes chip nport : Nat) (keep_s : Keep r₀ s) :
    Keep r₀ (State.commitRestore s port lanes chip nport) := by
  unfold State.commitRestore
  repeat' first
    | with_reducible assumption
    | with_reducible exact Keep.refl _
    | with_reducible apply State.trained_keep
    | intro _
    | split
    | extract_lets

theorem execNeighbourLinkRestore_keep {r₀ : State} (port lanes chip nport : Nat) {s : State} (keep_s : Keep r₀ s) :
    KeepOut r₀ (execNeighbourLinkRestore port lanes chip nport s) := by
  unfold execNeighbourLinkRestore
  repeat' first
    | with_reducible assumption
    | with_reducible exact Keep.refl _
    | with_reducible apply onlyIf_keep
    | with_reducible apply State.trained_keep
    | with_reducible apply KeepOut.next
    | with_reducible apply KeepOut.onlyIf
    | with_reducible exact KeepOut.refused
    | intro _
    | split
    | extract_lets

theorem State.recalLane_keep {r₀ : State} (f q n p : Nat) (all : Bool) (left : Nat) (l : List Nat) {s : State} (h : Keep r₀ s) :
    Keep r₀ (State.recalLane f q n p all left l s) := by
  induction l with
  | nil => exact State.done_keep _ _ _ _ _ (State.modPort_keep _ _ h)
  | cons lane l ih =>
    unfold State.recalLane
    extract_lets
    split
    · exact ih
    · exact State.setWork_keep _ _ _ _ (State.sendOn_keep _ _ (State.modPort_keep _ _ h))

theorem execLinkRecalibrate_keep {r₀ : State} (f q n : Nat) {s : State} (keep_s : Keep r₀ s) :
    KeepOut r₀ (execLinkRecalibrate f q n s) := by
  unfold execLinkRecalibrate
  repeat' first
    | with_reducible assumption
    | with_reducible exact Keep.refl _
    | with_reducible apply State.work_keep
    | with_reducible apply State.checked_keep
    | with_reducible apply State.recalLane_keep
    | with_reducible apply KeepOut.next
    | with_reducible apply KeepOut.onlyIf
    | with_reducible exact KeepOut.refused
    | intro _
    | split
    | extract_lets

theorem execLane_keep {r₀ : State} (port : Nat) (frame : Frame) (ok : Bool) {s : State} (keep_s : Keep r₀ s) :
    KeepOut r₀ (execLane port frame ok s) := by
  unfold execLane
  repeat' first
    | with_reducible assumption
    | with_reducible exact Keep.refl _
    | with_reducible apply State.modPort_keep
    | with_reducible apply State.sendOn_keep
    | with_reducible apply State.endCmd_keep
    | with_reducible apply State.onLink_keep
    | with_reducible apply State.recalLane_keep
    | with_reducible apply KeepOut.next
    | with_reducible apply KeepOut.onlyIf
    | with_reducible exact KeepOut.refused
    | with_reducible exact Nat.le_refl _
    | with_reducible exact id
    | exact fun h => Mgmt.wf_congr h rfl rfl rfl rfl rfl rfl
    | exact fun h => Tiers.wf_congr h rfl rfl
    | exact fun _ => rfl
    | intro _
    | split
    | extract_lets
    | (with_reducible apply Keep.upd)

theorem execLaneRetrainDone_keep {r₀ : State} (port : Nat) (good : Bool) {s : State} (keep_s : Keep r₀ s) :
    KeepOut r₀ (execLaneRetrainDone port good s) := by
  unfold execLaneRetrainDone
  repeat' first
    | with_reducible assumption
    | with_reducible exact Keep.refl _
    | with_reducible apply onlyIf_keep
    | with_reducible apply State.modPort_keep
    | with_reducible apply State.report_keep
    | with_reducible apply State.sendOn_keep
    | with_reducible apply State.portDown_keep
    | with_reducible apply State.recalLane_keep
    | with_reducible apply KeepOut.next
    | with_reducible apply KeepOut.onlyIf
    | with_reducible exact KeepOut.refused
    | with_reducible exact Nat.le_refl _
    | with_reducible exact id
    | exact fun h => Mgmt.wf_congr h rfl rfl rfl rfl rfl rfl
    | exact fun h => Tiers.wf_congr h rfl rfl
    | exact fun _ => rfl
    | intro _
    | split
    | extract_lets
    | (with_reducible apply Keep.upd)

theorem execCredit_keep {r₀ : State} (port : Nat) (frame : Frame) (ok : Bool) {s : State} (keep_s : Keep r₀ s) :
    KeepOut r₀ (execCredit port frame ok s) := by
  unfold execCredit
  repeat' first
    | with_reducible assumption
    | with_reducible exact Keep.refl _
    | with_reducible apply State.modCirc_keep
    | with_reducible apply State.drainCircuit_keep
    | with_reducible apply State.onFrame_keep
    | with_reducible apply State.takeOwed_keep
    | with_reducible apply State.sendCredit_keep
    | with_reducible apply KeepOut.next
    | with_reducible apply KeepOut.onlyIf
    | with_reducible exact KeepOut.refused
    | with_reducible exact Nat.le_refl _
    | with_reducible exact id
    | exact fun h => Mgmt.wf_congr h rfl rfl rfl rfl rfl rfl
    | exact fun h => Tiers.wf_congr h rfl rfl
    | exact fun _ => rfl
    | intro _
    | split
    | extract_lets
    | (with_reducible apply Keep.upd)

theorem execCreditTimer_keep {r₀ : State} (circuit : Nat) {s : State} (keep_s : Keep r₀ s) :
    KeepOut r₀ (execCreditTimer circuit s) := by
  unfold execCreditTimer
  repeat' first
    | with_reducible assumption
    | with_reducible exact Keep.refl _
    | with_reducible apply onlyIf_keep
    | with_reducible apply State.sendCredit_keep
    | with_reducible apply KeepOut.next
    | with_reducible apply KeepOut.onlyIf
    | with_reducible exact KeepOut.refused
    | intro _
    | split
    | extract_lets

theorem execCreditTimeout_keep {r₀ : State} (circuit : Nat) {s : State} (keep_s : Keep r₀ s) :
    KeepOut r₀ (execCreditTimeout circuit s) := by
  unfold execCreditTimeout
  repeat' first
    | with_reducible assumption
    | with_reducible exact Keep.refl _
    | with_reducible apply onlyIf_keep
    | with_reducible apply State.tearHere_keep
    | with_reducible apply KeepOut.next
    | with_reducible apply KeepOut.onlyIf
    | with_reducible exact KeepOut.refused
    | intro _
    | split
    | extract_lets

theorem execTear_keep {r₀ : State} (port : Nat) (frame : Frame) (ok : Bool) {s : State} (keep_s : Keep r₀ s) :
    KeepOut r₀ (execTear port frame ok s) := by
  unfold execTear
  repeat' first
    | with_reducible assumption
    | with_reducible exact Keep.refl _
    | with_reducible apply State.onFrame_keep
    | with_reducible apply State.tearHere_keep
    | with_reducible apply KeepOut.next
    | with_reducible apply KeepOut.onlyIf
    | with_reducible exact KeepOut.refused
    | intro _
    | split
    | extract_lets

theorem State.chainTo_keep {r₀ : State} {s : State} (tree : List Nat) (k : Nat) (keep_s : Keep r₀ s) :
    Keep r₀ (State.chainTo s tree k) := by
  unfold State.chainTo
  repeat' first
    | with_reducible assumption
    | with_reducible exact Keep.refl _
    | with_reducible apply State.modCirc_keep
    | with_reducible exact Nat.le_refl _
    | with_reducible exact id
    | exact fun h => Mgmt.wf_congr h rfl rfl rfl rfl rfl rfl
    | exact fun h => Tiers.wf_congr h rfl rfl
    | exact fun _ => rfl
    | intro _
    | split
    | extract_lets
    | (with_reducible apply Keep.upd)

theorem State.passReserve_keep {r₀ : State} {s : State} (port : Nat) (f : Frame) (k : Nat) (keep_s : Keep r₀ s) :
    Keep r₀ (State.passReserve s port f k) := by
  unfold State.passReserve
  repeat' first
    | with_reducible assumption
    | with_reducible exact Keep.refl _
    | with_reducible apply State.sendOn_keep
    | with_reducible exact Nat.le_refl _
    | with_reducible exact id
    | exact fun h => Mgmt.wf_congr h rfl rfl rfl rfl rfl rfl
    | exact fun h => Tiers.wf_congr h rfl rfl
    | exact fun _ => rfl
    | intro _
    | split
    | extract_lets
    | (with_reducible apply Keep.upd)

theorem State.refuseReserve_keep {r₀ : State} {s : State} (port : Nat) (f : Frame) (keep_s : Keep r₀ s) :
    Keep r₀ (State.refuseReserve s port f) := by
  unfold State.refuseReserve
  repeat' first
    | with_reducible assumption
    | with_reducible exact Keep.refl _
    | with_reducible apply State.sendOn_keep
    | intro _
    | split
    | extract_lets

theorem State.transitReserve_keep {r₀ : State} {s : State} (port : Nat) (f : Frame) (keep_s : Keep r₀ s) :
    Keep r₀ (State.transitReserve s port f) := by
  unfold State.transitReserve
  repeat' first
    | with_reducible assumption
    | with_reducible exact Keep.refl _
    | with_reducible apply State.modCirc_keep
    | with_reducible apply State.chainTo_keep
    | with_reducible apply State.passReserve_keep
    | with_reducible apply State.refuseReserve_keep
    | with_reducible exact Nat.le_refl _
    | with_reducible exact id
    | exact fun h => Mgmt.wf_congr h rfl rfl rfl rfl rfl rfl
    | exact fun h => Tiers.wf_congr h rfl rfl
    | exact fun _ => rfl
    | intro _
    | split
    | extract_lets
    | (with_reducible apply Keep.upd)

theorem State.acceptReserve_keep {r₀ : State} {s : State} (ctx port : Nat) (f : Frame) (keep_s : Keep r₀ s) :
    Keep r₀ (State.acceptReserve s ctx port f) := by
  unfold State.acceptReserve
  repeat' first
    | with_reducible assumption
    | with_reducible exact Keep.refl _
    | with_reducible apply State.modCirc_keep
    | with_reducible apply State.sendOn_keep
    | with_reducible apply State.chainTo_keep
    | with_reducible apply State.refuseReserve_keep
    | with_reducible exact Nat.le_refl _
    | with_reducible exact id
    | exact fun h => Mgmt.wf_congr h rfl rfl rfl rfl rfl rfl
    | exact fun h => Tiers.wf_congr h rfl rfl
    | exact fun _ => rfl
    | intro _
    | split
    | extract_lets
    | (with_reducible apply Keep.upd)

theorem execReserve_keep {r₀ : State} (port : Nat) (frame : Frame) (ok : Bool) {s : State} (keep_s : Keep r₀ s) :
    KeepOut r₀ (execReserve port frame ok s) := by
  unfold execReserve
  repeat' first
    | with_reducible assumption
    | with_reducible exact Keep.refl _
    | with_reducible apply State.discardFrame_keep
    | with_reducible apply State.onFrame_keep
    | with_reducible apply State.transitReserve_keep
    | with_reducible apply State.acceptReserve_keep
    | with_reducible apply KeepOut.next
    | with_reducible apply KeepOut.onlyIf
    | with_reducible exact KeepOut.refused
    | with_reducible exact Nat.le_refl _
    | with_reducible exact id
    | exact fun h => Mgmt.wf_congr h rfl rfl rfl rfl rfl rfl
    | exact fun h => Tiers.wf_congr h rfl rfl
    | exact fun _ => rfl
    | intro _
    | split
    | extract_lets
    | (with_reducible apply Keep.upd)

theorem State.dropResv_keep {r₀ : State} {s : State} (r : Resv) (keep_s : Keep r₀ s) :
    Keep r₀ (State.dropResv s r) := by
  unfold State.dropResv
  repeat' first
    | with_reducible assumption
    | with_reducible exact Keep.refl _
    | with_reducible exact Nat.le_refl _
    | with_reducible exact id
    | exact fun h => Mgmt.wf_congr h rfl rfl rfl rfl rfl rfl
    | exact fun h => Tiers.wf_congr h rfl rfl
    | exact fun _ => rfl
    | intro _
    | split
    | extract_lets
    | (with_reducible apply Keep.upd)

theorem execConfirm_keep {r₀ : State} (port : Nat) (frame : Frame) (ok : Bool) {s : State} (keep_s : Keep r₀ s) :
    KeepOut r₀ (execConfirm port frame ok s) := by
  unfold execConfirm
  repeat' first
    | with_reducible assumption
    | with_reducible exact Keep.refl _
    | with_reducible apply State.modCirc_keep
    | with_reducible apply State.sendOn_keep
    | with_reducible apply State.discardFrame_keep
    | with_reducible apply State.onFrame_keep
    | with_reducible apply State.dropResv_keep
    | with_reducible apply KeepOut.next
    | with_reducible apply KeepOut.onlyIf
    | with_reducible exact KeepOut.refused
    | intro _
    | split
    | extract_lets

theorem execReject_keep {r₀ : State} (port : Nat) (frame : Frame) (ok : Bool) {s : State} (keep_s : Keep r₀ s) :
    KeepOut r₀ (execReject port frame ok s) := by
  unfold execReject
  repeat' first
    | with_reducible assumption
    | with_reducible exact Keep.refl _
    | with_reducible apply State.modCirc_keep
    | with_reducible apply State.sendOn_keep
    | with_reducible apply State.discardFrame_keep
    | with_reducible apply State.onFrame_keep
    | with_reducible apply State.failOpen_keep
    | with_reducible apply State.dropResv_keep
    | with_reducible apply KeepOut.next
    | with_reducible apply KeepOut.onlyIf
    | with_reducible exact KeepOut.refused
    | intro _
    | split
    | dsimp only

theorem State.withExpertPlan_keep {r₀ : State} {s : State} (f q n ctx : Nat) (ws : List Word) (count : Nat) (k : Option ExpertPlan → State) (keep_s : Keep r₀ s) (keep_k : ∀ (x0 : Option ExpertPlan), Keep r₀ (k x0)) :
    Keep r₀ (State.withExpertPlan s f q n ctx ws count k) := by
  unfold State.withExpertPlan
  repeat' first
    | with_reducible assumption
    | with_reducible exact Keep.refl _
    | with_reducible apply keep_k
    | with_reducible apply State.endCmd_keep
    | with_reducible apply State.withRange_keep
    | intro _
    | split
    | extract_lets

theorem State.initiate_keep {r₀ : State} {s : State} (ctx : Nat) (j : Job) (kind chip : Nat) (keep_s : Keep r₀ s) :
    KeepOpt r₀ (State.initiate s ctx j kind chip) := by
  unfold State.initiate
  repeat' first
    | with_reducible assumption
    | with_reducible exact Keep.refl _
    | with_reducible apply State.modCirc_keep
    | with_reducible apply State.chainTo_keep
    | with_reducible apply State.passReserve_keep
    | with_reducible exact KeepOpt.none
    | with_reducible apply KeepOpt.some
    | with_reducible apply KeepOpt.mapSnd
    | with_reducible apply KeepOptSnd.mapSnd
    | with_reducible apply KeepOpt.map
    | with_reducible exact Nat.le_refl _
    | with_reducible exact id
    | exact fun h => Mgmt.wf_congr h rfl rfl rfl rfl rfl rfl
    | exact fun h => Tiers.wf_congr h rfl rfl
    | exact fun _ => rfl
    | intro _
    | split
    | extract_lets
    | (with_reducible apply Keep.upd)

theorem State.beginJob_keep {r₀ : State} {s : State} (f q n ctx : Nat) (j : Job) (keep_s : Keep r₀ s) :
    Keep r₀ (State.beginJob s f q n ctx j) := by
  unfold State.beginJob
  repeat' first
    | with_reducible assumption
    | with_reducible exact Keep.refl _
    | with_reducible apply State.setWork_keep
    | with_reducible apply State.modCtx_keep
    | with_reducible apply State.endCmd_keep
    | with_reducible apply State.acceptReserve_keep
    | with_reducible apply State.initiate_keep
    | with_reducible apply Keep.foldl
    | with_reducible apply KeepExcSnd.foldl
    | with_reducible apply KeepOpt.foldl
    | with_reducible apply KeepExc.foldl
    | with_reducible exact KeepOpt.none
    | with_reducible apply KeepOpt.some
    | with_reducible apply KeepOpt.bind
    | with_reducible apply KeepOptSnd.bind
    | with_reducible apply KeepOpt.bindSnd
    | with_reducible apply KeepExc.bind
    | with_reducible apply KeepExc.bindSnd
    | with_reducible apply KeepExcSnd.bindSnd
    | (refine KeepOpt.elim (by assumption) ?_)
    | with_reducible exact Nat.le_refl _
    | (intro hi; first
      | exact cellsWf_foldl _ _ _ (fun m x h => cellsWf_cellWrite _ _ _ h) hi
      | exact cellsWf_foldl _ _ _ (fun m x h => cellsWf_cellClear _ _ _ h) hi)
    | with_reducible exact id
    | exact fun h => Mgmt.wf_congr h rfl rfl rfl rfl rfl rfl
    | exact fun h => Tiers.wf_congr h rfl rfl
    | exact fun _ => rfl
    | intro _
    | split
    | extract_lets
    | (with_reducible apply Keep.upd)

theorem execJobOpen_keep {r₀ : State} (f q n : Nat) (errs : List MemErr) {s0 : State} (keep_s0 : Keep r₀ s0) :
    KeepOut r₀ (execJobOpen f q n errs s0) := by
  unfold execJobOpen
  repeat' first
    | with_reducible assumption
    | with_reducible exact Keep.refl _
    | with_reducible apply State.done_keep
    | with_reducible apply State.work_keep
    | with_reducible apply State.checked_keep
    | with_reducible apply State.withErrs_keep
    | with_reducible apply State.withRange_keep
    | with_reducible apply State.withExpertPlan_keep
    | with_reducible apply State.beginJob_keep
    | with_reducible apply KeepOut.next
    | with_reducible apply KeepOut.onlyIf
    | with_reducible exact KeepOut.refused
    | intro _
    | split
    | extract_lets

theorem State.commitJob_keep {r₀ : State} {s : State} (c : Cmd) (keep_s : Keep r₀ s) :
    Keep r₀ (State.commitJob s c) := by
  unfold State.commitJob
  repeat' first
    | with_reducible assumption
    | with_reducible exact Keep.refl _
    | with_reducible apply State.modJob_keep
    | with_reducible exact Nat.le_refl _
    | with_reducible exact id
    | exact fun h => Mgmt.wf_congr h rfl rfl rfl rfl rfl rfl
    | exact fun h => Tiers.wf_congr h rfl rfl
    | exact fun _ => rfl
    | intro _
    | split
    | extract_lets
    | (with_reducible apply Keep.upd)

theorem execJobOpenTimeout_keep {r₀ : State} (f q n : Nat) {s : State} (keep_s : Keep r₀ s) :
    KeepOut r₀ (execJobOpenTimeout f q n s) := by
  unfold execJobOpenTimeout
  repeat' first
    | with_reducible assumption
    | with_reducible exact Keep.refl _
    | with_reducible apply State.work_keep
    | with_reducible apply State.endCmd_keep
    | with_reducible apply KeepOut.next
    | with_reducible apply KeepOut.onlyIf
    | with_reducible exact KeepOut.refused
    | intro _
    | split
    | extract_lets

theorem execJobClose_keep {r₀ : State} (f q n : Nat) {s : State} (keep_s : Keep r₀ s) :
    KeepOut r₀ (execJobClose f q n s) := by
  unfold execJobClose
  repeat' first
    | with_reducible assumption
    | with_reducible exact Keep.refl _
    | with_reducible apply State.done_keep
    | with_reducible apply State.work_keep
    | with_reducible apply State.checked_keep
    | with_reducible apply KeepOut.next
    | with_reducible apply KeepOut.onlyIf
    | with_reducible exact KeepOut.refused
    | intro _
    | split
    | extract_lets

theorem State.commitJobClose_keep {r₀ : State} {s : State} (c : Cmd) (keep_s : Keep r₀ s) :
    Keep r₀ (State.commitJobClose s c) := by
  unfold State.commitJobClose
  repeat' first
    | with_reducible assumption
    | with_reducible exact Keep.refl _
    | with_reducible apply State.endCmd_keep
    | with_reducible apply State.endJob_keep
    | with_reducible apply Keep.foldl
    | with_reducible apply KeepExcSnd.foldl
    | with_reducible apply KeepOpt.foldl
    | with_reducible apply KeepExc.foldl
    | intro _
    | split
    | extract_lets

theorem State.sendMapped_keep {r₀ : State} {s : State} (ctx idx : Nat) (t : Tile) (keep_s : Keep r₀ s) :
    Keep r₀ (State.sendMapped s ctx idx t) := by
  unfold State.sendMapped
  repeat' first
    | with_reducible assumption
    | with_reducible exact Keep.refl _
    | with_reducible apply State.toChip_keep
    | with_reducible apply State.modJob_keep
    | with_reducible apply Keep.foldl
    | with_reducible apply KeepExcSnd.foldl
    | with_reducible apply KeepOpt.foldl
    | with_reducible apply KeepExc.foldl
    | with_reducible apply KeepOpt.getD
    | with_reducible exact Nat.le_refl _
    | (intro hi; first
      | exact cellsWf_foldl _ _ _ (fun m x h => cellsWf_cellWrite _ _ _ h) hi
      | exact cellsWf_foldl _ _ _ (fun m x h => cellsWf_cellClear _ _ _ h) hi)
    | with_reducible exact id
    | exact fun h => Mgmt.wf_congr h rfl rfl rfl rfl rfl rfl
    | exact fun h => Tiers.wf_congr h rfl rfl
    | exact fun _ => rfl
    | intro _
    | split
    | extract_lets
    | (with_reducible apply Keep.upd)

theorem execDealPublication_keep {r₀ : State} (port : Nat) (frame : Frame) (ok : Bool) {s : State} (keep_s : Keep r₀ s) :
    KeepOut r₀ (execDealPublication port frame ok s) := by
  unfold execDealPublication
  repeat' first
    | with_reducible assumption
    | with_reducible exact Keep.refl _
    | with_reducible apply State.onFrame_keep
    | with_reducible apply State.modJob_keep
    | with_reducible apply State.onJobCtrl_keep
    | with_reducible apply State.sendMapped_keep
    | with_reducible apply Keep.foldl
    | with_reducible apply KeepOut.next
    | with_reducible apply KeepOut.onlyIf
    | with_reducible exact KeepOut.refused
    | intro _
    | split
    | extract_lets

theorem State.takeTile_keep {r₀ : State} {s : State} (ctx rank : Nat) (f : Frame) (same : List Frame) (keep_s : Keep r₀ s) :
    KeepOpt r₀ (State.takeTile s ctx rank f same) := by
  unfold State.takeTile
  repeat' first
    | with_reducible assumption
    | with_reducible exact Keep.refl _
    | with_reducible apply State.modCtx_keep
    | with_reducible apply State.modLayout_keep
    | with_reducible apply State.oweCredits_keep
    | with_reducible apply State.modJob_keep
    | with_reducible apply State.overflow_keep
    | with_reducible apply Keep.foldl
    | with_reducible apply KeepOpt.foldl
    | with_reducible apply KeepExc.foldl
    | with_reducible apply KeepExcSnd.foldl
    | with_reducible exact KeepOpt.none
    | with_reducible apply KeepOpt.some
    | (refine KeepOpt.elim (by assumption) ?_)
    | intro _
    | split
    | dsimp only

theorem State.pumpTiles_keep {r₀ : State} (ctx n : Nat) {s : State} (h : Keep r₀ s) : Keep r₀ (State.pumpTiles ctx n s) := by
  induction n generalizing s with
  | zero => exact h
  | succ n ih =>
    unfold State.pumpTiles
    split
    · exact h
    · split
      · rename_i e
        refine ih (KeepOpt.elim e (KeepOpt.findSome (fun _ => ?_)))
        extract_lets
        split
        · exact KeepOpt.none
        · exact State.takeTile_keep _ _ _ _ h
      · exact h

theorem State.takeTiles_keep {r₀ : State} {s : State} (ctx : Nat) (keep_s : Keep r₀ s) :
    Keep r₀ (State.takeTiles s ctx) := by
  unfold State.takeTiles
  repeat' first
    | with_reducible assumption
    | with_reducible exact Keep.refl _
    | with_reducible apply State.pumpTiles_keep
    | intro _
    | split
    | extract_lets

theorem execTile_keep {r₀ : State} (port : Nat) (frame : Frame) (ok : Bool) {s : State} (keep_s : Keep r₀ s) :
    KeepOut r₀ (execTile port frame ok s) := by
  unfold execTile
  repeat' first
    | with_reducible assumption
    | with_reducible exact Keep.refl _
    | with_reducible apply State.onFrame_keep
    | with_reducible apply State.oweCredits_keep
    | with_reducible apply State.modJob_keep
    | with_reducible apply State.takeTiles_keep
    | with_reducible apply KeepOut.next
    | with_reducible apply KeepOut.onlyIf
    | with_reducible exact KeepOut.refused
    | with_reducible exact Nat.le_refl _
    | with_reducible exact id
    | exact fun h => Mgmt.wf_congr h rfl rfl rfl rfl rfl rfl
    | exact fun h => Tiers.wf_congr h rfl rfl
    | exact fun _ => rfl
    | intro _
    | split
    | extract_lets
    | (with_reducible apply Keep.upd)

theorem State.placeRead_keep {r₀ : State} {s : State} (p : FabricPlace) (n : Nat) (keep_s : Keep r₀ s) :
    Keep r₀ (State.placeRead s p n).2 := by
  cases p with
  | cluster cl off => exact State.freeNext_keep _ keep_s
  | window w off => exact keep_s
  | near fid off => exact keep_s
  | nothing => exact keep_s
  | malformed => exact keep_s

theorem State.fabricRead_keep {r₀ : State} {s : State} (ps : List (FabricPlace × Nat)) (keep_s : Keep r₀ s) :
    Keep r₀ (State.fabricRead s ps).2 :=
  Keep.foldlSnd keep_s (fun _ _ h => State.placeRead_keep _ _ h)

theorem State.placeWrite_keep {r₀ : State} {s : State} (p : FabricPlace) (bs : List Byte) (keep_s : Keep r₀ s) :
    Keep r₀ (State.placeWrite s p bs) := by
  unfold State.placeWrite
  repeat' first
    | with_reducible assumption
    | with_reducible exact Keep.refl _
    | with_reducible apply Keep.foldl
    | with_reducible exact Nat.le_refl _
    | (intro hi; first
      | exact cellsWf_cellWrite _ _ _ hi
      | exact Tiers.wf_upd hi (fun h => cellsWf_cellWrite _ _ _ h) id
      | exact Tiers.wf_upd hi id (fun h => cellsWf_cellWrite _ _ _ h)
      | exact cellsWf_foldl _ _ _ (fun m x h => cellsWf_cellWrite _ _ _ h) hi
      | exact Tiers.wf_upd hi (fun h => cellsWf_foldl _ _ _ (fun m x h => cellsWf_cellWrite _ _ _ h) h) id)
    | with_reducible exact id
    | exact fun h => Mgmt.wf_congr h rfl rfl rfl rfl rfl rfl
    | exact fun h => Tiers.wf_congr h rfl rfl
    | exact fun _ => rfl
    | intro _
    | split
    | extract_lets
    | (with_reducible apply Keep.upd)

theorem State.fabricWrite_keep {r₀ : State} {s : State} (ps : List (FabricPlace × Nat)) (bs : List Byte) (keep_s : Keep r₀ s) :
    Keep r₀ (State.fabricWrite s ps bs) :=
  Keep.foldlFst keep_s (fun _ _ h => State.placeWrite_keep _ _ h)

theorem State.memAnswer_keep {r₀ : State} {s : State} (f : Frame) (ty : Nat) (more : List Word) (payload : List Byte) (keep_s : Keep r₀ s) :
    Keep r₀ (State.memAnswer s f ty more payload) := by
  unfold State.memAnswer
  repeat' first
    | with_reducible assumption
    | with_reducible exact Keep.refl _
    | with_reducible apply State.sendAnswer_keep
    | intro _
    | split
    | extract_lets

theorem State.placeLost_keep {r₀ : State} {s : State} (p : FabricPlace) (keep_s : Keep r₀ s) :
    Keep r₀ (State.placeLost s p) := by
  unfold State.placeLost
  repeat' first
    | with_reducible assumption
    | with_reducible exact Keep.refl _
    | with_reducible apply State.report_keep
    | with_reducible apply State.setFrame_keep
    | with_reducible apply State.retireFrame_keep
    | with_reducible apply State.cmemFault_keep
    | intro _
    | split
    | extract_lets

theorem execMemRead_keep {r₀ : State} (port : Nat) (frame : Frame) (ok : Bool) (err : ReadErr) {s : State} (keep_s : Keep r₀ s) :
    KeepOut r₀ (execMemRead port frame ok err s) := by
  unfold execMemRead
  refine State.onFrame_keep _ _ _ _ _ keep_s (fun t h => ?_)
  generalize t.memRefusal frame = w
  cases w with
  | some r => exact State.memAnswer_keep _ _ _ _ h
  | none =>
    extract_lets p
    clear_value p
    have h1 := State.fabricRead_keep (t.fabricPlaces frame.addr (frame.tf 3 8 0)) h
    generalize t.placeIsland p = w
    obtain ⟨isl, cls, d⟩ := w
    generalize t.fabricRead (t.fabricPlaces frame.addr (frame.tf 3 8 0)) = w at h1
    obtain ⟨bs, t1⟩ := w
    have h2 := State.correctable_keep isl cls d h1
    cases err with
    | uncorrectable => exact State.memAnswer_keep _ _ _ _ (State.placeLost_keep _ h)
    | clean => exact State.memAnswer_keep _ _ _ _ (Keep.ite h2 h1)
    | corrected => exact State.memAnswer_keep _ _ _ _ (Keep.ite h2 h1)

theorem execMemWrite_keep {r₀ : State} (port : Nat) (frame : Frame) (ok : Bool) {s : State} (keep_s : Keep r₀ s) :
    KeepOut r₀ (execMemWrite port frame ok s) := by
  unfold execMemWrite
  repeat' first
    | with_reducible assumption
    | with_reducible exact Keep.refl _
    | with_reducible apply State.onFrame_keep
    | with_reducible apply State.fabricWrite_keep
    | with_reducible apply State.memAnswer_keep
    | with_reducible apply KeepOut.next
    | with_reducible apply KeepOut.onlyIf
    | with_reducible exact KeepOut.refused
    | intro _
    | split
    | extract_lets

theorem State.dropReq_keep {r₀ : State} {s : State} (r : PeerReq) (keep_s : Keep r₀ s) :
    Keep r₀ (State.dropReq s r) := by
  unfold State.dropReq
  repeat' first
    | with_reducible assumption
    | with_reducible exact Keep.refl _
    | with_reducible exact Nat.le_refl _
    | with_reducible exact id
    | exact fun h => Mgmt.wf_congr h rfl rfl rfl rfl rfl rfl
    | exact fun h => Tiers.wf_congr h rfl rfl
    | exact fun _ => rfl
    | intro _
    | split
    | extract_lets
    | (with_reducible apply Keep.upd)

theorem execMemData_keep {r₀ : State} (port : Nat) (frame : Frame) (ok : Bool) {s : State} (keep_s : Keep r₀ s) :
    KeepOut r₀ (execMemData port frame ok s) := by
  unfold execMemData
  refine State.onFrame_keep _ _ _ _ _ keep_s (fun t h => ?_)
  split
  · exact h
  · extract_lets t1
    have h1 : Keep r₀ t1 := State.dropReq_keep _ h
    clear_value t1
    split
    · exact Keep.upd h1 (Nat.le_refl _) id id (fun hi => Tiers.wf_upd hi id (fun m => cellsWf_cellWrite _ _ _ m)) id id
    · exact h1

theorem execMemDone_keep {r₀ : State} (port : Nat) (frame : Frame) (ok : Bool) {s : State} (keep_s : Keep r₀ s) :
    KeepOut r₀ (execMemDone port frame ok s) := by
  unfold execMemDone
  repeat' first
    | with_reducible assumption
    | with_reducible exact Keep.refl _
    | with_reducible apply State.onFrame_keep
    | with_reducible apply State.dropReq_keep
    | with_reducible apply KeepOut.next
    | with_reducible apply KeepOut.onlyIf
    | with_reducible exact KeepOut.refused
    | intro _
    | split
    | extract_lets

theorem execMemRefused_keep {r₀ : State} (port : Nat) (frame : Frame) (ok : Bool) {s : State} (keep_s : Keep r₀ s) :
    KeepOut r₀ (execMemRefused port frame ok s) := by
  unfold execMemRefused
  repeat' first
    | with_reducible assumption
    | with_reducible exact Keep.refl _
    | with_reducible apply State.invalidate_keep
    | with_reducible apply State.onFrame_keep
    | with_reducible apply State.teardown_keep
    | with_reducible apply State.resumeBlock_keep
    | with_reducible apply State.dropReq_keep
    | with_reducible apply KeepOut.next
    | with_reducible apply KeepOut.onlyIf
    | with_reducible exact KeepOut.refused
    | intro _
    | split
    | extract_lets

theorem State.resend_keep {r₀ : State} {s : State} (r : PeerReq) (k : Nat) (keep_s : Keep r₀ s) :
    Keep r₀ (State.resend s r k) := by
  unfold State.resend
  repeat' first
    | with_reducible assumption
    | with_reducible exact Keep.refl _
    | with_reducible apply State.sendOn_keep
    | with_reducible apply State.teardown_keep
    | with_reducible apply State.dropReq_keep
    | with_reducible exact Nat.le_refl _
    | with_reducible exact id
    | exact fun h => Mgmt.wf_congr h rfl rfl rfl rfl rfl rfl
    | exact fun h => Tiers.wf_congr h rfl rfl
    | exact fun _ => rfl
    | intro _
    | split
    | extract_lets
    | (with_reducible apply Keep.upd)

theorem execUnreachable_keep {r₀ : State} (port : Nat) (frame : Frame) (ok : Bool) {s : State} (keep_s : Keep r₀ s) :
    KeepOut r₀ (execUnreachable port frame ok s) := by
  unfold execUnreachable
  repeat' first
    | with_reducible assumption
    | with_reducible exact Keep.refl _
    | with_reducible apply State.onFrame_keep
    | with_reducible apply State.afterRoutes_keep
    | with_reducible apply State.resend_keep
    | with_reducible apply Keep.foldl
    | with_reducible apply KeepExcSnd.foldl
    | with_reducible apply KeepOpt.foldl
    | with_reducible apply KeepExc.foldl
    | with_reducible apply KeepOut.next
    | with_reducible apply KeepOut.onlyIf
    | with_reducible exact KeepOut.refused
    | with_reducible exact Nat.le_refl _
    | (intro hi; first
      | exact cellsWf_foldl _ _ _ (fun m x h => cellsWf_cellWrite _ _ _ h) hi
      | exact cellsWf_foldl _ _ _ (fun m x h => cellsWf_cellClear _ _ _ h) hi)
    | with_reducible exact id
    | exact fun h => Mgmt.wf_congr h rfl rfl rfl rfl rfl rfl
    | exact fun h => Tiers.wf_congr h rfl rfl
    | exact fun _ => rfl
    | intro _
    | split
    | extract_lets
    | (with_reducible apply Keep.upd)

theorem execPeerRequestTimeout_keep {r₀ : State} (request : Nat) {s : State} (keep_s : Keep r₀ s) :
    KeepOut r₀ (execPeerRequestTimeout request s) := by
  unfold execPeerRequestTimeout
  repeat' first
    | with_reducible assumption
    | with_reducible exact Keep.refl _
    | with_reducible apply State.teardown_keep
    | with_reducible apply State.dropReq_keep
    | with_reducible apply State.resend_keep
    | with_reducible apply KeepOut.next
    | with_reducible apply KeepOut.onlyIf
    | with_reducible exact KeepOut.refused
    | intro _
    | split
    | extract_lets

theorem State.onControl_keep {r₀ : State} {s : State} (port : Nat) (f : Frame) (ok : Bool) (sub : Nat) (g : State → Nat → Nat → Nat → State) (keep_s : Keep r₀ s) (keep_g : ∀ (x0 : State) (x1 : Nat) (x2 : Nat) (x3 : Nat), Keep r₀ x0 → Keep r₀ (g x0 x1 x2 x3)) :
    KeepOut r₀ (State.onControl s port f ok sub g) := by
  unfold State.onControl
  repeat' first
    | with_reducible assumption
    | with_reducible exact Keep.refl _
    | with_reducible apply keep_g
    | with_reducible apply State.onFrame_keep
    | with_reducible apply KeepOut.next
    | with_reducible apply KeepOut.onlyIf
    | with_reducible exact KeepOut.refused
    | intro _
    | split
    | extract_lets

theorem execLendRequest_keep {r₀ : State} (port : Nat) (frame : Frame) (ok : Bool) {s : State} (keep_s : Keep r₀ s) :
    KeepOut r₀ (execLendRequest port frame ok s) := by
  unfold execLendRequest
  repeat' first
    | with_reducible assumption
    | with_reducible exact Keep.refl _
    | with_reducible apply State.sendAnswer_keep
    | with_reducible apply State.onControl_keep
    | with_reducible apply KeepOut.next
    | with_reducible apply KeepOut.onlyIf
    | with_reducible exact KeepOut.refused
    | with_reducible exact Nat.le_refl _
    | with_reducible exact id
    | exact fun h => Mgmt.wf_congr h rfl rfl rfl rfl rfl rfl
    | exact fun h => Tiers.wf_congr h rfl rfl
    | exact fun _ => rfl
    | intro _
    | split
    | dsimp only
    | (with_reducible apply Keep.upd)

theorem State.lendAnswered_keep {r₀ : State} {s : State} (ctx chip count : Nat) (keep_s : Keep r₀ s) :
    Keep r₀ (State.lendAnswered s ctx chip count) := by
  unfold State.lendAnswered
  repeat' first
    | with_reducible assumption
    | with_reducible exact Keep.refl _
    | with_reducible apply State.dropReq_keep
    | intro _
    | split
    | extract_lets

theorem execLendGrant_keep {r₀ : State} (port : Nat) (frame : Frame) (ok : Bool) {s : State} (keep_s : Keep r₀ s) :
    KeepOut r₀ (execLendGrant port frame ok s) := by
  unfold execLendGrant
  repeat' first
    | with_reducible assumption
    | with_reducible exact Keep.refl _
    | with_reducible apply State.modCmd_keep
    | with_reducible apply State.done_keep
    | with_reducible apply State.setWork_keep
    | with_reducible apply State.lendReturn_keep
    | with_reducible apply State.onControl_keep
    | with_reducible apply State.lendAnswered_keep
    | with_reducible apply Keep.foldl
    | with_reducible apply KeepExcSnd.foldl
    | with_reducible apply KeepOpt.foldl
    | with_reducible apply KeepExc.foldl
    | with_reducible apply KeepOut.next
    | with_reducible apply KeepOut.onlyIf
    | with_reducible exact KeepOut.refused
    | with_reducible exact Nat.le_refl _
    | (intro hi; first
      | exact cellsWf_foldl _ _ _ (fun m x h => cellsWf_cellWrite _ _ _ h) hi
      | exact cellsWf_foldl _ _ _ (fun m x h => cellsWf_cellClear _ _ _ h) hi)
    | with_reducible exact id
    | exact fun h => Mgmt.wf_congr h rfl rfl rfl rfl rfl rfl
    | exact fun h => Tiers.wf_congr h rfl rfl
    | exact fun _ => rfl
    | intro _
    | split
    | extract_lets
    | (with_reducible apply Keep.upd)

theorem execLendRefusal_keep {r₀ : State} (port : Nat) (frame : Frame) (ok : Bool) {s : State} (keep_s : Keep r₀ s) :
    KeepOut r₀ (execLendRefusal port frame ok s) := by
  unfold execLendRefusal
  repeat' first
    | with_reducible assumption
    | with_reducible exact Keep.refl _
    | with_reducible apply State.endCmd_keep
    | with_reducible apply State.onControl_keep
    | with_reducible apply State.lendAnswered_keep
    | with_reducible apply KeepOut.next
    | with_reducible apply KeepOut.onlyIf
    | with_reducible exact KeepOut.refused
    | intro _
    | split
    | extract_lets

theorem execRecallNotice_keep {r₀ : State} (port : Nat) (frame : Frame) (ok : Bool) {s : State} (keep_s : Keep r₀ s) :
    KeepOut r₀ (execRecallNotice port frame ok s) := by
  unfold execRecallNotice
  repeat' first
    | with_reducible assumption
    | with_reducible exact Keep.refl _
    | with_reducible apply State.recallEntry_keep
    | with_reducible apply State.onControl_keep
    | with_reducible apply Keep.foldl
    | with_reducible apply KeepOut.next
    | with_reducible apply KeepOut.onlyIf
    | with_reducible exact KeepOut.refused
    | with_reducible exact Nat.le_refl _
    | with_reducible exact id
    | exact fun h => Mgmt.wf_congr h rfl rfl rfl rfl rfl rfl
    | exact fun h => Tiers.wf_congr h rfl rfl
    | exact fun _ => rfl
    | intro _
    | split
    | extract_lets
    | (with_reducible apply Keep.upd)

theorem execLendFrameRelease_keep {r₀ : State} (port : Nat) (frame : Frame) (ok : Bool) {s : State} (keep_s : Keep r₀ s) :
    KeepOut r₀ (execLendFrameRelease port frame ok s) := by
  unfold execLendFrameRelease
  repeat' first
    | with_reducible assumption
    | with_reducible exact Keep.refl _
    | with_reducible apply State.mapCmds_keep
    | with_reducible apply State.work_keep
    | with_reducible apply State.onControl_keep
    | with_reducible apply Keep.foldl
    | with_reducible apply KeepExcSnd.foldl
    | with_reducible apply KeepOpt.foldl
    | with_reducible apply KeepExc.foldl
    | with_reducible apply KeepOut.next
    | with_reducible apply KeepOut.onlyIf
    | with_reducible exact KeepOut.refused
    | with_reducible exact Nat.le_refl _
    | (intro hi; first
      | exact cellsWf_foldl _ _ _ (fun m x h => cellsWf_cellWrite _ _ _ h) hi
      | exact cellsWf_foldl _ _ _ (fun m x h => cellsWf_cellClear _ _ _ h) hi
      | exact Tiers.wf_upd hi (fun h => cellsWf_foldl _ _ _ (fun m x h => cellsWf_cellWrite _ _ _ h) h) id)
    | with_reducible exact id
    | exact fun h => Mgmt.wf_congr h rfl rfl rfl rfl rfl rfl
    | exact fun h => Tiers.wf_congr h rfl rfl
    | exact fun _ => rfl
    | intro _
    | split
    | extract_lets
    | (with_reducible apply Keep.upd)

theorem State.writeRoute_keep {r₀ : State} {s : State} (value : Word) (keep_s : Keep r₀ s) :
    Keep r₀ (State.writeRoute s value) := by
  unfold State.writeRoute
  repeat' first
    | with_reducible assumption
    | with_reducible exact Keep.refl _
    | with_reducible apply State.afterRoutes_keep
    | with_reducible exact Nat.le_refl _
    | with_reducible exact id
    | exact fun h => Mgmt.wf_congr h rfl rfl rfl rfl rfl rfl
    | exact fun h => Tiers.wf_congr h rfl rfl
    | exact fun _ => rfl
    | intro _
    | split
    | extract_lets
    | (with_reducible apply Keep.upd)

theorem execRouteDataWrite_keep {r₀ : State} (value : Word) {s : State} (keep_s : Keep r₀ s) :
    KeepOut r₀ (execRouteDataWrite value s) := by
  unfold execRouteDataWrite
  repeat' first
    | with_reducible assumption
    | with_reducible exact Keep.refl _
    | with_reducible apply onlyIf_keep
    | with_reducible apply State.writeRoute_keep
    | with_reducible apply KeepOut.next
    | with_reducible apply KeepOut.onlyIf
    | with_reducible exact KeepOut.refused
    | intro _
    | split
    | extract_lets

end Sys2Proof.Machine
end

