-- ==== Sys2Proof/Laws/KeepShowdown.lean ====
section
/-! SUPPORT. What the operations and meanings of Machine/Showdown.lean keep (`Keep`, Laws/Keep.lean). -/
set_option linter.all false

namespace Sys2Proof.Machine

theorem State.showItem_keep {r₀ : State} {s : State} (place : Nat) (g : Nat → Nat) (keep_s : Keep r₀ s) :
    Keep r₀ (State.showItem s place g) := by
  unfold State.showItem
  repeat' first
    | with_reducible assumption
    | with_reducible exact Keep.refl _
    | with_reducible exact Nat.le_refl _
    | with_reducible exact id
    | exact fun h => Mgmt.wf_congr h rfl rfl rfl rfl rfl rfl
    | exact fun h => Tiers.wf_congr h rfl rfl
    | exact fun _ => rfl
    | intro _
    | split
    | extract_lets
    | (with_reducible apply Keep.upd)

theorem State.showArrive_keep {r₀ : State} {s : State} (ctx lnum stn : Nat) (t : Tile) (keep_s : Keep r₀ s) :
    Keep r₀ (State.showArrive s ctx lnum stn t) := by
  unfold State.showArrive
  repeat' first
    | with_reducible assumption
    | with_reducible exact Keep.refl _
    | with_reducible apply State.showCheck_keep
    | with_reducible apply State.showItem_keep
    | with_reducible exact Nat.le_refl _
    | with_reducible exact id
    | exact fun h => Mgmt.wf_congr h rfl rfl rfl rfl rfl rfl
    | exact fun h => Tiers.wf_congr h rfl rfl
    | exact fun _ => rfl
    | intro _
    | split
    | extract_lets
    | (with_reducible apply Keep.upd)

theorem State.latchCore_keep {r₀ : State} {s : State} (core : Nat) (keep_s : Keep r₀ s) :
    Keep r₀ (State.latchCore s core) := by
  unfold State.latchCore
  repeat' first
    | with_reducible assumption
    | with_reducible exact Keep.refl _
    | with_reducible apply State.modCore_keep
    | with_reducible apply State.sendOut_keep
    | with_reducible apply Keep.foldl
    | with_reducible exact Nat.le_refl _
    | with_reducible exact id
    | exact fun h => Mgmt.wf_congr h rfl rfl rfl rfl rfl rfl
    | exact fun h => Tiers.wf_congr h rfl rfl
    | exact fun _ => rfl
    | intro _
    | split
    | extract_lets
    | (with_reducible apply Keep.upd)

theorem State.markSeen_keep {r₀ : State} {s : State} (core input : Nat) (keep_s : Keep r₀ s) :
    Keep r₀ (State.markSeen s core input) := by
  unfold State.markSeen
  repeat' first
    | with_reducible assumption
    | with_reducible exact Keep.refl _
    | with_reducible apply State.modCore_keep
    | intro _
    | split
    | extract_lets

theorem execShowdownTileArrive_keep {r₀ : State} (core port channel : Nat) {s : State} (keep_s : Keep r₀ s) :
    KeepOut r₀ (execShowdownTileArrive core port channel s) := by
  unfold execShowdownTileArrive
  repeat' first
    | with_reducible assumption
    | with_reducible exact Keep.refl _
    | with_reducible apply onlyIf_keep
    | with_reducible apply State.modCore_keep
    | with_reducible apply State.showCheck_keep
    | with_reducible apply State.sendOut_keep
    | with_reducible apply State.takeInput_keep
    | with_reducible apply State.latchCore_keep
    | with_reducible apply State.markSeen_keep
    | with_reducible apply Keep.foldl
    | with_reducible apply KeepOut.next
    | with_reducible apply KeepOut.onlyIf
    | with_reducible exact KeepOut.refused
    | intro _
    | split
    | dsimp only

theorem execShowdownCutTimeout_keep {r₀ : State} {s : State} (keep_s : Keep r₀ s) :
    KeepOut r₀ (execShowdownCutTimeout s) := by
  unfold execShowdownCutTimeout
  repeat' first
    | with_reducible assumption
    | with_reducible exact Keep.refl _
    | with_reducible apply onlyIf_keep
    | with_reducible apply State.showRecord_keep
    | with_reducible apply KeepOut.next
    | with_reducible apply KeepOut.onlyIf
    | with_reducible exact KeepOut.refused
    | with_reducible exact Nat.le_refl _
    | with_reducible exact id
    | exact fun h => Mgmt.wf_congr h rfl rfl rfl rfl rfl rfl
    | exact fun h => Tiers.wf_congr h rfl rfl
    | exact fun _ => rfl
    | intro _
    | split
    | extract_lets
    | (with_reducible apply Keep.upd)

theorem State.fire_keep {r₀ : State} {s : State} (a : Arming) (keep_s : Keep r₀ s) :
    Keep r₀ (State.fire s a) := by
  unfold State.fire
  repeat' first
    | with_reducible assumption
    | with_reducible exact Keep.refl _
    | with_reducible apply State.trigger_keep
    | with_reducible exact Nat.le_refl _
    | with_reducible exact id
    | exact fun h => Mgmt.wf_congr h rfl rfl rfl rfl rfl rfl
    | exact fun h => Tiers.wf_congr h rfl rfl
    | exact fun _ => rfl
    | intro _
    | split
    | extract_lets
    | (with_reducible apply Keep.upd)

theorem execShowdownPin_keep {r₀ : State} {s : State} (keep_s : Keep r₀ s) :
    KeepOut r₀ (execShowdownPin s) := by
  unfold execShowdownPin
  repeat' first
    | with_reducible assumption
    | with_reducible exact Keep.refl _
    | with_reducible apply onlyIf_keep
    | with_reducible apply State.fire_keep
    | with_reducible apply KeepOut.next
    | with_reducible apply KeepOut.onlyIf
    | with_reducible exact KeepOut.refused
    | intro _
    | split
    | extract_lets

theorem execShowdownCountMatch_keep {r₀ : State} {s : State} (keep_s : Keep r₀ s) :
    KeepOut r₀ (execShowdownCountMatch s) := by
  unfold execShowdownCountMatch
  repeat' first
    | with_reducible assumption
    | with_reducible exact Keep.refl _
    | with_reducible apply onlyIf_keep
    | with_reducible apply State.fire_keep
    | with_reducible apply KeepOut.next
    | with_reducible apply KeepOut.onlyIf
    | with_reducible exact KeepOut.refused
    | intro _
    | split
    | extract_lets

end Sys2Proof.Machine
end

