-- ==== Sys2Proof/Laws/KeepEngines.lean ====
section
/-! SUPPORT. What the operations and meanings of Machine/Engines.lean keep (`Keep`, Laws/Keep.lean). -/
set_option linter.all false

namespace Sys2Proof.Machine

theorem State.setKey_keep {r₀ : State} {s : State} (key : Nat) (v : Slot) (keep_s : Keep r₀ s) :
    Keep r₀ (State.setKey s key v) := by
  unfold State.setKey
  repeat' first
    | with_reducible assumption
    | with_reducible exact Keep.refl _
    | with_reducible exact Nat.le_refl _
    | with_reducible exact id
    | exact fun h => Mgmt.wf_congr h rfl rfl rfl rfl rfl rfl
    | exact fun h => Tiers.wf_congr h rfl rfl
    | exact fun _ => rfl
    | intro _
    | split
    | extract_lets
    | (with_reducible apply Keep.upd)

theorem State.closeStream_keep {r₀ : State} {s : State} (key : Nat) (v : Slot) (keep_s : Keep r₀ s) :
    Keep r₀ (State.closeStream s key v) := by
  unfold State.closeStream
  repeat' first
    | with_reducible assumption
    | with_reducible exact Keep.refl _
    | with_reducible apply State.endIfDone_keep
    | with_reducible apply State.setKey_keep
    | with_reducible exact Nat.le_refl _
    | with_reducible exact id
    | exact fun h => Mgmt.wf_congr h rfl rfl rfl rfl rfl rfl
    | exact fun h => Tiers.wf_congr h rfl rfl
    | exact fun _ => rfl
    | intro _
    | split
    | extract_lets
    | (with_reducible apply Keep.upd)

theorem State.unserved_keep {r₀ : State} {s : State} (key : Nat) (v : Slot) (r : Req) (keep_s : Keep r₀ s) :
    KeepOpt r₀ (State.unserved s key v r) := by
  unfold State.unserved
  repeat' first
    | with_reducible assumption
    | with_reducible exact Keep.refl _
    | with_reducible apply State.cause_keep
    | with_reducible apply State.fetchPeer_keep
    | with_reducible apply State.teardown_keep
    | with_reducible apply State.haltSlot_keep
    | with_reducible exact KeepOpt.none
    | with_reducible apply KeepOpt.some
    | with_reducible exact KeepExc.error
    | with_reducible apply KeepExc.ok
    | intro _
    | split
    | extract_lets

theorem State.malformedEntry_keep {r₀ : State} {s : State} (key : Nat) (v : Slot) (st entry : Nat) (keep_s : Keep r₀ s) :
    Keep r₀ (State.malformedEntry s key v st entry) := by
  unfold State.malformedEntry
  repeat' first
    | with_reducible assumption
    | with_reducible exact Keep.refl _
    | with_reducible apply State.modCmd_keep
    | with_reducible apply State.closeStream_keep
    | with_reducible apply KeepOpt.bind
    | with_reducible apply KeepOptSnd.bind
    | with_reducible apply KeepOpt.bindSnd
    | with_reducible apply KeepExc.bind
    | with_reducible apply KeepExc.bindSnd
    | with_reducible apply KeepExcSnd.bindSnd
    | with_reducible exact Nat.le_refl _
    | with_reducible exact id
    | exact fun h => Mgmt.wf_congr h rfl rfl rfl rfl rfl rfl
    | exact fun h => Tiers.wf_congr h rfl rfl
    | exact fun _ => rfl
    | intro _
    | split
    | extract_lets
    | (with_reducible apply Keep.upd)

theorem State.overflowAt_keep {r₀ : State} {s : State} (v : Slot) (code tag : Nat) (keep_s : Keep r₀ s) :
    Keep r₀ (State.overflowAt s v code tag) := by
  unfold State.overflowAt
  repeat' first
    | with_reducible assumption
    | with_reducible exact Keep.refl _
    | with_reducible apply State.overflow_keep
    | intro _
    | split
    | extract_lets

theorem State.takeIndices_keep {r₀ : State} {s : State} (key : Nat) (v : Slot) (keep_s : Keep r₀ s) :
    KeepOpt r₀ (State.takeIndices s key v) := by
  unfold State.takeIndices
  repeat' first
    | with_reducible assumption
    | with_reducible exact Keep.refl _
    | with_reducible apply State.modLayout_keep
    | with_reducible apply State.overflow_keep
    | with_reducible apply State.setKey_keep
    | with_reducible exact KeepOpt.none
    | with_reducible apply KeepOpt.some
    | (refine KeepOpt.elim (by assumption) ?_)
    | intro _
    | split
    | extract_lets

theorem State.stepDesc_keep {r₀ : State} {s : State} (key : Nat) (v : Slot) (keep_s : Keep r₀ s) :
    KeepOpt r₀ (State.stepDesc s key v) := by
  unfold State.stepDesc
  repeat' first
    | with_reducible assumption
    | with_reducible exact Keep.refl _
    | with_reducible apply State.countReads_keep
    | with_reducible apply State.indicate_keep
    | with_reducible apply State.endIfDone_keep
    | with_reducible apply State.setKey_keep
    | with_reducible apply State.closeStream_keep
    | with_reducible apply State.unserved_keep
    | with_reducible apply State.malformedEntry_keep
    | with_reducible apply State.overflowAt_keep
    | with_reducible apply State.takeIndices_keep
    | with_reducible apply Keep.foldl
    | with_reducible apply KeepOpt.foldl
    | with_reducible apply KeepExc.foldl
    | with_reducible apply KeepExcSnd.foldl
    | with_reducible exact KeepOpt.none
    | with_reducible apply KeepOpt.some
    | (refine KeepOpt.elim (by assumption) ?_)
    | intro _
    | split
    | extract_lets

theorem State.stepBuilt_keep {r₀ : State} {s : State} (key : Nat) (v : Slot) (keep_s : Keep r₀ s) :
    KeepOpt r₀ (State.stepBuilt s key v) := by
  unfold State.stepBuilt
  repeat' first
    | with_reducible assumption
    | with_reducible exact Keep.refl _
    | with_reducible apply State.countReads_keep
    | with_reducible apply State.setKey_keep
    | with_reducible apply State.closeStream_keep
    | with_reducible apply State.unserved_keep
    | with_reducible exact KeepOpt.none
    | with_reducible apply KeepOpt.some
    | (refine KeepOpt.elim (by assumption) ?_)
    | with_reducible apply KeepOpt.mapSnd
    | with_reducible apply KeepOptSnd.mapSnd
    | with_reducible apply KeepOpt.map
    | intro _
    | split
    | extract_lets

theorem State.deliverOut_keep {r₀ : State} {s : State} (key : Nat) (pos : Nat × Nat × Nat) (src : StreamSrc) (last : Bool) (keep_s : Keep r₀ s) :
    Keep r₀ (State.deliverOut s key pos src last) := by
  unfold State.deliverOut
  repeat' first
    | with_reducible assumption
    | with_reducible exact Keep.refl _
    | with_reducible apply State.modLayout_keep
    | with_reducible apply State.endIfDone_keep
    | with_reducible apply State.remark_keep
    | with_reducible apply State.setKey_keep
    | with_reducible exact Nat.le_refl _
    | with_reducible exact id
    | exact fun h => Mgmt.wf_congr h rfl rfl rfl rfl rfl rfl
    | exact fun h => Tiers.wf_congr h rfl rfl
    | exact fun _ => rfl
    | intro _
    | split
    | extract_lets
    | (with_reducible apply Keep.upd)

theorem State.stepWrite_keep {r₀ : State} {s : State} (key : Nat) (v : Slot) (t : Tile) (keep_s : Keep r₀ s) :
    KeepOpt r₀ (State.stepWrite s key v t) := by
  unfold State.stepWrite
  repeat' first
    | with_reducible assumption
    | with_reducible exact Keep.refl _
    | with_reducible apply State.writeCtx_keep
    | with_reducible apply State.endCmd_keep
    | with_reducible apply State.closeStream_keep
    | with_reducible apply State.unserved_keep
    | with_reducible apply State.malformedEntry_keep
    | with_reducible apply State.overflowAt_keep
    | with_reducible apply State.deliverOut_keep
    | with_reducible apply Keep.foldl
    | with_reducible apply KeepOpt.foldl
    | with_reducible apply KeepExc.foldl
    | with_reducible apply KeepExcSnd.foldl
    | with_reducible exact KeepOpt.none
    | with_reducible apply KeepOpt.some
    | (refine KeepOpt.elim (by assumption) ?_)
    | with_reducible apply KeepOpt.bind
    | with_reducible apply KeepOptSnd.bind
    | with_reducible apply KeepOpt.bindSnd
    | with_reducible apply KeepExc.bind
    | with_reducible apply KeepExc.bindSnd
    | with_reducible apply KeepExcSnd.bindSnd
    | with_reducible exact Nat.le_refl _
    | (intro hi; first
      | exact cellsWf_cellWrite _ _ _ hi
      | exact Tiers.wf_upd hi (fun h => cellsWf_cellWrite _ _ _ h) id
      | exact Tiers.wf_upd hi id (fun h => cellsWf_cellWrite _ _ _ h)
      | exact cellsWf_foldl _ _ _ (fun m x h => cellsWf_cellWrite _ _ _ h) hi
      | exact Tiers.wf_upd hi (fun h => cellsWf_foldl _ _ _ (fun m x h => cellsWf_cellWrite _ _ _ h) h) id)
    | with_reducible exact id
    | exact fun h => Mgmt.wf_congr h rfl rfl rfl rfl rfl rfl
    | exact fun h => Tiers.wf_congr h rfl rfl
    | exact fun _ => rfl
    | intro _
    | split
    | extract_lets
    | (with_reducible apply Keep.upd)

theorem State.modStep_keep {r₀ : State} {s : State} (v : Slot) (g : StepRun → StepRun) (keep_s : Keep r₀ s) :
    Keep r₀ (State.modStep s v g) := by
  unfold State.modStep
  repeat' first
    | with_reducible assumption
    | with_reducible exact Keep.refl _
    | with_reducible apply State.setStep_keep
    | intro _
    | split
    | extract_lets

theorem State.placeItem_keep {r₀ : State} {s : State} (v : Slot) (g : KvGeom) (st : StepRun) (it : KvItem) (keep_s : Keep r₀ s) :
    KeepOpt r₀ (State.placeItem s v g st it) := by
  unfold State.placeItem
  repeat' first
    | with_reducible assumption
    | with_reducible exact Keep.refl _
    | with_reducible apply State.withShadow_keep
    | with_reducible apply State.pokePage_keep
    | with_reducible apply Keep.foldl
    | with_reducible apply KeepOpt.foldl
    | with_reducible apply KeepExc.foldl
    | with_reducible apply KeepExcSnd.foldl
    | with_reducible exact KeepOpt.none
    | with_reducible apply KeepOpt.some
    | (refine KeepOpt.elim (by assumption) ?_)
    | with_reducible exact KeepOptSnd.none
    | with_reducible apply KeepOptSnd.some
    | (refine KeepOptSnd.elim (by assumption) ?_)
    | (refine KeepOptSnd.again (by assumption) ?_)
    | with_reducible apply KeepOpt.mapSnd
    | with_reducible apply KeepOptSnd.mapSnd
    | with_reducible apply KeepOpt.map
    | intro _
    | split
    | extract_lets

theorem State.stepKvOut_keep {r₀ : State} {s : State} (key : Nat) (v : Slot) (t : Tile) (keep_s : Keep r₀ s) :
    KeepOpt r₀ (State.stepKvOut s key v t) := by
  unfold State.stepKvOut
  repeat' first
    | with_reducible assumption
    | with_reducible exact Keep.refl _
    | with_reducible apply State.endCmd_keep
    | with_reducible apply State.setStep_keep
    | with_reducible apply State.closeStream_keep
    | with_reducible apply State.deliverOut_keep
    | with_reducible apply State.placeItem_keep
    | with_reducible apply Keep.foldl
    | with_reducible apply KeepOpt.foldl
    | with_reducible apply KeepExc.foldl
    | with_reducible apply KeepExcSnd.foldl
    | with_reducible exact KeepOpt.none
    | with_reducible apply KeepOpt.some
    | (refine KeepOpt.elim (by assumption) ?_)
    | with_reducible apply KeepOpt.mapSnd
    | with_reducible apply KeepOptSnd.mapSnd
    | with_reducible apply KeepOpt.map
    | intro _
    | split
    | extract_lets

theorem State.stepOut_keep {r₀ : State} {s : State} (key : Nat) (v : Slot) (t : Tile) (keep_s : Keep r₀ s) :
    KeepOpt r₀ (State.stepOut s key v t) := by
  unfold State.stepOut
  repeat' first
    | with_reducible assumption
    | with_reducible exact Keep.refl _
    | with_reducible apply State.routerTake_keep
    | with_reducible apply State.closeStream_keep
    | with_reducible apply State.deliverOut_keep
    | with_reducible apply State.stepWrite_keep
    | with_reducible apply State.modStep_keep
    | with_reducible apply State.stepKvOut_keep
    | with_reducible exact KeepOpt.none
    | with_reducible apply KeepOpt.some
    | (refine KeepOpt.elim (by assumption) ?_)
    | intro _
    | split
    | extract_lets

theorem State.streamStep_keep {r₀ : State} {s : State} (key : Nat) (v : Slot) (keep_s : Keep r₀ s) :
    KeepOpt r₀ (State.streamStep s key v) := by
  unfold State.streamStep
  repeat' first
    | with_reducible assumption
    | with_reducible exact Keep.refl _
    | with_reducible apply State.closeStream_keep
    | with_reducible apply State.stepDesc_keep
    | with_reducible apply State.stepBuilt_keep
    | with_reducible apply State.stepOut_keep
    | with_reducible exact KeepOpt.none
    | with_reducible apply KeepOpt.some
    | (refine KeepOpt.elim (by assumption) ?_)
    | intro _
    | split
    | extract_lets

theorem execStreamRequest_keep {r₀ : State} (cluster : Nat) {s : State} (keep_s : Keep r₀ s) :
    KeepOut r₀ (execStreamRequest cluster s) := by
  unfold execStreamRequest
  repeat' first
    | with_reducible assumption
    | with_reducible exact Keep.refl _
    | with_reducible apply State.takeTiles_keep
    | with_reducible apply State.streamStep_keep
    | with_reducible apply Keep.foldl
    | with_reducible apply KeepExcSnd.foldl
    | with_reducible apply KeepOpt.foldl
    | with_reducible apply KeepExc.foldl
    | with_reducible apply KeepOut.next
    | with_reducible apply KeepOut.onlyIf
    | with_reducible exact KeepOut.refused
    | with_reducible apply KeepOpt.getD
    | with_reducible apply KeepOpt.mapSnd
    | with_reducible apply KeepOptSnd.mapSnd
    | with_reducible apply KeepOpt.map
    | (refine KeepOpt.elim (by assumption) ?_)
    | intro _
    | split
    | extract_lets

theorem State.cmemLost_keep {r₀ : State} {s : State} (cl : Nat) (v : Slot) (keep_s : Keep r₀ s) :
    Keep r₀ (State.cmemLost s cl v) := by
  unfold State.cmemLost
  repeat' first
    | with_reducible assumption
    | with_reducible exact Keep.refl _
    | with_reducible apply State.report_keep
    | with_reducible apply State.teardown_keep
    | with_reducible apply State.cmemFault_keep
    | intro _
    | split
    | extract_lets

theorem State.returnErr_keep {r₀ : State} {s : State} (cl : Nat) (v : Slot) (reads : List (Nat × Nat)) (err : ReadErr) (piece : Nat) (keep_s : Keep r₀ s) :
    Keep r₀ (State.returnErr s cl v reads err piece).1 := by
  unfold State.returnErr
  repeat' first
    | with_reducible assumption
    | with_reducible exact Keep.refl _
    | with_reducible apply State.report_keep
    | with_reducible apply State.retireFrame_keep
    | with_reducible apply State.correctable_keep
    | with_reducible apply State.teardown_keep
    | with_reducible apply State.cmemLost_keep
    | intro _
    | split
    | extract_lets
    | with_reducible apply Keep.fstMk

theorem State.intoCmem_keep {r₀ : State} {s : State} (key : Nat) (v : Slot) (t : Tile) (keep_s : Keep r₀ s) :
    Keep r₀ (State.intoCmem s key v t) := by
  unfold State.intoCmem
  repeat' first
    | with_reducible assumption
    | with_reducible exact Keep.refl _
    | with_reducible apply State.modSlot_keep
    | with_reducible apply State.endIfDone_keep
    | with_reducible apply State.overflowAt_keep
    | with_reducible exact Nat.le_refl _
    | (intro hi; first
      | exact cellsWf_cellWrite _ _ _ hi
      | exact Tiers.wf_upd hi (fun h => cellsWf_cellWrite _ _ _ h) id
      | exact Tiers.wf_upd hi id (fun h => cellsWf_cellWrite _ _ _ h))
    | with_reducible exact id
    | exact fun h => Mgmt.wf_congr h rfl rfl rfl rfl rfl rfl
    | exact fun h => Tiers.wf_congr h rfl rfl
    | exact fun _ => rfl
    | intro _
    | split
    | extract_lets
    | (with_reducible apply Keep.upd)

theorem execStreamDataReturn_keep {r₀ : State} (cluster slot : Nat) (err : ReadErr) (piece : Nat) {s : State} (keep_s : Keep r₀ s) :
    KeepOut r₀ (execStreamDataReturn cluster slot err piece s) := by
  unfold execStreamDataReturn
  repeat' first
    | with_reducible assumption
    | with_reducible exact Keep.refl _
    | with_reducible apply State.modLayout_keep
    | with_reducible apply State.modSlot_keep
    | with_reducible apply State.endIfDone_keep
    | with_reducible apply State.remark_keep
    | with_reducible apply State.returnErr_keep
    | with_reducible apply State.intoCmem_keep
    | with_reducible apply KeepOut.next
    | with_reducible apply KeepOut.onlyIf
    | with_reducible exact KeepOut.refused
    | (refine Keep.ofFst (by assumption) ?_)
    | intro _
    | split
    | extract_lets

theorem State.cutStation_keep {r₀ : State} {s : State} (ctx lnum key : Nat) (l : Layout) (rest : List Tile) (keep_s : Keep r₀ s) :
    Keep r₀ (State.cutStation s ctx lnum key l rest) := by
  unfold State.cutStation
  repeat' first
    | with_reducible assumption
    | with_reducible exact Keep.refl _
    | with_reducible apply State.modCtx_keep
    | with_reducible apply State.modLayout_keep
    | with_reducible apply State.setLayout_keep
    | intro _
    | split
    | extract_lets

theorem execOutputTileArrive_keep {r₀ : State} (ctx layout station : Nat) {s : State} (keep_s : Keep r₀ s) :
    KeepOut r₀ (execOutputTileArrive ctx layout station s) := by
  unfold execOutputTileArrive
  repeat' first
    | with_reducible assumption
    | with_reducible exact Keep.refl _
    | with_reducible apply onlyIf_keep
    | with_reducible apply State.modCtx_keep
    | with_reducible apply State.modLayout_keep
    | with_reducible apply State.overflow_keep
    | with_reducible apply State.remark_keep
    | with_reducible apply State.sendMapped_keep
    | with_reducible apply State.showArrive_keep
    | with_reducible apply State.cutStation_keep
    | with_reducible apply KeepOut.next
    | with_reducible apply KeepOut.onlyIf
    | with_reducible exact KeepOut.refused
    | with_reducible apply KeepOpt.getD
    | with_reducible exact Nat.le_refl _
    | with_reducible exact id
    | exact fun h => Mgmt.wf_congr h rfl rfl rfl rfl rfl rfl
    | exact fun h => Tiers.wf_congr h rfl rfl
    | exact fun _ => rfl
    | intro _
    | split
    | extract_lets
    | (with_reducible apply Keep.upd)

end Sys2Proof.Machine
end

