-- ==== Sys2Proof/Laws/KeepPartitions.lean ====
section
/-! SUPPORT. What the operations and meanings of Machine/Partitions.lean keep (`Keep`, Laws/Keep.lean). -/
set_option linter.all false

namespace Sys2Proof.Machine

theorem execPlanSubmit_keep {r₀ : State} (f q n : Nat) (plan : List Word) {s : State} (keep_s : Keep r₀ s) :
    KeepOut r₀ (execPlanSubmit f q n plan s) := by
  unfold execPlanSubmit
  repeat' first
    | with_reducible assumption
    | with_reducible exact Keep.refl _
    | with_reducible apply State.finish_keep
    | with_reducible apply State.done_keep
    | with_reducible apply State.setWork_keep
    | with_reducible apply State.work_keep
    | with_reducible apply State.checked_keep
    | with_reducible apply KeepOut.next
    | with_reducible apply KeepOut.onlyIf
    | with_reducible exact KeepOut.refused
    | intro _
    | split
    | extract_lets

theorem State.resetQueues_keep {r₀ : State} {s : State} (p : Nat) (keep_s : Keep r₀ s) :
    Keep r₀ (State.resetQueues s p) := by
  unfold State.resetQueues
  repeat' first
    | with_reducible assumption
    | with_reducible exact Keep.refl _
    | with_reducible apply State.modFn_keep
    | with_reducible apply State.mapCmds_keep
    | with_reducible apply State.release_keep
    | with_reducible apply Keep.foldl
    | intro _
    | split
    | extract_lets

theorem State.scrubClusters_keep {r₀ : State} {s : State} (own : Nat → Bool) (keep_s : Keep r₀ s) :
    Keep r₀ (State.scrubClusters s own) := by
  unfold State.scrubClusters
  repeat' first
    | with_reducible assumption
    | with_reducible exact Keep.refl _
    | with_reducible apply State.correctable_keep
    | with_reducible exact Nat.le_refl _
    | (intro hi; first
      | exact cellsWf_filter _ _ hi)
    | with_reducible exact id
    | exact fun h => Mgmt.wf_congr h rfl rfl rfl rfl rfl rfl
    | exact fun h => Tiers.wf_congr h rfl rfl
    | exact fun _ => rfl
    | intro _
    | split
    | extract_lets
    | (with_reducible apply Keep.upd)

theorem State.freeBlockMap_keep {r₀ : State} {s : State} (p : Nat) (keep_s : Keep r₀ s) :
    Keep r₀ (State.freeBlockMap s p) := by
  unfold State.freeBlockMap
  repeat' first
    | with_reducible assumption
    | with_reducible exact Keep.refl _
    | with_reducible apply State.setFrame_keep
    | with_reducible apply State.lendReturn_keep
    | with_reducible apply Keep.foldl
    | with_reducible apply KeepExcSnd.foldl
    | with_reducible apply KeepOpt.foldl
    | with_reducible apply KeepExc.foldl
    | with_reducible exact Nat.le_refl _
    | (intro hi; first
      | exact cellsWf_foldl _ _ _ (fun m x h => cellsWf_cellWrite _ _ _ h) hi
      | exact cellsWf_foldl _ _ _ (fun m x h => cellsWf_cellClear _ _ _ h) hi
      | exact Tiers.wf_upd hi (fun h => cellsWf_foldl _ _ _ (fun m x h => cellsWf_cellWrite _ _ _ h) h) id)
    | with_reducible exact id
    | exact fun h => Mgmt.wf_congr h rfl rfl rfl rfl rfl rfl
    | exact fun h => Tiers.wf_congr h rfl rfl
    | exact fun _ => rfl
    | intro _
    | split
    | extract_lets
    | (with_reducible apply Keep.upd)

theorem State.beginPartReset_keep {r₀ : State} {s : State} (p : Nat) (keep_s : Keep r₀ s) :
    Keep r₀ (State.beginPartReset s p) := by
  unfold State.beginPartReset
  split
  · exact keep_s
  · extract_lets s1 ctxs s2 s3
    have h1 : Keep r₀ s1 := State.modPart_keep _ _ (State.resetQueues_keep _ keep_s)
    clear_value s1 ctxs
    have h2 : Keep r₀ s2 := by
      apply Keep.foldl h1
      intro u c h
      exact State.teardownBy_keep _ _ _ h
    clear_value s2
    have h3 : Keep r₀ s3 := State.freeBlockMap_keep _ (State.scrubClusters_keep _ h2)
    clear_value s3
    exact State.reapPark_keep (Keep.upd h3 (Nat.le_refl _) (fun hi => cellsWf_filter _ _ hi) id id id id)

theorem State.retryCheck_keep {r₀ : State} {s : State} (keep_s : Keep r₀ s) :
    Keep r₀ (State.retryCheck s) := by
  unfold State.retryCheck
  repeat' first
    | with_reducible assumption
    | with_reducible exact Keep.refl _
    | with_reducible exact Nat.le_refl _
    | with_reducible exact id
    | exact fun h => Mgmt.wf_congr h rfl rfl rfl rfl rfl rfl
    | exact fun h => Tiers.wf_congr h rfl rfl
    | exact fun _ => rfl
    | intro _
    | split
    | extract_lets
    | (with_reducible apply Keep.upd)

theorem State.resetFn_keep {r₀ : State} {s : State} (p : Nat) (keep_s : Keep r₀ s) :
    Keep r₀ (State.resetFn s p) := by
  unfold State.resetFn
  repeat' first
    | with_reducible assumption
    | with_reducible exact Keep.refl _
    | with_reducible apply State.modFn_keep
    | intro _
    | split
    | extract_lets

theorem execPartitionResetDone_keep {r₀ : State} (p : Nat) {s : State} (keep_s : Keep r₀ s) :
    KeepOut r₀ (execPartitionResetDone p s) := by
  unfold execPartitionResetDone
  repeat' first
    | with_reducible assumption
    | with_reducible exact Keep.refl _
    | with_reducible apply onlyIf_keep
    | with_reducible apply State.modPart_keep
    | with_reducible apply State.cause_keep
    | with_reducible apply State.retryCheck_keep
    | with_reducible apply State.resetFn_keep
    | with_reducible apply KeepOut.next
    | with_reducible apply KeepOut.onlyIf
    | with_reducible exact KeepOut.refused
    | with_reducible exact Nat.le_refl _
    | with_reducible exact id
    | exact fun h => Mgmt.wf_congr h rfl rfl rfl rfl rfl rfl
    | exact fun h => Tiers.wf_congr h rfl rfl
    | exact fun _ => rfl
    | intro _
    | split
    | extract_lets
    | (with_reducible apply Keep.upd)

theorem execPartReset_keep {r₀ : State} (value : Word) {s : State} (keep_s : Keep r₀ s) :
    KeepOut r₀ (execPartReset value s) := by
  unfold execPartReset
  repeat' first
    | with_reducible assumption
    | with_reducible exact Keep.refl _
    | with_reducible apply onlyIf_keep
    | with_reducible apply State.beginPartReset_keep
    | with_reducible apply KeepOut.next
    | with_reducible apply KeepOut.onlyIf
    | with_reducible exact KeepOut.refused
    | intro _
    | split
    | extract_lets

theorem State.resetMsix_keep {r₀ : State} {s : State} (f : Nat) (keep_s : Keep r₀ s) :
    Keep r₀ (State.resetMsix s f) := by
  unfold State.resetMsix
  repeat' first
    | with_reducible assumption
    | with_reducible exact Keep.refl _
    | with_reducible apply State.modFn_keep
    | with_reducible exact Nat.le_refl _
    | with_reducible exact id
    | exact fun h => Mgmt.wf_congr h rfl rfl rfl rfl rfl rfl
    | exact fun h => Tiers.wf_congr h rfl rfl
    | exact fun _ => rfl
    | intro _
    | split
    | extract_lets
    | (with_reducible apply Keep.upd)

theorem State.dropVfs_keep {r₀ : State} {s : State} (keep : Nat) (keep_s : Keep r₀ s) : Keep r₀ (State.dropVfs s keep) := by
  unfold State.dropVfs
  extract_lets gone s1
  have h1 : Keep r₀ s1 := Keep.foldl keep_s (fun u f h => State.beginPartReset_keep _ (State.resetMsix_keep _ h))
  clear_value s1
  exact Keep.upd h1 (Nat.le_refl _) id id id id id

theorem execFunctionLevelReset_keep {r₀ : State} (f : Nat) {s : State} (keep_s : Keep r₀ s) :
    KeepOut r₀ (execFunctionLevelReset f s) := by
  unfold execFunctionLevelReset
  refine KeepOut.onlyIf keep_s ?_
  split
  · extract_lets s1
    have h1 : Keep r₀ s1 := State.beginPartReset_keep _ (State.resetMsix_keep _ (State.dropVfs_keep _ keep_s))
    clear_value s1
    exact Keep.upd h1 (Nat.le_refl _) id id id id (fun h => Mgmt.wf_congr h rfl rfl rfl rfl rfl rfl)
  · exact State.beginPartReset_keep _ (State.resetMsix_keep _ keep_s)

theorem execVfRemoval_keep {r₀ : State} (numVfs : Nat) {s : State} (keep_s : Keep r₀ s) :
    KeepOut r₀ (execVfRemoval numVfs s) := by
  unfold execVfRemoval
  repeat' first
    | with_reducible assumption
    | with_reducible exact Keep.refl _
    | with_reducible apply onlyIf_keep
    | with_reducible apply State.dropVfs_keep
    | with_reducible apply KeepOut.next
    | with_reducible apply KeepOut.onlyIf
    | with_reducible exact KeepOut.refused
    | intro _
    | split
    | extract_lets

theorem execVfEnable_keep {r₀ : State} (numVfs : Nat) {s : State} (keep_s : Keep r₀ s) :
    KeepOut r₀ (execVfEnable numVfs s) := by
  unfold execVfEnable
  repeat' first
    | with_reducible assumption
    | with_reducible exact Keep.refl _
    | with_reducible apply onlyIf_keep
    | with_reducible apply KeepOut.next
    | with_reducible apply KeepOut.onlyIf
    | with_reducible exact KeepOut.refused
    | with_reducible exact Nat.le_refl _
    | with_reducible exact id
    | exact fun h => Mgmt.wf_congr h rfl rfl rfl rfl rfl rfl
    | exact fun h => Tiers.wf_congr h rfl rfl
    | exact fun _ => rfl
    | intro _
    | split
    | extract_lets
    | (with_reducible apply Keep.upd)

theorem State.endLends_keep {r₀ : State} {s : State} (keep_s : Keep r₀ s) :
    Keep r₀ (State.endLends s) := by
  unfold State.endLends
  repeat' first
    | with_reducible assumption
    | with_reducible exact Keep.refl _
    | with_reducible exact Nat.le_refl _
    | with_reducible exact id
    | exact fun h => Mgmt.wf_congr h rfl rfl rfl rfl rfl rfl
    | exact fun h => Tiers.wf_congr h rfl rfl
    | exact fun _ => rfl
    | intro _
    | split
    | extract_lets
    | (with_reducible apply Keep.upd)

theorem State.beginWarm_keep {r₀ : State} {s : State} (keep_s : Keep r₀ s) : Keep r₀ (State.beginWarm s) := by
  unfold State.beginWarm
  split
  · exact keep_s
  · extract_lets s1
    have h1 : Keep r₀ s1 := State.endLends_keep (Keep.foldl keep_s (fun u f h => State.beginPartReset_keep _ h))
    clear_value s1
    exact Keep.upd h1 (Nat.le_refl _) id id id id id

theorem execWarmReset_keep {r₀ : State} (value : Word) {s : State} (keep_s : Keep r₀ s) :
    KeepOut r₀ (execWarmReset value s) := by
  unfold execWarmReset
  repeat' first
    | with_reducible assumption
    | with_reducible exact Keep.refl _
    | with_reducible apply onlyIf_keep
    | with_reducible apply State.beginWarm_keep
    | with_reducible apply KeepOut.next
    | with_reducible apply KeepOut.onlyIf
    | with_reducible exact KeepOut.refused
    | intro _
    | split
    | extract_lets

theorem State.applyPlan_keep {r₀ : State} {s : State} (plan : List Word) (keep_s : Keep r₀ s) :
    Keep r₀ (State.applyPlan s plan) := by
  unfold State.applyPlan
  repeat' first
    | with_reducible assumption
    | with_reducible exact Keep.refl _
    | with_reducible apply Keep.foldl
    | with_reducible apply KeepExcSnd.foldl
    | with_reducible apply KeepOpt.foldl
    | with_reducible apply KeepExc.foldl
    | with_reducible exact Nat.le_refl _
    | (intro hi; first
      | exact cellsWf_foldl _ _ _ (fun m x h => cellsWf_cellWrite _ _ _ h) hi
      | exact cellsWf_foldl _ _ _ (fun m x h => cellsWf_cellClear _ _ _ h) hi)
    | with_reducible exact id
    | exact fun h => Mgmt.wf_congr h rfl rfl rfl rfl rfl rfl
    | exact fun h => Tiers.wf_congr h rfl rfl
    | exact fun _ => rfl
    | intro _
    | split
    | extract_lets
    | (with_reducible apply Keep.upd)

theorem State.clearStore_keep {r₀ : State} {s : State} (keep_s : Keep r₀ s) :
    Keep r₀ (State.clearStore s) := by
  unfold State.clearStore
  repeat' first
    | with_reducible assumption
    | with_reducible exact Keep.refl _
    | with_reducible apply State.checkpoint_keep
    | with_reducible apply Keep.foldl
    | with_reducible apply KeepExcSnd.foldl
    | with_reducible apply KeepOpt.foldl
    | with_reducible apply KeepExc.foldl
    | with_reducible exact Nat.le_refl _
    | (intro hi; first
      | exact cellsWf_foldl _ _ _ (fun m x h => cellsWf_cellWrite _ _ _ h) hi
      | exact cellsWf_foldl _ _ _ (fun m x h => cellsWf_cellClear _ _ _ h) hi)
    | with_reducible exact id
    | exact fun h => Mgmt.wf_congr h rfl rfl rfl rfl rfl rfl
    | exact fun h => Tiers.wf_congr h rfl rfl
    | exact fun _ => rfl
    | intro _
    | split
    | extract_lets
    | (with_reducible apply Keep.upd)

theorem State.fenceCores_keep {r₀ : State} {s : State} (keep_s : Keep r₀ s) :
    Keep r₀ (State.fenceCores s) := by
  unfold State.fenceCores
  repeat' first
    | with_reducible assumption
    | with_reducible exact Keep.refl _
    | with_reducible apply State.modCore_keep
    | with_reducible apply Keep.foldl
    | with_reducible apply KeepExcSnd.foldl
    | with_reducible apply KeepOpt.foldl
    | with_reducible apply KeepExc.foldl
    | with_reducible exact Nat.le_refl _
    | (intro hi; first
      | exact cellsWf_foldl _ _ _ (fun m x h => cellsWf_cellWrite _ _ _ h) hi
      | exact cellsWf_foldl _ _ _ (fun m x h => cellsWf_cellClear _ _ _ h) hi)
    | with_reducible exact id
    | exact fun h => Mgmt.wf_congr h rfl rfl rfl rfl rfl rfl
    | exact fun h => Tiers.wf_congr h rfl rfl
    | exact fun _ => rfl
    | intro _
    | split
    | extract_lets
    | (with_reducible apply Keep.upd)

theorem State.startCluster_keep {r₀ : State} {s : State} (cl : Nat) (keep_s : Keep r₀ s) :
    Keep r₀ (State.startCluster s cl) := by
  unfold State.startCluster
  repeat' first
    | with_reducible assumption
    | with_reducible exact Keep.refl _
    | with_reducible apply State.restartCluster_keep
    | intro _
    | split
    | extract_lets

theorem State.resetDone_keep {r₀ : State} {s : State} (warm : Bool) (keep_s : Keep r₀ s) :
    Keep r₀ (State.resetDone s warm) := by
  unfold State.resetDone
  repeat' first
    | with_reducible assumption
    | with_reducible exact Keep.refl _
    | with_reducible apply State.cause_keep
    | with_reducible apply Keep.foldl
    | with_reducible apply KeepExcSnd.foldl
    | with_reducible apply KeepOpt.foldl
    | with_reducible apply KeepExc.foldl
    | intro _
    | split
    | extract_lets

theorem Mgmt.persists_wf (m : Mgmt) (b : Bool) (l : List Nat) : (l.foldl (fun t c => t.persist b c 0) m).wf = m.wf := by
  induction l generalizing m with
  | nil => rfl
  | cons c l ih => rw [List.foldl_cons, ih, Mgmt.persist_wf]

theorem Mgmt.buildFences_wf (m : Mgmt) (cores clusters : List Nat) : (m.buildFences cores clusters).wf = m.wf := by
  unfold Mgmt.buildFences
  extract_lets gen live cs ls m1 m2
  have e2 : m2.wf = m1.wf := Mgmt.persists_wf _ _ _
  have e1 : m1.wf = m.wf := rfl
  rw [Mgmt.persists_wf, e2, e1]

theorem execWarmResetDone_keep {r₀ : State} {s : State} (keep_s : Keep r₀ s) : KeepOut r₀ (execWarmResetDone s) := by
  unfold execWarmResetDone
  refine KeepOut.onlyIf keep_s ?_
  extract_lets s1 s2 s3 s4 s5
  have h1 : Keep r₀ s1 := State.applyPlan_keep _ (Keep.foldl keep_s (fun u p h => Keep.ite (State.resetFn_keep _ h) h))
  clear_value s1
  have h2 : Keep r₀ s2 := State.clearStore_keep h1
  clear_value s2
  have h3 : Keep r₀ s3 := State.fenceCores_keep (Keep.upd h2 (Nat.le_refl _) id id id id
    (fun h => (Mgmt.buildFences_wf _ _ _).trans h))
  clear_value s3
  have h4 : Keep r₀ s4 := Keep.foldl h3 (fun u c h => State.stopCluster_keep _ h)
  clear_value s4
  have h5 : Keep r₀ s5 := Keep.ite (Keep.foldl h4 (fun u c h => State.startCluster_keep _ h)) h4
  clear_value s5
  exact State.retryCheck_keep (State.resetDone_keep _ h5)

end Sys2Proof.Machine
end

