-- ==== Sys2Proof/Laws/KeepPackage.lean ====
section
/-! SUPPORT. What the operations and meanings of Machine/Package.lean keep (`Keep`, Laws/Keep.lean). -/
set_option linter.all false

namespace Sys2Proof.Machine

theorem State.startIsland_keep {r₀ : State} {s : State} (k khz : Nat) (keep_s : Keep r₀ s) :
    Keep r₀ (State.startIsland s k khz) := by
  unfold State.startIsland
  repeat' first
    | with_reducible assumption
    | with_reducible exact Keep.refl _
    | with_reducible apply State.modIsl_keep
    | with_reducible apply State.timeNote_keep
    | with_reducible exact Nat.le_refl _
    | with_reducible exact id
    | exact fun h => Mgmt.wf_congr h rfl rfl rfl rfl rfl rfl
    | exact fun h => Tiers.wf_congr h rfl rfl
    | exact fun _ => rfl
    | intro _
    | split
    | extract_lets
    | (with_reducible apply Keep.upd)

theorem State.enterRecovery_keep {r₀ : State} {s : State} (keep_s : Keep r₀ s) : Keep r₀ (State.enterRecovery s) := by
  unfold State.enterRecovery
  refine Keep.upd keep_s (Nat.le_refl _) id id id id (fun h => ?_)
  rw [Mgmt.wf_iff] at *
  exact ⟨h.1, h.2.1, rfl, h.2.2.2⟩

theorem State.mgmtReport_keep {r₀ : State} {s : State} (keep_s : Keep r₀ s) :
    Keep r₀ (State.mgmtReport s) := by
  unfold State.mgmtReport
  repeat' first
    | with_reducible assumption
    | with_reducible exact Keep.refl _
    | with_reducible apply State.report_keep
    | intro _
    | split
    | extract_lets

theorem State.bootRom_keep {r₀ : State} {s : State} (keep_s : Keep r₀ s) : Keep r₀ (State.bootRom s) := by
  unfold State.bootRom
  split
  · exact State.enterRecovery_keep keep_s
  · rename_i fw lostFw _ e
    extract_lets src s1 s2
    have h1 : Keep r₀ s1 := Keep.upd keep_s (Nat.le_refl _) id id id id
      (fun h => Mgmt.slots_wf h (Slots.select_wf (Mgmt.wf_fw h) e) (Mgmt.wf_cfg h))
    clear_value s1
    have h2 : Keep r₀ s2 := Keep.ite (State.mgmtReport_keep h1) h1
    clear_value s2
    split
    · exact State.enterRecovery_keep h2
    · rename_i cfg lostCfg fell e2
      extract_lets s3
      have h3 : Keep r₀ s3 := Keep.upd h2 (Nat.le_refl _) id id id id
        (fun h => Mgmt.wf_congr (Mgmt.slots_wf h (Mgmt.wf_fw h) (Slots.select_wf (Mgmt.wf_cfg h) e2)) rfl rfl rfl rfl rfl rfl)
      clear_value s3
      exact Keep.ite (State.mgmtReport_keep h3) h3

theorem State.parkReport_keep {r₀ : State} {s : State} (keep_s : Keep r₀ s) :
    Keep r₀ (State.parkReport s) := by
  unfold State.parkReport
  repeat' first
    | with_reducible assumption
    | with_reducible exact Keep.refl _
    | with_reducible apply State.freeNext_keep
    | with_reducible apply State.reportTy_keep
    | intro _
    | split
    | extract_lets

theorem State.recoverStore_keep {r₀ : State} {s : State} (keep_s : Keep r₀ s) :
    Keep r₀ (State.recoverStore s) := by
  unfold State.recoverStore
  repeat' first
    | with_reducible assumption
    | with_reducible exact Keep.refl _
    | with_reducible apply State.checkpoint_keep
    | with_reducible apply Keep.foldl
    | with_reducible exact Nat.le_refl _
    | with_reducible exact id
    | exact fun h => Mgmt.wf_congr h rfl rfl rfl rfl rfl rfl
    | exact fun h => Tiers.wf_congr h rfl rfl
    | exact fun _ => rfl
    | intro _
    | split
    | extract_lets
    | (with_reducible apply Keep.upd)

theorem State.bootPort_keep {r₀ : State} {s : State} (b : BootFinds) (p : Nat) (keep_s : Keep r₀ s) :
    Keep r₀ (State.bootPort s b p) := by
  unfold State.bootPort
  repeat' first
    | with_reducible assumption
    | with_reducible exact Keep.refl _
    | with_reducible apply State.modPort_keep
    | with_reducible apply State.report_keep
    | with_reducible apply State.trained_keep
    | with_reducible apply KeepOpt.getD
    | with_reducible exact Nat.le_refl _
    | with_reducible exact id
    | exact fun h => Mgmt.wf_congr h rfl rfl rfl rfl rfl rfl
    | exact fun h => Tiers.wf_congr h rfl rfl
    | exact fun _ => rfl
    | intro _
    | split
    | extract_lets
    | (with_reducible apply Keep.upd)

theorem State.coldCore_keep {r₀ : State} {s : State} (keep_s : Keep r₀ s) :
    Keep r₀ (State.coldCore s) := by
  unfold State.coldCore
  repeat' first
    | with_reducible assumption
    | with_reducible exact Keep.refl _
    | with_reducible exact Nat.le_refl _
    | with_reducible exact id
    | exact fun h => Mgmt.wf_congr h rfl rfl rfl rfl rfl rfl
    | exact fun h => Tiers.wf_congr h rfl rfl
    | exact fun _ => rfl
    | intro _
    | split
    | extract_lets
    | (with_reducible apply Keep.upd)

theorem State.bootRest_keep {r₀ : State} {s : State} (b : BootFinds) (again : Bool) (keep_s : Keep r₀ s) :
    Keep r₀ (State.bootRest s b again) := by
  unfold State.bootRest
  split
  · exact Keep.upd keep_s (Nat.le_refl _) id id id id (fun h => Mgmt.wf_congr h rfl rfl rfl rfl rfl rfl)
  · extract_lets lw src1 src2 src3 s1 s2 s3 s4 s6 src4 s7
    have h1 : Keep r₀ s1 := Keep.upd keep_s (Nat.le_refl _) id id (fun h => Tiers.wf_congr h rfl rfl) id
      (fun h => (Mgmt.buildFences_wf _ _ _).trans h)
    clear_value s1
    have h2 : Keep r₀ s2 := State.recoverStore_keep (State.parkReport_keep h1)
    clear_value s2
    have h3 : Keep r₀ s3 := Keep.foldl (State.fenceCores_keep h2) (fun u p h => State.bootPort_keep _ _ h)
    clear_value s3
    have h4 : Keep r₀ s4 := Keep.foldl h3 (fun u p h => Keep.ite h (State.restartCluster_keep _ h))
    clear_value s4
    have h6 : Keep r₀ s6 := State.applyPlan_keep _ h4
    clear_value s6
    have h7 : Keep r₀ s7 := Keep.upd h6 (Nat.le_refl _) id id id id (fun h =>
      Mgmt.wf_congr (Mgmt.slots_wf h ((Slots.settle_wf _).trans (Mgmt.wf_fw h)) ((Slots.settle_wf _).trans (Mgmt.wf_cfg h)))
        rfl rfl rfl rfl rfl rfl)
    clear_value s7
    exact State.retryCheck_keep (Keep.ite (State.resetDone_keep _ h7) h7)

theorem State.releaseBoot_keep {r₀ : State} {s : State} (b : BootFinds) (keep_s : Keep r₀ s) :
    Keep r₀ (State.releaseBoot s b) := by
  unfold State.releaseBoot
  repeat' first
    | with_reducible assumption
    | with_reducible exact Keep.refl _
    | with_reducible apply State.modIsl_keep
    | with_reducible apply State.startIsland_keep
    | with_reducible apply State.coldCore_keep
    | with_reducible apply State.bootRest_keep
    | with_reducible apply Keep.foldl
    | with_reducible apply KeepExcSnd.foldl
    | with_reducible apply KeepOpt.foldl
    | with_reducible apply KeepExc.foldl
    | with_reducible exact Nat.le_refl _
    | (intro hi; first
      | exact cellsWf_foldl _ _ _ (fun m x h => cellsWf_cellWrite _ _ _ h) hi
      | exact cellsWf_foldl _ _ _ (fun m x h => cellsWf_cellClear _ _ _ h) hi)
    | with_reducible exact id
    | exact fun h => Mgmt.wf_congr h rfl rfl rfl rfl rfl rfl
    | exact fun h => Tiers.wf_congr h rfl rfl
    | exact fun _ => rfl
    | intro _
    | split
    | extract_lets
    | (with_reducible apply Keep.upd)

theorem State.release1_keep {r₀ : State} {s : State} (b : BootFinds) (keep_s : Keep r₀ s) :
    Keep r₀ (State.release1 s b) := by
  unfold State.release1
  repeat' first
    | with_reducible assumption
    | with_reducible exact Keep.refl _
    | with_reducible apply State.releaseBoot_keep
    | with_reducible exact Nat.le_refl _
    | with_reducible exact id
    | exact fun h => Mgmt.wf_congr h rfl rfl rfl rfl rfl rfl
    | exact fun h => Tiers.wf_congr h rfl rfl
    | exact fun _ => rfl
    | intro _
    | split
    | extract_lets
    | (with_reducible apply Keep.upd)

theorem execTcRelease_keep {r₀ : State} (finds : BootFinds) {s : State} (keep_s : Keep r₀ s) :
    KeepOut r₀ (execTcRelease finds s) := by
  unfold execTcRelease
  repeat' first
    | with_reducible assumption
    | with_reducible exact Keep.refl _
    | with_reducible apply onlyIf_keep
    | with_reducible apply State.release1_keep
    | with_reducible apply KeepOut.next
    | with_reducible apply KeepOut.onlyIf
    | with_reducible exact KeepOut.refused
    | with_reducible exact Nat.le_refl _
    | with_reducible exact id
    | exact fun h => Mgmt.wf_congr h rfl rfl rfl rfl rfl rfl
    | exact fun h => Tiers.wf_congr h rfl rfl
    | exact fun _ => rfl
    | intro _
    | split
    | extract_lets
    | (with_reducible apply Keep.upd)

theorem State.bootOn_keep {r₀ : State} {s : State} (keep_s : Keep r₀ s) :
    Keep r₀ (State.bootOn s) := by
  unfold State.bootOn
  repeat' first
    | with_reducible assumption
    | with_reducible exact Keep.refl _
    | with_reducible apply State.bootRom_keep
    | with_reducible apply State.release1_keep
    | intro _
    | split
    | extract_lets

theorem execStandbyPowerGood_keep {r₀ : State} {s : State} (keep_s : Keep r₀ s) :
    KeepOut r₀ (execStandbyPowerGood s) := by
  unfold execStandbyPowerGood
  repeat' first
    | with_reducible assumption
    | with_reducible exact Keep.refl _
    | with_reducible apply onlyIf_keep
    | with_reducible apply State.startIsland_keep
    | with_reducible apply State.bootOn_keep
    | with_reducible apply KeepOut.next
    | with_reducible apply KeepOut.onlyIf
    | with_reducible exact KeepOut.refused
    | with_reducible exact Nat.le_refl _
    | with_reducible exact id
    | exact fun h => Mgmt.wf_congr h rfl rfl rfl rfl rfl rfl
    | exact fun h => Tiers.wf_congr h rfl rfl
    | exact fun _ => rfl
    | intro _
    | split
    | extract_lets
    | (with_reducible apply Keep.upd)

theorem State.coldReset_keep {r₀ : State} {s : State} (keep_s : Keep r₀ s) : Keep r₀ (State.coldReset s) := by
  unfold State.coldReset
  refine keep_s.trans ⟨rfl, Nat.le_refl _, fun i => ⟨rfl, rfl, rfl, i.host, ?_⟩⟩
  have h := (Mgmt.wf_iff _).1 i.mgmt
  rw [Mgmt.wf_iff]
  exact ⟨rfl, rfl, rfl, h.2.2.2.1, h.2.2.2.2.1, Nat.zero_le _⟩

theorem execStandbyPowerLoss_keep {r₀ : State} {s : State} (keep_s : Keep r₀ s) :
    KeepOut r₀ (execStandbyPowerLoss s) := by
  unfold execStandbyPowerLoss
  repeat' first
    | with_reducible assumption
    | with_reducible exact Keep.refl _
    | with_reducible apply onlyIf_keep
    | with_reducible apply State.coldReset_keep
    | with_reducible apply KeepOut.next
    | with_reducible apply KeepOut.onlyIf
    | with_reducible exact KeepOut.refused
    | intro _
    | split
    | extract_lets

theorem execLocationRetry_keep {r₀ : State} (finds : BootFinds) {s : State} (keep_s : Keep r₀ s) :
    KeepOut r₀ (execLocationRetry finds s) := by
  unfold execLocationRetry
  repeat' first
    | with_reducible assumption
    | with_reducible exact Keep.refl _
    | with_reducible apply onlyIf_keep
    | with_reducible apply State.bootRest_keep
    | with_reducible apply KeepOut.next
    | with_reducible apply KeepOut.onlyIf
    | with_reducible exact KeepOut.refused
    | intro _
    | split
    | extract_lets

theorem execRailBringupTimeout_keep {r₀ : State} {s : State} (keep_s : Keep r₀ s) :
    KeepOut r₀ (execRailBringupTimeout s) := by
  unfold execRailBringupTimeout
  repeat' first
    | with_reducible assumption
    | with_reducible exact Keep.refl _
    | with_reducible apply onlyIf_keep
    | with_reducible apply State.report_keep
    | with_reducible apply KeepOut.next
    | with_reducible apply KeepOut.onlyIf
    | with_reducible exact KeepOut.refused
    | with_reducible exact Nat.le_refl _
    | with_reducible exact id
    | exact fun h => Mgmt.wf_congr h rfl rfl rfl rfl rfl rfl
    | exact fun h => Tiers.wf_congr h rfl rfl
    | exact fun _ => rfl
    | intro _
    | split
    | extract_lets
    | (with_reducible apply Keep.upd)

theorem State.offReq_keep {r₀ : State} {s : State} (keep_s : Keep r₀ s) :
    Keep r₀ (State.offReq s) := by
  unfold State.offReq
  repeat' first
    | with_reducible assumption
    | with_reducible exact Keep.refl _
    | with_reducible apply State.beginPartReset_keep
    | with_reducible apply State.coresOff_keep
    | with_reducible apply Keep.foldl
    | with_reducible apply KeepExcSnd.foldl
    | with_reducible apply KeepOpt.foldl
    | with_reducible apply KeepExc.foldl
    | with_reducible exact Nat.le_refl _
    | (intro hi; first
      | exact cellsWf_foldl _ _ _ (fun m x h => cellsWf_cellWrite _ _ _ h) hi
      | exact cellsWf_foldl _ _ _ (fun m x h => cellsWf_cellClear _ _ _ h) hi)
    | with_reducible exact id
    | exact fun h => Mgmt.wf_congr h rfl rfl rfl rfl rfl rfl
    | exact fun h => Tiers.wf_congr h rfl rfl
    | exact fun _ => rfl
    | intro _
    | split
    | extract_lets
    | (with_reducible apply Keep.upd)

theorem execTcOffReq_keep {r₀ : State} {s : State} (keep_s : Keep r₀ s) :
    KeepOut r₀ (execTcOffReq s) := by
  unfold execTcOffReq
  repeat' first
    | with_reducible assumption
    | with_reducible exact Keep.refl _
    | with_reducible apply onlyIf_keep
    | with_reducible apply State.offReq_keep
    | with_reducible apply KeepOut.next
    | with_reducible apply KeepOut.onlyIf
    | with_reducible exact KeepOut.refused
    | intro _
    | split
    | extract_lets

theorem execRecoveryImageWrite_keep {r₀ : State} (offset : Nat) (data : List Byte) {s : State} (keep_s : Keep r₀ s) :
    KeepOut r₀ (execRecoveryImageWrite offset data s) := by
  unfold execRecoveryImageWrite
  extract_lets m m1
  refine KeepOut.onlyIf keep_s ?_
  refine Keep.upd keep_s (Nat.le_refl _) id id id id (fun h => ?_)
  refine Mgmt.modSlots_wf _ ?_ (fun w => Slots.wf_upd w (fun c => cellsWf_cellWrite _ _ _ c) id)
    (fun w => Slots.wf_upd w (fun c => cellsWf_cellWrite _ _ _ c) id)
  rw [Mgmt.wf_iff] at *
  exact ⟨h.1, h.2.1, cellsWf_cellWrite _ _ _ h.2.2.1, h.2.2.2⟩

theorem execRecoveryImageEnd_keep {r₀ : State} (length : Nat) {s : State} (keep_s : Keep r₀ s) :
    KeepOut r₀ (execRecoveryImageEnd length s) := by
  unfold execRecoveryImageEnd
  repeat' first
    | with_reducible assumption
    | with_reducible exact Keep.refl _
    | with_reducible apply onlyIf_keep
    | with_reducible apply KeepOut.next
    | with_reducible apply KeepOut.onlyIf
    | with_reducible exact KeepOut.refused
    | with_reducible exact Nat.le_refl _
    | with_reducible exact id
    | exact fun h => Mgmt.wf_congr h rfl rfl rfl rfl rfl rfl
    | exact fun h => Tiers.wf_congr h rfl rfl
    | exact fun _ => rfl
    | intro _
    | split
    | extract_lets
    | (with_reducible apply Keep.upd)

theorem execRecoveryVerifyDone_keep {r₀ : State} {s : State} (keep_s : Keep r₀ s) : KeepOut r₀ (execRecoveryVerifyDone s) := by
  unfold execRecoveryVerifyDone
  extract_lets m kind a
  refine KeepOut.onlyIf keep_s ?_
  split
  · refine State.bootOn_keep (Keep.upd keep_s (Nat.le_refl _) id id id id (fun h => ?_))
    exact Mgmt.modSlots_wf _ (Mgmt.wf_congr h rfl rfl rfl rfl rfl rfl) (fun w => Slots.wf_congr w rfl rfl)
      (fun w => Slots.wf_congr w rfl rfl)
  · refine Keep.upd keep_s (Nat.le_refl _) id id id id (fun h => ?_)
    have h' := (Mgmt.wf_iff _).1 h
    rw [Mgmt.wf_iff]
    exact ⟨h'.1, h'.2.1, rfl, h'.2.2.2⟩

theorem execRecoveryOwnerKey_keep {r₀ : State} (key : List Byte) {s : State} (keep_s : Keep r₀ s) :
    KeepOut r₀ (execRecoveryOwnerKey key s) := by
  unfold execRecoveryOwnerKey
  repeat' first
    | with_reducible assumption
    | with_reducible exact Keep.refl _
    | with_reducible apply onlyIf_keep
    | with_reducible apply KeepOut.next
    | with_reducible apply KeepOut.onlyIf
    | with_reducible exact KeepOut.refused
    | with_reducible exact Nat.le_refl _
    | with_reducible exact id
    | exact fun h => Mgmt.wf_congr h rfl rfl rfl rfl rfl rfl
    | exact fun h => Tiers.wf_congr h rfl rfl
    | exact fun _ => rfl
    | intro _
    | split
    | extract_lets
    | (with_reducible apply Keep.upd)

theorem State.resetConfigSpace_keep {r₀ : State} {s : State} (keep_s : Keep r₀ s) :
    Keep r₀ (State.resetConfigSpace s) := by
  unfold State.resetConfigSpace
  repeat' first
    | with_reducible assumption
    | with_reducible exact Keep.refl _
    | with_reducible exact Nat.le_refl _
    | with_reducible exact id
    | exact fun h => Mgmt.wf_congr h rfl rfl rfl rfl rfl rfl
    | exact fun h => Tiers.wf_congr h rfl rfl
    | exact fun _ => rfl
    | intro _
    | split
    | extract_lets
    | (with_reducible apply Keep.upd)

theorem execPerstAssert_keep {r₀ : State} {s : State} (keep_s : Keep r₀ s) :
    KeepOut r₀ (execPerstAssert s) := by
  unfold execPerstAssert
  repeat' first
    | with_reducible assumption
    | with_reducible exact Keep.refl _
    | with_reducible apply onlyIf_keep
    | with_reducible apply State.beginPartReset_keep
    | with_reducible apply State.resetConfigSpace_keep
    | with_reducible apply Keep.foldl
    | with_reducible apply KeepExcSnd.foldl
    | with_reducible apply KeepOpt.foldl
    | with_reducible apply KeepExc.foldl
    | with_reducible apply KeepOut.next
    | with_reducible apply KeepOut.onlyIf
    | with_reducible exact KeepOut.refused
    | with_reducible exact Nat.le_refl _
    | (intro hi; first
      | exact cellsWf_foldl _ _ _ (fun m x h => cellsWf_cellWrite _ _ _ h) hi
      | exact cellsWf_foldl _ _ _ (fun m x h => cellsWf_cellClear _ _ _ h) hi)
    | with_reducible exact id
    | exact fun h => Mgmt.wf_congr h rfl rfl rfl rfl rfl rfl
    | exact fun h => Tiers.wf_congr h rfl rfl
    | exact fun _ => rfl
    | intro _
    | split
    | extract_lets
    | (with_reducible apply Keep.upd)

theorem execPerstDeassert_keep {r₀ : State} {s : State} (keep_s : Keep r₀ s) :
    KeepOut r₀ (execPerstDeassert s) := by
  unfold execPerstDeassert
  repeat' first
    | with_reducible assumption
    | with_reducible exact Keep.refl _
    | with_reducible apply onlyIf_keep
    | with_reducible apply State.retryCheck_keep
    | with_reducible apply KeepOut.next
    | with_reducible apply KeepOut.onlyIf
    | with_reducible exact KeepOut.refused
    | with_reducible exact Nat.le_refl _
    | with_reducible exact id
    | exact fun h => Mgmt.wf_congr h rfl rfl rfl rfl rfl rfl
    | exact fun h => Tiers.wf_congr h rfl rfl
    | exact fun _ => rfl
    | intro _
    | split
    | extract_lets
    | (with_reducible apply Keep.upd)

theorem execTestAccessPort_keep {r₀ : State} (ir : Nat) (tdi : List Bool) {s : State} (keep_s : Keep r₀ s) :
    KeepOut r₀ (execTestAccessPort ir tdi s) := by
  unfold execTestAccessPort
  repeat' first
    | with_reducible assumption
    | with_reducible exact Keep.refl _
    | with_reducible apply State.freeNext_keep
    | with_reducible apply KeepOut.next
    | with_reducible apply KeepOut.onlyIf
    | with_reducible exact KeepOut.refused
    | with_reducible exact Nat.le_refl _
    | with_reducible exact id
    | exact fun h => Mgmt.wf_congr h rfl rfl rfl rfl rfl rfl
    | exact fun h => Tiers.wf_congr h rfl rfl
    | exact fun _ => rfl
    | intro _
    | split
    | extract_lets
    | (with_reducible apply Keep.upd)

end Sys2Proof.Machine
end

