-- ==== Sys2Proof/Laws/KeepMgmt.lean ====
section
/-! SUPPORT. What the operations and meanings of Machine/Mgmt.lean keep (`Keep`, Laws/Keep.lean). -/
set_option linter.all false

namespace Sys2Proof.Machine

theorem State.startCorrelation_keep {r₀ : State} {s : State} (host own : Nat) (keep_s : Keep r₀ s) :
    Keep r₀ (State.startCorrelation s host own) := by
  unfold State.startCorrelation
  repeat' first
    | with_reducible assumption
    | with_reducible exact Keep.refl _
    | with_reducible apply State.logAppend_keep
    | with_reducible apply Keep.foldl
    | with_reducible exact Nat.le_refl _
    | with_reducible exact id
    | exact fun h => Mgmt.wf_congr h rfl rfl rfl rfl rfl rfl
    | exact fun h => Tiers.wf_congr h rfl rfl
    | exact fun _ => rfl
    | intro _
    | split
    | extract_lets
    | (with_reducible apply Keep.upd)

theorem execSupplyTime_keep {r₀ : State} (f q n : Nat) {s : State} (keep_s : Keep r₀ s) :
    KeepOut r₀ (execSupplyTime f q n s) := by
  unfold execSupplyTime
  repeat' first
    | with_reducible assumption
    | with_reducible exact Keep.refl _
    | with_reducible apply State.done_keep
    | with_reducible apply State.setWork_keep
    | with_reducible apply State.work_keep
    | with_reducible apply State.checked_keep
    | with_reducible apply State.startCorrelation_keep
    | with_reducible apply KeepOut.next
    | with_reducible apply KeepOut.onlyIf
    | with_reducible exact KeepOut.refused
    | intro _
    | split
    | extract_lets

theorem execCorrelationMarkerArrive_keep {r₀ : State} (island : Nat) {s : State} (keep_s : Keep r₀ s) :
    KeepOut r₀ (execCorrelationMarkerArrive island s) := by
  unfold execCorrelationMarkerArrive
  repeat' first
    | with_reducible assumption
    | with_reducible exact Keep.refl _
    | with_reducible apply onlyIf_keep
    | with_reducible apply State.modIsl_keep
    | with_reducible apply State.logAppend_keep
    | with_reducible apply KeepOut.next
    | with_reducible apply KeepOut.onlyIf
    | with_reducible exact KeepOut.refused
    | with_reducible exact Nat.le_refl _
    | with_reducible exact id
    | exact fun h => Mgmt.wf_congr h rfl rfl rfl rfl rfl rfl
    | exact fun h => Tiers.wf_congr h rfl rfl
    | exact fun _ => rfl
    | intro _
    | split
    | extract_lets
    | (with_reducible apply Keep.upd)

theorem State.fenceTested_keep {r₀ : State} {s : State} (cl : Nat) (cores : List Nat) (logic : Bool) (keep_s : Keep r₀ s) :
    Keep r₀ (State.fenceTested s cl cores logic) := by
  unfold State.fenceTested
  repeat' first
    | with_reducible assumption
    | with_reducible exact Keep.refl _
    | with_reducible apply State.fenceCore_keep
    | with_reducible apply State.loseCluster_keep
    | with_reducible apply Keep.foldl
    | intro _
    | split
    | extract_lets

theorem execSelfTest_keep {r₀ : State} (f q n : Nat) (result : TestResult) {s : State} (keep_s : Keep r₀ s) :
    KeepOut r₀ (execSelfTest f q n result s) := by
  unfold execSelfTest
  repeat' first
    | with_reducible assumption
    | with_reducible exact Keep.refl _
    | with_reducible apply State.done_keep
    | with_reducible apply State.setWork_keep
    | with_reducible apply State.work_keep
    | with_reducible apply State.checked_keep
    | with_reducible apply State.endCmd_keep
    | with_reducible apply State.fenceTested_keep
    | with_reducible apply KeepOut.next
    | with_reducible apply KeepOut.onlyIf
    | with_reducible exact KeepOut.refused
    | with_reducible apply KeepOpt.getD
    | with_reducible exact Nat.le_refl _
    | with_reducible exact id
    | exact fun h => Mgmt.wf_congr h rfl rfl rfl rfl rfl rfl
    | exact fun h => Tiers.wf_congr h rfl rfl
    | exact fun _ => rfl
    | intro _
    | split
    | extract_lets
    | (with_reducible apply Keep.upd)

theorem execMemoryRetrain_keep {r₀ : State} (f q n : Nat) (us : Nat) {s : State} (keep_s : Keep r₀ s) :
    KeepOut r₀ (execMemoryRetrain f q n us s) := by
  unfold execMemoryRetrain
  repeat' first
    | with_reducible assumption
    | with_reducible exact Keep.refl _
    | with_reducible apply State.done_keep
    | with_reducible apply State.setWork_keep
    | with_reducible apply State.work_keep
    | with_reducible apply State.checked_keep
    | with_reducible apply KeepOut.next
    | with_reducible apply KeepOut.onlyIf
    | with_reducible exact KeepOut.refused
    | with_reducible exact Nat.le_refl _
    | with_reducible exact id
    | exact fun h => Mgmt.wf_congr h rfl rfl rfl rfl rfl rfl
    | exact fun h => Tiers.wf_congr h rfl rfl
    | exact fun _ => rfl
    | intro _
    | split
    | extract_lets
    | (with_reducible apply Keep.upd)

theorem execRetrainTargetQuiet_keep {r₀ : State} (f q n : Nat) {s : State} (keep_s : Keep r₀ s) :
    KeepOut r₀ (execRetrainTargetQuiet f q n s) := by
  unfold execRetrainTargetQuiet
  repeat' first
    | with_reducible assumption
    | with_reducible exact Keep.refl _
    | with_reducible apply onlyIf_keep
    | with_reducible apply State.setWork_keep
    | with_reducible apply KeepOut.next
    | with_reducible apply KeepOut.onlyIf
    | with_reducible exact KeepOut.refused
    | with_reducible exact Nat.le_refl _
    | with_reducible exact id
    | exact fun h => Mgmt.wf_congr h rfl rfl rfl rfl rfl rfl
    | exact fun h => Tiers.wf_congr h rfl rfl
    | exact fun _ => rfl
    | intro _
    | split
    | extract_lets
    | (with_reducible apply Keep.upd)

theorem execRetrainWaitTimeout_keep {r₀ : State} (f q n : Nat) {s : State} (keep_s : Keep r₀ s) :
    KeepOut r₀ (execRetrainWaitTimeout f q n s) := by
  unfold execRetrainWaitTimeout
  repeat' first
    | with_reducible assumption
    | with_reducible exact Keep.refl _
    | with_reducible apply State.endCmd_keep
    | with_reducible apply KeepOut.next
    | with_reducible apply KeepOut.onlyIf
    | with_reducible exact KeepOut.refused
    | intro _
    | split
    | extract_lets

theorem execShowdown_keep {r₀ : State} (f q n : Nat) {s : State} (keep_s : Keep r₀ s) :
    KeepOut r₀ (execShowdown f q n s) := by
  unfold execShowdown
  repeat' first
    | with_reducible assumption
    | with_reducible exact Keep.refl _
    | with_reducible apply State.done_keep
    | with_reducible apply State.setWork_keep
    | with_reducible apply State.work_keep
    | with_reducible apply State.checked_keep
    | with_reducible apply State.trigger_keep
    | with_reducible apply State.endCmd_keep
    | with_reducible apply KeepOut.next
    | with_reducible apply KeepOut.onlyIf
    | with_reducible exact KeepOut.refused
    | intro _
    | split
    | extract_lets

theorem execShowdownArm_keep {r₀ : State} (f q n : Nat) {s : State} (keep_s : Keep r₀ s) :
    KeepOut r₀ (execShowdownArm f q n s) := by
  unfold execShowdownArm
  repeat' first
    | with_reducible assumption
    | with_reducible exact Keep.refl _
    | with_reducible apply State.done_keep
    | with_reducible apply State.work_keep
    | with_reducible apply State.checked_keep
    | with_reducible apply KeepOut.next
    | with_reducible apply KeepOut.onlyIf
    | with_reducible exact KeepOut.refused
    | intro _
    | split
    | extract_lets

theorem State.respond_keep {r₀ : State} {s : State} (result : Nat) (outs : List Nat) (payload : List Byte) (keep_s : Keep r₀ s) :
    Keep r₀ (State.respond s result outs payload) := by
  unfold State.respond
  extract_lets m w0 head
  refine State.cause_keep _ _ (Keep.upd keep_s (Nat.le_refl _) id id id id (fun h => ?_))
  have h' := (Mgmt.wf_iff _).1 h
  rw [Mgmt.wf_iff]
  exact ⟨h'.1, cellsWf_cellWrite _ _ _ h'.2.1, h'.2.2⟩

theorem State.refuse_keep {r₀ : State} {s : State} (result : Nat) (keep_s : Keep r₀ s) :
    Keep r₀ (State.refuse s result) := by
  unfold State.refuse
  repeat' first
    | with_reducible assumption
    | with_reducible exact Keep.refl _
    | with_reducible apply State.respond_keep
    | intro _
    | split
    | extract_lets

theorem State.refuseUnknown_keep {r₀ : State} {s : State} (keep_s : Keep r₀ s) :
    Keep r₀ (State.refuseUnknown s) := by
  unfold State.refuseUnknown
  repeat' first
    | with_reducible assumption
    | with_reducible exact Keep.refl _
    | with_reducible apply State.refuse_keep
    | intro _
    | split
    | extract_lets

theorem execMgmtWatchdogExpire_keep {r₀ : State} {s : State} (keep_s : Keep r₀ s) : KeepOut r₀ (execMgmtWatchdogExpire s) := by
  unfold execMgmtWatchdogExpire
  refine KeepOut.onlyIf keep_s ?_
  extract_lets cs s1 m s2
  have h1 : Keep r₀ s1 := Keep.foldl keep_s (fun u x h => State.endCmd_keep _ _ _ _ h)
  have hm : m = s1.mgmt := rfl
  clear_value m s1
  have hw : s1.Inv → m.wf = true := fun i => by rw [hm]; exact i.mgmt
  have h2 : Keep r₀ s2 := Keep.trans h1 ⟨rfl, Nat.le_refl _, fun i => ⟨i.cmem, i.sram, i.tiers, i.host,
    Mgmt.wf_congr (hw i) rfl rfl rfl rfl rfl rfl⟩⟩
  split
  · refine State.mgmtReport_keep (Keep.trans h1 ⟨rfl, Nat.le_refl _, fun i => ⟨i.cmem, i.sram, i.tiers, i.host, ?_⟩⟩)
    have h' := hw i
    exact Mgmt.slots_wf (Mgmt.wf_congr (n := s2.mgmt) h' rfl rfl rfl rfl rfl rfl) ((Slots.giveUp_wf _).trans (Mgmt.wf_fw h'))
      ((Slots.giveUp_wf _).trans (Mgmt.wf_cfg h'))
  · exact h2

theorem execMgmtServiceResume_keep {r₀ : State} {s : State} (keep_s : Keep r₀ s) :
    KeepOut r₀ (execMgmtServiceResume s) := by
  unfold execMgmtServiceResume
  repeat' first
    | with_reducible assumption
    | with_reducible exact Keep.refl _
    | with_reducible apply onlyIf_keep
    | with_reducible apply State.freeNext_keep
    | with_reducible apply State.logAppend_keep
    | with_reducible apply State.refuseUnknown_keep
    | with_reducible apply KeepOut.next
    | with_reducible apply KeepOut.onlyIf
    | with_reducible exact KeepOut.refused
    | with_reducible exact Nat.le_refl _
    | with_reducible exact id
    | exact fun h => Mgmt.wf_congr h rfl rfl rfl rfl rfl rfl
    | exact fun h => Tiers.wf_congr h rfl rfl
    | exact fun _ => rfl
    | intro _
    | split
    | extract_lets
    | (with_reducible apply Keep.upd)

theorem execErrorReport_keep {r₀ : State} (island cls code : Nat) (ctx : Option Nat) (detail : W64) {s : State} (keep_s : Keep r₀ s) :
    KeepOut r₀ (execErrorReport island cls code ctx detail s) := by
  unfold execErrorReport
  repeat' first
    | with_reducible assumption
    | with_reducible exact Keep.refl _
    | with_reducible apply onlyIf_keep
    | with_reducible apply State.reportTy_keep
    | with_reducible apply KeepOut.next
    | with_reducible apply KeepOut.onlyIf
    | with_reducible exact KeepOut.refused
    | intro _
    | split
    | extract_lets

theorem execErrorHubDrain_keep {r₀ : State} (island : Nat) {s : State} (keep_s : Keep r₀ s) :
    KeepOut r₀ (execErrorHubDrain island s) := by
  unfold execErrorHubDrain
  repeat' first
    | with_reducible assumption
    | with_reducible exact Keep.refl _
    | with_reducible apply State.modIsl_keep
    | with_reducible apply State.freeNext_keep
    | with_reducible apply State.logAppend_keep
    | with_reducible apply KeepOut.next
    | with_reducible apply KeepOut.onlyIf
    | with_reducible exact KeepOut.refused
    | with_reducible exact Nat.le_refl _
    | with_reducible exact id
    | exact fun h => Mgmt.wf_congr h rfl rfl rfl rfl rfl rfl
    | exact fun h => Tiers.wf_congr h rfl rfl
    | exact fun _ => rfl
    | intro _
    | split
    | extract_lets
    | (with_reducible apply Keep.upd)

theorem execSensorSample_keep {r₀ : State} (temps : List Int) (supplies currents volts : List Nat) {s : State} (keep_s : Keep r₀ s) :
    KeepOut r₀ (execSensorSample temps supplies currents volts s) := by
  unfold execSensorSample
  repeat' first
    | with_reducible assumption
    | with_reducible exact Keep.refl _
    | with_reducible apply onlyIf_keep
    | with_reducible apply KeepOut.next
    | with_reducible apply KeepOut.onlyIf
    | with_reducible exact KeepOut.refused
    | with_reducible exact Nat.le_refl _
    | with_reducible exact id
    | exact fun h => Mgmt.wf_congr h rfl rfl rfl rfl rfl rfl
    | exact fun h => Tiers.wf_congr h rfl rfl
    | exact fun _ => rfl
    | intro _
    | split
    | extract_lets
    | (with_reducible apply Keep.upd)

end Sys2Proof.Machine
end

