-- ==== Sys2Proof/Laws/KeepMailbox.lean ====
section
/-! SUPPORT. What the operations and meanings of Machine/Mailbox.lean keep (`Keep`, Laws/Keep.lean). -/
set_option linter.all false

namespace Sys2Proof.Machine

theorem State.serve_keep {r₀ : State} {s : State} (req : Nat) (g : Mgmt → State) (keep_s : Keep r₀ s)
    (keep_g : Keep r₀ (g s.mgmt)) : KeepOut r₀ (State.serve s req g) := by
  unfold State.serve
  repeat' first
    | with_reducible assumption
    | with_reducible exact Keep.refl _
    | with_reducible apply keep_g
    | with_reducible apply onlyIf_keep
    | with_reducible apply KeepOut.next
    | with_reducible apply KeepOut.onlyIf
    | with_reducible exact KeepOut.refused
    | intro _
    | split
    | extract_lets

theorem execInfo_keep {r₀ : State} {s : State} (keep_s : Keep r₀ s) :
    KeepOut r₀ (execInfo s) := by
  unfold execInfo
  repeat' first
    | with_reducible assumption
    | with_reducible exact Keep.refl _
    | with_reducible apply State.respond_keep
    | with_reducible apply State.serve_keep
    | with_reducible apply KeepOut.next
    | with_reducible apply KeepOut.onlyIf
    | with_reducible exact KeepOut.refused
    | intro _
    | split
    | extract_lets

theorem execLogRead_keep {r₀ : State} {s : State} (keep_s : Keep r₀ s) :
    KeepOut r₀ (execLogRead s) := by
  unfold execLogRead
  repeat' first
    | with_reducible assumption
    | with_reducible exact Keep.refl _
    | with_reducible apply State.respond_keep
    | with_reducible apply State.serve_keep
    | with_reducible apply State.refuse_keep
    | with_reducible apply KeepOut.next
    | with_reducible apply KeepOut.onlyIf
    | with_reducible exact KeepOut.refused
    | intro _
    | split
    | extract_lets

theorem execLogAck_keep {r₀ : State} {s : State} (keep_s : Keep r₀ s) :
    KeepOut r₀ (execLogAck s) := by
  unfold execLogAck
  repeat' first
    | with_reducible assumption
    | with_reducible exact Keep.refl _
    | with_reducible apply State.respond_keep
    | with_reducible apply State.serve_keep
    | with_reducible apply KeepOut.next
    | with_reducible apply KeepOut.onlyIf
    | with_reducible exact KeepOut.refused
    | with_reducible exact Nat.le_refl _
    | with_reducible exact id
    | exact fun h => Mgmt.wf_congr h rfl rfl rfl rfl rfl rfl
    | exact fun h => Tiers.wf_congr h rfl rfl
    | exact fun _ => rfl
    | intro _
    | split
    | extract_lets
    | (with_reducible apply Keep.upd)

theorem execFirstErrorRead_keep {r₀ : State} {s : State} (keep_s : Keep r₀ s) :
    KeepOut r₀ (execFirstErrorRead s) := by
  unfold execFirstErrorRead
  repeat' first
    | with_reducible assumption
    | with_reducible exact Keep.refl _
    | with_reducible apply State.modIsl_keep
    | with_reducible apply State.respond_keep
    | with_reducible apply State.serve_keep
    | with_reducible apply State.refuse_keep
    | with_reducible apply KeepOut.next
    | with_reducible apply KeepOut.onlyIf
    | with_reducible exact KeepOut.refused
    | with_reducible apply KeepOpt.getD
    | with_reducible exact Nat.le_refl _
    | with_reducible exact id
    | exact fun h => Mgmt.wf_congr h rfl rfl rfl rfl rfl rfl
    | exact fun h => Tiers.wf_congr h rfl rfl
    | exact fun _ => rfl
    | intro _
    | split
    | extract_lets
    | (with_reducible apply Keep.upd)

theorem execSensorRead_keep {r₀ : State} {s : State} (keep_s : Keep r₀ s) :
    KeepOut r₀ (execSensorRead s) := by
  unfold execSensorRead
  repeat' first
    | with_reducible assumption
    | with_reducible exact Keep.refl _
    | with_reducible apply State.respond_keep
    | with_reducible apply State.serve_keep
    | with_reducible apply KeepOut.next
    | with_reducible apply KeepOut.onlyIf
    | with_reducible exact KeepOut.refused
    | intro _
    | split
    | extract_lets

theorem execCounterRead_keep {r₀ : State} {s : State} (keep_s : Keep r₀ s) :
    KeepOut r₀ (execCounterRead s) := by
  unfold execCounterRead
  repeat' first
    | with_reducible assumption
    | with_reducible exact Keep.refl _
    | with_reducible apply State.respond_keep
    | with_reducible apply State.serve_keep
    | with_reducible apply State.refuse_keep
    | with_reducible apply KeepOut.next
    | with_reducible apply KeepOut.onlyIf
    | with_reducible exact KeepOut.refused
    | intro _
    | split
    | extract_lets

theorem execSnapshotRead_keep {r₀ : State} {s : State} (keep_s : Keep r₀ s) :
    KeepOut r₀ (execSnapshotRead s) := by
  unfold execSnapshotRead
  repeat' first
    | with_reducible assumption
    | with_reducible exact Keep.refl _
    | with_reducible apply State.respond_keep
    | with_reducible apply State.serve_keep
    | with_reducible apply State.refuse_keep
    | with_reducible apply KeepOut.next
    | with_reducible apply KeepOut.onlyIf
    | with_reducible exact KeepOut.refused
    | intro _
    | split
    | extract_lets

theorem execSnapshotRelease_keep {r₀ : State} {s : State} (keep_s : Keep r₀ s) :
    KeepOut r₀ (execSnapshotRelease s) := by
  unfold execSnapshotRelease
  repeat' first
    | with_reducible assumption
    | with_reducible exact Keep.refl _
    | with_reducible apply State.respond_keep
    | with_reducible apply State.serve_keep
    | with_reducible apply KeepOut.next
    | with_reducible apply KeepOut.onlyIf
    | with_reducible exact KeepOut.refused
    | with_reducible exact Nat.le_refl _
    | with_reducible exact id
    | exact fun h => Mgmt.wf_congr h rfl rfl rfl rfl rfl rfl
    | exact fun h => Tiers.wf_congr h rfl rfl
    | exact fun _ => rfl
    | intro _
    | split
    | extract_lets
    | (with_reducible apply Keep.upd)

theorem execUpdateWrite_keep {r₀ : State} {s : State} (keep_s : Keep r₀ s) : KeepOut r₀ (execUpdateWrite s) := by
  unfold execUpdateWrite
  refine State.serve_keep _ _ keep_s ?_
  dsimp only
  split
  · exact State.refuse_keep _ keep_s
  · refine State.respond_keep _ _ _ (Keep.upd keep_s (Nat.le_refl _) id id id id (fun h => ?_))
    have hx : (s.mgmt.slotsOf (s.mgmt.param 0)).wf = true := by
      unfold Mgmt.slotsOf
      split
      · exact Mgmt.wf_fw h
      · exact Mgmt.wf_cfg h
    exact Mgmt.modSlots_wf _ h (fun w => Slots.setCells_wf _ w (cellsWf_cellWrite _ _ _ (Slots.cells_wf _ hx)))
      (fun w => Slots.setCells_wf _ w (cellsWf_cellWrite _ _ _ (Slots.cells_wf _ hx)))

theorem execUpdateCommit_keep {r₀ : State} {s : State} (keep_s : Keep r₀ s) : KeepOut r₀ (execUpdateCommit s) := by
  unfold execUpdateCommit
  refine State.serve_keep _ _ keep_s ?_
  dsimp only
  repeat' first
    | with_reducible assumption
    | with_reducible apply State.refuse_keep
    | with_reducible apply State.respond_keep
    | split
    | exact Keep.upd keep_s (Nat.le_refl _) id id id id (fun h =>
        Mgmt.modSlots_wf _ h (fun w => Slots.wf_congr w rfl rfl) (fun w => Slots.wf_congr w rfl rfl))

theorem execFloorRaise_keep {r₀ : State} {s : State} (keep_s : Keep r₀ s) : KeepOut r₀ (execFloorRaise s) := by
  unfold execFloorRaise
  refine State.serve_keep _ _ keep_s ?_
  dsimp only
  repeat' first
    | with_reducible assumption
    | with_reducible apply State.refuse_keep
    | with_reducible apply State.respond_keep
    | split
    | exact Keep.upd keep_s (Nat.le_refl _) id id id id (fun h =>
        Mgmt.modSlots_wf _ h (fun w => Slots.wf_congr w rfl rfl) (fun w => Slots.wf_congr w rfl rfl))

theorem execOwnerSet_keep {r₀ : State} {s : State} (keep_s : Keep r₀ s) :
    KeepOut r₀ (execOwnerSet s) := by
  unfold execOwnerSet
  repeat' first
    | with_reducible assumption
    | with_reducible exact Keep.refl _
    | with_reducible apply State.respond_keep
    | with_reducible apply State.serve_keep
    | with_reducible apply State.refuse_keep
    | with_reducible apply KeepOut.next
    | with_reducible apply KeepOut.onlyIf
    | with_reducible exact KeepOut.refused
    | with_reducible exact Nat.le_refl _
    | with_reducible exact id
    | exact fun h => Mgmt.wf_congr h rfl rfl rfl rfl rfl rfl
    | exact fun h => Tiers.wf_congr h rfl rfl
    | exact fun _ => rfl
    | intro _
    | split
    | extract_lets
    | (with_reducible apply Keep.upd)

theorem execIdentity_keep {r₀ : State} {s : State} (keep_s : Keep r₀ s) :
    KeepOut r₀ (execIdentity s) := by
  unfold execIdentity
  repeat' first
    | with_reducible assumption
    | with_reducible exact Keep.refl _
    | with_reducible apply State.respond_keep
    | with_reducible apply State.serve_keep
    | with_reducible apply KeepOut.next
    | with_reducible apply KeepOut.onlyIf
    | with_reducible exact KeepOut.refused
    | intro _
    | split
    | extract_lets

theorem execAttest_keep {r₀ : State} {s : State} (keep_s : Keep r₀ s) :
    KeepOut r₀ (execAttest s) := by
  unfold execAttest
  repeat' first
    | with_reducible assumption
    | with_reducible exact Keep.refl _
    | with_reducible apply State.respond_keep
    | with_reducible apply State.serve_keep
    | with_reducible apply State.refuse_keep
    | with_reducible apply KeepOut.next
    | with_reducible apply KeepOut.onlyIf
    | with_reducible exact KeepOut.refused
    | intro _
    | split
    | extract_lets

theorem execDebugWindow_keep {r₀ : State} {s : State} (keep_s : Keep r₀ s) :
    KeepOut r₀ (execDebugWindow s) := by
  unfold execDebugWindow
  repeat' first
    | with_reducible assumption
    | with_reducible exact Keep.refl _
    | with_reducible apply State.respond_keep
    | with_reducible apply State.serve_keep
    | with_reducible apply State.refuse_keep
    | with_reducible apply KeepOut.next
    | with_reducible apply KeepOut.onlyIf
    | with_reducible exact KeepOut.refused
    | with_reducible exact Nat.le_refl _
    | with_reducible exact id
    | exact fun h => Mgmt.wf_congr h rfl rfl rfl rfl rfl rfl
    | exact fun h => Tiers.wf_congr h rfl rfl
    | exact fun _ => rfl
    | intro _
    | split
    | extract_lets
    | (with_reducible apply Keep.upd)

theorem State.readWindow_keep {r₀ : State} {s : State} (offset bytes : Nat) (keep_s : Keep r₀ s) :
    Keep r₀ (State.readWindow s offset bytes) := by
  unfold State.readWindow
  repeat' first
    | with_reducible assumption
    | with_reducible exact Keep.refl _
    | with_reducible apply State.freeNext_keep
    | with_reducible exact Nat.le_refl _
    | with_reducible exact id
    | exact fun h => Mgmt.wf_congr h rfl rfl rfl rfl rfl rfl
    | exact fun h => Tiers.wf_congr h rfl rfl
    | exact fun _ => rfl
    | intro _
    | split
    | extract_lets
    | (with_reducible apply Keep.upd)

theorem execDebugWindowRead_keep {r₀ : State} (offset bytes : Nat) {s : State} (keep_s : Keep r₀ s) :
    KeepOut r₀ (execDebugWindowRead offset bytes s) := by
  unfold execDebugWindowRead
  repeat' first
    | with_reducible assumption
    | with_reducible exact Keep.refl _
    | with_reducible apply onlyIf_keep
    | with_reducible apply State.readWindow_keep
    | with_reducible apply KeepOut.next
    | with_reducible apply KeepOut.onlyIf
    | with_reducible exact KeepOut.refused
    | intro _
    | split
    | extract_lets

theorem execFenceRead_keep {r₀ : State} {s : State} (keep_s : Keep r₀ s) :
    KeepOut r₀ (execFenceRead s) := by
  unfold execFenceRead
  repeat' first
    | with_reducible assumption
    | with_reducible exact Keep.refl _
    | with_reducible apply State.respond_keep
    | with_reducible apply State.serve_keep
    | with_reducible apply KeepOut.next
    | with_reducible apply KeepOut.onlyIf
    | with_reducible exact KeepOut.refused
    | intro _
    | split
    | extract_lets

theorem State.mbDoorbell_keep {r₀ : State} {s : State} (v : Nat) (keep_s : Keep r₀ s) :
    Keep r₀ (State.mbDoorbell s v) := by
  unfold State.mbDoorbell
  repeat' first
    | with_reducible assumption
    | with_reducible exact Keep.refl _
    | with_reducible apply State.refuseUnknown_keep
    | with_reducible exact Nat.le_refl _
    | with_reducible exact id
    | exact fun h => Mgmt.wf_congr h rfl rfl rfl rfl rfl rfl
    | exact fun h => Tiers.wf_congr h rfl rfl
    | exact fun _ => rfl
    | intro _
    | split
    | extract_lets
    | (with_reducible apply Keep.upd)

end Sys2Proof.Machine
end

