-- ==== Sys2Proof/Laws/KeepRegisters.lean ====
section
/-! SUPPORT. What the operations and meanings of Machine/Registers.lean keep (`Keep`, Laws/Keep.lean). -/
set_option linter.all false

namespace Sys2Proof.Machine

theorem State.unpend_keep {r₀ : State} {s : State} (f v : Nat) (keep_s : Keep r₀ s) :
    Keep r₀ (State.unpend s f v) := by
  unfold State.unpend
  repeat' first
    | with_reducible assumption
    | with_reducible exact Keep.refl _
    | with_reducible apply State.modVec_keep
    | with_reducible apply State.due_keep
    | with_reducible exact Nat.le_refl _
    | with_reducible exact id
    | exact fun h => Mgmt.wf_congr h rfl rfl rfl rfl rfl rfl
    | exact fun h => Tiers.wf_congr h rfl rfl
    | exact fun _ => rfl
    | intro _
    | split
    | extract_lets
    | (with_reducible apply Keep.upd)

theorem State.writeIntMask_keep {r₀ : State} {s : State} (f v : Nat) (keep_s : Keep r₀ s) :
    Keep r₀ (State.writeIntMask s f v) := by
  unfold State.writeIntMask
  repeat' first
    | with_reducible assumption
    | with_reducible exact Keep.refl _
    | with_reducible apply State.modFn_keep
    | with_reducible apply State.due_keep
    | with_reducible apply Keep.foldl
    | with_reducible apply KeepExcSnd.foldl
    | with_reducible apply KeepOpt.foldl
    | with_reducible apply KeepExc.foldl
    | with_reducible exact Nat.le_refl _
    | (intro hi; first
      | exact cellsWf_foldl _ _ _ (fun m x h => cellsWf_cellWrite _ _ _ h) hi
      | exact cellsWf_foldl _ _ _ (fun m x h => cellsWf_cellClear _ _ _ h) hi)
    | with_reducible exact id
    | exact fun h => Mgmt.wf_congr h rfl rfl rfl rfl rfl rfl
    | exact fun h => Tiers.wf_congr h rfl rfl
    | exact fun _ => rfl
    | intro _
    | split
    | extract_lets
    | (with_reducible apply Keep.upd)

theorem execIntMaskWrite_keep {r₀ : State} (f : Nat) (value : Word) {s : State} (keep_s : Keep r₀ s) :
    KeepOut r₀ (execIntMaskWrite f value s) := by
  unfold execIntMaskWrite
  repeat' first
    | with_reducible assumption
    | with_reducible exact Keep.refl _
    | with_reducible apply onlyIf_keep
    | with_reducible apply State.writeIntMask_keep
    | with_reducible apply KeepOut.next
    | with_reducible apply KeepOut.onlyIf
    | with_reducible exact KeepOut.refused
    | intro _
    | split
    | extract_lets

theorem State.writeFrCtrl_keep {r₀ : State} {s : State} (f v : Nat) (keep_s : Keep r₀ s) :
    Keep r₀ (State.writeFrCtrl s f v) := by
  unfold State.writeFrCtrl
  repeat' first
    | with_reducible assumption
    | with_reducible exact Keep.refl _
    | with_reducible apply State.modFn_keep
    | with_reducible apply State.cause_keep
    | with_reducible exact Nat.le_refl _
    | with_reducible exact id
    | exact fun h => Mgmt.wf_congr h rfl rfl rfl rfl rfl rfl
    | exact fun h => Tiers.wf_congr h rfl rfl
    | exact fun _ => rfl
    | intro _
    | split
    | extract_lets
    | (with_reducible apply Keep.upd)

theorem execFaultRingEnable_keep {r₀ : State} (f : Nat) (value : Word) {s : State} (keep_s : Keep r₀ s) :
    KeepOut r₀ (execFaultRingEnable f value s) := by
  unfold execFaultRingEnable
  repeat' first
    | with_reducible assumption
    | with_reducible exact Keep.refl _
    | with_reducible apply onlyIf_keep
    | with_reducible apply State.writeFrCtrl_keep
    | with_reducible apply KeepOut.next
    | with_reducible apply KeepOut.onlyIf
    | with_reducible exact KeepOut.refused
    | intro _
    | split
    | extract_lets

theorem State.writeFrHead_keep {r₀ : State} {s : State} (f v : Nat) (keep_s : Keep r₀ s) :
    Keep r₀ (State.writeFrHead s f v) := by
  unfold State.writeFrHead
  repeat' first
    | with_reducible assumption
    | with_reducible exact Keep.refl _
    | with_reducible apply State.modFn_keep
    | with_reducible apply State.cause_keep
    | with_reducible exact Nat.le_refl _
    | with_reducible exact id
    | exact fun h => Mgmt.wf_congr h rfl rfl rfl rfl rfl rfl
    | exact fun h => Tiers.wf_congr h rfl rfl
    | exact fun _ => rfl
    | intro _
    | split
    | extract_lets
    | (with_reducible apply Keep.upd)

theorem execFrHeadWrite_keep {r₀ : State} (f : Nat) (value : Word) {s : State} (keep_s : Keep r₀ s) :
    KeepOut r₀ (execFrHeadWrite f value s) := by
  unfold execFrHeadWrite
  repeat' first
    | with_reducible assumption
    | with_reducible exact Keep.refl _
    | with_reducible apply onlyIf_keep
    | with_reducible apply State.writeFrHead_keep
    | with_reducible apply KeepOut.next
    | with_reducible apply KeepOut.onlyIf
    | with_reducible exact KeepOut.refused
    | intro _
    | split
    | extract_lets

theorem State.writeQueue_keep {r₀ : State} {s : State} (f q off v : Nat) (keep_s : Keep r₀ s) :
    Keep r₀ (State.writeQueue s f q off v) := by
  unfold State.writeQueue
  repeat' first
    | with_reducible assumption
    | with_reducible exact Keep.refl _
    | with_reducible apply State.modQueue_keep
    | with_reducible apply State.writeControl_keep
    | with_reducible exact Nat.le_refl _
    | with_reducible exact id
    | exact fun h => Mgmt.wf_congr h rfl rfl rfl rfl rfl rfl
    | exact fun h => Tiers.wf_congr h rfl rfl
    | exact fun _ => rfl
    | intro _
    | split
    | extract_lets
    | (with_reducible apply Keep.upd)

theorem State.writePart_keep {r₀ : State} {s : State} (f off v : Nat) (keep_s : Keep r₀ s) :
    Keep r₀ (State.writePart s f off v) := by
  unfold State.writePart
  repeat' first
    | with_reducible assumption
    | with_reducible exact Keep.refl _
    | with_reducible apply State.modFn_keep
    | with_reducible apply State.writeIntMask_keep
    | with_reducible apply State.writeFrCtrl_keep
    | with_reducible apply State.writeFrHead_keep
    | with_reducible exact Nat.le_refl _
    | with_reducible exact id
    | exact fun h => Mgmt.wf_congr h rfl rfl rfl rfl rfl rfl
    | exact fun h => Tiers.wf_congr h rfl rfl
    | exact fun _ => rfl
    | intro _
    | split
    | extract_lets
    | (with_reducible apply Keep.upd)

theorem State.writeFn_keep {r₀ : State} {s : State} (f off v : Nat) (keep_s : Keep r₀ s) :
    Keep r₀ (State.writeFn s f off v) := by
  unfold State.writeFn
  repeat' first
    | with_reducible assumption
    | with_reducible exact Keep.refl _
    | with_reducible apply State.modVec_keep
    | with_reducible apply State.unpend_keep
    | with_reducible apply State.writeQueue_keep
    | with_reducible apply State.writePart_keep
    | intro _
    | split
    | extract_lets

theorem State.writeDoorbell_keep {r₀ : State} {s : State} (f off v : Nat) (keep_s : Keep r₀ s) :
    Keep r₀ (State.writeDoorbell s f off v) := by
  unfold State.writeDoorbell
  repeat' first
    | with_reducible assumption
    | with_reducible exact Keep.refl _
    | with_reducible apply State.writeSqTail_keep
    | with_reducible apply State.writeCqHead_keep
    | intro _
    | split
    | extract_lets

theorem State.writeGlobal_keep {r₀ : State} {s : State} (off v : Nat) (keep_s : Keep r₀ s) :
    Keep r₀ (State.writeGlobal s off v) := by
  unfold State.writeGlobal
  repeat' first
    | with_reducible assumption
    | with_reducible exact Keep.refl _
    | with_reducible apply State.writeRoute_keep
    | with_reducible apply State.beginPartReset_keep
    | with_reducible apply State.beginWarm_keep
    | with_reducible exact Nat.le_refl _
    | with_reducible exact id
    | exact fun h => Mgmt.wf_congr h rfl rfl rfl rfl rfl rfl
    | exact fun h => Tiers.wf_congr h rfl rfl
    | exact fun _ => rfl
    | intro _
    | split
    | extract_lets
    | (with_reducible apply Keep.upd)

theorem State.writeMailbox_keep {r₀ : State} {s : State} (off v : Nat) (keep_s : Keep r₀ s) :
    Keep r₀ (State.writeMailbox s off v) := by
  unfold State.writeMailbox
  repeat' first
    | with_reducible assumption
    | with_reducible exact Keep.refl _
    | with_reducible apply State.mbDoorbell_keep
    | with_reducible exact Nat.le_refl _
    | with_reducible exact id
    | exact fun h => Mgmt.wf_congr h rfl rfl rfl rfl rfl rfl
    | exact fun h => Tiers.wf_congr h rfl rfl
    | exact fun _ => rfl
    | intro _
    | split
    | extract_lets
    | (with_reducible apply Keep.upd)

theorem State.writeRequest_keep {r₀ : State} {s : State} (off : Nat) (bs : List Byte) (keep_s : Keep r₀ s) :
    Keep r₀ (State.writeRequest s off bs) := by
  unfold State.writeRequest
  extract_lets keep
  refine Keep.upd keep_s (Nat.le_refl _) id id id id (fun h => ?_)
  have h' := (Mgmt.wf_iff _).1 h
  rw [Mgmt.wf_iff]
  exact ⟨cellsWf_cellWrite _ _ _ h'.1, h'.2⟩

theorem State.writeI3c_keep {r₀ : State} {s : State} (index : Nat) (v : Word) (keep_s : Keep r₀ s) :
    Keep r₀ (State.writeI3c s index v) := by
  unfold State.writeI3c
  repeat' first
    | with_reducible assumption
    | with_reducible exact Keep.refl _
    | with_reducible apply State.writeHeartbeat_keep
    | with_reducible apply State.offReq_keep
    | with_reducible exact Nat.le_refl _
    | with_reducible exact id
    | exact fun h => Mgmt.wf_congr h rfl rfl rfl rfl rfl rfl
    | exact fun h => Tiers.wf_congr h rfl rfl
    | exact fun _ => rfl
    | intro _
    | split
    | extract_lets
    | (with_reducible apply Keep.upd)

theorem State.writeBar0_keep {r₀ : State} {s : State} (f off v : Nat) (keep_s : Keep r₀ s) :
    Keep r₀ (State.writeBar0 s f off v) := by
  unfold State.writeBar0
  repeat' first
    | with_reducible assumption
    | with_reducible exact Keep.refl _
    | with_reducible apply State.writeFn_keep
    | with_reducible apply State.writeGlobal_keep
    | intro _
    | split
    | extract_lets

theorem State.writeMsixControl_keep {r₀ : State} {s : State} (f v : Nat) (keep_s : Keep r₀ s) :
    Keep r₀ (State.writeMsixControl s f v) := by
  unfold State.writeMsixControl
  repeat' first
    | with_reducible assumption
    | with_reducible exact Keep.refl _
    | with_reducible apply State.modFn_keep
    | with_reducible apply State.unpend_keep
    | with_reducible apply Keep.foldl
    | with_reducible apply KeepExcSnd.foldl
    | with_reducible apply KeepOpt.foldl
    | with_reducible apply KeepExc.foldl
    | with_reducible exact Nat.le_refl _
    | (intro hi; first
      | exact cellsWf_foldl _ _ _ (fun m x h => cellsWf_cellWrite _ _ _ h) hi
      | exact cellsWf_foldl _ _ _ (fun m x h => cellsWf_cellClear _ _ _ h) hi)
    | with_reducible exact id
    | exact fun h => Mgmt.wf_congr h rfl rfl rfl rfl rfl rfl
    | exact fun h => Tiers.wf_congr h rfl rfl
    | exact fun _ => rfl
    | intro _
    | split
    | extract_lets
    | (with_reducible apply Keep.upd)

theorem State.halves_keep {r₀ : State} {s : State} (size off v : Nat) (w : State → Nat → Nat → State) (keep_s : Keep r₀ s) (keep_w : ∀ (x0 : State) (x1 : Nat) (x2 : Nat), Keep r₀ x0 → Keep r₀ (w x0 x1 x2)) :
    Keep r₀ (State.halves s size off v w) := by
  unfold State.halves
  repeat' first
    | with_reducible assumption
    | with_reducible exact Keep.refl _
    | with_reducible apply keep_w
    | intro _
    | split
    | extract_lets

theorem execRegisterWrite_keep {r₀ : State} (f bar off size : Nat) (value : W64) {s : State} (keep_s : Keep r₀ s) :
    KeepOut r₀ (execRegisterWrite f bar off size value s) := by
  unfold execRegisterWrite
  repeat' first
    | with_reducible assumption
    | with_reducible exact Keep.refl _
    | with_reducible apply onlyIf_keep
    | with_reducible apply State.writeDoorbell_keep
    | with_reducible apply State.writeMailbox_keep
    | with_reducible apply State.writeRequest_keep
    | with_reducible apply State.writeI3c_keep
    | with_reducible apply State.writeBar0_keep
    | with_reducible apply State.writeMsixControl_keep
    | with_reducible apply State.halves_keep
    | with_reducible apply KeepOut.next
    | with_reducible apply KeepOut.onlyIf
    | with_reducible exact KeepOut.refused
    | with_reducible exact Nat.le_refl _
    | with_reducible exact id
    | exact fun h => Mgmt.wf_congr h rfl rfl rfl rfl rfl rfl
    | exact fun h => Tiers.wf_congr h rfl rfl
    | exact fun _ => rfl
    | intro _
    | split
    | extract_lets
    | (with_reducible apply Keep.upd)

theorem State.readClears_keep {r₀ : State} {s : State} (f off : Nat) (keep_s : Keep r₀ s) :
    Keep r₀ (State.readClears s f off) := by
  unfold State.readClears
  repeat' first
    | with_reducible assumption
    | with_reducible exact Keep.refl _
    | with_reducible apply State.modFn_keep
    | with_reducible apply State.modPort_keep
    | with_reducible exact Nat.le_refl _
    | with_reducible exact id
    | exact fun h => Mgmt.wf_congr h rfl rfl rfl rfl rfl rfl
    | exact fun h => Tiers.wf_congr h rfl rfl
    | exact fun _ => rfl
    | intro _
    | split
    | extract_lets
    | (with_reducible apply Keep.upd)

theorem State.answer_keep {r₀ : State} {s : State} (v : Nat) (bs : List Byte) (keep_s : Keep r₀ s) :
    Keep r₀ (State.answer s v bs) := by
  unfold State.answer
  repeat' first
    | with_reducible assumption
    | with_reducible exact Keep.refl _
    | with_reducible exact Nat.le_refl _
    | with_reducible exact id
    | exact fun h => Mgmt.wf_congr h rfl rfl rfl rfl rfl rfl
    | exact fun h => Tiers.wf_congr h rfl rfl
    | exact fun _ => rfl
    | intro _
    | split
    | extract_lets
    | (with_reducible apply Keep.upd)

theorem execRegisterReadClear_keep {r₀ : State} (f bar off size : Nat) {s : State} (keep_s : Keep r₀ s) :
    KeepOut r₀ (execRegisterReadClear f bar off size s) := by
  unfold execRegisterReadClear
  repeat' first
    | with_reducible assumption
    | with_reducible exact Keep.refl _
    | with_reducible apply onlyIf_keep
    | with_reducible apply State.readWindow_keep
    | with_reducible apply State.halves_keep
    | with_reducible apply State.readClears_keep
    | with_reducible apply State.answer_keep
    | with_reducible apply KeepOut.next
    | with_reducible apply KeepOut.onlyIf
    | with_reducible exact KeepOut.refused
    | intro _
    | split
    | extract_lets

end Sys2Proof.Machine
end

