-- ==== Sys2Proof/Laws/KeepCommands.lean ====
section
/-! SUPPORT. What the operations and meanings of Machine/Commands.lean keep (`Keep`, Laws/Keep.lean). -/
set_option linter.all false

namespace Sys2Proof.Machine

theorem State.writeHands_keep {r₀ : State} {s : State} (ctx lnum passes : Nat) (tz : Bool) (keep_s : Keep r₀ s) :
    Keep r₀ (State.writeHands s ctx lnum passes tz) := by
  unfold State.writeHands
  repeat' first
    | with_reducible assumption
    | with_reducible exact Keep.refl _
    | with_reducible apply State.modCores_keep
    | with_reducible exact Nat.le_refl _
    | with_reducible exact id
    | exact fun h => Mgmt.wf_congr h rfl rfl rfl rfl rfl rfl
    | exact fun h => Tiers.wf_congr h rfl rfl
    | exact fun _ => rfl
    | intro _
    | split
    | extract_lets
    | (with_reducible apply Keep.upd)

theorem State.beginCmd_keep {r₀ : State} {s : State} (f q : Nat) (c : Cmd) (keep_s : Keep r₀ s) :
    Keep r₀ (State.beginCmd s f q c) := by
  unfold State.beginCmd
  repeat' first
    | with_reducible assumption
    | with_reducible exact Keep.refl _
    | with_reducible apply State.modFn_keep
    | with_reducible apply State.modCmd_keep
    | with_reducible apply State.setWork_keep
    | with_reducible apply State.modLayout_keep
    | with_reducible apply State.writeHands_keep
    | with_reducible exact Nat.le_refl _
    | with_reducible exact id
    | exact fun h => Mgmt.wf_congr h rfl rfl rfl rfl rfl rfl
    | exact fun h => Tiers.wf_congr h rfl rfl
    | exact fun _ => rfl
    | intro _
    | split
    | extract_lets
    | (with_reducible apply Keep.upd)

theorem State.preemptFor_keep {r₀ : State} {s : State} (f q : Nat) (c : Cmd) (lnum : Nat) (rs : List (Nat × Nat × Nat)) (keep_s : Keep r₀ s) :
    Keep r₀ (State.preemptFor s f q c lnum rs) := by
  unfold State.preemptFor
  repeat' first
    | with_reducible assumption
    | with_reducible exact Keep.refl _
    | with_reducible apply State.modCmd_keep
    | with_reducible apply State.preemptLayout_keep
    | with_reducible apply Keep.foldl
    | with_reducible apply KeepExcSnd.foldl
    | with_reducible apply KeepOpt.foldl
    | with_reducible apply KeepExc.foldl
    | with_reducible exact Nat.le_refl _
    | (intro hi; first
      | exact cellsWf_foldl _ _ _ (fun m x h => cellsWf_cellWrite _ _ _ h) hi
      | exact cellsWf_foldl _ _ _ (fun m x h => cellsWf_cellClear _ _ _ h) hi)
    | with_reducible exact id
    | exact fun h => Mgmt.wf_congr h rfl rfl rfl rfl rfl rfl
    | exact fun h => Tiers.wf_congr h rfl rfl
    | exact fun _ => rfl
    | intro _
    | split
    | extract_lets
    | (with_reducible apply Keep.upd)

theorem State.claimAndBegin_keep {r₀ : State} {s : State} (f q : Nat) (c : Cmd) (may : Bool) (keep_s : Keep r₀ s) :
    Keep r₀ (State.claimAndBegin s f q c may) := by
  unfold State.claimAndBegin
  repeat' first
    | with_reducible assumption
    | with_reducible exact Keep.refl _
    | with_reducible apply State.beginCmd_keep
    | with_reducible apply State.preemptFor_keep
    | intro _
    | split
    | extract_lets

theorem State.tryStart_keep {r₀ : State} {s : State} (f q : Nat) (c : Cmd) (may : Bool) (keep_s : Keep r₀ s) :
    Keep r₀ (State.tryStart s f q c may) := by
  unfold State.tryStart
  repeat' first
    | with_reducible assumption
    | with_reducible exact Keep.refl _
    | with_reducible apply State.awaitBlock_keep
    | with_reducible apply State.fetchPeer_keep
    | with_reducible apply State.endCmd_keep
    | with_reducible apply State.claimAndBegin_keep
    | intro _
    | split
    | extract_lets

theorem State.startAfter_keep {r₀ : State} {s : State} (f q : Nat) (c : Cmd) (errs : List MemErr) (may : Bool) (keep_s : Keep r₀ s) :
    Keep r₀ (State.startAfter s f q c errs may) := by
  unfold State.startAfter
  repeat' first
    | with_reducible assumption
    | with_reducible exact Keep.refl _
    | with_reducible apply State.countReads_keep
    | with_reducible apply State.readErrs_keep
    | with_reducible apply State.tryStart_keep
    | (refine Keep.ofFst (by assumption) ?_)
    | intro _
    | split
    | extract_lets

theorem execCommandStart_keep {r₀ : State} (f q n : Nat) (errs : List MemErr) {s : State} (keep_s : Keep r₀ s) :
    KeepOut r₀ (execCommandStart f q n errs s) := by
  unfold execCommandStart
  repeat' first
    | with_reducible assumption
    | with_reducible exact Keep.refl _
    | with_reducible apply onlyIf_keep
    | with_reducible apply State.finish_keep
    | with_reducible apply State.startAfter_keep
    | with_reducible apply KeepOut.next
    | with_reducible apply KeepOut.onlyIf
    | with_reducible exact KeepOut.refused
    | intro _
    | split
    | extract_lets

theorem execCommandRerun_keep {r₀ : State} (f q n : Nat) (errs : List MemErr) {s : State} (keep_s : Keep r₀ s) :
    KeepOut r₀ (execCommandRerun f q n errs s) := by
  unfold execCommandRerun
  repeat' first
    | with_reducible assumption
    | with_reducible exact Keep.refl _
    | with_reducible apply onlyIf_keep
    | with_reducible apply State.endCmd_keep
    | with_reducible apply State.startAfter_keep
    | with_reducible apply KeepOut.next
    | with_reducible apply KeepOut.onlyIf
    | with_reducible exact KeepOut.refused
    | intro _
    | split
    | extract_lets

theorem State.commitMap_keep {r₀ : State} {s : State} (f q : Nat) (c : Cmd) (keep_s : Keep r₀ s) :
    KeepCom r₀ (State.commitMap s f q c) := by
  unfold State.commitMap
  repeat' first
    | with_reducible assumption
    | with_reducible exact Keep.refl _
    | with_reducible apply State.writeMaps_keep
    | with_reducible apply State.keepMaps_keep
    | with_reducible exact KeepOpt.none
    | with_reducible apply KeepOpt.some
    | (refine KeepOpt.elim (by assumption) ?_)
    | with_reducible exact KeepCom.fail
    | with_reducible exact KeepCom.prep
    | with_reducible apply KeepCom.okOf
    | with_reducible apply KeepCom.waitOf
    | (refine KeepCom.ofOk (by assumption) ?_)
    | (refine KeepCom.ofWait (by assumption) ?_)
    | with_reducible apply KeepOpt.mapSnd
    | with_reducible apply KeepOptSnd.mapSnd
    | with_reducible apply KeepOpt.map
    | intro _
    | split
    | extract_lets

theorem State.commitUnmap_keep {r₀ : State} {s : State} (c : Cmd) (keep_s : Keep r₀ s) :
    KeepCom r₀ (State.commitUnmap s c) := by
  unfold State.commitUnmap
  repeat' first
    | with_reducible assumption
    | with_reducible exact Keep.refl _
    | with_reducible apply State.unmapEntry_keep
    | with_reducible apply Keep.foldl
    | with_reducible apply KeepOpt.foldl
    | with_reducible apply KeepExc.foldl
    | with_reducible apply KeepExcSnd.foldl
    | with_reducible exact KeepCom.fail
    | with_reducible exact KeepCom.prep
    | with_reducible apply KeepCom.okOf
    | with_reducible apply KeepCom.waitOf
    | (refine KeepCom.ofOk (by assumption) ?_)
    | (refine KeepCom.ofWait (by assumption) ?_)
    | intro _
    | split
    | extract_lets

theorem State.setHint_keep {r₀ : State} {s : State} (i hint : Nat) (keep_s : Keep r₀ s) :
    Keep r₀ (State.setHint s i hint) := by
  unfold State.setHint
  repeat' first
    | with_reducible assumption
    | with_reducible exact Keep.refl _
    | with_reducible apply State.bmMod_keep
    | with_reducible apply State.abandonMig_keep
    | intro _
    | split
    | extract_lets

theorem State.commitHints_keep {r₀ : State} {s : State} (f q : Nat) (c : Cmd) (mode hint : Nat) (keep_s : Keep r₀ s) :
    KeepCom r₀ (State.commitHints s f q c mode hint) := by
  unfold State.commitHints
  repeat' first
    | with_reducible assumption
    | with_reducible exact Keep.refl _
    | with_reducible apply State.awaitBlock_keep
    | with_reducible apply State.beginMove_keep
    | with_reducible apply State.setHint_keep
    | with_reducible apply Keep.foldl
    | with_reducible apply KeepOpt.foldl
    | with_reducible apply KeepExc.foldl
    | with_reducible apply KeepExcSnd.foldl
    | with_reducible exact KeepOpt.none
    | with_reducible apply KeepOpt.some
    | (refine KeepOpt.elim (by assumption) ?_)
    | with_reducible exact KeepCom.fail
    | with_reducible exact KeepCom.prep
    | with_reducible apply KeepCom.okOf
    | with_reducible apply KeepCom.waitOf
    | (refine KeepCom.ofOk (by assumption) ?_)
    | (refine KeepCom.ofWait (by assumption) ?_)
    | with_reducible apply KeepOpt.getD
    | with_reducible apply KeepOpt.findSome
    | with_reducible apply KeepOpt.bind
    | with_reducible apply KeepOptSnd.bind
    | with_reducible apply KeepOpt.bindSnd
    | with_reducible apply KeepExc.bind
    | with_reducible apply KeepExc.bindSnd
    | with_reducible apply KeepExcSnd.bindSnd
    | intro _
    | split
    | dsimp only

theorem State.commitQuota_keep {r₀ : State} {s : State} (c : Cmd) (tier blocks : Nat) (keep_s : Keep r₀ s) :
    KeepCom r₀ (State.commitQuota s c tier blocks) := by
  unfold State.commitQuota
  repeat' first
    | with_reducible assumption
    | with_reducible exact Keep.refl _
    | with_reducible apply State.modCtx_keep
    | with_reducible apply State.queueDemotions_keep
    | with_reducible exact KeepCom.fail
    | with_reducible apply KeepCom.okOf
    | with_reducible apply KeepCom.waitOf
    | with_reducible exact KeepExc.error
    | with_reducible apply KeepExc.ok
    | with_reducible exact Nat.le_refl _
    | with_reducible exact id
    | exact fun h => Mgmt.wf_congr h rfl rfl rfl rfl rfl rfl
    | exact fun h => Tiers.wf_congr h rfl rfl
    | exact fun _ => rfl
    | intro _
    | split
    | extract_lets
    | (with_reducible apply Keep.upd)

theorem State.dropBarrier_keep {r₀ : State} {s : State} (f q : Nat) (c : Cmd) (keep_s : Keep r₀ s) :
    Keep r₀ (State.dropBarrier s f q c) := by
  unfold State.dropBarrier
  repeat' first
    | with_reducible assumption
    | with_reducible exact Keep.refl _
    | with_reducible apply State.modCtx_keep
    | intro _
    | split
    | extract_lets

theorem State.commitLoad_keep {r₀ : State} {s : State} (c : Cmd) (keep_s : Keep r₀ s) :
    Keep r₀ (State.commitLoad s c) := by
  unfold State.commitLoad
  repeat' first
    | with_reducible assumption
    | with_reducible exact Keep.refl _
    | with_reducible apply State.work_keep
    | with_reducible apply State.noteBase_keep
    | intro _
    | split
    | extract_lets

theorem State.commitCreate_keep {r₀ : State} {s : State} (f : Nat) (c : Cmd) (keep_s : Keep r₀ s) :
    KeepCom r₀ (State.commitCreate s f c) := by
  unfold State.commitCreate
  repeat' first
    | with_reducible assumption
    | with_reducible exact Keep.refl _
    | with_reducible apply State.work_keep
    | with_reducible apply State.modCtx_keep
    | with_reducible exact KeepCom.fail
    | with_reducible apply KeepCom.okOf
    | with_reducible apply KeepCom.waitOf
    | with_reducible exact KeepExc.error
    | with_reducible apply KeepExc.ok
    | intro _
    | split
    | extract_lets

theorem State.commitTables_keep {r₀ : State} {s : State} (f q : Nat) (c : Cmd) (keep_s : Keep r₀ s) :
    KeepCom r₀ (State.commitTables s f q c) := by
  unfold State.commitTables
  repeat' first
    | with_reducible assumption
    | with_reducible exact Keep.refl _
    | with_reducible apply State.work_keep
    | with_reducible apply State.modCtx_keep
    | with_reducible apply State.modLayout_keep
    | with_reducible apply State.setLayout_keep
    | with_reducible apply State.resumeHalt_keep
    | with_reducible apply State.commitLookup_keep
    | with_reducible apply State.commitPark_keep
    | with_reducible apply State.commitUnpark_keep
    | with_reducible apply State.commitRelease_keep
    | with_reducible apply State.commitTtl_keep
    | with_reducible apply State.commitOpen_keep
    | with_reducible apply State.commitClose_keep
    | with_reducible apply State.commitPause_keep
    | with_reducible apply State.commitResume_keep
    | with_reducible apply State.commitCancel_keep
    | with_reducible apply State.commitStep_keep
    | with_reducible apply State.commitObject_keep
    | with_reducible apply State.commitDelete_keep
    | with_reducible apply State.commitAttach_keep
    | with_reducible apply State.commitDetach_keep
    | with_reducible apply State.commitBroadcast_keep
    | with_reducible apply State.commitRestore_keep
    | with_reducible apply State.commitJob_keep
    | with_reducible apply State.commitJobClose_keep
    | with_reducible apply State.commitMap_keep
    | with_reducible apply State.commitUnmap_keep
    | with_reducible apply State.commitHints_keep
    | with_reducible apply State.commitQuota_keep
    | with_reducible apply State.dropBarrier_keep
    | with_reducible apply State.commitLoad_keep
    | with_reducible apply State.commitCreate_keep
    | with_reducible exact KeepCom.fail
    | with_reducible exact KeepCom.prep
    | with_reducible apply KeepCom.okOf
    | with_reducible apply KeepCom.waitOf
    | (refine KeepCom.ofOk (by assumption) ?_)
    | (refine KeepCom.ofWait (by assumption) ?_)
    | (refine Keep.ofFst (by assumption) ?_)
    | with_reducible exact Nat.le_refl _
    | with_reducible exact id
    | exact fun h => Mgmt.wf_congr h rfl rfl rfl rfl rfl rfl
    | exact fun h => Tiers.wf_congr h rfl rfl
    | exact fun _ => rfl
    | intro _
    | split
    | extract_lets
    | (with_reducible apply Keep.upd)

theorem State.fillShadow_keep {r₀ : State} {s : State} (ctx b : Nat) (w : Shadow) (keep_s : Keep r₀ s) :
    Keep r₀ (State.fillShadow s ctx b w) := by
  unfold State.fillShadow
  repeat' first
    | with_reducible assumption
    | with_reducible exact Keep.refl _
    | with_reducible exact Nat.le_refl _
    | (intro hi; first
      | exact cellsWf_cellWrite _ _ _ hi
      | exact Tiers.wf_upd hi (fun h => cellsWf_cellWrite _ _ _ h) id)
    | with_reducible exact id
    | exact fun h => Mgmt.wf_congr h rfl rfl rfl rfl rfl rfl
    | exact fun h => Tiers.wf_congr h rfl rfl
    | exact fun _ => rfl
    | intro _
    | split
    | extract_lets
    | (with_reducible apply Keep.upd)

theorem State.switchShadow_keep {r₀ : State} {s : State} (ctx b : Nat) (w : Shadow) (keep_s : Keep r₀ s) :
    Keep r₀ (State.switchShadow s ctx b w) := by
  unfold State.switchShadow
  repeat' first
    | with_reducible assumption
    | with_reducible exact Keep.refl _
    | with_reducible apply State.bmChange_keep
    | with_reducible apply State.dropFrame_keep
    | with_reducible apply State.drainFrame_keep
    | with_reducible apply State.abandonMig_keep
    | with_reducible apply State.fillShadow_keep
    | with_reducible exact Nat.le_refl _
    | with_reducible exact id
    | exact fun h => Mgmt.wf_congr h rfl rfl rfl rfl rfl rfl
    | exact fun h => Tiers.wf_congr h rfl rfl
    | exact fun _ => rfl
    | intro _
    | split
    | extract_lets
    | (with_reducible apply Keep.upd)

theorem State.mergeShadows_keep {r₀ : State} {s : State} (f q : Nat) (c : Cmd) (keep_s : Keep r₀ s) :
    Keep r₀ (State.mergeShadows s f q c) := by
  unfold State.mergeShadows
  repeat' first
    | with_reducible assumption
    | with_reducible exact Keep.refl _
    | with_reducible apply State.modCmd_keep
    | with_reducible apply State.switchShadow_keep
    | with_reducible apply Keep.foldl
    | intro _
    | split
    | extract_lets

theorem State.beginPrep_keep {r₀ : State} {s : State} (f q : Nat) (c : Cmd) (shadows : Tbl Shadow) (keep_s : Keep r₀ s) :
    Keep r₀ (State.beginPrep s f q c shadows) := by
  unfold State.beginPrep
  repeat' first
    | with_reducible assumption
    | with_reducible exact Keep.refl _
    | with_reducible apply State.modPart_keep
    | with_reducible apply State.abandonMig_keep
    | with_reducible apply Keep.foldl
    | intro _
    | split
    | extract_lets

theorem State.prepOver_keep {r₀ : State} {s : State} (f q : Nat) (c : Cmd) (keep_s : Keep r₀ s) :
    Keep r₀ (State.prepOver s f q c) := by
  unfold State.prepOver
  repeat' first
    | with_reducible assumption
    | with_reducible exact Keep.refl _
    | with_reducible apply State.modPart_keep
    | with_reducible apply State.recallLate_keep
    | with_reducible apply Keep.foldl
    | intro _
    | split
    | extract_lets

theorem State.commitStepOf_keep {r₀ : State} {s : State} (f q : Nat) (c : Cmd) (keep_s : Keep r₀ s) :
    KeepCom r₀ (State.commitStepOf s f q c) := by
  unfold State.commitStepOf
  repeat' first
    | with_reducible assumption
    | with_reducible exact Keep.refl _
    | with_reducible apply State.fetchPeer_keep
    | with_reducible apply State.commitTables_keep
    | with_reducible apply State.mergeShadows_keep
    | with_reducible apply State.beginPrep_keep
    | with_reducible exact KeepCom.fail
    | with_reducible exact KeepCom.prep
    | with_reducible apply KeepCom.okOf
    | with_reducible apply KeepCom.waitOf
    | (refine KeepCom.ofOk (by assumption) ?_)
    | (refine KeepCom.ofWait (by assumption) ?_)
    | with_reducible apply KeepOpt.getD
    | with_reducible apply KeepOpt.findSome
    | intro _
    | split
    | extract_lets

theorem State.countRecord_keep {r₀ : State} {s : State} (f q : Nat) (eligible : Bool) (keep_s : Keep r₀ s) :
    Keep r₀ (State.countRecord s f q eligible) := by
  unfold State.countRecord
  repeat' first
    | with_reducible assumption
    | with_reducible exact Keep.refl _
    | with_reducible apply State.modQueue_keep
    | with_reducible apply State.due_keep
    | with_reducible exact Nat.le_refl _
    | with_reducible exact id
    | exact fun h => Mgmt.wf_congr h rfl rfl rfl rfl rfl rfl
    | exact fun h => Tiers.wf_congr h rfl rfl
    | exact fun _ => rfl
    | intro _
    | split
    | extract_lets
    | (with_reducible apply Keep.upd)

theorem State.stopOnError_keep {r₀ : State} {s : State} (f q status : Nat) (keep_s : Keep r₀ s) :
    Keep r₀ (State.stopOnError s f q status) := by
  unfold State.stopOnError
  repeat' first
    | with_reducible assumption
    | with_reducible exact Keep.refl _
    | with_reducible apply State.modQueue_keep
    | with_reducible apply State.cause_keep
    | with_reducible apply State.cancelCmd_keep
    | with_reducible apply Keep.foldl
    | with_reducible apply KeepExcSnd.foldl
    | with_reducible apply KeepOpt.foldl
    | with_reducible apply KeepExc.foldl
    | with_reducible exact Nat.le_refl _
    | (intro hi; first
      | exact cellsWf_foldl _ _ _ (fun m x h => cellsWf_cellWrite _ _ _ h) hi
      | exact cellsWf_foldl _ _ _ (fun m x h => cellsWf_cellClear _ _ _ h) hi)
    | with_reducible exact id
    | exact fun h => Mgmt.wf_congr h rfl rfl rfl rfl rfl rfl
    | exact fun h => Tiers.wf_congr h rfl rfl
    | exact fun _ => rfl
    | intro _
    | split
    | extract_lets
    | (with_reducible apply Keep.upd)

theorem State.writeRecord_keep {r₀ : State} {s : State} (f q : Nat) (c : Cmd) (made : Option Nat) (keep_s : Keep r₀ s) :
    Keep r₀ (State.writeRecord s f q c made) := by
  unfold State.writeRecord
  repeat' first
    | with_reducible assumption
    | with_reducible exact Keep.refl _
    | with_reducible apply State.modQueue_keep
    | with_reducible apply State.modPart_keep
    | with_reducible apply State.countRecord_keep
    | with_reducible apply State.stopOnError_keep
    | with_reducible exact Nat.le_refl _
    | (intro hi; first
      | exact cellsWf_cellWrite _ _ _ hi
      | exact Tiers.wf_upd hi (fun h => cellsWf_cellWrite _ _ _ h) id
      | exact Tiers.wf_upd hi id (fun h => cellsWf_cellWrite _ _ _ h))
    | with_reducible exact id
    | exact fun h => Mgmt.wf_congr h rfl rfl rfl rfl rfl rfl
    | exact fun h => Tiers.wf_congr h rfl rfl
    | exact fun _ => rfl
    | intro _
    | split
    | extract_lets
    | (with_reducible apply Keep.upd)

theorem State.completeFailed_keep {r₀ : State} {s : State} (f q : Nat) (c : Cmd) (keep_s : Keep r₀ s) :
    Keep r₀ (State.completeFailed s f q c) := by
  unfold State.completeFailed
  repeat' first
    | with_reducible assumption
    | with_reducible exact Keep.refl _
    | with_reducible apply State.release_keep
    | with_reducible apply State.teardown_keep
    | with_reducible apply State.writeRecord_keep
    | intro _
    | split
    | extract_lets

theorem State.completeOk_keep {r₀ : State} {s : State} (f q : Nat) (c : Cmd) (a b : Nat) (keep_s : Keep r₀ s) :
    Keep r₀ (State.completeOk s f q c a b) := by
  unfold State.completeOk
  repeat' first
    | with_reducible assumption
    | with_reducible exact Keep.refl _
    | with_reducible apply State.beginWarm_keep
    | with_reducible apply State.writeRecord_keep
    | with_reducible exact KeepExc.error
    | with_reducible apply KeepExc.ok
    | with_reducible exact Nat.le_refl _
    | with_reducible exact id
    | exact fun h => Mgmt.wf_congr h rfl rfl rfl rfl rfl rfl
    | exact fun h => Tiers.wf_congr h rfl rfl
    | exact fun _ => rfl
    | intro _
    | split
    | extract_lets
    | (with_reducible apply Keep.upd)

theorem execCommandCommit_keep {r₀ : State} (f q : Nat) (errs : List MemErr) {s : State} (keep_s : Keep r₀ s) :
    KeepOut r₀ (execCommandCommit f q errs s) := by
  unfold execCommandCommit
  repeat' first
    | with_reducible assumption
    | with_reducible exact Keep.refl _
    | with_reducible apply onlyIf_keep
    | with_reducible apply State.awaitBlock_keep
    | with_reducible apply State.endCmd_keep
    | with_reducible apply State.readErrs_keep
    | with_reducible apply State.dropAhead_keep
    | with_reducible apply State.beginPrep_keep
    | with_reducible apply State.prepOver_keep
    | with_reducible apply State.commitStepOf_keep
    | with_reducible apply State.completeFailed_keep
    | with_reducible apply State.completeOk_keep
    | with_reducible apply KeepOut.next
    | with_reducible apply KeepOut.onlyIf
    | with_reducible exact KeepOut.refused
    | with_reducible exact KeepCom.fail
    | with_reducible exact KeepCom.prep
    | with_reducible apply KeepCom.okOf
    | with_reducible apply KeepCom.waitOf
    | (refine KeepCom.ofOk (by assumption) ?_)
    | (refine KeepCom.ofWait (by assumption) ?_)
    | (refine Keep.ofFst (by assumption) ?_)
    | intro _
    | split
    | extract_lets

end Sys2Proof.Machine
end

