-- ==== Sys2Proof/Laws/Write.lean ====
section
/-! SUPPORT. What writing to a context's blocks through shadows does: it touches the tiers, the context's sweep position and the command's
own shadows, and leaves the command's status, phase, words and work alone. -/
namespace Sys2Proof.Machine

/-- From s to t the command (f, q, n) has at most taken shadows and maps; beside it the tiers, sweep positions and free values may differ. -/
structure State.Wrote (f q n : Nat) (s t : State) : Prop where
  only : s.Only [.cp, .tiers, .ctxs, .free] t
  cmd  : t.cp = s.cp ∨ ∃ g : Cmd → Cmd, (∀ c, (g c).n = c.n ∧ (g c).words = c.words ∧ (g c).eff = c.eff ∧ (g c).phase = c.phase ∧
    (g c).status = c.status ∧ (g c).work = c.work) ∧ t.cp = (s.modCmd f q n g).cp

theorem State.Wrote.refl (f q n : Nat) (s : State) : State.Wrote f q n s s := ⟨State.Only.refl _ _, .inl rfl⟩

theorem State.Wrote.trans {f q n : Nat} {s t u : State} (h : State.Wrote f q n s t) (k : State.Wrote f q n t u) :
    State.Wrote f q n s u := by
  refine ⟨h.only.trans k.only, ?_⟩
  rcases k.cmd with k1 | ⟨g, hg, k1⟩
  · rcases h.cmd with h1 | ⟨e, he, h1⟩
    · exact .inl (k1.trans h1)
    · exact .inr ⟨e, he, k1.trans h1⟩
  · rcases h.cmd with h1 | ⟨e, he, h1⟩
    · exact .inr ⟨g, hg, k1.trans (State.modCmd_cp _ _ _ _ _ _ h1)⟩
    · refine .inr ⟨fun c => g (e c), fun c => ?_, ?_⟩
      · obtain ⟨a1, a2, a3, a4, a5, a6⟩ := he c
        obtain ⟨b1, b2, b3, b4, b5, b6⟩ := hg (e c)
        exact ⟨b1.trans a1, b2.trans a2, b3.trans a3, b4.trans a4, b5.trans a5, b6.trans a6⟩
      · rw [k1, State.modCmd_cp _ _ _ _ _ _ h1, State.modCmd_modCmd _ _ _ _ _ _ (fun c => (he c).1)]

/-- Anything that leaves the command interface alone and touches only the tiers, sweep positions and free values. -/
theorem State.Wrote.quiet {f q n : Nat} {s t : State} (h : s.Only [.tiers, .ctxs, .free] t) : State.Wrote f q n s t :=
  ⟨h.mono _ (by decide), .inl (by simpa using h.cp)⟩

/-- The command as it stands after writing. -/
theorem State.Wrote.cmdOf {f q n : Nat} {s t : State} (h : State.Wrote f q n s t) {c : Cmd} (hc : s.cmdOf f q n = some c) :
    ∃ d, t.cmdOf f q n = some d ∧ d.words = c.words ∧ d.eff = c.eff ∧ d.phase = c.phase ∧ d.status = c.status ∧ d.work = c.work := by
  rcases h.cmd with h1 | ⟨g, hg, h1⟩
  · exact ⟨c, by rw [State.cmdOf_cp _ _ _ _ _ h1, hc], rfl, rfl, rfl, rfl, rfl⟩
  · refine ⟨g c, ?_, (hg c).2⟩
    rw [State.cmdOf_cp _ _ _ _ _ h1, State.cmdOf_modCmd_self _ _ _ _ _ (fun c => (hg c).1), hc]
    rfl

/-- A command that has written and then finishes ends as it says, and of the command interface only it differs. -/
theorem State.Wrote.done {f q n op : Nat} {s t : State} {used : List (Nat × Nat)} {c : Cmd} (h : State.Wrote f q n s t)
    (hr : s.Runs f q n op used c) (a b : Nat) :
    (t.done f q n a b).Ended f q n St.ok a b ∧ s.OnlyCmd f q n (t.done f q n a b) ∧ s.Only [.cp, .tiers, .ctxs, .free] (t.done f q n a b) := by
  obtain ⟨d, hd, _, _, hp, hs, _⟩ := h.cmdOf hr.cmd
  refine ⟨hr.ended_of t d hd hp hs a b, ?_, h.only.trans ((State.only_modCmd _ _ _ _ _).mono _ (by decide))⟩
  rcases h.cmd with h1 | ⟨g, hg, h1⟩
  · exact ⟨fun c => c.finish ⟨St.ok, a, b⟩, fun _ => ⟨rfl, rfl⟩, State.modCmd_cp _ _ _ _ _ _ h1⟩
  · refine ⟨fun c => (g c).finish ⟨St.ok, a, b⟩, fun c => ⟨(hg c).1, (hg c).2.1⟩, ?_⟩
    have e := State.modCmd_modCmd s f q n g (fun c => c.finish ⟨St.ok, a, b⟩) (fun c => (hg c).1)
    rw [← e]
    exact State.modCmd_cp _ _ _ _ _ _ h1

/-! ### Ranges that are there -/

theorem State.withRange_ready (s : State) (f q n ctx w addr len : Nat) (whole : Bool) (k : State)
    (h : s.access ctx w addr len whole = .ready) :
    s.withRange f q n ctx w addr len whole k = if whole then k.countReads 0 ctx [(addr, len)] else k := by
  rw [State.withRange, h]

/-- A write to a range that is ready goes on, with the reads of the two units it may write in part counted. -/
theorem State.withWrite_ready (s : State) (f q n ctx w addr len : Nat) (k : State) (h : s.WriteReady ctx w addr len) :
    s.withWrite f q n ctx w addr len k =
      (k.countReads 0 ctx [((addr + len) / 64 * 64, if (addr + len) % 64 = 0 then 0 else 64)]).countReads 0 ctx
        [(addr / 64 * 64, if addr % 64 = 0 then 0 else 64)] := by
  rw [State.withWrite, State.withRange_ready _ _ _ _ _ _ _ _ _ _ h.range, State.withRange_ready _ _ _ _ _ _ _ _ _ _ h.first,
    State.withRange_ready _ _ _ _ _ _ _ _ _ _ h.last]
  rfl

theorem State.withDst_ready (s : State) (f q n ctx w addr len : Nat) (k : State) (h : s.DstReady ctx w addr len) :
    s.withDst f q n ctx w addr len k = s.withWrite f q n ctx w addr len k := by
  simp [State.withDst, h.pool]

theorem State.putBytes_some (s t : State) (f q n ctx addr : Nat) (bs : List Byte) (code : Option Nat) (k : State → State)
    (h : s.writeCtx f q n ctx addr bs code = some t) : s.putBytes f q n ctx addr bs code k = k t := by
  simp [State.putBytes, h]

/-! ### What reads count -/

theorem State.OnlyCounts.refl (s : State) : s.OnlyCounts s := ⟨rfl, fun _ => rfl⟩

theorem State.OnlyCounts.trans {s t u : State} (h : s.OnlyCounts t) (k : t.OnlyCounts u) : s.OnlyCounts u := by
  refine ⟨k.1.trans ?_, fun i => (k.2 i).trans ?_⟩
  · exact congrArg (fun x : Tiers => { x with bm := u.tiers.bm, migrations := u.tiers.migrations, caches := u.tiers.caches }) h.1
  · exact congrArg (fun x : BmEntry => { x with access := (u.bmOf i).access, epoch := (u.bmOf i).epoch }) (h.2 i)

/-- Counting in one entry: the count, the promotion it may queue, and the copy a region cache may take. -/
theorem State.onlyCounts_bmMod (s : State) (i : Nat) (a b : BmEntry → Nat) :
    s.OnlyCounts (s.bmMod i (fun e => { e with access := a e, epoch := b e })) := by
  refine ⟨rfl, fun k => ?_⟩
  simp only [State.bmOf, State.bmMod, tget_tmod]
  by_cases hk : k = i
  · subst hk; simp
  · simp [hk]

theorem State.onlyCounts_queuePromotion (s : State) (i : Nat) : s.OnlyCounts (s.queuePromotion i) := by
  unfold State.queuePromotion
  dsimp only
  split
  · exact ⟨rfl, fun _ => rfl⟩
  · exact State.OnlyCounts.refl s

theorem State.onlyCounts_cacheFill (s : State) (region i : Nat) : s.OnlyCounts (s.cacheFill region i) := by
  unfold State.cacheFill
  dsimp only
  split
  · exact State.OnlyCounts.refl s
  · exact ⟨rfl, fun _ => rfl⟩

/-- Of the tiers, counting reads changes counts, queued promotions and cached copies only (R260, R271). -/
theorem State.onlyCounts_countReads (s : State) (region ctx : Nat) (rs : List (Nat × Nat)) :
    s.OnlyCounts (s.countReads region ctx rs) := by
  unfold State.countReads
  generalize rs.flatMap (fun r => pieces r.1 r.2) = l
  have step : ∀ (l : List (Nat × Nat × Nat)) (t : State), s.OnlyCounts t → s.OnlyCounts (l.foldl (fun t p =>
      match t.touch ctx p.1 with
      | .served i _ => ((t.bmMod i (fun e => { e with
          access := min 0xFFFF (t.countOf e + ceilDiv p.2.2 256), epoch := t.epoch % 64 })).queuePromotion i).cacheFill region i
      | .peer i _ _ => t.cacheFill region i
      | _ => t) t) := by
    intro l
    induction l with
    | nil => exact fun _ h => h
    | cons p l ih =>
      intro t h
      refine ih _ (h.trans ?_)
      dsimp only
      split
      · exact ((State.onlyCounts_bmMod t _ _ _).trans (State.onlyCounts_queuePromotion _ _)).trans (State.onlyCounts_cacheFill _ _ _)
      · exact State.onlyCounts_cacheFill _ _ _
      · exact State.OnlyCounts.refl t
  exact step l s (State.OnlyCounts.refl s)

theorem State.only_bmMod (s : State) (i : Nat) (g : BmEntry → BmEntry) : s.Only [.tiers] (s.bmMod i g) := State.only_set_tiers ..

theorem State.only_queuePromotion (s : State) (i : Nat) : s.Only [.tiers] (s.queuePromotion i) := by
  unfold State.queuePromotion
  dsimp only
  split
  · exact State.only_set_tiers ..
  · exact State.Only.refl _ _

theorem State.only_cacheFill (s : State) (region i : Nat) : s.Only [.tiers] (s.cacheFill region i) := by
  unfold State.cacheFill
  dsimp only
  split
  · exact State.Only.refl _ _
  · exact State.only_set_tiers ..

theorem State.only_countReads (s : State) (region ctx : Nat) (rs : List (Nat × Nat)) :
    s.Only [.tiers] (s.countReads region ctx rs) := by
  unfold State.countReads
  refine State.Only.foldl _ _ (State.Only.refl _ _) (fun u p => ?_)
  split
  · exact ((State.only_bmMod u _ _).trans (State.only_queuePromotion _ _)).trans (State.only_cacheFill _ _ _)
  · exact State.only_cacheFill _ _ _
  · exact State.Only.refl _ _

/-! ### Frames -/

theorem State.only_setFrame (s : State) (fid : Nat) (v : FrameState) : s.Only [.tiers] (s.setFrame fid v) := State.only_set_tiers ..
theorem State.only_zeroFrame (s : State) (fid : Nat) : s.Only [.tiers] (s.zeroFrame fid) := State.only_set_tiers ..

theorem State.only_allocFrame (s t : State) (tier fid : Nat) (h : s.allocFrame tier = some (fid, t)) :
    s.Only [.tiers, .ctxs, .free] t := by
  unfold State.allocFrame at h
  split at h
  · simp only [Option.some.injEq, Prod.mk.injEq] at h
    obtain ⟨-, rfl⟩ := h
    exact ((s.only_setFrame _ _).mono _ (by decide)).trans ((State.only_freeNext _ _).mono _ (by decide))
  · split at h
    · simp only [Option.some.injEq, Prod.mk.injEq] at h
      obtain ⟨-, rfl⟩ := h
      exact ((s.only_setFrame _ _).mono _ (by decide)).trans ((State.only_zeroFrame _ _).mono _ (by decide))
    · cases h

theorem State.only_drainFrame (s : State) (fid : Nat) : s.Only [.tiers] (s.drainFrame fid) := by
  unfold State.drainFrame
  split
  · exact s.only_setFrame _ _
  · exact State.Only.refl _ _

theorem State.only_dropFrame (s : State) (fid : Nat) : s.Only [.tiers] (s.dropFrame fid) := by
  unfold State.dropFrame
  split
  · exact s.only_setFrame _ _
  · exact State.Only.refl _ _

theorem State.only_abandonMig (s : State) (i : Nat) : s.Only [.tiers] (s.abandonMig i) := by
  unfold State.abandonMig
  split
  · split
    · exact (s.only_dropFrame _).trans (State.only_set_tiers ..)
    · exact State.only_set_tiers ..
  · exact State.Only.refl _ _

theorem State.only_bmChange (s : State) (i : Nat) (e : BmEntry) (fid : Option Nat) (peer : Option (Nat × Nat)) :
    s.Only [.tiers] (s.bmChange i e fid peer) := State.only_set_tiers ..

theorem State.only_moveEntry (s : State) (i : Nat) (e : BmEntry) (tier fid : Nat) : s.Only [.tiers] (s.moveEntry i e tier fid) := by
  unfold State.moveEntry
  exact ((State.only_set_tiers _ _).trans (State.only_bmChange ..)).trans (State.only_drainFrame ..)

theorem State.only_demoteVictim (s t : State) (c count : Nat) (h : s.demoteVictim c count = some t) :
    s.Only [.tiers, .ctxs, .free] t := by
  unfold State.demoteVictim at h
  dsimp only at h
  split at h
  · cases h
  · split at h
    · split at h
      · rename_i fid s1 ha
        simp only [Option.some.injEq] at h
        subst h
        exact (((State.only_allocFrame s s1 1 fid ha).trans ((s1.only_abandonMig _).mono _ (by decide))).trans
          ((State.only_moveEntry ..).mono _ (by decide))).trans ((State.only_modCtx ..).mono _ (by decide))
      · cases h
    · cases h

theorem State.only_allocFor (s t : State) (c tier count fid : Nat) (h : s.allocFor c tier count = some (fid, t)) :
    s.Only [.tiers, .ctxs, .free] t := by
  have step : ∀ (r : State → Option (Nat × State)), (∀ u v k, r u = some (k, v) → u.Only [.tiers, .ctxs, .free] v) →
      (s.demoteVictim c count).bind r = some (fid, t) → s.Only [.tiers, .ctxs, .free] t := by
    intro r hr hb
    rw [Option.bind_eq_some_iff] at hb
    obtain ⟨u, hu, hv⟩ := hb
    exact (State.only_demoteVictim _ _ _ _ hu).trans (hr _ _ _ hv)
  unfold State.allocFor at h
  split at h
  · split at h
    · rename_i r ha
      simp only [Option.some.injEq] at h
      subst h
      exact State.only_allocFrame _ _ _ _ ha
    · split at h
      · exact step _ (fun u v k hk => State.only_allocFrame _ _ _ _ hk) h
      · cases h
  · split at h
    · refine step _ (fun u v k hk => ?_) h
      split at hk
      · exact State.only_allocFrame _ _ _ _ hk
      · cases hk
    · cases h

theorem State.only_allocShadow (s t : State) (c fid : Nat) (e : BmEntry) (h : s.allocShadow c e = some (fid, t)) :
    s.Only [.tiers, .ctxs, .free] t := by
  unfold State.allocShadow at h
  split at h
  · split at h
    · rename_i r ha
      simp only [Option.some.injEq] at h
      subst h
      exact State.only_allocFor _ _ _ _ _ _ ha
    · exact State.only_allocFor _ _ _ _ _ _ h
  · exact State.only_allocFor _ _ _ _ _ _ h

/-- An update of the command's own shadows and maps. -/
theorem State.wrote_modCmd (s : State) (f q n : Nat) (g : Cmd → Cmd)
    (h : ∀ c, (g c).n = c.n ∧ (g c).words = c.words ∧ (g c).eff = c.eff ∧ (g c).phase = c.phase ∧ (g c).status = c.status ∧
      (g c).work = c.work) : State.Wrote f q n s (s.modCmd f q n g) :=
  ⟨(State.only_modCmd _ _ _ _ _).mono _ (by decide), .inr ⟨g, h, rfl⟩⟩

theorem State.wrote_withShadow (s t : State) (f q n c blk : Nat) (w : Shadow) (h : s.withShadow f q n c blk = some (w, t)) :
    State.Wrote f q n s t := by
  unfold State.withShadow at h
  split at h
  · cases h
  · split at h
    · simp only [Option.some.injEq, Prod.mk.injEq] at h
      obtain ⟨-, rfl⟩ := h
      exact State.Wrote.refl ..
    · split at h
      · cases h
      · split at h
        · cases h
        · rename_i fid s1 ha
          simp only [Option.some.injEq, Prod.mk.injEq] at h
          obtain ⟨-, rfl⟩ := h
          exact (State.Wrote.quiet (State.only_allocShadow _ _ _ _ _ ha)).trans
            (State.wrote_modCmd _ _ _ _ _ (fun _ => ⟨rfl, rfl, rfl, rfl, rfl, rfl⟩))

theorem State.wrote_writePiece (s t : State) (f q n c blk off : Nat) (bs : List Byte) (code : Option Nat)
    (h : s.writePiece f q n c blk off bs code = some t) : State.Wrote f q n s t := by
  unfold State.writePiece at h
  split at h
  · cases h
  · rename_i w s1 hw
    dsimp only at h
    simp only [Option.some.injEq] at h
    subst h
    refine ((State.wrote_withShadow _ _ _ _ _ _ _ _ hw).trans (State.Wrote.quiet ((State.only_set_tiers s1 _).mono _ (by decide)))).trans
      (State.wrote_modCmd _ _ _ _ _ (fun _ => ⟨rfl, rfl, rfl, rfl, rfl, rfl⟩))

/-- A fold that may fail keeps a relation each of its steps keeps. -/
theorem foldl_bind_rel {α β : Type} (R : β → β → Prop) (hr : ∀ b, R b b) (ht : ∀ a b c, R a b → R b c → R a c) (l : List α)
    (g : α → β → Option β) (hg : ∀ x a b, g x a = some b → R a b) (s t : β)
    (h : l.foldl (fun (a : Option β) x => a.bind (g x)) (some s) = some t) : R s t := by
  induction l generalizing s with
  | nil =>
    simp only [List.foldl_nil, Option.some.injEq] at h
    subst h
    exact hr _
  | cons x l ih =>
    simp only [List.foldl_cons, Option.bind_some] at h
    cases hx : g x s with
    | none =>
      rw [hx] at h
      have e : ∀ (m : List α), m.foldl (fun (a : Option β) x => a.bind (g x)) none = none := by
        intro m
        induction m with
        | nil => rfl
        | cons y m ih => simpa using ih
      rw [e] at h
      cases h
    | some b =>
      rw [hx] at h
      exact ht _ _ _ (hg _ _ _ hx) (ih _ h)

/-- Writing bytes to a context's blocks. -/
theorem State.wrote_writeCtx (s t : State) (f q n c addr : Nat) (bs : List Byte) (code : Option Nat)
    (h : s.writeCtx f q n c addr bs code = some t) : State.Wrote f q n s t := by
  unfold State.writeCtx at h
  rw [Option.map_eq_some_iff] at h
  obtain ⟨⟨t', rest⟩, hf, rfl⟩ := h
  refine foldl_bind_rel (fun (a b : State × List Byte) => State.Wrote f q n a.1 b.1) (fun _ => State.Wrote.refl ..)
    (fun _ _ _ h k => h.trans k) _ _ ?_ (s, bs) (t', rest) hf
  intro p a b hp
  obtain ⟨u, ru⟩ := a
  rw [Option.map_eq_some_iff] at hp
  obtain ⟨v, hv, rfl⟩ := hp
  exact State.wrote_writePiece _ _ _ _ _ _ _ _ _ _ hv

/-- Copying bytes between a context's blocks. -/
theorem State.wrote_copyPieces (s t : State) (f q n ctx dst src len : Nat) (h : s.copyPieces f q n ctx dst src len = some t) :
    State.Wrote f q n s t := by
  unfold State.copyPieces at h
  dsimp only at h
  refine foldl_bind_rel (State.Wrote f q n) (fun _ => State.Wrote.refl ..) (fun _ _ _ h k => h.trans k) _ _ ?_ s t h
  intro p a b hp
  exact State.wrote_writePiece _ _ _ _ _ _ _ _ _ _ hp

end Sys2Proof.Machine
end

