-- ==== Sys2Proof/WellFormed.lean ====
section
/-! DEFINITION. Which terms are commands at all: operands inside the ranges the manual numbers things by (R17 to R19,
Table 1.7, Table 2.2, Table 3.3, Table 7.8, Table 13.2). -/
namespace Sys2Proof

/-- A queue of a function: 64 functions of 64 queues (R52, Table 2.2). -/
def queueWf (fn q : Nat) : Bool := decide (fn < 64) && decide (q < 64)

/-- A core number and the number of one of its four links and four channels (R17, Table 3.2). -/
def linkWf (core port channel : Nat) : Bool := decide (core < 3072) && decide (port < 4) && decide (channel < 4)

/-- A frame as it arrives at a Quenor port: every header field fits its width (Table 13.2), 4 to 9 type words where a
type has them, at most 4,096 bytes of payload. -/
def frameWf (port : Nat) (f : Frame) : Bool :=
  decide (port < 32) && decide (f.ty < 256) && decide (f.ttl < 256) && decide (f.lseq < 65536) &&
  decide (f.lack < 65536) && decide (f.circuit < 4096) && decide (f.src < 16384) && decide (f.dst < 16384) &&
  decide (f.tw.length ≤ 6) && decide (f.payload.length ≤ 4096)

/-- The read errors a command meets lie at context addresses, which two command words give (R285). -/
def errsWf (errs : List MemErr) : Bool := errs.all (fun e => decide (e.addr < 2 ^ 64))

/-- Whether a term is a command. -/
def Instr.wf : Instr → Bool
  | .nop fn q _ => queueWf fn q
  | .cancel fn q _ => queueWf fn q
  | .supplyTime fn q _ => queueWf fn q
  | .planSubmit fn q _ plan => queueWf fn q && decide (plan.length ≤ 1057)
  | .contextCreate fn q _ => queueWf fn q
  | .contextDestroy fn q _ => queueWf fn q
  | .contextConfig fn q _ => queueWf fn q
  | .layoutLoad fn q _ errs => queueWf fn q && errsWf errs
  | .layoutReplace fn q _ errs => queueWf fn q && errsWf errs
  | .layoutUnload fn q _ => queueWf fn q
  | .placementMove fn q _ errs => queueWf fn q && errsWf errs
  | .blockMap fn q _ => queueWf fn q
  | .blockUnmap fn q _ => queueWf fn q
  | .copy fn q _ errs => queueWf fn q && errsWf errs
  | .fill fn q _ errs => queueWf fn q && errsWf errs
  | .tierHint fn q _ => queueWf fn q
  | .quotaSet fn q _ => queueWf fn q
  | .peerMap fn q _ => queueWf fn q
  | .lendRecall fn q _ => queueWf fn q
  | .hostWrite fn q _ _ errs => queueWf fn q && errsWf errs
  | .hostRead fn q _ errs => queueWf fn q && errsWf errs
  | .run fn q _ errs => queueWf fn q && errsWf errs
  | .streamLoad fn q _ errs => queueWf fn q && errsWf errs
  | .streamResume fn q _ => queueWf fn q
  | .shapeWrite fn q _ errs => queueWf fn q && errsWf errs
  | .sessionOpen fn q _ => queueWf fn q
  | .sessionClose fn q _ => queueWf fn q
  | .stepCmd fn q _ errs => queueWf fn q && errsWf errs
  | .sessionPause fn q _ => queueWf fn q
  | .sessionResume fn q _ => queueWf fn q
  | .sessionCancel fn q _ => queueWf fn q
  | .prefixLookup fn q _ errs => queueWf fn q && errsWf errs
  | .kvPark fn q _ => queueWf fn q
  | .kvUnpark fn q _ => queueWf fn q
  | .kvRelease fn q _ => queueWf fn q
  | .kvTtlSet fn q _ => queueWf fn q
  | .kvConfigure fn q _ => queueWf fn q
  | .weightWrite fn q _ _ => queueWf fn q
  | .weightLoad fn q _ _ chan => queueWf fn q && decide (chan < 16)
  | .weightLoadBroadcast fn q _ _ chan => queueWf fn q && decide (chan < 16)
  | .weightReplace fn q _ _ chan => queueWf fn q && decide (chan < 16)
  | .weightDelete fn q _ => queueWf fn q
  | .adapterAttach fn q _ _ chan => queueWf fn q && decide (chan < 16)
  | .adapterDetach fn q _ => queueWf fn q
  | .jobOpen fn q _ errs => queueWf fn q && errsWf errs
  | .jobClose fn q _ => queueWf fn q
  | .linkRestore fn q _ lanes chip port => queueWf fn q && decide (lanes < 16) && decide (chip < 16384) && decide (port < 32)
  | .linkRecalibrate fn q _ => queueWf fn q
  | .selfTest fn q _ _ => queueWf fn q
  | .showdown fn q _ => queueWf fn q
  | .showdownArm fn q _ => queueWf fn q
  | .memoryRetrain fn q _ _ => queueWf fn q
  | .sqTailDoorbell fn q value => queueWf fn q && decide (value < 65536)
  | .cqHeadDoorbell fn q value => queueWf fn q && decide (value < 65536)
  | .queueEnable fn q _ => queueWf fn q
  | .queueDisable fn q _ => queueWf fn q
  | .queueReset fn q _ => queueWf fn q
  | .queueResume fn q _ => queueWf fn q
  | .queueResetDone fn q => queueWf fn q
  | .commandFetch fn q packet => queueWf fn q && decide (packet.length = 16)
  | .commandStart fn q _ errs => queueWf fn q && errsWf errs
  | .commandRerun fn q _ errs => queueWf fn q && errsWf errs
  | .commandCommit fn q errs => queueWf fn q && errsWf errs
  | .coalesceTimeout fn q => queueWf fn q
  | .rateToken fn vector => decide (fn < 64) && decide (vector < 64)
  | .dealUpdateApply core => decide (core < 3072)
  | .tileArrive core port channel => linkWf core port channel
  | .pairIssue core _ => decide (core < 3072)
  | .storeWrite core hand _ => decide (core < 3072) && decide (hand < 4)
  | .drain core hand _ => decide (core < 3072) && decide (hand < 4)
  | .vectorRun core _ => decide (core < 3072)
  | .configItem core => decide (core < 3072)
  | .loadAcksComplete ctx layout => decide (ctx < 256) && decide (layout < 8)
  | .cutArrive core port channel => linkWf core port channel
  | .cutComplete core => decide (core < 3072)
  | .replaceCutDone ctx layout => decide (ctx < 256) && decide (layout < 8)
  | .faultedQuiescence fn q _ => queueWf fn q
  | .bindingTakeEffect cluster slot => decide (cluster < 192) && decide (slot < 64)
  | .streamRequest cluster => decide (cluster < 192)
  | .streamDataReturn cluster slot _ _ => decide (cluster < 192) && decide (slot < 64)
  | .runAheadRequest cluster slot => decide (cluster < 192) && decide (slot < 64)
  | .outputTileArrive ctx layout station => decide (ctx < 256) && decide (layout < 8) && decide (station < 1024)
  | .faultRecordWrite cluster slot => decide (cluster < 192) && decide (slot < 64)
  | .streamAutoResume cluster slot => decide (cluster < 192) && decide (slot < 64)
  | .weightLateTimeout cluster slot => decide (cluster < 192) && decide (slot < 64)
  | .watchdogTimeout ctx => decide (ctx < 256)
  | .regionUngate region => decide (region < 16)
  | .regionGate region => decide (region < 16)
  | .blockMapChangeDone entry => decide (entry < 67108864)
  | .frameRelease _ => true
  | .frameScrub _ => true
  | .migrationStart entry => decide (entry < 67108864)
  | .migrationDone entry _ => decide (entry < 67108864)
  | .patrolScrubRead _ _ => true
  | .scrubPassOverdue island => decide (island < 65536)
  | .recallBorrowerDeadline chip _ => decide (chip < 16384)
  | .recallLenderDeadline _ => true
  | .parkStart ctx record => decide (ctx < 256) && decide (record < 16777216)
  | .parkComplete ctx record => decide (ctx < 256) && decide (record < 16777216)
  | .kvRecordExpire ctx record => decide (ctx < 256) && decide (record < 16777216)
  | .parkBringIn ctx record _ _ => decide (ctx < 256) && decide (record < 16777216)
  | .cancelRetire fn q _ => queueWf fn q
  | .expertSelect ctx layer => decide (ctx < 256) && decide (layer < 256)
  | .combineRow ctx layer _ => decide (ctx < 256) && decide (layer < 256)
  | .routerWaitTimeout ctx => decide (ctx < 256)
  | .dispatch port frame _ => frameWf port frame
  | .dispatchEnd port frame _ => frameWf port frame
  | .returnTile port frame _ => frameWf port frame
  | .returnEnd port frame _ => frameWf port frame
  | .retire port frame _ => frameWf port frame
  | .generationAnnounce port frame _ => frameWf port frame
  | .generationRetiredReport port frame _ => frameWf port frame
  | .stepOutcomes port frame _ => frameWf port frame
  | .stepReady port frame _ => frameWf port frame
  | .stepCommitMessage port frame _ => frameWf port frame
  | .entryDropped port frame _ => frameWf port frame
  | .dealPublication port frame _ => frameWf port frame
  | .pieceRequest port frame _ => frameWf port frame
  | .readerStart port frame _ => frameWf port frame
  | .doneNotice port frame _ => frameWf port frame
  | .piece port frame _ => frameWf port frame
  | .weightReplaceCopy fn q _ _ _ => queueWf fn q
  | .stripeErase _ _ => true
  | .linkAck port frame _ => frameWf port frame
  | .lane port frame _ => frameWf port frame
  | .tile port frame _ => frameWf port frame
  | .credit port frame _ => frameWf port frame
  | .tear port frame _ => frameWf port frame
  | .memRead port frame _ _ => frameWf port frame
  | .memWrite port frame _ => frameWf port frame
  | .memData port frame _ => frameWf port frame
  | .memDone port frame _ => frameWf port frame
  | .memRefused port frame _ => frameWf port frame
  | .unreachable port frame _ => frameWf port frame
  | .reserve port frame _ => frameWf port frame
  | .confirm port frame _ => frameWf port frame
  | .reject port frame _ => frameWf port frame
  | .lendRequest port frame _ => frameWf port frame
  | .lendGrant port frame _ => frameWf port frame
  | .lendRefusal port frame _ => frameWf port frame
  | .recallNotice port frame _ => frameWf port frame
  | .lendFrameRelease port frame _ => frameWf port frame
  | .replayTimeout port => decide (port < 32)
  | .ackTimer port => decide (port < 32)
  | .lossOfLock port lanes => decide (port < 32) && decide (lanes < 16)
  | .creditTimer circuit => decide (circuit < 4096)
  | .creditTimeout circuit => decide (circuit < 4096)
  | .peerRequestTimeout _ => true
  | .jobOpenTimeout fn q _ => queueWf fn q
  | .laneRetrainDone port _ => decide (port < 32)
  | .routeDataWrite _ => true
  | .partReset _ => true
  | .warmReset _ => true
  | .functionLevelReset fn => decide (fn < 64)
  | .vfRemoval numVfs => decide (numVfs < 64)
  | .partitionResetDone part => decide (part < 64)
  | .warmResetDone => true
  | .faultRingEnable fn _ => decide (fn < 64)
  | .frHeadWrite fn _ => decide (fn < 64)
  | .intMaskWrite fn _ => decide (fn < 64)
  | .registerWrite fn bar _ _ _ => decide (fn < 64) && decide (bar < 5)
  | .registerReadClear fn bar _ _ => decide (fn < 64) && decide (bar < 5)
  | .info => true
  | .logRead => true
  | .logAck => true
  | .firstErrorRead => true
  | .sensorRead => true
  | .counterRead => true
  | .snapshotRead => true
  | .snapshotRelease => true
  | .updateWrite => true
  | .updateCommit => true
  | .floorRaise => true
  | .identity => true
  | .attest => true
  | .debugWindow => true
  | .ownerSet => true
  | .fenceRead => true
  | .debugWindowRead _ _ => true
  | .mgmtWatchdogExpire => true
  | .mgmtServiceResume => true
  | .errorReport island cls code ctx _ => decide (island < 65536) && decide (cls < 16) && decide (code < 65536) && (match ctx with | none => true | some x => decide (x < 256))
  | .errorHubDrain island => decide (island < 65536)
  | .sensorSample temps _ _ _ => decide (temps.length = 96)
  | .showdownPin => true
  | .showdownCountMatch => true
  | .showdownTileArrive core port channel => linkWf core port channel
  | .showdownCutTimeout => true
  | .correlationMarkerArrive island => decide (island < 65536)
  | .frequencyChange cluster code => decide (cluster < 192) && decide (code < 128)
  | .standbyPowerGood => true
  | .standbyPowerLoss => true
  | .locationRetry _ => true
  | .tcRelease _ => true
  | .tcOffReq => true
  | .tcHeartbeatWrite _ => true
  | .heartbeatTimeout => true
  | .railBringupTimeout => true
  | .recoveryImageWrite _ _ => true
  | .recoveryImageEnd _ => true
  | .recoveryVerifyDone => true
  | .recoveryOwnerKey _ => true
  | .perstAssert => true
  | .perstDeassert => true
  | .powerBrakeAssert => true
  | .powerBrakeRelease => true
  | .governorTick _ temps => decide (temps.length = 96)
  | .thermalCapStep die => decide (die < 4)
  | .iccLimitExceed die => decide (die < 4)
  | .iccCapRaise die => decide (die < 4)
  | .analogThermalTrip die => decide (die < 4)
  | .railFault die => decide (die < 4)
  | .precisionLower die => (match die with | none => true | some x => decide (x < 4))
  | .precisionRestore => true
  | .retrainWaitTimeout fn q _ => queueWf fn q
  | .neighbourLinkRestore port lanes chip nport => decide (port < 32) && decide (lanes < 16) && decide (chip < 16384) && decide (nport < 32)
  | .vfEnable numVfs => decide (numVfs < 64)
  | .railSettleTimeout die => decide (die < 4)
  | .retrainTargetQuiet fn q _ => queueWf fn q
  | .testAccessPort ir _ => decide (ir < 16)

end Sys2Proof
end

