-- ==== Sys2Proof/Tests/Slice0.lean ====
section
/-! SUPPORT. Small tests: terms the well-formedness check refuses, values the manual's tables give, and one witness for the hypotheses of
every clause of every statement (`wit_<statement>_<clause>`). A witness gives a state and operands, in the order of its variables. -/
set_option Elab.async false
namespace Sys2Proof.Tests
open Sys2Proof Sys2Proof.Machine

/-- A packet: header word 0, context, and words 2 on. -/
def packet (op ctx : Nat) (ws : List Nat) : List Word := [w32 op, w32 ctx] ++ ws.map w32

/-- A command with serial number 0 at work. -/
def atWork (op ctx : Nat) (ws : List Nat) : Cmd :=
  { n := 0, words := packet op ctx ws, eff := packet op ctx ws, phase := .running, order := 1 }

/-- A state whose function 0 runs one command on queue 0. -/
def withCmd (c : Cmd) : State :=
  { State.reset with cp := { fns := [(0, { queues := [(0, { state := .running, window := [c], sqSizeM1 := 7, cqSizeM1 := 7 })] })], starts := 1 } }

theorem runs_of {s : State} {f q n op : Nat} {used : List (Nat × Nat)} {c : Cmd}
    (h : s.started f q n op = some c ∧ c.status = 0 ∧ reservedWord c.eff used = none) : s.Runs f q n op used c :=
  ⟨h.1, h.2.1, h.2.2⟩

theorem asked_of {s : State} {r : Nat} (h : s.mgmt.mbBusy = true ∧ s.mgmt.restarting = false ∧ bits (s.mgmt.req 0) 7 0 = r) : s.Asked r :=
  ⟨h.1, h.2.1, h.2.2⟩

theorem writeReady_of {s : State} {ctx w addr len : Nat} (h : s.access ctx w addr len false = .ready ∧
    s.access ctx w (addr / 64 * 64) (if addr % 64 = 0 then 0 else 64) true = .ready ∧
    s.access ctx w ((addr + len) / 64 * 64) (if (addr + len) % 64 = 0 then 0 else 64) true = .ready) : s.WriteReady ctx w addr len :=
  ⟨h.1, h.2.1, h.2.2⟩

theorem dstReady_of {s : State} {ctx w addr len : Nat} (h : s.inPool ctx addr len = false ∧ s.access ctx w addr len false = .ready ∧
    s.access ctx w (addr / 64 * 64) (if addr % 64 = 0 then 0 else 64) true = .ready ∧
    s.access ctx w ((addr + len) / 64 * 64) (if (addr + len) % 64 = 0 then 0 else 64) true = .ready) : s.DstReady ctx w addr len :=
  ⟨h.1, writeReady_of h.2⟩

theorem inOrder_of {s : State} {port : Nat} {f : Frame}
    (h : (s.portOf port).usable = true ∧ f.lseq = ((s.portOf port).rxSeq + 1) % 65536 ∧ f.clean = true) : s.InOrder port f :=
  ⟨h.1, h.2.1, h.2.2⟩

theorem forUs_of {s : State} {port : Nat} {f : Frame} (h : ((s.portOf port).usable = true ∧
    f.lseq = ((s.portOf port).rxSeq + 1) % 65536 ∧ f.clean = true) ∧ frameClass f.ty ≠ some 1 ∧ f.dst = s.fab.chip) : s.ForUs port f :=
  ⟨inOrder_of h.1, h.2.1, h.2.2⟩

theorem atEndpoint_of {s : State} {port : Nat} {f : Frame} (h : ((s.portOf port).usable = true ∧
    f.lseq = ((s.portOf port).rxSeq + 1) % 65536 ∧ f.clean = true) ∧ frameClass f.ty = some 1 ∧ (s.circOf f.circuit).state = 2 ∧
    (s.circOf f.circuit).transit = false ∧ (s.circOf f.circuit).kind ≠ 2) : s.AtEndpoint port f :=
  ⟨inOrder_of h.1, h.2.1, h.2.2.1, h.2.2.2.1, h.2.2.2.2⟩

/-- The same for a packet. -/
def running (op ctx : Nat) (ws : List Nat) : State := withCmd (atWork op ctx ws)

/-- A partition record: contexts 0 to 255, sessions 0 to 4095, 8 Block Map entries, 16 Prefix Directory entries, ceilings of 100 blocks. -/
def homeParts : Parts :=
  { recs := [(0, { record := [1, 0, 0, 0, 0, 0, 0x1000001, 0x1000000, 0xC000000, 0x4000000, 100, 100, 100, 0, 0x3F010101, 64].map w32 })] }

/-- A Block Map that maps blocks 0 and 1 of context 0 in two used near frames. -/
def twoBlocks : Tiers :=
  { bm := [(0, { state := 1, block := 0, loc := 0 }), (1, { state := 1, block := 1, loc := 4 })], frames := [(0, .used), (1, .used)],
    nearBytes := [(0, 0x400000)], bulkBytes := [(0, 0x400000)] }

/-- Shadows of both blocks. -/
def twoShadows : Tbl Shadow := [(0, { frame := 2 }), (1, { frame := 3 })]

/-- The PCIe link is up and configuration requests are answered. -/
def linked : Power := { linkUp := true, retryStatus := false }

/-- A well-formed object image of one piece of 64 bytes; as an adapter it names base 5. -/
def smallImage (adapter : Bool) : List Byte :=
  ([if adapter then 0x0101574F else 0x1574F, 1, if adapter then 5 else 0, 0, 128] ++ List.replicate 16 0 ++ [64] ++
    List.replicate 10 0 ++ List.replicate 16 7).flatMap (leBytes 4)

/-- The object table entry of that image, of partition 0 and name 7. -/
def smallObj (adapter : Bool) : Obj := { id := 7, present := true, slots := [3], bytes := 192, image := smallImage adapter }

/-- A fabric of chip 0 whose entry for chip 1 is the candidate port 0, which is up. -/
def twoChips : Fab := { routes := [(1, 0x01)], ports := [(0, { state := 2, lanesUp := 15, nChip := 1 })] }

/-- Context 0 with a layout 0 in a phase. -/
def withLayout (l : Layout) : Tbl Context := [(0, { live := true, layouts := [(0, some l)] })]

/-- A queue 0 of function 0 in a state. -/
def withQueue (x : Queue) : State := { State.reset with cp := { fns := [(0, { queues := [(0, x)] })] }, power := linked, parts := homeParts }

/-- A running queue of eight slots. -/
def oneQueue : Queue := { state := .running, sqSizeM1 := 7, cqSizeM1 := 7 }

/-- The home partition with a Weight Store ceiling of 4 stripes. -/
def storeParts : Parts :=
  { recs := [(0, { record := [1, 0, 0, 0, 0, 0, 0x1000001, 0x1000000, 0xC000000, 0x4000000, 100, 100, 100, 4, 0x3F010101, 64].map w32 })] }

/-- Sessions 0 (idle, of context 0) and 0xFFF. -/
def sessions : Tbl Session := [(0, { state := 1 }), (0xFFF, { state := 4, ctx := 0xFF })]

/-- A core 0 with hands. -/
def withHand (k : Core) (h : Hand) : State := { State.reset with cores := [(0, { k with hands := [(0, some h)] })] }

/-- A core 0 whose input 0 (from the north, channel 0) holds a tile, with a hand that routes it. -/
def arriving (t : Tile) (d : Dest) : State := withHand { inq := [(0, [t])] } { img := { inFmt := 4, routes := [{ dests := [d] }] } }

/-- Its hand. -/
def arrivingHand (d : Dest) : Hand := { img := { inFmt := 4, routes := [{ dests := [d] }] } }

/-- A core 0 with an item on its configuration port, beside context 0 and a layout. -/
def configuring (items : List CfgItem) (l : Layout) : State := { State.reset with cores := [(0, { cfg := items })], ctxs := withLayout l }

/-- The two mapped blocks; block 0 holds a block list of one entry, a tile at byte 0x40000. -/
def listBlocks : Tiers := { twoBlocks with mem := [(2, 4), (8, 1), (12, 1)] }

/-- A slot that streams that list to station 0 of layout 0 of context 0. -/
def listSlot : Slot := { count := 1, desc := [w32 0x400] ++ List.replicate 11 0, state := .running }

/-- The tile of the list's entry. -/
def zeroTile : Tile := { fmt := 4, data := List.replicate 1152 0 }

/-- A state whose one slot, number 5 of cluster 0, is v; its command is a RUN. -/
def streaming (v : Slot) : State :=
  { running 0x30 0 [] with slots := [(5, some v)], parts := homeParts, tiers := listBlocks, ctxs := withLayout { phase := .loaded } }

/-- Context 0 with a KV geometry whose pool starts at block 16. -/
def kvCtx : Tbl Context := [(0, { live := true, geom := some ⟨1, 1, 1, 16, 0, 0x400000, 1, 1, 1, 0⟩ })]

/-- Frames and blocks in the states their commands look for. -/
def tierState (t : Tiers) : State := { running 0 0 [] with tiers := t, parts := homeParts, ctxs := [(0, { live := true })] }

/-- A frame from chip 1 to chip 0, next in order at a port that has received none. -/
def frameOf (ty circuit : Nat) (tw : List Nat) (payload : List Byte := []) : Frame :=
  { ty := ty, ttl := 8, lseq := 1, lack := 0, circuit := circuit, src := 1, dst := 0, tw := tw.map w32, payload := payload }

/-- The two chips with a circuit 5 between them. -/
def circuitFab : Fab := { twoChips with circuits := [(5, { state := 2, aLocal := true, bChip := 1 })] }

/-- An open job 7 of chips 0 and 1. -/
def openJob : Job := { jobId := 7, members := [0, 1], rank := 0, isOpen := true }

/-- Chip 0 with that job in context 0. -/
def jobState (j : Job) : State :=
  { State.reset with fab := circuitFab, parts := homeParts, tiers := twoBlocks, ctxs := [(0, { live := true, job := some j })] }

/-- Writes into one block that the command has shadowed. -/
theorem roomInShadow {s : State} {c : Cmd} {rs : List (Nat × Nat)} (b : Nat) (w : Shadow)
    (h : ∀ r ∈ rs, ∀ p ∈ pieces r.1 r.2, p.1 = b) (hw : c.shadows.find? (fun p => p.1 = b) = some (b, w)) : s.WriteRoom c rs :=
  ⟨b, fun r hr p hp => .inl (h r hr p hp), .inl ⟨w, hw⟩⟩

/-- Writes into one block, where channel 0 has a frame for its shadow. -/
theorem roomForShadow {s : State} {c : Cmd} {rs : List (Nat × Nat)} (b : Nat) (h : ∀ r ∈ rs, ∀ p ∈ pieces r.1 r.2, p.1 = b)
    (hq : s.quotaRoom c.ctx 1 1 = true) (hf : 0 < s.freeFrames 4) : s.WriteRoom c rs :=
  ⟨b, fun r hr p hp => .inl (h r hr p hp), .inr ⟨hq, 4, by decide, hf⟩⟩

/-- A command at work on the two mapped blocks, and a state that runs it. -/
def writer (op : Nat) (ws : List Nat) : Cmd := { atWork op 0 ws with shadows := twoShadows }

def writing (c : Cmd) : State := { withCmd c with parts := homeParts, tiers := twoBlocks }

/-! ### Terms the check refuses, one for each check, beside their well-formed neighbours -/

theorem test_wf_queue : [Instr.wf (.nop 63 63 0), Instr.wf (.nop 64 0 0), Instr.wf (.nop 0 64 0)] = [true, false, false] := by decide
theorem test_wf_plan : Instr.wf (.planSubmit 0 0 0 (List.replicate 1058 0)) = false := by decide +kernel
theorem test_wf_channel : [Instr.wf (.weightLoad 0 0 0 .clean 15), Instr.wf (.weightLoad 0 0 0 .clean 16),
    Instr.wf (.weightLoadBroadcast 0 0 0 .clean 16), Instr.wf (.weightReplace 0 0 0 .clean 16),
    Instr.wf (.adapterAttach 0 0 0 .clean 16)] = [true, false, false, false, false] := by decide
theorem test_wf_linkRestore : [Instr.wf (.linkRestore 0 0 0 15 16383 31), Instr.wf (.linkRestore 0 0 0 16 0 0),
    Instr.wf (.linkRestore 0 0 0 0 16384 0), Instr.wf (.linkRestore 0 0 0 0 0 32)] = [true, false, false, false] := by decide
theorem test_wf_doorbells : [Instr.wf (.sqTailDoorbell 0 0 65535), Instr.wf (.sqTailDoorbell 0 0 65536),
    Instr.wf (.cqHeadDoorbell 0 0 65536)] = [true, false, false] := by decide
theorem test_wf_packet : [Instr.wf (.commandFetch 0 0 (List.replicate 16 0)), Instr.wf (.commandFetch 0 0 (List.replicate 15 0))] =
    [true, false] := by decide
theorem test_wf_vector : [Instr.wf (.rateToken 63 63), Instr.wf (.rateToken 0 64)] = [true, false] := by decide
theorem test_wf_core : [Instr.wf (.drain 3071 3 .clean), Instr.wf (.drain 3072 0 .clean), Instr.wf (.drain 0 4 .clean), Instr.wf (.storeWrite 0 4 .clean),
    Instr.wf (.vectorRun 3072 .clean), Instr.wf (.pairIssue 3072 .clean), Instr.wf (.configItem 3072),
    Instr.wf (.dealUpdateApply 3072), Instr.wf (.cutComplete 3072)] =
    [true, false, false, false, false, false, false, false, false] := by decide
theorem test_wf_link : [Instr.wf (.tileArrive 0 3 3), Instr.wf (.tileArrive 0 4 0), Instr.wf (.tileArrive 0 0 4),
    Instr.wf (.cutArrive 3072 0 0), Instr.wf (.showdownTileArrive 0 4 0)] = [true, false, false, false, false] := by decide
theorem test_wf_slot : [Instr.wf (.bindingTakeEffect 191 63), Instr.wf (.bindingTakeEffect 192 0), Instr.wf (.faultRecordWrite 0 64),
    Instr.wf (.streamRequest 192), Instr.wf (.streamDataReturn 192 0 .clean 0), Instr.wf (.runAheadRequest 0 64),
    Instr.wf (.streamAutoResume 192 0), Instr.wf (.weightLateTimeout 0 64)] =
    [true, false, false, false, false, false, false, false] := by decide
theorem test_wf_context : [Instr.wf (.loadAcksComplete 255 7), Instr.wf (.loadAcksComplete 256 0), Instr.wf (.replaceCutDone 0 8),
    Instr.wf (.outputTileArrive 0 0 1024), Instr.wf (.watchdogTimeout 256), Instr.wf (.routerWaitTimeout 256),
    Instr.wf (.expertSelect 0 256), Instr.wf (.combineRow 0 256 0)] =
    [true, false, false, false, false, false, false, false] := by decide
theorem test_wf_places : [Instr.wf (.regionGate 15), Instr.wf (.regionGate 16), Instr.wf (.regionUngate 16),
    Instr.wf (.frequencyChange 0 127), Instr.wf (.frequencyChange 0 128), Instr.wf (.frequencyChange 192 0), Instr.wf (.railFault 4),
    Instr.wf (.precisionLower (some 4)), Instr.wf (.thermalCapStep 4), Instr.wf (.scrubPassOverdue 65536)] =
    [true, false, false, true, false, false, false, false, false, false] := by decide
theorem test_wf_tables : [Instr.wf (.migrationStart 67108863), Instr.wf (.migrationStart 67108864), Instr.wf (.blockMapChangeDone 67108864),
    Instr.wf (.migrationDone 67108864 .clean), Instr.wf (.parkStart 0 16777216), Instr.wf (.parkComplete 256 0),
    Instr.wf (.kvRecordExpire 0 16777216), Instr.wf (.parkBringIn 0 16777216 0 .clean)] =
    [true, false, false, false, false, false, false, false] := by decide +kernel

theorem test_wf_readErrors : [Instr.wf (.copy 0 0 0 [⟨2 ^ 64 - 1, true⟩]), Instr.wf (.copy 0 0 0 [⟨2 ^ 64, true⟩]),
    Instr.wf (.commandCommit 0 0 [⟨0, false⟩, ⟨2 ^ 64, false⟩])] = [true, false, false] := by decide +kernel

/-- A frame whose fields hold the largest values of Table 13.2. -/
def wideFrame : Frame :=
  { ty := 255, ttl := 255, lseq := 65535, lack := 65535, circuit := 4095, src := 16383, dst := 16383, tw := [], payload := [] }

theorem test_wf_frame : [Instr.wf (.tile 31 wideFrame true), Instr.wf (.tile 32 wideFrame true),
    Instr.wf (.tile 0 { wideFrame with ty := 256 } true), Instr.wf (.tile 0 { wideFrame with ttl := 256 } true),
    Instr.wf (.tile 0 { wideFrame with lseq := 65536 } true), Instr.wf (.tile 0 { wideFrame with lack := 65536 } true),
    Instr.wf (.tile 0 { wideFrame with circuit := 4096 } true), Instr.wf (.tile 0 { wideFrame with src := 16384 } true),
    Instr.wf (.tile 0 { wideFrame with dst := 16384 } true), Instr.wf (.tile 0 { wideFrame with tw := List.replicate 7 0 } true)] =
    [true, false, false, false, false, false, false, false, false, false] := by decide +kernel
theorem test_wf_framePayload : Instr.wf (.tile 0 { wideFrame with payload := List.replicate 4097 0 } true) = false := by decide +kernel
theorem test_wf_linkTimers : [Instr.wf (.replayTimeout 32), Instr.wf (.ackTimer 32), Instr.wf (.lossOfLock 0 16),
    Instr.wf (.creditTimer 4096), Instr.wf (.creditTimeout 4096), Instr.wf (.laneRetrainDone 32 true),
    Instr.wf (.recallBorrowerDeadline 16384 0), Instr.wf (.neighbourLinkRestore 0 0 0 32)] =
    [false, false, false, false, false, false, false, false] := by decide
theorem test_wf_functions : [Instr.wf (.functionLevelReset 64), Instr.wf (.vfRemoval 64), Instr.wf (.vfEnable 64),
    Instr.wf (.partitionResetDone 64), Instr.wf (.faultRingEnable 64 0), Instr.wf (.frHeadWrite 64 0), Instr.wf (.intMaskWrite 64 0),
    Instr.wf (.registerWrite 0 5 0 4 0), Instr.wf (.registerReadClear 0 5 0 4), Instr.wf (.registerWrite 0 4 0 4 0)] =
    [false, false, false, false, false, false, false, false, false, true] := by decide
theorem test_wf_management : [Instr.wf (.errorReport 65535 15 65535 none 0), Instr.wf (.errorReport 65536 0 0 none 0),
    Instr.wf (.errorReport 0 16 0 none 0), Instr.wf (.errorReport 0 0 65536 none 0), Instr.wf (.errorReport 0 0 0 (some 256) 0),
    Instr.wf (.errorHubDrain 65536), Instr.wf (.correlationMarkerArrive 65536), Instr.wf (.testAccessPort 15 []),
    Instr.wf (.testAccessPort 16 [])] = [true, false, false, false, false, false, false, true, false] := by decide
theorem test_wf_sensors : [Instr.wf (.sensorSample (List.replicate 96 0) [] [] []), Instr.wf (.sensorSample [] [] [] []),
    Instr.wf (.governorTick 0 (List.replicate 95 0))] = [true, false, false] := by decide +kernel

/-! ### Values the manual works out -/

/-- Table 0.6: core (45, 30) is core 1,965, of cluster 151, region 12, die 3. -/
theorem test_place : (coreAt 45 30, clusterAt 45 30, regionOfCluster (clusterAt 45 30), dieOfCluster (clusterAt 45 30)) =
    (1965, 151, 12, 3) := by decide +kernel

/-- The reader's note on Table 2.14: no word spells a command. -/
theorem test_decode : decodeTableWord 32 0x30 = none := by decide

/-- Table 5.8: the group 2^20 + 3 x 2^-2 - 2^-40. -/
theorem test_window : groupTerm true [⟨1, 20, 0⟩, ⟨3, -2, 0⟩, ⟨-1, -40, 0⟩] = (2 ^ 116 + 3 * 2 ^ 94 - 2 ^ 60, 0, false) := by decide +kernel

/-- Table 5.8, its last sentence: with +2^-40 the sum is 2^20 + 0.75. -/
theorem test_window_up : groupTerm true [⟨1, 20, 0⟩, ⟨3, -2, 0⟩, ⟨1, -40, 0⟩] = (2 ^ 116 + 3 * 2 ^ 94, 0, false) := by decide +kernel

/-- The lane of x times x for the FP32 value nearest 1.1, in units of 2^-96. -/
def squareLane (passes : Nat) : Lane := { v := (groupTerm true (pairProds 7 passes (decF 0x3F8CCCCD) (decF 0x3F8CCCCD))).1 }

/-- Table 5.11: the lanes by pass count. -/
theorem test_square_lanes : (List.range 3).map (fun p => (squareLane (p + 1)).v) =
    [1284505600 * 2 ^ 66, 1299128320 * 2 ^ 66, 1299227336 * 2 ^ 66] := by decide +kernel

/-- Table 5.11: the FP32 results by pass count, nearest even and toward zero. -/
theorem test_square : (List.range 3).map (fun p => ((roundOut 7 false (squareLane (p + 1))).1, (roundOut 7 true (squareLane (p + 1))).1)) =
    [(0x3F992000, 0x3F992000), (0x3F9ADE40, 0x3F9ADE40), (0x3F9AE146, 0x3F9AE145)] := by decide +kernel

/-- Table 6.10: EXP2 of 2^-10. -/
theorem test_exp2 : fExp2 0x3A800000 = 0x3F801630 := by decide +kernel

/-- Table 11.8, expert 0 with CAPACITY 2: of the scores in twentieths, rows 1 and 3 (row 3 before row 6 at the same score). -/
theorem test_select : selectRows 2 ([1, 12, 2, 8, 4, 1, 8, 3].map (fun k => roundPos k 0)) = [1, 3] := by decide +kernel

/-- Table 11.8, expert 2: row 0 has NaN and never counts; rows 2 and 6. -/
theorem test_select_nan : selectRows 2 (qNaN :: [2, 5, 1, 3, 4, 6, 2].map (fun k => roundPos k 0)) = [2, 6] := by decide +kernel

/-- The KV geometry of the example of chapter 9: 80 layers of one group of one head of D 128 in F8a, 65,536 records, 40,960 blocks. -/
def lindenKv : KvGeom := ⟨80, 1, 1, 128, 0, 0x1000000000, 40960, 65536, 1, 0⟩

/-- Its figures: V tiles at PAGE_OFF 144 and the scale tile at 288 (of 64 bytes), 20,480 bytes a page, 10 blocks a slot, 80 blocks of
records, 4,088 slots. -/
theorem test_kv_geometry : (lindenKv.vBase / 64, lindenKv.sBase / 64, lindenKv.pageBytes, lindenKv.slotBlocks, lindenKv.recBlocks,
    lindenKv.poolSlots) = (144, 288, 20480, 10, 80, 4088) := by decide +kernel

/-- Table 15.5, order 3: the hub drains one of 16 records; the freed entry takes the lost record and its counter clears. -/
theorem test_burst : (match execErrorHubDrain 0x2002
      { State.reset with isl := [(0x2002, { fifo := List.replicate 16 (errRecord 0x10 1 0 0x2002 none 0 0), lost := [(1, 24)] })] } with
    | .next t => some ((t.islOf 0x2002).fifo.length, (t.islOf 0x2002).lost) | _ => none) = some (16, []) := by decide +kernel

/-- Table 16.1: at 2,650 W under 2,400 W the governor lowers G from 80 to 79, and at 2,367 W it holds. -/
theorem test_governor : [({ policyLimit := 2400, hostLimit := 2400, powerW := 2650, gov := 80, sinceChange := 100 } : Power).govern.gov,
    ({ policyLimit := 2400, hostLimit := 2400, powerW := 2367, gov := 74, sinceChange := 100 } : Power).govern.gov] = [79, 74] := by decide +kernel

/-- R476: level 1 at 95 degrees, left below 92; level 2 at 102, left below 98; level 3 at 110. -/
theorem test_levels : [levelNext 0 (95 * 16), levelNext 1 (92 * 16), levelNext 1 (92 * 16 - 1), levelNext 0 (102 * 16), levelNext 2 (98 * 16),
    levelNext 2 (98 * 16 - 1), levelNext 2 (110 * 16)] = [1, 1, 0, 2, 2, 1, 3] := by decide +kernel

/-- A NOP completes with status 0 and leaves its context alone. -/
theorem test_nop : (match exec (.nop 0 0 0) (running 0 0 []) with
    | .next t => (t.cmdOf 0 0 0).map (fun c => (c.isFinished, c.status)) | _ => none) = some (true, 0) := by decide +kernel

/-- R94: a data word of a core's issue with an uncorrectable error ends the command with SRAM_UNCORRECTABLE, class 0x5. -/
theorem test_class : statusClass St.sramUncorrectable = 5 := by decide

/-- A step takes the front command and keeps the rest. -/
theorem test_step : (match step { State.reset with pending := [.info, .logRead] } with
    | .next t => t.pending | _ => []) = [.logRead] := by decide +kernel

/-- The CRC-32 of R400, of the nine digits: the polynomial's known value. -/
theorem test_crc : crc32 ([0x31, 0x32, 0x33, 0x34, 0x35, 0x36, 0x37, 0x38, 0x39] : List Byte) = 0xCBF43926#32 := by decide +kernel

/-- The SHA-256 of R306, of "abc": its first four bytes. -/
theorem test_sha : (sha256 ([0x61, 0x62, 0x63] : List Byte)).take 4 = [0xBA, 0x78, 0x16, 0xBF] := by decide +kernel

namespace Wit1

theorem wit_PlainCommandsFinish_1 : ∃ (s : State) (f q n : Nat) (c : Cmd), s.Runs f q n 0x00 [] c :=
  ⟨running 0 0 [], 0, 0, 0, atWork 0 0 [], ⟨rfl, rfl, by decide⟩⟩

theorem wit_PlainCommandsFinish_2 : ∃ (s : State) (f q n : Nat) (c : Cmd), s.Runs f q n 0x12 [(2, 0x3F), (3, 0xFFFF)] c ∧
    (bit (word c.eff 2) 0 = true → precisionOk (word c.eff 2) = true) :=
  ⟨running 0x12 0xFF [0x0F, 0xFFFF], 0, 0, 0, atWork 0x12 0xFF [0x0F, 0xFFFF], ⟨rfl, rfl, by decide⟩, by decide⟩

theorem wit_PlainCommandsFinish_3 : ∃ (s : State) (f q n : Nat) (c : Cmd),
    s.Runs f q n 0x40 [(2, 0x0FFF00FF), (3, 0xFFFFFFFF), (4, 0xFFFF), (5, 0xFFFFFFFF), (6, 0xFFFFFFFF), (7, 0xFFFFFFFF), (8, 0xFFFFFFFF), (9, 0xFFFFFFFF), (10, 0xFFFFFFFF), (11, 0x1FFF)] c ∧
    wnat c.eff 3 % 4 = 0 ∧ wnat c.eff 5 ≤ 2 ^ 24 :=
  ⟨running 0x40 0 [1, 4, 0, 0x1000000], 0, 0, 0, atWork 0x40 0 [1, 4, 0, 0x1000000], ⟨rfl, rfl, by decide⟩, by decide, by decide⟩

theorem wit_PlainCommandsFinish_4 : ∃ (s : State) (f q n : Nat) (c : Cmd), s.Runs f q n 0x41 [(2, 0xFFF)] c :=
  ⟨{ running 0x41 0xFF [0xFFF] with sess := sessions }, 0, 0, 0, atWork 0x41 0xFF [0xFFF], ⟨rfl, rfl, by decide⟩⟩

theorem wit_PlainCommandsFinish_5 : ∃ (s : State) (f q n : Nat) (c : Cmd), s.Runs f q n 0x43 [(2, 0xFFF)] c ∧
    (s.sessOk c.ctx (sessionOf c.eff) = true → (s.sessOf (sessionOf c.eff)).state ≠ 5) :=
  ⟨{ running 0x43 0 [0] with sess := sessions }, 0, 0, 0, atWork 0x43 0 [0], ⟨rfl, rfl, by decide⟩, by decide⟩

theorem wit_PlainCommandsFinish_6 : ∃ (s : State) (f q n : Nat) (c : Cmd),
    s.Runs f q n 0x44 [(2, 0x1FFF), (3, 0xFFFFFFFF), (4, 0xFFFF), (5, 0xFFFFFFFF)] c ∧
    (s.sessOk c.ctx (sessionOf c.eff) = true → (s.sessOf (sessionOf c.eff)).state ≠ 5) ∧ wnat c.eff 3 % 4 = 0 ∧ wnat c.eff 5 ≤ 2 ^ 24 ∧
    (bit (word c.eff 2) 12 = true → wnat c.eff 5 ≠ 0) := by
  refine ⟨{ running 0x44 0 [0x1000, 4, 0, 0x1000000] with sess := sessions }, 0, 0, 0, atWork 0x44 0 [0x1000, 4, 0, 0x1000000],
    ⟨rfl, rfl, by decide⟩, ?_⟩
  and_intros <;> decide +kernel

theorem wit_PlainCommandsFinish_7 : ∃ (s : State) (f q n : Nat) (c : Cmd), s.Runs f q n 0x51 [(2, 0xFFF)] c ∧
    (s.sessOk c.ctx (sessionOf c.eff) = true → (s.sessOf (sessionOf c.eff)).state ≠ 5) :=
  ⟨{ running 0x51 0 [0] with sess := sessions }, 0, 0, 0, atWork 0x51 0 [0], ⟨rfl, rfl, by decide⟩, by decide⟩

theorem wit_PlainCommandsFinish_8 : ∃ (s : State) (f q n : Nat) (c : Cmd), s.Runs f q n 0x53 [(2, 0x1FFFFFF)] c ∧
    (bit (word c.eff 2) 24 = true ∨ ∃ g, (s.ctxOf c.ctx).geom = some g ∧ fld (word c.eff 2) 23 0 < g.records) :=
  ⟨running 0x53 0 [0x1FFFFFF], 0, 0, 0, atWork 0x53 0 [0x1FFFFFF], ⟨rfl, rfl, by decide⟩, .inl (by decide)⟩

theorem wit_PlainCommandsFinish_9 : ∃ (s : State) (f q n : Nat) (c : Cmd),
    s.Runs f q n 0x54 [(2, 1), (3, 0xFFFFFFFF), (4, 0xFFFFFFFF)] c ∧ bit (word c.eff 2) 0 = false :=
  ⟨running 0x54 0 [0, 5, 6], 0, 0, 0, atWork 0x54 0 [0, 5, 6], ⟨rfl, rfl, by decide⟩, by decide⟩

theorem wit_PlainCommandsFinish_10 : ∃ (s : State) (f q n : Nat) (c : Cmd),
    s.Runs f q n 0x82 [(2, 0x3F), (3, 0xFFFF), (4, 0xFFFF), (5, 0xFFFFFFFF), (6, 0xFFFFFFFF)] c ∧ s.mgmt.restarting = false ∧
    (bit (word c.eff 2) 5 = false → bit (word c.eff 2) 3 = true → fld (word c.eff 4) 15 0 ∈ allIslands) :=
  ⟨running 0x82 0 [0x08, 0, 0xBF], 0, 0, 0, atWork 0x82 0 [0x08, 0, 0xBF], ⟨rfl, rfl, by decide⟩, by decide, by decide⟩

theorem wit_PlainCommandsFinish_11 : ∃ (s : State) (f q n : Nat) (c : Cmd), s.Runs f q n 0x71 [] c ∧ s.openJob c.ctx = none :=
  ⟨running 0x71 0 [], 0, 0, 0, atWork 0x71 0 [], ⟨rfl, rfl, by decide⟩, by decide⟩

/-- Records 0 and 1 of context 0, attached to session 0. -/
def twoRecs : Kv := { recs := [(0, { state := 1, stage := 1 }), (1, { state := 1, stage := 1, parent := 0 })] }

theorem wit_ResultCommandsFinish_2 : ∃ (s : State) (f q n : Nat) (c : Cmd) (k : _), s.Runs f q n 0x10 [(2, 0x1F), (3, 0xFFFF)] c ∧
    precisionOk (word c.eff 2) = true ∧ s.freeCtx f = some k :=
  ⟨{ running 0x10 0 [0x0F, 0] with parts := homeParts }, 0, 0, 0, atWork 0x10 0 [0x0F, 0], 0, ⟨rfl, rfl, by decide⟩, by decide, by decide⟩

theorem wit_ResultCommandsFinish_3 : ∃ (s : State) (f q n : Nat) (c : Cmd),
    s.Runs f q n 0x21 [(2, 0xFFFFFFFF), (3, 0xFFFF), (4, 0x1FFFF)] c ∧
    s.inPool c.ctx (bwFirst c.eff * blockBytes) (bwCount c.eff * blockBytes) = false ∧ addr48 c.eff 2 % blockBytes = 0 ∧
    1 ≤ bwCount c.eff ∧ bwCount c.eff ≤ 65536 ∧ bwFirst c.eff + bwCount c.eff ≤ 2 ^ 30 := by
  refine ⟨{ running 0x21 0 [0, 0, 2] with parts := homeParts, tiers := twoBlocks }, 0, 0, 0, atWork 0x21 0 [0, 0, 2], ?_⟩
  and_intros <;> first | decide +kernel | exact runs_of (by decide +kernel)

theorem wit_ResultCommandsFinish_4 : ∃ (s : State) (f q n : Nat) (c : Cmd),
    s.Runs f q n 0x24 [(2, 0xFFFFFFFF), (3, 0xFFFF), (4, 0x1FFFF), (5, 0xF)] c ∧
    s.inPool c.ctx (bwFirst c.eff * blockBytes) (bwCount c.eff * blockBytes) = false ∧ addr48 c.eff 2 % blockBytes = 0 ∧
    1 ≤ bwCount c.eff ∧ bwCount c.eff ≤ 65536 ∧ bwFirst c.eff + bwCount c.eff ≤ 2 ^ 30 ∧ fld (word c.eff 5) 1 0 ≠ 3 ∧
    fld (word c.eff 5) 3 2 ≠ 3 ∧ s.access c.ctx 2 (bwFirst c.eff * blockBytes) (bwCount c.eff * blockBytes) false = .ready := by
  refine ⟨{ running 0x24 0 [0, 0, 2, 1] with parts := homeParts, tiers := twoBlocks }, 0, 0, 0, atWork 0x24 0 [0, 0, 2, 1], ?_⟩
  and_intros <;> first | decide +kernel | exact runs_of (by decide +kernel)

theorem wit_ResultCommandsFinish_5 : ∃ (s : State) (f q n : Nat) (c : Cmd), s.Runs f q n 0x25 [(2, 3), (3, 0xFFFFFFFF)] c ∧
    fld (word c.eff 2) 1 0 ≠ 3 ∧ wnat c.eff 3 ≤ s.ceilOf (s.ctxOf c.ctx).part (fld (word c.eff 2) 1 0) :=
  ⟨{ running 0x25 0 [1, 100] with parts := homeParts }, 0, 0, 0, atWork 0x25 0 [1, 100], ⟨rfl, rfl, by decide⟩, by decide, by decide⟩

theorem wit_ResultCommandsFinish_6 : ∃ (s : State) (f q n : Nat) (c : Cmd) (o : Obj),
    s.Runs f q n 0x64 [(2, 0xFFFFFFFF), (3, 0x80000000)] c ∧ (bit (word c.eff 3) 31 = true → f = 0) ∧
    s.objOf (objKey f (weightName c.eff 31)) = some o ∧ o.present = true :=
  ⟨{ running 0x64 0 [7, 0] with store := { objs := [(7, some { id := 7, present := true, slots := [3] })] } }, 0, 0, 0,
    atWork 0x64 0 [7, 0], { id := 7, present := true, slots := [3] }, ⟨rfl, rfl, by decide⟩, by decide, by decide, by decide⟩

theorem wit_ResultCommandsFinish_7 : ∃ (s : State) (f q n : Nat) (c : Cmd),
    s.Runs f q n 0x50 [(2, 0xFFF), (3, 0xFFFFFFFF), (4, 0xFFFF), (5, 0xFFFFFFFF), (6, 0x1FFFF)] c ∧ (s.ctxOf c.ctx).geom.isSome = true ∧
    (s.sessOk c.ctx (sessionOf c.eff) = true → (s.sessOf (sessionOf c.eff)).state ≠ 5) ∧ wnat c.eff 3 % 4 = 0 ∧ 64 ≤ wnat c.eff 5 ∧
    wnat c.eff 5 ≤ 2 ^ 24 ∧ s.access c.ctx 3 (addr48 c.eff 3) (4 * wnat c.eff 5) true = .ready := by
  refine ⟨{ running 0x50 0 [0, 0, 0, 64, 0x10000] with parts := homeParts, tiers := twoBlocks, sess := sessions, ctxs := kvCtx }, 0, 0, 0,
    atWork 0x50 0 [0, 0, 0, 64, 0x10000], ⟨rfl, rfl, by decide⟩, ?_⟩
  and_intros <;> decide +kernel

theorem wit_ResultCommandsFinish_8 : ∃ (s : State) (f q n : Nat) (c : Cmd), s.Runs f q n 0x72 [(2, 0x1F)] c ∧
    (s.portOf (fld (word c.eff 2) 4 0)).state = 2 ∧ (s.portOf (fld (word c.eff 2) 4 0)).mappedOut = false :=
  ⟨{ running 0x72 0 [0x1F] with fab := { ports := [(31, { state := 2, lanesUp := 7 })] } }, 0, 0, 0, atWork 0x72 0 [0x1F],
    ⟨rfl, rfl, by decide⟩, by decide, by decide⟩

/-- A CANCEL by tag of the command with serial number 5, which it has found. -/
def cancelled : Cmd := { atWork 0x01 0 [0x100, 0] with work := .cancelOf [(5, true)] true }

/-- A command with serial number 5 that a cancel by tag has ended. -/
def cancelTarget : Cmd := { atWork 0 0 [] with n := 5, phase := .finished, status := 0x1001 }

theorem wit_LongCommandsFinish_1 : ∃ (s : State) (f q n : Nat) (c : Cmd) (ts : _), c.status = 0 ∧
    s.Runs f q n 0x01 [(2, 0x13F), (3, if bit (word c.eff 2) 8 then 0xFF else 0xFFFF)] c ∧ c.work = .cancelOf ts true ∧
    (∀ t ∈ ts, ∀ x, s.cmdOf f (fld (word c.eff 2) 5 0) t.1 = some x → x.phase = .finished ∧
      (t.2 = true ∨ x.status ≠ 0 ∨ (fld (word c.eff 2) 5 0 = q ∧ n < t.1))) := by
  refine ⟨withQueue { oneQueue with window := [cancelled, cancelTarget] }, 0, 0, 0, cancelled, [(5, true)], rfl, ⟨rfl, rfl, by decide⟩, rfl, ?_⟩
  intro t ht x hx
  obtain rfl : t = (5, true) := by simpa using ht
  cases (show (withQueue { oneQueue with window := [cancelled, cancelTarget] }).cmdOf 0 0 5 = some cancelTarget from rfl).symm.trans hx
  exact ⟨rfl, .inl rfl⟩

theorem wit_LongCommandsFinish_2 : ∃ (s : State) (f q n : Nat) (c : Cmd) (num : _), c.status = 0 ∧ s.started f q n 0x02 = some c ∧
    c.work = .correlation num ∧ s.mgmt.corrDue = [] :=
  ⟨withCmd { atWork 0x02 0 [] with work := .correlation 1 }, 0, 0, 0, { atWork 0x02 0 [] with work := .correlation 1 }, 1, by decide, rfl,
    by decide, by decide⟩

theorem wit_LongCommandsFinish_3 : ∃ (s : State) (f q n : Nat) (c : Cmd) (k g l : _), c.status = 0 ∧ s.started f q n 0x13 = some c ∧
    c.work = .layout k g ∧ s.layoutOf c.ctx (lwLayout c.eff) = some l ∧ l.phase = .acked :=
  ⟨{ withCmd { atWork 0x13 0 [] with work := .layout 0 1 } with ctxs := withLayout { phase := .acked } }, 0, 0, 0,
    { atWork 0x13 0 [] with work := .layout 0 1 }, 0, 1, { phase := .acked }, by decide, rfl, by decide, by decide, by decide⟩

theorem wit_LongCommandsFinish_4 : ∃ (s : State) (f q n : Nat) (c : Cmd) (k l : _), c.status = 0 ∧ s.started f q n 0x14 = some c ∧
    c.work = .layout k 3 ∧ s.layoutOf c.ctx (lwLayout c.eff) = some l ∧ l.phase = .cutDone :=
  ⟨{ withCmd { atWork 0x14 0 [] with work := .layout 0 3 } with ctxs := withLayout { phase := .cutDone } }, 0, 0, 0,
    { atWork 0x14 0 [] with work := .layout 0 3 }, 0, { phase := .cutDone }, by decide, rfl, by decide, by decide, by decide⟩

theorem wit_LongCommandsFinish_5 : ∃ (s : State) (f q n : Nat) (c : Cmd) (k l : _), c.status = 0 ∧ s.started f q n 0x15 = some c ∧
    c.work = .layout k 3 ∧ s.layoutOf c.ctx (lwLayout c.eff) = some l ∧ l.phase = .cutDone :=
  ⟨{ withCmd { atWork 0x15 0 [] with work := .layout 0 3 } with ctxs := withLayout { phase := .cutDone } }, 0, 0, 0,
    { atWork 0x15 0 [] with work := .layout 0 3 }, 0, { phase := .cutDone }, by decide, rfl, by decide, by decide, by decide⟩

theorem wit_LongCommandsFinish_6 : ∃ (s : State) (f q n : Nat) (c : Cmd) (k a l : _), c.status = 0 ∧ s.started f q n 0x16 = some c ∧
    c.work = .move k 2 a ∧ s.layoutOf c.ctx (lwLayout c.eff) = some l ∧ l.phase = .acked :=
  ⟨{ withCmd { atWork 0x16 0 [] with work := .move 0 2 0 } with ctxs := withLayout { phase := .acked } }, 0, 0, 0,
    { atWork 0x16 0 [] with work := .move 0 2 0 }, 0, 0, { phase := .acked }, by decide, rfl, by decide, by decide, by decide⟩

theorem wit_LongCommandsFinish_7 : ∃ (s : State) (f q n : Nat) (c : Cmd) (total out : _), c.status = 0 ∧ s.started f q n 0x30 = some c ∧
    c.work = .streams total out ∧ s.cmdSlots f q n = [] ∧ c.overflows = [] ∧ c.malformed = [] := by
  refine ⟨withCmd { atWork 0x30 0 [] with work := .streams 2 1 }, 0, 0, 0, { atWork 0x30 0 [] with work := .streams 2 1 }, 2, 1, ?_⟩
  and_intros <;> decide +kernel

theorem wit_LongCommandsFinish_8 : ∃ (s : State) (f q n : Nat) (c : Cmd) (total out : _), c.status = 0 ∧ s.started f q n 0x31 = some c ∧
    c.work = .streams total out ∧ s.cmdSlots f q n = [] ∧ c.overflows = [] ∧ c.malformed = [] := by
  refine ⟨withCmd { atWork 0x31 0 [] with work := .streams 2 1 }, 0, 0, 0, { atWork 0x31 0 [] with work := .streams 2 1 }, 2, 1, ?_⟩
  and_intros <;> decide +kernel

theorem wit_LongCommandsFinish_9 : ∃ (s : State) (f q n : Nat) (c : Cmd) (i k released refused : _), c.status = 0 ∧
    s.started f q n 0x27 = some c ∧ c.work = .recall i k released refused true :=
  ⟨withCmd { atWork 0x27 0 [] with work := .recall 1 1 1 0 true }, 0, 0, 0, { atWork 0x27 0 [] with work := .recall 1 1 1 0 true }, 1, 1,
    1, 0, by decide, rfl, by decide⟩

theorem wit_LongCommandsFinish_10 : ∃ (s : State) (f q n : Nat) (c : Cmd) (num : _), c.status = 0 ∧ s.started f q n 0x81 = some c ∧
    c.work = .showdown num ∧ s.mgmt.showHeld = true ∧ s.mgmt.showNum = num ∧ s.mgmt.showRecorded = true := by
  refine ⟨{ withCmd { atWork 0x81 0 [] with work := .showdown 1 } with mgmt := { showHeld := true, showNum := 1, showRecorded := true } },
    0, 0, 0, { atWork 0x81 0 [] with work := .showdown 1 }, 1, ?_⟩
  and_intros <;> decide +kernel

theorem wit_LongCommandsFinish_11 : ∃ (s : State) (f q n : Nat) (c : Cmd) (root count : _), c.status = 0 ∧
    s.Runs f q n 0x52 [(2, 0xFFF)] c ∧ c.work = .kv root count ∧
    (s.sessOk c.ctx (sessionOf c.eff) = true → (s.sessOf (sessionOf c.eff)).state ≠ 5 ∧
      ∀ r ∈ s.chain c.ctx (s.sessOf (sessionOf c.eff)).tail, ∀ i ∈ s.slotEntries c.ctx (s.recOf c.ctx r),
        (s.bmOf i).state ≠ 2 ∧ (s.bmOf i).state ≠ 3) :=
  ⟨{ withCmd { atWork 0x52 0 [0] with work := .kv 0 1 } with sess := [(0, { state := 1, tail := 0 })], kv := { recs := [(0, { state := 1, stage := 2 })] } },
    0, 0, 0, { atWork 0x52 0 [0] with work := .kv 0 1 }, 0, 1, rfl, ⟨rfl, rfl, by decide⟩, rfl, by decide +kernel⟩

theorem wit_LongCommandsFinish_12 : ∃ (s : State) (f q n : Nat) (c : Cmd) (id j : _), c.status = 0 ∧ s.started f q n 0x70 = some c ∧
    c.work = .job id ∧ s.jobOf c.ctx = some j ∧ s.jobReady c.ctx j = true :=
  ⟨{ withCmd { atWork 0x70 0 [] with work := .job 7 } with ctxs := [(0, { live := true, job := some { jobId := 7, members := [0], rank := 0 } })] },
    0, 0, 0, { atWork 0x70 0 [] with work := .job 7 }, 7, { jobId := 7, members := [0], rank := 0 }, by decide, rfl, by decide, by decide,
    by decide⟩

theorem wit_DataCommandsFinish_1 : ∃ (s : State) (f q n : Nat) (c : Cmd),
    s.Runs f q n 0x22 [(2, 0xFFFFFFFF), (3, 0xFFFF), (4, 0xFFFFFFFF), (5, 0xFFFF), (6, 0xFFFFFFFF)] c ∧ bytesOk 0 (wnat c.eff 6) = true ∧
    s.access c.ctx 4 (addr48 c.eff 4) (wnat c.eff 6) true = .ready ∧ s.DstReady c.ctx 2 (addr48 c.eff 2) (wnat c.eff 6) ∧
    s.WriteRoom c [(addr48 c.eff 2, wnat c.eff 6)] := by
  refine ⟨writing (writer 0x22 [0, 0, 0x40000, 0, 0x40]), 0, 0, 0, writer 0x22 [0, 0, 0x40000, 0, 0x40], ?_, ?_, ?_, ?_,
    roomInShadow 0 { frame := 2 } (by decide) rfl⟩ <;>
    first | decide +kernel | exact runs_of (by decide +kernel) | exact dstReady_of (by decide +kernel)

theorem wit_DataCommandsFinish_2 : ∃ (s : State) (f q n : Nat) (c : Cmd),
    s.Runs f q n 0x23 [(2, 0xFFFFFFFF), (3, 0xFFFF), (4, 0xFFFFFFFF), (5, 0xFFFFFFFF)] c ∧ bytesOk 0 (wnat c.eff 4) = true ∧
    s.DstReady c.ctx 2 (addr48 c.eff 2) (wnat c.eff 4) ∧ s.WriteRoom c [(addr48 c.eff 2, wnat c.eff 4)] := by
  refine ⟨writing (writer 0x23 [0x20, 0, 4, 5]), 0, 0, 0, writer 0x23 [0x20, 0, 4, 5], ?_, ?_, ?_,
    roomInShadow 0 { frame := 2 } (by decide) rfl⟩ <;>
    first | decide +kernel | exact runs_of (by decide +kernel) | exact dstReady_of (by decide +kernel)

theorem wit_DataCommandsFinish_3 : ∃ (s : State) (f q n : Nat) (c : Cmd) (data : List Byte),
    s.Runs f q n 0x28 [(2, 0xFFFFFFFF), (3, 0xFFFF), (4, 0xFFFFFFFF), (5, 0xFFFFFFFF), (6, 0xFFFFFFFF)] c ∧
    bytesOk 0 (wnat c.eff 6) = true ∧ s.DstReady c.ctx 2 (addr48 c.eff 2) (wnat c.eff 6) ∧ data.length = wnat c.eff 6 ∧
    s.WriteRoom c [(addr48 c.eff 2, wnat c.eff 6)] := by
  refine ⟨writing (atWork 0x28 0 [0, 0, 0, 0, 2]), 0, 0, 0, atWork 0x28 0 [0, 0, 0, 0, 2], [1, 2], ?_, ?_, ?_, ?_,
    roomForShadow 0 (by decide) (by decide +kernel) (by decide +kernel)⟩ <;>
    first | decide +kernel | exact runs_of (by decide +kernel) | exact dstReady_of (by decide +kernel)

theorem wit_DataCommandsFinish_4 : ∃ (s : State) (f q n : Nat) (c : Cmd),
    s.Runs f q n 0x29 [(2, 0xFFFFFFFF), (3, 0xFFFF), (4, 0xFFFFFFFF), (5, 0xFFFFFFFF), (6, 0xFFFFFFFF)] c ∧
    bytesOk 0 (wnat c.eff 6) = true ∧ s.access c.ctx 2 (addr48 c.eff 2) (wnat c.eff 6) true = .ready :=
  ⟨{ running 0x29 0 [0x7FFFF, 0, 0, 0, 1] with parts := homeParts, tiers := twoBlocks }, 0, 0, 0, atWork 0x29 0 [0x7FFFF, 0, 0, 0, 1],
    ⟨rfl, rfl, by decide⟩, by decide, by decide⟩

theorem wit_DataCommandsFinish_5 : ∃ (s : State) (f q n : Nat) (c : Cmd) (op words r : _),
    s.Runs f q n 0x33 [(2, 3), (3, 0xFFFFFFFF), (4, 0xFFFF), (5, 0xFFFFFFFF), (6, 0xFFFFFFFF), (7, 0xFFFF)] c ∧
    op = fld (word c.eff 2) 1 0 ∧ words = (if op = 0 then 0 else if op = 3 then wnat c.eff 5 else 1) ∧
    r = shapeValue op (wnat c.eff 5) (toWords (s.readCtx c.ctx (addr48 c.eff 6) (4 * words))) ∧ wnat c.eff 3 % 4 = 0 ∧
    (op = 3 → 1 ≤ wnat c.eff 5 ∧ wnat c.eff 5 ≤ 1024) ∧ wnat c.eff 6 % 4 = 0 ∧ (op = 0 → wnat c.eff 6 = 0 ∧ wnat c.eff 7 = 0) ∧
    s.access c.ctx 6 (addr48 c.eff 6) (4 * words) true = .ready ∧ s.WriteReady c.ctx 3 (addr48 c.eff 3) 4 ∧
    s.WriteRoom c [(addr48 c.eff 3, 4)] := by
  refine ⟨writing (writer 0x33 [1, 8, 0, 5, 4, 0]), 0, 0, 0, writer 0x33 [1, 8, 0, 5, 4, 0], 1, 1, 5, ?_, ?_, ?_, ?_, ?_, ?_, ?_, ?_,
    ?_, ?_, roomInShadow 0 { frame := 2 } (by decide) rfl⟩ <;>
    first | decide +kernel | exact runs_of (by decide +kernel) | exact writeReady_of (by decide +kernel)

theorem wit_FillStoresItsPattern_1 : ∃ (s : State) (f q n blk off : Nat) (w : Shadow) (c : Cmd),
    s.Runs f q n 0x23 [(2, 0xFFFFFFFF), (3, 0xFFFF), (4, 0xFFFFFFFF), (5, 0xFFFFFFFF)] c ∧ addr48 c.eff 2 = blk * blockBytes + off ∧
    off % 64 = 0 ∧ wnat c.eff 4 % 64 = 0 ∧ 1 ≤ wnat c.eff 4 ∧ off + wnat c.eff 4 ≤ blockBytes ∧
    s.DstReady c.ctx 2 (addr48 c.eff 2) (wnat c.eff 4) ∧ c.shadows.find? (fun p => p.1 = blk) = some (blk, w) := by
  refine ⟨{ withCmd { atWork 0x23 0 [0x40000, 0, 64, 5] with shadows := twoShadows } with parts := homeParts, tiers := twoBlocks }, 0,
    0, 0, 1, 0, { frame := 3 }, { atWork 0x23 0 [0x40000, 0, 64, 5] with shadows := twoShadows }, ?_⟩
  and_intros <;> first | decide +kernel | exact runs_of (by decide +kernel) | exact dstReady_of (by decide +kernel)

theorem wit_WritesLandInTheShadow_1 : ∃ (s : State) (f q n blk off base : Nat) (w : Shadow) (c : Cmd) (len : Nat),
    base = w.frame * blockBytes + off ∧ c.shadows.find? (fun p => p.1 = blk) = some (blk, w) ∧
    addr48 c.eff (if c.op = 0x33 then 3 else 2) = blk * blockBytes + off ∧
    s.Runs f q n 0x22 [(2, 0xFFFFFFFF), (3, 0xFFFF), (4, 0xFFFFFFFF), (5, 0xFFFF), (6, 0xFFFFFFFF)] c ∧ len = wnat c.eff 6 ∧
    off % 64 = 0 ∧ len % 64 = 0 ∧ 1 ≤ len ∧ off + len ≤ blockBytes ∧ s.access c.ctx 4 (addr48 c.eff 4) len true = .ready ∧
    s.DstReady c.ctx 2 (addr48 c.eff 2) len := by
  refine ⟨writing (writer 0x22 [0x7FFC0, 0, 0, 0, 64]), 0, 0, 0, 1, 0x3FFC0, 0xFFFC0, { frame := 3 }, writer 0x22 [0x7FFC0, 0, 0, 0, 64], 64,
    rfl, rfl, rfl, ⟨rfl, rfl, by decide⟩, rfl, rfl, rfl, by decide, by decide, by decide, ⟨by decide, ⟨?_, ?_, ?_⟩⟩⟩ <;> decide +kernel

theorem wit_WritesLandInTheShadow_2 : ∃ (s : State) (f q n blk off base : Nat) (w : Shadow) (c : Cmd) (data : List Byte) (len : Nat),
    base = w.frame * blockBytes + off ∧ c.shadows.find? (fun p => p.1 = blk) = some (blk, w) ∧
    addr48 c.eff (if c.op = 0x33 then 3 else 2) = blk * blockBytes + off ∧
    s.Runs f q n 0x28 [(2, 0xFFFFFFFF), (3, 0xFFFF), (4, 0xFFFFFFFF), (5, 0xFFFFFFFF), (6, 0xFFFFFFFF)] c ∧ len = wnat c.eff 6 ∧
    off % 64 = 0 ∧ len % 64 = 0 ∧ 1 ≤ len ∧ off + len ≤ blockBytes ∧ data.length = len ∧ s.DstReady c.ctx 2 (addr48 c.eff 2) len := by
  refine ⟨writing (writer 0x28 [0, 0, 0, 0, 64]), 0, 0, 0, 0, 0, 0x80000, { frame := 2 }, writer 0x28 [0, 0, 0, 0, 64], List.replicate 64 9,
    64, rfl, rfl, rfl, ⟨rfl, rfl, by decide⟩, rfl, rfl, rfl, by decide, by decide, rfl, ⟨by decide, ⟨?_, ?_, ?_⟩⟩⟩ <;> decide +kernel

theorem wit_WritesLandInTheShadow_3 : ∃ (s : State) (f q n blk off base : Nat) (w : Shadow) (c : Cmd) (r : Nat),
    base = w.frame * blockBytes + off ∧ c.shadows.find? (fun p => p.1 = blk) = some (blk, w) ∧
    addr48 c.eff (if c.op = 0x33 then 3 else 2) = blk * blockBytes + off ∧
    s.Runs f q n 0x33 [(2, 3), (3, 0xFFFFFFFF), (4, 0xFFFF), (5, 0xFFFFFFFF), (6, 0xFFFFFFFF), (7, 0xFFFF)] c ∧
    fld (word c.eff 2) 1 0 = 0 ∧ r = wnat c.eff 5 ∧ off % 4 = 0 ∧ off + 4 ≤ blockBytes ∧ wnat c.eff 6 = 0 ∧ wnat c.eff 7 = 0 ∧
    s.WriteReady c.ctx 3 (addr48 c.eff 3) 4 := by
  refine ⟨writing (writer 0x33 [0, 0x3FFFC, 0, 7, 0, 0]), 0, 0, 0, 0, 0x3FFFC, 0xBFFFC, { frame := 2 }, writer 0x33 [0, 0x3FFFC, 0, 7, 0, 0], 7,
    rfl, rfl, rfl, ⟨rfl, rfl, by decide⟩, rfl, rfl, rfl, by decide, rfl, rfl, ⟨?_, ?_, ?_⟩⟩ <;> decide +kernel

end Wit1

namespace Wit2

/-- The header of a plan image and the record of its one enabled partition. -/
def onePlanHead : List Word := [0x1504E, 9, 0,0,0,0,0,0,0,0,0,0,0,0,0,0, 1, 0, 0, 0, 0, 0, 0x1000001, 0x1000000, 0xC000000, 0x4000000, 100,
  100, 100, 0, 0x3F010101, 64].map w32
/-- The plan: that, and 1,008 zero words. -/
def onePlan : List Word := onePlanHead ++ List.replicate 1008 0

theorem onePlan_headLength : onePlanHead.length = 32 := by decide +kernel
theorem onePlan_tail (k : Nat) (h : 32 ≤ k) : word onePlan k = 0 := by
  have hl : onePlanHead.length = 32 := onePlan_headLength
  simp only [word, onePlan, List.getD_eq_getElem?_getD]
  rw [List.getElem?_append_right (by omega), List.getElem?_replicate]
  split <;> rfl

theorem onePlan_imf (o hi lo : Nat) (h : 128 ≤ o) : imf onePlan o hi lo = 0 := by
  simp only [imf, wnat]
  rw [onePlan_tail _ (by omega)]
  simp [bits]

theorem onePlan_rest (p : Nat) (h : 1 ≤ p) : recordErrs onePlan p = [] := by
  have ho : planOn onePlan p = false := by
    simp only [planOn]; rw [onePlan_imf _ _ _ (by simp only [recAt]; omega)]; decide
  have hc : planClusters onePlan p = 0 := by
    have hw (i : Nat) : wnat onePlan (recAt p / 4 + i) = 0 := by
      simp only [wnat]; rw [onePlan_tail _ (by simp only [recAt]; omega)]; rfl
    simp [planClusters, hw, sumNat, List.range, List.range.loop]
  have hf (i hi lo : Nat) : imf onePlan (recAt p + 4 * i) hi lo = 0 := onePlan_imf _ _ _ (by simp only [recAt]; omega)
  simp only [recordErrs, ho, hc, hf]
  have : p ≠ 0 := by omega
  simp [bad, recordFields, this]
theorem onePlan_first : recordErrs onePlan 0 = [] := by decide +kernel
theorem onePlan_header : (List.range 14).flatMap (fun i => bad (wnat onePlan (2 + i) ≠ 0) (8 + 4 * i)) = [] := by decide +kernel

theorem planFault_none (ws : List Word) (h0 : imf ws 0 15 0 = 0x504E ∧ imf ws 0 23 16 = 1 ∧ imf ws 0 31 24 = 0)
    (h1 : (List.range 14).flatMap (fun i => bad (wnat ws (2 + i) ≠ 0) (8 + 4 * i)) = [])
    (h2 : ∀ p, recordErrs ws p = []) : planFault ws = none := by
  have h3 : (List.range 64).flatMap (recordErrs ws) = [] := by simp [h2]
  simp only [planFault, h1, h3]
  simp [h0, bad]

theorem onePlan_good : planFault onePlan = none :=
  planFault_none onePlan (by decide +kernel) onePlan_header (fun p => by
    by_cases h : 1 ≤ p
    · exact onePlan_rest p h
    · have : p = 0 := by omega
      subst this; exact onePlan_first)

theorem wit_ResultCommandsFinish_1 : ∃ (s : State) (f q n : Nat) (c : Cmd) (plan : List Word),
    s.Runs f q n 0x03 [(2, 0xFFFFFFFF), (3, 0xFFFFFFFF), (4, 1)] c ∧ wnat c.eff 2 % 64 = 0 ∧ plan.length = 1040 ∧ planFault plan = none :=
  ⟨running 0x03 0 [0, 0, 1], 0, 0, 0, atWork 0x03 0 [0, 0, 1], onePlan, ⟨rfl, rfl, by decide⟩, by decide, by decide +kernel, onePlan_good⟩

end Wit2

namespace Wit3

theorem wit_MappingCommandsPrepare_1 : ∃ (s : State) (f q n : Nat) (c : Cmd),
    s.Runs f q n 0x20 [(2, 0xFFFFFFFF), (3, 0xFFFF), (4, 0x1FFFF), (5, 0xFF)] c ∧ fld (word c.eff 5) 1 0 ≠ 3 ∧
    fld (word c.eff 5) 7 6 ≠ 3 ∧ fld (word c.eff 5) 5 2 ≤ 2 ∧
    s.inPool c.ctx (bwFirst c.eff * blockBytes) (bwCount c.eff * blockBytes) = false ∧ addr48 c.eff 2 % blockBytes = 0 ∧
    1 ≤ bwCount c.eff ∧ bwCount c.eff ≤ 65536 ∧ bwFirst c.eff + bwCount c.eff ≤ 2 ^ 30 ∧
    (∀ b ∈ rangeBlocks (bwFirst c.eff) (bwCount c.eff), s.isMapped c.ctx b = false) ∧
    (s.slotsFor (s.ctxOf c.ctx).part c.ctx (rangeBlocks (bwFirst c.eff) (bwCount c.eff))).isSome = true ∧
    (s.mapFrames f q n c.ctx (fld (word c.eff 5) 1 0) (fld (word c.eff 5) 5 2) (fld (word c.eff 5) 7 6) (rangeBlocks (bwFirst c.eff) (bwCount c.eff))).isSome = true := by
  refine ⟨{ running 0x20 0 [0x80000, 0, 1, 0x42] with parts := homeParts, tiers := twoBlocks }, 0, 0, 0,
    atWork 0x20 0 [0x80000, 0, 1, 0x42], ?_⟩
  and_intros <;> first | decide +kernel | exact runs_of (by decide +kernel)

theorem wit_MappingCommandsPrepare_2 : ∃ (s : State) (f q n : Nat) (c : Cmd), s.started f q n 0x54 = some c ∧ c.status = 0 ∧
    bit (word c.eff 2) 0 = true ∧ verdictOf (s.configChecks c) = none ∧
    (s.mapFrames f q n c.ctx 2 0 0 (rangeBlocks ((geomOf c.eff).pool / blockBytes) (geomOf c.eff).recBlocks)).isSome = true :=
  ⟨{ running 0x54 0 [1, 0x400000, 0, 16, 0x1000, 4, 1] with parts := homeParts, tiers := twoBlocks, ctxs := [(0, { live := true })] }, 0,
    0, 0, atWork 0x54 0 [1, 0x400000, 0, 16, 0x1000, 4, 1], rfl, by decide, by decide, by decide, by decide⟩

theorem wit_MappingCommandsPrepare_3 : ∃ (s : State) (f q n : Nat) (c : Cmd),
    s.Runs f q n 0x26 [(2, 0xFFFFFFFF), (3, 0xFFFF), (4, 0x1FFFF), (5, 0x3FFF)] c ∧ c.work = .none ∧
    s.inPool c.ctx (bwFirst c.eff * blockBytes) (bwCount c.eff * blockBytes) = false ∧ addr48 c.eff 2 % blockBytes = 0 ∧
    1 ≤ bwCount c.eff ∧ bwCount c.eff ≤ 65536 ∧ bwFirst c.eff + bwCount c.eff ≤ 2 ^ 30 ∧ fld (word c.eff 5) 13 0 ≠ s.fab.chip ∧
    (∀ b ∈ rangeBlocks (bwFirst c.eff) (bwCount c.eff), s.isMapped c.ctx b = false) ∧
    (s.slotsFor (s.ctxOf c.ctx).part c.ctx (rangeBlocks (bwFirst c.eff) (bwCount c.eff))).isSome = true ∧
    s.quotaRoom c.ctx 2 (bwCount c.eff) = true ∧
    (s.sendReq { id := 0, chip := fld (word c.eff 5) 13 0, ctx := c.ctx, lend := true, count := bwCount c.eff }).isSome = true := by
  refine ⟨{ running 0x26 0 [0x80000, 0, 1, 1] with parts := homeParts, tiers := twoBlocks, fab := twoChips, ctxs := [(0, { live := true })] },
    0, 0, 0, atWork 0x26 0 [0x80000, 0, 1, 1], ?_⟩
  and_intros <;> first | decide +kernel | exact runs_of (by decide +kernel)

theorem wit_MappingCommandsPrepare_4 : ∃ (s : State) (f q n : Nat) (c : Cmd), s.Runs f q n 0x32 [(2, 0xFFFF)] c ∧ fld (word c.eff 2) 15 0 ≠ 0 :=
  ⟨running 0x32 0 [0xFFFF], 0, 0, 0, atWork 0x32 0 [0xFFFF], ⟨rfl, rfl, by decide⟩, by decide⟩

theorem wit_MappingCommandsPrepare_5 : ∃ (s : State) (c : Cmd) (key v cause : _), c.op = 0x32 ∧ tget none s.slots key = some v ∧
    v.ctx = c.ctx ∧ v.state = .halted cause (fld (word c.eff 2) 15 0) ∧
    (∀ p ∈ s.usedSlots, p.2.ctx = c.ctx → (∃ k, p.2.state = .halted k (fld (word c.eff 2) 15 0)) → p.1 = key) :=
  ⟨{ running 0x32 0 [0xFFFF] with slots := [(5, some { state := .halted 1 0xFFFF }), (6, some { state := .running })] },
    atWork 0x32 0 [0xFFFF], 5, { state := .halted 1 0xFFFF }, 1, by decide, by decide, by decide, by decide, by simp [State.usedSlots]⟩

theorem wit_MappingCommandsPrepare_6 : ∃ (s : State) (c : Cmd), c.op = 0x32 ∧
    (∀ p ∈ s.usedSlots, p.2.ctx = c.ctx → ∀ k, p.2.state ≠ .halted k (fld (word c.eff 2) 15 0)) :=
  ⟨{ running 0x32 0 [1] with slots := [(5, some { state := .halted 1 0xFFFF }), (6, some { state := .running })] }, atWork 0x32 0 [1],
    by decide, by simp [State.usedSlots]; decide⟩

theorem wit_MappingCommandsPrepare_7 : ∃ (s : State) (f q n : Nat) (c : Cmd), s.Runs f q n 0x72 [(2, 0x1F)] c ∧
    (s.portOf (fld (word c.eff 2) 4 0)).usable = false :=
  ⟨{ running 0x72 0 [31] with fab := { ports := [(31, { state := 3 })] } }, 0, 0, 0, atWork 0x72 0 [31], ⟨rfl, rfl, by decide⟩, by decide⟩

theorem wit_MappingCommandsPrepare_8 : ∃ (s : State) (c : Cmd) (p lanes chip nport : _), c.op = 0x72 ∧
    c.work = .restore p lanes chip nport ∧ (s.portOf p).usable = false ∧ 3 ≤ laneCount lanes :=
  ⟨{ running 0x72 0 [31] with fab := { ports := [(31, { state := 3 })] } }, { atWork 0x72 0 [31] with work := .restore 31 13 1 0 }, 31, 13, 1,
    0, by decide, by decide, by decide, by decide⟩

theorem wit_MappingCommandsPrepare_9 : ∃ (s : State) (f q n : Nat) (c : Cmd), s.Runs f q n 0x73 [(2, 0xFF)] c ∧ c.work = .none ∧
    (s.portOf (fld (word c.eff 2) 4 0)).usable = true ∧ (s.portOf (fld (word c.eff 2) 4 0)).recalActive = false ∧
    bit (word c.eff 2) 7 = false ∧
    ¬ (nbit (s.portOf (fld (word c.eff 2) 4 0)).lanesUp (fld (word c.eff 2) 6 5) = true ∧
      laneCount (s.portOf (fld (word c.eff 2) 4 0)).lanesUp < 4) := by
  refine ⟨{ running 0x73 0 [0x60] with fab := twoChips }, 0, 0, 0, atWork 0x73 0 [0x60], ⟨rfl, rfl, by decide⟩, ?_⟩
  and_intros <;> decide +kernel

theorem wit_QueueRegistersAct_1 : ∃ (s : State) (f q value : Nat), q < 64 ∧ s.fnLive f = true ∧ s.cp.halted = false ∧
    (s.queueOf f q).takesDoorbell = true ∧ value % 65536 ≤ (s.queueOf f q).sqSizeM1 := by
  refine ⟨withQueue oneQueue, 0, 0, 7, ?_⟩
  and_intros <;> decide +kernel

theorem wit_QueueRegistersAct_2 : ∃ (s : State) (f q value : Nat) (size : _), q < 64 ∧ s.fnLive f = true ∧
    (s.queueOf f q).takesDoorbell = true ∧ size = (s.queueOf f q).cqSizeM1 + 1 ∧ value % 65536 < size ∧
    (value % 65536 + size - (s.queueOf f q).cqHead) % size ≤ ((s.queueOf f q).cqTail + size - (s.queueOf f q).cqHead) % size := by
  refine ⟨withQueue { oneQueue with cqTail := 3, cqHead := 6 }, 0, 0, 3, 8, ?_⟩
  and_intros <;> decide +kernel

theorem wit_QueueRegistersAct_3 : ∃ (s : State) (f q : Nat) (v : Word), q < 64 ∧ s.fnLive f = true ∧ bit v 0 = true ∧
    (s.queueOf f q).state = .disabled ∧ s.partEnabled f = true ∧ (s.queueOf f q).sqSizeM1 ≠ 0 ∧ (s.queueOf f q).cqSizeM1 ≠ 0 ∧
    (s.queueOf f q).sqBase.toNat % 4096 = 0 ∧ (s.queueOf f q).cqBase.toNat % 4096 = 0 := by
  refine ⟨withQueue { oneQueue with state := .disabled, sqBase := 0x1000 }, 0, 0, 1, ?_⟩
  and_intros <;> decide +kernel

theorem wit_QueueRegistersAct_4 : ∃ (s : State) (f q : Nat) (v : Word), q < 64 ∧ s.fnLive f = true ∧ bit v 0 = false ∧
    (s.queueOf f q).takesDoorbell = true :=
  ⟨withQueue oneQueue, 0, 0, 0, by decide, by decide, by decide, by decide⟩

theorem wit_QueueRegistersAct_5 : ∃ (s : State) (f q : Nat) (v : Word), q < 64 ∧ s.fnLive f = true ∧ bit v 3 = true ∧
    (s.queueOf f q).takesDoorbell = true :=
  ⟨withQueue oneQueue, 0, 0, 8, by decide, by decide, by decide, by decide⟩

theorem wit_QueueRegistersAct_6 : ∃ (s : State) (f q : Nat) (v : Word), q < 64 ∧ s.fnLive f = true ∧ bit v 0 = true ∧ bit v 2 = true ∧
    bit v 3 = false ∧ (s.queueOf f q).state = .stopped := by
  refine ⟨withQueue { oneQueue with state := .stopped }, 0, 0, 5, ?_⟩
  and_intros <;> decide +kernel

theorem wit_QueueRegistersAct_7 : ∃ (s : State) (f q : Nat), q < 64 ∧ (s.queueOf f q).state = .resetting ∧ (s.queueOf f q).window = [] ∧
    (s.partOf f).resetting = false :=
  ⟨withQueue { oneQueue with state := .resetting }, 0, 0, by decide, by decide, by decide, by decide⟩

/-- A packet of 16 words. -/
def packet16 (op ctx : Nat) (ws : List Nat) : List Word := packet op ctx ws ++ List.replicate (14 - ws.length) 0

theorem wit_FetchTakesThePacket_1 : ∃ (s : State) (f q : Nat) (packet : List Word), s.canFetch f q = true ∧ packet.length = 16 ∧
    s.headerVerdict f packet = none :=
  ⟨withQueue { oneQueue with sqTail := 1 }, 0, 0, packet16 0 0 [], by decide, by decide, by decide⟩

theorem wit_FetchTakesThePacket_2 : ∃ (s : State) (f q : Nat) (packet : List Word) (v : Verdict), s.canFetch f q = true ∧
    packet.length = 16 ∧ s.headerVerdict f packet = some v :=
  ⟨withQueue { oneQueue with sqTail := 1 }, 0, 0, packet16 0xFF 0 [], ⟨St.invalidOpcode, 0, 0⟩, by decide, by decide, rfl⟩

theorem wit_FetchTakesThePacket_3 : ∃ (s : State) (f q : Nat) (x : _), x = s.queueOf f q ∧ x.eligible ≠ 0 ∧ x.coalTime ≠ 0 :=
  ⟨withQueue { oneQueue with eligible := 1, coalTime := 1, coalCount := 2 }, 0, 0,
    { oneQueue with eligible := 1, coalTime := 1, coalCount := 2 }, rfl, by decide, by decide⟩

/-- A partition with an interrupt rate of one message a microsecond, whose vector 63 holds a message back or does not. -/
def withVector (v : Vec) : State :=
  { State.reset with cp := { fns := [(0, { vecs := [(63, v)], msixEnable := true })] }, power := linked,
                     parts := { recs := [(0, { record := List.replicate 15 0 ++ [0x10000] })] } }

theorem wit_FetchTakesThePacket_4 : ∃ (s : State) (f : Nat) (v x : _), x = (s.fnOf f).vecOf v ∧ s.intRate f ≠ 0 ∧
    (s.partOf f).resetting = false ∧ x.held = false :=
  ⟨withVector { tokens := 8, masked := false }, 0, 63, { tokens := 8, masked := false }, rfl, by decide, by decide, by decide⟩

theorem wit_FetchTakesThePacket_5 : ∃ (s : State) (f : Nat) (v x : _), x = (s.fnOf f).vecOf v ∧ s.intRate f ≠ 0 ∧
    (s.partOf f).resetting = false ∧ x.held = true ∧ (s.fnOf f).vecBlocked v = false :=
  ⟨withVector { tokens := 0, masked := false, held := true }, 0, 63, { tokens := 0, masked := false, held := true }, rfl, by decide,
    by decide, by decide, by decide⟩

/-- A command fetched, not yet started. -/
def fetched (op ctx : Nat) (ws : List Nat) : Cmd := { words := packet op ctx ws, eff := packet op ctx ws }

theorem wit_CommandsStartAndRerun_1 : ∃ (s : State) (f q n : Nat) (c : Cmd), s.cmdOf f q n = some c ∧ s.cp.halted = false ∧
    c.phase = .fetched ∧ ((∃ r, (s.queueOf f q).window = c :: r) ∨ (depOf c.words = false ∧ indirectOf c.words = false)) ∧
    (namesContext c.words = true → s.ctxLive c.ctx = true) ∧ s.barred f q c = false ∧ indirectOf c.words = false ∧
    layoutWord c.op = none ∧ c.order = 0 := by
  refine ⟨withCmd (fetched 0 0 []), 0, 0, 0, fetched 0 0 [], ?_⟩
  and_intros <;> first | decide +kernel | exact .inl ⟨_, rfl⟩

theorem wit_CommandsStartAndRerun_2 : ∃ (s : State) (f q n : Nat) (c : Cmd), s.cmdOf f q n = some c ∧ s.cp.halted = false ∧
    c.phase = .fetched ∧ c.status = 0 ∧ ((∃ r, (s.queueOf f q).window = c :: r) ∨ (depOf c.words = false ∧ indirectOf c.words = false)) ∧
    namesContext c.words = true ∧ s.ctxLive c.ctx = false := by
  refine ⟨withCmd (fetched 0x41 0 [1]), 0, 0, 0, fetched 0x41 0 [1], ?_⟩
  and_intros <;> first | decide +kernel | exact .inl ⟨_, rfl⟩

theorem wit_CommandsStartAndRerun_3 : ∃ (s : State) (f q n : Nat) (c : Cmd) (l lnum : _), s.cmdOf f q n = some c ∧ s.cp.halted = false ∧
    c.phase = .fetched ∧ (∃ r, (s.queueOf f q).window = c :: r) ∧ namesContext c.words = true ∧ s.ctxLive c.ctx = true ∧
    s.barred f q c = false ∧ indirectOf c.words = false ∧ c.eff = c.words ∧ c.runsOnLayout = true ∧ c.layoutNum = some lnum ∧
    s.layoutRefused c = none ∧ s.layoutHeld f q c = false ∧ s.layoutOf c.ctx lnum = some l ∧
    s.shortClusters c.ctx lnum l (s.trialSlots f q c lnum) = [] ∧ s.rivals c.ctx lnum [] (s.trialSlots f q c lnum) = [] := by
  refine ⟨{ withCmd (fetched 0x30 0 [0, 0, 0, 1]) with ctxs := withLayout { phase := .loaded } }, 0, 0, 0, fetched 0x30 0 [0, 0, 0, 1],
    { phase := .loaded }, 0, ?_⟩
  and_intros <;> first | decide +kernel | exact ⟨_, rfl⟩

theorem wit_CommandsStartAndRerun_4 : ∃ (s : State) (f q n : Nat) (c : Cmd) (l lnum : _), s.cmdOf f q n = some c ∧ s.cp.halted = false ∧
    c.phase = .preempted ∧ c.preempts ≤ (s.queueOf f q).preemptLimit ∧ c.behind = none ∧ c.order ≠ 0 ∧ indirectOf c.words = false ∧
    c.eff = c.words ∧ c.runsOnLayout = true ∧ c.layoutNum = some lnum ∧ s.moving c.ctx lnum = false ∧ s.layoutRefused c = none ∧
    s.layoutHeld f q c = false ∧ s.layoutOf c.ctx lnum = some l ∧ s.shortClusters c.ctx lnum l (s.trialSlots f q c lnum) = [] := by
  refine ⟨{ withCmd { atWork 0x30 0 [0, 0, 0, 1] with phase := .preempted } with ctxs := withLayout { phase := .loaded } }, 0, 0, 0,
    { atWork 0x30 0 [0, 0, 0, 1] with phase := .preempted }, { phase := .loaded }, 0, ?_⟩
  and_intros <;> decide +kernel

theorem wit_CommandsStartAndRerun_5 : ∃ (s : State) (f q n : Nat) (c : Cmd) (l : _), s.cmdOf f q n = some c ∧ s.cp.halted = false ∧
    c.phase = .preempted ∧ c.status = 0 ∧ (s.queueOf f q).preemptLimit < c.preempts ∧ s.moving c.ctx (c.layoutNum.getD 0) = false ∧
    s.layoutOf c.ctx (c.layoutNum.getD 0) = some l ∧ c.work = .none ∧ s.cmdSlots f q n = [] ∧ c.shadows = [] ∧ c.maps = [] := by
  refine ⟨{ withCmd { atWork 0x30 0 [0, 0, 0, 1] with phase := .preempted, preempts := 4 } with ctxs := withLayout { phase := .loaded } },
    0, 0, 0, { atWork 0x30 0 [0, 0, 0, 1] with phase := .preempted, preempts := 4 }, { phase := .loaded }, ?_⟩
  and_intros <;> decide +kernel

/-- A NOP finished at the head of a running queue. -/
def finishedNop : Cmd := { atWork 0 0 [] with phase := .finished }

theorem wit_CommitWritesItsRecord_1 : ∃ (s u : State) (f q a b : Nat) (c : Cmd) (r : List Cmd) (x : Queue), x = s.queueOf f q ∧
    x.window = c :: r ∧ c.phase = .finished ∧ c.status = 0 ∧ c.overflowed = false ∧ c.reduced = false ∧ c.shadows = [] ∧
    intOf c.words = false ∧ c.op ≠ 0x03 ∧ c.op ≠ 0x10 ∧ x.state = .running ∧ x.ringFull = false ∧ s.power.linkUp = true ∧
    (s.partOf f).resetting = false ∧ s.cp.halted = false ∧ s.prepHeld f q c.n = false ∧
    (namesContext c.words = true → s.spanHeld f q c.n c.ctx = false) ∧ s.commitTables f q c = .ok u a b ∧ u.cp = s.cp ∧ u.parts = s.parts ∧ u.isl = s.isl := by
  refine ⟨withQueue { oneQueue with window := [finishedNop] }, withQueue { oneQueue with window := [finishedNop] }, 0, 0, 0, 0,
    finishedNop, [], { oneQueue with window := [finishedNop] }, ?_⟩
  and_intros <;> first | decide +kernel | rfl

theorem wit_StagedCommandsAct_1 : ∃ (s : State) (f q n : Nat) (c : Cmd), s.started f q n c.op = some c ∧ c.status = 0 ∧ c.op = 0x45 ∧
    c.work = .none ∧ reservedWord c.eff [(2, 0xFFF)] = none ∧ s.sessOk c.ctx (sessionOf c.eff) = true ∧
    (s.sessOf (sessionOf c.eff)).state ≠ 5 ∧
    (∀ x ∈ s.allCmds, x.2.2.namesSession c.ctx (sessionOf c.eff) = false ∧ x.2.2.stepWith c.ctx (sessionOf c.eff) = false) := by
  refine ⟨{ running 0x45 0 [0] with sess := sessions }, 0, 0, 0, atWork 0x45 0 [0], ?_⟩
  and_intros <;> decide +kernel

theorem wit_StagedCommandsAct_2 : ∃ (s : State) (f q n : Nat) (c : Cmd) (k count steps : _), s.started f q n c.op = some c ∧
    c.status = 0 ∧ c.op = 0x45 ∧ c.work = .sessionCancel k count steps ∧
    (∀ x ∈ steps, ∀ d st, s.cmdOf x.1 x.2.1 x.2.2 = some d → d.work = .step st → ∀ e ∈ st.entries, e.session = k → e.dropAcks = []) :=
  ⟨withCmd { atWork 0x45 0 [0] with work := .sessionCancel 0 1 [] }, 0, 0, 0, { atWork 0x45 0 [0] with work := .sessionCancel 0 1 [] }, 0,
    1, [], rfl, by decide, by decide, by decide, by simp⟩

theorem wit_StagedCommandsAct_3 : ∃ (s : State) (f q n : Nat) (c : Cmd) (st : _), s.started f q n c.op = some c ∧ c.status = 0 ∧
    c.op = 0x42 ∧ c.work = .step st ∧ st.span = false ∧ s.cmdSlots f q n = [] ∧ c.overflows = [] ∧ c.malformed = [] := by
  refine ⟨withCmd { atWork 0x42 0 [] with work := .step {} }, 0, 0, 0, { atWork 0x42 0 [] with work := .step {} }, {}, ?_⟩
  and_intros <;> decide +kernel

theorem wit_StagedCommandsAct_4 : ∃ (s : State) (f q n : Nat) (c : Cmd) (image : List Byte) (len key stripes : _),
    s.started f q n c.op = some c ∧ c.status = 0 ∧ c.op = 0x60 ∧ c.work = .none ∧
    reservedWord c.eff [(2, 0xFFFFFFFF), (3, 1), (4, 0xFFFFFFFF), (5, 0xFFFFFFFF), (6, 0xFFFFFFFF), (7, 0xFF)] = none ∧
    len = wnat c.eff 6 + fld (word c.eff 7) 7 0 * 2 ^ 32 ∧ key = objKey f (weightName c.eff 0) ∧ stripes = ceilDiv len stripeBytes ∧
    (bit (word c.eff 3) 0 = true → f = 0) ∧ wnat c.eff 2 ≠ 0 ∧ wnat c.eff 2 ≠ 0xFFFFFFFF ∧ s.objOf key = none ∧ wnat c.eff 4 % 64 = 0 ∧
    64 ≤ len ∧ len ≤ 2 ^ 40 ∧ image.length = len ∧ s.writersBegun < 8 ∧ s.stripesOf f + stripes ≤ wnat (s.partOf f).record 13 ∧
    stripes ≤ (s.slotsIn 0).length ∧ s.store.objs.length < 16384 ∧ objectFault image = none := by
  refine ⟨{ running 0x60 0 [7, 0, 0, 0, 192, 0] with store := { slotCount := 1 }, parts := storeParts }, 0, 0, 0,
    atWork 0x60 0 [7, 0, 0, 0, 192, 0], smallImage false, 192, 7, 1, ?_⟩
  and_intros <;> decide +kernel

theorem wit_StagedCommandsAct_5 : ∃ (s : State) (f q n : Nat) (c : Cmd) (k slots o : _), s.started f q n c.op = some c ∧ c.status = 0 ∧
    c.op = 0x60 ∧ c.work = .object k slots ∧ s.objOf k = some o :=
  ⟨{ withCmd { atWork 0x60 0 [] with work := .object 7 [3] } with store := { objs := [(7, some (smallObj false))] } }, 0, 0, 0,
    { atWork 0x60 0 [] with work := .object 7 [3] }, 7, [3], smallObj false, rfl, by decide, by decide, by decide, by rfl⟩

theorem wit_StagedCommandsAct_6 : ∃ (s : State) (f q n : Nat) (c : Cmd), s.started f q n c.op = some c ∧ c.status = 0 ∧ c.op = 0x80 ∧
    c.work = .none ∧ reservedWord c.eff [(2, 0xFFF001)] = none ∧
    fld (word c.eff 2) 23 12 < (if fld (word c.eff 2) 0 0 = 1 then 192 else 3072) ∧ (f ≠ 0 → s.clusterOwner (testCluster c.eff) = f) ∧
    s.mgmt.restarting = false ∧ s.gatedIn [testCluster c.eff] = false ∧ s.testIdle (testCluster c.eff) = true ∧
    testCluster c.eff ∉ s.mgmt.testing := by
  refine ⟨running 0x80 0 [0x0BF001], 0, 0, 0, atWork 0x80 0 [0x0BF001], ?_⟩
  and_intros <;> decide +kernel

theorem wit_StagedCommandsAct_7 : ∃ (s : State) (f q n : Nat) (c : Cmd) (a b d : _), s.started f q n c.op = some c ∧ c.status = 0 ∧
    c.op = 0x80 ∧ c.work = .target a b d :=
  ⟨withCmd { atWork 0x80 0 [1] with work := .target 0 0 1 }, 0, 0, 0, { atWork 0x80 0 [1] with work := .target 0 0 1 }, 0, 0, 1, rfl,
    by decide, by decide, by decide⟩

theorem wit_StagedCommandsAct_8 : ∃ (s : State) (f q n : Nat) (c : Cmd), s.started f q n c.op = some c ∧ c.status = 0 ∧ c.op = 0x83 ∧
    c.work = .none ∧ reservedWord c.eff [(2, 0xF3), (3, 0xFFFF)] = none ∧ fld (word c.eff 2) 1 0 ≠ 3 ∧
    (fld (word c.eff 2) 1 0 = 0 → fld (word c.eff 2) 7 4 < 4) ∧ s.mgmt.restarting = false := by
  refine ⟨running 0x83 0 [0x30], 0, 0, 0, atWork 0x83 0 [0x30], ?_⟩
  and_intros <;> decide +kernel

theorem wit_StagedCommandsAct_9 : ∃ (s : State) (f q n : Nat) (c : Cmd) (us k i : _), s.started f q n c.op = some c ∧ c.status = 0 ∧
    c.op = 0x83 ∧ c.work = .target k i 1 ∧ us ≤ 5000 :=
  ⟨withCmd { atWork 0x83 0 [] with work := .target 0 3 1 }, 0, 0, 0, { atWork 0x83 0 [] with work := .target 0 3 1 }, 5000, 0, 3, rfl,
    by decide, by decide, by decide, by decide⟩

theorem wit_StagedCommandsAct_10 : ∃ (s : State) (f q n : Nat) (c : Cmd) (k i : _), s.started f q n c.op = some c ∧ c.status = 0 ∧
    s.retrainWaits f q n = some (k, i) ∧ s.targetInFlight k i = false :=
  ⟨withCmd { atWork 0x83 0 [] with work := .target 0 3 0 }, 0, 0, 0, { atWork 0x83 0 [] with work := .target 0 3 0 }, 0, 3, rfl,
    by decide, by decide, by decide⟩

theorem wit_StagedCommandsAct_11 : ∃ (s : State) (f q n : Nat) (c : Cmd) (k i : _), s.started f q n c.op = some c ∧ c.status = 0 ∧
    s.retrainWaits f q n = some (k, i) ∧ c.work = .target k i 0 ∧ s.cmdSlots f q n = [] ∧ c.shadows = [] ∧ c.maps = [] := by
  refine ⟨withCmd { atWork 0x83 0 [] with work := .target 0 3 0 }, 0, 0, 0, { atWork 0x83 0 [] with work := .target 0 3 0 }, 0, 3, ?_⟩
  and_intros <;> decide +kernel

theorem wit_StagedCommandsAct_12 : ∃ (s : State) (f q n : Nat) (c : Cmd), s.started f q n c.op = some c ∧ c.status = 0 ∧ c.op = 0x45 ∧
    c.work = .none ∧ reservedWord c.eff [(2, 0xFFF)] = none ∧ s.sessOk c.ctx (sessionOf c.eff) = false := by
  refine ⟨running 0x45 0 [0xFFF], 0, 0, 0, atWork 0x45 0 [0xFFF], rfl, ?_⟩
  and_intros <;> decide +kernel

/-- The object 7, of one piece, beside the two mapped blocks. -/
def loading (c : Cmd) (adapter : Bool) : State := { writing c with store := { objs := [(7, some (smallObj adapter))] } }

theorem wit_WeightCommandsAct_1 : ∃ (s : State) (f q n : Nat) (c : Cmd) (o : Obj) (ps : List Piece),
    s.Runs f q n 0x61 [(2, 0xFFFFFFFF), (3, 0x80003FFF), (4, 0xFFFFFFFF), (5, 0xFFFF)] c ∧ s.findObj f c = some o ∧
    ps = o.shardPieces (loadShard c.eff) ∧ ps ≠ [] ∧ loadDest c.eff % blockBytes = 0 ∧ s.destOk c.ctx (loadDest c.eff) ps = true ∧
    (∀ p ∈ ps, s.access c.ctx 4 (loadDest c.eff + p.dst) p.len false = .ready ∧ (o.pieceBytes p).length = p.len) ∧
    s.WriteRoom c (ps.map (fun p => (loadDest c.eff + p.dst, p.len))) := by
  refine ⟨loading (writer 0x61 [7, 0, 0, 0]) false, 0, 0, 0, writer 0x61 [7, 0, 0, 0], smallObj false, (smallObj false).shardPieces 0,
    ⟨rfl, rfl, by decide⟩, ?_, ?_, ?_, ?_, ?_, ?_, roomInShadow 0 { frame := 2 } ?_ rfl⟩ <;> decide +kernel

theorem wit_WeightCommandsAct_2 : ∃ (s : State) (f q n : Nat) (c : Cmd) (o : Obj) (ps : List Piece),
    s.Runs f q n 0x65 [(2, 0xFFFFFFFF), (3, 0x80003FFF), (4, 0xFFFFFFFF), (5, 0xFFFF)] c ∧ s.findObj f c = some o ∧
    ps = o.shardPieces (loadShard c.eff) ∧ ps ≠ [] ∧ loadDest c.eff % blockBytes = 0 ∧ s.destOk c.ctx (loadDest c.eff) ps = true ∧
    imKind o.image = 1 ∧ (decide (2 ^ 32 ≤ imBase o.image), imBase o.image % 2 ^ 32) ∈ (s.ctxOf c.ctx).bases ∧
    s.adapterOf c.ctx (weightName c.eff 31) = none ∧ (s.ctxOf c.ctx).adapters.length < 256 ∧
    (∀ p ∈ ps, s.access c.ctx 4 (loadDest c.eff + p.dst) p.len false = .ready ∧ (o.pieceBytes p).length = p.len) ∧
    s.WriteRoom c (ps.map (fun p => (loadDest c.eff + p.dst, p.len))) := by
  refine ⟨{ loading (writer 0x65 [7, 0, 0, 0]) true with ctxs := [(0, { live := true, bases := [(false, 5)] })] }, 0, 0, 0,
    writer 0x65 [7, 0, 0, 0], smallObj true, (smallObj true).shardPieces 0, ⟨rfl, rfl, by decide⟩, ?_, ?_, ?_, ?_, ?_, ?_, ?_, ?_, ?_, ?_,
    roomInShadow 0 { frame := 2 } ?_ rfl⟩ <;> decide +kernel

theorem wit_WeightCommandsAct_3 : ∃ (s : State) (f q n : Nat) (c : Cmd) (a : Adapter),
    s.Runs f q n 0x66 [(2, 0xFFFFFFFF), (3, 0x80000000)] c ∧ s.adapterOf c.ctx (weightName c.eff 31) = some a ∧
    (∀ e ∈ a.extents, s.access c.ctx 2 e.1 e.2 false = .ready) ∧ s.WriteRoom c a.extents := by
  refine ⟨{ writing (writer 0x66 [7, 0]) with ctxs := [(0, { live := true, adapters := [⟨false, 7, 0, 0, [(0, 64)]⟩] })] }, 0, 0, 0,
    writer 0x66 [7, 0], ⟨false, 7, 0, 0, [(0, 64)]⟩, ⟨rfl, rfl, by decide⟩, ?_, ?_, roomInShadow 0 { frame := 2 } ?_ rfl⟩ <;> decide +kernel

/-- A piece of 64 bytes and a job whose reader has announced it. -/
def smallPiece : Piece := { index := 0, shard := 0, layer := 0, code := 0, src := 0, dst := 0, len := 64 }

def loadJob : Job :=
  { jobId := 1, members := [0, 1], rank := 0, isOpen := true, announced := { name := 7, total := 1, pieces := [smallPiece] } }

theorem wit_WeightCommandsAct_4 : ∃ (s : State) (f q n : Nat) (c : Cmd) (ps : List Piece) (j nm shard dest rd kd sent got ld : _),
    s.Runs f q n 0x62 [(2, 0xFFFFFFFF), (3, 0x80003FFF), (4, 0xFFFFFFFF), (5, 0xFFFF), (6, 0x3FFF)] c ∧
    c.work = .broadcast nm shard dest rd kd sent got ld ∧ s.openJob c.ctx = some j ∧ fld (word c.eff 6) 13 0 < j.members.length ∧
    j.rank ≠ fld (word c.eff 6) 13 0 ∧ loadDest c.eff % blockBytes = 0 ∧ j.announcedShard (weightName c.eff 31) shard = some ps ∧
    ps ≠ [] ∧ s.destOk c.ctx dest ps = true ∧ ps.all (pieceWhole got) = true := by
  refine ⟨{ withCmd { atWork 0x62 0 [7, 0, 0, 0, 1] with work := .broadcast 7 0 0 1 0 0 [(0, 0, 64)] false } with parts := homeParts, tiers := twoBlocks, ctxs := [(0, { live := true, job := some loadJob })] },
    0, 0, 0, { atWork 0x62 0 [7, 0, 0, 0, 1] with work := .broadcast 7 0 0 1 0 0 [(0, 0, 64)] false }, [smallPiece], loadJob, 7, 0, 0,
    1, 0, 0, [(0, 0, 64)], false, ?_⟩
  and_intros <;> first | decide +kernel | exact runs_of (by decide +kernel)

/-- The reader of that load, which has sent every piece and heard from the other member. -/
def reading : Cmd := { atWork 0x62 0 [7, 0, 0, 0, 0] with work := .broadcast 7 0 0 1 0 1 [] true }

theorem wit_WeightCommandsAct_5 : ∃ (s : State) (f q n : Nat) (c : Cmd) (o : Obj) (j nm shard dest rd kd sent got : _),
    s.Runs f q n 0x62 [(2, 0xFFFFFFFF), (3, 0x80003FFF), (4, 0xFFFFFFFF), (5, 0xFFFF), (6, 0x3FFF)] c ∧
    c.work = .broadcast nm shard dest rd kd sent got true ∧ s.openJob c.ctx = some j ∧ j.rank < j.members.length ∧
    fld (word c.eff 6) 13 0 = j.rank ∧ loadDest c.eff % blockBytes = 0 ∧ s.findObj f c = some o ∧
    o.shardPieces (loadShard c.eff) ≠ [] ∧ s.destOk c.ctx (loadDest c.eff) (o.shardPieces (loadShard c.eff)) = true ∧
    (∀ r ∈ j.loadReqs, r.2.1 ≠ weightName c.eff 31) ∧ (∀ p ∈ j.others, (p.1, weightName c.eff 31) ∈ j.dones) := by
  refine ⟨{ loading reading false with ctxs := [(0, { live := true, job := some { loadJob with dones := [(1, 7)] } })] }, 0, 0, 0, reading,
    smallObj false, { loadJob with dones := [(1, 7)] }, 7, 0, 0, 1, 0, 1, [], ⟨rfl, rfl, by decide⟩, ?_⟩
  and_intros <;> decide +kernel

theorem wit_WeightCommandsAct_6 : ∃ (s : State) (f q n : Nat) (c : Cmd) (o : Obj) (ps : List Piece) (staging u k : _),
    s.Runs f q n 0x63 [(2, 0xFFFFFFFF), (3, 0x80003FFF), (4, 0xFFFFFFFF), (5, 0xFFFF)] c ∧ c.work = .none ∧
    s.findObj f c = some o ∧ imKind o.image = 0 ∧ ps = o.shardPieces (loadShard c.eff) ∧ ps ≠ [] ∧ loadDest c.eff % blockBytes = 0 ∧
    s.destOk c.ctx (loadDest c.eff) ps = true ∧ k = ceilDiv (sumNat (ps.map (fun p => p.len))) blockBytes ∧
    s.quotaRoom c.ctx 1 k = true ∧ s.takeStaging c.ctx k = some (staging, u) := by
  refine ⟨loading (atWork 0x63 0 [7, 0, 0, 0]) false, 0, 0, 0, atWork 0x63 0 [7, 0, 0, 0], smallObj false, (smallObj false).shardPieces 0, _, _,
    1, ⟨rfl, rfl, by decide⟩, by decide, by decide +kernel, by decide +kernel, rfl, by decide +kernel, by decide +kernel, by decide +kernel,
    by decide +kernel, by decide +kernel, rfl⟩

theorem wit_WeightCommandsAct_7 : ∃ (s : State) (f q n : Nat) (c : Cmd) (o : Obj) (shard dest k layers held staging nm : _),
    s.started f q n 0x63 = some c ∧ c.work = .replace nm shard dest 1 k layers held staging ∧ s.findObj f c = some o ∧
    (s.ctxOf c.ctx).barrier = none :=
  ⟨loading { atWork 0x63 0 [7, 0, 0, 0] with work := .replace 7 0 0 1 0 1 0 [(0, 9)] } false, 0, 0, 0,
    { atWork 0x63 0 [7, 0, 0, 0] with work := .replace 7 0 0 1 0 1 0 [(0, 9)] }, smallObj false, 0, 0, 0, 1, 0, [(0, 9)], 7, rfl, by decide,
    by decide +kernel, by decide⟩

theorem wit_WeightCommandsAct_8 : ∃ (s : State) (f q n : Nat) (c : Cmd) (o : Obj) (ps : List Piece) (shard dest starts layers held staging nm : _),
    s.started f q n 0x63 = some c ∧ c.status = 0 ∧ c.work = .replace nm shard dest 2 starts layers held staging ∧ s.findObj f c = some o ∧
    ps = o.shardPieces shard ∧ s.behindBarrier f q n c.ctx starts = true ∧ s.destInvalid c.ctx dest ps = none ∧
    s.destSettled c.ctx dest ps = true := by
  refine ⟨{ withCmd { atWork 0x63 0 [7, 0, 0, 0] with work := .replace 7 0 0 2 0 1 0 [] } with parts := homeParts, tiers := twoBlocks, store := { objs := [(7, some (smallObj false))] } },
    0, 0, 0, { atWork 0x63 0 [7, 0, 0, 0] with work := .replace 7 0 0 2 0 1 0 [] }, smallObj false, (smallObj false).shardPieces 0, 0,
    0, 0, 1, 0, [], 7, ?_⟩
  and_intros <;> decide +kernel

end Wit3

namespace Wit4

theorem pair_false {α : Type} {x : α × Bool} (h : x.2 = false) : x = (x.1, false) := by
  cases x; cases h; rfl

/-- A matrix hand with one pair of tile and token in each of pairs 0 and 2. -/
def matrixHand (tok : List Nat) : Hand :=
  { pairs := [(0, [{ tag := 0, data := some { fmt := 4 }, ctl := some { kind := 1, data := tok.flatMap (leBytes 4) } }]),
              (2, [{ tag := 0, data := some { fmt := 4 }, ctl := some { kind := 1, data := tok.flatMap (leBytes 4) } }])],
    img := { inFmt := 4, sramSizeM1 := 4095 } }

/-- A matrix pair that overwrites the bank and multiplies. -/
def issueEntry : PairEntry := { tag := 0, data := some { fmt := 4 }, ctl := some { kind := 1, data := [1, 0].flatMap (leBytes 4) } }

/-- A chain of one stage that moves its tile to output 0. -/
def moveChain : List Word := [0, 7, 0x10, 0, 0, 0x400000, 0].map w32

/-- A vector hand whose output 0 leaves eastward. -/
def vectorHand : Hand :=
  { img := { chain := moveChain, sramSizeM1 := 4095, routes := [{ source := 5, select := 0, dests := [{ target := 1 }] }] } }

/-- What that hand makes of a tile. -/
def vectorRun : List (Nat × Nat × List Byte) × RowState :=
  vectorHand.run {} {} [0x10, 0, 0] ((withHand { tq := [{ hand := 0 }] } vectorHand).memLanes 0 vectorHand)

theorem vectorRun_outs : vectorRun.1.map Prod.fst = [0] := by decide +kernel

/-- The state in which that hand issues, the B tile it reads, and the bank it leaves. -/
def issueState : State := withHand {} (matrixHand [1, 0])

def issueToken : List Word := [1, 0, 0].map w32

def issueBank : Tbl Lane × Bool :=
  (matrixHand [1, 0]).contract issueToken (issueEntry.data.getD {}) (issueState.bTile 0 (matrixHand [1, 0]) issueToken).1

theorem issueBank_whole : issueBank.2 = false := by decide +kernel

theorem wit_CoreEnginesCompute_1 : ∃ (s : State) (core slot : Nat) (h : Hand) (e tok bank : _), s.handReady core slot = true ∧
    slot = nextHand (s.coreOf core).active (s.handReady core) (s.coreOf core).runPairs ∧ s.handOf core slot = some h ∧
    h.nextPair 0 = some e ∧ h.matrixToken e = (tok, false) ∧ mtokenBad tok = false ∧ nbit (wnat tok 0) 2 = false ∧
    nbit (wnat tok 0) 5 = false ∧ (s.bTile core h tok).2 = true ∧
    h.contract tok (e.data.getD {}) (s.bTile core h tok).1 = (bank, false) := by
  refine ⟨issueState, 0, 0, matrixHand [1, 0], issueEntry, issueToken, issueBank.1, ?_, ?_, ?_, ?_, ?_, ?_, ?_, ?_, ?_,
    pair_false issueBank_whole⟩ <;>
    decide +kernel

theorem wit_CoreEnginesCompute_2 : ∃ (s : State) (core slot : Nat) (h : Hand) (e first tile : _), s.handOf core slot = some h ∧
    (s.coreOf core).fenced = false ∧ h.nextPair 2 = some e ∧ tile = e.data.getD {} ∧ bits (wnat (e.ctl.getD {}).words 0) 31 12 = 0 ∧
    wnat (e.ctl.getD {}).words 1 = 0 ∧ (e.ctl.getD {}).restSet 8 = false ∧
    first = (h.img.sramBase + bits (wnat (e.ctl.getD {}).words 0) 11 0) * 64 ∧
    bits (wnat (e.ctl.getD {}).words 0) 11 0 * 64 + tile.bytes ≤ (h.img.sramSizeM1 + 1) * 64 := by
  refine ⟨withHand {} (matrixHand [0xF, 0]), 0, 0, matrixHand [0xF, 0],
    { tag := 0, data := some { fmt := 4 }, ctl := some { kind := 1, data := [0xF, 0].flatMap (leBytes 4) } }, 0xF * 64, { fmt := 4 }, ?_⟩
  and_intros <;> decide +kernel

theorem wit_CoreEnginesCompute_3 : ∃ (s : State) (core slot : Nat) (h : Hand) (tag data n : _), s.handOf core slot = some h ∧
    (s.coreOf core).fenced = false ∧ h.drainTag = some tag ∧ h.img.chain ≠ [] ∧ (s.coreOf core).tq.length < 8 ∧
    n = ((List.range 4).filter (fun i => match s.handOf core i with | some x => !x.img.chain.isEmpty | none => false)).length ∧
    ((s.coreOf core).tq.filter (fun e => e.hand = slot)).length + n < 9 ∧
    drainData h.img.outFmt h.roundTz h.bank h.bankRowsM1 h.img.outColsM1 = (data, false) := by
  refine ⟨withHand {} { vectorHand with drainTag := some 9 }, 0, 0, { vectorHand with drainTag := some 9 }, 9,
    (drainData 0 false [] 0 0).1, 1, ?_, ?_, ?_, ?_, ?_, ?_, ?_, pair_false (by decide +kernel)⟩ <;>
    decide +kernel

/-- A core 0 whose Tile Queue holds an entry of that hand. -/
def vectorState : State := withHand { tq := [{ hand := 0 }] } vectorHand

/-- The one tile of the run, as it leaves. -/
theorem vectorRun_one : ∃ b, vectorRun.1 = [(0, b)] := by
  obtain ⟨p, hp⟩ : ∃ p, vectorRun.1 = [p] := List.length_eq_one_iff.mp (by rw [← List.length_map (f := Prod.fst), vectorRun_outs]; rfl)
  have h0 : p.1 = 0 := by have := vectorRun_outs; rw [hp] at this; simpa using this
  exact ⟨p.2, by rw [hp, ← h0]⟩

theorem wit_CoreEnginesCompute_4 : ∃ (s : State) (core : Nat) (h : Hand) (e i tok outs rs o tile r ri d nb : _),
    (s.coreOf core).fenced = false ∧ s.tqPick core = some (e, i) ∧ s.handOf core e.hand = some h ∧ h.p1Ready = some (none, tok, false) ∧
    vtokenBad tok = false ∧ chainFault h.img.chain = none ∧ h.memOut = false ∧ h.run e.tile {} tok (s.memLanes core h) = (outs, rs) ∧
    h.outTiles e.tile outs = [(o, tile)] ∧ h.routeFor 5 o = some (r, ri) ∧ r.dests = [d] ∧ d.target ≤ 3 ∧
    s.findStation core d.target d.channel true = none ∧ s.linkClosed core d.target = false ∧ neighbour core d.target = some nb ∧
    nb ≠ core ∧ tile.slots ≤ (s.coreOf nb).credits ((d.target + 2) % 4 * 4 + d.channel) := by
  obtain ⟨b, hb⟩ := vectorRun_one
  refine ⟨vectorState, 0, vectorHand, { hand := 0 }, 0, [0x10, 0, 0], vectorRun.1, vectorRun.2, 0, { fmt := b.1, data := b.2 },
    { source := 5, select := 0, dests := [{ target := 1 }] }, 0, { target := 1 }, 1, rfl, rfl, rfl, rfl, by decide, by decide, by decide, rfl,
    by rw [hb]; rfl, rfl, rfl, by decide, by decide, by decide, by decide, by decide, Nat.le_trans (Nat.min_le_left ..) (by decide)⟩

end Wit4

namespace Wit5

theorem wit_TilesAndCutsMove_1 : ∃ (s : State) (core port ch : Nat) (t0 : Tile) (rest : List Tile) (h r ri d nb : _),
    s.mgmt.cutOpen = false ∧ tget [] (s.coreOf core).inq (port * 4 + ch) = t0 :: rest ∧ t0.kind < 2 ∧
    port * 4 + ch ∉ (s.coreOf core).heldIn ∧ s.handWaits core t0 = false ∧ s.arriveRoute core port ch t0 = some (h, r, ri) ∧
    r.dests = [d] ∧ d.target ≤ 3 ∧ s.findStation core d.target d.channel true = none ∧ s.linkClosed core d.target = false ∧
    neighbour core d.target = some nb ∧ nb ≠ core ∧ t0.slots ≤ (s.coreOf nb).credits ((d.target + 2) % 4 * 4 + d.channel) ∧
    s.hasTurn core (port * 4 + ch) r = true := by
  refine ⟨arriving {} { target := 1 }, 0, 0, 0, {}, [], arrivingHand { target := 1 }, { dests := [{ target := 1 }] }, 0, { target := 1 }, 1, ?_⟩
  and_intros <;> first | rfl | decide +kernel

theorem wit_TilesAndCutsMove_2 : ∃ (s : State) (core port ch : Nat) (t0 : Tile) (rest : List Tile) (h r ri d : _),
    s.mgmt.cutOpen = false ∧ tget [] (s.coreOf core).inq (port * 4 + ch) = t0 :: rest ∧ t0.kind < 2 ∧
    port * 4 + ch ∉ (s.coreOf core).heldIn ∧ s.handWaits core t0 = false ∧ s.arriveRoute core port ch t0 = some (h, r, ri) ∧
    r.dests = [d] ∧ 4 ≤ d.target ∧ d.target ≤ 9 ∧ h.deal = t0.deal ∧ (d.target % 2 = 1 → h.unpaired ((d.target - 4) / 2) = false) ∧
    (d.target % 2 = 0 → t0.fmt = h.sideFmt ((d.target - 4) / 2)) ∧ h.pairRoom ((d.target - 4) / 2) (d.target % 2 = 1) t0.tag = true := by
  refine ⟨arriving { fmt := 4 } { target := 4 }, 0, 0, 0, { fmt := 4 }, [], arrivingHand { target := 4 },
    { dests := [{ target := 4 }] }, 0, { target := 4 }, ?_⟩
  and_intros <;> decide +kernel

theorem wit_TilesAndCutsMove_3 : ∃ (s : State) (core port ch : Nat) (t0 : Tile) (rest : List Tile) (h r ri : _), s.mgmt.cutOpen = false ∧
    tget [] (s.coreOf core).inq (port * 4 + ch) = t0 :: rest ∧ t0.kind = 2 ∧ port * 4 + ch ∉ (s.coreOf core).heldIn ∧
    s.handWaits core t0 = false ∧ s.arriveRoute core port ch t0 = some (h, r, ri) ∧ (∀ d ∈ r.dests, 3 < d.target) := by
  refine ⟨arriving { kind := 2 } { target := 9 }, 0, 0, 0, { kind := 2 }, [], arrivingHand { target := 9 },
    { dests := [{ target := 9 }] }, 0, ?_⟩
  and_intros <;> decide +kernel

theorem wit_TilesAndCutsMove_4 : ∃ (s : State) (core : Nat) (slot h r : _), s.mgmt.cutOpen = false ∧
    (s.coreOf core).cfg = .handWrite slot h :: r ∧ ((s.coreOf core).fenced = false ∨ h.img.routeOnly = true) :=
  ⟨configuring [.handWrite 3 {}] {}, 0, 3, {}, [], by decide, by decide, .inl rfl⟩

theorem wit_TilesAndCutsMove_11 : ∃ (s : State) (core : Nat) (slot h r : _), s.mgmt.cutOpen = false ∧
    (s.coreOf core).cfg = .handWrite slot h :: r ∧ (s.coreOf core).fenced = true ∧ h.img.routeOnly = false :=
  ⟨{ State.reset with cores := [(0, { cfg := [.handWrite 3 {}], fenced := true })] }, 0, 3, {}, [], by decide, by decide, by decide, by decide⟩

theorem wit_TilesAndCutsMove_5 : ∃ (s : State) (core ctx lnum : Nat) (l r : _), s.mgmt.cutOpen = false ∧
    (s.coreOf core).cfg = .finish ctx lnum :: r ∧ s.layoutOf ctx lnum = some l :=
  ⟨configuring [.finish 0 0] {}, 0, 0, 0, {}, [], by decide, by decide, by decide⟩

theorem wit_TilesAndCutsMove_6 : ∃ (s : State) (core ctx lnum : Nat) (d l r : _), s.mgmt.cutOpen = false ∧
    (s.coreOf core).cfg = .dealUpdate ctx lnum d :: r ∧ s.layoutOf ctx lnum = some l ∧ l.redealDue.erase core ≠ [] ∧
    (∀ i h, i < 4 → s.handOf core i = some h → h.ctx = ctx → h.layout = lnum → h.waiting = false → h.drainTag = none) := by
  refine ⟨{ State.reset with cores := [(0, { cfg := [.dealUpdate 0 0 2], hands := [(3, some {})] })], ctxs := withLayout { redealDue := [0, 1] } },
    0, 0, 0, 2, { redealDue := [0, 1] }, [], by decide, by decide, by decide, by decide, ?_⟩
  intro i h hi hh _ _ _
  obtain rfl | rfl | rfl | rfl : i = 0 ∨ i = 1 ∨ i = 2 ∨ i = 3 := by omega
  all_goals first | cases (show (none : Option Hand) = some h from hh) | (cases (show some ({} : Hand) = some h from hh); rfl)

theorem wit_TilesAndCutsMove_7 : ∃ (s : State) (core ctx lnum : Nat) (l : _), s.mgmt.cutOpen = false ∧
    (s.coreOf core).cfg = [.cut ctx lnum] ∧ s.layoutOf ctx lnum = some l ∧
    (∀ p ∈ (s.coreOf core).oldHands ctx lnum,
      (s.coreOf core).handDone (((s.coreOf core).oldHands ctx lnum).flatMap (fun p => p.2.cutInputs)) p.1 p.2 = true ∧
      ∀ r ∈ p.2.img.routes, 4 ≤ r.source → ∀ d ∈ r.dests, 3 < d.target) :=
  ⟨configuring [.cut 0 0] {}, 0, 0, 0, {}, by decide, by decide, by decide, by decide⟩

theorem wit_TilesAndCutsMove_8 : ∃ (s : State) (ctx lnum : Nat) (l : _), s.mgmt.cutOpen = false ∧ s.layoutOf ctx lnum = some l ∧
    l.phase = .loading ∧ l.acksDue = [] ∧ s.jobOf ctx = none := by
  refine ⟨configuring [] {}, 0, 0, {}, ?_⟩
  and_intros <;> decide +kernel

theorem wit_TilesAndCutsMove_9 : ∃ (s : State) (ctx lnum : Nat) (l o : _), s.mgmt.cutOpen = false ∧ s.layoutOf ctx lnum = some l ∧
    l.phase = .cutting ∧ l.cutsDue = [] ∧ l.cutCores = [] ∧ l.cutStations = [] ∧ l.old = some o := by
  refine ⟨configuring [] { phase := .cutting, old := some ({}, 0) }, 0, 0, { phase := .cutting, old := some ({}, 0) }, ({}, 0), ?_⟩
  and_intros <;> decide +kernel

theorem wit_TilesAndCutsMove_10 : ∃ (s : State) (f q n c v l : _), s.mgmt.cutOpen = false ∧ s.cmdOf f q n = some c ∧ c.phase = .running ∧
    c.faultVerdict = some v ∧ s.streamsStill f q n = true ∧ s.layoutOf c.ctx (fld (word c.eff 2) 2 0) = some l ∧
    s.inMotion c.ctx l = false ∧ s.ctxLive c.ctx = true := by
  refine ⟨{ withCmd { atWork 0x30 0 [0] with malformed := [(St.invalidParameter, 0, 0)] } with ctxs := withLayout { phase := .loaded } },
    0, 0, 0, { atWork 0x30 0 [0] with malformed := [(St.invalidParameter, 0, 0)] }, ⟨St.invalidParameter, 0x100, 0⟩,
    { phase := .loaded }, ?_⟩
  and_intros <;> decide +kernel

theorem wit_StreamsMoveTiles_1 : ∃ (s : State) (cl k : Nat) (v : Slot) (u : _), s.slotOf cl k = some v ∧
    (∀ p ∈ s.ctxs, p.2.job.any (fun j => !j.tilesIn.isEmpty) = false) ∧ k < 64 ∧ (cl * 64 + k, v) ∈ s.usedSlots ∧
    s.streamStep (cl * 64 + k) v = some u ∧
    (∀ p ∈ s.usedSlots, p ≠ (cl * 64 + k, v) → keyCluster p.1 = cl → (s.streamStep p.1 p.2).isSome = true → s.before (cl * 64 + k, v) p = true) := by
  refine ⟨{ State.reset with slots := [(5, some { state := .running, desc := [2] })], ctxs := withLayout {} }, 0, 5,
    { state := .running, desc := [2] },
    ({ State.reset with slots := [(5, some { state := .running, desc := [2] })], ctxs := withLayout {} } : State).closeStream 5 { state := .running, desc := [2] },
    ?_⟩
  and_intros <;> decide +kernel

theorem wit_StreamsMoveTiles_2 : ∃ (s : State) (cl k : Nat) (v : Slot) (t a rs pos : _), s.slotOf cl k = some v ∧
    (∀ p ∈ s.ctxs, p.2.job.any (fun j => !j.tilesIn.isEmpty) = false) ∧ k < 64 ∧ (cl * 64 + k, v) ∈ s.usedSlots ∧ v.state = .running ∧
    v.isOut = false ∧ v.toCmem = false ∧ s.bufTiles v + v.inflight.length < s.bufCap v ∧ v.src = .descriptor ∧
    s.nextTile (cl * 64 + k) v = .tile t rs [] false pos ∧ a = s.readFrames v rs ∧
    (∀ p ∈ s.usedSlots, keyCluster p.1 = cl → p = (cl * 64 + k, v)) := by
  refine ⟨streaming listSlot, 0, 5, listSlot, zeroTile, [(0, 0), (0x40000, 1)], [(0, 32), (0x40000, 1152)], (1, 0, 0), ?_⟩
  and_intros <;> decide +kernel

/-- The list's tile, requested and not yet back. -/
def flying : Slot := { listSlot with inflight := [(zeroTile, [(0, 0), (0x40000, 1)])], marks := [(0, 0, 0)] }

theorem wit_StreamsMoveTiles_3 : ∃ (s : State) (cl k : Nat) (v : Slot) (t a rest l : _), s.slotOf cl k = some v ∧
    v.inflight = (t, a) :: rest ∧ v.marks ≠ [] ∧ s.layoutOf v.ctx v.layout = some l ∧ v.toCmem = false := by
  refine ⟨streaming flying, 0, 5, flying, zeroTile, [(0, 0), (0x40000, 1)], [], { phase := .loaded }, ?_⟩
  and_intros <;> decide +kernel

/-- A STREAM_LOAD whose tile is on its way, and a layout with cluster memory. -/
def filling : Slot := { listSlot with desc := [0x420], inflight := [({}, [])], marks := [(0, 0, 0)] }

def cmemLayout : Layout := { phase := .loaded, img := { rectW := 1, rectH := 1, decls := [{ cmem64K := 1 }] } }

theorem wit_StreamsMoveTiles_4 : ∃ (s : State) (cl k : Nat) (v : Slot) (t a rest l : _), s.slotOf cl k = some v ∧
    v.inflight = (t, a) :: rest ∧ v.marks ≠ [] ∧ s.layoutOf v.ctx v.layout = some l ∧ v.toCmem = true ∧ v.state ≠ .ended ∧
    wnat v.desc 7 + v.delivered * t.bytes + t.bytes ≤ l.cmemRoom (l.imgOf v) cl := by
  refine ⟨{ streaming filling with ctxs := withLayout cmemLayout }, 0, 5, filling, {}, [], [], cmemLayout, ?_⟩
  and_intros <;> decide +kernel

theorem wit_StreamsMoveTiles_5 : ∃ (s : State) (cl k : Nat) (v : Slot) (t a rest l : _) (piece addr fid : Nat), s.slotOf cl k = some v ∧
    v.inflight = (t, a) :: rest ∧ v.marks ≠ [] ∧ s.layoutOf v.ctx v.layout = some l ∧ a[piece]? = some (addr, fid) ∧
    s.ctxLive v.ctx = true := by
  refine ⟨streaming flying, 0, 5, flying, zeroTile, [(0, 0), (0x40000, 1)], [], { phase := .loaded }, 1, 0x40000, 1, ?_⟩
  and_intros <;> decide +kernel

theorem wit_StreamsMoveTiles_6 : ∃ (s : State) (cl k : Nat) (v : Slot) (t a rs pos : _), s.slotOf cl k = some v ∧ v.state = .waiting ∧
    v.isOut = false ∧ v.src = .descriptor ∧ dCountInd v.desc = false ∧ (dIndexed v.desc && dIdxStation v.desc) = false ∧
    s.aheadAllowed v.fn v.q v.n = true ∧
    (∀ n, n = (match s.boundSlot v.ctx v.layout v.station with
      | some p => p.2.inflight.length
      | none => 0) → s.bufTiles v + n + v.ahead.length < s.bufCap v) ∧
    s.nextTile (cl * 64 + k) v = .tile t rs [] false pos ∧ a = s.readFrames v rs := by
  refine ⟨streaming { listSlot with state := .waiting }, 0, 5, { listSlot with state := .waiting }, zeroTile, [(0, 0), (0x40000, 1)], [(0, 32), (0x40000, 1152)],
    (1, 0, 0), ?_⟩
  and_intros <;> first | decide +kernel | (rintro _ rfl; decide +kernel)

theorem wit_StreamsMoveTiles_7 : ∃ (s : State) (cl k : Nat) (v : Slot) (l : _), s.slotOf cl k = some v ∧ v.state = .waiting ∧
    s.nextBinding (cl * 64 + k) v = true ∧ s.layoutOf v.ctx v.layout = some l :=
  ⟨streaming { listSlot with state := .waiting }, 0, 5, { listSlot with state := .waiting }, { phase := .loaded }, by decide, by decide,
    by decide, by decide⟩

/-- A Fault Ring of eight records with one record to write, of slot 5. -/
def faultRing : Fn := { frEnable := true, frSizeM1 := 7, frWait := [(5, List.replicate 16 1)] }

def faulted : State := { streaming { listSlot with state := .halted 1 1 } with cp := { fns := [(0, faultRing)] } }

theorem wit_StreamsMoveTiles_8 : ∃ (s : State) (cl k : Nat) (v : Slot) (p ws f : _), s.slotOf cl k = some v ∧
    s.cp.fns.findSome? (fun x => (x.2.frWait.find? (fun r => r.1 = cl * 64 + k)).map (fun r => (x.1, r.2))) = some (p, ws) ∧ f = s.fnOf p ∧
    f.frEnable = true ∧ (f.frTail + 1) % (f.frSizeM1 + 1) ≠ f.frHead := by
  refine ⟨faulted, 0, 5, { listSlot with state := .halted 1 1 }, 0, List.replicate 16 1, faultRing, ?_⟩
  and_intros <;> decide +kernel

theorem wit_StreamsMoveTiles_9 : ∃ (s : State) (cl k : Nat) (v : Slot) (cause id i fid : _), s.slotOf cl k = some v ∧
    v.state = .halted cause id ∧ 2 ≤ cause ∧ s.touch v.ctx (v.haltAddr / blockBytes) = .served i fid :=
  ⟨streaming { listSlot with state := .halted 2 1, haltAddr := 0x7FFFF }, 0, 5,
    { listSlot with state := .halted 2 1, haltAddr := 0x7FFFF }, 2, 1, 1, 1, by decide, by decide, by decide, by decide⟩

theorem wit_ContextsAreTornDown_1 : ∃ (s : State) (f q n c : _), s.Runs f q n 0x11 [] c ∧ s.ctxLive c.ctx = true ∧
    (∀ x ∈ s.allCmds, namesContext x.2.2.words = true → x.2.2.ctx = c.ctx → x.2.2.routedGen = 0 ∧ x.2.2.phase ≠ .ending) :=
  ⟨{ running 0x11 0 [] with ctxs := [(0, { live := true })] }, 0, 0, 0, atWork 0x11 0 [], ⟨rfl, rfl, by decide⟩, by decide, by decide⟩

theorem wit_ContextsAreTornDown_2 : ∃ (s : State) (cl k v : _), s.slotOf cl k = some v ∧ v.stalled = true ∧ dWeight v.desc = true ∧
    v.state.isHalted = false ∧ v.state ≠ .waiting ∧ s.ctxLive v.ctx = true := by
  refine ⟨streaming { listSlot with desc := [4], stalled := true }, 0, 5, { listSlot with desc := [4], stalled := true }, ?_⟩
  and_intros <;> decide +kernel

theorem wit_ContextsAreTornDown_3 : ∃ (s : State) (ctx x p : _), x ∈ s.allCmds ∧ namesContext x.2.2.words = true ∧ x.2.2.ctx = ctx ∧
    p ∈ s.cmdSlots x.1 x.2.1 x.2.2.n ∧ p.2.state.isHalted = true ∧ s.ctxLive ctx = true := by
  refine ⟨streaming { listSlot with state := .halted 1 1 }, 0, (0, 0, atWork 0x30 0 []), (5, { listSlot with state := .halted 1 1 }), ?_⟩
  and_intros <;> decide +kernel

/-- A COPY waits for entry 0, which migrates. -/
def migrating : State :=
  { withCmd { atWork 0x22 0 [] with waits := some 0 } with
    parts := homeParts, ctxs := withLayout { phase := .loaded }
    tiers := { listBlocks with bm := [(0, { state := 2, block := 0, loc := 0 })], migrations := [(0, some { src := 0, dst := 9 })] } }

theorem wit_ContextsAreTornDown_4 : ∃ (s : State) (ctx x i : _), x ∈ s.allCmds ∧ namesContext x.2.2.words = true ∧ x.2.2.ctx = ctx ∧
    x.2.2.waits = some i ∧ s.notReady i = true ∧ s.ctxLive ctx = true := by
  refine ⟨migrating, 0, (0, 0, { atWork 0x22 0 [] with waits := some 0 }), 0, ?_⟩
  and_intros <;> decide +kernel

theorem wit_FramesAndBlocksMove_1 : ∃ (s : State) (i : Nat) (e : BmEntry) (ch : _), s.tiers.wf = true ∧ s.bmOf i = e ∧
    s.tiers.changes.find? (fun c => c.entry = i) = some ch ∧ ch.peer = none :=
  ⟨tierState { changes := [⟨3, some 9, none⟩] }, 3, {}, ⟨3, some 9, none⟩, by decide, by decide, by decide, by decide⟩

theorem wit_FramesAndBlocksMove_2 : ∃ (s : State) (i fid : Nat) (e : BmEntry), s.tiers.wf = true ∧ s.bmOf i = e ∧
    s.frameOf fid = .draining ∧ (∀ c ∈ s.tiers.changes, c.fid ≠ some fid) ∧ s.frameRead fid = false := by
  refine ⟨tierState { frames := [(9, .draining)] }, 0, 9, {}, ?_⟩
  and_intros <;> decide +kernel

theorem wit_FramesAndBlocksMove_3 : ∃ (s : State) (i fid : Nat) (e : BmEntry), s.tiers.wf = true ∧ s.bmOf i = e ∧
    s.frameOf fid = .queued ∧ fid < 20 * 2 ^ 24 :=
  ⟨tierState { frames := [(9, .queued)] }, 0, 9, {}, by decide, by decide, by decide, by decide⟩

theorem wit_FramesAndBlocksMove_4 : ∃ (s : State) (i : Nat) (e : BmEntry) (w : _), s.tiers.wf = true ∧ s.bmOf i = e ∧
    w ∈ s.tiers.lendScrub :=
  ⟨tierState { lendScrub := [4] }, 0, {}, 4, by decide, by decide, by decide⟩

/-- A promotion of block 0 is queued and a near stack has room. -/
def promoting : State := tierState { twoBlocks with
  bm := [(0, { state := 1, block := 0, tier := 1, loc := 0 })], nearBytes := [(0, 0x80400000)], migrations := [(0, some { src := 0, tier := 0 })] }

theorem promoting_room : (promoting.allocFor 0 0 (promoting.countOf { state := 1, block := 0, tier := 1, loc := 0 })).isSome = true := by
  decide +kernel

theorem wit_FramesAndBlocksMove_5 : ∃ (s : State) (i : Nat) (e : BmEntry) (m g u : _), s.tiers.wf = true ∧ s.bmOf i = e ∧
    s.preparing i = false ∧ s.migOf i = some m ∧ m.begun = false ∧ m.kind < 2 ∧ s.stillDue e m = true ∧
    s.allocFor e.ctx m.tier (s.countOf e) = some (g, u) ∧ u.bmOf i = e := by
  refine ⟨promoting, 0, { state := 1, block := 0, tier := 1, loc := 0 }, { src := 0, tier := 0 }, (Option.get _ promoting_room).1,
    (Option.get _ promoting_room).2, ?_, ?_, ?_, ?_, ?_, ?_, ?_, (Option.some_get promoting_room).symm, ?_⟩ <;> decide +kernel

theorem wit_FramesAndBlocksMove_6 : ∃ (s : State) (i : Nat) (e : BmEntry) (tier g u : _), s.tiers.wf = true ∧ s.bmOf i = e ∧
    s.preparing i = false ∧ s.migOf i = none ∧ wantTier e = some tier ∧ s.allocMigration e.ctx tier = some (g, u) := by
  refine ⟨tierState { twoBlocks with bm := [(0, { state := 1, block := 0, loc := 0, hint := 2, access := 0 })] }, 0,
    { state := 1, block := 0, loc := 0, hint := 2 }, 1, _, _, ?_, ?_, ?_, ?_, ?_, rfl⟩ <;> decide +kernel

/-- Block 0 on its way from near frame 0 to frame 9. -/
def moving : State := tierState { twoBlocks with
  bm := [(0, { state := 2, block := 0, loc := 0 })], migrations := [(0, some { src := 0, dst := 9, tier := 1, begun := true })] }

theorem wit_FramesAndBlocksMove_7 : ∃ (s : State) (i : Nat) (e : BmEntry) (m : _), s.tiers.wf = true ∧ s.bmOf i = e ∧
    s.preparing i = false ∧ s.migOf i = some m ∧ m.begun = true ∧ m.kind < 2 := by
  refine ⟨moving, 0, { state := 2, block := 0, loc := 0 }, { src := 0, dst := 9, tier := 1, begun := true }, ?_⟩
  and_intros <;> decide +kernel

theorem wit_FramesAndBlocksMove_8 : ∃ (s : State) (i : Nat) (e : BmEntry) (m : _), s.tiers.wf = true ∧ s.bmOf i = e ∧
    s.preparing i = false ∧ s.migOf i = some m ∧ m.begun = true ∧ m.kind < 2 ∧ s.namedBy m.src = some (i, e) := by
  refine ⟨moving, 0, { state := 2, block := 0, loc := 0 }, { src := 0, dst := 9, tier := 1, begun := true }, ?_⟩
  and_intros <;> decide +kernel

theorem wit_FramesAndBlocksMove_9 : ∃ (s : State) (i fid : Nat) (e : BmEntry), s.tiers.wf = true ∧ s.bmOf i = e ∧ s.frameOf fid = .used ∧
    s.namedBy fid = some (i, e) := by
  refine ⟨tierState twoBlocks, 0, 0, { state := 1, block := 0, loc := 0 }, ?_⟩
  and_intros <;> decide +kernel

theorem wit_FramesAndBlocksMove_10 : ∃ (s : State) (i : Nat) (e : BmEntry) (island : _), s.tiers.wf = true ∧ s.bmOf i = e ∧
    ((0x2000 ≤ island ∧ island < 0x2004) ∨ (0x3000 ≤ island ∧ island < 0x3010)) :=
  ⟨tierState {}, 0, {}, 0x300F, by decide, by decide, .inr (by decide)⟩

end Wit5

namespace Wit6

theorem wit_RecallsRunTheirCourse_1 : ∃ (s : State) (f q n : Nat) (c : Cmd) (first count : Nat),
    s.Runs f q n 0x27 [(2, 0xFFFFFFFF), (3, 0xFFFFFFFF)] c ∧ c.work = .none ∧ first = wnat c.eff 2 ∧ count = wnat c.eff 3 ∧ 1 ≤ count ∧
    first + count ≤ s.tiers.lendW := by
  refine ⟨{ running 0x27 0 [2, 3] with tiers := { lendW := 5, lends := [⟨1, 0, 0, 5, false⟩] } }, 0, 0, 0, atWork 0x27 0 [2, 3], 2, 3,
    ?_⟩
  and_intros <;> first | decide +kernel | exact runs_of (by decide +kernel)

theorem wit_RecallsRunTheirCourse_2 : ∃ (s : State) (f q n : Nat) (c : Cmd) (first count : Nat) (r e : _),
    s.tiers.recalls.find? (fun x => x.1 = first) = some (first, count) ∧ s.cmdOf f q n = some c ∧ c.phase = .running ∧
    c.work = .recall first count r e false ∧
    s.allCmds.find? (fun x => match x.2.2.work with
      | .recall a k _ _ past => x.2.2.isRunning && a = first && k = count && !past
      | _ => false) = some (f, q, c) ∧ c.n = n := by
  refine ⟨{ withCmd { atWork 0x27 0 [2, 3] with work := .recall 2 3 0 0 false } with
      tiers := { lendW := 5, lends := [⟨1, 0, 2, 3, true⟩], recalls := [(2, 3)] } },
    0, 0, 0, { atWork 0x27 0 [2, 3] with work := .recall 2 3 0 0 false }, 2, 3, 0, 0, ?_⟩
  and_intros <;> decide +kernel

theorem wit_RecallsRunTheirCourse_3 : ∃ (s : State) (n : Nat) (first : Nat) (r : _),
    s.tiers.borrowRecalls.find? (fun r => r.1 = n && r.2.1 = first) = some r :=
  ⟨tierState { borrowRecalls := [(1, 2, 3)] }, 1, 2, (1, 2, 3), by decide⟩

theorem wit_RecallsRunTheirCourse_4 : ∃ (s : State) (i m g u : _), s.preparing i = false ∧ s.migOf i = some m ∧ m.begun = false ∧
    m.kind = 3 ∧ s.allocHome (s.bmOf i).ctx = some (g, u) := by
  refine ⟨tierState { twoBlocks with
      bm := [(0, { state := 2, tier := 2, chip := 1 })], migrations := [(0, some { src := 4, tier := 1, kind := 3 })] },
    0, { src := 4, tier := 1, kind := 3 }, _, _, ?_, ?_, ?_, ?_, rfl⟩ <;> decide +kernel

/-- Context 0 has record 0 in a stage, and block 17 holds the first block of its slot, coming in from Park Log entry 4. -/
def parking (r : KvRec) : State :=
  { running 0x22 0 [0, 0, 0x440000, 0, 64] with
    parts := homeParts, ctxs := kvCtx, store := { parkSegments := 1 },
    kv := { recs := [(0, r)], stripe := some (0, 1, 0), park := [{ entry := 4, ctx := 0, part := 0, record := 0, index := 0, count := 1, first := 4, closing := false }] },
    tiers := { twoBlocks with bm := [(0, { state := 2, block := 17 })], migrations := [(0, some { src := 4, tier := 1, kind := 2 })] } }

theorem wit_KvSlotsParkAndReturn_1 : ∃ (s : State) (ctx record stripe seq room : Nat) (r : KvRec), s.recOf ctx record = r ∧
    s.kvDue ctx = some (record, false) ∧ s.kv.stripe = some (stripe, seq, room) ∧
    (∀ i ∈ s.slotEntries ctx r, (s.bmOf i).state = 1 ∨ (s.bmOf i).state = 4) ∧
    (s.slotEntries ctx r ≠ [] → (s.slotEntries ctx r).length + 1 ≤ s.store.parkSegments * stripePlaces) ∧
    room + (s.slotEntries ctx r).length ≤ stripePlaces := by
  refine ⟨parking { state := 1, stage := 1, freeAt := 0xFFFF }, 0, 0, 0, 1, 0, { state := 1, stage := 1, freeAt := 0xFFFF }, ?_⟩
  and_intros <;> decide +kernel

theorem wit_KvSlotsParkAndReturn_2 : ∃ (s : State) (ctx record stripe seq room : Nat) (r : KvRec) (mine g : _), s.recOf ctx record = r ∧
    r.state ≠ 0 ∧ r.stage = 3 ∧ s.kv.stripe = some (stripe, seq, room) ∧ room < stripePlaces ∧ (s.ctxOf ctx).geom = some g ∧
    (∀ i ∈ s.slotEntries ctx r, s.preparing i = false) ∧
    mine = s.kv.park.filter (fun e => e.ctx = ctx && e.record = record && !e.dead && !e.closing) := by
  refine ⟨parking { state := 1, stage := 3 }, 0, 0, 0, 1, 0, { state := 1, stage := 3 },
    [{ entry := 4, ctx := 0, part := 0, record := 0, index := 0, count := 1, first := 4, closing := false }],
    ⟨1, 1, 1, 16, 0, 0x400000, 1, 1, 1, 0⟩, ?_⟩
  and_intros <;> decide +kernel

theorem wit_KvSlotsParkAndReturn_3 : ∃ (s : State) (ctx record : Nat) (r : KvRec), s.recOf ctx record = r ∧
    s.kvDue ctx = some (record, true) ∧ record ≠ noRec :=
  ⟨parking { state := 1, stage := 2, parkAt := 0xFFFFFFFFFFFF }, 0, 0, { state := 1, stage := 2, parkAt := 0xFFFFFFFFFFFF },
    by decide +kernel, by decide +kernel, by decide +kernel⟩

theorem wit_KvSlotsParkAndReturn_4 : ∃ (s : State) (ctx record : Nat) (r : KvRec) (g index i e m pe fid u : _), s.recOf ctx record = r ∧
    (s.ctxOf ctx).geom = some g ∧ r.held = true ∧ index < g.slotBlocks ∧
    s.bmFind (s.ctxOf ctx).part ctx (g.slotBlock r.slot + index) = some (i, e) ∧ s.migOf i = some m ∧ m.kind = 2 ∧ m.tier ≠ 0 ∧
    s.kv.park.find? (fun e => e.ctx = ctx && e.record = record && e.index = index && !e.closing && !e.dead && e.entry = m.src) = some pe ∧
    s.quotaRoom ctx 1 1 = true ∧ s.allocFrame 1 = some (fid, u) ∧ u.tiers.wf = true :=
  ⟨parking { state := 1, stage := 2, held := true, slot := 0 }, 0, 0, { state := 1, stage := 2, held := true, slot := 0 },
    ⟨1, 1, 1, 16, 0, 0x400000, 1, 1, 1, 0⟩, 0, 0, { state := 2, block := 17 }, { src := 4, tier := 1, kind := 2 },
    { entry := 4, ctx := 0, part := 0, record := 0, index := 0, count := 1, first := 4, closing := false }, _, _, by decide +kernel,
    by decide +kernel, by decide +kernel, by decide +kernel, by decide +kernel, by decide +kernel, by decide +kernel, by decide +kernel,
    by decide +kernel, by decide +kernel, rfl, rfl⟩

theorem wit_KvSlotsParkAndReturn_5 : ∃ (s : State) (ctx record : Nat) (r : KvRec) (g index i e m pe : _), s.recOf ctx record = r ∧
    (s.ctxOf ctx).geom = some g ∧ r.held = true ∧ index < g.slotBlocks ∧
    s.bmFind (s.ctxOf ctx).part ctx (g.slotBlock r.slot + index) = some (i, e) ∧ s.migOf i = some m ∧ m.kind = 2 ∧
    s.kv.park.find? (fun e => e.ctx = ctx && e.record = record && e.index = index && !e.closing && !e.dead && e.entry = m.src) = some pe ∧
    s.waitsOn ctx (s.treeBlocks ctx record) = true ∧ s.ctxLive ctx = true := by
  refine ⟨{ parking { state := 1, stage := 2, held := true, slot := 0 } with cp := (withCmd { atWork 0x22 0 [0, 0, 0x440000, 0, 64] with waits := some 0 }).cp }, 0, 0, { state := 1, stage := 2, held := true, slot := 0 },
    ⟨1, 1, 1, 16, 0, 0x400000, 1, 1, 1, 0⟩, 0, 0, { state := 2, block := 17 }, { src := 4, tier := 1, kind := 2 },
    { entry := 4, ctx := 0, part := 0, record := 0, index := 0, count := 1, first := 4, closing := false }, ?_⟩
  and_intros <;> decide +kernel

theorem wit_KvSlotsParkAndReturn_6 : ∃ (s : State) (ctx record stripe : Nat) (r : KvRec), s.recOf ctx record = r ∧
    stripe ∈ s.store.parkDead :=
  ⟨{ parking {} with store := { parkDead := [3] } }, 0, 0, 3, {}, by decide, by decide⟩

theorem wit_KvSlotsParkAndReturn_7 : ∃ (s : State) (ctx record stripe : Nat) (r : KvRec), s.recOf ctx record = r ∧
    tget 0 s.store.slots stripe = 2 ∧ (∀ p ∈ s.store.ghosts, s.hasReaders p.1 p.2.1 = true → stripe ∉ p.2.2.slots) :=
  ⟨{ parking {} with store := { slots := [(3, 2)] } }, 0, 0, 3, {}, by decide, by decide, by decide⟩

/-- An output station 0 of layout 0 whose first tile waits. -/
def stationLayout (t : Tile) : Layout :=
  { phase := .loaded, deal := 1, img := { stations := [{ out := true, fmt := 4, bufTiles := 1 }] }, arrivals := [(0, [t])] }

def stationState (t : Tile) : State := { State.reset with ctxs := withLayout (stationLayout t) }

/-- The same beside a job that maps the station. -/
def mappedState (t : Tile) : State :=
  { State.reset with ctxs := [(0, { live := true, layouts := [(0, some (stationLayout t))],
                                    job := some { jobId := 1, members := [0, 1], rank := 0, isOpen := true, map := [⟨0, 0, 1, 0, 0⟩] } })] }

theorem wit_OutputStationsTakeTiles_1 : ∃ (s : State) (ctx lnum stn : Nat) (l : Layout) (st : Station) (t0 : Tile) (rest : List Tile),
    s.mgmt.cutOpen = false ∧ s.layoutOf ctx lnum = some l ∧ tget [] l.arrivals stn = t0 :: rest ∧ l.stationOf stn = some st ∧ stn < 1024 ∧
    t0.kind < 2 ∧ t0.deal = l.deal ∧ t0.fmt = st.fmt ∧ s.mapped ctx lnum stn = none ∧ s.boundSlot ctx lnum stn = none ∧
    ((tget [] l.buffers stn).filter (fun x => x.kind < 2)).length < st.bufTiles := by
  refine ⟨stationState { fmt := 4, deal := 1 }, 0, 0, 0, stationLayout { fmt := 4, deal := 1 },
    { out := true, fmt := 4, bufTiles := 1 }, { fmt := 4, deal := 1 }, [], ?_⟩
  and_intros <;> decide +kernel

theorem wit_OutputStationsTakeTiles_2 : ∃ (s : State) (ctx lnum stn : Nat) (l : Layout) (st : Station) (t0 : Tile) (rest : List Tile),
    s.mgmt.cutOpen = false ∧ s.layoutOf ctx lnum = some l ∧ tget [] l.arrivals stn = t0 :: rest ∧ l.stationOf stn = some st ∧ stn < 1024 ∧
    t0.kind < 2 ∧ t0.deal ≠ l.deal := by
  refine ⟨stationState { fmt := 4, deal := 2 }, 0, 0, 0, stationLayout { fmt := 4, deal := 2 },
    { out := true, fmt := 4, bufTiles := 1 }, { fmt := 4, deal := 2 }, [], ?_⟩
  and_intros <;> decide +kernel

theorem wit_OutputStationsTakeTiles_3 : ∃ (s : State) (ctx lnum stn : Nat) (l : Layout) (st : Station) (t0 : Tile) (rest : List Tile) (e idx : _),
    s.mgmt.cutOpen = false ∧ s.layoutOf ctx lnum = some l ∧ tget [] l.arrivals stn = t0 :: rest ∧ l.stationOf stn = some st ∧ stn < 1024 ∧
    t0.kind < 2 ∧ t0.deal = l.deal ∧ t0.fmt = st.fmt ∧ s.mapped ctx lnum stn = some (e, idx) := by
  refine ⟨mappedState { fmt := 4, deal := 1 }, 0, 0, 0, stationLayout { fmt := 4, deal := 1 }, { out := true, fmt := 4, bufTiles := 1 },
    { fmt := 4, deal := 1 }, [], ⟨0, 0, 1, 0, 0⟩, 0, ?_⟩
  and_intros <;> decide +kernel

theorem wit_OutputStationsTakeTiles_4 : ∃ (s : State) (ctx lnum stn : Nat) (l : Layout) (st : Station) (t0 : Tile) (rest : List Tile),
    s.mgmt.cutOpen = false ∧ s.layoutOf ctx lnum = some l ∧ tget [] l.arrivals stn = t0 :: rest ∧ l.stationOf stn = some st ∧ stn < 1024 ∧
    t0.kind = 2 ∧ s.boundSlot ctx lnum stn = none ∧ rest = [] := by
  refine ⟨stationState { kind := 2 }, 0, 0, 0, stationLayout { kind := 2 }, { out := true, fmt := 4, bufTiles := 1 }, { kind := 2 }, [],
    ?_⟩
  and_intros <;> decide +kernel

end Wit6

namespace Wit7

theorem wit_LinkLayerTakesFrames_1 : ∃ (s : State) (port : Nat) (f : Frame) (ok : Bool) (err : ReadErr) (i : Instr),
    (f.ty, i) ∈ [(0x10, Instr.tile port f ok), (0x12, .piece port f ok), (0x20, .memRead port f ok err), (0x21, .memWrite port f ok), (0x22, .memData port f ok), (0x23, .memDone port f ok), (0x24, .memRefused port f ok), (0x25, .unreachable port f ok), (0x30, .reserve port f ok), (0x31, .confirm port f ok), (0x32, .reject port f ok)] ∧
    (s.portOf port).usable = false :=
  ⟨State.reset, 31, frameOf 0x10 0 [], true, .clean, .tile 31 (frameOf 0x10 0 []) true, by decide, by decide⟩

theorem wit_LinkLayerTakesFrames_2 : ∃ (s : State) (port : Nat) (f : Frame) (ok : Bool) (err : ReadErr) (i : Instr),
    (f.ty, i) ∈ [(0x10, Instr.tile port f ok), (0x12, .piece port f ok), (0x20, .memRead port f ok err), (0x21, .memWrite port f ok), (0x22, .memData port f ok), (0x23, .memDone port f ok), (0x24, .memRefused port f ok), (0x25, .unreachable port f ok), (0x30, .reserve port f ok), (0x31, .confirm port f ok), (0x32, .reject port f ok)] ∧
    (s.portOf port).usable = true ∧ ok = false :=
  ⟨jobState openJob, 0, frameOf 0x12 0 [], false, .clean, .piece 0 (frameOf 0x12 0 []) false, by decide, by decide, by decide⟩

theorem wit_LinkLayerTakesFrames_3 : ∃ (s : State) (port : Nat) (f : Frame) (ok : Bool) (err : ReadErr) (i : Instr),
    (f.ty, i) ∈ [(0x10, Instr.tile port f ok), (0x12, .piece port f ok), (0x20, .memRead port f ok err), (0x21, .memWrite port f ok), (0x22, .memData port f ok), (0x23, .memDone port f ok), (0x24, .memRefused port f ok), (0x25, .unreachable port f ok), (0x30, .reserve port f ok), (0x31, .confirm port f ok), (0x32, .reject port f ok)] ∧
    (s.portOf port).usable = true ∧ ok = true ∧ f.lseq ≠ ((s.portOf port).rxSeq + 1) % 65536 :=
  ⟨jobState openJob, 0, { frameOf 0x25 0 [] with lseq := 0 }, true, .clean, .unreachable 0 { frameOf 0x25 0 [] with lseq := 0 } true,
    by decide, by decide, by decide, by decide⟩

theorem wit_LinkLayerTakesFrames_4 : ∃ (s : State) (port : Nat) (f : Frame) (ok : Bool) (err : ReadErr) (i : Instr),
    (f.ty, i) ∈ [(0x10, Instr.tile port f ok), (0x12, .piece port f ok), (0x20, .memRead port f ok err), (0x21, .memWrite port f ok), (0x22, .memData port f ok), (0x23, .memDone port f ok), (0x24, .memRefused port f ok), (0x25, .unreachable port f ok), (0x30, .reserve port f ok), (0x31, .confirm port f ok), (0x32, .reject port f ok)] ∧
    (s.portOf port).usable = true ∧ ok = true ∧ f.lseq = ((s.portOf port).rxSeq + 1) % 65536 ∧ f.clean = false := by
  refine ⟨jobState openJob, 0, frameOf 0x32 1 [], true, .clean, .reject 0 (frameOf 0x32 1 []) true, ?_⟩
  and_intros <;> decide +kernel

theorem wit_LinkLayerTakesFrames_5 : ∃ (s : State) (port : Nat) (f : Frame) (ok : Bool) (err : ReadErr) (i : Instr),
    (f.ty, i) ∈ [(0x10, Instr.tile port f ok), (0x12, .piece port f ok), (0x20, .memRead port f ok err), (0x21, .memWrite port f ok), (0x22, .memData port f ok), (0x23, .memDone port f ok), (0x24, .memRefused port f ok), (0x25, .unreachable port f ok), (0x30, .reserve port f ok), (0x31, .confirm port f ok), (0x32, .reject port f ok)] ∧
    s.InOrder port f ∧ ok = true ∧ f.ty / 16 = 2 ∧ f.dst ≠ s.fab.chip ∧ f.ttl ≤ 1 := by
  refine ⟨jobState openJob, 0, { frameOf 0x20 0 [] with dst := 2, ttl := 1 }, true, .clean,
    .memRead 0 { frameOf 0x20 0 [] with dst := 2, ttl := 1 } true .clean, ?_⟩
  and_intros <;> first | decide +kernel | exact inOrder_of (by decide +kernel)

theorem wit_LinkLayerTakesFrames_6 : ∃ (s : State) (port : Nat) (f : Frame) (ok : Bool) (err : ReadErr) (i : Instr) (out : _),
    (f.ty, i) ∈ [(0x10, Instr.tile port f ok), (0x12, .piece port f ok), (0x20, .memRead port f ok err), (0x21, .memWrite port f ok), (0x22, .memData port f ok), (0x23, .memDone port f ok), (0x24, .memRefused port f ok), (0x25, .unreachable port f ok), (0x30, .reserve port f ok), (0x31, .confirm port f ok), (0x32, .reject port f ok)] ∧
    s.InOrder port f ∧ ok = true ∧ f.ty / 16 = 2 ∧ f.dst ≠ s.fab.chip ∧ 1 < f.ttl ∧
    (s.received port f).pickCand { f with ttl := f.ttl - 1 } 0 = some out := by
  refine ⟨jobState openJob, 0, { frameOf 0x22 0 [] with dst := 1, ttl := 2 }, true, .clean,
    .memData 0 { frameOf 0x22 0 [] with dst := 1, ttl := 2 } true, 0, ?_⟩
  and_intros <;> first | decide +kernel | exact inOrder_of (by decide +kernel)

theorem wit_LinkLayerTakesFrames_7 : ∃ (s : State) (port : Nat) (f : Frame) (ok : Bool) (err : ReadErr) (i : Instr),
    (f.ty, i) ∈ [(0x10, Instr.tile port f ok), (0x12, .piece port f ok), (0x20, .memRead port f ok err), (0x21, .memWrite port f ok), (0x22, .memData port f ok), (0x23, .memDone port f ok), (0x24, .memRefused port f ok), (0x25, .unreachable port f ok), (0x30, .reserve port f ok), (0x31, .confirm port f ok), (0x32, .reject port f ok)] ∧
    s.InOrder port f ∧ ok = true ∧ f.ty / 16 = 2 ∧ f.dst ≠ s.fab.chip ∧ 1 < f.ttl ∧
    (s.received port f).pickCand { f with ttl := f.ttl - 1 } 0 = none := by
  refine ⟨jobState openJob, 0, { frameOf 0x23 0 [] with dst := 2 }, true, .clean, .memDone 0 { frameOf 0x23 0 [] with dst := 2 } true,
    ?_⟩
  and_intros <;> first | decide +kernel | exact inOrder_of (by decide +kernel)

/-- A frame that asks chip 0 for n bytes at a fabric address. -/
def asking (ty addr n : Nat) (payload : List Byte := []) : Frame := frameOf ty 0 [addr % 2 ^ 32, addr / 2 ^ 32, 0, n, 7] payload

/-- The job's state with a lend window of one frame, lent to chip 1. -/
def lendState : State :=
  { jobState openJob with tiers := { twoBlocks with lendW := 1, lendMask := 1, lends := [⟨1, 0, 0, 1, false⟩] } }

/-- The job's state with a peer block of chip 1 and a read of it that is due. -/
def peerState : State :=
  { jobState openJob with
    fab := { circuitFab with reqs := [{ id := 3, chip := 1, ctx := 0, frame := 9, entry := 0 }] }
    tiers := { bm := [(0, { state := 1, tier := 2, chip := 1, loc := 9 })] } }

/-- Chip 1 may be reached on ports 0 and 1. -/
def twoPorts : State :=
  { jobState openJob with fab := { routes := [(1, 0x103)], ports := [(0, { state := 2, lanesUp := 15 }), (1, { state := 2, lanesUp := 15 })] } }

theorem wit_MemoryFramesAnswer_1 : ∃ (s : State) (port : Nat) (f : Frame) (n : Nat) (r : _), s.ForUs port f ∧ n = f.tf 3 8 0 ∧
    f.ty = 0x20 ∧ s.memRefusal f = some r := by
  refine ⟨jobState openJob, 0, asking 0x20 0x80000000 0, 0, 0, ?_⟩
  and_intros <;> first | decide +kernel | exact forUs_of (by decide +kernel)

theorem wit_MemoryFramesAnswer_2 : ∃ (s : State) (port : Nat) (f : Frame) (n : Nat) (w off : _), s.ForUs port f ∧ n = f.tf 3 8 0 ∧
    f.ty = 0x20 ∧ s.memRefusal f = none ∧ s.fabricPlace f.addr = .window w off ∧ off + n ≤ blockBytes := by
  refine ⟨lendState, 0, asking 0x20 0x10000003C0000 256, 256, 0, 0, ?_⟩
  and_intros <;> first | decide +kernel | exact forUs_of (by decide +kernel)

theorem wit_MemoryFramesAnswer_3 : ∃ (s : State) (port : Nat) (f : Frame) (n : Nat) (fid off : _), s.ForUs port f ∧ n = f.tf 3 8 0 ∧
    f.ty = 0x20 ∧ s.memRefusal f = none ∧ s.fabricPlace f.addr = .near fid off ∧ off + n ≤ blockBytes := by
  refine ⟨jobState openJob, 0, asking 0x20 0x8003FFFF 1, 1, 0, 0x3FFFF, ?_⟩
  and_intros <;> first | decide +kernel | exact forUs_of (by decide +kernel)

theorem wit_MemoryFramesAnswer_4 : ∃ (s : State) (port : Nat) (f : Frame) (n : Nat) (cl off : _), s.ForUs port f ∧ n = f.tf 3 8 0 ∧
    f.ty = 0x20 ∧ s.memRefusal f = none ∧ s.fabricPlace f.addr = .cluster cl off ∧ off + n ≤ 2 ^ 24 ∧
    (∀ i, i < n → (s.cmemKey cl (off + i)).isSome = true) := by
  refine ⟨jobState openJob, 0, asking 0x20 0x2000000000040 4, 4, 0, 0x40, ?_⟩
  and_intros <;> first | decide +kernel | exact forUs_of (by decide +kernel)

theorem wit_MemoryFramesAnswer_5 : ∃ (s : State) (port : Nat) (f : Frame) (n : Nat) (r : _), s.ForUs port f ∧ n = f.tf 3 8 0 ∧
    f.ty = 0x21 ∧ s.memRefusal f = some r := by
  refine ⟨jobState openJob, 0, asking 0x21 0x3000000000000 4, 4, 2, ?_⟩
  and_intros <;> first | decide +kernel | exact forUs_of (by decide +kernel)

theorem wit_MemoryFramesAnswer_6 : ∃ (s : State) (port : Nat) (f : Frame) (n : Nat) (fid off : _), s.ForUs port f ∧ n = f.tf 3 8 0 ∧
    f.ty = 0x21 ∧ s.memRefusal f = none ∧ n ≤ f.payload.length ∧ off + n ≤ blockBytes ∧ s.tiers.wf = true ∧
    (s.fabricPlace f.addr = .near fid off ∨ ∃ w, s.fabricPlace f.addr = .window w off ∧ fid = windowFid w) := by
  refine ⟨jobState openJob, 0, asking 0x21 0x80000000 4 [1, 2, 3, 4], 4, 0, 0, ?_⟩
  and_intros <;> first | decide +kernel | exact forUs_of (by decide +kernel) | exact .inl (by decide +kernel)

theorem wit_MemoryFramesAnswer_7 : ∃ (s : State) (port : Nat) (f : Frame) (n : Nat) (r : _), s.ForUs port f ∧ n = f.tf 3 8 0 ∧
    s.reqOf f = some r ∧ f.ty = 0x22 ∧ s.reqLive r = true ∧ s.tiers.wf = true := by
  refine ⟨peerState, 0, frameOf 0x22 0 [0, 0, 3], 0, { id := 3, chip := 1, ctx := 0, frame := 9, entry := 0 }, ?_⟩
  and_intros <;> first | decide +kernel | exact forUs_of (by decide +kernel)

theorem wit_MemoryFramesAnswer_8 : ∃ (s : State) (port : Nat) (f : Frame) (n : Nat) (r : _), s.ForUs port f ∧ n = f.tf 3 8 0 ∧
    s.reqOf f = some r ∧ f.ty = 0x23 := by
  refine ⟨peerState, 0, frameOf 0x23 0 [0, 0, 3], 0, { id := 3, chip := 1, ctx := 0, frame := 9, entry := 0 }, ?_⟩
  and_intros <;> first | decide +kernel | exact forUs_of (by decide +kernel)

theorem wit_MemoryFramesAnswer_9 : ∃ (s : State) (port : Nat) (f : Frame) (n : Nat) (r : _), s.ForUs port f ∧ n = f.tf 3 8 0 ∧
    s.reqOf f = some r ∧ f.ty = 0x24 ∧ s.reqLive r = true ∧ f.tf 3 1 0 = 1 ∧ (s.migOf r.entry).isNone = true ∧ s.ctxLive r.ctx = true := by
  refine ⟨peerState, 0, frameOf 0x24 0 [0, 0, 3, 1], 1, { id := 3, chip := 1, ctx := 0, frame := 9, entry := 0 }, ?_⟩
  and_intros <;> first | decide +kernel | exact forUs_of (by decide +kernel)

theorem wit_MemoryFramesAnswer_10 : ∃ (s : State) (port : Nat) (f : Frame) (n : Nat) (r : _), s.ForUs port f ∧ n = f.tf 3 8 0 ∧
    s.reqOf f = some r ∧ f.ty = 0x24 ∧ s.reqLive r = true ∧ f.tf 3 1 0 ≠ 1 := by
  refine ⟨peerState, 0, frameOf 0x24 0 [0, 0, 3, 2], 2, { id := 3, chip := 1, ctx := 0, frame := 9, entry := 0 }, ?_⟩
  and_intros <;> first | decide +kernel | exact forUs_of (by decide +kernel)

theorem wit_MemoryFramesAnswer_11 : ∃ (s : State) (port : Nat) (f : Frame) (n : Nat) (x p : _), s.ForUs port f ∧ n = f.tf 3 8 0 ∧
    f.ty = 0x25 ∧ x = f.tf 0 13 0 ∧ p ∈ s.routeList x ∧ p.2 = port ∧ (∃ c ∈ s.cands x, c ≠ port) ∧
    (∀ r ∈ s.fab.reqs, ¬(r.chip = x ∧ r.port = port)) := by
  refine ⟨twoPorts, 0, frameOf 0x25 0 [1], 0, 1, (0, 0), ?_⟩
  and_intros <;> first | decide +kernel | exact forUs_of (by decide +kernel)

/-- A read of 256 bytes from the last 128 of lend window frame 0 on. -/
theorem wit_MemoryFramesAnswer_12 : ∃ (s : State) (port : Nat) (f : Frame) (n w off w2 off2 m : Nat), s.ForUs port f ∧ n = f.tf 3 8 0 ∧
    f.ty = 0x20 ∧ s.memRefusal f = none ∧ s.fabricPlace f.addr = .window w off ∧ m = blockBytes - off ∧ off ≤ blockBytes ∧ m < n ∧
    s.fabricPlace (f.addr + m) = .window w2 off2 := by
  refine ⟨{ lendState with tiers := { twoBlocks with lendW := 2, lendMask := 1, lends := [⟨1, 0, 0, 2, false⟩] } }, 0,
    asking 0x20 0x10000003BFF80 256, 256, 0, 0x3FF80, 1, 0, 0x80, ?_⟩
  and_intros <;> first | decide +kernel | exact forUs_of (by decide +kernel)

theorem wit_CircuitFramesAct_1 : ∃ (s : State) (port : Nat) (f : Frame) (p : Port), s.portOf port = p ∧ p.usable = true ∧ f.clean = true ∧
    f.ty = 1 ∧ f.tf 0 0 0 = 0 := by
  refine ⟨jobState openJob, 0, frameOf 1 0 [], { state := 2, lanesUp := 15, nChip := 1 }, ?_⟩
  and_intros <;> decide +kernel

theorem wit_CircuitFramesAct_2 : ∃ (s : State) (port : Nat) (f : Frame) (p : Port), s.portOf port = p ∧ p.usable = true ∧ f.clean = true ∧
    f.ty = 1 ∧ f.tf 0 0 0 = 1 ∧ (p.acked f.lack).replayBuf ≠ [] := by
  refine ⟨{ jobState openJob with fab := { ports := [(0, { state := 2, lanesUp := 15, replayBuf := [frameOf 0x20 0 []] })] } }, 0,
    frameOf 1 0 [1], { state := 2, lanesUp := 15, replayBuf := [frameOf 0x20 0 []] }, ?_⟩
  and_intros <;> decide +kernel

theorem wit_CircuitFramesAct_3 : ∃ (s : State) (port : Nat) (f : Frame) (p : Port) (lane : _), s.portOf port = p ∧ p.usable = true ∧
    f.clean = true ∧ f.ty = 2 ∧ lane = f.tf 0 1 0 ∧ f.tf 0 3 2 = 0 ∧ p.recalActive = false := by
  refine ⟨jobState openJob, 0, frameOf 2 0 [3], { state := 2, lanesUp := 15, nChip := 1 }, 3, ?_⟩
  and_intros <;> decide +kernel

theorem wit_CircuitFramesAct_4 : ∃ (s : State) (port : Nat) (f : Frame) (p : Port) (lane : _), s.portOf port = p ∧ p.usable = true ∧
    f.clean = true ∧ f.ty = 2 ∧ lane = f.tf 0 1 0 ∧ f.tf 0 3 2 = 0 ∧ p.recalActive = true := by
  refine ⟨{ jobState openJob with fab := { ports := [(0, { state := 2, lanesUp := 15, recalActive := true })] } }, 0, frameOf 2 0 [3],
    { state := 2, lanesUp := 15, recalActive := true }, 3, ?_⟩
  and_intros <;> decide +kernel

theorem wit_CircuitFramesAct_5 : ∃ (s : State) (port : Nat) (f : Frame) (p : Port) (lane : _), s.portOf port = p ∧ p.usable = true ∧
    f.clean = true ∧ f.ty = 2 ∧ lane = f.tf 0 1 0 ∧ f.tf 0 3 2 = 1 ∧ p.recalActive = true ∧ p.recalLane = lane := by
  refine ⟨{ jobState openJob with fab := { ports := [(0, { state := 2, lanesUp := 15, recalActive := true, recalLane := 3 })] } }, 0,
    frameOf 2 0 [7], { state := 2, lanesUp := 15, recalActive := true, recalLane := 3 }, 3, ?_⟩
  and_intros <;> decide +kernel

theorem wit_CircuitFramesAct_6 : ∃ (s : State) (port : Nat) (f : Frame) (p : Port) (lane : _), s.portOf port = p ∧ p.usable = true ∧
    f.clean = true ∧ f.ty = 2 ∧ lane = f.tf 0 1 0 ∧ f.tf 0 3 2 = 3 := by
  refine ⟨{ jobState openJob with fab := { ports := [(0, { state := 2, lanesUp := 14 })] } }, 0, frameOf 2 0 [12],
    { state := 2, lanesUp := 14 }, 0, ?_⟩
  and_intros <;> decide +kernel

/-- A layout with an input station 0 of room for one tile. -/
def inputLayout : Layout := { phase := .loaded, published := 1, img := { stations := [{ fmt := 4, bufTiles := 1 }] } }

/-- The job's state with that layout. -/
def inputState : State :=
  { State.reset with fab := circuitFab, ctxs := [(0, { live := true, layouts := [(0, some inputLayout)], job := some openJob })] }

theorem wit_CircuitFramesAct_7 : ∃ (s : State) (port : Nat) (f : Frame) (p : Port) (ctx rank j l st : _), s.portOf port = p ∧
    p.usable = true ∧ f.clean = true ∧ s.AtEndpoint port f ∧ f.ty = 0x10 ∧ s.senderOf f = some (ctx, rank) ∧ s.jobOf ctx = some j ∧
    j.tilesIn = [] ∧ s.layoutOf ctx (f.tf 2 2 0) = some l ∧ l.img.stations[f.tf 2 12 3]? = some st ∧ st.out = false ∧ f.tf 0 3 0 = st.fmt ∧
    f.tf 1 15 0 = l.published ∧ f.tf 3 7 0 = 0 ∧ f.tf 3 15 8 = 1 ∧ s.stationBusy ctx (f.tf 2 2 0) (f.tf 2 12 3) = false ∧
    ((tget [] l.buffers (f.tf 2 12 3)).filter (fun t => t.kind < 2)).length < st.bufTiles := by
  refine ⟨inputState, 0, frameOf 0x10 5 [4, 1, 0, 0x100], { state := 2, lanesUp := 15, nChip := 1 }, 0, 1, openJob, inputLayout,
    { fmt := 4, bufTiles := 1 }, ?_⟩
  and_intros <;> first | decide +kernel | exact atEndpoint_of (by decide +kernel)

theorem wit_CircuitFramesAct_8 : ∃ (s : State) (port : Nat) (f : Frame) (p : Port) (ctx rank j l st : _), s.portOf port = p ∧
    p.usable = true ∧ f.clean = true ∧ s.AtEndpoint port f ∧ f.ty = 0x10 ∧ s.senderOf f = some (ctx, rank) ∧ s.jobOf ctx = some j ∧
    j.tilesIn = [] ∧ s.layoutOf ctx (f.tf 2 2 0) = some l ∧ l.img.stations[f.tf 2 12 3]? = some st ∧ f.tf 1 15 0 ≠ l.published ∧
    f.tf 3 7 0 = 0 := by
  refine ⟨inputState, 0, frameOf 0x10 5 [4, 2], { state := 2, lanesUp := 15, nChip := 1 }, 0, 1, openJob, inputLayout,
    { fmt := 4, bufTiles := 1 }, ?_⟩
  and_intros <;> first | decide +kernel | exact atEndpoint_of (by decide +kernel)

theorem wit_CircuitFramesAct_9 : ∃ (s : State) (port : Nat) (f : Frame) (p : Port), s.portOf port = p ∧ p.usable = true ∧ f.clean = true ∧
    s.AtEndpoint port f ∧ f.ty = 0x14 ∧ (s.circOf f.circuit).sendQ = [] := by
  refine ⟨inputState, 0, frameOf 0x14 5 [1], { state := 2, lanesUp := 15, nChip := 1 }, ?_⟩
  and_intros <;> first | decide +kernel | exact atEndpoint_of (by decide +kernel)

theorem wit_CircuitFramesAct_10 : ∃ (s : State) (port : Nat) (f : Frame) (p : Port), s.portOf port = p ∧ p.usable = true ∧
    f.clean = true ∧ s.AtEndpoint port f ∧ f.ty = 0x15 := by
  refine ⟨inputState, 0, frameOf 0x15 5 [1], { state := 2, lanesUp := 15, nChip := 1 }, ?_⟩
  and_intros <;> first | decide +kernel | exact atEndpoint_of (by decide +kernel)

/-- Chip 0 while its job 7 is opening, with a RESERVE to chip 1 out on port 0 for circuit 5. -/
def openingState (r : Resv) (c : Circuit) : State :=
  { jobState { openJob with isOpen := false } with fab := { twoChips with circuits := [(5, c)], resv := [r] } }

theorem wit_CircuitsAreSetUp_1 : ∃ (s : State) (port : Nat) (f : Frame) (ctx k : _), s.InOrder port f ∧ f.ty = 0x30 ∧ f.dst = s.fab.chip ∧
    s.opening (f.t 0) = some ctx ∧ s.freeCircuit = some k ∧ f.tf 1 1 0 ≠ 2 := by
  refine ⟨jobState { openJob with isOpen := false }, 0, frameOf 0x30 0 [7, 1], 0, 0, ?_⟩
  and_intros <;> first | decide +kernel | exact inOrder_of (by decide +kernel)

theorem wit_CircuitsAreSetUp_2 : ∃ (s : State) (port : Nat) (f : Frame), s.InOrder port f ∧ f.ty = 0x30 ∧ f.dst = s.fab.chip ∧
    s.opening (f.t 0) = none := by
  refine ⟨jobState openJob, 0, frameOf 0x30 0 [7, 1], ?_⟩
  and_intros <;> first | decide +kernel | exact inOrder_of (by decide +kernel)

theorem wit_CircuitsAreSetUp_3 : ∃ (s : State) (port : Nat) (f : Frame) (out rest k : _), s.InOrder port f ∧ f.ty = 0x30 ∧
    f.dst ≠ s.fab.chip ∧ 1 < f.ttl ∧ s.cands f.dst = out :: rest ∧ s.freeCircuit = some k ∧ f.tf 1 1 0 ≠ 2 := by
  refine ⟨jobState openJob, 0, { frameOf 0x30 0 [7, 1] with dst := 1, ttl := 2 }, 0, [], 0, ?_⟩
  and_intros <;> first | decide +kernel | exact inOrder_of (by decide +kernel)

theorem wit_CircuitsAreSetUp_4 : ∃ (s : State) (port : Nat) (f : Frame) (r k : _), s.InOrder port f ∧ f.ty = 0x31 ∧
    s.fab.resv.find? (fun r => r.port = port && r.initiator = f.dst && r.target = f.src) = some r ∧ r.entry = some k := by
  refine ⟨openingState ⟨0, 0, 1, some 5⟩ { state := 1, aLocal := true }, 0, frameOf 0x31 0 [9], ⟨0, 0, 1, some 5⟩, 5, ?_⟩
  and_intros <;> first | decide +kernel | exact inOrder_of (by decide +kernel)

theorem wit_CircuitsAreSetUp_5 : ∃ (s : State) (port : Nat) (f : Frame) (r k : _), s.InOrder port f ∧ f.ty = 0x32 ∧
    (s.fab.resv.filter (fun r => r.port = port && r.initiator = f.dst)).find? (fun r => r.target = f.tf 0 13 0) = some r ∧
    r.entry = some k ∧ (s.circOf k).aLocal = false ∧ (s.circOf k).state = 1 ∧ (s.circOf k).kind ≠ 2 ∧
    (∀ x ∈ s.fab.resv.erase r, x.entry ≠ some k) := by
  refine ⟨openingState ⟨0, 0, 1, some 5⟩ { state := 1, transit := true }, 0, frameOf 0x32 0 [1], ⟨0, 0, 1, some 5⟩, 5, ?_, ?_, ?_, ?_,
    ?_, ?_, ?_, by simp [openingState, List.erase_cons_head]⟩ <;>
    first | decide +kernel | exact inOrder_of (by decide +kernel)

/-- A routed layer of two experts, one at each chip, a job with a plan of it, and a step of two rows. -/
def routedLayer : RoutedLayer := ⟨0, 1, 2, 3, 4, 0, 5, 5, [⟨0, 4, 5⟩, ⟨1, 6, 7⟩]⟩

def routedPlan : ExpertPlan := ⟨0, 0, false, [routedLayer]⟩

def routedJob : Job := { openJob with plan := some routedPlan, gen := 1, genEnded := false }

def routedStep : StepRun := { span := true, rows := 2, gen := 1 }

def routedCmd : Cmd := { atWork 0x42 0 [] with work := .step routedStep }

/-- The run in progress, with a router layer. -/
def routedState (j : Job) (r : RouterLayer) : State :=
  { withCmd routedCmd with
    fab := circuitFab, router := [(0, r)],
    ctxs := [(0, { live := true, layouts := [(0, some { phase := .loaded })], job := some j })] }

/-- The selection: rows 0 and 1 by expert 0, row 0 by expert 1. -/
def chosenRows : RouterLayer := { done := true, sent := true, returned := true, selected := [(0, [0, 1]), (1, [0])] }

theorem wit_RoutedTilesArrive_1 : ∃ (s : State) (ctx fn q : Nat) (c : Cmd) (st : StepRun) (j : Job) (p : ExpertPlan) (i : Nat) (y : RoutedLayer),
    s.jobOf ctx = some j ∧ j.plan = some p ∧ p.layers[i]? = some y ∧ s.routedRun ctx = some (fn, q, c, st) ∧ c.phase = .running ∧
    (s.routerOf ctx i).done = false ∧ rowsFull (s.routerOf ctx i).scores st.rows (32 * ceilDiv y.experts.length 32) = true := by
  refine ⟨routedState routedJob { scores := List.replicate 2 (List.replicate 32 0) }, 0, 0, 0, routedCmd, routedStep, routedJob,
    routedPlan, 0, routedLayer, ?_⟩
  and_intros <;> decide +kernel

theorem wit_RoutedTilesArrive_2 : ∃ (s : State) (ctx fn q : Nat) (c : Cmd) (st : StepRun) (j : Job) (p : ExpertPlan) (i : Nat) (y : RoutedLayer) (row k r fmt l : _),
    s.jobOf ctx = some j ∧ j.plan = some p ∧ p.layers[i]? = some y ∧ s.routedRun ctx = some (fn, q, c, st) ∧ c.phase = .running ∧
    r = s.routerOf ctx i ∧ r.done = true ∧ ownedOf [row] j.rank st.rows j.members.length = [row] ∧
    k = row - ownFirst j.rank st.rows j.members.length ∧ (r.residRows.getD k []).length = y.width ∧
    (∀ x ∈ r.by y.experts.length row, (tget [] r.answers (rowKey x row)).length = y.width) ∧ tget [] r.combined k = [] ∧
    s.layoutOf ctx p.layout = some l ∧ fmt = l.residFmt y.resid := by
  refine ⟨routedState routedJob { chosenRows with residRows := [List.replicate 32 0], answers := [(rowKey 0 0, List.replicate 32 0), (rowKey 1 0, List.replicate 32 0)] },
    0, 0, 0, routedCmd, routedStep, routedJob, routedPlan, 0, routedLayer, 0, 0,
    { chosenRows with residRows := [List.replicate 32 0], answers := [(rowKey 0 0, List.replicate 32 0), (rowKey 1 0, List.replicate 32 0)] },
    5, { phase := .loaded }, ?_⟩
  and_intros <;> decide +kernel

theorem wit_RoutedTilesArrive_3 : ∃ (s : State) (ctx fn q : Nat) (c : Cmd) (st : StepRun) (j : Job) (p : ExpertPlan) (i : Nat) (y : RoutedLayer),
    s.jobOf ctx = some j ∧ j.plan = some p ∧ p.layers[i]? = some y ∧ s.routedRun ctx = some (fn, q, c, st) ∧ c.phase = .running ∧
    s.routerQuiet ctx st = false ∧ s.ctxLive ctx = true := by
  refine ⟨routedState routedJob chosenRows, 0, 0, 0, routedCmd, routedStep, routedJob, routedPlan, 0, routedLayer, ?_⟩
  and_intros <;> decide +kernel

/-- A routed frame of a kind, generation and expert from rank 1. -/
def routedFrame (kind gen expert : Nat) (payload : List Byte := []) : Frame := frameOf 0x11 5 [0x3E05, 0, gen, kind + 2048 * expert, 0, 1] payload

theorem wit_RoutedTilesArrive_4 : ∃ (s : State) (port : Nat) (f : Frame) (ctx rank : Nat) (j : Job) (p : ExpertPlan) (i : Nat) (y : RoutedLayer) (row : _),
    s.jobOf ctx = some j ∧ j.plan = some p ∧ p.layers[i]? = some y ∧ s.AtEndpoint port f ∧ f.ty = 0x11 ∧ s.senderOf f = some (ctx, rank) ∧
    (rKind f, row) ∈ [(0, Instr.dispatch port f true), (1, .dispatchEnd port f true), (2, .returnTile port f true), (3, .returnEnd port f true)] ∧
    f.t 2 ≠ j.gen ∧ genNewer (f.t 2) j.gen = true := by
  refine ⟨routedState routedJob chosenRows, 0, routedFrame 1 2 0, 0, 1, routedJob, routedPlan, 0, routedLayer,
    .dispatchEnd 0 (routedFrame 1 2 0) true, ?_⟩
  and_intros <;> first | decide +kernel | exact atEndpoint_of (by decide +kernel)

theorem wit_RoutedTilesArrive_5 : ∃ (s : State) (port : Nat) (f : Frame) (ctx rank : Nat) (j : Job) (p : ExpertPlan) (i : Nat) (y : RoutedLayer) (row : _),
    s.jobOf ctx = some j ∧ j.plan = some p ∧ p.layers[i]? = some y ∧ s.AtEndpoint port f ∧ f.ty = 0x11 ∧ s.senderOf f = some (ctx, rank) ∧
    (rKind f, row) ∈ [(0, Instr.dispatch port f true), (1, .dispatchEnd port f true), (2, .returnTile port f true), (3, .returnEnd port f true)] ∧
    ((f.t 2 = j.gen ∧ j.genEnded = true) ∨ (f.t 2 ≠ j.gen ∧ genNewer (f.t 2) j.gen = false)) := by
  refine ⟨routedState routedJob chosenRows, 0, routedFrame 3 0 0, 0, 1, routedJob, routedPlan, 0, routedLayer,
    .returnEnd 0 (routedFrame 3 0 0) true, ?_⟩
  and_intros <;> first | decide +kernel | exact atEndpoint_of (by decide +kernel)

theorem wit_RoutedTilesArrive_6 : ∃ (s : State) (port : Nat) (f : Frame) (ctx rank fn q : Nat) (c : Cmd) (st : StepRun) (j : Job) (p : ExpertPlan) (i : Nat) (y : RoutedLayer) (ks : _),
    s.jobOf ctx = some j ∧ j.plan = some p ∧ p.layers[i]? = some y ∧ s.AtEndpoint port f ∧ f.ty = 0x11 ∧ s.senderOf f = some (ctx, rank) ∧
    s.routedRun ctx = some (fn, q, c, st) ∧ c.phase = .running ∧ st.gen = j.gen ∧ f.t 2 = j.gen ∧ j.gen ≠ 0 ∧ j.genEnded = false ∧
    j.held = [] ∧ rReserved f = false ∧ rRank f = rank ∧ rLayer f = i ∧ (s.routerOf ctx i).done = true ∧
    (∀ k, k < p.layers.length → (s.routerOf ctx k).sent = true ∧ (s.routerOf ctx k).returned = true) ∧ rKind f = 0 ∧
    rExpert f ∈ y.hosted j.rank ∧
    tileKeys (ownedOf ((s.routerOf ctx i).chosen (rExpert f)) rank st.rows j.members.length) (rExpert f) y.cols y.dispFmt f (s.routerOf ctx i).placed = some ks := by
  refine ⟨routedState routedJob chosenRows, 0, routedFrame 0 1 0 (List.replicate 2048 0), 0, 1, 0, 0, routedCmd, routedStep, routedJob,
    routedPlan, 0, routedLayer, [rowKey 0 1], ?_⟩
  and_intros <;> first | decide +kernel | exact atEndpoint_of (by decide +kernel)

theorem wit_RoutedTilesArrive_7 : ∃ (s : State) (port : Nat) (f : Frame) (ctx rank fn q : Nat) (c : Cmd) (st : StepRun) (j : Job) (p : ExpertPlan) (i : Nat) (y : RoutedLayer) (ks : _),
    s.jobOf ctx = some j ∧ j.plan = some p ∧ p.layers[i]? = some y ∧ s.AtEndpoint port f ∧ f.ty = 0x11 ∧ s.senderOf f = some (ctx, rank) ∧
    s.routedRun ctx = some (fn, q, c, st) ∧ c.phase = .running ∧ st.gen = j.gen ∧ f.t 2 = j.gen ∧ j.gen ≠ 0 ∧ j.genEnded = false ∧
    j.held = [] ∧ rReserved f = false ∧ rRank f = rank ∧ rLayer f = i ∧ (s.routerOf ctx i).done = true ∧
    (∀ k, k < p.layers.length → (s.routerOf ctx k).sent = true ∧ (s.routerOf ctx k).returned = true) ∧ rKind f = 2 ∧
    rExpert f ∈ y.hosted rank ∧
    tileKeys (ownedOf ((s.routerOf ctx i).chosen (rExpert f)) j.rank st.rows j.members.length) (rExpert f) y.cols y.ansFmt f (s.routerOf ctx i).answers = some ks := by
  refine ⟨routedState routedJob chosenRows, 0, routedFrame 2 1 1 (List.replicate 2048 0), 0, 1, 0, 0, routedCmd, routedStep, routedJob,
    routedPlan, 0, routedLayer, [rowKey 1 0], ?_⟩
  and_intros <;> first | decide +kernel | exact atEndpoint_of (by decide +kernel)

theorem wit_RoutedTilesArrive_8 : ∃ (s : State) (port : Nat) (f : Frame) (ctx rank fn q : Nat) (c : Cmd) (st : StepRun) (j : Job) (p : ExpertPlan) (i : Nat) (y : RoutedLayer),
    s.jobOf ctx = some j ∧ j.plan = some p ∧ p.layers[i]? = some y ∧ s.AtEndpoint port f ∧ f.ty = 0x11 ∧ s.senderOf f = some (ctx, rank) ∧
    s.routedRun ctx = some (fn, q, c, st) ∧ c.phase = .running ∧ st.gen = j.gen ∧ f.t 2 = j.gen ∧ j.gen ≠ 0 ∧ j.genEnded = false ∧
    j.held = [] ∧ rReserved f = false ∧ rRank f = rank ∧ rLayer f = i ∧ (s.routerOf ctx i).done = true ∧
    (∀ k, k < p.layers.length → (s.routerOf ctx k).sent = true ∧ (s.routerOf ctx k).returned = true) ∧ rKind f = 1 ∧ endBad f = false ∧
    (∀ e ∈ y.hosted j.rank, tableFull (s.routerOf ctx i).placed ((ownedOf ((s.routerOf ctx i).chosen e) rank st.rows j.members.length).map (rowKey e)) y.width = true) := by
  refine ⟨routedState routedJob { chosenRows with placed := [(rowKey 0 1, List.replicate 32 0)] }, 0, routedFrame 1 1 0, 0, 1, 0, 0,
    routedCmd, routedStep, routedJob, routedPlan, 0, routedLayer, ?_⟩
  and_intros <;> first | decide +kernel | exact atEndpoint_of (by decide +kernel)

theorem wit_RoutedTilesArrive_9 : ∃ (s : State) (port : Nat) (f : Frame) (ctx rank fn q : Nat) (c : Cmd) (st : StepRun) (j : Job) (p : ExpertPlan) (i : Nat) (y : RoutedLayer),
    s.jobOf ctx = some j ∧ j.plan = some p ∧ p.layers[i]? = some y ∧ s.AtEndpoint port f ∧ f.ty = 0x11 ∧ s.senderOf f = some (ctx, rank) ∧
    s.routedRun ctx = some (fn, q, c, st) ∧ c.phase = .running ∧ st.gen = j.gen ∧ f.t 2 = j.gen ∧ j.gen ≠ 0 ∧ j.genEnded = false ∧
    j.held = [] ∧ rReserved f = false ∧ rRank f = rank ∧ rLayer f = i ∧ (s.routerOf ctx i).done = true ∧
    (∀ k, k < p.layers.length → (s.routerOf ctx k).sent = true ∧ (s.routerOf ctx k).returned = true) ∧ rKind f = 3 ∧ endBad f = false ∧
    (∀ e ∈ y.hosted rank, tableFull (s.routerOf ctx i).answers ((ownedOf ((s.routerOf ctx i).chosen e) j.rank st.rows j.members.length).map (rowKey e)) y.width = true) := by
  refine ⟨routedState routedJob { chosenRows with answers := [(rowKey 1 0, List.replicate 32 0)] }, 0, routedFrame 3 1 0, 0, 1, 0, 0,
    routedCmd, routedStep, routedJob, routedPlan, 0, routedLayer, ?_⟩
  and_intros <;> first | decide +kernel | exact atEndpoint_of (by decide +kernel)

theorem wit_RoutedTilesArrive_10 : ∃ (s : State) (port : Nat) (f : Frame) (ctx rank : Nat) (j : Job) (p : ExpertPlan) (i : Nat) (y : RoutedLayer),
    s.jobOf ctx = some j ∧ j.plan = some p ∧ p.layers[i]? = some y ∧ s.AtEndpoint port f ∧ f.ty = 0x11 ∧ s.senderOf f = some (ctx, rank) ∧
    rKind f = 4 ∧ retireBad f rank = false ∧ (j.gen ≠ f.t 2 ∨ j.genEnded = true) := by
  refine ⟨routedState { routedJob with genEnded := true } chosenRows, 0, routedFrame 4 1 0, 0, 1, { routedJob with genEnded := true },
    routedPlan, 0, routedLayer, ?_⟩
  and_intros <;> first | decide +kernel | exact atEndpoint_of (by decide +kernel)

/-- The retire names an expert, a field that is 0 in one. -/
theorem wit_RoutedTilesArrive_11 : ∃ (s : State) (port : Nat) (f : Frame) (ctx rank : Nat) (j : Job) (p : ExpertPlan) (i : Nat) (y : RoutedLayer),
    s.jobOf ctx = some j ∧ j.plan = some p ∧ p.layers[i]? = some y ∧ s.AtEndpoint port f ∧ f.ty = 0x11 ∧ s.senderOf f = some (ctx, rank) ∧
    rKind f = 4 ∧ retireBad f rank = true := by
  refine ⟨routedState routedJob chosenRows, 0, routedFrame 4 1 1, 0, 1, routedJob, routedPlan, 0, routedLayer, ?_⟩
  and_intros <;> first | decide +kernel | exact atEndpoint_of (by decide +kernel)

end Wit7

namespace Wit8

/-- A job message of a subtype from chip 1 over circuit 5, with payload words. -/
def message (sub : Nat) (ws : List Nat) : Frame := frameOf 0x13 5 [sub] (ws.flatMap (leBytes 4))

/-- The job at rank 1, whose verifier is chip 1. -/
def memberJob : Job := { openJob with members := [1, 0], rank := 1 }

/-- A SPAN step at work beside a job. -/
def spanState (j : Job) (st : StepRun) : State :=
  { withCmd { atWork 0x42 0 [] with work := .step st } with fab := circuitFab, ctxs := [(0, { live := true, job := some j })] }

def spanCmd (st : StepRun) : Cmd := { atWork 0x42 0 [] with work := .step st }

theorem wit_JobMessagesAreTaken_1 : ∃ (s : State) (port : Nat) (f : Frame) (ctx rank : Nat) (j : Job) (ws : List Word),
    s.AtEndpoint port f ∧ f.ty = 0x13 ∧ s.ctrlSender f = some (ctx, rank) ∧ s.jobOf ctx = some j ∧ ws = Frame.words f ∧ f.dst = s.fab.chip ∧ f.tf 0 7 0 = 1 ∧
    rank = 0 ∧ j.genEnded = true ∧ s.routedRun ctx = none ∧ (∀ r ∈ j.retires, r.1 ≠ wnat ws 0) := by
  refine ⟨jobState memberJob, 0, message 1 [1], 0, 0, memberJob, [1], ?_⟩
  and_intros <;> first | decide +kernel | exact atEndpoint_of (by decide +kernel)

theorem wit_JobMessagesAreTaken_2 : ∃ (s : State) (port : Nat) (f : Frame) (ctx rank : Nat) (j : Job) (ws : List Word),
    s.AtEndpoint port f ∧ f.ty = 0x13 ∧ s.ctrlSender f = some (ctx, rank) ∧ s.jobOf ctx = some j ∧ ws = Frame.words f ∧ f.dst = s.fab.chip ∧ f.tf 0 7 0 = 2 ∧
    wnat ws 0 ≠ 0 ∧ j.rank = 0 ∧ (wnat ws 0, rank) ∉ j.reports := by
  refine ⟨jobState openJob, 0, message 2 [1], 0, 1, openJob, [1], ?_⟩
  and_intros <;> first | decide +kernel | exact atEndpoint_of (by decide +kernel)

theorem wit_JobMessagesAreTaken_3 : ∃ (s : State) (port : Nat) (f : Frame) (ctx rank : Nat) (j : Job) (ws : List Word) (sub row : _),
    s.AtEndpoint port f ∧ f.ty = 0x13 ∧ s.ctrlSender f = some (ctx, rank) ∧ s.jobOf ctx = some j ∧ ws = Frame.words f ∧ f.dst = s.fab.chip ∧
    (sub, row) ∈ [(3, Instr.stepOutcomes port f true), (4, .stepReady port f true), (5, .stepCommitMessage port f true)] ∧
    f.tf 0 7 0 = sub ∧ (sub = 4 ∨ rank = 0 ∨ (sub = 3 ∧ wnat ws 1 = 0)) ∧ j.stepMsgs = [] ∧ s.stepFor ctx (fun _ => true) = none := by
  refine ⟨jobState openJob, 0, message 4 [0], 0, 1, openJob, [0], 4, .stepReady 0 (message 4 [0]) true, ?_⟩
  and_intros <;> first | decide +kernel | exact atEndpoint_of (by decide +kernel)

theorem wit_JobMessagesAreTaken_4 : ∃ (s : State) (port : Nat) (f : Frame) (ctx rank : Nat) (j : Job) (ws : List Word) (sub row : _) (fn q c st : _),
    s.AtEndpoint port f ∧ f.ty = 0x13 ∧ s.ctrlSender f = some (ctx, rank) ∧ s.jobOf ctx = some j ∧ ws = Frame.words f ∧ f.dst = s.fab.chip ∧
    (sub, row) ∈ [(3, Instr.stepOutcomes port f true), (4, .stepReady port f true), (5, .stepCommitMessage port f true)] ∧
    f.tf 0 7 0 = sub ∧ (sub = 4 ∨ rank = 0 ∨ (sub = 3 ∧ wnat ws 1 = 0)) ∧ j.stepMsgs = [] ∧ s.cmdOf fn q c.n = some c ∧ sub = 3 ∧
    wnat ws 1 ≠ 0 ∧ s.stepFor ctx (fun x => !x.outcomesIn) = some (fn, q, c, st) := by
  refine ⟨spanState memberJob { span := true }, 0, message 3 [0, 1], 0, 0, memberJob, [0, 1], 3, .stepOutcomes 0 (message 3 [0, 1]) true, 0, 0,
    spanCmd { span := true }, { span := true }, ?_⟩
  and_intros <;> first | decide +kernel | exact atEndpoint_of (by decide +kernel)

theorem wit_JobMessagesAreTaken_5 : ∃ (s : State) (port : Nat) (f : Frame) (ctx rank : Nat) (j : Job) (ws : List Word) (sub row : _) (fn q c st : _),
    s.AtEndpoint port f ∧ f.ty = 0x13 ∧ s.ctrlSender f = some (ctx, rank) ∧ s.jobOf ctx = some j ∧ ws = Frame.words f ∧ f.dst = s.fab.chip ∧
    (sub, row) ∈ [(3, Instr.stepOutcomes port f true), (4, .stepReady port f true), (5, .stepCommitMessage port f true)] ∧
    f.tf 0 7 0 = sub ∧ (sub = 4 ∨ rank = 0 ∨ (sub = 3 ∧ wnat ws 1 = 0)) ∧ j.stepMsgs = [] ∧ s.cmdOf fn q c.n = some c ∧ sub = 4 ∧
    s.stepFor ctx (fun x => x.isReady && !x.committed && !x.readies.contains rank) = some (fn, q, c, st) ∧
    (∃ p ∈ j.others, p.1 ∉ st.readies ++ [rank]) := by
  refine ⟨spanState { openJob with members := [0, 1, 2] } { span := true, isReady := true }, 0, message 4 [0], 0, 1,
    { openJob with members := [0, 1, 2] }, [0], 4, .stepReady 0 (message 4 [0]) true, 0, 0, spanCmd { span := true, isReady := true },
    { span := true, isReady := true }, ?_, ?_, ?_, ?_, ?_, ?_, ?_, ?_, ?_, ?_, ?_, ?_, ?_, ⟨(2, 2), by decide, by decide⟩⟩ <;>
    first | decide +kernel | exact atEndpoint_of (by decide +kernel)

theorem wit_JobMessagesAreTaken_6 : ∃ (s : State) (port : Nat) (f : Frame) (ctx rank : Nat) (j : Job) (ws : List Word) (sub row : _) (fn q c st : _),
    s.AtEndpoint port f ∧ f.ty = 0x13 ∧ s.ctrlSender f = some (ctx, rank) ∧ s.jobOf ctx = some j ∧ ws = Frame.words f ∧ f.dst = s.fab.chip ∧
    (sub, row) ∈ [(3, Instr.stepOutcomes port f true), (4, .stepReady port f true), (5, .stepCommitMessage port f true)] ∧
    f.tf 0 7 0 = sub ∧ (sub = 4 ∨ rank = 0 ∨ (sub = 3 ∧ wnat ws 1 = 0)) ∧ j.stepMsgs = [] ∧ s.cmdOf fn q c.n = some c ∧ sub = 5 ∧
    s.stepFor ctx (fun x => x.isReady && !x.committed) = some (fn, q, c, st) := by
  refine ⟨spanState memberJob { span := true, isReady := true }, 0, message 5 [0], 0, 0, memberJob, [0], 5,
    .stepCommitMessage 0 (message 5 [0]) true, 0, 0, spanCmd { span := true, isReady := true }, { span := true, isReady := true }, ?_⟩
  and_intros <;> first | decide +kernel | exact atEndpoint_of (by decide +kernel)

theorem wit_JobMessagesAreTaken_7 : ∃ (s : State) (port : Nat) (f : Frame) (ctx rank : Nat) (j : Job) (ws : List Word) (fn q n c st : _),
    s.AtEndpoint port f ∧ f.ty = 0x13 ∧ s.ctrlSender f = some (ctx, rank) ∧ s.jobOf ctx = some j ∧ ws = Frame.words f ∧ f.dst = s.fab.chip ∧ f.tf 0 7 0 = 6 ∧
    wnat ws 0 = 0 ∧ s.cmdOf fn q n = some c ∧ (∀ x ∈ s.allCmds, x.1 = fn → x.2.1 = q → x.2.2.n = n → x.2.2 = c) ∧ (fn, q, c) ∈ s.allCmds ∧
    c.phase = .running ∧ c.op = 0x42 ∧ c.ctx = ctx ∧ c.work = .step st ∧ st.span = true ∧
    st.committed = false ∧ (st.isReady = false ∨ j.rank = 0) := by
  refine ⟨spanState memberJob { span := true }, 0, message 6 [0], 0, 0, memberJob, [0], 0, 0, 0, spanCmd { span := true },
    { span := true }, ?_⟩
  and_intros <;> first | decide +kernel | exact atEndpoint_of (by decide +kernel)

theorem wit_JobMessagesAreTaken_8 : ∃ (s : State) (port : Nat) (f : Frame) (ctx rank : Nat) (j : Job) (ws : List Word),
    s.AtEndpoint port f ∧ f.ty = 0x13 ∧ s.ctrlSender f = some (ctx, rank) ∧ s.jobOf ctx = some j ∧ ws = Frame.words f ∧ f.dst = s.fab.chip ∧ f.tf 0 7 0 = 6 ∧
    wnat ws 0 = 0 ∧ s.stepFor ctx (fun _ => true) = none := by
  refine ⟨jobState memberJob, 0, message 6 [0], 0, 0, memberJob, [0], ?_⟩
  and_intros <;> first | decide +kernel | exact atEndpoint_of (by decide +kernel)

theorem wit_JobMessagesAreTaken_9 : ∃ (s : State) (port : Nat) (f : Frame) (ctx rank : Nat) (j : Job) (ws : List Word),
    s.AtEndpoint port f ∧ f.ty = 0x13 ∧ s.ctrlSender f = some (ctx, rank) ∧ s.jobOf ctx = some j ∧ ws = Frame.words f ∧ f.dst = s.fab.chip ∧ f.tf 0 7 0 = 6 ∧
    wnat ws 0 ≠ 0 := by
  refine ⟨spanState openJob { span := true }, 0, message 6 [1], 0, 1, openJob, [1], ?_⟩
  and_intros <;> first | decide +kernel | exact atEndpoint_of (by decide +kernel)

theorem wit_JobMessagesAreTaken_10 : ∃ (s : State) (port : Nat) (f : Frame) (ctx rank : Nat) (j : Job) (ws : List Word),
    s.AtEndpoint port f ∧ f.ty = 0x13 ∧ s.ctrlSender f = some (ctx, rank) ∧ s.jobOf ctx = some j ∧ ws = Frame.words f ∧ f.dst = s.fab.chip ∧ f.tf 0 7 0 = 7 ∧
    j.waitTiles = [] := by
  refine ⟨jobState openJob, 0, message 7 [0, 3], 0, 1, openJob, [0, 3], ?_⟩
  and_intros <;> first | decide +kernel | exact atEndpoint_of (by decide +kernel)

theorem wit_JobMessagesAreTaken_11 : ∃ (s : State) (port : Nat) (f : Frame) (ctx rank : Nat) (j : Job) (ws : List Word),
    s.AtEndpoint port f ∧ f.ty = 0x13 ∧ s.ctrlSender f = some (ctx, rank) ∧ s.jobOf ctx = some j ∧ ws = Frame.words f ∧ f.dst = s.fab.chip ∧ f.tf 0 7 0 = 8 ∧
    loadKind f = 0 := by
  refine ⟨jobState openJob, 0, message 8 [0, 7, 0], 0, 1, openJob, [0, 7, 0], ?_⟩
  and_intros <;> first | decide +kernel | exact atEndpoint_of (by decide +kernel)

theorem wit_JobMessagesAreTaken_12 : ∃ (s : State) (port : Nat) (f : Frame) (ctx rank : Nat) (j : Job) (ws : List Word),
    s.AtEndpoint port f ∧ f.ty = 0x13 ∧ s.ctrlSender f = some (ctx, rank) ∧ s.jobOf ctx = some j ∧ ws = Frame.words f ∧ f.dst = s.fab.chip ∧ f.tf 0 7 0 = 8 ∧
    loadKind f = 2 := by
  refine ⟨jobState openJob, 0, message 8 [2, 7, 0], 0, 1, openJob, [2, 7, 0], ?_⟩
  and_intros <;> first | decide +kernel | exact atEndpoint_of (by decide +kernel)

theorem wit_JobMessagesAreTaken_13 : ∃ (s : State) (port : Nat) (f : Frame) (ctx rank : Nat) (j : Job) (ws : List Word),
    s.AtEndpoint port f ∧ f.ty = 0x13 ∧ s.ctrlSender f = some (ctx, rank) ∧ s.jobOf ctx = some j ∧ ws = Frame.words f ∧ f.dst = s.fab.chip ∧ f.tf 0 7 0 = 8 ∧
    loadKind f = 1 ∧ wnat ws 4 = 0 ∧ (∀ x ∈ s.allCmds, x.2.2.op ≠ 0x62) := by
  refine ⟨jobState openJob, 0, message 8 [1, 7, 0, 0, 0], 0, 1, openJob, [1, 7, 0, 0, 0], ?_⟩
  and_intros <;> first | decide +kernel | exact atEndpoint_of (by decide +kernel)

/-- A row for a device whose candidates are a verifier's: the count of entries is 0 (R338, log entry 12). -/
theorem wit_JobMessagesAreTaken_14 : ∃ (s : State) (port : Nat) (f : Frame) (ctx rank : Nat) (j : Job) (ws : List Word) (sub row : _) (fn q c st : _),
    s.AtEndpoint port f ∧ f.ty = 0x13 ∧ s.ctrlSender f = some (ctx, rank) ∧ s.jobOf ctx = some j ∧ ws = Frame.words f ∧ f.dst = s.fab.chip ∧
    (sub, row) ∈ [(3, Instr.stepOutcomes port f true), (4, .stepReady port f true), (5, .stepCommitMessage port f true)] ∧
    f.tf 0 7 0 = sub ∧ (sub = 4 ∨ rank = 0 ∨ (sub = 3 ∧ wnat ws 1 = 0)) ∧ j.stepMsgs = [] ∧ s.cmdOf fn q c.n = some c ∧ sub = 3 ∧
    wnat ws 1 = 0 ∧ j.rank ≠ 0 ∧ s.stepFor ctx (fun x => x.outcomesIn && !x.committed) = some (fn, q, c, st) := by
  refine ⟨spanState memberJob { span := true, outcomesIn := true }, 0, message 3 [0, 0, 0, 0], 0, 0, memberJob, [0, 0, 0, 0], 3,
    .stepOutcomes 0 (message 3 [0, 0, 0, 0]) true, 0, 0, spanCmd { span := true, outcomesIn := true }, { span := true, outcomesIn := true }, ?_⟩
  and_intros <;> first | decide +kernel | exact atEndpoint_of (by decide +kernel)

theorem wit_JobMessagesAreTaken_15 : ∃ (s : State) (port : Nat) (f : Frame) (ctx rank : Nat) (j : Job) (ws : List Word) (sub row : _),
    s.AtEndpoint port f ∧ f.ty = 0x13 ∧ s.ctrlSender f = some (ctx, rank) ∧ s.jobOf ctx = some j ∧ ws = Frame.words f ∧
    f.dst ≠ s.fab.chip ∧ (sub, row) ∈ [(1, Instr.generationAnnounce port f true), (2, .generationRetiredReport port f true),
      (3, .stepOutcomes port f true), (4, .stepReady port f true), (5, .stepCommitMessage port f true), (6, .entryDropped port f true),
      (7, .dealPublication port f true)] ∧ f.tf 0 7 0 = sub := by
  refine ⟨jobState openJob, 0, { message 6 [0] with dst := 2 }, 0, 1, openJob, [0], 6, .entryDropped 0 { message 6 [0] with dst := 2 } true, ?_⟩
  and_intros <;> first | decide +kernel | exact atEndpoint_of (by decide +kernel)

theorem wit_JobMessagesAreTaken_16 : ∃ (s : State) (port : Nat) (f : Frame) (ctx rank : Nat) (j : Job) (ws : List Word) (kind row : _),
    s.AtEndpoint port f ∧ f.ty = 0x13 ∧ s.ctrlSender f = some (ctx, rank) ∧ s.jobOf ctx = some j ∧ ws = Frame.words f ∧
    f.dst ≠ s.fab.chip ∧ (kind, row) ∈ [(0, Instr.pieceRequest port f true), (1, .readerStart port f true), (2, .doneNotice port f true)] ∧
    f.tf 0 7 0 = 8 ∧ loadKind f = kind := by
  refine ⟨jobState openJob, 0, { message 8 [2, 7, 0] with dst := 2 }, 0, 1, openJob, [2, 7, 0], 2, .doneNotice 0 { message 8 [2, 7, 0] with dst := 2 } true, ?_⟩
  and_intros <;> first | decide +kernel | exact atEndpoint_of (by decide +kernel)

/-- A lending message of a subtype from chip 1: partition 0, a first frame, a count. -/
def lending (sub first count : Nat) : Frame := frameOf 0x38 0 [sub] ([0, first, count].flatMap (leBytes 4))

/-- A lender of four frames; the first is lent already. -/
def lenderState : State := { jobState openJob with tiers := { lendW := 4, lends := [⟨1, 0, 0, 1, false⟩] } }

/-- A PEER_MAP that waits for two frames of chip 1. -/
def borrowing : Cmd := { atWork 0x26 0 [0x80000, 0, 2, 1] with work := .peer 1 0 2 false }

def borrowState : State :=
  { withCmd borrowing with fab := twoChips, ctxs := [(0, { live := true })] }

theorem wit_LendingMessagesAct_1 : ∃ (s : State) (port : Nat) (f : Frame) (part first count : Nat) (a : _), s.ForUs port f ∧ f.ty = 0x38 ∧
    part = wnat (Frame.words f) 0 % 64 ∧ first = wnat (Frame.words f) 1 ∧ count = wnat (Frame.words f) 2 ∧ f.tf 0 7 0 = 1 ∧ 1 ≤ count ∧
    a + count ≤ s.tiers.lendW ∧ (∀ i, i < count → s.lendable (a + i) = true) ∧
    (∀ b, b < a → ∃ i, i < count ∧ s.lendable (b + i) = false) ∧ s.tiers.lends.length < 4096 := by
  refine ⟨lenderState, 0, lending 1 0 3, 0, 0, 3, 1, ?_, ?_, ?_, ?_, ?_, ?_, ?_, ?_, ?_,
    fun b hb => ⟨0, by decide, by obtain rfl : b = 0 := (by omega); decide⟩, ?_⟩ <;>
    first | decide +kernel | exact forUs_of (by decide +kernel)

theorem wit_LendingMessagesAct_2 : ∃ (s : State) (port : Nat) (f : Frame) (part first count : Nat), s.ForUs port f ∧ f.ty = 0x38 ∧
    part = wnat (Frame.words f) 0 % 64 ∧ first = wnat (Frame.words f) 1 ∧ count = wnat (Frame.words f) 2 ∧ f.tf 0 7 0 = 1 ∧
    (count = 0 ∨ s.tiers.lendW < count ∨ 4096 ≤ s.tiers.lends.length ∨ ∀ a, a + count ≤ s.tiers.lendW → ∃ i, i < count ∧ s.lendable (a + i) = false) := by
  refine ⟨lenderState, 0, lending 1 0 5, 0, 0, 5, ?_, ?_, ?_, ?_, ?_, ?_, .inr (.inl (by decide))⟩ <;>
    first | decide +kernel | exact forUs_of (by decide +kernel)

theorem wit_LendingMessagesAct_3 : ∃ (s : State) (port : Nat) (f : Frame) (part first count : Nat) (fn q c : _), s.ForUs port f ∧
    f.ty = 0x38 ∧ part = wnat (Frame.words f) 0 % 64 ∧ first = wnat (Frame.words f) 1 ∧ count = wnat (Frame.words f) 2 ∧
    s.peerMapOf part f.src count = some (fn, q, c) ∧ s.cmdOf fn q c.n = some c ∧ c.phase = .running ∧ c.status = 0 ∧ f.tf 0 7 0 = 2 := by
  refine ⟨borrowState, 0, lending 2 9 2, 0, 9, 2, 0, 0, borrowing, ?_⟩
  and_intros <;> first | decide +kernel | exact forUs_of (by decide +kernel)

theorem wit_LendingMessagesAct_4 : ∃ (s : State) (port : Nat) (f : Frame) (part first count : Nat) (fn q c : _), s.ForUs port f ∧
    f.ty = 0x38 ∧ part = wnat (Frame.words f) 0 % 64 ∧ first = wnat (Frame.words f) 1 ∧ count = wnat (Frame.words f) 2 ∧
    s.peerMapOf part f.src count = some (fn, q, c) ∧ s.cmdOf fn q c.n = some c ∧ c.phase = .running ∧ c.status = 0 ∧ f.tf 0 7 0 = 3 ∧
    c.shadows = [] ∧ c.maps = [] ∧ s.cmdSlots fn q c.n = [] := by
  refine ⟨borrowState, 0, lending 3 0 2, 0, 0, 2, 0, 0, borrowing, ?_⟩
  and_intros <;> first | decide +kernel | exact forUs_of (by decide +kernel)

theorem wit_LendingMessagesAct_5 : ∃ (s : State) (port : Nat) (f : Frame) (part first count : Nat), s.ForUs port f ∧ f.ty = 0x38 ∧
    part = wnat (Frame.words f) 0 % 64 ∧ first = wnat (Frame.words f) 1 ∧ count = wnat (Frame.words f) 2 ∧ f.tf 0 7 0 = 2 ∧
    s.peerMapOf part f.src count = none := by
  refine ⟨lenderState, 0, lending 2 9 2, 0, 9, 2, ?_⟩
  and_intros <;> first | decide +kernel | exact forUs_of (by decide +kernel)

theorem wit_LendingMessagesAct_6 : ∃ (s : State) (port : Nat) (f : Frame) (part first count : Nat), s.ForUs port f ∧ f.ty = 0x38 ∧
    part = wnat (Frame.words f) 0 % 64 ∧ first = wnat (Frame.words f) 1 ∧ count = wnat (Frame.words f) 2 ∧ f.tf 0 7 0 = 4 := by
  refine ⟨lenderState, 0, lending 4 9 2, 0, 9, 2, ?_⟩
  and_intros <;> first | decide +kernel | exact forUs_of (by decide +kernel)

theorem wit_LendingMessagesAct_7 : ∃ (s : State) (port : Nat) (f : Frame) (part first count : Nat) (l : _), s.ForUs port f ∧ f.ty = 0x38 ∧
    part = wnat (Frame.words f) 0 % 64 ∧ first = wnat (Frame.words f) 1 ∧ count = wnat (Frame.words f) 2 ∧ f.tf 0 7 0 = 5 ∧ count = 1 ∧
    s.tiers.lends.find? (fun l => l.chip = f.src && l.part = part && decide (l.first ≤ first) && decide (first < l.first + l.count)) = some l := by
  refine ⟨lenderState, 0, lending 5 0 1, 0, 0, 1, ⟨1, 0, 0, 1, false⟩, ?_⟩
  and_intros <;> first | decide +kernel | exact forUs_of (by decide +kernel)

/-- Port 31, and nothing else of the fabric. -/
def portState (p : Port) : State := { State.reset with fab := { ports := [(31, p)] } }

/-- A port that is up on all its lanes, with a frame not acknowledged. -/
def upPort : Port := { state := 2, lanesUp := 15, replayBuf := [frameOf 0x20 0 []], unreported := 3 }

/-- A peer request of context 0. -/
def asked : PeerReq := { id := 3, chip := 1, ctx := 0, entry := 0 }

theorem wit_LinkTimersAct_1 : ∃ (s : State) (port : Nat) (p : Port), s.portOf port = p ∧ p.usable = true ∧ p.replayBuf ≠ [] ∧
    p.failedReplays < 3 :=
  ⟨portState upPort, 31, upPort, by decide, by decide, by decide, by decide⟩

theorem wit_LinkTimersAct_2 : ∃ (s : State) (port : Nat) (p : Port), s.portOf port = p ∧ p.usable = true ∧ p.replayBuf ≠ [] ∧
    3 ≤ p.failedReplays :=
  ⟨portState { upPort with failedReplays := 3 }, 31, { upPort with failedReplays := 3 }, by decide, by decide, by decide, by decide⟩

theorem wit_LinkTimersAct_3 : ∃ (s : State) (port : Nat) (p : Port), s.portOf port = p ∧ p.usable = true ∧ p.unreported ≠ 0 :=
  ⟨portState upPort, 31, upPort, by decide, by decide, by decide⟩

theorem wit_LinkTimersAct_4 : ∃ (s : State) (port : Nat) (p : Port) (lanes : _), s.portOf port = p ∧ p.usable = true ∧
    p.lanesUp &&& lanes ≠ p.lanesUp ∧ p.lanesUp &&& lanes = 0 :=
  ⟨portState upPort, 31, upPort, 0, by decide, by decide, by decide, by decide⟩

theorem wit_LinkTimersAct_5 : ∃ (s : State) (port : Nat) (p : Port) (lanes : _), s.portOf port = p ∧ p.usable = true ∧
    p.lanesUp &&& lanes ≠ p.lanesUp ∧ p.lanesUp &&& lanes ≠ 0 ∧ laneCount (p.lanesUp &&& lanes) < 3 := by
  refine ⟨portState upPort, 31, upPort, 3, ?_⟩
  and_intros <;> decide +kernel

theorem wit_LinkTimersAct_6 : ∃ (s : State) (port : Nat) (p : Port) (lanes : _), s.portOf port = p ∧ p.usable = true ∧
    p.lanesUp &&& lanes ≠ p.lanesUp ∧ 3 ≤ laneCount (p.lanesUp &&& lanes) :=
  ⟨portState upPort, 31, upPort, 7, by decide, by decide, by decide, by decide⟩

theorem wit_LinkTimersAct_7 : ∃ (s : State) (port : Nat) (p : Port) (k : _), s.portOf port = p ∧ (s.circOf k).state = 2 ∧
    (s.circOf k).transit = false ∧ (s.circOf k).kind ≠ 2 :=
  ⟨jobState openJob, 9, {}, 5, by decide, by decide, by decide, by decide⟩

/-- Credits of the circuit are outstanding when its timer ends. -/
theorem wit_LinkTimersAct_14 : ∃ (s : State) (port : Nat) (p : Port) (k : _), s.portOf port = p ∧ (s.circOf k).state = 2 ∧
    (s.circOf k).transit = false ∧ (s.circOf k).kind ≠ 2 ∧ (s.circOf k).avail < (s.circOf k).limit := by
  refine ⟨{ jobState openJob with fab := { circuitFab with circuits := [(5, { (jobState openJob).circOf 5 with limit := 64, avail := 63 })] } }, 9,
    (jobState openJob).portOf 9, 5, ?_⟩
  and_intros <;> decide +kernel

theorem wit_LinkTimersAct_8 : ∃ (s : State) (port : Nat) (p : Port) (id r : _), s.portOf port = p ∧
    s.fab.reqs.find? (fun r => r.id = id) = some r ∧ r.tries = 1 :=
  ⟨{ jobState openJob with fab := { twoChips with reqs := [asked] } }, 9, {}, 3, asked, by decide, by decide, by decide⟩

theorem wit_LinkTimersAct_9 : ∃ (s : State) (port : Nat) (p : Port) (id r : _), s.portOf port = p ∧
    s.fab.reqs.find? (fun r => r.id = id) = some r ∧ r.tries ≠ 1 ∧ s.ctxLive r.ctx = true :=
  ⟨{ jobState openJob with fab := { twoChips with reqs := [{ asked with tries := 2 }] } }, 9, {}, 3, { asked with tries := 2 }, by decide,
    by decide, by decide, by decide⟩

theorem wit_LinkTimersAct_10 : ∃ (s : State) (port : Nat) (p : Port) (fn q n c id j : _), s.portOf port = p ∧
    s.started fn q n 0x70 = some c ∧ c.status = 0 ∧ c.work = .job id ∧ s.jobOf c.ctx = some j ∧ s.jobReady c.ctx j = false := by
  refine ⟨{ withCmd { atWork 0x70 0 [] with work := .job 7 } with ctxs := [(0, { live := true, job := some { openJob with isOpen := false } })] },
    9, {}, 0, 0, 0, { atWork 0x70 0 [] with work := .job 7 }, 7, { openJob with isOpen := false }, ?_⟩
  and_intros <;> decide +kernel

theorem wit_LinkTimersAct_11 : ∃ (s : State) (port : Nat) (p : Port) (fn q c lane left : _), s.portOf port = p ∧
    s.recalOf port = some (fn, q, c, lane, false, left) ∧ s.cmdOf fn q c.n = some c ∧ c.status = 0 ∧ p.usable = true ∧
    p.recalActive = true ∧ lane < 4 ∧ nbit p.lanesUp lane = false ∧ 3 ≤ laneCount (setBits p.lanesUp lane lane 1) := by
  refine ⟨{ withCmd { atWork 0x73 0 [] with work := .port 31 3 false 0 } with fab := { ports := [(31, { state := 2, lanesUp := 7, recalActive := true, recalLane := 3 })] } },
    31, { state := 2, lanesUp := 7, recalActive := true, recalLane := 3 }, 0, 0, { atWork 0x73 0 [] with work := .port 31 3 false 0 },
    3, 0, ?_⟩
  and_intros <;> decide +kernel

theorem wit_LinkTimersAct_12 : ∃ (s : State) (port : Nat) (p : Port) (v : Word) (t : _), s.portOf port = p ∧ s.hostLive = true ∧
    t = { s with fab := { s.fab with routes := tset 0 s.fab.routes s.fab.routeIndex (v.toNat % 2 ^ 23) } } ∧
    t.unreach s.fab.routeIndex = false :=
  ⟨{ State.reset with power := linked }, 9, {}, 0,
    { { State.reset with power := linked } with fab := { ({ State.reset with power := linked } : State).fab with routes := tset 0 [] 0 0 } },
    by decide, by decide, rfl, by decide⟩

theorem wit_LinkTimersAct_13 : ∃ (s : State) (port : Nat) (p : Port) (lanes : _), s.portOf port = p ∧ port < 32 ∧ p.mappedOut = true ∧
    3 ≤ laneCount lanes ∧ lanes < 16 := by
  refine ⟨portState { mappedOut := true }, 31, { mappedOut := true }, 13, ?_⟩
  and_intros <;> decide +kernel

/-- A booted device whose host link is up, with partition 5 as it stands. -/
def hosted (p : Part) (warm : Bool) : State :=
  { State.reset with power := linked, mgmt := { boot := .up }, parts := { recs := [(5, p)], warm := warm, numVfs := 63, vfEnable := true } }

theorem wit_ResetsRunTheirOrder_1 : ∃ (s : State) (p : Nat) (v : _), s.hostLive = true ∧ bit v 1 = true ∧ bit v 0 = false ∧
    fld v 13 8 = p ∧ (s.partOf p).resetting = false ∧ s.parts.warm = false := by
  refine ⟨hosted {} false, 5, 0x502, ?_⟩
  and_intros <;> decide +kernel

theorem wit_ResetsRunTheirOrder_2 : ∃ (s : State) (p : Nat), s.hostLive = true ∧ s.fnExists p = true ∧ p ≠ 0 ∧
    (s.partOf p).resetting = false ∧ s.parts.warm = false := by
  refine ⟨hosted {} false, 5, ?_⟩
  and_intros <;> decide +kernel

theorem wit_ResetsRunTheirOrder_3 : ∃ (s : State), s.hostLive = true ∧ (s.partOf 0).resetting = false ∧ s.parts.warm = false :=
  ⟨hosted {} false, by decide, by decide, by decide⟩

theorem wit_ResetsRunTheirOrder_4 : ∃ (s : State) (p : Nat), (s.partOf p).resetting = true ∧ s.parts.warm = false ∧ s.booted = true :=
  ⟨hosted { resetting := true } false, 5, by decide, by decide, by decide⟩

theorem wit_ResetsRunTheirOrder_5 : ∃ (s : State) (v : _), s.hostLive = true ∧ bit v 0 = true ∧ s.parts.warm = false ∧ s.booted = true :=
  ⟨hosted {} false, 1, by decide, by decide, by decide, by decide⟩

theorem wit_ResetsRunTheirOrder_6 : ∃ (s : State), s.parts.warm = true :=
  ⟨hosted {} true, by decide⟩

theorem wit_ResetsRunTheirOrder_7 : ∃ (s : State) (n : _), s.hostLive = true ∧ s.parts.vfEnable = true ∧ n < s.parts.numVfs ∧
    s.parts.warm = false :=
  ⟨hosted {} false, 62, by decide, by decide, by decide, by decide⟩

theorem wit_ResetsRunTheirOrder_8 : ∃ (s : State) (n : _), s.hostLive = true ∧ 1 ≤ n ∧ n ≤ 63 ∧
    (s.parts.vfEnable = false ∨ s.parts.numVfs < n) :=
  ⟨{ hosted {} false with parts := {} }, 63, by decide, by decide, by decide, .inl rfl⟩

/-- Function 0 with registers, its link up. -/
def fnState (g : Fn) : State := { State.reset with cp := { fns := [(0, g)] }, power := linked }

theorem wit_RegistersReadAndWrite_1 : ∃ (s : State) (f : Nat) (g : Fn) (v : Word), s.fnOf f = g ∧ s.fnLive f = true ∧ g.frEnable = false ∧
    bit v 31 = true ∧ v.toNat % 4096 ≠ 0 := by
  refine ⟨fnState {}, 0, {}, 0x80000FFF, ?_⟩
  and_intros <;> decide +kernel

theorem wit_RegistersReadAndWrite_2 : ∃ (s : State) (f : Nat) (g : Fn) (v : Word), s.fnOf f = g ∧ s.fnLive f = true ∧ g.frEnable = false ∧
    bit v 31 = true ∧ v.toNat % 4096 = 0 := by
  refine ⟨fnState {}, 0, {}, 0x80000000, ?_⟩
  and_intros <;> decide +kernel

theorem wit_RegistersReadAndWrite_3 : ∃ (s : State) (f : Nat) (g : Fn) (v : Word), s.fnOf f = g ∧ s.fnLive f = true ∧
    v.toNat % 4096 ≤ g.frSizeM1 ∧
    (v.toNat % 4096 + (g.frSizeM1 + 1) - g.frHead) % (g.frSizeM1 + 1) ≤ (g.frTail + (g.frSizeM1 + 1) - g.frHead) % (g.frSizeM1 + 1) :=
  ⟨fnState { frEnable := true, frSizeM1 := 7, frTail := 3, frHead := 6 }, 0,
    { frEnable := true, frSizeM1 := 7, frTail := 3, frHead := 6 }, 3, by decide, by decide, by decide, by decide⟩

theorem wit_RegistersReadAndWrite_4 : ∃ (s : State) (f : Nat) (g : Fn) (v : Word), s.fnOf f = g ∧ s.fnLive f = true ∧
    g.frSizeM1 < v.toNat % 4096 :=
  ⟨fnState { frEnable := true, frSizeM1 := 7 }, 0, { frEnable := true, frSizeM1 := 7 }, 8, by decide, by decide, by decide⟩

theorem wit_RegistersReadAndWrite_5 : ∃ (s : State) (f : Nat) (g : Fn) (v : Word), s.fnOf f = g ∧ s.fnLive f = true ∧
    (∀ b, b < 8 → nbit g.intCause b = true → nbit g.intMask b = true → nbit v.toNat b = true) :=
  ⟨fnState { intCause := 0xFF, intMask := 1 }, 0, { intCause := 0xFF, intMask := 1 }, 0xFF, by decide, by decide, by decide⟩

theorem wit_RegistersReadAndWrite_6 : ∃ (s : State) (f : Nat) (g : Fn), s.fnOf f = g ∧ s.fnLive f = true :=
  ⟨fnState {}, 0, {}, by decide, by decide⟩

theorem wit_RegistersReadAndWrite_7 : ∃ (s : State) (f : Nat) (g : Fn) (q : _), s.fnOf f = g ∧ s.fnLive f = true ∧ q < 64 ∧
    (s.queueOf f q).state = .disabled :=
  ⟨fnState {}, 0, {}, 63, by decide, by decide, by decide, by decide⟩

theorem wit_RegistersReadAndWrite_8 : ∃ (s : State) (f : Nat) (g : Fn) (q : _), s.fnOf f = g ∧ s.fnLive f = true ∧ q < 64 ∧
    (s.queueOf f q).state ≠ .disabled :=
  ⟨fnState { queues := [(63, { state := .running })] }, 0, { queues := [(63, { state := .running })] }, 63, by decide, by decide,
    by decide, by decide⟩

theorem wit_RegistersReadAndWrite_9 : ∃ (s : State) (f : Nat) (g : Fn), s.fnOf f = g ∧ s.fnLive f = true :=
  ⟨fnState { preemptDenied := 3 }, 0, { preemptDenied := 3 }, by decide, by decide⟩

theorem wit_RegistersReadAndWrite_10 : ∃ (s : State) (f : Nat) (g : Fn), s.fnOf f = g ∧ s.fnLive f = true :=
  ⟨fnState { intCause := 0xFF }, 0, { intCause := 0xFF }, by decide, by decide⟩

theorem wit_RegistersReadAndWrite_11 : ∃ (s : State) (f : Nat) (g : Fn), s.fnOf f = g :=
  ⟨fnState {}, 0, {}, by decide⟩

theorem wit_RegistersReadAndWrite_12 : ∃ (s : State) (f : Nat) (g : Fn) (off size : _), s.fnOf f = g ∧ s.hostLive = true ∧
    aligned off size = false :=
  ⟨fnState {}, 0, {}, 2, 4, by decide, by decide, by decide⟩

theorem wit_RegistersReadAndWrite_13 : ∃ (s : State) (f : Nat) (g : Fn) (p : _), s.fnOf f = g ∧ s.hostLive = true ∧ p < 32 :=
  ⟨fnState {}, 0, {}, 31, by decide, by decide, by decide⟩

end Wit8

namespace Wit9

/-- A mailbox request of a kind with its first parameter words; LEN is n. -/
def asking (req n : Nat) (ps : List Nat) : Mgmt :=
  { mbBusy := true, reqArea := cellWrite [] 0 (([req, n] ++ ps).flatMap (leBytes 4)), boot := .up }

def askState (m : Mgmt) : State := { State.reset with mgmt := m, power := linked }

theorem reset_inv : ∀ m : Mgmt, m.wf = true → (askState m).Inv := fun _ h => ⟨rfl, rfl, rfl, rfl, h⟩

/-- A configuration image whose section 0x08 allows debug. -/
def debugImage : Slots := { a := [(68, 1), (128, 8), (132, 128), (196, 1)] }

theorem wit_MailboxAnswers_1 : ∃ (s : State), s.Inv :=
  ⟨askState (asking 1 0 []), reset_inv _ (by decide)⟩

theorem wit_MailboxAnswers_2 : ∃ (s : State), s.Inv ∧ s.Asked 0x01 :=
  ⟨askState (asking 1 0 []), reset_inv _ (by decide), ⟨rfl, rfl, by decide⟩⟩

theorem wit_MailboxAnswers_3 : ∃ (s : State) (rs first skip : _), s.Inv ∧ s.Asked 0x02 ∧ 1 ≤ s.mgmt.param 1 ∧ s.mgmt.param 1 ≤ 8191 ∧
    first = s.mgmt.nextLog - s.mgmt.log.length ∧ skip = s.mgmt.param 0 - first ∧ rs = (s.mgmt.log.drop skip).take (s.mgmt.param 1) := by
  refine ⟨askState { asking 2 0 [0, 8191] with log := [List.replicate 16 1], nextLog := 1 }, [List.replicate 16 1], 0, 0,
    reset_inv _ (by decide), ?_⟩
  and_intros <;> first | decide +kernel | exact asked_of (by decide +kernel)

theorem wit_MailboxAnswers_4 : ∃ (s : State) (k : _), s.Inv ∧ s.Asked 0x04 ∧ k = bits (s.mgmt.param 0) 15 0 ∧ k ∈ allIslands :=
  ⟨askState (asking 4 0 [0xBF]), 0xBF, reset_inv _ (by decide), ⟨rfl, rfl, by decide⟩, by decide, by decide⟩

theorem wit_MailboxAnswers_5 : ∃ (s : State), s.Inv ∧ s.Asked 0x05 :=
  ⟨askState (asking 5 0 []), reset_inv _ (by decide), ⟨rfl, rfl, by decide⟩⟩

theorem wit_MailboxAnswers_6 : ∃ (s : State) (v : _), s.Inv ∧ s.Asked 0x06 ∧
    s.counter (s.mgmt.param 0) (s.mgmt.param 1) (s.mgmt.param 2) = some v :=
  ⟨askState (asking 6 0 [3, 255, 255]), 0, reset_inv _ (by decide), ⟨rfl, rfl, by decide⟩, by decide⟩

theorem wit_MailboxAnswers_7 : ∃ (s : State), s.Inv ∧ s.Asked 0x06 ∧
    s.counter (s.mgmt.param 0) (s.mgmt.param 1) (s.mgmt.param 2) = none :=
  ⟨askState (asking 6 0 [1, 256, 0]), reset_inv _ (by decide), ⟨rfl, rfl, by decide⟩, by decide⟩

theorem wit_MailboxAnswers_8 : ∃ (s : State), s.Inv ∧ s.Asked 0x07 ∧ s.mgmt.param 0 ≤ 3332 ∧ s.mgmt.showHeld = true :=
  ⟨askState { asking 7 0 [3332] with showHeld := true }, reset_inv _ (by decide), ⟨rfl, rfl, by decide⟩, by decide, by decide⟩

theorem wit_MailboxAnswers_9 : ∃ (s : State), s.Inv ∧ s.Asked 0x0C :=
  ⟨askState (asking 12 0 []), reset_inv _ (by decide), ⟨rfl, rfl, by decide⟩⟩

theorem wit_MailboxAnswers_10 : ∃ (s : State) (r : _), s.Inv ∧ s.Asked 0x0D ∧ s.mgmt.req 1 = 32 ∧ r = s.attestReport s.mgmt.payload :=
  ⟨askState (asking 13 32 []), (askState (asking 13 32 [])).attestReport (asking 13 32 []).payload, reset_inv _ (by decide),
    ⟨rfl, rfl, by decide⟩, by decide, rfl⟩

theorem wit_MailboxAnswers_11 : ∃ (s : State), s.Inv ∧ s.Asked 0x10 :=
  ⟨askState (asking 16 0 []), reset_inv _ (by decide), ⟨rfl, rfl, by decide⟩⟩

theorem wit_MailboxAnswers_12 : ∃ (s : State) (offset bytes : _), s.Inv ∧ s.hostLive = true ∧ s.mgmt.dbgEnable = true ∧
    offset + bytes ≤ 2 ^ 36 :=
  ⟨askState { boot := .up, dbgEnable := true }, 2 ^ 36 - 8, 8, reset_inv _ (by decide), by decide, by decide, by decide +kernel⟩

theorem wit_MailboxChanges_1 : ∃ (s : State) (kind : Nat), kind = s.mgmt.param 0 ∧ s.Asked 0x03 :=
  ⟨askState (asking 3 0 [5]), 5, by decide, ⟨rfl, rfl, by decide⟩⟩

theorem wit_MailboxChanges_2 : ∃ (s : State) (kind : Nat), kind = s.mgmt.param 0 ∧ s.Asked 0x08 :=
  ⟨askState (asking 8 0 [0]), 0, by decide, ⟨rfl, rfl, by decide⟩⟩

theorem wit_MailboxChanges_3 : ∃ (s : State) (kind : Nat) (x : _), kind = s.mgmt.param 0 ∧ s.Asked 0x09 ∧ kind ≤ 1 ∧
    s.mgmt.param 1 % 64 = 0 ∧ s.mgmt.req 1 ≤ 262112 ∧ x = s.mgmt.slotsOf kind := by
  refine ⟨askState (asking 9 262112 [1, 64]), 1, {}, ?_⟩
  and_intros <;> first | decide +kernel | exact asked_of (by decide +kernel)

theorem wit_MailboxChanges_4 : ∃ (s : State) (kind : Nat) (x im : _), kind = s.mgmt.param 0 ∧ s.Asked 0x0A ∧ kind ≤ 1 ∧
    x = s.mgmt.slotsOf kind ∧ im = x.cells (!x.activeB) := by
  refine ⟨askState (asking 10 0 [1, 64]), 1, {}, [], ?_⟩
  and_intros <;> first | decide +kernel | exact asked_of (by decide +kernel)

theorem wit_MailboxChanges_5 : ∃ (s : State) (kind : Nat) (x : _), kind = s.mgmt.param 0 ∧ s.Asked 0x0B ∧ kind ≤ 1 ∧
    x = s.mgmt.slotsOf kind ∧ x.floor ≤ s.mgmt.param 1 ∧ s.mgmt.param 1 ≤ imSecurity (x.cells x.activeB) := by
  refine ⟨askState (asking 11 0 [1, 0]), 1, {}, ?_⟩
  and_intros <;> first | decide +kernel | exact asked_of (by decide +kernel)

theorem wit_MailboxChanges_6 : ∃ (s : State) (kind : Nat) (x : _), kind = s.mgmt.param 0 ∧ s.Asked 0x0B ∧ kind ≤ 1 ∧
    x = s.mgmt.slotsOf kind ∧ s.mgmt.param 1 < x.floor := by
  refine ⟨askState { asking 11 0 [0, 3] with fw := { floor := 4 } }, 0, { floor := 4 }, ?_⟩
  and_intros <;> first | decide +kernel | exact asked_of (by decide +kernel)

theorem wit_MailboxChanges_7 : ∃ (s : State) (kind : Nat) (base : _), kind = s.mgmt.param 0 ∧ s.Asked 0x0E ∧
    base = s.mgmt.param 2 + bits (s.mgmt.param 3) 15 0 * 2 ^ 32 ∧ s.mgmt.debugAllowed = false :=
  ⟨askState (asking 14 0 [1, 0, 0, 0x10]), 1, 0x1000000000, by decide +kernel, ⟨rfl, rfl, by decide⟩, by decide +kernel,
    by decide +kernel⟩

theorem wit_MailboxChanges_8 : ∃ (s : State) (kind : Nat) (base : _), kind = s.mgmt.param 0 ∧ s.Asked 0x0E ∧
    base = s.mgmt.param 2 + bits (s.mgmt.param 3) 15 0 * 2 ^ 32 ∧ s.mgmt.debugAllowed = true ∧ base % 2 ^ 36 = 0 ∧ nbit kind 0 = true := by
  refine ⟨askState { asking 14 0 [1, 0, 0, 0x10] with cfg := debugImage }, 1, 0x1000000000, ?_⟩
  and_intros <;> first | decide +kernel | exact asked_of (by decide +kernel)

theorem wit_MailboxChanges_9 : ∃ (s : State) (kind : Nat) (base : _), kind = s.mgmt.param 0 ∧ s.Asked 0x0E ∧
    base = s.mgmt.param 2 + bits (s.mgmt.param 3) 15 0 * 2 ^ 32 ∧ s.mgmt.debugAllowed = true ∧ base % 2 ^ 36 = 0 ∧ nbit kind 0 = false := by
  refine ⟨askState { asking 14 0 [0, 0, 0, 0] with cfg := debugImage }, 0, 0, ?_⟩
  and_intros <;> first | decide +kernel | exact asked_of (by decide +kernel)

theorem wit_MailboxChanges_10 : ∃ (s : State) (kind : Nat), kind = s.mgmt.param 0 ∧ s.Asked 0x0F ∧ s.mgmt.ownerKey = none ∧
    48 ≤ s.mgmt.req 1 :=
  ⟨askState (asking 15 48 []), 0, by decide, ⟨rfl, rfl, by decide⟩, by decide, by decide⟩

theorem wit_MailboxChanges_11 : ∃ (s : State) (kind : Nat) (old : _), kind = s.mgmt.param 0 ∧ s.Asked 0x0F ∧ s.mgmt.ownerKey = some old ∧
    s.mgmt.req 1 = 48 + sigBytes :=
  ⟨askState { asking 15 (48 + sigBytes) [] with ownerKey := some (List.replicate 48 1) }, 0, List.replicate 48 1, by decide +kernel,
    ⟨rfl, rfl, by decide⟩, by decide +kernel, by decide +kernel⟩

theorem wit_MailboxChanges_12 : ∃ (s : State) (kind : Nat) (req row : _), kind = s.mgmt.param 0 ∧
    (req, row) ∈ [(1, Instr.info), (2, .logRead), (3, .logAck), (4, .firstErrorRead), (5, .sensorRead), (6, .counterRead), (7, .snapshotRead), (8, .snapshotRelease), (9, .updateWrite), (10, .updateCommit), (11, .floorRaise), (12, .identity), (13, .attest), (14, .debugWindow), (15, .ownerSet), (16, .fenceRead)] ∧
    ¬s.Asked req :=
  ⟨askState (asking 1 0 []), 0, 16, .fenceRead, by decide, by decide, fun h => absurd h.asked (by decide)⟩

/-- A package whose four rail groups are up. -/
def powered (p : Power) : State :=
  { State.reset with power := { p with groups := 4, stbyPg := true, running := true }, mgmt := { boot := .up } }

/-- An armed showdown on the pin, in count mode. -/
def armed : Arming := ⟨false, true, none, none, false⟩

/-- A core whose input 0 holds a showdown tile while a showdown in cut mode is open; its hand 0 takes input 0 to the east neighbour, whose input
holds some tiles. -/
def cutShow (latched : Bool) (held : List Tile) : State :=
  { State.reset with cores := [(0, { snapLatched := latched, inq := [(0, [{ kind := 3, tag := 1 }])], hands := [(0, some (arrivingHand { target := 1 }))] }),
                               (1, { inq := [(12, held)] })],
                     mgmt := { showHeld := true, showCut := true, showNum := 1 } }

def eastRoute : Route := { dests := [{ target := 1 }] }

theorem wit_ManagementEventsAct_1 : ∃ (s : State), s.mgmt.boot ≠ .off ∧ s.mgmt.restarting = false :=
  ⟨powered {}, by decide, by decide⟩

theorem wit_ManagementEventsAct_2 : ∃ (s : State), s.mgmt.restarting = true :=
  ⟨{ State.reset with mgmt := { restarting := true } }, by decide⟩

theorem wit_ManagementEventsAct_3 : ∃ (s : State) (island : _) (cls : _) (code : _) (ctx : Option Nat) (detail : Word) (r : _),
    island ∈ allIslands ∧ cls < 16 ∧ s.mgmt.boot ≠ .off ∧ s.mgmt.arming = none ∧
    r = errRecord 0x10 cls code island (ctx.map (fun c => ((s.ctxOwner c).getD 0, c))) (s.islCount island) (BitVec.toNat detail) :=
  ⟨powered {}, 0x501F, 15, 0xFFFF, some 255, 0,
    errRecord 0x10 15 0xFFFF 0x501F (some (((powered {}).ctxOwner 255).getD 0, 255)) ((powered {}).islCount 0x501F) 0, by decide,
    by decide, by decide, by decide, rfl⟩

theorem wit_ManagementEventsAct_4 : ∃ (s : State) (island r rest : _), (s.islOf island).fifo = r :: rest ∧ (s.islOf island).lost = [] ∧
    s.mgmt.log.length < 8192 :=
  ⟨{ State.reset with isl := [(0, { fifo := [List.replicate 16 1] })] }, 0, List.replicate 16 1, [], by decide, by decide, by decide⟩

theorem wit_ManagementEventsAct_5 : ∃ (s : State) (temps : List Int) (supplies : List Nat) (currents : List Nat) (volts : List Nat),
    temps.length = 96 ∧ supplies.length = 192 ∧ currents.length = 4 ∧ volts.length = 4 ∧ s.mgmt.boot ≠ .off ∧ s.mgmt.restarting = false := by
  refine ⟨powered {}, List.replicate 96 400, List.replicate 192 0, List.replicate 4 0, List.replicate 4 0, ?_⟩
  and_intros <;> decide +kernel

theorem wit_ManagementEventsAct_6 : ∃ (s : State) (a : _) (row : Instr), s.mgmt.arming = some a ∧
    (row = .showdownPin ∧ a.pin = true ∨ row = .showdownCountMatch ∧ ∃ i v, a.count = some (i, v) ∧ v.toNat ≤ s.islCount i) ∧
    s.mgmt.showHeld = false :=
  ⟨{ State.reset with mgmt := { arming := some armed } }, armed, .showdownPin, by decide, .inl ⟨rfl, rfl⟩, by decide⟩

theorem wit_ManagementEventsAct_7 : ∃ (s : State) (a : _) (row : Instr), s.mgmt.arming = some a ∧
    (row = .showdownPin ∧ a.pin = true ∨ row = .showdownCountMatch ∧ ∃ i v, a.count = some (i, v) ∧ v.toNat ≤ s.islCount i) ∧
    s.mgmt.showHeld = true :=
  ⟨{ State.reset with mgmt := { arming := some { armed with count := some (0, 0) }, showHeld := true } },
    { armed with count := some (0, 0) }, .showdownCountMatch, by decide, .inr ⟨rfl, 0, 0, rfl, by decide⟩, by decide⟩

theorem wit_ManagementEventsAct_8 : ∃ (s : State) (core port ch t0 o : _), s.inputHead core port ch = some (t0, o) ∧ t0.kind = 3 ∧
    port * 4 + ch ∉ (s.coreOf core).heldIn ∧ s.handWaits core t0 = false ∧ s.mgmt.cutOpen = true ∧ t0.tag = s.mgmt.showNum % 1024 ∧
    (s.coreOf core).snapLatched = true ∧ (∀ h r i, s.arriveRoute core port ch t0 = some (h, r, i) →
      s.hasTurn core (port * 4 + ch) r = true ∧ ∀ d ∈ r.dests, d.target ≤ 3 → s.destRoom core t0 d = true) := by
  have h : (cutShow true []).arriveRoute 0 0 0 { kind := 3, tag := 1 } = some (arrivingHand { target := 1 }, eastRoute, 0) := by decide +kernel
  refine ⟨cutShow true [], 0, 0, 0, { kind := 3, tag := 1 }, none, ?_, ?_, ?_, ?_, ?_, ?_, ?_, fun a r i e => ?_⟩ <;> try decide +kernel
  rw [h] at e; cases e; decide +kernel

theorem wit_ManagementEventsAct_9 : ∃ (s : State), s.mgmt.cutOpen = true :=
  ⟨cutShow false [], by decide⟩

theorem wit_ManagementEventsAct_10 : ∃ (s : State) (k : _), k ∈ s.mgmt.corrDue :=
  ⟨{ State.reset with mgmt := { corrDue := [0x501F] } }, 0x501F, by decide⟩

theorem wit_ManagementEventsAct_11 : ∃ (s : State) (cl k : _), cl < 192 ∧ (s.islOf cl).running = true ∧ k = s.codeFor cl ∧
    k < s.codeOf cl :=
  ⟨{ State.reset with isl := [(191, { running := true })], power := { codes := [(191, 80)] } }, 191, 32, by decide, by decide, by decide,
    by decide⟩

theorem wit_ManagementEventsAct_12 : ∃ (s : State) (core port ch t0 o : _), s.inputHead core port ch = some (t0, o) ∧ t0.kind = 3 ∧
    port * 4 + ch ∉ (s.coreOf core).heldIn ∧ s.handWaits core t0 = false ∧ s.mgmt.cutOpen = true ∧ t0.tag = s.mgmt.showNum % 1024 ∧
    (s.coreOf core).snapLatched = false ∧ (∃ h ∈ (s.coreOf core).hands, h.2.isSome = true) ∧ s.latchRoom core = true := by
  refine ⟨cutShow false [], 0, 0, 0, { kind := 3, tag := 1 }, none, ?_⟩
  and_intros <;> decide +kernel

/-- The neighbour's input is full. -/
theorem wit_ManagementEventsAct_13 : ∃ (s : State) (core port ch t0 o : _), s.inputHead core port ch = some (t0, o) ∧ t0.kind = 3 ∧
    port * 4 + ch ∉ (s.coreOf core).heldIn ∧ s.handWaits core t0 = false ∧ s.mgmt.cutOpen = true ∧ t0.tag = s.mgmt.showNum % 1024 ∧
    (s.coreOf core).snapLatched = false ∧ (∃ h ∈ (s.coreOf core).hands, h.2.isSome = true) ∧ s.latchRoom core = false := by
  refine ⟨cutShow false (List.replicate 4 { fmt := 4, rowsM1 := 31, colsM1 := 31 }), 0, 0, 0, { kind := 3, tag := 1 }, none, ?_⟩
  and_intros <;> decide +kernel

/-- An unknown request was taken while the service restarted. -/
theorem wit_ManagementEventsAct_14 : ∃ (s : State) (r : Nat), s.mgmt.restarting = true ∧ r = bits (s.mgmt.req 0) 7 0 ∧ s.mgmt.mbBusy = true ∧
    (r = 0 ∨ 0x10 < r) :=
  ⟨{ State.reset with mgmt := { restarting := true, mbBusy := true, reqArea := [(0, 0x11)] } }, 0x11, by decide, by decide, by decide, by decide⟩

theorem wit_ManagementEventsAct_15 : ∃ (s : State) (r : Nat), s.mgmt.restarting = true ∧ r = bits (s.mgmt.req 0) 7 0 ∧ s.mgmt.mbBusy = true ∧
    1 ≤ r ∧ r ≤ 0x10 :=
  ⟨{ State.reset with mgmt := { restarting := true, mbBusy := true, reqArea := [(0, 0x10)] } }, 0x10, by decide, by decide, by decide, by decide,
    by decide⟩

theorem wit_GovernorAndCapsAct_1 : ∃ (s : State) (temps : _), s.power.groups = 4 ∧ s.power.tripped = false ∧ temps.length = 96 ∧
    (∀ d, d < 4 → levelNext (s.dieOf d).level (hottest temps d) ≠ 3) :=
  ⟨powered {}, List.replicate 96 400, by decide, by decide, by decide, by decide⟩

theorem wit_GovernorAndCapsAct_2 : ∃ (s : State) (die : Nat), s.power.groups = 4 ∧ s.power.tripped = false ∧ die < 4 :=
  ⟨powered {}, 3, by decide, by decide, by decide⟩

theorem wit_GovernorAndCapsAct_3 : ∃ (s : State) (die : Nat), s.power.groups = 4 ∧ s.power.tripped = false ∧ die < 4 :=
  ⟨powered {}, 3, by decide, by decide, by decide⟩

theorem wit_GovernorAndCapsAct_4 : ∃ (s : State) (die : Nat), s.power.groups = 4 ∧ s.power.tripped = false ∧ die < 4 :=
  ⟨powered {}, 3, by decide, by decide, by decide⟩

theorem wit_GovernorAndCapsAct_5 : ∃ (s : State) (die : Nat), s.power.groups = 4 ∧ s.power.tripped = false ∧ die < 4 :=
  ⟨powered {}, 3, by decide, by decide, by decide⟩

theorem wit_GovernorAndCapsAct_6 : ∃ (s : State) (die : Nat) (row : Instr), s.power.tripped = false ∧ die < 4 ∧
    ((s.power.groups = 4 ∧ row = .analogThermalTrip die) ∨ (1 ≤ s.power.groups ∧ row = .railFault die)) :=
  ⟨powered {}, 3, .railFault 3, by decide, by decide, .inr ⟨by decide, rfl⟩⟩

theorem wit_GovernorAndCapsAct_7 : ∃ (s : State), s.power.stbyPg = true ∧ s.power.brake = false :=
  ⟨powered {}, by decide, by decide⟩

theorem wit_GovernorAndCapsAct_8 : ∃ (s : State), s.power.brake = true :=
  ⟨powered { brake := true }, by decide⟩

theorem wit_GovernorAndCapsAct_9 : ∃ (s : State) (die : Nat), s.power.groups = 4 ∧ s.power.tripped = false ∧ die < 4 ∧
    (s.dieOf die).level = 2 :=
  ⟨powered { dies := [(3, { level := 2 })] }, 3, by decide, by decide, by decide, by decide⟩

theorem wit_GovernorAndCapsAct_10 : ∃ (s : State) (die : Nat), s.power.groups = 4 ∧ s.power.tripped = false ∧ die < 4 ∧
    (s.dieOf die).level = 2 ∧ (∀ c l, s.runnersOn c l = []) :=
  ⟨powered { dies := [(3, { level := 2 })] }, 3, by decide, by decide, by decide, by decide, fun _ _ => rfl⟩

theorem wit_GovernorAndCapsAct_11 : ∃ (s : State), s.power.groups = 4 ∧ s.power.tripped = false ∧ s.power.gov = 32 ∧
    s.power.limit < s.power.powerW :=
  ⟨powered { gov := 32, powerW := 3000 }, by decide, by decide, by decide, by decide⟩

theorem wit_GovernorAndCapsAct_12 : ∃ (s : State), s.power.groups = 4 ∧ s.power.tripped = false ∧ s.power.starved = false ∧
    (∀ d, d < 4 → (s.dieOf d).level ≠ 2) :=
  ⟨powered {}, by decide, by decide, by decide, by decide⟩

theorem wit_GovernorAndCapsAct_13 : ∃ (s : State), s.power.stbyPg = true :=
  ⟨powered {}, by decide⟩

theorem wit_GovernorAndCapsAct_14 : ∃ (s : State), s.power.hbTimeout ≠ 0 ∧ s.power.running = true :=
  ⟨powered {}, by decide, by decide⟩

/-- What a boot finds where everything is well. -/
def goodFinds : BootFinds :=
  { loc := 1, locPar := false, locValid := true, badCores := [], badClusters := [], nearBytes := [], bulkBytes := [], bulkKHz := [],
    nearKHz := [], flashKHz := [], lanesUp := [], neighbours := [], tempsBelow80 := true }

/-- Standby power is good and the management island waits for release. -/
def readyState (b : Boot) : State := { State.reset with mgmt := { boot := b }, power := { stbyPg := true, ready := true } }

theorem wit_PackageStartsAndStops_1 : ∃ (s : State), s.mgmt.boot = .off ∧ s.mgmt.arming = none ∧ s.power.releaseHeld = none ∧
    (s.islOf islMgmt).running = false :=
  ⟨State.reset, by decide, by decide, by decide, by decide⟩

theorem wit_PackageStartsAndStops_2 : ∃ (s : State), s.mgmt.boot = .off ∧ s.mgmt.fw.select (s.mgmt.accepts 0) = none :=
  ⟨State.reset, by decide, by decide⟩

theorem wit_PackageStartsAndStops_3 : ∃ (s : State) (b : BootFinds), s.power.stbyPg = true ∧ s.power.running = false ∧
    s.power.tripped = false ∧ (s.mgmt.boot ≠ .ready ∨ b.tempsBelow80 = false) :=
  ⟨readyState .ready, { goodFinds with tempsBelow80 := false }, by decide, by decide, by decide, .inr rfl⟩

theorem wit_PackageStartsAndStops_4 : ∃ (s : State) (b : BootFinds), s.power.stbyPg = true ∧ s.power.running = false ∧
    s.power.tripped = false ∧ s.mgmt.boot = .ready ∧ b.tempsBelow80 = true := by
  refine ⟨readyState .ready, goodFinds, ?_⟩
  and_intros <;> decide +kernel

theorem wit_PackageStartsAndStops_5 : ∃ (s : State) (b : BootFinds), s.mgmt.boot = .noLocation ∧ locOk b = true :=
  ⟨readyState .noLocation, goodFinds, by decide, by decide⟩

theorem wit_PackageStartsAndStops_6 : ∃ (s : State), s.power.running = true :=
  ⟨powered {}, by decide⟩

theorem wit_PackageStartsAndStops_7 : ∃ (s : State), s.power.stbyPg = true :=
  ⟨powered {}, by decide⟩

theorem wit_PackageStartsAndStops_8 : ∃ (s : State), s.mgmt.boot = .ready :=
  ⟨readyState .ready, by decide⟩

theorem wit_RecoveryAndPinsAct_1 : ∃ (s : State) (off : _) (data : List Byte), s.mgmt.boot = .recovery ∧
    (s.mgmt.recoverStat = 0 ∨ s.mgmt.recoverStat = 2) ∧ 1 ≤ data.length ∧ data.length ≤ 256 ∧ (off = 0 ∨ s.mgmt.recoverImg ≠ []) :=
  ⟨readyState .recovery, 0, List.replicate 256 1, by decide +kernel, .inl rfl, by decide +kernel, by decide +kernel, .inl rfl⟩

theorem wit_RecoveryAndPinsAct_2 : ∃ (s : State), s.mgmt.boot = .recovery ∧ s.mgmt.recoverStat = 0 :=
  ⟨readyState .recovery, by decide, by decide⟩

theorem wit_RecoveryAndPinsAct_3 : ∃ (s : State) (m : Mgmt), s.mgmt.boot = .recovery ∧ s.mgmt.recoverStat = 1 ∧
    m = { s.mgmt with recoverStat := 3 } :=
  ⟨{ State.reset with mgmt := { boot := .recovery, recoverStat := 1 } }, { boot := .recovery, recoverStat := 3 }, by decide, by decide,
    by decide⟩

theorem wit_RecoveryAndPinsAct_4 : ∃ (s : State) (key : List Byte), s.mgmt.boot = .recovery ∧ key.length = 48 ∧ s.mgmt.ownerKey = none :=
  ⟨readyState .recovery, List.replicate 48 1, by decide, by decide, by decide⟩

theorem wit_RecoveryAndPinsAct_5 : ∃ (s : State) (key : List Byte), s.mgmt.boot = .recovery ∧ key.length = 48 ∧ s.mgmt.ownerKey ≠ none :=
  ⟨{ State.reset with mgmt := { boot := .recovery, ownerKey := some (List.replicate 48 2) } }, List.replicate 48 1, by decide, by decide,
    by decide⟩

theorem wit_RecoveryAndPinsAct_6 : ∃ (s : State), s.power.perst = false ∧ 2 ≤ s.power.groups ∧ s.power.tripped = false ∧
    s.parts.warm = false :=
  ⟨powered { perst := false }, by decide, by decide, by decide, by decide⟩

theorem wit_RecoveryAndPinsAct_7 : ∃ (s : State), s.power.perst = true ∧ 2 ≤ s.power.groups :=
  ⟨powered {}, by decide, by decide⟩

theorem wit_RecoveryAndPinsAct_8 : ∃ (s : State) (ir : _), s.power.stbyPg = true ∧ ir = 1 :=
  ⟨powered {}, 1, by decide, by decide⟩

theorem wit_RecoveryAndPinsAct_9 : ∃ (s : State) (ir : _), s.power.stbyPg = true ∧ (ir = 0 ∨ ir = 4 ∨ ir = 5) :=
  ⟨powered {}, 5, by decide, .inr (.inr rfl)⟩

theorem wit_RecoveryAndPinsAct_10 : ∃ (s : State) (ir : _), s.power.stbyPg = true ∧ (ir = 2 ∨ ir = 3 ∨ ir = 6 ∨ ir = 7) :=
  ⟨powered {}, 7, by decide, .inr (.inr (.inr rfl))⟩

theorem wit_RecoveryAndPinsAct_11 : ∃ (s : State) (ir : _), s.power.stbyPg = true ∧ 8 ≤ ir ∧ s.mgmt.debugAllowed = false :=
  ⟨powered {}, 8, by decide, by decide, by decide⟩

theorem wit_RegionsGateAndUngate_1 : ∃ (s : State) (r : Nat), r < 16 ∧ r ∉ s.power.gated ∧
    (∀ l ∈ s.allLayouts, ∀ cl ∈ l.2.2.clusters, regionOfCluster cl ≠ r) ∧ s.regionWanted r = false ∧ s.mgmt.boot = .up := by
  refine ⟨powered {}, 15, ?_⟩
  and_intros <;> decide +kernel

theorem wit_RegionsGateAndUngate_2 : ∃ (s : State) (r : Nat), r < 16 ∧ r ∈ s.power.gated ∧ s.power.gated.count r = 1 ∧
    s.regionWanted r = true :=
  ⟨{ running 0x80 0 [0xBF001] with power := { gated := [15] } }, 15, by decide, by decide, by decide, by decide⟩

theorem wit_StepRunsTheFront_1 : ∃ (s : State) (c : Instr) (rest : List Instr), s.pending = c :: rest :=
  ⟨{ State.reset with pending := [.tcOffReq] }, .tcOffReq, [], by decide⟩

theorem wit_StepRunsTheFront_2 : ∃ (s : State), s.pending = [] :=
  ⟨State.reset, by decide⟩

theorem wit_StepKeepsTheInvariant_1 : ∃ (s t : State), s.Inv ∧ step s = .next t :=
   ⟨{ State.reset with pending := [.frameScrub 0] }, _, ⟨rfl, rfl, rfl, rfl, rfl⟩, rfl⟩

theorem wit_IgnoredDoorbellsSetDbErr_1 : ∃ (s : State) (f q v : Nat) (x : Queue), s.fnLive f = true ∧ q < 64 ∧ x = s.queueOf f q ∧
    x.state = .running ∧ x.sqSizeM1 + 1 ≤ v % 65536 := by
  refine ⟨withQueue oneQueue, 0, 0, 8, oneQueue, ?_⟩
  and_intros <;> decide +kernel

theorem wit_IgnoredDoorbellsSetDbErr_2 : ∃ (s : State) (f q v : Nat) (x : Queue), s.fnLive f = true ∧ q < 64 ∧ x = s.queueOf f q ∧
    x.state = .running ∧
    (x.cqSizeM1 + 1 ≤ v % 65536 ∨ (x.cqTail + (x.cqSizeM1 + 1) - x.cqHead) % (x.cqSizeM1 + 1) < (v % 65536 + (x.cqSizeM1 + 1) - x.cqHead) % (x.cqSizeM1 + 1)) := by
  refine ⟨withQueue { oneQueue with cqTail := 3, cqHead := 6 }, 0, 0, 4, { oneQueue with cqTail := 3, cqHead := 6 }, ?_⟩
  and_intros <;> decide +kernel

theorem wit_FourBitFloatValues_1 : ∃ (c : _), c < 16 :=
  ⟨15, by decide⟩

theorem wit_NopCommitsWithZeros_1 : ∃ (s : State) (f q : Nat) (c : Cmd) (x : Queue), x = s.queueOf f q ∧ s.Runs f q c.n 0x00 [] c :=
  ⟨running 0 0 [], 0, 0, atWork 0 0 [], (running 0 0 []).queueOf 0 0, rfl, ⟨rfl, rfl, by decide⟩⟩

theorem wit_NopCommitsWithZeros_2 : ∃ (s : State) (f q : Nat) (c : Cmd) (x : Queue) (w : _), x = s.queueOf f q ∧
    s.started f q c.n 0x00 = some c ∧ c.status = 0 ∧ c.work = .none ∧ c.shadows = [] ∧ c.maps = [] ∧ s.cmdSlots f q c.n = [] ∧
    reservedWord c.eff [] = some w := by
  refine ⟨running 0 0 [1], 0, 0, atWork 0 0 [1], (running 0 0 [1]).queueOf 0 0, 2, ?_⟩
  and_intros <;> decide +kernel

theorem wit_NopCommitsWithZeros_3 : ∃ (s : State) (f q : Nat) (c : Cmd) (r : List Cmd) (x : Queue), x = s.queueOf f q ∧
    x.window = c :: r ∧ c.op = 0x00 ∧ c.phase = .finished ∧ c.status = 0 ∧ c.resA = 0 ∧ c.resB = 0 ∧ c.overflowed = false ∧
    c.reduced = false ∧ c.shadows = [] ∧ intOf c.words = false ∧ x.state = .running ∧ x.ringFull = false ∧ s.power.linkUp = true ∧
    (s.partOf f).resetting = false ∧ s.cp.halted = false ∧ s.prepHeld f q c.n = false := by
  refine ⟨withQueue { oneQueue with window := [{ atWork 0 0 [] with phase := .finished }] }, 0, 0,
    { atWork 0 0 [] with phase := .finished }, [], { oneQueue with window := [{ atWork 0 0 [] with phase := .finished }] }, ?_⟩
  and_intros <;> decide +kernel

theorem wit_FetchRefusesBadHeaders_1 : ∃ (s : State) (f q : Nat) (ws : List Word), s.canFetch f q = true ∧ ws.length = 16 ∧
    opInfo (opcodeOf ws) = none :=
  ⟨withQueue { oneQueue with sqTail := 1 }, 0, 0, [w32 0xFF] ++ List.replicate 15 0, by decide, by decide, by decide⟩

/-- Function 1 of partition 1 with a queue whose next packet has been written. -/
def secondFunction : State :=
  { State.reset with
    cp := { fns := [(1, { queues := [(0, { oneQueue with sqTail := 1 })] })] }, power := linked
    parts := { recs := [(1, { record := List.replicate 15 0 ++ [64] })], numVfs := 1, vfEnable := true } }

theorem wit_FetchRefusesBadHeaders_2 : ∃ (s : State) (f q : Nat) (ws : List Word) (i : _), s.canFetch f q = true ∧ ws.length = 16 ∧
    opInfo (opcodeOf ws) = some i ∧ i.pf = true ∧ f ≠ 0 :=
  ⟨secondFunction, 1, 0, [w32 2] ++ List.replicate 15 0, (opInfo 2).get rfl, by decide, by decide, rfl, by decide, by decide⟩

theorem wit_TheGravestStatusIsReported_1 : ∃ (vs : List Verdict), vs ≠ [] ∧
    (∀ v ∈ vs, 1 ≤ statusClass v.status ∧ statusClass v.status ≤ 8) :=
  ⟨[⟨0x8001, 0, 0⟩, ⟨0x6001, 0, 0⟩], by decide, by decide⟩

theorem wit_TheGravestStatusIsReported_2 : ∃ (c : Cmd) (v w : Verdict), c.phase = .finished ∧ w = ⟨c.status, c.resA.toNat, c.resB.toNat⟩ ∧
    1 ≤ statusClass w.status ∧ statusClass w.status ≤ 8 ∧ 1 ≤ statusClass v.status ∧ statusClass v.status ≤ 8 := by
  refine ⟨{ atWork 0 0 [] with phase := .finished, status := 0x2004, resA := 3 }, ⟨0x5001, 0, 0⟩, ⟨0x2004, 3, 0⟩, ?_⟩
  and_intros <;> decide +kernel

theorem wit_CoresAreNumberedRowMajor_1 : ∃ (x y : _), x < 64 ∧ y < 48 :=
  ⟨63, 47, by decide, by decide⟩

theorem wit_CoresAreNumberedRowMajor_2 : ∃ (d r c k : _) (n : _), d < 4 ∧ r < 4 ∧ c < 12 ∧ k < 16 ∧
    n = coreAt (32 * (d % 2) + 16 * (r % 2) + 4 * (c % 4) + k % 4) (24 * (d / 2) + 12 * (r / 2) + 4 * (c / 4) + k / 4) := by
  refine ⟨3, 3, 11, 15, 3071, ?_⟩
  and_intros <;> decide +kernel

theorem wit_CoresAreNumberedRowMajor_3 : ∃ (n : _), n < 3072 :=
  ⟨3071, by decide⟩

theorem wit_RingRegistersNeedADisabledQueue_1 : ∃ (s : State) (off g k : Nat), 0x1000 ≤ off ∧ off < 0x2000 ∧
    (s.queueOf g k).state ≠ .disabled :=
  ⟨withQueue oneQueue, 0x1010, 0, 0, by decide, by decide, by decide⟩

theorem wit_RingRegistersNeedADisabledQueue_2 : ∃ (s : State) (f q r : Nat), s.hostLive = true ∧ s.fnLive f = true ∧ q < 64 ∧ r < 5 ∧
    (s.queueOf f q).state = .disabled := by
  refine ⟨withQueue {}, 0, 63, 4, ?_⟩
  and_intros <;> decide +kernel

/-- A stage with one operation. -/
def oneStage (op : Nat) : Stage := ⟨op, 0, 0, 0, 0, false, 0, 0, 0⟩

theorem wit_ComparesAndSelect_1 : ∃ (st : Stage) (a b : Nat), a < 2 ^ 32 ∧ b < 2 ^ 32 ∧ 0x30 ≤ st.op ∧ st.op ≤ 0x35 :=
  ⟨oneStage 0x35, 0xFFFFFFFF, 0, by decide, by decide, by decide, by decide⟩

theorem wit_ComparesAndSelect_2 : ∃ (st : Stage) (a b : Nat), a < 2 ^ 32 ∧ b < 2 ^ 32 ∧ 0x30 ≤ st.op ∧ st.op ≤ 0x32 ∧
    (decF a = .nan ∨ decF b = .nan) :=
  ⟨oneStage 0x32, 0x7FC00000, 0, by decide, by decide, by decide, by decide, .inl rfl⟩

theorem wit_ComparesAndSelect_3 : ∃ (a b : Nat), a < 2 ^ 32 ∧ b < 2 ^ 32 ∧ (decF a).isFin = true ∧ (decF b).isFin = true :=
  ⟨0x80000000, 0, by decide, by decide, by decide, by decide⟩

theorem wit_ComparesAndSelect_4 : ∃ (st : Stage) (a b : Nat), a < 2 ^ 32 ∧ b < 2 ^ 32 ∧ decF a = .inf true ∧ decF b ≠ .nan ∧
    0x30 ≤ st.op ∧ st.op ≤ 0x32 := by
  refine ⟨oneStage 0x31, 0xFF800000, 0, ?_⟩
  and_intros <;> decide +kernel

theorem wit_ComparesAndSelect_5 : ∃ (st : Stage) (a b : Nat), a < 2 ^ 32 ∧ b < 2 ^ 32 ∧ decF b = .inf false ∧ decF a ≠ .nan ∧
    0x30 ≤ st.op ∧ st.op ≤ 0x32 := by
  refine ⟨oneStage 0x31, 0, 0x7F800000, ?_⟩
  and_intros <;> decide +kernel

theorem wit_ComparesAndSelect_6 : ∃ (st : Stage) (a b : Nat), a < 2 ^ 32 ∧ b < 2 ^ 32 ∧ decF a = .inf false ∧ decF b ≠ .nan ∧
    decF b ≠ .inf false ∧ 0x30 ≤ st.op ∧ st.op ≤ 0x32 := by
  refine ⟨oneStage 0x32, 0x7F800000, 0, ?_⟩
  and_intros <;> decide +kernel

theorem wit_ComparesAndSelect_7 : ∃ (st : Stage) (a b : Nat), a < 2 ^ 32 ∧ b < 2 ^ 32 ∧ decF b = .inf true ∧ decF a ≠ .nan ∧
    decF a ≠ .inf true ∧ 0x30 ≤ st.op ∧ st.op ≤ 0x32 := by
  refine ⟨oneStage 0x30, 0, 0xFF800000, ?_⟩
  and_intros <;> decide +kernel

theorem wit_ComparesAndSelect_8 : ∃ (st : Stage) (a b : Nat), a < 2 ^ 32 ∧ b < 2 ^ 32 ∧ st.op = 0x33 :=
  ⟨oneStage 0x33, 0xFFFFFFFF, 0, by decide, by decide, by decide⟩

theorem wit_ComparesAndSelect_9 : ∃ (st : Stage) (a b : Nat), a < 2 ^ 32 ∧ b < 2 ^ 32 ∧ st.op = 0x34 :=
  ⟨oneStage 0x34, 0xFFFFFFFF, 0, by decide, by decide, by decide⟩

theorem wit_ComparesAndSelect_10 : ∃ (st : Stage) (a b : Nat), a < 2 ^ 32 ∧ b < 2 ^ 32 ∧ st.op = 0x35 :=
  ⟨oneStage 0x35, 0xFFFFFFFF, 0, by decide, by decide, by decide⟩

theorem wit_ComparesAndSelect_11 : ∃ (st : Stage) (a b : Nat), a < 2 ^ 32 ∧ b < 2 ^ 32 ∧ st.op = 0x36 ∧
    (∃ i, i < 32 ∧ a.testBit i = true) := by
  refine ⟨oneStage 0x36, 0x80000000, 0, by decide, by decide, by decide, 31, by decide, by decide⟩

theorem wit_ComparesAndSelect_12 : ∃ (st : Stage) (a b : Nat), a < 2 ^ 32 ∧ b < 2 ^ 32 ∧ st.op = 0x36 ∧
    (∀ i, i < 32 → a.testBit i = false) :=
  ⟨oneStage 0x36, 0, 0, by decide, by decide, by decide, fun i _ => Nat.zero_testBit i⟩

/-- Two fetched commands, the second with INDIRECT. -/
def indirectSecond : Cmd := { atWork 0x800 0 [] with n := 1, phase := .fetched }

theorem wit_IndirectHoldsLikeDep_1 : ∃ (s : State) (f q n : Nat) (h c : Cmd) (r : List Cmd), (s.queueOf f q).window = h :: r ∧
    s.cmdOf f q n = some c ∧ h.n ≠ n ∧ (indirectOf c.words = true ∨ depOf c.words = true) :=
  ⟨withQueue { oneQueue with window := [atWork 0 0 [], indirectSecond] }, 0, 0, 1, atWork 0 0 [], indirectSecond, [indirectSecond],
    by decide, by decide, by decide, .inl (by decide)⟩

theorem wit_IndirectHoldsLikeDep_2 : ∃ (s : State) (f q n : Nat) (c : Cmd), c ∈ (s.queueOf f q).window ∧ c.n ≤ n ∧ c.phase = .fetched ∧
    (indirectOf c.words = true ∨ depOf c.words = true) :=
  ⟨withQueue { oneQueue with window := [indirectSecond] }, 0, 0, 1, indirectSecond, by decide, by decide, by decide, .inl (by decide)⟩

theorem wit_ThreePassSplit_1 : ∃ (c : Nat), c < 2 ^ 32 ∧ (decF c).isFin = true :=
  ⟨0x3F9E3779, by decide, by decide⟩

end Wit9

end Sys2Proof.Tests
end

section
/-! Where the cores lie (R17, R18): a core's place in the grid from its die, region, cluster and its place within the cluster, and the
numbers that follow from it. -/
namespace Sys2Proof.Machine

/-- Column and row of core k of cluster c of region r of die d: at each level row-major from the north-west (R17). -/
def placeX (d r c k : Nat) : Nat := 32 * (d % 2) + 16 * (r % 2) + 4 * (c % 4) + k % 4
def placeY (d r c k : Nat) : Nat := 24 * (d / 2) + 12 * (r / 2) + 4 * (c / 4) + k / 4

theorem placeX_lt (d r c k : Nat) : placeX d r c k < 64 := by unfold placeX; omega

theorem coreX_coreAt (x y : Nat) (hx : x < 64) : coreX (coreAt x y) = x := by unfold coreX coreAt; omega

theorem coreY_coreAt (x y : Nat) (hx : x < 64) : coreY (coreAt x y) = y := by unfold coreY coreAt; omega

theorem coreAt_coreX_coreY (n : Nat) : coreAt (coreX n) (coreY n) = n := by unfold coreX coreY coreAt; omega

theorem coreAt_lt (x y : Nat) (hx : x < 64) (hy : y < 48) : coreAt x y < 3072 := by unfold coreAt; omega

/-- The digits of a place: the columns of die, region and cluster, and their rows. -/
theorem placeX_digits (d r c k : Nat) :
    placeX d r c k / 32 = d % 2 ∧ placeX d r c k % 32 / 16 = r % 2 ∧ placeX d r c k % 32 % 16 / 4 = c % 4 := by
  unfold placeX; omega

theorem placeY_digits (d r c k : Nat) (hr : r < 4) (hc : c < 12) (hk : k < 16) :
    placeY d r c k / 24 = d / 2 ∧ placeY d r c k % 24 / 12 = r / 2 ∧ placeY d r c k % 24 % 12 / 4 = c / 4 := by
  unfold placeY; omega

/-- The number of a cluster by its die, region and place in the region (R18). -/
theorem clusterOf_place (d r c k : Nat) (hr : r < 4) (hc : c < 12) (hk : k < 16) :
    clusterOf (coreAt (placeX d r c k) (placeY d r c k)) = (d * 4 + r) * 12 + c := by
  obtain ⟨x1, x2, x3⟩ := placeX_digits d r c k
  obtain ⟨y1, y2, y3⟩ := placeY_digits d r c k hr hc hk
  rw [clusterOf, coreX_coreAt _ _ (placeX_lt d r c k), coreY_coreAt _ _ (placeX_lt d r c k), clusterAt, x1, x2, x3, y1, y2, y3]
  omega

theorem clusterCol_number (d r c : Nat) (hr : r < 4) (hc : c < 12) :
    clusterCol ((d * 4 + r) * 12 + c) = 8 * (d % 2) + 4 * (r % 2) + c % 4 := by
  unfold clusterCol dieOfCluster; omega

theorem clusterRow_number (d r c : Nat) (hr : r < 4) (hc : c < 12) :
    clusterRow ((d * 4 + r) * 12 + c) = 6 * (d / 2) + 3 * (r / 2) + c / 4 := by
  unfold clusterRow dieOfCluster; omega

/-- A cluster lists its cores row-major. -/
theorem coresOfCluster_get (cl k : Nat) (hk : k < 16) :
    (coresOfCluster cl)[k]? = some (coreAt (4 * clusterCol cl + k % 4) (4 * clusterRow cl + k / 4)) := by
  rw [coresOfCluster, List.getElem?_map, List.getElem?_range hk, Option.map_some]

theorem coresOfCluster_place (d r c k : Nat) (hr : r < 4) (hc : c < 12) (hk : k < 16) :
    (coresOfCluster ((d * 4 + r) * 12 + c))[k]? = some (coreAt (placeX d r c k) (placeY d r c k)) := by
  have hx : 4 * (8 * (d % 2) + 4 * (r % 2) + c % 4) + k % 4 = placeX d r c k := by unfold placeX; omega
  have hy : 4 * (6 * (d / 2) + 3 * (r / 2) + c / 4) + k / 4 = placeY d r c k := by unfold placeY; omega
  rw [coresOfCluster_get _ _ hk, clusterCol_number _ _ _ hr hc, clusterRow_number _ _ _ hr hc, hx, hy]

/-- Every column and row of the grid is such a place. -/
theorem exists_place (x y : Nat) (hx : x < 64) (hy : y < 48) :
    ∃ d r c k, d < 4 ∧ r < 4 ∧ c < 12 ∧ k < 16 ∧ placeX d r c k = x ∧ placeY d r c k = y := by
  refine ⟨y / 24 * 2 + x / 32, y % 24 / 12 * 2 + x % 32 / 16, y % 12 / 4 * 4 + x % 16 / 4, y % 4 * 4 + x % 4, ?_⟩
  unfold placeX placeY
  omega

/-- Settles O49: the numbers by the digits of a place, and the place of a core by dividing its column and row. -/
theorem coresAreNumberedRowMajor : Obligations.CoresAreNumberedRowMajor := by
  unfold Obligations.CoresAreNumberedRowMajor
  refine ⟨fun x y hx hy => ?_, fun d r c k _ hr hc hk n hn => ?_, fun n hn => ?_⟩
  · exact ⟨rfl, coreAt_lt x y hx hy, coreX_coreAt x y hx, coreY_coreAt x y hx⟩
  · have hcl : clusterOf n = (d * 4 + r) * 12 + c := hn ▸ clusterOf_place d r c k hr hc hk
    rw [hcl, hn]
    refine ⟨rfl, ?_, ?_, coresOfCluster_place d r c k hr hc hk⟩
    · unfold regionOfCluster; omega
    · unfold dieOfCluster; omega
  · obtain ⟨d, r, c, k, hd, hr, hc, hk, hx, hy⟩ := exists_place (coreX n) (coreY n) (by unfold coreX; omega) (by unfold coreY; omega)
    refine ⟨d, r, c, k, hd, hr, hc, hk, ?_⟩
    calc n = coreAt (coreX n) (coreY n) := (coreAt_coreX_coreY n).symm
      _ = coreAt (placeX d r c k) (placeY d r c k) := by rw [hx, hy]

end Sys2Proof.Machine
end

section
/-! Context teardown (R13): what a torn-down context leaves, and that nothing the teardown does afterwards brings it back. -/
namespace Sys2Proof.Machine

/-! ### A context that is not there -/

/-- A context that is not live and has no layout. -/
structure State.Absent (s : State) (ctx : Nat) : Prop where
  dead : s.ctxLive ctx = false
  bare : ∀ l, s.layoutOf ctx l = none

theorem State.Absent.of_ctxs {s t : State} {ctx : Nat} (h : s.Absent ctx) (e : t.ctxs = s.ctxs) : t.Absent ctx := by
  have he : t.ctxOf ctx = s.ctxOf ctx := by rw [State.ctxOf, State.ctxOf, e]
  exact ⟨by rw [State.ctxLive, he]; exact h.dead, fun l => by rw [State.layoutOf, he]; exact h.bare l⟩

/-- A context written over with the default record is absent. -/
theorem State.absent_clearCtx (s : State) (ctx : Nat) : (s.modCtx ctx (fun _ => {})).Absent ctx := by
  constructor <;> simp [State.ctxLive, State.layoutOf]

/-- Changing a layout makes neither a context nor a layout. -/
theorem State.Absent.modLayout {s : State} {ctx : Nat} (h : s.Absent ctx) (c l : Nat) (g : Layout → Layout) :
    (s.modLayout c l g).Absent ctx := by
  by_cases hc : ctx = c
  · subst hc
    refine ⟨?_, fun k => ?_⟩
    · rw [State.ctxLive, State.modLayout, State.ctxOf_modCtx_self]
      exact h.dead
    · have hk := h.bare k
      have hl := h.bare l
      rw [State.layoutOf] at hk hl
      rw [State.layoutOf, State.modLayout, State.ctxOf_modCtx_self, tget_tmod, hl, hk]
      exact ite_self _
  · have he : (s.modLayout c l g).ctxOf ctx = s.ctxOf ctx := by rw [State.modLayout, State.ctxOf_modCtx, if_neg hc]
    exact ⟨by rw [State.ctxLive, he]; exact h.dead, fun k => by rw [State.layoutOf, he]; exact h.bare k⟩

theorem State.Absent.foldl {α : Type} {s : State} {ctx : Nat} (l : List α) (g : State → α → State) (h : s.Absent ctx)
    (hg : ∀ u x, State.Absent u ctx → (g u x).Absent ctx) : (l.foldl g s).Absent ctx := by
  induction l generalizing s with
  | nil => exact h
  | cons x l ih => exact ih (hg s x h)

/-- A showdown that an error report triggers writes tiles into layouts there are, and makes none. -/
theorem State.Absent.showStart {s : State} {ctx : Nat} (h : s.Absent ctx) (num : Nat) : (s.showStart num).Absent ctx := by
  unfold State.showStart
  exact State.Absent.foldl _ _ (h.of_ctxs rfl) (fun u x hu => hu.modLayout _ _ _)

/-- The record of a showdown touches the log and takes free values; the contexts stay. -/
theorem State.showRecord_ctxs (s : State) : s.showRecord.ctxs = s.ctxs := by
  have h : ∀ (r : List Word) (k : Nat), s.Only [.mgmt, .free] ((s.logAppend r).freeNext k) := fun r k =>
    ((State.only_logAppend s r).mono _ (by decide)).trans ((State.only_freeNext _ k).mono _ (by decide))
  have honly : s.Only [.mgmt, .free] s.showRecord := (h _ 2).trans ((State.only_set_mgmt _ _).mono _ (by decide))
  simpa using honly.ctxs

theorem State.latchTree_ctxs (s : State) (b : Bool) : (s.latchTree b).ctxs = s.ctxs := by simp [State.latchTree]

theorem State.Absent.showCheck {s : State} {ctx : Nat} (h : s.Absent ctx) : s.showCheck.Absent ctx := by
  unfold State.showCheck
  split
  · exact h.of_ctxs s.showRecord_ctxs
  · exact h

theorem State.Absent.trigger {s : State} {ctx : Nat} (h : s.Absent ctx) (cut drive : Bool) : (s.trigger cut drive).Absent ctx := by
  unfold State.trigger
  extract_lets m num power s1 s2
  split
  · exact h.of_ctxs rfl
  · have h2 : s2.Absent ctx := h.of_ctxs (State.latchTree_ctxs s1 _)
    split
    · exact (h2.showStart num).showCheck
    · exact h2.of_ctxs s2.showRecord_ctxs

theorem State.Absent.classTrigger {s : State} {ctx : Nat} (h : s.Absent ctx) (cls : Nat) : (s.classTrigger cls).Absent ctx := by
  unfold State.classTrigger
  split
  · split
    · split
      · refine State.Absent.trigger ?_ _ _
        exact h.of_ctxs rfl
      · exact h
    · exact h
  · exact h

/-- An error report makes no context and no layout. -/
theorem State.Absent.report {s : State} {ctx : Nat} (h : s.Absent ctx) (island cls code : Nat) (c : Option Nat) (detail : Nat) :
    (s.report island cls code c detail).Absent ctx := by
  unfold State.report State.reportTy
  exact ((h.of_ctxs (State.modIsl_ctxs ..)).classTrigger _).of_ctxs (State.freeNext_ctxs ..)

/-! ### Unmapping -/

/-- An unmapped entry, with the frames it frees and the migration it ends, lies in the tiers alone. -/
theorem State.only_unmapEntry (s : State) (i : Nat) : s.Only [.tiers] (s.unmapEntry i) := by
  unfold State.unmapEntry
  dsimp only
  refine State.Only.trans ?_ (State.only_set_tiers _ _)
  split
  · split
    · refine State.Only.trans ?_ (State.only_dropFrame _ _)
      split
      · exact (State.only_bmChange ..).trans (State.only_drainFrame _ _)
      · exact State.only_bmChange ..
    · split
      · exact (State.only_bmChange ..).trans (State.only_drainFrame _ _)
      · exact State.only_bmChange ..
  · split
    · exact (State.only_bmChange ..).trans (State.only_drainFrame _ _)
    · exact State.only_bmChange ..

theorem State.only_unmapAll (s : State) (ctx : Nat) : s.Only [.tiers] (s.unmapAll ctx) :=
  State.Only.foldl _ _ (State.Only.refl _ _) (fun u p => u.only_unmapEntry p.1)

theorem State.unmapAll_slots (s : State) (ctx : Nat) : (s.unmapAll ctx).slots = s.slots := by
  simpa using (s.only_unmapAll ctx).slots

/-! ### Teardown -/

theorem State.mem_usedSlots {s : State} {p : Nat × Slot} : p ∈ s.usedSlots ↔ (p.1, some p.2) ∈ s.slots := by
  obtain ⟨k, v⟩ := p
  simp [State.usedSlots]

/-- A context without slots and peer requests is torn down once its record is cleared and the teardown is reported. -/
theorem State.torn_clearCtx_report (s : State) (ctx st : Nat) (hslots : ∀ p ∈ s.usedSlots, p.2.ctx ≠ ctx)
    (hreqs : ∀ r ∈ s.fab.reqs, r.ctx ≠ ctx) : ((s.modCtx ctx (fun _ => {})).report islCp 13 st (some ctx) 0).Torn ctx := by
  have habsent := (s.absent_clearCtx ctx).report islCp 13 st (some ctx) 0
  have honly := State.only_report (s.modCtx ctx (fun _ => {})) islCp 13 st (some ctx) 0
  generalize (s.modCtx ctx (fun _ => {})).report islCp 13 st (some ctx) 0 = t at habsent honly
  have hs : t.slots = s.slots := by simpa [showGroups] using honly.slots
  have hf : t.fab = s.fab := by simpa [showGroups] using honly.fab
  refine ⟨habsent.dead, fun p hp => hslots p ?_, fun r hr => hreqs r ?_, habsent.bare⟩
  · rwa [State.usedSlots, hs] at hp
  · rwa [hf] at hr

/-- Of a torn-down context nothing is left in the state (R13). -/
theorem State.teardownBy_torn (s : State) (ctx st : Nat) (verdict : Nat → Nat → Cmd → Verdict) (h : s.ctxLive ctx = true) :
    (s.teardownBy ctx st verdict).Torn ctx := by
  unfold State.teardownBy
  rw [if_neg (by simp [h])]
  extract_lets cs s0 s1 s2 s3 fab mgmt s4
  refine State.torn_clearCtx_report s4 ctx st (fun p hp => ?_) (fun r hr => ?_)
  · have hmem : (p.1, some p.2) ∈ s3.slots := State.mem_usedSlots.1 hp
    rw [State.unmapAll_slots] at hmem
    simpa using (List.mem_filter.1 hmem).2
  · simpa using (List.mem_filter.1 hr).2

theorem State.teardown_torn (s : State) (ctx : Nat) (v : Verdict) (hit : Nat → Nat → Cmd → Bool) (h : s.ctxLive ctx = true) :
    (s.teardown ctx v hit).Torn ctx := s.teardownBy_torn ctx _ _ h

/-- Teardown leaves the queue of waiting commands as it is. -/
theorem State.teardownBy_pending (s : State) (ctx st : Nat) (verdict : Nat → Nat → Cmd → Verdict) :
    (s.teardownBy ctx st verdict).pending = s.pending := (State.teardownBy_keep ctx st verdict (Keep.refl s)).pending

theorem State.teardown_pending (s : State) (ctx : Nat) (v : Verdict) (hit : Nat → Nat → Cmd → Bool) :
    (s.teardown ctx v hit).pending = s.pending := s.teardownBy_pending ctx _ _

/-- Changing a command brings nothing of a torn-down context back. -/
theorem State.Torn.modCmd {t : State} {ctx : Nat} (h : t.Torn ctx) (f q n : Nat) (g : Cmd → Cmd) : (t.modCmd f q n g).Torn ctx :=
  ⟨h.gone, h.slots, h.reqs, h.maps⟩

/-! ### The rows that tear a context down -/

/-- Without a routed step of its context at work there is none for CONTEXT_DESTROY to end first (R85). -/
theorem State.endRouted_unrouted (s : State) (ctx : Nat) (v : Verdict)
    (h : ∀ x ∈ s.allCmds, namesContext x.2.2.words = true → x.2.2.ctx = ctx → x.2.2.routedGen = 0) : s.endRouted ctx v = s := by
  have hnone : s.allCmds.filter (fun x => namesContext x.2.2.words && x.2.2.ctx = ctx && x.2.2.routedGen ≠ 0 &&
      x.2.2.phase ≠ .ending && x.2.2.status = 0) = [] := by
    rw [List.filter_eq_nil_iff]
    intro x hx hc
    simp only [Bool.and_eq_true, decide_eq_true_eq] at hc
    obtain ⟨⟨⟨⟨hn, hctx⟩, hg⟩, -⟩, -⟩ := hc
    exact hg (h x hx hn hctx)
  rw [State.endRouted, hnone, List.foldl_nil]

/-- The command CONTEXT_DESTROY leaves of itself: finished with OK, results 0 and its commit point passed. -/
def Cmd.destroyed (x : Cmd) : Cmd := { x with phase := .finished, status := 0, resA := 0, resB := 0, pastCommit := true }

/-- CONTEXT_DESTROY where no command of the context waits for a generation to retire: the teardown, and its own end. -/
theorem execContextDestroy_unrouted {s : State} {f q n : Nat} {c : Cmd} (hr : s.Runs f q n 0x11 [] c)
    (h : ∀ x ∈ s.allCmds, namesContext x.2.2.words = true → x.2.2.ctx = c.ctx → x.2.2.routedGen = 0 ∧ x.2.2.phase ≠ .ending) :
    execContextDestroy f q n s = .next ((s.teardownBy c.ctx St.contextDestroyed
      (fun _ _ _ => ⟨St.contextDestroyed, 0, 0⟩)).modCmd f q n Cmd.destroyed) := by
  have hend : ¬ s.allCmds.any (fun x => namesContext x.2.2.words && x.2.2.ctx = c.ctx && x.2.2.phase = .ending) = true := by
    rw [List.any_eq_true]
    rintro ⟨x, hx, hc⟩
    simp only [Bool.and_eq_true, decide_eq_true_eq] at hc
    obtain ⟨⟨hn, hctx⟩, hp⟩ := hc
    exact (h x hx hn hctx).2 hp
  rw [execContextDestroy, s.work_started f q n 0x11 _ c hr.started,
    s.checked_ok _ _ _ _ _ _ (by rw [reservedCheck_none _ _ hr.reserved]; rfl)]
  rw [s.endRouted_unrouted _ _ (fun x hx hn hctx => (h x hx hn hctx).1), if_neg hend]
  rfl

/-- WATCHDOG_TIMEOUT where the watchdog times a command of the context: the teardown (R247, R258). -/
theorem execWatchdogTimeout_watched {s : State} {ctx : Nat} {x : Nat × Nat × Cmd} (hx : x ∈ s.allCmds)
    (hn : namesContext x.2.2.words = true) (hctx : x.2.2.ctx = ctx) (hw : s.watched x.1 x.2.1 x.2.2 = true) :
    ∃ hit, execWatchdogTimeout ctx s = .next (s.teardown ctx ⟨St.watchdog, 0, 0⟩ hit) := by
  unfold execWatchdogTimeout onlyIf
  extract_lets hit
  have hany : s.allCmds.any (fun x => hit x.1 x.2.1 x.2.2) = true := List.any_eq_true.2 ⟨x, hx, by simp [hit, hn, hctx, hw]⟩
  exact ⟨hit, by rw [if_pos hany]⟩

theorem State.watched_of_halted {s : State} {f q : Nat} {c : Cmd} {p : Nat × Slot} (hp : p ∈ s.cmdSlots f q c.n)
    (hh : p.2.state.isHalted = true) : s.watched f q c = true := by
  have hany : (s.cmdSlots f q c.n).any (fun p => p.2.state.isHalted) = true := List.any_eq_true.2 ⟨p, hp, hh⟩
  simp [State.watched, hany]

theorem State.watched_of_waits {s : State} {f q i : Nat} {c : Cmd} (hw : c.waits = some i) (hi : s.notReady i = true) :
    s.watched f q c = true := by
  simp [State.watched, State.waitingOn, hw, hi]

/-- Where the watchdog times a command of a live context, WATCHDOG_TIMEOUT leaves nothing of the context. -/
theorem watchdogTimeout_tears {s : State} {ctx : Nat} {x : Nat × Nat × Cmd} (hx : x ∈ s.allCmds)
    (hn : namesContext x.2.2.words = true) (hctx : x.2.2.ctx = ctx) (hw : s.watched x.1 x.2.1 x.2.2 = true)
    (hl : s.ctxLive ctx = true) :
    ∃ t, exec (.watchdogTimeout ctx) s = .next t ∧ t.Torn ctx ∧ t.pending = s.pending := by
  obtain ⟨hit, he⟩ := execWatchdogTimeout_watched hx hn hctx hw
  exact ⟨_, he, s.teardown_torn _ _ _ hl, s.teardown_pending _ _ _⟩

/-- CONTEXT_DESTROY of a live context none of whose commands waits for a generation leaves nothing of the context, and ends with OK. -/
theorem contextDestroy_tears {s : State} {f q n : Nat} {c : Cmd} (hr : s.Runs f q n 0x11 [] c) (hl : s.ctxLive c.ctx = true)
    (h : ∀ x ∈ s.allCmds, namesContext x.2.2.words = true → x.2.2.ctx = c.ctx → x.2.2.routedGen = 0 ∧ x.2.2.phase ≠ .ending) :
    ∃ t, exec (.contextDestroy f q n) s = .next t ∧ t.Torn c.ctx ∧ t.pending = s.pending ∧
      (∀ d, t.cmdOf f q n = some d → d.phase = .finished ∧ d.status = 0 ∧ d.resA = 0 ∧ d.resB = 0 ∧ d.pastCommit = true) := by
  have he := execContextDestroy_unrouted hr h
  have htorn := s.teardownBy_torn c.ctx St.contextDestroyed (fun _ _ _ => ⟨St.contextDestroyed, 0, 0⟩) hl
  have hpend := s.teardownBy_pending c.ctx St.contextDestroyed (fun _ _ _ => ⟨St.contextDestroyed, 0, 0⟩)
  generalize s.teardownBy c.ctx St.contextDestroyed (fun _ _ _ => ⟨St.contextDestroyed, 0, 0⟩) = t at he htorn hpend
  refine ⟨t.modCmd f q n Cmd.destroyed, he, htorn.modCmd f q n _, hpend, fun d hd => ?_⟩
  rw [State.cmdOf_modCmd_self _ _ _ _ Cmd.destroyed (fun _ => rfl), Option.map_eq_some_iff] at hd
  obtain ⟨b, -, rfl⟩ := hd
  exact ⟨rfl, rfl, rfl, rfl, rfl⟩

/-- WEIGHT_LATE_TIMEOUT over a weight stream that has stayed stalled and not halted: the teardown (R247). -/
theorem execWeightLateTimeout_stalled {s : State} {cl k : Nat} {v : Slot} (hv : s.slotOf cl k = some v) (hs : v.stalled = true)
    (hw : dWeight v.desc = true) (hh : v.state.isHalted = false) (hwait : v.state ≠ .waiting) :
    execWeightLateTimeout cl k s =
      .next (s.teardown v.ctx ⟨St.weightLate, dLayer v.desc, 0⟩ (hitOne v.fn v.q v.n)) := by
  simp [execWeightLateTimeout, hv, onlyIf, hs, hw, hh, hwait]

/-- Settles O17: each row is the teardown of its context, which leaves nothing of it; CONTEXT_DESTROY then ends its own command. -/
theorem contextsAreTornDown : Obligations.ContextsAreTornDown := by
  unfold Obligations.ContextsAreTornDown
  intro s
  refine ⟨fun f q n c hr hl hq => contextDestroy_tears hr hl hq, fun cl k v hv hs hw hh hwait hl => ?_,
    fun ctx x p hx hn hctx hp hh hl => watchdogTimeout_tears hx hn hctx (State.watched_of_halted hp hh) hl,
    fun ctx x i hx hn hctx hw hi hl => watchdogTimeout_tears hx hn hctx (State.watched_of_waits hw hi) hl⟩
  exact ⟨_, execWeightLateTimeout_stalled hv hs hw hh hwait, s.teardown_torn _ _ _ hl, s.teardown_pending _ _ _⟩

end Sys2Proof.Machine
end

section
/-! Ending a command (R77, R268) as the others see it: what one command held goes back, and of the command interface nothing but its own
entry changes. -/
namespace Sys2Proof.Machine

/-! ### Giving back what a command held leaves the command interface as it is -/

theorem State.foldl_cp {α : Type} {s : State} (l : List α) (g : State → α → State) (hg : ∀ u x, (g u x).cp = u.cp) :
    (l.foldl g s).cp = s.cp := by
  induction l generalizing s with
  | nil => rfl
  | cons x l ih => exact ih.trans (hg s x)

@[simp] theorem State.sendOn_cp (s : State) (port : Nat) (f : Frame) : (s.sendOn port f).cp = s.cp := rfl
@[simp] theorem State.modJob_cp (s : State) (ctx : Nat) (g : Job → Job) : (s.modJob ctx g).cp = s.cp := rfl
@[simp] theorem State.checkpoint_cp (s : State) : s.checkpoint.cp = s.cp := rfl
@[simp] theorem State.dropRouted_cp (s : State) (ctx : Nat) (f : Frame) : (s.dropRouted ctx f).cp = s.cp := rfl

@[simp] theorem State.dropFrame_cp (s : State) (fid : Nat) : (s.dropFrame fid).cp = s.cp := by
  simpa using (s.only_dropFrame fid).cp

@[simp] theorem State.unmapEntry_cp (s : State) (i : Nat) : (s.unmapEntry i).cp = s.cp := by
  simpa using (s.only_unmapEntry i).cp

@[simp] theorem State.modCores_cp (s : State) (cs : List Nat) (g : Core → Core) : (s.modCores cs g).cp = s.cp :=
  State.foldl_cp _ _ (fun _ _ => rfl)

@[simp] theorem State.emit_cp (s : State) (k : Nat) (f : Frame) : (s.emit k f).cp = s.cp := State.foldl_cp _ _ (fun _ _ => rfl)

@[simp] theorem State.sendCircuit_cp (s : State) (k : Nat) (f : Frame) : (s.sendCircuit k f).cp = s.cp := by
  unfold State.sendCircuit
  dsimp only
  split
  · rfl
  · split <;> simp

@[simp] theorem State.toChip_cp (s : State) (ctx kind chip : Nat) (f : Frame) : (s.toChip ctx kind chip f).cp = s.cp := by
  unfold State.toChip
  split <;> simp

@[simp] theorem State.lendReturn_cp (s : State) (part chip frame : Nat) : (s.lendReturn part chip frame).cp = s.cp := by
  unfold State.lendReturn State.sendAnswer State.sendPacket
  cases s.pickCand (s.control chip 0x05 part frame 1) 0 <;> rfl

@[simp] theorem State.tearEntry_cp (s : State) (k cause lost : Nat) (o : Option Nat) : (s.tearEntry k cause lost o).cp = s.cp := by
  unfold State.tearEntry
  extract_lets c ks f side s1 s2 s3
  have hside : ∀ (t : State) b port circ chip, (side t b port circ chip).cp = t.cp := by
    intro t b port circ chip
    simp only [side]
    split <;> simp
  have h2 : s2.cp = s1.cp := State.foldl_cp _ _ (fun t j => by dsimp only; split <;> simp [hside])
  have h3 : s3.cp = s2.cp := State.foldl_cp _ _ (fun _ _ => rfl)
  split
  · rfl
  · exact h3.trans (h2.trans (hside ..))

@[simp] theorem State.tearJob_cp (s : State) (ctx cause : Nat) : (s.tearJob ctx cause).cp = s.cp :=
  State.foldl_cp _ _ (fun u k => u.tearEntry_cp k cause 0 none)

@[simp] theorem State.flushHeld_cp (s : State) (ctx : Nat) : (s.flushHeld ctx).cp = s.cp := by
  unfold State.flushHeld
  split
  · rfl
  · exact State.foldl_cp _ _ (fun _ _ => rfl)

@[simp] theorem State.retireCheck_cp (s : State) (ctx gen : Nat) : (s.retireCheck ctx gen).cp = s.cp := by
  unfold State.retireCheck State.jobCtrl
  split
  · rfl
  · dsimp only
    split_ifs <;> simp

@[simp] theorem State.retireStart_cp (s : State) (ctx : Nat) : (s.retireStart ctx).cp = s.cp := by
  unfold State.retireStart
  split
  · rfl
  · next j _ =>
    dsimp only
    split
    · rfl
    · simp only [State.flushHeld_cp, State.retireCheck_cp]
      exact State.foldl_cp _ _ (fun u p => u.toChip_cp ..)

@[simp] theorem State.dropLayout_cp (s : State) (ctx lnum : Nat) : (s.dropLayout ctx lnum).cp = s.cp := by
  unfold State.dropLayout
  split
  · simp [State.clearLayoutHands]
  · rfl

@[simp] theorem State.undoReplace_cp (s : State) (ctx lnum : Nat) : (s.undoReplace ctx lnum).cp = s.cp := by
  unfold State.undoReplace
  split
  · simp
  · rfl

@[simp] theorem State.undoMark_cp (s : State) (f q n k : Nat) : (s.undoMark f q n k).cp = s.cp := by
  unfold State.undoMark
  split <;> simp

@[simp] theorem State.rawPiece_cp (s : State) (ctx blk off : Nat) (bs : List Byte) : (s.rawPiece ctx blk off bs).cp = s.cp := by
  unfold State.rawPiece
  split
  · split <;> rfl
  · rfl

@[simp] theorem State.rawWrite_cp (s : State) (ctx addr : Nat) (bs : List Byte) : (s.rawWrite ctx addr bs).cp = s.cp := by
  have step : ∀ (l : List (Nat × Nat × Nat)) (a : State × List Byte), (l.foldl (fun (a : State × List Byte) p =>
      (a.1.rawPiece ctx p.1 p.2.1 (a.2.take p.2.2), a.2.drop p.2.2)) a).1.cp = a.1.cp := by
    intro l
    induction l with
    | nil => exact fun _ => rfl
    | cons p l ih => exact fun a => (ih _).trans (a.1.rawPiece_cp ..)
  exact step _ _

@[simp] theorem State.freeCand_cp (s : State) (ctx num : Nat) : (s.freeCand ctx num).cp = s.cp := by
  unfold State.freeCand
  dsimp only
  split
  · split
    · rfl
    · rw [State.rawWrite_cp]
      exact State.foldl_cp _ _ (fun u b => by split <;> simp)
  · rfl

@[simp] theorem State.sendCuts_cp (s : State) (ctx lnum : Nat) : (s.sendCuts ctx lnum).cp = s.cp := by
  unfold State.sendCuts
  split
  · rfl
  · dsimp only
    split <;> simp

@[simp] theorem State.endSlot_cp (s : State) (key : Nat) (v : Slot) : (s.endSlot key v).cp = s.cp := by
  unfold State.endSlot
  dsimp only
  rw [State.sendCuts_cp]
  split <;> simp

@[simp] theorem State.endStreams_cp (s : State) (f q n : Nat) : (s.endStreams f q n).cp = s.cp :=
  State.foldl_cp _ _ (fun u p => u.endSlot_cp p.1 p.2)

@[simp] theorem State.undoWork_cp (s : State) (f q n : Nat) (c : Cmd) : (s.undoWork f q n c).cp = s.cp := by
  unfold State.undoWork
  cases c.work with
  | layout num stage => dsimp only; split_ifs <;> simp
  | move num stage addr => dsimp only; split_ifs <;> simp
  | replace _ _ _ _ _ _ _ staging => exact State.foldl_cp _ _ (fun u p => u.dropFrame_cp p.2)
  | sessionCancel k _ _ => exact s.undoMark_cp f q n k
  | target kind index stage => dsimp only; split_ifs <;> rfl
  | port p lane all left => rfl
  | peer chip first count granted =>
    dsimp only
    split
    · exact State.foldl_cp _ _ (fun u p => u.lendReturn_cp ..)
    · rfl
  | job id =>
    dsimp only
    rw [State.modCtx_cp]
    refine Eq.trans (State.foldl_cp _ _ (fun u w => ?_)) (s.tearJob_cp c.ctx 0)
    rfl
  | object key stripes => dsimp only; split_ifs <;> rfl
  | step st =>
    have hcand : (st.entries.foldl (fun t e => t.freeCand c.ctx e.candRec) s).cp = s.cp :=
      State.foldl_cp _ _ (fun u e => u.freeCand_cp ..)
    dsimp only
    split_ifs <;> simp [hcand]
  | _ =>
    -- of the rest only a lender's call for its frames writes, and that in the tiers
    simp [apply_ite State.cp]

/-! ### Ending one command -/

/-- From s to t no command of an execution window is lost, and one that has finished stays so. -/
structure State.KeepsFinished (s t : State) : Prop where
  cmds : ∀ f q n c, s.cmdOf f q n = some c → ∃ d, t.cmdOf f q n = some d ∧ (c.phase = .finished → d.phase = .finished)

theorem State.KeepsFinished.refl (s : State) : s.KeepsFinished s := ⟨fun _ _ _ c h => ⟨c, h, id⟩⟩

theorem State.KeepsFinished.trans {s t u : State} (h : s.KeepsFinished t) (k : t.KeepsFinished u) : s.KeepsFinished u := by
  refine ⟨fun f q n c hc => ?_⟩
  obtain ⟨d, hd, hcd⟩ := h.cmds f q n c hc
  obtain ⟨e, he, hde⟩ := k.cmds f q n d hd
  exact ⟨e, he, fun hp => hde (hcd hp)⟩

theorem State.KeepsFinished.of_cp {s t : State} (h : t.cp = s.cp) : s.KeepsFinished t :=
  ⟨fun f q n c hc => ⟨c, by rw [State.cmdOf_cp t s f q n h, hc], id⟩⟩

theorem State.KeepsFinished.foldl {α : Type} {s : State} (l : List α) (g : State → α → State)
    (hg : ∀ (u : State) x, u.KeepsFinished (g u x)) : s.KeepsFinished (l.foldl g s) := by
  induction l generalizing s with
  | nil => exact State.KeepsFinished.refl s
  | cons x l ih => exact (hg s x).trans ih

/-- Changing one command without taking it back from its end. -/
theorem State.keepsFinished_modCmd (s : State) (f q n : Nat) (g : Cmd → Cmd) (hn : ∀ c, (g c).n = c.n)
    (hp : ∀ c, c.phase = .finished → (g c).phase = .finished) : s.KeepsFinished (s.modCmd f q n g) := by
  refine ⟨fun i j m c hc => ?_⟩
  by_cases hi : i = f ∧ j = q ∧ m = n
  · obtain ⟨rfl, rfl, rfl⟩ := hi
    exact ⟨g c, by rw [State.cmdOf_modCmd_self _ _ _ _ _ hn, hc]; rfl, hp c⟩
  · exact ⟨c, by rw [State.cmdOf_modCmd_ne _ _ _ _ _ _ _ _ hn hi, hc], id⟩

theorem State.keepsFinished_finish (s : State) (f q n : Nat) (v : Verdict) : s.KeepsFinished (s.finish f q n v) :=
  s.keepsFinished_modCmd f q n _ (fun _ => rfl) (fun _ _ => rfl)

theorem State.keepsFinished_dropShadows (s : State) (f q n : Nat) : s.KeepsFinished (s.dropShadows f q n) := by
  unfold State.dropShadows
  split
  · exact State.KeepsFinished.refl s
  · next c _ =>
    extract_lets s1 s2
    have h1 : s1.cp = s.cp := State.foldl_cp _ _ (fun u p => u.dropFrame_cp _)
    have h2 : s2.cp = s1.cp := State.foldl_cp _ _ (fun u p => by split <;> simp)
    exact (State.KeepsFinished.of_cp (h2.trans h1)).trans (s2.keepsFinished_modCmd f q n _ (fun _ => rfl) (fun _ h => h))

theorem State.keepsFinished_release (s : State) (f q n : Nat) : s.KeepsFinished (s.release f q n) := by
  unfold State.release
  split
  · exact State.KeepsFinished.refl s
  · next c _ =>
    have h1 : s.KeepsFinished ((s.undoWork f q n c).endStreams f q n) := State.KeepsFinished.of_cp (by simp)
    exact (h1.trans (State.keepsFinished_dropShadows ..)).trans
      (State.keepsFinished_modCmd _ f q n _ (fun _ => rfl) (fun _ h => h))

theorem State.keepsFinished_failMoved (s : State) (ctx lnum status : Nat) : s.KeepsFinished (s.failMoved ctx lnum status) :=
  State.KeepsFinished.foldl _ _ (fun u x => (u.keepsFinished_finish x.1 x.2.1 x.2.2.n _).trans
    (State.keepsFinished_modCmd _ _ _ _ _ (fun _ => rfl) (fun _ h => h)))

/-- What endCmd does after the command's own release and end takes no command back. -/
theorem State.endCmd_after_finish (s : State) (f q n : Nat) (v : Verdict) :
    ((s.release f q n).finish f q n v).KeepsFinished (s.endCmd f q n v) := by
  unfold State.endCmd
  dsimp only
  split
  · split
    · exact State.keepsFinished_failMoved ..
    · exact State.KeepsFinished.refl _
  · exact State.KeepsFinished.refl _

theorem State.keepsFinished_endCmd (s : State) (f q n : Nat) (v : Verdict) : s.KeepsFinished (s.endCmd f q n v) :=
  ((s.keepsFinished_release f q n).trans (State.keepsFinished_finish ..)).trans (s.endCmd_after_finish f q n v)

/-- A command that is ended has finished. -/
theorem State.endCmd_finished {s : State} {f q n : Nat} {c : Cmd} (v : Verdict) (h : s.cmdOf f q n = some c) :
    ∃ d, (s.endCmd f q n v).cmdOf f q n = some d ∧ d.phase = .finished := by
  obtain ⟨b, hb, -⟩ := (s.keepsFinished_release f q n).cmds f q n c h
  have hfin : ((s.release f q n).finish f q n v).cmdOf f q n = some (b.finish v) := by rw [State.cmdOf_finish, hb]; rfl
  obtain ⟨d, hd, hp⟩ := (s.endCmd_after_finish f q n v).cmds f q n _ hfin
  exact ⟨d, hd, hp rfl⟩

/-- Ending the commands of a list, one after the other, leaves each of them finished. -/
theorem State.foldl_endCmd_finished {s : State} {f q : Nat} {c e : Cmd} (l : List (Nat × Nat × Cmd)) (v : Verdict)
    (hm : (f, q, c) ∈ l) (h : s.cmdOf f q c.n = some e) :
    ∃ d, (l.foldl (fun t x => t.endCmd x.1 x.2.1 x.2.2.n v) s).cmdOf f q c.n = some d ∧ d.phase = .finished := by
  induction l generalizing s e with
  | nil => cases hm
  | cons x l ih =>
    rcases List.mem_cons.1 hm with rfl | hm
    · obtain ⟨b, hb, hp⟩ := State.endCmd_finished v h
      have hrest := State.KeepsFinished.foldl (s := s.endCmd f q c.n v) l (fun t x => t.endCmd x.1 x.2.1 x.2.2.n v)
        (fun u x => u.keepsFinished_endCmd x.1 x.2.1 x.2.2.n v)
      obtain ⟨d, hd, hbd⟩ := hrest.cmds f q c.n b hb
      exact ⟨d, hd, hbd hp⟩
    · obtain ⟨b, hb, -⟩ := (s.keepsFinished_endCmd x.1 x.2.1 x.2.2.n v).cmds f q c.n e h
      exact ih hm hb

end Sys2Proof.Machine
end

section
/-! The log, the FIFOs and the showdown (R447, R448, R464 to R466): what one record, one report and one trigger leave. -/
namespace Sys2Proof.Machine

/-! ### The log -/

/-- A record in the log changes no more of the management island than the log and the next index. -/
theorem State.logAppend_mgmt (s : State) (r : List Word) :
    (s.logAppend r).mgmt = { s.mgmt with log := (s.logAppend r).mgmt.log, nextLog := s.mgmt.nextLog + 1 } := by
  simp only [State.logAppend]

@[simp] theorem State.logAppend_nextLog (s : State) (r : List Word) : (s.logAppend r).mgmt.nextLog = s.mgmt.nextLog + 1 := by
  simp only [State.logAppend]

theorem State.logAppend_isl (s : State) (r : List Word) : (s.logAppend r).isl = s.isl := by
  simpa using (s.only_logAppend r).isl

theorem State.logAppend_islOf (s : State) (r : List Word) (j : Nat) : (s.logAppend r).islOf j = s.islOf j := by
  rw [State.islOf, State.islOf, State.logAppend_isl]

/-- A record as the log holds it: an error record carries its index in word 6 (R447). -/
def State.logged (s : State) (r : List Word) : List Word :=
  if fld (word r 0) 7 0 < 0x10 then r else listMod r 6 (fun _ => w32 s.mgmt.nextLog)

/-- While the ring has room a record enters it behind the others. -/
theorem State.logAppend_log (s : State) (r : List Word) (h : s.mgmt.log.length < 8192) :
    (s.logAppend r).mgmt.log = s.mgmt.log ++ [s.logged r] := by
  have hl : (s.mgmt.log ++ [s.logged r]).length - 8192 = 0 := by
    rw [List.length_append, List.length_singleton]
    omega
  simp only [State.logAppend]
  rw [← State.logged, hl, List.drop_zero]

theorem listMod_length {α : Type} (l : List α) (i : Nat) (f : α → α) : (listMod l i f).length = l.length := by
  induction l generalizing i with
  | nil => rfl
  | cons x l ih => cases i with
    | zero => rfl
    | succ i => simp [listMod, ih]

theorem word_listMod_self (l : List Word) (i : Nat) (f : Word → Word) (h : i < l.length) : word (listMod l i f) i = f (word l i) := by
  induction l generalizing i with
  | nil => cases h
  | cons x l ih => cases i with
    | zero => rfl
    | succ i => exact ih i (Nat.lt_of_succ_lt_succ h)

theorem word_listMod_ne (l : List Word) (i j : Nat) (f : Word → Word) (h : j ≠ i) : word (listMod l i f) j = word l j := by
  induction l generalizing i j with
  | nil => rfl
  | cons x l ih => cases i with
    | zero => cases j with
      | zero => exact absurd rfl h
      | succ j => rfl
    | succ i => cases j with
      | zero => rfl
      | succ j => exact ih i j (fun e => h (congrArg Nat.succ e))

theorem State.logged_length (s : State) (r : List Word) : (s.logged r).length = r.length := by
  unfold State.logged
  split
  · rfl
  · exact listMod_length ..

theorem State.logged_index (s : State) (r : List Word) (hty : 0x10 ≤ fld (word r 0) 7 0) (h : 6 < r.length) :
    word (s.logged r) 6 = w32 s.mgmt.nextLog := by
  rw [State.logged, if_neg (Nat.not_lt.2 hty), word_listMod_self _ _ _ h]

theorem State.logged_word (s : State) (r : List Word) (i : Nat) (h : i ≠ 6) : word (s.logged r) i = word r i := by
  unfold State.logged
  split
  · rfl
  · exact word_listMod_ne _ _ _ _ h

/-! ### An island's FIFO -/

theorem Island.report_room {i : Island} (cls : Nat) (r : List Word) (h : i.fifo.length < 16) :
    (i.report cls r).fifo = i.fifo ++ [r] := by
  unfold Island.report
  cases i.first <;> simp [h]

/-- A full FIFO stays as it is and the record's class counts it lost (R448). -/
theorem Island.report_full {i : Island} (cls : Nat) (r : List Word) (h : 16 ≤ i.fifo.length) :
    (i.report cls r).fifo = i.fifo ∧ tget 0 (i.report cls r).lost cls = satAdd 16 (tget 0 i.lost cls) 1 := by
  unfold Island.report
  cases i.first <;> simp [Nat.not_lt.2 h]

theorem Island.report_first (i : Island) (cls : Nat) (r : List Word) : (i.report cls r).first = some (i.first.getD r) := by
  unfold Island.report
  cases i.first with
  | none => rfl
  | some x =>
    dsimp only
    split <;> simp

/-- Without an arming a report is no more than its record. -/
theorem State.reportTy_unarmed (s : State) (ty island cls code : Nat) (ctx : Option Nat) (detail : Nat) (h : s.mgmt.arming = none) :
    s.reportTy ty island cls code ctx detail = s.modIsl island (fun i => i.report cls
      (errRecord ty cls code island (ctx.map (fun c => ((s.ctxOwner c).getD 0, c))) (s.islCount island) detail)) := by
  simp [State.reportTy, State.classTrigger, h]

/-! ### The showdown's record -/

/-- The record of a showdown is one entry of the log; the showdown counts as recorded. -/
theorem State.showRecord_mgmt (s : State) :
    s.showRecord.mgmt = { s.mgmt with log := s.showRecord.mgmt.log, nextLog := s.mgmt.nextLog + 1, showRecorded := true } := by
  simp only [State.showRecord, State.freeNext_mgmt]
  rw [State.logAppend_mgmt]

theorem State.only_showRecord_log (s : State) : s.Only [.mgmt, .free] s.showRecord := by
  have h : ∀ (r : List Word) (k : Nat), s.Only [.mgmt, .free] ((s.logAppend r).freeNext k) := fun r k =>
    ((State.only_logAppend s r).mono _ (by decide)).trans ((State.only_freeNext _ k).mono _ (by decide))
  exact (h _ 2).trans ((State.only_set_mgmt _ _).mono _ (by decide))

theorem State.showRecord_power (s : State) : s.showRecord.power = s.power := by simpa using s.only_showRecord_log.power

theorem State.only_showCheck_log (s : State) : s.Only [.mgmt, .free] s.showCheck := by
  unfold State.showCheck
  split
  · exact s.only_showRecord_log
  · exact State.Only.refl _ _

/-- Recording a complete cut changes the log, its next index and the mark that it is recorded. -/
theorem State.showCheck_mgmt (s : State) : s.showCheck.mgmt = { s.mgmt with
    log := s.showCheck.mgmt.log, nextLog := s.showCheck.mgmt.nextLog, showRecorded := s.showCheck.mgmt.showRecorded } := by
  unfold State.showCheck
  split
  · exact s.showRecord_mgmt
  · rfl

theorem State.showCheck_coreOf (s : State) (k : Nat) : s.showCheck.coreOf k = s.coreOf k := by
  have h : s.showCheck.cores = s.cores := by simpa using s.only_showCheck_log.cores
  rw [State.coreOf, State.coreOf, h]

theorem State.showCheck_power (s : State) : s.showCheck.power = s.power := by simpa using s.only_showCheck_log.power

/-! ### The trigger -/

theorem State.foldl_mgmt {α : Type} {s : State} (l : List α) (g : State → α → State) (hg : ∀ u x, (g u x).mgmt = u.mgmt) :
    (l.foldl g s).mgmt = s.mgmt := by
  induction l generalizing s with
  | nil => rfl
  | cons x l ih => exact ih.trans (hg s x)

theorem State.showStart_mgmt (s : State) (num : Nat) : (s.showStart num).mgmt = { s.mgmt with showStations := s.showPlaces } :=
  State.foldl_mgmt _ _ (fun _ _ => rfl)

theorem State.only_showStart_ctxs (s : State) (num : Nat) : s.Only [.mgmt, .ctxs] (s.showStart num) := by
  unfold State.showStart
  exact State.Only.foldl _ _ ((s.only_set_mgmt _).mono _ (by decide)) (fun u x => (u.only_modLayout _ _ _).mono _ (by decide))

theorem State.showStart_power (s : State) (num : Nat) : (s.showStart num).power = s.power := by
  simpa using (s.only_showStart_ctxs num).power

/-- The number a showdown takes after another (R465). -/
def nextShow (n : Nat) : Nat := if n = 65535 then 1 else n + 1

/-- The state a trigger begins with, before anything latches. -/
def State.shown (s : State) (cut drive : Bool) : State :=
  { s with
    mgmt := { s.mgmt with showNum := nextShow s.mgmt.showNum, showHeld := true, showCut := cut, showIncomplete := false,
                          showRecorded := false },
    cores := tmap {} s.cores (fun _ c => { c with snapLatched := false, snapIn := [] }),
    power := if drive then { s.power with showdownDrive := s.power.showdownDrive + 1 } else s.power }

theorem State.trigger_held (s : State) (cut drive : Bool) (h : s.mgmt.showHeld = true) :
    s.trigger cut drive = { s with mgmt := { s.mgmt with missed := satAdd 16 s.mgmt.missed 1 } } := by
  simp [State.trigger, h]

theorem State.trigger_fast (s : State) (drive : Bool) (h : s.mgmt.showHeld = false) :
    s.trigger false drive = ((s.shown false drive).latchTree true).showRecord := by
  simp [State.trigger, h, State.shown, nextShow]

theorem State.trigger_cut (s : State) (drive : Bool) (h : s.mgmt.showHeld = false) :
    s.trigger true drive = (((s.shown true drive).latchTree false).showStart (nextShow s.mgmt.showNum)).showCheck := by
  simp [State.trigger, h, State.shown, nextShow]

/-- A trigger that finds no showdown held starts the next one in the mode asked for; in fast mode it is recorded at once (R464, R465). -/
structure State.Shows (s t : State) (cut drive : Bool) : Prop where
  arming   : t.mgmt.arming = s.mgmt.arming
  held     : t.mgmt.showHeld = true
  mode     : t.mgmt.showCut = cut
  number   : t.mgmt.showNum = nextShow s.mgmt.showNum
  recorded : cut = false → t.mgmt.showRecorded = true
  drive    : t.power.showdownDrive = s.power.showdownDrive + b2n drive

theorem State.shown_drive (s : State) (cut drive : Bool) :
    (s.shown cut drive).power.showdownDrive = s.power.showdownDrive + b2n drive := by
  cases drive <;> rfl

theorem State.trigger_shows (s : State) (cut drive : Bool) (h : s.mgmt.showHeld = false) : s.Shows (s.trigger cut drive) cut drive := by
  cases cut with
  | false =>
    rw [s.trigger_fast drive h]
    have hm := State.showRecord_mgmt ((s.shown false drive).latchTree true)
    refine ⟨?_, ?_, ?_, ?_, fun _ => ?_, ?_⟩
    · rw [hm]; rfl
    · rw [hm]; rfl
    · rw [hm]; rfl
    · rw [hm]; rfl
    · rw [hm]
    · rw [State.showRecord_power]
      exact s.shown_drive false drive
  | true =>
    rw [s.trigger_cut drive h]
    have hm := State.showCheck_mgmt (((s.shown true drive).latchTree false).showStart (nextShow s.mgmt.showNum))
    rw [State.showStart_mgmt] at hm
    refine ⟨?_, ?_, ?_, ?_, fun hc => (Bool.noConfusion hc), ?_⟩
    · rw [hm]; rfl
    · rw [hm]; rfl
    · rw [hm]; rfl
    · rw [hm]; rfl
    · rw [State.showCheck_power, State.showStart_power]
      exact s.shown_drive true drive

/-! ### What no report touches -/

/-- What the management service holds of its own work: whether it restarts, the islands a correlation set waits for, and the mailbox's busy, done
and restarted marks. -/
def Mgmt.service (m : Mgmt) : Bool × List Nat × Bool × Bool × Bool := (m.restarting, m.corrDue, m.mbBusy, m.mbDone, m.mbRestarted)

theorem State.trigger_service (s : State) (cut drive : Bool) : (s.trigger cut drive).mgmt.service = s.mgmt.service := by
  cases h : s.mgmt.showHeld with
  | true => rw [s.trigger_held cut drive h]; rfl
  | false => cases cut with
    | false =>
      have hm := State.showRecord_mgmt ((s.shown false drive).latchTree true)
      rw [s.trigger_fast drive h, Mgmt.service, hm]
      rfl
    | true =>
      have hm := State.showCheck_mgmt (((s.shown true drive).latchTree false).showStart (nextShow s.mgmt.showNum))
      rw [State.showStart_mgmt] at hm
      rw [s.trigger_cut drive h, Mgmt.service, hm]
      rfl

theorem State.classTrigger_service (s : State) (cls : Nat) : (s.classTrigger cls).mgmt.service = s.mgmt.service := by
  unfold State.classTrigger
  split
  · split
    · split
      · rw [State.trigger_service]; rfl
      · rfl
    · rfl
  · rfl

/-- A report touches nothing of the management service's own work. -/
theorem State.report_service (s : State) (island cls code : Nat) (ctx : Option Nat) (detail : Nat) :
    (s.report island cls code ctx detail).mgmt.service = s.mgmt.service := by
  unfold State.report State.reportTy
  rw [State.freeNext_mgmt, State.classTrigger_service, State.modIsl_mgmt]

end Sys2Proof.Machine
end

section
/-! The management island's events and the showdown's (R439, R440, R447 to R450, R464, R466, R469): one lemma per row, and from them O33. -/
namespace Sys2Proof.Machine

/-! ### The watchdog (R439, R440) -/

/-- The commands at work that need the management island have ended with MGMT_UNAVAILABLE. -/
def State.endServed (s : State) : State :=
  (s.allCmds.filter (fun x => x.2.2.isRunning && mgmtOp x.2.2.op)).foldl
    (fun t x => t.endCmd x.1 x.2.1 x.2.2.n ⟨St.mgmtUnavailable, 0, 0⟩) s

theorem State.endServed_finished {s : State} {f q n : Nat} {c : Cmd} (hc : s.cmdOf f q n = some c) (hm : (f, q, c) ∈ s.allCmds)
    (hp : c.phase = .running) (hop : mgmtOp c.op = true) : ∃ d, s.endServed.cmdOf f q n = some d ∧ d.phase = .finished := by
  have hn : c.n = n := by simpa using List.find?_some hc
  subst hn
  exact State.foldl_endCmd_finished _ _ (List.mem_filter.2 ⟨hm, by simp [Cmd.isRunning, hp, hop]⟩) hc

theorem State.report_cp (s : State) (island cls code : Nat) (ctx : Option Nat) (detail : Nat) :
    (s.report island cls code ctx detail).cp = s.cp := by
  simpa [showGroups] using (s.only_report island cls code ctx detail).cp

/-- The watchdog leaves the island restarting, without a marker it waits for and without a mailbox request, whether or not a
slot on trial is given up and reported beside. -/
theorem execMgmtWatchdogExpire_down {s : State} (hb : s.mgmt.boot ≠ .off) (hr : s.mgmt.restarting = false) :
    ∃ t, execMgmtWatchdogExpire s = .next t ∧ t.cp = s.endServed.cp ∧ t.mgmt.service = (true, [], false, false, true) := by
  have hc : (decide (s.mgmt.boot ≠ .off) && !s.mgmt.restarting) = true := by simp [hb, hr]
  unfold execMgmtWatchdogExpire onlyIf
  rw [if_pos hc]
  refine ⟨_, rfl, ?_⟩
  extract_lets cs s1 m s2
  split
  · unfold State.mgmtReport
    refine ⟨State.report_cp .., ?_⟩
    rw [State.report_service]
    rfl
  · exact ⟨rfl, rfl⟩

theorem mgmtWatchdogExpire_drops {s : State} (hb : s.mgmt.boot ≠ .off) (hr : s.mgmt.restarting = false) :
    ∃ t, exec .mgmtWatchdogExpire s = .next t ∧ t.pending = s.pending ∧ t.mgmt.restarting = true ∧ t.mgmt.mbBusy = false ∧
      t.mgmt.mbDone = false ∧ t.mgmt.mbRestarted = true ∧ t.mgmt.corrDue = [] ∧
      ∀ f q n c, s.cmdOf f q n = some c → (f, q, c) ∈ s.allCmds → c.phase = .running → mgmtOp c.op = true →
        ∃ d, t.cmdOf f q n = some d ∧ d.phase = .finished := by
  obtain ⟨t, he, hcp, hs⟩ := execMgmtWatchdogExpire_down hb hr
  have hpend := ((execMgmtWatchdogExpire_keep (Keep.refl s)).out t he).pending
  simp only [Mgmt.service, Prod.mk.injEq] at hs
  obtain ⟨hrest, hdue, hbusy, hdone, hres⟩ := hs
  refine ⟨t, he, hpend, hrest, hbusy, hdone, hres, hdue, fun f q n c hc hm hp hop => ?_⟩
  rw [State.cmdOf_cp t s.endServed f q n hcp]
  exact State.endServed_finished hc hm hp hop

/-! ### The end of the restart -/

theorem State.cause_mgmt (s : State) (p b : Nat) : (s.cause p b).mgmt = s.mgmt := by simpa [msgGroups] using (s.only_cause p b).mgmt

theorem State.only_respond (s : State) (result : Nat) (outs : List Nat) (payload : List Byte) :
    s.Only [.mgmt, .cp, .host] (s.respond result outs payload) :=
  ((s.only_set_mgmt _).mono _ (by decide)).trans ((State.only_cause _ _ _).mono _ (by decide))

/-- The mailbox holds a request outside Table 15.10 which the island now serves. -/
def Mgmt.AsksUnknown (m : Mgmt) : Prop := m.mbBusy = true ∧ m.restarting = false ∧ (bits (m.req 0) 7 0 = 0 ∨ 0x10 < bits (m.req 0) 7 0)

theorem State.refuseUnknown_of_asks {s : State} (h : s.mgmt.AsksUnknown) : s.refuseUnknown = s.refuse mbUnknown := by
  obtain ⟨hb, hr, hreq⟩ := h
  simp [State.refuseUnknown, hb, hr, hreq]

theorem State.refuseUnknown_of_not {s : State} (h : ¬ s.mgmt.AsksUnknown) : s.refuseUnknown = s := by
  unfold State.refuseUnknown
  dsimp only
  rw [if_neg]
  rintro ⟨hb, hr, hreq⟩
  exact h ⟨hb, by simpa using hr, hreq⟩

/-- An unknown request is answered: the mailbox is free again and done; nothing else of the service changes. -/
theorem State.refuse_mgmt (s : State) (k : Nat) : (s.refuse k).mgmt = { s.mgmt with
    respArea := (s.refuse k).mgmt.respArea, mbBusy := false, mbDone := true, mbDoneSeq := s.mgmt.mbSeq } := by
  simp only [State.refuse, State.respond, State.cause_mgmt]

/-- The service of the island resumes, with its record in the log. -/
def State.resumed (s : State) : State :=
  ({ s with mgmt := { s.mgmt with restarting := false } }.logAppend
    (errRecord 0x14 14 (s.freeNow % 2 ^ 16) islMgmt none (s.islCount islMgmt) (Config.freeValue (s.free + 1) % 2 ^ 64))).freeNext 2

theorem State.only_resumed (s : State) : s.Only [.mgmt, .free] s.resumed :=
  (((s.only_set_mgmt _).trans (State.only_logAppend _ _)).mono _ (by decide)).trans ((State.only_freeNext _ 2).mono _ (by decide))

theorem State.resumed_mgmt (s : State) : s.resumed.mgmt = { s.mgmt with
    restarting := false, log := s.resumed.mgmt.log, nextLog := s.mgmt.nextLog + 1 } := by
  simp only [State.resumed, State.freeNext_mgmt]
  rw [State.logAppend_mgmt]

theorem State.resumed_asks (s : State) : s.resumed.mgmt.AsksUnknown ↔
    s.mgmt.mbBusy = true ∧ (bits (s.mgmt.req 0) 7 0 = 0 ∨ 0x10 < bits (s.mgmt.req 0) 7 0) := by
  rw [Mgmt.AsksUnknown, s.resumed_mgmt]
  simp [Mgmt.req]

theorem execMgmtServiceResume_restarting {s : State} (h : s.mgmt.restarting = true) :
    execMgmtServiceResume s = .next s.resumed.refuseUnknown := by
  simp only [execMgmtServiceResume, onlyIf, h, if_true, State.resumed]

theorem mgmtServiceResume_serves {s : State} (h : s.mgmt.restarting = true) :
    Answers .mgmtServiceResume s [.mgmt, .free, .cp, .host] (fun t => t.mgmt.restarting = false ∧ t.mgmt.nextLog = s.mgmt.nextLog + 1 ∧
      (s.mgmt.mbBusy = false → s.Only [.mgmt, .free] t) ∧
      ∀ r, r = bits (s.mgmt.req 0) 7 0 → s.mgmt.mbBusy = true →
        (1 ≤ r → r ≤ 0x10 → s.Only [.mgmt, .free] t ∧ t.mgmt.mbBusy = true) ∧
        (r = 0 ∨ 0x10 < r → t.mgmt.mbBusy = false ∧ t.mgmt.mbDone = true)) := by
  refine ⟨_, execMgmtServiceResume_restarting h, ?_⟩
  have hm := s.resumed_mgmt
  have honly := s.only_resumed
  by_cases ha : s.resumed.mgmt.AsksUnknown
  · obtain ⟨hbusy, hreq⟩ := s.resumed_asks.1 ha
    have hr := s.resumed.refuse_mgmt mbUnknown
    rw [State.refuseUnknown_of_asks ha]
    refine ⟨(honly.mono _ (by decide)).trans ((s.resumed.only_respond _ _ _).mono _ (by decide)), ?_, ?_, ?_, ?_⟩
    · rw [hr, hm]
    · rw [hr, hm]
    · rw [hbusy]; exact nofun
    · rintro r rfl -
      exact ⟨fun h1 h2 => by omega, fun _ => by rw [hr]; exact ⟨rfl, rfl⟩⟩
  · rw [State.refuseUnknown_of_not ha]
    refine ⟨honly.mono _ (by decide), by rw [hm], by rw [hm], fun _ => honly, ?_⟩
    rintro r rfl hbusy
    refine ⟨fun _ _ => ⟨honly, by rw [hm]; exact hbusy⟩, fun hreq => ?_⟩
    exact absurd (s.resumed_asks.2 ⟨hbusy, hreq⟩) ha

/-! ### The error hub and the sensors (R447 to R450) -/

theorem errorReport_records {s : State} {island cls code : Nat} {ctx : Option Nat} {detail : W64} {r : List Word}
    (hi : island ∈ allIslands) (hc : cls < 16) (hb : s.mgmt.boot ≠ .off) (ha : s.mgmt.arming = none)
    (hr : r = errRecord 0x10 cls code island (ctx.map (fun c => ((s.ctxOwner c).getD 0, c))) (s.islCount island) detail.toNat) :
    Answers (.errorReport island cls code ctx detail) s [.isl] (fun t =>
      ((s.islOf island).fifo.length < 16 → (t.islOf island).fifo = (s.islOf island).fifo ++ [r]) ∧
      (16 ≤ (s.islOf island).fifo.length → (t.islOf island).fifo = (s.islOf island).fifo ∧
        tget 0 (t.islOf island).lost cls = satAdd 16 (tget 0 (s.islOf island).lost cls) 1) ∧
      (t.islOf island).first = some ((s.islOf island).first.getD r) ∧ ∀ j, j ≠ island → t.islOf j = s.islOf j) := by
  have he : execErrorReport island cls code ctx detail s = .next (s.modIsl island (fun i => i.report cls r)) := by
    rw [execErrorReport, s.reportTy_unarmed _ _ _ _ _ _ ha, ← hr]
    simp [onlyIf, hi, hc, hb]
  refine ⟨_, he, s.only_modIsl _ _, ?_⟩
  dsimp only
  rw [State.islOf_modIsl_self]
  exact ⟨Island.report_room cls r, Island.report_full cls r, Island.report_first _ cls r,
    fun j hj => by rw [State.islOf_modIsl, if_neg hj]⟩

/-- Where no record was lost the freed entry stays free. -/
theorem Island.refill_none {i : Island} (island code : Nat) (h : i.lost = []) : i.refill island code = i := by
  rw [Island.refill, h]

theorem State.freeNext_islOf (s : State) (k j : Nat) : (s.freeNext k).islOf j = s.islOf j := rfl

theorem errorHubDrain_moves {s : State} {island : Nat} {r : List Word} {rest : List (List Word)}
    (hf : (s.islOf island).fifo = r :: rest) (hl : (s.islOf island).lost = []) (hroom : s.mgmt.log.length < 8192) :
    Answers (.errorHubDrain island) s [.mgmt, .isl, .free] (fun t => t.islOf island = { s.islOf island with fifo := rest } ∧
      t.mgmt.nextLog = s.mgmt.nextLog + 1 ∧ ∃ r', t.mgmt.log = s.mgmt.log ++ [r'] ∧ r'.length = r.length ∧
        (0x10 ≤ fld (word r 0) 7 0 → 6 < r.length → word r' 6 = w32 s.mgmt.nextLog) ∧ ∀ i, i ≠ 6 → word r' i = word r i) := by
  have he : execErrorHubDrain island s = .next (((s.logAppend r).modIsl island
      (fun i => { i with fifo := rest }.refill island (s.freeNow % 2 ^ 16))).freeNext 1) := by
    rw [execErrorHubDrain, hf]
  refine ⟨_, he, ?_, ?_, ?_, s.logged r, ?_, s.logged_length r, s.logged_index r, s.logged_word r⟩
  · exact (((s.only_logAppend r).mono _ (by decide)).trans ((State.only_modIsl _ _ _).mono _ (by decide))).trans
      ((State.only_freeNext _ 1).mono _ (by decide))
  · rw [State.freeNext_islOf, State.islOf_modIsl_self, State.logAppend_islOf]
    exact Island.refill_none _ _ hl
  · rw [State.freeNext_mgmt, State.modIsl_mgmt, State.logAppend_nextLog]
  · rw [State.freeNext_mgmt, State.modIsl_mgmt, s.logAppend_log r hroom]

theorem sensorSample_takes {s : State} {temps : List Int} {supplies currents volts : List Nat} (ht : temps.length = 96)
    (hs : supplies.length = 192) (hc : currents.length = 4) (hv : volts.length = 4) (hb : s.mgmt.boot ≠ .off)
    (hr : s.mgmt.restarting = false) :
    exec (.sensorSample temps supplies currents volts) s =
      .next { s with mgmt := { s.mgmt with temps := temps, supplies := supplies, currents := currents, volts := volts } } := by
  change execSensorSample temps supplies currents volts s = _
  simp [execSensorSample, onlyIf, ht, hs, hc, hv, hb, hr]

/-! ### Armed showdowns (R464) -/

/-- The row is the event an arming waits for: an edge on its pin, or the match of its counter. -/
def State.Sets (s : State) (a : Arming) (row : Instr) : Prop :=
  row = .showdownPin ∧ a.pin = true ∨ row = .showdownCountMatch ∧ ∃ i v, a.count = some (i, v) ∧ v.toNat ≤ s.islCount i

theorem exec_fires {s : State} {a : Arming} {row : Instr} (ha : s.mgmt.arming = some a) (h : s.Sets a row) :
    exec row s = .next (s.fire a) := by
  rcases h with ⟨rfl, hpin⟩ | ⟨rfl, i, v, hcount, hv⟩
  · change execShowdownPin s = _
    simp [execShowdownPin, ha, onlyIf, hpin]
  · change execShowdownCountMatch s = _
    simp [execShowdownCountMatch, ha, hcount, onlyIf, hv]

theorem armedRow_shows {s : State} {a : Arming} {row : Instr} (ha : s.mgmt.arming = some a) (h : s.Sets a row)
    (hheld : s.mgmt.showHeld = false) :
    Answers row s [.isl, .mgmt, .cores, .power, .ctxs, .free] (fun t => t.mgmt.arming = none ∧
      t.mgmt.showHeld = true ∧ t.mgmt.showCut = a.cut ∧ t.mgmt.showNum = (if s.mgmt.showNum = 65535 then 1 else s.mgmt.showNum + 1) ∧
      (a.cut = false → t.mgmt.showRecorded = true) ∧ t.power.showdownDrive = s.power.showdownDrive + b2n a.drive) := by
  have hshow := State.trigger_shows { s with mgmt := { s.mgmt with arming := none } } a.cut a.drive hheld
  exact ⟨_, exec_fires ha h, ((s.only_set_mgmt _).mono _ (by decide)).trans (State.only_trigger _ _ _),
    hshow.arming, hshow.held, hshow.mode, hshow.number, hshow.recorded, hshow.drive⟩

theorem armedRow_missed {s : State} {a : Arming} {row : Instr} (ha : s.mgmt.arming = some a) (h : s.Sets a row)
    (hheld : s.mgmt.showHeld = true) :
    exec row s = .next { s with mgmt := { s.mgmt with arming := none, missed := satAdd 16 s.mgmt.missed 1 } } :=
  (exec_fires ha h).trans (congrArg Host.Outcome.next (State.trigger_held _ _ _ hheld))

/-! ### Showdown tiles of a cut (R466) -/

/-- A showdown tile of the running cut has come on an input of a core: it is marked, and a cut that is now complete is recorded. -/
def State.marked (s : State) (core input : Nat) : State := (s.markSeen core input).showCheck

theorem State.marked_coreOf (s : State) (core input : Nat) : (s.marked core input).coreOf core =
    { s.coreOf core with snapIn := tmod (0, 0, 0, false) (s.coreOf core).snapIn input (fun (n, a, b, _) => (n, a, b, true)) } := by
  rw [State.marked, State.showCheck_coreOf, State.markSeen, State.coreOf_modCore_self]

theorem State.marked_seen (s : State) (core input : Nat) :
    (tget (0, 0, 0, false) ((s.marked core input).coreOf core).snapIn input).2.2.2 = true := by
  rw [State.marked_coreOf]
  dsimp only
  rw [tget_tmod_self]

theorem State.sendOut_snapLatched (s : State) (core : Nat) (t : Tile) (port ch k : Nat) :
    ((s.sendOut core t port ch).coreOf k).snapLatched = (s.coreOf k).snapLatched := by
  unfold State.sendOut
  split
  · rfl
  · split
    · rfl
    · split
      · rw [State.coreOf_modCore]
        split
        · next h => rw [h]
        · rfl
      · rfl

/-- The tiles a latch sends leave the core latched. -/
theorem State.latchCore_snapLatched (s : State) (core : Nat) : ((s.latchCore core).coreOf core).snapLatched = true := by
  have step : ∀ (l : List (Tile × Dest)) (u : State), ((l.foldl (fun u p => u.sendOut core p.1 p.2.target p.2.channel) u).coreOf
      core).snapLatched = (u.coreOf core).snapLatched := by
    intro l
    induction l with
    | nil => exact fun _ => rfl
    | cons p l ih => exact fun u => (ih _).trans (u.sendOut_snapLatched ..)
  refine (step _ _).trans ?_
  change ((s.modCore core (fun c => { c with snapLatched := true })).coreOf core).snapLatched = true
  rw [State.coreOf_modCore_self]

/-- A showdown tile of the running cut stands at the head of an input that takes tiles. -/
structure State.CutTile (s : State) (core port ch : Nat) (t : Tile) (o : Option (Nat × Nat × Nat)) : Prop where
  head  : s.inputHead core port ch = some (t, o)
  kind  : t.kind = 3
  free  : port * 4 + ch ∉ (s.coreOf core).heldIn
  ready : s.handWaits core t = false
  runs  : s.mgmt.cutOpen = true
  mine  : t.tag = s.mgmt.showNum % 1024

/-- On a latched core one without a route is counted and closes its input. -/
theorem execShowdownTileArrive_unrouted {s : State} {core port ch : Nat} {t0 : Tile} {o : Option (Nat × Nat × Nat)}
    (h : s.CutTile core port ch t0 o) (hl : (s.coreOf core).snapLatched = true) (hr : s.arriveRoute core port ch t0 = none) :
    execShowdownTileArrive core port ch s = .next (((s.takeInput core port ch t0 o).modCore core (fun k =>
      { k with unrouted := k.unrouted + 1 })).marked core (port * 4 + ch)) := by
  unfold execShowdownTileArrive
  rw [h.head]
  simp [h.kind, h.free, h.ready, h.runs, h.mine, hl, hr, State.marked]

/-- On a latched core one with a route goes on along it, in its turn and where there is room, and closes its input. -/
theorem execShowdownTileArrive_routed {s : State} {core port ch : Nat} {t0 : Tile} {o : Option (Nat × Nat × Nat)} {x : Hand} {r : Route}
    {i : Nat} (h : s.CutTile core port ch t0 o) (hl : (s.coreOf core).snapLatched = true)
    (hr : s.arriveRoute core port ch t0 = some (x, r, i)) (hturn : s.hasTurn core (port * 4 + ch) r = true)
    (hroom : ∀ d ∈ r.dests, d.target ≤ 3 → s.destRoom core t0 d = true) :
    execShowdownTileArrive core port ch s = .next (((r.dests.filter (fun d => d.target ≤ 3)).foldl
      (fun u d => u.sendOut core t0 d.target d.channel)
      ((s.takeInput core port ch t0 o).modCore core (fun k => k.grant (port * 4 + ch) r))).marked core (port * 4 + ch)) := by
  have hall : (r.dests.filter (fun d => d.target ≤ 3)).all (s.destRoom core t0) = true :=
    List.all_eq_true.2 (fun d hd => hroom d (List.mem_filter.1 hd).1 (by simpa using (List.mem_filter.1 hd).2))
  unfold execShowdownTileArrive
  rw [h.head]
  simp [h.kind, h.free, h.ready, h.runs, h.mine, hl, hr, hturn, hall, onlyIf, State.marked, -List.all_filter]

theorem showdownTile_closes {s : State} {core port ch : Nat} {t0 : Tile} {o : Option (Nat × Nat × Nat)}
    (h : s.CutTile core port ch t0 o) (hl : (s.coreOf core).snapLatched = true)
    (hroute : ∀ x r i, s.arriveRoute core port ch t0 = some (x, r, i) →
      s.hasTurn core (port * 4 + ch) r = true ∧ ∀ d ∈ r.dests, d.target ≤ 3 → s.destRoom core t0 d = true) :
    ∃ t, exec (.showdownTileArrive core port ch) s = .next t ∧ t.pending = s.pending ∧
      (tget (0, 0, 0, false) (t.coreOf core).snapIn (port * 4 + ch)).2.2.2 = true := by
  have hu : ∃ u, execShowdownTileArrive core port ch s = .next (State.marked u core (port * 4 + ch)) := by
    cases hr : s.arriveRoute core port ch t0 with
    | none => exact ⟨_, execShowdownTileArrive_unrouted h hl hr⟩
    | some p =>
      obtain ⟨hturn, hroom⟩ := hroute p.1 p.2.1 p.2.2 hr
      exact ⟨_, execShowdownTileArrive_routed h hl hr hturn hroom⟩
  obtain ⟨u, he⟩ := hu
  exact ⟨_, he, ((execShowdownTileArrive_keep core port ch (Keep.refl s)).out _ he).pending, u.marked_seen core _⟩

/-- The first one on a core that holds hands latches the core, once the tiles it then sends have room. -/
theorem execShowdownTileArrive_first {s : State} {core port ch : Nat} {t0 : Tile} {o : Option (Nat × Nat × Nat)}
    (h : s.CutTile core port ch t0 o) (hl : (s.coreOf core).snapLatched = false)
    (hh : ∃ h ∈ (s.coreOf core).hands, h.2.isSome = true) :
    execShowdownTileArrive core port ch s = onlyIf (s.latchRoom core) s
      (((s.takeInput core port ch t0 o).latchCore core).marked core (port * 4 + ch)) := by
  have hany : (s.coreOf core).hands.any (fun h => h.2.isSome) = true := List.any_eq_true.2 hh
  unfold execShowdownTileArrive
  rw [h.head]
  simp [h.kind, h.free, h.ready, h.runs, h.mine, hl, hany, State.marked]

theorem showdownTile_latches {s : State} {core port ch : Nat} {t0 : Tile} {o : Option (Nat × Nat × Nat)}
    (h : s.CutTile core port ch t0 o) (hl : (s.coreOf core).snapLatched = false)
    (hh : ∃ h ∈ (s.coreOf core).hands, h.2.isSome = true) :
    (s.latchRoom core = true → ∃ t, exec (.showdownTileArrive core port ch) s = .next t ∧ t.pending = s.pending ∧
      (t.coreOf core).snapLatched = true ∧ (tget (0, 0, 0, false) (t.coreOf core).snapIn (port * 4 + ch)).2.2.2 = true) ∧
    (s.latchRoom core = false → exec (.showdownTileArrive core port ch) s = .next s) := by
  have he := execShowdownTileArrive_first h hl hh
  constructor
  · intro hroom
    rw [hroom, onlyIf, if_pos rfl] at he
    refine ⟨_, he, ((execShowdownTileArrive_keep core port ch (Keep.refl s)).out _ he).pending, ?_, State.marked_seen _ core _⟩
    rw [State.marked_coreOf]
    exact State.latchCore_snapLatched _ core
  · intro hroom
    rwa [hroom] at he

theorem showdownCutTimeout_records {s : State} (h : s.mgmt.cutOpen = true) :
    Answers .showdownCutTimeout s [.mgmt, .free] (fun t => t.mgmt.showIncomplete = true ∧ t.mgmt.showRecorded = true ∧
      t.mgmt.nextLog = s.mgmt.nextLog + 1) := by
  have he : execShowdownCutTimeout s = .next (State.showRecord { s with mgmt := { s.mgmt with showIncomplete := true } }) := by
    rw [execShowdownCutTimeout, onlyIf, if_pos h]
  have hm := State.showRecord_mgmt { s with mgmt := { s.mgmt with showIncomplete := true } }
  exact ⟨_, he, ((s.only_set_mgmt _).mono _ (by decide)).trans (State.only_showRecord_log _), by rw [hm], by rw [hm], by rw [hm]⟩

/-! ### Correlation markers (R48) -/

/-- A marker has come to an island: it is no longer waited for, and the island's counter is latched. -/
def State.markerLatched (s : State) (k : Nat) : State :=
  State.modIsl { s with mgmt := { s.mgmt with corrDue := s.mgmt.corrDue.erase k } } k (fun i => { i with latch := some i.count })

theorem State.only_markerLatched (s : State) (k : Nat) : s.Only [.mgmt, .isl] (s.markerLatched k) :=
  ((s.only_set_mgmt _).mono _ (by decide)).trans ((State.only_modIsl _ _ _).mono _ (by decide))

theorem State.markerLatched_islOf (s : State) (k j : Nat) :
    (s.markerLatched k).islOf j = if j = k then { s.islOf k with latch := some (s.islOf k).count } else s.islOf j :=
  State.islOf_modIsl { s with mgmt := { s.mgmt with corrDue := s.mgmt.corrDue.erase k } } k j
    (fun i => { i with latch := some i.count })

theorem execCorrelationMarkerArrive_due {s : State} {k : Nat} (h : k ∈ s.mgmt.corrDue) :
    execCorrelationMarkerArrive k s = .next ((s.markerLatched k).logAppend (timeRecord 0x01 (!(s.islOf k).running) s.mgmt.corrNum k
      (s.freqCode k) (s.islCount k) s.mgmt.corrMgmt.toNat s.mgmt.corrHost)) := by
  rw [execCorrelationMarkerArrive, onlyIf, if_pos (List.contains_iff_mem.2 h), State.markerLatched]

theorem correlationMarker_latches {s : State} {k : Nat} (h : k ∈ s.mgmt.corrDue) :
    Answers (.correlationMarkerArrive k) s [.mgmt, .isl] (fun t => t.mgmt.corrDue = s.mgmt.corrDue.erase k ∧
      t.islOf k = { s.islOf k with latch := some (s.islOf k).count } ∧ (∀ j, j ≠ k → t.islOf j = s.islOf j) ∧
      t.mgmt.nextLog = s.mgmt.nextLog + 1) := by
  refine ⟨_, execCorrelationMarkerArrive_due h, ?_, ?_, ?_, fun j hj => ?_, ?_⟩
  · exact (s.only_markerLatched k).trans ((State.only_logAppend _ _).mono _ (by decide))
  · rw [State.logAppend_mgmt]; rfl
  · rw [State.logAppend_islOf, State.markerLatched_islOf, if_pos rfl]
  · rw [State.logAppend_islOf, State.markerLatched_islOf, if_neg hj]
  · rw [State.logAppend_nextLog]; rfl

/-! ### Frequency (R469) -/

theorem inRail_range (v : Nat) : 650000 ≤ inRail v ∧ inRail v ≤ 850000 := by
  unfold inRail
  omega

/-- A switch of a cluster's clock sets its island's frequency, its code and its die's rail. -/
theorem State.setCode_islOf (s : State) (cl k j : Nat) :
    (s.setCode cl k).islOf j = if j = cl then { s.islOf cl with khz := 25000 * k } else s.islOf j :=
  s.islOf_modIsl cl j (fun i => { i with khz := 25000 * k })

theorem State.setCode_codeOf (s : State) (cl k j : Nat) : (s.setCode cl k).codeOf j = if j = cl then k else s.codeOf j :=
  tget_tset ..

theorem State.setRail_rail (s : State) (d : Nat) : ((s.setRail d).dieOf d).rail = s.railFor d := by
  rw [State.setRail, State.dieOf_modDie_self]

theorem State.setCode_rail (s : State) (cl k : Nat) :
    650000 ≤ ((s.setCode cl k).dieOf (dieOfCluster cl)).rail ∧ ((s.setCode cl k).dieOf (dieOfCluster cl)).rail ≤ 850000 := by
  unfold State.setCode
  rw [State.setRail_rail]
  exact inRail_range _

theorem State.only_setCode (s : State) (cl k : Nat) : s.Only [.isl, .power] (s.setCode cl k) := by
  constructor <;> simp [State.setCode, State.setRail]

theorem State.timeNote_isl (s : State) (ty k : Nat) : (s.timeNote ty k).isl = s.isl := State.logAppend_isl ..

theorem State.timeNote_power (s : State) (ty k : Nat) : (s.timeNote ty k).power = s.power := by
  unfold State.timeNote
  simpa using (s.only_logAppend _).power

theorem execFrequencyChange_lower {s : State} {cl k : Nat} (hcl : cl < 192) (hr : (s.islOf cl).running = true) (hk : k = s.codeFor cl)
    (hlow : k < s.codeOf cl) : execFrequencyChange cl k s = .next (s.switchCode cl k) := by
  have hc : (decide (cl < 192) && (s.islOf cl).running && decide (k = s.codeFor cl) && decide (k ≠ s.codeOf cl) &&
      (decide (k < s.codeOf cl) || !(s.dieOf (dieOfCluster cl)).raiseHeld)) = true := by
    simp [hcl, hr, ← hk, hlow, Nat.ne_of_lt hlow]
  rw [execFrequencyChange, onlyIf, if_pos hc]

theorem frequencyChange_lowers {s : State} {cl k : Nat} (hcl : cl < 192) (hr : (s.islOf cl).running = true) (hk : k = s.codeFor cl)
    (hlow : k < s.codeOf cl) :
    Answers (.frequencyChange cl k) s [.isl, .power, .mgmt] (fun t => t.codeOf cl = k ∧
      t.islOf cl = { s.islOf cl with khz := 25000 * k } ∧ (∀ j, j ≠ cl → t.codeOf j = s.codeOf j) ∧
      650000 ≤ (t.dieOf (dieOfCluster cl)).rail ∧ (t.dieOf (dieOfCluster cl)).rail ≤ 850000 ∧
      t.mgmt.nextLog = s.mgmt.nextLog + 1) := by
  have hcode : ∀ j, (s.switchCode cl k).codeOf j = (s.setCode cl k).codeOf j := fun j => by
    rw [State.codeOf, State.codeOf, State.switchCode, State.timeNote_power]
  have hdie : ∀ d, (s.switchCode cl k).dieOf d = (s.setCode cl k).dieOf d := fun d => by
    rw [State.dieOf, State.dieOf, State.switchCode, State.timeNote_power]
  have hisl : (s.switchCode cl k).islOf cl = (s.setCode cl k).islOf cl := by
    rw [State.islOf, State.islOf, State.switchCode, State.timeNote_isl]
  obtain ⟨hlo, hhi⟩ := s.setCode_rail cl k
  refine ⟨_, execFrequencyChange_lower hcl hr hk hlow, ?_, ?_, ?_, fun j hj => ?_, ?_, ?_, ?_⟩
  · exact ((s.only_setCode cl k).mono _ (by decide)).trans ((State.only_logAppend _ _).mono _ (by decide))
  · rw [hcode, State.setCode_codeOf, if_pos rfl]
  · rw [hisl, State.setCode_islOf, if_pos rfl]
  · rw [hcode, State.setCode_codeOf, if_neg hj]
  · rwa [hdie]
  · rwa [hdie]
  · rw [State.switchCode, State.timeNote, State.logAppend_nextLog]; rfl

/-- Settles O33, one row after the other: each by the lemma above that says what it leaves. -/
theorem managementEventsAct : Obligations.ManagementEventsAct := by
  unfold Obligations.ManagementEventsAct
  intro s
  refine ⟨mgmtWatchdogExpire_drops, mgmtServiceResume_serves,
    fun island cls code ctx detail r hi hc hb ha hr => errorReport_records hi hc hb ha hr,
    fun island r rest hf hl hroom => errorHubDrain_moves hf hl hroom,
    fun temps supplies currents volts ht hs hc hv hb hr => sensorSample_takes ht hs hc hv hb hr,
    fun a row ha hrow => ⟨armedRow_shows ha hrow, armedRow_missed ha hrow⟩, ?_,
    showdownCutTimeout_records, fun k hk => correlationMarker_latches hk,
    fun cl k hcl hr hk hlow => frequencyChange_lowers hcl hr hk hlow⟩
  rintro core port ch t0 o row rfl hhead hkind hfree hready hruns hmine
  have hcut : s.CutTile core port ch t0 o := ⟨hhead, hkind, hfree, hready, hruns, hmine⟩
  exact ⟨showdownTile_closes hcut, showdownTile_latches hcut⟩

end Sys2Proof.Machine
end

section
/-! The rows whose command has nothing left to do but finish (R67, R68, R73): each makes its checks, none of them fails, and the command
ends with its results. -/
namespace Sys2Proof.Machine

/-- A row that makes an opcode's reserved-bit check and others, none of which fails, goes on to its work. -/
theorem State.Runs.work_checked {s : State} {f q n op : Nat} {used : List (Nat × Nat)} {c : Cmd} (h : s.Runs f q n op used c)
    {g : Cmd → State} (cs : List Check) {t : State} (hg : g c = s.checked f q n c (reservedCheck c.eff used ++ cs) t)
    (hcs : ∀ k ∈ cs, k.bad = false) : s.work f q n op g = .next t := by
  rw [s.work_started f q n op g c h.started, hg, reservedCheck_none _ _ h.reserved, List.nil_append,
    s.checked_ok _ _ _ _ _ _ (verdictOf_none cs hcs)]

/-- The same for a row that checks reserved bits alone. -/
theorem State.Runs.work_reserved {s : State} {f q n op : Nat} {used : List (Nat × Nat)} {c : Cmd} (h : s.Runs f q n op used c)
    {g : Cmd → State} {t : State} (hg : g c = s.checked f q n c (reservedCheck c.eff used) t) :
    s.work f q n op g = .next t :=
  h.work_checked [] (by rw [hg, List.append_nil]) (fun _ hk => absurd hk List.not_mem_nil)

theorem State.withErrs_nil {s : State} {f q n op : Nat} {c : Cmd} (h : s.started f q n op = some c) (k : State → Out) :
    s.withErrs f q n op [] k = k s := by
  rw [State.withErrs, h]; rfl

/-- A session of the context that is not CANCELLING turns no command away (R340). -/
theorem State.cancelling_good {s : State} {ctx k : Nat} (h : s.sessOk ctx k = true → (s.sessOf k).state ≠ 5) :
    (s.cancelling ctx k).bad = false := by
  simpa [State.cancelling, need] using h

@[simp] theorem param_bad (ok : Bool) (w : Nat) : (param ok w).bad = !ok := rfl
@[simp] theorem resv_bad (ok : Bool) (w : Nat) : (resv ok w).bad = !ok := rfl
@[simp] theorem need_bad (ok : Bool) (st a b : Nat) : (need ok st a b).bad = !ok := rfl

theorem nop_finishes {s : State} {f q n : Nat} {c : Cmd} (h : s.Runs f q n 0x00 [] c) :
    Finishes (.nop f q n) s f q n St.ok 0 0 := finishes_done h 0 0 (h.work_reserved rfl)

theorem contextConfig_finishes {s : State} {f q n : Nat} {c : Cmd} (h : s.Runs f q n 0x12 [(2, 0x3F), (3, 0xFFFF)] c)
    (hp : bit (word c.eff 2) 0 = true → precisionOk (word c.eff 2) = true) : Finishes (.contextConfig f q n) s f q n St.ok 0 0 :=
  finishes_done h 0 0 (h.work_checked [param (!bit (word c.eff 2) 0 || precisionOk (word c.eff 2)) 2] rfl (by simpa using hp))

theorem sessionOpen_finishes {s : State} {f q n : Nat} {c : Cmd}
    (h : s.Runs f q n 0x40 [(2, 0x0FFF00FF), (3, 0xFFFFFFFF), (4, 0xFFFF), (5, 0xFFFFFFFF), (6, 0xFFFFFFFF), (7, 0xFFFFFFFF),
      (8, 0xFFFFFFFF), (9, 0xFFFFFFFF), (10, 0xFFFFFFFF), (11, 0x1FFF)] c)
    (h3 : wnat c.eff 3 % 4 = 0) (h5 : wnat c.eff 5 ≤ 2 ^ 24) : Finishes (.sessionOpen f q n) s f q n St.ok 0 0 :=
  finishes_done h 0 0 (h.work_checked [param (wnat c.eff 3 % 4 = 0) 3, param (decide (wnat c.eff 5 ≤ 2 ^ 24)) 5] rfl
    (by simpa [h3] using h5))

theorem sessionClose_finishes {s : State} {f q n : Nat} {c : Cmd} (h : s.Runs f q n 0x41 [(2, 0xFFF)] c) :
    Finishes (.sessionClose f q n) s f q n St.ok 0 0 := finishes_done h 0 0 (h.work_reserved rfl)

theorem sessionPause_finishes {s : State} {f q n : Nat} {c : Cmd} (h : s.Runs f q n 0x43 [(2, 0xFFF)] c)
    (hs : s.sessOk c.ctx (sessionOf c.eff) = true → (s.sessOf (sessionOf c.eff)).state ≠ 5) :
    Finishes (.sessionPause f q n) s f q n St.ok 0 0 :=
  finishes_done h 0 0 (h.work_checked [s.cancelling c.ctx (sessionOf c.eff)] rfl (by simp [State.cancelling_good hs]))

theorem sessionResume_finishes {s : State} {f q n : Nat} {c : Cmd}
    (h : s.Runs f q n 0x44 [(2, 0x1FFF), (3, 0xFFFFFFFF), (4, 0xFFFF), (5, 0xFFFFFFFF)] c)
    (hs : s.sessOk c.ctx (sessionOf c.eff) = true → (s.sessOf (sessionOf c.eff)).state ≠ 5) (h3 : wnat c.eff 3 % 4 = 0)
    (h5 : wnat c.eff 5 ≤ 2 ^ 24) (hnew : bit (word c.eff 2) 12 = true → wnat c.eff 5 ≠ 0) :
    Finishes (.sessionResume f q n) s f q n St.ok 0 0 := by
  have hinput : (!bit (word c.eff 2) 12 || decide (wnat c.eff 5 ≠ 0)) = true := by
    by_cases hb : bit (word c.eff 2) 12 = true <;> simp [hb, hnew]
  refine finishes_done h 0 0 (h.work_checked [s.cancelling c.ctx (sessionOf c.eff), param (wnat c.eff 3 % 4 = 0) 3,
    param (decide (wnat c.eff 5 ≤ 2 ^ 24) && (!bit (word c.eff 2) 12 || decide (wnat c.eff 5 ≠ 0))) 5] rfl ?_)
  simp only [List.forall_mem_cons, param_bad, State.cancelling_good hs, h3, h5, hinput]
  simp

theorem kvPark_finishes {s : State} {f q n : Nat} {c : Cmd} (h : s.Runs f q n 0x51 [(2, 0xFFF)] c)
    (hs : s.sessOk c.ctx (sessionOf c.eff) = true → (s.sessOf (sessionOf c.eff)).state ≠ 5) :
    Finishes (.kvPark f q n) s f q n St.ok 0 0 :=
  finishes_done h 0 0 (h.work_checked [s.cancelling c.ctx (sessionOf c.eff)] rfl (by simp [State.cancelling_good hs]))

theorem kvRelease_finishes {s : State} {f q n : Nat} {c : Cmd} (h : s.Runs f q n 0x53 [(2, 0x1FFFFFF)] c)
    (hr : bit (word c.eff 2) 24 = true ∨ ∃ g, (s.ctxOf c.ctx).geom = some g ∧ fld (word c.eff 2) 23 0 < g.records) :
    Finishes (.kvRelease f q n) s f q n St.ok 0 0 := by
  refine finishes_done h 0 0 (h.work_checked [param (match (s.ctxOf c.ctx).geom with
    | some g => bit (word c.eff 2) 24 || decide (fld (word c.eff 2) 23 0 < g.records)
    | none => bit (word c.eff 2) 24) 2] rfl ?_)
  rcases hr with hall | ⟨g, hg, hlt⟩
  · cases hgeom : (s.ctxOf c.ctx).geom <;> simp [hall]
  · simp [hg, hlt]

theorem kvTtlSet_finishes {s : State} {f q n : Nat} {c : Cmd} (h : s.Runs f q n 0x54 [(2, 1), (3, 0xFFFFFFFF), (4, 0xFFFFFFFF)] c)
    (hmode : bit (word c.eff 2) 0 = false) : Finishes (.kvTtlSet f q n) s f q n St.ok 0 0 :=
  finishes_done h 0 0 (h.work_reserved (by simp only [hmode, Bool.false_eq_true, if_false]))

theorem showdownArm_finishes {s : State} {f q n : Nat} {c : Cmd}
    (h : s.Runs f q n 0x82 [(2, 0x3F), (3, 0xFFFF), (4, 0xFFFF), (5, 0xFFFFFFFF), (6, 0xFFFFFFFF)] c)
    (hrun : s.mgmt.restarting = false)
    (hisl : bit (word c.eff 2) 5 = false → bit (word c.eff 2) 3 = true → fld (word c.eff 4) 15 0 ∈ allIslands) :
    Finishes (.showdownArm f q n) s f q n St.ok 0 0 := by
  refine finishes_done h 0 0 (h.work_checked
    [param (bit (word c.eff 2) 5 || !bit (word c.eff 2) 3 || allIslands.contains (fld (word c.eff 4) 15 0)) 4] ?_ (by simpa using hisl))
  simp only [hrun, Bool.false_eq_true, if_false]

theorem jobClose_finishes {s : State} {f q n : Nat} {c : Cmd} (h : s.Runs f q n 0x71 [] c) (hjob : s.openJob c.ctx = none) :
    Finishes (.jobClose f q n) s f q n St.ok 0 0 :=
  finishes_done h 0 0 (h.work_reserved (by simp only [hjob, Option.isNone_none, if_true]))

/-- Settles O1, command by command: its checks pass, and it finishes with results 0. -/
theorem plainCommandsFinish : Obligations.PlainCommandsFinish := by
  unfold Obligations.PlainCommandsFinish
  intro s f q n c
  exact ⟨nop_finishes, contextConfig_finishes, sessionOpen_finishes, sessionClose_finishes, sessionPause_finishes,
    sessionResume_finishes, kvPark_finishes, kvRelease_finishes, kvTtlSet_finishes, showdownArm_finishes, jobClose_finishes⟩

end Sys2Proof.Machine
end

section
/-! The last stage of the long commands (R68): what each waits for has come, and its row does no more than finish the command. -/
namespace Sys2Proof.Machine

/-- A stage without checks, on a command that has started: it finishes where the row's work is to finish it. -/
theorem finishes_stage {i : Instr} {s : State} {f q n op : Nat} {c : Cmd} {g : Cmd → State} {a b : Nat}
    (h : s.started f q n op = some c) (hs : c.status = 0) (he : exec i s = s.work f q n op g) (hg : g c = s.done f q n a b) :
    Finishes i s f q n St.ok a b :=
  finishes_started h hs a b (by rw [he, s.work_started f q n op g c h, hg])

/-- The same for a row that carries the errors its reads met, and met none. -/
theorem finishes_read {i : Instr} {s : State} {f q n op : Nat} {c : Cmd} {g : State → Cmd → State} {a b : Nat} (row : Out)
    (h : s.started f q n op = some c) (hs : c.status = 0) (hrow : exec i s = row)
    (he : row = s.withErrs f q n op [] (fun t => t.work f q n op (g t))) (hg : g s c = s.done f q n a b) :
    Finishes i s f q n St.ok a b :=
  finishes_stage h hs (hrow.trans (he.trans (State.withErrs_nil h _))) hg

theorem State.cancelOver_of_finished {s : State} {f q n tq : Nat} {t : Nat × Bool}
    (h : ∀ x, s.cmdOf f tq t.1 = some x → x.phase = .finished ∧ (t.2 = true ∨ x.status ≠ 0 ∨ (tq = q ∧ n < t.1))) :
    s.cancelOver f q n tq t = true := by
  unfold State.cancelOver
  split
  · next x hx =>
    obtain ⟨hp, ho⟩ := h x hx
    simpa [Cmd.isFinished, hp, or_assoc] using ho
  · rfl

theorem cancel_finishes {s : State} {f q n : Nat} {c : Cmd} {ts : List (Nat × Bool)}
    (h : s.Runs f q n 0x01 [(2, 0x13F), (3, if bit (word c.eff 2) 8 then 0xFF else 0xFFFF)] c) (hw : c.work = .cancelOf ts true)
    (ht : ∀ t ∈ ts, ∀ x, s.cmdOf f (fld (word c.eff 2) 5 0) t.1 = some x → x.phase = .finished ∧
      (t.2 = true ∨ x.status ≠ 0 ∨ (fld (word c.eff 2) 5 0 = q ∧ n < t.1))) :
    Finishes (.cancel f q n) s f q n St.ok (ts.filter (fun t => t.2)).length (ts.filter (fun t => !t.2)).length := by
  have hall : ts.all (s.cancelOver f q n (cancelQueue c.eff)) = true :=
    List.all_eq_true.2 (fun t hm => State.cancelOver_of_finished (ht t hm))
  refine finishes_done h _ _ (h.work_reserved ?_)
  simp only [hw, hall, if_true]

theorem supplyTime_finishes {s : State} {f q n num : Nat} {c : Cmd} (hs : c.status = 0) (h : s.started f q n 0x02 = some c)
    (hw : c.work = .correlation num) (hd : s.mgmt.corrDue = []) : Finishes (.supplyTime f q n) s f q n St.ok num 0 :=
  finishes_stage h hs rfl (by simp only [hw, hd, List.isEmpty_nil, if_true])

theorem layoutLoad_finishes {s : State} {f q n k g : Nat} {c : Cmd} {l : Layout} (hs : c.status = 0)
    (h : s.started f q n 0x13 = some c) (hw : c.work = .layout k g) (hl : s.layoutOf c.ctx (lwLayout c.eff) = some l)
    (hp : l.phase = .acked) : Finishes (.layoutLoad f q n []) s f q n St.ok (lwLayout c.eff) 0 :=
  finishes_read (execLayoutLoad f q n [] s) h hs rfl rfl (by simp only [hw, hl, hp, if_true])

theorem layoutReplace_finishes {s : State} {f q n k : Nat} {c : Cmd} {l : Layout} (hs : c.status = 0)
    (h : s.started f q n 0x14 = some c) (hw : c.work = .layout k 3) (hl : s.layoutOf c.ctx (lwLayout c.eff) = some l)
    (hp : l.phase = .cutDone) : Finishes (.layoutReplace f q n []) s f q n St.ok (lwLayout c.eff) 0 :=
  finishes_read (execLayoutReplace f q n [] s) h hs rfl rfl (by simp [hw, hl, hp])

theorem layoutUnload_finishes {s : State} {f q n k : Nat} {c : Cmd} {l : Layout} (hs : c.status = 0)
    (h : s.started f q n 0x15 = some c) (hw : c.work = .layout k 3) (hl : s.layoutOf c.ctx (lwLayout c.eff) = some l)
    (hp : l.phase = .cutDone) : Finishes (.layoutUnload f q n) s f q n St.ok (lwLayout c.eff) 0 :=
  finishes_stage h hs rfl (by simp only [hw, hl, hp, if_true])

theorem placementMove_finishes {s : State} {f q n k a : Nat} {c : Cmd} {l : Layout} (hs : c.status = 0)
    (h : s.started f q n 0x16 = some c) (hw : c.work = .move k 2 a) (hl : s.layoutOf c.ctx (lwLayout c.eff) = some l)
    (hp : l.phase = .acked) : Finishes (.placementMove f q n []) s f q n St.ok (lwLayout c.eff) 0 :=
  finishes_read (execPlacementMove f q n [] s) h hs rfl rfl (by simp only [hw, hl, hp, if_true])

/-- A command with no slot left, no overflow and no malformed entry has nothing more to stream. -/
theorem State.streamsDone_of_none {s : State} {f q n op : Nat} {c : Cmd} (h : s.started f q n op = some c)
    (hslots : s.cmdSlots f q n = []) (ho : c.overflows = []) (hm : c.malformed = []) : s.streamsDone f q c = true := by
  have hn : c.n = n := by simpa using List.find?_some (s.started_cases f q n op c h).1
  simp [State.streamsDone, hn, hslots, ho, hm]

theorem run_finishes {s : State} {f q n total out : Nat} {c : Cmd} (hs : c.status = 0) (h : s.started f q n 0x30 = some c)
    (hw : c.work = .streams total out) (hslots : s.cmdSlots f q n = []) (ho : c.overflows = []) (hm : c.malformed = []) :
    Finishes (.run f q n []) s f q n St.ok total out :=
  finishes_read (execRun f q n [] s) h hs rfl rfl (by simp only [hw, State.streamsDone_of_none h hslots ho hm, if_true])

theorem streamLoad_finishes {s : State} {f q n total out : Nat} {c : Cmd} (hs : c.status = 0) (h : s.started f q n 0x31 = some c)
    (hw : c.work = .streams total out) (hslots : s.cmdSlots f q n = []) (ho : c.overflows = []) (hm : c.malformed = []) :
    Finishes (.streamLoad f q n []) s f q n St.ok out 0 :=
  finishes_read (execStreamLoad f q n [] s) h hs rfl rfl (by simp only [hw, State.streamsDone_of_none h hslots ho hm, if_true])

theorem lendRecall_finishes {s : State} {f q n i k released refused : Nat} {c : Cmd} (hs : c.status = 0)
    (h : s.started f q n 0x27 = some c) (hw : c.work = .recall i k released refused true) :
    Finishes (.lendRecall f q n) s f q n St.ok released refused :=
  finishes_stage h hs rfl (by simp only [hw, if_true])

theorem showdown_finishes {s : State} {f q n num : Nat} {c : Cmd} (hs : c.status = 0) (h : s.started f q n 0x81 = some c)
    (hw : c.work = .showdown num) (hheld : s.mgmt.showHeld = true) (hnum : s.mgmt.showNum = num)
    (hrec : s.mgmt.showRecorded = true) : Finishes (.showdown f q n) s f q n St.ok num (b2n s.mgmt.showIncomplete) :=
  finishes_stage h hs rfl (by simp [hw, hheld, hnum, hrec])

theorem State.chainParked_none {s : State} {ctx k : Nat} (h : s.sessOk ctx k = true → ∀ r ∈ s.chain ctx (s.sessOf k).tail,
    ∀ i ∈ s.slotEntries ctx (s.recOf ctx r), (s.bmOf i).state ≠ 2 ∧ (s.bmOf i).state ≠ 3) : s.chainParked ctx k = [] := by
  unfold State.chainParked
  split
  · next hok =>
    rw [List.filter_eq_nil_iff]
    intro i hi
    obtain ⟨r, hr, hir⟩ := List.mem_flatMap.1 hi
    obtain ⟨h2, h3⟩ := h hok r hr i hir
    simp [h2, h3]
  · rfl

theorem kvUnpark_finishes {s : State} {f q n root count : Nat} {c : Cmd} (h : s.Runs f q n 0x52 [(2, 0xFFF)] c)
    (hw : c.work = .kv root count)
    (hchain : s.sessOk c.ctx (sessionOf c.eff) = true → (s.sessOf (sessionOf c.eff)).state ≠ 5 ∧
      ∀ r ∈ s.chain c.ctx (s.sessOf (sessionOf c.eff)).tail, ∀ i ∈ s.slotEntries c.ctx (s.recOf c.ctx r),
        (s.bmOf i).state ≠ 2 ∧ (s.bmOf i).state ≠ 3) : Finishes (.kvUnpark f q n) s f q n St.ok count 0 := by
  have hgood := State.cancelling_good (fun hok => (hchain hok).1)
  have hnone := State.chainParked_none (fun hok => (hchain hok).2)
  refine finishes_done h count 0 (h.work_checked [s.cancelling c.ctx (sessionOf c.eff)] ?_ (by simp [hgood]))
  rw [sessionOf] at hnone
  simp only [hw, hnone, if_true]
  rfl

theorem jobOpen_finishes {s : State} {f q n : Nat} {id : Word} {c : Cmd} {j : Job} (hs : c.status = 0)
    (h : s.started f q n 0x70 = some c) (hw : c.work = .job id) (hj : s.jobOf c.ctx = some j) (hr : s.jobReady c.ctx j = true) :
    Finishes (.jobOpen f q n []) s f q n St.ok j.rank (s.circuitCount c.ctx) :=
  finishes_read (execJobOpen f q n [] s) h hs rfl rfl (by simp only [hw, hj, hr, if_true])

/-- Settles O3, command by command: what it waited for is there, and the row finishes it. That CANCEL finishes while a target has only a
status of its own, or stands behind it in its own queue, is the model's choice (log entry 100). -/
theorem longCommandsFinish : Obligations.LongCommandsFinish := by
  unfold Obligations.LongCommandsFinish
  intro s f q n c hs
  exact ⟨fun _ => cancel_finishes, fun _ => supplyTime_finishes hs, fun _ _ _ => layoutLoad_finishes hs,
    fun _ _ => layoutReplace_finishes hs, fun _ _ => layoutUnload_finishes hs, fun _ _ _ => placementMove_finishes hs,
    fun _ _ => run_finishes hs, fun _ _ => streamLoad_finishes hs, fun _ _ _ _ => lendRecall_finishes hs,
    fun _ => showdown_finishes hs, fun _ _ => kvUnpark_finishes, fun _ _ => jobOpen_finishes hs⟩

end Sys2Proof.Machine
end

section
/-! Queues (R56, R57, R59, R60, R64): what a message leaves in them, and what doorbells and Q_CONTROL do. -/
namespace Sys2Proof.Machine

/-! ### Messages leave the queues alone -/

theorem State.queueOf_modFn {s : State} {f : Nat} {g : Fn → Fn} (h : ∀ x, (g x).queues = x.queues) (i j : Nat) :
    (s.modFn f g).queueOf i j = s.queueOf i j := by
  rw [State.queueOf, State.fnOf_modFn]
  split
  · next hi => rw [h, hi, State.queueOf]
  · rfl

theorem State.modVec_queueOf (s : State) (f v : Nat) (g : Vec → Vec) (i j : Nat) : (s.modVec f v g).queueOf i j = s.queueOf i j :=
  State.queueOf_modFn (g := fun x => x.modVec v g) (fun _ => rfl) i j

theorem State.sendMsg_queueOf (s : State) (f v i j : Nat) : (s.sendMsg f v).queueOf i j = s.queueOf i j := s.modVec_queueOf ..

theorem State.dueOnce_queueOf (s : State) (f v i j : Nat) : (s.dueOnce f v).1.queueOf i j = s.queueOf i j := by
  unfold State.dueOnce
  extract_lets x
  split_ifs
  · rfl
  · exact State.queueOf_modFn (by exact fun _ => rfl) i j
  · exact s.modVec_queueOf ..
  · exact s.modVec_queueOf ..
  · exact s.sendMsg_queueOf ..

theorem State.markCause_queueOf (s : State) (p b i j : Nat) : (s.markCause p b).1.queueOf i j = s.queueOf i j := by
  unfold State.markCause
  dsimp only
  split
  · rfl
  · exact State.queueOf_modFn (by exact fun _ => rfl) i j

theorem State.due_queueOf (s : State) (f v i j : Nat) : (s.due f v).queueOf i j = s.queueOf i j := by
  unfold State.due
  split
  next s1 held h1 =>
  have hs1 : s1.queueOf i j = s.queueOf i j := by rw [← s.dueOnce_queueOf f v, h1]
  split
  · split
    next s2 m h2 =>
    have hs2 : s2.queueOf i j = s1.queueOf i j := by rw [← s1.markCause_queueOf f 6, h2]
    split
    · rw [State.dueOnce_queueOf, hs2, hs1]
    · rw [hs2, hs1]
  · exact hs1

theorem State.cause_queueOf (s : State) (p b i j : Nat) : (s.cause p b).queueOf i j = s.queueOf i j := by
  unfold State.cause
  split
  next s1 m h1 =>
  have hs1 : s1.queueOf i j = s.queueOf i j := by rw [← s.markCause_queueOf p b, h1]
  split
  · rw [State.due_queueOf, hs1]
  · exact hs1

/-! ### Doorbells -/

theorem Queue.takesDoorbell_iff (x : Queue) : x.takesDoorbell = true ↔ x.state = .running ∨ x.state = .stopped := by
  simp [Queue.takesDoorbell]

theorem execSqTailDoorbell_live {s : State} {f q : Nat} (value : Nat) (hl : s.fnLive f = true) (hq : q < 64) :
    exec (.sqTailDoorbell f q value) s = .next (s.writeSqTail f q value) := by
  show execSqTailDoorbell f q value s = _
  rw [execSqTailDoorbell, onlyIf, if_pos (by simp [hl, hq])]

theorem execCqHeadDoorbell_live {s : State} {f q : Nat} (value : Nat) (hl : s.fnLive f = true) (hq : q < 64) :
    exec (.cqHeadDoorbell f q value) s = .next (s.writeCqHead f q value) := by
  show execCqHeadDoorbell f q value s = _
  rw [execCqHeadDoorbell, onlyIf, if_pos (by simp [hl, hq])]

theorem sqTailDoorbell_moves {s : State} {f q value : Nat} (hq : q < 64) (hl : s.fnLive f = true) (hh : s.cp.halted = false)
    (ht : (s.queueOf f q).takesDoorbell = true) (hv : value % 65536 ≤ (s.queueOf f q).sqSizeM1) :
    exec (.sqTailDoorbell f q value) s = .next (s.modQueue f q (fun x => { x with sqTail := value % 65536 })) := by
  rw [execSqTailDoorbell_live value hl hq, State.writeSqTail, if_neg (by simp [hh, ht, Nat.not_lt.2 hv])]

theorem cqHeadDoorbell_moves {s : State} {f q value size : Nat} (hq : q < 64) (hl : s.fnLive f = true)
    (ht : (s.queueOf f q).takesDoorbell = true) (hs : size = (s.queueOf f q).cqSizeM1 + 1) (hv : value % 65536 < size)
    (hroom : (value % 65536 + size - (s.queueOf f q).cqHead) % size ≤
      ((s.queueOf f q).cqTail + size - (s.queueOf f q).cqHead) % size) :
    exec (.cqHeadDoorbell f q value) s = .next (s.modQueue f q (fun x => { x with cqHead := value % 65536 })) := by
  subst hs
  rw [execCqHeadDoorbell_live value hl hq, State.writeCqHead,
    if_neg (by simp [ht, Nat.not_lt.2 (Nat.le_of_lt_succ hv), Nat.not_lt.2 hroom])]

/-- An ignored doorbell write sets DB_ERR in its queue, and QUEUE_ERROR, whose message may leave (R60). -/
theorem State.dbError_queueOf (s : State) (f q : Nat) : (s.dbError f q).queueOf f q = { s.queueOf f q with dbErr := true } := by
  rw [State.dbError, State.cause_queueOf, State.queueOf_modQueue_self]

theorem State.dbError_queueOf_ne (s : State) (f q g k : Nat) (h : g ≠ f ∨ k ≠ q) : (s.dbError f q).queueOf g k = s.queueOf g k := by
  rw [State.dbError, State.cause_queueOf, State.queueOf_modQueue, if_neg (by tauto)]

theorem answers_dbError {i : Instr} {s : State} {f q : Nat} (h : exec i s = .next (s.dbError f q)) :
    Answers i s [.cp, .host] (fun t => t.queueOf f q = { s.queueOf f q with dbErr := true } ∧
      ∀ g k, (g ≠ f ∨ k ≠ q) → t.queueOf g k = s.queueOf g k) :=
  ⟨_, h, ((s.only_modQueue f q _).mono _ (by decide)).trans (State.only_cause ..), s.dbError_queueOf f q,
    s.dbError_queueOf_ne f q⟩

/-- Settles O44: each ignored value takes its write to `State.dbError`. -/
theorem ignoredDoorbellsSetDbErr : Obligations.IgnoredDoorbellsSetDbErr := by
  unfold Obligations.IgnoredDoorbellsSetDbErr
  rintro s f q v x hl hq rfl -
  refine ⟨fun hv => answers_dbError ?_, fun hv => answers_dbError ?_⟩
  · rw [execSqTailDoorbell_live v hl hq, State.writeSqTail, if_pos (by simp [Nat.lt_of_succ_le hv])]
  · rw [execCqHeadDoorbell_live v hl hq, State.writeCqHead, if_pos]
    rcases hv with hv | hv
    · simp [Nat.lt_of_succ_le hv]
    · simp [hv]

/-! ### Q_CONTROL -/

/-- The state a write of Q_CONTROL begins with: its fields are in. -/
def State.setControl (s : State) (f q : Nat) (v : Word) : State := s.modQueue f q (fun x => x.controlFields v)

theorem State.setControl_queueOf (s : State) (f q : Nat) (v : Word) :
    (s.setControl f q v).queueOf f q = (s.queueOf f q).controlFields v := s.queueOf_modQueue_self f q _

theorem State.writeControl_enable {s : State} {f q : Nat} {v : Word} (hv : bit v 0 = true) (hd : (s.queueOf f q).state = .disabled)
    (hp : s.partEnabled f = true) (hc : (s.queueOf f q).configOk = true) :
    s.writeControl f q v = (s.setControl f q v).modQueue f q (fun x => { x.cleared with state := .running }) := by
  unfold State.writeControl
  extract_lets s1 x
  have hx : x = (s.queueOf f q).controlFields v := s.setControl_queueOf f q v
  have hst : x.state = .disabled := by rw [hx]; exact hd
  have hok : (x.configOk && s1.partEnabled f) = true := by rw [hx]; exact Bool.and_eq_true_iff.2 ⟨hc, hp⟩
  simp only [hst, hv, hok, if_true]
  rfl

/-- A running or stopped queue whose ENABLE is written 0 or QUEUE_RESET 1 is reset. -/
theorem State.writeControl_reset {s : State} {f q : Nat} {v : Word} (ht : (s.queueOf f q).takesDoorbell = true)
    (hv : bit v 0 = false ∨ bit v 3 = true) : s.writeControl f q v = (s.setControl f q v).enterReset f q := by
  unfold State.writeControl
  extract_lets s1 x
  have hx : x = (s.queueOf f q).controlFields v := s.setControl_queueOf f q v
  have hreset : (!bit v 0 || bit v 3) = true := by simpa using hv
  rcases (Queue.takesDoorbell_iff _).1 ht with hr | hr
  · have hst : x.state = .running := by rw [hx]; exact hr
    simp only [hst, hreset, if_true]
    rfl
  · have hst : x.state = .stopped := by rw [hx]; exact hr
    simp only [hst, hreset, if_true]
    rfl

theorem State.writeControl_resume {s : State} {f q : Nat} {v : Word} (h0 : bit v 0 = true) (h2 : bit v 2 = true)
    (h3 : bit v 3 = false) (hs : (s.queueOf f q).state = .stopped) :
    s.writeControl f q v = (s.setControl f q v).modQueue f q (fun x => { x with state := .running }) := by
  unfold State.writeControl
  extract_lets s1 x
  have hx : x = (s.queueOf f q).controlFields v := s.setControl_queueOf f q v
  have hst : x.state = .stopped := by rw [hx]; exact hs
  simp only [hst, h0, h2, h3, Bool.not_true, Bool.or_self, Bool.false_eq_true, if_false, if_true]
  rfl

/-- A queue that enters RESETTING keeps of its window only what R57 lets go on. -/
theorem State.enterReset_queueOf (s : State) (f q : Nat) : ((s.enterReset f q).queueOf f q).state = .resetting ∧
    ∀ c ∈ ((s.enterReset f q).queueOf f q).window, c.outlivesReset = true := by
  rw [State.enterReset, State.queueOf_modQueue_self]
  exact ⟨rfl, fun c hc => (List.mem_filter.1 hc).2⟩

theorem queueEnable_runs {s : State} {f q : Nat} {v : Word} (hq : q < 64) (hl : s.fnLive f = true) (hv : bit v 0 = true)
    (hd : (s.queueOf f q).state = .disabled) (hp : s.partEnabled f = true) (hc : (s.queueOf f q).configOk = true) :
    exec (.queueEnable f q v) s = .next (s.modQueue f q (fun x => { (x.controlFields v).cleared with state := .running })) := by
  show execQueueEnable f q v s = _
  rw [execQueueEnable, onlyIf, if_pos (by simp [hl, hq, hv, State.qstate, hd]), State.writeControl_enable hv hd hp hc,
    State.setControl, State.modQueue_modQueue]

theorem queueDisable_resets {s : State} {f q : Nat} {v : Word} (hq : q < 64) (hl : s.fnLive f = true) (hv : bit v 0 = false)
    (ht : (s.queueOf f q).takesDoorbell = true) : exec (.queueDisable f q v) s = .next ((s.setControl f q v).enterReset f q) := by
  show execQueueDisable f q v s = _
  rw [execQueueDisable, onlyIf, if_pos (by rw [hl, decide_eq_true hq, hv]; exact ht),
    State.writeControl_reset ht (.inl hv)]

theorem queueReset_resets {s : State} {f q : Nat} {v : Word} (hq : q < 64) (hl : s.fnLive f = true) (hv : bit v 3 = true)
    (ht : (s.queueOf f q).takesDoorbell = true) : exec (.queueReset f q v) s = .next ((s.setControl f q v).enterReset f q) := by
  show execQueueReset f q v s = _
  rw [execQueueReset, onlyIf, if_pos (by rw [hl, decide_eq_true hq, hv]; exact ht),
    State.writeControl_reset ht (.inr hv)]

theorem queueResume_runs {s : State} {f q : Nat} {v : Word} (hq : q < 64) (hl : s.fnLive f = true) (h0 : bit v 0 = true)
    (h2 : bit v 2 = true) (h3 : bit v 3 = false) (hs : (s.queueOf f q).state = .stopped) :
    exec (.queueResume f q v) s = .next (s.modQueue f q (fun x => { x.controlFields v with state := .running })) := by
  show execQueueResume f q v s = _
  rw [execQueueResume, onlyIf, if_pos (by simp [hl, hq, h0, h2, h3]), State.writeControl_resume h0 h2 h3 hs, State.setControl,
    State.modQueue_modQueue]

theorem queueResetDone_disables {s : State} {f q : Nat} (hs : (s.queueOf f q).state = .resetting)
    (hw : (s.queueOf f q).window = []) (hp : (s.partOf f).resetting = false) :
    exec (.queueResetDone f q) s = .next (s.modQueue f q (fun x => { x.cleared with state := .disabled })) := by
  show execQueueResetDone f q s = _
  rw [execQueueResetDone, onlyIf, if_pos (by simp [State.qstate, hs, hw, hp])]

/-- Settles O8: each doorbell and each write of Q_CONTROL by the lemma that says what it leaves. -/
theorem queueRegistersAct : Obligations.QueueRegistersAct := by
  unfold Obligations.QueueRegistersAct
  intro s f q value v hq
  refine ⟨sqTailDoorbell_moves hq, fun size => cqHeadDoorbell_moves hq, fun hl hv hd hp h1 h2 h3 h4 => ?_, fun hl hv ht => ?_,
    fun hl hv ht => ?_, queueResume_runs hq, queueResetDone_disables⟩
  · exact queueEnable_runs hq hl hv hd hp (by simp [Queue.configOk, h1, h2, h3, h4])
  · exact ⟨_, queueDisable_resets hq hl hv ht, State.enterReset_queueOf ..⟩
  · exact ⟨_, queueReset_resets hq hl hv ht, State.enterReset_queueOf ..⟩

/-! ### Commands that wait for those before them -/

theorem execCommandStart_held {s : State} {f q n : Nat} {errs : List MemErr} {h c : Cmd} {r : List Cmd}
    (hw : (s.queueOf f q).window = h :: r) (hc : s.cmdOf f q n = some c) (hn : h.n ≠ n)
    (hdep : indirectOf c.words = true ∨ depOf c.words = true) : exec (.commandStart f q n errs) s = .next s := by
  have hwaits : (depOf c.words || indirectOf c.words) = true := by simpa [or_comm] using hdep
  show execCommandStart f q n errs s = _
  simp only [execCommandStart, hc, hw, onlyIf]
  rw [if_neg (by simp [hn, hwaits])]

theorem State.aheadAllowed_false {s : State} {f q n : Nat} {c : Cmd} (hm : c ∈ (s.queueOf f q).window) (hn : c.n ≤ n)
    (hp : c.phase = .fetched) (hdep : indirectOf c.words = true ∨ depOf c.words = true) : s.aheadAllowed f q n = false := by
  have hwaits : (depOf c.words || indirectOf c.words) = true := by simpa [or_comm] using hdep
  rw [State.aheadAllowed, List.all_eq_false]
  exact ⟨c, hm, by simp [hn, hp, hwaits]⟩

/-- Settles O52: DEP and INDIRECT stand together in both conditions. -/
theorem indirectHoldsLikeDep : Obligations.IndirectHoldsLikeDep := by
  unfold Obligations.IndirectHoldsLikeDep
  exact ⟨fun s f q n errs h c r => execCommandStart_held, fun s f q n c => State.aheadAllowed_false⟩

end Sys2Proof.Machine
end

section
/-! Fetching a packet (R59, R62, R65, R66, R430), and the two messages that time brings (R82, R427). -/
namespace Sys2Proof.Machine

/-! ### Vectors -/

theorem State.vecOf_modVec (s : State) (f v w : Nat) (g : Vec → Vec) :
    ((s.modVec f v g).fnOf f).vecOf w = if w = v then g ((s.fnOf f).vecOf v) else (s.fnOf f).vecOf w := by
  rw [State.modVec, State.fnOf_modFn_self]
  exact tget_tmod ..

@[simp] theorem State.vecOf_modVec_self (s : State) (f v : Nat) (g : Vec → Vec) :
    ((s.modVec f v g).fnOf f).vecOf v = g ((s.fnOf f).vecOf v) := by rw [State.vecOf_modVec, if_pos rfl]

theorem State.vecOf_modVec_ne (s : State) (f v w : Nat) (g : Vec → Vec) (h : w ≠ v) :
    ((s.modVec f v g).fnOf f).vecOf w = (s.fnOf f).vecOf w := by rw [State.vecOf_modVec, if_neg h]

theorem State.vecOf_modQueue (s : State) (f q v : Nat) (g : Queue → Queue) :
    ((s.modQueue f q g).fnOf f).vecOf v = (s.fnOf f).vecOf v := by rw [State.modQueue, State.fnOf_modFn_self]; rfl

theorem State.vecBlocked_modQueue (s : State) (f q v : Nat) (g : Queue → Queue) :
    ((s.modQueue f q g).fnOf f).vecBlocked v = (s.fnOf f).vecBlocked v := by rw [State.modQueue, State.fnOf_modFn_self]; rfl

/-- A message that leaves takes its vector's address and data with it. -/
theorem State.sendMsg_msgs (s : State) (f v : Nat) : (s.sendMsg f v).host.msgs =
    s.host.msgs ++ [⟨f, v, ((s.fnOf f).vecOf v).addr, ((s.fnOf f).vecOf v).data⟩] := rfl

theorem State.sendMsg_vecOf (s : State) (f v : Nat) : ((s.sendMsg f v).fnOf f).vecOf v = { (s.fnOf f).vecOf v with
    pending := false, held := false,
    tokens := if s.intRate f = 0 then ((s.fnOf f).vecOf v).tokens else ((s.fnOf f).vecOf v).tokens - 1 } :=
  s.vecOf_modVec_self f v _

/-- On a vector that is neither masked nor held, without a rate, a message that falls due leaves. -/
theorem State.due_sends {s : State} {f v : Nat} (hr : (s.partOf f).resetting = false) (hh : ((s.fnOf f).vecOf v).held = false)
    (hb : (s.fnOf f).vecBlocked v = false) (hi : s.intRate f = 0) : s.due f v = s.sendMsg f v := by
  have honce : s.dueOnce f v = (s.sendMsg f v, false) := by simp [State.dueOnce, hr, hh, hb, hi]
  simp [State.due, honce]

/-! ### Timed messages -/

theorem execCoalesceTimeout_due {s : State} {f q : Nat} (he : (s.queueOf f q).eligible ≠ 0) (ht : (s.queueOf f q).coalTime ≠ 0) :
    exec (.coalesceTimeout f q) s =
      .next ((s.modQueue f q (fun y => { y with eligible := 0 })).due f (s.queueOf f q).vector) := by
  show execCoalesceTimeout f q s = _
  rw [execCoalesceTimeout, onlyIf, if_pos (by simp [he, ht])]

theorem coalesceTimeout_signals {s : State} {f q : Nat} {x : Queue} (hx : x = s.queueOf f q) (he : x.eligible ≠ 0)
    (ht : x.coalTime ≠ 0) :
    Answers (.coalesceTimeout f q) s [.cp, .host] (fun t => (t.queueOf f q).eligible = 0 ∧
      ((s.partOf f).resetting = false → ((s.fnOf f).vecOf x.vector).held = false → (s.fnOf f).vecBlocked x.vector = false →
        s.intRate f = 0 → t.host.msgs = s.host.msgs ++
          [⟨f, x.vector, ((s.fnOf f).vecOf x.vector).addr, ((s.fnOf f).vecOf x.vector).data⟩])) := by
  subst hx
  refine ⟨_, execCoalesceTimeout_due he ht, ((s.only_modQueue f q _).mono _ (by decide)).trans (State.only_due ..), ?_,
    fun hr hh hb hi => ?_⟩
  · rw [State.due_queueOf, State.queueOf_modQueue_self]
  · rw [State.due_sends (by exact hr) (by rw [State.vecOf_modQueue]; exact hh) (by rw [State.vecBlocked_modQueue]; exact hb)
      (by exact hi), State.sendMsg_msgs, State.vecOf_modQueue]
    rfl

/-- A vector's bucket takes a token, up to 8 (R427). -/
def Vec.refill (x : Vec) : Vec := { x with tokens := min 8 (x.tokens + 1) }

theorem execRateToken_free {s : State} {f v : Nat} (hi : s.intRate f ≠ 0) (hr : (s.partOf f).resetting = false)
    (hh : ((s.fnOf f).vecOf v).held = false) : exec (.rateToken f v) s = .next (s.modVec f v Vec.refill) := by
  show execRateToken f v s = _
  simp [execRateToken, onlyIf, hi, hr, hh]
  rfl

theorem execRateToken_held {s : State} {f v : Nat} (hi : s.intRate f ≠ 0) (hr : (s.partOf f).resetting = false)
    (hh : ((s.fnOf f).vecOf v).held = true) (hb : (s.fnOf f).vecBlocked v = false) :
    exec (.rateToken f v) s = .next ((s.modVec f v Vec.refill).sendMsg f v) := by
  show execRateToken f v s = _
  simp [execRateToken, onlyIf, hi, hr, hh, hb]
  rfl

theorem rateToken_refills {s : State} {f v : Nat} {x : Vec} (hx : x = (s.fnOf f).vecOf v) (hi : s.intRate f ≠ 0)
    (hr : (s.partOf f).resetting = false) (hh : x.held = false) :
    Answers (.rateToken f v) s [.cp] (fun t => (t.fnOf f).vecOf v = { x with tokens := min 8 (x.tokens + 1) } ∧
      ∀ w, w ≠ v → (t.fnOf f).vecOf w = (s.fnOf f).vecOf w) := by
  subst hx
  exact ⟨_, execRateToken_free hi hr hh, s.only_modFn f _, s.vecOf_modVec_self f v _, fun w => s.vecOf_modVec_ne f v w _⟩

theorem rateToken_sendsHeld {s : State} {f v : Nat} {x : Vec} (hx : x = (s.fnOf f).vecOf v) (hi : s.intRate f ≠ 0)
    (hr : (s.partOf f).resetting = false) (hh : x.held = true) (hb : (s.fnOf f).vecBlocked v = false) :
    Answers (.rateToken f v) s [.cp, .host] (fun t => ((t.fnOf f).vecOf v).held = false ∧
      ((t.fnOf f).vecOf v).tokens = min 8 (x.tokens + 1) - 1 ∧ t.host.msgs = s.host.msgs ++ [⟨f, v, x.addr, x.data⟩]) := by
  subst hx
  have hrate : (s.modVec f v Vec.refill).intRate f ≠ 0 := hi
  refine ⟨_, execRateToken_held hi hr hh hb, ((s.only_modFn f _).mono _ (by decide)).trans (State.only_sendMsg ..), ?_, ?_, ?_⟩
  · rw [State.sendMsg_vecOf]
  · rw [State.sendMsg_vecOf, if_neg hrate, State.vecOf_modVec_self]
    rfl
  · rw [State.sendMsg_msgs, State.vecOf_modVec_self]
    rfl

/-! ### Fetching -/

/-- The window takes a packet: the command enters it with the next serial number, and SQ_HEAD moves round the ring (R59). -/
def Queue.fetched (x : Queue) (c : Cmd) : Queue :=
  { x with window := x.window ++ [c], nextN := x.nextN + 1, sqHead := (x.sqHead + 1) % (x.sqSizeM1 + 1) }

/-- The state after queue q of function f has fetched a packet as command c. -/
def State.fetched (s : State) (f q : Nat) (c : Cmd) : State :=
  (s.modQueue f q (fun x => x.fetched c)).modFn f (fun g => { g with fetchFrom := (q + 1) % 64 })

/-- The command a packet is before its header is looked at. -/
def packetCmd (n : Nat) (packet : List Word) : Cmd := { n := n, words := packet, eff := packet }

theorem commandFetch_good {s : State} {f q : Nat} {packet : List Word} (hf : s.canFetch f q = true) (hp : packet.length = 16)
    (hv : s.headerVerdict f packet = none) :
    exec (.commandFetch f q packet) s = .next (s.fetched f q (packetCmd (s.queueOf f q).nextN packet)) := by
  show execCommandFetch f q packet s = _
  rw [execCommandFetch, onlyIf, if_pos (by simp [hf, hp]), hv]
  rfl

/-- A packet whose header the checks refuse enters the window as a command that has finished with their verdict (R65, R66). -/
theorem commandFetch_bad {s : State} {f q : Nat} {packet : List Word} {v : Verdict} (hf : s.canFetch f q = true)
    (hp : packet.length = 16) (hv : s.headerVerdict f packet = some v) :
    exec (.commandFetch f q packet) s = .next (s.fetched f q { packetCmd (s.queueOf f q).nextN packet with
      phase := .finished, status := v.status, resA := w32 v.a, resB := w32 v.b }) := by
  show execCommandFetch f q packet s = _
  rw [execCommandFetch, onlyIf, if_pos (by simp [hf, hp]), hv]
  dsimp only
  rw [Cmd.finish_clean _ _ (fun h => CmdPhase.noConfusion h) rfl]
  rfl

/-- Settles O9: the fetch by its header's verdict, and each timed message by the vector it goes out on. -/
theorem fetchTakesThePacket : Obligations.FetchTakesThePacket := by
  unfold Obligations.FetchTakesThePacket
  exact fun s f q => ⟨fun packet => commandFetch_good, fun packet v => commandFetch_bad, fun x => coalesceTimeout_signals,
    fun v x => rateToken_refills, fun v x => rateToken_sendsHeld⟩

end Sys2Proof.Machine
end

section
/-! Which of several statuses is reported (R86), and the state in cold reset. -/
namespace Sys2Proof.Machine

/-! ### The order of R86 -/

/-- The rank of a class is its place in the order of R86. -/
theorem classRank_eq_idxOf : ∀ k, 1 ≤ k → k ≤ 8 → classRank k = ([6, 5, 4, 8, 2, 7, 3, 1] : List Nat).idxOf k := by decide

/-- u comes no later than v in the order of R86: an earlier class, or the same rank and no greater code. -/
def Verdict.noLater (u v : Verdict) : Prop :=
  classRank (statusClass u.status) < classRank (statusClass v.status) ∨
  classRank (statusClass u.status) = classRank (statusClass v.status) ∧ u.status ≤ v.status

theorem Verdict.noLater.refl (u : Verdict) : u.noLater u := .inr ⟨rfl, Nat.le_refl _⟩

theorem Verdict.noLater.trans {u v w : Verdict} (h : u.noLater v) (k : v.noLater w) : u.noLater w := by
  unfold Verdict.noLater at *
  omega

theorem Verdict.not_before_iff (u v : Verdict) : statusBefore v.status u.status = false ↔ u.noLater v := by
  simp only [statusBefore, Verdict.noLater, Bool.or_eq_false_iff, Bool.and_eq_false_iff, decide_eq_false_iff_not]
  omega

/-- Of two verdicts the one reported is one of them and comes no later than either. -/
theorem Verdict.pick_spec (u v : Verdict) : (u.pick v = u ∨ u.pick v = v) ∧ (u.pick v).noLater u ∧ (u.pick v).noLater v := by
  unfold Verdict.pick
  split
  · next h =>
    refine ⟨.inr rfl, ?_, .refl v⟩
    rw [← Verdict.not_before_iff]
    simp only [statusBefore, Bool.or_eq_true, Bool.and_eq_true, decide_eq_true_eq, Bool.or_eq_false_iff, Bool.and_eq_false_iff,
      decide_eq_false_iff_not] at *
    omega
  · next h => exact ⟨.inl rfl, .refl u, (Verdict.not_before_iff u v).1 (by simpa using h)⟩

/-- So it is over a list, taken one after the other. -/
theorem Verdict.foldl_pick_spec (vs : List Verdict) (v : Verdict) :
    vs.foldl Verdict.pick v ∈ v :: vs ∧ ∀ u ∈ v :: vs, (vs.foldl Verdict.pick v).noLater u := by
  induction vs generalizing v with
  | nil => exact ⟨List.mem_singleton.2 rfl, by simp [Verdict.noLater.refl]⟩
  | cons w vs ih =>
    obtain ⟨hmem, hle⟩ := ih (v.pick w)
    obtain ⟨hpick, hv, hw⟩ := v.pick_spec w
    have hfirst := hle _ List.mem_cons_self
    refine ⟨?_, fun u hu => ?_⟩
    · rcases List.mem_cons.1 hmem with e | hm
      · rw [List.foldl_cons, e]
        rcases hpick with e' | e' <;> simp [e']
      · exact List.mem_cons_of_mem _ (List.mem_cons_of_mem _ hm)
    · rcases List.mem_cons.1 hu with rfl | hu
      · exact hfirst.trans hv
      · rcases List.mem_cons.1 hu with rfl | hu
        · exact hfirst.trans hw
        · exact hle u (List.mem_cons_of_mem _ hu)

/-- Among classes 1 to 8 the order is that of the list in R86. -/
theorem Verdict.noLater.order {u v : Verdict} (h : u.noLater v) (hu : 1 ≤ statusClass u.status ∧ statusClass u.status ≤ 8)
    (hv : 1 ≤ statusClass v.status ∧ statusClass v.status ≤ 8) :
    ([6, 5, 4, 8, 2, 7, 3, 1] : List Nat).idxOf (statusClass u.status) ≤ ([6, 5, 4, 8, 2, 7, 3, 1] : List Nat).idxOf (statusClass v.status) ∧
      (statusClass v.status = statusClass u.status → u.status ≤ v.status) := by
  rw [← classRank_eq_idxOf _ hu.1 hu.2, ← classRank_eq_idxOf _ hv.1 hv.2]
  refine ⟨?_, fun e => ?_⟩
  · rcases h with h | ⟨h, -⟩ <;> omega
  · rcases h with h | ⟨-, h⟩
    · rw [e] at h; omega
    · exact h

theorem pickVerdict_gravest {vs : List Verdict} (hne : vs ≠ [])
    (hc : ∀ v ∈ vs, 1 ≤ statusClass v.status ∧ statusClass v.status ≤ 8) :
    ∃ v, pickVerdict vs = some v ∧ v ∈ vs ∧ ∀ u ∈ vs,
      ([6, 5, 4, 8, 2, 7, 3, 1] : List Nat).idxOf (statusClass v.status) ≤ ([6, 5, 4, 8, 2, 7, 3, 1] : List Nat).idxOf (statusClass u.status) ∧
      (statusClass u.status = statusClass v.status → v.status ≤ u.status) := by
  cases vs with
  | nil => exact absurd rfl hne
  | cons v vs =>
    obtain ⟨hmem, hle⟩ := Verdict.foldl_pick_spec vs v
    exact ⟨_, rfl, hmem, fun u hu => (hle u hu).order (hc _ hmem) (hc u hu)⟩

/-- A command that has finished and meets a second verdict holds the one reported of the two. -/
theorem Cmd.finish_second {c : Cmd} (v : Verdict) (hp : c.phase = .finished) :
    c.finish v = { c with
      phase := .finished, status := ((⟨c.status, c.resA.toNat, c.resB.toNat⟩ : Verdict).pick v).status,
      resA := w32 ((⟨c.status, c.resA.toNat, c.resB.toNat⟩ : Verdict).pick v).a,
      resB := w32 ((⟨c.status, c.resA.toNat, c.resB.toNat⟩ : Verdict).pick v).b } := by
  simp [Cmd.finish, hp]

/-- Settles O48: one reported of a list is the least in the order of `Verdict.noLater`; the checks and a second verdict report so. -/
theorem theGravestStatusIsReported : Obligations.TheGravestStatusIsReported := by
  unfold Obligations.TheGravestStatusIsReported
  refine ⟨fun vs => pickVerdict_gravest, fun cs => rfl, ?_⟩
  rintro c v w hp rfl - - - -
  refine ⟨_, rfl, ?_⟩
  rw [Cmd.finish_second v hp]
  exact ⟨rfl, rfl, rfl⟩

/-! ### Cold reset -/

/-- Settles O40: every table and memory of the reset state is empty, so each of its entries reads as its structure's defaults. That the
vectors are masked is the model's choice (log entry 36). -/
theorem resetHoldsItsValues : Obligations.ResetHoldsItsValues := by
  unfold Obligations.ResetHoldsItsValues
  have hqueue : ∀ f q, State.reset.queueOf f q = {} := fun _ _ => rfl
  have hfn : ∀ f, State.reset.fnOf f = {} := fun _ => rfl
  have hvec : ∀ v, ({} : Fn).vecOf v = {} := fun _ => rfl
  have hctx : ∀ c, State.reset.ctxOf c = {} := fun _ => rfl
  have hpart : ∀ p, State.reset.partOf p = {} := fun _ => rfl
  have hdie : ∀ d, State.reset.dieOf d = {} := fun _ => rfl
  simp only [State.ctxLive, hqueue, hfn, hvec, hctx, hpart, hdie]
  simp [State.reset, cellGet]

end Sys2Proof.Machine
end

section
/-! The ring registers of a queue (R58): no write of its register block changes them unless the queue is DISABLED, and then the one written
reads what was written. -/
namespace Sys2Proof.Machine

/-! ### What ending a command leaves of the queues -/

/-- The registers of a queue, its window left out. -/
def Queue.regs (x : Queue) : Queue := { x with window := [] }

/-- From s to t no queue differs in more than its window. -/
structure State.SameRegs (s t : State) : Prop where
  regs : ∀ f q, (t.queueOf f q).regs = (s.queueOf f q).regs

theorem State.SameRegs.refl (s : State) : s.SameRegs s := ⟨fun _ _ => rfl⟩

theorem State.SameRegs.trans {s t u : State} (h : s.SameRegs t) (k : t.SameRegs u) : s.SameRegs u :=
  ⟨fun f q => (k.regs f q).trans (h.regs f q)⟩

theorem State.SameRegs.of_cp {s t : State} (h : t.cp = s.cp) : s.SameRegs t :=
  ⟨fun f q => by rw [State.queueOf, State.queueOf, State.fnOf, State.fnOf, h]⟩

theorem State.SameRegs.foldl {α : Type} {s : State} (l : List α) (g : State → α → State) (hg : ∀ (u : State) x, u.SameRegs (g u x)) :
    s.SameRegs (l.foldl g s) := by
  induction l generalizing s with
  | nil => exact .refl s
  | cons x l ih => exact (hg s x).trans ih

theorem State.sameRegs_modCmd (s : State) (f q n : Nat) (g : Cmd → Cmd) : s.SameRegs (s.modCmd f q n g) := by
  refine ⟨fun i j => ?_⟩
  rw [State.modCmd, State.queueOf_modQueue]
  split
  · next h => rw [h.1, h.2]; rfl
  · rfl

theorem State.sameRegs_dropShadows (s : State) (f q n : Nat) : s.SameRegs (s.dropShadows f q n) := by
  unfold State.dropShadows
  split
  · exact .refl s
  · next c _ =>
    extract_lets s1 s2
    have h1 : s1.cp = s.cp := State.foldl_cp _ _ (fun u p => u.dropFrame_cp _)
    have h2 : s2.cp = s1.cp := State.foldl_cp _ _ (fun u p => by split <;> simp)
    exact (State.SameRegs.of_cp (h2.trans h1)).trans (s2.sameRegs_modCmd ..)

theorem State.sameRegs_release (s : State) (f q n : Nat) : s.SameRegs (s.release f q n) := by
  unfold State.release
  split
  · exact .refl s
  · next c _ =>
    have h1 : s.SameRegs ((s.undoWork f q n c).endStreams f q n) := .of_cp (by simp)
    exact (h1.trans (State.sameRegs_dropShadows ..)).trans (State.sameRegs_modCmd ..)

/-! ### The rings of a queue that is not DISABLED -/

/-- The ring registers: both bases and both sizes. -/
def Queue.ring (x : Queue) : W64 × W64 × Nat × Nat := (x.sqBase, x.cqBase, x.sqSizeM1, x.cqSizeM1)

/-- An update of a queue keeps its rings: where it is not DISABLED it does not become so, and its ring registers stay. -/
def Queue.KeepsRing (x y : Queue) : Prop := x.state ≠ .disabled → y.state ≠ .disabled ∧ y.ring = x.ring

theorem Queue.KeepsRing.refl (x : Queue) : x.KeepsRing x := fun h => ⟨h, rfl⟩

theorem Queue.KeepsRing.trans {x y z : Queue} (h : x.KeepsRing y) (k : y.KeepsRing z) : x.KeepsRing z :=
  fun hx => ⟨(k (h hx).1).1, (k (h hx).1).2.trans (h hx).2⟩

/-- From s to t every queue keeps its rings. -/
structure State.KeepsRings (s t : State) : Prop where
  queues : ∀ g k, (s.queueOf g k).KeepsRing (t.queueOf g k)

theorem State.KeepsRings.refl (s : State) : s.KeepsRings s := ⟨fun _ _ => .refl _⟩

theorem State.KeepsRings.trans {s t u : State} (h : s.KeepsRings t) (k : t.KeepsRings u) : s.KeepsRings u :=
  ⟨fun i j => (h.queues i j).trans (k.queues i j)⟩

theorem State.SameRegs.keepsRings {s t : State} (h : s.SameRegs t) : s.KeepsRings t := by
  refine ⟨fun g k hs => ?_⟩
  have hstate : (t.queueOf g k).regs.state = (s.queueOf g k).regs.state := by rw [h.regs]
  have hring : (t.queueOf g k).regs.ring = (s.queueOf g k).regs.ring := by rw [h.regs]
  exact ⟨fun hd => hs (hstate.symm.trans hd), hring⟩

theorem State.keepsRings_modQueue (s : State) (f q : Nat) {h : Queue → Queue} (hh : ∀ x : Queue, x.KeepsRing (h x)) :
    s.KeepsRings (s.modQueue f q h) := by
  refine ⟨fun g k => ?_⟩
  rw [State.queueOf_modQueue]
  split
  · next e => rw [e.1, e.2]; exact hh _
  · exact .refl _

theorem State.keepsRings_cause (s : State) (p b : Nat) : s.KeepsRings (s.cause p b) := by
  refine ⟨fun g k => ?_⟩
  rw [State.cause_queueOf]
  exact .refl _

theorem Queue.KeepsRing.of_state {x y : Queue} (hs : y.state ≠ .disabled) (hr : y.ring = x.ring) : x.KeepsRing y := fun _ => ⟨hs, hr⟩

theorem State.keepsRings_enterReset (s : State) (f q : Nat) : s.KeepsRings (s.enterReset f q) :=
  (State.SameRegs.keepsRings (.foldl _ _ (fun u (c : Cmd) => u.sameRegs_release f q c.n))).trans
    (State.keepsRings_modQueue _ f q (fun _ => .of_state (fun h => QState.noConfusion h) rfl))

theorem State.keepsRings_writeControl (s : State) (f q : Nat) (v : Word) : s.KeepsRings (s.writeControl f q v) := by
  unfold State.writeControl
  extract_lets s1 x
  have h1 : s.KeepsRings s1 := s.keepsRings_modQueue f q (fun _ h => ⟨h, rfl⟩)
  have hrun : ∀ (g : Queue → Queue), (∀ x, (g x).ring = x.ring) → s1.KeepsRings (s1.modQueue f q (fun y => { g y with state := .running })) :=
    fun g hg => s1.keepsRings_modQueue f q (fun x => .of_state (fun h => QState.noConfusion h) (hg x))
  split
  · split_ifs
    · exact h1.trans (hrun Queue.cleared (fun _ => rfl))
    · exact (h1.trans (s1.keepsRings_modQueue f q (h := fun y => { y with cfgErr := true }) (fun _ h => ⟨h, rfl⟩))).trans
        (State.keepsRings_cause ..)
    · exact h1
  · split_ifs
    · exact h1.trans (s1.keepsRings_enterReset f q)
    · exact h1
  · split_ifs
    · exact h1.trans (s1.keepsRings_enterReset f q)
    · exact h1.trans (hrun id (fun _ => rfl))
    · exact h1
  · exact h1

theorem State.writeQueue_ring (s : State) (f q off v : Nat) (h : off < 0x14) : s.writeQueue f q off v =
    s.modQueue f q (fun x => if x.state = .disabled then x.writeRing off v else x) := if_pos h

/-- A write of a queue register keeps the rings of every queue. -/
theorem State.keepsRings_writeQueue (s : State) (f q off v : Nat) : s.KeepsRings (s.writeQueue f q off v) := by
  unfold State.writeQueue
  split
  · refine s.keepsRings_modQueue f q (fun x h => ?_)
    rw [if_neg h]
    exact ⟨h, rfl⟩
  · split
    · exact s.keepsRings_writeControl f q _
    · exact s.keepsRings_modQueue f q (fun _ h => ⟨h, rfl⟩)
    · exact s.keepsRings_modQueue f q (fun _ h => ⟨h, rfl⟩)
    · exact s.keepsRings_modQueue f q (fun _ h => ⟨h, rfl⟩)
    · exact .refl s

/-! ### Accesses to the queue register blocks -/

/-- Below the doorbell pages, from 0x1000 on, BAR0 of a live function holds the blocks of its queues. -/
theorem State.writeBar0_queue {s : State} {f off v : Nat} (hl : s.fnLive f = true) (h1 : 0x1000 ≤ off) (h2 : off < 0x2000) :
    s.writeBar0 f off v = s.writeQueue f ((off - 0x1000) / 64) (off % 64) v := by
  rw [State.writeBar0, if_pos (by omega), if_pos hl, State.writeFn, if_neg (by omega), if_neg (by omega), if_pos ⟨h1, h2⟩]

theorem State.keepsRings_writeBar0 (s : State) (f off v : Nat) (h1 : 0x1000 ≤ off) (h2 : off < 0x2000) :
    s.KeepsRings (s.writeBar0 f off v) := by
  by_cases hl : s.fnLive f = true
  · rw [State.writeBar0_queue hl h1 h2]
    exact s.keepsRings_writeQueue ..
  · rw [State.writeBar0, if_pos (by omega), if_neg hl]
    exact .refl s

/-- An aligned access that begins in the blocks ends there. -/
theorem State.keepsRings_halves (s : State) (f off size v : Nat) (ha : aligned off size = true) (h1 : 0x1000 ≤ off) (h2 : off < 0x2000) :
    s.KeepsRings (s.halves size off v (fun t o x => t.writeBar0 f o x)) := by
  unfold State.halves
  extract_lets s1
  have hs1 : s.KeepsRings s1 := s.keepsRings_writeBar0 f off _ h1 h2
  split
  · next h8 =>
    have hoff : off % 8 = 0 := by
      subst h8
      simpa [aligned] using ha
    exact hs1.trans (s1.keepsRings_writeBar0 f (off + 4) _ (by omega) (by omega))
  · exact hs1

theorem execRegisterWrite_queues {s : State} {f off size : Nat} (v : W64) (h : (s.hostLive && s.fnExists f && aligned off size) = true)
    (h2 : off < 0x2000) :
    exec (.registerWrite f 0 off size v) s = .next (s.halves size off v.toNat (fun t o x => t.writeBar0 f o x)) := by
  show execRegisterWrite f 0 off size v s = _
  simp only [execRegisterWrite, onlyIf]
  rw [if_pos h, if_neg (by omega)]

/-- A write anywhere in the blocks keeps the rings of every queue. -/
theorem registerWrite_keepsRings (s : State) (f off size : Nat) (v : W64) (h1 : 0x1000 ≤ off) (h2 : off < 0x2000) :
    ∃ t, exec (.registerWrite f 0 off size v) s = .next t ∧ s.KeepsRings t := by
  by_cases hc : (s.hostLive && s.fnExists f && aligned off size) = true
  · refine ⟨_, execRegisterWrite_queues v hc h2, s.keepsRings_halves f off size _ ?_ h1 h2⟩
    exact (Bool.and_eq_true_iff.1 hc).2
  · refine ⟨s, ?_, .refl s⟩
    show execRegisterWrite f 0 off size v s = _
    simp only [execRegisterWrite, onlyIf]
    rw [if_neg hc]

/-- A 32-bit write of a ring register of a DISABLED queue takes effect. -/
theorem registerWrite_ring {s : State} {f q r : Nat} (v : W64) (hh : s.hostLive = true) (hl : s.fnLive f = true) (hq : q < 64) (hr : r < 5)
    (hd : (s.queueOf f q).state = .disabled) :
    ∃ t, exec (.registerWrite f 0 (0x1000 + 64 * q + 4 * r) 4 v) s = .next t ∧
      t.queueOf f q = (s.queueOf f q).writeRing (4 * r) (v.toNat % 2 ^ 32) := by
  have hex : s.fnExists f = true := by
    simp only [State.fnLive, Bool.and_eq_true] at hl
    exact hl.1.2
  have hal : aligned (0x1000 + 64 * q + 4 * r) 4 = true := by
    simp [aligned]
    omega
  refine ⟨_, execRegisterWrite_queues v (by rw [hh, hex, hal]; rfl) (by omega), ?_⟩
  rw [State.halves, if_neg (by omega), State.writeBar0_queue hl (by omega) (by omega), State.writeQueue_ring _ _ _ _ _ (by omega),
    show (0x1000 + 64 * q + 4 * r - 0x1000) / 64 = q by omega, State.queueOf_modQueue_self, if_pos hd,
    show (0x1000 + 64 * q + 4 * r) % 64 = 4 * r by omega]

/-! ### What a ring register reads -/

theorem setLo_low (a : W64) (v : Nat) : (setLo a v).toNat % 2 ^ 32 = v % 2 ^ 32 := by
  have ha := a.isLt
  simp only [setLo, setBits, bits, BitVec.toNat_ofNat]
  omega

theorem setLo_high (a : W64) (v : Nat) : (setLo a v).toNat / 2 ^ 32 = a.toNat / 2 ^ 32 := by
  have ha := a.isLt
  simp only [setLo, setBits, bits, BitVec.toNat_ofNat]
  omega

theorem setHi_low (a : W64) (v : Nat) : (setHi a v).toNat % 2 ^ 32 = a.toNat % 2 ^ 32 := by
  have ha := a.isLt
  simp only [setHi, setBits, bits, BitVec.toNat_ofNat]
  omega

theorem setHi_high (a : W64) (v : Nat) : (setHi a v).toNat / 2 ^ 32 = v % 2 ^ 32 := by
  have ha := a.isLt
  simp only [setHi, setBits, bits, BitVec.toNat_ofNat]
  omega

theorem Queue.read_writeRing_self (x : Queue) (r v : Nat) (hr : r < 5) (hv : v < 2 ^ 32) :
    (x.writeRing (4 * r) v).read (4 * r) = if r = 0 ∨ r = 2 then v / 4096 * 4096 else v := by
  interval_cases r <;> simp only [Queue.writeRing, Queue.read, setLo_low, setHi_high] <;> norm_num <;> omega

/-- The halves of a base are apart, and so are the two bases and the sizes. -/
theorem Queue.read_writeRing_ne (x : Queue) (r o v : Nat) (hr : r < 5) (ho : o < 5) (hne : o ≠ r) :
    (x.writeRing (4 * r) v).read (4 * o) = x.read (4 * o) := by
  interval_cases r <;> interval_cases o <;> simp_all [Queue.writeRing, Queue.read, setLo_high, setHi_low, -Nat.reducePow]

/-- Settles O50: what any write of the blocks keeps, and what a write of one register of a DISABLED queue leaves in the five. -/
theorem ringRegistersNeedADisabledQueue : Obligations.RingRegistersNeedADisabledQueue := by
  unfold Obligations.RingRegistersNeedADisabledQueue
  refine ⟨fun s f off size g k v h1 h2 hd => ?_, fun s f q r v hh hl hq hr hd => ?_⟩
  · obtain ⟨t, he, ht⟩ := registerWrite_keepsRings s f off size v h1 h2
    have hring := (ht.queues g k hd).2
    simp only [Queue.ring, Prod.mk.injEq] at hring
    exact ⟨t, he, hring⟩
  · obtain ⟨t, he, ht⟩ := registerWrite_ring v hh hl hq hr hd
    refine ⟨t, he, ?_, fun o ho hne => ?_⟩
    · rw [ht, Queue.read_writeRing_self _ _ _ hr (Nat.mod_lt _ (by decide))]
    · rw [ht, Queue.read_writeRing_ne _ _ _ _ hr ho hne]

end Sys2Proof.Machine
end

section
/-! Starting a command and re-running a pre-empted one (R63, R66, R70, R77, R78). -/
namespace Sys2Proof.Machine

theorem State.cmdOf_n {s : State} {f q n : Nat} {c : Cmd} (h : s.cmdOf f q n = some c) : c.n = n := by
  simpa using List.find?_some h

/-! ### What a start leaves of its command -/

/-- Of the command c a start with the words of d has made e: it runs, with that start order and that answer to NO_PREEMPT. -/
structure Cmd.Begun (c d e : Cmd) (order : Nat) (np : Bool) : Prop where
  phase : e.phase = .running
  words : e.words = c.words
  eff   : e.eff = d.eff
  order : e.order = order
  runs  : e.runs = min 15 (c.runs + 1)
  np    : e.np = np

/-- In the state t the command (f, q, n) is one a start has made of c. -/
def State.HasBegun (t : State) (f q n : Nat) (c d : Cmd) (order : Nat) (np : Bool) : Prop :=
  ∃ e, t.cmdOf f q n = some e ∧ c.Begun d e order np

theorem State.HasBegun.of_cmdOf {t u : State} {f q n order : Nat} {c d : Cmd} {np : Bool} (h : t.HasBegun f q n c d order np)
    (e : u.cmdOf f q n = t.cmdOf f q n) : u.HasBegun f q n c d order np := by
  rwa [State.HasBegun, e]

/-- What else the start notes in the command leaves that as it is. -/
theorem State.HasBegun.modCmd {t : State} {f q n order : Nat} {c d : Cmd} {np : Bool} (h : t.HasBegun f q n c d order np)
    (g : Cmd → Cmd) (hn : ∀ e, (g e).n = e.n) (hg : ∀ e, c.Begun d e order np → c.Begun d (g e) order np) :
    (t.modCmd f q n g).HasBegun f q n c d order np := by
  obtain ⟨e, he, hb⟩ := h
  exact ⟨g e, by rw [State.cmdOf_modCmd_self _ _ _ _ _ hn, he]; rfl, hg e hb⟩

theorem State.only_setWork (s : State) (f q n : Nat) (w : Work) : s.Only [.cp] (s.setWork f q n w) := s.only_modCmd f q n _

theorem State.only_modCores (s : State) (cs : List Nat) (g : Core → Core) : s.Only [.cores] (s.modCores cs g) :=
  State.Only.foldl _ _ (State.Only.refl _ _) (fun u c => u.only_modCore c g)

theorem State.only_writeHands (s : State) (ctx lnum passes : Nat) (tz : Bool) : s.Only [.cores] (s.writeHands ctx lnum passes tz) := by
  unfold State.writeHands
  split
  · exact State.Only.refl _ _
  · exact State.only_modCores ..

/-- The state in which a start has put its command to work, before the layout it names hears of it. -/
def State.runCmd (s : State) (f q : Nat) (c : Cmd) : State :=
  let first : Bool := c.order = 0
  let np := s.honours f c
  let low := (c.op = 0x30 || c.op = 0x42) && decide ((s.ctxOf c.ctx).curPasses < (s.ctxOf c.ctx).passes)
  let s1 := s.modCmd f q c.n (fun y => { y with
    eff := c.eff, phase := .running, runs := min 15 (y.runs + 1), order := if first then s.cp.starts + 1 else y.order, np := np,
    reduced := low, begun := false, behind := none })
  let s2 := if first then { s1 with cp := { s1.cp with starts := s1.cp.starts + 1 } } else s1
  let s3 := if noPreemptOf c.words && !np && !c.denied then
      (s2.modFn f (fun g => { g with preemptDenied := satAdd 16 g.preemptDenied 1 })).modCmd f q c.n (fun y => { y with denied := true })
    else s2
  if c.op = 0x01 then s3.setWork f q c.n (.cancelOf (s.cancelTargets f q c.n c.eff) false) else s3

theorem State.only_runCmd (s : State) (f q : Nat) (c : Cmd) : s.Only [.cp] (s.runCmd f q c) := by
  unfold State.runCmd
  extract_lets first np low s1 cp s2 s3
  have h1 : s.Only [.cp] s1 := s.only_modCmd f q c.n _
  have h2 : s.Only [.cp] s2 := by
    by_cases hf : first = true
    · simp only [s2, if_pos hf]; exact h1.trans (s1.only_set_cp _)
    · simp only [s2, if_neg hf]; exact h1
  have h3 : s.Only [.cp] s3 := by
    by_cases hd : (noPreemptOf c.words && !np && !c.denied) = true
    · simp only [s3, if_pos hd]; exact (h2.trans (s2.only_modFn f _)).trans (State.only_modCmd ..)
    · simp only [s3, if_neg hd]; exact h2
  split
  · exact h3.trans (s3.only_setWork ..)
  · exact h3

theorem State.cmdOf_modFn {s : State} {f : Nat} {g : Fn → Fn} (h : ∀ x, (g x).queues = x.queues) (i j n : Nat) :
    (s.modFn f g).cmdOf i j n = s.cmdOf i j n := by
  rw [State.cmdOf, State.cmdOf, State.queueOf_modFn h]

theorem State.runCmd_begun {s : State} {f q : Nat} {c d : Cmd} (h : s.cmdOf f q d.n = some c) :
    (s.runCmd f q d).HasBegun f q d.n c d (if d.order = 0 then s.cp.starts + 1 else c.order) (s.honours f d) := by
  unfold State.runCmd
  extract_lets first np low s1 cp s2 s3
  have h1 : s1.HasBegun f q d.n c d (if d.order = 0 then s.cp.starts + 1 else c.order) np := by
    refine ⟨_, (State.cmdOf_modCmd_self _ _ _ _ _ (by exact fun _ => rfl)).trans (congrArg _ h), ?_⟩
    exact { phase := rfl, words := rfl, eff := rfl, order := by simp [first], runs := rfl, np := rfl }
  have h2 : s2.HasBegun f q d.n c d (if d.order = 0 then s.cp.starts + 1 else c.order) np := by
    by_cases hf : first = true
    · simp only [s2, if_pos hf]; exact h1
    · simp only [s2, if_neg hf]; exact h1
  have h3 : s3.HasBegun f q d.n c d (if d.order = 0 then s.cp.starts + 1 else c.order) np := by
    by_cases hd : (noPreemptOf d.words && !np && !d.denied) = true
    · simp only [s3, if_pos hd]
      exact (h2.of_cmdOf (State.cmdOf_modFn (by exact fun _ => rfl) ..)).modCmd _ (fun _ => rfl) (fun _ hb => { hb with })
    · simp only [s3, if_neg hd]; exact h2
  split
  · exact h3.modCmd _ (fun _ => rfl) (fun _ hb => { hb with })
  · exact h3

theorem State.runCmd_starts (s : State) (f q : Nat) (d : Cmd) (h : d.order = 0) : (s.runCmd f q d).cp.starts = s.cp.starts + 1 := by
  unfold State.runCmd
  simp only [h, decide_true, if_true]
  split_ifs <;> rfl

/-! ### The start of a command that names no layout, and of one that runs on one -/

theorem State.beginCmd_none (s : State) (f q : Nat) (d : Cmd) (h : d.layoutNum = none) : s.beginCmd f q d = s.runCmd f q d := by
  simp only [State.beginCmd, h]; rfl

theorem State.beginCmd_runs (s : State) (f q lnum : Nat) (d : Cmd) (hr : d.runsOnLayout = true) (h : d.layoutNum = some lnum) :
    s.beginCmd f q d = (s.runCmd f q d).writeHands d.ctx lnum (s.ctxOf d.ctx).curPasses (roundTzOf d.words) := by
  have hop : d.op ≠ 0x15 := by
    intro h15
    simp [Cmd.runsOnLayout, h15, layoutWord] at hr
  simp only [State.beginCmd, h, hr, if_neg hop, if_true]; rfl

@[simp] theorem State.writeHands_cp (s : State) (ctx lnum passes : Nat) (tz : Bool) : (s.writeHands ctx lnum passes tz).cp = s.cp := by
  unfold State.writeHands
  split
  · rfl
  · exact State.modCores_cp ..

theorem State.beginCmd_begun {s : State} {f q lnum : Nat} {c d : Cmd} (h : s.cmdOf f q d.n = some c) (hr : d.runsOnLayout = true)
    (hl : d.layoutNum = some lnum) :
    (s.beginCmd f q d).HasBegun f q d.n c d (if d.order = 0 then s.cp.starts + 1 else c.order) (s.honours f d) := by
  rw [State.beginCmd_runs s f q lnum d hr hl]
  exact (State.runCmd_begun h).of_cmdOf (State.cmdOf_cp _ _ _ _ _ (State.writeHands_cp ..))

theorem State.only_beginCmd (s : State) (f q lnum : Nat) (d : Cmd) (hr : d.runsOnLayout = true) (hl : d.layoutNum = some lnum) :
    s.Only [.cp, .cores] (s.beginCmd f q d) := by
  rw [State.beginCmd_runs s f q lnum d hr hl]
  exact ((s.only_runCmd f q d).mono _ (by simp)).trans ((State.only_writeHands ..).mono _ (by simp))

/-! ### What comes before the start -/

theorem State.startAfter_direct (s : State) (f q : Nat) (c : Cmd) (may : Bool) (hi : indirectOf c.words = false)
    (hr : s.layoutRefused { c with eff := c.words } = none) (hh : s.layoutHeld f q { c with eff := c.words } = false) :
    s.startAfter f q c [] may = s.claimAndBegin f q { c with eff := c.words } may := by
  have hs : s.shapesOf c = .words c.words := by simp [State.shapesOf, hi]
  simp [State.startAfter, hi, State.tryStart, hs, hr, hh]

theorem State.claimAndBegin_none (s : State) (f q : Nat) (c : Cmd) (may : Bool) (h : c.layoutNum = none) :
    s.claimAndBegin f q c may = s.runCmd f q c := by
  rw [← s.beginCmd_none f q c h, State.claimAndBegin]
  split
  · next heq => rw [h] at heq; cases heq
  · rfl

/-- With descriptors for it, a command that may not pre-empt or has nothing to pre-empt starts. -/
theorem State.claimAndBegin_room (s : State) (f q lnum : Nat) (c : Cmd) (l : Layout) (may : Bool) (hr : c.runsOnLayout = true)
    (hl : c.layoutNum = some lnum) (hL : s.layoutOf c.ctx lnum = some l)
    (hshort : s.shortClusters c.ctx lnum l (s.trialSlots f q c lnum) = [])
    (hriv : may = false ∨ s.rivals c.ctx lnum [] (s.trialSlots f q c lnum) = []) : s.claimAndBegin f q c may = s.beginCmd f q c := by
  have hno : (may && !(s.rivals c.ctx lnum [] (s.trialSlots f q c lnum)).isEmpty) = false := by
    rcases hriv with h | h <;> simp [h]
  simp [State.claimAndBegin, hr, hl, hL, hshort, hno]

theorem Cmd.layoutNum_none (c : Cmd) (h : layoutWord c.op = none) : c.layoutNum = none := by simp [Cmd.layoutNum, h]

/-- A start of the words as fetched, in a command whose words they are. -/
theorem State.startAfter_plain (s : State) (f q : Nat) (c : Cmd) (may : Bool) (hi : indirectOf c.words = false)
    (hl : layoutWord c.op = none) : s.startAfter f q c [] may = s.runCmd f q { c with eff := c.words } := by
  have hn : ({ c with eff := c.words } : Cmd).layoutNum = none := Cmd.layoutNum_none _ hl
  have hr : s.layoutRefused { c with eff := c.words } = none := by
    rw [State.layoutRefused, hn]
    split
    · next heq => cases heq
    · rfl
  have hh : s.layoutHeld f q { c with eff := c.words } = false := by rw [State.layoutHeld, hn]
  rw [s.startAfter_direct f q c may hi hr hh, s.claimAndBegin_none _ _ _ _ hn]

/-- A start of a command on a layout that is ready and has descriptors for it. -/
theorem State.startAfter_room (s : State) (f q lnum : Nat) (c : Cmd) (l : Layout) (may : Bool) (hi : indirectOf c.words = false)
    (he : c.eff = c.words) (hr : c.runsOnLayout = true) (hl : c.layoutNum = some lnum) (href : s.layoutRefused c = none)
    (hheld : s.layoutHeld f q c = false) (hL : s.layoutOf c.ctx lnum = some l)
    (hshort : s.shortClusters c.ctx lnum l (s.trialSlots f q c lnum) = [])
    (hriv : may = false ∨ s.rivals c.ctx lnum [] (s.trialSlots f q c lnum) = []) : s.startAfter f q c [] may = s.beginCmd f q c := by
  have hc : ({ c with eff := c.words } : Cmd) = c := congrArg (fun w => { c with eff := w }) he.symm
  rw [s.startAfter_direct f q c may hi (by rw [hc]; exact href) (by rw [hc]; exact hheld), hc,
    s.claimAndBegin_room f q lnum c l may hr hl hL hshort hriv]

/-! ### The rows -/

/-- R63: the command may start where it stands in its queue. -/
def State.startsHere (s : State) (f q : Nat) (c : Cmd) : Prop :=
  (∃ r, (s.queueOf f q).window = c :: r) ∨ (depOf c.words = false ∧ indirectOf c.words = false)

theorem exec_commandStart (s : State) (f q n : Nat) (c : Cmd) (h : s.cmdOf f q n = some c) (hh : s.cp.halted = false)
    (hp : c.phase = .fetched) (hf : s.startsHere f q c) :
    exec (.commandStart f q n []) s = .next (if namesContext c.words && !s.ctxLive c.ctx then s.finish f q n ⟨St.contextGone, 0, 0⟩
      else if s.barred f q c then s else s.startAfter f q c [] true) := by
  show execCommandStart f q n [] s = _
  simp only [execCommandStart, h, onlyIf]
  rw [if_pos]
  rcases hf with ⟨r, hw⟩ | ⟨hd, hi⟩
  · simp [hp, hh, hw, State.cmdOf_n h]
  · simp [hp, hh, hd, hi]

theorem exec_commandStart_live (s : State) (f q n : Nat) (c : Cmd) (h : s.cmdOf f q n = some c) (hh : s.cp.halted = false)
    (hp : c.phase = .fetched) (hf : s.startsHere f q c) (hl : namesContext c.words = true → s.ctxLive c.ctx = true)
    (hb : s.barred f q c = false) : exec (.commandStart f q n []) s = .next (s.startAfter f q c [] true) := by
  have hlive : (namesContext c.words && !s.ctxLive c.ctx) = false := by
    cases hn : namesContext c.words
    · rfl
    · simp [hl hn]
  simp [exec_commandStart s f q n c h hh hp hf, hlive, hb]

theorem exec_commandRerun (s : State) (f q n : Nat) (c : Cmd) (h : s.cmdOf f q n = some c) (hh : s.cp.halted = false)
    (hp : c.phase = .preempted) (hm : s.moving c.ctx (c.layoutNum.getD 0) = false) (hb : c.behind = none)
    (hlim : c.preempts ≤ (s.queueOf f q).preemptLimit) : exec (.commandRerun f q n []) s = .next (s.startAfter f q c [] false) := by
  show execCommandRerun f q n [] s = _
  simp [execCommandRerun, h, onlyIf, hp, hh, hm, hb, Nat.not_lt.mpr hlim]

theorem exec_commandRerun_limit (s : State) (f q n : Nat) (c : Cmd) (h : s.cmdOf f q n = some c) (hh : s.cp.halted = false)
    (hp : c.phase = .preempted) (hm : s.moving c.ctx (c.layoutNum.getD 0) = false) (hlim : (s.queueOf f q).preemptLimit < c.preempts) :
    exec (.commandRerun f q n []) s = .next (s.endCmd f q n ⟨if c.moved then St.moved else St.preempted, 0, 0⟩) := by
  show execCommandRerun f q n [] s = _
  simp [execCommandRerun, h, onlyIf, hp, hh, hm, hlim]

/-! ### What is left of a command that ends without commit -/

theorem State.cmdOf_dropShadows {s : State} {f q n : Nat} {c : Cmd} (h : s.cmdOf f q n = some c) :
    (s.dropShadows f q n).cmdOf f q n = some { c with shadows := [], maps := [] } := by
  simp only [State.dropShadows, h]
  rw [State.cmdOf_modCmd_self _ _ _ _ _ (by exact fun _ => rfl), State.cmdOf_cp _ s _ _ _ ?_, h]
  · rfl
  · rw [State.foldl_cp (hg := by intro u x; split <;> simp), State.foldl_cp (hg := by intro u x; simp)]

theorem State.cmdOf_release {s : State} {f q n : Nat} {c : Cmd} (h : s.cmdOf f q n = some c) :
    ∃ d, (s.release f q n).cmdOf f q n = some d ∧ d.phase = c.phase ∧ d.status = c.status := by
  have h1 : ((s.undoWork f q n c).endStreams f q n).cmdOf f q n = some c := by
    rw [State.cmdOf_cp _ s _ _ _ (by simp), h]
  have hr : s.release f q n = (((s.undoWork f q n c).endStreams f q n).dropShadows f q n).modCmd f q n (fun x =>
      { x with work := .none, overflows := [], malformed := [], overflowed := false, begun := false, waits := none }) := by
    simp only [State.release, h]
  refine ⟨{ c with
    shadows := [], maps := [], work := .none, overflows := [], malformed := [], overflowed := false, begun := false, waits := none },
    ?_, rfl, rfl⟩
  rw [hr, State.cmdOf_modCmd_self _ _ _ _ _ (by exact fun _ => rfl), State.cmdOf_dropShadows h1]
  rfl

theorem State.endCmd_ended {s : State} {f q n : Nat} {c : Cmd} (v : Verdict) (h : s.cmdOf f q n = some c) (hw : c.work = .none)
    (hp : c.phase ≠ .finished) (hs : c.status = 0) : (s.endCmd f q n v).Ended f q n v.status v.a v.b := by
  have he : s.endCmd f q n v = (s.release f q n).finish f q n v := by simp only [State.endCmd, h, hw]
  obtain ⟨d, hd, hdp, hds⟩ := State.cmdOf_release h
  rw [he]
  exact State.finish_ended _ f q n d v hd (by rwa [hdp]) (by rwa [hds])

/-! ### The obligation -/

/-- Settles O10, by what a start leaves of its command (`Cmd.Begun`) and the way each row takes there. That a re-run keeps its first
start order is the model's choice (log entry 131). -/
theorem commandsStartAndRerun : Obligations.CommandsStartAndRerun := by
  unfold Obligations.CommandsStartAndRerun
  intro s f q n c h hh
  obtain rfl := State.cmdOf_n h
  refine ⟨?plain, ?gone, ?room, ?rerun, ?limit⟩
  case plain =>
    intro hp hf hl hb hi hlw ho
    obtain ⟨e, he, hbeg⟩ := State.runCmd_begun (d := { c with eff := c.words }) h
    refine ⟨s.runCmd f q { c with eff := c.words }, ?_, s.only_runCmd f q _, s.runCmd_starts f q _ ho, e, he, hbeg.phase, hbeg.words,
      hbeg.eff, hbeg.order.trans (if_pos ho), hbeg.runs, hbeg.np⟩
    rw [exec_commandStart_live s f q c.n c h hh hp hf hl hb, s.startAfter_plain f q c true hi hlw]
  case gone =>
    intro hp hs hf hn hl
    refine ⟨s.finish f q c.n ⟨St.contextGone, 0, 0⟩, ?_, s.finish_ended f q c.n c _ h (by rw [hp]; decide) hs,
      s.onlyCmd_modCmd f q c.n _ (fun _ => ⟨rfl, rfl⟩), s.only_modCmd f q c.n _⟩
    simp [exec_commandStart s f q c.n c h hh hp hf, hn, hl]
  case room =>
    intro l lnum hp hf hn hl hb hi he hr hnum href hheld hL hshort hriv
    obtain ⟨e, he', hbeg⟩ := State.beginCmd_begun h hr hnum
    refine ⟨s.beginCmd f q c, ?_, s.only_beginCmd f q lnum c hr hnum, e, he', hbeg.phase, hbeg.eff.trans he, hbeg.runs, hbeg.order⟩
    rw [exec_commandStart_live s f q c.n c h hh hp (.inl hf) (fun _ => hl) hb,
      s.startAfter_room f q lnum c l true hi he hr hnum href hheld hL hshort (.inr hriv)]
  case rerun =>
    intro l lnum hp hlim hbeh ho hi he hr hnum hmov href hheld hL hshort
    obtain ⟨e, he', hbeg⟩ := State.beginCmd_begun h hr hnum
    refine ⟨s.beginCmd f q c, ?_, s.only_beginCmd f q lnum c hr hnum, e, he', hbeg.phase, hbeg.eff.trans he, hbeg.runs,
      hbeg.order.trans (if_neg ho)⟩
    rw [exec_commandRerun s f q c.n c h hh hp (by rw [hnum]; exact hmov) hbeh hlim,
      s.startAfter_room f q lnum c l false hi he hr hnum href hheld hL hshort (.inl rfl)]
  case limit =>
    intro l hp hs hlim hmov hL hw hslots hsh hmaps
    exact ⟨_, exec_commandRerun_limit s f q c.n c h hh hp hmov hlim, State.endCmd_ended _ h hw (by rw [hp]; decide) hs⟩

end Sys2Proof.Machine
end

section
/-! The commit of a queue's oldest command and its record (R73, R75, R80, R81). -/
namespace Sys2Proof.Machine

/-! ### The record -/

theorem wordBytes_length (ws : List Word) : (wordBytes ws).length = 4 * ws.length := by
  induction ws with
  | nil => rfl
  | cons w ws ih =>
    have hw : (leBytes 4 w.toNat).length = 4 := by simp [leBytes]
    rw [wordBytes] at ih
    simp only [wordBytes, List.flatMap_cons, List.length_append, hw, ih, List.length_cons]
    omega

theorem recordWords_length (x : Queue) (q : Nat) (c : Cmd) (seq : Word) (count : Nat) (made : Option Nat) :
    (recordWords x q c seq count made).length = 8 := rfl

theorem recordBytes_length (x : Queue) (q : Nat) (c : Cmd) (seq : Word) (count : Nat) (made : Option Nat) :
    (wordBytes (recordWords x q c seq count made)).length = 32 := by
  rw [wordBytes_length, recordWords_length]

/-! ### What a commit does beside its record -/

theorem State.only_modPart (s : State) (p : Nat) (g : Part → Part) : s.Only [.parts] (s.modPart p g) := s.only_set_parts _

theorem State.only_remark (s : State) (key : Nat) : s.Only [.slots, .ctxs] (s.remark key) := by
  unfold State.remark
  split
  · exact State.Only.refl _ _
  · extract_lets _ _ stall _ _ v' s1
    have h1 : s.Only [.slots, .ctxs] s1 := (s.only_set_slots _).mono _ (by simp)
    split_ifs
    · exact State.Only.refl _ _
    · exact h1.trans ((s1.only_modCtx _ _).mono _ (by simp))
    · exact h1

/-- Discarding what was fetched ahead changes streams and buffers only (R245). -/
theorem State.only_dropAhead (s old : State) : s.Only [.slots, .ctxs] (s.dropAhead old) := by
  refine State.Only.foldl _ _ (State.Only.refl _ _) (fun t p => ?_)
  dsimp only
  split_ifs
  · split
    · exact (t.only_set_slots _).mono _ (by simp)
    · exact State.Only.refl _ _
  · exact State.Only.refl _ _
  · split
    · exact State.Only.refl _ _
    · split
      · exact (((t.only_set_slots _).mono _ (by simp)).trans ((State.only_modLayout ..).mono _ (by simp))).trans (State.only_remark ..)
      · exact State.Only.refl _ _

/-- Without shadow blocks only the mark of the preparation goes. -/
theorem State.prepOver_clean (s : State) (f q : Nat) (c : Cmd) (h : c.shadows = []) :
    s.prepOver f q c = s ∨ s.prepOver f q c = s.modPart f (fun p => { p with prep := none }) := by
  unfold State.prepOver
  split
  · exact .inr (by rw [h]; rfl)
  · exact .inl rfl

theorem State.only_prepOver (s : State) (f q : Nat) (c : Cmd) (h : c.shadows = []) : s.Only [.parts] (s.prepOver f q c) := by
  rcases s.prepOver_clean f q c h with e | e <;> rw [e]
  · exact State.Only.refl _ _
  · exact s.only_modPart f _

theorem State.commitSeq_prepOver (s : State) (f q : Nat) (c : Cmd) (h : c.shadows = []) :
    ((s.prepOver f q c).partOf f).commitSeq = (s.partOf f).commitSeq := by
  rcases s.prepOver_clean f q c h with e | e <;> rw [e]
  rw [State.partOf_modPart, if_pos rfl]

/-! ### The record is written -/

/-- The state with the record of a command written, the command out of the window and the sequence number one higher. -/
def State.recorded (s : State) (f q : Nat) (c : Cmd) (made : Option Nat) : State :=
  let x := s.queueOf f q
  let seq := (s.partOf f).commitSeq
  let rec0 := wordBytes (recordWords x q c seq (c.commitCount.getD (s.islCount islCp)) made)
  let s1 := { s with host := { s.host with mem := cellWrite s.host.mem (x.cqBase.toNat + 32 * x.cqTail) rec0 } }
  let wrap := decide (x.cqTail = x.cqSizeM1)
  ((s1.modQueue f q (fun y => { y with window := y.window.filter (fun d => d.n ≠ c.n) })).modQueue f q (fun y => { y with
    cqTail := if wrap then 0 else y.cqTail + 1, phase := if wrap then !y.phase else y.phase, lastSeq := seq })).modPart f
    (fun p => { p with commitSeq := p.commitSeq + 1 })

theorem State.stopOnError_ok (s : State) (f q st : Nat) (h : statusClass st = 0) : s.stopOnError f q st = s := by
  simp [State.stopOnError, h]

/-- An OK record without INT is neither counted nor does it stop the queue. -/
theorem State.writeRecord_ok (s : State) (f q : Nat) (c : Cmd) (made : Option Nat) (hx : (s.queueOf f q).state ≠ .resetting)
    (hi : intOf c.words = false) (hs : statusClass c.status = 0) : s.writeRecord f q c made = s.recorded f q c made := by
  have hstate : ((decide ((s.queueOf f q).state = .resetting)) && ((s.queueOf f q).ringFull || !s.power.linkUp)) = false := by simp [hx]
  simp only [State.writeRecord, hstate, State.stopOnError_ok _ f q _ hs, hi, hs, State.countRecord]
  rfl

theorem State.only_recorded (s : State) (f q : Nat) (c : Cmd) (made : Option Nat) :
    s.Only [.cp, .parts, .host] (s.recorded f q c made) := by
  refine State.Only.trans ?_ ((State.only_modPart ..).mono _ (by simp))
  refine State.Only.trans ?_ ((State.only_modQueue ..).mono _ (by simp))
  refine State.Only.trans ?_ ((State.only_modQueue ..).mono _ (by simp))
  exact (s.only_set_host _).mono _ (by simp)

theorem State.recorded_mem (s : State) (f q : Nat) (c : Cmd) (made : Option Nat) (x : Queue) (hx : s.queueOf f q = x) (i : Nat) :
    cellGet (s.recorded f q c made).host.mem i =
      if x.cqBase.toNat + 32 * x.cqTail ≤ i ∧ i < x.cqBase.toNat + 32 * x.cqTail + 32 then
        (wordBytes (recordWords x q c (s.partOf f).commitSeq (c.commitCount.getD (s.islCount islCp)) made)).getD
          (i - (x.cqBase.toNat + 32 * x.cqTail)) 0
      else cellGet s.host.mem i := by
  subst hx
  refine (cellGet_cellWrite ..).trans ?_
  rw [recordBytes_length]

theorem State.recorded_commitSeq (s : State) (f q : Nat) (c : Cmd) (made : Option Nat) :
    ((s.recorded f q c made).partOf f).commitSeq = (s.partOf f).commitSeq + 1 := by
  unfold State.recorded
  rw [State.partOf_modPart, if_pos rfl]
  rfl

theorem State.recorded_queueOf (s : State) (f q : Nat) (c : Cmd) (made : Option Nat) (x : Queue) (hx : s.queueOf f q = x) :
    (s.recorded f q c made).queueOf f q = { x with
      window := x.window.filter (fun d => d.n ≠ c.n), lastSeq := (s.partOf f).commitSeq,
      cqTail := if x.cqTail = x.cqSizeM1 then 0 else x.cqTail + 1, phase := if x.cqTail = x.cqSizeM1 then !x.phase else x.phase } := by
  subst hx
  have hq : (s.recorded f q c made).queueOf f q = ((s.modQueue f q (fun y => { y with
      window := y.window.filter (fun d => d.n ≠ c.n) })).modQueue f q (fun y => { y with
        cqTail := if decide ((s.queueOf f q).cqTail = (s.queueOf f q).cqSizeM1) then 0 else y.cqTail + 1,
        phase := if decide ((s.queueOf f q).cqTail = (s.queueOf f q).cqSizeM1) then !y.phase else y.phase,
        lastSeq := (s.partOf f).commitSeq })).queueOf f q := rfl
  rw [hq, State.queueOf_modQueue_self, State.queueOf_modQueue_self]
  simp only [decide_eq_true_eq]

/-! ### The row -/

theorem State.cmdOf_front {s : State} {f q : Nat} {c : Cmd} {r : List Cmd} (h : (s.queueOf f q).window = c :: r) :
    s.cmdOf f q c.n = some c := by
  simp [State.cmdOf, h]

/-- A command without shadow blocks whose table updates succeed commits. -/
theorem State.commitStepOf_ok {s u : State} {f q a b : Nat} {c : Cmd} {r : List Cmd} (hw : (s.queueOf f q).window = c :: r)
    (hsh : c.shadows = []) (hprep : s.prepHeld f q c.n = false) (hspan : namesContext c.words = true → s.spanHeld f q c.n c.ctx = false)
    (ht : s.commitTables f q c = .ok u a b) (hcp : u.cp = s.cp) : s.commitStepOf f q c = .ok u a b := by
  have hu : u.cmdOf f q c.n = some c := by rw [State.cmdOf_cp _ s _ _ _ hcp, State.cmdOf_front hw]
  have hheld : (s.prepHeld f q c.n || (namesContext c.words && s.spanHeld f q c.n c.ctx)) = false := by
    cases hn : namesContext c.words
    · simp [hprep]
    · simp [hprep, hspan hn]
  simp [State.commitStepOf, hheld, ht, hu, hsh, State.mergeShadows]

theorem exec_commandCommit_ok {s u : State} {f q a b : Nat} {c : Cmd} {r : List Cmd} (hw : (s.queueOf f q).window = c :: r)
    (hp : c.phase = .finished) (hs : c.status = 0) (hx : (s.queueOf f q).state = .running) (hfull : (s.queueOf f q).ringFull = false)
    (hlink : s.power.linkUp = true) (hpart : (s.partOf f).resetting = false) (hh : s.cp.halted = false)
    (hc : s.commitStepOf f q c = .ok u a b) :
    exec (.commandCommit f q []) s = .next (((u.dropAhead s).prepOver f q c).completeOk f q c a b) := by
  show execCommandCommit f q [] s = _
  have hr : s.readErrs f q c.n c.ctx [] = (s, true) := rfl
  simp [execCommandCommit, hw, onlyIf, Cmd.isFinished, hp, hs, hx, hfull, hlink, hpart, hh, hr, hc]

/-- A command that has nothing to report is recorded with status OK. -/
theorem State.completeOk_ok (s : State) (f q : Nat) (c : Cmd) (a b : Nat) (hx : (s.queueOf f q).state = .running)
    (hi : intOf c.words = false) (ho : c.overflowed = false) (hr : c.reduced = false) (h3 : c.op ≠ 0x03) (h10 : c.op ≠ 0x10) :
    s.completeOk f q c a b = s.recorded f q { c with status := 0, resA := w32 a, resB := w32 b } none := by
  have hst : c.okStatus = 0 := by simp [Cmd.okStatus, ho, hr, St.ok]
  simp only [State.completeOk, h3, h10, hst, false_and, if_false]
  exact s.writeRecord_ok f q _ none (by rw [hx]; decide) hi (show statusClass 0 = 0 by decide)

/-- Settles O11: the table updates, then the record as `State.recorded` writes it. -/
theorem commitWritesItsRecord : Obligations.CommitWritesItsRecord := by
  unfold Obligations.CommitWritesItsRecord
  intro s u f q a b c r x hxq hw hp hs hov hred hsh hint h3 h10 hx hfull hlink hpart hh hprep hspan ht hcp hparts hisl
  subst hxq
  set v := (u.dropAhead s).prepOver f q c with hv
  have hahead := u.only_dropAhead s
  have hover : (u.dropAhead s).Only [.parts] v := State.only_prepOver _ f q c hsh
  have hvcp : v.cp = s.cp := by
    have h1 : (u.dropAhead s).cp = u.cp := by simpa using hahead.cp
    have h2 : v.cp = (u.dropAhead s).cp := by simpa using hover.cp
    rw [h2, h1, hcp]
  have hvhost : v.host = u.host := by
    have h1 : (u.dropAhead s).host = u.host := by simpa using hahead.host
    have h2 : v.host = (u.dropAhead s).host := by simpa using hover.host
    rw [h2, h1]
  have hvisl : v.islCount islCp = s.islCount islCp := by
    have h1 : (u.dropAhead s).isl = u.isl := by simpa using hahead.isl
    have h2 : v.isl = (u.dropAhead s).isl := by simpa using hover.isl
    rw [State.islCount, State.islOf, h2, h1, hisl]; rfl
  have hvq : v.queueOf f q = s.queueOf f q := by rw [State.queueOf, State.fnOf, hvcp]; rfl
  have hvseq : (v.partOf f).commitSeq = (s.partOf f).commitSeq := by
    have h1 : (u.dropAhead s).parts = u.parts := by simpa using hahead.parts
    rw [hv, State.commitSeq_prepOver _ f q c hsh, State.partOf, h1, hparts]; rfl
  refine ⟨v.recorded f q { c with status := 0, resA := w32 a, resB := w32 b } none, ?_, ?_, fun i => ?_, ?_, ?_, ?_⟩
  · rw [exec_commandCommit_ok hw hp hs hx hfull hlink hpart hh (State.commitStepOf_ok hw hsh hprep hspan ht hcp), ← hv,
      v.completeOk_ok f q c a b (by rw [hvq]; exact hx) hint hov hred h3 h10]
  · exact ((hahead.mono _ (by simp)).trans (hover.mono _ (by simp))).trans ((v.only_recorded f q _ none).mono _ (by simp))
  · rw [v.recorded_mem f q _ none _ hvq i, hvisl, hvseq, hvhost]
    simp [recordWords]
  · exact (congrArg HostSide.msgs hvhost : v.host.msgs = u.host.msgs)
  · rw [State.recorded_commitSeq, hvseq]
  · rw [State.recorded_queueOf _ _ _ _ _ _ hvq, hvseq]

end Sys2Proof.Machine
end

section
/-! The mapping commands and those that act at their commit: BLOCK_MAP, KV_CONFIGURE, PEER_MAP, STREAM_RESUME, LINK_RESTORE and
LINK_RECALIBRATE (R73, R252, R265, R278, R414, R415). -/
namespace Sys2Proof.Machine

/-! ### Frames taken for a mapping -/

/-- A command that has written may then change in more than its shadows: of the command interface still only it differs. -/
theorem State.Wrote.onlyCmd_modCmd {f q n : Nat} {s t : State} (h : State.Wrote f q n s t) (g : Cmd → Cmd)
    (hg : ∀ c, (g c).n = c.n ∧ (g c).words = c.words) : s.OnlyCmd f q n (t.modCmd f q n g) := by
  rcases h.cmd with h1 | ⟨e, he, h1⟩
  · exact ⟨g, hg, State.modCmd_cp _ _ _ _ _ _ h1⟩
  · refine ⟨fun c => g (e c), fun c => ?_, ?_⟩
    · obtain ⟨hn, hw, -⟩ := he c
      exact ⟨(hg (e c)).1.trans hn, (hg (e c)).2.trans hw⟩
    · rw [State.modCmd_cp _ _ _ _ _ _ h1, State.modCmd_modCmd _ _ _ _ _ _ (fun c => (he c).1)]

/-- A frame taken for a mapping changes the frames, and no entry of the Block Map. -/
structure State.Took (s t : State) : Prop where
  only : s.Only [.tiers, .ctxs, .free] t
  bm   : t.tiers.bm = s.tiers.bm

theorem State.took_allocFrame {s t : State} {tier fid : Nat} (h : s.allocFrame tier = some (fid, t)) : s.Took t := by
  refine ⟨s.only_allocFrame t tier fid h, ?_⟩
  unfold State.allocFrame at h
  split at h
  · cases h; rfl
  · split at h
    · cases h; rfl
    · cases h

theorem State.took_allocMap {s t : State} {ctx tier near0 bulk0 fid : Nat} (h : s.allocMap ctx tier near0 bulk0 = some (fid, t)) :
    s.Took t := by
  have hfrom : ∀ {p : Prop} [Decidable p] (k : Nat), (if p then s.allocFrame k else none) = some (fid, t) → s.Took t := by
    intro p _ k hk
    by_cases hp : p
    · exact State.took_allocFrame ((if_pos hp).symm.trans hk)
    · rw [if_neg hp] at hk; cases hk
  unfold State.allocMap at h
  extract_lets near bulk at h
  by_cases h0 : tier = 0
  · exact hfrom 0 ((if_pos h0).symm.trans h)
  rw [if_neg h0] at h
  by_cases h1 : tier = 1
  · exact hfrom 1 ((if_pos h1).symm.trans h)
  rw [if_neg h1] at h
  rcases Option.eq_none_or_eq_some near with hn | ⟨r, hn⟩ <;> rw [hn] at h
  · exact hfrom 1 h
  · exact hfrom 0 (hn.trans h)

/-- The command (f, q, n) has taken frames for these blocks, and the Block Map is as it was. -/
structure State.Mapped (f q n : Nat) (blks : List Nat) (s t : State) : Prop where
  wrote : State.Wrote f q n s t
  bm    : t.tiers.bm = s.tiers.bm
  maps  : ∀ c, s.cmdOf f q n = some c → ∃ d, t.cmdOf f q n = some d ∧ d.maps.map Prod.fst = c.maps.map Prod.fst ++ blks

theorem State.Mapped.refl (f q n : Nat) (s : State) : State.Mapped f q n [] s s :=
  ⟨State.Wrote.refl f q n s, rfl, fun c hc => ⟨c, hc, (List.append_nil _).symm⟩⟩

/-- One more block: a frame is taken, and the command notes it. -/
theorem State.Mapped.snoc {f q n : Nat} {blks : List Nat} {s t u : State} (h : State.Mapped f q n blks s t) (hu : t.Took u)
    (blk : Nat) (m : NewMap) :
    State.Mapped f q n (blks ++ [blk]) s (u.modCmd f q n (fun c => { c with maps := c.maps ++ [(blk, m)] })) := by
  refine ⟨(h.wrote.trans (State.Wrote.quiet hu.only)).trans (State.wrote_modCmd _ _ _ _ _ (fun _ => ⟨rfl, rfl, rfl, rfl, rfl, rfl⟩)),
    hu.bm.trans h.bm, fun c hc => ?_⟩
  obtain ⟨d, hd, hm⟩ := h.maps c hc
  have hcp : u.cp = t.cp := by simpa using hu.only.cp
  refine ⟨{ d with maps := d.maps ++ [(blk, m)] }, ?_, ?_⟩
  · rw [State.cmdOf_modCmd_self _ _ _ _ _ (by exact fun _ => rfl), State.cmdOf_cp _ _ _ _ _ hcp, hd]; rfl
  · simp [hm]

theorem State.mapFrames_mapped {s t : State} {f q n ctx tier code hint : Nat} {blks : List Nat}
    (h : s.mapFrames f q n ctx tier code hint blks = some t) : State.Mapped f q n blks s t := by
  induction blks using List.reverseRecOn generalizing t with
  | nil => cases h; exact State.Mapped.refl f q n s
  | append_singleton blks blk ih =>
    rw [State.mapFrames, List.foldl_append, List.foldl_cons, List.foldl_nil, Option.bind_eq_some_iff] at h
    obtain ⟨u, hu, h⟩ := h
    rw [Option.map_eq_some_iff] at h
    obtain ⟨⟨fid, v⟩, hv, rfl⟩ := h
    exact (ih hu).snoc (State.took_allocMap hv) blk _

/-- A command that has taken its frames and then notes its work and finishes. -/
theorem State.Mapped.finishes {f q n op a b : Nat} {blks : List Nat} {s t : State} {c : Cmd} {i : Instr} {w : Work}
    (h : State.Mapped f q n blks s t) (hc : s.started f q n op = some c) (hs : c.status = 0)
    (he : exec i s = .next ((t.setWork f q n w).done f q n a b)) :
    Answers i s [.cp, .tiers, .ctxs, .free] (fun t => t.Ended f q n St.ok a b ∧ s.OnlyCmd f q n t ∧ PreparesMaps s t f q n c blks) := by
  obtain ⟨hcmd, hp, -⟩ := s.started_cases f q n op c hc
  obtain ⟨d, hd, -, -, hdp, hds, -⟩ := h.wrote.cmdOf hcmd
  obtain ⟨d', hd', hm⟩ := h.maps c hcmd
  obtain rfl : d = d' := Option.some.inj (hd.symm.trans hd')
  have hw : (t.setWork f q n w).cmdOf f q n = some { d with work := w, begun := true } := by rw [State.cmdOf_setWork, hd]; rfl
  have hboth : (t.setWork f q n w).done f q n a b =
      t.modCmd f q n (fun c => ({ c with work := w, begun := true } : Cmd).finish ⟨St.ok, a, b⟩) :=
    State.modCmd_modCmd t f q n _ _ (fun _ => rfl)
  refine ⟨_, he, ?_, ?_, ?_, h.bm, ?_⟩
  · exact (h.wrote.only.trans ((t.only_modCmd ..).mono _ (by simp))).trans ((State.only_modCmd ..).mono _ (by simp))
  · exact State.finish_ended _ f q n _ ⟨St.ok, a, b⟩ hw (by rw [hdp, hp]; decide) (hds.trans hs)
  · rw [hboth]
    exact h.wrote.onlyCmd_modCmd _ (fun _ => ⟨rfl, rfl⟩)
  · exact ⟨({ d with work := w, begun := true } : Cmd).finish ⟨St.ok, a, b⟩, by rw [State.done, State.cmdOf_finish, hw]; rfl, hm⟩

theorem blockMap_prepares {s : State} {f q n : Nat} {c : Cmd} (h : s.Runs f q n 0x20 [(2, 0xFFFFFFFF), (3, 0xFFFF), (4, 0x1FFFF), (5, 0xFF)] c)
    (htier : fld (word c.eff 5) 1 0 ≠ 3) (hhint : fld (word c.eff 5) 7 6 ≠ 3) (hcode : fld (word c.eff 5) 5 2 ≤ 2)
    (hpool : s.inPool c.ctx (bwFirst c.eff * blockBytes) (bwCount c.eff * blockBytes) = false) (haddr : addr48 c.eff 2 % blockBytes = 0)
    (h1 : 1 ≤ bwCount c.eff) (h2 : bwCount c.eff ≤ 65536) (h3 : bwFirst c.eff + bwCount c.eff ≤ 2 ^ 30)
    (hmap : ∀ b ∈ rangeBlocks (bwFirst c.eff) (bwCount c.eff), s.isMapped c.ctx b = false)
    (hslots : (s.slotsFor (s.ctxOf c.ctx).part c.ctx (rangeBlocks (bwFirst c.eff) (bwCount c.eff))).isSome = true)
    (hframes : (s.mapFrames f q n c.ctx (fld (word c.eff 5) 1 0) (fld (word c.eff 5) 5 2) (fld (word c.eff 5) 7 6)
      (rangeBlocks (bwFirst c.eff) (bwCount c.eff))).isSome = true) :
    Answers (.blockMap f q n) s [.cp, .tiers, .ctxs, .free] (fun t => t.Ended f q n St.ok (bwCount c.eff) 0 ∧ s.OnlyCmd f q n t ∧
      PreparesMaps s t f q n c (rangeBlocks (bwFirst c.eff) (bwCount c.eff))) := by
  obtain ⟨sl, hsl⟩ := Option.isSome_iff_exists.1 hslots
  obtain ⟨t, ht⟩ := Option.isSome_iff_exists.1 hframes
  refine (State.mapFrames_mapped ht).finishes h.started h.clean (w := .mapping (bwFirst c.eff) (bwCount c.eff)) ?_
  refine h.work_checked ([resv (fld (word c.eff 5) 1 0 ≠ 3 && fld (word c.eff 5) 7 6 ≠ 3) 5, param (decide (fld (word c.eff 5) 5 2 ≤ 2)) 5]
    ++ s.notPool c.ctx c.eff :: blockChecks c.eff ++
    [param ((rangeBlocks (bwFirst c.eff) (bwCount c.eff)).all (fun b => !s.isMapped c.ctx b)) 2]) ?_ ?_
  · simp only [hsl, ht, blockWords, List.append_assoc, List.cons_append, List.nil_append]
  · simpa [State.notPool, blockChecks, htier, hhint, hcode, hpool, haddr, h1, h2] using And.intro h3 hmap

theorem kvConfigure_prepares {s : State} {f q n : Nat} {c : Cmd} (h : s.started f q n 0x54 = some c) (hs : c.status = 0)
    (hmode : bit (word c.eff 2) 0 = true) (hv : verdictOf (s.configChecks c) = none)
    (hframes : (s.mapFrames f q n c.ctx 2 0 0 (rangeBlocks ((geomOf c.eff).pool / blockBytes) (geomOf c.eff).recBlocks)).isSome = true) :
    Answers (.kvConfigure f q n) s [.cp, .tiers, .ctxs, .free] (fun t =>
      t.Ended f q n St.ok (geomOf c.eff).poolSlots (geomOf c.eff).recBlocks ∧ s.OnlyCmd f q n t ∧
      PreparesMaps s t f q n c (rangeBlocks ((geomOf c.eff).pool / blockBytes) (geomOf c.eff).recBlocks)) := by
  obtain ⟨t, ht⟩ := Option.isSome_iff_exists.1 hframes
  refine (State.mapFrames_mapped ht).finishes h hs (w := .geom (geomOf c.eff)) ?_
  show execKvConfigure f q n s = _
  rw [execKvConfigure, s.work_started f q n 0x54 _ c h]
  simp only [hmode, Bool.not_true, Bool.false_eq_true, if_false, s.checked_ok _ _ _ _ _ _ hv, ht]

/-! ### A request to another chip, and a lane's recalibration -/

theorem State.portOf_sendOn_ne (s : State) (p j : Nat) (f : Frame) (h : j ≠ p) : (s.sendOn p f).portOf j = s.portOf j := by
  rw [State.sendOn, State.portOf_modPort, if_neg h]

/-- A request that leaves stands at the end of the list of requests, under the next identifier. -/
theorem State.sendReq_cases {s t : State} {r : PeerReq} (h : s.sendReq r = some t) : s.Only [.fab] t ∧
    ∃ p, t.fab.reqs = s.fab.reqs ++ [{ r with id := s.fab.nextReq % 65536, port := p }] ∧ ∀ j, j ≠ p → t.portOf j = s.portOf j := by
  unfold State.sendReq at h
  dsimp only at h
  rw [Option.map_eq_some_iff] at h
  obtain ⟨p, -, rfl⟩ := h
  refine ⟨(s.only_set_fab _).trans (State.only_modPort ..), p, rfl, fun j hj => ?_⟩
  rw [State.portOf_sendOn_ne _ p j _ hj]
  rfl

/-- A command whose row notes its work, in a state with the command interface as it was. -/
theorem State.Runs.setWork_of {s t : State} {f q n op : Nat} {used : List (Nat × Nat)} {c : Cmd} (h : s.Runs f q n op used c)
    (ht : t.cp = s.cp) (w : Work) : s.OnlyCmd f q n (t.setWork f q n w) ∧
      (t.setWork f q n w).cmdOf f q n = some { c with begun := true, work := w } := by
  refine ⟨⟨fun c => { c with work := w, begun := true }, fun _ => ⟨rfl, rfl⟩, State.modCmd_cp _ _ _ _ _ _ ht⟩, ?_⟩
  rw [State.cmdOf_setWork, State.cmdOf_cp _ _ _ _ _ ht, h.cmd]; rfl

theorem peerMap_asks {s : State} {f q n : Nat} {c : Cmd} (h : s.Runs f q n 0x26 [(2, 0xFFFFFFFF), (3, 0xFFFF), (4, 0x1FFFF), (5, 0x3FFF)] c)
    (hw : c.work = .none) (hpool : s.inPool c.ctx (bwFirst c.eff * blockBytes) (bwCount c.eff * blockBytes) = false)
    (haddr : addr48 c.eff 2 % blockBytes = 0) (h1 : 1 ≤ bwCount c.eff) (h2 : bwCount c.eff ≤ 65536)
    (h3 : bwFirst c.eff + bwCount c.eff ≤ 2 ^ 30) (hchip : fld (word c.eff 5) 13 0 ≠ s.fab.chip)
    (hmap : ∀ b ∈ rangeBlocks (bwFirst c.eff) (bwCount c.eff), s.isMapped c.ctx b = false)
    (hslots : (s.slotsFor (s.ctxOf c.ctx).part c.ctx (rangeBlocks (bwFirst c.eff) (bwCount c.eff))).isSome = true)
    (hquota : s.quotaRoom c.ctx 2 (bwCount c.eff) = true)
    (hreq : (s.sendReq { id := 0, chip := fld (word c.eff 5) 13 0, ctx := c.ctx, lend := true, count := bwCount c.eff }).isSome = true) :
    Answers (.peerMap f q n) s [.cp, .fab] (fun t => s.OnlyCmd f q n t ∧
      t.cmdOf f q n = some { c with begun := true, work := .peer (fld (word c.eff 5) 13 0) 0 (bwCount c.eff) false } ∧
      ∃ r p, t.fab.reqs = s.fab.reqs ++ [r] ∧ r.lend = true ∧ r.chip = fld (word c.eff 5) 13 0 ∧ r.ctx = c.ctx ∧
        r.count = bwCount c.eff ∧ r.port = p ∧ r.id = s.fab.nextReq % 65536 ∧ ∀ j, j ≠ p → t.portOf j = s.portOf j) := by
  obtain ⟨sl, hsl⟩ := Option.isSome_iff_exists.1 hslots
  obtain ⟨t, ht⟩ := Option.isSome_iff_exists.1 hreq
  obtain ⟨honly, p, hreqs, hports⟩ := State.sendReq_cases ht
  obtain ⟨hcmd, hwork⟩ := h.setWork_of (by simpa using honly.cp) (.peer (fld (word c.eff 5) 13 0) 0 (bwCount c.eff) false)
  refine ⟨_, ?_, (honly.mono _ (by simp)).trans ((t.only_setWork f q n _).mono _ (by simp)), hcmd, hwork, _, p, hreqs, rfl, rfl, rfl, rfl,
    rfl, rfl, hports⟩
  refine h.work_checked (s.notPool c.ctx c.eff :: blockChecks c.eff ++ [param (fld (word c.eff 5) 13 0 ≠ s.fab.chip) 5,
    param ((rangeBlocks (bwFirst c.eff) (bwCount c.eff)).all (fun b => !s.isMapped c.ctx b)) 2]) ?_ ?_
  · simp only [hw, hsl, hquota, ht, blockWords, List.append_assoc, List.cons_append, List.nil_append, Option.isNone_some,
      Bool.not_true, Bool.false_eq_true, if_false]
  · simpa [State.notPool, blockChecks, hpool, haddr, h1, h2, hchip] using And.intro h3 hmap

/-- Sending changes nothing of a port but its link layer. -/
theorem Port.send_lanes (p : Port) (f : Frame) :
    (p.send f).recalActive = p.recalActive ∧ (p.send f).recalLane = p.recalLane ∧ (p.send f).lanesUp = p.lanesUp := by
  unfold Port.send
  split_ifs <;> exact ⟨rfl, rfl, rfl⟩

theorem linkRecalibrate_begins {s : State} {f q n : Nat} {c : Cmd} (h : s.Runs f q n 0x73 [(2, 0xFF)] c) (hw : c.work = .none)
    (hup : (s.portOf (fld (word c.eff 2) 4 0)).usable = true) (hrec : (s.portOf (fld (word c.eff 2) 4 0)).recalActive = false)
    (hall : bit (word c.eff 2) 7 = false)
    (hspare : ¬ (nbit (s.portOf (fld (word c.eff 2) 4 0)).lanesUp (fld (word c.eff 2) 6 5) = true ∧
      laneCount (s.portOf (fld (word c.eff 2) 4 0)).lanesUp < 4)) :
    Answers (.linkRecalibrate f q n) s [.cp, .fab] (fun t => s.OnlyCmd f q n t ∧
      t.cmdOf f q n = some { c with begun := true, work := .port (fld (word c.eff 2) 4 0) (fld (word c.eff 2) 6 5) false 0 } ∧
      (t.portOf (fld (word c.eff 2) 4 0)).recalActive = true ∧ (t.portOf (fld (word c.eff 2) 4 0)).recalLane = fld (word c.eff 2) 6 5 ∧
      (t.portOf (fld (word c.eff 2) 4 0)).lanesUp = (s.portOf (fld (word c.eff 2) 4 0)).lanesUp ∧
      ∀ j, j ≠ fld (word c.eff 2) 4 0 → t.portOf j = s.portOf j) := by
  generalize hp : fld (word c.eff 2) 4 0 = p at *
  generalize hl : fld (word c.eff 2) 6 5 = lane at *
  set t := (s.modPort p (fun x => { x with recalActive := true, recalLane := lane })).sendOn p (s.laneFrame lane 0) with ht
  have honly : s.Only [.fab] t := (s.only_modPort p _).trans (State.only_modPort ..)
  have hself : t.portOf p = ({ s.portOf p with recalActive := true, recalLane := lane } : Port).send (s.laneFrame lane 0) := by
    rw [ht, State.sendOn, State.portOf_modPort_self, State.portOf_modPort_self]
  obtain ⟨hactive, hlane, hlanes⟩ := Port.send_lanes { s.portOf p with recalActive := true, recalLane := lane } (s.laneFrame lane 0)
  obtain ⟨hcmd, hwork⟩ := h.setWork_of (t := t) rfl (.port p lane false 0)
  refine ⟨t.setWork f q n (.port p lane false 0), ?_, (honly.mono _ (by simp)).trans ((t.only_setWork f q n _).mono _ (by simp)), hcmd, hwork,
    (congrArg Port.recalActive hself).trans hactive, (congrArg Port.recalLane hself).trans hlane,
    (congrArg Port.lanesUp hself).trans hlanes, fun j hj => ?_⟩
  · refine h.work_checked [param (s.portOf p).usable 2, need (!(s.portOf p).recalActive) St.targetBusy 0 0] ?_ (by simp [hup, hrec])
    simp only [hw, hp, hl, hall, Bool.false_eq_true, if_false, State.recalLane, if_neg hspare]
    rfl
  · exact (State.portOf_sendOn_ne _ p j _ hj).trans ((State.portOf_modPort ..).trans (if_neg hj))

/-! ### STREAM_RESUME -/

theorem tget_mem {α : Type} (d v : α) (t : Tbl α) (k : Nat) (h : tget d t k = v) (hv : v ≠ d) : (k, v) ∈ t := by
  induction t with
  | nil => exact absurd h.symm hv
  | cons p r ih =>
    obtain ⟨i, w⟩ := p
    by_cases hi : i = k
    · simp only [tget, hi, if_true] at h
      simp [hi, h]
    · simp only [tget, hi, if_false] at h
      exact List.mem_cons_of_mem _ (ih h)

theorem State.mem_usedSlots_of_tget {s : State} {key : Nat} {v : Slot} (h : tget none s.slots key = some v) : (key, v) ∈ s.usedSlots :=
  State.mem_usedSlots.2 (tget_mem none (some v) s.slots key h (by simp))

theorem State.remark_slots_ne (s : State) (key j : Nat) (h : j ≠ key) : tget none (s.remark key).slots j = tget none s.slots j := by
  unfold State.remark
  split
  · rfl
  · split
    · rfl
    · dsimp only
      split_ifs <;> exact tget_tset_ne _ _ _ _ _ h

/-- The stream stands where it stood. -/
theorem State.remark_slots_self {s : State} {key : Nat} {v : Slot} (h : tget none s.slots key = some v) :
    ∃ u, tget none (s.remark key).slots key = some u ∧ u.state = v.state ∧ u.posTile = v.posTile ∧ u.marks = v.marks ∧ u.desc = v.desc := by
  unfold State.remark
  simp only [h]
  by_cases hv : v.toCmem = true ∨ v.state = .waiting
  · rw [if_pos hv]
    exact ⟨v, h, rfl, rfl, rfl, rfl⟩
  · rw [if_neg hv]
    split
    · exact ⟨_, tget_tset_self .., rfl, rfl, rfl, rfl⟩
    · exact ⟨_, tget_tset_self .., rfl, rfl, rfl, rfl⟩

/-- A halted stream runs again from where it stands, and no other stream differs. -/
theorem State.resumeSlot_halted {s : State} {key : Nat} {v : Slot} (h : tget none s.slots key = some v) (hv : v.state.isHalted = true) :
    s.Only [.slots, .ctxs] (s.resumeSlot key) ∧
    (∃ u, tget none (s.resumeSlot key).slots key = some u ∧ u.state = .running ∧ u.posTile = v.posTile ∧ u.marks = v.marks ∧
      u.desc = v.desc) ∧ ∀ j, j ≠ key → tget none (s.resumeSlot key).slots j = tget none s.slots j := by
  have hkey : key / 64 * 64 + key % 64 = key := by omega
  unfold State.resumeSlot
  set t := s.modSlot (key / 64) (key % 64) (fun (v : Slot) => if v.state.isHalted then { v with state := .running } else v) with ht
  have hslots : t.slots = tmod none s.slots key (fun o => o.map (fun v => if v.state.isHalted then { v with state := .running } else v)) := by
    rw [ht, State.modSlot, hkey]
  have hself : tget none t.slots key = some { v with state := .running } := by
    rw [hslots, tget_tmod_self, h, Option.map_some, if_pos hv]
  have hmarks := State.remark_slots_self hself
  refine ⟨((s.only_set_slots _).mono _ (by simp)).trans (t.only_remark key), hmarks, fun j hj => ?_⟩
  rw [State.remark_slots_ne _ _ _ hj, hslots, tget_tmod, if_neg hj]

/-- The stream is halted under a fault number. -/
def StreamState.haltedAs (x : StreamState) (id : Nat) : Bool :=
  match x with
  | .halted _ k => k = id
  | _ => false

theorem StreamState.haltedAs_iff (x : StreamState) (id : Nat) : x.haltedAs id = true ↔ ∃ cause, x = .halted cause id := by
  cases x <;> simp [StreamState.haltedAs]

theorem State.resumeHalt_eq (s : State) (ctx id : Nat) : s.resumeHalt ctx id =
    (s.usedSlots.find? (fun p => p.2.ctx = ctx && p.2.state.haltedAs id)).elim (s, 0) (fun p => (s.resumeSlot p.1, 1)) := by
  unfold State.resumeHalt
  split
  · next key v heq =>
    have hfind : s.usedSlots.find? (fun p => p.2.ctx = ctx && p.2.state.haltedAs id) = some (key, v) := heq
    rw [hfind]; rfl
  · next heq =>
    have hfind : s.usedSlots.find? (fun p => p.2.ctx = ctx && p.2.state.haltedAs id) = none := heq
    rw [hfind]; rfl

theorem State.resumeHalt_found {s : State} {ctx id key cause : Nat} {v : Slot} (h : tget none s.slots key = some v) (hctx : v.ctx = ctx)
    (hstate : v.state = .halted cause id)
    (hone : ∀ p ∈ s.usedSlots, p.2.ctx = ctx → (∃ k, p.2.state = .halted k id) → p.1 = key) :
    s.resumeHalt ctx id = (s.resumeSlot key, 1) := by
  rw [State.resumeHalt_eq]
  cases hfind : s.usedSlots.find? (fun p => p.2.ctx = ctx && p.2.state.haltedAs id) with
  | none =>
    have := List.find?_eq_none.1 hfind _ (State.mem_usedSlots_of_tget h)
    simp [hctx, hstate, StreamState.haltedAs] at this
  | some p =>
    have hp := List.find?_some hfind
    rw [Bool.and_eq_true, decide_eq_true_eq, StreamState.haltedAs_iff] at hp
    rw [Option.elim_some, hone p (List.mem_of_find?_eq_some hfind) hp.1 hp.2]

theorem State.resumeHalt_none {s : State} {ctx id : Nat} (h : ∀ p ∈ s.usedSlots, p.2.ctx = ctx → ∀ k, p.2.state ≠ .halted k id) :
    s.resumeHalt ctx id = (s, 0) := by
  rw [State.resumeHalt_eq, List.find?_eq_none.2, Option.elim_none]
  intro p hp hh
  rw [Bool.and_eq_true, decide_eq_true_eq, StreamState.haltedAs_iff] at hh
  obtain ⟨hctx, k, hk⟩ := hh
  exact h p hp hctx k hk

theorem State.commitTables_streamResume (s : State) (f q : Nat) (c : Cmd) (h : c.op = 0x32) :
    s.commitTables f q c = .ok (s.resumeHalt c.ctx (fld (word c.eff 2) 15 0)).1 (s.resumeHalt c.ctx (fld (word c.eff 2) 15 0)).2 0 := by
  simp [State.commitTables, h]

/-! ### LINK_RESTORE -/

theorem linkRestore_finishes {s : State} {f q n lanes chip port : Nat} {c : Cmd} (h : s.Runs f q n 0x72 [(2, 0x1F)] c)
    (hup : (s.portOf (fld (word c.eff 2) 4 0)).usable = false) :
    Answers (.linkRestore f q n lanes chip port) s [.cp] (fun t =>
      t.Ended f q n St.ok (if laneCount lanes < 3 then 0 else lanes % 16) 0 ∧ s.OnlyCmd f q n t ∧
      ∃ d, t.cmdOf f q n = some d ∧ d.work = .restore (fld (word c.eff 2) 4 0) lanes chip port) := by
  have he : exec (.linkRestore f q n lanes chip port) s = .next ((s.setWork f q n (.restore (fld (word c.eff 2) 4 0) lanes chip port)).done
      f q n (if laneCount lanes < 3 then 0 else lanes % 16) 0) :=
    h.work_reserved (by simp only [hup, Bool.false_eq_true, if_false])
  obtain ⟨t, ht, hended, hcmd, honly⟩ := finishes_work h _ _ _ he
  refine ⟨t, ht, honly, hended, hcmd, ?_⟩
  obtain rfl := Host.Outcome.next.inj (he.symm.trans ht)
  exact ⟨_, by rw [State.done, State.cmdOf_finish, State.cmdOf_setWork, h.cmd]; rfl, rfl⟩

/-- A port trained with three lanes or more is up, with those lanes and the neighbour the training found (R414). -/
theorem State.trained_up (s : State) (p lanes chip nport : Nat) (h : 3 ≤ laneCount lanes) :
    s.Only [.fab, .isl, .mgmt, .cores, .power, .ctxs, .free] (s.trained p lanes chip nport) ∧
    (s.trained p lanes chip nport).portOf p = { s.portOf p with
      state := 2, mappedOut := false, downCause := 0, lanesUp := lanes % 16, lanesFailed := 15 - lanes % 16, nChip := chip,
      nPort := nport, txSeq := 0, rxSeq := 0, replayBuf := [], held := [], failedReplays := 0, unreported := 0 } ∧
    ∀ j, j ≠ p → (s.trained p lanes chip nport).portOf j = s.portOf j := by
  unfold State.trained
  rw [if_neg (by omega)]
  extract_lets s1 s2
  have h1 : s.Only [.fab] s1 := s.only_modPort p _
  have h2 : s1.Only showGroups s2 := by
    by_cases hl : lanes % 16 = 15
    · simp only [s2, if_pos hl]; exact State.Only.refl _ _
    · simp only [s2, if_neg hl]; exact State.only_report ..
  have hfab : s2.fab = s1.fab := by simpa [showGroups] using h2.fab
  have hport : ∀ j, s2.clearDead.portOf j = s1.portOf j := fun j => by
    show tget {} s2.fab.ports j = tget {} s1.fab.ports j
    rw [hfab]
  refine ⟨((h1.mono _ (by simp)).trans (h2.mono _ (by simp [showGroups]))).trans ((s2.only_set_fab _).mono _ (by simp)), ?_, fun j hj => ?_⟩
  · rw [hport, State.portOf_modPort_self]
  · rw [hport, State.portOf_modPort, if_neg hj]

theorem State.commitTables_linkRestore (s : State) (f q p lanes chip nport : Nat) (c : Cmd) (h : c.op = 0x72)
    (hw : c.work = .restore p lanes chip nport) (hup : (s.portOf p).usable = false) :
    s.commitTables f q c = .ok (s.trained p lanes chip nport) c.resA.toNat c.resB.toNat := by
  simp [State.commitTables, h, hw, State.commitRestore, hup]

/-! ### The obligation -/

/-- Settles O7, command by command: frames are taken one by one (`State.Mapped`), a halted stream is found by its number
(`State.resumeHalt_eq`), a port is trained (`State.trained_up`). -/
theorem mappingCommandsPrepare : Obligations.MappingCommandsPrepare := by
  unfold Obligations.MappingCommandsPrepare
  intro s f q n c
  refine ⟨blockMap_prepares, kvConfigure_prepares, peerMap_asks, ?resume, ?halted, ?none, fun _ _ _ => linkRestore_finishes, ?trained,
    linkRecalibrate_begins⟩
  case resume =>
    intro h hid
    exact finishes_done h 0 0 (h.work_checked [param (fld (word c.eff 2) 15 0 ≠ 0) 2] rfl (by simpa using hid))
  case halted =>
    intro key v cause hop hv hctx hstate hone
    obtain ⟨honly, hself, hother⟩ := State.resumeSlot_halted hv (by rw [hstate]; rfl)
    refine ⟨s.resumeSlot key, ?_, honly, hself, hother⟩
    rw [s.commitTables_streamResume f q c hop, State.resumeHalt_found hv hctx hstate hone]
  case none =>
    intro hop hnone
    rw [s.commitTables_streamResume f q c hop, State.resumeHalt_none hnone]
  case trained =>
    intro p lanes chip nport hop hw hup hl
    obtain ⟨honly, hself, hother⟩ := s.trained_up p lanes chip nport hl
    refine ⟨_, s.commitTables_linkRestore f q p lanes chip nport c hop hw hup, honly, ?_⟩
    rw [hself]
    exact ⟨rfl, rfl, rfl, rfl, rfl, hother⟩

end Sys2Proof.Machine
end

section
/-! Reads of cores, hands and layouts after an update: what sits beside the lemmas of Laws/State.lean for the rows of the cores. -/
namespace Sys2Proof.Machine

theorem State.coreOf_modCore_ne (s : State) (c j : Nat) (g : Core → Core) (h : j ≠ c) : (s.modCore c g).coreOf j = s.coreOf j := by
  rw [State.coreOf_modCore, if_neg h]

theorem State.coreOf_modHand_ne (s : State) (c i j : Nat) (g : Hand → Hand) (h : j ≠ c) : (s.modHand c i g).coreOf j = s.coreOf j :=
  s.coreOf_modCore_ne c j _ h

/-- An update of a hand changes of its core no more than its hands. -/
theorem State.coreOf_modHand (s : State) (c i : Nat) (g : Hand → Hand) :
    (s.modHand c i g).coreOf c = { s.coreOf c with hands := tmod none (s.coreOf c).hands i (fun o => o.map g) } :=
  s.coreOf_modCore_self c _

theorem State.handOf_modHand_ne (s : State) (c i j : Nat) (g : Hand → Hand) (h : j ≠ i) : (s.modHand c i g).handOf c j = s.handOf c j := by
  rw [State.handOf, State.coreOf_modHand, tget_tmod, if_neg h, State.handOf]

theorem State.handOf_modCore (s : State) (c i : Nat) (g : Core → Core) :
    (s.modCore c g).handOf c i = tget none (g (s.coreOf c)).hands i := by
  rw [State.handOf, State.coreOf_modCore_self]

/-- An update of a core that leaves its hands. -/
theorem State.handOf_modCore_hands (s : State) (c i : Nat) (g : Core → Core) (h : (g (s.coreOf c)).hands = (s.coreOf c).hands) :
    (s.modCore c g).handOf c i = s.handOf c i := by
  rw [State.handOf_modCore, h, State.handOf]

theorem State.handOf_modCore_ne (s : State) (c j i : Nat) (g : Core → Core) (h : j ≠ c) : (s.modCore c g).handOf j i = s.handOf j i := by
  rw [State.handOf, State.coreOf_modCore_ne _ _ _ _ h, State.handOf]

theorem State.only_modHand (s : State) (c i : Nat) (g : Hand → Hand) : s.Only [.cores] (s.modHand c i g) := s.only_modCore c _

theorem State.ctxOf_modCtx_ne (s : State) (c j : Nat) (g : Context → Context) (h : j ≠ c) : (s.modCtx c g).ctxOf j = s.ctxOf j := by
  rw [State.ctxOf_modCtx, if_neg h]

/-- An update of a context that leaves its layouts. -/
theorem State.layoutOf_modCtx_layouts (s : State) (c l : Nat) (g : Context → Context) (h : (g (s.ctxOf c)).layouts = (s.ctxOf c).layouts) :
    (s.modCtx c g).layoutOf c l = s.layoutOf c l := by
  rw [State.layoutOf, State.ctxOf_modCtx_self, h, State.layoutOf]

theorem State.layoutOf_modLayout_ne (s : State) (c l k : Nat) (g : Layout → Layout) (h : k ≠ l) :
    (s.modLayout c l g).layoutOf c k = s.layoutOf c k := by
  rw [State.layoutOf, State.modLayout, State.ctxOf_modCtx_self, tget_tmod, if_neg h, State.layoutOf]

theorem State.modCtx_coreOf (s : State) (c j : Nat) (g : Context → Context) : (s.modCtx c g).coreOf j = s.coreOf j := rfl

theorem State.modLayout_coreOf (s : State) (c l j : Nat) (g : Layout → Layout) : (s.modLayout c l g).coreOf j = s.coreOf j := rfl

theorem onlyIf_next {b : Bool} {s t : State} (h : b = true) : onlyIf b s t = .next t := by rw [onlyIf, if_pos h]

/-! ### A destination across an open link -/

/-- A destination of a route on core is a neighbour output with no station, and its link to the core nb is open (R30, R101). -/
structure State.Crosses (s : State) (core nb : Nat) (d : Dest) : Prop where
  out   : d.target ≤ 3
  bare  : s.findStation core d.target d.channel true = none
  clear : s.linkClosed core d.target = false
  leads : neighbour core d.target = some nb

theorem State.findStation_ctxs {s t : State} (h : t.ctxs = s.ctxs) (core port ch : Nat) (out : Bool) :
    t.findStation core port ch out = s.findStation core port ch out := by
  unfold State.findStation State.allLayouts
  rw [h]

theorem State.clusterOwner_parts {s t : State} (h : t.parts = s.parts) (cl : Nat) : t.clusterOwner cl = s.clusterOwner cl := by
  have hpart : t.partOf = s.partOf := by
    funext p
    rw [State.partOf, h, State.partOf]
  unfold State.clusterOwner State.partEnabled State.pfld
  rw [hpart]

theorem State.linkClosed_congr {s t : State} (hp : t.parts = s.parts) (hm : t.mgmt = s.mgmt) (core port : Nat) :
    t.linkClosed core port = s.linkClosed core port := by
  unfold State.linkClosed State.clusterFenced
  simp only [State.clusterOwner_parts hp]
  rw [hm]

/-- The cores have no part in where a destination leads. -/
theorem State.Crosses.of_only {s t : State} {core nb : Nat} {d : Dest} (h : s.Crosses core nb d) (ht : s.Only [.cores] t) :
    t.Crosses core nb d where
  out := h.out
  bare := by rw [State.findStation_ctxs (by simpa using ht.ctxs), h.bare]
  clear := by rw [State.linkClosed_congr (by simpa using ht.parts) (by simpa using ht.mgmt), h.clear]
  leads := h.leads

theorem State.Crosses.destClosed {s : State} {core nb : Nat} {d : Dest} (h : s.Crosses core nb d) : s.destClosed core d = false := by
  simp [State.destClosed, h.clear]

/-- The register across the link that a destination of a core feeds. -/
def Dest.input (d : Dest) : Nat := (d.target + 2) % 4 * 4 + d.channel

/-- A tile has room where the register across the link has credits for its flits (R95, R98). -/
theorem State.Crosses.destRoom {s : State} {core nb : Nat} {d : Dest} (h : s.Crosses core nb d) (t : Tile)
    (hc : t.slots ≤ (s.coreOf nb).credits d.input) : s.destRoom core t d = true := by
  rw [Dest.input] at hc
  simp [State.destRoom, State.outRoom, h.out, h.bare, h.clear, h.leads, hc]

/-- The first tile of an input leaves it. -/
def State.popIn (s : State) (core input : Nat) : State :=
  s.modCore core (fun k => { k with inq := tmod [] k.inq input (fun x => x.drop 1) })

theorem State.only_popIn (s : State) (core input : Nat) : s.Only [.cores] (s.popIn core input) := s.only_modCore core _

theorem State.inq_popIn {s : State} {core input : Nat} {t : Tile} {rest : List Tile} (h : tget [] (s.coreOf core).inq input = t :: rest) :
    tget [] ((s.popIn core input).coreOf core).inq input = rest := by
  rw [State.popIn, State.coreOf_modCore_self, tget_tmod_self, h, List.drop_one, List.tail_cons]

theorem State.coreOf_popIn_ne (s : State) (core input j : Nat) (h : j ≠ core) : (s.popIn core input).coreOf j = s.coreOf j :=
  s.coreOf_modCore_ne core j _ h

theorem State.handOf_popIn (s : State) (core input i : Nat) : (s.popIn core input).handOf core i = s.handOf core i :=
  s.handOf_modCore_hands core i _ rfl

/-- A tile enters an input of a core behind those there. -/
def State.pushIn (s : State) (nb input : Nat) (t : Tile) : State :=
  s.modCore nb (fun k => { k with inq := tmod [] k.inq input (fun x => x ++ [t]) })

theorem State.Crosses.sendOut {s : State} {core nb : Nat} {d : Dest} (h : s.Crosses core nb d) (t : Tile) :
    s.sendOut core t d.target d.channel = s.pushIn nb d.input t := by
  simp [State.sendOut, h.bare, h.clear, h.leads, State.pushIn, Dest.input]

/-- A route with this one destination takes a tile across the link (R97). -/
theorem State.Crosses.toDests {s : State} {core nb : Nat} {d : Dest} (h : s.Crosses core nb d) (src : Nat) {r : Route} (ri : Nat)
    (mk : Dest → Tile) (hr : r.dests = [d]) :
    s.toDests core src r ri mk = (s.modCore core (fun k => k.grant src r)).pushIn nb d.input (mk d) := by
  have hg := (h.of_only (s.only_modCore core (fun k => k.grant src r))).sendOut (mk d)
  simp [State.toDests, hr, h.destClosed, h.out, hg]

theorem State.only_pushIn (s : State) (nb input : Nat) (t : Tile) : s.Only [.cores] (s.pushIn nb input t) := s.only_modCore nb _

theorem State.inq_pushIn (s : State) (nb input : Nat) (t : Tile) :
    tget [] ((s.pushIn nb input t).coreOf nb).inq input = tget [] (s.coreOf nb).inq input ++ [t] := by
  rw [State.pushIn, State.coreOf_modCore_self, tget_tmod_self]

theorem State.coreOf_pushIn_ne (s : State) (nb input j : Nat) (t : Tile) (h : j ≠ nb) : (s.pushIn nb input t).coreOf j = s.coreOf j :=
  s.coreOf_modCore_ne nb j _ h

theorem State.handOf_pushIn_ne (s : State) (nb input j i : Nat) (t : Tile) (h : j ≠ nb) : (s.pushIn nb input t).handOf j i = s.handOf j i :=
  s.handOf_modCore_ne nb j i _ h

end Sys2Proof.Machine
end

section
/-! One operation of each engine of a core (R104 to R118, R161, R212): the row where no check fails, and from the four rows O14. -/
namespace Sys2Proof.Machine

/-! ### Issue (R106 to R118) -/

/-- A hand whose pair e has issued with its token: the bank the contraction gave, and the drain armed where the token asks (R110, R112). -/
def Hand.afterIssue (h : Hand) (e : PairEntry) (tok : List Word) (bank : Tbl Lane) : Hand :=
  { h.popPair 0 e with
    bank := bank, bankRowsM1 := (e.data.getD {}).rowsM1, issued := h.issued + 1,
    preload := if nbit (wnat tok 0) 3 then h.preload.drop 1 else h.preload,
    drainTag := if nbit (wnat tok 0) 1 then some (e.data.getD {}).tag else none, drainOwn := (e.data.getD {}).own }

/-- The state in which the core has chosen the hand of a slot: a change of hand restarts its run of pairs (R118). -/
def State.switchTo (s : State) (core slot : Nat) : State :=
  if slot = (s.coreOf core).active then s else s.modCore core (fun x => { x with active := slot, runPairs := 0 })

/-- What the choice of a slot sets of a core. -/
def Core.switched (k : Core) (slot : Nat) : Core :=
  if slot = k.active then k else { k with active := slot, runPairs := 0 }

theorem State.only_switchTo (s : State) (core slot : Nat) : s.Only [.cores] (s.switchTo core slot) := by
  unfold State.switchTo
  split
  · exact State.Only.refl _ _
  · exact s.only_modCore core _

theorem State.coreOf_switchTo (s : State) (core slot : Nat) : (s.switchTo core slot).coreOf core = (s.coreOf core).switched slot := by
  unfold State.switchTo Core.switched
  split
  · rfl
  · rw [State.coreOf_modCore_self]

theorem State.coreOf_switchTo_ne (s : State) (core slot j : Nat) (h : j ≠ core) : (s.switchTo core slot).coreOf j = s.coreOf j := by
  unfold State.switchTo
  split
  · rfl
  · exact s.coreOf_modCore_ne core j _ h

theorem Core.switched_hands (k : Core) (slot : Nat) : (k.switched slot).hands = k.hands := by unfold Core.switched; split <;> rfl

theorem Core.switched_tq (k : Core) (slot : Nat) : (k.switched slot).tq = k.tq := by unfold Core.switched; split <;> rfl

theorem Core.switched_active (k : Core) (slot : Nat) : (k.switched slot).active = slot := by
  unfold Core.switched
  split
  · next h => exact h.symm
  · rfl

theorem Core.switched_runPairs (k : Core) (slot : Nat) :
    (k.switched slot).runPairs + 1 = if slot = k.active then k.runPairs + 1 else 1 := by
  unfold Core.switched
  split <;> rfl

theorem State.handOf_switchTo (s : State) (core slot i : Nat) : (s.switchTo core slot).handOf core i = s.handOf core i := by
  rw [State.handOf, State.coreOf_switchTo, Core.switched_hands, State.handOf]

/-- An issue inside the window without overflow, wide output or read stream changes its hand and counts the pair. -/
theorem State.issue_plain {s : State} {core slot : Nat} {h : Hand} {e : PairEntry} {tok : List Word} {bank : Tbl Lane}
    (hwide : nbit (wnat tok 0) 2 = false) (hread : nbit (wnat tok 0) 5 = false) (hwin : (s.bTile core h tok).2 = true)
    (hbank : h.contract tok (e.data.getD {}) (s.bTile core h tok).1 = (bank, false)) :
    s.issue core slot h e tok =
      (s.modHand core slot (fun x => x.afterIssue e tok bank)).modCore core (fun k => { k with runPairs := k.runPairs + 1 }) := by
  generalize hb : s.bTile core h tok = b at hwin hbank
  obtain ⟨b, w⟩ := b
  obtain rfl : w = true := hwin
  simp only [State.issue, hb, hbank, hwide, hread, State.indicate]
  rfl

/-- PAIR_ISSUE where the hand of the switch rule is ready, its token is in order and no check fails. -/
theorem execPairIssue_issues {s : State} {core slot : Nat} {h : Hand} {e : PairEntry} {tok : List Word}
    (hready : s.handReady core slot = true)
    (hslot : slot = nextHand (s.coreOf core).active (s.handReady core) (s.coreOf core).runPairs)
    (hh : s.handOf core slot = some h) (he : h.nextPair 0 = some e) (htok : h.matrixToken e = (tok, false)) (hbad : mtokenBad tok = false) :
    execPairIssue core .clean s = .next ((s.switchTo core slot).issue core slot h e tok) := by
  have hact := s.handOf_switchTo core slot slot
  rw [hh] at hact
  unfold execPairIssue
  dsimp only
  rw [← hslot, hready, ← State.switchTo, hact]
  simp only [he, htok, hbad]
  rfl

theorem pairIssue_computes {s : State} {core slot : Nat} {h : Hand} {e : PairEntry} {tok : List Word} {bank : Tbl Lane}
    (hready : s.handReady core slot = true)
    (hslot : slot = nextHand (s.coreOf core).active (s.handReady core) (s.coreOf core).runPairs)
    (hh : s.handOf core slot = some h) (he : h.nextPair 0 = some e) (htok : h.matrixToken e = (tok, false)) (hbad : mtokenBad tok = false)
    (hwide : nbit (wnat tok 0) 2 = false) (hread : nbit (wnat tok 0) 5 = false) (hwin : (s.bTile core h tok).2 = true)
    (hbank : h.contract tok (e.data.getD {}) (s.bTile core h tok).1 = (bank, false)) :
    Answers (.pairIssue core .clean) s [.cores] (fun t =>
      t.handOf core slot = some (h.afterIssue e tok bank) ∧ (t.coreOf core).active = slot ∧
      (t.coreOf core).runPairs = (if slot = (s.coreOf core).active then (s.coreOf core).runPairs + 1 else 1) ∧
      (t.coreOf core).tq = (s.coreOf core).tq ∧
      (∀ i, i ≠ slot → t.handOf core i = s.handOf core i) ∧ ∀ j, j ≠ core → t.coreOf j = s.coreOf j) := by
  have hb : (s.switchTo core slot).bTile core h tok = s.bTile core h tok := by
    rw [State.bTile, show (s.switchTo core slot).sram = s.sram by simpa using (s.only_switchTo core slot).sram, State.bTile]
  have hexec := execPairIssue_issues hready hslot hh he htok hbad
  rw [State.issue_plain hwide hread (hb ▸ hwin) (hb ▸ hbank)] at hexec
  refine ⟨_, hexec, ?_, ?_, ?_, ?_, ?_, fun i hi => ?_, fun j hj => ?_⟩
  · exact ((s.only_switchTo core slot).trans (State.only_modHand ..)).trans (State.only_modCore ..)
  · rw [State.handOf_modCore_hands _ _ _ _ rfl, State.handOf_modHand_self, State.handOf_switchTo, hh, Option.map_some]
  · rw [State.coreOf_modCore_self, State.coreOf_modHand, State.coreOf_switchTo, Core.switched_active]
  · rw [State.coreOf_modCore_self, State.coreOf_modHand, State.coreOf_switchTo, ← Core.switched_runPairs]
  · rw [State.coreOf_modCore_self, State.coreOf_modHand, State.coreOf_switchTo, Core.switched_tq]
  · rw [State.handOf_modCore_hands _ _ _ _ rfl, State.handOf_modHand_ne _ _ _ _ _ hi, State.handOf_switchTo]
  · rw [State.coreOf_modCore_ne _ _ _ _ hj, State.coreOf_modHand_ne _ _ _ _ _ hj, State.coreOf_switchTo_ne _ _ _ _ hj]

/-! ### The SRAM write port (R104, R514) -/

/-- STORE_WRITE with a token in order, inside the hand's window. -/
theorem storeWrite_stores {s : State} {core slot first : Nat} {h : Hand} {e : PairEntry} {tile : Tile} (hh : s.handOf core slot = some h)
    (hf : (s.coreOf core).fenced = false) (he : h.nextPair 2 = some e) (htile : tile = e.data.getD {})
    (h0 : bits (wnat (e.ctl.getD {}).words 0) 31 12 = 0) (h1 : wnat (e.ctl.getD {}).words 1 = 0)
    (hrest : (e.ctl.getD {}).restSet 8 = false) (hfirst : first = (h.img.sramBase + bits (wnat (e.ctl.getD {}).words 0) 11 0) * 64)
    (hfit : bits (wnat (e.ctl.getD {}).words 0) 11 0 * 64 + tile.bytes ≤ (h.img.sramSizeM1 + 1) * 64) :
    Answers (.storeWrite core slot .clean) s [.cores, .sram] (fun t =>
      t.handOf core slot = some { h.popPair 2 e with p2Last := some e.tag } ∧
      (∀ a, cellGet t.sram a =
        if core * 2 ^ 18 + first ≤ a ∧ a < core * 2 ^ 18 + first + tile.flits.length then tile.flits.getD (a - (core * 2 ^ 18 + first)) 0
        else cellGet s.sram a) ∧
      (∀ i, i ≠ slot → t.handOf core i = s.handOf core i) ∧ ∀ j, j ≠ core → t.coreOf j = s.coreOf j) := by
  subst htile
  have hexec : execStoreWrite core slot .clean s = .next
      { s.modHand core slot (fun x => { x.popPair 2 e with p2Last := some e.tag }) with
        sram := cellWrite s.sram (core * 2 ^ 18 + first) (e.data.getD {}).flits } := by
    simp [execStoreWrite, hh, hf, he, h0, h1, hrest, State.coreCheck, hfit, hfirst]
  refine ⟨_, hexec, ?_, ?_, fun a => cellGet_cellWrite .., fun i hi => ?_, fun j hj => ?_⟩
  · exact ((s.only_modHand core slot _).mono _ (by decide)).trans ((State.only_set_sram _ _).mono _ (by decide))
  · exact (s.handOf_modHand_self core slot _).trans (by rw [hh, Option.map_some])
  · exact s.handOf_modHand_ne core slot i _ hi
  · exact s.coreOf_modHand_ne core slot j _ hj

/-! ### The drain (R111, R112, R161) -/

/-- The hands of a core that have a chain: each keeps room for its own drains in the Tile Queue (R112). -/
def State.chained (s : State) (core : Nat) : List Nat :=
  (List.range 4).filter (fun i => match s.handOf core i with
    | some x => !x.img.chain.isEmpty
    | none => false)

/-- The entry a drain of a slot appends to the Tile Queue: the rounded bank under the drain's tag. -/
def Hand.drained (h : Hand) (slot tag : Nat) (data : List Byte) : TqEntry :=
  ⟨slot, { fmt := h.img.outFmt, rowsM1 := h.bankRowsM1, colsM1 := h.img.outColsM1,
           ctx := h.ctx, hand := slot, deal := h.deal, tag := tag, data := data, own := h.drainOwn }⟩

/-- DRAIN of a hand with a chain, rounding without overflow: it waits for room in the Tile Queue, then appends the bank and disarms. -/
theorem execDrain_eq {s : State} {core slot tag : Nat} {h : Hand} {data : List Byte} (hh : s.handOf core slot = some h)
    (hf : (s.coreOf core).fenced = false) (htag : h.drainTag = some tag) (hchain : h.img.chain ≠ [])
    (hdata : drainData h.img.outFmt h.roundTz h.bank h.bankRowsM1 h.img.outColsM1 = (data, false)) :
    execDrain core slot .clean s =
      onlyIf (decide ((s.coreOf core).tq.length < 8) &&
          decide (((s.coreOf core).tq.filter (fun e => e.hand = slot)).length + (s.chained core).length < 9)) s
        ((s.modHand core slot (fun x => { x with drainTag := none, drainOwn := none })).modCore core
          (fun c => { c with tq := c.tq ++ [h.drained slot tag data] })) := by
  simp only [execDrain, hh, hf, htag, if_neg hchain, hdata, State.coreCheck, State.indicate]
  rfl

theorem drain_drains {s : State} {core slot tag : Nat} {h : Hand} {data : List Byte} (hh : s.handOf core slot = some h)
    (hf : (s.coreOf core).fenced = false) (htag : h.drainTag = some tag) (hchain : h.img.chain ≠ [])
    (hlen : (s.coreOf core).tq.length < 8)
    (hroom : ((s.coreOf core).tq.filter (fun e => e.hand = slot)).length + (s.chained core).length < 9)
    (hdata : drainData h.img.outFmt h.roundTz h.bank h.bankRowsM1 h.img.outColsM1 = (data, false)) :
    Answers (.drain core slot .clean) s [.cores] (fun t =>
      t.handOf core slot = some { h with drainTag := none, drainOwn := none } ∧
      (t.coreOf core).tq = (s.coreOf core).tq ++ [h.drained slot tag data] ∧
      (∀ i, i ≠ slot → t.handOf core i = s.handOf core i) ∧ ∀ j, j ≠ core → t.coreOf j = s.coreOf j) := by
  have hexec := (execDrain_eq hh hf htag hchain hdata).trans (onlyIf_next (by simp [hlen, hroom]))
  refine ⟨_, hexec, (State.only_modHand ..).trans (State.only_modCore ..), ?_, ?_, fun i hi => ?_, fun j hj => ?_⟩
  · rw [State.handOf_modCore_hands _ _ _ _ rfl, State.handOf_modHand_self, hh, Option.map_some]
  · rw [State.coreOf_modCore_self, State.coreOf_modHand]
  · rw [State.handOf_modCore_hands _ _ _ _ rfl, State.handOf_modHand_ne _ _ _ _ _ hi]
  · rw [State.coreOf_modCore_ne _ _ _ _ hj, State.coreOf_modHand_ne _ _ _ _ _ hj]

/-! ### A run of the chain (R113, R114, R212) -/

/-- An engine's tile whose route has one destination, across an open link, and room there (R97). -/
theorem State.Crosses.emitRoom {s : State} {core slot src sel nb ri : Nat} {h : Hand} {r : Route} {d : Dest} (hx : s.Crosses core nb d)
    (hh : s.handOf core slot = some h) (hroute : h.routeFor src sel = some (r, ri)) (hr : r.dests = [d]) (t : Tile)
    (hc : t.slots ≤ (s.coreOf nb).credits d.input) : s.emitRoom core slot src sel t = true := by
  have hroom : s.destRoom core (h.mkTile slot t d) d = true := hx.destRoom _ hc
  simp [State.emitRoom, hh, hroute, hr, hroom]

theorem State.Crosses.emitTile {s : State} {core slot src sel nb ri : Nat} {h : Hand} {r : Route} {d : Dest} (hx : s.Crosses core nb d)
    (hh : s.handOf core slot = some h) (hroute : h.routeFor src sel = some (r, ri)) (hr : r.dests = [d]) (t : Tile) :
    s.emitTile core slot src sel t =
      (s.modCore core (fun k => k.grant (12 + src) r)).pushIn nb d.input (h.mkTile slot t d) := by
  simp only [State.emitTile, hh, hroute, hx.toDests _ _ _ hr]

/-- A hand after a run with one output tile: the row state the chain left, and the output counted (R209, R212). -/
def Hand.afterRun (h : Hand) (rs : RowState) (o : Nat) : Hand :=
  { h with rowState := rs, outCount := tmod 0 h.outCount o (fun n => (n + 1) % 1024) }

/-- The state in which the vector engine has run entry i, before its output leaves. -/
def State.ran (s : State) (core i slot : Nat) (rs : RowState) (o : Nat) : State :=
  (s.modCore core (fun k => { k with tq := k.tq.eraseIdx i })).modHand core slot (fun y => y.afterRun rs o)

theorem State.only_ran (s : State) (core i slot : Nat) (rs : RowState) (o : Nat) : s.Only [.cores] (s.ran core i slot rs o) :=
  (State.only_modCore ..).trans (State.only_modHand ..)

/-- VECTOR_RUN of a hand without a P1 operand whose run has one output tile, with room for it. -/
theorem execVectorRun_runs {s : State} {core i o : Nat} {e : TqEntry} {h : Hand} {tok : List Word} {outs : List (Nat × Nat × List Byte)}
    {rs : RowState} {tile : Tile} (hf : (s.coreOf core).fenced = false) (hpick : s.tqPick core = some (e, i))
    (hh : s.handOf core e.hand = some h) (hp1 : h.p1Ready = some (none, tok, false)) (hbad : vtokenBad tok = false)
    (hfault : chainFault h.img.chain = none) (hmem : h.memOut = false) (hrun : h.run e.tile {} tok (s.memLanes core h) = (outs, rs))
    (htiles : h.outTiles e.tile outs = [(o, tile)]) (hroom : s.emitRoom core e.hand 5 o tile = true) :
    execVectorRun core .clean s = .next ((s.ran core i e.hand rs o).emitTile core e.hand 5 o tile) := by
  simp [execVectorRun, hf, hpick, hh, hp1, hbad, hfault, hmem, State.coreCheck, hrun, htiles, hroom, onlyIf, State.ran, Hand.afterRun]

theorem vectorRun_emits {s : State} {core i o ri nb : Nat} {e : TqEntry} {h : Hand} {tok : List Word} {outs : List (Nat × Nat × List Byte)}
    {rs : RowState} {tile : Tile} {r : Route} {d : Dest} (hf : (s.coreOf core).fenced = false) (hpick : s.tqPick core = some (e, i))
    (hh : s.handOf core e.hand = some h) (hp1 : h.p1Ready = some (none, tok, false)) (hbad : vtokenBad tok = false)
    (hfault : chainFault h.img.chain = none) (hmem : h.memOut = false) (hrun : h.run e.tile {} tok (s.memLanes core h) = (outs, rs))
    (htiles : h.outTiles e.tile outs = [(o, tile)]) (hroute : h.routeFor 5 o = some (r, ri)) (hr : r.dests = [d])
    (hx : s.Crosses core nb d) (hne : nb ≠ core) (hc : tile.slots ≤ (s.coreOf nb).credits d.input) :
    Answers (.vectorRun core .clean) s [.cores] (fun t =>
      (t.coreOf core).tq = (s.coreOf core).tq.eraseIdx i ∧ t.handOf core e.hand = some (h.afterRun rs o) ∧
      tget [] (t.coreOf nb).inq d.input = tget [] (s.coreOf nb).inq d.input ++ [h.mkTile e.hand tile d] ∧
      (∀ j, j ≠ e.hand → t.handOf core j = s.handOf core j) ∧ ∀ j, j ≠ core → j ≠ nb → t.coreOf j = s.coreOf j) := by
  have hran : (s.ran core i e.hand rs o).handOf core e.hand = some (h.afterRun rs o) := by
    rw [State.ran, State.handOf_modHand_self, State.handOf_modCore_hands _ _ _ _ rfl, hh, Option.map_some]
  have hexec := execVectorRun_runs hf hpick hh hp1 hbad hfault hmem hrun htiles (hx.emitRoom hh hroute hr tile hc)
  rw [(hx.of_only (s.only_ran ..)).emitTile hran hroute hr] at hexec
  refine ⟨_, hexec, ?_, ?_, ?_, ?_, fun j hj => ?_, fun j hj hjn => ?_⟩
  · exact (s.only_ran ..).trans ((State.only_modCore ..).trans (State.only_pushIn ..))
  · rw [State.coreOf_pushIn_ne _ _ _ _ _ hne.symm, State.coreOf_modCore_self, State.ran, Core.grant, State.coreOf_modHand,
      State.coreOf_modCore_self]
  · rw [State.handOf_pushIn_ne _ _ _ _ _ _ hne.symm, State.handOf_modCore_hands _ _ _ _ rfl, hran]
  · rw [State.inq_pushIn, State.coreOf_modCore_ne _ _ _ _ hne, State.ran, State.coreOf_modHand_ne _ _ _ _ _ hne,
      State.coreOf_modCore_ne _ _ _ _ hne]
    rfl
  · rw [State.handOf_pushIn_ne _ _ _ _ _ _ hne.symm, State.handOf_modCore_hands _ _ _ _ rfl, State.ran,
      State.handOf_modHand_ne _ _ _ _ _ hj, State.handOf_modCore_hands _ _ _ _ rfl]
  · rw [State.coreOf_pushIn_ne _ _ _ _ _ hjn, State.coreOf_modCore_ne _ _ _ _ hj, State.ran, State.coreOf_modHand_ne _ _ _ _ _ hj,
      State.coreOf_modCore_ne _ _ _ _ hj]

/-! ### The obligation -/

/-- Settles O14, engine by engine: PAIR_ISSUE by `State.issue_plain`, the drain by `execDrain_eq`, and a run's output by the rule of a tile
that crosses a link (`State.Crosses.toDests`). -/
theorem coreEnginesCompute : Obligations.CoreEnginesCompute := by
  unfold Obligations.CoreEnginesCompute
  intro s core slot h
  refine ⟨?issue, ?store, ?drain, ?run⟩
  case issue =>
    intro e tok bank hready hslot hh he htok hbad hwide hread hwin hbank
    exact pairIssue_computes hready hslot hh he htok hbad hwide hread hwin hbank
  case store =>
    intro e first tile hh hf he htile h0 h1 hrest hfirst hfit
    exact storeWrite_stores hh hf he htile h0 h1 hrest hfirst hfit
  case drain =>
    intro tag data n hh hf htag hchain hlen hn hroom hdata
    exact drain_drains hh hf htag hchain hlen (hn ▸ hroom) hdata
  case run =>
    intro e i tok outs rs o tile r ri d nb hf hpick hh hp1 hbad hfault hmem hrun htiles hroute hr hout hbare hclear hleads hne hc
    exact vectorRun_emits hf hpick hh hp1 hbad hfault hmem hrun htiles hroute hr ⟨hout, hbare, hclear, hleads⟩ hne hc

end Sys2Proof.Machine
end

section
/-! The steering unit: a tile or a cut at the head of a core input takes its route (R95 to R99, R106, R122). -/
namespace Sys2Proof.Machine

/-- While no showdown marker is open, a core input offers its first tile: the input is not held and the tile's hand takes tiles (R98, R122,
R124). -/
structure State.Offers (s : State) (core port ch : Nat) (t : Tile) (rest : List Tile) : Prop where
  shut   : s.mgmt.cutOpen = false
  queue  : tget [] (s.coreOf core).inq (port * 4 + ch) = t :: rest
  unheld : port * 4 + ch ∉ (s.coreOf core).heldIn
  takes  : s.handWaits core t = false

variable {s : State} {core port ch : Nat} {t : Tile} {rest : List Tile}

theorem State.Offers.inputHead (h : s.Offers core port ch t rest) : s.inputHead core port ch = some (t, none) := by
  rw [State.inputHead, h.queue]

theorem State.Offers.takeInput (h : s.Offers core port ch t rest) : s.takeInput core port ch t none = s.popIn core (port * 4 + ch) := by
  simp [State.takeInput, State.snapTake, h.shut, State.popIn]

/-- TILE_ARRIVE of a data or control tile whose route has room and its turn. -/
theorem State.Offers.tileArrive (h : s.Offers core port ch t rest) (hk : t.kind < 2) {x : Hand} {r : Route} {ri : Nat}
    (hroute : s.arriveRoute core port ch t = some (x, r, ri)) (hroom : r.dests.all (s.destRoom core t) = true)
    (hturn : s.hasTurn core (port * 4 + ch) r = true) :
    execTileArrive core port ch s = .next ((s.popIn core (port * 4 + ch)).toDests core (port * 4 + ch) r ri (fun _ => t)) := by
  have hgo : ¬ (2 ≤ t.kind ∨ (s.coreOf core).heldIn.contains (port * 4 + ch) ∨ s.handWaits core t) := by
    simp [h.unheld, h.takes, hk]
  rw [execTileArrive, h.inputHead]
  dsimp only
  rw [if_neg hgo, hroute]
  dsimp only
  rw [onlyIf_next (by rw [hroom, hturn]; rfl), h.takeInput]

/-- The hand an arriving tile's route belongs to is the one its header names, of the tile's context. -/
theorem State.arriveRoute_hand {x : Hand} {p : Route × Nat} (h : s.arriveRoute core port ch t = some (x, p)) :
    s.handOf core t.hand = some x ∧ x.ctx = t.ctx := by
  unfold State.arriveRoute at h
  split at h
  · next y hy =>
    split at h
    · next hctx =>
      obtain ⟨_, _, hpair⟩ := Option.map_eq_some_iff.1 h
      obtain rfl : y = x := congrArg Prod.fst hpair
      exact ⟨hy, hctx⟩
    · cases h
  · cases h

/-- A route without neighbour outputs waits for no channel. -/
theorem Route.inner_outs {r : Route} (h : ∀ d ∈ r.dests, 3 < d.target) : r.dests.filter (fun d => decide (d.target ≤ 3)) = [] := by
  rw [List.filter_eq_nil_iff]
  intro d hd
  simpa using h d hd

theorem State.hasTurn_inner {r : Route} (input : Nat) (h : ∀ d ∈ r.dests, 3 < d.target) : s.hasTurn core input r = true := by
  rw [State.hasTurn, Route.outs, Route.inner_outs h]
  rfl

/-! ### Across a link -/

theorem tileArrive_crosses {x : Hand} {r : Route} {ri nb : Nat} {d : Dest} (h : s.Offers core port ch t rest) (hk : t.kind < 2)
    (hroute : s.arriveRoute core port ch t = some (x, r, ri)) (hr : r.dests = [d]) (hx : s.Crosses core nb d) (hne : nb ≠ core)
    (hc : t.slots ≤ (s.coreOf nb).credits d.input) (hturn : s.hasTurn core (port * 4 + ch) r = true) :
    Answers (.tileArrive core port ch) s [.cores] (fun u => tget [] (u.coreOf core).inq (port * 4 + ch) = rest ∧
      tget [] (u.coreOf nb).inq d.input = tget [] (s.coreOf nb).inq d.input ++ [t] ∧
      ∀ j, j ≠ core → j ≠ nb → u.coreOf j = s.coreOf j) := by
  have hroom : r.dests.all (s.destRoom core t) = true := by simp [hr, hx.destRoom t hc]
  have hexec := h.tileArrive hk hroute hroom hturn
  rw [(hx.of_only (s.only_popIn ..)).toDests _ _ _ hr] at hexec
  refine ⟨_, hexec, ?_, ?_, ?_, fun j hj hjn => ?_⟩
  · exact (s.only_popIn ..).trans ((State.only_modCore ..).trans (State.only_pushIn ..))
  · rw [State.coreOf_pushIn_ne _ _ _ _ _ hne.symm, State.coreOf_modCore_self]
    exact State.inq_popIn h.queue
  · rw [State.inq_pushIn, State.coreOf_modCore_ne _ _ _ _ hne, State.coreOf_popIn_ne _ _ _ _ hne]
  · rw [State.coreOf_pushIn_ne _ _ _ _ _ hjn, State.coreOf_modCore_ne _ _ _ _ hj, State.coreOf_popIn_ne _ _ _ _ hj]

/-! ### Into a pair of the hand -/

/-- A target of Table 4.8 that is a side of a pair, and a tile the side takes: a control side of a paired pair, a data side of the tile's
format (R107, R158). -/
structure Hand.SideTakes (x : Hand) (t : Tile) (target : Nat) : Prop where
  low   : 4 ≤ target
  high  : target ≤ 9
  deal  : x.deal = t.deal
  token : target % 2 = 1 → x.unpaired ((target - 4) / 2) = false
  data  : target % 2 = 0 → t.fmt = x.sideFmt ((target - 4) / 2)

theorem Hand.SideTakes.destRoom {x : Hand} {d : Dest} (h : x.SideTakes t d.target) (hh : s.handOf core t.hand = some x)
    (hroom : x.pairRoom ((d.target - 4) / 2) (d.target % 2 = 1) t.tag = true) : s.destRoom core t d = true := by
  have hout : ¬ d.target ≤ 3 := by have := h.low; omega
  have hin : d.target ≤ 10 := by have := h.high; omega
  have hpre : ¬ d.target = 10 := by have := h.high; omega
  simp [State.destRoom, hout, hin, hpre, hh, hroom]

theorem Hand.SideTakes.intoHand {x : Hand} {target : Nat} (h : x.SideTakes t target) (hh : s.handOf core t.hand = some x)
    (hctx : x.ctx = t.ctx) (r : Route) (ri : Nat) : s.intoHand core t r ri target =
      s.modHand core t.hand (fun y => y.putPair ((target - 4) / 2) (target % 2 = 1) t) := by
  have hpre : ¬ target = 10 := by have := h.high; omega
  have hring : ¬ target = 11 := by have := h.high; omega
  by_cases hodd : target % 2 = 1
  · simp [State.intoHand, hh, hctx, h.deal, hpre, hring, hodd, h.token hodd]
  · simp [State.intoHand, hh, hctx, h.deal, hpre, hring, hodd, h.data (by omega)]

theorem tileArrive_pairs {x : Hand} {r : Route} {ri : Nat} {d : Dest} (h : s.Offers core port ch t rest) (hk : t.kind < 2)
    (hroute : s.arriveRoute core port ch t = some (x, r, ri)) (hr : r.dests = [d]) (hside : x.SideTakes t d.target)
    (hroom : x.pairRoom ((d.target - 4) / 2) (d.target % 2 = 1) t.tag = true) :
    Answers (.tileArrive core port ch) s [.cores] (fun u => tget [] (u.coreOf core).inq (port * 4 + ch) = rest ∧
      u.handOf core t.hand = some (x.putPair ((d.target - 4) / 2) (d.target % 2 = 1) t) ∧
      (∀ i, i ≠ t.hand → u.handOf core i = s.handOf core i) ∧ ∀ j, j ≠ core → u.coreOf j = s.coreOf j) := by
  obtain ⟨hh, hctx⟩ := State.arriveRoute_hand hroute
  have hinner : ∀ c ∈ r.dests, 3 < c.target := by simpa [hr] using Nat.lt_of_succ_le hside.low
  have hexec := h.tileArrive hk hroute (by simp [hr, hside.destRoom hh hroom]) (s.hasTurn_inner _ hinner)
  have hgrant : ((s.popIn core (port * 4 + ch)).modCore core (fun k => k.grant (port * 4 + ch) r)).handOf core t.hand = some x := by
    rw [State.handOf_modCore_hands _ _ _ _ rfl, State.handOf_popIn, hh]
  have hto : (s.popIn core (port * 4 + ch)).toDests core (port * 4 + ch) r ri (fun _ => t) =
      ((s.popIn core (port * 4 + ch)).modCore core (fun k => k.grant (port * 4 + ch) r)).modHand core t.hand
        (fun y => y.putPair ((d.target - 4) / 2) (d.target % 2 = 1) t) := by
    have hout : ¬ d.target ≤ 3 := by have := hside.low; omega
    have hopen : (s.popIn core (port * 4 + ch)).destClosed core d = false := by simp [State.destClosed, hout]
    simp [State.toDests, hr, hopen, hout, hside.intoHand hgrant hctx r ri]
  rw [hto] at hexec
  refine ⟨_, hexec, ?_, ?_, ?_, fun i hi => ?_, fun j hj => ?_⟩
  · exact (s.only_popIn ..).trans ((State.only_modCore ..).trans (State.only_modHand ..))
  · rw [State.coreOf_modHand, State.coreOf_modCore_self]
    exact State.inq_popIn h.queue
  · rw [State.handOf_modHand_self, hgrant, Option.map_some]
  · rw [State.handOf_modHand_ne _ _ _ _ _ hi, State.handOf_modCore_hands _ _ _ _ rfl, State.handOf_popIn]
  · rw [State.coreOf_modHand_ne _ _ _ _ _ hj, State.coreOf_modCore_ne _ _ _ _ hj, State.coreOf_popIn_ne _ _ _ _ hj]

/-! ### A cut (R122) -/

/-- The state in which a core has latched the cut of an input in a hand and holds the input. -/
def State.latched (s : State) (core input slot : Nat) (r : Route) : State :=
  (((s.popIn core input).modCore core (fun k => k.grant input r)).modHand core slot
    (fun x => { x with cutInputs := x.cutInputs ++ [input] })).modCore core (fun k => { k with heldIn := insertAsc k.heldIn input })

/-- CUT_ARRIVE of a cut whose route stays inside the core. -/
theorem State.Offers.cutArrive (h : s.Offers core port ch t rest) (hk : t.kind = 2) {x : Hand} {r : Route} {ri : Nat}
    (hroute : s.arriveRoute core port ch t = some (x, r, ri)) (hinner : ∀ d ∈ r.dests, 3 < d.target) :
    execCutArrive core port ch s = .next (s.latched core (port * 4 + ch) t.hand r) := by
  have hgo : ¬ (t.kind ≠ 2 ∨ (s.coreOf core).heldIn.contains (port * 4 + ch) ∨ s.handWaits core t) := by
    simp [h.unheld, h.takes, hk]
  rw [execCutArrive, h.inputHead]
  dsimp only
  rw [if_neg hgo, hroute]
  dsimp only
  rw [onlyIf_next (by rw [Route.inner_outs hinner, s.hasTurn_inner _ hinner]; rfl), h.takeInput, State.forwardCut, Route.inner_outs hinner]
  rfl

theorem cutArrive_latches {x : Hand} {r : Route} {ri : Nat} (h : s.Offers core port ch t rest) (hk : t.kind = 2)
    (hroute : s.arriveRoute core port ch t = some (x, r, ri)) (hinner : ∀ d ∈ r.dests, 3 < d.target) :
    Answers (.cutArrive core port ch) s [.cores] (fun u => tget [] (u.coreOf core).inq (port * 4 + ch) = rest ∧
      u.handOf core t.hand = some { x with cutInputs := x.cutInputs ++ [port * 4 + ch] } ∧
      (u.coreOf core).heldIn = insertAsc (s.coreOf core).heldIn (port * 4 + ch) ∧ ∀ j, j ≠ core → u.coreOf j = s.coreOf j) := by
  obtain ⟨hh, -⟩ := State.arriveRoute_hand hroute
  refine ⟨_, h.cutArrive hk hroute hinner, ?_, ?_, ?_, ?_, fun j hj => ?_⟩
  · exact (s.only_popIn ..).trans ((State.only_modCore ..).trans ((State.only_modHand ..).trans (State.only_modCore ..)))
  · rw [State.latched, State.coreOf_modCore_self, State.coreOf_modHand, State.coreOf_modCore_self]
    exact State.inq_popIn h.queue
  · rw [State.latched, State.handOf_modCore_hands _ _ _ _ rfl, State.handOf_modHand_self, State.handOf_modCore_hands _ _ _ _ rfl,
      State.handOf_popIn, hh, Option.map_some]
  · rw [State.latched, State.coreOf_modCore_self, State.coreOf_modHand, State.coreOf_modCore_self, State.popIn, State.coreOf_modCore_self]
    rfl
  · rw [State.latched, State.coreOf_modCore_ne _ _ _ _ hj, State.coreOf_modHand_ne _ _ _ _ _ hj, State.coreOf_modCore_ne _ _ _ _ hj,
      State.coreOf_popIn_ne _ _ _ _ hj]

end Sys2Proof.Machine
end

section
/-! The configuration port of a core and the layout's stages (R143, R146, R150, R152, R155): one lemma per item, and from them and the steering
unit O15. -/
namespace Sys2Proof.Machine

/-! ### Hand-write and end items (R115, R146) -/

/-- The first item of a configuration port has been taken. -/
def State.popCfg (s : State) (core : Nat) : State := s.modCore core (fun k => { k with cfg := k.cfg.drop 1 })

theorem State.cfg_popCfg {s : State} {core : Nat} {i : CfgItem} {r : List CfgItem} (h : (s.coreOf core).cfg = i :: r) :
    ((s.popCfg core).coreOf core).cfg = r := by
  rw [State.popCfg, State.coreOf_modCore_self, h, List.drop_one, List.tail_cons]

theorem State.handOf_popCfg (s : State) (core i : Nat) : (s.popCfg core).handOf core i = s.handOf core i :=
  s.handOf_modCore_hands core i _ rfl

theorem State.coreOf_popCfg_ne (s : State) (core j : Nat) (h : j ≠ core) : (s.popCfg core).coreOf j = s.coreOf j :=
  s.coreOf_modCore_ne core j _ h

theorem State.only_writeHand (s : State) (core slot : Nat) (h : Hand) : s.Only [.cores] (s.writeHand core slot h) := s.only_modCore core _

/-- A fenced core drops a working hand (R128). -/
theorem State.coreOf_writeHand_dropped {s : State} {core : Nat} (slot : Nat) {h : Hand} (hf : (s.coreOf core).fenced = true)
    (hw : h.img.routeOnly = false) : (s.writeHand core slot h).coreOf core = s.coreOf core := by
  rw [State.writeHand, State.coreOf_modCore_self, hf, hw]
  rfl

theorem State.coreOf_writeHand {s : State} {core : Nat} (slot : Nat) {h : Hand}
    (hf : (s.coreOf core).fenced = false ∨ h.img.routeOnly = true) : (s.writeHand core slot h).coreOf core =
      { s.coreOf core with hands := tset none (s.coreOf core).hands slot (some h),
                           tq := (s.coreOf core).tq.filter (fun e => e.hand ≠ slot) } := by
  have hgo : ((s.coreOf core).fenced && !h.img.routeOnly) = false := by rcases hf with hf | hf <;> simp [hf]
  rw [State.writeHand, State.coreOf_modCore_self, hgo]
  rfl

theorem execConfigItem_handWrite {s : State} {core slot : Nat} {h : Hand} {r : List CfgItem}
    (hcfg : (s.coreOf core).cfg = .handWrite slot h :: r) : execConfigItem core s = .next ((s.popCfg core).writeHand core slot h) := by
  rw [execConfigItem, hcfg]
  rfl

theorem execConfigItem_finish {s : State} {core ctx lnum : Nat} {r : List CfgItem} (hcfg : (s.coreOf core).cfg = .finish ctx lnum :: r) :
    execConfigItem core s = .next ((s.popCfg core).ackCore ctx lnum core) := by
  rw [execConfigItem, hcfg]
  rfl

theorem configItem_drops {s : State} {core slot : Nat} {h : Hand} {r : List CfgItem} (hcfg : (s.coreOf core).cfg = .handWrite slot h :: r)
    (hf : (s.coreOf core).fenced = true) (hw : h.img.routeOnly = false) :
    Answers (.configItem core) s [.cores] (fun t => (t.coreOf core).cfg = r ∧ (∀ i, t.handOf core i = s.handOf core i) ∧
      ∀ j, j ≠ core → t.coreOf j = s.coreOf j) := by
  have hfence : ((s.popCfg core).coreOf core).fenced = true := by rw [State.popCfg, State.coreOf_modCore_self, hf]
  have hcore := State.coreOf_writeHand_dropped slot hfence hw
  refine ⟨_, execConfigItem_handWrite hcfg, (State.only_modCore ..).trans (State.only_writeHand ..), ?_, fun i => ?_, fun j hj => ?_⟩
  · rw [hcore, State.cfg_popCfg hcfg]
  · rw [State.handOf, hcore, ← State.handOf, State.handOf_popCfg]
  · rw [State.writeHand, State.coreOf_modCore_ne _ _ _ _ hj, State.coreOf_popCfg_ne _ _ _ hj]

theorem configItem_writes {s : State} {core slot : Nat} {h : Hand} {r : List CfgItem} (hcfg : (s.coreOf core).cfg = .handWrite slot h :: r)
    (hf : (s.coreOf core).fenced = false ∨ h.img.routeOnly = true) :
    Answers (.configItem core) s [.cores] (fun t => t.handOf core slot = some h ∧ (t.coreOf core).cfg = r ∧
      (∀ i, i ≠ slot → t.handOf core i = s.handOf core i) ∧
      (t.coreOf core).tq = (s.coreOf core).tq.filter (fun e => e.hand ≠ slot) ∧ ∀ j, j ≠ core → t.coreOf j = s.coreOf j) := by
  have hfence : ((s.popCfg core).coreOf core).fenced = false ∨ h.img.routeOnly = true := by
    rwa [State.popCfg, State.coreOf_modCore_self]
  have hcore := State.coreOf_writeHand slot hfence
  refine ⟨_, execConfigItem_handWrite hcfg, (State.only_modCore ..).trans (State.only_writeHand ..), ?_, ?_, fun i hi => ?_, ?_,
    fun j hj => ?_⟩
  · rw [State.handOf, hcore, tget_tset_self]
  · rw [hcore, State.cfg_popCfg hcfg]
  · rw [State.handOf, hcore, tget_tset_ne _ _ _ _ _ hi, ← State.handOf, State.handOf_popCfg]
  · rw [hcore, State.popCfg, State.coreOf_modCore_self]
  · rw [State.writeHand, State.coreOf_modCore_ne _ _ _ _ hj, State.coreOf_popCfg_ne _ _ _ hj]

theorem configItem_acks {s : State} {core ctx lnum : Nat} {l : Layout} {r : List CfgItem}
    (hcfg : (s.coreOf core).cfg = .finish ctx lnum :: r) (hl : s.layoutOf ctx lnum = some l) :
    Answers (.configItem core) s [.cores, .ctxs] (fun t => (t.coreOf core).cfg = r ∧
      t.layoutOf ctx lnum = some { l with acksDue := l.acksDue.erase core } ∧ ∀ k, k ≠ ctx → t.ctxOf k = s.ctxOf k) := by
  refine ⟨_, execConfigItem_finish hcfg, ?_, State.cfg_popCfg hcfg, ?_, fun k hk => ?_⟩
  · exact ((s.only_modCore core _).mono _ (by decide)).trans ((State.only_modLayout ..).mono _ (by decide))
  · have hpop : (s.popCfg core).layoutOf ctx lnum = some l := hl
    rw [State.ackCore, State.layoutOf_modLayout_self, hpop, Option.map_some]
  · exact State.ctxOf_modCtx_ne _ _ _ _ hk

/-! ### Deal updates (R106, R152) -/

/-- A hand after a deal update: the new number, and what it held counted as stale. -/
def Hand.redealt (h : Hand) (d loss : Nat) : Hand := { h.redeal d with stale := h.stale + loss }

/-- From s to t the hands of the slots done have taken the deal number d, with their Tile Queue entries dropped and what they held counted;
of the rest of the cores nothing differs, and of the contexts no layout. -/
structure State.Redealt (core d : Nat) (done : List Nat) (s t : State) : Prop where
  only    : s.Only [.cores, .ctxs] t
  dealt   : ∀ i ∈ done, t.handOf core i = (s.handOf core i).map (fun h => h.redealt d ((s.coreOf core).redealLoss i h))
  kept    : ∀ i, i ∉ done → t.handOf core i = s.handOf core i
  tq      : (t.coreOf core).tq = (s.coreOf core).tq.filter (fun e => e.hand ∉ done)
  cfg     : (t.coreOf core).cfg = (s.coreOf core).cfg
  others  : ∀ j, j ≠ core → t.coreOf j = s.coreOf j
  layouts : ∀ c l, t.layoutOf c l = s.layoutOf c l

theorem State.Redealt.refl (core d : Nat) (s : State) : State.Redealt core d [] s s where
  only := State.Only.refl _ _
  dealt := fun _ hi => absurd hi List.not_mem_nil
  kept := fun _ _ => rfl
  tq := by simp
  cfg := rfl
  others := fun _ _ => rfl
  layouts := fun _ _ => rfl

/-- What a deal update discards of a hand is read of the hand and its own Tile Queue entries. -/
theorem Core.redealLoss_congr {k k' : Core} {slot : Nat}
    (htq : k'.tq.filter (fun e => decide (e.hand = slot)) = k.tq.filter (fun e => decide (e.hand = slot))) (h : Hand) :
    k'.redealLoss slot h = k.redealLoss slot h := by
  rw [Core.redealLoss, htq, Core.redealLoss]

/-- A deal update of one hand, as its core and its context's layouts read it. -/
theorem State.redealHand_redealt {s : State} {core c d slot : Nat} {h : Hand} (hh : s.handOf core slot = some h) :
    State.Redealt core d [slot] s (s.redealHand core c d slot) := by
  have hcore : (s.redealHand core c d slot).coreOf core =
      { s.coreOf core with
        hands := tmod none (s.coreOf core).hands slot
          (fun o => (o.map (fun x => x.redeal d)).map (fun x => { x with stale := x.stale + (s.coreOf core).redealLoss slot h }))
        tq := (s.coreOf core).tq.filter (fun e => e.hand ≠ slot) } := by
    rw [State.redealHand, hh]
    show State.coreOf (State.modHand _ core slot _) core = _
    rw [State.coreOf_modHand, State.coreOf_modCore_self, State.coreOf_modHand, tmod_tmod]
  refine ⟨?_, fun i hi => ?_, fun i hi => ?_, ?_, ?_, fun j hj => ?_, fun k l => ?_⟩
  · rw [State.redealHand, hh]
    refine State.Only.trans ?_ ((State.only_modCtx ..).mono _ (by decide))
    exact ((State.only_modHand ..).trans ((State.only_modCore ..).trans (State.only_modHand ..))).mono _ (by decide)
  · obtain rfl := List.mem_singleton.1 hi
    rw [State.handOf, hcore, tget_tmod_self, ← State.handOf, hh]
    rfl
  · rw [State.handOf, hcore, tget_tmod, if_neg (fun e => hi (List.mem_singleton.2 e)), State.handOf]
  · rw [hcore]
    simp
  · rw [hcore]
  · rw [State.redealHand, hh]
    show State.coreOf (State.modHand _ core slot _) j = _
    rw [State.coreOf_modHand_ne _ _ _ _ _ hj, State.coreOf_modCore_ne _ _ _ _ hj, State.coreOf_modHand_ne _ _ _ _ _ hj]
  · rw [State.redealHand, hh]
    show State.layoutOf (State.modCtx _ c _) k l = _
    by_cases hk : k = c
    · subst hk
      exact State.layoutOf_modCtx_layouts _ _ _ _ (by split <;> rfl)
    · rw [State.layoutOf, State.ctxOf_modCtx_ne _ _ _ _ hk]
      rfl

theorem State.Redealt.trans {core d : Nat} {done : List Nat} {slot : Nat} {s t u : State} (h : State.Redealt core d done s t)
    (k : State.Redealt core d [slot] t u) (hnew : slot ∉ done) : State.Redealt core d (done ++ [slot]) s u where
  only := h.only.trans k.only
  dealt := by
    intro i hi
    rcases List.mem_append.1 hi with hi | hi
    · have hne : i ∉ [slot] := fun e => hnew (List.mem_singleton.1 e ▸ hi)
      rw [k.kept i hne, h.dealt i hi]
    · obtain rfl := List.mem_singleton.1 hi
      have htq : (t.coreOf core).tq.filter (fun e => decide (e.hand = i)) = (s.coreOf core).tq.filter (fun e => decide (e.hand = i)) := by
        rw [h.tq, List.filter_filter]
        refine List.filter_congr (fun e _ => ?_)
        by_cases he : e.hand = i
        · simp [he, hnew]
        · simp [he]
      rw [k.dealt i hi, h.kept i hnew]
      exact congrArg (fun g => Option.map g _) (funext fun x => by rw [Core.redealLoss_congr htq])
  kept := fun i hi => by
    rw [List.mem_append, not_or] at hi
    rw [k.kept i hi.2, h.kept i hi.1]
  tq := by
    rw [k.tq, h.tq, List.filter_filter]
    refine List.filter_congr (fun e _ => ?_)
    simp [and_comm]
  cfg := k.cfg.trans h.cfg
  others := fun j hj => (k.others j hj).trans (h.others j hj)
  layouts := fun c l => (k.layouts c l).trans (h.layouts c l)

/-- The hands of several slots of a core take a deal number, one after the other. -/
theorem State.Redealt.foldl {core c d : Nat} {done slots : List Nat} {s t : State} (h : State.Redealt core d done s t)
    (hnodup : (done ++ slots).Nodup) (hhands : ∀ i ∈ slots, ∃ x, s.handOf core i = some x) :
    State.Redealt core d (done ++ slots) s (slots.foldl (fun u i => u.redealHand core c d i) t) := by
  induction slots generalizing done t with
  | nil => rwa [List.append_nil]
  | cons i slots ih =>
    have hassoc : done ++ i :: slots = done ++ [i] ++ slots := by rw [List.append_assoc, List.singleton_append]
    have hnew : i ∉ done := fun hm => (List.nodup_append.1 hnodup).2.2 i hm i List.mem_cons_self rfl
    obtain ⟨x, hx⟩ := hhands i List.mem_cons_self
    have hstep := h.trans (State.redealHand_redealt (c := c) ((h.kept i hnew).trans hx)) hnew
    rw [hassoc] at hnodup ⊢
    exact ih hstep hnodup (fun j hj => hhands j (List.mem_cons_of_mem _ hj))

theorem State.mem_redealSlots {s : State} {core ctx lnum i : Nat} : i ∈ s.redealSlots core ctx lnum ↔
    i < 4 ∧ ∃ h, s.handOf core i = some h ∧ h.ctx = ctx ∧ h.layout = lnum ∧ h.waiting = false := by
  rw [State.redealSlots, List.mem_filter, List.mem_range, Option.any_eq_true]
  simp [and_assoc]

/-- DEAL_UPDATE_APPLY once no drain of the layout's hands is due, where other cores of the layout have yet to apply theirs (R152). -/
theorem execDealUpdateApply_waits {s t : State} {core ctx lnum d : Nat} {l : Layout} {r : List CfgItem}
    (hcfg : (s.coreOf core).cfg = .dealUpdate ctx lnum d :: r)
    (hidle : ∀ i ∈ s.redealSlots core ctx lnum, ∀ h, s.handOf core i = some h → h.drainTag = none)
    (ht : t = (s.redealSlots core ctx lnum).foldl (fun u i => u.redealHand core ctx d i) (s.popCfg core))
    (hl : t.layoutOf ctx lnum = some l) (hmore : l.redealDue.erase core ≠ []) :
    execDealUpdateApply core s = .next (t.modLayout ctx lnum (fun l => { l with redealDue := l.redealDue.erase core })) := by
  have hgo : (s.redealSlots core ctx lnum).all (fun i => (s.handOf core i).all (fun h => h.drainTag.isNone)) = true := by
    rw [List.all_eq_true]
    intro i hi
    rw [Option.all_eq_true]
    exact fun h hh => by rw [hidle i hi h hh]; rfl
  have hlay := t.layoutOf_modLayout_self ctx lnum (fun l => { l with redealDue := l.redealDue.erase core })
  rw [hl, Option.map_some] at hlay
  rw [execDealUpdateApply, hcfg]
  dsimp only
  rw [onlyIf_next hgo, ← State.popCfg, ← ht, hlay]
  dsimp only
  rw [if_neg hmore]

theorem dealUpdateApply_deals {s : State} {core ctx lnum d : Nat} {l : Layout} {r : List CfgItem}
    (hcfg : (s.coreOf core).cfg = .dealUpdate ctx lnum d :: r) (hl : s.layoutOf ctx lnum = some l) (hmore : l.redealDue.erase core ≠ [])
    (hidle : ∀ i h, i < 4 → s.handOf core i = some h → h.ctx = ctx → h.layout = lnum → h.waiting = false → h.drainTag = none) :
    Answers (.dealUpdateApply core) s [.cores, .ctxs] (fun t => (t.coreOf core).cfg = r ∧
      (∀ i h, i < 4 → s.handOf core i = some h → h.ctx = ctx → h.layout = lnum → h.waiting = false →
        t.handOf core i = some (h.redealt d ((s.coreOf core).redealLoss i h)) ∧ ∀ e ∈ (t.coreOf core).tq, e.hand ≠ i) ∧
      t.layoutOf ctx lnum = some { l with redealDue := l.redealDue.erase core } ∧ ∀ j, j ≠ core → t.coreOf j = s.coreOf j) := by
  have hidle' : ∀ i ∈ s.redealSlots core ctx lnum, ∀ h, s.handOf core i = some h → h.drainTag = none := by
    intro i hi h hh
    obtain ⟨hlt, x, hx, hctx, hlay, hw⟩ := State.mem_redealSlots.1 hi
    obtain rfl : x = h := Option.some.inj (hx.symm.trans hh)
    exact hidle i x hlt hx hctx hlay hw
  have hhands : ∀ i ∈ s.redealSlots core ctx lnum, ∃ x, (s.popCfg core).handOf core i = some x := by
    intro i hi
    obtain ⟨-, x, hx, -⟩ := State.mem_redealSlots.1 hi
    exact ⟨x, (s.handOf_popCfg core i).trans hx⟩
  have hnodup : ([] ++ s.redealSlots core ctx lnum).Nodup := List.nodup_range.filter _
  have hdealt := (State.Redealt.refl core d (s.popCfg core)).foldl (c := ctx) hnodup hhands
  rw [List.nil_append] at hdealt
  have hlay := (hdealt.layouts ctx lnum).trans hl
  refine ⟨_, execDealUpdateApply_waits hcfg hidle' rfl hlay hmore, ?_, ?_, fun i h hi hh hctx hlayout hw => ⟨?_, fun e he => ?_⟩, ?_,
    fun j hj => ?_⟩
  · exact (((s.only_modCore core _).mono _ (by decide)).trans hdealt.only).trans ((State.only_modLayout ..).mono _ (by decide))
  · exact hdealt.cfg.trans (State.cfg_popCfg hcfg)
  · have hmem : i ∈ s.redealSlots core ctx lnum := State.mem_redealSlots.2 ⟨hi, h, hh, hctx, hlayout, hw⟩
    have htq : ((s.popCfg core).coreOf core).tq = (s.coreOf core).tq := by rw [State.popCfg, State.coreOf_modCore_self]
    refine (hdealt.dealt i hmem).trans ?_
    rw [State.handOf_popCfg, hh, Option.map_some, Core.redealLoss_congr (k := s.coreOf core) (by rw [htq])]
  · have hmem : i ∈ s.redealSlots core ctx lnum := State.mem_redealSlots.2 ⟨hi, h, hh, hctx, hlayout, hw⟩
    rw [State.modLayout_coreOf, hdealt.tq] at he
    exact fun heq => of_decide_eq_true (List.mem_filter.1 he).2 (heq ▸ hmem)
  · rw [State.layoutOf_modLayout_self, hlay, Option.map_some]
  · exact (hdealt.others j hj).trans (s.coreOf_popCfg_ne core j hj)

end Sys2Proof.Machine
end

section
/-! The end of a cut at a core (R123, R155, R156), the layout's stages (R143, R150, R155), and O15. -/
namespace Sys2Proof.Machine

/-! ### Tables that lose entries -/

/-- Writing the default at an index unlists it. -/
theorem mem_tkeys_tset_default {α : Type} [DecidableEq α] (d : α) (t : Tbl α) (k i : Nat) :
    i ∈ tkeys (tset d t k d) ↔ i ∈ tkeys t ∧ i ≠ k := by
  simp only [tset, tkeys, if_true, List.append_nil, List.map_append, List.mem_append, List.mem_map, List.mem_filter, decide_eq_true_eq]
  constructor
  · rintro (⟨p, ⟨hp, hlt⟩, rfl⟩ | ⟨p, ⟨hp, hlt⟩, rfl⟩)
    · exact ⟨⟨p, hp, rfl⟩, Nat.ne_of_lt hlt⟩
    · exact ⟨⟨p, hp, rfl⟩, Nat.ne_of_gt hlt⟩
  · rintro ⟨⟨p, hp, rfl⟩, hne⟩
    rcases Nat.lt_or_gt_of_ne hne with hlt | hlt
    · exact .inl ⟨p, ⟨hp, hlt⟩, rfl⟩
    · exact .inr ⟨p, ⟨hp, hlt⟩, rfl⟩

theorem mem_tkeys_foldl_tset_default {α : Type} [DecidableEq α] (d : α) (l : List Nat) (t : Tbl α) (i : Nat) :
    i ∈ tkeys (l.foldl (fun t k => tset d t k d) t) ↔ i ∈ tkeys t ∧ i ∉ l := by
  induction l generalizing t with
  | nil => simp
  | cons k l ih => rw [List.foldl_cons, ih, mem_tkeys_tset_default, List.mem_cons, not_or, and_assoc]

/-- An index that a table does not list is not listed by a map of it. -/
theorem tget_tmap_absent {α : Type} [DecidableEq α] (d : α) (t : Tbl α) (f : Nat → α → α) (k : Nat) (h : k ∉ tkeys t) :
    tget d (tmap d t f) k = d := by
  refine tget_absent d _ k (fun hk => h ?_)
  obtain ⟨p, hp, rfl⟩ := List.mem_map.1 hk
  obtain ⟨q, hq, rfl⟩ := List.mem_map.1 (List.mem_filter.1 hp).1
  exact List.mem_map.2 ⟨q, hq, rfl⟩

/-- A listed value of a map is the image of a value listed at that index. -/
theorem tget_tmap_mem {α : Type} [DecidableEq α] {d v : α} {t : Tbl α} {f : Nat → α → α} {k : Nat} (h : tget d (tmap d t f) k = v)
    (hv : v ≠ d) : ∃ x, (k, x) ∈ t ∧ f k x = v := by
  obtain ⟨q, hq, he⟩ := List.mem_map.1 (List.mem_filter.1 (tget_mem d v _ k h hv)).1
  obtain ⟨rfl, rfl⟩ := Prod.mk.inj he
  exact ⟨q.2, hq, rfl⟩

/-! ### The old hands retire -/

theorem Core.mem_oldHands {k : Core} {ctx lnum : Nat} {p : Nat × Hand} (h : p ∈ k.oldHands ctx lnum) :
    p.1 < 4 ∧ tget none k.hands p.1 = some p.2 ∧ p.2.isOld ctx lnum = true := by
  obtain ⟨i, hi, hp⟩ := List.mem_filterMap.1 h
  split at hp
  · next x hx =>
    split at hp
    · next hold =>
      obtain rfl := Option.some.inj hp
      exact ⟨List.mem_range.1 hi, hx, hold⟩
    · cases hp
  · cases hp

/-- A hand that meets the condition is cleared. -/
theorem Core.clearHands_absent {k : Core} {c : Hand → Bool} {i : Nat} {h : Hand} (hi : i < 4) (hh : tget none k.hands i = some h)
    (hc : c h = true) : i ∉ tkeys (k.clearHands c).hands := by
  intro hk
  refine ((mem_tkeys_foldl_tset_default none _ _ i).1 hk).2 (List.mem_filter.2 ⟨List.mem_range.2 hi, ?_⟩)
  rw [hh]
  exact hc

/-- A hand that waited for the cut takes tiles. -/
def Hand.wake (ctx lnum : Nat) (h : Hand) : Hand := if h.ctx = ctx ∧ h.layout = lnum then { h with waiting := false } else h

/-- A core whose cut of a layout has completed: the old hands are cleared, those that waited take tiles, and the port is empty (R123, R124). -/
def Core.cutOver (k : Core) (ctx lnum : Nat) : Core :=
  let y := k.clearHands (fun h => h.isOld ctx lnum)
  { y with hands := tmap none y.hands (fun _ o => o.map (Hand.wake ctx lnum)), cfg := [] }

theorem Core.cutOver_hands (k : Core) (ctx lnum : Nat) : (k.cutOver ctx lnum).hands =
    tmap none (k.clearHands (fun h => h.isOld ctx lnum)).hands (fun _ o => o.map (Hand.wake ctx lnum)) := rfl

theorem Core.cutOver_old {k : Core} {ctx lnum : Nat} {p : Nat × Hand} (h : p ∈ k.oldHands ctx lnum) :
    tget none (k.cutOver ctx lnum).hands p.1 = none := by
  obtain ⟨hi, hh, hold⟩ := Core.mem_oldHands h
  rw [Core.cutOver_hands]
  exact tget_tmap_absent _ _ _ _ (Core.clearHands_absent hi hh hold)

theorem Core.cutOver_awake {k : Core} {ctx lnum i : Nat} {h : Hand} (hh : tget none (k.cutOver ctx lnum).hands i = some h)
    (hctx : h.ctx = ctx) (hlay : h.layout = lnum) : h.waiting = false := by
  rw [Core.cutOver_hands] at hh
  obtain ⟨o, -, ho⟩ := tget_tmap_mem hh (Option.some_ne_none h)
  obtain ⟨x, -, rfl⟩ := Option.map_eq_some_iff.1 ho
  unfold Hand.wake at hctx hlay ⊢
  split
  · rfl
  · next hne =>
    rw [if_neg hne] at hctx hlay
    exact absurd ⟨hctx, hlay⟩ hne

/-! ### CUT_COMPLETE -/

/-- Inputs on which the old hands of a layout have latched a cut. -/
def Core.cutsOf (k : Core) (ctx lnum : Nat) : List Nat := (k.oldHands ctx lnum).flatMap (fun p => p.2.cutInputs)

/-- What is left in the old hands of a layout when they retire. -/
def Core.cutLeft (k : Core) (ctx lnum : Nat) : Nat := sumNat ((k.oldHands ctx lnum).map (fun p => k.redealLoss p.1 p.2))

/-- The neighbour outputs of a hand's engine routes, each of which a cut goes to (R155). -/
def Hand.engineOuts (h : Hand) : List Dest :=
  (h.img.routes.filter (fun r => decide (4 ≤ r.source))).flatMap (fun r => r.dests.filter (fun d => d.target ≤ 3))

theorem Hand.engineOuts_inner {h : Hand} (hin : ∀ r ∈ h.img.routes, 4 ≤ r.source → ∀ d ∈ r.dests, 3 < d.target) : h.engineOuts = [] := by
  rw [Hand.engineOuts, List.flatMap_eq_nil_iff]
  intro r hr
  obtain ⟨hr, hs⟩ := List.mem_filter.1 hr
  exact Route.inner_outs (hin r hr (of_decide_eq_true hs))

/-- Hands without engine routes out of the core send no cut. -/
theorem foldl_engineOuts_inner {s : State} {l : List (Nat × Hand)} (g : Nat × Hand → State → Dest → State)
    (h : ∀ p ∈ l, p.2.engineOuts = []) : l.foldl (fun u p => p.2.engineOuts.foldl (g p) u) s = s := by
  induction l with
  | nil => rfl
  | cons p l ih =>
    rw [List.foldl_cons, h p List.mem_cons_self, List.foldl_nil]
    exact ih (fun q hq => h q (List.mem_cons_of_mem _ hq))

/-- A core's cut of a layout is complete: what was left in its old hands is stale, its inputs are free, and the layout waits for one core
less (R123, R155). -/
def State.cutOver (s : State) (core ctx lnum left : Nat) (cuts : List Nat) : State :=
  (((s.modCore core (fun k => k.cutOver ctx lnum)).modCtx ctx (fun x => if x.live then { x with stale := x.stale + left } else x)).modCore core
    (fun k => { k with cfg := [], heldIn := k.heldIn.filter (fun i => !cuts.contains i) })).modLayout ctx lnum
    (fun l => { l with cutCores := l.cutCores.erase core })

theorem State.only_cutOver (s : State) (core ctx lnum left : Nat) (cuts : List Nat) :
    s.Only [.cores, .ctxs] (s.cutOver core ctx lnum left cuts) := by
  have hcore : ∀ (u : State) (g : Core → Core), u.Only [.cores, .ctxs] (u.modCore core g) := fun u g =>
    (u.only_modCore core g).mono _ (by decide)
  have hctx : ∀ (u : State) (g : Context → Context), u.Only [.cores, .ctxs] (u.modCtx ctx g) := fun u g =>
    (u.only_modCtx ctx g).mono _ (by decide)
  exact (((hcore _ _).trans (hctx _ _)).trans (hcore _ _)).trans (hctx _ _)

theorem State.coreOf_cutOver (s : State) (core ctx lnum left : Nat) (cuts : List Nat) :
    (s.cutOver core ctx lnum left cuts).coreOf core =
      { (s.coreOf core).cutOver ctx lnum with
        cfg := [], heldIn := ((s.coreOf core).cutOver ctx lnum).heldIn.filter (fun i => !cuts.contains i) } := by
  rw [State.cutOver, State.modLayout_coreOf, State.coreOf_modCore_self, State.modCtx_coreOf, State.coreOf_modCore_self]

theorem State.coreOf_cutOver_ne (s : State) (core ctx lnum left j : Nat) (cuts : List Nat) (h : j ≠ core) :
    (s.cutOver core ctx lnum left cuts).coreOf j = s.coreOf j := by
  rw [State.cutOver, State.modLayout_coreOf, State.coreOf_modCore_ne _ _ _ _ h, State.modCtx_coreOf, State.coreOf_modCore_ne _ _ _ _ h]

theorem State.layoutOf_cutOver (s : State) (core ctx lnum left : Nat) (cuts : List Nat) :
    (s.cutOver core ctx lnum left cuts).layoutOf ctx lnum =
      (s.layoutOf ctx lnum).map (fun l => { l with cutCores := l.cutCores.erase core }) := by
  rw [State.cutOver, State.layoutOf_modLayout_self]
  refine congrArg _ (State.layoutOf_modCtx_layouts _ _ _ _ ?_)
  split <;> rfl

/-- CUT_COMPLETE of a cut with nothing behind it, whose old hands are done and have no engine route out of the core. -/
theorem execCutComplete_inner {s : State} {core ctx lnum : Nat} (hcfg : (s.coreOf core).cfg = [.cut ctx lnum])
    (hdone : ∀ p ∈ (s.coreOf core).oldHands ctx lnum, (s.coreOf core).handDone ((s.coreOf core).cutsOf ctx lnum) p.1 p.2 = true)
    (hinner : ∀ p ∈ (s.coreOf core).oldHands ctx lnum, p.2.engineOuts = []) :
    execCutComplete core s =
      .next (s.cutOver core ctx lnum ((s.coreOf core).cutLeft ctx lnum) ((s.coreOf core).cutsOf ctx lnum)) := by
  rw [execCutComplete, hcfg]
  refine (onlyIf_next ?_).trans ?_
  · rw [Bool.and_eq_true, List.all_eq_true, List.all_eq_true]
    refine ⟨hdone, fun p hp => ?_⟩
    show p.2.engineOuts.all _ = true
    rw [hinner p hp, List.all_nil]
  · exact congrArg (fun u => Host.Outcome.next (State.cutOver u core ctx lnum ((s.coreOf core).cutLeft ctx lnum)
      ((s.coreOf core).cutsOf ctx lnum))) (foldl_engineOuts_inner _ hinner)

theorem cutComplete_retires {s : State} {core ctx lnum : Nat} {l : Layout} (hcfg : (s.coreOf core).cfg = [.cut ctx lnum])
    (hl : s.layoutOf ctx lnum = some l)
    (hold : ∀ p ∈ (s.coreOf core).oldHands ctx lnum,
      (s.coreOf core).handDone ((s.coreOf core).cutsOf ctx lnum) p.1 p.2 = true ∧
      ∀ r ∈ p.2.img.routes, 4 ≤ r.source → ∀ d ∈ r.dests, 3 < d.target) :
    Answers (.cutComplete core) s [.cores, .ctxs] (fun t => (t.coreOf core).cfg = [] ∧
      (∀ i, i < 4 → ∀ h, t.handOf core i = some h → h.ctx = ctx → h.layout = lnum → h.waiting = false) ∧
      (∀ p ∈ (s.coreOf core).oldHands ctx lnum, t.handOf core p.1 = none ∧ ∀ i ∈ p.2.cutInputs, i ∉ (t.coreOf core).heldIn) ∧
      t.layoutOf ctx lnum = some { l with cutCores := l.cutCores.erase core } ∧ ∀ j, j ≠ core → t.coreOf j = s.coreOf j) := by
  refine ⟨_, execCutComplete_inner hcfg (fun p hp => (hold p hp).1) (fun p hp => Hand.engineOuts_inner (hold p hp).2),
    s.only_cutOver .., ?_, fun i _ h hh hctx hlay => ?_, fun p hp => ⟨?_, fun i hi hheld => ?_⟩, ?_, fun j hj => ?_⟩
  · rw [State.coreOf_cutOver]
  · rw [State.handOf, State.coreOf_cutOver] at hh
    exact Core.cutOver_awake hh hctx hlay
  · rw [State.handOf, State.coreOf_cutOver]
    exact Core.cutOver_old hp
  · rw [State.coreOf_cutOver] at hheld
    have hcut : i ∈ (s.coreOf core).cutsOf ctx lnum := List.mem_flatMap.2 ⟨p, hp, hi⟩
    have hfree := (List.mem_filter.1 hheld).2
    rw [List.contains_iff_mem.2 hcut] at hfree
    cases hfree
  · rw [State.layoutOf_cutOver, hl, Option.map_some]
  · exact s.coreOf_cutOver_ne _ _ _ _ j _ hj

/-! ### The layout's stages (R143, R150, R155) -/

theorem State.jobOf_modCtx_job (s : State) (c : Nat) (g : Context → Context) (h : (g (s.ctxOf c)).job = (s.ctxOf c).job) :
    (s.modCtx c g).jobOf c = s.jobOf c := by
  rw [State.jobOf, State.ctxOf_modCtx_self, h, State.jobOf]

/-- Without a job a deal number goes to the layout's own stations alone (R150). -/
theorem State.publish_alone {s : State} {ctx lnum : Nat} {l : Layout} (hl : s.layoutOf ctx lnum = some l) (hjob : s.jobOf ctx = none) :
    s.publish ctx lnum = s.setLayout ctx lnum (some { l with
      published := l.deal, tags := l.tags.filter (fun p => 1024 ≤ p.1) }) := by
  rw [State.publish, hl]
  dsimp only
  rw [hjob]

theorem loadAcksComplete_publishes {s : State} {ctx lnum : Nat} {l : Layout} (hl : s.layoutOf ctx lnum = some l) (hp : l.phase = .loading)
    (ha : l.acksDue = []) (hjob : s.jobOf ctx = none) :
    Answers (.loadAcksComplete ctx lnum) s [.ctxs] (fun t => t.layoutOf ctx lnum = some { l with
      phase := .acked, published := l.deal, tags := l.tags.filter (fun p => 1024 ≤ p.1) } ∧ ∀ k, k ≠ ctx → t.ctxOf k = s.ctxOf k) := by
  have hlay := s.layoutOf_modLayout_self ctx lnum (fun x => { x with phase := .acked })
  rw [hl, Option.map_some] at hlay
  have hexec : execLoadAcksComplete ctx lnum s = .next ((s.modLayout ctx lnum (fun x => { x with phase := .acked })).publish ctx lnum) := by
    rw [execLoadAcksComplete, hl]
    exact onlyIf_next (by rw [hp, ha]; rfl)
  rw [State.publish_alone hlay ((s.jobOf_modCtx_job ctx _ rfl).trans hjob)] at hexec
  refine ⟨_, hexec, (State.only_modLayout ..).trans (State.only_modCtx ..), State.layoutOf_setLayout_self .., fun k hk => ?_⟩
  exact (State.ctxOf_modCtx_ne _ _ _ _ hk).trans (State.ctxOf_modCtx_ne _ _ _ _ hk)

theorem replaceCutDone_ends {s : State} {ctx lnum : Nat} {l : Layout} {o : Image × Nat} (hl : s.layoutOf ctx lnum = some l)
    (hp : l.phase = .cutting) (hdue : l.cutsDue = []) (hcores : l.cutCores = []) (hst : l.cutStations = []) (ho : l.old = some o) :
    exec (.replaceCutDone ctx lnum) s = .next (s.setLayout ctx lnum (some { l with
      phase := .cutDone, old := none, oldDeal := none, tags := l.tags.filter (fun p => p.1 < 1024),
      idxPos := l.idxPos.filter (fun p => p.1 < 1024), buffers := l.buffers.filter (fun p => p.1 < 1024),
      arrivals := l.arrivals.filter (fun p => p.1 < 1024) })) := by
  show execReplaceCutDone ctx lnum s = _
  rw [execReplaceCutDone, hl]
  dsimp only
  rw [onlyIf_next (by rw [hp, hdue, hcores, hst]; rfl), ho]
  rfl

/-! ### A faulted command at rest -/

theorem faultedQuiescence_tears {s : State} {f q n : Nat} {c : Cmd} {v : Verdict} {l : Layout} (hc : s.cmdOf f q n = some c)
    (hp : c.phase = .running) (hv : c.faultVerdict = some v) (hstill : s.streamsStill f q n = true)
    (hl : s.layoutOf c.ctx (fld (word c.eff 2) 2 0) = some l) (hm : s.inMotion c.ctx l = false) (hlive : s.ctxLive c.ctx = true) :
    ∃ t, exec (.faultedQuiescence f q n) s = .next t ∧ t.ctxLive c.ctx = false ∧ ∀ p ∈ t.usedSlots, p.2.ctx ≠ c.ctx := by
  have htorn := s.teardown_torn c.ctx v (hitOne f q n) hlive
  have hexec : execFaultedQuiescence f q n s = .next (s.teardown c.ctx v (hitOne f q n)) := by
    simp only [execFaultedQuiescence, hc, hv, hl]
    exact onlyIf_next (by simp [Cmd.isRunning, hp, hstill, hm])
  exact ⟨_, hexec, htorn.gone, htorn.slots⟩

/-! ### The obligation -/

/-- Settles O15, row by row: what a core input offers goes where its route says (`State.Offers`), each item of the configuration port by its own
lemma, the deal update hand by hand (`State.Redealt`), and quiescence by the teardown. -/
theorem tilesAndCutsMove : Obligations.TilesAndCutsMove := by
  unfold Obligations.TilesAndCutsMove
  intro s core port ch ctx lnum t0 rest hshut
  refine ⟨?cross, ?pair, ?latch, ?drop, ?write, ?ack, ?deal, ?cut, ?load, ?replaced, ?faulted⟩
  case cross =>
    intro h r ri d nb hq hk hheld hw hroute hr hout hbare hclear hleads hne hc hturn
    exact tileArrive_crosses ⟨hshut, hq, hheld, hw⟩ hk hroute hr ⟨hout, hbare, hclear, hleads⟩ hne hc hturn
  case pair =>
    intro h r ri d hq hk hheld hw hroute hr hlow hhigh hdeal htoken hdata hroom
    exact tileArrive_pairs ⟨hshut, hq, hheld, hw⟩ hk hroute hr ⟨hlow, hhigh, hdeal, htoken, hdata⟩ hroom
  case latch =>
    intro h r ri hq hk hheld hw hroute hinner
    exact cutArrive_latches ⟨hshut, hq, hheld, hw⟩ hk hroute hinner
  case drop => exact fun slot h r => configItem_drops
  case write => exact fun slot h r => configItem_writes
  case ack => exact fun l r => configItem_acks
  case deal => exact fun d l r => dealUpdateApply_deals
  case cut => exact fun l => cutComplete_retires
  case load => exact fun l => loadAcksComplete_publishes
  case replaced => exact fun l o => replaceCutDone_ends
  case faulted => exact fun f q n c v l => faultedQuiescence_tears

end Sys2Proof.Machine
end

section
/-! The output stations (R103, R155, R224, R409): what becomes of the first tile on the way to one, and O38. -/
namespace Sys2Proof.Machine

/-- While no showdown marker is open, a tile is the first on the way to a station of a layout's own image. -/
structure State.Reaches (s : State) (ctx lnum stn : Nat) (l : Layout) (st : Station) (t : Tile) (rest : List Tile) : Prop where
  shut    : s.mgmt.cutOpen = false
  layout  : s.layoutOf ctx lnum = some l
  way     : tget [] l.arrivals stn = t :: rest
  station : l.stationOf stn = some st
  own     : stn < 1024

/-- The first tile on the way to a station has left the way. -/
def State.popArrival (s : State) (ctx lnum stn : Nat) (rest : List Tile) : State :=
  s.modLayout ctx lnum (fun y => { y with arrivals := tset [] y.arrivals stn rest })

/-- A tile joins the buffer of a station. -/
def State.pushBuffer (s : State) (ctx lnum stn : Nat) (t : Tile) : State :=
  s.modLayout ctx lnum (fun y => { y with buffers := tmod [] y.buffers stn (fun b => b ++ [t]) })

variable {s : State} {ctx lnum stn : Nat} {l : Layout} {st : Station} {t : Tile} {rest : List Tile}

theorem State.showArrive_shut (h : s.mgmt.cutOpen = false) (ctx lnum stn : Nat) (t : Tile) : s.showArrive ctx lnum stn t = s := by
  rw [State.showArrive, h]
  rfl

theorem State.boundSlot_slots {u : State} (h : u.slots = s.slots) (ctx lnum key : Nat) :
    u.boundSlot ctx lnum key = s.boundSlot ctx lnum key := by
  rw [State.boundSlot, State.usedSlots, h, State.boundSlot, State.usedSlots]

/-! ### A data or control tile -/

/-- OUTPUT_TILE_ARRIVE of a tile under another deal number (R103). -/
theorem State.Reaches.stale (h : s.Reaches ctx lnum stn l st t rest) (hk : t.kind < 2) (hdeal : t.deal ≠ l.deal) :
    execOutputTileArrive ctx lnum stn s =
      .next ((s.popArrival ctx lnum stn rest).modCtx ctx (fun c => { c with stale := c.stale + 1 })) := by
  have hshut : (s.popArrival ctx lnum stn rest).mgmt.cutOpen = false := h.shut
  have h3 : ¬ t.kind = 3 := by omega
  have h2 : ¬ t.kind = 2 := by omega
  rw [execOutputTileArrive, h.layout]
  dsimp only
  rw [h.way, h.station]
  dsimp only
  rw [← State.popArrival, State.showArrive_shut hshut, if_neg h3, if_neg h2, if_neg (Nat.not_le.2 h.own), if_pos hdeal]

/-- The same of a tile the station accepts: it leaves for the other device where the station is mapped, and else waits for room in the
buffer (R224, R409). -/
theorem State.Reaches.accepted (h : s.Reaches ctx lnum stn l st t rest) (hk : t.kind < 2) (hdeal : t.deal = l.deal) (hfmt : t.fmt = st.fmt) :
    execOutputTileArrive ctx lnum stn s = (match s.mapped ctx lnum stn with
      | some (_, idx) => .next ((s.popArrival ctx lnum stn rest).sendMapped ctx idx t)
      | none => onlyIf (decide (((tget [] l.buffers stn).filter (fun x => x.kind < 2)).length < st.bufTiles)) s
          (match ((s.popArrival ctx lnum stn rest).pushBuffer ctx lnum stn t).boundSlot ctx lnum stn with
            | some p => ((s.popArrival ctx lnum stn rest).pushBuffer ctx lnum stn t).remark p.1
            | none => (s.popArrival ctx lnum stn rest).pushBuffer ctx lnum stn t)) := by
  have hshut : (s.popArrival ctx lnum stn rest).mgmt.cutOpen = false := h.shut
  have h3 : ¬ t.kind = 3 := by omega
  have h2 : ¬ t.kind = 2 := by omega
  rw [execOutputTileArrive, h.layout]
  dsimp only
  rw [h.way, h.station]
  dsimp only
  rw [← State.popArrival, State.showArrive_shut hshut, if_neg h3, if_neg h2, if_neg (Nat.not_le.2 h.own), if_neg (not_not.2 hdeal),
    decide_eq_true hfmt, if_pos h.own]
  rfl

theorem State.popArrival_layout (h : s.layoutOf ctx lnum = some l) (stn : Nat) (rest : List Tile) :
    (s.popArrival ctx lnum stn rest).layoutOf ctx lnum = some { l with arrivals := tset [] l.arrivals stn rest } := by
  rw [State.popArrival, State.layoutOf_modLayout_self, h, Option.map_some]

theorem outputTileArrive_keeps (h : s.Reaches ctx lnum stn l st t rest) (hk : t.kind < 2) (hdeal : t.deal = l.deal) (hfmt : t.fmt = st.fmt)
    (hmap : s.mapped ctx lnum stn = none) (hbound : s.boundSlot ctx lnum stn = none)
    (hroom : ((tget [] l.buffers stn).filter (fun x => x.kind < 2)).length < st.bufTiles) :
    Answers (.outputTileArrive ctx lnum stn) s [.ctxs] (fun u => u.layoutOf ctx lnum = some { l with
        arrivals := tset [] l.arrivals stn rest, buffers := tset [] l.buffers stn (tget [] l.buffers stn ++ [t]) } ∧
      (∀ k, k ≠ ctx → u.ctxOf k = s.ctxOf k) ∧ ∀ k, k ≠ lnum → u.layoutOf ctx k = s.layoutOf ctx k) := by
  have hfree : ((s.popArrival ctx lnum stn rest).pushBuffer ctx lnum stn t).boundSlot ctx lnum stn = none :=
    (State.boundSlot_slots rfl ctx lnum stn).trans hbound
  have hexec := h.accepted hk hdeal hfmt
  rw [hmap, hfree] at hexec
  refine ⟨_, hexec.trans (onlyIf_next (decide_eq_true hroom)), ?_, ?_, fun k hne => ?_, fun k hne => ?_⟩
  · exact (State.only_modLayout ..).trans (State.only_modLayout ..)
  · rw [State.pushBuffer, State.layoutOf_modLayout_self, State.popArrival_layout h.layout, Option.map_some, tmod]
  · exact (State.ctxOf_modCtx_ne _ _ _ _ hne).trans (State.ctxOf_modCtx_ne _ _ _ _ hne)
  · exact (State.layoutOf_modLayout_ne _ _ _ _ _ hne).trans (State.layoutOf_modLayout_ne _ _ _ _ _ hne)

theorem outputTileArrive_drops (h : s.Reaches ctx lnum stn l st t rest) (hk : t.kind < 2) (hdeal : t.deal ≠ l.deal) :
    Answers (.outputTileArrive ctx lnum stn) s [.ctxs] (fun u => u.layoutOf ctx lnum = some { l with
        arrivals := tset [] l.arrivals stn rest } ∧ (u.ctxOf ctx).stale = (s.ctxOf ctx).stale + 1 ∧
      (∀ k, k ≠ ctx → u.ctxOf k = s.ctxOf k) ∧ ∀ k, k ≠ lnum → u.layoutOf ctx k = s.layoutOf ctx k) := by
  refine ⟨_, h.stale hk hdeal, (State.only_modLayout ..).trans (State.only_modCtx ..), ?_, ?_, fun k hne => ?_, fun k hne => ?_⟩
  · rw [State.layoutOf_modCtx_layouts _ _ _ _ rfl, State.popArrival_layout h.layout]
  · rw [State.ctxOf_modCtx_self, State.popArrival, State.modLayout, State.ctxOf_modCtx_self]
  · exact (State.ctxOf_modCtx_ne _ _ _ _ hne).trans (State.ctxOf_modCtx_ne _ _ _ _ hne)
  · rw [State.layoutOf_modCtx_layouts _ _ _ _ rfl, State.popArrival, State.layoutOf_modLayout_ne _ _ _ _ _ hne]

theorem outputTileArrive_maps {e : MapEntry} {idx : Nat} (h : s.Reaches ctx lnum stn l st t rest) (hk : t.kind < 2)
    (hdeal : t.deal = l.deal) (hfmt : t.fmt = st.fmt) (hmap : s.mapped ctx lnum stn = some (e, idx)) :
    exec (.outputTileArrive ctx lnum stn) s = .next ((s.popArrival ctx lnum stn rest).sendMapped ctx idx t) := by
  have hexec := h.accepted hk hdeal hfmt
  rwa [hmap] at hexec

/-! ### A cut -/

/-- From s to u a cut has ended the old tiles of a station of the layout l: its buffer and the way are empty, what no binding has taken is
stale, and the layout waits for one station less (R155). -/
structure State.CutTaken (ctx lnum stn : Nat) (l : Layout) (s u : State) : Prop where
  only  : s.Only [.ctxs] u
  stale : (u.ctxOf ctx).stale = (s.ctxOf ctx).stale + ((tget [] l.buffers stn).filter (fun x => x.kind < 2)).length
  left  : ∃ l', u.layoutOf ctx lnum = some l' ∧ tget [] l'.buffers stn = [] ∧ tget [] l'.arrivals stn = [] ∧
    l'.cutStations = l.cutStations.erase stn

/-- With no tile behind the cut nothing comes to the new layout's station. -/
theorem State.CutTaken.none_behind {u : State} (h : State.CutTaken ctx lnum stn l s u) (c n k : Nat) :
    State.CutTaken ctx lnum stn l s (u.modLayout c n (fun y => { y with arrivals := tmod [] y.arrivals k (fun b => [] ++ b) })) := by
  have honly := h.only.trans (u.only_modLayout c n (fun y => { y with arrivals := tmod [] y.arrivals k (fun b => [] ++ b) }))
  by_cases hc : ctx = c
  · subst hc
    refine ⟨honly, ?_, ?_⟩
    · rw [State.modLayout, State.ctxOf_modCtx_self, h.stale]
    · by_cases hn : lnum = n
      · subst hn
        obtain ⟨l', hl, hbuf, harr, hcuts⟩ := h.left
        refine ⟨_, (u.layoutOf_modLayout_self ctx lnum _).trans (congrArg (Option.map _) hl), hbuf, ?_, hcuts⟩
        rw [tget_tmod]
        split
        · next hk => rw [← hk, harr]; rfl
        · exact harr
      · rw [State.layoutOf_modLayout_ne _ _ _ _ _ hn]
        exact h.left
  · have hctx := u.ctxOf_modCtx_ne c ctx (fun x => { x with
      layouts := tmod none x.layouts n (fun o => o.map (fun y => { y with arrivals := tmod [] y.arrivals k (fun b => [] ++ b) })) }) hc
    refine ⟨honly, ?_, ?_⟩
    · rw [State.modLayout, hctx, h.stale]
    · rw [State.layoutOf, State.modLayout, hctx]
      exact h.left

theorem State.cutStation_taken (s : State) (ctx lnum stn : Nat) (l : Layout) :
    State.CutTaken ctx lnum stn l s (s.cutStation ctx lnum stn l []) := by
  unfold State.cutStation
  extract_lets left s1
  have h1 : State.CutTaken ctx lnum stn l s s1 := by
    refine ⟨(State.only_modCtx ..).trans (State.only_modCtx ..), ?_, _,
      (State.layoutOf_modCtx_layouts _ _ _ _ rfl).trans (State.layoutOf_setLayout_self ..), tget_tset_self .., tget_tset_self .., rfl⟩
    rw [State.ctxOf_modCtx_self, State.setLayout, State.ctxOf_modCtx_self]
  split
  · exact h1
  · split
    · exact h1.none_behind _ _ _
    · exact h1

theorem outputTileArrive_cuts (h : s.Reaches ctx lnum stn l st t []) (hk : t.kind = 2) (hbound : s.boundSlot ctx lnum stn = none) :
    Answers (.outputTileArrive ctx lnum stn) s [.ctxs] (fun u => (u.ctxOf ctx).stale = (s.ctxOf ctx).stale +
        ((tget [] l.buffers stn).filter (fun x => x.kind < 2)).length ∧
      ∃ l', u.layoutOf ctx lnum = some l' ∧ tget [] l'.buffers stn = [] ∧ tget [] l'.arrivals stn = [] ∧
        l'.cutStations = l.cutStations.erase stn) := by
  have hexec : execOutputTileArrive ctx lnum stn s = .next (s.cutStation ctx lnum stn l []) := by
    have h3 : ¬ t.kind = 3 := by omega
    rw [execOutputTileArrive, h.layout]
    dsimp only
    rw [h.way, h.station]
    dsimp only
    rw [if_neg h3, if_pos hk, hbound, State.showArrive_shut h.shut]
    rfl
  obtain ⟨honly, hstale, hleft⟩ := s.cutStation_taken ctx lnum stn l
  exact ⟨_, hexec, honly, hstale, hleft⟩

/-! ### The obligation -/

/-- Settles O38, case by case of what the tile is and what its station says of it (`State.Reaches`). -/
theorem outputStationsTakeTiles : Obligations.OutputStationsTakeTiles := by
  unfold Obligations.OutputStationsTakeTiles
  intro s ctx lnum stn l st t0 rest hshut hl hway hst hown
  have h : s.Reaches ctx lnum stn l st t0 rest := ⟨hshut, hl, hway, hst, hown⟩
  refine ⟨outputTileArrive_keeps h, outputTileArrive_drops h, fun e idx => outputTileArrive_maps h, ?cut⟩
  case cut =>
    intro hk hbound hrest
    exact outputTileArrive_cuts (hrest ▸ h) hk hbound

end Sys2Proof.Machine
end

section
/-! The value of a floating-point code by its exponent field (R164, R165), and O45. -/
namespace Sys2Proof.Machine

/-! ### Decoding a floating-point code -/

theorem nbit_eq (n i : Nat) : nbit n i = decide (n / 2 ^ i % 2 = 1) := by simp [nbit, bits]

theorem floatOf_eb_pos (fmt : Nat) : 0 < (floatOf fmt).eb := by
  unfold floatOf
  split <;> decide

/-- The exponent field of a code of a floating-point format. -/
def expField (f : FloatFmt) (code : Nat) : Nat := bits code (f.eb + f.mb - 1) f.mb

section
variable {fmt code : Nat} (hf : fmtIsInt fmt = false)
include hf

theorem decodeEl_subnormal (h : expField (floatOf fmt) code = 0) :
    decodeEl fmt code = .fin (nbit code ((floatOf fmt).eb + (floatOf fmt).mb)) (code % 2 ^ (floatOf fmt).mb)
      ((floatOf fmt).emin - (floatOf fmt).mb) := by
  have htop : ¬ 0 = 2 ^ (floatOf fmt).eb - 1 := by
    have := Nat.one_lt_two_pow (floatOf_eb_pos fmt).ne'
    omega
  unfold expField at h
  simp [decodeEl, hf, h, htop]

theorem decodeEl_normal (h0 : expField (floatOf fmt) code ≠ 0)
    (h : fmt = 0 ∨ expField (floatOf fmt) code ≠ 2 ^ (floatOf fmt).eb - 1) :
    decodeEl fmt code = .fin (nbit code ((floatOf fmt).eb + (floatOf fmt).mb)) (2 ^ (floatOf fmt).mb + code % 2 ^ (floatOf fmt).mb)
      ((expField (floatOf fmt) code : Int) - (floatOf fmt).bias - (floatOf fmt).mb) := by
  unfold expField at *
  obtain rfl | htop := h
  · simp [decodeEl, hf, h0]
  · simp [decodeEl, hf, h0, htop]

theorem decodeEl_top_not_isFin (h0 : fmt ≠ 0) (h2 : fmt ≠ 2) (h : expField (floatOf fmt) code = 2 ^ (floatOf fmt).eb - 1) :
    (decodeEl fmt code).isFin = false := by
  unfold expField at h
  by_cases hm : code % 2 ^ (floatOf fmt).mb = 0
  · simp [decodeEl, hf, h, h0, h2, hm, Num.isFin]
  · simp [decodeEl, hf, h, h0, h2, hm, Num.isFin]

end

/-! ### F4 -/

/-- Settles O45: the codes with exponent field 0 count their mantissa in halves, the others 2 plus the mantissa, times
2^(field - 1). -/
theorem fourBitFloatValues : Obligations.FourBitFloatValues := by
  unfold Obligations.FourBitFloatValues
  intro c hc
  have hsign : nbit c 3 = decide (8 ≤ c) := (nbit_eq c 3).trans (decide_eq_decide.mpr (by omega))
  by_cases h : expField fF4 c = 0
  · refine ⟨c % 2, -1, ?_, le_rfl, ?_⟩
    · rw [← hsign]
      exact decodeEl_subnormal rfl h
    · clear hsign
      revert c
      decide
  · refine ⟨2 + c % 2, (expField fF4 c : Int) - 1 - 1, ?_, by omega, ?_⟩
    · rw [← hsign]
      exact decodeEl_normal rfl h (.inl rfl)
    · clear hsign
      revert c
      decide

end Sys2Proof.Machine
end

section
/-! The split of an FP32 element into three BF16 parts (R189), on signs and magnitudes in units of 2^-149, and O53. -/
namespace Sys2Proof.Machine

/-! ### Finite values by sign and magnitude -/

/-- v is the finite value of a sign and a magnitude in units of 2^-149. -/
def Num.Holds (v : Num) (neg : Bool) (M : Nat) : Prop :=
  ∃ m j : Nat, v = .fin neg m ((j : Int) - 149) ∧ m * 2 ^ j = M

/-- A magnitude with its sign. -/
def signedUnits (neg : Bool) (M : Nat) : Int := (if neg then -1 else 1) * (M : Int)

theorem signedUnits_add (neg : Bool) (M N : Nat) : signedUnits neg (M + N) = signedUnits neg M + signedUnits neg N := by
  simp [signedUnits, mul_add]

theorem Num.Holds.units {v : Num} {neg : Bool} {M : Nat} (h : v.Holds neg M) : v.units = some (signedUnits neg M) := by
  obtain ⟨m, j, rfl, rfl⟩ := h
  simp [Num.units, signedUnits]

theorem subMag_holds {x y : Num} {neg neg' : Bool} {M N : Nat} (hx : x.Holds neg M) (hy : y.Holds neg' N) :
    (subMag x y).Holds neg (M - N) := by
  obtain ⟨m, i, rfl, rfl⟩ := hx
  obtain ⟨n, j, rfl, rfl⟩ := hy
  have hg : min ((i : Int) - 149) ((j : Int) - 149) = ((min i j : Nat) : Int) - 149 := by omega
  have hi : ((i : Int) - 149 - ((min i j : Nat) - 149)).toNat = i - min i j := by omega
  have hj : ((j : Int) - 149 - ((min i j : Nat) - 149)).toNat = j - min i j := by omega
  refine ⟨_, min i j, by rw [subMag, hg, hi, hj], ?_⟩
  rw [Nat.sub_mul, mul_assoc, mul_assoc, ← pow_add, ← pow_add, Nat.sub_add_cancel (min_le_left i j),
    Nat.sub_add_cancel (min_le_right i j)]

/-! ### Truncation to BF16, on magnitudes -/

/-- The weight of the last bit that BF16 keeps of a magnitude, as a power of 2: seven bits behind the leading bit, and never finer than
for the smallest normal value, 2^23 units. -/
def bf16Grain (M : Nat) : Nat := max M.log2 23 - 7

/-- What BF16 keeps of a magnitude (R189). -/
def bf16Kept (M : Nat) : Nat := M / 2 ^ bf16Grain M * 2 ^ bf16Grain M

/-- What the truncation to BF16 leaves. -/
def bf16Rest (M : Nat) : Nat := M % 2 ^ bf16Grain M

theorem bf16Kept_add_bf16Rest (M : Nat) : bf16Kept M + bf16Rest M = M := Nat.div_add_mod' M (2 ^ bf16Grain M)

theorem bf16Rest_eq_zero_of_dvd {M k : Nat} (h : 2 ^ k ∣ M) (hk : bf16Grain M ≤ k) : bf16Rest M = 0 :=
  Nat.mod_eq_zero_of_dvd ((Nat.pow_dvd_pow 2 hk).trans h)

theorem dvd_bf16Rest {M k : Nat} (h : 2 ^ k ∣ M) : 2 ^ k ∣ bf16Rest M := by
  obtain hk | hk := Nat.le_total k (bf16Grain M)
  · exact (Nat.dvd_mod_iff (Nat.pow_dvd_pow 2 hk)).mpr h
  · rw [bf16Rest_eq_zero_of_dvd h hk]
    exact dvd_zero _

theorem bf16Grain_le {M k : Nat} (hM : M < 2 ^ (k + 8)) (hk : 16 ≤ k) : bf16Grain M ≤ k := by
  obtain rfl | h0 := eq_or_ne M 0
  · exact hk
  · have := (Nat.log2_lt h0).mpr hM
    unfold bf16Grain
    omega

/-- Each pass takes eight bits, down to the 2^16 units that are the last bit of the smallest normal BF16 value. -/
theorem bf16Rest_lt {M k : Nat} (hM : M < 2 ^ (k + 8)) (hk : 16 ≤ k) : bf16Rest M < 2 ^ k :=
  (Nat.mod_lt M (Nat.two_pow_pos _)).trans_le (Nat.pow_le_pow_right Nat.two_pos (bf16Grain_le hM hk))

/-- Three passes take the 24 bits of a significand whose last bit weighs at least 2^16 units. -/
theorem bf16Rest_thrice_eq_zero {M k : Nat} (hM : M < 2 ^ (k + 24)) (hd : 2 ^ k ∣ M) (hk : 16 ≤ k) :
    bf16Rest (bf16Rest (bf16Rest M)) = 0 := by
  have h1 : bf16Rest M < 2 ^ (k + 16) := bf16Rest_lt hM (by omega)
  have h2 : bf16Rest (bf16Rest M) < 2 ^ (k + 8) := bf16Rest_lt h1 (by omega)
  exact bf16Rest_eq_zero_of_dvd (dvd_bf16Rest (dvd_bf16Rest hd)) (bf16Grain_le h2 hk)

theorem log2_mul_two_pow {m : Nat} (hm : m ≠ 0) (j : Nat) : (m * 2 ^ j).log2 = m.log2 + j := by
  induction j with
  | zero => simp
  | succ j ih => rw [pow_succ', mul_left_comm, Nat.log2_two_mul (by positivity), ih, add_assoc]

theorem trunc16_holds {v : Num} {neg : Bool} {M : Nat} (h : v.Holds neg M) : (trunc16 v).Holds neg (bf16Kept M) := by
  obtain ⟨m, j, rfl, rfl⟩ := h
  rw [trunc16]
  by_cases hm : m = 0
  · rw [if_pos hm]
    exact ⟨m, j, rfl, by simp [hm, bf16Kept]⟩
  · have hq : max ((m.log2 : Int) + ((j : Int) - 149)) (-126) - 7 = (bf16Grain (m * 2 ^ j) : Int) - 149 := by
      rw [bf16Grain, log2_mul_two_pow hm]
      omega
    rw [if_neg hm, hq]
    dsimp only
    split
    case isTrue hle =>
      have hd : 2 ^ bf16Grain (m * 2 ^ j) ∣ m * 2 ^ j := (Nat.pow_dvd_pow 2 (by omega)).mul_left m
      exact ⟨m, j, rfl, (Nat.div_mul_cancel hd).symm⟩
    case isFalse hlt =>
      obtain ⟨d, hd⟩ : ∃ d, bf16Grain (m * 2 ^ j) = d + j := ⟨bf16Grain (m * 2 ^ j) - j, by omega⟩
      have ht : (((d + j : Nat) : Int) - 149 - ((j : Int) - 149)).toNat = d := by omega
      refine ⟨m / 2 ^ d, d + j, by rw [hd, ht], ?_⟩
      rw [bf16Kept, hd, pow_add, Nat.mul_div_mul_right _ _ (Nat.two_pow_pos j)]

/-! ### The magnitude of an FP32 code -/

/-- The exponent field of an FP32 code. -/
def fp32Exp (c : Nat) : Nat := bits c 30 23

/-- The magnitude of a finite FP32 code (R164). -/
def fp32Mag (c : Nat) : Nat := if fp32Exp c = 0 then c % 2 ^ 23 else (2 ^ 23 + c % 2 ^ 23) * 2 ^ (fp32Exp c - 1)

theorem decF_holds {c : Nat} (h : fp32Exp c ≠ 255) : (decF c).Holds (nbit c 31) (fp32Mag c) := by
  by_cases h0 : fp32Exp c = 0
  · refine ⟨c % 2 ^ 23, 0, ?_, by simp [fp32Mag, h0]⟩
    exact decodeEl_subnormal rfl h0
  · refine ⟨2 ^ 23 + c % 2 ^ 23, fp32Exp c - 1, ?_, by simp [fp32Mag, h0]⟩
    have he : ((fp32Exp c - 1 : Nat) : Int) - 149 = (fp32Exp c : Int) - (127 : Nat) - (23 : Nat) := by omega
    rw [he]
    exact decodeEl_normal rfl h0 (.inr h)

theorem fp32Exp_ne_of_isFin {c : Nat} (h : (decF c).isFin = true) : fp32Exp c ≠ 255 := fun htop =>
  Bool.false_ne_true ((decodeEl_top_not_isFin (fmt := 7) rfl (by decide) (by decide) htop).symm.trans h)

/-- The upper 16 bits of a code carry its sign and exponent. -/
theorem nbit_upper (c : Nat) : nbit (c / 65536 * 65536) 31 = nbit c 31 := by
  have : c / 65536 * 65536 / 2 ^ 31 % 2 = c / 2 ^ 31 % 2 := by omega
  rw [nbit_eq, nbit_eq, this]

theorem fp32Exp_upper (c : Nat) : fp32Exp (c / 65536 * 65536) = fp32Exp c := by
  simp only [fp32Exp, bits]
  omega

theorem bf16Grain_fp32Mag_of_subnormal {c : Nat} (h : fp32Exp c = 0) : bf16Grain (fp32Mag c) = 16 := by
  rw [fp32Mag, if_pos h]
  have hlt : c % 2 ^ 23 < 2 ^ (16 + 8) := by omega
  have hle : bf16Grain (c % 2 ^ 23) ≤ 16 := bf16Grain_le hlt le_rfl
  unfold bf16Grain at *
  omega

theorem bf16Grain_fp32Mag_of_normal {c : Nat} (h : fp32Exp c ≠ 0) : bf16Grain (fp32Mag c) = 16 + (fp32Exp c - 1) := by
  have hlog : (2 ^ 23 + c % 2 ^ 23).log2 = 23 := (Nat.log2_eq_iff (by omega)).mpr ⟨by omega, by omega⟩
  rw [fp32Mag, if_neg h, bf16Grain, log2_mul_two_pow (by omega), hlog]
  omega

/-- The upper 16 bits of a code's encoding are BF16's truncation of its value. -/
theorem fp32Mag_upper (c : Nat) : fp32Mag (c / 65536 * 65536) = bf16Kept (fp32Mag c) := by
  by_cases h : fp32Exp c = 0
  · rw [bf16Kept, bf16Grain_fp32Mag_of_subnormal h, fp32Mag, fp32Mag, fp32Exp_upper, if_pos h, if_pos h]
    omega
  · have hsig : 2 ^ 23 + c / 65536 * 65536 % 2 ^ 23 = (2 ^ 23 + c % 2 ^ 23) / 2 ^ 16 * 2 ^ 16 := by omega
    rw [bf16Kept, bf16Grain_fp32Mag_of_normal h, fp32Mag, fp32Mag, fp32Exp_upper, if_neg h, if_neg h, hsig, pow_add,
      Nat.mul_div_mul_right _ _ (Nat.two_pow_pos _), mul_assoc]

/-! ### The magnitudes that have an FP32 code -/

/-- A magnitude of at most 24 bits, its last bit of a weight that FP32 has. -/
def HasFp32 (M : Nat) : Prop := ∃ m k : Nat, m < 2 ^ 24 ∧ k ≤ 253 ∧ m * 2 ^ k = M

theorem hasFp32_fp32Mag {c : Nat} (h : fp32Exp c ≠ 255) : HasFp32 (fp32Mag c) := by
  have hlt : fp32Exp c < 256 := Nat.mod_lt _ (by decide)
  by_cases h0 : fp32Exp c = 0
  · exact ⟨c % 2 ^ 23, 0, by omega, by omega, by simp [fp32Mag, h0]⟩
  · exact ⟨2 ^ 23 + c % 2 ^ 23, fp32Exp c - 1, by omega, by omega, by rw [fp32Mag, if_neg h0]⟩

theorem hasFp32_bf16Rest {M : Nat} (h : HasFp32 M) : HasFp32 (bf16Rest M) := by
  obtain ⟨m, k, hm, hk, rfl⟩ := h
  obtain hg | hg := Nat.le_total (bf16Grain (m * 2 ^ k)) k
  · exact ⟨0, 0, by decide, by decide, by rw [bf16Rest_eq_zero_of_dvd (Nat.dvd_mul_left _ m) hg, zero_mul]⟩
  · refine ⟨m % 2 ^ (bf16Grain (m * 2 ^ k) - k), k, (Nat.mod_le m _).trans_lt hm, hk, ?_⟩
    rw [bf16Rest, ← Nat.mul_mod_mul_right, ← pow_add, Nat.sub_add_cancel hg]

theorem b2n_le_one (b : Bool) : b2n b ≤ 1 := by cases b <;> decide

theorem nbit_signed_code (neg : Bool) {a : Nat} (ha : a < 2 ^ 31) : nbit (b2n neg * 2 ^ 31 + a) 31 = neg := by
  have h : (b2n neg * 2 ^ 31 + a) / 2 ^ 31 % 2 = b2n neg := by have := b2n_le_one neg; omega
  rw [nbit_eq, h]
  cases neg <;> rfl

theorem signed_code_lt (neg : Bool) {a : Nat} (ha : a < 2 ^ 31) : b2n neg * 2 ^ 31 + a < 2 ^ 32 := by
  have := b2n_le_one neg
  omega

/-- The code of a sign and a significand with its hidden bit: the hidden bit adds 1 to the exponent field. -/
theorem exists_code_of_normal (neg : Bool) {m k : Nat} (hlo : 2 ^ 23 ≤ m) (hm : m < 2 ^ 24) (hk : k ≤ 253) :
    ∃ c, c < 2 ^ 32 ∧ fp32Exp c ≠ 255 ∧ nbit c 31 = neg ∧ fp32Mag c = m * 2 ^ k := by
  have ha : k * 2 ^ 23 + m < 2 ^ 31 := by omega
  have hexp : fp32Exp (b2n neg * 2 ^ 31 + (k * 2 ^ 23 + m)) = k + 1 := by
    simp only [fp32Exp, bits]
    omega
  have hsig : 2 ^ 23 + (b2n neg * 2 ^ 31 + (k * 2 ^ 23 + m)) % 2 ^ 23 = m := by omega
  refine ⟨_, signed_code_lt neg ha, by omega, nbit_signed_code neg ha, ?_⟩
  rw [fp32Mag, hexp, if_neg (by omega), hsig, Nat.add_sub_cancel]

theorem exists_code_of_subnormal (neg : Bool) {m : Nat} (hm : m < 2 ^ 23) :
    ∃ c, c < 2 ^ 32 ∧ fp32Exp c ≠ 255 ∧ nbit c 31 = neg ∧ fp32Mag c = m := by
  have ha : m < 2 ^ 31 := by omega
  have hexp : fp32Exp (b2n neg * 2 ^ 31 + m) = 0 := by
    simp only [fp32Exp, bits]
    omega
  refine ⟨_, signed_code_lt neg ha, by omega, nbit_signed_code neg ha, ?_⟩
  rw [fp32Mag, if_pos hexp]
  omega

/-- A significand without its hidden bit is a subnormal code's, or moves up by one bit and its weight down. -/
theorem HasFp32.exists_code {M : Nat} (h : HasFp32 M) (neg : Bool) :
    ∃ c, c < 2 ^ 32 ∧ fp32Exp c ≠ 255 ∧ nbit c 31 = neg ∧ fp32Mag c = M := by
  obtain ⟨m, k, hm, hk, rfl⟩ := h
  induction k generalizing m with
  | zero =>
    obtain hlo | hlo := Nat.lt_or_ge m (2 ^ 23)
    · simpa using exists_code_of_subnormal neg hlo
    · exact exists_code_of_normal neg hlo hm hk
  | succ k ih =>
    obtain hlo | hlo := Nat.lt_or_ge m (2 ^ 23)
    · have hmove : m * 2 ^ (k + 1) = m * 2 * 2 ^ k := by ring
      rw [hmove]
      exact ih (m * 2) (by omega) (by omega)
    · exact exists_code_of_normal neg hlo hm hk

/-! ### The three parts -/

theorem decF_upper_holds {c : Nat} (h : fp32Exp c ≠ 255) : (decF (c / 65536 * 65536)).Holds (nbit c 31) (bf16Kept (fp32Mag c)) := by
  rw [← nbit_upper, ← fp32Mag_upper]
  exact decF_holds (by rwa [fp32Exp_upper])

/-- What is kept of an encodable value is the upper half of that value's code. -/
theorem HasFp32.exists_decF {M : Nat} (h : HasFp32 M) (neg : Bool) : ∃ z, z < 2 ^ 32 ∧
    (decF z).units = some (signedUnits neg M) ∧ (decF (z / 65536 * 65536)).units = some (signedUnits neg (bf16Kept M)) := by
  obtain ⟨z, hz, hfin, rfl, rfl⟩ := h.exists_code neg
  exact ⟨z, hz, (decF_holds hfin).units, (decF_upper_holds hfin).units⟩

theorem subMag_trunc16_holds {v : Num} {neg : Bool} {M : Nat} (h : v.Holds neg M) : (subMag v (trunc16 v)).Holds neg (bf16Rest M) := by
  have hrest : M - bf16Kept M = bf16Rest M := Nat.sub_eq_of_eq_add' (bf16Kept_add_bf16Rest M).symm
  exact hrest ▸ subMag_holds h (trunc16_holds h)

theorem signedUnits_sub_bf16Kept (neg : Bool) (M : Nat) :
    signedUnits neg M - signedUnits neg (bf16Kept M) = signedUnits neg (bf16Rest M) := by
  rw [sub_eq_iff_eq_add', ← signedUnits_add, bf16Kept_add_bf16Rest]

theorem bf16Rest_thrice_fp32Mag_eq_zero {c : Nat} (h : 17 ≤ fp32Exp c) : bf16Rest (bf16Rest (bf16Rest (fp32Mag c))) = 0 := by
  rw [fp32Mag, if_neg (by omega)]
  refine bf16Rest_thrice_eq_zero (k := fp32Exp c - 1) ?_ (Nat.dvd_mul_left _ _) (by omega)
  have hsig : 2 ^ 23 + c % 2 ^ 23 < 2 ^ 24 := by omega
  rw [pow_add, mul_comm]
  exact Nat.mul_lt_mul_of_pos_left hsig (Nat.two_pow_pos _)

/-- Settles O53: the parts keep the sign, and their magnitudes are what each truncation keeps of what the ones before it left. -/
theorem threePassSplit : Obligations.ThreePassSplit := by
  unfold Obligations.ThreePassSplit
  intro c _ hfin
  have hc : fp32Exp c ≠ 255 := fp32Exp_ne_of_isFin hfin
  have h0 : (decF c).Holds (nbit c 31) (fp32Mag c) := decF_holds hc
  have h1 := subMag_trunc16_holds h0
  have h2 := subMag_trunc16_holds h1
  have e0 := hasFp32_fp32Mag hc
  obtain ⟨z, hz, hzv, hzu⟩ := (hasFp32_bf16Rest e0).exists_decF (nbit c 31)
  obtain ⟨y, hy, hyv, hyu⟩ := (hasFp32_bf16Rest (hasFp32_bf16Rest e0)).exists_decF (nbit c 31)
  refine ⟨z, y, _, _, _, _, hz, hy, h0.units, (trunc16_holds h0).units, (trunc16_holds h1).units, (trunc16_holds h2).units,
    (decF_upper_holds hc).units, ?second, hzu, ?third, hyu, ?exact⟩
  case second => rw [hzv, signedUnits_sub_bf16Kept]
  case third => rw [hyv, signedUnits_sub_bf16Kept, signedUnits_sub_bf16Kept]
  case exact =>
    intro hexp
    have hlast : signedUnits (nbit c 31) (bf16Rest (bf16Rest (bf16Rest (fp32Mag c)))) = 0 := by
      simp [bf16Rest_thrice_fp32Mag_eq_zero hexp, signedUnits]
    simp only [← signedUnits_sub_bf16Kept] at hlast
    omega

end Sys2Proof.Machine
end

section
/-! The compares and SEL of the vector engine (R206), and O51. -/
namespace Sys2Proof.Machine

/-! ### The order of values -/

theorem signedUnits_eq_ite (neg : Bool) (M : Nat) : signedUnits neg M = if neg then -(M : Int) else M := by
  cases neg <;> simp [signedUnits]

theorem signedUnits_not (neg : Bool) (M : Nat) : signedUnits (!neg) M = -signedUnits neg M := by
  cases neg <;> simp [signedUnits]

theorem signedUnits_mul_two_pow_sub {k i : Nat} (h : k ≤ i) (neg : Bool) (m : Nat) :
    signedUnits neg (m * 2 ^ (i - k)) * 2 ^ k = signedUnits neg (m * 2 ^ i) := by
  rw [← pow_sub_mul_pow 2 h, signedUnits, signedUnits, ← mul_assoc]
  push_cast
  ring

/-- The sum taken by addExact, brought to units of 2^-149. -/
theorem addExact_units (s t : Bool) (m n i j : Nat) :
    (addExact s m ((i : Int) - 149) t n ((j : Int) - 149)).1 * 2 ^ min i j = signedUnits s (m * 2 ^ i) + signedUnits t (n * 2 ^ j) := by
  have hi : ((i : Int) - 149 - min ((i : Int) - 149) ((j : Int) - 149)).toNat = i - min i j := by omega
  have hj : ((j : Int) - 149 - min ((i : Int) - 149) ((j : Int) - 149)).toNat = j - min i j := by omega
  rw [addExact, hi, hj, ← signedUnits_eq_ite, ← signedUnits_eq_ite, add_mul, signedUnits_mul_two_pow_sub (min_le_left i j),
    signedUnits_mul_two_pow_sub (min_le_right i j)]

/-- Finite values compare as their units do; a zero has no sign there. -/
theorem numCmp_of_holds {x y : Num} {s t : Bool} {M N : Nat} (hx : x.Holds s M) (hy : y.Holds t N) :
    numCmp x y = some (compare (signedUnits s M) (signedUnits t N)) := by
  obtain ⟨m, i, rfl, rfl⟩ := hx
  obtain ⟨n, j, rfl, rfl⟩ := hy
  have hpos : (0 : Int) < 2 ^ min i j := by positivity
  have hd := addExact_units s (!t) m n i j
  rw [signedUnits_not, ← sub_eq_add_neg] at hd
  rw [numCmp]
  generalize (addExact s m ((i : Int) - 149) (!t) n ((j : Int) - 149)).1 = d at hd ⊢
  obtain hlt | rfl | hgt := lt_trichotomy d 0
  · have := mul_neg_of_neg_of_pos hlt hpos
    rw [compare_lt_iff_lt.mpr (by omega)]
    simp [hlt, hlt.ne]
  · rw [compare_eq_iff_eq.mpr (by omega)]
    simp
  · have := mul_pos hgt hpos
    rw [compare_gt_iff_gt.mpr (by omega)]
    simp [hgt.ne', hgt.not_gt]

theorem numCmp_eq_none_of_nan {x y : Num} (h : x = .nan ∨ y = .nan) : numCmp x y = none := by
  obtain rfl | rfl := h
  · rfl
  · cases x <;> rfl

theorem numCmp_inf_left (s : Bool) {y : Num} (hy : y ≠ .nan) :
    numCmp (.inf s) y = some (if y = .inf s then .eq else if s then .lt else .gt) := by
  cases y with
  | fin => simp [numCmp]
  | inf t => simp [numCmp, eq_comm]
  | nan => exact absurd rfl hy

theorem numCmp_inf_right (s : Bool) {x : Num} (hx : x ≠ .nan) :
    numCmp x (.inf s) = some (if x = .inf s then .eq else if s then .gt else .lt) := by
  cases x with
  | fin => simp [numCmp]
  | inf t => cases s <;> cases t <;> rfl
  | nan => exact absurd rfl hx

/-! ### The lane of a compare and of SEL -/

@[simp] theorem maskOf_eq_ones (p : Bool) : maskOf p = 0xFFFFFFFF ↔ p = true := by cases p <;> decide

@[simp] theorem maskOf_eq_zero (p : Bool) : maskOf p = 0 ↔ p = false := by cases p <;> decide

theorem maskOf_eq_ones_or_zero (p : Bool) : maskOf p = 0xFFFFFFFF ∨ maskOf p = 0 := by cases p <;> simp

/-- Whether FCMPEQ, FCMPLT or FCMPLE (0x30 to 0x32 of Table 6.6) holds of operands in a given order; NaN operands have none. -/
def floatCompareHolds (op : Nat) : Option Ordering → Bool
  | some .lt => decide (op ≠ 0x30)
  | some .eq => decide (op ≠ 0x31)
  | some .gt => false
  | none => false

theorem floatCompareHolds_iff {op : Nat} {o : Option Ordering} :
    floatCompareHolds op o = true ↔ (op ≠ 0x30 ∧ o = some .lt) ∨ (op ≠ 0x31 ∧ o = some .eq) := by
  obtain _ | _ | _ | _ := o <;> simp [floatCompareHolds]

/-- The operands of a float compare that meets negative infinity on the left, or positive infinity on the right, are equal or less. -/
theorem floatCompareHolds_eq_or_lt {op : Nat} {p : Prop} [Decidable p] (hlo : 0x30 ≤ op) (hhi : op ≤ 0x32) :
    floatCompareHolds op (some (if p then .eq else .lt)) = true ↔ op = 0x32 ∨ (op = 0x31 ∧ ¬p) ∨ (op = 0x30 ∧ p) := by
  by_cases h : p
  · simp only [floatCompareHolds, h, if_true, decide_eq_true_iff, not_true, and_false, and_true, false_or]
    omega
  · simp only [floatCompareHolds, h, if_false, decide_eq_true_iff, not_false_iff, and_false, and_true, or_false]
    omega

section
variable (tz : Bool) {st : Stage} (a b c : Nat)

theorem laneOp_floatCompare (hlo : 0x30 ≤ st.op) (hhi : st.op ≤ 0x32) :
    laneOp tz st a b c = maskOf (floatCompareHolds st.op (numCmp (decF a) (decF b))) := by
  obtain h | h | h : st.op = 0x30 ∨ st.op = 0x31 ∨ st.op = 0x32 := by omega
  all_goals
    simp only [laneOp, h]
    generalize numCmp (decF a) (decF b) = o
    obtain _ | _ | _ | _ := o <;> rfl

theorem laneOp_icmpeq (h : st.op = 0x33) :
    laneOp tz st a b c = maskOf (decide (sext (intWidth st.prec) a = sext (intWidth st.prec) b)) := by simp only [laneOp, h]

theorem laneOp_icmplt (h : st.op = 0x34) :
    laneOp tz st a b c = maskOf (decide (sext (intWidth st.prec) a < sext (intWidth st.prec) b)) := by simp only [laneOp, h]

theorem laneOp_icmple (h : st.op = 0x35) :
    laneOp tz st a b c = maskOf (decide (sext (intWidth st.prec) a ≤ sext (intWidth st.prec) b)) := by simp only [laneOp, h]

theorem laneOp_sel (h : st.op = 0x36) : laneOp tz st a b c = if a ≠ 0 then b else c := by simp only [laneOp, h]

theorem laneOp_compare_eq_mask (hlo : 0x30 ≤ st.op) (hhi : st.op ≤ 0x35) : ∃ p, laneOp tz st a b c = maskOf p := by
  obtain h | h | h | h : st.op ≤ 0x32 ∨ st.op = 0x33 ∨ st.op = 0x34 ∨ st.op = 0x35 := by omega
  · exact ⟨_, laneOp_floatCompare tz a b c hlo h⟩
  · exact ⟨_, laneOp_icmpeq tz a b c h⟩
  · exact ⟨_, laneOp_icmplt tz a b c h⟩
  · exact ⟨_, laneOp_icmple tz a b c h⟩

end

theorem eq_zero_of_testBit_below {a k : Nat} (ha : a < 2 ^ k) (h : ∀ i, i < k → a.testBit i = false) : a = 0 :=
  Nat.zero_of_testBit_eq_false fun i => (Nat.lt_or_ge i k).elim (h i) fun hi =>
    Nat.testBit_lt_two_pow (ha.trans_le (Nat.pow_le_pow_right Nat.two_pos hi))

/-- Settles O51: a float compare answers by the order of its operands, finite ones by their units. -/
theorem comparesAndSelect : Obligations.ComparesAndSelect := by
  unfold Obligations.ComparesAndSelect
  intro tz st a b c ha _
  have hfloat := laneOp_floatCompare (st := st) tz a b c
  refine ⟨?mask, ?nan, ?finite, ?negInfLeft, ?posInfRight, ?posInfLeft, ?negInfRight, ?icmpeq, ?icmplt, ?icmple, ?selB, ?selC⟩
  case mask =>
    intro hlo hhi
    obtain ⟨p, hp⟩ := laneOp_compare_eq_mask tz a b c hlo hhi
    exact hp ▸ maskOf_eq_ones_or_zero p
  case nan =>
    intro hlo hhi hnan
    rw [hfloat hlo hhi, numCmp_eq_none_of_nan hnan]
    rfl
  case finite =>
    intro hfa hfb
    have hx := decF_holds (fp32Exp_ne_of_isFin hfa)
    have hy := decF_holds (fp32Exp_ne_of_isFin hfb)
    rw [numCmp_of_holds hx hy] at hfloat
    refine ⟨_, _, hx.units, hy.units, ?_, ?_, ?_⟩
    all_goals
      intro hop
      rw [hfloat (by omega) (by omega), hop, maskOf_eq_ones, floatCompareHolds_iff]
    · simp
    · simp [compare_lt_iff_lt]
    · simp [compare_lt_iff_lt, le_iff_lt_or_eq]
  case negInfLeft =>
    intro hinf hb hlo hhi
    rw [hfloat hlo hhi, hinf, numCmp_inf_left true hb, maskOf_eq_ones]
    exact floatCompareHolds_eq_or_lt hlo hhi
  case posInfRight =>
    intro hinf ha' hlo hhi
    rw [hfloat hlo hhi, hinf, numCmp_inf_right false ha', maskOf_eq_ones]
    exact floatCompareHolds_eq_or_lt hlo hhi
  case posInfLeft =>
    intro hinf hb hb' hlo hhi
    rw [hfloat hlo hhi, hinf, numCmp_inf_left false hb, if_neg hb']
    rfl
  case negInfRight =>
    intro hinf ha' ha'' hlo hhi
    rw [hfloat hlo hhi, hinf, numCmp_inf_right true ha', if_neg ha'']
    rfl
  case icmpeq => exact fun h => by rw [laneOp_icmpeq tz a b c h, maskOf_eq_ones, decide_eq_true_iff]
  case icmplt => exact fun h => by rw [laneOp_icmplt tz a b c h, maskOf_eq_ones, decide_eq_true_iff]
  case icmple => exact fun h => by rw [laneOp_icmple tz a b c h, maskOf_eq_ones, decide_eq_true_iff]
  case selB =>
    rintro h ⟨i, _, hi⟩
    have ha0 : a ≠ 0 := by
      rintro rfl
      simp at hi
    rw [laneOp_sel tz a b c h, if_pos ha0]
  case selC =>
    intro h hbits
    rw [laneOp_sel tz a b c h, eq_zero_of_testBit_below ha hbits]
    rfl

end Sys2Proof.Machine
end

section
/-! Where a STREAM_LOAD's tile goes (R219, R232): STREAM_DATA_RETURN takes the cluster from the key of the slot, cluster * 64 + slot. The row
does not bound its slot number, so number 64 of a cluster names slot 0 of the next one, whose cluster memory then takes the tile. -/
namespace Sys2Proof.Machine

theorem State.returnErr_clean (s : State) (cl : Nat) (v : Slot) (reads : List (Nat × Nat)) (piece : Nat) :
    s.returnErr cl v reads .clean piece = (s, true) := by
  unfold State.returnErr
  split
  · rfl
  · exact ite_self _

/-- The cluster and the slot number a key stands for name the slot of that key, whatever number it was made of. -/
theorem State.modSlot_key (s : State) (cl k : Nat) (g : Slot → Slot) :
    s.modSlot (keyCluster (cl * 64 + k)) ((cl * 64 + k) % 64) g = s.modSlot cl k g := by
  have hkey : keyCluster (cl * 64 + k) * 64 + (cl * 64 + k) % 64 = cl * 64 + k := by unfold keyCluster; omega
  rw [State.modSlot, hkey, State.modSlot]

/-- A stream that has not ended stays. -/
theorem State.endIfDone_of_ne_ended {s : State} {cl k : Nat} {v : Slot} (hv : s.slotOf cl k = some v) (hs : v.state ≠ .ended) :
    s.endIfDone (cl * 64 + k) = s := by
  rw [State.slotOf] at hv
  simp [State.endIfDone, hv, hs]

/-- The first byte a STREAM_LOAD's next tile takes, in the memory of a cluster (R220, R232). -/
def Layout.loadPlace (l : Layout) (v : Slot) (cl : Nat) (t : Tile) : Nat :=
  cmemBase v.ctx v.layout cl + l.bufBytes (l.imgOf v) cl 1024 + (wnat v.desc 7 + v.delivered * t.bytes)

/-- Within the declaration a tile goes to the memory of its key's cluster, and its stream counts it. -/
theorem State.intoCmem_of_room {s : State} {cl k : Nat} {v : Slot} {t : Tile} {l : Layout} (hv : s.slotOf cl k = some v)
    (hl : s.layoutOf v.ctx v.layout = some l) (hs : v.state ≠ .ended)
    (hroom : wnat v.desc 7 + v.delivered * t.bytes + t.bytes ≤ l.cmemRoom (l.imgOf v) (keyCluster (cl * 64 + k))) :
    s.intoCmem (cl * 64 + k) v t =
      State.modSlot { s with cmem := cellWrite s.cmem (l.loadPlace v (keyCluster (cl * 64 + k)) t) t.flits } cl k Slot.deliver := by
  unfold State.intoCmem
  rw [hl]
  dsimp only
  rw [if_neg (Nat.not_lt.2 hroom), State.modSlot_key]
  refine State.endIfDone_of_ne_ended (v := v.deliver) ?_ hs
  rw [State.slotOf_modSlot_self]
  exact congrArg (Option.map Slot.deliver) hv

/-- STREAM_DATA_RETURN with clean data of a STREAM_LOAD, whatever its slot number: the tile goes to the cluster of the slot's key (R232). -/
theorem streamDataReturn_load {s : State} {cl k : Nat} {v : Slot} {t : Tile} {a : List (Nat × Nat)} {rest : List (Tile × List (Nat × Nat))}
    {l : Layout} (piece : Nat) (hv : s.slotOf cl k = some v) (hfly : v.inflight = (t, a) :: rest)
    (hl : s.layoutOf v.ctx v.layout = some l) (hload : v.toCmem = true) (hs : v.state ≠ .ended)
    (hroom : wnat v.desc 7 + v.delivered * t.bytes + t.bytes ≤ l.cmemRoom (l.imgOf v) (keyCluster (cl * 64 + k))) :
    Answers (.streamDataReturn cl k .clean piece) s [.slots, .cmem] (fun u =>
      u.slotOf cl k = some ({ v with inflight := rest } : Slot).deliver ∧
      u.cmem = cellWrite s.cmem (l.loadPlace v (keyCluster (cl * 64 + k)) t) t.flits) := by
  have hw : (s.modSlot cl k (fun x => { x with inflight := rest })).slotOf cl k = some { v with inflight := rest } := by simp [hv]
  have hinto := State.intoCmem_of_room (t := t) hw hl hs hroom
  have hexec : exec (.streamDataReturn cl k .clean piece) s =
      .next ((s.modSlot cl k (fun x => { x with inflight := rest })).intoCmem (cl * 64 + k) { v with inflight := rest } t) := by
    show execStreamDataReturn cl k .clean piece s = _
    simp only [execStreamDataReturn, hv, hfly, State.returnErr_clean, hw]
    exact congrArg Host.Outcome.next (if_pos hload)
  refine ⟨_, hexec.trans (congrArg _ hinto), ?_, ?_, rfl⟩
  · constructor <;> simp
  · rw [State.slotOf_modSlot_self]
    exact congrArg (Option.map Slot.deliver) hw

/-- A STREAM_LOAD with one tile, whose first byte is 1, on its way. -/
def loadingSlot : Slot := { desc := [0x20], state := .running, marks := [(0, 0, 0)], inflight := [({ data := [1] }, [])] }

/-- A layout over clusters 0 and 1, with 64 KiB of cluster memory declared in each. -/
def twoClusterLayout : Layout := { phase := .loaded, img := { rectW := 2, rectH := 1, decls := [{ cmem64K := 1 }, { cx := 1, cmem64K := 1 }] } }

/-- That stream in slot 0 of cluster 1, the one slot in use. -/
def loadingState : State :=
  { State.reset with
    slots := [(64, some loadingSlot)]
    ctxs := [(0, { live := true, layouts := [(0, some twoClusterLayout)] })] }

/-- Refutes O16: its clause about STREAM_LOADs bounds no slot number, where R219 gives a cluster 64 slots. Slot 0 of cluster 1 answers as
number 64 of cluster 0 as well; its tile goes to the memory of cluster 1, where the clause has it in that of cluster 0. -/
theorem not_streamsMoveTiles : ¬ Obligations.StreamsMoveTiles := by
  unfold Obligations.StreamsMoveTiles
  intro h
  obtain ⟨-, hreturn, -⟩ := h loadingState 0 64 loadingSlot rfl
  obtain ⟨-, hload, -⟩ := hreturn { data := [1] } [] [] twoClusterLayout 0 rfl (by decide) rfl
  obtain ⟨u, hu, -, -, hclaimed⟩ := hload (by decide) (by decide) (by decide)
  obtain ⟨w, hw, -, -, hwritten⟩ := streamDataReturn_load (s := loadingState) (cl := 0) (k := 64) (l := twoClusterLayout) 0
    rfl rfl rfl (by decide) (by decide) (by decide)
  obtain rfl : u = w := Host.Outcome.next.inj (hu.symm.trans hw)
  exact absurd (hclaimed.symm.trans hwritten) (by decide)

end Sys2Proof.Machine
end

section
/-! The KV slots of a context (R310 to R316): how a record is parked, brought back and freed, and the stripes that are erased. -/
namespace Sys2Proof.Machine

/-! ### Records -/

/-- Bytes the device writes at a context address go to the tiers' memory. -/
theorem State.rawPiece_mem (s : State) (ctx blk off : Nat) (bs : List Byte) :
    ∃ mem, s.rawPiece ctx blk off bs = { s with tiers := { s.tiers with mem := mem } } := by
  unfold State.rawPiece
  split
  · split
    · exact ⟨_, rfl⟩
    · exact ⟨s.tiers.mem, rfl⟩
  · exact ⟨s.tiers.mem, rfl⟩

theorem State.rawWrite_mem (s : State) (ctx addr : Nat) (bs : List Byte) :
    ∃ mem, s.rawWrite ctx addr bs = { s with tiers := { s.tiers with mem := mem } } := by
  unfold State.rawWrite
  refine List.foldlRecOn (motive := fun (a : State × List Byte) => ∃ mem, a.1 = { s with tiers := { s.tiers with mem := mem } }) _ _
    ⟨s.tiers.mem, rfl⟩ (fun a h p _ => ?_)
  obtain ⟨mem, hmem⟩ := h
  obtain ⟨mem', hmem'⟩ := a.1.rawPiece_mem ctx p.1 p.2.1 (a.2.take p.2.2)
  exact ⟨mem', hmem'.trans (by rw [hmem])⟩

/-- A record that changes lies in the table of records, and its bytes in the tiers' memory. -/
theorem State.setRec_eq (s : State) (ctx num : Nat) (r : KvRec) : ∃ mem, s.setRec ctx num r =
    { s with kv := { s.kv with recs := tset {} s.kv.recs (recKey ctx num) r }, tiers := { s.tiers with mem := mem } } := by
  unfold State.setRec
  dsimp only
  split
  · exact State.rawWrite_mem ..
  · exact ⟨s.tiers.mem, rfl⟩

theorem State.setRec_recs (s : State) (ctx num : Nat) (r : KvRec) :
    (s.setRec ctx num r).kv.recs = tset {} s.kv.recs (recKey ctx num) r := by
  obtain ⟨mem, h⟩ := s.setRec_eq ctx num r
  rw [h]

@[simp] theorem State.recOf_setRec_self (s : State) (ctx num : Nat) (r : KvRec) : (s.setRec ctx num r).recOf ctx num = r := by
  rw [State.recOf, State.setRec_recs, tget_tset_self]

@[simp] theorem State.recOf_modRec_self (s : State) (ctx num : Nat) (f : KvRec → KvRec) :
    (s.modRec ctx num f).recOf ctx num = f (s.recOf ctx num) := s.recOf_setRec_self ..

theorem State.only_setRec (s : State) (ctx num : Nat) (r : KvRec) : s.Only [.kv, .tiers] (s.setRec ctx num r) := by
  obtain ⟨mem, h⟩ := s.setRec_eq ctx num r
  rw [h]
  constructor <;> simp

theorem State.only_modRec (s : State) (ctx num : Nat) (f : KvRec → KvRec) : s.Only [.kv, .tiers] (s.modRec ctx num f) :=
  s.only_setRec ..

@[simp] theorem State.modRec_bm (s : State) (ctx num : Nat) (f : KvRec → KvRec) : (s.modRec ctx num f).tiers.bm = s.tiers.bm := by
  obtain ⟨mem, h⟩ := s.setRec_eq ctx num (f (s.recOf ctx num))
  rw [State.modRec, h]

@[simp] theorem State.modRec_park (s : State) (ctx num : Nat) (f : KvRec → KvRec) : (s.modRec ctx num f).kv.park = s.kv.park := by
  obtain ⟨mem, h⟩ := s.setRec_eq ctx num (f (s.recOf ctx num))
  rw [State.modRec, h]

@[simp] theorem State.modRec_stripe (s : State) (ctx num : Nat) (f : KvRec → KvRec) :
    (s.modRec ctx num f).kv.stripe = s.kv.stripe := by
  obtain ⟨mem, h⟩ := s.setRec_eq ctx num (f (s.recOf ctx num))
  rw [State.modRec, h]

/-! ### The open park stripe -/

/-- With a place left in the open stripe, nothing has to give way (R314). -/
theorem State.roomPark_open {s : State} {k seq used : Nat} (h : s.kv.stripe = some (k, seq, used)) (hu : used < stripePlaces) :
    s.roomPark = s := by
  simp [State.roomPark, State.openPark, h, hu]

/-- What an entry of the Park Log becomes as it is written at place `used` of stripe k (R366). -/
def ParkEntry.placed (e : ParkEntry) (entry k seq used : Nat) : ParkEntry :=
  { e with entry := entry, stripe := k, chan := (seq + 1 + used / 3) % 16 }

theorem State.putPark_open {s : State} {k seq used : Nat} (h : s.kv.stripe = some (k, seq, used)) (hu : used < stripePlaces)
    (e : ParkEntry) : s.putPark e = { s with kv := { s.kv with
      park := s.kv.park ++ [e.placed s.kv.nextEntry k seq used], nextEntry := (s.kv.nextEntry + 1) % 2 ^ 32,
      stripe := some (k, seq, used + 1) } } := by
  simp [State.putPark, State.roomPark_open h hu, h, ParkEntry.placed]

/-! ### PARK_START -/

/-- A live data entry of a record's park. -/
structure ParkEntry.DataOf (e : ParkEntry) (ctx record : Nat) : Prop where
  ctx     : e.ctx = ctx
  record  : e.record = record
  opening : e.closing = false
  live    : e.dead = false

/-- From s to t, n data entries of a record have gone to the places of the open stripe from `used` on. -/
structure State.Logs (ctx record stripe seq used n : Nat) (s t : State) : Prop where
  only  : s.Only [.kv] t
  recs  : t.kv.recs = s.kv.recs
  place : t.kv.stripe = some (stripe, seq, used + n)
  park  : ∃ es, t.kv.park = s.kv.park ++ es ∧ es.length = n ∧ ∀ e ∈ es, e.DataOf ctx record ∧ e.stripe = stripe

theorem State.Logs.refl {ctx record stripe seq used : Nat} {s : State} (h : s.kv.stripe = some (stripe, seq, used)) :
    State.Logs ctx record stripe seq used 0 s s := ⟨State.Only.refl _ _, rfl, h, [], by simp⟩

/-- One more entry takes the next place. -/
theorem State.Logs.putPark {ctx record stripe seq used n : Nat} {s t : State} {e : ParkEntry}
    (h : State.Logs ctx record stripe seq used n s t) (hroom : used + n < stripePlaces) (he : e.DataOf ctx record) :
    State.Logs ctx record stripe seq used (n + 1) s (t.putPark e) := by
  obtain ⟨es, hpark, hlen, hdata⟩ := h.park
  rw [State.putPark_open h.place hroom]
  refine ⟨h.only.trans (State.only_set_kv ..), h.recs, rfl, es ++ [e.placed t.kv.nextEntry stripe seq (used + n)], ?_, ?_,
    fun x hx => ?_⟩
  · rw [← List.append_assoc, ← hpark]
  · simp [hlen]
  · rcases List.mem_append.1 hx with hx | hx
    · exact hdata x hx
    · rw [List.mem_singleton.1 hx]
      exact ⟨⟨he.ctx, he.record, he.opening, he.live⟩, rfl⟩

/-- A parking record's block is logged. -/
theorem State.Logs.parkOne {ctx record stripe seq used n : Nat} {s t : State} (h : State.Logs ctx record stripe seq used n s t)
    (hroom : used + n < stripePlaces) (hstage : (s.recOf ctx record).stage = 3) (count first i : Nat) :
    State.Logs ctx record stripe seq used (n + 1) s (t.parkOne ctx record count first i) := by
  have hrec : t.recOf ctx record = s.recOf ctx record := by rw [State.recOf, State.recOf, h.recs]
  unfold State.parkOne
  rw [State.roomPark_open h.place hroom]
  extract_lets t' r e idx fid
  rw [if_neg (by simp [r, t', hrec, hstage])]
  exact h.putPark hroom ⟨rfl, rfl, rfl, rfl⟩

theorem State.Logs.foldl {ctx record stripe seq used n : Nat} {s t : State} (h : State.Logs ctx record stripe seq used n s t)
    (hstage : (s.recOf ctx record).stage = 3) (count first : Nat) (l : List Nat) (hroom : used + n + l.length ≤ stripePlaces) :
    State.Logs ctx record stripe seq used (n + l.length) s (l.foldl (fun t i => t.parkOne ctx record count first i) t) := by
  induction l generalizing t n with
  | nil => exact h
  | cons i l ih =>
    rw [List.length_cons] at hroom
    have hnext := ih (h.parkOne (by omega) hstage count first i) (by omega)
    rwa [Nat.add_right_comm n 1] at hnext

/-- The Block Map entries of a record's slot whose blocks are RESIDENT. -/
def State.parkable (s : State) (ctx : Nat) (r : KvRec) : List Nat := (s.slotEntries ctx r).filter (fun i => (s.bmOf i).state = 1)

theorem execParkStart_due {s : State} {ctx record : Nat} (hdue : s.kvDue ctx = some (record, false))
    (hfits : s.parkable ctx (s.recOf ctx record) ≠ [] →
      (s.parkable ctx (s.recOf ctx record)).length < s.store.parkSegments * stripePlaces) :
    execParkStart ctx record s = .next ((s.parkable ctx (s.recOf ctx record)).foldl
      (fun t i => t.parkOne ctx record (s.parkable ctx (s.recOf ctx record)).length s.kv.nextEntry i)
      (s.modRec ctx record (fun x => { x with stage := 3 }))) := by
  have hcond : ¬(s.parkable ctx (s.recOf ctx record) ≠ [] ∧
      s.store.parkSegments * stripePlaces ≤ (s.parkable ctx (s.recOf ctx record)).length) :=
    fun h => absurd (hfits h.1) (Nat.not_lt.2 h.2)
  unfold execParkStart
  rw [onlyIf, if_pos (decide_eq_true hdue)]
  exact congrArg Host.Outcome.next (if_neg hcond)

/-- A due record parks into the open stripe, one data entry for each RESIDENT block of its slot (R311, R312). -/
theorem parkStart_logs {s : State} {ctx record stripe seq room : Nat} {r : KvRec} (hr : s.recOf ctx record = r)
    (hdue : s.kvDue ctx = some (record, false)) (hstripe : s.kv.stripe = some (stripe, seq, room))
    (hfits : s.slotEntries ctx r ≠ [] → (s.slotEntries ctx r).length + 1 ≤ s.store.parkSegments * stripePlaces)
    (hroom : room + (s.slotEntries ctx r).length ≤ stripePlaces) :
    Answers (.parkStart ctx record) s [.kv, .tiers] (fun t => (t.recOf ctx record).stage = 3 ∧ t.tiers.bm = s.tiers.bm ∧
      ∃ es, t.kv.park = s.kv.park ++ es ∧ es.length = ((s.slotEntries ctx r).filter (fun i => (s.bmOf i).state = 1)).length ∧
        ∀ e ∈ es, e.ctx = ctx ∧ e.record = record ∧ e.closing = false ∧ e.dead = false ∧ e.stripe = stripe) := by
  subst hr
  have hle : (s.parkable ctx (s.recOf ctx record)).length ≤ (s.slotEntries ctx (s.recOf ctx record)).length :=
    List.length_filter_le ..
  set s1 := s.modRec ctx record (fun x => { x with stage := 3 }) with hs1
  have hstage : (s1.recOf ctx record).stage = 3 := by simp [hs1]
  have hopen : s1.kv.stripe = some (stripe, seq, room) := by simp [hs1, hstripe]
  have hlogs := (State.Logs.refl (ctx := ctx) (record := record) hopen).foldl hstage
    (s.parkable ctx (s.recOf ctx record)).length s.kv.nextEntry (s.parkable ctx (s.recOf ctx record)) (by omega)
  have htiers := hlogs.only.tiers.resolve_left (by decide)
  obtain ⟨es, hpark, hlen, hdata⟩ := hlogs.park
  refine ⟨_, execParkStart_due hdue (fun hne => ?_), (s.only_modRec ..).trans (hlogs.only.mono _ (by decide)), ?_, ?_, es, ?_, ?_, ?_⟩
  · have := hfits (fun h => hne (by rw [State.parkable, h, List.filter_nil]))
    omega
  · rw [State.recOf, hlogs.recs]; exact hstage
  · rw [htiers]; simp [hs1]
  · rw [hpark]; simp [hs1]
  · rw [hlen, Nat.zero_add]; rfl
  · intro e he
    obtain ⟨d, hplace⟩ := hdata e he
    exact ⟨d.ctx, d.record, d.opening, d.live, hplace⟩

/-! ### Block Map entries that become PARKED -/

@[simp] theorem State.bmOf_bmChange_self (s : State) (i : Nat) (e : BmEntry) (fid : Option Nat) (peer : Option (Nat × Nat)) :
    (s.bmChange i e fid peer).bmOf i = e := tget_tset_self ..

theorem State.bmOf_bmChange_ne (s : State) {i j : Nat} (e : BmEntry) (fid : Option Nat) (peer : Option (Nat × Nat)) (h : j ≠ i) :
    (s.bmChange i e fid peer).bmOf j = s.bmOf j := tget_tset_ne _ _ _ _ _ h

@[simp] theorem State.bmOf_drainFrame (s : State) (fid i : Nat) : (s.drainFrame fid).bmOf i = s.bmOf i := by
  unfold State.drainFrame
  split <;> rfl

@[simp] theorem State.bmOf_dropFrame (s : State) (fid i : Nat) : (s.dropFrame fid).bmOf i = s.bmOf i := by
  unfold State.dropFrame
  split <;> rfl

@[simp] theorem State.bmOf_abandonMig (s : State) (j i : Nat) : (s.abandonMig j).bmOf i = s.bmOf i := by
  unfold State.abandonMig
  split
  · split
    · exact s.bmOf_dropFrame _ i
    · rfl
  · rfl

/-- A RESIDENT block becomes PARKED and names its data entry in place of a frame. -/
def BmEntry.ParksTo (e e' : BmEntry) : Prop := e.state = 1 ∧ ∃ entry, e' = { e with state := 3, tier := 3, loc := entry }

/-- From s to t, in the tiers, blocks have parked, and every other entry of the Block Map is as it was. -/
structure State.Parks (s t : State) : Prop where
  only    : s.Only [.tiers] t
  entries : ∀ i, t.bmOf i = s.bmOf i ∨ (s.bmOf i).ParksTo (t.bmOf i)

theorem State.Parks.refl (s : State) : s.Parks s := ⟨State.Only.refl _ _, fun _ => .inl rfl⟩

theorem State.Parks.trans {s t u : State} (h : s.Parks t) (k : t.Parks u) : s.Parks u := by
  refine ⟨h.only.trans k.only, fun i => ?_⟩
  rcases h.entries i with hi | ⟨hstate, entry, hi⟩
  · rw [← hi]; exact k.entries i
  · rcases k.entries i with ki | ⟨kstate, -⟩
    · exact .inr ⟨hstate, entry, ki.trans hi⟩
    · rw [hi] at kstate; cases kstate

theorem State.bmOf_parkBlock_self (s : State) (i entry : Nat) :
    (s.parkBlock i entry).bmOf i = { s.bmOf i with state := 3, tier := 3, loc := entry } := by
  simp [State.parkBlock]

theorem State.bmOf_parkBlock_ne (s : State) {i j : Nat} (entry : Nat) (h : j ≠ i) : (s.parkBlock i entry).bmOf j = s.bmOf j := by
  simp [State.parkBlock, State.bmOf_bmChange_ne, h]

theorem State.parks_parkBlock {s : State} {i : Nat} (h : (s.bmOf i).state = 1) (entry : Nat) : s.Parks (s.parkBlock i entry) := by
  refine ⟨((s.only_abandonMig i).trans (State.only_bmChange ..)).trans (State.only_drainFrame ..), fun j => ?_⟩
  by_cases hj : j = i
  · subst hj
    exact .inr ⟨h, entry, s.bmOf_parkBlock_self j entry⟩
  · exact .inl (s.bmOf_parkBlock_ne entry hj)

theorem State.bmCands_congr {s t : State} (hparts : t.parts = s.parts) (p ctx blk : Nat) :
    t.bmCands p ctx blk = s.bmCands p ctx blk := by
  simp only [State.bmCands, State.bmBase, State.bmLog2, State.pfld, State.partOf, hparts]

theorem State.bmFind_congr {s t : State} (hparts : t.parts = s.parts) (hbm : t.tiers.bm = s.tiers.bm) (p ctx blk : Nat) :
    t.bmFind p ctx blk = s.bmFind p ctx blk := by
  have hof : t.bmOf = s.bmOf := by funext i; rw [State.bmOf, State.bmOf, hbm]
  rw [State.bmFind, State.bmFind, State.bmCands_congr hparts, hof]

/-- Parking moves no entry: a block is found where it was. -/
theorem State.Parks.bmFind {s t : State} (h : s.Parks t) (p ctx blk : Nat) :
    t.bmFind p ctx blk = (s.bmFind p ctx blk).map (fun x => (x.1, t.bmOf x.1)) := by
  have hparts : t.parts = s.parts := by simpa using h.only.parts
  have hmatch : (fun i => (t.bmOf i).state ≠ 0 && (t.bmOf i).ctx = ctx && (t.bmOf i).block = blk) =
      (fun i => (s.bmOf i).state ≠ 0 && (s.bmOf i).ctx = ctx && (s.bmOf i).block = blk) := by
    funext i
    rcases h.entries i with hi | ⟨hstate, entry, hi⟩
    · rw [hi]
    · rw [hi]; simp [hstate]
  unfold State.bmFind
  rw [State.bmCands_congr hparts, hmatch, Option.map_map]
  rfl

/-- What an entry of a closing park does: its block, where it is still RESIDENT, becomes PARKED. -/
def State.parkNamed (ctx slot : Nat) (t : State) (e : ParkEntry) : State :=
  match (t.ctxOf ctx).geom with
  | some g =>
    (match t.bmFind (t.ctxOf ctx).part ctx (g.slotBlock slot + e.index) with
    | some (i, b) => if b.state = 1 then t.parkBlock i e.entry else t
    | none => t)
  | none => t

theorem State.bmFind_bmOf {s : State} {p ctx blk i : Nat} {b : BmEntry} (h : s.bmFind p ctx blk = some (i, b)) : b = s.bmOf i := by
  obtain ⟨j, -, hj⟩ := Option.map_eq_some_iff.1 h
  cases hj
  rfl

theorem State.parks_parkNamed (ctx slot : Nat) (t : State) (e : ParkEntry) : t.Parks (t.parkNamed ctx slot e) := by
  unfold State.parkNamed
  split
  · split
    · next i b hfind =>
      split
      · next hb => exact State.parks_parkBlock (State.bmFind_bmOf hfind ▸ hb) _
      · exact State.Parks.refl t
    · exact State.Parks.refl t
  · exact State.Parks.refl t

theorem State.parks_foldl (ctx slot : Nat) (l : List ParkEntry) (t : State) : t.Parks (l.foldl (State.parkNamed ctx slot) t) := by
  induction l generalizing t with
  | nil => exact State.Parks.refl t
  | cons e l ih => exact (t.parks_parkNamed ctx slot e).trans (ih _)

/-- An entry of the Block Map whose block is in the Park Log. -/
def BmEntry.Parked (e : BmEntry) : Prop := e.state = 3 ∧ e.tier = 3

theorem State.Parks.parked {s t : State} {i : Nat} (h : s.Parks t) (hp : (s.bmOf i).Parked) : (t.bmOf i).Parked := by
  rcases h.entries i with hi | ⟨hstate, -⟩
  · rw [hi]; exact hp
  · rw [hp.1] at hstate; cases hstate

/-- The block an entry names is PARKED once the entry has been served, whatever has parked before. -/
theorem State.Parks.parkNamed_parked {s t : State} {ctx slot i : Nat} {g : KvGeom} {b : BmEntry} {e : ParkEntry} (h : s.Parks t)
    (hg : (s.ctxOf ctx).geom = some g) (hfind : s.bmFind (s.ctxOf ctx).part ctx (g.slotBlock slot + e.index) = some (i, b))
    (hb : b.state = 1) : ((t.parkNamed ctx slot e).bmOf i).Parked := by
  have hctx : t.ctxOf ctx = s.ctxOf ctx := by
    have hctxs : t.ctxs = s.ctxs := by simpa using h.only.ctxs
    rw [State.ctxOf, State.ctxOf, hctxs]
  have hthere : t.bmFind (t.ctxOf ctx).part ctx (g.slotBlock slot + e.index) = some (i, t.bmOf i) := by
    rw [hctx, h.bmFind, hfind, Option.map_some]
  have hserved : t.parkNamed ctx slot e = if (t.bmOf i).state = 1 then t.parkBlock i e.entry else t := by
    simp only [State.parkNamed, hctx ▸ hg, hthere]
  rw [hserved]
  rcases h.entries i with hi | ⟨-, entry, hi⟩
  · rw [if_pos (by rw [hi, ← State.bmFind_bmOf hfind, hb]), State.bmOf_parkBlock_self]
    exact ⟨rfl, rfl⟩
  · rw [if_neg (by simp [hi]), hi]
    exact ⟨rfl, rfl⟩

/-- Each RESIDENT block that one of the entries names is PARKED in the end. -/
theorem State.parkNamed_foldl_parked {s : State} {ctx slot i : Nat} {g : KvGeom} {b : BmEntry} {e : ParkEntry}
    (hg : (s.ctxOf ctx).geom = some g) (hfind : s.bmFind (s.ctxOf ctx).part ctx (g.slotBlock slot + e.index) = some (i, b))
    (hb : b.state = 1) {l : List ParkEntry} (he : e ∈ l) : ((l.foldl (State.parkNamed ctx slot) s).bmOf i).Parked := by
  obtain ⟨l1, l2, rfl⟩ := List.append_of_mem he
  rw [List.foldl_append, List.foldl_cons]
  exact (State.parks_foldl ctx slot l2 _).parked ((State.parks_foldl ctx slot l1 s).parkNamed_parked hg hfind hb)

/-! ### PARK_COMPLETE -/

/-- The live data entries of a record's park. -/
def State.parkOf (s : State) (ctx record : Nat) : List ParkEntry :=
  s.kv.park.filter (fun e => e.ctx = ctx && e.record = record && !e.dead && !e.closing)

theorem State.parkOf_data {s : State} {ctx record : Nat} {e : ParkEntry} (h : e ∈ s.parkOf ctx record) : e.DataOf ctx record := by
  have hp := (List.mem_filter.1 h).2
  simp only [Bool.and_eq_true, decide_eq_true_eq, Bool.not_eq_true'] at hp
  obtain ⟨⟨⟨hctx, hrecord⟩, hdead⟩, hclosing⟩ := hp
  exact ⟨hctx, hrecord, hclosing, hdead⟩

/-- The closing entry of a record's run of entries is written; there is none without entries to close (R312). -/
def State.closeRun (s : State) (mine : List ParkEntry) : State :=
  match mine with
  | e :: _ => s.putPark { e with closing := true, index := 0, data := [] }
  | [] => s

theorem State.only_closeRun {s : State} {k seq used : Nat} (h : s.kv.stripe = some (k, seq, used)) (hu : used < stripePlaces)
    (mine : List ParkEntry) : s.Only [.kv] (s.closeRun mine) := by
  unfold State.closeRun
  split
  · rw [State.putPark_open h hu]; exact s.only_set_kv _
  · exact State.Only.refl _ _

theorem State.closeRun_park {s : State} {k seq used : Nat} (h : s.kv.stripe = some (k, seq, used)) (hu : used < stripePlaces)
    {ctx record : Nat} {mine : List ParkEntry} (hne : mine ≠ []) (hmine : ∀ e ∈ mine, e.DataOf ctx record) :
    ∃ e, (s.closeRun mine).kv.park = s.kv.park ++ [e] ∧ e.closing = true ∧ e.ctx = ctx ∧ e.record = record := by
  cases mine with
  | nil => exact absurd rfl hne
  | cons e rest =>
    have he := hmine e (List.mem_cons_self ..)
    rw [State.closeRun, State.putPark_open h hu]
    exact ⟨_, rfl, rfl, he.ctx, he.record⟩

theorem State.sealPark_eq (s : State) : ∃ o, s.sealPark = { s with kv := { s.kv with stripe := o } } := by
  unfold State.sealPark
  split
  · exact ⟨s.kv.stripe, rfl⟩
  · exact ⟨_, rfl⟩

theorem execParkComplete_closes {s : State} {ctx record stripe seq room : Nat} (hstate : (s.recOf ctx record).state ≠ 0)
    (hstage : (s.recOf ctx record).stage = 3) (hstripe : s.kv.stripe = some (stripe, seq, room)) (hroom : room < stripePlaces)
    (hfree : ∀ i ∈ s.slotEntries ctx (s.recOf ctx record), s.preparing i = false) :
    execParkComplete ctx record s = .next ((((s.parkOf ctx record).foldl (State.parkNamed ctx (s.recOf ctx record).slot)
      (s.closeRun (s.parkOf ctx record))).modRec ctx record (fun x => { x with stage := 2 })).sealPark) := by
  have hcond : (decide ((s.recOf ctx record).state ≠ 0) && decide ((s.recOf ctx record).stage = 3) &&
      (s.slotEntries ctx (s.recOf ctx record)).all (fun i => !s.preparing i)) = true := by
    simp only [Bool.and_eq_true, decide_eq_true_eq, List.all_eq_true, Bool.not_eq_true']
    exact ⟨⟨hstate, hstage⟩, hfree⟩
  unfold execParkComplete
  extract_lets r mine s0
  have hs0 : s0 = s := by simp only [s0, State.roomPark_open hstripe hroom, ite_self]
  clear_value s0
  subst hs0
  rw [onlyIf, if_pos hcond, if_neg (not_not.2 hstage)]
  rfl

/-- The closing of a park: the RESIDENT blocks its entries name become PARKED, and the run of entries is closed (R312). -/
theorem parkComplete_parks {s : State} {ctx record stripe seq room : Nat} {r : KvRec} {mine : List ParkEntry} {g : KvGeom}
    (hr : s.recOf ctx record = r) (hstate : r.state ≠ 0) (hstage : r.stage = 3) (hstripe : s.kv.stripe = some (stripe, seq, room))
    (hroom : room < stripePlaces) (hg : (s.ctxOf ctx).geom = some g)
    (hmine : mine = s.kv.park.filter (fun e => e.ctx = ctx && e.record = record && !e.dead && !e.closing))
    (hfree : ∀ i ∈ s.slotEntries ctx r, s.preparing i = false) :
    Answers (.parkComplete ctx record) s [.kv, .tiers] (fun t => (t.recOf ctx record).stage = 2 ∧
      (∀ e ∈ mine, ∀ i b, s.bmFind (s.ctxOf ctx).part ctx (g.slotBlock r.slot + e.index) = some (i, b) → b.state = 1 →
        (t.bmOf i).state = 3 ∧ (t.bmOf i).tier = 3) ∧
      (mine ≠ [] → ∃ e, t.kv.park = s.kv.park ++ [e] ∧ e.closing = true ∧ e.ctx = ctx ∧ e.record = record)) := by
  subst hr
  obtain rfl : mine = s.parkOf ctx record := hmine
  set s1 := s.closeRun (s.parkOf ctx record) with hs1
  set s2 := (s.parkOf ctx record).foldl (State.parkNamed ctx (s.recOf ctx record).slot) s1 with hs2
  have hclose : s.Only [.kv] s1 := State.only_closeRun hstripe hroom _
  have hparks : s1.Parks s2 := State.parks_foldl ..
  have hctxs : s1.ctxs = s.ctxs := by simpa using hclose.ctxs
  have hparts : s1.parts = s.parts := by simpa using hclose.parts
  have htiers : s1.tiers = s.tiers := by simpa using hclose.tiers
  have hkv : s2.kv = s1.kv := by simpa using hparks.only.kv
  have hctx : s1.ctxOf ctx = s.ctxOf ctx := by rw [State.ctxOf, State.ctxOf, hctxs]
  obtain ⟨o, ho⟩ := (s2.modRec ctx record (fun x => { x with stage := 2 })).sealPark_eq
  refine ⟨_, execParkComplete_closes hstate hstage hstripe hroom hfree, ?_, ?_, fun e he i b hfind hb => ?_, fun hne => ?_⟩
  · rw [ho]
    exact (((hclose.mono _ (by decide)).trans (hparks.only.mono _ (by decide))).trans (s2.only_modRec ..)).trans
      ((State.only_set_kv _ _).mono _ (by decide))
  · rw [ho]
    exact congrArg KvRec.stage (s2.recOf_modRec_self ctx record (fun x => { x with stage := 2 }))
  · have hparked := State.parkNamed_foldl_parked (s := s1) (hctx ▸ hg)
      ((State.bmFind_congr hparts (by rw [htiers]) _ _ _).trans (hctx ▸ hfind)) hb he
    rw [ho]
    simpa [State.bmOf, BmEntry.Parked] using hparked
  · rw [ho]
    obtain ⟨e, hpark, hlog⟩ := State.closeRun_park hstripe hroom hne (fun _ => State.parkOf_data)
    exact ⟨e, by simp [hkv, hs1, hpark], hlog⟩

/-! ### KV_RECORD_EXPIRE -/

/-- From s to t no free record comes into use. -/
structure State.KeepsFree (s t : State) : Prop where
  free : ∀ key, (tget {} s.kv.recs key).state = 0 → (tget {} t.kv.recs key).state = 0

theorem State.KeepsFree.refl (s : State) : s.KeepsFree s := ⟨fun _ h => h⟩

theorem State.KeepsFree.trans {s t u : State} (h : s.KeepsFree t) (k : t.KeepsFree u) : s.KeepsFree u :=
  ⟨fun key hs => k.free key (h.free key hs)⟩

theorem State.KeepsFree.of_recs {s t : State} (h : t.kv.recs = s.kv.recs) : s.KeepsFree t := ⟨fun _ hs => h ▸ hs⟩

theorem State.KeepsFree.of_only {gs : List Group} {s t : State} (h : s.Only gs t) (hgs : Group.kv ∉ gs) : s.KeepsFree t :=
  State.KeepsFree.of_recs (congrArg Kv.recs (h.kv.resolve_left hgs))

theorem State.KeepsFree.foldl {α : Type} (l : List α) (g : State → α → State) (hg : ∀ (u : State) x, u.KeepsFree (g u x)) (s : State) :
    s.KeepsFree (l.foldl g s) := by
  induction l generalizing s with
  | nil => exact State.KeepsFree.refl s
  | cons x l ih => exact (hg s x).trans (ih _)

theorem State.keepsFree_setRec (s : State) (ctx num : Nat) (r : KvRec) (h : (s.recOf ctx num).state = 0 → r.state = 0) :
    s.KeepsFree (s.setRec ctx num r) := by
  refine ⟨fun key hkey => ?_⟩
  rw [State.setRec_recs, tget_tset]
  split
  · next heq => subst heq; exact h hkey
  · exact hkey

theorem State.keepsFree_modRec (s : State) (ctx num : Nat) (f : KvRec → KvRec) (h : ∀ x, (f x).state = x.state) :
    s.KeepsFree (s.modRec ctx num f) := s.keepsFree_setRec ctx num _ (fun h0 => (h _).trans h0)

theorem State.keepsFree_killPark (s : State) (p : ParkEntry → Bool) : s.KeepsFree (s.killPark p) := State.KeepsFree.of_recs rfl

theorem State.only_hintSlot (s : State) (ctx : Nat) (r : KvRec) (hint : Nat) : s.Only [.tiers] (s.hintSlot ctx r hint) := by
  refine State.Only.foldl _ _ (State.Only.refl _ _) (fun u i => ?_)
  extract_lets u1 u2 e
  have h1 : u.Only [.tiers] u1 := u.only_bmMod i _
  have h2 : u1.Only [.tiers] u2 := by
    simp only [u2]
    split
    · split
      · exact u1.only_abandonMig i
      · exact State.Only.refl _ _
    · exact State.Only.refl _ _
  split
  · exact (h1.trans h2).trans (State.only_set_tiers ..)
  · exact h1.trans h2

theorem State.keepsFree_setDeadlines (s : State) (ctx num : Nat) (pair : Nat × Nat) : s.KeepsFree (s.setDeadlines ctx num pair) := by
  unfold State.setDeadlines
  exact s.keepsFree_modRec _ _ _ (fun _ => rfl)

theorem State.keepsFree_toIdle (s : State) (ctx num : Nat) (pair : Nat × Nat) : s.KeepsFree (s.toIdle ctx num pair) := by
  unfold State.toIdle
  have hhint : s.KeepsFree (s.hintSlot ctx (s.recOf ctx num) 2) := State.KeepsFree.of_only (State.only_hintSlot ..) (by decide)
  refine (hhint.trans (State.keepsFree_modRec _ _ _ _ ?_)).trans (State.keepsFree_setDeadlines ..)
  exact fun _ => rfl

theorem State.keepsFree_actDown (ctx : Nat) (pair : Nat × Nat) (n : Nat) (s : State) (k : Nat) :
    s.KeepsFree (State.actDown ctx pair n s k) := by
  induction n generalizing s k with
  | zero => exact State.KeepsFree.refl s
  | succ n ih =>
    unfold State.actDown
    split
    · exact State.KeepsFree.refl s
    · extract_lets r s1
      have h1 : s.KeepsFree s1 := s.keepsFree_modRec _ _ _ (fun _ => rfl)
      split
      · exact (h1.trans (s1.keepsFree_toIdle ctx k pair)).trans (ih _ _)
      · exact h1

theorem State.keepsFree_unpublish (s : State) (ctx num : Nat) : s.KeepsFree (s.unpublish ctx num) := by
  unfold State.unpublish
  extract_lets r
  split
  · exact (State.KeepsFree.of_recs rfl : s.KeepsFree (s.pdClear _)).trans (State.keepsFree_modRec _ _ _ _ (fun _ => rfl))
  · exact State.KeepsFree.refl s

theorem State.keepsFree_freeOne (s : State) (ctx num : Nat) : s.KeepsFree (s.freeOne ctx num) :=
  (((s.keepsFree_unpublish ctx num).trans (State.keepsFree_killPark _ _)).trans
    (State.KeepsFree.foldl _ _ (fun u i => State.KeepsFree.of_only (u.only_unmapEntry i) (by decide)) _)).trans
    (State.keepsFree_setRec _ _ _ _ (fun _ => rfl))

theorem State.freeOne_frees (s : State) (ctx num : Nat) : ((s.freeOne ctx num).recOf ctx num).state = 0 :=
  congrArg KvRec.state (State.recOf_setRec_self _ ctx num {})

theorem State.keepsFree_refDownAux (ctx n : Nat) (s : State) (k : Nat) : s.KeepsFree (State.refDownAux ctx n s k) := by
  induction n generalizing s k with
  | zero => exact State.KeepsFree.refl s
  | succ n ih =>
    unfold State.refDownAux
    split
    · exact State.KeepsFree.refl s
    · extract_lets r s1
      have h1 : s.KeepsFree s1 := s.keepsFree_modRec _ _ _ (fun _ => rfl)
      split
      · exact (h1.trans (s1.keepsFree_freeOne ctx k)).trans (ih _ _)
      · exact h1

theorem State.keepsFree_refUp (s : State) (ctx k : Nat) : s.KeepsFree (s.refUp ctx k) := by
  unfold State.refUp
  split
  · exact State.KeepsFree.refl s
  · exact s.keepsFree_modRec _ _ _ (fun _ => rfl)

theorem State.foldl_freeOne_frees {ctx num : Nat} {l : List Nat} (h : num ∈ l) (s : State) :
    ((l.foldl (fun t k => t.freeOne ctx k) s).recOf ctx num).state = 0 := by
  obtain ⟨l1, l2, rfl⟩ := List.append_of_mem h
  rw [List.foldl_append, List.foldl_cons]
  exact (State.KeepsFree.foldl l2 _ (fun u k => u.keepsFree_freeOne ctx k) _).free _ (State.freeOne_frees _ ctx num)

/-- The records that go with a record, the deepest first: those whose chain includes it (R314). -/
def State.doomed (s : State) (ctx num : Nat) : List Nat :=
  (((s.ctxRecs ctx).filter (fun p => (s.chain ctx p.1).contains num)).mergeSort (fun a b => b.2.depth ≤ a.2.depth)).map (fun p => p.1)

theorem State.mem_doomed {s : State} {ctx num : Nat} {r : KvRec} (h : (num, r) ∈ s.ctxRecs ctx) (hnum : num ≠ noRec)
    (hstate : (s.recOf ctx num).state ≠ 0) : num ∈ s.doomed ctx num := by
  have hchain : num ∈ s.chain ctx num := by
    rw [State.chain, State.chainAux, if_neg (by simp [hnum, hstate])]
    exact List.mem_cons_self ..
  refine List.mem_map.2 ⟨(num, r), ?_, rfl⟩
  rw [List.mem_mergeSort, List.mem_filter]
  exact ⟨h, List.contains_iff_mem.2 hchain⟩

/-- Freeing a tree takes its records one by one, and brings none back. -/
theorem State.freeTree_frees {s : State} {ctx num : Nat} {r : KvRec} (h : (num, r) ∈ s.ctxRecs ctx) (hnum : num ≠ noRec) :
    ((s.freeTree ctx num).recOf ctx num).state = 0 := by
  unfold State.freeTree
  extract_lets top doomed nums hit s1 s2 s3
  have h1 : s.KeepsFree s1 := State.KeepsFree.foldl _ _ (fun u p => by
    split
    · exact State.keepsFree_actDown ..
    · exact State.KeepsFree.refl u) s
  have h2 : (s2.recOf ctx num).state = 0 := by
    by_cases hstate : (s.recOf ctx num).state = 0
    · exact (State.KeepsFree.foldl nums _ (fun u k => u.keepsFree_freeOne ctx k) s1).free _ (h1.free _ hstate)
    · exact State.foldl_freeOne_frees (State.mem_doomed h hnum hstate) s1
  have h3 : s2.KeepsFree s3 := State.KeepsFree.foldl _ _ (fun u p =>
    State.KeepsFree.trans (State.KeepsFree.of_recs (congrArg Kv.recs (State.modSess_kv ..))) (State.keepsFree_refUp ..)) s2
  exact (State.keepsFree_refDownAux ..).free _ (h3.free _ h2)

theorem foldl_pick_mem {α : Type} (p : α → α → Prop) [∀ a b, Decidable (p a b)] (h : α) (l : List α) :
    l.foldl (fun a b => if p a b then b else a) h ∈ h :: l := by
  refine List.foldlRecOn (motive := fun x => x ∈ h :: l) l _ (List.mem_cons_self ..) (fun a ha b hb => ?_)
  split
  · exact List.mem_cons_of_mem _ hb
  · exact ha

/-- What is due is a record of the context. -/
theorem State.kvDue_mem {s : State} {ctx record : Nat} {frees : Bool} (h : s.kvDue ctx = some (record, frees)) :
    ∃ r, (record, r) ∈ s.ctxRecs ctx := by
  unfold State.kvDue at h
  dsimp only at h
  split at h
  · cases h
  · next x rest hl =>
    have hall : ∀ w ∈ x :: rest, ∃ r, (w.2.2.1, r) ∈ s.ctxRecs ctx := by
      intro w hw
      rw [← hl] at hw
      obtain ⟨p, hp, hw⟩ := List.mem_flatMap.1 hw
      rcases List.mem_append.1 hw with hw | hw <;> split at hw
      · rw [List.mem_singleton.1 hw]; exact ⟨p.2, hp⟩
      · cases hw
      · rw [List.mem_singleton.1 hw]; exact ⟨p.2, hp⟩
      · cases hw
    rw [Option.some.injEq, Prod.mk.injEq] at h
    obtain ⟨hrecord, -⟩ := h
    rw [← hrecord]
    exact hall _ (foldl_pick_mem _ x rest)

/-- The due record is freed with everything under it (R314). -/
theorem kvRecordExpire_frees {s : State} {ctx record : Nat} (hdue : s.kvDue ctx = some (record, true)) (hnum : record ≠ noRec) :
    ∃ t, exec (.kvRecordExpire ctx record) s = .next t ∧ t = s.freeTree ctx record ∧ (t.recOf ctx record).state = 0 := by
  obtain ⟨r, hr⟩ := State.kvDue_mem hdue
  exact ⟨s.freeTree ctx record, congrArg Host.Outcome.next (if_pos (decide_eq_true hdue)), rfl, State.freeTree_frees hr hnum⟩

/-! ### PARK_BRING_IN -/

/-- The copy of a parked block ends in a frame: its bytes lie there, and its entry is RESIDENT and names the frame. -/
def State.bringHome (u : State) (i fid : Nat) (data : List Host.Cell) : State :=
  let t := { u with tiers := { u.tiers with mem := cellWrite u.tiers.mem (fid * blockBytes) (cellRead data 0 blockBytes) } }
  (t.bmChange i { t.bmOf i with state := 1, tier := tierOfFid fid, loc := locOf fid } none none).setMig i none

theorem State.only_bringHome (u : State) (i fid : Nat) (data : List Host.Cell) : u.Only [.tiers] (u.bringHome i fid data) :=
  ((u.only_set_tiers _).trans (State.only_bmChange ..)).trans (State.only_set_tiers ..)

theorem State.bmOf_bringHome (u : State) (i fid : Nat) (data : List Host.Cell) :
    (u.bringHome i fid data).bmOf i = { u.bmOf i with state := 1, tier := tierOfFid fid, loc := locOf fid } := tget_tset_self ..

theorem State.migOf_bringHome (u : State) (i fid : Nat) (data : List Host.Cell) : (u.bringHome i fid data).migOf i = none :=
  tget_tset_self ..

theorem State.cellGet_bringHome (u : State) (i fid : Nat) (data : List Host.Cell) {a : Nat} (ha : a < blockBytes) :
    cellGet (u.bringHome i fid data).tiers.mem (fid * blockBytes + a) = cellGet data a := by
  have hlen : (cellRead data 0 blockBytes).length = blockBytes := by rw [cellRead, List.length_map, List.length_range]
  change cellGet (cellWrite u.tiers.mem (fid * blockBytes) (cellRead data 0 blockBytes)) _ = _
  rw [cellGet_cellWrite, hlen, if_pos (by omega), Nat.add_sub_cancel_left, cellRead]
  simp [ha]

theorem State.only_killPark (s : State) (p : ParkEntry → Bool) : s.Only [.kv, .store] (s.killPark p) := by
  constructor <;> simp [State.killPark, State.reapPark]

theorem State.only_resumeSlot (s : State) (key : Nat) : s.Only [.slots, .ctxs] (s.resumeSlot key) :=
  ((s.only_set_slots _).mono _ (by decide)).trans (State.only_remark ..)

/-- Streams that were halted on a block resume, and nothing beside the streams and their contexts differs (R273). -/
theorem State.only_resumeBlock (s : State) (ctx blk : Nat) : s.Only [.slots, .ctxs] (s.resumeBlock ctx blk) :=
  State.Only.foldl _ _ (State.Only.refl _ _) (fun u p => u.only_resumeSlot p.1)

section
variable {s : State} {ctx record index i : Nat} {g : KvGeom} {e : BmEntry} {m : Migration} {pe : ParkEntry}

/-- The copy of a parked block of a held slot is due, and its data entry is live in the Park Log. -/
structure State.ComesIn (s : State) (ctx record index i : Nat) (g : KvGeom) (e : BmEntry) (m : Migration) (pe : ParkEntry) : Prop where
  geom   : (s.ctxOf ctx).geom = some g
  held   : (s.recOf ctx record).held = true
  inside : index < g.slotBlocks
  found  : s.bmFind (s.ctxOf ctx).part ctx (g.slotBlock (s.recOf ctx record).slot + index) = some (i, e)
  due    : s.migOf i = some m
  kind   : m.kind = 2
  logged : s.kv.park.find? (fun e => e.ctx = ctx && e.record = record && e.index = index && !e.closing && !e.dead && e.entry = m.src) =
    some pe

/-- No reason is left to pass the row over. -/
theorem State.ComesIn.taken (h : s.ComesIn ctx record index i g e m pe) :
    ¬(m.kind ≠ 2 ∨ (!(s.recOf ctx record).held) = true ∨ g.slotBlocks ≤ index) := by
  simp [h.kind, h.held, h.inside]

theorem State.ComesIn.exec_clean {fid : Nat} {u : State} (h : s.ComesIn ctx record index i g e m pe) (hbulk : m.tier ≠ 0)
    (hroom : s.quotaRoom ctx 1 1 = true) (halloc : s.allocFrame 1 = some (fid, u)) :
    execParkBringIn ctx record index .clean s = .next (((u.bringHome i fid pe.data).killPark
      (fun x => x.entry = pe.entry && x.ctx = ctx && x.record = record)).resumeBlock ctx
        (g.slotBlock (s.recOf ctx record).slot + index)) := by
  have hnear : ¬((decide (m.tier = 0) && s.quotaRoom ctx 0 1) = true) := by simp [hbulk]
  unfold execParkBringIn
  simp only [h.geom, h.found, h.due, h.logged, if_neg h.taken]
  rw [if_neg (by simp)]
  simp only [reduceCtorEq, if_false, if_neg hnear, if_pos hroom, halloc]
  rfl

theorem State.ComesIn.exec_lost (h : s.ComesIn ctx record index i g e m pe) (hwaits : s.waitsOn ctx (s.treeBlocks ctx record) = true) :
    ∃ v, execParkBringIn ctx record index .uncorrectable s = .next ((s.flashLost pe.chan).teardown ctx v hitRunning) := by
  unfold execParkBringIn
  simp only [h.geom, h.found, h.due, h.logged, if_neg h.taken]
  rw [if_pos (by simp), if_pos hwaits]
  exact ⟨_, rfl⟩

/-- A clean read brings the parked bytes into the frame the allocation gives and makes the block RESIDENT there (R273, R313). -/
theorem State.ComesIn.parkBringIn_clean {fid : Nat} {u : State} (h : s.ComesIn ctx record index i g e m pe) (hbulk : m.tier ≠ 0)
    (hroom : s.quotaRoom ctx 1 1 = true) (halloc : s.allocFrame 1 = some (fid, u)) :
    Answers (.parkBringIn ctx record index .clean) s [.kv, .tiers, .store, .slots, .ctxs, .free] (fun t =>
      (t.bmOf i).state = 1 ∧ (t.bmOf i).tier = tierOfFid fid ∧ (t.bmOf i).loc = locOf fid ∧ t.migOf i = none ∧
      (∀ a, a < blockBytes → cellGet t.tiers.mem (fid * blockBytes + a) = cellGet pe.data a)) := by
  set v := u.bringHome i fid pe.data with hv
  have hkill := v.only_killPark (fun x => x.entry = pe.entry && x.ctx = ctx && x.record = record)
  have hresume := State.only_resumeBlock (v.killPark (fun x => x.entry = pe.entry && x.ctx = ctx && x.record = record)) ctx
    (g.slotBlock (s.recOf ctx record).slot + index)
  have hexec := h.exec_clean hbulk hroom halloc
  generalize (v.killPark (fun x => x.entry = pe.entry && x.ctx = ctx && x.record = record)).resumeBlock ctx
    (g.slotBlock (s.recOf ctx record).slot + index) = t at hresume hexec
  have htiers : t.tiers = v.tiers := (hresume.tiers.resolve_left (by decide)).trans (hkill.tiers.resolve_left (by decide))
  have hbm : t.bmOf i = { u.bmOf i with state := 1, tier := tierOfFid fid, loc := locOf fid } := by
    rw [State.bmOf, htiers]; exact u.bmOf_bringHome i fid pe.data
  refine ⟨t, hexec, ?_, ?_, ?_, ?_, ?_, fun a ha => ?_⟩
  · exact ((((s.only_allocFrame u 1 fid halloc).mono _ (by decide)).trans ((u.only_bringHome i fid pe.data).mono _ (by decide))).trans
      (hkill.mono _ (by decide))).trans (hresume.mono _ (by decide))
  · rw [hbm]
  · rw [hbm]
  · rw [hbm]
  · rw [State.migOf, htiers]; exact u.migOf_bringHome i fid pe.data
  · rw [htiers]; exact u.cellGet_bringHome i fid pe.data ha

end

/-! ### Lost data -/

/-- The same contexts are live in s and in t. -/
structure State.SameLive (s t : State) : Prop where
  live : ∀ ctx, t.ctxLive ctx = s.ctxLive ctx

theorem State.SameLive.refl (s : State) : s.SameLive s := ⟨fun _ => rfl⟩

theorem State.SameLive.trans {s t u : State} (h : s.SameLive t) (k : t.SameLive u) : s.SameLive u :=
  ⟨fun ctx => (k.live ctx).trans (h.live ctx)⟩

theorem State.SameLive.of_ctxs {s t : State} (h : t.ctxs = s.ctxs) : s.SameLive t :=
  ⟨fun ctx => by rw [State.ctxLive, State.ctxLive, State.ctxOf, State.ctxOf, h]⟩

theorem State.sameLive_modLayout (s : State) (c l : Nat) (f : Layout → Layout) : s.SameLive (s.modLayout c l f) := by
  refine ⟨fun ctx => ?_⟩
  rw [State.ctxLive, State.ctxLive, State.modLayout, State.ctxOf_modCtx]
  split
  · next h => subst h; rfl
  · rfl

theorem State.SameLive.foldl {α : Type} {s t : State} (l : List α) (f : State → α → State) (h : s.SameLive t)
    (hf : ∀ (u : State) x, u.SameLive (f u x)) : s.SameLive (l.foldl f t) := by
  induction l generalizing t with
  | nil => exact h
  | cons x l ih => exact ih (h.trans (hf t x))

theorem State.sameLive_showStart (s : State) (num : Nat) : s.SameLive (s.showStart num) := by
  unfold State.showStart
  exact State.SameLive.foldl _ _ (State.SameLive.of_ctxs rfl) (fun u x => u.sameLive_modLayout _ _ _)

theorem State.sameLive_showCheck (s : State) : s.SameLive s.showCheck :=
  State.SameLive.of_ctxs (by simpa using s.only_showCheck_log.ctxs)

theorem State.sameLive_trigger (s : State) (cut drive : Bool) : s.SameLive (s.trigger cut drive) := by
  cases hheld : s.mgmt.showHeld with
  | true => rw [State.trigger_held s cut drive hheld]; exact State.SameLive.of_ctxs rfl
  | false =>
    cases cut with
    | false =>
      rw [State.trigger_fast s drive hheld]
      exact State.SameLive.of_ctxs ((State.showRecord_ctxs _).trans (State.latchTree_ctxs _ _))
    | true =>
      rw [State.trigger_cut s drive hheld]
      have hlatch : s.SameLive ((s.shown true drive).latchTree false) := State.SameLive.of_ctxs (State.latchTree_ctxs _ _)
      exact (hlatch.trans (State.sameLive_showStart _ _)).trans (State.sameLive_showCheck _)

theorem State.sameLive_classTrigger (s : State) (cls : Nat) : s.SameLive (s.classTrigger cls) := by
  unfold State.classTrigger
  split
  · split
    · split
      · refine State.SameLive.trans ?_ (State.sameLive_trigger _ _ _)
        exact State.SameLive.of_ctxs rfl
      · exact State.SameLive.refl s
    · exact State.SameLive.refl s
  · exact State.SameLive.refl s

/-- An error report ends no context, and begins none. -/
theorem State.sameLive_report (s : State) (island cls code : Nat) (ctx : Option Nat) (detail : Nat) :
    s.SameLive (s.report island cls code ctx detail) := by
  unfold State.report State.reportTy
  exact (State.SameLive.trans (State.SameLive.of_ctxs (State.modIsl_ctxs ..)) (State.sameLive_classTrigger _ cls)).trans
    (State.SameLive.of_ctxs (State.freeNext_ctxs ..))

/-- Data that cannot be read, where something waits for a block that goes with the record, end the context (R315). -/
theorem State.ComesIn.parkBringIn_lost {s : State} {ctx record index i : Nat} {g : KvGeom} {e : BmEntry} {m : Migration} {pe : ParkEntry}
    (h : s.ComesIn ctx record index i g e m pe) (hwaits : s.waitsOn ctx (s.treeBlocks ctx record) = true)
    (hlive : s.ctxLive ctx = true) : ∃ t, exec (.parkBringIn ctx record index .uncorrectable) s = .next t ∧ t.Torn ctx := by
  obtain ⟨v, hexec⟩ := h.exec_lost hwaits
  have hstill : (s.flashLost pe.chan).ctxLive ctx = true := ((s.sameLive_report _ 7 0 none pe.chan).live ctx).trans hlive
  exact ⟨_, hexec, State.teardown_torn _ ctx v hitRunning hstill⟩

/-! ### STRIPE_ERASE -/

/-- A park stripe that was freed is erased. -/
theorem stripeErase_park {s : State} {stripe : Nat} (h : stripe ∈ s.store.parkDead) :
    Answers (.stripeErase stripe true) s [.store] (fun t => t.store = { s.store with parkDead := s.store.parkDead.erase stripe }) :=
  ⟨_, congrArg Host.Outcome.next (if_pos (List.contains_iff_mem.2 h)), s.only_set_store _, rfl⟩

/-- A dead store slot that no earlier command still reads is erased. -/
theorem stripeErase_store {s : State} {slot : Nat} (hdead : tget 0 s.store.slots slot = 2)
    (hreaders : ∀ p ∈ s.store.ghosts, s.hasReaders p.1 p.2.1 = true → slot ∉ p.2.2.slots) :
    Answers (.stripeErase slot false) s [.store] (fun t => tget 0 t.store.slots slot = 0 ∧ t.store.objs = s.store.objs ∧
      ∀ k, k ≠ slot → tget 0 t.store.slots k = tget 0 s.store.slots k) := by
  have hfree : (s.store.ghosts.filter (fun p => s.hasReaders p.1 p.2.1)).any (fun p => p.2.2.slots.contains slot) = false := by
    rw [List.any_eq_false]
    intro p hp hin
    obtain ⟨hghost, hread⟩ := List.mem_filter.1 hp
    exact hreaders p hghost hread (List.contains_iff_mem.1 hin)
  have hcond : (decide (tget 0 s.store.slots slot = 2) &&
      !(s.store.ghosts.filter (fun p => s.hasReaders p.1 p.2.1)).any (fun p => p.2.2.slots.contains slot)) = true := by
    rw [hfree, hdead]; rfl
  exact ⟨_, congrArg Host.Outcome.next (if_pos hcond), s.only_set_store _, tget_tset_self .., rfl, fun k hk => tget_tset_ne _ _ _ _ _ hk⟩

/-- Settles O20, row by row: a park is logged, completed and brought back, and what is due or dead goes. -/
theorem kvSlotsParkAndReturn : Obligations.KvSlotsParkAndReturn := by
  unfold Obligations.KvSlotsParkAndReturn
  intro s ctx record stripe seq room r hr
  refine ⟨fun hdue hstripe _ hfits hroom => parkStart_logs hr hdue hstripe hfits hroom,
    fun mine g hstate hstage hstripe hroom hg hmine hfree => parkComplete_parks hr hstate hstage hstripe hroom hg hmine hfree,
    kvRecordExpire_frees, ?_, ?_, stripeErase_park, stripeErase_store⟩
  · intro g index i e m pe fid u hg hheld hindex hfind hmig hkind hbulk hlog hroom halloc _
    subst hr
    exact State.ComesIn.parkBringIn_clean ⟨hg, hheld, hindex, hfind, hmig, hkind, hlog⟩ hbulk hroom halloc
  · intro g index i e m pe hg hheld hindex hfind hmig hkind hlog hwaits hlive
    subst hr
    exact State.ComesIn.parkBringIn_lost ⟨hg, hheld, hindex, hfind, hmig, hkind, hlog⟩ hwaits hlive

end Sys2Proof.Machine
end

section
/-! The stages of commands that change more than the command (R340, R341, R372, R462, R463): what each leaves, and O12. -/
namespace Sys2Proof.Machine

section
variable {s : State} {f q n : Nat} {c : Cmd}

/-! ### SESSION_CANCEL and CANCEL_RETIRE (R340, R341) -/

/-- Where no other command uses the session, the cancel marks it with the state to return to and has nothing to end or drop. -/
theorem sessionCancel_marks (h : s.Runs f q n 0x45 [(2, 0xFFF)] c) (hw : c.work = .none)
    (hok : s.sessOk c.ctx (sessionOf c.eff) = true) (hst : (s.sessOf (sessionOf c.eff)).state ≠ 5)
    (hfree : ∀ x ∈ s.allCmds, x.2.2.namesSession c.ctx (sessionOf c.eff) = false ∧
      x.2.2.stepWith c.ctx (sessionOf c.eff) = false) :
    exec (.sessionCancel f q n) s = .next ((s.modSess (sessionOf c.eff) (fun x =>
      { x with returnState := (s.sessOf (sessionOf c.eff)).state, state := 5 })).setWork f q n
        (.sessionCancel (sessionOf c.eff) 0 [])) := by
  have hhit : s.allCmds.filter (fun x => (x.2.2.isRunning || (x.2.2.isFinished && x.2.2.status = 0)) &&
      x.2.2.namesSession c.ctx (sessionOf c.eff)) = [] := by
    rw [List.filter_eq_nil_iff]
    intro x hx
    simp [(hfree x hx).1]
  have hsteps : s.allCmds.filter (fun x => x.2.2.stepWith c.ctx (sessionOf c.eff)) = [] := by
    rw [List.filter_eq_nil_iff]
    intro x hx
    simp [(hfree x hx).2]
  have hmark : s.modSess (sessionOf c.eff) (fun x => if x.state = 5 then x else { x with returnState := x.state, state := 5 }) =
      s.modSess (sessionOf c.eff) (fun x => { x with returnState := (s.sessOf (sessionOf c.eff)).state, state := 5 }) := by
    rw [State.sessOf] at hst
    simp only [State.modSess, State.sessOf, tmod, if_neg hst]
  refine h.work_reserved ?_
  simp only [hw, hok, hhit, hsteps, hmark, Bool.not_true, Bool.false_eq_true, if_false, List.foldl_nil, List.length_nil,
    List.map_nil, Nat.add_zero]

/-- A session that is not the context's is left for the commit to refuse (R518). -/
theorem sessionCancel_foreign (h : s.Runs f q n 0x45 [(2, 0xFFF)] c) (hw : c.work = .none)
    (hok : s.sessOk c.ctx (sessionOf c.eff) = false) :
    exec (.sessionCancel f q n) s = .next (s.setWork f q n (.sessionCancel (sessionOf c.eff) 0 [])) := by
  refine h.work_reserved ?_
  simp only [hw, hok, Bool.not_false, if_true]

theorem cancelRetire_finishes {k count : Nat} {steps : List (Nat × Nat × Nat)} (hs : c.status = 0)
    (h : s.started f q n 0x45 = some c) (hw : c.work = .sessionCancel k count steps)
    (hacks : ∀ x ∈ steps, ∀ d st, s.cmdOf x.1 x.2.1 x.2.2 = some d → d.work = .step st →
      ∀ e ∈ st.entries, e.session = k → e.dropAcks = []) : Finishes (.cancelRetire f q n) s f q n St.ok count 0 := by
  have hleft : steps.any (fun x => match s.cmdOf x.1 x.2.1 x.2.2 with
      | some d => (match d.work with
        | .step st => st.entries.any (fun e => e.session = k && !e.dropAcks.isEmpty)
        | _ => false)
      | none => false) = false := by
    rw [List.any_eq_false]
    intro x hx
    split
    · next d hd =>
      split
      · next st hst =>
        rw [Bool.not_eq_true, List.any_eq_false]
        intro e he
        by_cases hk : e.session = k
        · simp [hacks x hx d st hd hst e he hk]
        · simp [hk]
      · exact Bool.false_ne_true
    · exact Bool.false_ne_true
  refine finishes_started h hs count 0 ?_
  show execCancelRetire f q n s = _
  simp only [execCancelRetire, h, hw, onlyIf]
  exact congrArg Host.Outcome.next (if_pos (by rw [Bool.not_eq_true']; exact hleft))

/-! ### STEP on one device -/

/-- A step of one device joins no generation and waits for no router. -/
theorem State.continueStep_quiet {st : StepRun} (hspan : st.span = false) (hq : s.streamsDone f q c = true) :
    s.continueStep f q c st = (s.setStep f q c.n { st with entries := st.entries.map (fun e => s.decideEntry st e) }).done f q c.n 0 0 := by
  have hjoin : s.joinGen f q c st = (s, st) := by
    unfold State.joinGen
    split
    · simp [hspan]
    · rfl
  have hrouter : s.routerQuiet c.ctx st = true := by
    unfold State.routerQuiet
    split
    · rfl
    · split
      · rfl
      · simp [hspan]
  simp [State.continueStep, hjoin, State.stepQuiet, hq, hrouter, hspan]

theorem stepCmd_decides {st : StepRun} (hs : c.status = 0) (h : s.started f q n 0x42 = some c) (hw : c.work = .step st)
    (hspan : st.span = false) (hslots : s.cmdSlots f q n = []) (ho : c.overflows = []) (hm : c.malformed = []) :
    Answers (.stepCmd f q n []) s [.cp] (fun t => t.Ended f q n St.ok 0 0 ∧ s.OnlyCmd f q n t ∧ ∃ d, t.cmdOf f q n = some d ∧
      d.work = .step { st with entries := st.entries.map (fun e => s.decideEntry st e) }) := by
  obtain ⟨hc, hp, -⟩ := s.started_cases f q n 0x42 c h
  set w : Work := .step { st with entries := st.entries.map (fun e => s.decideEntry st e) }
  have hafter : (s.modCmd f q n (fun x => { x with work := w })).cmdOf f q n = some { c with work := w } := by
    rw [State.cmdOf_modCmd_self _ _ _ _ _ (by exact fun _ => rfl), hc]; rfl
  refine ⟨(s.modCmd f q n (fun x => { x with work := w })).done f q n 0 0, ?_, (s.only_modCmd ..).trans (State.only_modCmd ..),
    State.finish_ended _ f q n _ ⟨St.ok, 0, 0⟩ hafter (by simp [hp]) hs, ?_, ({ c with work := w } : Cmd).finish ⟨St.ok, 0, 0⟩, ?_, rfl⟩
  · show execStepCmd f q n [] s = _
    rw [execStepCmd, State.withErrs_nil h, s.work_started f q n 0x42 _ c h]
    simp only [hw]
    rw [State.continueStep_quiet hspan (State.streamsDone_of_none h hslots ho hm), State.cmdOf_n hc]
    rfl
  · exact ⟨fun x => ({ x with work := w } : Cmd).finish ⟨St.ok, 0, 0⟩, fun _ => ⟨rfl, rfl⟩,
      congrArg State.cp (State.modCmd_modCmd s f q n _ _ (fun _ => rfl))⟩
  · rw [State.done, State.cmdOf_finish, hafter]; rfl

/-! ### WEIGHT_WRITE (R372, R487) -/

@[simp] theorem State.objOf_setObj_self (s : State) (k : Nat) (o : Option Obj) : (s.setObj k o).objOf k = o := tget_tset_self ..

theorem State.objOf_setObj_ne (s : State) {k j : Nat} (o : Option Obj) (h : j ≠ k) : (s.setObj k o).objOf j = s.objOf j :=
  tget_tset_ne _ _ _ _ _ h

/-- The object's name and its first stripes are taken: no other object of the store changes. -/
def State.reserveObj (s : State) (key : Nat) (o : Obj) (stripes : Nat) : State :=
  { s.setObj key (some o) with store := { (s.setObj key (some o)).store with
      slots := o.slots.foldl (fun t k => tset 0 t k 1) s.store.slots, seq := s.store.seq + stripes } }

theorem State.only_reserveObj (s : State) (key : Nat) (o : Obj) (stripes : Nat) : s.Only [.store] (s.reserveObj key o stripes) :=
  s.only_set_store _

/-- The object a WEIGHT_WRITE reserves: named as the command names it, in the first free slots. -/
def State.writeObj (s : State) (f : Nat) (c : Cmd) (image : List Byte) (len stripes : Nat) : Obj :=
  { owner := f, shared := bit (word c.eff 3) 0, id := wnat c.eff 2, slots := (s.slotsIn 0).take stripes, firstSeq := s.store.seq + 1,
    bytes := len, image := image }

/-- The store takes an image of len bytes under a new name: no limit of R372, R373 and R487 is met. -/
structure State.TakesObj (s : State) (f : Nat) (c : Cmd) (image : List Byte) (len key stripes : Nat) : Prop where
  rights  : bit (word c.eff 3) 0 = true → f = 0
  named   : wnat c.eff 2 ≠ 0 ∧ wnat c.eff 2 ≠ 0xFFFFFFFF
  fresh   : s.objOf key = none
  aligned : wnat c.eff 4 % 64 = 0
  range   : 64 ≤ len ∧ len ≤ 2 ^ 40
  whole   : image.length = len
  writers : s.writersBegun < 8
  quota   : s.stripesOf f + stripes ≤ wnat (s.partOf f).record 13
  room    : stripes ≤ (s.slotsIn 0).length
  count   : s.store.objs.length < 16384
  image   : objectFault image = none

theorem weightWrite_takes {image : List Byte} {len key stripes : Nat}
    (h : s.Runs f q n 0x60 [(2, 0xFFFFFFFF), (3, 1), (4, 0xFFFFFFFF), (5, 0xFFFFFFFF), (6, 0xFFFFFFFF), (7, 0xFF)] c)
    (hw : c.work = .none) (hlen : len = wnat c.eff 6 + fld (word c.eff 7) 7 0 * 2 ^ 32) (hkey : key = objKey f (weightName c.eff 0))
    (hstripes : stripes = ceilDiv len stripeBytes) (ht : s.TakesObj f c image len key stripes) :
    exec (.weightWrite f q n image) s = .next ((s.reserveObj key (s.writeObj f c image len stripes) stripes).setWork f q n
      (.object key ((s.slotsIn 0).take stripes))) := by
  obtain ⟨hrights, hnamed, hfresh, haligned, hrange, hwhole, hwriters, hquota, hroom, hcount, himage⟩ := ht
  refine h.work_checked
    [need (!bit (word c.eff 3) 0 || decide (f = 0)) St.pfOnly 0 0, param (wnat c.eff 2 ≠ 0 && wnat c.eff 2 ≠ 0xFFFFFFFF) 2,
      param (s.objOf key).isNone 2, param (wnat c.eff 4 % 64 = 0) 4, param (decide (64 ≤ len) && decide (len ≤ 2 ^ 40)) 6] ?_ ?_
  · have hstart : ¬(image.length ≠ len ∨ 8 ≤ s.writersBegun) := by omega
    have hfull : (decide (wnat (s.partOf f).record 13 < s.stripesOf f + stripes) ||
        decide ((s.slotsIn 0).length + (s.slotsIn 2).length < stripes) || decide (16384 ≤ s.store.objs.length)) = false := by
      simp only [Bool.or_eq_false_iff, decide_eq_false_iff_not]
      omega
    have hpick : pickVerdict [] = none := rfl
    simp only [hw, ← hlen, ← hkey, ← hstripes, if_neg hstart, himage, hfull, Bool.false_eq_true, if_false, List.append_nil, hpick,
      if_neg (Nat.not_lt.2 hroom)]
    rfl
  · simp only [List.forall_mem_cons, param_bad, need_bad, Bool.not_eq_false', Bool.or_eq_true, Bool.and_eq_true, decide_eq_true_eq]
    refine ⟨?_, hnamed, by rw [hfresh]; rfl, haligned, hrange, fun _ hk => absurd hk List.not_mem_nil⟩
    by_cases hb : bit (word c.eff 3) 0 = true
    · exact .inr (hrights hb)
    · exact .inl (by simpa using hb)

theorem weightWrite_reserves {image : List Byte} {len key stripes : Nat}
    (h : s.Runs f q n 0x60 [(2, 0xFFFFFFFF), (3, 1), (4, 0xFFFFFFFF), (5, 0xFFFFFFFF), (6, 0xFFFFFFFF), (7, 0xFF)] c)
    (hw : c.work = .none) (hlen : len = wnat c.eff 6 + fld (word c.eff 7) 7 0 * 2 ^ 32) (hkey : key = objKey f (weightName c.eff 0))
    (hstripes : stripes = ceilDiv len stripeBytes) (ht : s.TakesObj f c image len key stripes) :
    Answers (.weightWrite f q n image) s [.cp, .store] (fun t => s.OnlyCmd f q n t ∧
      t.objOf key = some { owner := f, shared := bit (word c.eff 3) 0, id := wnat c.eff 2, slots := (s.slotsIn 0).take stripes,
                           firstSeq := s.store.seq + 1, bytes := len, image := image } ∧
      (∀ k, k ≠ key → t.objOf k = s.objOf k) ∧ t.store.seq = s.store.seq + stripes) := by
  refine ⟨_, weightWrite_takes h hw hlen hkey hstripes ht, ?_, ?_, s.objOf_setObj_self key _, fun k hk => s.objOf_setObj_ne _ hk, rfl⟩
  · exact ((s.only_reserveObj ..).mono _ (by decide)).trans ((State.only_setWork ..).mono _ (by decide))
  · exact ⟨fun x => { x with work := .object key ((s.slotsIn 0).take stripes), begun := true }, fun _ => ⟨rfl, rfl⟩, rfl⟩

/-- With the image in its slots the object is sealed, past the command's commit point. -/
theorem weightWrite_seals {image : List Byte} {k : Nat} {slots : List Nat} {o : Obj} (hs : c.status = 0)
    (h : s.started f q n 0x60 = some c) (hw : c.work = .object k slots) (ho : s.objOf k = some o) :
    Answers (.weightWrite f q n image) s [.cp, .store] (fun t => t.Ended f q n St.ok slots.length 0 ∧ s.OnlyCmd f q n t ∧
      t.objOf k = some { o with isSealed := true } ∧ ∀ j, j ≠ k → t.objOf j = s.objOf j) := by
  obtain ⟨hc, hp, -⟩ := s.started_cases f q n 0x60 c h
  set u := s.setObj k (some { o with isSealed := true })
  have hpast : (u.modCmd f q n (fun x => { x with pastCommit := true })).cmdOf f q n = some { c with pastCommit := true } := by
    rw [State.cmdOf_modCmd_self _ _ _ _ _ (by exact fun _ => rfl), State.cmdOf_cp u s _ _ _ rfl, hc]; rfl
  refine ⟨(u.modCmd f q n (fun x => { x with pastCommit := true })).done f q n slots.length 0, ?_, ?_,
    State.finish_ended _ f q n _ ⟨St.ok, slots.length, 0⟩ hpast (by simp [hp]) hs, ?_, s.objOf_setObj_self k _,
    fun j hj => s.objOf_setObj_ne _ hj⟩
  · show execWeightWrite f q n image s = _
    rw [execWeightWrite, s.work_started f q n 0x60 _ c h]
    simp only [hw, ho]
    rfl
  · exact (((s.only_set_store _).mono _ (by decide)).trans ((u.only_modCmd ..).mono _ (by decide))).trans
      ((State.only_modCmd ..).mono _ (by decide))
  · exact ⟨fun x => ({ x with pastCommit := true } : Cmd).finish ⟨St.ok, slots.length, 0⟩, fun _ => ⟨rfl, rfl⟩,
      (congrArg State.cp (State.modCmd_modCmd u f q n (fun x => { x with pastCommit := true }) _ (fun _ => rfl))).trans
        (State.modCmd_cp u s f q n _ rfl)⟩

/-! ### SELF_TEST (R462) -/

theorem selfTest_begins {result : TestResult} (h : s.Runs f q n 0x80 [(2, 0xFFF001)] c) (hw : c.work = .none)
    (hindex : fld (word c.eff 2) 23 12 < (if fld (word c.eff 2) 0 0 = 1 then 192 else 3072))
    (howner : f ≠ 0 → s.clusterOwner (testCluster c.eff) = f) (hrun : s.mgmt.restarting = false)
    (hgated : s.gatedIn [testCluster c.eff] = false) (hidle : s.testIdle (testCluster c.eff) = true)
    (hfree : testCluster c.eff ∉ s.mgmt.testing) :
    exec (.selfTest f q n result) s = .next ({ s with mgmt := { s.mgmt with
      testing := s.mgmt.testing ++ [testCluster c.eff] } }.setWork f q n (.target (fld (word c.eff 2) 0 0) (testCluster c.eff) 1)) := by
  refine h.work_checked [param (decide (fld (word c.eff 2) 23 12 < (if fld (word c.eff 2) 0 0 = 1 then 192 else 3072))) 2,
    param (decide (f = 0) || decide (s.clusterOwner (testCluster c.eff) = f)) 2] ?_ ?_
  · simp [hw, hrun, hgated, hidle, hfree]
  · simp only [List.forall_mem_cons, param_bad]
    simpa [hindex, or_iff_not_imp_left] using howner

/-- A pass fences nothing. -/
theorem selfTest_passes {a b d : Nat} (h : s.started f q n 0x80 = some c) (hw : c.work = .target a b d) :
    exec (.selfTest f q n .pass) s = .next ({ s with mgmt := { s.mgmt with
      testing := s.mgmt.testing.erase (testCluster c.eff) } }.done f q n 0 0) := by
  have hnone : onesOf 16 0 = [] := by decide
  show execSelfTest f q n .pass s = _
  rw [execSelfTest, s.work_started f q n 0x80 _ c h]
  simp [hw, hnone, State.fenceTested, b2n]

/-! ### MEMORY_RETRAIN (R463) -/

theorem memoryRetrain_notes {us : Nat} (h : s.Runs f q n 0x83 [(2, 0xF3), (3, 0xFFFF)] c) (hw : c.work = .none)
    (hkind : fld (word c.eff 2) 1 0 ≠ 3) (hindex : fld (word c.eff 2) 1 0 = 0 → fld (word c.eff 2) 7 4 < 4)
    (hrun : s.mgmt.restarting = false) :
    exec (.memoryRetrain f q n us) s =
      .next (s.setWork f q n (.target (fld (word c.eff 2) 1 0) (fld (word c.eff 2) 7 4) 0)) := by
  refine h.work_checked [resv (fld (word c.eff 2) 1 0 ≠ 3) 2,
    param (fld (word c.eff 2) 1 0 ≠ 0 || decide (fld (word c.eff 2) 7 4 < 4)) 2] ?_ ?_
  · simp [hw, hrun]
  · simp only [List.forall_mem_cons, param_bad, resv_bad]
    simpa [hkind, or_iff_not_imp_left] using hindex

theorem memoryRetrain_ends {us k i : Nat} (h : s.started f q n 0x83 = some c) (hw : c.work = .target k i 1) (hus : us ≤ 5000) :
    exec (.memoryRetrain f q n us) s = .next ({ s with tiers := { s.tiers with
      retraining := s.tiers.retraining.erase (k, i) } }.done f q n us 0) := by
  show execMemoryRetrain f q n us s = _
  rw [execMemoryRetrain, s.work_started f q n 0x83 _ c h]
  simp [hw, hus]

theorem retrainTargetQuiet_begins {k i : Nat} (h : s.retrainWaits f q n = some (k, i)) (hquiet : s.targetInFlight k i = false) :
    exec (.retrainTargetQuiet f q n) s = .next ({ s with tiers := { s.tiers with
      retraining := s.tiers.retraining ++ [(k, i)] } }.setWork f q n (.target k i 1)) := by
  show execRetrainTargetQuiet f q n s = _
  simp [execRetrainTargetQuiet, h, onlyIf, hquiet]

theorem retrainWaitTimeout_busy {op k i : Nat} (hs : c.status = 0) (h : s.started f q n op = some c)
    (hwaits : s.retrainWaits f q n = some (k, i)) (hw : c.work = .target k i 0) :
    ∃ t, exec (.retrainWaitTimeout f q n) s = .next t ∧ t.Ended f q n St.targetBusy 0 0 := by
  obtain ⟨hc, hp, -⟩ := s.started_cases f q n op c h
  obtain ⟨d, hd, hdp, hds⟩ := State.cmdOf_release hc
  have hend : s.endCmd f q n ⟨St.targetBusy, 0, 0⟩ = (s.release f q n).finish f q n ⟨St.targetBusy, 0, 0⟩ := by
    simp only [State.endCmd, hc, hw]
  refine ⟨s.endCmd f q n ⟨St.targetBusy, 0, 0⟩, ?_, ?_⟩
  · show execRetrainWaitTimeout f q n s = _
    simp only [execRetrainWaitTimeout, hwaits]
  · rw [hend]
    exact State.finish_ended _ f q n d _ hd (by rw [hdp, hp]; decide) (hds.trans hs)

end

/-- Settles O12, stage by stage. That WEIGHT_WRITE takes the lowest free slots, with eight writers at most, is R487's. -/
theorem stagedCommandsAct : Obligations.StagedCommandsAct := by
  unfold Obligations.StagedCommandsAct
  intro s f q n c h hs
  refine ⟨?cancel, ?retire, ?foreign, ?step, ?reserve, ?sealing, ?test, ?pass, ?retrain, ?retrained, ?quiet, ?timeout⟩
  case cancel => exact fun hop hw hres hok hst hfree => sessionCancel_marks ⟨hop ▸ h, hs, hres⟩ hw hok hst hfree
  case retire => exact fun k count steps hop hw hacks => cancelRetire_finishes hs (hop ▸ h) hw hacks
  case foreign => exact fun hop hw hres hok => sessionCancel_foreign ⟨hop ▸ h, hs, hres⟩ hw hok
  case step => exact fun st hop hw hspan hslots ho hm => stepCmd_decides hs (hop ▸ h) hw hspan hslots ho hm
  case reserve =>
    intro image len key stripes hop hw hres hlen hkey hstripes hrights h0 h1 hfresh haligned hmin hmax hwhole hwriters hquota hroom hcount
      himage
    exact weightWrite_reserves ⟨hop ▸ h, hs, hres⟩ hw hlen hkey hstripes
      ⟨hrights, ⟨h0, h1⟩, hfresh, haligned, ⟨hmin, hmax⟩, hwhole, hwriters, hquota, hroom, hcount, himage⟩
  case sealing => exact fun image k slots o hop hw ho => weightWrite_seals hs (hop ▸ h) hw ho
  case test =>
    exact fun result hop hw hres hindex howner hrun hgated hidle hfree =>
      selfTest_begins ⟨hop ▸ h, hs, hres⟩ hw hindex howner hrun hgated hidle hfree
  case pass => exact fun a b d hop hw => selfTest_passes (hop ▸ h) hw
  case retrain => exact fun us hop hw hres hkind hindex hrun => memoryRetrain_notes ⟨hop ▸ h, hs, hres⟩ hw hkind hindex hrun
  case retrained => exact fun us k i hop hw hus => memoryRetrain_ends (hop ▸ h) hw hus
  case quiet => exact fun k i hwaits hquiet => retrainTargetQuiet_begins hwaits hquiet
  case timeout => exact fun k i hwaits hw _ _ _ => retrainWaitTimeout_busy hs h hwaits hw

end Sys2Proof.Machine
end

section
/-! An arriving frame at the endpoint of its circuit (R390, R392, R405), and the message it carries between two members of a job (R407,
R409). -/
namespace Sys2Proof.Machine

/-! ### The frame -/

@[simp] theorem State.circOf_received (s : State) (port : Nat) (f : Frame) (k : Nat) : (s.received port f).circOf k = s.circOf k := rfl

/-- At the endpoint of its open circuit a frame in order is for the row of its type. -/
theorem State.AtEndpoint.arrive {s : State} {port : Nat} {f : Frame} (h : s.AtEndpoint port f) :
    s.arrive port f true = .deliver (s.received port f) := by
  obtain ⟨⟨husable, hseq, hclean⟩, hclass, hopen, hends, hsingle⟩ := h
  have hcirc := s.circOf_received port f f.circuit
  unfold State.arrive
  extract_lets p s1 s2 c
  have hs2 : s2 = s.received port f := rfl
  have hc : c = s.circOf f.circuit := by rw [← hcirc, ← hs2]
  rw [if_neg (by simp [p, husable]), if_neg (by simp), if_neg (not_not.2 hseq), if_neg (by simp [hclean]), if_pos hclass,
    if_neg (by simp [hc, hopen]), if_neg (by simp [hc, hopen]), if_neg (by simp [hc, hends]), if_neg (by simp [hc, hsingle]), hs2]

/-- The state once the link layer has taken a circuit frame and owes its credits. -/
def State.took (s : State) (port : Nat) (f : Frame) : State := (s.received port f).oweCredits f

theorem State.only_received (s : State) (port : Nat) (f : Frame) : s.Only [.fab] (s.received port f) :=
  (s.only_modPort ..).trans (State.only_modPort ..)

theorem State.only_took (s : State) (port : Nat) (f : Frame) : s.Only [.fab] (s.took port f) :=
  (s.only_received port f).trans (State.only_modCirc ..)

@[simp] theorem State.took_cp (s : State) (port : Nat) (f : Frame) : (s.took port f).cp = s.cp :=
  (s.only_took port f).cp.resolve_left (by decide)
@[simp] theorem State.took_ctxs (s : State) (port : Nat) (f : Frame) : (s.took port f).ctxs = s.ctxs :=
  (s.only_took port f).ctxs.resolve_left (by decide)

/-- Of a circuit, only the credits owed may differ. -/
theorem State.circOf_took (s : State) (port : Nat) (f : Frame) (k : Nat) :
    ∃ owed, (s.took port f).circOf k = { s.circOf k with owed := owed } := by
  rw [State.took, State.oweCredits, State.circOf_modCirc]
  split
  · next h => subst h; exact ⟨_, congrArg (fun c : Circuit => { c with owed := c.owed + f.cost }) (s.circOf_received port f _)⟩
  · exact ⟨_, s.circOf_received port f k⟩

/-! ### The job of a context -/

theorem State.only_modJob (s : State) (ctx : Nat) (g : Job → Job) : s.Only [.ctxs] (s.modJob ctx g) := s.only_modCtx ctx _

@[simp] theorem State.jobOf_modJob_self (s : State) (ctx : Nat) (g : Job → Job) : (s.modJob ctx g).jobOf ctx = (s.jobOf ctx).map g := by
  rw [State.jobOf, State.modJob, State.ctxOf_modCtx_self, State.jobOf]

theorem State.jobOf_of_ctxs {s t : State} (h : t.ctxs = s.ctxs) (ctx : Nat) : t.jobOf ctx = s.jobOf ctx := by
  rw [State.jobOf, State.jobOf, State.ctxOf, State.ctxOf, h]

@[simp] theorem State.jobOf_took (s : State) (port : Nat) (f : Frame) (ctx : Nat) : (s.took port f).jobOf ctx = s.jobOf ctx :=
  State.jobOf_of_ctxs (s.took_ctxs port f) ctx

/-! ### The message -/

/-- A JOB_CTRL frame from the member of this rank comes to the endpoint of a circuit of the context's job. -/
structure State.JobMessage (s : State) (port : Nat) (f : Frame) (ctx rank : Nat) (j : Job) : Prop where
  ends   : s.AtEndpoint port f
  ty     : f.ty = 0x13
  sender : s.ctrlSender f = some (ctx, rank)
  job    : s.jobOf ctx = some j

theorem State.ctrlSender_took (s : State) (port : Nat) (f : Frame) : (s.took port f).ctrlSender f = s.ctrlSender f := by
  obtain ⟨owed, h⟩ := s.circOf_took port f f.circuit
  simp only [State.ctrlSender, h, State.jobOf_took]

section
variable {s : State} {port : Nat} {f : Frame} {ctx rank : Nat} {j : Job}

theorem State.JobMessage.job_took (m : s.JobMessage port f ctx rank j) : (s.took port f).jobOf ctx = some j :=
  (s.jobOf_took port f ctx).trans m.job

/-- A message for this device is its row's. -/
theorem State.JobMessage.here (m : s.JobMessage port f ctx rank j) (hdst : f.dst = s.fab.chip) {sub : Nat} (hsub : f.tf 0 7 0 = sub)
    (g : State → Nat → Nat → State) : s.onJobCtrl port f true sub g = .next (g (s.took port f) ctx rank) := by
  have hsender : ((s.received port f).oweCredits f).ctrlSender f = some (ctx, rank) := (s.ctrlSender_took port f).trans m.sender
  have hchip : f.dst = ((s.received port f).oweCredits f).fab.chip := hdst
  rw [State.onJobCtrl, if_neg (not_not.2 hsub), State.onFrame, if_neg (not_not.2 m.ty), m.ends.arrive]
  simp only [hsender, if_pos hchip]
  rfl

/-- A message for another member goes on by the control circuit to it (log entry 165). -/
theorem State.JobMessage.away (m : s.JobMessage port f ctx rank j) (hdst : f.dst ≠ s.fab.chip) {sub : Nat} (hsub : f.tf 0 7 0 = sub)
    (g : State → Nat → Nat → State) :
    s.onJobCtrl port f true sub g = .next (((s.received port f).oweCredits f).toChip ctx 1 f.dst f) := by
  have hsender : ((s.received port f).oweCredits f).ctrlSender f = some (ctx, rank) := (s.ctrlSender_took port f).trans m.sender
  have hchip : ¬f.dst = ((s.received port f).oweCredits f).fab.chip := hdst
  rw [State.onJobCtrl, if_neg (not_not.2 hsub), State.onFrame, if_neg (not_not.2 m.ty), m.ends.arrive]
  simp only [hsender, if_neg hchip]

theorem State.JobMessage.passedOn (m : s.JobMessage port f ctx rank j) (hdst : f.dst ≠ s.fab.chip) {sub : Nat} {row : Instr}
    (hrow : (sub, row) ∈ [(1, Instr.generationAnnounce port f true), (2, .generationRetiredReport port f true),
      (3, .stepOutcomes port f true), (4, .stepReady port f true), (5, .stepCommitMessage port f true), (6, .entryDropped port f true),
      (7, .dealPublication port f true)]) (hsub : f.tf 0 7 0 = sub) :
    exec row s = .next (((s.received port f).oweCredits f).toChip ctx 1 f.dst f) := by
  simp only [List.mem_cons, Prod.mk.injEq, List.not_mem_nil, or_false] at hrow
  rcases hrow with ⟨rfl, rfl⟩ | ⟨rfl, rfl⟩ | ⟨rfl, rfl⟩ | ⟨rfl, rfl⟩ | ⟨rfl, rfl⟩ | ⟨rfl, rfl⟩ | ⟨rfl, rfl⟩
  · show execGenerationAnnounce port f true s = _
    exact m.away hdst hsub _
  · show execGenerationRetiredReport port f true s = _
    exact m.away hdst hsub _
  · show execStepOutcomes port f true s = _
    exact m.away hdst hsub _
  · show execStepReady port f true s = _
    exact m.away hdst hsub _
  · show execStepCommitMessage port f true s = _
    exact m.away hdst hsub _
  · show execEntryDropped port f true s = _
    exact m.away hdst hsub _
  · have hkind : ¬(f.ty = 0x13 ∧ (f.tf 0 7 0 = 0 ∨ 8 < f.tf 0 7 0)) := by omega
    show execDealPublication port f true s = _
    rw [execDealPublication, if_neg hkind]
    exact m.away hdst hsub _

/-- The three kinds of a broadcast load's message (R378, R411). -/
theorem State.JobMessage.load_passedOn (m : s.JobMessage port f ctx rank j) (hdst : f.dst ≠ s.fab.chip) {kind : Nat} {row : Instr}
    (hrow : (kind, row) ∈ [(0, Instr.pieceRequest port f true), (1, .readerStart port f true), (2, .doneNotice port f true)])
    (hsub : f.tf 0 7 0 = 8) (hkind : loadKind f = kind) :
    exec row s = .next (((s.received port f).oweCredits f).toChip ctx 1 f.dst f) := by
  simp only [List.mem_cons, Prod.mk.injEq, List.not_mem_nil, or_false] at hrow
  rcases hrow with ⟨rfl, rfl⟩ | ⟨rfl, rfl⟩ | ⟨rfl, rfl⟩
  · have hother : ¬(loadKind f = 1 ∨ loadKind f = 2) := by omega
    show execPieceRequest port f true s = _
    rw [execPieceRequest, if_neg hother]
    exact m.away hdst hsub _
  · show execReaderStart port f true s = _
    rw [execReaderStart, if_neg (not_not.2 hkind)]
    exact m.away hdst hsub _
  · show execDoneNotice port f true s = _
    rw [execDoneNotice, if_neg (not_not.2 hkind)]
    exact m.away hdst hsub _

/-- A row that does no more than change the job's own record. -/
theorem State.JobMessage.answers_modJob (m : s.JobMessage port f ctx rank j) {i : Instr} (g : Job → Job)
    (he : exec i s = .next ((s.took port f).modJob ctx g)) : Answers i s [.fab, .ctxs] (fun t => t.jobOf ctx = some (g j)) := by
  refine ⟨_, he, ((s.only_took port f).mono _ (by decide)).trans ((State.only_modJob ..).mono _ (by decide)), ?_⟩
  show ((s.took port f).modJob ctx g).jobOf ctx = _
  rw [State.jobOf_modJob_self, m.job_took, Option.map_some]

end

end Sys2Proof.Machine
end

section
/-! The messages that change no more than the job's own record (R360 to R362, R377, R378, R409): announcements and reports of generations,
deal publications, and the messages of a broadcast load. -/
namespace Sys2Proof.Machine

/-! ### Held tiles, and a router without a run (R361) -/

theorem State.only_oweCredits (s : State) (f : Frame) : s.Only [.fab] (s.oweCredits f) := s.only_modCirc _ _

theorem State.only_dropRouted (s : State) (ctx : Nat) (f : Frame) : s.Only [.fab, .ctxs] (s.dropRouted ctx f) :=
  ((s.only_oweCredits f).mono _ (by decide)).trans ((State.only_modCtx ..).mono _ (by decide))

@[simp] theorem State.jobOf_dropRouted (s : State) (ctx : Nat) (f : Frame) : (s.dropRouted ctx f).jobOf ctx = s.jobOf ctx := by
  rw [State.dropRouted, State.jobOf_modCtx_job _ _ _ rfl]
  exact State.jobOf_of_ctxs rfl ctx

theorem State.jobOf_foldl_dropRouted (s : State) (ctx : Nat) (l : List (Nat × Frame)) :
    (l.foldl (fun t p => t.dropRouted ctx p.2) s).jobOf ctx = s.jobOf ctx := by
  induction l generalizing s with
  | nil => rfl
  | cons p l ih => exact (ih _).trans (s.jobOf_dropRouted ctx p.2)

/-- A held tile's generation is newer than the job's live one, or is that one while its run goes on. -/
def Job.holds (j : Job) (p : Nat × Frame) : Bool := genNewer (p.2.t 2) j.gen || (!j.genEnded && p.2.t 2 = j.gen)

theorem State.flushHeld_eq {s : State} {ctx : Nat} {j : Job} (hj : s.jobOf ctx = some j) :
    s.flushHeld ctx = (j.held.filter (fun p => !j.holds p)).foldl (fun t p => t.dropRouted ctx p.2)
      (s.modJob ctx (fun x => { x with held := j.held.filter j.holds })) := by
  unfold State.flushHeld
  rw [hj]
  simp only [List.partition_eq_filter_filter]
  rfl

theorem State.only_flushHeld {s : State} {ctx : Nat} {j : Job} (hj : s.jobOf ctx = some j) : s.Only [.fab, .ctxs] (s.flushHeld ctx) := by
  rw [State.flushHeld_eq hj]
  exact State.Only.foldl _ _ ((s.only_modJob ..).mono _ (by decide)) (fun u p => u.only_dropRouted ctx p.2)

theorem State.jobOf_flushHeld {s : State} {ctx : Nat} {j : Job} (hj : s.jobOf ctx = some j) :
    (s.flushHeld ctx).jobOf ctx = some { j with held := j.held.filter j.holds } := by
  rw [State.flushHeld_eq hj, State.jobOf_foldl_dropRouted, State.jobOf_modJob_self, hj, Option.map_some]

/-- The routed run of a context is found by the commands and by what the context's job routes. -/
theorem State.routedRun_congr {s t : State} {ctx : Nat} (hcp : t.cp = s.cp)
    (hrouted : ∀ lnum, t.routedLayout ctx lnum = s.routedLayout ctx lnum) : t.routedRun ctx = s.routedRun ctx := by
  simp only [State.routedRun, State.allCmds, hcp, hrouted]

theorem State.routedLayout_congr {s t : State} {ctx : Nat} {j k : Job} (hs : s.jobOf ctx = some j) (ht : t.jobOf ctx = some k)
    (hopen : k.isOpen = j.isOpen) (hplan : k.plan = j.plan) (lnum : Nat) : t.routedLayout ctx lnum = s.routedLayout ctx lnum := by
  simp only [State.routedLayout, hs, ht, hopen, hplan]

theorem State.pumpRouter_idle {s : State} {ctx : Nat} (h : s.routedRun ctx = none) : s.pumpRouter ctx = s := by
  rw [State.pumpRouter, h]

/-! ### Retired generations (R362) -/

theorem State.only_mapCmds (s : State) (p : Nat → Nat → Cmd → Bool) (g : Cmd → Cmd) : s.Only [.cp] (s.mapCmds p g) := s.only_set_cp _

theorem State.only_settle (s : State) : s.Only [.cp] s.settle := s.only_mapCmds _ _

@[simp] theorem State.jobOf_settle (s : State) (ctx : Nat) : s.settle.jobOf ctx = s.jobOf ctx := State.jobOf_of_ctxs rfl ctx

/-- Every member of a job has a report of the generation among r. -/
theorem all_reported {members : List Nat} {r : List (Nat × Nat)} {gen : Nat} :
    members.zipIdx.all (fun m => r.contains (gen, m.2)) = true ↔ ∀ i, i < members.length → (gen, i) ∈ r := by
  have hranks : members.zipIdx.all (fun m => r.contains (gen, m.2)) =
      (members.zipIdx.map Prod.snd).all (fun i => r.contains (gen, i)) := by rw [List.all_map]; rfl
  rw [hranks, List.zipIdx_map_snd, List.all_eq_true]
  simp

section
variable {s : State} {port : Nat} {f : Frame} {ctx rank : Nat} {j : Job}

/-! ### GENERATION_ANNOUNCE and GENERATION_RETIRED_REPORT -/

/-- Where no run of the generation before is at work, the announced one is live (R360). -/
theorem State.JobMessage.announce (m : s.JobMessage port f ctx rank j) (hdst : f.dst = s.fab.chip) (hsub : f.tf 0 7 0 = 1)
    (hrank : rank = 0) (hended : j.genEnded = true) (hrun : s.routedRun ctx = none)
    (hretires : ∀ r ∈ j.retires, r.1 ≠ wnat (Frame.words f) 0) :
    Answers (.generationAnnounce port f true) s [.fab, .ctxs] (fun t => ∃ j', t.jobOf ctx = some j' ∧
      j'.gen = wnat (Frame.words f) 0 ∧ j'.genEnded = false ∧
      ∀ h ∈ j'.held, h ∈ j.held ∧ (h.2.t 2 = wnat (Frame.words f) 0 ∨ genNewer (h.2.t 2) (wnat (Frame.words f) 0) = true)) := by
  set gen := wnat (Frame.words f) 0
  set u := (s.took port f).modJob ctx (fun x => { x with gen := gen, genEnded := false }) with hu
  have hju : u.jobOf ctx = some { j with gen := gen, genEnded := false } := by
    rw [hu, State.jobOf_modJob_self, m.job_took, Option.map_some]
  have hjob := State.jobOf_flushHeld hju
  have hidle : (u.flushHeld ctx).routedRun ctx = none :=
    (State.routedRun_congr (by rw [State.flushHeld_cp, hu, State.modJob_cp, State.took_cp]) (State.routedLayout_congr m.job hjob rfl rfl)).trans hrun
  have hfresh : j.retires.any (fun r => r.1 = gen) = false := by
    rw [List.any_eq_false]
    intro r hr
    simpa using hretires r hr
  refine ⟨u.flushHeld ctx, ?_, ?_, _, hjob, rfl, rfl, fun h hh => ?_⟩
  · show execGenerationAnnounce port f true s = _
    refine (m.here hdst hsub _).trans (congrArg Host.Outcome.next ?_)
    simp only [hrank, m.job_took, hended, Bool.not_true, Bool.false_and, Bool.false_eq_true, if_false, ne_eq, not_true_eq_false]
    rw [if_neg (by rw [hfresh]; decide)]
    exact State.pumpRouter_idle hidle
  · exact (((s.only_took port f).mono _ (by decide)).trans ((State.only_modJob ..).mono _ (by decide))).trans (State.only_flushHeld hju)
  · obtain ⟨hheld, hlive⟩ := List.mem_filter.1 hh
    refine ⟨hheld, ?_⟩
    simpa [Job.holds, or_comm] using hlive

/-- The verifier counts a report, and the last one retires the generation in the job. -/
theorem State.JobMessage.report (m : s.JobMessage port f ctx rank j) (hdst : f.dst = s.fab.chip) (hsub : f.tf 0 7 0 = 2)
    (hgen : wnat (Frame.words f) 0 ≠ 0) (hrank : j.rank = 0) (hnew : (wnat (Frame.words f) 0, rank) ∉ j.reports) :
    Answers (.generationRetiredReport port f true) s [.fab, .ctxs, .cp] (fun t => t.jobOf ctx = some { j with
      reports := j.reports ++ [(wnat (Frame.words f) 0, rank)],
      retired := if ∀ m, m < j.members.length → (wnat (Frame.words f) 0, m) ∈ j.reports ++ [(wnat (Frame.words f) 0, rank)]
        then j.retired ++ [wnat (Frame.words f) 0] else j.retired }) := by
  set gen := wnat (Frame.words f) 0
  set r := j.reports ++ [(gen, rank)]
  set u := (s.took port f).modJob ctx (fun x => { x with
    reports := r
    retired := if x.members.zipIdx.all (fun m => r.contains (gen, m.2)) then x.retired ++ [gen] else x.retired }) with hu
  refine ⟨u.settle, ?_, ?_, ?_⟩
  · have hcount : ¬(j.rank ≠ 0 ∨ j.reports.contains (gen, rank) = true) := by simp [hrank, hnew]
    show execGenerationRetiredReport port f true s = _
    refine (m.here hdst hsub _).trans (congrArg Host.Outcome.next ?_)
    simp only [m.job_took]
    rw [if_neg hgen, if_neg hcount]
  · exact (((s.only_took port f).mono _ (by decide)).trans ((State.only_modJob ..).mono _ (by decide))).trans
      (u.only_settle.mono _ (by decide))
  · show u.settle.jobOf ctx = _
    rw [State.jobOf_settle, hu, State.jobOf_modJob_self, m.job_took, Option.map_some]
    simp only [all_reported]

/-! ### DEAL_PUBLICATION (R409) -/

/-- A tile that waits for the number of the rank and layout of key. -/
def Job.awaits (j : Job) (key : Nat) (w : Nat × Tile) : Bool :=
  match j.map[w.1]? with
  | some e => e.rank * 8 + e.remLayout = key
  | none => false

/-- The number a rank last published for a layout is noted. -/
def Job.noteDeal (j : Job) (key deal : Nat) : Job := { j with published := tset 0 j.published key deal }

/-- Where no tile waits for a publication, the rank's number for its layout is noted. -/
theorem State.JobMessage.deal (m : s.JobMessage port f ctx rank j) (hdst : f.dst = s.fab.chip) (hsub : f.tf 0 7 0 = 7)
    (hwait : j.waitTiles = []) :
    Answers (.dealPublication port f true) s [.fab, .ctxs] (fun t => t.jobOf ctx =
      some (j.noteDeal (rank * 8 + wnat (Frame.words f) 0 % 8) (wnat (Frame.words f) 1 % 65536))) := by
  set key := rank * 8 + wnat (Frame.words f) 0 % 8
  set k := j.noteDeal key (wnat (Frame.words f) 1 % 65536)
  set u := (s.took port f).modJob ctx (fun x => x.noteDeal key (wnat (Frame.words f) 1 % 65536)) with hu
  have hnoted : u.jobOf ctx = some k := by rw [hu, State.jobOf_modJob_self, m.job_took, Option.map_some]
  have hnone : k.waitTiles = [] := hwait
  have hkind : ¬(f.ty = 0x13 ∧ (f.tf 0 7 0 = 0 ∨ 8 < f.tf 0 7 0)) := by omega
  refine ⟨u.modJob ctx (fun x => { x with waitTiles := x.waitTiles.filter (fun w => !k.awaits key w) }), ?_,
    (((s.only_took port f).mono _ (by decide)).trans ((State.only_modJob ..).mono _ (by decide))).trans
      ((u.only_modJob ..).mono _ (by decide)), ?_⟩
  · show execDealPublication port f true s = _
    rw [execDealPublication, if_neg hkind]
    refine (m.here hdst hsub _).trans (congrArg Host.Outcome.next ?_)
    show (match u.jobOf ctx with
      | none => u
      | some x => (x.waitTiles.filter (x.awaits key)).foldl (fun v (w : Nat × Tile) => v.sendMapped ctx w.1 w.2)
          (u.modJob ctx (fun y => { y with waitTiles := y.waitTiles.filter (fun w => !x.awaits key w) }))) = _
    rw [hnoted]
    simp only [hnone, List.filter_nil, List.foldl_nil]
  · show (u.modJob ctx _).jobOf ctx = _
    rw [State.jobOf_modJob_self, hnoted, Option.map_some]
    simp only [hnone, List.filter_nil]
    rw [← hnone]

/-! ### Broadcast loads (R377, R378) -/

/-- A piece request joins the job's, once: by rank, object name and shard. -/
def Job.noteRequest (j : Job) (r : Nat × Nat × Nat) : Job := { j with loadReqs := j.loadReqs.filter (· ≠ r) ++ [r] }

/-- A done notice joins the job's, once: by rank and object name. -/
def Job.noteDone (j : Job) (d : Nat × Nat) : Job := { j with dones := j.dones.filter (· ≠ d) ++ [d] }

theorem State.JobMessage.pieceRequest (m : s.JobMessage port f ctx rank j) (hdst : f.dst = s.fab.chip) (hsub : f.tf 0 7 0 = 8)
    (hkind : loadKind f = 0) : Answers (.pieceRequest port f true) s [.fab, .ctxs] (fun t => t.jobOf ctx =
      some (j.noteRequest (rank, loadMsgName (Frame.words f), wnat (Frame.words f) 3))) := by
  have hother : ¬(loadKind f = 1 ∨ loadKind f = 2) := by omega
  refine m.answers_modJob (fun x => x.noteRequest (rank, loadMsgName (Frame.words f), wnat (Frame.words f) 3)) ?_
  show execPieceRequest port f true s = _
  rw [execPieceRequest, if_neg hother]
  exact (m.here hdst hsub _).trans (congrArg Host.Outcome.next (if_neg (not_not.2 hkind)))

theorem State.JobMessage.doneNotice (m : s.JobMessage port f ctx rank j) (hdst : f.dst = s.fab.chip) (hsub : f.tf 0 7 0 = 8)
    (hkind : loadKind f = 2) : Answers (.doneNotice port f true) s [.fab, .ctxs] (fun t => t.jobOf ctx =
      some (j.noteDone (rank, loadMsgName (Frame.words f)))) := by
  refine m.answers_modJob (fun x => x.noteDone (rank, loadMsgName (Frame.words f))) ?_
  show execDoneNotice port f true s = _
  rw [execDoneNotice, if_neg (not_not.2 hkind)]
  exact m.here hdst hsub _

/-- What the first message of an announcement leaves: the object's name and KIND, how many pieces it has, and those the message carries. -/
def announcedBy (ws : List Word) : Announce :=
  { name := loadMsgName ws, kind := fld (word ws 2) 1 1, total := wnat ws 3, pieces := readPieces ((ws.length - 5) / 5) (ws.drop 5) }

/-- Without a command of a broadcast load at work here, the reader's announcement is kept. -/
theorem State.JobMessage.readerStart (m : s.JobMessage port f ctx rank j) (hdst : f.dst = s.fab.chip) (hsub : f.tf 0 7 0 = 8)
    (hkind : loadKind f = 1) (hfirst : wnat (Frame.words f) 4 = 0) (hnone : ∀ x ∈ s.allCmds, x.2.2.op ≠ 0x62) :
    Answers (.readerStart port f true) s [.fab, .ctxs] (fun t =>
      t.jobOf ctx = some { j with announced := announcedBy (Frame.words f) }) := by
  refine m.answers_modJob (fun x => { x with announced := announcedBy (Frame.words f) }) ?_
  have hidle : s.allCmds.filter (fun x => x.2.2.isRunning && x.2.2.op = 0x62 && x.2.2.ctx = ctx) = [] := by
    rw [List.filter_eq_nil_iff]
    intro x hx
    simp [hnone x hx]
  have hcmds : ∀ g, ((s.took port f).modJob ctx g).allCmds = s.allCmds := fun _ => by
    rw [State.allCmds, State.modJob_cp, State.took_cp, State.allCmds]
  show execReaderStart port f true s = _
  rw [execReaderStart, if_neg (not_not.2 hkind)]
  refine (m.here hdst hsub _).trans (congrArg Host.Outcome.next ?_)
  simp only [hfirst, if_true, State.jobOf_modJob_self, m.job_took, Option.map_some, hcmds, hidle, List.foldl_nil, List.nil_append]
  rfl

end

end Sys2Proof.Machine
end

section
/-! Step messages (R338): outcomes, far rows, ready replies and the commit message are taken by the running step that waits for them,
and kept where none does. -/
namespace Sys2Proof.Machine

/-! ### The step a message concerns -/

/-- A SPAN step of the context is at work on the command, or has finished and not yet committed. -/
structure Cmd.SpanStep (c : Cmd) (ctx : Nat) (st : StepRun) : Prop where
  busy : c.isRunning = true ∨ c.isFinished = true
  op   : c.op = 0x42
  ctx  : c.ctx = ctx
  work : c.work = .step st
  span : st.span = true

theorem State.stepFor_eq_none {s : State} {ctx : Nat} {want : StepRun → Bool} :
    s.stepFor ctx want = none ↔ ∀ x ∈ s.allCmds, ∀ st, x.2.2.SpanStep ctx st → want st = false := by
  unfold State.stepFor
  extract_lets l
  have hnil : l = [] ↔ ∀ x ∈ s.allCmds, ∀ st, x.2.2.SpanStep ctx st → want st = false := by
    rw [List.filterMap_eq_nil_iff]
    refine forall₂_congr fun x _ => ⟨fun h st hst => ?_, fun h => ?_⟩
    · obtain ⟨hbusy, hop, hctx, hwork, hspan⟩ := hst
      rw [if_pos (by simp [hbusy, hop, hctx])] at h
      simpa [hwork, hspan] using h
    · split
      · next hc =>
        simp only [Bool.and_eq_true, Bool.or_eq_true, decide_eq_true_eq] at hc
        obtain ⟨⟨hbusy, hop⟩, hctx⟩ := hc
        split
        · next st hwork =>
          refine if_neg fun hw => ?_
          obtain ⟨hspan, hwant⟩ := Bool.and_eq_true_iff.1 hw
          rw [h st ⟨hbusy, hop, hctx, hwork, hspan⟩] at hwant
          cases hwant
        · rfl
      · rfl
  refine Iff.trans ?_ hnil
  clear_value l
  cases l <;> simp

/-- Without a SPAN step of the context at work none waits for anything. -/
theorem State.stepFor_none_mono {s : State} {ctx : Nat} (want : StepRun → Bool) (h : s.stepFor ctx (fun _ => true) = none) :
    s.stepFor ctx want = none :=
  State.stepFor_eq_none.2 fun x hx st hst => absurd (State.stepFor_eq_none.1 h x hx st hst) (by decide)

theorem State.stepFor_congr {s t : State} (h : t.cp = s.cp) (ctx : Nat) (want : StepRun → Bool) :
    t.stepFor ctx want = s.stepFor ctx want := by
  simp only [State.stepFor, State.allCmds, h]

/-! ### The run of a step -/

theorem State.stepOf_congr {s t : State} {f q n : Nat} (h : t.cmdOf f q n = s.cmdOf f q n) : t.stepOf f q n = s.stepOf f q n := by
  rw [State.stepOf, State.stepOf, h]

theorem State.stepOf_cp {s t : State} (h : t.cp = s.cp) (f q n : Nat) : t.stepOf f q n = s.stepOf f q n :=
  State.stepOf_congr (State.cmdOf_cp t s f q n h)

theorem State.stepOf_of_cmd {s : State} {f q n : Nat} {c : Cmd} {st : StepRun} (h : s.cmdOf f q n = some c) (hw : c.work = .step st) :
    s.stepOf f q n = some st := by
  simp only [State.stepOf, h, hw]

theorem State.only_setStep (s : State) (f q n : Nat) (st : StepRun) : s.Only [.cp] (s.setStep f q n st) := s.only_modCmd f q n _

theorem State.stepOf_setStep {s : State} {f q n : Nat} {c : Cmd} (h : s.cmdOf f q n = some c) (st : StepRun) :
    (s.setStep f q n st).stepOf f q n = some st := by
  have hc : (s.setStep f q n st).cmdOf f q n = some { c with work := .step st } := by
    rw [State.setStep, State.cmdOf_modCmd_self _ _ _ _ _ (by exact fun _ => rfl), h]; rfl
  exact State.stepOf_of_cmd hc rfl

/-! ### Polling -/

theorem State.pollSteps_idle {s : State} {ctx : Nat} {j : Job} (hj : s.jobOf ctx = some j) (hm : j.stepMsgs = []) (n : Nat) :
    State.pollSteps ctx n s = s := by
  cases n with
  | zero => rfl
  | succ n => simp only [State.pollSteps, hj, hm, List.findSome?_nil]

/-- A message joins those of the context's job. -/
def State.keepMsg (s : State) (ctx : Nat) (msg : Nat × Nat × List Word) : State :=
  s.modJob ctx (fun x => { x with stepMsgs := x.stepMsgs ++ [msg] })

@[simp] theorem State.keepMsg_cp (s : State) (ctx : Nat) (msg : Nat × Nat × List Word) : (s.keepMsg ctx msg).cp = s.cp := s.modJob_cp ctx _

theorem State.jobOf_keepMsg {s : State} {ctx : Nat} {j : Job} (hj : s.jobOf ctx = some j) (hm : j.stepMsgs = [])
    (msg : Nat × Nat × List Word) : (s.keepMsg ctx msg).jobOf ctx = some { j with stepMsgs := [msg] } := by
  rw [State.keepMsg, State.jobOf_modJob_self, hj, Option.map_some, hm, List.nil_append]

/-- A message no step waits for is kept. -/
theorem State.stepMsg_kept {s : State} {ctx sub rank : Nat} {ws : List Word} {j : Job} (hj : s.jobOf ctx = some j) (hm : j.stepMsgs = [])
    (hnone : (s.keepMsg ctx (sub, rank, ws)).takeStepMsg ctx { j with stepMsgs := [(sub, rank, ws)] } (sub, rank, ws) = none) :
    s.stepMsg ctx sub rank ws = s.keepMsg ctx (sub, rank, ws) := by
  have hk := State.jobOf_keepMsg hj hm (sub, rank, ws)
  rw [State.keepMsg] at hk hnone
  simp only [State.stepMsg, hk, List.length_singleton, State.pollSteps, List.findSome?_cons, List.findSome?_nil, hnone]
  rfl

/-- A message that a step takes, leaving no other, is all that is taken up. -/
theorem State.stepMsg_taken {s t : State} {ctx sub rank : Nat} {ws : List Word} {j k : Job} (hj : s.jobOf ctx = some j)
    (hm : j.stepMsgs = [])
    (htake : (s.keepMsg ctx (sub, rank, ws)).takeStepMsg ctx { j with stepMsgs := [(sub, rank, ws)] } (sub, rank, ws) = some t)
    (hk : t.jobOf ctx = some k) (hleft : k.stepMsgs = []) : s.stepMsg ctx sub rank ws = t := by
  have hkept := State.jobOf_keepMsg hj hm (sub, rank, ws)
  rw [State.keepMsg] at hkept htake
  simp only [State.stepMsg, hkept, List.length_singleton, State.pollSteps, List.findSome?_cons, htake, hk, hleft, List.findSome?_nil]

/-! ### What a taken message leaves -/

/-- The step's run after the message, and the message gone from the job's. -/
def State.takeMsg (s : State) (ctx f q n : Nat) (msg : Nat × Nat × List Word) (st : StepRun) : State :=
  (s.setStep f q n st).modJob ctx (fun x => { x with stepMsgs := x.stepMsgs.erase msg })

theorem State.only_takeMsg (s : State) (ctx f q n : Nat) (msg : Nat × Nat × List Word) (st : StepRun) :
    s.Only [.ctxs, .cp] (s.takeMsg ctx f q n msg st) :=
  ((s.only_setStep ..).mono _ (by decide)).trans ((State.only_modJob ..).mono _ (by decide))

theorem State.jobOf_takeMsg {s : State} {ctx : Nat} {j : Job} {msg : Nat × Nat × List Word}
    (hj : s.jobOf ctx = some { j with stepMsgs := [msg] }) (hm : j.stepMsgs = []) (f q n : Nat) (st : StepRun) :
    (s.takeMsg ctx f q n msg st).jobOf ctx = some j := by
  have hset : (s.setStep f q n st).jobOf ctx = some { j with stepMsgs := [msg] } := hj
  rw [State.takeMsg, State.jobOf_modJob_self, hset, Option.map_some, List.erase_cons_head, ← hm]

theorem State.stepOf_takeMsg {s : State} {f q n : Nat} {c : Cmd} (h : s.cmdOf f q n = some c) (ctx : Nat) (msg : Nat × Nat × List Word)
    (st : StepRun) : (s.takeMsg ctx f q n msg st).stepOf f q n = some st :=
  (State.stepOf_cp rfl f q n).trans (State.stepOf_setStep h st)

/-- Only rank 0 sends the commit, and only with every other member's ready reply (R338 order 4). -/
theorem State.sendCommit_waits {s : State} {f q : Nat} {c : Cmd} {j : Job} {st : StepRun} (h : s.stepOf f q c.n = some st)
    (hw : j.rank ≠ 0 ∨ ∃ p ∈ j.others, p.1 ∉ st.readies) : s.sendCommit f q c j = s := by
  have hcond : ¬(j.rank = 0 ∧ st.isReady = true ∧ (!st.committed) = true ∧
      j.others.all (fun p => st.readies.contains p.1) = true ∧ s.farIn c.ctx st = true) := by
    rintro ⟨hrank, -, -, hall, -⟩
    rcases hw with hne | ⟨p, hp, hnot⟩
    · exact hne hrank
    · exact hnot (List.contains_iff_mem.1 (List.all_eq_true.1 hall p hp))
  simp only [State.sendCommit, h]
  exact if_neg hcond

section
variable {s : State} {port : Nat} {f : Frame} {ctx rank : Nat} {j : Job}

theorem State.keepMsg_took_cp (s : State) (port : Nat) (f : Frame) (ctx : Nat) (msg : Nat × Nat × List Word) :
    ((s.took port f).keepMsg ctx msg).cp = s.cp := (State.keepMsg_cp ..).trans (s.took_cp port f)

/-- The three rows of step messages, where the sender may send the message. -/
theorem State.JobMessage.stepRow (m : s.JobMessage port f ctx rank j) (hdst : f.dst = s.fab.chip) {sub : Nat} {row : Instr}
    (hrow : (sub, row) ∈ [(3, Instr.stepOutcomes port f true), (4, .stepReady port f true), (5, .stepCommitMessage port f true)])
    (hsub : f.tf 0 7 0 = sub) (hfrom : sub = 4 ∨ rank = 0 ∨ (sub = 3 ∧ wnat (Frame.words f) 1 = 0)) :
    exec row s = .next ((s.took port f).stepMsg ctx sub rank (Frame.words f)) := by
  simp only [List.mem_cons, Prod.mk.injEq, List.not_mem_nil, or_false] at hrow
  rcases hrow with ⟨rfl, rfl⟩ | ⟨rfl, rfl⟩ | ⟨rfl, rfl⟩
  · show execStepOutcomes port f true s = _
    exact (m.here hdst hsub _).trans (congrArg Host.Outcome.next (if_pos (by omega)))
  · show execStepReady port f true s = _
    exact m.here hdst hsub _
  · show execStepCommitMessage port f true s = _
    exact (m.here hdst hsub _).trans (congrArg Host.Outcome.next (if_pos (by omega)))

/-- Without a SPAN step of the context at work the message is kept. -/
theorem State.JobMessage.step_kept (m : s.JobMessage port f ctx rank j) {row : Instr} {sub : Nat}
    (he : exec row s = .next ((s.took port f).stepMsg ctx sub rank (Frame.words f))) (hm : j.stepMsgs = [])
    (hnone : s.stepFor ctx (fun _ => true) = none) :
    Answers row s [.fab, .ctxs] (fun t => t.jobOf ctx = some { j with stepMsgs := [(sub, rank, Frame.words f)] }) := by
  have hidle : ∀ want, ((s.took port f).keepMsg ctx (sub, rank, Frame.words f)).stepFor ctx want = none := fun want =>
    (State.stepFor_congr (s.keepMsg_took_cp ..) ctx want).trans (State.stepFor_none_mono want hnone)
  have hkept := State.stepMsg_kept m.job_took hm (sub := sub) (rank := rank) (ws := Frame.words f) (by
    unfold State.takeStepMsg
    simp only [hidle, Option.map_none, ite_self]
    split <;> rfl)
  rw [hkept] at he
  exact ⟨_, he, ((s.only_took port f).mono _ (by decide)).trans ((State.only_modJob ..).mono _ (by decide)),
    State.jobOf_keepMsg m.job_took hm _⟩

/-- A step that takes the message, and then has nothing to send, runs on as st'. -/
theorem State.JobMessage.step_taken (m : s.JobMessage port f ctx rank j) {row : Instr} {sub fn q : Nat} {c : Cmd} {st' : StepRun}
    (he : exec row s = .next ((s.took port f).stepMsg ctx sub rank (Frame.words f))) (hm : j.stepMsgs = [])
    (hc : s.cmdOf fn q c.n = some c)
    (htake : ∀ u : State, u.cp = s.cp →
      (u.takeMsg ctx fn q c.n (sub, rank, Frame.words f) st').stepOf fn q c.n = some st' →
      u.takeStepMsg ctx { j with stepMsgs := [(sub, rank, Frame.words f)] } (sub, rank, Frame.words f) =
        some (u.takeMsg ctx fn q c.n (sub, rank, Frame.words f) st')) :
    Answers row s [.fab, .ctxs, .cp] (fun t => t.jobOf ctx = some j ∧ t.stepOf fn q c.n = some st') := by
  set u := (s.took port f).keepMsg ctx (sub, rank, Frame.words f)
  have hju : u.jobOf ctx = some { j with stepMsgs := [(sub, rank, Frame.words f)] } := State.jobOf_keepMsg m.job_took hm _
  have hcu : u.cmdOf fn q c.n = some c := (State.cmdOf_cp u s _ _ _ (s.keepMsg_took_cp ..)).trans hc
  have hstep := State.stepOf_takeMsg hcu ctx (sub, rank, Frame.words f) st'
  have hjob := State.jobOf_takeMsg hju hm fn q c.n st'
  rw [State.stepMsg_taken m.job_took hm (htake u (s.keepMsg_took_cp ..) hstep) hjob hm] at he
  exact ⟨_, he, (((s.only_took port f).mono _ (by decide)).trans ((State.only_modJob ..).mono _ (by decide))).trans
    ((State.only_takeMsg ..).mono _ (by decide)), hjob, hstep⟩

variable {row : Instr} {fn q : Nat} {c : Cmd} {st : StepRun}

/-- The verifier's outcome of an entry (R338 order 2). -/
theorem State.JobMessage.outcome_taken (m : s.JobMessage port f ctx rank j)
    (he : exec row s = .next ((s.took port f).stepMsg ctx 3 rank (Frame.words f))) (hm : j.stepMsgs = [])
    (hc : s.cmdOf fn q c.n = some c) (hcount : wnat (Frame.words f) 1 ≠ 0)
    (hfor : s.stepFor ctx (fun x => !x.outcomesIn) = some (fn, q, c, st)) :
    Answers row s [.fab, .ctxs, .cp] (fun t => t.jobOf ctx = some j ∧ t.stepOf fn q c.n = some { st with
      entries := listMod st.entries (wnat (Frame.words f) 0) (fun e => readOutcome e (Frame.words f)),
      outcomesIn := decide (wnat (Frame.words f) 0 + 1 = wnat (Frame.words f) 1) }) := by
  refine m.step_taken he hm hc fun u hu _ => ?_
  have hfor' := (State.stepFor_congr hu ctx _).trans hfor
  simp only [State.takeStepMsg, if_neg hcount, hfor', Option.map_some]
  rfl

/-- A row of accepted KV, at a member that is not the verifier (R309; log entry 12). -/
theorem State.JobMessage.farRow_taken (m : s.JobMessage port f ctx rank j)
    (he : exec row s = .next ((s.took port f).stepMsg ctx 3 rank (Frame.words f))) (hm : j.stepMsgs = [])
    (hc : s.cmdOf fn q c.n = some c) (hcount : wnat (Frame.words f) 1 = 0) (hrank : j.rank ≠ 0)
    (hfor : s.stepFor ctx (fun x => x.outcomesIn && !x.committed) = some (fn, q, c, st)) :
    Answers row s [.fab, .ctxs, .cp] (fun t => t.jobOf ctx = some j ∧ t.stepOf fn q c.n = some { st with
      entries := listMod st.entries (wnat (Frame.words f) 0) (fun e =>
        if e.outcome = 0 then { e with kv := e.kv ++ [readFar (Frame.words f)] } else e) }) := by
  refine m.step_taken he hm hc fun u hu hstep => ?_
  have hfor' := (State.stepFor_congr hu ctx _).trans hfor
  simp only [State.takeStepMsg, if_pos hcount, hfor', Option.map_some]
  exact congrArg some (State.sendCommit_waits hstep (.inl hrank))

/-- A ready reply, at the verifier, which waits for another's still (R338 order 3). -/
theorem State.JobMessage.ready_taken (m : s.JobMessage port f ctx rank j)
    (he : exec row s = .next ((s.took port f).stepMsg ctx 4 rank (Frame.words f))) (hm : j.stepMsgs = [])
    (hc : s.cmdOf fn q c.n = some c)
    (hfor : s.stepFor ctx (fun x => x.isReady && !x.committed && !x.readies.contains rank) = some (fn, q, c, st))
    (hwait : ∃ p ∈ j.others, p.1 ∉ st.readies ++ [rank]) :
    Answers row s [.fab, .ctxs, .cp] (fun t => t.jobOf ctx = some j ∧ t.stepOf fn q c.n = some { st with
      entries := mergeOutcomes st.entries (wordBytes (Frame.words f)), readies := st.readies ++ [rank] }) := by
  refine m.step_taken he hm hc fun u hu hstep => ?_
  have hfor' := (State.stepFor_congr hu ctx _).trans hfor
  simp only [State.takeStepMsg, hfor', Option.map_some]
  exact congrArg some (State.sendCommit_waits hstep (.inr hwait))

/-- The verifier's commit message (R338 order 4). -/
theorem State.JobMessage.commit_taken (m : s.JobMessage port f ctx rank j)
    (he : exec row s = .next ((s.took port f).stepMsg ctx 5 rank (Frame.words f))) (hm : j.stepMsgs = [])
    (hc : s.cmdOf fn q c.n = some c) (hfor : s.stepFor ctx (fun x => x.isReady && !x.committed) = some (fn, q, c, st)) :
    Answers row s [.fab, .ctxs, .cp] (fun t => t.jobOf ctx = some j ∧ t.stepOf fn q c.n = some { st with
      entries := mergeOutcomes st.entries (wordBytes (Frame.words f)), committed := true }) := by
  refine m.step_taken he hm hc fun u hu _ => ?_
  have hfor' := (State.stepFor_congr hu ctx _).trans hfor
  simp only [State.takeStepMsg, hfor', Option.map_some]
  rfl

end

end Sys2Proof.Machine
end

section
/-! A member tells that it has dropped the entry of a session (R341): the others drop theirs and acknowledge, and the acknowledgements are
noted. -/
namespace Sys2Proof.Machine

/-! ### Commands changed all at once -/

/-- A table whose every listed value is changed, where an unlisted value stays the default. -/
theorem tget_map {α : Type} (d : α) (t : Tbl α) (h : Nat → α → α) (hd : ∀ k, h k d = d) (k : Nat) :
    tget d (t.map (fun p => (p.1, h p.1 p.2))) k = h k (tget d t k) := by
  induction t with
  | nil => exact (hd k).symm
  | cons p t ih =>
    obtain ⟨i, v⟩ := p
    by_cases hi : i = k
    · simp [tget, hi]
    · simpa [tget, hi] using ih

/-- The commands of a queue's window that meet a condition are changed. -/
def Queue.mapWindow (p : Cmd → Bool) (g : Cmd → Cmd) (x : Queue) : Queue :=
  { x with window := x.window.map (fun c => if p c then g c else c) }

/-- Those of every queue of a function. -/
def Fn.mapWindows (p : Nat → Cmd → Bool) (g : Cmd → Cmd) (x : Fn) : Fn :=
  { x with queues := x.queues.map (fun b => (b.1, b.2.mapWindow (p b.1) g)) }

theorem State.queueOf_mapCmds (s : State) (p : Nat → Nat → Cmd → Bool) (g : Cmd → Cmd) (f q : Nat) :
    (s.mapCmds p g).queueOf f q = (s.queueOf f q).mapWindow (p f q) g := by
  have hfn : (s.mapCmds p g).fnOf f = (s.fnOf f).mapWindows (p f) g :=
    tget_map ({} : Fn) s.cp.fns (fun i x => x.mapWindows (p i) g) (fun _ => rfl) f
  rw [State.queueOf, hfn]
  exact tget_map ({} : Queue) (s.fnOf f).queues (fun i x => x.mapWindow (p f i) g) (fun _ => rfl) q

theorem State.cmdOf_mapCmds (s : State) (p : Nat → Nat → Cmd → Bool) (g : Cmd → Cmd) (hg : ∀ c, (g c).n = c.n) (f q n : Nat) :
    (s.mapCmds p g).cmdOf f q n = (s.cmdOf f q n).map (fun c => if p f q c then g c else c) := by
  have hn : (fun c : Cmd => decide (c.n = n)) ∘ (fun c => if p f q c then g c else c) = fun c => decide (c.n = n) := by
    funext c
    by_cases hp : p f q c = true <;> simp [hp, hg]
  rw [State.cmdOf, State.queueOf_mapCmds, Queue.mapWindow, List.find?_map, hn, State.cmdOf]

/-! ### What giving an entry up leaves of the steps -/

/-- Changing no command's work leaves every step's run. -/
theorem State.stepOf_modCmd_work (s : State) (f q n : Nat) (g : Cmd → Cmd) (hn : ∀ c, (g c).n = c.n) (hw : ∀ c, (g c).work = c.work)
    (i j m : Nat) : (s.modCmd f q n g).stepOf i j m = s.stepOf i j m := by
  by_cases h : i = f ∧ j = q ∧ m = n
  · obtain ⟨rfl, rfl, rfl⟩ := h
    rw [State.stepOf, State.stepOf, State.cmdOf_modCmd_self _ _ _ _ _ hn]
    cases s.cmdOf i j m with
    | none => rfl
    | some c => simp only [Option.map_some, hw]
  · exact State.stepOf_congr (State.cmdOf_modCmd_ne _ _ _ _ _ _ _ _ hn h)

theorem State.stepOf_dropSlot (s : State) (f q n : Nat) (g : KvGeom) (slot i j m : Nat) :
    (s.dropSlot f q n g slot).stepOf i j m = s.stepOf i j m := by
  unfold State.dropSlot
  extract_lets bs
  split
  · rw [State.stepOf_modCmd_work _ _ _ _ _ (by exact fun _ => rfl) (by exact fun _ => rfl)]
    exact State.stepOf_cp (State.foldl_cp _ _ (fun u p => u.dropFrame_cp _)) i j m
  · rfl

theorem State.stepOf_dropTails (s : State) (f q : Nat) (c : Cmd) (es : List StepEntry) (i j m : Nat) :
    (s.dropTails f q c es).stepOf i j m = s.stepOf i j m := by
  unfold State.dropTails
  split
  · rfl
  · next g hg =>
    clear hg
    dsimp only
    generalize List.filter _ _ = l
    induction l generalizing s with
    | nil => rfl
    | cons k l ih => exact (ih _).trans (s.stepOf_dropSlot f q c.n g k i j m)

theorem State.only_freeCand (s : State) (ctx num : Nat) : s.Only [.kv, .tiers] (s.freeCand ctx num) := by
  unfold State.freeCand
  extract_lets key r
  split
  · next g _ =>
    split
    · exact State.Only.refl _ _
    · extract_lets bs s1
      have h1 : s.Only [.kv, .tiers] s1 := State.Only.foldl _ _ (State.Only.refl _ _) (fun u b => by
        split
        · exact (u.only_unmapEntry _).mono _ (by decide)
        · exact State.Only.refl _ _)
      obtain ⟨mem, hmem⟩ := State.rawWrite_mem { s1 with kv := { s1.kv with recs := tset {} s1.kv.recs key {} } } ctx
        (g.pool + num * 320) (List.replicate 320 0)
      rw [hmem]
      exact (h1.trans ((s1.only_set_kv _).mono _ (by decide))).trans ((State.only_set_tiers _ _).mono _ (by decide))
  · exact State.Only.refl _ _

theorem State.only_dropSlot (s : State) (f q n : Nat) (g : KvGeom) (slot : Nat) : s.Only [.tiers, .cp] (s.dropSlot f q n g slot) := by
  unfold State.dropSlot
  extract_lets bs
  split
  · exact (State.Only.foldl _ _ (State.Only.refl _ _) (fun u p => (u.only_dropFrame _).mono _ (by decide))).trans
      ((State.only_modCmd ..).mono _ (by decide))
  · exact State.Only.refl _ _

theorem State.only_dropTails (s : State) (f q : Nat) (c : Cmd) (es : List StepEntry) : s.Only [.tiers, .cp] (s.dropTails f q c es) := by
  unfold State.dropTails
  split
  · exact State.Only.refl _ _
  · exact State.Only.foldl _ _ (State.Only.refl _ _) (fun u k => u.only_dropSlot ..)

/-- An OK entry of the session becomes CANCELLED and gives its candidate record up (R341). -/
def StepEntry.given (k : Nat) (e : StepEntry) : StepEntry :=
  if e.session = k ∧ e.outcome = 0 then { e.drop 2 with candRec := noRec } else e

/-- Where its outcomes are still its own, a step gives the entry up: its candidate record first, then the entry and the tails. -/
theorem State.giveUp_gives {s : State} {f q k : Nat} {c : Cmd} {st : StepRun} (hc : st.committed = false)
    (hr : st.isReady = false ∨ ∃ j, s.jobOf c.ctx = some j ∧ j.rank = 0) :
    s.giveUp f q c st k = (((st.entries.filter (fun e => e.session = k && e.outcome = 0)).foldl
      (fun t e => t.freeCand c.ctx e.candRec) s).setStep f q c.n { st with entries := st.entries.map (StepEntry.given k) }).dropTails f q c
        (st.entries.map (StepEntry.given k)) := by
  unfold State.giveUp
  extract_lets first es s1
  have hown : (st.span && (st.committed || (st.isReady && !first))) = false := by
    rcases hr with hr | ⟨j, hj, hrank⟩
    · simp [hc, hr]
    · simp [first, hj, hrank, hc]
  rw [hown]
  rfl

theorem State.cmdOf_foldl_freeCand (s : State) (ctx : Nat) (l : List StepEntry) (i j m : Nat) :
    (l.foldl (fun t e => t.freeCand ctx e.candRec) s).cmdOf i j m = s.cmdOf i j m :=
  State.cmdOf_cp _ _ _ _ _ (State.foldl_cp _ _ (fun u _ => u.freeCand_cp ..))

theorem State.only_giveUp (s : State) (f q : Nat) (c : Cmd) (st : StepRun) (k : Nat) : s.Only [.kv, .tiers, .cp] (s.giveUp f q c st k) := by
  unfold State.giveUp
  extract_lets first es s1
  split
  · exact State.Only.refl _ _
  · have h1 : s.Only [.kv, .tiers, .cp] s1 :=
      State.Only.foldl _ _ (State.Only.refl _ _) (fun u e => (u.only_freeCand ..).mono _ (by decide))
    exact (h1.trans ((State.only_modCmd ..).mono _ (by decide))).trans ((State.only_dropTails ..).mono _ (by decide))

/-- The other commands' steps run on as they were. -/
theorem State.stepOf_giveUp_ne (s : State) {f q : Nat} {c : Cmd} (st : StepRun) (k : Nat) {i j m : Nat}
    (hne : ¬(i = f ∧ j = q ∧ m = c.n)) : (s.giveUp f q c st k).stepOf i j m = s.stepOf i j m := by
  unfold State.giveUp
  extract_lets first es s1
  split
  · rfl
  · rw [State.stepOf_dropTails]
    exact State.stepOf_congr ((State.cmdOf_modCmd_ne _ _ _ _ _ _ _ _ (by exact fun _ => rfl) hne).trans (State.cmdOf_foldl_freeCand ..))

/-! ### The members' steps -/

/-- What a member's step of the context does about the entry of a session it is told of. -/
def State.dropOne (k : Nat) (t : State) (x : Nat × Nat × Cmd) : State :=
  match x.2.2.work with
  | .step st => if st.span then t.giveUp x.1 x.2.1 x.2.2 st k else t
  | _ => t

theorem State.dropMember_eq (s : State) (ctx k : Nat) :
    s.dropMember ctx k = (s.allCmds.filter (fun x => x.2.2.stepWith ctx k)).foldl (State.dropOne k) s := rfl

theorem State.only_dropOne (k : Nat) (t : State) (x : Nat × Nat × Cmd) : t.Only [.kv, .tiers, .cp] (t.dropOne k x) := by
  unfold State.dropOne
  split
  · split
    · exact t.only_giveUp ..
    · exact State.Only.refl _ _
  · exact State.Only.refl _ _

theorem State.jobOf_dropOne (k : Nat) (t : State) (x : Nat × Nat × Cmd) (ctx : Nat) : (t.dropOne k x).jobOf ctx = t.jobOf ctx :=
  State.jobOf_of_ctxs ((t.only_dropOne k x).ctxs.resolve_left (by decide)) ctx

theorem Cmd.SpanStep.of_stepWith {c : Cmd} {ctx k : Nat} {st : StepRun} (h : c.stepWith ctx k = true) (hw : c.work = .step st)
    (hspan : st.span = true) : c.SpanStep ctx st := by
  simp only [Cmd.stepWith, hw, Bool.and_eq_true, Bool.or_eq_true, decide_eq_true_eq] at h
  obtain ⟨⟨hbusy, hctx⟩, ⟨hop, -⟩, -⟩ := h
  exact ⟨hbusy.imp_right And.left, hop, hctx, hw, hspan⟩

/-- Where no SPAN step of the context is at work, there is no entry to drop. -/
theorem State.dropMember_idle {s : State} {ctx : Nat} (k : Nat) (h : s.stepFor ctx (fun _ => true) = none) : s.dropMember ctx k = s := by
  have hnone : ∀ x ∈ s.allCmds.filter (fun x => x.2.2.stepWith ctx k), ∀ t : State, t.dropOne k x = t := by
    intro x hx t
    obtain ⟨hmem, hwith⟩ := List.mem_filter.1 hx
    unfold State.dropOne
    split
    · next st hw =>
      refine if_neg fun hspan => ?_
      exact absurd (State.stepFor_eq_none.1 h x hmem st (.of_stepWith hwith hw hspan)) (by decide)
    · rfl
  rw [State.dropMember_eq]
  exact List.foldlRecOn (motive := fun t => t = s) _ _ rfl (fun t ht x hx => (hnone x hx t).trans ht)

section
variable {s : State} {fn q n : Nat} {c : Cmd} {st : StepRun} {ctx k : Nat} {j : Job}

/-- A SPAN step whose outcomes are its own to change runs at this place, the only command there. -/
structure State.MayDrop (s : State) (fn q n : Nat) (c : Cmd) (st : StepRun) (ctx : Nat) (j : Job) : Prop where
  cmd   : s.cmdOf fn q n = some c
  alone : ∀ x ∈ s.allCmds, x.1 = fn → x.2.1 = q → x.2.2.n = n → x.2.2 = c
  mem   : (fn, q, c) ∈ s.allCmds
  phase : c.phase = .running
  op    : c.op = 0x42
  ctx   : c.ctx = ctx
  work  : c.work = .step st
  span  : st.span = true
  early : st.committed = false
  own   : st.isReady = false ∨ j.rank = 0

/-- The step at the place gives its entry up. -/
theorem State.MayDrop.stepOf_here (h : s.MayDrop fn q n c st ctx j) {t : State} (hj : t.jobOf ctx = some j)
    {r : StepRun} (hr : t.stepOf fn q n = some r) :
    (t.dropOne k (fn, q, c)).stepOf fn q n = some { st with entries := st.entries.map (StepEntry.given k) } := by
  obtain rfl := State.cmdOf_n h.cmd
  obtain rfl := h.ctx
  obtain ⟨d, hd⟩ : ∃ d, t.cmdOf fn q c.n = some d := by
    unfold State.stepOf at hr
    split at hr
    · next d hd => exact ⟨d, hd⟩
    · cases hr
  have hgive : t.dropOne k (fn, q, c) = t.giveUp fn q c st k := by
    simp only [State.dropOne, h.work, h.span, if_true]
  rw [hgive, State.giveUp_gives h.early (h.own.imp_right fun hrank => ⟨j, hj, hrank⟩), State.stepOf_dropTails]
  exact State.stepOf_setStep ((State.cmdOf_foldl_freeCand ..).trans hd) _

/-- Every other command's step leaves it alone. -/
theorem State.stepOf_dropOne_ne (t : State) (k : Nat) {x : Nat × Nat × Cmd} (hne : ¬(fn = x.1 ∧ q = x.2.1 ∧ n = x.2.2.n)) :
    (t.dropOne k x).stepOf fn q n = t.stepOf fn q n := by
  unfold State.dropOne
  split
  · split
    · exact t.stepOf_giveUp_ne _ k hne
    · rfl
  · rfl

/-- Along a list of commands the step runs on as it did, or with its entry given up; the second in the end where it is in the list. -/
theorem State.MayDrop.stepOf_foldl (h : s.MayDrop fn q n c st ctx j) (l : List (Nat × Nat × Cmd)) (hl : ∀ x ∈ l, x ∈ s.allCmds)
    {t : State} (hj : t.jobOf ctx = some j) {r : StepRun} (hr : t.stepOf fn q n = some r)
    (hend : (fn, q, c) ∈ l ∨ r = { st with entries := st.entries.map (StepEntry.given k) }) :
    (l.foldl (State.dropOne k) t).stepOf fn q n = some { st with entries := st.entries.map (StepEntry.given k) } := by
  induction l generalizing t r with
  | nil => rw [List.foldl_nil, hr, hend.resolve_left List.not_mem_nil]
  | cons x l ih =>
    have hrest : ∀ y ∈ l, y ∈ s.allCmds := fun y hy => hl y (List.mem_cons_of_mem _ hy)
    have hjob := (t.jobOf_dropOne k x ctx).trans hj
    by_cases hx : fn = x.1 ∧ q = x.2.1 ∧ n = x.2.2.n
    · obtain ⟨hf, hq, hn⟩ := hx
      have hc : x = (fn, q, c) := by
        rw [← h.alone x (hl x (List.mem_cons_self ..)) hf.symm hq.symm hn.symm, hf, hq]
      subst hc
      exact ih hrest hjob (h.stepOf_here hj hr) (.inr rfl)
    · refine ih hrest hjob ((t.stepOf_dropOne_ne k hx).trans hr) (hend.imp_left fun hmem => ?_)
      rcases List.mem_cons.1 hmem with rfl | hmem
      · exact absurd ⟨rfl, rfl, (State.cmdOf_n h.cmd).symm⟩ hx
      · exact hmem

/-- A step with no OK entry of the session has none to give up. -/
theorem State.MayDrop.given_of_not_with (h : s.MayDrop fn q n c st ctx j) (hw : c.stepWith ctx k = false) :
    st.entries.map (StepEntry.given k) = st.entries := by
  have hany : st.entries.any (fun e => e.session = k && e.outcome = 0) = false := by
    simpa [Cmd.stepWith, Cmd.isRunning, h.phase, h.ctx, h.work, h.op, h.early] using hw
  rw [List.any_eq_false] at hany
  refine (List.map_congr_left fun e he => ?_).trans (List.map_id _)
  exact if_neg (by simpa using hany e he)

theorem State.MayDrop.stepOf_dropMember (h : s.MayDrop fn q n c st ctx j) {t : State} (hcp : t.cp = s.cp) (hj : t.jobOf ctx = some j) :
    (t.dropMember ctx k).stepOf fn q n = some { st with entries := st.entries.map (StepEntry.given k) } := by
  have hcmds : t.allCmds = s.allCmds := by simp only [State.allCmds, hcp]
  rw [State.dropMember_eq, hcmds]
  refine h.stepOf_foldl _ (fun x hx => (List.mem_filter.1 hx).1) hj
    ((State.stepOf_cp hcp fn q n).trans (State.stepOf_of_cmd h.cmd h.work)) ?_
  cases hw : c.stepWith ctx k with
  | true => exact .inl (List.mem_filter.2 ⟨h.mem, hw⟩)
  | false => exact .inr (by rw [h.given_of_not_with hw])

end

/-! ### ENTRY_DROPPED -/

/-- A member's acknowledgement is noted on the entries of a session. -/
def Cmd.ackDrop (k rank : Nat) (c : Cmd) : Cmd :=
  match c.work with
  | .step st => { c with work := .step { st with entries := st.entries.map (fun e =>
      if e.session = k then { e with dropAcks := e.dropAcks.erase rank } else e) } }
  | _ => c

theorem Cmd.ackDrop_n (k rank : Nat) (c : Cmd) : (c.ackDrop k rank).n = c.n := by
  unfold Cmd.ackDrop
  split <;> rfl

section
variable {s : State} {port : Nat} {f : Frame} {ctx rank : Nat} {j : Job}

theorem State.JobMessage.entryDropped_row (m : s.JobMessage port f ctx rank j) (hdst : f.dst = s.fab.chip) (hsub : f.tf 0 7 0 = 6) :
    exec (.entryDropped port f true) s = .next (if wnat (Frame.words f) 0 = 0 then
      ((s.took port f).dropMember ctx (wnat (Frame.words f) 1)).jobCtrl ctx (j.chipOf rank) 0x06 (numBytes [1, wnat (Frame.words f) 1])
      else (s.took port f).mapCmds (fun _ _ c => c.op = 0x42 && c.ctx = ctx) (Cmd.ackDrop (wnat (Frame.words f) 1) rank)) := by
  show execEntryDropped port f true s = _
  refine (m.here hdst hsub _).trans (congrArg Host.Outcome.next ?_)
  simp only [m.job_took]
  rfl

/-- This device's step drops its entry of the session. -/
theorem State.JobMessage.entry_drops (m : s.JobMessage port f ctx rank j) (hdst : f.dst = s.fab.chip) (hsub : f.tf 0 7 0 = 6)
    (hdrop : wnat (Frame.words f) 0 = 0) {fn q n : Nat} {c : Cmd} {st : StepRun} (h : s.MayDrop fn q n c st ctx j) :
    ∃ t, exec (.entryDropped port f true) s = .next t ∧ t.stepOf fn q n = some { st with
      entries := st.entries.map (StepEntry.given (wnat (Frame.words f) 1)) } := by
  refine ⟨_, (m.entryDropped_row hdst hsub).trans (congrArg Host.Outcome.next (if_pos hdrop)), ?_⟩
  exact (State.stepOf_cp (State.toChip_cp ..) fn q n).trans (h.stepOf_dropMember rfl m.job_took)

/-- Where no step waits, the drop is acknowledged at once. -/
theorem State.JobMessage.entry_acked (m : s.JobMessage port f ctx rank j) (hdst : f.dst = s.fab.chip) (hsub : f.tf 0 7 0 = 6)
    (hdrop : wnat (Frame.words f) 0 = 0) (hnone : s.stepFor ctx (fun _ => true) = none) :
    ∃ t, exec (.entryDropped port f true) s = .next t ∧
      t = ((s.received port f).oweCredits f).jobCtrl ctx (j.chipOf rank) 0x06 (numBytes [1, wnat (Frame.words f) 1]) := by
  refine ⟨_, (m.entryDropped_row hdst hsub).trans (congrArg Host.Outcome.next (if_pos hdrop)), ?_⟩
  rw [State.dropMember_idle _ ((State.stepFor_congr (s.took_cp port f) ctx _).trans hnone)]
  rfl

/-- An acknowledgement is noted in every step of the context. -/
theorem State.JobMessage.ack_noted (m : s.JobMessage port f ctx rank j) (hdst : f.dst = s.fab.chip) (hsub : f.tf 0 7 0 = 6)
    (hack : wnat (Frame.words f) 0 ≠ 0) :
    Answers (.entryDropped port f true) s [.fab, .cp] (fun t => ∀ fn q n c st, s.cmdOf fn q n = some c → c.op = 0x42 → c.ctx = ctx →
      c.work = .step st → t.stepOf fn q n = some { st with entries := st.entries.map (fun e =>
        if e.session = wnat (Frame.words f) 1 then { e with dropAcks := e.dropAcks.erase rank } else e) }) := by
  refine ⟨_, (m.entryDropped_row hdst hsub).trans (congrArg Host.Outcome.next (if_neg hack)),
    ((s.only_took port f).mono _ (by decide)).trans ((State.only_mapCmds ..).mono _ (by decide)), fun fn q n c st hc hop hctx hw => ?_⟩
  have hcmd : ((s.took port f).mapCmds (fun _ _ c => c.op = 0x42 && c.ctx = ctx) (Cmd.ackDrop (wnat (Frame.words f) 1) rank)).cmdOf fn q n =
      some (c.ackDrop (wnat (Frame.words f) 1) rank) := by
    rw [State.cmdOf_mapCmds _ _ _ (Cmd.ackDrop_n _ _), State.cmdOf_cp _ s _ _ _ (s.took_cp port f), hc, Option.map_some,
      if_pos (by simp [hop, hctx])]
  exact State.stepOf_of_cmd hcmd (by simp only [Cmd.ackDrop, hw])

end

end Sys2Proof.Machine
end

section
/-! The JOB_CTRL rows together: O26. -/
namespace Sys2Proof.Machine

/-- Settles O26, kind by kind. That rank 0 passes on what is meant for another member is log entry 165, and the layout of the messages'
payloads log entry 12. -/
theorem jobMessagesAreTaken : Obligations.JobMessagesAreTaken := by
  unfold Obligations.JobMessagesAreTaken
  intro s port f ctx rank j ws hends hty hsender hjob hws
  subst hws
  have m : s.JobMessage port f ctx rank j := ⟨hends, hty, hsender, hjob⟩
  refine ⟨fun hdst => ⟨fun sub row hrow hsub => m.passedOn hdst hrow hsub,
    fun kind row hrow hsub hkind => m.load_passedOn hdst hrow hsub hkind⟩,
    fun hdst => ⟨m.announce hdst, m.report hdst, ?steps, fun hsub => ⟨?drops, ?acked, m.ack_noted hdst hsub⟩, m.deal hdst,
      fun hsub => ⟨m.pieceRequest hdst hsub, m.doneNotice hdst hsub, ?announced⟩⟩⟩
  case steps =>
    intro sub row hrow hsub hfrom hm
    have he := m.stepRow hdst hrow hsub hfrom
    refine ⟨m.step_kept he hm, fun fn q c st hc => ⟨?_, ?_, ?_, ?_⟩⟩
    · rintro rfl hcount hfor
      exact m.outcome_taken he hm hc hcount hfor
    · rintro rfl hcount hrank hfor
      exact m.farRow_taken he hm hc hcount hrank hfor
    · rintro rfl hfor hwait
      exact m.ready_taken he hm hc hfor hwait
    · rintro rfl hfor
      exact m.commit_taken he hm hc hfor
  case drops =>
    intro fn q n c st hdrop hc halone hmem hp hop hctx hw hspan hopen hown
    exact m.entry_drops hdst hsub hdrop ⟨hc, halone, hmem, hp, hop, hctx, hw, hspan, hopen, hown⟩
  case acked => exact fun hdrop hnone => m.entry_acked hdst hsub hdrop hnone
  case announced =>
    intro hkind hfirst hnone
    obtain ⟨t, he, honly, ht⟩ := m.readerStart hdst hsub hkind hfirst hnone
    exact ⟨t, he, honly, announcedBy (Frame.words f), ht, rfl, rfl, rfl⟩

end Sys2Proof.Machine
end

section
/-! The Expert Router's own tables (R352 to R358): what a change of a routed layer leaves, which groups of the state sending on a routed
circuit touches, and that a selection once made stays as it is. -/
namespace Sys2Proof.Machine

/-! ### A routed layer -/

theorem State.routerOf_modRouter (s : State) (ctx i ctx' k : Nat) (g : RouterLayer → RouterLayer) :
    (s.modRouter ctx i g).routerOf ctx' k = if ctx' * 256 + k = ctx * 256 + i then g (s.routerOf ctx i) else s.routerOf ctx' k :=
  tget_tmod ..

@[simp] theorem State.routerOf_modRouter_self (s : State) (ctx i : Nat) (g : RouterLayer → RouterLayer) :
    (s.modRouter ctx i g).routerOf ctx i = g (s.routerOf ctx i) := tget_tmod_self ..

theorem State.only_modRouter (s : State) (ctx i : Nat) (g : RouterLayer → RouterLayer) : s.Only [.router] (s.modRouter ctx i g) :=
  s.only_set_router _

theorem State.routerOf_of_router {s t : State} (h : t.router = s.router) (ctx i : Nat) : t.routerOf ctx i = s.routerOf ctx i := by
  rw [State.routerOf, State.routerOf, h]

/-! ### Sending on a circuit -/

theorem State.only_sendOn (s : State) (port : Nat) (f : Frame) : s.Only [.fab] (s.sendOn port f) := s.only_modPort port _

theorem State.only_emit (s : State) (k : Nat) (f : Frame) : s.Only [.fab] (s.emit k f) :=
  State.Only.foldl _ _ (State.Only.refl _ _) (fun u _ => u.only_sendOn ..)

theorem State.only_sendCircuit (s : State) (k : Nat) (f : Frame) : s.Only [.fab] (s.sendCircuit k f) := by
  unfold State.sendCircuit
  dsimp only
  split_ifs
  · exact State.Only.refl _ _
  · exact (State.only_modCirc ..).trans (State.only_emit ..)
  · exact State.only_modCirc ..

theorem State.only_toChip (s : State) (ctx kind chip : Nat) (f : Frame) : s.Only [.fab] (s.toChip ctx kind chip f) := by
  unfold State.toChip
  split
  · exact State.only_sendCircuit ..
  · exact State.Only.refl _ _

theorem State.only_sendRows (s : State) (ctx : Nat) (j : Job) (chip kind layer x fmt cols gen : Nat) (rows : List (List Nat)) :
    s.Only [.fab] (s.sendRows ctx j chip kind layer x fmt cols gen rows) :=
  State.Only.foldl _ _ (State.Only.refl _ _) (fun _ _ => State.Only.foldl _ _ (State.Only.refl _ _) (fun v _ => v.only_toChip ..))

/-! ### The selection stays (R352) -/

/-- Of every routed layer, whether its selection is made and the rows selected are the same in t as in s. -/
structure State.SameSelection (s t : State) : Prop where
  done     : ∀ ctx i, (t.routerOf ctx i).done = (s.routerOf ctx i).done
  selected : ∀ ctx i, (t.routerOf ctx i).selected = (s.routerOf ctx i).selected

theorem State.SameSelection.trans {s t u : State} (h : s.SameSelection t) (k : t.SameSelection u) : s.SameSelection u :=
  ⟨fun ctx i => (k.done ctx i).trans (h.done ctx i), fun ctx i => (k.selected ctx i).trans (h.selected ctx i)⟩

theorem State.SameSelection.of_router {s t : State} (h : t.router = s.router) : s.SameSelection t :=
  ⟨fun ctx i => by rw [State.routerOf_of_router h], fun ctx i => by rw [State.routerOf_of_router h]⟩

theorem State.SameSelection.refl (s : State) : s.SameSelection s := .of_router rfl

theorem State.SameSelection.of_only {s t : State} {gs : List Group} (h : s.Only gs t) (hgs : Group.router ∉ gs) : s.SameSelection t :=
  .of_router (h.router.resolve_left hgs)

theorem State.SameSelection.foldl {α : Type} {s t : State} (l : List α) (g : State → α → State) (h : s.SameSelection t)
    (hg : ∀ (u : State) x, u.SameSelection (g u x)) : s.SameSelection (l.foldl g t) :=
  List.foldlRecOn (motive := fun u => s.SameSelection u) _ _ h (fun u hu x _ => hu.trans (hg u x))

/-- A change of a layer's other fields. -/
theorem State.sameSelection_modRouter (s : State) (ctx i : Nat) {g : RouterLayer → RouterLayer}
    (hg : ∀ z, (g z).done = z.done ∧ (g z).selected = z.selected) : s.SameSelection (s.modRouter ctx i g) := by
  have h : ∀ ctx' k, ((s.modRouter ctx i g).routerOf ctx' k).done = (s.routerOf ctx' k).done ∧
      ((s.modRouter ctx i g).routerOf ctx' k).selected = (s.routerOf ctx' k).selected := by
    intro ctx' k
    rw [State.routerOf_modRouter]
    split
    · next hk => rw [State.routerOf, State.routerOf, hk]; exact hg _
    · exact ⟨rfl, rfl⟩
  exact ⟨fun ctx' k => (h ctx' k).1, fun ctx' k => (h ctx' k).2⟩

theorem State.sameSelection_sendDispatches (s : State) (ctx : Nat) (j : Job) (i : Nat) (y : RoutedLayer) (st : StepRun) :
    s.SameSelection (s.sendDispatches ctx j i y st) := by
  unfold State.sendDispatches
  extract_lets r n first mine row s1
  have h1 : s.Only [.fab] s1 := State.Only.foldl _ _ (State.Only.refl _ _) (fun u _ =>
    (State.Only.foldl _ _ (State.Only.refl _ _) (fun v _ => v.only_sendRows ..)).trans (State.only_toChip ..))
  exact (State.SameSelection.of_only h1 (by decide)).trans (s1.sameSelection_modRouter ctx i (fun _ => ⟨rfl, rfl⟩))

theorem State.sameSelection_sendReturns (s : State) (ctx : Nat) (j : Job) (i : Nat) (y : RoutedLayer) (st : StepRun) :
    s.SameSelection (s.sendReturns ctx j i y st) := by
  unfold State.sendReturns
  extract_lets r n rows row s1
  have h1 : s.Only [.fab] s1 := State.Only.foldl _ _ (State.Only.refl _ _) (fun u _ =>
    (State.Only.foldl _ _ (State.Only.refl _ _) (fun v _ => v.only_sendRows ..)).trans (State.only_toChip ..))
  exact (State.SameSelection.of_only h1 (by decide)).trans (s1.sameSelection_modRouter ctx i (fun _ => ⟨rfl, rfl⟩))

theorem State.only_overflow (s : State) (ctx : Nat) (o : Overflow) : s.Only [.cp, .ctxs] (s.overflow ctx o) := by
  unfold State.overflow
  split
  · exact (State.only_mapCmds ..).mono _ (by decide)
  · exact (State.only_modCtx ..).mono _ (by decide)

theorem State.only_routeOverflow (s : State) (ctx : Nat) (p : ExpertPlan) (i : Nat) :
    s.Only [.cp, .ctxs, .free] (s.routeOverflow ctx p i) := by
  unfold State.routeOverflow
  split
  · exact (State.only_overflow ..).mono _ (by decide)
  · exact ((State.only_overflow ..).mono _ (by decide)).trans ((State.only_freeNext ..).mono _ (by decide))

theorem State.sameSelection_routeOverflow (s : State) (ctx : Nat) (p : ExpertPlan) (i : Nat) :
    s.SameSelection (s.routeOverflow ctx p i) := .of_only (s.only_routeOverflow ctx p i) (by decide)

/-- A routed tile is placed among a layer's rows or overflows. -/
theorem State.sameSelection_takeRouted (s : State) (ctx : Nat) (j : Job) (p : ExpertPlan) (i : Nat) (y : RoutedLayer) (st : StepRun)
    (f : Frame) : s.SameSelection (s.takeRouted ctx j p i y st f) := by
  have hpast := s.sameSelection_routeOverflow ctx p i
  have hplace {g : RouterLayer → RouterLayer} := s.sameSelection_modRouter ctx i (g := g)
  unfold State.takeRouted
  extract_lets r n x from' past
  split
  · split
    · split
      · exact hplace (fun _ => ⟨rfl, rfl⟩)
      · exact hpast
    · exact hpast
  · split
    · exact hplace (fun _ => ⟨rfl, rfl⟩)
    · exact hpast
  · split
    · split
      · exact hplace (fun _ => ⟨rfl, rfl⟩)
      · exact hpast
    · exact hpast
  · split
    · exact hplace (fun _ => ⟨rfl, rfl⟩)
    · exact hpast

theorem State.sameSelection_tryRouted {s t : State} {ctx : Nat} {j : Job} {p : ExpertPlan} {st : StepRun} {h : Nat × Frame}
    (ht : s.tryRouted ctx j p st h = some t) : s.SameSelection t := by
  unfold State.tryRouted at ht
  extract_lets f gone at ht
  have hgone : ∀ u, s.SameSelection u → s.SameSelection (gone u) := fun u hu => hu.trans (.of_router rfl)
  split at ht
  · cases ht
  · split at ht
    · cases ht
      exact hgone _ (s.sameSelection_routeOverflow ..)
    · split at ht
      · cases ht
        exact hgone _ (s.sameSelection_routeOverflow ..)
      · split at ht
        · cases ht
          exact hgone _ (s.sameSelection_takeRouted ..)
        · cases ht

theorem State.sameSelection_drainHeld (ctx : Nat) (st : StepRun) (n : Nat) (s : State) : s.SameSelection (State.drainHeld ctx st n s) := by
  induction n generalizing s with
  | zero => exact .refl s
  | succ n ih =>
    unfold State.drainHeld
    split
    · split
      · split
        · next t ht =>
          obtain ⟨h, -, hh⟩ := List.exists_of_findSome?_eq_some ht
          exact (State.sameSelection_tryRouted hh).trans (ih t)
        · exact .refl s
      · exact .refl s
    · exact .refl s

theorem State.joinGen_router (s : State) (f q : Nat) (c : Cmd) (st : StepRun) : (s.joinGen f q c st).1.router = s.router := by
  unfold State.joinGen
  split
  · dsimp only
    split <;> rfl
  · rfl

/-- Whatever the router goes on with, the selections made stay. -/
theorem State.sameSelection_pumpRouter (s : State) (ctx : Nat) : s.SameSelection (s.pumpRouter ctx) := by
  unfold State.pumpRouter
  split
  · exact .refl s
  · next f q c st0 _ =>
    have hjoin : s.SameSelection (s.joinGen f q c st0).1 := .of_router (s.joinGen_router ..)
    generalize s.joinGen f q c st0 = a at hjoin
    obtain ⟨u, st⟩ := a
    refine hjoin.trans ?_
    dsimp only
    split
    · exact .refl u
    · split
      · exact .refl u
      · split
        · exact .refl u
        · refine .foldl _ _ (.trans (.foldl _ _ (.refl u) fun v x => ?_) (State.sameSelection_drainHeld ..)) fun v x => ?_
          · split
            · exact v.sameSelection_sendDispatches ..
            · exact .refl v
          · split
            · exact v.sameSelection_sendReturns ..
            · exact .refl v

end Sys2Proof.Machine
end

section
/-! The router's own commands (R352, R358, R363). -/
namespace Sys2Proof.Machine

/-- The entries a list of indexes writes into a table, each the value of h at its index. -/
theorem tget_foldl_tset {α : Type} [DecidableEq α] (d : α) (h : Nat → α) (l : List Nat) (t : Tbl α) (k : Nat) :
    tget d ((l.map (fun x => (x, h x))).foldl (fun a p => tset d a p.1 p.2) t) k = if k ∈ l then h k else tget d t k := by
  induction l generalizing t with
  | nil => rfl
  | cons x l ih =>
    rw [List.map_cons, List.foldl_cons, ih, tget_tset]
    by_cases hk : k = x
    · simp [hk]
    · simp [hk]

/-- Every expert of a layer has its selection, and the layer's is made. -/
theorem State.selectLayer_selects (s : State) (ctx i f q : Nat) (c : Cmd) (st : StepRun) (y : RoutedLayer) :
    ((s.selectLayer ctx i f q c st y).routerOf ctx i).done = true ∧ ∀ x, x < y.experts.length →
      ((s.selectLayer ctx i f q c st y).routerOf ctx i).chosen x =
        selectRows y.capacity ((s.routerOf ctx i).scores.map (fun row => row.getD x 0)) := by
  unfold State.selectLayer
  extract_lets r sel skip st'
  have hset : ∀ g, ((s.modRouter ctx i g).setStep f q c.n st').routerOf ctx i = g (s.routerOf ctx i) := fun g =>
    (State.routerOf_of_router rfl ctx i).trans (s.routerOf_modRouter_self ctx i g)
  rw [hset]
  refine ⟨rfl, fun x hx => ?_⟩
  exact (tget_foldl_tset [] _ _ _ x).trans (if_pos (List.mem_range.2 hx))

section
variable {s : State} {ctx fn q i : Nat} {c : Cmd} {st : StepRun} {j : Job} {p : ExpertPlan} {y : RoutedLayer}

/-- A routed run of the context is at work, and its job's plan has this layer. -/
structure State.Routes (s : State) (ctx fn q : Nat) (c : Cmd) (st : StepRun) (j : Job) (p : ExpertPlan) (i : Nat) (y : RoutedLayer) :
    Prop where
  run   : s.routedRun ctx = some (fn, q, c, st)
  phase : c.phase = .running
  job   : s.jobOf ctx = some j
  plan  : j.plan = some p
  layer : p.layers[i]? = some y

theorem State.Routes.running (h : s.Routes ctx fn q c st j p i y) : c.isRunning = true := by simp [Cmd.isRunning, h.phase]

/-- With every score row there, EXPERT_SELECT makes the layer's selection. -/
theorem State.Routes.expertSelect (h : s.Routes ctx fn q c st j p i y) (hdone : (s.routerOf ctx i).done = false)
    (hfull : rowsFull (s.routerOf ctx i).scores st.rows (32 * ceilDiv y.experts.length 32) = true) :
    ∃ t, exec (.expertSelect ctx i) s = .next t ∧ t.pending = s.pending ∧ (t.routerOf ctx i).done = true ∧
      ∀ x, x < y.experts.length →
        (t.routerOf ctx i).chosen x = selectRows y.capacity ((s.routerOf ctx i).scores.map (fun row => row.getD x 0)) := by
  set u := s.selectLayer ctx i fn q c st y
  obtain ⟨hmade, hchosen⟩ := s.selectLayer_selects ctx i fn q c st y
  have hsame := u.sameSelection_pumpRouter ctx
  refine ⟨u.pumpRouter ctx, ?_, ?_, (hsame.done ctx i).trans hmade, fun x hx => Eq.trans ?_ (hchosen x hx)⟩
  · show execExpertSelect ctx i s = _
    simp only [execExpertSelect, h.run, h.job, h.plan, h.layer]
    rw [onlyIf, if_pos (by simp [h.running, hdone, hfull])]
  · exact (State.pumpRouter_keep ctx (State.selectLayer_keep ctx i fn q c st y (Keep.refl s))).pending
  · rw [RouterLayer.chosen, hsame.selected, RouterLayer.chosen]

/-- With the row's residual and all its answers there, COMBINE_ROW writes the combined row. -/
theorem State.Routes.combineRow (h : s.Routes ctx fn q c st j p i y) {row k fmt : Nat} {l : Layout}
    (hdone : (s.routerOf ctx i).done = true) (howned : ownedOf [row] j.rank st.rows j.members.length = [row])
    (hk : k = row - ownFirst j.rank st.rows j.members.length) (hresid : ((s.routerOf ctx i).residRows.getD k []).length = y.width)
    (hanswers : ∀ x ∈ (s.routerOf ctx i).by y.experts.length row, (tget [] (s.routerOf ctx i).answers (rowKey x row)).length = y.width)
    (hnew : tget [] (s.routerOf ctx i).combined k = []) (hlayout : s.layoutOf ctx p.layout = some l) (hfmt : fmt = l.residFmt y.resid) :
    exec (.combineRow ctx i row) s = .next (s.modRouter ctx i (fun z => { z with
      combined := tset [] z.combined k ((s.routerOf ctx i).combineRow y (roundTzOf c.words) fmt row k) })) := by
  subst hk hfmt
  have hall : ((s.routerOf ctx i).by y.experts.length row).all (fun x =>
      decide ((tget [] (s.routerOf ctx i).answers (rowKey x row)).length = y.width)) = true := by
    simpa [List.all_eq_true] using hanswers
  show execCombineRow ctx i row s = _
  simp only [execCombineRow, h.run, h.job, h.plan, h.layer, hlayout]
  rw [onlyIf, if_pos (by simp only [h.running, hdone, howned, hresid, hall, hnew]; simp)]

/-- A run that still waits for a tile or an end is torn down with its context. -/
theorem State.Routes.waitTimeout (h : s.Routes ctx fn q c st j p i y) (hwaits : s.routerQuiet ctx st = false)
    (hlive : s.ctxLive ctx = true) : ∃ t, exec (.routerWaitTimeout ctx) s = .next t ∧ t.Torn ctx := by
  refine ⟨_, ?_, s.teardown_torn ctx ⟨St.watchdog, 0, 0⟩ (hitOne fn q c.n) hlive⟩
  show execRouterWaitTimeout ctx s = _
  simp only [execRouterWaitTimeout, h.run]
  rw [onlyIf, if_pos (by simp [h.running, hwaits])]

end

end Sys2Proof.Machine
end

section
/-! Routed tiles and ends by their generation (R361), and those of the live run, which join what its layers hold (R355 to R359). -/
namespace Sys2Proof.Machine

section
variable {s : State} {port : Nat} {f : Frame} {ctx rank : Nat} {j : Job} {p : ExpertPlan}

/-- A routed frame from the member of this rank comes to the endpoint of a circuit of the context's job, which has a plan. -/
structure State.RoutedFrame (s : State) (port : Nat) (f : Frame) (ctx rank : Nat) (j : Job) (p : ExpertPlan) : Prop where
  ends   : s.AtEndpoint port f
  ty     : f.ty = 0x11
  sender : s.senderOf f = some (ctx, rank)
  job    : s.jobOf ctx = some j
  plan   : j.plan = some p

theorem State.senderOf_received (s : State) (port : Nat) (f : Frame) : (s.received port f).senderOf f = s.senderOf f := rfl

theorem State.RoutedFrame.sender_received (m : s.RoutedFrame port f ctx rank j p) :
    (s.received port f).senderOf f = some (ctx, rank) := (s.senderOf_received port f).trans m.sender

theorem State.RoutedFrame.job_received (m : s.RoutedFrame port f ctx rank j p) : (s.received port f).jobOf ctx = some j := m.job

/-- A frame of a KIND is for its row. -/
theorem State.RoutedFrame.onRouted (m : s.RoutedFrame port f ctx rank j p) {kind : Nat} (hkind : rKind f = kind) (g : State → State) :
    s.onRouted port f true kind g = .next (g (s.received port f)) := by
  rw [State.onRouted, if_pos (.inl hkind), State.onFrame, if_neg (not_not.2 m.ty), m.ends.arrive]

/-- The rows of tiles and ends do one thing. -/
theorem State.RoutedFrame.arrives (m : s.RoutedFrame port f ctx rank j p) {row : Instr}
    (hrow : (rKind f, row) ∈ [(0, Instr.dispatch port f true), (1, .dispatchEnd port f true), (2, .returnTile port f true),
      (3, .returnEnd port f true)]) : exec row s = .next ((s.received port f).routedArrive f) := by
  simp only [List.mem_cons, Prod.mk.injEq, List.not_mem_nil, or_false] at hrow
  rcases hrow with ⟨hkind, rfl⟩ | ⟨hkind, rfl⟩ | ⟨hkind, rfl⟩ | ⟨hkind, rfl⟩
  · exact m.onRouted hkind _
  · exact m.onRouted hkind _
  · exact m.onRouted hkind _
  · exact m.onRouted hkind _

/-- A routed tile joins those held at the ingress, with its sender. -/
def State.holdRouted (s : State) (ctx rank : Nat) (f : Frame) : State := s.modJob ctx (fun x => { x with held := x.held ++ [(rank, f)] })

theorem State.routedArrive_eq {s : State} {f : Frame} {ctx rank : Nat} {j : Job} (hsender : s.senderOf f = some (ctx, rank))
    (hjob : s.jobOf ctx = some j) :
    s.routedArrive f = if f.t 2 = j.gen then (if j.genEnded then s.dropRouted ctx f else (s.holdRouted ctx rank f).pumpRouter ctx)
      else if genNewer (f.t 2) j.gen then s.holdRouted ctx rank f else s.dropRouted ctx f := by
  rw [State.routedArrive, hsender]
  simp only [hjob]
  rfl

/-- A tile of a newer generation is held. -/
theorem State.RoutedFrame.newer_held (m : s.RoutedFrame port f ctx rank j p) (hgen : f.t 2 ≠ j.gen)
    (hnewer : genNewer (f.t 2) j.gen = true) :
    (s.received port f).routedArrive f = (s.received port f).holdRouted ctx rank f := by
  rw [State.routedArrive_eq m.sender_received m.job_received, if_neg hgen, if_pos hnewer]

/-- Credits come back to the entry of the circuit the frame came on, which is no tree. -/
theorem State.owed_oweCredits {s : State} {f : Frame} (h : (s.circOf f.circuit).kind ≠ 2) :
    ((s.oweCredits f).circOf f.circuit).owed = (s.circOf f.circuit).owed + f.cost := by
  have hentry : s.creditEntry f.circuit = f.circuit := by simp [State.creditEntry, State.treeOf, h]
  rw [State.oweCredits, hentry, State.circOf_modCirc_self]

/-- A tile of a generation that is over is dropped, its credits owed and counted. -/
theorem State.RoutedFrame.older_dropped (m : s.RoutedFrame port f ctx rank j p) {row : Instr}
    (he : exec row s = .next ((s.received port f).routedArrive f))
    (hover : (f.t 2 = j.gen ∧ j.genEnded = true) ∨ (f.t 2 ≠ j.gen ∧ genNewer (f.t 2) j.gen = false)) :
    Answers row s [.fab, .ctxs] (fun t => t.jobOf ctx = some j ∧
      (t.ctxOf ctx).discarded = satAdd 32 (s.ctxOf ctx).discarded 1 ∧
      (t.circOf f.circuit).owed = (s.circOf f.circuit).owed + f.cost) := by
  have hdrop : (s.received port f).routedArrive f = (s.received port f).dropRouted ctx f := by
    rw [State.routedArrive_eq m.sender_received m.job_received]
    rcases hover with ⟨hgen, hended⟩ | ⟨hgen, hnewer⟩
    · rw [if_pos hgen, if_pos hended]
    · rw [if_neg hgen, if_neg (by simp [hnewer])]
  refine ⟨_, he.trans (congrArg Host.Outcome.next hdrop),
    ((s.only_received port f).mono _ (by decide)).trans (State.only_dropRouted ..), ?_, ?_, ?_⟩
  · exact (State.jobOf_dropRouted ..).trans m.job_received
  · rw [State.dropRouted, State.ctxOf_modCtx_self]
    rfl
  · exact State.owed_oweCredits (s := s.received port f) m.ends.single

end

/-! ### The router at work on the live run -/

/-- A member whose run has a generation has joined it. -/
theorem State.joinGen_joined (s : State) (f q : Nat) (c : Cmd) {st : StepRun} (h : st.gen ≠ 0) : s.joinGen f q c st = (s, st) := by
  unfold State.joinGen
  split
  · exact if_neg (by simp [h])
  · rfl

/-- A fold over a plan's layers that none of them changes. -/
theorem foldl_zipIdx_id {α β : Type} {g : β → α × Nat → β} {b : β} (l : List α) (h : ∀ x i, i < l.length → g b (x, i) = b) :
    l.zipIdx.foldl g b = b := by
  refine List.foldlRecOn (motive := fun u => u = b) _ _ rfl (fun u hu x hx => ?_)
  rw [hu]
  refine h x.1 x.2 ?_
  simpa using List.snd_lt_of_mem_zipIdx hx

/-- Where everything of the run's layers has been sent, the router takes what is held and no more. -/
theorem State.pumpRouter_drains {s : State} {ctx fn q : Nat} {c : Cmd} {st : StepRun} {j : Job} {p : ExpertPlan}
    (hrun : s.routedRun ctx = some (fn, q, c, st)) (hphase : c.phase = .running) (hgen : st.gen ≠ 0) (hjob : s.jobOf ctx = some j)
    (hplan : j.plan = some p) (hsent : ∀ k, k < p.layers.length → (s.routerOf ctx k).sent = true)
    (hreturned : ∀ k, k < p.layers.length → ((State.drainHeld ctx st (j.held.length + 1) s).routerOf ctx k).returned = true) :
    s.pumpRouter ctx = State.drainHeld ctx st (j.held.length + 1) s := by
  have hwork : ¬(st.gen = 0 ∨ (!c.isRunning) = true) := by simp [hgen, Cmd.isRunning, hphase]
  unfold State.pumpRouter
  simp only [hrun, s.joinGen_joined fn q c hgen, hjob, hplan, if_neg hwork]
  rw [foldl_zipIdx_id (b := s) p.layers (fun y k hk => if_neg (by simp [hsent k hk])),
    foldl_zipIdx_id p.layers (fun y k hk => if_neg (by simp [hreturned k hk]))]

/-- The only held tile is taken, and none is left. -/
theorem State.drainHeld_one {s t : State} {ctx : Nat} {st : StepRun} {j k : Job} {p : ExpertPlan} {h : Nat × Frame}
    (hjob : s.jobOf ctx = some j) (hplan : j.plan = some p) (hheld : j.held = [h]) (htry : s.tryRouted ctx j p st h = some t)
    (hk : t.jobOf ctx = some k) (hleft : k.held = []) : State.drainHeld ctx st (j.held.length + 1) s = t := by
  simp only [hheld, List.length_singleton, State.drainHeld, hjob, hplan, List.findSome?_cons, htry, hk, hleft, List.findSome?_nil]
  split <;> rfl

section
variable {s : State} {port : Nat} {f : Frame} {ctx rank fn q i : Nat} {c : Cmd} {st : StepRun} {j : Job} {p : ExpertPlan}
  {y : RoutedLayer}

/-- A routed frame of the live run, whose header is as it must be, for a layer whose selection is made; no tile is held, and this member has
sent everything of the run. -/
structure State.LiveFrame (s : State) (port : Nat) (f : Frame) (ctx rank fn q : Nat) (c : Cmd) (st : StepRun) (j : Job) (p : ExpertPlan)
    (i : Nat) (y : RoutedLayer) : Prop where
  frame : s.RoutedFrame port f ctx rank j p
  work  : s.Routes ctx fn q c st j p i y
  gen   : st.gen = j.gen
  live  : f.t 2 = j.gen
  begun : j.gen ≠ 0
  going : j.genEnded = false
  alone : j.held = []
  clean : rReserved f = false
  src   : rRank f = rank
  layer : rLayer f = i
  done  : (s.routerOf ctx i).done = true
  sent  : ∀ k, k < p.layers.length → (s.routerOf ctx k).sent = true ∧ (s.routerOf ctx k).returned = true

/-- The job while the frame is held. -/
def Job.holding (j : Job) (rank : Nat) (f : Frame) : Job := { j with held := [(rank, f)] }

/-- What the frame's row leaves where the layer takes it by g: the layer changed, the frame gone and its credits owed. -/
def State.tookRouted (s : State) (ctx i : Nat) (h : Nat × Frame) (g : RouterLayer → RouterLayer) : State :=
  ((s.modRouter ctx i g).modJob ctx (fun x => { x with held := x.held.erase h })).oweCredits h.2

theorem State.only_tookRouted (s : State) (ctx i : Nat) (h : Nat × Frame) (g : RouterLayer → RouterLayer) :
    s.Only [.fab, .ctxs, .router] (s.tookRouted ctx i h g) :=
  (((s.only_modRouter ..).mono _ (by decide)).trans ((State.only_modJob ..).mono _ (by decide))).trans
    ((State.only_oweCredits ..).mono _ (by decide))

theorem State.routerOf_tookRouted (s : State) (ctx i : Nat) (h : Nat × Frame) (g : RouterLayer → RouterLayer) (k : Nat) :
    (s.tookRouted ctx i h g).routerOf ctx k = (s.modRouter ctx i g).routerOf ctx k := State.routerOf_of_router rfl ctx k

theorem State.jobOf_tookRouted {s : State} {ctx : Nat} {j : Job} {rank : Nat} {f : Frame} (hj : s.jobOf ctx = some (j.holding rank f))
    (i : Nat) (g : RouterLayer → RouterLayer) : (s.tookRouted ctx i (rank, f) g).jobOf ctx = some { j with held := [] } := by
  have h : (s.tookRouted ctx i (rank, f) g).jobOf ctx = (s.jobOf ctx).map (fun x => { x with held := x.held.erase (rank, f) }) :=
    (State.jobOf_of_ctxs rfl ctx).trans ((s.modRouter ctx i g).jobOf_modJob_self ctx _)
  rw [h, hj, Option.map_some, Job.holding, List.erase_cons_head]

/-- A frame its layer takes by g, which leaves what has been sent as it is, is all the router takes. -/
theorem State.LiveFrame.taken (m : s.LiveFrame port f ctx rank fn q c st j p i y) {row : Instr} {g : RouterLayer → RouterLayer}
    (he : exec row s = .next ((s.received port f).routedArrive f))
    (hend : rKind f % 2 = 1 → endBad f = false) (hg : ∀ z, (g z).returned = z.returned)
    (htake : ∀ u : State, u.routerOf ctx i = s.routerOf ctx i →
      u.takeRouted ctx (j.holding rank f) p i y st f = u.modRouter ctx i g) :
    Answers row s [.fab, .ctxs, .router] (fun t => t.routerOf ctx i = g (s.routerOf ctx i)) := by
  set u := (s.received port f).holdRouted ctx rank f with hu
  have hrouter : ∀ k, u.routerOf ctx k = s.routerOf ctx k := State.routerOf_of_router rfl ctx
  have hju : u.jobOf ctx = some (j.holding rank f) := by
    rw [hu, State.holdRouted, State.jobOf_modJob_self, m.frame.job_received, Option.map_some, m.alone]
    rfl
  have hrun : u.routedRun ctx = some (fn, q, c, st) :=
    (State.routedRun_congr (s := s) (t := u) rfl (State.routedLayout_congr m.frame.job hju rfl rfl)).trans m.work.run
  have htry : u.tryRouted ctx (j.holding rank f) p st (rank, f) = some (u.tookRouted ctx i (rank, f) g) := by
    have hclean : ¬(rReserved f = true ∨ rRank f ≠ rank ∨ rKind f % 2 = 1 ∧ endBad f = true) := by
      rintro (hr | hr | ⟨hodd, hbad⟩)
      · simp [m.clean] at hr
      · exact hr m.src
      · simp [hend hodd] at hbad
    have hdone : (u.routerOf ctx i).done = true := by rw [hrouter, m.done]
    have hgen : ¬ f.t 2 ≠ st.gen := by simp [m.live, m.gen]
    unfold State.tryRouted
    simp only [if_neg hgen, if_neg hclean, m.layer, m.work.layer, if_pos hdone, htake u (hrouter i)]
    rfl
  have hdrain := State.drainHeld_one hju m.work.plan rfl htry (State.jobOf_tookRouted hju i g) rfl
  have hpump : u.pumpRouter ctx = u.tookRouted ctx i (rank, f) g := by
    rw [← hdrain]
    refine State.pumpRouter_drains hrun m.work.phase (m.gen.trans_ne m.begun) hju m.work.plan
      (fun k hk => by rw [hrouter, (m.sent k hk).1]) (fun k hk => ?_)
    rw [hdrain, State.routerOf_tookRouted, State.routerOf_modRouter]
    split
    · next hik => rw [hg, hrouter, show i = k by omega, (m.sent k hk).2]
    · rw [hrouter, (m.sent k hk).2]
  refine ⟨u.tookRouted ctx i (rank, f) g, ?_, ?_, ?_⟩
  · rw [he, State.routedArrive_eq m.frame.sender_received m.frame.job_received, if_pos m.live,
      if_neg (by simp [m.going]), ← hu, hpump]
  · exact (((s.only_received port f).mono _ (by decide)).trans ((State.only_modJob ..).mono _ (by decide))).trans
      (State.only_tookRouted ..)
  · show (u.tookRouted ctx i (rank, f) g).routerOf ctx i = _
    rw [State.routerOf_tookRouted, State.routerOf_modRouter_self, hrouter]

/-- A dispatch of rows this member expects for an expert it hosts joins the placed rows (R356). -/
theorem State.LiveFrame.dispatch (m : s.LiveFrame port f ctx rank fn q c st j p i y) {ks : List Nat} (hkind : rKind f = 0)
    (hhost : rExpert f ∈ y.hosted j.rank)
    (hkeys : tileKeys (ownedOf ((s.routerOf ctx i).chosen (rExpert f)) rank st.rows j.members.length) (rExpert f) y.cols y.dispFmt f
      (s.routerOf ctx i).placed = some ks) :
    Answers (.dispatch port f true) s [.fab, .ctxs, .router] (fun t =>
      t.routerOf ctx i = { (s.routerOf ctx i) with placed := joinTable (s.routerOf ctx i).placed ks (rTile f) }) := by
  refine m.taken (g := fun z => { z with placed := joinTable z.placed ks (rTile f) }) (m.frame.arrives (by simp [hkind]))
    (by simp [hkind]) (fun _ => rfl) (fun u hu => ?_)
  simp only [State.takeRouted, Job.holding, hkind, hu, m.src]
  rw [if_pos (List.contains_iff_mem.2 hhost)]
  simp only [hkeys]

/-- A return of rows this member owns from the host of their expert joins the answers (R358). -/
theorem State.LiveFrame.returnTile (m : s.LiveFrame port f ctx rank fn q c st j p i y) {ks : List Nat} (hkind : rKind f = 2)
    (hhost : rExpert f ∈ y.hosted rank)
    (hkeys : tileKeys (ownedOf ((s.routerOf ctx i).chosen (rExpert f)) j.rank st.rows j.members.length) (rExpert f) y.cols y.ansFmt f
      (s.routerOf ctx i).answers = some ks) :
    Answers (.returnTile port f true) s [.fab, .ctxs, .router] (fun t =>
      t.routerOf ctx i = { (s.routerOf ctx i) with answers := joinTable (s.routerOf ctx i).answers ks (rTile f) }) := by
  refine m.taken (g := fun z => { z with answers := joinTable z.answers ks (rTile f) }) (m.frame.arrives (by simp [hkind]))
    (by simp [hkind]) (fun _ => rfl) (fun u hu => ?_)
  simp only [State.takeRouted, Job.holding, hkind, hu, m.src]
  rw [if_pos (List.contains_iff_mem.2 hhost)]
  simp only [hkeys]

/-- A dispatch end with every expected row there joins the ends (R359). -/
theorem State.LiveFrame.dispatchEnd (m : s.LiveFrame port f ctx rank fn q c st j p i y) (hkind : rKind f = 1) (hend : endBad f = false)
    (hfull : ∀ e ∈ y.hosted j.rank, tableFull (s.routerOf ctx i).placed
      ((ownedOf ((s.routerOf ctx i).chosen e) rank st.rows j.members.length).map (rowKey e)) y.width = true) :
    Answers (.dispatchEnd port f true) s [.fab, .ctxs, .router] (fun t =>
      t.routerOf ctx i = { (s.routerOf ctx i) with dispEnds := insertAsc (s.routerOf ctx i).dispEnds rank }) := by
  refine m.taken (g := fun z => { z with dispEnds := insertAsc z.dispEnds rank }) (m.frame.arrives (by simp [hkind]))
    (fun _ => hend) (fun _ => rfl) (fun u hu => ?_)
  simp only [State.takeRouted, Job.holding, hkind, hu, m.src]
  exact if_pos (List.all_eq_true.2 hfull)

/-- A return end with every awaited answer there joins the ends (R359). -/
theorem State.LiveFrame.returnEnd (m : s.LiveFrame port f ctx rank fn q c st j p i y) (hkind : rKind f = 3) (hend : endBad f = false)
    (hfull : ∀ e ∈ y.hosted rank, tableFull (s.routerOf ctx i).answers
      ((ownedOf ((s.routerOf ctx i).chosen e) j.rank st.rows j.members.length).map (rowKey e)) y.width = true) :
    Answers (.returnEnd port f true) s [.fab, .ctxs, .router] (fun t =>
      t.routerOf ctx i = { (s.routerOf ctx i) with retEnds := insertAsc (s.routerOf ctx i).retEnds rank }) := by
  refine m.taken (g := fun z => { z with retEnds := insertAsc z.retEnds rank }) (m.frame.arrives (by simp [hkind]))
    (fun _ => hend) (fun _ => rfl) (fun u hu => ?_)
  simp only [State.takeRouted, Job.holding, hkind, hu, m.src]
  exact if_pos (List.all_eq_true.2 hfull)

end

end Sys2Proof.Machine
end

section
/-! Retires (R359, R362). -/
namespace Sys2Proof.Machine

theorem State.only_retireCheck (s : State) (ctx gen : Nat) : s.Only [.fab, .ctxs] (s.retireCheck ctx gen) := by
  have hmod : ∀ (u : State) g, u.Only [.fab, .ctxs] (u.modJob ctx g) := fun u g => (u.only_modJob ctx g).mono _ (by decide)
  unfold State.retireCheck State.jobCtrl
  split
  · exact State.Only.refl _ _
  · dsimp only
    split_ifs
    · exact State.Only.refl _ _
    · exact (hmod ..).trans (hmod ..)
    · exact hmod ..
    · exact (hmod ..).trans ((State.only_toChip ..).mono _ (by decide))

/-- Of the job, a generation's check notes no more than a report and its retirement. -/
theorem State.jobOf_retireCheck {s : State} {ctx : Nat} {j : Job} (hj : s.jobOf ctx = some j) (gen : Nat) :
    ∃ reports retired, (s.retireCheck ctx gen).jobOf ctx = some { j with reports := reports, retired := retired } := by
  have hsend : ∀ (u : State) chip sub payload, (u.jobCtrl ctx chip sub payload).jobOf ctx = u.jobOf ctx := fun u chip sub payload =>
    State.jobOf_of_ctxs ((u.only_toChip ..).ctxs.resolve_left (by decide)) ctx
  unfold State.retireCheck
  simp only [hj]
  split_ifs
  · exact ⟨_, _, hj⟩
  · exact ⟨_, _, by rw [State.jobOf_modJob_self, State.jobOf_modJob_self, hj]; rfl⟩
  · exact ⟨_, _, by rw [State.jobOf_modJob_self, hj]; rfl⟩
  · exact ⟨_, _, by rw [hsend, State.jobOf_modJob_self, hj]; rfl⟩

/-- A retire is noted with the job, once. -/
def Job.noteRetire (j : Job) (r : Nat × Nat) : Job := { j with retires := if j.retires.contains r then j.retires else j.retires ++ [r] }

theorem Job.mem_noteRetire (j : Job) (r : Nat × Nat) : r ∈ (j.noteRetire r).retires := by
  unfold Job.noteRetire
  dsimp only
  split
  · next h => exact List.contains_iff_mem.1 h
  · simp

section
variable {s : State} {port : Nat} {f : Frame} {ctx rank : Nat} {j : Job} {p : ExpertPlan}

/-- A retire of a generation that is not live is kept with the job. -/
theorem State.RoutedFrame.retire_kept (m : s.RoutedFrame port f ctx rank j p) (hkind : rKind f = 4) (hgood : retireBad f rank = false)
    (hover : j.gen ≠ f.t 2 ∨ j.genEnded = true) :
    Answers (.retire port f true) s [.fab, .ctxs, .cp] (fun t => ∃ j', t.jobOf ctx = some j' ∧ (f.t 2, rank) ∈ j'.retires ∧
      j'.gen = j.gen ∧ j'.held = j.held) := by
  set u := (s.took port f).modJob ctx (fun x => x.noteRetire (f.t 2, rank)) with hu
  have hju : u.jobOf ctx = some (j.noteRetire (f.t 2, rank)) := by
    rw [hu, State.jobOf_modJob_self, State.jobOf_took, m.job, Option.map_some]
  have hlive : ¬((j.noteRetire (f.t 2, rank)).gen = f.t 2 ∧ (!(j.noteRetire (f.t 2, rank)).genEnded) = true) := by
    rintro ⟨hgen, hgoing⟩
    rcases hover with hne | hended
    · exact hne hgen
    · simp [Job.noteRetire, hended] at hgoing
  obtain ⟨reports, retired, hjob⟩ := State.jobOf_retireCheck hju (f.t 2)
  refine ⟨(u.retireCheck ctx (f.t 2)).settle, ?_, ?_, _, (State.jobOf_settle ..).trans hjob, Job.mem_noteRetire .., rfl, rfl⟩
  · refine (m.onRouted hkind _).trans (congrArg Host.Outcome.next ?_)
    rw [State.retireArrive, m.sender_received]
    simp only [m.job_received, hgood, Bool.false_eq_true, if_false]
    show (match u.jobOf ctx with
      | none => u
      | some x => ((if x.gen = f.t 2 ∧ !x.genEnded then (u.killRouted ctx (f.t 2)).retireStart ctx else u).retireCheck
          ctx (f.t 2)).settle) = _
    rw [hju]
    simp only [if_neg hlive]
  · exact ((((s.only_took port f).mono _ (by decide)).trans ((State.only_modJob ..).mono _ (by decide))).trans
      ((State.only_retireCheck ..).mono _ (by decide))).trans ((State.only_settle _).mono _ (by decide))

/-- A retire with a field that must be 0, or with another member's rank, disagrees like a tile (R359). -/
theorem State.RoutedFrame.retire_overflows (m : s.RoutedFrame port f ctx rank j p) (hkind : rKind f = 4)
    (hbad : retireBad f rank = true) :
    exec (.retire port f true) s = .next (((s.received port f).oweCredits f).routeOverflow ctx p (rLayer f)) := by
  refine (m.onRouted hkind _).trans (congrArg Host.Outcome.next ?_)
  rw [State.retireArrive, m.sender_received]
  simp only [m.job_received, hbad, if_true, m.plan]

end

end Sys2Proof.Machine
end

section
/-! The router's rows together: O25. -/
namespace Sys2Proof.Machine

/-- Settles O25, row by row: what makes, combines or ends a run, then the routed frames by KIND and generation. R359 names the reserved
fields and KINDs that overflow; that a retire with another sender's SRC_RANK does so too is the model's choice. -/
theorem routedTilesArrive : Obligations.RoutedTilesArrive := by
  unfold Obligations.RoutedTilesArrive
  intro s port f ctx rank fn q c st j p i y hjob hplan hlayer
  refine ⟨fun hrun hphase => ?_, fun hends hty hsender => ⟨fun row hrow => ⟨?_, ?_⟩, ?_, fun hkind => ⟨?_, ?_⟩⟩⟩
  · have h : s.Routes ctx fn q c st j p i y := ⟨hrun, hphase, hjob, hplan, hlayer⟩
    refine ⟨h.expertSelect, ?_, h.waitTimeout⟩
    rintro row k _ fmt l rfl
    exact h.combineRow
  all_goals have m : s.RoutedFrame port f ctx rank j p := ⟨hends, hty, hsender, hjob, hplan⟩
  · exact fun hgen hnewer => (m.arrives hrow).trans (congrArg Host.Outcome.next (m.newer_held hgen hnewer))
  · exact m.older_dropped (m.arrives hrow)
  · intro hrun hphase hgen hlive hne hgoing halone hclean hsrc hat hdone hsent
    have l : s.LiveFrame port f ctx rank fn q c st j p i y :=
      ⟨m, ⟨hrun, hphase, hjob, hplan, hlayer⟩, hgen, hlive, hne, hgoing, halone, hclean, hsrc, hat, hdone, hsent⟩
    exact ⟨fun ks => l.dispatch, fun ks => l.returnTile, l.dispatchEnd, l.returnEnd⟩
  · exact m.retire_kept hkind
  · exact m.retire_overflows hkind

end Sys2Proof.Machine
end

section
/-! What every step keeps and answers: the invariant (O41, O42), the front of the queue (O39), and that each row answers a next state (O43). -/
namespace Sys2Proof.Machine

/-! ### The invariant -/

/-- Settles O41: in cold reset every byte memory and the log are empty. -/
theorem resetMeetsTheInvariant : Obligations.ResetMeetsTheInvariant := by
  unfold Obligations.ResetMeetsTheInvariant
  constructor <;> rfl

/-- Whatever row runs, a next state keeps: each row by the lemma of its own meaning. -/
theorem exec_keep {r s : State} (i : Instr) (h : Keep r s) : KeepOut r (exec i s) := by
  cases i with
  | nop _ _ _ => exact execNop_keep _ _ _ h
  | cancel _ _ _ => exact execCancel_keep _ _ _ h
  | supplyTime _ _ _ => exact execSupplyTime_keep _ _ _ h
  | planSubmit _ _ _ _ => exact execPlanSubmit_keep _ _ _ _ h
  | contextCreate _ _ _ => exact execContextCreate_keep _ _ _ h
  | contextDestroy _ _ _ => exact execContextDestroy_keep _ _ _ h
  | contextConfig _ _ _ => exact execContextConfig_keep _ _ _ h
  | layoutLoad _ _ _ _ => exact execLayoutLoad_keep _ _ _ _ h
  | layoutReplace _ _ _ _ => exact execLayoutReplace_keep _ _ _ _ h
  | layoutUnload _ _ _ => exact execLayoutUnload_keep _ _ _ h
  | placementMove _ _ _ _ => exact execPlacementMove_keep _ _ _ _ h
  | blockMap _ _ _ => exact execBlockMap_keep _ _ _ h
  | blockUnmap _ _ _ => exact execBlockUnmap_keep _ _ _ h
  | copy _ _ _ _ => exact execCopy_keep _ _ _ _ h
  | fill _ _ _ _ => exact execFill_keep _ _ _ _ h
  | tierHint _ _ _ => exact execTierHint_keep _ _ _ h
  | quotaSet _ _ _ => exact execQuotaSet_keep _ _ _ h
  | peerMap _ _ _ => exact execPeerMap_keep _ _ _ h
  | lendRecall _ _ _ => exact execLendRecall_keep _ _ _ h
  | hostWrite _ _ _ _ _ => exact execHostWrite_keep _ _ _ _ _ h
  | hostRead _ _ _ _ => exact execHostRead_keep _ _ _ _ h
  | run _ _ _ _ => exact execRun_keep _ _ _ _ h
  | streamLoad _ _ _ _ => exact execStreamLoad_keep _ _ _ _ h
  | streamResume _ _ _ => exact execStreamResume_keep _ _ _ h
  | shapeWrite _ _ _ _ => exact execShapeWrite_keep _ _ _ _ h
  | sessionOpen _ _ _ => exact execSessionOpen_keep _ _ _ h
  | sessionClose _ _ _ => exact execSessionClose_keep _ _ _ h
  | stepCmd _ _ _ _ => exact execStepCmd_keep _ _ _ _ h
  | sessionPause _ _ _ => exact execSessionPause_keep _ _ _ h
  | sessionResume _ _ _ => exact execSessionResume_keep _ _ _ h
  | sessionCancel _ _ _ => exact execSessionCancel_keep _ _ _ h
  | prefixLookup _ _ _ _ => exact execPrefixLookup_keep _ _ _ _ h
  | kvPark _ _ _ => exact execKvPark_keep _ _ _ h
  | kvUnpark _ _ _ => exact execKvUnpark_keep _ _ _ h
  | kvRelease _ _ _ => exact execKvRelease_keep _ _ _ h
  | kvTtlSet _ _ _ => exact execKvTtlSet_keep _ _ _ h
  | kvConfigure _ _ _ => exact execKvConfigure_keep _ _ _ h
  | weightWrite _ _ _ _ => exact execWeightWrite_keep _ _ _ _ h
  | weightLoad _ _ _ _ _ => exact execWeightLoad_keep _ _ _ _ _ h
  | weightLoadBroadcast _ _ _ _ _ => exact execWeightLoadBroadcast_keep _ _ _ _ _ h
  | weightReplace _ _ _ _ _ => exact execWeightReplace_keep _ _ _ _ _ h
  | weightDelete _ _ _ => exact execWeightDelete_keep _ _ _ h
  | adapterAttach _ _ _ _ _ => exact execAdapterAttach_keep _ _ _ _ _ h
  | adapterDetach _ _ _ => exact execAdapterDetach_keep _ _ _ h
  | jobOpen _ _ _ _ => exact execJobOpen_keep _ _ _ _ h
  | jobClose _ _ _ => exact execJobClose_keep _ _ _ h
  | linkRestore _ _ _ _ _ _ => exact execLinkRestore_keep _ _ _ _ _ _ h
  | linkRecalibrate _ _ _ => exact execLinkRecalibrate_keep _ _ _ h
  | selfTest _ _ _ _ => exact execSelfTest_keep _ _ _ _ h
  | showdown _ _ _ => exact execShowdown_keep _ _ _ h
  | showdownArm _ _ _ => exact execShowdownArm_keep _ _ _ h
  | memoryRetrain _ _ _ _ => exact execMemoryRetrain_keep _ _ _ _ h
  | sqTailDoorbell _ _ _ => exact execSqTailDoorbell_keep _ _ _ h
  | cqHeadDoorbell _ _ _ => exact execCqHeadDoorbell_keep _ _ _ h
  | queueEnable _ _ _ => exact execQueueEnable_keep _ _ _ h
  | queueDisable _ _ _ => exact execQueueDisable_keep _ _ _ h
  | queueReset _ _ _ => exact execQueueReset_keep _ _ _ h
  | queueResume _ _ _ => exact execQueueResume_keep _ _ _ h
  | queueResetDone _ _ => exact execQueueResetDone_keep _ _ h
  | commandFetch _ _ _ => exact execCommandFetch_keep _ _ _ h
  | commandStart _ _ _ _ => exact execCommandStart_keep _ _ _ _ h
  | commandRerun _ _ _ _ => exact execCommandRerun_keep _ _ _ _ h
  | commandCommit _ _ _ => exact execCommandCommit_keep _ _ _ h
  | coalesceTimeout _ _ => exact execCoalesceTimeout_keep _ _ h
  | rateToken _ _ => exact execRateToken_keep _ _ h
  | dealUpdateApply _ => exact execDealUpdateApply_keep _ h
  | tileArrive _ _ _ => exact execTileArrive_keep _ _ _ h
  | pairIssue _ _ => exact execPairIssue_keep _ _ h
  | storeWrite _ _ _ => exact execStoreWrite_keep _ _ _ h
  | drain _ _ _ => exact execDrain_keep _ _ _ h
  | vectorRun _ _ => exact execVectorRun_keep _ _ h
  | configItem _ => exact execConfigItem_keep _ h
  | loadAcksComplete _ _ => exact execLoadAcksComplete_keep _ _ h
  | cutArrive _ _ _ => exact execCutArrive_keep _ _ _ h
  | cutComplete _ => exact execCutComplete_keep _ h
  | replaceCutDone _ _ => exact execReplaceCutDone_keep _ _ h
  | faultedQuiescence _ _ _ => exact execFaultedQuiescence_keep _ _ _ h
  | bindingTakeEffect _ _ => exact execBindingTakeEffect_keep _ _ h
  | streamRequest _ => exact execStreamRequest_keep _ h
  | streamDataReturn _ _ _ _ => exact execStreamDataReturn_keep _ _ _ _ h
  | runAheadRequest _ _ => exact execRunAheadRequest_keep _ _ h
  | outputTileArrive _ _ _ => exact execOutputTileArrive_keep _ _ _ h
  | faultRecordWrite _ _ => exact execFaultRecordWrite_keep _ _ h
  | streamAutoResume _ _ => exact execStreamAutoResume_keep _ _ h
  | weightLateTimeout _ _ => exact execWeightLateTimeout_keep _ _ h
  | watchdogTimeout _ => exact execWatchdogTimeout_keep _ h
  | regionUngate _ => exact execRegionUngate_keep _ h
  | regionGate _ => exact execRegionGate_keep _ h
  | blockMapChangeDone _ => exact execBlockMapChangeDone_keep _ h
  | frameRelease _ => exact execFrameRelease_keep _ h
  | frameScrub _ => exact execFrameScrub_keep _ h
  | migrationStart _ => exact execMigrationStart_keep _ h
  | migrationDone _ _ => exact execMigrationDone_keep _ _ h
  | patrolScrubRead _ _ => exact execPatrolScrubRead_keep _ _ h
  | scrubPassOverdue _ => exact execScrubPassOverdue_keep _ h
  | recallBorrowerDeadline _ _ => exact execRecallBorrowerDeadline_keep _ _ h
  | recallLenderDeadline _ => exact execRecallLenderDeadline_keep _ h
  | parkStart _ _ => exact execParkStart_keep _ _ h
  | parkComplete _ _ => exact execParkComplete_keep _ _ h
  | kvRecordExpire _ _ => exact execKvRecordExpire_keep _ _ h
  | parkBringIn _ _ _ _ => exact execParkBringIn_keep _ _ _ _ h
  | cancelRetire _ _ _ => exact execCancelRetire_keep _ _ _ h
  | expertSelect _ _ => exact execExpertSelect_keep _ _ h
  | combineRow _ _ _ => exact execCombineRow_keep _ _ _ h
  | routerWaitTimeout _ => exact execRouterWaitTimeout_keep _ h
  | dispatch _ _ _ => exact execDispatch_keep _ _ _ h
  | dispatchEnd _ _ _ => exact execDispatchEnd_keep _ _ _ h
  | returnTile _ _ _ => exact execReturnTile_keep _ _ _ h
  | returnEnd _ _ _ => exact execReturnEnd_keep _ _ _ h
  | retire _ _ _ => exact execRetire_keep _ _ _ h
  | generationAnnounce _ _ _ => exact execGenerationAnnounce_keep _ _ _ h
  | generationRetiredReport _ _ _ => exact execGenerationRetiredReport_keep _ _ _ h
  | stepOutcomes _ _ _ => exact execStepOutcomes_keep _ _ _ h
  | stepReady _ _ _ => exact execStepReady_keep _ _ _ h
  | stepCommitMessage _ _ _ => exact execStepCommitMessage_keep _ _ _ h
  | entryDropped _ _ _ => exact execEntryDropped_keep _ _ _ h
  | dealPublication _ _ _ => exact execDealPublication_keep _ _ _ h
  | pieceRequest _ _ _ => exact execPieceRequest_keep _ _ _ h
  | readerStart _ _ _ => exact execReaderStart_keep _ _ _ h
  | doneNotice _ _ _ => exact execDoneNotice_keep _ _ _ h
  | piece _ _ _ => exact execPiece_keep _ _ _ h
  | weightReplaceCopy _ _ _ _ _ => exact execWeightReplaceCopy_keep _ _ _ _ _ h
  | stripeErase _ _ => exact execStripeErase_keep _ _ h
  | linkAck _ _ _ => exact execLinkAck_keep _ _ _ h
  | lane _ _ _ => exact execLane_keep _ _ _ h
  | tile _ _ _ => exact execTile_keep _ _ _ h
  | credit _ _ _ => exact execCredit_keep _ _ _ h
  | tear _ _ _ => exact execTear_keep _ _ _ h
  | memRead _ _ _ _ => exact execMemRead_keep _ _ _ _ h
  | memWrite _ _ _ => exact execMemWrite_keep _ _ _ h
  | memData _ _ _ => exact execMemData_keep _ _ _ h
  | memDone _ _ _ => exact execMemDone_keep _ _ _ h
  | memRefused _ _ _ => exact execMemRefused_keep _ _ _ h
  | unreachable _ _ _ => exact execUnreachable_keep _ _ _ h
  | reserve _ _ _ => exact execReserve_keep _ _ _ h
  | confirm _ _ _ => exact execConfirm_keep _ _ _ h
  | reject _ _ _ => exact execReject_keep _ _ _ h
  | lendRequest _ _ _ => exact execLendRequest_keep _ _ _ h
  | lendGrant _ _ _ => exact execLendGrant_keep _ _ _ h
  | lendRefusal _ _ _ => exact execLendRefusal_keep _ _ _ h
  | recallNotice _ _ _ => exact execRecallNotice_keep _ _ _ h
  | lendFrameRelease _ _ _ => exact execLendFrameRelease_keep _ _ _ h
  | replayTimeout _ => exact execReplayTimeout_keep _ h
  | ackTimer _ => exact execAckTimer_keep _ h
  | lossOfLock _ _ => exact execLossOfLock_keep _ _ h
  | creditTimer _ => exact execCreditTimer_keep _ h
  | creditTimeout _ => exact execCreditTimeout_keep _ h
  | peerRequestTimeout _ => exact execPeerRequestTimeout_keep _ h
  | jobOpenTimeout _ _ _ => exact execJobOpenTimeout_keep _ _ _ h
  | laneRetrainDone _ _ => exact execLaneRetrainDone_keep _ _ h
  | routeDataWrite _ => exact execRouteDataWrite_keep _ h
  | partReset _ => exact execPartReset_keep _ h
  | warmReset _ => exact execWarmReset_keep _ h
  | functionLevelReset _ => exact execFunctionLevelReset_keep _ h
  | vfRemoval _ => exact execVfRemoval_keep _ h
  | partitionResetDone _ => exact execPartitionResetDone_keep _ h
  | warmResetDone => exact execWarmResetDone_keep h
  | faultRingEnable _ _ => exact execFaultRingEnable_keep _ _ h
  | frHeadWrite _ _ => exact execFrHeadWrite_keep _ _ h
  | intMaskWrite _ _ => exact execIntMaskWrite_keep _ _ h
  | registerWrite _ _ _ _ _ => exact execRegisterWrite_keep _ _ _ _ _ h
  | registerReadClear _ _ _ _ => exact execRegisterReadClear_keep _ _ _ _ h
  | info => exact execInfo_keep h
  | logRead => exact execLogRead_keep h
  | logAck => exact execLogAck_keep h
  | firstErrorRead => exact execFirstErrorRead_keep h
  | sensorRead => exact execSensorRead_keep h
  | counterRead => exact execCounterRead_keep h
  | snapshotRead => exact execSnapshotRead_keep h
  | snapshotRelease => exact execSnapshotRelease_keep h
  | updateWrite => exact execUpdateWrite_keep h
  | updateCommit => exact execUpdateCommit_keep h
  | floorRaise => exact execFloorRaise_keep h
  | identity => exact execIdentity_keep h
  | attest => exact execAttest_keep h
  | debugWindow => exact execDebugWindow_keep h
  | ownerSet => exact execOwnerSet_keep h
  | fenceRead => exact execFenceRead_keep h
  | debugWindowRead _ _ => exact execDebugWindowRead_keep _ _ h
  | mgmtWatchdogExpire => exact execMgmtWatchdogExpire_keep h
  | mgmtServiceResume => exact execMgmtServiceResume_keep h
  | errorReport _ _ _ _ _ => exact execErrorReport_keep _ _ _ _ _ h
  | errorHubDrain _ => exact execErrorHubDrain_keep _ h
  | sensorSample _ _ _ _ => exact execSensorSample_keep _ _ _ _ h
  | showdownPin => exact execShowdownPin_keep h
  | showdownCountMatch => exact execShowdownCountMatch_keep h
  | showdownTileArrive _ _ _ => exact execShowdownTileArrive_keep _ _ _ h
  | showdownCutTimeout => exact execShowdownCutTimeout_keep h
  | correlationMarkerArrive _ => exact execCorrelationMarkerArrive_keep _ h
  | frequencyChange _ _ => exact execFrequencyChange_keep _ _ h
  | standbyPowerGood => exact execStandbyPowerGood_keep h
  | standbyPowerLoss => exact execStandbyPowerLoss_keep h
  | locationRetry _ => exact execLocationRetry_keep _ h
  | tcRelease _ => exact execTcRelease_keep _ h
  | tcOffReq => exact execTcOffReq_keep h
  | tcHeartbeatWrite _ => exact execTcHeartbeatWrite_keep _ h
  | heartbeatTimeout => exact execHeartbeatTimeout_keep h
  | railBringupTimeout => exact execRailBringupTimeout_keep h
  | recoveryImageWrite _ _ => exact execRecoveryImageWrite_keep _ _ h
  | recoveryImageEnd _ => exact execRecoveryImageEnd_keep _ h
  | recoveryVerifyDone => exact execRecoveryVerifyDone_keep h
  | recoveryOwnerKey _ => exact execRecoveryOwnerKey_keep _ h
  | perstAssert => exact execPerstAssert_keep h
  | perstDeassert => exact execPerstDeassert_keep h
  | powerBrakeAssert => exact execPowerBrakeAssert_keep h
  | powerBrakeRelease => exact execPowerBrakeRelease_keep h
  | governorTick _ _ => exact execGovernorTick_keep _ _ h
  | thermalCapStep _ => exact execThermalCapStep_keep _ h
  | iccLimitExceed _ => exact execIccLimitExceed_keep _ h
  | iccCapRaise _ => exact execIccCapRaise_keep _ h
  | analogThermalTrip _ => exact execAnalogThermalTrip_keep _ h
  | railFault _ => exact execRailFault_keep _ h
  | precisionLower _ => exact execPrecisionLower_keep _ h
  | precisionRestore => exact execPrecisionRestore_keep h
  | retrainWaitTimeout _ _ _ => exact execRetrainWaitTimeout_keep _ _ _ h
  | neighbourLinkRestore _ _ _ _ => exact execNeighbourLinkRestore_keep _ _ _ _ h
  | vfEnable _ => exact execVfEnable_keep _ h
  | railSettleTimeout _ => exact execRailSettleTimeout_keep _ h
  | retrainTargetQuiet _ _ _ => exact execRetrainTargetQuiet_keep _ _ _ h
  | testAccessPort _ _ => exact execTestAccessPort_keep _ _ h

/-- Taking the front command from the queue leaves the invariant as it is. -/
theorem State.Inv.pending {s : State} (h : s.Inv) (l : List Instr) : ({ s with pending := l } : State).Inv :=
  ⟨h.cmem, h.sram, h.tiers, h.host, h.mgmt⟩

/-- Settles O42: with an empty queue the idle step keeps, and otherwise the row at the front does, from the state with the queue's rest. -/
theorem stepKeepsTheInvariant : Obligations.StepKeepsTheInvariant := by
  unfold Obligations.StepKeepsTheInvariant
  intro s t hinv ht
  unfold step at ht
  split at ht
  next hp =>
    cases ht
    have hk : Keep s s.idle := State.idle_keep (Keep.refl s)
    exact ⟨hk.inv hinv, by rw [hk.pending, hp, List.drop_nil], hk.free⟩
  next c rest hp =>
    have hk : Keep { s with pending := rest } t := (exec_keep c (Keep.refl _)).out t ht
    exact ⟨hk.inv (hinv.pending rest), by rw [hk.pending, hp, List.drop_one, List.tail_cons], hk.free⟩

/-! ### The front of the queue -/

/-- An entry that a change of the whole table leaves away from the default reads as changed. -/
theorem tget_tmap_of_ne {α : Type} [DecidableEq α] {d : α} {t : Tbl α} {f : Nat → α → α} {k : Nat} (h : tget d t k ≠ d)
    (hf : f k (tget d t k) ≠ d) : tget d (tmap d t f) k = f k (tget d t k) := by
  induction t with
  | nil => exact absurd rfl h
  | cons p t ih =>
    obtain ⟨i, v⟩ := p
    by_cases hi : i = k
    · subst hi
      have hv : f i v ≠ d := by simpa [tget] using hf
      simp [tmap, tget, hv]
    · have ht : tget d ((i, v) :: t) k = tget d t k := by simp [tget, hi]
      rw [ht] at h hf ⊢
      by_cases hv : f i v = d
      · simpa [tmap, hv] using ih h hf
      · simpa [tmap, hv, tget, hi] using ih h hf

theorem Island.tick_running (i : Island) : i.tick.running = i.running := by unfold Island.tick; split <;> rfl

theorem Island.tick_count {i : Island} (h : i.running = true) :
    i.tick.count = i.count + BitVec.ofNat 64 ((i.acc + i.khz) / 1000000) := by
  rw [Island.tick, if_pos h]

theorem Island.ne_default {i : Island} (h : i.running = true) : i ≠ {} := by
  rintro rfl
  exact Bool.noConfusion h

/-- Settles O39: `step` takes the front by its definition, and the idle step ticks each running island. -/
theorem stepRunsTheFront : Obligations.StepRunsTheFront := by
  unfold Obligations.StepRunsTheFront
  intro s c rest
  refine ⟨fun hp => by rw [step, hp], fun hp => ⟨s.idle, by rw [step, hp], s.only_set_isl _, fun k hk => ?_⟩⟩
  have hk' : ((s.islOf k).tick).running = true := (Island.tick_running _).trans hk
  have ht : s.idle.islOf k = (s.islOf k).tick :=
    tget_tmap_of_ne (f := fun _ i => Island.tick i) (Island.ne_default hk) (Island.ne_default hk')
  rw [ht]
  exact ⟨(Island.tick_running _).trans hk, Island.tick_count hk⟩

/-! ### Every row answers -/

/-- The row answers a next state. -/
def Answered (o : Out) : Prop := ∃ t, o = .next t

theorem answered_next (t : State) : Answered (.next t) := ⟨t, rfl⟩

theorem answered_work (s : State) (f q n op : Nat) (g : Cmd → State) : Answered (s.work f q n op g) := by
  unfold State.work
  split <;> exact answered_next _

theorem answered_withErrs {s : State} {f q n op : Nat} {errs : List MemErr} {k : State → Out} (h : ∀ t, Answered (k t)) :
    Answered (s.withErrs f q n op errs k) := by
  unfold State.withErrs
  split
  · exact answered_next _
  · split
    · exact h _
    · exact answered_next _

theorem answered_onFrame (s : State) (port : Nat) (f : Frame) (ok : Bool) (ty : Nat) (g : State → State) :
    Answered (s.onFrame port f ok ty g) := by
  unfold State.onFrame
  split
  · exact answered_next _
  · split <;> exact answered_next _

theorem answered_onLink (s : State) (port : Nat) (f : Frame) (ok : Bool) (ty : Nat) (g : State → State) :
    Answered (s.onLink port f ok ty g) := by
  unfold State.onLink
  split
  · exact answered_next _
  · split
    · exact answered_next _
    · split <;> exact answered_next _

theorem answered_ite {c : Prop} [Decidable c] {a b : Out} (ha : Answered a) (hb : Answered b) : Answered (if c then a else b) := by
  split
  · exact ha
  · exact hb

/-- LINK_ACK takes a frame of a reserved type by the link layer alone. -/
theorem execLinkAck_answers (port : Nat) (f : Frame) (ok : Bool) (s : State) : Answered (execLinkAck port f ok s) := by
  unfold execLinkAck
  split
  · split <;> exact answered_next _
  · exact answered_onLink ..

/-- Every row but the test access port's answers a next state: most through one of the forms above, the others by looking at the
state before they name it. -/
theorem exec_answers (i : Instr) (s : State) (h : ∀ ir tdi, i ≠ .testAccessPort ir tdi) : Answered (exec i s) := by
  cases i
  case testAccessPort ir tdi => exact absurd rfl (h ir tdi)
  case nop | cancel | supplyTime | planSubmit | contextCreate | contextDestroy | contextConfig | layoutUnload | blockMap | blockUnmap |
      tierHint | quotaSet | peerMap | lendRecall | streamResume | sessionOpen | sessionClose | sessionPause | sessionResume | sessionCancel
      | kvPark | kvUnpark | kvRelease | kvTtlSet | kvConfigure | weightWrite | weightLoad | weightLoadBroadcast | weightReplace |
      weightDelete | adapterAttach | adapterDetach | jobClose | linkRestore | linkRecalibrate | selfTest | showdown | showdownArm |
      memoryRetrain | weightReplaceCopy | jobOpenTimeout =>
    exact answered_work ..
  case sqTailDoorbell | cqHeadDoorbell | queueEnable | queueDisable | queueReset | queueResume | queueResetDone | commandFetch |
      regionUngate | frameRelease | scrubPassOverdue | kvRecordExpire | creditTimer | routeDataWrite | partReset | warmReset |
      functionLevelReset | vfRemoval | partitionResetDone | warmResetDone | faultRingEnable | frHeadWrite | intMaskWrite | debugWindowRead |
      mgmtWatchdogExpire | mgmtServiceResume | errorReport | sensorSample | showdownCutTimeout | correlationMarkerArrive | frequencyChange |
      standbyPowerGood | standbyPowerLoss | locationRetry | tcRelease | tcOffReq | tcHeartbeatWrite | heartbeatTimeout | railBringupTimeout
      | recoveryImageWrite | recoveryImageEnd | recoveryOwnerKey | perstAssert | perstDeassert | powerBrakeAssert | powerBrakeRelease |
      governorTick | thermalCapStep | iccLimitExceed | iccCapRaise | analogThermalTrip | railFault | precisionRestore | neighbourLinkRestore
      | vfEnable | railSettleTimeout | coalesceTimeout | rateToken | watchdogTimeout | regionGate | parkStart | parkComplete |
      replayTimeout | ackTimer | lossOfLock | creditTimeout | recoveryVerifyDone =>
    exact ⟨_, rfl⟩
  case info | logRead | logAck | firstErrorRead | sensorRead | counterRead | snapshotRead | snapshotRelease | updateWrite | updateCommit |
      floorRaise | identity | attest | debugWindow | ownerSet | fenceRead =>
    exact ⟨_, rfl⟩
  case piece | tile | credit | tear | memRead | memWrite | memData | memDone | memRefused | unreachable | reserve | confirm | reject =>
    exact answered_onFrame ..
  case generationAnnounce | generationRetiredReport | stepOutcomes | stepReady | stepCommitMessage | entryDropped =>
    exact answered_ite (answered_next _) (answered_onFrame ..)
  case lendRequest | lendGrant | lendRefusal | recallNotice | lendFrameRelease =>
    exact answered_ite (answered_onFrame ..) (answered_ite (answered_onFrame ..) (answered_next _))
  case dispatch | dispatchEnd | returnTile | returnEnd | retire =>
    exact answered_ite (answered_onFrame ..) (answered_next _)
  case layoutLoad | layoutReplace | placementMove | copy | fill | hostWrite | hostRead | run | streamLoad | shapeWrite | stepCmd |
      prefixLookup | jobOpen =>
    exact answered_withErrs (fun _ => answered_work ..)
  case commandStart | commandRerun | commandCommit | dealUpdateApply | tileArrive | pairIssue | storeWrite | drain | vectorRun | configItem
      | loadAcksComplete | cutArrive | cutComplete | replaceCutDone | faultedQuiescence | bindingTakeEffect | streamRequest |
      streamDataReturn | runAheadRequest | outputTileArrive | faultRecordWrite | streamAutoResume | weightLateTimeout | blockMapChangeDone |
      migrationStart | migrationDone | patrolScrubRead | recallBorrowerDeadline | recallLenderDeadline | parkBringIn | cancelRetire |
      expertSelect | combineRow | routerWaitTimeout | stripeErase | frameScrub | peerRequestTimeout | laneRetrainDone | registerWrite | registerReadClear
      | errorHubDrain | showdownPin | showdownCountMatch | showdownTileArrive | precisionLower | retrainWaitTimeout | retrainTargetQuiet =>
    dsimp only [exec, execCommandStart, execCommandRerun, execCommandCommit, execDealUpdateApply, execTileArrive, execPairIssue,
      execStoreWrite, execDrain, execVectorRun, execConfigItem, execLoadAcksComplete, execCutArrive, execCutComplete, execReplaceCutDone,
      execFaultedQuiescence, execBindingTakeEffect, execStreamRequest, execStreamDataReturn, execRunAheadRequest, execOutputTileArrive,
      execFaultRecordWrite, execStreamAutoResume, execWeightLateTimeout, execBlockMapChangeDone, execMigrationStart, execMigrationDone,
      execPatrolScrubRead, execRecallBorrowerDeadline, execRecallLenderDeadline, execParkBringIn, execCancelRetire, execExpertSelect,
      execCombineRow, execRouterWaitTimeout, execStripeErase, execFrameScrub, execPeerRequestTimeout, execLaneRetrainDone, execRegisterWrite,
      execRegisterReadClear, execErrorHubDrain, execShowdownPin, execShowdownCountMatch, execShowdownTileArrive, execPrecisionLower,
      execRetrainWaitTimeout, execRetrainTargetQuiet]
    repeat' first
      | exact answered_next _
      | split
  case lane => exact answered_ite (answered_next _) (answered_ite (answered_next _) (answered_ite (answered_next _) (answered_next _)))
  case linkAck => exact execLinkAck_answers ..
  case pieceRequest | readerStart | doneNotice =>
    exact answered_ite (answered_next _) (answered_ite (answered_next _) (answered_onFrame ..))
  case dealPublication =>
    exact answered_ite (answered_onFrame ..) (answered_ite (answered_next _) (answered_onFrame ..))

/-- The one instruction of the test access port that is refused. -/
theorem execTestAccessPort_cases (ir : Nat) (tdi : List Bool) (s : State) :
    (s.power.stbyPg = true ∧ 8 ≤ ir ∧ s.mgmt.debugAllowed = true ∧ execTestAccessPort ir tdi s = .refused .debugInstruction) ∨
    (¬ (s.power.stbyPg = true ∧ 8 ≤ ir ∧ s.mgmt.debugAllowed = true) ∧ Answered (execTestAccessPort ir tdi s)) := by
  unfold execTestAccessPort
  cases hp : s.power.stbyPg with
  | false => exact .inr ⟨fun h => Bool.noConfusion h.1, answered_next _⟩
  | true =>
    by_cases hd : 8 ≤ ir ∧ s.mgmt.debugAllowed = true
    · exact .inl ⟨rfl, hd.1, hd.2, by rw [if_neg (by decide), if_pos hd]⟩
    · refine .inr ⟨fun h => hd h.2, ?_⟩
      rw [if_neg (by decide), if_neg hd]
      exact answered_ite (answered_next _) (answered_ite (answered_next _) (answered_next _))

/-- Settles O43: every other row answers, and the test access port does unless it refuses (R497). -/
theorem everyCommandIsAnswered : Obligations.EveryCommandIsAnswered := by
  unfold Obligations.EveryCommandIsAnswered
  refine fun i s => ⟨?_, fun ir tdi => ?_⟩
  · by_cases hi : ∃ ir tdi, i = .testAccessPort ir tdi
    · obtain ⟨ir, tdi, rfl⟩ := hi
      rcases execTestAccessPort_cases ir tdi s with ⟨-, -, -, he⟩ | ⟨-, ha⟩
      · exact .inr ⟨ir, tdi, rfl, he⟩
      · exact .inl ha
    · exact .inl (exec_answers i s (fun ir tdi e => hi ⟨ir, tdi, e⟩))
  · rcases execTestAccessPort_cases ir tdi s with ⟨hp, hir, hd, he⟩ | ⟨hn, t, ht⟩
    · exact ⟨fun _ => ⟨hp, hir, hd⟩, fun _ => he⟩
    · exact ⟨fun he => (nomatch ht.symm.trans he), fun h => absurd h hn⟩

end Sys2Proof.Machine
end

section
/-! What reports, the end of commands and context teardown leave alone of the package (R13, R77, R447, R464): the power registers, the
management island's boot and images, the Protection Set-up; and that they make no context live and take no circuit entry. -/
namespace Sys2Proof.Machine

/-! ### What is steady -/

/-- The management island without what a report, a showdown and the end of a command change: the log, the showdown's registers, the clusters
under test and the debug window's enable. -/
def Mgmt.plain (m : Mgmt) : Mgmt :=
  { m with log := [], nextLog := 0, arming := none, showNum := 0, showHeld := false, showCut := false, showIncomplete := false,
           showRecorded := false, showCounts := [], showItems := [], showFree := 0, showStations := [], missed := 0, testing := [],
           dbgEnable := false }

/-- The power state without the showdown pin and what a change of frequency changes. -/
def Power.plain (p : Power) : Power := { p with showdownDrive := 0, dies := [], codes := [], supplies := [] }

/-- From s to t the package stays as it is: no context becomes live and no free circuit entry is taken. -/
structure State.Steady (s t : State) : Prop where
  parts  : t.parts = s.parts
  power  : t.power.plain = s.power.plain
  mgmt   : t.mgmt.plain = s.mgmt.plain
  halted : t.cp.halted = s.cp.halted
  live   : ∀ c, t.ctxLive c = true → s.ctxLive c = true
  freed  : ∀ k, (s.circOf k).state = 0 → (t.circOf k).state = 0

theorem State.Steady.refl (s : State) : s.Steady s := ⟨rfl, rfl, rfl, rfl, fun _ => id, fun _ => id⟩

theorem State.Steady.trans {s t u : State} (h : s.Steady t) (k : t.Steady u) : s.Steady u :=
  ⟨k.parts.trans h.parts, k.power.trans h.power, k.mgmt.trans h.mgmt, k.halted.trans h.halted, fun c hc => h.live c (k.live c hc),
   fun c hc => k.freed c (h.freed c hc)⟩

theorem State.Steady.foldl {α : Type} {s t : State} (l : List α) (g : State → α → State) (h : s.Steady t)
    (hg : ∀ (u : State) x, u.Steady (g u x)) : s.Steady (l.foldl g t) := by
  induction l generalizing t with
  | nil => exact h
  | cons x l ih => exact ih (h.trans (hg t x))

theorem State.Steady.ite {c : Prop} [Decidable c] {s t u : State} (ht : s.Steady t) (hu : s.Steady u) :
    s.Steady (if c then t else u) := by
  split
  · exact ht
  · exact hu

/-- What a steady state's power registers read, by any of them that `Power.plain` keeps. -/
theorem State.Steady.powerOf {α : Type} {s t : State} (h : s.Steady t) (g : Power → α) (hg : ∀ p : Power, g p.plain = g p := by exact fun _ => rfl) :
    g t.power = g s.power := by
  rw [← hg, h.power, hg]

theorem State.Steady.mgmtOf {α : Type} {s t : State} (h : s.Steady t) (g : Mgmt → α) (hg : ∀ m : Mgmt, g m.plain = g m := by exact fun _ => rfl) :
    g t.mgmt = g s.mgmt := by
  rw [← hg, h.mgmt, hg]

/-- The groups a steady change may touch freely. -/
abbrev steadyGroups : List Group := [.cores, .slots, .cmem, .sram, .tiers, .kv, .sess, .router, .store, .isl, .host, .free]

/-- A change of none but those groups and the management island is steady where `Mgmt.plain` does not see it. -/
theorem State.Only.steady_mgmt {gs : List Group} {s t : State} (h : s.Only gs t) (hg : ∀ g ∈ gs, g ∈ .mgmt :: steadyGroups)
    (hm : t.mgmt.plain = s.mgmt.plain) : s.Steady t := by
  have h' := h.mono _ hg
  have hctx : t.ctxs = s.ctxs := h'.ctxs.resolve_left (by decide)
  have hfab : t.fab = s.fab := h'.fab.resolve_left (by decide)
  refine ⟨h'.parts.resolve_left (by decide), ?_, hm, ?_, fun c hc => ?_, fun k hk => ?_⟩
  · rw [h'.power.resolve_left (by decide)]
  · rw [h'.cp.resolve_left (by decide)]
  · rwa [State.ctxLive, State.ctxOf, hctx] at hc
  · rwa [State.circOf, hfab]

/-- A change of none but the listed groups is steady. -/
theorem State.Only.steady {gs : List Group} {s t : State} (h : s.Only gs t) (hg : ∀ g ∈ gs, g ∈ steadyGroups) : s.Steady t :=
  h.steady_mgmt (fun g hm => List.mem_cons_of_mem _ (hg g hm)) (by rw [(h.mono steadyGroups hg).mgmt.resolve_left (by decide)])

/-! ### The shared updates -/

theorem State.steady_modCtx (s : State) (c : Nat) (g : Context → Context) (hg : ∀ x, (g x).live = true → x.live = true) :
    s.Steady (s.modCtx c g) := by
  refine ⟨rfl, rfl, rfl, rfl, fun j hj => ?_, fun _ => id⟩
  rw [State.ctxLive, State.ctxOf_modCtx] at hj
  split at hj
  next e => exact e ▸ hg _ hj
  next => exact hj

theorem State.steady_modLayout (s : State) (c l : Nat) (g : Layout → Layout) : s.Steady (s.modLayout c l g) :=
  s.steady_modCtx c _ (fun _ => id)
theorem State.steady_setLayout (s : State) (c l : Nat) (o : Option Layout) : s.Steady (s.setLayout c l o) :=
  s.steady_modCtx c _ (fun _ => id)
theorem State.steady_modJob (s : State) (c : Nat) (g : Job → Job) : s.Steady (s.modJob c g) := s.steady_modCtx c _ (fun _ => id)

theorem State.steady_modCmd (s : State) (f q n : Nat) (g : Cmd → Cmd) : s.Steady (s.modCmd f q n g) :=
  ⟨rfl, rfl, rfl, rfl, fun _ => id, fun _ => id⟩
theorem State.steady_modPort (s : State) (p : Nat) (g : Port → Port) : s.Steady (s.modPort p g) :=
  ⟨rfl, rfl, rfl, rfl, fun _ => id, fun _ => id⟩

theorem State.steady_modCirc (s : State) (k : Nat) (g : Circuit → Circuit) (hg : ∀ x, x.state = 0 → (g x).state = 0) :
    s.Steady (s.modCirc k g) := by
  refine ⟨rfl, rfl, rfl, rfl, fun _ => id, fun j hj => ?_⟩
  rw [State.circOf_modCirc]
  split
  next e => exact hg _ (e ▸ hj)
  next => exact hj

/-- A change of the fabric that keeps the circuit table. -/
theorem State.steady_set_fab (s : State) (x : Fab) (h : x.circuits = s.fab.circuits) : s.Steady { s with fab := x } :=
  ⟨rfl, rfl, rfl, rfl, fun _ => id, fun k hk => by rwa [State.circOf, h]⟩

/-- A change of the management island that `Mgmt.plain` does not see. -/
theorem State.steady_set_mgmt (s : State) (x : Mgmt) (h : x.plain = s.mgmt.plain) : s.Steady { s with mgmt := x } :=
  ⟨rfl, rfl, h, rfl, fun _ => id, fun _ => id⟩

theorem State.steady_set_power (s : State) (x : Power) (h : x.plain = s.power.plain) : s.Steady { s with power := x } :=
  ⟨rfl, h, rfl, rfl, fun _ => id, fun _ => id⟩

/-! ### Reports -/

theorem State.steady_logAppend (s : State) (r : List Word) : s.Steady (s.logAppend r) :=
  (s.only_logAppend r).steady_mgmt (by decide) (by rw [s.logAppend_mgmt, Mgmt.plain, Mgmt.plain])

theorem State.steady_freeNext (s : State) (n : Nat) : s.Steady (s.freeNext n) := (s.only_freeNext n).steady (by decide)

theorem State.steady_showRecord (s : State) : s.Steady s.showRecord :=
  s.only_showRecord_log.steady_mgmt (by decide) (by rw [s.showRecord_mgmt, Mgmt.plain, Mgmt.plain])

theorem State.steady_showCheck (s : State) : s.Steady s.showCheck := by
  unfold State.showCheck
  exact State.Steady.ite s.steady_showRecord (State.Steady.refl s)

theorem State.steady_showStart (s : State) (num : Nat) : s.Steady (s.showStart num) := by
  unfold State.showStart
  exact State.Steady.foldl _ _ (s.steady_set_mgmt _ rfl) (fun u x => u.steady_modLayout ..)

theorem State.steady_shown (s : State) (cut drive : Bool) : s.Steady (s.shown cut drive) :=
  ⟨rfl, by cases drive <;> rfl, rfl, rfl, fun _ => id, fun _ => id⟩

theorem State.steady_latchTree (s : State) (b : Bool) : s.Steady (s.latchTree b) := by
  have honly : s.Only [.isl, .mgmt, .free] (s.latchTree b) := by constructor <;> simp [State.latchTree]
  exact honly.steady_mgmt (by decide) (by rw [State.latchTree, Mgmt.plain, Mgmt.plain])

theorem State.steady_trigger (s : State) (cut drive : Bool) : s.Steady (s.trigger cut drive) := by
  cases h : s.mgmt.showHeld with
  | true =>
    rw [s.trigger_held cut drive h]
    exact s.steady_set_mgmt _ rfl
  | false =>
    cases cut with
    | false =>
      rw [s.trigger_fast drive h]
      exact ((s.steady_shown false drive).trans (State.steady_latchTree _ true)).trans (State.steady_showRecord _)
    | true =>
      rw [s.trigger_cut drive h]
      exact (((s.steady_shown true drive).trans (State.steady_latchTree _ false)).trans (State.steady_showStart _ _)).trans
        (State.steady_showCheck _)

theorem State.steady_classTrigger (s : State) (cls : Nat) : s.Steady (s.classTrigger cls) := by
  unfold State.classTrigger
  split
  next a _ =>
    split
    · refine State.Steady.ite ?_ (State.Steady.refl s)
      exact (s.steady_set_mgmt { s.mgmt with arming := none } rfl).trans (State.steady_trigger _ _ _)
    · exact State.Steady.refl s
  next => exact State.Steady.refl s

theorem State.steady_reportTy (s : State) (ty island cls code : Nat) (ctx : Option Nat) (detail : Nat) :
    s.Steady (s.reportTy ty island cls code ctx detail) := by
  unfold State.reportTy
  exact ((s.only_modIsl ..).steady (by decide)).trans (State.steady_classTrigger _ _)

theorem State.steady_report (s : State) (island cls code : Nat) (ctx : Option Nat) (detail : Nat) :
    s.Steady (s.report island cls code ctx detail) := by
  unfold State.report
  exact (State.steady_reportTy ..).trans (State.steady_freeNext _ _)

/-! ### Frames that leave, and circuits that are torn -/

theorem State.steady_sendOn (s : State) (port : Nat) (f : Frame) : s.Steady (s.sendOn port f) := s.steady_modPort port _

theorem State.steady_emit (s : State) (k : Nat) (f : Frame) : s.Steady (s.emit k f) :=
  State.Steady.foldl _ _ (State.Steady.refl s) (fun u _ => u.steady_sendOn ..)

theorem State.steady_sendCircuit (s : State) (k : Nat) (f : Frame) : s.Steady (s.sendCircuit k f) := by
  unfold State.sendCircuit
  dsimp only
  refine State.Steady.ite (State.Steady.refl s) (State.Steady.ite ?_ (s.steady_modCirc _ _ (fun _ => id)))
  exact (s.steady_modCirc k (fun x => { x with avail := x.avail - f.cost }) (fun _ => id)).trans (State.steady_emit ..)

theorem State.steady_toChip (s : State) (ctx kind chip : Nat) (f : Frame) : s.Steady (s.toChip ctx kind chip f) := by
  unfold State.toChip
  split
  · exact s.steady_sendCircuit ..
  · exact State.Steady.refl s

theorem State.steady_sendAnswer (s : State) (f : Frame) : s.Steady (s.sendAnswer f) := by
  unfold State.sendAnswer State.sendPacket
  cases s.pickCand f 0 with
  | none => exact State.Steady.refl s
  | some p => exact s.steady_sendOn p f

theorem State.steady_lendReturn (s : State) (part chip frame : Nat) : s.Steady (s.lendReturn part chip frame) := s.steady_sendAnswer _

theorem State.steady_tearEntry (s : State) (k cause lost : Nat) (o : Option Nat) : s.Steady (s.tearEntry k cause lost o) := by
  unfold State.tearEntry
  extract_lets c ks f side s1 s2 s3
  have hside : ∀ (u : State) b port circ chip, u.Steady (side u b port circ chip) := fun u b port circ chip =>
    State.Steady.ite (State.Steady.refl u) (u.steady_sendOn ..)
  have h2 : s1.Steady s2 := State.Steady.foldl _ _ (State.Steady.refl s1) (fun u j => State.Steady.ite (hside ..) (State.Steady.refl u))
  have h3 : s2.Steady s3 := State.Steady.foldl _ _ (State.Steady.refl s2) (fun u j => u.steady_modCirc _ _ (fun _ _ => rfl))
  exact State.Steady.ite (State.Steady.refl s) ((((hside s ..).trans h2).trans h3).trans (s3.steady_set_fab _ rfl))

theorem State.steady_tearJob (s : State) (ctx cause : Nat) : s.Steady (s.tearJob ctx cause) :=
  State.Steady.foldl _ _ (State.Steady.refl s) (fun u _ => u.steady_tearEntry ..)

/-! ### What a command held goes back -/

theorem State.steady_dropFrame (s : State) (fid : Nat) : s.Steady (s.dropFrame fid) := (s.only_dropFrame fid).steady (by decide)
theorem State.steady_modCores (s : State) (cs : List Nat) (g : Core → Core) : s.Steady (s.modCores cs g) :=
  (s.only_modCores cs g).steady (by decide)
theorem State.steady_modSess (s : State) (k : Nat) (g : Session → Session) : s.Steady (s.modSess k g) :=
  (s.only_set_sess _).steady (by decide)
theorem State.steady_set_store (s : State) (x : Store) : s.Steady { s with store := x } := (s.only_set_store x).steady (by decide)
theorem State.steady_set_tiers (s : State) (x : Tiers) : s.Steady { s with tiers := x } := (s.only_set_tiers x).steady (by decide)
theorem State.steady_set_router (s : State) (x : Tbl RouterLayer) : s.Steady { s with router := x } :=
  (s.only_set_router x).steady (by decide)

theorem State.steady_oweCredits (s : State) (f : Frame) : s.Steady (s.oweCredits f) := by
  unfold State.oweCredits
  exact s.steady_modCirc _ _ (fun _ => id)

theorem State.steady_dropRouted (s : State) (ctx : Nat) (f : Frame) : s.Steady (s.dropRouted ctx f) := by
  unfold State.dropRouted
  exact (s.steady_oweCredits f).trans (State.steady_modCtx _ _ _ (fun _ => id))

theorem State.steady_flushHeld (s : State) (ctx : Nat) : s.Steady (s.flushHeld ctx) := by
  unfold State.flushHeld
  split
  · exact State.Steady.refl s
  · exact State.Steady.foldl _ _ (s.steady_modJob ..) (fun u p => u.steady_dropRouted ..)

theorem State.steady_retireCheck (s : State) (ctx gen : Nat) : s.Steady (s.retireCheck ctx gen) := by
  unfold State.retireCheck State.jobCtrl
  split
  next => exact State.Steady.refl s
  next j _ =>
    dsimp only
    refine State.Steady.ite (State.Steady.refl s) (State.Steady.ite (State.Steady.ite ?_ ?_) ?_)
    · exact (s.steady_modJob ..).trans (State.steady_modJob ..)
    · exact s.steady_modJob ..
    · exact (s.steady_modJob ..).trans (State.steady_toChip ..)

theorem State.steady_retireStart (s : State) (ctx : Nat) : s.Steady (s.retireStart ctx) := by
  unfold State.retireStart
  split
  next => exact State.Steady.refl s
  next j _ =>
    extract_lets s1 s2 s3
    have h2 : s.Steady s2 := State.Steady.foldl _ _ (s.steady_modJob ..) (fun u p => u.steady_toChip ..)
    have h3 : s.Steady s3 := (h2.trans (s2.steady_retireCheck ..)).trans (State.steady_flushHeld ..)
    exact State.Steady.ite (State.Steady.refl s) (h3.trans (s3.steady_set_router _))

theorem State.steady_dropLayout (s : State) (ctx lnum : Nat) : s.Steady (s.dropLayout ctx lnum) := by
  unfold State.dropLayout
  split
  · exact (s.steady_modCores _ _).trans (State.steady_setLayout ..)
  · exact State.Steady.refl s

theorem State.steady_undoReplace (s : State) (ctx lnum : Nat) : s.Steady (s.undoReplace ctx lnum) := by
  unfold State.undoReplace
  split
  · exact (s.steady_modCores _ _).trans (State.steady_setLayout ..)
  · exact State.Steady.refl s

theorem State.steady_undoMark (s : State) (f q n k : Nat) : s.Steady (s.undoMark f q n k) :=
  State.Steady.ite (State.Steady.refl s) (s.steady_modSess ..)

theorem State.steady_freeCand (s : State) (ctx num : Nat) : s.Steady (s.freeCand ctx num) := (s.only_freeCand ctx num).steady (by decide)

/-- Opening a job goes back: its circuits are torn, and its RESERVEs that wait are answered with TEAR. -/
theorem State.steady_undoJob (s : State) (ctx : Nat) (l : List (Nat × Frame)) :
    s.Steady (l.foldl (fun (t : State) w => State.sendOn { t with fab := { t.fab with waiting := t.fab.waiting.erase w } } w.1
      { t.frame 0x15 w.2.src [0] [] with circuit := w.2.tf 1 13 2 }) (s.tearJob ctx 0)) :=
  State.Steady.foldl _ _ (s.steady_tearJob ctx 0) (fun u w => (u.steady_set_fab { u.fab with waiting := u.fab.waiting.erase w } rfl).trans
    (State.steady_modPort _ w.1 _))

theorem State.steady_undoWork (s : State) (f q n : Nat) (c : Cmd) : s.Steady (s.undoWork f q n c) := by
  have hrefl := State.Steady.refl s
  unfold State.undoWork
  match c.work with
  | .layout num stage =>
    exact State.Steady.ite (State.Steady.ite (s.steady_dropLayout ..) hrefl) (State.Steady.ite (s.steady_modLayout ..)
      (State.Steady.ite (s.steady_undoReplace ..) hrefl))
  | .move num stage addr => exact State.Steady.ite (s.steady_dropLayout ..) hrefl
  | .replace _ _ _ _ _ _ _ staging =>
    refine (State.Steady.foldl staging (fun t p => t.dropFrame p.2) hrefl (fun u p => u.steady_dropFrame p.2)).trans
      (State.steady_modCtx _ _ _ (fun x => ?_))
    split <;> exact id
  | .sessionCancel k _ _ => exact s.steady_undoMark f q n k
  | .target kind index stage =>
    exact State.Steady.ite (s.steady_set_mgmt _ rfl) (State.Steady.ite (s.steady_set_tiers _) hrefl)
  | .port p lane all left => exact s.steady_modPort ..
  | .recall first count released refused past =>
    exact State.Steady.ite hrefl ((s.steady_set_tiers _).trans (State.steady_set_tiers _ _))
  | .peer chip first count granted =>
    exact State.Steady.ite (State.Steady.foldl _ _ hrefl (fun u p => u.steady_lendReturn ..)) hrefl
  | .job _ =>
    refine (s.steady_undoJob c.ctx _).trans (State.steady_modCtx _ _ _ (fun x => ?_))
    split
    · split <;> exact id
    · exact id
  | .object key stripes =>
    exact State.Steady.ite ((s.steady_set_store _).trans (State.steady_set_store _ _)) (State.Steady.ite (s.steady_set_store _) hrefl)
  | .step st =>
    have h1 := State.Steady.foldl st.entries (fun t e => t.freeCand c.ctx e.candRec) hrefl (fun u e => u.steady_freeCand ..)
    have h2 := h1.trans (State.Steady.ite (c := st.span = true) (State.steady_modJob _ c.ctx (fun j => { j with stepMsgs := [] }))
      (State.Steady.refl _))
    exact State.Steady.ite (h2.trans (State.steady_retireStart ..)) (State.Steady.ite (h2.trans (State.steady_set_router ..)) h2)
  | .none | .cancelOf _ _ | .supplied _ | .correlation _ | .plan _ | .ctx _ | .mapping _ _ | .quota _ _ | .hints _ _ _ _ | .streams _ _
  | .session _ | .lookup _ _ _ | .kv _ _ | .geom _ | .load _ _ _ _ _ _ | .broadcast _ _ _ _ _ _ _ _ | .restore _ _ _ _ | .showdown _ =>
    exact hrefl

theorem State.steady_sendCuts (s : State) (ctx lnum : Nat) : s.Steady (s.sendCuts ctx lnum) := by
  unfold State.sendCuts
  split
  · exact State.Steady.refl s
  · exact State.Steady.ite (State.Steady.refl s) (s.steady_setLayout ..)

theorem State.steady_endSlot (s : State) (key : Nat) (v : Slot) : s.Steady (s.endSlot key v) := by
  unfold State.endSlot
  refine State.Steady.trans ?_ (State.steady_sendCuts ..)
  have h1 : s.Steady { s with slots := tset none s.slots key none } := (s.only_set_slots _).steady (by decide)
  exact State.Steady.ite h1 (h1.trans (State.steady_modLayout ..))

theorem State.steady_endStreams (s : State) (f q n : Nat) : s.Steady (s.endStreams f q n) :=
  State.Steady.foldl _ _ (State.Steady.refl s) (fun u _ => u.steady_endSlot ..)

theorem State.steady_dropShadows (s : State) (f q n : Nat) : s.Steady (s.dropShadows f q n) := by
  unfold State.dropShadows
  split
  next => exact State.Steady.refl s
  next c _ =>
    have h1 := State.Steady.foldl c.shadows (fun t p => t.dropFrame p.2.frame) (State.Steady.refl s) (fun u p => u.steady_dropFrame _)
    exact (State.Steady.foldl _ _ h1 (fun u _ => State.Steady.ite (State.Steady.refl u) (u.steady_dropFrame _))).trans
      (State.steady_modCmd ..)

theorem State.steady_release (s : State) (f q n : Nat) : s.Steady (s.release f q n) := by
  unfold State.release
  split
  · exact State.Steady.refl s
  · exact (((s.steady_undoWork ..).trans (State.steady_endStreams ..)).trans (State.steady_dropShadows ..)).trans (State.steady_modCmd ..)

/-! ### Ending a command, and teardown -/

theorem State.steady_finish (s : State) (f q n : Nat) (v : Verdict) : s.Steady (s.finish f q n v) := s.steady_modCmd ..

theorem State.steady_failMoved (s : State) (ctx lnum status : Nat) : s.Steady (s.failMoved ctx lnum status) :=
  State.Steady.foldl _ _ (State.Steady.refl s) (fun u _ => (u.steady_finish ..).trans (State.steady_modCmd ..))

theorem State.steady_endCmd (s : State) (f q n : Nat) (v : Verdict) : s.Steady (s.endCmd f q n v) := by
  have h : s.Steady ((s.release f q n).finish f q n v) := (s.steady_release ..).trans (State.steady_finish ..)
  unfold State.endCmd
  dsimp only
  split
  · split
    · exact h.trans (State.steady_failMoved ..)
    · exact h
  · exact h

theorem State.steady_unmapAll (s : State) (ctx : Nat) : s.Steady (s.unmapAll ctx) := (s.only_unmapAll ctx).steady (by decide)

theorem State.steady_teardownBy (s : State) (ctx st : Nat) (verdict : Nat → Nat → Cmd → Verdict) :
    s.Steady (s.teardownBy ctx st verdict) := by
  unfold State.teardownBy
  extract_lets cs s0 s1 s2 s3 fab mgmt s4
  have h1 : s.Steady s1 := State.Steady.foldl _ _ (s.steady_tearJob ctx 1) (fun u _ => u.steady_endCmd ..)
  have honly : s1.Only [.cores, .kv, .sess] s2 := by constructor <;> simp [s2, State.clearContextCores, State.dropKv]
  have h2 : s.Steady s2 := h1.trans (honly.steady (by decide))
  have h3 : s.Steady s3 := by
    refine (h2.trans (State.Only.steady (gs := [.router, .slots]) ?_ (by decide))).trans (State.steady_unmapAll _ ctx)
    constructor <;> simp
  have hmgmt : s4.mgmt.plain = s3.mgmt.plain := by
    simp only [s4]
    split <;> rfl
  have h4 : s.Steady s4 := (h3.trans (s3.steady_set_fab s4.fab rfl)).trans (State.steady_set_mgmt { s3 with fab := s4.fab } s4.mgmt hmgmt)
  exact State.Steady.ite (State.Steady.refl s) ((h4.trans (s4.steady_modCtx ctx _ (fun _ h => Bool.noConfusion h))).trans
    (State.steady_report ..))

theorem State.steady_teardown (s : State) (ctx : Nat) (v : Verdict) (hit : Nat → Nat → Cmd → Bool) : s.Steady (s.teardown ctx v hit) :=
  s.steady_teardownBy ctx _ _

/-! ### A tear at an endpoint -/

theorem State.steady_endpointTorn (s : State) (ctx k cause lost : Nat) (own : Bool) : s.Steady (s.endpointTorn ctx k cause lost own) := by
  unfold State.endpointTorn
  split
  next => exact State.Steady.refl s
  next j _ =>
    refine State.Steady.ite ?_ (State.Steady.ite ?_ (s.steady_teardown ..))
    · unfold State.failOpen
      split
      · exact s.steady_endCmd ..
      · exact State.Steady.refl s
    · exact (s.steady_tearJob ctx 0).trans (State.steady_modCtx _ _ _ (fun _ => id))

end Sys2Proof.Machine
end

section
/-! What one report leaves, exactly (R447, R448, R464); the core rails going off; and what a loop over a table leaves of each entry. -/
namespace Sys2Proof.Machine

/-! ### A loop that changes one entry at a time -/

/-- A loop over indexes, each step of which changes the entry of its own index, has changed an index it meets once, and no index it does not
meet. What the steps rely on is kept by each of them. -/
theorem foldl_once {σ α : Type} (rd : σ → Nat → α) (g : σ → Nat → σ) (f : Nat → α → α) (I : σ → Prop) (l : List Nat) (t : σ) (j : Nat)
    (hI : ∀ u d, I u → I (g u d)) (hg : ∀ u d, I u → rd (g u d) j = if j = d then f d (rd u d) else rd u j) (ht : I t)
    (hj : l.count j ≤ 1) : I (l.foldl g t) ∧ rd (l.foldl g t) j = if j ∈ l then f j (rd t j) else rd t j := by
  induction l generalizing t with
  | nil => exact ⟨ht, rfl⟩
  | cons d l ih =>
    by_cases hd : j = d
    · subst hd
      have hnot : j ∉ l := List.count_eq_zero.1 (by rw [List.count_cons_self] at hj; omega)
      obtain ⟨hi, hr⟩ := ih (g t j) (hI t j ht) (by rw [List.count_eq_zero.2 hnot]; omega)
      refine ⟨hi, ?_⟩
      rw [List.foldl_cons, hr, if_neg hnot, hg t j ht, if_pos rfl, if_pos List.mem_cons_self]
    · have hcount : l.count j ≤ 1 := by rwa [List.count_cons_of_ne (Ne.symm hd)] at hj
      obtain ⟨hi, hr⟩ := ih (g t d) (hI t d ht) hcount
      have hmem : j ∈ d :: l ↔ j ∈ l := by simp [hd]
      refine ⟨hi, ?_⟩
      rw [List.foldl_cons, hr, hg t d ht, if_neg hd]
      simp only [hmem]

theorem count_range_le_one (n j : Nat) : (List.range n).count j ≤ 1 := List.nodup_iff_count_le_one.1 List.nodup_range j

/-! ### A change of a whole table that names no default -/

theorem tget_tmap {α : Type} [DecidableEq α] (d : α) (t : Tbl α) (f : Nat → α → α) (k : Nat) (hf : ∀ x, f k x ≠ d) :
    tget d (tmap d t f) k = if k ∈ tkeys t then f k (tget d t k) else d := by
  induction t with
  | nil => rfl
  | cons p t ih =>
    obtain ⟨i, v⟩ := p
    by_cases hi : i = k
    · subst hi
      simp [tmap, tget, hf, tkeys]
    · have hk : k ∈ tkeys ((i, v) :: t) ↔ k ∈ tkeys t := by simp [tkeys, Ne.symm hi]
      have ht : tget d (tmap d ((i, v) :: t) f) k = tget d (tmap d t f) k := by
        by_cases hv : f i v = d <;> simp [tmap, hv, tget, hi]
      simp only [ht, ih, hk, tget, hi, if_false]

/-! ### Cores without hands -/

/-- No core the table lists holds a hand. -/
def State.Handless (s : State) : Prop := ∀ p ∈ s.cores, p.2.hands = []

theorem State.Handless.handOf {s : State} (h : s.Handless) (k i : Nat) : s.handOf k i = none := by
  have hk : (s.coreOf k).hands = [] := by
    by_cases hd : s.coreOf k = {}
    · rw [hd]
    · exact h _ (tget_mem {} (s.coreOf k) s.cores k rfl hd)
  rw [State.handOf, hk, tget_nil]

theorem State.Handless.tmap {s t : State} {f : Nat → Core → Core} (h : s.Handless) (hf : ∀ k x, x.hands = [] → (f k x).hands = [])
    (e : t.cores = Machine.tmap {} s.cores f) : t.Handless := by
  intro p hp
  rw [e] at hp
  obtain ⟨q, hq, rfl⟩ := List.mem_map.1 (List.mem_filter.1 hp).1
  exact hf _ _ (h q hq)

/-- Scrubbing every cluster leaves no hand. -/
theorem State.handless_scrubClusters (s : State) : (s.scrubClusters (fun _ => true)).Handless := by
  intro p hp
  obtain ⟨q, -, rfl⟩ := List.mem_map.1 (List.mem_filter.1 hp).1
  rfl

/-! ### Reports -/

/-- What a report or a showdown it triggers leaves: of the power state only the pin's pulses differ, no island starts or stops, and no core takes
a hand. -/
structure State.Reported (s t : State) : Prop where
  only    : s.Only showGroups t
  power   : ∃ n, t.power = { s.power with showdownDrive := n }
  running : ∀ k, (t.islOf k).running = (s.islOf k).running
  hands   : s.Handless → t.Handless

theorem State.Reported.refl (s : State) : s.Reported s := ⟨State.Only.refl _ s, ⟨_, rfl⟩, fun _ => rfl, id⟩

theorem State.Reported.trans {s t u : State} (h : s.Reported t) (k : t.Reported u) : s.Reported u := by
  obtain ⟨n, hn⟩ := h.power
  obtain ⟨m, hm⟩ := k.power
  exact ⟨h.only.trans k.only, ⟨m, by rw [hm, hn]⟩, fun i => (k.running i).trans (h.running i), fun hs => k.hands (h.hands hs)⟩

/-- A change that touches neither the power state, the islands nor the cores. -/
theorem State.Only.reported {gs : List Group} {s t : State} (h : s.Only gs t) (hg : ∀ g ∈ gs, g ∈ [Group.mgmt, .ctxs, .free]) :
    s.Reported t := by
  have h' := h.mono _ hg
  have hisl : t.isl = s.isl := h'.isl.resolve_left (by decide)
  have hcores : t.cores = s.cores := h'.cores.resolve_left (by decide)
  refine ⟨h'.mono _ (by decide), ⟨s.power.showdownDrive, h'.power.resolve_left (by decide)⟩, fun k => ?_, fun hs => ?_⟩
  · rw [State.islOf, State.islOf, hisl]
  · rwa [State.Handless, hcores]

theorem State.reported_modIsl (s : State) (k : Nat) (g : Island → Island) (hg : ∀ i, (g i).running = i.running) :
    s.Reported (s.modIsl k g) := by
  refine ⟨(s.only_modIsl k g).mono _ (by decide), ⟨_, rfl⟩, fun j => ?_, id⟩
  rw [State.islOf_modIsl]
  split
  next e => rw [e, hg]
  next => rfl

theorem State.reported_latchTree (s : State) (b : Bool) : s.Reported (s.latchTree b) := by
  have hpower : (s.latchTree b).power = s.power := by simp only [State.latchTree]
  have hcores : (s.latchTree b).cores = s.cores := by simp only [State.latchTree]
  refine ⟨s.only_latchTree b, ⟨_, hpower⟩, fun k => ?_, fun hs => by rwa [State.Handless, hcores]⟩
  have hisl : (s.latchTree b).islOf k = if k ∈ tkeys s.isl then { s.islOf k with snap := some (s.islOf k).count } else {} :=
    tget_tmap {} s.isl (fun _ i => { i with snap := some i.count }) k (fun x h => nomatch congrArg Island.snap h)
  rw [hisl]
  split
  next => rfl
  next h => rw [State.islOf, tget_absent _ _ _ h]

theorem State.reported_shown (s : State) (cut drive : Bool) : s.Reported (s.shown cut drive) := by
  have hpower : ∃ n, (s.shown cut drive).power = { s.power with showdownDrive := n } := by
    cases drive
    · exact ⟨s.power.showdownDrive, rfl⟩
    · exact ⟨s.power.showdownDrive + 1, rfl⟩
  refine ⟨?_, hpower, fun _ => rfl, fun hs => hs.tmap (f := fun _ c => { c with snapLatched := false, snapIn := [] }) (fun _ _ => id) rfl⟩
  constructor <;> simp [State.shown]

theorem State.reported_trigger (s : State) (cut drive : Bool) : s.Reported (s.trigger cut drive) := by
  cases h : s.mgmt.showHeld with
  | true =>
    rw [s.trigger_held cut drive h]
    exact (s.only_set_mgmt _).reported (by decide)
  | false =>
    cases cut with
    | false =>
      rw [s.trigger_fast drive h]
      exact ((s.reported_shown false drive).trans (State.reported_latchTree _ true)).trans
        ((State.only_showRecord_log _).reported (by decide))
    | true =>
      rw [s.trigger_cut drive h]
      exact (((s.reported_shown true drive).trans (State.reported_latchTree _ false)).trans
        ((State.only_showStart_ctxs _ _).reported (by decide))).trans ((State.only_showCheck_log _).reported (by decide))

theorem State.reported_classTrigger (s : State) (cls : Nat) : s.Reported (s.classTrigger cls) := by
  unfold State.classTrigger
  split
  next a _ =>
    split
    · split
      · have h : s.Reported { s with mgmt := { s.mgmt with arming := none } } := (s.only_set_mgmt _).reported (by decide)
        exact h.trans (State.reported_trigger _ _ _)
      · exact State.Reported.refl s
    · exact State.Reported.refl s
  next => exact State.Reported.refl s

theorem Island.report_running (i : Island) (cls : Nat) (r : List Word) : (i.report cls r).running = i.running := by
  unfold Island.report
  cases i.first <;> dsimp only <;> split <;> rfl

theorem State.reported_report (s : State) (island cls code : Nat) (ctx : Option Nat) (detail : Nat) :
    s.Reported (s.report island cls code ctx detail) := by
  unfold State.report State.reportTy
  exact ((s.reported_modIsl _ _ (fun i => i.report_running _ _)).trans (State.reported_classTrigger _ _)).trans
    ((State.only_freeNext _ _).reported (by decide))

theorem State.Reported.dieOf {s t : State} (h : s.Reported t) (d : Nat) : t.dieOf d = s.dieOf d := by
  obtain ⟨n, hn⟩ := h.power
  rw [State.dieOf, State.dieOf, hn]

/-- A register of the power state that is not the pin's count. -/
theorem State.Reported.powerOf {α : Type} {s t : State} (h : s.Reported t) (g : Power → α)
    (hg : ∀ (p : Power) n, g { p with showdownDrive := n } = g p := by exact fun _ _ => rfl) : g t.power = g s.power := by
  obtain ⟨n, hn⟩ := h.power
  rw [hn, hg]

/-! ### The core rails go off -/

theorem foldl_modIsl_only (s : State) (l : List Nat) (g : Island → Island) : s.Only [.isl] (l.foldl (fun t k => t.modIsl k g) s) :=
  State.Only.foldl l _ (State.Only.refl _ s) (fun u k => u.only_modIsl k g)

theorem State.only_modDie (s : State) (d : Nat) (g : Die → Die) : s.Only [.power] (s.modDie d g) := State.only_set_power ..

/-- A loop over dies that changes their entries only. -/
theorem foldl_modDie_power (s : State) (l : List Nat) (g : State → Nat → Die → Die) :
    ∃ x, (l.foldl (fun t d => t.modDie d (g t d)) s) = { s with power := { s.power with dies := x } } := by
  induction l generalizing s with
  | nil => exact ⟨s.power.dies, rfl⟩
  | cons d l ih => exact ih (s.modDie d (g s d))

/-- With the core rails off the clusters' islands hold, no core has a hand and at most three rail groups are up; the rest of the package is as it
was. -/
structure State.CoresOff (s t : State) : Prop where
  only    : s.Only [.isl, .cores, .sram, .slots, .power] t
  running : t.power.running = false
  groups  : t.power.groups ≤ 3
  power   : t.power.plain = { s.power.plain with groups := t.power.groups, running := false }
  islands : ∀ cl, cl < 192 → (t.islOf cl).running = false
  hands   : t.Handless

/-- A register of the power state that is neither the groups, the running mark, nor what `Power.plain` drops. -/
theorem State.CoresOff.powerOf {α : Type} {s t : State} (h : s.CoresOff t) (g : Power → α)
    (hg : ∀ p : Power, g p.plain = g p := by exact fun _ => rfl)
    (hr : ∀ (p : Power) n, g { p with groups := n, running := false } = g p := by exact fun _ _ => rfl) : g t.power = g s.power := by
  rw [← hg, h.power, hr, hg]

theorem foldl_modIsl_stopped (s : State) (l : List Nat) (cl : Nat) (h : cl ∈ l) (hl : l.count cl ≤ 1) :
    ((l.foldl (fun t k => t.modIsl k (fun i => { i with running := false })) s).islOf cl).running = false := by
  obtain ⟨-, hr⟩ := foldl_once State.islOf (fun t k => t.modIsl k (fun i => { i with running := false }))
    (fun _ i => { i with running := false }) (fun _ => True) l s cl (fun _ _ h => h) (fun u d _ => u.islOf_modIsl d cl _) trivial hl
  rw [hr, if_pos h]

/-- The rails' set points, supplies and groups of a state whose cores have been scrubbed. -/
theorem State.coresOff_eq (s : State) : ∃ dies, s.coresOff =
    let u := ((List.range 192).foldl (fun t cl => t.modIsl cl (fun i => { i with running := false })) s).scrubClusters (fun _ => true)
    { u with power := { u.power with dies := dies, supplies := [], groups := min u.power.groups 3, running := false } } := by
  obtain ⟨dies, hd⟩ := foldl_modDie_power
    (((List.range 192).foldl (fun t cl => t.modIsl cl (fun i => { i with running := false })) s).scrubClusters (fun _ => true))
    (List.range 4) (fun _ _ x => { x with rail := 0 })
  refine ⟨dies, ?_⟩
  unfold State.coresOff
  dsimp only at hd ⊢
  rw [hd]

theorem State.coresOff_off (s : State) : s.CoresOff s.coresOff := by
  obtain ⟨dies, he⟩ := s.coresOff_eq
  rw [he]
  have h1 := foldl_modIsl_only s (List.range 192) (fun i => { i with running := false })
  have hstop : ∀ cl, cl < 192 → _ := fun cl hcl =>
    foldl_modIsl_stopped s (List.range 192) cl (List.mem_range.2 hcl) (count_range_le_one 192 cl)
  generalize (List.range 192).foldl (fun t cl => t.modIsl cl (fun i => { i with running := false })) s = s1 at h1 hstop
  have hp : s1.power = s.power := h1.power.resolve_left (by decide)
  have hsc : s1.Only [.cores, .sram, .slots] (s1.scrubClusters (fun _ => true)) := by
    constructor <;> simp [State.scrubClusters]
  refine ⟨?_, rfl, Nat.min_le_right .., ?_, hstop, s1.handless_scrubClusters⟩
  · exact ((h1.mono _ (by decide)).trans (hsc.mono _ (by decide))).trans ((State.only_set_power _ _).mono _ (by decide))
  · rw [← hp]
    rfl

end Sys2Proof.Machine
end

section
/-! The governor and its caps, the brake, lowered precision, the trip and the heartbeat (R471 to R480, R504, R505), and O34. -/
namespace Sys2Proof.Machine

theorem exec_pending {i : Instr} {s t : State} (h : exec i s = .next t) : t.pending = s.pending :=
  ((exec_keep i (Keep.refl s)).out t h).pending

/-- A row whose condition holds. -/
theorem onlyIf_pos {c : Bool} (h : c = true) (s t : State) : onlyIf c s t = .next t := by rw [onlyIf, if_pos h]

theorem State.governed_of {s : State} (hg : s.power.groups = 4) (ht : s.power.tripped = false) : s.governed = true := by
  simp [State.governed, hg, ht]

/-! ### A tick of the governor (R472, R476) -/

/-- What the power state holds beside the dies and the pin's pulses. -/
def Power.sansDies (p : Power) : Power := { p with dies := [], showdownDrive := 0 }

theorem Power.ceilingOf_sansDies (p : Power) (x : Die) : p.sansDies.ceilingOf x = p.ceilingOf x := rfl

/-- Registers that read the same where the power states agree but for dies and pulses. -/
theorem Power.of_sansDies {α : Type} {p q : Power} (h : p.sansDies = q.sansDies) (g : Power → α)
    (hg : ∀ x : Power, g x.sansDies = g x := by exact fun _ => rfl) : g p = g q := by
  rw [← hg, h, hg]

theorem State.Reported.sansDies {s t : State} (h : s.Reported t) : t.power.sansDies = s.power.sansDies :=
  h.powerOf Power.sansDies (fun _ _ => rfl)

/-- One die at a tick: its sensors are sampled, and a change of level other than to 3 is recorded. -/
def State.sampleDie (temps : List Int) (t : State) (d : Nat) : State :=
  if ((t.modDie d (fun x => x.sample (hottest temps d))).dieOf d).level ≠ (t.dieOf d).level ∧
      ((t.modDie d (fun x => x.sample (hottest temps d))).dieOf d).level ≠ 3 then
    (t.modDie d (fun x => x.sample (hottest temps d))).powerReport 10
  else t.modDie d (fun x => x.sample (hottest temps d))

theorem State.sampleDie_reported (temps : List Int) (t : State) (d : Nat) :
    (t.modDie d (fun x => x.sample (hottest temps d))).Reported (t.sampleDie temps d) := by
  unfold State.sampleDie
  split
  · exact State.reported_report ..
  · exact State.Reported.refl _

theorem State.only_sampleDie (temps : List Int) (t : State) (d : Nat) : t.Only showGroups (t.sampleDie temps d) :=
  ((t.only_modDie d _).mono _ (by decide)).trans (t.sampleDie_reported temps d).only

theorem State.sampleDie_sansDies (temps : List Int) (t : State) (d : Nat) : (t.sampleDie temps d).power.sansDies = t.power.sansDies :=
  (t.sampleDie_reported temps d).sansDies

theorem State.sampleDie_dieOf (temps : List Int) (t : State) (d j : Nat) :
    (t.sampleDie temps d).dieOf j = if j = d then (t.dieOf d).sample (hottest temps d) else t.dieOf j := by
  rw [(t.sampleDie_reported temps d).dieOf, State.dieOf_modDie]

/-- A loop over the dies, each step of which changes its own die and nothing else of the power state. -/
theorem foldl_dies (g : State → Nat → State) (f : Nat → Die → Die) (p : Power) (t : State) (ht : t.power.sansDies = p)
    (hp : ∀ u d, (g u d).power.sansDies = u.power.sansDies)
    (hg : ∀ u d j, u.power.sansDies = p → (g u d).dieOf j = if j = d then f d (u.dieOf d) else u.dieOf j) :
    ((List.range 4).foldl g t).power.sansDies = p ∧ ∀ d, d < 4 → ((List.range 4).foldl g t).dieOf d = f d (t.dieOf d) := by
  have h := fun j => foldl_once State.dieOf g f (fun u => u.power.sansDies = p) (List.range 4) t j
    (fun u d hu => (hp u d).trans hu) (fun u d hu => hg u d j hu) ht (count_range_le_one 4 j)
  exact ⟨(h 0).1, fun d hd => by rw [(h d).2, if_pos (List.mem_range.2 hd)]⟩

theorem State.setCeilings_dies (s : State) : s.setCeilings.power.sansDies = s.power.sansDies ∧
    ∀ d, d < 4 → s.setCeilings.dieOf d = { s.dieOf d with ceiling := s.power.ceilingOf (s.dieOf d) } := by
  refine foldl_dies _ (fun _ x => { x with ceiling := s.power.ceilingOf x }) s.power.sansDies s rfl (fun _ _ => rfl) (fun u d j hu => ?_)
  rw [State.dieOf_modDie]
  simp only [← Power.ceilingOf_sansDies u.power, hu, Power.ceilingOf_sansDies]

theorem State.only_setCeilings (s : State) : s.Only [.power] s.setCeilings :=
  State.Only.foldl _ _ (State.Only.refl _ s) (fun u d => u.only_modDie d _)

/-- The state a tick leaves before a trip. -/
def State.ticked (s : State) (power : Nat) (temps : List Int) : State :=
  ((List.range 4).foldl (State.sampleDie temps) { s with power :=
    ({ s.power with powerW := power, sinceChange := min 100 (s.power.sinceChange + 10) } : Power).govern }).setCeilings

theorem execGovernorTick_eq {s : State} {power : Nat} {temps : List Int} (hg : s.governed = true) (ht : temps.length = 96) :
    execGovernorTick power temps s = .next (if (List.range 4).any (fun d => ((s.ticked power temps).dieOf d).level = 3)
      then (s.ticked power temps).trip 10 else s.ticked power temps) := by
  rw [execGovernorTick, onlyIf_pos (by simp [hg, ht])]
  rfl

/-- G moves by one code at most, and nothing else of the power state moves with it but the time since its last change. -/
theorem Power.govern_moves (p : Power) : p.govern.gov ≤ max 32 (p.gov + 1) ∧ p.gov ≤ p.govern.gov + 1 ∧
    p.govern = { p with gov := p.govern.gov, sinceChange := p.govern.sinceChange } := by
  unfold Power.govern
  split_ifs
  · exact ⟨by omega, by omega, rfl⟩
  · exact ⟨by dsimp only; omega, by dsimp only; omega, rfl⟩
  · exact ⟨by dsimp only; omega, by dsimp only; omega, rfl⟩
  · exact ⟨by omega, by omega, rfl⟩

theorem governorTick_acts {s : State} {power : Nat} {temps : List Int} (hg : s.governed = true) (ht : temps.length = 96)
    (hlow : ∀ d, d < 4 → levelNext (s.dieOf d).level (hottest temps d) ≠ 3) :
    Answers (.governorTick power temps) s [.power, .isl, .mgmt, .cores, .ctxs, .free] (fun t => t.power.powerW = power ∧
      t.power.gov ≤ max 32 (s.power.gov + 1) ∧ s.power.gov ≤ t.power.gov + 1 ∧
      (∀ d, d < 4 → (t.dieOf d).level = levelNext (s.dieOf d).level (hottest temps d) ∧
        (t.dieOf d).ceiling = min (min t.power.gov (t.dieOf d).thermCap) (min (t.dieOf d).iccCap
          (if s.power.brake then s.power.brakeAt else 80))) ∧
      t.power.codes = s.power.codes) := by
  let p : Power := { s.power with powerW := power, sinceChange := min 100 (s.power.sinceChange + 10) }
  obtain ⟨hup, hdown, hgov⟩ := p.govern_moves
  have hexec := execGovernorTick_eq (power := power) hg ht
  rw [show s.ticked power temps = ((List.range 4).foldl (State.sampleDie temps) { s with power := p.govern }).setCeilings from rfl] at hexec
  obtain ⟨hp1, hd1⟩ := foldl_dies (State.sampleDie temps) (fun d x => x.sample (hottest temps d)) p.govern.sansDies
    { s with power := p.govern } rfl (fun u d => u.sampleDie_sansDies temps d) (fun u d j _ => u.sampleDie_dieOf temps d j)
  have ho1 : s.Only showGroups ((List.range 4).foldl (State.sampleDie temps) { s with power := p.govern }) :=
    State.Only.foldl _ _ ((s.only_set_power _).mono _ (by decide)) (fun u d => u.only_sampleDie temps d)
  generalize (List.range 4).foldl (State.sampleDie temps) { s with power := p.govern } = u at *
  obtain ⟨hp2, hd2⟩ := u.setCeilings_dies
  have hp : u.setCeilings.power.sansDies = p.govern.sansDies := hp2.trans hp1
  have hlevel : ∀ d, d < 4 → (u.setCeilings.dieOf d).level = levelNext (s.dieOf d).level (hottest temps d) := by
    intro d hd
    rw [hd2 d hd, hd1 d hd]
    -- the die of the state the loop begins with is that of s
    have hdie : State.dieOf { s with power := p.govern } d = s.dieOf d := by rw [State.dieOf, hgov]; rfl
    rw [hdie]
    rfl
  have hnone : ¬ (List.range 4).any (fun d => (u.setCeilings.dieOf d).level = 3) = true := by
    rw [List.any_eq_true]
    rintro ⟨d, hd, h3⟩
    rw [hlevel d (List.mem_range.1 hd), decide_eq_true_eq] at h3
    exact hlow d (List.mem_range.1 hd) h3
  rw [if_neg hnone] at hexec
  have hgov' : u.setCeilings.power.gov = p.govern.gov := Power.of_sansDies hp Power.gov
  refine ⟨_, hexec, (ho1.trans ((State.only_setCeilings u).mono _ (by decide))).mono _ (by decide), ?_, ?_, ?_, fun d hd =>
    ⟨hlevel d hd, ?_⟩, ?_⟩
  · rw [Power.of_sansDies hp Power.powerW, hgov]
  · rw [hgov']; exact hup
  · rw [hgov']; exact hdown
  · have hceil : ∀ x, u.power.ceilingOf x = p.govern.ceilingOf x := fun x => by
      rw [← u.power.ceilingOf_sansDies, hp1, Power.ceilingOf_sansDies]
    rw [hd2 d hd, hceil, hgov', hgov]
    rfl
  · rw [Power.of_sansDies hp Power.codes, hgov]

/-! ### The caps (R473, R475, R505) -/

theorem thermalCapStep_acts {s : State} {die : Nat} (hg : s.governed = true) (hd : die < 4) :
    Answers (.thermalCapStep die) s [.power] (fun t => (t.dieOf die).thermCap = (if (s.dieOf die).level = 1 then
      max ((s.dieOf die).thermCap - 1) 32 else if (s.dieOf die).level = 0 then min ((s.dieOf die).thermCap + 1) 80
      else (s.dieOf die).thermCap) ∧ ∀ d, d ≠ die → t.dieOf d = s.dieOf d) := by
  refine ⟨_, onlyIf_pos (by simp [hg, hd]) _ _, s.only_modDie _ _, ?_, fun d hne => ?_⟩
  · rw [State.dieOf_modDie_self]
    rfl
  · rw [State.dieOf_modDie, if_neg hne]

/-- A change of one die that is reported, as the caps' class 11 rows make it. -/
theorem modDie_reported_answers {i : Instr} {s : State} {die : Nat} {g : Die → Die}
    (h : exec i s = .next ((s.modDie die g).powerReport 11)) :
    Answers i s [.power, .isl, .mgmt, .cores, .ctxs, .free] (fun t =>
      t.dieOf die = g (s.dieOf die) ∧ ∀ d, d ≠ die → t.dieOf d = s.dieOf d) := by
  have hr : (s.modDie die g).Reported ((s.modDie die g).powerReport 11) := State.reported_report ..
  refine ⟨_, h, ((s.only_modDie die g).mono _ (by decide)).trans (hr.only.mono _ (by decide)), ?_, fun d hne => ?_⟩
  · rw [hr.dieOf, State.dieOf_modDie_self]
  · rw [hr.dieOf, State.dieOf_modDie, if_neg hne]

theorem iccCapRaise_acts {s : State} {die : Nat} (hg : s.governed = true) (hd : die < 4) :
    Answers (.iccCapRaise die) s [.power] (fun t =>
      t.dieOf die = { s.dieOf die with iccCap := min ((s.dieOf die).iccCap + 1) 80 } ∧ ∀ d, d ≠ die → t.dieOf d = s.dieOf d) := by
  refine ⟨_, onlyIf_pos (by simp [hg, hd]) _ _, s.only_modDie _ _, ?_, fun d hne => ?_⟩
  · rw [State.dieOf_modDie_self]
  · rw [State.dieOf_modDie, if_neg hne]

/-! ### The trip (R477, R504) -/

/-- Tearing contexts down one after the other leaves none of them live. -/
theorem foldl_teardownBy_dead (s : State) (l : List Nat) (st : Nat) (v : Nat → Nat → Cmd → Verdict) (c : Nat)
    (h : s.ctxLive c = true → c ∈ l) : (l.foldl (fun t c => t.teardownBy c st v) s).ctxLive c = false := by
  induction l generalizing s with
  | nil => exact Bool.eq_false_iff.2 (fun hc => nomatch h hc)
  | cons d l ih =>
    refine ih (s.teardownBy d st v) (fun hc => ?_)
    have hs : s.ctxLive c = true := (s.steady_teardownBy d st v).live c hc
    rcases List.mem_cons.1 (h hs) with rfl | hm
    · exact absurd hc (by rw [(s.teardownBy_torn c st v hs).gone]; exact Bool.false_ne_true)
    · exact hm

theorem State.ctxLive_mem {s : State} {c : Nat} (h : s.ctxLive c = true) : c ∈ tkeys s.ctxs := by
  by_contra hc
  rw [State.ctxLive, State.ctxOf, tget_absent _ _ _ hc] at h
  exact Bool.noConfusion h

/-- What a trip leaves. -/
structure State.Tripped (t : State) : Prop where
  tripped : t.power.tripped = true
  pin     : t.power.thermtripN = false
  halted  : t.cp.halted = true
  running : t.power.running = false
  groups  : t.power.groups ≤ 3
  boot    : t.mgmt.boot = .tripped
  dead    : ∀ c, t.ctxLive c = false
  islands : ∀ cl, cl < 192 → (t.islOf cl).running = false
  hands   : ∀ k i, t.handOf k i = none

theorem State.trip_tripped (s : State) (cls : Nat) (h : s.power.tripped = false) : (s.trip cls).Tripped := by
  unfold State.trip
  rw [if_neg (by simp [h])]
  extract_lets cp power mgmt s1 v s2 s3
  have hdead2 : ∀ c, s2.ctxLive c = false := fun c =>
    foldl_teardownBy_dead s1 (tkeys s1.ctxs) _ _ c (fun hc => State.ctxLive_mem hc)
  have h2 : s1.Steady s2 := State.Steady.foldl _ _ (State.Steady.refl s1) (fun u c => u.steady_teardownBy c _ _)
  have h23 : s2.Steady s3 := State.Steady.foldl _ _ (State.Steady.refl s2) (fun u x => u.steady_endCmd x.1 x.2.1 x.2.2.n _)
  have h3 : s1.Steady s3 := h2.trans h23
  have hoff := s3.coresOff_off
  have hrep : s3.coresOff.Reported (s3.coresOff.report islMgmt cls 0 none 0) := State.reported_report ..
  have hsteady : s3.coresOff.Steady (s3.coresOff.report islMgmt cls 0 none 0) := State.steady_report ..
  generalize s3.coresOff = s4 at *
  have hcp : s4.cp = s3.cp := hoff.only.cp.resolve_left (by decide)
  have hm : s4.mgmt = s3.mgmt := hoff.only.mgmt.resolve_left (by decide)
  have hctx : s4.ctxs = s3.ctxs := hoff.only.ctxs.resolve_left (by decide)
  refine ⟨?_, ?_, ?_, ?_, ?_, ?_, fun c => ?_, fun cl hcl => ?_, (hrep.hands hoff.hands).handOf⟩
  · rw [hrep.powerOf Power.tripped, hoff.powerOf Power.tripped, h3.powerOf Power.tripped]
  · rw [hrep.powerOf Power.thermtripN, hoff.powerOf Power.thermtripN, h3.powerOf Power.thermtripN]
  · rw [hsteady.halted, hcp, h3.halted]
  · rw [hrep.powerOf Power.running, hoff.running]
  · rw [hrep.powerOf Power.groups]; exact hoff.groups
  · rw [hsteady.mgmtOf Mgmt.boot, hm, h3.mgmtOf Mgmt.boot]
  · refine Bool.eq_false_iff.2 (fun hc => ?_)
    have hc4 : s4.ctxLive c = true := hsteady.live c hc
    rw [State.ctxLive, State.ctxOf, hctx] at hc4
    exact absurd (h23.live c hc4) (by rw [hdead2]; exact Bool.false_ne_true)
  · rw [hrep.running, hoff.islands cl hcl]

/-! ### The brake (R474) -/

/-- A running cluster above a code drops to it. -/
def State.brakeCluster (k : Nat) (t : State) (cl : Nat) : State :=
  if (t.islOf cl).running && decide (k < t.codeOf cl) then t.switchCode cl k else t

theorem State.switchCode_running (s : State) (cl k j : Nat) : ((s.switchCode cl k).islOf j).running = (s.islOf j).running := by
  have h : (s.switchCode cl k).islOf j = (s.setCode cl k).islOf j := by rw [State.islOf, State.islOf, State.switchCode, State.timeNote_isl]
  rw [h, State.setCode_islOf]
  split
  next e => rw [e]
  next => rfl

theorem State.switchCode_codeOf (s : State) (cl k j : Nat) : (s.switchCode cl k).codeOf j = if j = cl then k else s.codeOf j := by
  rw [State.codeOf, State.switchCode, State.timeNote_power]
  exact s.setCode_codeOf cl k j

/-- A switch moves no ceiling and leaves G alone. -/
theorem State.switchCode_ceiling (s : State) (cl k : Nat) : (s.switchCode cl k).power.gov = s.power.gov ∧
    (s.switchCode cl k).power.brake = s.power.brake ∧ ∀ d, ((s.switchCode cl k).dieOf d).ceiling = (s.dieOf d).ceiling := by
  rw [State.switchCode, State.timeNote_power]
  refine ⟨rfl, rfl, fun d => ?_⟩
  rw [State.dieOf, State.timeNote_power]
  show ((s.setCode cl k).dieOf d).ceiling = _
  unfold State.setCode State.setRail
  dsimp only
  rw [State.dieOf_modDie]
  split
  next e => rw [e]; rfl
  next => rfl

theorem State.only_switchCode (s : State) (cl k : Nat) : s.Only [.isl, .power, .mgmt] (s.switchCode cl k) :=
  ((s.only_setCode cl k).mono _ (by decide)).trans ((State.only_logAppend _ _).mono _ (by decide))

/-- What the loop over the clusters relies on: the clocks that run, and the ceilings. -/
structure State.BrakeKept (s t : State) : Prop where
  running : ∀ j, (t.islOf j).running = (s.islOf j).running
  gov     : t.power.gov = s.power.gov
  brake   : t.power.brake = s.power.brake
  ceiling : ∀ d, (t.dieOf d).ceiling = (s.dieOf d).ceiling
  only    : s.Only [.isl, .power, .mgmt] t

theorem State.BrakeKept.brakeCluster {s t : State} (h : s.BrakeKept t) (k cl : Nat) : s.BrakeKept (t.brakeCluster k cl) := by
  unfold State.brakeCluster
  split
  · obtain ⟨hgov, hbrake, hceil⟩ := t.switchCode_ceiling cl k
    exact ⟨fun j => (t.switchCode_running cl k j).trans (h.running j), hgov.trans h.gov, hbrake.trans h.brake,
      fun d => (hceil d).trans (h.ceiling d), h.only.trans (t.only_switchCode cl k)⟩
  · exact h

theorem State.brakeCluster_codeOf {s t : State} (h : s.BrakeKept t) (k cl j : Nat) : (t.brakeCluster k cl).codeOf j =
    if j = cl then (if (s.islOf cl).running && decide (k < t.codeOf cl) then k else t.codeOf cl) else t.codeOf j := by
  unfold State.brakeCluster
  rw [h.running]
  by_cases hj : j = cl
  · subst hj
    rw [if_pos rfl]
    split
    · rw [State.switchCode_codeOf, if_pos rfl]
    · rfl
  · rw [if_neg hj]
    split
    · rw [State.switchCode_codeOf, if_neg hj]
    · rfl

theorem powerBrakeAssert_acts {s : State} (hp : s.power.stbyPg = true) (hb : s.power.brake = false) :
    Answers .powerBrakeAssert s [.power, .isl, .mgmt, .cores, .ctxs, .free] (fun t => t.power.brake = true ∧
      (∀ d, d < 4 → (t.dieOf d).ceiling ≤ max 32 (min s.power.brakeCode 80)) ∧
      (∀ cl, cl < 192 → (s.islOf cl).running = true → t.codeOf cl = min (s.codeOf cl) (max 32 (min s.power.brakeCode 80))) ∧
      t.power.gov = s.power.gov) := by
  let s0 : State := { s with power := { s.power with brake := true } }
  obtain ⟨hsans, hdies⟩ := s0.setCeilings_dies
  have ho : s.Only [.power] s0.setCeilings := (s.only_set_power _).trans s0.only_setCeilings
  have hexec : exec .powerBrakeAssert s = .next (((List.range 192).foldl (State.brakeCluster s.power.brakeAt) s0.setCeilings).powerReport 11) :=
    onlyIf_pos (by simp [hp, hb]) _ _
  have hrun : ∀ j, (s0.setCeilings.islOf j).running = (s.islOf j).running := fun j => by
    rw [State.islOf, State.islOf, ho.isl.resolve_left (by decide)]
  have hcode : ∀ j, s0.setCeilings.codeOf j = s.codeOf j := fun j => by
    rw [State.codeOf, State.codeOf, Power.of_sansDies hsans Power.codes]
  have hgov : s0.setCeilings.power.gov = s.power.gov := Power.of_sansDies hsans Power.gov
  have hbrake : s0.setCeilings.power.brake = true := Power.of_sansDies hsans Power.brake
  have hceil : ∀ d, d < 4 → (s0.setCeilings.dieOf d).ceiling ≤ s.power.brakeAt := fun d hd => by
    rw [hdies d hd]
    exact (Nat.min_le_right _ _).trans (Nat.min_le_right _ _)
  generalize s0.setCeilings = u at *
  have hloop := fun j => foldl_once State.codeOf (State.brakeCluster s.power.brakeAt)
    (fun cl x => if (u.islOf cl).running && decide (s.power.brakeAt < x) then s.power.brakeAt else x) u.BrakeKept (List.range 192) u j
    (fun _ d hu => hu.brakeCluster _ d) (fun _ d hu => State.brakeCluster_codeOf hu _ d j)
    ⟨fun _ => rfl, rfl, rfl, fun _ => rfl, State.Only.refl _ u⟩ (count_range_le_one 192 j)
  have hkept := (hloop 0).1
  have hrep : (((List.range 192).foldl (State.brakeCluster s.power.brakeAt) u)).Reported
      (((List.range 192).foldl (State.brakeCluster s.power.brakeAt) u).powerReport 11) := State.reported_report ..
  refine ⟨_, hexec, ?_, ?_, fun d hd => ?_, fun cl hcl hr => ?_, ?_⟩
  · exact ((ho.mono _ (by decide)).trans (hkept.only.mono _ (by decide))).trans (hrep.only.mono _ (by decide))
  · rw [hrep.powerOf Power.brake, hkept.brake, hbrake]
  · rw [hrep.dieOf, hkept.ceiling]
    exact hceil d hd
  · have hread : ∀ t : State, t.codeOf cl = tget 32 t.power.codes cl := fun _ => rfl
    rw [hread, hrep.powerOf Power.codes, ← hread, (hloop cl).2, if_pos (List.mem_range.2 hcl), hrun, hr, hcode]
    show (if (true && decide (s.power.brakeAt < s.codeOf cl)) = true then s.power.brakeAt else s.codeOf cl) = min (s.codeOf cl) s.power.brakeAt
    simp only [Bool.true_and, decide_eq_true_eq]
    split <;> omega
  · rw [hrep.powerOf Power.gov, hkept.gov, hgov]

/-! ### Precision (R479) -/

theorem State.runnersOn_cp {s t : State} (h : t.cp = s.cp) (c l : Nat) : t.runnersOn c l = s.runnersOn c l := by
  rw [State.runnersOn, State.runnersOn, State.allCmds, State.allCmds, h]

/-- A context whose pass count goes down. -/
def Context.lowered (x : Context) : Context := if x.live && decide (x.floor < x.curPasses) then { x with curPasses := x.curPasses - 1 } else x

/-- Where no command runs on a layout there is none to kill. -/
theorem State.killRunners_idle {s : State} (h : ∀ c l, s.runnersOn c l = []) (c l : Nat) : s.killRunners c l = s := by
  simp [State.killRunners, h]

theorem State.lowerPasses_idle {s : State} (h : ∀ c l, s.runnersOn c l = []) (c : Nat) :
    s.lowerPasses c = if (s.ctxOf c).live && decide ((s.ctxOf c).floor < (s.ctxOf c).curPasses)
      then s.modCtx c (fun x => { x with curPasses := x.curPasses - 1 }) else s := by
  have hm : ∀ c' l, (s.modCtx c (fun x => { x with curPasses := x.curPasses - 1 })).runnersOn c' l = [] := fun c' l =>
    (State.runnersOn_cp rfl c' l).trans (h c' l)
  have hloop : ∀ ls : List Nat, ls.foldl (fun t l => t.killRunners c l) (s.modCtx c (fun x => { x with curPasses := x.curPasses - 1 })) =
      s.modCtx c (fun x => { x with curPasses := x.curPasses - 1 }) := by
    intro ls
    induction ls with
    | nil => rfl
    | cons l ls ih => rw [List.foldl_cons, State.killRunners_idle hm, ih]
  unfold State.lowerPasses
  dsimp only
  rw [hloop]

/-- What the loop over the contexts relies on: that no command of the state runs on a layout. -/
structure State.PassesOnly (s t : State) : Prop where
  cp   : t.cp = s.cp
  only : s.Only [.ctxs] t

theorem State.PassesOnly.lowerPasses {s t : State} (hs : ∀ c l, s.runnersOn c l = []) (h : s.PassesOnly t) (c : Nat) :
    s.PassesOnly (t.lowerPasses c) := by
  rw [State.lowerPasses_idle (fun c l => (State.runnersOn_cp h.cp c l).trans (hs c l))]
  split
  · exact ⟨h.cp, h.only.trans (t.only_modCtx c _)⟩
  · exact h

theorem State.lowerPasses_ctxOf {s t : State} (hs : ∀ c l, s.runnersOn c l = []) (h : s.PassesOnly t) (c j : Nat) :
    (t.lowerPasses c).ctxOf j = if j = c then (t.ctxOf c).lowered else t.ctxOf j := by
  rw [State.lowerPasses_idle (fun c l => (State.runnersOn_cp h.cp c l).trans (hs c l)), Context.lowered]
  split
  · exact t.ctxOf_modCtx c j _
  · split
    next e => rw [e]
    next => rfl

theorem Context.lowered_curPasses (x : Context) :
    x.lowered.curPasses = if x.live = true ∧ x.floor < x.curPasses then x.curPasses - 1 else x.curPasses := by
  unfold Context.lowered
  simp only [Bool.and_eq_true, decide_eq_true_eq]
  split <;> rfl

theorem execPrecisionLower_die {s : State} {die : Nat} (hg : s.governed = true) (hd : die < 4) (hl : (s.dieOf die).level = 2) :
    exec (.precisionLower (some die)) s =
      .next (((tkeys s.ctxs).filter (fun c => s.onDie c die)).foldl (fun t c => t.lowerPasses c) s) :=
  onlyIf_pos (by simp [hg, hd, hl]) _ _

theorem precisionLower_acts {s : State} {die : Nat} (hg : s.governed = true) (hd : die < 4) (hl : (s.dieOf die).level = 2)
    (hs : ∀ c l, s.runnersOn c l = []) :
    Answers (.precisionLower (some die)) s [.ctxs] (fun t => ∀ c, (tkeys s.ctxs).count c ≤ 1 → (t.ctxOf c).curPasses =
      (if s.onDie c die = true ∧ s.ctxLive c = true ∧ (s.ctxOf c).floor < (s.ctxOf c).curPasses then (s.ctxOf c).curPasses - 1
       else (s.ctxOf c).curPasses)) := by
  have hloop := fun c => foldl_once State.ctxOf (fun t c => t.lowerPasses c) (fun _ => Context.lowered) s.PassesOnly
    ((tkeys s.ctxs).filter (fun c => s.onDie c die)) s c (fun _ d hu => hu.lowerPasses hs d)
    (fun _ d hu => State.lowerPasses_ctxOf hs hu d c) ⟨rfl, State.Only.refl _ s⟩
  refine ⟨_, execPrecisionLower_die hg hd hl, ?_, fun c hc => ?_⟩
  · exact (List.foldlRecOn (motive := s.PassesOnly) _ _ ⟨rfl, State.Only.refl _ s⟩ (fun _ hu c _ => hu.lowerPasses hs c)).only
  · have hcount : ((tkeys s.ctxs).filter (fun c => s.onDie c die)).count c ≤ 1 :=
      (List.Sublist.count_le c List.filter_sublist).trans hc
    rw [(hloop c hcount).2]
    by_cases hm : c ∈ (tkeys s.ctxs).filter (fun c => s.onDie c die)
    · have hon : s.onDie c die = true := by simpa using (List.mem_filter.1 hm).2
      rw [if_pos hm, Context.lowered_curPasses]
      simp only [hon, true_and, State.ctxLive]
    · have hno : ¬ (s.onDie c die = true ∧ s.ctxLive c = true ∧ (s.ctxOf c).floor < (s.ctxOf c).curPasses) := fun h =>
        hm (List.mem_filter.2 ⟨State.ctxLive_mem h.2.1, by simpa using h.1⟩)
      rw [if_neg hm, if_neg hno]

theorem precisionRestore_acts {s : State} (hg : s.governed = true) (hp : s.power.starved = false)
    (hl : ∀ d, d < 4 → (s.dieOf d).level ≠ 2) :
    Answers .precisionRestore s [.ctxs] (fun t =>
      ∀ c, s.ctxLive c = true → t.ctxOf c = { s.ctxOf c with curPasses := (s.ctxOf c).passes }) := by
  have hc : (s.governed && !s.power.starved && (List.range 4).all (fun d => decide ((s.dieOf d).level ≠ 2))) = true := by
    rw [hg, hp, List.all_eq_true.2 (fun d hd => decide_eq_true (hl d (List.mem_range.1 hd)))]
    rfl
  refine ⟨_, onlyIf_pos hc _ _, s.only_set_ctxs _, fun c hlive => ?_⟩
  have hne : ∀ x : Context, x.live = true → x ≠ {} := fun x hx e => by rw [e] at hx; exact Bool.noConfusion hx
  exact tget_tmap_of_ne (f := fun _ (x : Context) => { x with curPasses := x.passes }) (hne _ hlive) (hne _ hlive)

/-! ### The obligation -/

/-- Settles O34, row by row. That the release of the brake lowers G to BRAKE_CODE is log entry 33's reading of R474. -/
theorem governorAndCapsAct : Obligations.GovernorAndCapsAct := by
  unfold Obligations.GovernorAndCapsAct
  intro s die
  refine ⟨fun power temps hg ht hlen hlow => governorTick_acts (State.governed_of hg ht) hlen hlow, fun hg ht hd => ?_,
    fun row ht hd hrow => ?_, powerBrakeAssert_acts, fun hb => onlyIf_pos hb _ _, fun hg ht => ⟨fun hd hl => ?_, fun hd hl hs => ?_,
    fun hgov hlim => ?_⟩, fun hg ht hp hl => precisionRestore_acts (State.governed_of hg ht) hp hl, fun v hp => onlyIf_pos hp _ _,
    fun hne hr => onlyIf_pos (by simp [hne, hr]) _ _⟩
  · have hgov : s.governed = true := State.governed_of hg ht
    have hc : (s.governed && decide (die < 4)) = true := by simp [hgov, hd]
    exact ⟨thermalCapStep_acts hgov hd, modDie_reported_answers (i := .iccLimitExceed die) (onlyIf_pos hc _ _), iccCapRaise_acts hgov hd,
      modDie_reported_answers (i := .railSettleTimeout die) (onlyIf_pos hc _ _)⟩
  · have htrip : ∃ u cls, exec row s = .next (State.trip u cls) ∧ u.power.tripped = false := by
      rcases hrow with ⟨hg, rfl⟩ | ⟨hg, rfl⟩
      · exact ⟨_, 10, onlyIf_pos (by simp [State.governed_of hg ht, hd]) _ _, ht⟩
      · exact ⟨_, 11, onlyIf_pos (by simp [hg, ht, hd]) _ _, ht⟩
    obtain ⟨u, cls, he, hu⟩ := htrip
    have h := u.trip_tripped cls hu
    exact ⟨_, he, exec_pending he, h.tripped, h.pin, h.halted, h.running, h.groups, h.boot, h.dead, h.islands, h.hands⟩
  · exact execPrecisionLower_die (State.governed_of hg ht) hd hl
  · exact precisionLower_acts (State.governed_of hg ht) hd hl hs
  · exact onlyIf_pos (by simp [State.governed_of hg ht, Power.starved, hgov, hlim]) _ _

end Sys2Proof.Machine
end

section
/-! Standby power, the boot, release, orderly stop and the loss of standby power (Table 15.1, R441, R483, R484, R496, R501, R502), and O35. -/
namespace Sys2Proof.Machine

/-! ### What the steps of a boot leave alone -/

theorem State.steady_modIsl (s : State) (k : Nat) (g : Island → Island) : s.Steady (s.modIsl k g) :=
  (s.only_modIsl k g).steady (by decide)

theorem State.steady_timeNote (s : State) (ty k : Nat) : s.Steady (s.timeNote ty k) := s.steady_logAppend _

theorem State.steady_startIsland (s : State) (k khz : Nat) : s.Steady (s.startIsland k khz) := by
  unfold State.startIsland
  exact State.Steady.ite (State.Steady.refl s) ((s.steady_modIsl k _).trans (State.steady_timeNote ..))

theorem State.steady_setCode (s : State) (cl k : Nat) : s.Steady (s.setCode cl k) := by
  refine State.Steady.trans (s.steady_set_power (s.setCode cl k).power rfl) (State.Only.steady (gs := [.isl]) ?_ (by decide))
  constructor <;> simp [State.setCode, State.setRail]

theorem State.steady_restartCluster (s : State) (cl : Nat) : s.Steady (s.restartCluster cl) := by
  unfold State.restartCluster
  exact ((s.steady_modIsl cl _).trans (State.steady_setCode ..)).trans (State.steady_timeNote ..)

theorem State.steady_trained (s : State) (port lanes chip nport : Nat) : s.Steady (s.trained port lanes chip nport) := by
  unfold State.trained
  extract_lets s1 s2
  have h2 : s1.Steady s2 := State.Steady.ite (State.Steady.refl s1) (s1.steady_report ..)
  exact State.Steady.ite (s.steady_modPort ..) (((s.steady_modPort ..).trans h2).trans (s2.steady_set_fab _ rfl))

theorem State.steady_bootPort (s : State) (b : BootFinds) (p : Nat) : s.Steady (s.bootPort b p) := by
  unfold State.bootPort
  dsimp only
  exact State.Steady.ite (State.Steady.refl s)
    (State.Steady.ite ((s.steady_modPort ..).trans (State.steady_report ..)) (s.steady_trained ..))

theorem State.steady_fenceCores (s : State) : s.Steady s.fenceCores :=
  State.Steady.foldl _ _ (State.Steady.refl s) (fun u c => (u.only_modCore c _).steady (by decide))

theorem State.steady_parkReport (s : State) : s.Steady s.parkReport := (s.steady_reportTy ..).trans (State.steady_freeNext _ 1)

theorem State.steady_set_store_kv (s : State) (x : Store) (y : Kv) : s.Steady { s with store := x, kv := y } :=
  ⟨rfl, rfl, rfl, rfl, fun _ => id, fun _ => id⟩

theorem State.steady_recoverStore (s : State) : s.Steady s.recoverStore := by
  unfold State.recoverStore
  extract_lets live objs held count park old s1
  exact (s.steady_set_store_kv _ _).trans (s1.steady_set_store _)

/-! ### Orders 2 to 4 -/

/-- The mark READY in the power registers. -/
def Power.withReady (p : Power) (b : Bool) : Power := { p with ready := b }

/-- What orders 2 to 4 keep, with the records they write: the power registers but READY, and which islands run. -/
structure State.Verified (s t : State) : Prop where
  power   : t.power.plain = s.power.plain.withReady t.power.ready
  running : ∀ k, (t.islOf k).running = (s.islOf k).running

theorem State.verified_set (s : State) (m : Mgmt) (b : Bool) : s.Verified { s with mgmt := m, power := s.power.withReady b } :=
  ⟨rfl, fun _ => rfl⟩

theorem State.Verified.trans {s t u : State} (h : s.Verified t) (k : t.Verified u) : s.Verified u :=
  ⟨by rw [k.power, h.power]; rfl, fun i => (k.running i).trans (h.running i)⟩

theorem State.verified_report (s : State) (i cls code : Nat) (o : Option Nat) (d : Nat) : s.Verified (s.report i cls code o d) := by
  have hs := s.steady_report i cls code o d
  refine ⟨?_, (s.reported_report i cls code o d).running⟩
  rw [hs.power, hs.powerOf Power.ready]
  rfl

theorem State.verified_ite {c : Prop} [Decidable c] (s : State) : s.Verified (if c then s.mgmtReport else s) := by
  split
  · exact s.verified_report ..
  · exact ⟨rfl, fun _ => rfl⟩

theorem State.steady_ite_mgmtReport {c : Prop} [Decidable c] (s : State) : s.Steady (if c then s.mgmtReport else s) :=
  State.Steady.ite (s.steady_report ..) (State.Steady.refl s)

theorem State.bootRom_recovers {s : State} (h : s.mgmt.fw.select (s.mgmt.accepts 0) = none) : s.bootRom = s.enterRecovery := by
  rw [State.bootRom, h]

/-- The state in which the configuration slots are verified. -/
def State.withFw (s : State) (fw : Slots) (lost : Bool) : State :=
  if lost then State.mgmtReport { s with mgmt := { s.mgmt with fw := fw } } else { s with mgmt := { s.mgmt with fw := fw } }

theorem State.steady_withFw (s : State) (fw : Slots) (lost : Bool) :
    State.Steady { s with mgmt := { s.mgmt with fw := fw } } (s.withFw fw lost) := State.steady_ite_mgmtReport _

theorem State.verified_withFw (s : State) (fw : Slots) (lost : Bool) : s.Verified (s.withFw fw lost) :=
  State.Verified.trans (t := { s with mgmt := { s.mgmt with fw := fw } }) ⟨rfl, fun _ => rfl⟩ (State.verified_ite _)

/-- Both kinds have a slot that is accepted: the device is READY. -/
def State.bootReady (s : State) (cfg : Slots) (rep : Bool) : State :=
  let t := { s with mgmt := { s.mgmt with cfg := cfg, boot := .ready }, power := s.power.withReady true }
  if rep then t.mgmtReport else t

theorem State.bootRom_some {s : State} {fw : Slots} {lost x : Bool} (h : s.mgmt.fw.select (s.mgmt.accepts 0) = some (fw, lost, x)) :
    s.bootRom = match (s.withFw fw lost).mgmt.cfg.select (fun m => (s.withFw fw lost).mgmt.accepts 1 m && cfComplete m) with
      | none => (s.withFw fw lost).enterRecovery
      | some (cfg, lostCfg, fell) => (s.withFw fw lost).bootReady cfg (lostCfg || fell) := by
  rw [State.bootRom, h]
  rfl

theorem State.verified_bootRom (s : State) : s.Verified s.bootRom := by
  cases h : s.mgmt.fw.select (s.mgmt.accepts 0) with
  | none =>
    rw [State.bootRom_recovers h]
    exact s.verified_set _ false
  | some r =>
    obtain ⟨fw, lost, x⟩ := r
    rw [State.bootRom_some h]
    refine (s.verified_withFw fw lost).trans ?_
    split
    · exact State.verified_set _ _ false
    · exact (State.verified_set _ _ true).trans (State.verified_ite _)

/-- With a slot of each kind accepted, orders 2 to 4 end at READY with the slots chosen. -/
theorem State.bootRom_ready {s : State} {fw cfg : Slots} {lost x lostCfg fell : Bool}
    (hf : s.mgmt.fw.select (s.mgmt.accepts 0) = some (fw, lost, x))
    (hc : s.mgmt.cfg.select (fun im => ({ s.mgmt with fw := fw } : Mgmt).accepts 1 im && cfComplete im) = some (cfg, lostCfg, fell)) :
    s.bootRom.mgmt.boot = .ready ∧ s.bootRom.power.ready = true ∧ s.bootRom.mgmt.fw = fw ∧ s.bootRom.mgmt.cfg = cfg := by
  have hw := s.steady_withFw fw lost
  have hsel : (s.withFw fw lost).mgmt.cfg.select (fun m => (s.withFw fw lost).mgmt.accepts 1 m && cfComplete m) =
      some (cfg, lostCfg, fell) := by
    rw [hw.mgmtOf (fun m => m.accepts 1), hw.mgmtOf Mgmt.cfg]
    exact hc
  have hfw : (s.withFw fw lost).mgmt.fw = fw := hw.mgmtOf Mgmt.fw
  rw [State.bootRom_some hf, hsel]
  generalize s.withFw fw lost = u at hfw
  have h : State.Steady { u with mgmt := { u.mgmt with cfg := cfg, boot := .ready }, power := u.power.withReady true }
      (u.bootReady cfg (lostCfg || fell)) := State.steady_ite_mgmtReport _
  exact ⟨h.mgmtOf Mgmt.boot, h.powerOf Power.ready, (h.mgmtOf Mgmt.fw).trans hfw, h.mgmtOf Mgmt.cfg⟩

theorem State.bootOn_of_unheld {s : State} (h : s.power.releaseHeld = none) : s.bootOn = s.bootRom := by
  have hb : s.bootRom.power.releaseHeld = none := (congrArg Power.releaseHeld s.verified_bootRom.power).trans h
  unfold State.bootOn
  dsimp only
  rw [hb]

theorem State.bootOn_recovers {s : State} (h : s.mgmt.fw.select (s.mgmt.accepts 0) = none) : s.bootOn = s.enterRecovery := by
  unfold State.bootOn
  rw [State.bootRom_recovers h]
  dsimp only
  split
  · exact if_neg (nomatch ·)
  · rfl

/-- The state in which the cold boot verifies its slots. -/
def State.powered (s : State) : State := State.startIsland { s with power := { s.power with stbyPg := true } } islMgmt 1000000

theorem State.steady_powered (s : State) : State.Steady { s with power := { s.power with stbyPg := true } } s.powered :=
  State.steady_startIsland ..

theorem State.only_startIsland (s : State) (k khz : Nat) : s.Only [.isl, .mgmt] (s.startIsland k khz) := by
  unfold State.startIsland
  split
  · exact State.Only.refl _ s
  · exact ((s.only_modIsl k _).mono _ (by decide)).trans ((State.only_logAppend _ _).mono _ (by decide))

theorem State.startIsland_running (s : State) (k khz : Nat) : ((s.startIsland k khz).islOf k).running = true := by
  unfold State.startIsland
  split
  · assumption
  · rw [State.islOf, State.timeNote_isl]
    exact congrArg Island.running (State.islOf_modIsl_self ..)

theorem execStandbyPowerGood_off {s : State} (h : s.mgmt.boot = .off) : exec .standbyPowerGood s = .next s.powered.bootOn :=
  onlyIf_pos (decide_eq_true h) _ _

theorem State.powered_select (s : State) : s.powered.mgmt.fw.select (s.powered.mgmt.accepts 0) = s.mgmt.fw.select (s.mgmt.accepts 0) := by
  rw [s.steady_powered.mgmtOf Mgmt.fw, s.steady_powered.mgmtOf (fun m => m.accepts 0)]

/-! ### Orders 5 to 10 -/

/-- Orders 8 to 10: the boot plan is applied and the slots that were tried are kept. -/
def State.planned (s : State) : State :=
  let t := s.applyPlan s.mgmt.bootPlan
  { t with mgmt := { t.mgmt with boot := .up, fw := t.mgmt.fw.settle, cfg := t.mgmt.cfg.settle } }

/-- The end of a boot: functions that were in reset learn of it, and configuration requests are answered. -/
def State.bootEnd (s : State) (again : Bool) : State := (if again then s.planned.resetDone false else s.planned).retryCheck

/-- The location code is taken (R496). -/
def State.located (s : State) (b : BootFinds) : State :=
  { s with mgmt := s.mgmt.buildFences b.badCores b.badClusters, power := { s.power with loc := some b.loc } }

theorem State.bootRest_unlocated {s : State} {b : BootFinds} (h : locOk b = false) (again : Bool) :
    s.bootRest b again = { s with mgmt := { s.mgmt with boot := .noLocation } } := by
  rw [State.bootRest, h]
  rfl

theorem State.bootRest_located {s : State} {b : BootFinds} (h : locOk b = true) (again : Bool) :
    ∃ u, (s.located b).Steady u ∧ s.bootRest b again = u.bootEnd again := by
  unfold State.bootRest
  rw [h, if_neg (by decide)]
  extract_lets lw power tiers fab s1 s2 s3 s4 s6 s7
  have h1 : (s.located b).Steady s1 := ⟨rfl, rfl, rfl, rfl, fun _ => id, fun _ => id⟩
  have h2 : s1.Steady s2 := s1.steady_parkReport.trans (State.steady_recoverStore _)
  have h3 : s2.Steady s3 := State.Steady.foldl _ _ s2.steady_fenceCores (fun u p => u.steady_bootPort b p)
  have h4 : s3.Steady s4 := State.Steady.foldl _ _ (State.Steady.refl s3)
    (fun u k => State.Steady.ite (State.Steady.refl u) (u.steady_restartCluster k))
  exact ⟨s4, ((h1.trans h2).trans h3).trans h4, rfl⟩

theorem State.only_resetDone (s : State) (warm : Bool) : s.Only msgGroups (s.resetDone warm) := by
  refine State.Only.foldl _ _ (State.Only.refl _ s) (fun u p => ?_)
  cases warm
  · exact u.only_cause p 0
  · exact (u.only_cause p 1).trans (State.only_cause _ p 0)

/-- What the end of a boot answers, whether functions are told of it or not. -/
theorem State.bootEnd_retryCheck (s : State) (again : Bool) : ∃ t, s.planned.Only msgGroups t ∧ s.bootEnd again = t.retryCheck := by
  cases again
  · exact ⟨s.planned, State.Only.refl _ _, rfl⟩
  · exact ⟨_, s.planned.only_resetDone false, rfl⟩

theorem State.retryCheck_eq (s : State) : ∃ r, s.retryCheck = { s with power := { s.power with retryStatus := r } } := by
  unfold State.retryCheck
  split
  · exact ⟨false, rfl⟩
  · exact ⟨s.power.retryStatus, rfl⟩

theorem Slots.settle_kept (x : Slots) (b : Bool) : x.settle.cells b = x.cells b ∧ x.settle.useB = x.useB := by
  unfold Slots.settle
  split
  · exact ⟨rfl, rfl⟩
  · exact ⟨rfl, rfl⟩

theorem State.planned_power (s : State) : s.planned.power = s.power := by simp only [State.planned, State.applyPlan]
theorem State.planned_parts (s : State) : s.planned.parts = (s.applyPlan s.mgmt.bootPlan).parts := by simp only [State.planned]
theorem State.planned_ctxs (s : State) : s.planned.ctxs = s.ctxs := by simp only [State.planned, State.applyPlan]

theorem State.planned_bootPlan (s : State) : s.planned.mgmt.bootPlan = s.mgmt.bootPlan := by
  have himg : s.planned.mgmt.image = s.mgmt.image := by
    obtain ⟨hcells, huse⟩ := s.mgmt.cfg.settle_kept s.mgmt.cfg.settle.useB
    rw [Mgmt.image, Mgmt.image, ← huse]
    exact hcells
  rw [Mgmt.bootPlan, Mgmt.bootPlan, himg]

theorem State.applyPlan_partOf (s : State) (plan : List Word) {r : Nat} (hr : r < 64) :
    (s.applyPlan plan).partOf r = { record := (plan.drop (16 + 16 * r)).take 16 } := by
  obtain ⟨-, h⟩ := foldl_once (tget ({} : Part)) (fun t p => tset {} t p { record := (plan.drop (16 + 16 * p)).take 16 })
    (fun p _ => { record := (plan.drop (16 + 16 * p)).take 16 }) (fun _ => True) (List.range 64) [] r (fun _ _ h => h)
    (fun u d _ => tget_tset ..) trivial (count_range_le_one 64 r)
  rw [if_pos (List.mem_range.2 hr)] at h
  exact h

/-- What a boot that has read its location ends with. -/
structure State.Up (s t : State) (b : BootFinds) : Prop where
  boot  : t.mgmt.boot = .up
  lock  : t.parts.protLock = true
  power : t.power.plain = { s.power.plain with loc := some b.loc, retryStatus := t.power.retryStatus }
  live  : ∀ c, t.ctxLive c = true → s.ctxLive c = true
  plan  : ∀ r, r < 64 → t.partOf r = { record := (t.mgmt.bootPlan.drop (16 + 16 * r)).take 16 }

theorem State.bootRest_up (s : State) {b : BootFinds} (h : locOk b = true) (again : Bool) : s.Up (s.bootRest b again) b := by
  obtain ⟨u, hu, he⟩ := State.bootRest_located (s := s) h again
  obtain ⟨t, ht, hend⟩ := u.bootEnd_retryCheck again
  obtain ⟨r, hr⟩ := t.retryCheck_eq
  rw [he, hend, hr]
  have hparts : t.parts = u.planned.parts := ht.parts.resolve_left (by decide)
  have hmgmt : t.mgmt = u.planned.mgmt := ht.mgmt.resolve_left (by decide)
  have hpower : t.power = u.power := (ht.power.resolve_left (by decide)).trans u.planned_power
  have hctxs : t.ctxs = u.ctxs := (ht.ctxs.resolve_left (by decide)).trans u.planned_ctxs
  refine ⟨by rw [hmgmt]; rfl, by rw [hparts]; rfl, ?_, fun c hc => hu.live c ?_, fun i hi => ?_⟩
  · have hp : ({ t.power with retryStatus := r } : Power).plain = { u.power.plain with retryStatus := r } := by rw [hpower]; rfl
    rw [hp, hu.power]
    rfl
  · rwa [State.ctxLive, State.ctxOf, ← hctxs]
  · show tget {} t.parts.recs i = { record := (t.mgmt.bootPlan.drop (16 + 16 * i)).take 16 }
    rw [hmgmt, State.planned_bootPlan, hparts, State.planned_parts, ← State.partOf, u.applyPlan_partOf _ hi]

/-- A power register that the boot of orders 6 to 10 keeps. -/
theorem State.Up.powerOf {α : Type} {s t : State} {b : BootFinds} (h : s.Up t b) (g : Power → α)
    (hg : ∀ p : Power, g p.plain = g p := by exact fun _ => rfl)
    (hr : ∀ (p : Power) o r, g { p with loc := o, retryStatus := r } = g p := by exact fun _ _ _ => rfl) : g t.power = g s.power := by
  rw [← hg, h.power, hr, hg]

/-- The power state once the rails are up (order 5). -/
def State.railsUp (s : State) : State :=
  { s.coldCore with power := { s.coldCore.power with
      boardMax := max 1200 (min s.power.tcBoard 2800), groups := 4, running := true, ready := false, releaseHeld := none,
      railFault := false, linkUp := !s.power.perst, retryStatus := true } }

theorem State.releaseBoot_rest (s : State) (b : BootFinds) :
    ∃ u again, s.railsUp.Steady u ∧ s.releaseBoot b = u.bootRest b again := by
  unfold State.releaseBoot
  extract_lets again s1 old s2 s3
  refine ⟨s3, again, State.Steady.foldl _ _ (State.Steady.refl _) (fun u k => ?_), rfl⟩
  exact (u.steady_startIsland ..).trans (State.steady_modIsl ..)

/-- What the release of a READY device leaves, whether its location is read or not. -/
structure State.Released (s t : State) : Prop where
  groups   : t.power.groups = 4
  running  : t.power.running = true
  boardMax : t.power.boardMax = max 1200 (min s.power.tcBoard 2800)
  unheld   : t.power.releaseHeld = none

theorem State.releaseBoot_released (s : State) (b : BootFinds) : s.Released (s.releaseBoot b) := by
  obtain ⟨u, again, hu, he⟩ := s.releaseBoot_rest b
  rw [he]
  have hrails : s.Released u := ⟨hu.powerOf Power.groups, hu.powerOf Power.running, hu.powerOf Power.boardMax, hu.powerOf Power.releaseHeld⟩
  cases h : locOk b with
  | false =>
    rw [State.bootRest_unlocated h]
    exact ⟨hrails.groups, hrails.running, hrails.boardMax, hrails.unheld⟩
  | true =>
    have hup := u.bootRest_up h again
    exact ⟨(hup.powerOf Power.groups).trans hrails.groups, (hup.powerOf Power.running).trans hrails.running,
      (hup.powerOf Power.boardMax).trans hrails.boardMax, (hup.powerOf Power.releaseHeld).trans hrails.unheld⟩

theorem State.releaseBoot_unlocated (s : State) {b : BootFinds} (h : locOk b = false) : (s.releaseBoot b).mgmt.boot = .noLocation := by
  obtain ⟨u, again, -, he⟩ := s.releaseBoot_rest b
  rw [he, State.bootRest_unlocated h]

theorem State.releaseBoot_up (s : State) {b : BootFinds} (h : locOk b = true) :
    (s.releaseBoot b).mgmt.boot = .up ∧ (s.releaseBoot b).parts.protLock = true ∧ (s.releaseBoot b).power.loc = some b.loc ∧
      ∀ c, (s.releaseBoot b).ctxLive c = false := by
  obtain ⟨u, again, hu, he⟩ := s.releaseBoot_rest b
  rw [he]
  have hup := u.bootRest_up h again
  exact ⟨hup.boot, hup.lock, congrArg Power.loc hup.power, fun c => Bool.eq_false_iff.2 fun hc => nomatch hu.live c (hup.live c hc)⟩

/-- A RELEASE that the device takes. -/
theorem execTcRelease_taken {s : State} {b : BootFinds} (hp : s.power.stbyPg = true) (hr : s.power.running = false)
    (ht : s.power.tripped = false) :
    exec (.tcRelease b) s = .next (if s.mgmt.boot = .ready then s.release1 b else { s with power := { s.power with releaseHeld := some b } }) :=
  onlyIf_pos (by simp [hp, hr, ht]) _ _

/-! ### The orderly stop (R484) -/

theorem State.steady_freeBlockMap (s : State) (p : Nat) : s.Steady (s.freeBlockMap p) := by
  unfold State.freeBlockMap
  extract_lets mine s1
  refine State.Steady.trans (t := s1) (State.Steady.foldl _ _ (State.Steady.refl s) (fun u c => ?_)) (s1.steady_set_tiers _)
  have hframe : ∀ fid, u.Steady (if u.frameOf fid = .draining then u.setFrame fid .queued else u) := fun fid =>
    State.Steady.ite ((u.only_setFrame ..).steady (by decide)) (State.Steady.refl u)
  cases c.fid <;> cases c.peer
  · exact State.Steady.refl u
  · exact u.steady_lendReturn ..
  · exact hframe _
  · exact (hframe _).trans (State.steady_lendReturn ..)

theorem State.resetQueues_parts (s : State) (p : Nat) : (s.resetQueues p).parts = s.parts :=
  (State.Steady.foldl _ _ (State.Steady.refl (s.mapCmds (fun f _ _ => decide (f = p)) Cmd.leaveRecall))
    (fun u _ => u.steady_release ..)).parts

/-- Orders 1 to 4 of a partition reset leave the partitions as they are, but for the one that is now in reset. -/
theorem State.beginPartReset_parts {s : State} {p : Nat} (hr : (s.partOf p).resetting = false) (hw : s.parts.warm = false) :
    (s.beginPartReset p).parts = (s.modPart p (fun x => { x with resetting := true, shares := false, prep := none })).parts := by
  unfold State.beginPartReset
  rw [hr, hw, if_neg (by decide)]
  extract_lets s1 ctxs s2 s3
  have h1 : s1.parts = (s.modPart p (fun x => { x with resetting := true, shares := false, prep := none })).parts := by
    show Parts.mk .. = Parts.mk ..
    rw [s.resetQueues_parts p]
  have h2 : s1.Steady s2 := State.Steady.foldl _ _ (State.Steady.refl s1) (fun u c => u.steady_teardownBy ..)
  have h3 : s3.parts = s2.parts := (State.steady_freeBlockMap (s2.scrubClusters _) p).parts
  exact (h3.trans h2.parts).trans h1

theorem State.beginPartReset_resetting {s : State} (hw : s.parts.warm = false) (p j : Nat) :
    (s.beginPartReset p).parts.warm = false ∧
      ((s.beginPartReset p).partOf j).resetting = if j = p then true else (s.partOf j).resetting := by
  cases hr : (s.partOf p).resetting with
  | true =>
    have hb : s.beginPartReset p = s := by rw [State.beginPartReset, hr]; rfl
    rw [hb]
    refine ⟨hw, ?_⟩
    split
    next e => rw [e, hr]
    next => rfl
  | false =>
    have hb := State.beginPartReset_parts hr hw
    refine ⟨by rw [hb]; exact hw, ?_⟩
    rw [State.partOf, hb]
    show (State.partOf _ j).resetting = _
    rw [State.partOf_modPart]
    split <;> rfl

theorem foldl_beginPartReset_resetting {s : State} (hw : s.parts.warm = false) {l : List Nat} {p : Nat} (hp : p ∈ l) (hl : l.count p ≤ 1) :
    ((l.foldl (fun t p => t.beginPartReset p) s).partOf p).resetting = true := by
  obtain ⟨-, h⟩ := foldl_once (fun t p => (State.partOf t p).resetting) (fun t p => t.beginPartReset p) (fun _ _ => true)
    (fun t => t.parts.warm = false) l s p (fun u d hu => (State.beginPartReset_resetting hu d d).1)
    (fun u d hu => (State.beginPartReset_resetting hu d p).2) hw hl
  rw [h, if_pos hp]

/-- What the orderly stop leaves. -/
structure State.Stopped (s t : State) : Prop where
  running   : t.power.running = false
  groups    : t.power.groups ≤ 3
  ready     : t.power.ready = true
  boot      : t.mgmt.boot = .ready
  resetting : ∀ p, p < 64 → s.partEnabled p = true → (t.partOf p).resetting = true
  hands     : ∀ k i, t.handOf k i = none
  islands   : ∀ cl, cl < 192 → (t.islOf cl).running = false

theorem State.offReq_stopped {s : State} (h : s.power.running = true) : s.Stopped s.offReq := by
  unfold State.offReq
  rw [if_pos h]
  extract_lets old s1 s2 s3
  have hoff : s2.CoresOff s3 := s2.coresOff_off
  clear_value s3
  refine ⟨hoff.running, hoff.groups, rfl, rfl, fun p hp he => ?_, hoff.hands.handOf, hoff.islands⟩
  have hmem : p ∈ s1.enabledParts := List.mem_filter.2 ⟨List.mem_range.2 hp, he⟩
  have hcount : s1.enabledParts.count p ≤ 1 := (List.Sublist.count_le p List.filter_sublist).trans (count_range_le_one 64 p)
  have hparts : s3.parts = s2.parts := hoff.only.parts.resolve_left (by decide)
  show (tget {} s3.parts.recs p).resetting = true
  rw [hparts]
  exact foldl_beginPartReset_resetting (s := s1) rfl hmem hcount

/-! ### The obligation -/

theorem railBringupTimeout_acts {s : State} (h : s.mgmt.boot = .ready) :
    Answers .railBringupTimeout s [.power, .parts, .isl, .mgmt, .cores, .ctxs, .free] (fun t =>
      t.power.railFault = true ∧ t.power.releaseHeld = none ∧ t.parts.protLock = false ∧ t.mgmt.boot = .ready) := by
  have hrep := State.reported_report { s with power := { s.power with railFault := true, releaseHeld := none },
                                              parts := { s.parts with protLock := false } } islMgmt 11 0 none 0
  have hst := State.steady_report { s with power := { s.power with railFault := true, releaseHeld := none },
                                           parts := { s.parts with protLock := false } } islMgmt 11 0 none 0
  refine ⟨_, onlyIf_pos (decide_eq_true h) _ _, State.Only.trans (t := { s with
      power := { s.power with railFault := true, releaseHeld := none }, parts := { s.parts with protLock := false } })
    (by constructor <;> simp) (hrep.only.mono _ (by decide)), hrep.powerOf Power.railFault, hrep.powerOf Power.releaseHeld, ?_, ?_⟩
  · rw [hst.parts]
  · exact (hst.mgmtOf Mgmt.boot).trans h

/-- Settles O35: standby power, release, location, orderly stop and the loss of standby power, row by row. That a RELEASE of a device too
hot to start is held for a later one is log entry 35's reading of R478. -/
theorem packageStartsAndStops : Obligations.PackageStartsAndStops := by
  unfold Obligations.PackageStartsAndStops
  intro s
  refine ⟨fun hoff _ hheld _ => ?_, fun hoff hsel => ?_, fun b hp hr ht => ⟨fun hwait => ?_, fun hready htemp => ?_⟩, fun b hboot hloc => ?_,
    fun hrun => ?_, fun hp => ?_, railBringupTimeout_acts⟩
  · have he := execStandbyPowerGood_off hoff
    have hunheld : s.powered.power.releaseHeld = none := (s.steady_powered.powerOf Power.releaseHeld).trans hheld
    rw [State.bootOn_of_unheld hunheld] at he
    have hv := s.powered.verified_bootRom
    have hpg : s.powered.bootRom.power.stbyPg = true := (congrArg Power.stbyPg hv.power).trans (s.steady_powered.powerOf Power.stbyPg)
    refine ⟨_, he, exec_pending he, hpg, fun fw lf x cfg lc y hf hc => ?_, fun hnone => ?_⟩
    · have hc' := hc _ rfl
      rw [← s.steady_powered.mgmtOf (fun m => ({ m with fw := fw } : Mgmt).accepts 1), ← s.steady_powered.mgmtOf Mgmt.cfg] at hc'
      obtain ⟨hboot, hready, hfw, hcfg⟩ := State.bootRom_ready (s.powered_select.trans hf) hc'
      exact ⟨hboot, hready, hfw, hcfg, (hv.running islMgmt).trans (State.startIsland_running ..)⟩
    · rw [State.bootRom_recovers (s.powered_select.trans hnone)]
      exact ⟨rfl, rfl, rfl⟩
  · have he := execStandbyPowerGood_off hoff
    rw [State.bootOn_recovers (s.powered_select.trans hsel)] at he
    refine ⟨_, he, State.Only.trans ((s.only_set_power _).mono _ (by decide)) (State.Only.trans (t := s.powered)
      ((State.only_startIsland ..).mono _ (by decide)) ?_)⟩
    constructor <;> simp [State.enterRecovery]
  · rw [execTcRelease_taken hp hr ht]
    split
    next hready =>
      rw [State.release1, hwait.resolve_left (fun hn => hn hready)]
      rfl
    next => rfl
  · have he := execTcRelease_taken (b := b) hp hr ht
    rw [if_pos hready, State.release1, if_pos htemp] at he
    obtain ⟨hgroups, hrunning, hmax, hunheld⟩ := s.releaseBoot_released b
    exact ⟨_, he, exec_pending he, hgroups, hrunning, hmax, hunheld, s.releaseBoot_unlocated, s.releaseBoot_up⟩
  · have he : exec (.locationRetry b) s = .next (s.bootRest b false) := onlyIf_pos (decide_eq_true hboot) _ _
    obtain ⟨hup, hlock, hpower, -, hplan⟩ := s.bootRest_up hloc false
    exact ⟨_, he, exec_pending he, hup, congrArg Power.loc hpower, hlock, hplan⟩
  · have he : exec .tcOffReq s = .next s.offReq := onlyIf_pos hrun _ _
    obtain ⟨hrunning, hgroups, hready, hboot, hres, hhands, hisl⟩ := State.offReq_stopped hrun
    exact ⟨_, he, exec_pending he, hrunning, hgroups, hready, hboot, hres, hhands, hisl⟩
  · have he : exec .standbyPowerLoss s = .next s.coldReset := onlyIf_pos hp _ _
    exact ⟨_, he, exec_pending he, rfl, rfl, rfl, rfl, rfl, rfl, rfl, rfl, rfl, rfl, rfl, rfl, rfl, rfl, rfl⟩

end Sys2Proof.Machine
end

section
/-! What a mailbox response is, and the requests that read (R447, R450, R459 to R461, Table 15.10), and O31. -/
namespace Sys2Proof.Machine

/-! ### The MAILBOX cause -/

theorem nbit_eq_testBit (n i : Nat) : nbit n i = n.testBit i := by rw [nbit_eq, Nat.testBit_eq_decide_div_mod_eq]

/-- Writing one bit of a number leaves the others. -/
theorem nbit_setBits (n b v i : Nat) (hv : v < 2) : nbit (setBits n b b v) i = if i = b then decide (v = 1) else nbit n i := by
  have hn : n = 2 ^ b * (n / 2 ^ b) + n % 2 ^ b := (Nat.div_add_mod n (2 ^ b)).symm
  have hhalf : ∀ q : Nat, (q - q % 2 + v) / 2 = q / 2 := fun q => by omega
  have hlow : n % 2 ^ b < 2 ^ b := Nat.mod_lt _ (Nat.two_pow_pos b)
  have hset : setBits n b b v = 2 ^ b * (n / 2 ^ b - n / 2 ^ b % 2 + v) + n % 2 ^ b := by
    have hle : 2 ^ b * (n / 2 ^ b % 2) ≤ 2 ^ b * (n / 2 ^ b) := Nat.mul_le_mul_left _ (Nat.mod_le _ _)
    rw [setBits, bits, Nat.sub_self, Nat.zero_add, Nat.pow_one, Nat.mod_eq_of_lt hv, Nat.mul_add, Nat.mul_sub, Nat.mul_comm _ (2 ^ b),
      Nat.mul_comm v]
    omega
  rw [nbit_eq_testBit, nbit_eq_testBit, hset, Nat.testBit_two_pow_mul_add _ hlow]
  conv_rhs => rw [hn, Nat.testBit_two_pow_mul_add _ hlow]
  rcases Nat.lt_trichotomy i b with hlt | rfl | hgt
  · rw [if_pos hlt, if_pos hlt, if_neg hlt.ne]
  · rw [if_neg (Nat.lt_irrefl i), if_pos rfl, Nat.sub_self, Nat.testBit_zero]
    exact decide_eq_decide.2 (by omega)
  · obtain ⟨k, hk⟩ : ∃ k, i - b = k + 1 := ⟨i - b - 1, by omega⟩
    rw [if_neg (by omega), if_neg (by omega), if_neg (by omega), hk, Nat.testBit_succ, Nat.testBit_succ, hhalf]

theorem State.dueOnce_intCause (s : State) (f v j : Nat) : ((s.dueOnce f v).1.fnOf j).intCause = (s.fnOf j).intCause := by
  have hmod : ∀ g : Fn → Fn, (∀ x, (g x).intCause = x.intCause) → ((s.modFn f g).fnOf j).intCause = (s.fnOf j).intCause := fun g hg => by
    rw [State.fnOf_modFn]
    split
    next e => rw [hg, e]
    next => rfl
  unfold State.dueOnce
  extract_lets x
  split_ifs
  · rfl
  · exact hmod _ (fun _ => rfl)
  · exact hmod _ (fun _ => rfl)
  · exact hmod _ (fun _ => rfl)
  · exact hmod _ (fun _ => rfl)

theorem State.markCause_mailbox {s : State} {f : Nat} (h : nbit (s.fnOf f).intCause 7 = true) :
    nbit ((s.markCause f 6).1.fnOf f).intCause 7 = true := by
  unfold State.markCause
  dsimp only
  split
  · exact h
  · rw [State.fnOf_modFn_self, nbit_setBits _ _ _ _ (by decide)]
    exact h

theorem State.due_mailbox {s : State} {f : Nat} (v : Nat) (h : nbit (s.fnOf f).intCause 7 = true) :
    nbit ((s.due f v).fnOf f).intCause 7 = true := by
  have honce : nbit ((s.dueOnce f v).1.fnOf f).intCause 7 = true := by rwa [s.dueOnce_intCause f v f]
  have hmark := State.markCause_mailbox honce
  unfold State.due
  dsimp only
  split
  · split
    · rwa [State.dueOnce_intCause]
    · exact hmark
  · exact honce

theorem State.cause_mailbox (s : State) (f : Nat) : nbit ((s.cause f 7).fnOf f).intCause 7 = true := by
  have hmark : nbit ((s.markCause f 7).1.fnOf f).intCause 7 = true := by
    unfold State.markCause
    dsimp only
    split
    · assumption
    · rw [State.fnOf_modFn_self, nbit_setBits _ _ _ _ (by decide)]
      rfl
  unfold State.cause
  dsimp only
  split
  · exact State.due_mailbox _ hmark
  · exact hmark

/-! ### The response -/

/-- The header of a response. -/
def Mgmt.answerHead (m : Mgmt) (result : Nat) (outs : List Nat) (len : Nat) : List Word :=
  [w32 (bits (m.req 0) 7 0 + result * 2 ^ 8 + bits (m.req 0) 31 16 * 2 ^ 16), w32 len] ++ (List.range 6).map (fun i => w32 (outs.getD i 0))

theorem Mgmt.answerHead_length (m : Mgmt) (result : Nat) (outs : List Nat) (len : Nat) :
    (wordBytes (m.answerHead result outs len)).length = 32 := by
  rw [wordBytes_length]
  rfl

/-- The management island after a response. -/
theorem State.respond_mgmt (s : State) (result : Nat) (outs : List Nat) (payload : List Byte) :
    (s.respond result outs payload).mgmt = { s.mgmt with
      respArea := cellWrite s.mgmt.respArea 0 (wordBytes (s.mgmt.answerHead result outs payload.length) ++ payload),
      mbBusy := false, mbDone := true, mbDoneSeq := s.mgmt.mbSeq } := by
  rw [State.respond, State.cause_mgmt]
  rfl

/-- Reading the first bytes of what was just written. -/
theorem cellRead_cellWrite_prefix (m : List Host.Cell) (a : Nat) (bs cs : List Byte) : cellRead (cellWrite m a (bs ++ cs)) a bs.length = bs := by
  refine List.ext_getElem (by simp [cellRead]) (fun i h₁ h₂ => ?_)
  simp only [cellRead, List.getElem_map, List.getElem_range]
  rw [cellGet_cellWrite, if_pos (by rw [List.length_append]; omega), Nat.add_sub_cancel_left,
    List.getD_eq_getElem?_getD, List.getElem?_append_left h₂, List.getElem?_eq_getElem h₂]
  rfl

theorem cellGet_cellWrite_append (m : List Host.Cell) (bs cs : List Byte) {i : Nat} (hi : i < cs.length) :
    cellGet (cellWrite m 0 (bs ++ cs)) (bs.length + i) = cs.getD i 0 := by
  rw [cellGet_cellWrite, if_pos (by rw [List.length_append]; omega), Nat.sub_zero, List.getD_eq_getElem?_getD,
    List.getElem?_append_right (Nat.le_add_right _ _), Nat.add_sub_cancel_left, List.getD_eq_getElem?_getD]

/-! ### Requests -/

/-- A request that is asked is served. -/
theorem State.serve_asked {s : State} {req : Nat} (h : s.Asked req) (g : Mgmt → State) : s.serve req g = .next (g s.mgmt) :=
  onlyIf_pos (by simp [h.busy, h.runs, h.asked]) _ _

theorem execInfo_asked {s : State} (h : s.Asked 0x01) : execInfo s = .next (s.respond mbOk
    [imVersion s.mgmt.fw.a, imVersion s.mgmt.fw.b, imVersion s.mgmt.cfg.a, imVersion s.mgmt.cfg.b, s.mgmt.fw.floor, s.mgmt.cfg.floor] []) := by
  rw [execInfo, State.serve_asked h]

theorem execSensorRead_asked {s : State} (h : s.Asked 0x05) :
    execSensorRead s = .next (s.respond mbOk [] (s.mgmt.temps.flatMap (fun t => leBytes 2 (ofInt 16 t)) ++
      (s.mgmt.supplies ++ s.mgmt.currents ++ s.mgmt.volts).flatMap (leBytes 2))) := by
  rw [execSensorRead, State.serve_asked h]

theorem execIdentity_asked {s : State} (h : s.Asked 0x0C) :
    execIdentity s = .next (s.respond mbOk [] (padTo 32 (Config.identityBytes [] 32) ++ Config.identityBytes s.mgmt.digests 0)) := by
  rw [execIdentity, State.serve_asked h]

theorem execFenceRead_asked {s : State} (h : s.Asked 0x10) :
    execFenceRead s = .next (s.respond mbOk [] (leBytes 384 (sumNat (s.mgmt.fencedCores.map (fun i => 2 ^ i))) ++
      leBytes 24 (sumNat (s.mgmt.fencedClusters.map (fun i => 2 ^ i))))) := by
  rw [execFenceRead, State.serve_asked h]

theorem logRead_acts {s : State} (h : s.Asked 0x02) (h1 : 1 ≤ s.mgmt.param 1) (h2 : s.mgmt.param 1 ≤ 8191) {rs : List (List Word)}
    {first skip : Nat} (hfirst : first = s.mgmt.nextLog - s.mgmt.log.length) (hskip : skip = s.mgmt.param 0 - first)
    (hrs : rs = (s.mgmt.log.drop skip).take (s.mgmt.param 1)) :
    exec .logRead s = .next (s.respond 0 [if rs = [] then 0 else first + skip, rs.length, s.mgmt.nextLog] (rs.flatMap wordBytes)) := by
  subst hfirst hskip
  show execLogRead s = _
  rw [execLogRead, State.serve_asked h]
  rw [if_neg (by omega)]
  simp only [← hrs, List.isEmpty_iff]

theorem firstErrorRead_acts {s : State} {k : Nat} (h : s.Asked 0x04) (hk : k = bits (s.mgmt.param 0) 15 0) (hmem : k ∈ allIslands) :
    Answers .firstErrorRead s [.mgmt, .isl, .cp, .host] (fun t => t.islOf k = { s.islOf k with first := none, later := 0 } ∧
      (∀ j, j ≠ k → t.islOf j = s.islOf j) ∧
      t.mgmt = (s.respond 0 [(s.islOf k).later, b2n (s.islOf k).first.isSome] (((s.islOf k).first.map wordBytes).getD [])).mgmt) := by
  have hc : (!allIslands.contains (bits (s.mgmt.param 0) 15 0)) = false := by
    rw [← hk, Bool.not_eq_false', List.contains_iff_mem]
    exact hmem
  have he : exec .firstErrorRead s = .next ((s.modIsl k (fun x => { x with first := none, later := 0 })).respond mbOk
      [(s.islOf k).later, b2n (s.islOf k).first.isSome] (((s.islOf k).first.map wordBytes).getD [])) := by
    show execFirstErrorRead s = _
    rw [execFirstErrorRead, State.serve_asked h]
    dsimp only
    rw [hc, if_neg (by decide), hk]
  have honly := State.only_respond (s.modIsl k (fun x => { x with first := none, later := 0 })) mbOk
    [(s.islOf k).later, b2n (s.islOf k).first.isSome] (((s.islOf k).first.map wordBytes).getD [])
  have hisl := honly.isl.resolve_left (by decide)
  refine ⟨_, he, ((s.only_modIsl k _).mono _ (by decide)).trans (honly.mono _ (by decide)), ?_, fun j hj => ?_, ?_⟩
  · rw [State.islOf, hisl]
    exact State.islOf_modIsl_self ..
  · rw [State.islOf, hisl]
    exact (State.islOf_modIsl ..).trans (if_neg hj)
  · rw [State.respond_mgmt, State.respond_mgmt]
    rfl

theorem counterRead_acts {s : State} (h : s.Asked 0x06) :
    (∀ v, s.counter (s.mgmt.param 0) (s.mgmt.param 1) (s.mgmt.param 2) = some v →
        exec .counterRead s = .next (s.respond 0 [v % 2 ^ 32, v / 2 ^ 32] [])) ∧
      (s.counter (s.mgmt.param 0) (s.mgmt.param 1) (s.mgmt.param 2) = none → exec .counterRead s = .next (s.respond 2 [] [])) := by
  have he : exec .counterRead s = _ := State.serve_asked h (fun m => match s.counter (m.param 0) (m.param 1) (m.param 2) with
    | some v => s.respond mbOk [v % 2 ^ 32, v / 2 ^ 32] []
    | none => s.refuse mbBad)
  refine ⟨fun v hv => ?_, fun hv => ?_⟩
  · rw [he, hv]
  · rw [he, hv]
    rfl

theorem snapshotRead_acts {s : State} (h : s.Asked 0x07) (hp : s.mgmt.param 0 ≤ 3332) (hheld : s.mgmt.showHeld = true) :
    exec .snapshotRead s = .next (s.respond 0 [] (s.snapRecord (s.mgmt.param 0))) := by
  show execSnapshotRead s = _
  rw [execSnapshotRead, State.serve_asked h]
  rw [if_neg (by omega), hheld]
  rfl

theorem attest_acts {s : State} (h : s.Asked 0x0D) (hlen : s.mgmt.req 1 = 32) :
    exec .attest s = .next (s.respond 0 [] (s.attestReport s.mgmt.payload ++
      padTo 17088 (Config.identityBytes (s.mgmt.digests ++ s.attestReport s.mgmt.payload) 17088))) := by
  show execAttest s = _
  rw [execAttest, State.serve_asked h]
  rw [if_neg (by omega)]

theorem debugWindowRead_acts {s : State} {offset bytes : Nat} (hl : s.hostLive = true) (hd : s.mgmt.dbgEnable = true)
    (hb : offset + bytes ≤ 2 ^ 36) :
    Answers (.debugWindowRead offset bytes) s [.host, .free] (fun t => t.host.mem = s.host.mem ∧ t.host.msgs = s.host.msgs ∧
      t.host.readBytes = (pieces (s.mgmt.dbgBase + offset) bytes).flatMap (fun p => s.windowPiece s.mgmt.dbgCtx p.1 p.2.1 p.2.2)) := by
  refine ⟨_, onlyIf_pos (by rw [hl, hd, decide_eq_true hb]; rfl) _ _, ?_, rfl, rfl, rfl⟩
  exact ((s.only_set_host _).mono _ (by decide)).trans ((State.only_freeNext _ _).mono _ (by decide))

/-! ### The obligation -/

/-- Settles O31, request by request. That OUT_0 is 0 where no record is returned is log entry 55. -/
theorem mailboxAnswers : Obligations.MailboxAnswers := by
  unfold Obligations.MailboxAnswers
  intro s _
  refine ⟨fun result outs payload => ⟨s.only_respond .., ?_, ?_, ?_, fun i hi => ?_, ?_, State.cause_mailbox ..⟩,
    execInfo_asked, fun _ _ _ h h1 h2 hf hs hrs => logRead_acts h h1 h2 hf hs hrs, fun _ => firstErrorRead_acts,
    execSensorRead_asked, counterRead_acts, snapshotRead_acts, execIdentity_asked, fun r h hlen hr => ?_,
    execFenceRead_asked, fun _ _ => debugWindowRead_acts⟩
  · rw [State.respond_mgmt]
  · rw [State.respond_mgmt]
  · rw [State.respond_mgmt]
  · have hhead := s.mgmt.answerHead_length result outs payload.length
    rw [State.respond_mgmt, ← hhead]
    exact cellGet_cellWrite_append _ _ _ hi
  · rw [State.respond_mgmt, ← s.mgmt.answerHead_length result outs payload.length]
    exact cellRead_cellWrite_prefix ..
  · rw [hr]
    exact attest_acts h hlen

end Sys2Proof.Machine
end

section
/-! Acknowledgements and lanes (R392, R393), tiles between layouts (R409), credits and tears (R405, R406), and O23. -/
namespace Sys2Proof.Machine

/-! ### What an acknowledgement leaves of a port -/

/-- What the link layer's sending and acknowledging keep of a port: all but its queues, counters and sequence numbers. -/
structure Port.Kept (p q : Port) : Prop where
  usable      : q.usable = p.usable
  rxSeq       : q.rxSeq = p.rxSeq
  lanesUp     : q.lanesUp = p.lanesUp
  recalActive : q.recalActive = p.recalActive
  recalLane   : q.recalLane = p.recalLane
  mappedOut   : q.mappedOut = p.mappedOut

theorem Port.Kept.trans {p q r : Port} (h : p.Kept q) (k : q.Kept r) : p.Kept r :=
  ⟨k.usable.trans h.usable, k.rxSeq.trans h.rxSeq, k.lanesUp.trans h.lanesUp, k.recalActive.trans h.recalActive,
   k.recalLane.trans h.recalLane, k.mappedOut.trans h.mappedOut⟩

theorem Port.kept_pump (l : List Frame) (p : Port) : p.Kept (Port.pump l p) := by
  induction l generalizing p with
  | nil => exact ⟨rfl, rfl, rfl, rfl, rfl, rfl⟩
  | cons f l ih =>
    rw [Port.pump]
    split
    · exact ⟨rfl, rfl, rfl, rfl, rfl, rfl⟩
    · exact Port.Kept.trans (q := p.emit f) ⟨rfl, rfl, rfl, rfl, rfl, rfl⟩ (ih _)

theorem Port.kept_acked (p : Port) (lack : Nat) : p.Kept (p.acked lack) := by
  unfold Port.acked
  split
  · exact Port.Kept.trans (q := { p with replayBuf := (p.replayBuf.dropWhile (fun f => f.lseq ≠ lack)).drop 1, failedReplays := 0 })
      ⟨rfl, rfl, rfl, rfl, rfl, rfl⟩ (Port.kept_pump ..)
  · exact ⟨rfl, rfl, rfl, rfl, rfl, rfl⟩

/-! ### Class 0 frames -/

/-- The state once a class 0 frame's acknowledgement has been taken. -/
def State.ackedBy (s : State) (port : Nat) (f : Frame) : State := s.modPort port (fun x => x.acked f.lack)

theorem State.only_ackedBy (s : State) (port : Nat) (f : Frame) : s.Only [.fab] (s.ackedBy port f) := s.only_modPort port _

@[simp] theorem State.portOf_ackedBy (s : State) (port : Nat) (f : Frame) : (s.ackedBy port f).portOf port = (s.portOf port).acked f.lack :=
  s.portOf_modPort_self port _

/-- A clean class 0 frame of its type reaches the row on a port that carries frames. -/
theorem State.onLink_clean {s : State} {port ty : Nat} {f : Frame} (hty : f.ty = ty) (hu : (s.portOf port).usable = true)
    (hc : f.clean = true) (g : State → State) : s.onLink port f true ty g = .next (g (s.ackedBy port f)) := by
  simp only [State.onLink, hty, hu, hc, ne_eq, not_true_eq_false, Bool.not_true, Bool.false_eq_true, or_self, if_false]
  rfl

theorem execLinkAck_clean {s : State} {port : Nat} {f : Frame} (hty : f.ty = 1) (hu : (s.portOf port).usable = true) (hc : f.clean = true) :
    exec (.linkAck port f true) s = .next (if f.tf 0 0 0 = 1 ∧ ((s.ackedBy port f).portOf port).replayBuf ≠ [] then
      ((s.ackedBy port f).replayOn port).modPort port (fun x => { x with failedReplays := max 1 x.failedReplays })
      else s.ackedBy port f) := by
  have hclass : ¬ (frameClass f.ty).isNone = true := by rw [hty]; decide
  show execLinkAck port f true s = _
  rw [execLinkAck, if_neg hclass, State.onLink_clean hty hu hc]

theorem linkAck_drops {s : State} {port : Nat} {f : Frame} (hty : f.ty = 1) (hu : (s.portOf port).usable = true) (hc : f.clean = true)
    (hreq : f.tf 0 0 0 = 0) : exec (.linkAck port f true) s = .next (s.ackedBy port f) := by
  rw [execLinkAck_clean hty hu hc, if_neg (fun h => absurd (hreq.symm.trans h.1) (by decide))]

theorem Port.replay_of_ne {p : Port} (h : p.replayBuf ≠ []) : p.replay = { p with
    tx := p.tx ++ p.replayBuf.map (fun f => { f with lack := p.rxSeq }), unreported := 0, replays := satAdd 16 p.replays 1 } := by
  rw [Port.replay, if_neg h]

theorem linkAck_replays {s : State} {port : Nat} {f : Frame} {p : Port} (hp : s.portOf port = p) (hty : f.ty = 1) (hu : p.usable = true)
    (hc : f.clean = true) (hreq : f.tf 0 0 0 = 1) (hbuf : (p.acked f.lack).replayBuf ≠ []) :
    Answers (.linkAck port f true) s [.fab, .isl, .mgmt, .cores, .power, .ctxs, .free] (fun t =>
      (t.portOf port).tx = (p.acked f.lack).tx ++ (p.acked f.lack).replayBuf.map (fun g => { g with lack := p.rxSeq }) ∧
      (t.portOf port).replayBuf = (p.acked f.lack).replayBuf ∧ ∀ j, j ≠ port → t.portOf j = s.portOf j) := by
  subst hp
  have he := execLinkAck_clean hty hu hc
  rw [if_pos ⟨hreq, by rwa [State.portOf_ackedBy]⟩] at he
  set u := (s.ackedBy port f).modPort port Port.replay with hu'
  have hrep : u.Only showGroups ((s.ackedBy port f).replayOn port) := State.only_report ..
  have hport : ∀ j, ((s.ackedBy port f).replayOn port).portOf j = u.portOf j := fun j => by
    rw [State.portOf, hrep.fab.resolve_left (by decide), State.portOf]
  have hself : u.portOf port = ((s.portOf port).acked f.lack).replay := by
    rw [hu', State.portOf_modPort_self, State.portOf_ackedBy]
  have hone : s.Only [.fab] u := (s.only_ackedBy port f).trans (State.only_modPort ..)
  refine ⟨_, he, ((hone.mono _ (by decide)).trans (hrep.mono _ (by decide))).trans ((State.only_modPort ..).mono _ (by decide)),
    ?_, ?_, fun j hj => ?_⟩
  · rw [State.portOf_modPort_self, hport, hself, Port.replay_of_ne hbuf, ((s.portOf port).kept_acked f.lack).rxSeq]
  · rw [State.portOf_modPort_self, hport, hself, Port.replay_of_ne hbuf]
  · rw [State.portOf_modPort, if_neg hj, hport, hu', State.portOf_modPort, if_neg hj, State.ackedBy, State.portOf_modPort, if_neg hj]

/-! ### Lanes -/

theorem Port.send_lane {p : Port} (h : p.usable = true) (s : State) (lane kind : Nat) :
    p.send (s.laneFrame lane kind) = { p with tx := p.tx ++ [{ s.laneFrame lane kind with lack := p.rxSeq }], unreported := 0 } := by
  have hclass : frameClass (s.laneFrame lane kind).ty = some 0 := (rfl : frameClass 0x02 = some 0)
  rw [Port.send, h, Bool.not_true, if_neg Bool.false_ne_true, if_pos hclass]
  rfl

section
variable {s : State} {port lane : Nat} {f : Frame} {p : Port}

/-- The neighbour asks for a lane, and gets it. -/
theorem lane_granted (hp : s.portOf port = p) (hu : p.usable = true) (hc : f.clean = true) (hty : f.ty = 2) (hlane : lane = f.tf 0 1 0)
    (hk : f.tf 0 3 2 = 0) (hr : p.recalActive = false) :
    Answers (.lane port f true) s [.fab] (fun t =>
      nbit (t.portOf port).lanesUp lane = false ∧ (∀ b, b ≠ lane → nbit (t.portOf port).lanesUp b = nbit p.lanesUp b) ∧
      (t.portOf port).tx = (p.acked f.lack).tx ++ [{ s.laneFrame lane 1 with lack := p.rxSeq }]) := by
  subst hp hlane
  have hkept := (s.portOf port).kept_acked f.lack
  have he : exec (.lane port f true) s = .next (((s.ackedBy port f).sendOn port (s.laneFrame (f.tf 0 1 0) 1)).modPort port
      (fun x => { x with lanesUp := setBits x.lanesUp (f.tf 0 1 0) (f.tf 0 1 0) 0 })) := by
    show execLane port f true s = _
    rw [execLane, State.onLink_clean hty hu hc]
    simp only [hk, State.portOf_ackedBy, hkept.recalActive, hr, Bool.false_eq_true, if_false]
    rfl
  refine ⟨_, he, ((s.only_ackedBy port f).trans (State.only_modPort ..)).trans (State.only_modPort ..), ?_, fun b hb => ?_, ?_⟩
  all_goals rw [State.portOf_modPort_self, State.sendOn, State.portOf_modPort_self, State.portOf_ackedBy,
    Port.send_lane (hkept.usable.trans hu)]
  · rw [nbit_setBits _ _ _ _ (by decide), if_pos rfl]
    rfl
  · rw [nbit_setBits _ _ _ _ (by decide), if_neg hb, hkept.lanesUp]
  · rw [hkept.rxSeq]

/-- The port recalibrates, and refuses the neighbour's lane. -/
theorem lane_refused (hp : s.portOf port = p) (hu : p.usable = true) (hc : f.clean = true) (hty : f.ty = 2) (hlane : lane = f.tf 0 1 0)
    (hk : f.tf 0 3 2 = 0) (hr : p.recalActive = true) :
    Answers (.lane port f true) s [.fab] (fun t => (t.portOf port).lanesUp = p.lanesUp ∧
      (t.portOf port).tx = (p.acked f.lack).tx ++ [{ s.laneFrame lane 2 with lack := p.rxSeq }]) := by
  subst hp hlane
  have hkept := (s.portOf port).kept_acked f.lack
  have he : exec (.lane port f true) s = .next ((s.ackedBy port f).sendOn port (s.laneFrame (f.tf 0 1 0) 2)) := by
    show execLane port f true s = _
    rw [execLane, State.onLink_clean hty hu hc]
    simp only [hk, State.portOf_ackedBy, hkept.recalActive, hr, if_true]
    rfl
  refine ⟨_, he, (s.only_ackedBy port f).trans (State.only_modPort ..), ?_, ?_⟩
  all_goals rw [State.sendOn, State.portOf_modPort_self, State.portOf_ackedBy, Port.send_lane (hkept.usable.trans hu)]
  · exact hkept.lanesUp
  · rw [hkept.rxSeq]

/-- The neighbour agrees to the lane that is recalibrated here. -/
theorem lane_agreed (hp : s.portOf port = p) (hu : p.usable = true) (hc : f.clean = true) (hty : f.ty = 2) (hlane : lane = f.tf 0 1 0)
    (hk : f.tf 0 3 2 = 1) (hr : p.recalActive = true) (hl : p.recalLane = lane) :
    Answers (.lane port f true) s [.fab] (fun t =>
      nbit (t.portOf port).lanesUp lane = false ∧ ∀ b, b ≠ lane → nbit (t.portOf port).lanesUp b = nbit p.lanesUp b) := by
  subst hp hlane
  have hkept := (s.portOf port).kept_acked f.lack
  have he : exec (.lane port f true) s = .next ((s.ackedBy port f).modPort port
      (fun x => { x with lanesUp := setBits x.lanesUp (f.tf 0 1 0) (f.tf 0 1 0) 0 })) := by
    show execLane port f true s = _
    rw [execLane, State.onLink_clean hty hu hc]
    simp only [hk, State.portOf_ackedBy, hkept.recalActive, hr, hkept.recalLane, hl, and_self, if_true]
  refine ⟨_, he, (s.only_ackedBy port f).trans (State.only_modPort ..), ?_, fun b hb => ?_⟩
  all_goals rw [State.portOf_modPort_self, State.portOf_ackedBy, nbit_setBits _ _ _ _ (by decide)]
  · rw [if_pos rfl]
    rfl
  · rw [if_neg hb, hkept.lanesUp]

/-- The neighbour announces that a lane rejoins. -/
theorem lane_rejoined (hp : s.portOf port = p) (hu : p.usable = true) (hc : f.clean = true) (hty : f.ty = 2) (hlane : lane = f.tf 0 1 0)
    (hk : f.tf 0 3 2 = 3) :
    Answers (.lane port f true) s [.fab] (fun t =>
      nbit (t.portOf port).lanesUp lane = true ∧ nbit (t.portOf port).lanesFailed lane = false ∧
      ∀ b, b ≠ lane → nbit (t.portOf port).lanesUp b = nbit p.lanesUp b) := by
  subst hp hlane
  have hkept := (s.portOf port).kept_acked f.lack
  have he : exec (.lane port f true) s = .next ((s.ackedBy port f).modPort port (fun x =>
      { x with lanesUp := setBits x.lanesUp (f.tf 0 1 0) (f.tf 0 1 0) 1, lanesFailed := setBits x.lanesFailed (f.tf 0 1 0) (f.tf 0 1 0) 0 })) := by
    show execLane port f true s = _
    rw [execLane, State.onLink_clean hty hu hc]
    simp only [hk]
  refine ⟨_, he, (s.only_ackedBy port f).trans (State.only_modPort ..), ?_, ?_, fun b hb => ?_⟩
  all_goals rw [State.portOf_modPort_self, State.portOf_ackedBy, nbit_setBits _ _ _ _ (by decide)]
  · rw [if_pos rfl]
    rfl
  · rw [if_pos rfl]
    rfl
  · rw [if_neg hb, hkept.lanesUp]

end

/-! ### A frame at the endpoint of its circuit -/

/-- It is for the row of its type. -/
theorem State.AtEndpoint.onFrame {s : State} {port : Nat} {f : Frame} (h : s.AtEndpoint port f) {ty : Nat} (hty : f.ty = ty)
    (g : State → State) : s.onFrame port f true ty g = .next (g (s.received port f)) := by
  rw [State.onFrame, if_neg (not_not.2 hty), h.arrive]

theorem State.drainCircuit_nil {s : State} {k : Nat} (h : (s.circOf k).sendQ = []) (n : Nat) : State.drainCircuit n s k = s := by
  cases n with
  | zero => rfl
  | succ n => rw [State.drainCircuit, h]

theorem credit_adds {s : State} {port : Nat} {f : Frame} (h : s.AtEndpoint port f) (hty : f.ty = 0x14)
    (hq : (s.circOf f.circuit).sendQ = []) :
    Answers (.credit port f true) s [.fab] (fun t => t.circOf f.circuit = { (s.circOf f.circuit) with
      avail := min (s.circOf f.circuit).limit ((s.circOf f.circuit).avail + f.tf 0 10 0) } ∧
      ∀ k, k ≠ f.circuit → t.circOf k = s.circOf k) := by
  have he : exec (.credit port f true) s = .next ((s.received port f).modCirc f.circuit
      (fun x => { x with avail := min x.limit (x.avail + f.tf 0 10 0) })) := by
    show execCredit port f true s = _
    rw [execCredit, h.onFrame hty]
    dsimp only
    rw [s.circOf_received port f f.circuit, if_neg h.single, State.drainCircuit_nil]
    rw [State.circOf_modCirc_self, s.circOf_received port f f.circuit]
    exact hq
  refine ⟨_, he, (s.only_received port f).trans (State.only_modCirc ..), ?_, fun k hk => ?_⟩
  · rw [State.circOf_modCirc_self, s.circOf_received port f f.circuit]
  · rw [State.circOf_modCirc, if_neg hk, s.circOf_received port f k]

/-- A circuit that is no tree has one entry. -/
theorem State.treeOf_single {s : State} {k : Nat} (h : (s.circOf k).kind ≠ 2) : s.treeOf k = [k] := by
  rw [State.treeOf, if_pos h]

theorem State.tearEntry_frees {s : State} {k : Nat} (h : (s.circOf k).state ≠ 0) (hk : (s.circOf k).kind ≠ 2) (cause lost : Nat)
    (o : Option Nat) : ((s.tearEntry k cause lost o).circOf k).state = 0 := by
  unfold State.tearEntry
  extract_lets c ks f side s1 s2 s3
  have hks : ks = [k] := State.treeOf_single hk
  have h3 : s3 = s2.modCirc k (fun _ => {}) := by simp only [s3, hks, List.foldl_cons, List.foldl_nil]
  rw [if_neg h]
  show (s3.circOf k).state = 0
  rw [h3, State.circOf_modCirc_self]

theorem tear_frees {s : State} {port : Nat} {f : Frame} (h : s.AtEndpoint port f) (hty : f.ty = 0x15) :
    ∃ t, exec (.tear port f true) s = .next t ∧ (t.circOf f.circuit).state = 0 ∧ t.pending = s.pending := by
  have he : exec (.tear port f true) s =
      .next ((s.received port f).tearHere f.circuit (f.tf 0 2 0) (f.tf 1 13 0) (some port)) := by
    show execTear port f true s = _
    rw [execTear, h.onFrame hty]
  refine ⟨_, he, ?_, exec_pending he⟩
  have hopen : ((s.received port f).circOf f.circuit).state ≠ 0 := by
    rw [s.circOf_received port f f.circuit, h.here]
    decide
  have hsingle : ((s.received port f).circOf f.circuit).kind ≠ 2 := h.single
  have hfree := State.tearEntry_frees hopen hsingle (f.tf 0 2 0) (f.tf 1 13 0) (some port)
  unfold State.tearHere
  dsimp only
  rw [if_neg hopen]
  split
  · exact (State.steady_endpointTorn ..).freed _ hfree
  · exact hfree

/-! ### Tiles between layouts (R409) -/

/-- A TILE frame from a member of the context's job, which holds no other, for an input station of one of its layouts. -/
structure State.TileFrame (s : State) (port : Nat) (f : Frame) (ctx rank : Nat) (j : Job) (l : Layout) (st : Station) : Prop where
  ends    : s.AtEndpoint port f
  ty      : f.ty = 0x10
  sender  : s.senderOf f = some (ctx, rank)
  job     : s.jobOf ctx = some j
  empty   : j.tilesIn = []
  layout  : s.layoutOf ctx (f.tf 2 2 0) = some l
  station : l.img.stations[f.tf 2 12 3]? = some st

/-- The frame joins those held at the ingress, with its sender. -/
def State.holdTile (s : State) (ctx rank : Nat) (f : Frame) : State := s.modJob ctx (fun x => { x with tilesIn := x.tilesIn ++ [(rank, f)] })

/-- The frame leaves the ingress, its credits owed. -/
def State.tileGone (s : State) (ctx rank : Nat) (f : Frame) : State :=
  (s.oweCredits f).modJob ctx (fun x => { x with tilesIn := x.tilesIn.erase (rank, f) })

theorem State.layoutOf_of_ctxs {s t : State} (h : t.ctxs = s.ctxs) (ctx l : Nat) : t.layoutOf ctx l = s.layoutOf ctx l := by
  rw [State.layoutOf, State.layoutOf, State.ctxOf, State.ctxOf, h]

theorem State.layoutOf_modJob (s : State) (ctx l : Nat) (g : Job → Job) : (s.modJob ctx g).layoutOf ctx l = s.layoutOf ctx l :=
  s.layoutOf_modCtx_layouts ctx l _ rfl

theorem State.stale_modJob (s : State) (ctx : Nat) (g : Job → Job) : ((s.modJob ctx g).ctxOf ctx).stale = (s.ctxOf ctx).stale := by
  rw [State.modJob, State.ctxOf_modCtx_self]

theorem State.layoutOf_tileGone (s : State) (ctx rank l : Nat) (f : Frame) : (s.tileGone ctx rank f).layoutOf ctx l = s.layoutOf ctx l :=
  (State.layoutOf_modJob ..).trans (State.layoutOf_of_ctxs rfl ctx l)

section
variable {s : State} {port : Nat} {f : Frame} {ctx rank : Nat} {j : Job} {l : Layout} {st : Station}

theorem State.TileFrame.held (m : s.TileFrame port f ctx rank j l st) :
    ((s.received port f).holdTile ctx rank f).jobOf ctx = some { j with tilesIn := [(rank, f)] } := by
  have hj : (s.received port f).jobOf ctx = some j := m.job
  rw [State.holdTile, State.jobOf_modJob_self, hj, Option.map_some, m.empty, List.nil_append]

/-- Where the one frame held is taken, that is all the row does. -/
theorem State.TileFrame.taken (m : s.TileFrame port f ctx rank j l st) {t : State}
    (ht : ((s.received port f).holdTile ctx rank f).takeTile ctx rank f [f] = some t) : exec (.tile port f true) s = .next t := by
  have hs : (s.received port f).senderOf f = some (ctx, rank) := (s.senderOf_received port f).trans m.sender
  show execTile port f true s = _
  rw [execTile, m.ends.onFrame m.ty, hs]
  show Host.Outcome.next (((s.received port f).holdTile ctx rank f).takeTiles ctx) = _
  rw [State.takeTiles, m.held]
  simp [State.pumpTiles, m.held, ht]

theorem State.TileFrame.layout_held (m : s.TileFrame port f ctx rank j l st) :
    ((s.received port f).holdTile ctx rank f).layoutOf ctx (f.tf 2 2 0) = some l :=
  (State.layoutOf_modJob ..).trans m.layout

/-- The frame is gone from the ingress. -/
theorem State.TileFrame.job_gone (m : s.TileFrame port f ctx rank j l st) :
    (((s.received port f).holdTile ctx rank f).tileGone ctx rank f).jobOf ctx = some j := by
  have hj : (((s.received port f).holdTile ctx rank f).oweCredits f).jobOf ctx = some { j with tilesIn := [(rank, f)] } :=
    (State.jobOf_of_ctxs rfl ctx).trans m.held
  rw [State.tileGone, State.jobOf_modJob_self, hj, Option.map_some, List.erase_cons_head, ← m.empty]

theorem State.TileFrame.only_gone (s : State) (port : Nat) (f : Frame) (ctx rank : Nat) :
    s.Only [.fab, .ctxs] (((s.received port f).holdTile ctx rank f).tileGone ctx rank f) :=
  ((((s.only_received port f).mono _ (by decide)).trans ((State.only_modJob ..).mono _ (by decide))).trans
    ((State.only_oweCredits ..).mono _ (by decide))).trans ((State.only_modJob ..).mono _ (by decide))

/-- A tile of one part for a station with its format, the deal's number, room and no binding enters it, with tag 1 (log entry 82). -/
theorem State.TileFrame.enters (m : s.TileFrame port f ctx rank j l st) (hin : st.out = false) (hfmt : f.tf 0 3 0 = st.fmt)
    (hdeal : f.tf 1 15 0 = l.published) (hpart : f.tf 3 7 0 = 0) (hparts : f.tf 3 15 8 = 1)
    (hbusy : s.stationBusy ctx (f.tf 2 2 0) (f.tf 2 12 3) = false)
    (hroom : ((tget [] l.buffers (f.tf 2 12 3)).filter (fun t => t.kind < 2)).length < st.bufTiles) :
    Answers (.tile port f true) s [.fab, .ctxs] (fun t => t.layoutOf ctx (f.tf 2 2 0) = some { l with
      buffers := tset [] l.buffers (f.tf 2 12 3) (tget [] l.buffers (f.tf 2 12 3) ++ [{
        fmt := f.tf 0 3 0, rowsM1 := f.tf 0 8 4, colsM1 := f.tf 0 13 9, kind := f.tf 0 15 14, tag := 1, data := f.payload }]) } ∧
      t.jobOf ctx = some j) := by
  have hfree : ((s.received port f).holdTile ctx rank f).stationBusy ctx (f.tf 2 2 0) (f.tf 2 12 3) = false := hbusy
  have htake : ((s.received port f).holdTile ctx rank f).takeTile ctx rank f [f] =
      some ((((s.received port f).holdTile ctx rank f).tileGone ctx rank f).modLayout ctx (f.tf 2 2 0) (fun y => { y with
        buffers := tmod [] y.buffers (f.tf 2 12 3) (fun b => b ++ [{
          fmt := f.tf 0 3 0, rowsM1 := f.tf 0 8 4, colsM1 := f.tf 0 13 9, kind := f.tf 0 15 14, tag := 1, data := f.payload }]) })) := by
    have hwhole : ¬ ([f].length < f.tf 3 15 8 ∨ ((s.received port f).holdTile ctx rank f).stationBusy ctx (f.tf 2 2 0) (f.tf 2 12 3) = true ∨
        st.bufTiles ≤ ((tget [] l.buffers (f.tf 2 12 3)).filter (fun t => t.kind < 2)).length) := by
      rw [hparts, hfree]
      simpa using hroom
    simp only [State.takeTile, tileTo, m.layout_held, m.station]
    rw [if_neg (by simp [hin, hdeal, hpart, hparts])]
    refine (if_neg hwhole).trans ?_
    simp [hparts, hfmt, State.tileGone]
  refine ⟨_, m.taken htake, (State.TileFrame.only_gone s port f ctx rank).trans ((State.only_modLayout ..).mono _ (by decide)), ?_, ?_⟩
  · rw [State.layoutOf_modLayout_self, State.layoutOf_tileGone, m.layout_held]
    rfl
  · exact (State.jobOf_modCtx_job _ _ _ rfl).trans m.job_gone

/-- A tile of another deal is discarded and counted. -/
theorem State.TileFrame.stale (m : s.TileFrame port f ctx rank j l st) (hdeal : f.tf 1 15 0 ≠ l.published) (hpart : f.tf 3 7 0 = 0) :
    Answers (.tile port f true) s [.fab, .ctxs] (fun t => (t.ctxOf ctx).stale = (s.ctxOf ctx).stale + 1 ∧ t.jobOf ctx = some j ∧
      t.layoutOf ctx (f.tf 2 2 0) = some l) := by
  have htake : ((s.received port f).holdTile ctx rank f).takeTile ctx rank f [f] =
      some ((((s.received port f).holdTile ctx rank f).tileGone ctx rank f).modCtx ctx (fun c => { c with stale := c.stale + 1 })) := by
    simp [State.takeTile, tileTo, m.layout_held, m.station, hdeal, hpart, State.tileGone, b2n]
  have hctx : ((((s.received port f).holdTile ctx rank f).tileGone ctx rank f).ctxOf ctx).stale = (s.ctxOf ctx).stale :=
    (State.stale_modJob ..).trans (State.stale_modJob (s.received port f) ctx _)
  refine ⟨_, m.taken htake, (State.TileFrame.only_gone s port f ctx rank).trans ((State.only_modCtx ..).mono _ (by decide)), ?_, ?_, ?_⟩
  · rw [State.ctxOf_modCtx_self]
    exact congrArg (· + 1) hctx
  · exact (State.jobOf_modCtx_job _ _ _ rfl).trans m.job_gone
  · rw [State.layoutOf_modCtx_layouts _ _ _ _ rfl, State.layoutOf_tileGone, m.layout_held]

end

/-! ### The obligation -/

/-- Settles O23: class 0 frames by what they acknowledge and ask, and circuit frames at their endpoint. The tag 1 of a tile that enters its
station is log entry 82. -/
theorem circuitFramesAct : Obligations.CircuitFramesAct := by
  unfold Obligations.CircuitFramesAct
  intro s port f p hp hu hc
  have hu' : (s.portOf port).usable = true := hp ▸ hu
  refine ⟨fun hty => ⟨linkAck_drops hty hu' hc, linkAck_replays hp hty hu hc⟩, fun lane hty hlane =>
    ⟨lane_granted hp hu hc hty hlane, lane_refused hp hu hc hty hlane, lane_agreed hp hu hc hty hlane, lane_rejoined hp hu hc hty hlane⟩,
    fun ctx rank j l st hends hty hsender hjob hempty hlayout hstation => ?_, credit_adds, tear_frees⟩
  have m : s.TileFrame port f ctx rank j l st := ⟨hends, hty, hsender, hjob, hempty, hlayout, hstation⟩
  exact ⟨m.enters, m.stale⟩

end Sys2Proof.Machine
end

section
/-! RESERVE, CONFIRM and REJECT: the circuit entry they make, open and free (R404, R408), and O24. -/
namespace Sys2Proof.Machine

/-! ### The frames that set up a circuit -/

/-- Whatever chip it is for, a RESERVE, CONFIRM or REJECT in order is for its row. -/
theorem State.InOrder.arrive {s : State} {port : Nat} {f : Frame} (h : s.InOrder port f) (hty : f.ty = 0x30 ∨ f.ty = 0x31 ∨ f.ty = 0x32) :
    s.arrive port f true = .deliver (s.received port f) := by
  obtain ⟨husable, hseq, hclean⟩ := h
  have hclass : frameClass f.ty ≠ some 1 := by
    rcases hty with h | h | h <;> rw [h] <;> decide
  unfold State.arrive
  extract_lets p s1 s2 c
  rw [if_neg (by simp [p, husable]), if_neg (by simp), if_neg (not_not.2 hseq), if_neg (by simp [hclean]), if_neg hclass, if_pos (.inr hty)]
  rfl

theorem State.InOrder.onFrame {s : State} {port : Nat} {f : Frame} (h : s.InOrder port f) {ty : Nat} (hty : f.ty = ty)
    (hset : ty = 0x30 ∨ ty = 0x31 ∨ ty = 0x32) (g : State → State) : s.onFrame port f true ty g = .next (g (s.received port f)) := by
  rw [State.onFrame, if_neg (not_not.2 hty), h.arrive (hty ▸ hset)]

/-- The candidates are found as before: the link layer maps no port out. -/
theorem State.cands_received (s : State) (port : Nat) (f : Frame) (x : Nat) : (s.received port f).cands x = s.cands x := by
  have hport : ∀ p, ((s.received port f).portOf p).mappedOut = (s.portOf p).mappedOut := fun p => by
    rw [State.received, State.portOf_modPort]
    split
    next e =>
      subst e
      rw [State.portOf_modPort_self]
      exact ((s.portOf p).kept_acked f.lack).mappedOut
    next e => rw [State.portOf_modPort, if_neg e]
  simp only [State.cands, hport]
  rfl

/-- An entry that is no tree is the head of its own chain. -/
theorem State.treeHead_single {s : State} {k : Nat} (h : (s.circOf k).kind ≠ 2) : s.treeHead k = k := by
  rw [State.treeHead, State.treeOf_single h, List.find?_singleton]
  split <;> rfl

theorem State.chainTo_nil (s : State) (k : Nat) : s.chainTo [] k = s := rfl

theorem State.circOf_sendOn (s : State) (port : Nat) (f : Frame) (j : Nat) : (s.sendOn port f).circOf j = s.circOf j := rfl

/-! ### RESERVE -/

/-- The endpoint entry a RESERVE makes at its target. -/
def State.reservedEntry (s : State) (ctx port : Nat) (f : Frame) : Circuit :=
  { state := 2, kind := f.tf 1 1 0, part := (s.ctxOf ctx).part, ctx := ctx, jobId := w32 (f.t 0), aPort := port,
    aCircuit := f.tf 1 13 2 % 4096, aChip := f.src, bLocal := true, limit := f.tf 2 10 0, avail := f.tf 2 10 0 }

theorem State.acceptReserve_single {s : State} {ctx port k : Nat} {f : Frame} (hfree : s.freeCircuit = some k) (hkind : f.tf 1 1 0 ≠ 2) :
    s.acceptReserve ctx port f = ((s.modCirc k (fun _ => s.reservedEntry ctx port f)).modCirc k (fun x => { x with
      transit := false, part := (s.ctxOf ctx).part, ctx := ctx })).sendOn port (s.frame 0x31 f.src [w32 k] []) := by
  have hhead : (s.modCirc k (fun _ => s.reservedEntry ctx port f)).treeHead k = k :=
    State.treeHead_single (by rw [State.circOf_modCirc_self]; exact hkind)
  simp only [State.reservedEntry] at hhead
  unfold State.acceptReserve
  simp only [hfree, if_neg hkind, State.chainTo_nil, hhead]
  rfl

theorem reserve_accepted {s : State} {port : Nat} {f : Frame} (h : s.InOrder port f) {ctx k : Nat} (hty : f.ty = 0x30)
    (hdst : f.dst = s.fab.chip) (hopen : s.opening (f.t 0) = some ctx) (hfree : s.freeCircuit = some k) (hkind : f.tf 1 1 0 ≠ 2) :
    Answers (.reserve port f true) s [.fab] (fun t => t.circOf k = {
        state := 2, kind := f.tf 1 1 0, part := (s.ctxOf ctx).part,
        ctx := ctx, jobId := w32 (f.t 0), aPort := port, aCircuit := f.tf 1 13 2 % 4096, aChip := f.src, bLocal := true,
        limit := f.tf 2 10 0, avail := f.tf 2 10 0 } ∧
      (t.portOf port) = ((s.received port f).portOf port).send (s.frame 0x31 f.src [w32 k] []) ∧
      ∀ j, j ≠ k → t.circOf j = s.circOf j) := by
  have hdst' : f.dst = (s.received port f).fab.chip := hdst
  have hopen' : (s.received port f).opening (f.t 0) = some ctx := hopen
  have hfree' : (s.received port f).freeCircuit = some k := hfree
  have he : exec (.reserve port f true) s = .next ((s.received port f).acceptReserve ctx port f) := by
    show execReserve port f true s = _
    rw [execReserve, h.onFrame hty (.inl rfl), if_pos hdst', hopen']
  rw [State.acceptReserve_single hfree' hkind] at he
  refine ⟨_, he, (((s.only_received port f).trans (State.only_modCirc ..)).trans (State.only_modCirc ..)).trans (State.only_sendOn ..),
    ?_, ?_, fun j hj => ?_⟩
  · rw [State.circOf_sendOn, State.circOf_modCirc_self, State.circOf_modCirc_self]
    rfl
  · rw [State.sendOn, State.portOf_modPort_self]
    rfl
  · rw [State.circOf_sendOn, State.circOf_modCirc, if_neg hj, State.circOf_modCirc, if_neg hj, s.circOf_received port f j]

theorem reserve_waits {s : State} {port : Nat} {f : Frame} (h : s.InOrder port f) (hty : f.ty = 0x30) (hdst : f.dst = s.fab.chip)
    (hopen : s.opening (f.t 0) = none) :
    Answers (.reserve port f true) s [.fab] (fun t => t.fab = { (s.received port f).fab with
      waiting := s.fab.waiting ++ [(port, f)] }) := by
  have hdst' : f.dst = (s.received port f).fab.chip := hdst
  have hopen' : (s.received port f).opening (f.t 0) = none := hopen
  have he : exec (.reserve port f true) s = .next { s.received port f with fab := { (s.received port f).fab with
      waiting := (s.received port f).fab.waiting ++ [(port, f)] } } := by
    show execReserve port f true s = _
    rw [execReserve, h.onFrame hty (.inl rfl), if_pos hdst', hopen']
  exact ⟨_, he, (s.only_received port f).trans (State.only_set_fab ..), rfl⟩

/-- The transit entry a RESERVE makes on its way. -/
def transitEntry (port out : Nat) (f : Frame) : Circuit :=
  { state := 1, kind := f.tf 1 1 0, transit := true, jobId := w32 (f.t 0), aPort := port, aCircuit := f.tf 1 13 2 % 4096,
    aChip := f.src, bPort := out, bChip := if f.tf 1 1 0 = 2 then 0 else f.dst }

theorem State.transitReserve_single {s : State} {port out k : Nat} {rest : List Nat} {f : Frame} (hcands : s.cands f.dst = out :: rest)
    (hfree : s.freeCircuit = some k) (hkind : f.tf 1 1 0 ≠ 2) :
    s.transitReserve port f = (s.modCirc k (fun _ => transitEntry port out f)).passReserve out { f with ttl := f.ttl - 1 } k := by
  unfold State.transitReserve
  simp only [hcands, hfree, List.head?_cons, if_neg hkind, List.find?_nil, State.chainTo_nil, transitEntry]

theorem reserve_passes {s : State} {port : Nat} {f : Frame} (h : s.InOrder port f) {out k : Nat} {rest : List Nat} (hty : f.ty = 0x30)
    (hdst : f.dst ≠ s.fab.chip) (httl : 1 < f.ttl) (hcands : s.cands f.dst = out :: rest) (hfree : s.freeCircuit = some k)
    (hkind : f.tf 1 1 0 ≠ 2) :
    Answers (.reserve port f true) s [.fab] (fun t => (t.circOf k).state = 1 ∧ (t.circOf k).transit = true ∧
      (t.circOf k).aPort = port ∧ (t.circOf k).bPort = out ∧ (∀ j, j ≠ k → t.circOf j = s.circOf j) ∧
      ∃ r, t.fab.resv = s.fab.resv ++ [r] ∧ r.port = out ∧ r.initiator = f.src ∧ r.target = f.dst ∧ r.entry = some k) := by
  have hdst' : ¬ f.dst = (s.received port f).fab.chip := hdst
  have hfree' : (s.received port f).freeCircuit = some k := hfree
  have he : exec (.reserve port f true) s = .next ((s.received port f).transitReserve port f) := by
    show execReserve port f true s = _
    rw [execReserve, h.onFrame hty (.inl rfl), if_neg hdst', if_neg (by omega)]
  rw [State.transitReserve_single ((s.cands_received port f f.dst).trans hcands) hfree' hkind] at he
  have hentry : ∀ t : State, t.circOf k = transitEntry port out f → (t.circOf k).state = 1 ∧ (t.circOf k).transit = true ∧
      (t.circOf k).aPort = port ∧ (t.circOf k).bPort = out := fun t ht => by
    rw [ht]
    exact ⟨rfl, rfl, rfl, rfl⟩
  have hpassed : ∀ (u : State) g, u.Only [.fab] (u.passReserve out g k) ∧ (∀ j, (u.passReserve out g k).circOf j = u.circOf j) ∧
      (u.passReserve out g k).fab.resv = u.fab.resv ++ [{ port := out, initiator := g.src, target := g.dst, entry := some k }] := fun u g =>
    ⟨(u.only_set_fab _).trans (State.only_sendOn ..), fun _ => rfl, rfl⟩
  obtain ⟨honly, hcirc, hresv⟩ := hpassed ((s.received port f).modCirc k (fun _ => transitEntry port out f)) { f with ttl := f.ttl - 1 }
  obtain ⟨hstate, htransit, ha, hb⟩ := hentry _ ((hcirc k).trans (State.circOf_modCirc_self ..))
  refine ⟨_, he, ((s.only_received port f).trans (State.only_modCirc ..)).trans honly, hstate, htransit, ha, hb, fun j hj => ?_,
    _, hresv, rfl, rfl, rfl, rfl⟩
  rw [hcirc, State.circOf_modCirc, if_neg hj, s.circOf_received port f j]

/-! ### CONFIRM -/

theorem State.only_dropResv (s : State) (r : Resv) : s.Only [.fab] (s.dropResv r) := s.only_set_fab _

/-- A frame that goes on, ends here, or stays: of the fabric only a port may differ. -/
structure State.PortOnly (s t : State) : Prop where
  only : s.Only [.fab] t
  circ : ∀ j, t.circOf j = s.circOf j
  resv : t.fab.resv = s.fab.resv

theorem State.portOnly_modPort (s : State) (port : Nat) (g : Port → Port) : s.PortOnly (s.modPort port g) :=
  ⟨s.only_modPort port g, fun _ => rfl, rfl⟩

theorem State.PortOnly.ite {c : Prop} [Decidable c] {s t u : State} (ht : s.PortOnly t) (hu : s.PortOnly u) :
    s.PortOnly (if c then t else u) := by
  split
  · exact ht
  · exact hu

theorem State.portOnly_refl (s : State) : s.PortOnly s := ⟨State.Only.refl _ s, fun _ => rfl, rfl⟩

theorem confirm_opens {s : State} {port : Nat} {f : Frame} (h : s.InOrder port f) {r : Resv} {k : Nat} (hty : f.ty = 0x31)
    (hfind : s.fab.resv.find? (fun r => r.port = port && r.initiator = f.dst && r.target = f.src) = some r) (hk : r.entry = some k) :
    Answers (.confirm port f true) s [.fab] (fun t => t.circOf k = { s.circOf k with state := 2, bCircuit := f.tf 0 11 0 } ∧
      t.fab.resv = s.fab.resv.erase r ∧ ∀ j, j ≠ k → t.circOf j = s.circOf j) := by
  set u := ((s.received port f).dropResv r).modCirc k (fun x => { x with state := 2, bCircuit := f.tf 0 11 0 }) with hu
  have hfind' : (s.received port f).fab.resv.find? (fun r => r.port = port && r.initiator = f.dst && r.target = f.src) = some r := hfind
  obtain ⟨t, he, ht⟩ : ∃ t, exec (.confirm port f true) s = .next t ∧ u.PortOnly t := by
    refine ⟨_, ?_, State.PortOnly.ite (c := ((s.received port f).circOf k).aLocal = true) u.portOnly_refl
      (State.PortOnly.ite (c := f.ttl ≤ 1) (u.portOnly_modPort port (fun p => { p with discarded := satAdd 8 p.discarded 1 }))
        (u.portOnly_modPort ((s.received port f).circOf k).aPort
          (fun p => p.send { f with ttl := f.ttl - 1, tw := [w32 (u.treeHead k)] })))⟩
    show execConfirm port f true s = _
    rw [execConfirm, h.onFrame hty (.inr (.inl rfl))]
    simp only [hfind', hk]
    rfl
  have hdrop : ∀ j, ((s.received port f).dropResv r).circOf j = s.circOf j := s.circOf_received port f
  have hcirc : ∀ j, u.circOf j = if j = k then { s.circOf k with state := 2, bCircuit := f.tf 0 11 0 } else s.circOf j := fun j => by
    rw [hu, State.circOf_modCirc, hdrop, hdrop]
  have hresv : u.fab.resv = s.fab.resv.erase r := rfl
  have honly : s.Only [.fab] u := ((s.only_received port f).trans (State.only_dropResv ..)).trans (State.only_modCirc ..)
  refine ⟨t, he, honly.trans ht.only, ?_, ht.resv.trans hresv, fun j hj => ?_⟩
  · rw [ht.circ, hcirc, if_pos rfl]
  · rw [ht.circ, hcirc, if_neg hj]

/-! ### REJECT -/

theorem reject_frees {s : State} {port : Nat} {f : Frame} (h : s.InOrder port f) {r : Resv} {k : Nat} (hty : f.ty = 0x32)
    (hfind : (s.fab.resv.filter (fun r => r.port = port && r.initiator = f.dst)).find? (fun r => r.target = f.tf 0 13 0) = some r)
    (hk : r.entry = some k) (hlocal : (s.circOf k).aLocal = false) (hstate : (s.circOf k).state = 1) (hkind : (s.circOf k).kind ≠ 2)
    (hunused : ∀ x ∈ s.fab.resv.erase r, x.entry ≠ some k) :
    Answers (.reject port f true) s [.fab] (fun t => (t.circOf k).state = 0 ∧ t.fab.resv = s.fab.resv.erase r ∧
      ∀ j, j ≠ k → t.circOf j = s.circOf j) := by
  set v := (s.received port f).dropResv r with hv
  have hfind' : ((s.received port f).fab.resv.filter (fun r => r.port = port && r.initiator = f.dst)).find?
      (fun r => r.target = f.tf 0 13 0) = some r := hfind
  have hcircv : ∀ j, (s.received port f).circOf j = s.circOf j := s.circOf_received port f
  have htree : v.treeOf k = [k] := State.treeOf_single hkind
  have hany : v.fab.resv.any (fun x => x.entry = some k) = false :=
    List.any_eq_false.2 (fun x hx => by simpa using hunused x hx)
  set u := v.modCirc k (fun _ => {}) with hu
  obtain ⟨t, he, ht⟩ : ∃ t, exec (.reject port f true) s = .next t ∧ u.PortOnly t := by
    refine ⟨_, ?_, State.PortOnly.ite (c := f.ttl ≤ 1) (u.portOnly_modPort port (fun p => { p with discarded := satAdd 8 p.discarded 1 }))
        (u.portOnly_modPort (s.circOf k).aPort (fun p => p.send { f with ttl := f.ttl - 1 }))⟩
    show execReject port f true s = _
    rw [execReject, h.onFrame hty (.inr (.inr rfl))]
    simp only [hfind', hk, hcircv, hlocal, hstate, ← hv, htree, hany, Bool.false_eq_true, if_false, decide_true, Bool.and_self,
      Bool.not_false, if_true, ← hu]
    rfl
  have hcirc : ∀ j, u.circOf j = if j = k then {} else s.circOf j := fun j => State.circOf_modCirc ..
  have hresv : u.fab.resv = s.fab.resv.erase r := rfl
  have honly : s.Only [.fab] u := ((s.only_received port f).trans (State.only_dropResv ..)).trans (State.only_modCirc ..)
  refine ⟨t, he, honly.trans ht.only, ?_, ht.resv.trans hresv, fun j hj => ?_⟩
  · rw [ht.circ, hcirc, if_pos rfl]
  · rw [ht.circ, hcirc, if_neg hj]

/-! ### The obligation -/

/-- Settles O24. The entry that a CONFIRM or REJECT concerns is that of the first reservation noted for its port, initiator and target: log
entry 23, for Table 13.3 carries no index of it. -/
theorem circuitsAreSetUp : Obligations.CircuitsAreSetUp := by
  unfold Obligations.CircuitsAreSetUp
  intro s port f h
  exact ⟨fun _ _ => reserve_accepted h, reserve_waits h, fun _ _ _ => reserve_passes h, fun _ _ => confirm_opens h,
    fun _ _ => reject_frees h⟩

end Sys2Proof.Machine
end

section
/-! ADAPTER_DETACH writes its adapter's extents through shadows (R265, R380). Where a command has two shadows of one block, a write to the
block makes both alike (`State.writePiece`), so that the shadows of a tier become more without a frame being taken: the quota that had room
for one more (R274, R275) then has none. -/
namespace Sys2Proof.Machine

/-- An adapter that covers 64 bytes in each of the blocks 0 and 1. -/
def twoBlockAdapter : Adapter := ⟨false, 7, 0, 0, [(0, 64), (blockBytes, 64)]⟩

/-- The packet of an ADAPTER_DETACH of adapter 7 in context 0. -/
def detachPacket : List Word := [0x66, 0, 7, 0]

/-- That command at work, with two shadows of block 0: the first in a bulk frame, the second in a near one. -/
def doublyShadowed : Cmd :=
  { words := detachPacket, eff := detachPacket, phase := .running, order := 1,
    shadows := [(0, { frame := 0x4000000, tier := 1 }), (0, { frame := 2 })] }

/-- It runs alone on queue 0 of function 0. Partition 0 may have 100 frames of each tier and maps blocks 0 and 1 of context 0, which lie in near
frames; the context may have two bulk frames, and no near one for a shadow. -/
def doublyShadowedState : State :=
  { State.reset with
    cp := { fns := [(0, { queues := [(0, { state := .running, window := [doublyShadowed], sqSizeM1 := 7, cqSizeM1 := 7 })] })], starts := 1 }
    parts := { recs := [(0, { record := [1, 0, 0, 0, 0, 0, 0x1000001, 0x1000000, 0xC000000, 0x4000000, 100, 100, 100, 0, 0x3F010101, 64] })] }
    tiers := { bm := [(0, { state := 1, block := 0, loc := 0 }), (1, { state := 1, block := 1, loc := 4 })],
               frames := [(0, .used), (1, .used), (2, .used), (0x4000000, .used)],
               nearBytes := [(0, 0x80400000)], bulkBytes := [(0, 0x400000)] }
    ctxs := [(0, { live := true, quota := [(0, some 0), (1, some 2)], adapters := [twoBlockAdapter] })] }

/-- The status of the command 0 of queue 0 of function 0 after a row. -/
def statusAfter (o : Out) : Option Nat :=
  match o with
  | .next t => (t.cmdOf 0 0 0).map (fun c => c.status)
  | _ => none

/-- Block 0 is shadowed, and for block 1 one more bulk frame is within the quota. -/
theorem doublyShadowed_writeRoom : doublyShadowedState.WriteRoom doublyShadowed twoBlockAdapter.extents := by
  have hblocks : ∀ r ∈ twoBlockAdapter.extents, ∀ p ∈ pieces r.1 r.2, p.1 = 1 ∨ p.1 = 0 := by decide +kernel
  refine ⟨1, fun r hr p hp => (hblocks r hr p hp).imp_right fun h0 => ?_, .inr ⟨by decide +kernel, 4, by decide, by decide +kernel⟩⟩
  rw [h0]
  exact ⟨{ frame := 0x4000000, tier := 1 }, rfl⟩

/-- The row writes block 0, finds no room for a shadow of block 1 and ends the command. -/
theorem doublyShadowed_refused : statusAfter (exec (.adapterDetach 0 0 0) doublyShadowedState) = some St.quotaExceeded := by
  decide +kernel

/-- Refutes O13: its clause about ADAPTER_DETACH takes every state, also one in which the command has two shadows of one block, a bulk and
a near one. Writing that block makes both bulk ones (`State.writePiece` replaces each shadow of the block), the quota of two bulk frames is
full, and the command ends with QUOTA_EXCEEDED where the clause has it finish. R265 gives a block one shadow; no hypothesis of the statement
says so. -/
theorem not_weightCommandsAct : ¬ Obligations.WeightCommandsAct := by
  unfold Obligations.WeightCommandsAct
  intro h
  obtain ⟨-, -, hdetach, -⟩ := h doublyShadowedState 0 0 0 doublyShadowed {} [] 0
  obtain ⟨t, he, -, ⟨c, hc, -, hstatus, -⟩, -⟩ := hdetach twoBlockAdapter ⟨rfl, rfl, by decide⟩ (by decide +kernel) (by decide +kernel)
    doublyShadowed_writeRoom
  have hrefused := doublyShadowed_refused
  rw [he] at hrefused
  have hok : statusAfter (.next t) = some St.ok := by simp only [statusAfter, hc, Option.map_some, hstatus]
  exact absurd (hok.symm.trans hrefused) (by decide)

end Sys2Proof.Machine
end

section
/-! The commands that report a result and act at their atomic step (R73): each makes its checks, none of them fails, and the row notes the
command's work and finishes it with its result. -/
namespace Sys2Proof.Machine

/-- A row whose checks pass and whose work is to note what the commit will do and finish with OK. -/
theorem State.Runs.finishes_noting {i : Instr} {s : State} {f q n op a b : Nat} {used : List (Nat × Nat)} {c : Cmd} {g : Cmd → State}
    (h : s.Runs f q n op used c) (w : Work) (cs : List Check) (he : exec i s = s.work f q n op g)
    (hg : g c = s.checked f q n c (reservedCheck c.eff used ++ cs) ((s.setWork f q n w).done f q n a b))
    (hcs : ∀ k ∈ cs, k.bad = false) : Finishes i s f q n St.ok a b :=
  finishes_work h w a b (he.trans (h.work_checked cs hg hcs))

/-- A row that carries the errors its reads met, and met none, goes on to its work where its checks pass. -/
theorem State.Runs.read_checked {i : Instr} {s : State} {f q n op : Nat} {used : List (Nat × Nat)} {c : Cmd} {g : State → Cmd → State}
    {t : State} (h : s.Runs f q n op used c) (row : Out) (cs : List Check) (hrow : exec i s = row)
    (he : row = s.withErrs f q n op [] (fun u => u.work f q n op (g u)))
    (hg : g s c = s.checked f q n c (reservedCheck c.eff used ++ cs) t) (hcs : ∀ k ∈ cs, k.bad = false) : exec i s = .next t := by
  rw [hrow, he, State.withErrs_nil h.started]
  exact h.work_checked cs hg hcs

theorem planSubmit_finishes {s : State} {f q n : Nat} {c : Cmd} {plan : List Word}
    (h : s.Runs f q n 0x03 [(2, 0xFFFFFFFF), (3, 0xFFFFFFFF), (4, 1)] c) (halign : wnat c.eff 2 % 64 = 0) (hlen : plan.length = 1040)
    (hgood : planFault plan = none) : Finishes (.planSubmit f q n plan) s f q n St.ok (wnat plan 1) 0 :=
  h.finishes_noting (.plan plan) [param (wnat c.eff 2 % 64 = 0) 2] rfl
    (by simp only [hlen, hgood, ne_eq, not_true_eq_false, if_false]) (by simpa using halign)

/-- The number a CONTEXT_CREATE chooses is of its partition, and neither live nor chosen. -/
theorem State.freeCtx_range {s : State} {p k : Nat} (h : s.freeCtx p = some k) :
    s.ctxBase p ≤ k ∧ k < s.ctxBase p + s.ctxCount p ∧ s.ctxLive k = false ∧ k ∉ s.chosenCtxs := by
  have hmem := List.mem_of_find?_eq_some h
  have hfree := List.find?_some h
  obtain ⟨i, hi, rfl⟩ := List.mem_map.1 hmem
  have hlt := List.mem_range.1 hi
  simp only [Bool.and_eq_true, Bool.not_eq_true', List.contains_eq_mem, decide_eq_false_iff_not] at hfree
  exact ⟨by omega, by omega, hfree.1, hfree.2⟩

theorem contextCreate_finishes {s : State} {f q n k : Nat} {c : Cmd} (h : s.Runs f q n 0x10 [(2, 0x1F), (3, 0xFFFF)] c)
    (hprec : precisionOk (word c.eff 2) = true) (hfree : s.freeCtx f = some k) :
    Finishes (.contextCreate f q n) s f q n St.ok k 0 :=
  h.finishes_noting (.ctx k) [param (precisionOk (word c.eff 2)) 2] rfl (by simp only [hfree]) (by simpa using hprec)

/-- The checks of a block range pass for a range of whole blocks within the context and outside its KV pool (R291). -/
theorem State.blockChecks_good {s : State} {ctx : Nat} {ws : List Word}
    (hpool : s.inPool ctx (bwFirst ws * blockBytes) (bwCount ws * blockBytes) = false) (halign : addr48 ws 2 % blockBytes = 0)
    (hlow : 1 ≤ bwCount ws) (hhigh : bwCount ws ≤ 65536) (hend : bwFirst ws + bwCount ws ≤ 2 ^ 30) :
    ∀ k ∈ s.notPool ctx ws :: blockChecks ws, k.bad = false := by
  simp only [List.forall_mem_cons, State.notPool, blockChecks, param_bad, hpool, halign, hlow, hhigh, hend]
  simp

theorem blockUnmap_finishes {s : State} {f q n : Nat} {c : Cmd} (h : s.Runs f q n 0x21 [(2, 0xFFFFFFFF), (3, 0xFFFF), (4, 0x1FFFF)] c)
    (hpool : s.inPool c.ctx (bwFirst c.eff * blockBytes) (bwCount c.eff * blockBytes) = false)
    (halign : addr48 c.eff 2 % blockBytes = 0) (hlow : 1 ≤ bwCount c.eff) (hhigh : bwCount c.eff ≤ 65536)
    (hend : bwFirst c.eff + bwCount c.eff ≤ 2 ^ 30) :
    Finishes (.blockUnmap f q n) s f q n St.ok
      ((rangeBlocks (bwFirst c.eff) (bwCount c.eff)).filter (fun b => s.isMapped c.ctx b)).length 0 :=
  h.finishes_noting (.mapping (bwFirst c.eff) (bwCount c.eff)) (s.notPool c.ctx c.eff :: blockChecks c.eff) rfl rfl
    (State.blockChecks_good hpool halign hlow hhigh hend)

theorem tierHint_finishes {s : State} {f q n : Nat} {c : Cmd}
    (h : s.Runs f q n 0x24 [(2, 0xFFFFFFFF), (3, 0xFFFF), (4, 0x1FFFF), (5, 0xF)] c)
    (hpool : s.inPool c.ctx (bwFirst c.eff * blockBytes) (bwCount c.eff * blockBytes) = false)
    (halign : addr48 c.eff 2 % blockBytes = 0) (hlow : 1 ≤ bwCount c.eff) (hhigh : bwCount c.eff ≤ 65536)
    (hend : bwFirst c.eff + bwCount c.eff ≤ 2 ^ 30) (hmode : fld (word c.eff 5) 1 0 ≠ 3) (hhint : fld (word c.eff 5) 3 2 ≠ 3)
    (hready : s.access c.ctx 2 (bwFirst c.eff * blockBytes) (bwCount c.eff * blockBytes) false = .ready) :
    Finishes (.tierHint f q n) s f q n St.ok (bwCount c.eff) 0 := by
  refine h.finishes_noting (.hints (bwFirst c.eff) (bwCount c.eff) (fld (word c.eff 5) 1 0) (fld (word c.eff 5) 3 2))
    (resv (fld (word c.eff 5) 1 0 ≠ 3 && fld (word c.eff 5) 3 2 ≠ 3) 5 :: s.notPool c.ctx c.eff :: blockChecks c.eff) rfl ?_ ?_
  · dsimp only
    rw [State.withRange_ready _ _ _ _ _ _ _ _ _ _ hready, List.append_assoc]
    rfl
  · exact List.forall_mem_cons.2 ⟨by simp [hmode, hhint], State.blockChecks_good hpool halign hlow hhigh hend⟩

theorem quotaSet_finishes {s : State} {f q n : Nat} {c : Cmd} (h : s.Runs f q n 0x25 [(2, 3), (3, 0xFFFFFFFF)] c)
    (htier : fld (word c.eff 2) 1 0 ≠ 3) (hceil : wnat c.eff 3 ≤ s.ceilOf (s.ctxOf c.ctx).part (fld (word c.eff 2) 1 0)) :
    Finishes (.quotaSet f q n) s f q n St.ok (s.quotaOf c.ctx (fld (word c.eff 2) 1 0))
      (s.usageOf c.ctx (fld (word c.eff 2) 1 0)) :=
  h.finishes_noting (.quota (fld (word c.eff 2) 1 0) (wnat c.eff 3))
    [resv (fld (word c.eff 2) 1 0 ≠ 3) 2, param (decide (wnat c.eff 3 ≤ s.ceilOf (s.ctxOf c.ctx).part (fld (word c.eff 2) 1 0))) 3]
    rfl rfl (by simpa [htier] using hceil)

theorem weightDelete_finishes {s : State} {f q n : Nat} {c : Cmd} {o : Obj}
    (h : s.Runs f q n 0x64 [(2, 0xFFFFFFFF), (3, 0x80000000)] c) (hshared : bit (word c.eff 3) 31 = true → f = 0)
    (ho : s.objOf (objKey f (weightName c.eff 31)) = some o) (hpresent : o.present = true) :
    Finishes (.weightDelete f q n) s f q n St.ok o.slots.length 0 := by
  refine finishes_done h _ _ (h.work_checked [need (!bit (word c.eff 3) 31 || decide (f = 0)) St.pfOnly 0 0,
    param ((s.objOf (objKey f (weightName c.eff 31))).any (fun x => x.present)) 2] (by simp only [ho, Option.map_some, Option.getD_some]) ?_)
  have hpf : (!bit (word c.eff 3) 31 || decide (f = 0)) = true := by simpa [← Bool.not_eq_true, or_iff_not_imp_left] using hshared
  simp [hpf, ho, hpresent, -Bool.or_eq_true]

theorem linkRestore_up_finishes {s : State} {f q n lanes chip port : Nat} {c : Cmd} (h : s.Runs f q n 0x72 [(2, 0x1F)] c)
    (hup : (s.portOf (fld (word c.eff 2) 4 0)).usable = true) :
    Finishes (.linkRestore f q n lanes chip port) s f q n St.ok (s.portOf (fld (word c.eff 2) 4 0)).lanesUp 0 :=
  finishes_done h _ _ (h.work_reserved (by simp only [hup, if_true]))

/-- Counting reads leaves the command interface alone. -/
theorem State.countReads_cp (s : State) (region ctx : Nat) (rs : List (Nat × Nat)) : (s.countReads region ctx rs).cp = s.cp := by
  simpa using (State.only_countReads s region ctx rs).cp

/-- How a command ended is a matter of the command interface alone. -/
theorem State.Ended.of_cp {t u : State} {f q n st a b : Nat} (h : t.Ended f q n st a b) (hcp : u.cp = t.cp) : u.Ended f q n st a b := by
  obtain ⟨c, hc, hend⟩ := h
  exact ⟨c, (State.cmdOf_cp u t f q n hcp).trans hc, hend⟩

theorem State.OnlyCmd.of_cp {s t u : State} {f q n : Nat} (h : s.OnlyCmd f q n t) (hcp : u.cp = t.cp) : s.OnlyCmd f q n u := by
  obtain ⟨g, hg, ht⟩ := h
  exact ⟨g, hg, hcp.trans ht⟩

theorem prefixLookup_finishes {s : State} {f q n : Nat} {c : Cmd}
    (h : s.Runs f q n 0x50 [(2, 0xFFF), (3, 0xFFFFFFFF), (4, 0xFFFF), (5, 0xFFFFFFFF), (6, 0x1FFFF)] c)
    (hgeom : (s.ctxOf c.ctx).geom.isSome = true)
    (hsess : s.sessOk c.ctx (sessionOf c.eff) = true → (s.sessOf (sessionOf c.eff)).state ≠ 5) (halign : wnat c.eff 3 % 4 = 0)
    (hlow : 64 ≤ wnat c.eff 5) (hhigh : wnat c.eff 5 ≤ 2 ^ 24)
    (hready : s.access c.ctx 3 (addr48 c.eff 3) (4 * wnat c.eff 5) true = .ready) :
    Answers (.prefixLookup f q n []) s [.cp, .tiers] (fun t =>
      t.Ended f q n St.ok (s.matchPrefix c.ctx
        ((toWords (s.readCtx c.ctx (addr48 c.eff 3) (4 * wnat c.eff 5))).map (fun w => w.toNat))).length 0 ∧
      s.OnlyCmd f q n t ∧ s.OnlyCounts t) := by
  set keys := s.matchPrefix c.ctx ((toWords (s.readCtx c.ctx (addr48 c.eff 3) (4 * wnat c.eff 5))).map (fun w => w.toNat)) with hkeys
  set w : Work := .lookup (sessionOf c.eff) keys (attachCount c.eff keys.length) with hw
  have he : exec (.prefixLookup f q n []) s = .next (((s.setWork f q n w).done f q n keys.length 0).countReads 0 c.ctx
      [(addr48 c.eff 3, 4 * wnat c.eff 5)]) := by
    refine h.read_checked (execPrefixLookup f q n [] s) [param (s.ctxOf c.ctx).geom.isSome 2,
      s.cancelling c.ctx (sessionOf c.eff), param (wnat c.eff 3 % 4 = 0) 3,
      param (decide (64 ≤ wnat c.eff 5) && decide (wnat c.eff 5 ≤ 2 ^ 24)) 5] rfl rfl ?_ ?_
    · dsimp only
      rw [State.withRange_ready _ _ _ _ _ _ _ _ _ _ hready]
      rfl
    · simp only [List.forall_mem_cons, param_bad, hgeom, State.cancelling_good hsess, halign, hlow, hhigh]
      simp
  have hcp := State.countReads_cp ((s.setWork f q n w).done f q n keys.length 0) 0 c.ctx [(addr48 c.eff 3, 4 * wnat c.eff 5)]
  have hcmd : s.OnlyCmd f q n ((s.setWork f q n w).done f q n keys.length 0) :=
    ⟨fun c => ({ c with work := w, begun := true } : Cmd).finish ⟨St.ok, keys.length, 0⟩, fun _ => ⟨rfl, rfl⟩,
      congrArg State.cp (State.modCmd_modCmd s f q n _ _ (fun _ => rfl))⟩
  have hended : ((s.setWork f q n w).done f q n keys.length 0).Ended f q n St.ok keys.length 0 :=
    h.ended_of _ { c with work := w, begun := true } (by rw [State.cmdOf_setWork, h.cmd]; rfl) rfl rfl _ _
  refine ⟨_, he, ?_, hended.of_cp hcp, hcmd.of_cp hcp, ?_⟩
  · exact (((State.only_modCmd s f q n _).trans (State.only_modCmd _ f q n _)).mono _ (by decide)).trans
      ((State.only_countReads _ _ _ _).mono _ (by decide))
  · exact State.onlyCounts_countReads ((s.setWork f q n w).done f q n keys.length 0) 0 c.ctx _

/-- Settles O2, command by command. That TIER_HINT finishes with the whole count is the model's choice (log entry 116). -/
theorem resultCommandsFinish : Obligations.ResultCommandsFinish := by
  unfold Obligations.ResultCommandsFinish
  intro s f q n c
  exact ⟨fun _ => planSubmit_finishes, fun _ h hp hk => ⟨contextCreate_finishes h hp hk, State.freeCtx_range hk⟩, blockUnmap_finishes,
    tierHint_finishes, quotaSet_finishes, fun _ => weightDelete_finishes, prefixLookup_finishes,
    fun _ _ _ h hstate hmap => linkRestore_up_finishes h (by simp [Port.usable, hstate, hmap])⟩

end Sys2Proof.Machine
end

section
/-! FILL over two blocks (R265): the state of `doublyShadowedState` again, in which the command has two shadows of block 0, so that writing that
block takes the bulk frame that the quota still had for a shadow of block 1 (R274, R275). -/
namespace Sys2Proof.Machine

/-- The packet of a FILL, in context 0, of the last 64 bytes of block 0 and the first 64 bytes of block 1. -/
def fillPacket : List Word := [0x23, 0, 0x3FFC0, 0, 128, 0xA5A5A5A5]

/-- That command at work, with the two shadows of block 0 that `doublyShadowed` has. -/
def doublyShadowedFill : Cmd := { doublyShadowed with words := fillPacket, eff := fillPacket }

/-- The state of `doublyShadowedState` with this command in the place of its own. -/
def doublyShadowedFillState : State :=
  { doublyShadowedState with
    cp := { fns := [(0, { queues := [(0, { state := .running, window := [doublyShadowedFill], sqSizeM1 := 7, cqSizeM1 := 7 })] })], starts := 1 } }

theorem doublyShadowedFill_dstReady : doublyShadowedFillState.DstReady 0 2 0x3FFC0 128 :=
  ⟨by decide +kernel, by decide +kernel, by decide +kernel, by decide +kernel⟩

/-- Block 0 is shadowed, and for block 1 one more bulk frame is within the quota. -/
theorem doublyShadowedFill_writeRoom : doublyShadowedFillState.WriteRoom doublyShadowedFill [(0x3FFC0, 128)] := by
  have hblocks : ∀ r ∈ [(0x3FFC0, 128)], ∀ p ∈ pieces r.1 r.2, p.1 = 1 ∨ p.1 = 0 := by decide +kernel
  refine ⟨1, fun r hr p hp => (hblocks r hr p hp).imp_right fun h0 => ?_, .inr ⟨by decide +kernel, 4, by decide, by decide +kernel⟩⟩
  rw [h0]
  exact ⟨{ frame := 0x4000000, tier := 1 }, rfl⟩

/-- The row writes block 0, finds no room for a shadow of block 1 and ends the command. -/
theorem doublyShadowedFill_refused : statusAfter (exec (.fill 0 0 0 []) doublyShadowedFillState) = some St.quotaExceeded := by
  decide +kernel

/-- Refutes O4: its clause about FILL takes every state, also one in which the command has two shadows of one block, a bulk and a near one.
Writing that block makes both bulk ones (`State.writePiece` replaces each shadow of the block), the quota of two bulk frames is full, and the
command ends with QUOTA_EXCEEDED where the clause has it finish. R265 gives a block one shadow; no hypothesis of the statement says so. -/
theorem not_dataCommandsFinish : ¬ Obligations.DataCommandsFinish := by
  unfold Obligations.DataCommandsFinish
  intro h
  obtain ⟨-, hfill, -⟩ := h doublyShadowedFillState 0 0 0 doublyShadowedFill
  obtain ⟨t, he, -, ⟨c, hc, -, hstatus, -⟩, -⟩ := hfill ⟨rfl, rfl, by decide⟩ (by decide +kernel) doublyShadowedFill_dstReady
    doublyShadowedFill_writeRoom
  have hrefused := doublyShadowedFill_refused
  rw [he] at hrefused
  have hok : statusAfter (.next t) = some St.ok := by simp only [statusAfter, hc, Option.map_some, hstatus]
  exact absurd (hok.symm.trans hrefused) (by decide)

end Sys2Proof.Machine
end

section
/-! A write within one block that the command has shadowed already (R265, R266): the bytes land in the shadow's frame, the shadow holds their
units, and beside the command and the bytes nothing differs. -/
namespace Sys2Proof.Machine

/-! ### Ranges within one block -/

theorem piecesAux_zero (n a : Nat) : piecesAux n a 0 = [] := by cases n <;> simp [piecesAux]

theorem pieces_zero (addr : Nat) : pieces addr 0 = [] := piecesAux_zero _ _

/-- A range that does not leave its block is one piece. -/
theorem pieces_one {addr blk off len : Nat} (ha : addr = blk * blockBytes + off) (h1 : 1 ≤ len) (h2 : off + len ≤ blockBytes) :
    pieces addr len = [(blk, off, len)] := by
  have hoff : addr % blockBytes = off := by simp only [blockBytes] at *; omega
  have hblk : addr / blockBytes = blk := by simp only [blockBytes] at *; omega
  have hmin : min len (blockBytes - off) = len := by omega
  simp [pieces, piecesAux, hoff, hblk, hmin, Nat.one_le_iff_ne_zero.1 h1]

/-- The pieces of a range cover it. -/
theorem sum_piecesAux (n a len : Nat) (h : len ≠ 0 → a % blockBytes + len ≤ n * blockBytes) :
    ((piecesAux n a len).map (fun p => p.2.2)).sum = len := by
  induction n generalizing a len with
  | zero => simp [piecesAux]; omega
  | succ n ih =>
    unfold piecesAux
    split
    · simp [*]
    · next hlen =>
      have h := h hlen
      rw [List.map_cons, List.sum_cons, ih]
      · simp only; omega
      · intro hrest
        simp only [blockBytes] at *
        rcases Nat.le_total len (2 ^ 18 - a % 2 ^ 18) with hl | hl
        · rw [Nat.min_eq_left hl]; omega
        · rw [Nat.min_eq_right hl]; omega

theorem State.length_blockRead (s : State) (c blk off len : Nat) : (s.blockRead c blk off len).length = len := by
  unfold State.blockRead
  split
  · simp [cellRead]
  · split <;> simp [cellRead]
  · simp [cellRead]
  · simp

/-- A read of a range has its length. -/
theorem State.length_readCtx (s : State) (c addr len : Nat) : (s.readCtx c addr len).length = len := by
  have hlen : ∀ p : Nat × Nat × Nat, (s.blockRead c p.1 p.2.1 p.2.2).length = p.2.2 := fun p => s.length_blockRead ..
  unfold State.readCtx pieces
  simp only [List.length_flatMap, hlen]
  exact sum_piecesAux _ _ _ (fun _ => by simp only [blockBytes]; omega)

theorem State.countReads_zero (s : State) (region ctx addr : Nat) : s.countReads region ctx [(addr, 0)] = s := by
  simp [State.countReads, pieces_zero]

/-! ### What reads count after the work -/

/-- From s to t at most what reads count differs. -/
structure State.Counted (s t : State) : Prop where
  only   : s.Only [.tiers] t
  counts : s.OnlyCounts t

theorem State.Counted.refl (s : State) : s.Counted s := ⟨State.Only.refl _ _, State.OnlyCounts.refl s⟩

theorem State.Counted.countReads {s t : State} (h : s.Counted t) (region ctx : Nat) (rs : List (Nat × Nat)) :
    s.Counted (t.countReads region ctx rs) :=
  ⟨h.only.trans (t.only_countReads region ctx rs), h.counts.trans (t.onlyCounts_countReads region ctx rs)⟩

theorem State.Counted.trans {s t u : State} (h : s.Counted t) (k : t.Counted u) : s.Counted u :=
  ⟨h.only.trans k.only, h.counts.trans k.counts⟩

theorem State.Counted.cp {s t : State} (h : s.Counted t) : t.cp = s.cp := by simpa using h.only.cp

theorem State.Counted.mem {s t : State} (h : s.Counted t) : t.tiers.mem = s.tiers.mem := by rw [h.counts.1]

/-! ### The write -/

/-- The command's shadow of a block becomes `w`. -/
def Cmd.putShadow (blk : Nat) (w : Shadow) (x : Cmd) : Cmd :=
  { x with shadows := x.shadows.map (fun p => if p.1 = blk then (blk, w) else p) }

/-- Bytes are stored at an address of the frames, and the command's shadow of a block becomes `w`. -/
def State.storeShadow (s : State) (f q n blk : Nat) (w : Shadow) (at' : Nat) (bs : List Byte) : State :=
  { s with tiers := { s.tiers with mem := cellWrite s.tiers.mem at' bs } }.modCmd f q n (Cmd.putShadow blk w)

/-- The bytes of the unit that a write within it leaves: around the written bytes those the shadow holds, or the block's committed ones. -/
def State.unitWith (s : State) (ctx blk : Nat) (w : Shadow) (off : Nat) (bs : List Byte) : List Byte :=
  let old := if nbit w.mask (off / 64) then cellRead s.tiers.mem (w.frame * blockBytes + off / 64 * 64) 64
    else s.blockRead ctx blk (off / 64 * 64) 64
  old.take (off - off / 64 * 64) ++ bs ++ old.drop (off - off / 64 * 64 + bs.length)

section
variable {s : State} {f q n ctx blk off : Nat} {w : Shadow} {c : Cmd} {bs : List Byte} {code : Option Nat}

theorem State.withShadow_found (hc : s.cmdOf f q n = some c) (hw : c.shadows.find? (fun p => p.1 = blk) = some (blk, w)) :
    s.withShadow f q n ctx blk = some (w, s) := by simp [State.withShadow, hc, hw]

/-- A write of whole units stores its bytes as they are. -/
theorem State.writePiece_whole (hc : s.cmdOf f q n = some c) (hw : c.shadows.find? (fun p => p.1 = blk) = some (blk, w))
    (hoff : off % 64 = 0) (hlen : bs.length % 64 = 0) :
    s.writePiece f q n ctx blk off bs code = some (s.storeShadow f q n blk
      { w with mask := w.mask ||| unitMask off bs.length, code := code.getD w.code } (w.frame * blockBytes + off) bs) := by
  have hrange : unitRange off bs.length = (off, bs.length) := by
    simp only [unitRange, roundUp, ceilDiv, Prod.mk.injEq]; omega
  have hold : ∀ i, (if nbit w.mask (off / 64 + i) then cellRead s.tiers.mem (w.frame * blockBytes + off + 64 * i) 64
      else s.blockRead ctx blk (off + 64 * i) 64).length = 64 := by
    intro i
    split
    · simp [cellRead]
    · exact s.length_blockRead ..
  have hall : ((List.range (bs.length / 64)).flatMap (fun i =>
      if nbit w.mask (off / 64 + i) then cellRead s.tiers.mem (w.frame * blockBytes + off + 64 * i) 64
      else s.blockRead ctx blk (off + 64 * i) 64)).length = bs.length := by
    simp only [List.length_flatMap, hold]
    simp; omega
  simp only [State.writePiece, State.withShadow_found hc hw, hrange, Nat.sub_self, List.take_zero, List.nil_append, Nat.zero_add]
  rw [List.drop_eq_nil_of_le (Nat.le_of_eq hall), List.append_nil]
  rfl

/-- A write within one unit stores the unit. -/
theorem State.writePiece_unit (hc : s.cmdOf f q n = some c) (hw : c.shadows.find? (fun p => p.1 = blk) = some (blk, w))
    (hpos : 1 ≤ bs.length) (hunit : off % 64 + bs.length ≤ 64) :
    s.writePiece f q n ctx blk off bs code = some (s.storeShadow f q n blk
      { w with mask := w.mask ||| unitMask off bs.length, code := code.getD w.code } (w.frame * blockBytes + off / 64 * 64)
      (s.unitWith ctx blk w off bs)) := by
  have hrange : unitRange off bs.length = (off / 64 * 64, 64) :=
    Prod.ext rfl (by simp only [unitRange, roundUp, ceilDiv]; omega)
  have hone : List.range (64 / 64) = [0] := rfl
  have hdiv : off / 64 * 64 / 64 = off / 64 := Nat.mul_div_cancel _ (by decide)
  simp only [State.writePiece, State.withShadow_found hc hw, hrange, hone, hdiv]
  rw [List.flatMap_singleton, Nat.mul_zero, Nat.add_zero, Nat.add_zero, Nat.add_zero]
  rfl

/-- The bytes of the unit, one by one. -/
theorem State.getD_unitWith (k : Nat) (hk : k < 64) :
    (s.unitWith ctx blk w off bs).getD k 0 =
      if off % 64 ≤ k ∧ k < off % 64 + bs.length then bs.getD (k - off % 64) 0
      else if nbit w.mask (off / 64) = false then (s.blockRead ctx blk (off / 64 * 64) 64).getD k 0
      else cellGet s.tiers.mem (w.frame * blockBytes + off / 64 * 64 + k) := by
  have hsub : off - off / 64 * 64 = off % 64 := by omega
  unfold State.unitWith
  generalize hold : (if nbit w.mask (off / 64) then cellRead s.tiers.mem (w.frame * blockBytes + off / 64 * 64) 64
    else s.blockRead ctx blk (off / 64 * 64) 64) = old
  have hget : old.getD k 0 = if nbit w.mask (off / 64) = false then (s.blockRead ctx blk (off / 64 * 64) 64).getD k 0
      else cellGet s.tiers.mem (w.frame * blockBytes + off / 64 * 64 + k) := by
    subst hold
    cases nbit w.mask (off / 64) <;> simp [cellRead, hk]
  have hlen : old.length = 64 := by
    subst hold
    split
    · simp [cellRead]
    · exact s.length_blockRead ..
  rw [← hget, hsub]
  simp only [List.getD_eq_getElem?_getD, List.getElem?_append, List.length_append, List.length_take, hlen, List.getElem?_take,
    List.getElem?_drop]
  have hmin : min (off % 64) 64 = off % 64 := by omega
  rw [hmin]
  by_cases h1 : k < off % 64
  · simp [h1, Nat.not_le.2 h1, show k < off % 64 + bs.length by omega]
  · by_cases h2 : k < off % 64 + bs.length
    · simp [h1, h2, Nat.not_lt.1 h1]
    · simp only [h2, and_false, if_false]
      congr 2
      omega

theorem State.length_unitWith (hunit : off % 64 + bs.length ≤ 64) : (s.unitWith ctx blk w off bs).length = 64 := by
  have hlen : (if nbit w.mask (off / 64) then cellRead s.tiers.mem (w.frame * blockBytes + off / 64 * 64) 64
      else s.blockRead ctx blk (off / 64 * 64) 64).length = 64 := by
    split
    · simp [cellRead]
    · exact s.length_blockRead ..
  simp only [State.unitWith, List.length_append, List.length_take, List.length_drop, hlen]
  omega

/-- A write of one block's bytes is one piece. -/
theorem State.writeCtx_one {addr : Nat} (ha : addr = blk * blockBytes + off) (h1 : 1 ≤ bs.length) (h2 : off + bs.length ≤ blockBytes) :
    s.writeCtx f q n ctx addr bs code = s.writePiece f q n ctx blk off bs code := by
  unfold State.writeCtx
  rw [pieces_one ha h1 h2]
  cases hw : s.writePiece f q n ctx blk off bs code <;> simp [hw]

end

/-! ### The command ends -/

theorem State.storeShadow_mem (s : State) (f q n blk : Nat) (w : Shadow) (at' : Nat) (bs : List Byte) (a : Nat) :
    cellGet (s.storeShadow f q n blk w at' bs).tiers.mem a =
      if at' ≤ a ∧ a < at' + bs.length then bs.getD (a - at') 0 else cellGet s.tiers.mem a :=
  cellGet_cellWrite ..

/-- A row of a command that stores bytes in its shadow, finishes, and has its reads counted. -/
theorem State.Runs.stored {s t : State} {f q n op blk a b at' : Nat} {used : List (Nat × Nat)} {c : Cmd} {w : Shadow} {bs : List Byte}
    (h : s.Runs f q n op used c) (hc : ((s.storeShadow f q n blk w at' bs).done f q n a b).Counted t) :
    s.Only [.cp, .tiers] t ∧ t.Ended f q n St.ok a b ∧ s.OnlyCmd f q n t ∧
      s.OnlyCounts { t with tiers := { t.tiers with mem := s.tiers.mem } } ∧
      (∀ k, cellGet t.tiers.mem k = if at' ≤ k ∧ k < at' + bs.length then bs.getD (k - at') 0 else cellGet s.tiers.mem k) ∧
      t.cmdOf f q n = some ((c.putShadow blk w).finish ⟨St.ok, a, b⟩) := by
  have hstored : (s.storeShadow f q n blk w at' bs).cmdOf f q n = some (c.putShadow blk w) := by
    rw [State.storeShadow, State.cmdOf_modCmd_self _ f q n (Cmd.putShadow blk w) (fun _ => rfl), State.cmdOf_cp _ s f q n (by rfl), h.cmd]
    rfl
  have hended : ((s.storeShadow f q n blk w at' bs).done f q n a b).Ended f q n St.ok a b := h.ended_of _ _ hstored rfl rfl a b
  have hcmd : s.OnlyCmd f q n ((s.storeShadow f q n blk w at' bs).done f q n a b) :=
    ⟨fun x => (x.putShadow blk w).finish ⟨St.ok, a, b⟩, fun _ => ⟨rfl, rfl⟩,
      (congrArg State.cp (State.modCmd_modCmd { s with tiers := { s.tiers with mem := cellWrite s.tiers.mem at' bs } } f q n
        (Cmd.putShadow blk w) (fun x => x.finish ⟨St.ok, a, b⟩) (fun _ => rfl))).trans (State.modCmd_cp _ _ _ _ _ _ rfl)⟩
  refine ⟨?_, hended.of_cp hc.cp, hcmd.of_cp hc.cp, ?_, fun k => ?_, ?_⟩
  · exact ((((s.only_set_tiers _).mono _ (by decide)).trans ((State.only_modCmd _ f q n _).mono _ (by decide))).trans
      ((State.only_modCmd _ f q n _).mono _ (by decide))).trans (hc.only.mono _ (by decide))
  · exact ⟨congrArg (fun x : Tiers => { x with mem := s.tiers.mem }) hc.counts.1, hc.counts.2⟩
  · rw [hc.mem]
    exact State.storeShadow_mem s f q n blk w at' bs k
  · rw [State.cmdOf_cp _ _ f q n hc.cp, State.done, State.cmdOf_finish, hstored]
    rfl

/-- The shadow that a write leaves. -/
theorem Cmd.find_putShadow {c : Cmd} {blk : Nat} {w : Shadow} (h : c.shadows.find? (fun p => p.1 = blk) = some (blk, w)) (v : Shadow) :
    (c.putShadow blk v).shadows.find? (fun p => p.1 = blk) = some (blk, v) := by
  unfold Cmd.putShadow
  dsimp only
  revert h
  generalize c.shadows = l
  intro h
  induction l with
  | nil => simp at h
  | cons p l ih =>
    by_cases hp : p.1 = blk
    · simp [hp]
    · rw [List.find?_cons_of_neg (by simpa using hp)] at h
      rw [List.map_cons, if_neg hp, List.find?_cons_of_neg (by simpa using hp)]
      exact ih h

end Sys2Proof.Machine
end

section
/-! FILL, COPY, HOST_WRITE and SHAPE_WRITE to a block that the command has shadowed (R265, R266, R339): each stores its bytes in the shadow's
frame and finishes. -/
namespace Sys2Proof.Machine

section
variable {s : State} {f q n blk off len : Nat} {w : Shadow} {c : Cmd}

/-- A write of whole units reads no unit in part, so that nothing is counted. -/
theorem State.withWrite_whole {ctx wd addr : Nat} (h : s.WriteReady ctx wd addr len) (ha : addr % 64 = 0) (hl : len % 64 = 0) (k : State) :
    s.withWrite f q n ctx wd addr len k = k := by
  rw [State.withWrite_ready _ _ _ _ _ _ _ _ _ h, if_pos ha, if_pos (by omega), State.countReads_zero, State.countReads_zero]

/-- Beside the reads of the units that a write leaves in part, nothing comes between the range and the work. -/
theorem State.withWrite_counted {ctx wd addr : Nat} (h : s.WriteReady ctx wd addr len) (k : State) :
    k.Counted (s.withWrite f q n ctx wd addr len k) := by
  rw [State.withWrite_ready _ _ _ _ _ _ _ _ _ h]
  exact ((State.Counted.refl k).countReads _ _ _).countReads _ _ _

theorem State.withRange_counted {ctx wd addr : Nat} (h : s.access ctx wd addr len true = .ready) (k : State) :
    k.Counted (s.withRange f q n ctx wd addr len true k) := by
  rw [State.withRange_ready _ _ _ _ _ _ _ _ _ _ h]
  exact (State.Counted.refl k).countReads _ _ _

/-- The place of a unit of a block is a whole unit of the context. -/
theorem addr_mod_unit {addr : Nat} (ha : addr = blk * blockBytes + off) (hoff : off % 64 = 0) : addr % 64 = 0 := by
  simp only [blockBytes] at ha; omega

theorem bytesOk_block (h1 : 1 ≤ len) (h2 : off + len ≤ blockBytes) : bytesOk 0 len = true := by
  have hb : len ≤ 2 ^ 18 := Nat.le_trans (Nat.le_add_left len off) h2
  simp only [bytesOk, Bool.and_eq_true, decide_eq_true_eq]
  omega

/-- Bytes put in whole units of a shadowed block. -/
theorem State.putBytes_whole {ctx addr : Nat} {bs : List Byte} (hc : s.cmdOf f q n = some c)
    (hw : c.shadows.find? (fun p => p.1 = blk) = some (blk, w)) (ha : addr = blk * blockBytes + off) (hoff : off % 64 = 0)
    (hlen : bs.length % 64 = 0) (h1 : 1 ≤ bs.length) (h2 : off + bs.length ≤ blockBytes) (k : State → State) :
    s.putBytes f q n ctx addr bs none k = k (s.storeShadow f q n blk { w with mask := w.mask ||| unitMask off bs.length }
      (w.frame * blockBytes + off) bs) :=
  State.putBytes_some _ _ _ _ _ _ _ _ _ _ ((State.writeCtx_one ha h1 h2).trans (State.writePiece_whole hc hw hoff hlen))

/-! ### FILL -/

/-- The bytes a FILL writes: its pattern over and over. -/
def fillBytes (ws : List Word) : List Byte := (List.range (wnat ws 4)).map (fun i => (leBytes 4 (wnat ws 5)).getD (i % 4) 0)

@[simp] theorem length_fillBytes (ws : List Word) : (fillBytes ws).length = wnat ws 4 := by simp [fillBytes]

theorem getD_fillBytes (ws : List Word) (i : Nat) (h : i < wnat ws 4) :
    (fillBytes ws).getD i 0 = (leBytes 4 (wnat ws 5)).getD (i % 4) 0 := by
  simp [fillBytes, List.getElem?_range h]

theorem fill_exec (h : s.Runs f q n 0x23 [(2, 0xFFFFFFFF), (3, 0xFFFF), (4, 0xFFFFFFFF), (5, 0xFFFFFFFF)] c)
    (ha : addr48 c.eff 2 = blk * blockBytes + off) (hoff : off % 64 = 0) (hlen : wnat c.eff 4 % 64 = 0) (h1 : 1 ≤ wnat c.eff 4)
    (h2 : off + wnat c.eff 4 ≤ blockBytes) (hdst : s.DstReady c.ctx 2 (addr48 c.eff 2) (wnat c.eff 4))
    (hw : c.shadows.find? (fun p => p.1 = blk) = some (blk, w)) :
    exec (.fill f q n []) s = .next ((s.storeShadow f q n blk { w with mask := w.mask ||| unitMask off (wnat c.eff 4) }
      (w.frame * blockBytes + off) (fillBytes c.eff)).done f q n (wnat c.eff 4) 0) := by
  refine h.read_checked (execFill f q n [] s) [param (bytesOk 0 (wnat c.eff 4)) 4] rfl rfl ?_ (by simp [bytesOk_block h1 h2])
  have hl := length_fillBytes c.eff
  have hput := State.putBytes_whole (ctx := c.ctx) (bs := fillBytes c.eff) h.cmd hw ha hoff (by rw [hl]; exact hlen) (by rw [hl]; exact h1)
    (by rw [hl]; exact h2) (fun t => t.done f q n (wnat c.eff 4) 0)
  rw [hl, fillBytes] at hput
  dsimp only
  rw [hput, State.withDst_ready _ _ _ _ _ _ _ _ _ hdst, State.withWrite_whole hdst.write (addr_mod_unit ha hoff) hlen]
  rfl

/-- Settles O5: the row stores the pattern (`fill_exec`), and what a stored shadow leaves is `State.Runs.stored`. -/
theorem fillStoresItsPattern : Obligations.FillStoresItsPattern := by
  unfold Obligations.FillStoresItsPattern
  intro s f q n blk off w c h ha hoff hlen h1 h2 hdst hw
  obtain ⟨honly, hended, hcmd, -, hmem, hself⟩ := h.stored (State.Counted.refl _)
  refine ⟨_, fill_exec h ha hoff hlen h1 h2 hdst hw, honly, hended, hcmd, fun a => ?_, ?_⟩
  · rw [hmem a, length_fillBytes]
    split
    · next ha' => rw [getD_fillBytes _ _ (by omega)]
    · rfl
  · exact ⟨_, _, hself, Cmd.find_putShadow hw _, rfl, rfl⟩

/-! ### COPY and HOST_WRITE -/

/-- A copy to whole units of a shadowed block stores what the source reads. -/
theorem State.copyPieces_whole {ctx dst src : Nat} (hc : s.cmdOf f q n = some c)
    (hw : c.shadows.find? (fun p => p.1 = blk) = some (blk, w)) (ha : dst = blk * blockBytes + off) (hoff : off % 64 = 0)
    (hlen : len % 64 = 0) (h1 : 1 ≤ len) (h2 : off + len ≤ blockBytes) :
    ∃ v : Shadow, s.copyPieces f q n ctx dst src len =
      some (s.storeShadow f q n blk v (w.frame * blockBytes + off) (s.readCtx ctx src len)) := by
  have hl := s.length_readCtx ctx src len
  have htake : ((s.readCtx ctx src len).drop (blk * blockBytes + off - dst)).take len = s.readCtx ctx src len := by
    rw [ha, Nat.sub_self, List.drop_zero, List.take_of_length_le (Nat.le_of_eq hl)]
  simp only [State.copyPieces, pieces_one ha h1 h2, List.foldl_cons, List.foldl_nil, Option.bind_some, htake]
  exact ⟨_, State.writePiece_whole hc hw hoff (by rw [hl]; exact hlen)⟩

theorem copy_stores (h : s.Runs f q n 0x22 [(2, 0xFFFFFFFF), (3, 0xFFFF), (4, 0xFFFFFFFF), (5, 0xFFFF), (6, 0xFFFFFFFF)] c)
    (hw : c.shadows.find? (fun p => p.1 = blk) = some (blk, w)) (ha : addr48 c.eff 2 = blk * blockBytes + off)
    (hlen : len = wnat c.eff 6) (hoff : off % 64 = 0) (hl : len % 64 = 0) (h1 : 1 ≤ len) (h2 : off + len ≤ blockBytes)
    (hsrc : s.access c.ctx 4 (addr48 c.eff 4) len true = .ready) (hdst : s.DstReady c.ctx 2 (addr48 c.eff 2) len) :
    ∃ v : Shadow, exec (.copy f q n []) s = .next (((s.storeShadow f q n blk v (w.frame * blockBytes + off)
      (s.readCtx c.ctx (addr48 c.eff 4) len)).done f q n len 0).countReads 0 c.ctx [(addr48 c.eff 4, len)]) := by
  subst hlen
  obtain ⟨v, hv⟩ := State.copyPieces_whole (ctx := c.ctx) (src := addr48 c.eff 4) h.cmd hw ha hoff hl h1 h2
  refine ⟨v, h.read_checked (execCopy f q n [] s) [param (bytesOk 0 (wnat c.eff 6)) 6] rfl rfl ?_ (by simp [bytesOk_block h1 h2])⟩
  dsimp only
  rw [hv, State.withRange_ready _ _ _ _ _ _ _ _ _ _ hsrc, State.withDst_ready _ _ _ _ _ _ _ _ _ hdst,
    State.withWrite_whole hdst.write (addr_mod_unit ha hoff) hl]
  rfl

theorem hostWrite_stores {data : List Byte}
    (h : s.Runs f q n 0x28 [(2, 0xFFFFFFFF), (3, 0xFFFF), (4, 0xFFFFFFFF), (5, 0xFFFFFFFF), (6, 0xFFFFFFFF)] c)
    (hw : c.shadows.find? (fun p => p.1 = blk) = some (blk, w)) (ha : addr48 c.eff 2 = blk * blockBytes + off)
    (hlen : len = wnat c.eff 6) (hoff : off % 64 = 0) (hl : len % 64 = 0) (h1 : 1 ≤ len) (h2 : off + len ≤ blockBytes)
    (hdata : data.length = len) (hdst : s.DstReady c.ctx 2 (addr48 c.eff 2) len) :
    ∃ v : Shadow, exec (.hostWrite f q n data []) s =
      .next ((s.storeShadow f q n blk v (w.frame * blockBytes + off) data).done f q n len 0) := by
  subst hlen
  refine ⟨{ w with mask := w.mask ||| unitMask off data.length }, h.read_checked (execHostWrite f q n data [] s) [param (bytesOk 0 (wnat c.eff 6)) 6] rfl rfl ?_
    (by simp [bytesOk_block h1 h2])⟩
  have hput := State.putBytes_whole (ctx := c.ctx) h.cmd hw ha hoff (by rw [hdata]; exact hl) (by rw [hdata]; exact h1)
    (by rw [hdata]; exact h2) (fun t => t.done f q n (wnat c.eff 6) 0)
  dsimp only
  rw [hput, if_neg (not_not_intro hdata), State.withDst_ready _ _ _ _ _ _ _ _ _ hdst,
    State.withWrite_whole hdst.write (addr_mod_unit ha hoff) hl]

/-! ### SHAPE_WRITE -/

theorem shapeWrite_stores
    (h : s.Runs f q n 0x33 [(2, 3), (3, 0xFFFFFFFF), (4, 0xFFFF), (5, 0xFFFFFFFF), (6, 0xFFFFFFFF), (7, 0xFFFF)] c)
    (hw : c.shadows.find? (fun p => p.1 = blk) = some (blk, w)) (ha : addr48 c.eff 3 = blk * blockBytes + off)
    (hop : fld (word c.eff 2) 1 0 = 0) (hoff : off % 4 = 0) (h2 : off + 4 ≤ blockBytes) (h6 : wnat c.eff 6 = 0) (h7 : wnat c.eff 7 = 0)
    (hdst : s.WriteReady c.ctx 3 (addr48 c.eff 3) 4) :
    ∃ (v : Shadow) (t : State), exec (.shapeWrite f q n []) s = .next t ∧ ((s.storeShadow f q n blk v
      (w.frame * blockBytes + off / 64 * 64) (s.unitWith c.ctx blk w off (leBytes 4 (wnat c.eff 5)))).done f q n (wnat c.eff 5) 0).Counted t := by
  have hl : (leBytes 4 (wnat c.eff 5)).length = 4 := by simp [leBytes]
  have halign : wnat c.eff 3 % 4 = 0 := by
    have : addr48 c.eff 3 % 4 = 0 := by simp only [blockBytes] at ha; omega
    simp only [addr48] at this
    omega
  have hval : ∀ src, shapeValue 0 (wnat c.eff 5) src = wnat c.eff 5 := fun src => Nat.mod_eq_of_lt (word c.eff 5).isLt
  have hsrc : s.access c.ctx 6 (addr48 c.eff 6) (4 * 0) true = .ready := by
    have hzero : addr48 c.eff 6 = 0 := by
      have hhigh : fld (word c.eff 7) 15 0 = 0 := by rw [fld, show (word c.eff 7).toNat = 0 from h7]; rfl
      rw [addr48, h6, hhigh, Nat.zero_mul]
    rw [hzero]
    rfl
  have hput := State.putBytes_some _ _ f q n c.ctx (addr48 c.eff 3) (leBytes 4 (wnat c.eff 5)) none
    (fun t => t.done f q n (wnat c.eff 5) 0) ((State.writeCtx_one ha (by omega) (by omega)).trans
      (State.writePiece_unit h.cmd hw (by omega) (by omega)))
  have hcount := (State.withWrite_counted (f := f) (q := q) (n := n) hdst _).trans (State.withRange_counted (f := f) (q := q) (n := n) hsrc
    (s.withWrite f q n c.ctx 3 (addr48 c.eff 3) 4 (s.putBytes f q n c.ctx (addr48 c.eff 3) (leBytes 4 (wnat c.eff 5)) none
      (fun t => t.done f q n (wnat c.eff 5) 0))))
  refine ⟨_, _, h.read_checked (execShapeWrite f q n [] s) [param (wnat c.eff 3 % 4 = 0) 3,
    param (fld (word c.eff 2) 1 0 ≠ 3 || (decide (1 ≤ wnat c.eff 5) && decide (wnat c.eff 5 ≤ 1024))) 5,
    param (if fld (word c.eff 2) 1 0 = 0 then wnat c.eff 6 = 0 else wnat c.eff 6 % 4 = 0) 6,
    param (fld (word c.eff 2) 1 0 ≠ 0 || wnat c.eff 7 = 0) 7] rfl rfl ?_ (by simp [halign, hop, h6, h7]), by rw [hput] at hcount; exact hcount⟩
  dsimp only
  rw [hop, if_pos rfl, hval, hput]
  rfl

end

/-- Settles O6: each row stores its bytes (`copy_stores`, `hostWrite_stores`, `shapeWrite_stores`), and what a stored shadow leaves is
`State.Runs.stored`. -/
theorem writesLandInTheShadow : Obligations.WritesLandInTheShadow := by
  unfold Obligations.WritesLandInTheShadow
  intro s f q n blk off base w c hbase hw ha
  subst hbase
  refine ⟨fun len h hlen hoff hl h1 h2 hsrc hdst => ?copy, fun data len h hlen hoff hl h1 h2 hdata hdst => ?host,
    fun r h hop hr hoff h2 h6 h7 hdst => ?shape⟩
  case copy =>
    rw [h.op] at ha
    obtain ⟨v, he⟩ := copy_stores h hw ha hlen hoff hl h1 h2 hsrc hdst
    obtain ⟨honly, hended, hcmd, hcounts, hmem, -⟩ := h.stored ((State.Counted.refl _).countReads 0 c.ctx [(addr48 c.eff 4, len)])
    exact ⟨_, he, honly, hended, hcmd, hcounts, fun a => by rw [hmem a, State.length_readCtx]⟩
  case host =>
    rw [h.op] at ha
    obtain ⟨v, he⟩ := hostWrite_stores h hw ha hlen hoff hl h1 h2 hdata hdst
    obtain ⟨honly, hended, hcmd, -, hmem, -⟩ := h.stored (State.Counted.refl _)
    exact ⟨_, he, honly, hended, hcmd, rfl, fun a => by rw [hmem a, hdata]⟩
  case shape =>
    rw [h.op] at ha
    subst hr
    obtain ⟨v, t, he, hcount⟩ := shapeWrite_stores h hw ha hop hoff h2 h6 h7 hdst
    obtain ⟨honly, hended, hcmd, hcounts, hmem, -⟩ := h.stored hcount
    refine ⟨t, he, honly, hended, hcmd, hcounts, fun a => ?_⟩
    have hbytes : (leBytes 4 (wnat c.eff 5)).length = 4 := by simp [leBytes]
    rw [hmem a, State.length_unitWith (by omega)]
    by_cases hin : w.frame * blockBytes + off / 64 * 64 ≤ a ∧ a < w.frame * blockBytes + off / 64 * 64 + 64
    · obtain ⟨k, hk, rfl⟩ : ∃ k, k < 64 ∧ a = w.frame * blockBytes + off / 64 * 64 + k :=
        ⟨a - (w.frame * blockBytes + off / 64 * 64), by omega, by omega⟩
      have hword : (w.frame * blockBytes + off ≤ w.frame * blockBytes + off / 64 * 64 + k ∧
          w.frame * blockBytes + off / 64 * 64 + k < w.frame * blockBytes + off + 4) ↔ off % 64 ≤ k ∧ k < off % 64 + 4 := by omega
      have hsub : w.frame * blockBytes + off / 64 * 64 + k - (w.frame * blockBytes + off) = k - off % 64 := by omega
      rw [if_pos hin, Nat.add_sub_cancel_left, State.getD_unitWith k hk, hbytes, if_congr hword rfl rfl, hsub]
      simp only [hin, true_and]
    · rw [if_neg hin, if_neg (by omega), if_neg (fun hx => hin ⟨hx.1, hx.2.1⟩)]

end Sys2Proof.Machine
end

section
/-! Frames and blocks that move (R261, R262, R269 to R273, R285 to R287): what a copy between frames leaves of the bytes, what a frame's state
reads after a change, and the rows of the tier machinery. -/
namespace Sys2Proof.Machine

/-! ### A copy between frames -/

/-- The cells of a range, moved to another address. -/
def movedCells (m : List Host.Cell) (src n dst : Nat) : List Host.Cell :=
  (m.filter (fun c => src ≤ c.1 && c.1 < src + n)).map (fun c => (c.1 - src + dst, c.2))

theorem cellGet_movedCells (m : List Host.Cell) (src n dst k : Nat) :
    cellGet (movedCells m src n dst) k = if dst ≤ k ∧ k < dst + n then cellGet m (k - dst + src) else 0 := by
  induction m with
  | nil => simp [movedCells, cellGet]
  | cons c m ih =>
    obtain ⟨i, b⟩ := c
    unfold movedCells at ih ⊢
    by_cases hi : src ≤ i ∧ i < src + n
    · rw [List.filter_cons_of_pos (by simpa using hi), List.map_cons]
      simp only [cellGet, ih]
      by_cases hk : i - src + dst = k
      · rw [if_pos hk, if_pos (by omega), if_pos (by omega)]
      · rw [if_neg hk]
        by_cases hr : dst ≤ k ∧ k < dst + n
        · rw [if_pos hr, if_pos hr, if_neg (by omega)]
        · rw [if_neg hr, if_neg hr]
    · rw [List.filter_cons_of_neg (by simpa using hi), ih]
      by_cases hr : dst ≤ k ∧ k < dst + n
      · rw [if_pos hr, if_pos hr, cellGet, if_neg (by omega)]
      · rw [if_neg hr, if_neg hr]

/-- After a copy the destination reads what the source held, and every other byte as before. -/
theorem cellGet_cellCopy (m : List Host.Cell) (src n dst k : Nat) :
    cellGet (cellCopy m src n dst) k = if dst ≤ k ∧ k < dst + n then cellGet m (k - dst + src) else cellGet m k := by
  have hmoved := cellGet_movedCells m src n dst k
  have hbelow := tget_filter (0 : Byte) m k (fun i => decide (i < dst))
  have habove := tget_filter (0 : Byte) m k (fun i => decide (dst + n ≤ i))
  have hkeys : tkeys (m.filter (fun x => decide (x.1 < dst))) = (tkeys m).filter (fun i => decide (i < dst)) := by
    simp [tkeys, List.filter_map]; rfl
  change cellGet (m.filter (fun c => decide (c.1 < dst)) ++ movedCells m src n dst ++ m.filter (fun c => decide (dst + n ≤ c.1))) k = _
  simp only [cellGet_eq_tget] at *
  rw [List.append_assoc, tget_append, tget_append, hbelow, habove, hmoved, hkeys]
  simp only [List.mem_filter, decide_eq_true_eq]
  by_cases hr : dst ≤ k ∧ k < dst + n
  · rw [if_neg (by omega), if_pos hr, if_pos hr]
    by_cases hm : k ∈ tkeys (movedCells m src n dst)
    · rw [if_pos hm]
    · have hnone := tget_absent (0 : Byte) _ k hm
      rw [hmoved, if_pos hr] at hnone
      rw [if_neg hm, if_neg (by omega), hnone]
  · have hm : k ∉ tkeys (movedCells m src n dst) := by
      intro h
      obtain ⟨c, hc, rfl⟩ := List.mem_map.1 h
      obtain ⟨d, hd, rfl⟩ := List.mem_map.1 hc
      have hd := (List.mem_filter.1 hd).2
      simp only [Bool.and_eq_true, decide_eq_true_eq] at hd
      exact hr ⟨by simp only; omega, by simp only; omega⟩
    simp only [hr, hm, if_false]
    by_cases hlt : k < dst
    · by_cases hk : k ∈ tkeys m
      · rw [if_pos ⟨hk, hlt⟩, if_pos hlt]
      · rw [if_neg (fun x => hk x.1), if_neg (by omega), tget_absent _ _ _ hk]
    · rw [if_neg (fun x => hlt x.2), if_pos (by omega)]

theorem block_range {a fid : Nat} : (fid * blockBytes ≤ a ∧ a < fid * blockBytes + blockBytes) ↔ a / blockBytes = fid := by
  simp only [blockBytes]; omega

/-! ### Frames -/

theorem State.frameOf_setFrame (s : State) (fid : Nat) (v : FrameState) (j : Nat) :
    (s.setFrame fid v).frameOf j = if j = fid then v else s.frameOf j := tget_tset ..

/-- A frame that is not in use keeps its state when frames that no entry named go back. -/
theorem State.frameOf_dropFrame (s : State) (fid j : Nat) (h : s.frameOf j ≠ .used) : (s.dropFrame fid).frameOf j = s.frameOf j := by
  unfold State.dropFrame
  split
  · next hu => rw [State.frameOf_setFrame, if_neg (fun hj => h (by rw [hj, hu]))]
  · rfl

/-- A frame draining leaves of the tiers all but the frames' states. -/
theorem State.drainFrame_tiers (s : State) (fid : Nat) :
    (s.drainFrame fid).tiers = { s.tiers with frames := (s.drainFrame fid).tiers.frames } := by
  unfold State.drainFrame
  split <;> rfl

theorem State.frameOf_zeroFrame (s : State) (fid j : Nat) : (s.zeroFrame fid).frameOf j = s.frameOf j := rfl

theorem State.cellGet_zeroFrame (s : State) (fid a : Nat) :
    cellGet (s.zeroFrame fid).tiers.mem a = if a / blockBytes = fid then 0 else cellGet s.tiers.mem a := by
  rw [if_congr block_range.symm rfl rfl]
  exact cellGet_cellClear ..

/-! ### Entry changes and frames -/

section
variable {s : State} {i fid : Nat} {e : BmEntry}

theorem blockMapChangeDone_drops {ch : Change} (hch : s.tiers.changes.find? (fun c => c.entry = i) = some ch) (hpeer : ch.peer = none) :
    Answers (.blockMapChangeDone i) s [.tiers] (fun t => t.tiers = { s.tiers with
      changes := s.tiers.changes.erase ch, caches := s.tiers.caches.filter (fun c => c.2.1 ≠ i) }) := by
  have he : exec (.blockMapChangeDone i) s = .next { s with tiers := { s.tiers with
      changes := s.tiers.changes.erase ch, caches := s.tiers.caches.filter (fun c => c.2.1 ≠ i) } } := by
    change execBlockMapChangeDone i s = _
    simp only [execBlockMapChangeDone, hch, hpeer]
  exact ⟨_, he, s.only_set_tiers _, rfl⟩

theorem frameRelease_queues (hstate : s.frameOf fid = .draining) (hchange : ∀ c ∈ s.tiers.changes, c.fid ≠ some fid)
    (hread : s.frameRead fid = false) :
    Answers (.frameRelease fid) s [.tiers] (fun t => t.frameOf fid = .queued ∧ t.tiers.bm = s.tiers.bm ∧ t.tiers.mem = s.tiers.mem ∧
      ∀ j, j ≠ fid → t.frameOf j = s.frameOf j) := by
  have hdue : (decide (s.frameOf fid = .draining) && !s.tiers.changes.any (fun c => c.fid = some fid) && !s.frameRead fid) = true := by
    simpa [hstate, hread] using hchange
  refine ⟨s.setFrame fid .queued, congrArg Host.Outcome.next (if_pos hdue), s.only_setFrame _ _, ?_, rfl, rfl, fun j hj => ?_⟩
  · rw [State.frameOf_setFrame, if_pos rfl]
  · rw [State.frameOf_setFrame, if_neg hj]

theorem frameScrub_queued (hstate : s.frameOf fid = .queued) (hlocal : fid < 20 * 2 ^ 24) :
    Answers (.frameScrub fid) s [.tiers] (fun t => t.frameOf fid = .free ∧ t.tiers.bm = s.tiers.bm ∧
      (∀ a, a / blockBytes = fid → cellGet t.tiers.mem a = 0) ∧
      (∀ a, a / blockBytes ≠ fid → cellGet t.tiers.mem a = cellGet s.tiers.mem a) ∧ ∀ j, j ≠ fid → t.frameOf j = s.frameOf j) := by
  have he : exec (.frameScrub fid) s = .next ((s.zeroFrame fid).setFrame fid .free) := by
    change execFrameScrub fid s = _
    unfold execFrameScrub
    dsimp only
    rw [if_neg (fun h => absurd h.1 (Nat.not_le.2 hlocal)), onlyIf, if_pos (by simpa using hstate)]
  have hmem : ∀ a, cellGet ((s.zeroFrame fid).setFrame fid .free).tiers.mem a = if a / blockBytes = fid then 0 else cellGet s.tiers.mem a :=
    s.cellGet_zeroFrame fid
  refine ⟨_, he, (s.only_zeroFrame fid).trans (State.only_setFrame _ _ _), ?_, rfl, fun a ha => ?_, fun a ha => ?_, fun j hj => ?_⟩
  · rw [State.frameOf_setFrame, if_pos rfl]
  · rw [hmem, if_pos ha]
  · rw [hmem, if_neg ha]
  · rw [State.frameOf_setFrame, if_neg hj, State.frameOf_zeroFrame]

theorem frameScrub_window {w : Nat} (hw : w ∈ s.tiers.lendScrub) :
    Answers (.frameScrub (windowFid w)) s [.tiers] (fun t => t.tiers.lendScrub = s.tiers.lendScrub.erase w ∧ t.tiers.bm = s.tiers.bm ∧
      (∀ a, a / blockBytes = windowFid w → cellGet t.tiers.mem a = 0) ∧
      ∀ a, a / blockBytes ≠ windowFid w → cellGet t.tiers.mem a = cellGet s.tiers.mem a) := by
  set u : State := { s with tiers := { s.tiers with lendScrub := s.tiers.lendScrub.erase w } } with hu
  have hsub : windowFid w - 20 * 2 ^ 24 = w := Nat.add_sub_cancel_left ..
  have he : exec (.frameScrub (windowFid w)) s = .next (u.zeroFrame (windowFid w)) := by
    change execFrameScrub (windowFid w) s = _
    unfold execFrameScrub
    dsimp only
    rw [hsub, if_pos ⟨Nat.le_add_right .., by simpa using hw⟩]
  refine ⟨_, he, (s.only_set_tiers _).trans (u.only_zeroFrame _), rfl, rfl, fun a ha => ?_, fun a ha => ?_⟩
  · rw [State.cellGet_zeroFrame, if_pos ha]
  · rw [State.cellGet_zeroFrame, if_neg ha]

/-! ### Migrations begun -/

theorem State.migOf_setMig (s : State) (i : Nat) (m : Option Migration) : (s.setMig i m).migOf i = m := tget_tset_self ..

theorem State.only_setMig (s : State) (i : Nat) (m : Option Migration) : s.Only [.tiers] (s.setMig i m) := s.only_set_tiers _

theorem migrationStart_queued {m : Migration} {g : Nat} {u : State} (hprep : s.preparing i = false) (hm : s.migOf i = some m)
    (hbegun : m.begun = false) (hkind : m.kind < 2) (hdue : s.stillDue (s.bmOf i) m = true)
    (halloc : s.allocFor (s.bmOf i).ctx m.tier (s.countOf (s.bmOf i)) = some (g, u)) :
    exec (.migrationStart i) s =
      .next (u.setMig i (some { m with src := fidOf (s.bmOf i).tier (s.bmOf i).loc, dst := g, begun := true })) := by
  change execMigrationStart i s = _
  unfold execMigrationStart
  simp only [hprep, hm, hbegun, hdue, halloc, show m.kind ≠ 2 by omega, show m.kind ≠ 3 by omega, Bool.false_eq_true, if_false, or_self,
    Bool.not_true]

theorem migrationStart_hinted {tier g : Nat} {u : State} (hprep : s.preparing i = false) (hm : s.migOf i = none)
    (hwant : wantTier (s.bmOf i) = some tier) (halloc : s.allocMigration (s.bmOf i).ctx tier = some (g, u)) :
    exec (.migrationStart i) s = .next (u.setMig i (some
      { src := fidOf (s.bmOf i).tier (s.bmOf i).loc, dst := g, tier := tier, kind := 0, begun := true })) := by
  change execMigrationStart i s = _
  unfold execMigrationStart
  simp only [hprep, hm, hwant, halloc, Bool.false_eq_true, if_false]

theorem State.only_allocMigration {u : State} {ctx tier g : Nat} (h : s.allocMigration ctx tier = some (g, u)) :
    s.Only [.tiers, .ctxs, .free] u := by
  unfold State.allocMigration at h
  split at h
  · exact s.only_allocFrame u tier g h
  · cases h

/-! ### Migrations done -/

theorem migrationDone_exec {m : Migration} (hprep : s.preparing i = false) (hm : s.migOf i = some m) (hbegun : m.begun = true)
    (hkind : m.kind < 2) :
    exec (.migrationDone i .clean) s = .next (s.switchEntry i m) ∧
    exec (.migrationDone i .uncorrectable) s = .next ((s.retireFrame m.src).resumeBlock (s.bmOf i).ctx (s.bmOf i).block) := by
  have h2 : m.kind ≠ 2 := by omega
  have h3 : m.kind ≠ 3 := by omega
  have hrow : ∀ err, exec (.migrationDone i err) s = execMigrationDone i err s := fun _ => rfl
  constructor <;>
  · rw [hrow]
    unfold execMigrationDone
    simp [hm, hprep, hbegun, h2, h3]

/-- The bytes of a frame lie in the destination of its block's migration, the entry names it, and the migration is over (R269). -/
def State.copied (s : State) (i : Nat) (m : Migration) : State :=
  (({ s with tiers := { s.tiers with
      mem := cellCopy s.tiers.mem (m.src * blockBytes) blockBytes (m.dst * blockBytes) } }.bmChange i
    { s.bmOf i with state := 1, recalled := false, tier := m.tier, loc := locOf m.dst, chip := 0 } (some m.src) none).drainFrame
    m.src).setMig i none

/-- A block between near and bulk is copied, and the streams halted on it resume (R273). -/
theorem State.switchEntry_local {m : Migration} (hkind : m.kind < 2) :
    s.switchEntry i m = (s.copied i m).resumeBlock (s.bmOf i).ctx (s.bmOf i).block := by
  have h3 : m.kind ≠ 3 := by omega
  simp only [State.switchEntry, State.copied, h3, if_false]

theorem State.only_copied (s : State) (i : Nat) (m : Migration) : s.Only [.tiers] (s.copied i m) :=
  (((s.only_set_tiers _).trans (State.only_bmChange ..)).trans (State.only_drainFrame ..)).trans (State.only_setMig ..)

theorem State.bmOf_copied (s : State) (i : Nat) (m : Migration) : (s.copied i m).bmOf i =
    { s.bmOf i with state := 1, recalled := false, tier := m.tier, loc := locOf m.dst, chip := 0 } :=
  (State.bmOf_drainFrame _ m.src i).trans (State.bmOf_bmChange_self ..)

theorem State.migOf_copied (s : State) (i : Nat) (m : Migration) : (s.copied i m).migOf i = none := State.migOf_setMig ..

theorem State.cellGet_copied (s : State) (i : Nat) (m : Migration) (a : Nat) : cellGet (s.copied i m).tiers.mem a =
    if m.dst * blockBytes ≤ a ∧ a < m.dst * blockBytes + blockBytes then cellGet s.tiers.mem (a - m.dst * blockBytes + m.src * blockBytes)
    else cellGet s.tiers.mem a := by
  unfold State.copied
  change cellGet (State.drainFrame _ m.src).tiers.mem a = _
  rw [State.drainFrame_tiers]
  exact cellGet_cellCopy ..

theorem State.resumeBlock_tiers (s : State) (ctx blk : Nat) : (s.resumeBlock ctx blk).tiers = s.tiers :=
  (s.only_resumeBlock ctx blk).tiers.resolve_left (by decide)

/-! ### Frames retired -/

/-- An entry made INVALID, and a frame that is not in use. -/
theorem State.invalidate_leaves (s : State) (i fid : Nat) (recalled release : Bool) (h : s.frameOf fid ≠ .used) :
    ((s.invalidate i recalled release).bmOf i).state = 4 ∧ (s.invalidate i recalled release).frameOf fid = s.frameOf fid := by
  unfold State.invalidate
  extract_lets e mig peer s1 s2
  have hs2 : s2.bmOf i = s1.bmOf i ∧ s2.frameOf fid = s.frameOf fid := by
    simp only [s2]
    clear_value mig
    cases mig with
    | none => exact ⟨rfl, rfl⟩
    | some m =>
      dsimp only
      split
      · exact ⟨State.bmOf_dropFrame .., s1.frameOf_dropFrame _ _ h⟩
      · exact ⟨rfl, rfl⟩
  refine ⟨?_, hs2.2⟩
  change (s2.bmOf i).state = 4
  rw [hs2.1, State.bmOf_bmChange_self]

/-- Retiring a frame that an entry names makes the entry INVALID (R285). -/
theorem State.retireFrame_named (h : s.namedBy fid = some (i, e)) :
    ((s.retireFrame fid).bmOf i).state = 4 ∧ (s.retireFrame fid).frameOf fid = .retired := by
  unfold State.retireFrame
  extract_lets s0 tiers s1 k isl
  have hretired : s1.frameOf fid = .retired := (s.frameOf_setFrame fid .retired fid).trans (if_pos rfl)
  have hnamed : s1.namedBy fid = some (i, e) := h
  simp only [hnamed]
  have hinv := s1.invalidate_leaves i fid false false (by rw [hretired]; decide)
  have htiers := (State.only_report (s1.invalidate i false false) isl (if k < 4 then 5 else 6) 0 none (fid % 2 ^ 24)).tiers.resolve_left
    (by decide)
  exact ⟨by rw [State.bmOf, htiers]; exact hinv.1, by rw [State.frameOf, htiers]; exact hinv.2.trans hretired⟩

theorem State.retireFrame_resume (h : s.namedBy fid = some (i, e)) (ctx blk : Nat) :
    (((s.retireFrame fid).resumeBlock ctx blk).bmOf i).state = 4 ∧ ((s.retireFrame fid).resumeBlock ctx blk).frameOf fid = .retired := by
  have hret := State.retireFrame_named h
  simp only [State.bmOf, State.frameOf, State.resumeBlock_tiers]
  exact hret

/-! ### Patrol scrub -/

theorem patrolScrubRead_used (hused : s.frameOf fid = .used) :
    exec (.patrolScrubRead fid .clean) s = .next s ∧
    exec (.patrolScrubRead fid .corrected) s = .next (s.correctable (fidIsland fid) (corrClass fid) (fid % 2 ^ 24)) ∧
    (s.namedBy fid = some (i, e) →
      exec (.patrolScrubRead fid .uncorrectable) s = .next ((s.retireFrame fid).resumeBlock e.ctx e.block)) := by
  have hrow : ∀ err, exec (.patrolScrubRead fid err) s = execPatrolScrubRead fid err s := fun _ => rfl
  refine ⟨?_, ?_, fun hnamed => ?_⟩
  all_goals
    rw [hrow]
    unfold execPatrolScrubRead
    rw [if_neg (by simp [hused])]
  simp only [hnamed]

end

/-- Settles O18, row by row: a copy is `cellGet_cellCopy`, a retired frame `State.retireFrame_named`. -/
theorem framesAndBlocksMove : Obligations.FramesAndBlocksMove := by
  unfold Obligations.FramesAndBlocksMove
  intro s i fid e hwf he
  subst he
  refine ⟨fun _ => blockMapChangeDone_drops, frameRelease_queues, frameScrub_queued, fun _ => frameScrub_window, ?queued, ?hinted, ?clean, ?lost,
    ?patrol, ?overdue⟩
  case queued =>
    intro m g u hprep hm hbegun hkind hdue halloc hentry
    exact ⟨_, migrationStart_queued hprep hm hbegun hkind hdue halloc,
      (s.only_allocFor u _ _ _ _ halloc).trans ((u.only_setMig _ _).mono _ (by decide)), State.migOf_setMig .., hentry⟩
  case hinted =>
    intro tier g u hprep hm hwant halloc
    exact ⟨_, migrationStart_hinted hprep hm hwant halloc,
      (State.only_allocMigration halloc).trans ((u.only_setMig _ _).mono _ (by decide)), State.migOf_setMig ..⟩
  case clean =>
    intro m hprep hm hbegun hkind
    have hrow := (migrationDone_exec hprep hm hbegun hkind).1
    rw [State.switchEntry_local hkind] at hrow
    refine ⟨_, hrow, ((s.only_copied i m).mono _ (by decide)).trans ((State.only_resumeBlock ..).mono _ (by decide)), ?_⟩
    simp only [State.migOf, State.bmOf, State.resumeBlock_tiers]
    refine ⟨s.migOf_copied i m, s.bmOf_copied i m, fun a ha => ?_, fun a ha => ?_⟩
    · rw [s.cellGet_copied, if_pos (by omega)]
      congr 1
      omega
    · rw [s.cellGet_copied, if_neg (fun h => ha (block_range.1 h))]
  case lost =>
    intro m hprep hm hbegun hkind hnamed
    exact ⟨_, (migrationDone_exec hprep hm hbegun hkind).2, State.retireFrame_resume hnamed _ _⟩
  case patrol =>
    intro hused
    obtain ⟨hclean, hcorrected, hlost⟩ := patrolScrubRead_used (i := i) (e := s.bmOf i) hused
    exact ⟨hclean, hcorrected, fun hnamed => ⟨_, hlost hnamed, (State.retireFrame_resume hnamed _ _).symm⟩⟩
  case overdue =>
    intro island hisland
    exact congrArg Host.Outcome.next (if_pos (by simpa using hisland))

end Sys2Proof.Machine
end

section
/-! Packet frames for this device (R390, R392, R395 to R397): they reach the row of their type, and an answer touches the fabric alone. The rows
of MEM_READ and MEM_WRITE. -/
namespace Sys2Proof.Machine

/-! ### Packet frames -/

theorem State.ForUs.arrive {s : State} {port : Nat} {f : Frame} (h : s.ForUs port f) :
    s.arrive port f true = .deliver (s.received port f) := by
  obtain ⟨⟨husable, hseq, hclean⟩, hpacket, hdst⟩ := h
  unfold State.arrive
  extract_lets p s1 s2 c
  rw [if_neg (by simp [p, husable]), if_neg (by simp), if_neg (not_not.2 hseq), if_neg (by simp [hclean]), if_neg hpacket, if_pos (.inl hdst)]
  rfl

/-- A packet frame for this device is for the row of its type. -/
theorem State.ForUs.onFrame {s : State} {port : Nat} {f : Frame} (h : s.ForUs port f) {ty : Nat} (hty : f.ty = ty) (g : State → State) :
    s.onFrame port f true ty g = .next (g (s.received port f)) := by
  rw [State.onFrame, if_neg (not_not.2 hty), h.arrive]

theorem State.only_sendAnswer (s : State) (f : Frame) : s.Only [.fab] (s.sendAnswer f) := by
  unfold State.sendAnswer State.sendPacket
  cases s.pickCand f 0 with
  | none => exact State.Only.refl _ _
  | some p => exact s.only_sendOn p f

theorem State.sendAnswer_tiers (s : State) (f : Frame) : (s.sendAnswer f).tiers = s.tiers :=
  (s.only_sendAnswer f).tiers.resolve_left (by decide)

theorem State.only_memAnswer (s : State) (f : Frame) (ty : Nat) (more : List Word) (payload : List Byte) :
    s.Only [.fab] (s.memAnswer f ty more payload) := s.only_sendAnswer _

theorem State.memAnswer_tiers (s : State) (f : Frame) (ty : Nat) (more : List Word) (payload : List Byte) :
    (s.memAnswer f ty more payload).tiers = s.tiers := s.sendAnswer_tiers _

/-- What an answer makes of the fabric is a matter of the fabric. -/
theorem State.sendAnswer_fab {s t : State} (h : t.fab = s.fab) (f : Frame) : (t.sendAnswer f).fab = (s.sendAnswer f).fab := by
  unfold State.sendAnswer State.sendPacket
  rw [show t.pickCand f 0 = s.pickCand f 0 by simp only [State.pickCand, State.cands, State.routeList, State.portOf, h]]
  cases s.pickCand f 0 with
  | none => exact h
  | some p => simp [State.sendOn, State.modPort, h]

theorem State.memAnswer_fab {s t : State} (h : t.fab = s.fab) (f : Frame) (ty : Nat) (more : List Word) (payload : List Byte) :
    (t.memAnswer f ty more payload).fab = (s.memAnswer f ty more payload).fab := by
  unfold State.memAnswer
  rw [show ∀ tw, t.frame ty f.src tw payload = s.frame ty f.src tw payload from fun tw => by simp [State.frame, h]]
  exact State.sendAnswer_fab h _

/-! ### What the link layer leaves of the memories -/

section
variable (s : State) (port : Nat) (f : Frame)

@[simp] theorem State.received_tiers : (s.received port f).tiers = s.tiers := rfl
@[simp] theorem State.received_ctxs : (s.received port f).ctxs = s.ctxs := rfl
@[simp] theorem State.received_parts : (s.received port f).parts = s.parts := rfl
@[simp] theorem State.received_cmem : (s.received port f).cmem = s.cmem := rfl

theorem State.windowAt_received (k off : Nat) : (s.received port f).windowAt k off = s.windowAt k off := rfl

theorem State.fabricPlace_received (a : Nat) : (s.received port f).fabricPlace a = s.fabricPlace a := by
  unfold State.fabricPlace
  extract_lets off
  rw [State.windowAt_received]

theorem State.fabricPlaces_received (a n : Nat) : (s.received port f).fabricPlaces a n = s.fabricPlaces a n := by
  simp only [State.fabricPlaces, State.fabricPlace_received]

theorem State.clusterOwner_received (cl : Nat) : (s.received port f).clusterOwner cl = s.clusterOwner cl := rfl

theorem State.granted_received (chip part w : Nat) : (s.received port f).granted chip part w = s.granted chip part w := rfl

theorem State.namedBy_received (fid : Nat) : (s.received port f).namedBy fid = s.namedBy fid := rfl

theorem State.placeRefusal_received (g : Frame) (ps : List Nat) (p : FabricPlace) :
    (s.received port f).placeRefusal g ps p = s.placeRefusal g ps p := by
  cases p <;> rfl

theorem State.jobParts_received (id chip : Nat) : (s.received port f).jobParts id chip = s.jobParts id chip := rfl

theorem State.memRefusal_received (g : Frame) : (s.received port f).memRefusal g = s.memRefusal g := by
  simp only [State.memRefusal, State.fabricPlaces_received, State.jobParts_received, State.placeRefusal_received]

theorem State.cmemKey_received (cl off : Nat) : (s.received port f).cmemKey cl off = s.cmemKey cl off := by
  simp only [State.cmemKey, State.allLayouts, State.received_ctxs]

end

/-! ### MEM_READ and MEM_WRITE -/

section
variable {s : State} {port n : Nat} {f : Frame}

theorem memRead_refused (h : s.ForUs port f) (hty : f.ty = 0x20) (err : ReadErr) {r : Nat} (hr : s.memRefusal f = some r) :
    exec (.memRead port f true err) s = .next ((s.received port f).memAnswer f 0x24 [w32 r] []) := by
  change execMemRead port f true err s = _
  unfold execMemRead
  rw [h.onFrame hty, s.memRefusal_received, hr]

/-- A good read is answered with the bytes it finds. -/
theorem memRead_clean (h : s.ForUs port f) (hty : f.ty = 0x20) (hr : s.memRefusal f = none) {bs : List Byte} {t : State}
    (hread : (s.received port f).fabricRead (s.fabricPlaces f.addr (f.tf 3 8 0)) = (bs, t)) :
    exec (.memRead port f true .clean) s = .next (t.memAnswer f 0x22 [] (padTo (roundUp bs.length 4) bs)) := by
  change execMemRead port f true .clean s = _
  unfold execMemRead
  rw [h.onFrame hty, s.memRefusal_received, hr]
  rw [s.fabricPlaces_received, hread]
  generalize (s.received port f).fabricPlace f.addr = place
  cases place <;> rfl

/-- The places of a request within one frame of memory. -/
theorem State.fabricPlaces_window {a w off n : Nat} (hp : s.fabricPlace a = .window w off) (hn : off + n ≤ blockBytes) :
    s.fabricPlaces a n = [(.window w off, n)] := by
  simp only [State.fabricPlaces, hp]
  rw [if_pos (by omega)]

theorem State.fabricPlaces_near {a fid off n : Nat} (hp : s.fabricPlace a = .near fid off) (hn : off + n ≤ blockBytes) :
    s.fabricPlaces a n = [(.near fid off, n)] := by
  simp only [State.fabricPlaces, hp]
  rw [if_pos (by omega)]

theorem State.fabricPlaces_cluster {a cl off n : Nat} (hp : s.fabricPlace a = .cluster cl off) (hn : off + n ≤ 2 ^ 24) :
    s.fabricPlaces a n = [(.cluster cl off, n)] := by
  simp only [State.fabricPlaces, hp]
  rw [if_pos (by omega)]

/-- A request that runs on into the next window frame lies in two places. -/
theorem State.fabricPlaces_windows {a w off w2 off2 m n : Nat} (hp : s.fabricPlace a = .window w off) (hm : m = blockBytes - off)
    (hn : m < n) (hp2 : s.fabricPlace (a + m) = .window w2 off2) :
    s.fabricPlaces a n = [(.window w off, m), (.window w2 off2, n - m)] := by
  subst hm
  simp only [State.fabricPlaces, hp]
  rw [if_neg (by omega), hp2]

/-- A good read of one window frame. -/
theorem memRead_window (h : s.ForUs port f) (hn : n = f.tf 3 8 0) (hty : f.ty = 0x20) {w off : Nat} (hr : s.memRefusal f = none)
    (hp : s.fabricPlace f.addr = .window w off) (hfit : off + n ≤ blockBytes) :
    exec (.memRead port f true .clean) s = .next ((s.received port f).memAnswer f 0x22 []
      (padTo (roundUp n 4) (cellRead s.tiers.mem (windowFid w * blockBytes + off) n))) := by
  subst hn
  have he := memRead_clean h hty hr (bs := cellRead s.tiers.mem (windowFid w * blockBytes + off) (f.tf 3 8 0)) (t := s.received port f)
    (by rw [State.fabricPlaces_window hp hfit]; rfl)
  rwa [show (cellRead s.tiers.mem (windowFid w * blockBytes + off) (f.tf 3 8 0)).length = f.tf 3 8 0 by simp [cellRead]] at he

theorem memRead_near (h : s.ForUs port f) (hn : n = f.tf 3 8 0) (hty : f.ty = 0x20) {fid off : Nat} (hr : s.memRefusal f = none)
    (hp : s.fabricPlace f.addr = .near fid off) (hfit : off + n ≤ blockBytes) :
    exec (.memRead port f true .clean) s = .next ((s.received port f).memAnswer f 0x22 []
      (padTo (roundUp n 4) (cellRead s.tiers.mem (fid * blockBytes + off) n))) := by
  subst hn
  have he := memRead_clean h hty hr (bs := cellRead s.tiers.mem (fid * blockBytes + off) (f.tf 3 8 0)) (t := s.received port f)
    (by rw [State.fabricPlaces_near hp hfit]; rfl)
  rwa [show (cellRead s.tiers.mem (fid * blockBytes + off) (f.tf 3 8 0)).length = f.tf 3 8 0 by simp [cellRead]] at he

/-- A good read that runs on into the next window frame. -/
theorem memRead_windows (h : s.ForUs port f) (hn : n = f.tf 3 8 0) (hty : f.ty = 0x20) {w off w2 off2 m : Nat} (hr : s.memRefusal f = none)
    (hp : s.fabricPlace f.addr = .window w off) (hm : m = blockBytes - off) (hlt : m < n)
    (hp2 : s.fabricPlace (f.addr + m) = .window w2 off2) :
    exec (.memRead port f true .clean) s = .next ((s.received port f).memAnswer f 0x22 []
      (padTo (roundUp n 4) (cellRead s.tiers.mem (windowFid w * blockBytes + off) m ++
        cellRead s.tiers.mem (windowFid w2 * blockBytes + off2) (n - m)))) := by
  subst hn
  have he := memRead_clean h hty hr (bs := cellRead s.tiers.mem (windowFid w * blockBytes + off) m ++
      cellRead s.tiers.mem (windowFid w2 * blockBytes + off2) (f.tf 3 8 0 - m)) (t := s.received port f)
    (by rw [State.fabricPlaces_windows hp hm hlt hp2]; rfl)
  rwa [show (cellRead s.tiers.mem (windowFid w * blockBytes + off) m ++
    cellRead s.tiers.mem (windowFid w2 * blockBytes + off2) (f.tf 3 8 0 - m)).length = f.tf 3 8 0 by simp [cellRead]; omega] at he

/-- A good read of cluster memory all of whose bytes have a place takes free values, and needs none. -/
theorem memRead_cluster (h : s.ForUs port f) (hn : n = f.tf 3 8 0) (hty : f.ty = 0x20) {cl off : Nat} (hr : s.memRefusal f = none)
    (hp : s.fabricPlace f.addr = .cluster cl off) (hfit : off + n ≤ 2 ^ 24) (hkeys : ∀ i, i < n → (s.cmemKey cl (off + i)).isSome = true) :
    Answers (.memRead port f true .clean) s [.fab, .free] (fun t => t.fab = ((s.received port f).memAnswer f 0x22 []
      (padTo (roundUp n 4) ((List.range n).map (fun i => cellGet s.cmem ((s.cmemKey cl (off + i)).getD 0))))).fab) := by
  subst hn
  have hbytes : (List.range (f.tf 3 8 0)).map (fun i => match (s.received port f).cmemKey cl (off + i) with
        | some k => cellGet s.cmem k
        | none => BitVec.ofNat 8 (Config.freeValue (s.free + i))) =
      (List.range (f.tf 3 8 0)).map (fun i => cellGet s.cmem ((s.cmemKey cl (off + i)).getD 0)) := by
    refine List.map_congr_left (fun i hi => ?_)
    obtain ⟨k, hk⟩ := Option.isSome_iff_exists.1 (hkeys i (List.mem_range.1 hi))
    rw [s.cmemKey_received, hk]
    rfl
  have he := memRead_clean h hty hr (bs := (List.range (f.tf 3 8 0)).map (fun i => cellGet s.cmem ((s.cmemKey cl (off + i)).getD 0)))
    (t := (s.received port f).freeNext (f.tf 3 8 0)) (by rw [State.fabricPlaces_cluster hp hfit, ← hbytes]; rfl)
  rw [List.length_map, List.length_range] at he
  refine ⟨_, he, ?_, State.memAnswer_fab (s := s.received port f) (t := (s.received port f).freeNext (f.tf 3 8 0)) rfl ..⟩
  exact (((s.only_received port f).mono _ (by decide)).trans ((State.only_freeNext _ _).mono _ (by decide))).trans
    ((State.only_memAnswer ..).mono _ (by decide))

theorem memWrite_refused (h : s.ForUs port f) (hty : f.ty = 0x21) {r : Nat} (hr : s.memRefusal f = some r) :
    exec (.memWrite port f true) s = .next ((s.received port f).memAnswer f 0x24 [w32 r] []) := by
  change execMemWrite port f true s = _
  unfold execMemWrite
  rw [h.onFrame hty, s.memRefusal_received, hr]

/-- A good write within a window frame or a near frame. -/
theorem memWrite_stores (h : s.ForUs port f) (hn : n = f.tf 3 8 0) (hty : f.ty = 0x21) {fid off : Nat} (hr : s.memRefusal f = none)
    (hlen : n ≤ f.payload.length) (hfit : off + n ≤ blockBytes)
    (hp : s.fabricPlace f.addr = .near fid off ∨ ∃ w, s.fabricPlace f.addr = .window w off ∧ fid = windowFid w) :
    exec (.memWrite port f true) s = .next (State.memAnswer { s.received port f with tiers := { s.tiers with
      mem := cellWrite s.tiers.mem (fid * blockBytes + off) (f.payload.take n) } } f 0x23 [] []) := by
  subst hn
  have hall : (f.payload.take (f.tf 3 8 0)).take (f.tf 3 8 0) = f.payload.take (f.tf 3 8 0) := by rw [List.take_take, Nat.min_self]
  have hwrite : (s.received port f).fabricWrite (s.fabricPlaces f.addr (f.tf 3 8 0)) (f.payload.take (f.tf 3 8 0)) =
      { s.received port f with tiers := { s.tiers with
        mem := cellWrite s.tiers.mem (fid * blockBytes + off) (f.payload.take (f.tf 3 8 0)) } } := by
    rcases hp with hp | ⟨w, hp, rfl⟩
    · rw [State.fabricPlaces_near hp hfit, State.fabricWrite, List.foldl_cons, List.foldl_nil, hall]
      rfl
    · rw [State.fabricPlaces_window hp hfit, State.fabricWrite, List.foldl_cons, List.foldl_nil, hall]
      rfl
  change execMemWrite port f true s = _
  unfold execMemWrite
  rw [h.onFrame hty, s.memRefusal_received, hr]
  dsimp only
  rw [if_neg (by omega), s.fabricPlaces_received, hwrite]

theorem memWrite_answers (h : s.ForUs port f) (hn : n = f.tf 3 8 0) (hty : f.ty = 0x21) {fid off : Nat} (hr : s.memRefusal f = none)
    (hlen : n ≤ f.payload.length) (hfit : off + n ≤ blockBytes)
    (hp : s.fabricPlace f.addr = .near fid off ∨ ∃ w, s.fabricPlace f.addr = .window w off ∧ fid = windowFid w) :
    Answers (.memWrite port f true) s [.fab, .tiers] (fun t => t.fab = ((s.received port f).memAnswer f 0x23 [] []).fab ∧
      t.tiers.bm = s.tiers.bm ∧
      (∀ i, i < n → cellGet t.tiers.mem (fid * blockBytes + off + i) = f.payload.getD i 0) ∧
      ∀ a, (a < fid * blockBytes + off ∨ fid * blockBytes + off + n ≤ a) → cellGet t.tiers.mem a = cellGet s.tiers.mem a) := by
  set u : State := { s.received port f with tiers := { s.tiers with
    mem := cellWrite s.tiers.mem (fid * blockBytes + off) (f.payload.take n) } } with hu
  have htake : (f.payload.take n).length = n := by rw [List.length_take, Nat.min_eq_left hlen]
  have hmem : ∀ a, cellGet u.tiers.mem a = if fid * blockBytes + off ≤ a ∧ a < fid * blockBytes + off + n then
      (f.payload.take n).getD (a - (fid * blockBytes + off)) 0 else cellGet s.tiers.mem a := fun a => by
    rw [← htake]
    simp only [htake]
    rw [hu]
    have hget := cellGet_cellWrite s.tiers.mem (fid * blockBytes + off) a (f.payload.take n)
    rwa [htake] at hget
  refine ⟨_, memWrite_stores h hn hty hr hlen hfit hp, ?_, State.memAnswer_fab (s := s.received port f) (t := u) rfl .., ?_⟩
  · exact (((s.only_received port f).mono _ (by decide)).trans ((State.only_set_tiers _ _).mono _ (by decide))).trans
      ((State.only_memAnswer ..).mono _ (by decide))
  · rw [State.memAnswer_tiers]
    refine ⟨rfl, fun i hi => ?_, fun a ha => ?_⟩
    · rw [hmem, if_pos (by omega), Nat.add_sub_cancel_left, List.getD_eq_getElem?_getD, List.getD_eq_getElem?_getD, List.getElem?_take,
        if_pos hi]
    · rw [hmem, if_neg (by omega)]

end

end Sys2Proof.Machine
end

section
/-! What an answer to one of this device's own requests does (R279, R285, R401), an UNREACHABLE (R402), and O22. -/
namespace Sys2Proof.Machine

/-! ### Answers to requests -/

theorem padTo_length (n : Nat) (bs : List Byte) : (padTo n bs).length = n := by
  rw [padTo, List.length_append, List.length_take, List.length_replicate]
  omega

theorem padTo_getD (n : Nat) (bs : List Byte) {i : Nat} (hi : i < n) : (padTo n bs).getD i 0 = bs.getD i 0 := by
  simp only [padTo, List.getD_eq_getElem?_getD, List.getElem?_append, List.length_take, List.getElem?_take, List.getElem?_replicate, if_pos hi]
  split
  · rfl
  · rw [List.getElem?_eq_none (by omega)]
    split <;> rfl

theorem State.only_dropReq (s : State) (r : PeerReq) : s.Only [.fab] (s.dropReq r) := State.only_set_fab ..

/-- What an entry made INVALID holds. -/
theorem State.bmOf_invalidate (s : State) (i : Nat) (recalled release : Bool) :
    (s.invalidate i recalled release).bmOf i = { s.bmOf i with state := 4, recalled := recalled, loc := 0, chip := 0, tier := 1 } := by
  unfold State.invalidate
  extract_lets e mig peer s1 s2
  have hs2 : s2.bmOf i = s1.bmOf i := by
    simp only [s2]
    clear_value mig
    cases mig with
    | none => rfl
    | some m =>
      dsimp only
      split
      · exact State.bmOf_dropFrame ..
      · rfl
  exact hs2.trans (State.bmOf_bmChange_self ..)

theorem State.only_invalidate (s : State) (i : Nat) (recalled release : Bool) : s.Only [.tiers] (s.invalidate i recalled release) := by
  unfold State.invalidate
  extract_lets e mig peer s1 s2
  have hs2 : s1.Only [.tiers] s2 := by
    simp only [s2]
    clear_value mig
    cases mig with
    | none => exact State.Only.refl _ _
    | some m =>
      dsimp only
      split
      · exact s1.only_dropFrame _
      · exact State.Only.refl _ _
  exact ((s.only_bmChange i _ none peer).trans hs2).trans (State.only_set_tiers ..)

theorem State.ctxLive_remark (s : State) (key c : Nat) : (s.remark key).ctxLive c = s.ctxLive c := by
  unfold State.remark
  split
  next => rfl
  next v _ =>
    split
    next => rfl
    next =>
      dsimp only
      split
      · rw [State.ctxLive, State.ctxOf_modCtx]
        split
        next h => subst h; rfl
        next => rfl
      · rfl

theorem State.ctxLive_resumeBlock (s : State) (ctx blk c : Nat) : (s.resumeBlock ctx blk).ctxLive c = s.ctxLive c := by
  have hfold : ∀ (ps : List (Nat × Slot)) (u : State), (ps.foldl (fun t p => t.resumeSlot p.1) u).ctxLive c = u.ctxLive c := by
    intro ps
    induction ps with
    | nil => exact fun _ => rfl
    | cons p ps ih => exact fun u => (ih _).trans (State.ctxLive_remark ..)
  exact hfold _ s

section
variable {s : State} {port : Nat} {f : Frame} {r : PeerReq}

theorem memData_arrives (h : s.ForUs port f) (hreq : s.reqOf f = some r) (hty : f.ty = 0x22) (hlive : s.reqLive r = true) :
    Answers (.memData port f true) s [.fab, .tiers] (fun t => t.fab.reqs = s.fab.reqs.erase r ∧
      t.tiers.peerGot = s.tiers.peerGot ++ [(r.entry, r.chunk)] ∧ t.tiers.mem = s.tiers.mem ∧
      ∀ i, i < 256 → cellGet t.tiers.peerBuf (r.entry * blockBytes + 256 * r.chunk + i) = f.payload.getD i 0) := by
  have hreq' : (s.received port f).reqOf f = some r := hreq
  have hlive' : ((s.received port f).dropReq r).reqLive r = true := hlive
  have hrow : exec (.memData port f true) s = execMemData port f true s := rfl
  unfold execMemData at hrow
  rw [h.onFrame hty, hreq'] at hrow
  refine ⟨_, hrow.trans (congrArg _ (if_pos hlive')), ?_, rfl, rfl, rfl, fun i hi => ?_⟩
  · exact (((s.only_received port f).mono _ (by decide)).trans ((State.only_dropReq _ _).mono _ (by decide))).trans
      ((State.only_set_tiers _ _).mono _ (by decide))
  · refine (cellGet_cellWrite ..).trans ?_
    rw [padTo_length, if_pos (by omega), Nat.add_sub_cancel_left, padTo_getD _ _ hi]

theorem memDone_ends (h : s.ForUs port f) (hreq : s.reqOf f = some r) (hty : f.ty = 0x23) :
    Answers (.memDone port f true) s [.fab] (fun t => t.fab.reqs = s.fab.reqs.erase r) := by
  have hreq' : (s.received port f).reqOf f = some r := hreq
  have hrow : exec (.memDone port f true) s = execMemDone port f true s := rfl
  unfold execMemDone at hrow
  rw [h.onFrame hty, hreq'] at hrow
  exact ⟨_, hrow, (s.only_received port f).trans (State.only_dropReq ..), rfl⟩

/-- The state a refusal leaves before a teardown: the request is gone, its entry INVALID, and the streams halted on the block resume. -/
def State.refusedHere (s : State) (port : Nat) (f : Frame) (r : PeerReq) : State :=
  let t := (s.received port f).dropReq r
  (t.invalidate r.entry (!decide (f.tf 3 1 0 = 1)) (decide (f.tf 3 1 0 = 1))).resumeBlock (s.bmOf r.entry).ctx (s.bmOf r.entry).block

theorem memRefused_row (h : s.ForUs port f) (hreq : s.reqOf f = some r) (hty : f.ty = 0x24) (hlive : s.reqLive r = true) :
    exec (.memRefused port f true) s = .next (if f.tf 3 1 0 = 1 ∧ !(s.migOf r.entry).isSome then
      (s.refusedHere port f r).teardown r.ctx ⟨St.bulkUncorrectable, ((s.bmOf r.entry).block * blockBytes + 256 * r.chunk) % 2 ^ 32,
        ((s.bmOf r.entry).block * blockBytes + 256 * r.chunk) / 2 ^ 32⟩ hitRunning else s.refusedHere port f r) := by
  have hreq' : (s.received port f).reqOf f = some r := hreq
  have hlive' : ¬ (!((s.received port f).dropReq r).reqLive r) = true := by
    rw [show ((s.received port f).dropReq r).reqLive r = true from hlive]
    decide
  have hrow : exec (.memRefused port f true) s = execMemRefused port f true s := rfl
  unfold execMemRefused at hrow
  rw [h.onFrame hty, hreq'] at hrow
  exact hrow.trans (congrArg _ ((if_neg hlive').trans rfl))

theorem memRefused_tears (h : s.ForUs port f) (hreq : s.reqOf f = some r) (hty : f.ty = 0x24) (hlive : s.reqLive r = true)
    (hunc : f.tf 3 1 0 = 1) (hhome : (s.migOf r.entry).isNone = true) (hctx : s.ctxLive r.ctx = true) :
    ∃ t, exec (.memRefused port f true) s = .next t ∧ t.Torn r.ctx := by
  refine ⟨_, (memRefused_row h hreq hty hlive).trans (congrArg _ (if_pos ⟨hunc, ?hhome⟩)), State.teardown_torn _ _ _ _ ?hlive⟩
  case hhome =>
    rw [Option.isNone_iff_eq_none.1 hhome]
    rfl
  case hlive =>
    have hctxs : ∀ u : State, u.ctxs = s.ctxs → u.ctxLive r.ctx = true := fun u hu => by rw [State.ctxLive, State.ctxOf, hu]; exact hctx
    rw [State.refusedHere, State.ctxLive_resumeBlock]
    exact hctxs _ ((State.only_invalidate ..).ctxs.resolve_left (by decide))

theorem memRefused_recalls (h : s.ForUs port f) (hreq : s.reqOf f = some r) (hty : f.ty = 0x24) (hlive : s.reqLive r = true)
    (hunc : f.tf 3 1 0 ≠ 1) :
    Answers (.memRefused port f true) s [.fab, .tiers, .slots, .ctxs] (fun t =>
      t.fab.reqs = s.fab.reqs.erase r ∧ (t.bmOf r.entry).state = 4 ∧ (t.bmOf r.entry).recalled = true) := by
  have hinv := State.only_invalidate ((s.received port f).dropReq r) r.entry (!decide (f.tf 3 1 0 = 1)) (decide (f.tf 3 1 0 = 1))
  have hres := State.only_resumeBlock (((s.received port f).dropReq r).invalidate r.entry (!decide (f.tf 3 1 0 = 1)) (decide (f.tf 3 1 0 = 1)))
    (s.bmOf r.entry).ctx (s.bmOf r.entry).block
  have hentry : (s.refusedHere port f r).bmOf r.entry =
      { s.bmOf r.entry with state := 4, recalled := !decide (f.tf 3 1 0 = 1), loc := 0, chip := 0, tier := 1 } := by
    rw [State.refusedHere, State.bmOf, State.resumeBlock_tiers]
    exact State.bmOf_invalidate ..
  refine ⟨_, (memRefused_row h hreq hty hlive).trans (congrArg _ (if_neg (fun hc => hunc hc.1))), ?_, ?_, ?_, ?_⟩
  · exact ((((s.only_received port f).mono _ (by decide)).trans ((State.only_dropReq _ _).mono _ (by decide))).trans
      (hinv.mono _ (by decide))).trans (hres.mono _ (by decide))
  · rw [State.refusedHere, hres.fab.resolve_left (by decide), hinv.fab.resolve_left (by decide)]
    rfl
  · rw [hentry]
  · rw [hentry]
    simp [hunc]

end

/-! ### UNREACHABLE -/

theorem nbit_eq_bits_testBit (n hi lo i : Nat) (h : i < hi - lo + 1) : (bits n hi lo).testBit i = nbit n (lo + i) := by
  rw [bits, Nat.testBit_mod_two_pow, Nat.testBit_div_two_pow, decide_eq_true h, Bool.true_and, nbit_eq_testBit, Nat.add_comm]

/-- Fields that no changed bit stands in. -/
theorem bits_congr {m n hi lo : Nat} (h : ∀ b, lo ≤ b → b ≤ hi ∨ b = lo → nbit m b = nbit n b) : bits m hi lo = bits n hi lo := by
  refine Nat.eq_of_testBit_eq (fun i => ?_)
  by_cases hi' : i < hi - lo + 1
  · rw [nbit_eq_bits_testBit _ _ _ _ hi', nbit_eq_bits_testBit _ _ _ _ hi', h _ (by omega) (by omega)]
  · simp only [bits, Nat.testBit_mod_two_pow, hi', decide_false, Bool.false_and]

/-- A route's entry with list positions marked DEAD. -/
def markDead (ps : List (Nat × Nat)) (e : Nat) : Nat := ps.foldl (fun a p => setBits a (23 + p.1) (23 + p.1) 1) e

theorem nbit_markDead (ps : List (Nat × Nat)) (e b : Nat) : nbit (markDead ps e) b = (ps.any (fun p => b = 23 + p.1) || nbit e b) := by
  induction ps generalizing e with
  | nil => rfl
  | cons p ps ih =>
    rw [markDead, List.foldl_cons, ← markDead, ih, nbit_setBits _ _ _ _ (by decide), List.any_cons]
    by_cases hb : b = 23 + p.1
    · simp [hb]
    · simp [hb]

/-- DEAD marks stand above the list of ports. -/
theorem bits_markDead (ps : List (Nat × Nat)) (e hi lo : Nat) (hlo : lo ≤ 22) (hhi : hi ≤ 22) : bits (markDead ps e) hi lo = bits e hi lo :=
  bits_congr (fun b _ _ => by
    rw [nbit_markDead, List.any_eq_false.2 (fun p _ => by simp only [decide_eq_true_eq]; omega), Bool.false_or])

/-- The ports an entry lists. -/
def listedPorts (e : Nat) : List (Nat × Nat) :=
  if bits e 0 0 = 0 then [] else (List.range (bits e 2 1 + 1)).map (fun i => (i, bits e (7 + 5 * i) (3 + 5 * i)))

theorem State.routeList_eq (s : State) (x : Nat) : s.routeList x = listedPorts (tget 0 s.fab.routes x) := rfl

theorem mem_listedPorts {e : Nat} {p : Nat × Nat} (h : p ∈ listedPorts e) :
    p.1 ≤ 3 ∧ p.2 = bits e (7 + 5 * p.1) (3 + 5 * p.1) := by
  unfold listedPorts at h
  split at h
  · cases h
  · obtain ⟨i, hi, rfl⟩ := List.mem_map.1 h
    have hcount : bits e 2 1 < 4 := Nat.mod_lt _ (by decide)
    have hlt := List.mem_range.1 hi
    exact ⟨by dsimp only; omega, rfl⟩

theorem listedPorts_markDead (ps : List (Nat × Nat)) (e : Nat) : listedPorts (markDead ps e) = listedPorts e := by
  have hcount : bits e 2 1 < 4 := Nat.mod_lt _ (by decide)
  simp only [listedPorts, bits_markDead ps e 0 0 (by decide) (by decide), bits_markDead ps e 2 1 (by decide) (by decide)]
  refine congrArg (fun l => if bits e 0 0 = 0 then [] else l) (List.map_congr_left (fun i hi => ?_))
  have hlt := List.mem_range.1 hi
  rw [bits_markDead ps e _ _ (by omega) (by omega)]

/-- Two listed ports at the same position are the same. -/
theorem listedPorts_position {e : Nat} {p q : Nat × Nat} (hp : p ∈ listedPorts e) (hq : q ∈ listedPorts e) (h : p.1 = q.1) : p.2 = q.2 := by
  rw [(mem_listedPorts hp).2, (mem_listedPorts hq).2, h]

theorem State.mem_cands {s : State} {x c : Nat} : c ∈ s.cands x ↔
    ∃ p ∈ s.routeList x, (s.portOf p.2).mappedOut = false ∧ nbit (tget 0 s.fab.routes x) (23 + p.1) = false ∧ p.2 = c := by
  simp only [State.cands, List.mem_map, List.mem_filter, Bool.and_eq_true, Bool.not_eq_true', and_assoc]

/-- The state with a port marked DEAD in a chip's route. -/
def State.deadRoute (s : State) (x port : Nat) : State :=
  { s with fab := { s.fab with routes := tmod 0 s.fab.routes x (markDead ((s.routeList x).filter (fun p => p.2 = port))) } }

theorem State.deadRoute_route (s : State) (x port y : Nat) : tget 0 (s.deadRoute x port).fab.routes y =
    if y = x then markDead ((s.routeList x).filter (fun p => p.2 = port)) (tget 0 s.fab.routes x) else tget 0 s.fab.routes y := tget_tmod ..

theorem State.routeList_deadRoute (s : State) (x port y : Nat) : (s.deadRoute x port).routeList y = s.routeList y := by
  rw [State.routeList_eq, State.routeList_eq, State.deadRoute_route]
  split
  next h => rw [h, listedPorts_markDead]
  next => rfl

theorem State.cands_deadRoute_ne (s : State) {x port y : Nat} (h : y ≠ x) : (s.deadRoute x port).cands y = s.cands y := by
  simp only [State.cands, State.routeList_deadRoute, State.deadRoute_route, if_neg h]
  rfl

/-- The candidates that stay are those on other ports. -/
theorem State.mem_cands_deadRoute (s : State) (x port c : Nat) : c ∈ (s.deadRoute x port).cands x ↔ c ∈ s.cands x ∧ c ≠ port := by
  have hmark : ∀ p ∈ s.routeList x, nbit (tget 0 (s.deadRoute x port).fab.routes x) (23 + p.1) =
      (decide (p.2 = port) || nbit (tget 0 s.fab.routes x) (23 + p.1)) := fun p hp => by
    rw [State.deadRoute_route, if_pos rfl, nbit_markDead]
    congr 1
    rw [Bool.eq_iff_iff, List.any_eq_true, decide_eq_true_eq]
    constructor
    · rintro ⟨q, hq, hpos⟩
      obtain ⟨hlisted, hport⟩ := List.mem_filter.1 hq
      rw [listedPorts_position hp hlisted (by simpa using hpos), of_decide_eq_true hport]
    · exact fun hport => ⟨p, List.mem_filter.2 ⟨hp, decide_eq_true hport⟩, decide_eq_true rfl⟩
  rw [State.mem_cands, State.mem_cands, State.routeList_deadRoute]
  constructor
  · rintro ⟨p, hp, hmapped, hbit, rfl⟩
    rw [hmark p hp, Bool.or_eq_false_iff] at hbit
    exact ⟨⟨p, hp, hmapped, hbit.2, rfl⟩, of_decide_eq_false hbit.1⟩
  · rintro ⟨⟨p, hp, hmapped, hbit, rfl⟩, hne⟩
    exact ⟨p, hp, hmapped, by rw [hmark p hp, hbit, decide_eq_false hne]; rfl, rfl⟩

theorem State.unreach_deadRoute_ne (s : State) {x port y : Nat} (h : y ≠ x) : (s.deadRoute x port).unreach y = s.unreach y := by
  simp only [State.unreach, State.routeValid, State.cands_deadRoute_ne s h, State.deadRoute_route, if_neg h]

/-- With another candidate left no chip becomes unreachable. -/
theorem State.newlyLost_deadRoute {s : State} {x port c : Nat} (hc : c ∈ s.cands x) (hne : c ≠ port) :
    s.newlyLost (s.deadRoute x port) = [] := by
  refine List.filter_eq_nil_iff.2 (fun y _ => ?_)
  by_cases h : y = x
  · subst h
    have hstays : ((s.deadRoute y port).cands y).isEmpty = false :=
      List.isEmpty_eq_false_iff.2 (List.ne_nil_of_mem ((s.mem_cands_deadRoute y port c).2 ⟨hc, hne⟩))
    simp [State.unreach, hstays]
  · simp [s.unreach_deadRoute_ne h]

theorem unreachable_marks {s : State} {port : Nat} {f : Frame} (h : s.ForUs port f) {x : Nat} {p : Nat × Nat} (hty : f.ty = 0x25)
    (hx : x = f.tf 0 13 0) (hp : p ∈ s.routeList x) (hport : p.2 = port) (hother : ∃ c ∈ s.cands x, c ≠ port)
    (hreqs : ∀ r ∈ s.fab.reqs, ¬(r.chip = x ∧ r.port = port)) :
    Answers (.unreachable port f true) s [.fab] (fun t => nbit (tget 0 t.fab.routes x) (23 + p.1) = true ∧ port ∉ t.cands x ∧
      ∀ y, y ≠ x → tget 0 t.fab.routes y = tget 0 s.fab.routes y) := by
  subst hx
  obtain ⟨c, hc, hne⟩ := hother
  set u := s.received port f with hu
  have hrow : exec (.unreachable port f true) s = execUnreachable port f true s := rfl
  unfold execUnreachable at hrow
  rw [h.onFrame hty] at hrow
  have hmine : (u.deadRoute (f.tf 0 13 0) port).fab.reqs.filter (fun r => r.chip = f.tf 0 13 0 && r.port = port) = [] :=
    List.filter_eq_nil_iff.2 (fun r hr => by simpa using hreqs r hr)
  have hafter : (u.deadRoute (f.tf 0 13 0) port).afterRoutes u = u.deadRoute (f.tf 0 13 0) port := by
    rw [State.afterRoutes, State.newlyLost_deadRoute (by rwa [hu, State.cands_received]) hne]
    rfl
  refine ⟨u.deadRoute (f.tf 0 13 0) port, hrow.trans (congrArg _ ?_), ?_, ?_, ?_, fun y hy => ?_⟩
  · exact (congrArg (List.foldl _ _) hmine).trans hafter
  · exact (s.only_received port f).trans (State.only_set_fab ..)
  · rw [State.deadRoute_route, if_pos rfl, nbit_markDead, Bool.or_eq_true]
    exact .inl (List.any_eq_true.2 ⟨p, List.mem_filter.2 ⟨hp, decide_eq_true hport⟩, decide_eq_true rfl⟩)
  · exact fun hmem => ((u.mem_cands_deadRoute _ _ _).1 hmem).2 rfl
  · rw [State.deadRoute_route, if_neg hy]
    rfl

/-! ### O22 -/

/-- Settles O22: requests refused and served, row by row, then the answers to this device's requests, then UNREACHABLE. -/
theorem memoryFramesAnswer : Obligations.MemoryFramesAnswer := by
  unfold Obligations.MemoryFramesAnswer
  intro s port f n h hn
  refine ⟨fun hty => ⟨fun err r => memRead_refused h hty err, fun w off => memRead_window h hn hty, fun fid off => memRead_near h hn hty,
      fun w off w2 off2 m hr hp hm _ hlt hp2 => memRead_windows h hn hty hr hp hm hlt hp2, fun cl off => memRead_cluster h hn hty⟩,
    fun hty => ⟨fun r => memWrite_refused h hty, fun fid off hr hlen hfit _ hp => memWrite_answers h hn hty hr hlen hfit hp⟩,
    fun r hreq => ⟨fun hty hlive _ => memData_arrives h hreq hty hlive, memDone_ends h hreq,
      fun hty hlive => ⟨memRefused_tears h hreq hty hlive, memRefused_recalls h hreq hty hlive⟩⟩,
    fun x p hty hx hp hport hother hreqs => unreachable_marks h hty hx hp hport hother hreqs⟩

end Sys2Proof.Machine
end

section
/-! The messages of lending between devices (R277 to R281; the layout of their payload is log entry 12), and O27. -/
namespace Sys2Proof.Machine

/-! ### CONTROL frames -/

theorem State.ForUs.onControl {s : State} {port : Nat} {f : Frame} (h : s.ForUs port f) (hty : f.ty = 0x38) {sub : Nat}
    (hsub : f.tf 0 7 0 = sub) (g : State → Nat → Nat → Nat → State) : s.onControl port f true sub g =
      .next (g (s.received port f) (wnat (Frame.words f) 0 % 64) (wnat (Frame.words f) 1) (wnat (Frame.words f) 2)) := by
  unfold State.onControl
  extract_lets ws
  rw [if_pos hsub, h.onFrame hty]

/-! ### LEND_REQUEST -/

/-- The frame a request of `count` window frames is granted at. -/
def State.lendPlace (s : State) (count : Nat) : Option Nat :=
  if count = 0 ∨ s.tiers.lendW < count then none
  else firstBelow (s.tiers.lendW - count + 1) (fun a => (List.range count).all (fun i => s.lendable (a + i)))

theorem State.lendable_received (s : State) (port : Nat) (f : Frame) (w : Nat) : (s.received port f).lendable w = s.lendable w := rfl

theorem State.lendPlace_some {s : State} {a count : Nat} (hcount : 1 ≤ count) (hfit : a + count ≤ s.tiers.lendW)
    (hfree : ∀ i, i < count → s.lendable (a + i) = true) (hlow : ∀ b, b < a → ∃ i, i < count ∧ s.lendable (b + i) = false) :
    s.lendPlace count = some a := by
  rw [State.lendPlace, if_neg (by omega), firstBelow, List.find?_range_eq_some]
  refine ⟨?_, List.mem_range.2 (by omega), fun b hb => ?_⟩
  · exact List.all_eq_true.2 (fun i hi => hfree i (List.mem_range.1 hi))
  · obtain ⟨i, hi, hno⟩ := hlow b hb
    rw [Bool.not_eq_true', List.all_eq_false]
    exact ⟨i, List.mem_range.2 hi, by rw [hno]; decide⟩

theorem State.lendPlace_none {s : State} {count : Nat} (h : count = 0 ∨ s.tiers.lendW < count ∨
    ∀ a, a + count ≤ s.tiers.lendW → ∃ i, i < count ∧ s.lendable (a + i) = false) : s.lendPlace count = none := by
  unfold State.lendPlace
  split
  next => rfl
  next hsize =>
    refine List.find?_eq_none.2 (fun a ha => ?_)
    have hlt := List.mem_range.1 ha
    obtain ⟨i, hi, hno⟩ := (h.resolve_left (by omega)).resolve_left (by omega) a (by omega)
    rw [List.all_eq_true]
    exact fun hall => absurd (hall i (List.mem_range.2 hi)) (by rw [hno]; decide)

section
variable {s : State} {port part first count : Nat} {f : Frame}

/-- What LEND_REQUEST makes of the state it finds. -/
theorem lendRequest_row (h : s.ForUs port f) (hty : f.ty = 0x38) (hsub : f.tf 0 7 0 = 1) (hpart : part = wnat (Frame.words f) 0 % 64)
    (hcount : count = wnat (Frame.words f) 2) :
    exec (.lendRequest port f true) s = .next (match s.lendPlace count with
      | some a => if s.tiers.lends.length < 4096 then
          State.sendAnswer { s.received port f with tiers := { s.tiers with lends := s.tiers.lends ++ [Lend.mk f.src part a count false] } }
            (s.control f.src 0x02 part a count)
        else (s.received port f).sendAnswer (s.control f.src 0x03 part 0 count)
      | none => (s.received port f).sendAnswer (s.control f.src 0x03 part 0 count)) := by
  subst hpart hcount
  have hrow : exec (.lendRequest port f true) s = execLendRequest port f true s := rfl
  unfold execLendRequest at hrow
  rw [h.onControl hty hsub] at hrow
  exact hrow

theorem lendRequest_grants (h : s.ForUs port f) (hty : f.ty = 0x38) (hsub : f.tf 0 7 0 = 1) (hpart : part = wnat (Frame.words f) 0 % 64)
    (hcount : count = wnat (Frame.words f) 2) {a : Nat} (hone : 1 ≤ count) (hfit : a + count ≤ s.tiers.lendW)
    (hfree : ∀ i, i < count → s.lendable (a + i) = true) (hlow : ∀ b, b < a → ∃ i, i < count ∧ s.lendable (b + i) = false)
    (hroom : s.tiers.lends.length < 4096) :
    Answers (.lendRequest port f true) s [.fab, .tiers] (fun t =>
      t.tiers = { s.tiers with lends := s.tiers.lends ++ [Lend.mk f.src part a count false] } ∧
      t.fab = ((s.received port f).sendAnswer (s.control f.src 0x02 part a count)).fab) := by
  have hrow := lendRequest_row h hty hsub hpart hcount
  rw [State.lendPlace_some hone hfit hfree hlow] at hrow
  set u : State := { s.received port f with tiers := { s.tiers with lends := s.tiers.lends ++ [Lend.mk f.src part a count false] } }
  refine ⟨_, hrow.trans (congrArg _ (if_pos hroom)), ?_, State.sendAnswer_tiers ..,
    State.sendAnswer_fab (s := s.received port f) (t := u) rfl _⟩
  exact (((s.only_received port f).mono _ (by decide)).trans ((State.only_set_tiers _ _).mono _ (by decide))).trans
    ((State.only_sendAnswer ..).mono _ (by decide))

theorem lendRequest_refuses (h : s.ForUs port f) (hty : f.ty = 0x38) (hsub : f.tf 0 7 0 = 1) (hpart : part = wnat (Frame.words f) 0 % 64)
    (hcount : count = wnat (Frame.words f) 2) (hno : count = 0 ∨ s.tiers.lendW < count ∨ 4096 ≤ s.tiers.lends.length ∨
      ∀ a, a + count ≤ s.tiers.lendW → ∃ i, i < count ∧ s.lendable (a + i) = false) :
    exec (.lendRequest port f true) s = .next ((s.received port f).sendAnswer (s.control f.src 0x03 part 0 count)) := by
  have hrow := lendRequest_row h hty hsub hpart hcount
  by_cases hroom : s.tiers.lends.length < 4096
  · rw [State.lendPlace_none (hno.imp_right (Or.imp_right (fun h => h.resolve_left (by omega))))] at hrow
    exact hrow
  · rw [hrow]
    cases s.lendPlace count with
    | none => rfl
    | some a => exact congrArg _ (if_neg hroom)

/-! ### LEND_GRANT and LEND_REFUSAL -/

/-- The blocks of a PEER_MAP on the window frames it is granted. -/
def grantedMaps (blk chip first count : Nat) : Tbl NewMap :=
  (rangeBlocks blk count).zipIdx.map (fun p => (p.1, { frame := first + p.2, tier := 2, chip := chip }))

theorem grantedMaps_find (blk chip first : Nat) {count i : Nat} (hi : i < count) :
    (grantedMaps blk chip first count).find? (fun m => m.1 = blk + i) =
      some (blk + i, { frame := first + i, tier := 2, chip := chip }) := by
  have hmaps : grantedMaps blk chip first count =
      (List.range count).map (fun i => (blk + i, ({ frame := first + i, tier := 2, chip := chip } : NewMap))) := by
    refine List.ext_getElem (by simp [grantedMaps, rangeBlocks]) (fun k _ _ => ?_)
    simp [grantedMaps, rangeBlocks]
  rw [hmaps, List.find?_map]
  have hfind : (List.range count).find? ((fun m : Nat × NewMap => decide (m.1 = blk + i)) ∘
      fun i => (blk + i, ({ frame := first + i, tier := 2, chip := chip } : NewMap))) = some i := by
    rw [List.find?_range_eq_some]
    refine ⟨by simp, List.mem_range.2 hi, fun j hj => ?_⟩
    simp only [Function.comp_apply, Bool.not_eq_true', decide_eq_false_iff_not]
    omega
  rw [hfind]
  rfl

theorem State.only_lendAnswered (s : State) (ctx chip count : Nat) : s.Only [.fab] (s.lendAnswered ctx chip count) := by
  unfold State.lendAnswered
  split
  · exact s.only_dropReq _
  · exact State.Only.refl _ _

theorem State.lendAnswered_cp (s : State) (ctx chip count : Nat) : (s.lendAnswered ctx chip count).cp = s.cp :=
  (s.only_lendAnswered ctx chip count).cp.resolve_left (by decide)

theorem State.peerMapOf_received (s : State) (port : Nat) (f : Frame) (part chip count : Nat) :
    (s.received port f).peerMapOf part chip count = s.peerMapOf part chip count := rfl

/-- The PEER_MAP an answer is for waits for it. -/
theorem State.peerMapOf_work {s : State} {part chip count fn q : Nat} {c : Cmd} (h : s.peerMapOf part chip count = some (fn, q, c)) :
    ∃ a k, c.work = .peer chip a k false := by
  have hfound := List.find?_some h
  simp only [Bool.and_eq_true] at hfound
  obtain ⟨-, hwork⟩ := hfound
  split at hwork
  next a k g hw =>
    simp only [Bool.and_eq_true, decide_eq_true_eq, Bool.not_eq_true'] at hwork
    obtain ⟨⟨rfl, -⟩, rfl⟩ := hwork
    exact ⟨a, k, hw⟩
  next => exact absurd hwork (by decide)

/-- What a grant leaves of the PEER_MAP that waited for it. -/
def State.grantTo (s : State) (fn q : Nat) (c : Cmd) (chip first count : Nat) : State :=
  (((s.lendAnswered c.ctx chip count).modCmd fn q c.n (fun x => { x with maps := grantedMaps (bwFirst c.eff) chip first count })).setWork
    fn q c.n (.peer chip first count true)).done fn q c.n count 0

theorem State.cmdOf_grantTo {s : State} {fn q : Nat} {c : Cmd} (chip first count : Nat) (hc : s.cmdOf fn q c.n = some c)
    (hrun : c.phase = .running) (hst : c.status = 0) :
    (s.grantTo fn q c chip first count).cmdOf fn q c.n = some { c with
      maps := grantedMaps (bwFirst c.eff) chip first count, work := .peer chip first count true, begun := true, phase := .finished,
      status := St.ok, resA := w32 count, resB := w32 0 } := by
  rw [State.grantTo, State.done, State.cmdOf_finish, State.cmdOf_setWork, State.cmdOf_modCmd_self _ _ _ _ _ (by exact fun _ => rfl),
    State.cmdOf_cp _ s _ _ _ (State.lendAnswered_cp ..), hc]
  simp [Cmd.finish, hrun, hst]

theorem State.only_grantTo (s : State) (fn q : Nat) (c : Cmd) (chip first count : Nat) :
    s.Only [.fab, .cp] (s.grantTo fn q c chip first count) :=
  ((((s.only_lendAnswered ..).mono _ (by decide)).trans ((State.only_modCmd ..).mono _ (by decide))).trans
    ((State.only_setWork ..).mono _ (by decide))).trans ((State.only_modCmd ..).mono _ (by decide))

theorem lendGrant_ends (h : s.ForUs port f) (hty : f.ty = 0x38) (hsub : f.tf 0 7 0 = 2) (hpart : part = wnat (Frame.words f) 0 % 64)
    (hfirst : first = wnat (Frame.words f) 1) (hcount : count = wnat (Frame.words f) 2) {fn q : Nat} {c : Cmd}
    (hpeer : s.peerMapOf part f.src count = some (fn, q, c)) (hc : s.cmdOf fn q c.n = some c) (hrun : c.phase = .running)
    (hst : c.status = 0) :
    Answers (.lendGrant port f true) s [.fab, .cp] (fun t => t.Ended fn q c.n St.ok count 0 ∧
      (∀ d, t.cmdOf fn q c.n = some d → ∀ i, i < count → ((d.maps.find? (fun m => m.1 = bwFirst c.eff + i)).map (fun m =>
        (m.2.frame, m.2.tier, m.2.chip))) = some (first + i, 2, f.src))) := by
  subst hpart hfirst hcount
  have hrow : exec (.lendGrant port f true) s = execLendGrant port f true s := rfl
  unfold execLendGrant at hrow
  rw [h.onControl hty hsub, s.peerMapOf_received, hpeer] at hrow
  have hcmd := State.cmdOf_grantTo (s := s.received port f) f.src (wnat (Frame.words f) 1) (wnat (Frame.words f) 2) hc hrun hst
  refine ⟨_, hrow, ((s.only_received port f).mono _ (by decide)).trans (State.only_grantTo ..), ⟨_, hcmd, rfl, rfl, rfl, rfl⟩, ?_⟩
  intro d hd i hi
  obtain rfl := Option.some.inj (hcmd.symm.trans hd)
  dsimp only
  rw [grantedMaps_find _ _ _ hi]
  rfl

theorem lendGrant_goesBack (h : s.ForUs port f) (hty : f.ty = 0x38) (hsub : f.tf 0 7 0 = 2) (hpart : part = wnat (Frame.words f) 0 % 64)
    (hfirst : first = wnat (Frame.words f) 1) (hcount : count = wnat (Frame.words f) 2) (hpeer : s.peerMapOf part f.src count = none) :
    exec (.lendGrant port f true) s = .next ((List.range count).foldl (fun u i => u.lendReturn part f.src (first + i))
      (s.received port f)) := by
  subst hpart hfirst hcount
  have hrow : exec (.lendGrant port f true) s = execLendGrant port f true s := rfl
  unfold execLendGrant at hrow
  rw [h.onControl hty hsub, s.peerMapOf_received, hpeer] at hrow
  exact hrow

/-- A command that moves no layout and is ended reports the verdict. -/
theorem State.endCmd_ended_of {s : State} {fn q n : Nat} {c : Cmd} (v : Verdict) (hc : s.cmdOf fn q n = some c)
    (hmove : ∀ l a, c.work ≠ .move l 2 a) (hp : c.phase ≠ .finished) (hs : c.status = 0) :
    s.endCmd fn q n v = (s.release fn q n).finish fn q n v ∧ (s.endCmd fn q n v).Ended fn q n v.status v.a v.b := by
  have he : s.endCmd fn q n v = (s.release fn q n).finish fn q n v := by
    simp only [State.endCmd, hc]
  obtain ⟨d, hd, hdp, hds⟩ := State.cmdOf_release hc
  exact ⟨he, he ▸ State.finish_ended _ fn q n d v hd (by rwa [hdp]) (by rwa [hds])⟩

/-- A PEER_MAP without a grant has nothing to give back. -/
theorem State.only_release_peer {s : State} {fn q n : Nat} {c : Cmd} (hc : s.cmdOf fn q n = some c) {chip a k : Nat}
    (hwork : c.work = .peer chip a k false) (hsh : c.shadows = []) (hmaps : c.maps = []) (hslots : s.cmdSlots fn q n = []) :
    s.Only [.cp] (s.release fn q n) := by
  have hundo : (s.undoWork fn q n c).endStreams fn q n = s := by
    rw [State.undoWork, hwork]
    simp only [Bool.false_eq_true, if_false]
    rw [State.endStreams, hslots, List.foldl_nil]
  have hdrop : s.dropShadows fn q n = s.modCmd fn q n (fun x => { x with shadows := [], maps := [] }) := by
    simp only [State.dropShadows, hc, hsh, hmaps, List.foldl_nil]
  simp only [State.release, hc, hundo, hdrop]
  exact (s.only_modCmd ..).trans (State.only_modCmd ..)

theorem lendRefusal_ends (h : s.ForUs port f) (hty : f.ty = 0x38) (hsub : f.tf 0 7 0 = 3) (hpart : part = wnat (Frame.words f) 0 % 64)
    (hcount : count = wnat (Frame.words f) 2) {fn q : Nat} {c : Cmd} (hpeer : s.peerMapOf part f.src count = some (fn, q, c))
    (hc : s.cmdOf fn q c.n = some c) (hrun : c.phase = .running) (hst : c.status = 0) (hsh : c.shadows = []) (hmaps : c.maps = [])
    (hslots : s.cmdSlots fn q c.n = []) :
    Answers (.lendRefusal port f true) s [.fab, .cp] (fun t => t.Ended fn q c.n St.remoteRefused f.src 0) := by
  subst hpart hcount
  have hrow : exec (.lendRefusal port f true) s = execLendRefusal port f true s := rfl
  unfold execLendRefusal at hrow
  rw [h.onControl hty hsub, s.peerMapOf_received, hpeer] at hrow
  obtain ⟨a, k, hwork⟩ := State.peerMapOf_work hpeer
  have hans := State.only_lendAnswered (s.received port f) c.ctx f.src (wnat (Frame.words f) 2)
  have hcmd : ((s.received port f).lendAnswered c.ctx f.src (wnat (Frame.words f) 2)).cmdOf fn q c.n = some c := by
    rw [State.cmdOf_cp _ (s.received port f) _ _ _ (State.lendAnswered_cp ..)]
    exact hc
  have hslots' : ((s.received port f).lendAnswered c.ctx f.src (wnat (Frame.words f) 2)).cmdSlots fn q c.n = [] := by
    rw [State.cmdSlots, State.usedSlots, hans.slots.resolve_left (by decide)]
    exact hslots
  obtain ⟨he, hended⟩ := State.endCmd_ended_of ⟨St.remoteRefused, f.src, 0⟩ hcmd (fun l a => by rw [hwork]; exact nofun)
    (by rw [hrun]; decide) hst
  refine ⟨_, hrow, ?_, hended⟩
  change s.Only _ (State.endCmd _ fn q c.n _)
  rw [he]
  exact ((((s.only_received port f).mono _ (by decide)).trans (hans.mono _ (by decide))).trans
    ((State.only_release_peer hcmd hwork hsh hmaps hslots').mono _ (by decide))).trans ((State.only_modCmd ..).mono _ (by decide))

/-! ### RECALL_NOTICE -/

theorem State.preparing_received (s : State) (port : Nat) (f : Frame) (i : Nat) : (s.received port f).preparing i = s.preparing i := rfl

theorem State.only_recallEntry (s : State) (i : Nat) : s.Only [.tiers] (s.recallEntry i) := (State.only_bmChange ..).trans (State.only_setMig ..)

theorem State.bmOf_recallEntry (s : State) (i j : Nat) :
    (s.recallEntry i).bmOf j = if j = i then { s.bmOf i with state := 2 } else s.bmOf j := by
  change (s.bmChange i { s.bmOf i with state := 2 } none none).bmOf j = _
  split
  next h => rw [h, State.bmOf_bmChange_self]
  next h => exact State.bmOf_bmChange_ne _ _ _ _ h

theorem State.migOf_recallEntry (s : State) (i j : Nat) :
    (s.recallEntry i).migOf j = if j = i then some { src := (s.bmOf i).loc, tier := 1, kind := 3 } else s.migOf j := by
  refine (tget_tset ..).trans ?_
  rfl

/-- The blocks of a list recalled one after the other: those of the list migrate home, the others stay. -/
theorem State.foldl_recallEntry (ps : List (Nat × BmEntry)) (s : State) (i : Nat) :
    ((i ∈ ps.map Prod.fst → ((ps.foldl (fun u p => u.recallEntry p.1) s).bmOf i).state = 2 ∧
      ∃ m, (ps.foldl (fun u p => u.recallEntry p.1) s).migOf i = some m ∧ m.begun = false ∧ m.tier = 1 ∧ m.kind = 3) ∧
    (i ∉ ps.map Prod.fst → (ps.foldl (fun u p => u.recallEntry p.1) s).bmOf i = s.bmOf i ∧
      (ps.foldl (fun u p => u.recallEntry p.1) s).migOf i = s.migOf i)) := by
  induction ps generalizing s with
  | nil => exact ⟨fun h => absurd h (List.not_mem_nil), fun _ => ⟨rfl, rfl⟩⟩
  | cons p ps ih =>
    obtain ⟨hin, hout⟩ := ih (s.recallEntry p.1)
    rw [List.foldl_cons, List.map_cons]
    refine ⟨fun h => ?_, fun h => ?_⟩
    · by_cases hrest : i ∈ ps.map Prod.fst
      · exact hin hrest
      · obtain rfl := (List.mem_cons.1 h).resolve_right hrest
        obtain ⟨hbm, hmig⟩ := hout hrest
        rw [hbm, hmig, State.bmOf_recallEntry, if_pos rfl, State.migOf_recallEntry, if_pos rfl]
        exact ⟨rfl, _, rfl, rfl, rfl, rfl⟩
    · obtain ⟨hne, hrest⟩ := not_or.1 (mt List.mem_cons.2 h)
      obtain ⟨hbm, hmig⟩ := hout hrest
      rw [hbm, hmig, State.bmOf_recallEntry, if_neg hne, State.migOf_recallEntry, if_neg hne]
      exact ⟨rfl, rfl⟩

theorem State.foldl_recallEntry_rest (ps : List (Nat × BmEntry)) (s : State) :
    s.Only [.tiers] (ps.foldl (fun u p => u.recallEntry p.1) s) ∧ (ps.foldl (fun u p => u.recallEntry p.1) s).tiers.mem = s.tiers.mem ∧
      (ps.foldl (fun u p => u.recallEntry p.1) s).tiers.borrowRecalls = s.tiers.borrowRecalls := by
  induction ps generalizing s with
  | nil => exact ⟨State.Only.refl _ _, rfl, rfl⟩
  | cons p ps ih =>
    obtain ⟨honly, hmem, hrecalls⟩ := ih (s.recallEntry p.1)
    exact ⟨(s.only_recallEntry p.1).trans honly, hmem, hrecalls⟩

/-- The entries that a recall notice reaches. -/
def State.recallHits (s : State) (chip first count : Nat) : List (Nat × BmEntry) :=
  s.tiers.bm.filter (fun p => p.2.state = 1 && p.2.tier = 2 && p.2.chip = chip && decide (first ≤ p.2.loc) &&
    decide (p.2.loc < first + count) && !s.preparing p.1)

theorem State.mem_recallHits {s : State} {chip first count : Nat} {p : Nat × BmEntry} : p ∈ s.recallHits chip first count ↔
    p ∈ s.tiers.bm ∧ p.2.state = 1 ∧ p.2.tier = 2 ∧ p.2.chip = chip ∧ first ≤ p.2.loc ∧ p.2.loc < first + count ∧
      s.preparing p.1 = false := by
  simp only [State.recallHits, List.mem_filter, Bool.and_eq_true, decide_eq_true_eq, Bool.not_eq_true', and_assoc]

theorem recallNotice_recalls (h : s.ForUs port f) (hty : f.ty = 0x38) (hsub : f.tf 0 7 0 = 4) (hfirst : first = wnat (Frame.words f) 1)
    (hcount : count = wnat (Frame.words f) 2) : Answers (.recallNotice port f true) s [.fab, .tiers] (fun t =>
      t.tiers.borrowRecalls = s.tiers.borrowRecalls ++ [(f.src, first, count)] ∧ t.tiers.mem = s.tiers.mem ∧
      (∀ i, (s.bmOf i).state = 1 → (s.bmOf i).tier = 2 → (s.bmOf i).chip = f.src → first ≤ (s.bmOf i).loc →
        (s.bmOf i).loc < first + count → s.preparing i = false → (t.bmOf i).state = 2 ∧
        ∃ m, t.migOf i = some m ∧ m.begun = false ∧ m.tier = 1 ∧ m.kind = 3) ∧
      ∀ i, (s.preparing i = true ∨ ∀ e, (i, e) ∈ s.tiers.bm → ¬(e.state = 1 ∧ e.tier = 2)) → t.bmOf i = s.bmOf i) := by
  subst hfirst hcount
  set first := wnat (Frame.words f) 1
  set count := wnat (Frame.words f) 2
  have hrow : exec (.recallNotice port f true) s = execRecallNotice port f true s := rfl
  unfold execRecallNotice at hrow
  rw [h.onControl hty hsub] at hrow
  set hits := s.recallHits f.src first count
  set t1 := hits.foldl (fun u p => u.recallEntry p.1) (s.received port f) with ht1
  obtain ⟨honly, hmem, hrecalls⟩ := State.foldl_recallEntry_rest hits (s.received port f)
  refine ⟨{ t1 with tiers := { t1.tiers with borrowRecalls := t1.tiers.borrowRecalls ++ [(f.src, first, count)] } }, hrow, ?_, ?_, hmem,
    fun i hstate htier hchip hlow hhigh hprep => ?_, fun i hi => ?_⟩
  · exact (((s.only_received port f).mono _ (by decide)).trans (honly.mono _ (by decide))).trans
      ((State.only_set_tiers _ _).mono _ (by decide))
  · exact congrArg (· ++ [(f.src, first, count)]) hrecalls
  · have hlisted : (i, s.bmOf i) ∈ s.tiers.bm := tget_mem {} _ _ _ rfl (fun hd => by
      change s.bmOf i = {} at hd
      rw [hd] at hstate
      exact absurd hstate (by decide))
    exact (State.foldl_recallEntry hits (s.received port f) i).1
      (List.mem_map_of_mem (State.mem_recallHits.2 ⟨hlisted, hstate, htier, hchip, hlow, hhigh, hprep⟩))
  · refine ((State.foldl_recallEntry hits (s.received port f) i).2 (fun hmem => ?_)).1
    obtain ⟨⟨j, e⟩, hp, rfl⟩ := List.mem_map.1 hmem
    obtain ⟨hlisted, hstate, htier, -, -, -, hprep⟩ := State.mem_recallHits.1 hp
    exact hi.elim (fun h => absurd (h.symm.trans hprep) (by decide)) (fun h => h e hlisted ⟨hstate, htier⟩)

/-! ### LEND_FRAME_RELEASE -/

/-- What a recall that waits for window frame w counts when w comes back. -/
def Cmd.countReturned (w : Nat) (c : Cmd) : Cmd :=
  match c.work with
  | .recall a k r rf past => if a ≤ w ∧ w < a + k ∧ !past then { c with work := .recall a k (r + 1) rf past } else c
  | _ => c

theorem Cmd.countReturned_n (w : Nat) (c : Cmd) : (c.countReturned w).n = c.n := by
  unfold Cmd.countReturned
  split
  · split <;> rfl
  · rfl

/-- No piece of a record still holds the frame taken out of it. -/
theorem Lend.mem_without {l x : Lend} {w : Nat} (hw : l.first ≤ w) (hx : x ∈ l.without w) : ¬(x.first ≤ w ∧ w < x.first + x.count) := by
  rw [Lend.without, List.mem_filter, List.mem_cons, List.mem_singleton] at hx
  rcases hx.1 with rfl | rfl
  · dsimp only
    omega
  · dsimp only
    omega

theorem lendFrameRelease_returns (h : s.ForUs port f) (hty : f.ty = 0x38) (hsub : f.tf 0 7 0 = 5) (hpart : part = wnat (Frame.words f) 0 % 64)
    (hfirst : first = wnat (Frame.words f) 1) (hcount : count = wnat (Frame.words f) 2) {l : Lend} (hone : count = 1)
    (hl : s.tiers.lends.find? (fun l => l.chip = f.src && l.part = part && decide (l.first ≤ first) && decide (first < l.first + l.count)) =
      some l) :
    Answers (.lendFrameRelease port f true) s [.fab, .tiers, .cp] (fun t => t.tiers.lendScrub = s.tiers.lendScrub ++ [first] ∧
      l ∉ t.tiers.lends ∧ t.tiers.mem = s.tiers.mem ∧
      (∀ x ∈ t.tiers.lends, x.chip = f.src → x.part = part → x ∈ s.tiers.lends ∨ ¬(x.first ≤ first ∧ first < x.first + x.count)) ∧
      ∀ fn q n c a k r e, s.cmdOf fn q n = some c → c.phase = .running → c.work = .recall a k r e false → a ≤ first → first < a + k →
        t.cmdOf fn q n = some { c with work := .recall a k (r + 1) e false }) := by
  subst hpart hfirst hcount
  have hrow : exec (.lendFrameRelease port f true) s = execLendFrameRelease port f true s := rfl
  unfold execLendFrameRelease at hrow
  rw [h.onControl hty hsub, hone, List.range_one, List.foldl_cons, List.foldl_nil, Nat.add_zero] at hrow
  set part := wnat (Frame.words f) 0 % 64
  set first := wnat (Frame.words f) 1
  have hl' : (s.received port f).tiers.lends.find? (fun l => l.chip = f.src && l.part = part && decide (l.first ≤ first) &&
      decide (first < l.first + l.count)) = some l := hl
  dsimp only at hrow
  rw [hl'] at hrow
  set lends := s.tiers.lends.flatMap (fun x => if x = l then l.without first else [x])
  set u : State := { s.received port f with tiers := { s.tiers with lends := lends, lendScrub := s.tiers.lendScrub ++ [first] } }
  have hrow : exec (.lendFrameRelease port f true) s = .next (u.mapCmds (fun _ _ c => c.isRunning) (Cmd.countReturned first)) := hrow
  have hholds := List.find?_some hl
  simp only [Bool.and_eq_true, decide_eq_true_eq] at hholds
  obtain ⟨⟨-, hlow⟩, hhigh⟩ := hholds
  have hmem : ∀ x ∈ lends, x ∈ s.tiers.lends ∧ x ≠ l ∨ x ∈ l.without first := fun x hx => by
    obtain ⟨y, hy, hxy⟩ := List.mem_flatMap.1 hx
    split at hxy
    next => exact .inr hxy
    next hne => exact .inl (List.mem_singleton.1 hxy ▸ ⟨hy, hne⟩)
  refine ⟨_, hrow, ?_, rfl, fun hin => ?_, rfl, fun x hx _ _ => ?_, fun fn q n c a k r e hc hrun hwork ha hk => ?_⟩
  · exact (((s.only_received port f).mono _ (by decide)).trans ((State.only_set_tiers _ _).mono _ (by decide))).trans
      ((State.only_mapCmds ..).mono _ (by decide))
  · exact (hmem l hin).elim (fun h => h.2 rfl) (fun h => Lend.mem_without hlow h ⟨hlow, hhigh⟩)
  · exact (hmem x hx).imp And.left (Lend.mem_without hlow)
  · rw [State.cmdOf_mapCmds _ _ _ (Cmd.countReturned_n first), State.cmdOf_cp u s _ _ _ rfl, hc, Option.map_some,
      if_pos (by rw [Cmd.isRunning, hrun]; rfl), Cmd.countReturned, hwork]
    exact congrArg some (if_pos ⟨ha, hk, rfl⟩)

end

/-! ### O27 -/

/-- Settles O27, message by message. The payload's words 0, 1 and 2 hold the partition, the first frame and the count (log entry 12, the
model's choice). -/
theorem lendingMessagesAct : Obligations.LendingMessagesAct := by
  unfold Obligations.LendingMessagesAct
  intro s port f part first count h hty hpart hfirst hcount
  refine ⟨fun hsub => ⟨fun a => lendRequest_grants h hty hsub hpart hcount, lendRequest_refuses h hty hsub hpart hcount⟩,
    fun fn q c hpeer hc hrun hst => ⟨fun hsub => lendGrant_ends h hty hsub hpart hfirst hcount hpeer hc hrun hst,
      fun hsub => lendRefusal_ends h hty hsub hpart hcount hpeer hc hrun hst⟩,
    fun hsub => lendGrant_goesBack h hty hsub hpart hfirst hcount,
    fun hsub => recallNotice_recalls h hty hsub hfirst hcount,
    fun l hsub hone hl => lendFrameRelease_returns h hty hsub hpart hfirst hcount hone hl⟩

end Sys2Proof.Machine
end

section
/-! The fabric's timers, lanes lost and retrained, and the routing table (R392, R393, R399, R402, R405, R408, R413 to R415), and O28. -/
namespace Sys2Proof.Machine

/-- What an error report leaves of the ports. -/
theorem State.portOf_report (s : State) (island cls code : Nat) (ctx : Option Nat) (detail j : Nat) :
    (s.report island cls code ctx detail).portOf j = s.portOf j := by
  rw [State.portOf, (State.only_report ..).fab.resolve_left (by decide), State.portOf]

section
variable {s : State} {port : Nat} {p : Port}

/-! ### Timers of the link layer (R392, R393) -/

theorem replayTimeout_replays (hp : s.portOf port = p) (hu : p.usable = true) (hbuf : p.replayBuf ≠ []) (hfew : p.failedReplays < 3) :
    Answers (.replayTimeout port) s [.fab, .isl, .mgmt, .cores, .power, .ctxs, .free] (fun t =>
      (t.portOf port).tx = p.tx ++ p.replayBuf.map (fun g => { g with lack := p.rxSeq }) ∧
      (t.portOf port).replayBuf = p.replayBuf ∧ (t.portOf port).failedReplays = p.failedReplays + 1 ∧
      ∀ j, j ≠ port → t.portOf j = s.portOf j) := by
  subst hp
  have he : exec (.replayTimeout port) s =
      .next ((s.replayOn port).modPort port (fun x => { x with failedReplays := x.failedReplays + 1 })) := by
    change execReplayTimeout port s = _
    rw [execReplayTimeout, onlyIf_next (by simp [hu, hbuf]), if_neg (by omega)]
  have hself : (s.replayOn port).portOf port = (s.portOf port).replay := by
    rw [State.replayOn, State.portOf_report, State.portOf_modPort_self]
  have hrep : (s.modPort port Port.replay).Only showGroups (s.replayOn port) := State.only_report ..
  refine ⟨_, he, (((State.only_modPort ..).mono _ (by decide)).trans (hrep.mono _ (by decide))).trans ((State.only_modPort ..).mono _ (by decide)),
    ?_, ?_, ?_, fun j hj => ?_⟩
  · rw [State.portOf_modPort_self, hself, Port.replay_of_ne hbuf]
  · rw [State.portOf_modPort_self, hself, Port.replay_of_ne hbuf]
  · rw [State.portOf_modPort_self, hself, Port.replay_of_ne hbuf]
  · rw [State.portOf_modPort, if_neg hj, State.replayOn, State.portOf_report, State.portOf_modPort, if_neg hj]

theorem replayTimeout_downs (hp : s.portOf port = p) (hu : p.usable = true) (hbuf : p.replayBuf ≠ []) (hthree : 3 ≤ p.failedReplays) :
    exec (.replayTimeout port) s = .next (s.portDown port 1) := by
  subst hp
  change execReplayTimeout port s = _
  rw [execReplayTimeout, onlyIf_next (by simp [hu, hbuf]), if_pos hthree]

theorem ackTimer_reports (hp : s.portOf port = p) (hu : p.usable = true) (hun : p.unreported ≠ 0) :
    Answers (.ackTimer port) s [.fab] (fun t => (t.portOf port).unreported = 0 ∧
      (t.portOf port).tx = p.tx ++ [{ (s.linkAckFrame false) with lseq := 0, lack := p.rxSeq }] ∧
      ∀ j, j ≠ port → t.portOf j = s.portOf j) := by
  subst hp
  have he : exec (.ackTimer port) s = .next (s.sendOn port (s.linkAckFrame false)) := by
    change execAckTimer port s = _
    rw [execAckTimer, onlyIf_next (by simp [hu, hun])]
  have hclass : frameClass (s.linkAckFrame false).ty = some 0 := (rfl : frameClass 0x01 = some 0)
  have hself : (s.sendOn port (s.linkAckFrame false)).portOf port = { s.portOf port with
      tx := (s.portOf port).tx ++ [{ s.linkAckFrame false with lseq := 0, lack := (s.portOf port).rxSeq }], unreported := 0 } := by
    rw [State.sendOn, State.portOf_modPort_self, Port.send, hu, Bool.not_true, if_neg Bool.false_ne_true, if_pos hclass]
  exact ⟨_, he, s.only_sendOn port _, by rw [hself], by rw [hself], fun j hj => s.portOf_sendOn_ne port j _ hj⟩

/-! ### Lanes and training (R393, R413 to R415) -/

theorem lossOfLock_row (hp : s.portOf port = p) (hu : p.usable = true) {lanes : Nat} (hlost : p.lanesUp &&& lanes ≠ p.lanesUp) :
    exec (.lossOfLock port lanes) s = .next (if p.lanesUp &&& lanes = 0 then s.portDown port 2
      else if laneCount (p.lanesUp &&& lanes) < 3 then s.portDown port 3
      else (s.modPort port (fun x => { x with
        lanesUp := p.lanesUp &&& lanes, lanesFailed := x.lanesFailed ||| (x.lanesUp - (p.lanesUp &&& lanes)) })).report
        (islQuenor port) 9 0x10 none port) := by
  subst hp
  change execLossOfLock port lanes s = _
  rw [execLossOfLock, onlyIf_next (by simp [hu, hlost])]

theorem lossOfLock_drops (hp : s.portOf port = p) (hu : p.usable = true) {lanes : Nat} (hlost : p.lanesUp &&& lanes ≠ p.lanesUp)
    (hthree : 3 ≤ laneCount (p.lanesUp &&& lanes)) :
    Answers (.lossOfLock port lanes) s [.fab, .isl, .mgmt, .cores, .power, .ctxs, .free] (fun t =>
      (t.portOf port).lanesUp = p.lanesUp &&& lanes ∧ (t.portOf port).state = p.state ∧ ∀ j, j ≠ port → t.portOf j = s.portOf j) := by
  have hsome : p.lanesUp &&& lanes ≠ 0 := fun h => absurd (h ▸ hthree) (by decide)
  have he := lossOfLock_row hp hu hlost
  rw [if_neg hsome, if_neg (by omega)] at he
  refine ⟨_, he, ((s.only_modPort port _).mono _ (by decide)).trans ((State.only_report ..).mono _ (by decide)), ?_, ?_, fun j hj => ?_⟩
  · rw [State.portOf_report, State.portOf_modPort_self]
  · rw [State.portOf_report, State.portOf_modPort_self, hp]
  · rw [State.portOf_report, State.portOf_modPort, if_neg hj]

theorem neighbourLinkRestore_ups (hp : s.portOf port = p) {lanes chip nport : Nat} (hport : port < 32) (hout : p.mappedOut = true)
    (hthree : 3 ≤ laneCount lanes) (hlanes : lanes < 16) :
    Answers (.neighbourLinkRestore port lanes chip nport) s [.fab, .isl, .mgmt, .cores, .power, .ctxs, .free] (fun t =>
      (t.portOf port).state = 2 ∧ (t.portOf port).mappedOut = false ∧ (t.portOf port).lanesUp = lanes ∧
      (t.portOf port).nChip = chip ∧ (t.portOf port).nPort = nport ∧ (t.portOf port).rxSeq = 0 ∧ (t.portOf port).txSeq = 0 ∧
      ∀ j, j ≠ port → t.portOf j = s.portOf j) := by
  subst hp
  have he : exec (.neighbourLinkRestore port lanes chip nport) s = .next (s.trained port lanes chip nport) := by
    change execNeighbourLinkRestore port lanes chip nport s = _
    rw [execNeighbourLinkRestore, onlyIf_next (by simp [hport, hout])]
  obtain ⟨honly, hself, hothers⟩ := s.trained_up port lanes chip nport hthree
  refine ⟨_, he, honly, ?_⟩
  dsimp only
  rw [hself]
  exact ⟨rfl, rfl, Nat.mod_eq_of_lt hlanes, rfl, rfl, rfl, rfl, hothers⟩

/-- The command that a port's recalibration belongs to is running. -/
theorem State.recalOf_running {fn q lane left : Nat} {c : Cmd} {all : Bool} (h : s.recalOf port = some (fn, q, c, lane, all, left)) :
    c.phase = .running := by
  obtain ⟨x, -, hx⟩ := List.exists_of_findSome?_eq_some h
  split at hx
  · split at hx
    next hrun =>
      obtain rfl : x.2.2 = c := congrArg (fun o => o.2.2.1) (Option.some.inj hx)
      exact of_decide_eq_true hrun.2
    next => cases hx
  · cases hx

/-- The port after its lane has rejoined: the neighbour is told, and the lane is in service. -/
def State.rejoined (s : State) (port lane : Nat) : State :=
  (s.sendOn port (s.laneFrame lane 3)).modPort port (fun x =>
    { x with lanesUp := setBits x.lanesUp lane lane 1, lanesFailed := setBits x.lanesFailed lane lane 0 })

theorem State.rejoined_lanesUp (hp : s.portOf port = p) (lane : Nat) :
    ((s.rejoined port lane).portOf port).lanesUp = setBits p.lanesUp lane lane 1 := by
  rw [State.rejoined, State.portOf_modPort_self, State.sendOn, State.portOf_modPort_self, hp, (p.send_lanes _).2.2]

theorem laneRetrainDone_rejoins (hp : s.portOf port = p) {fn q lane left : Nat} {c : Cmd}
    (hrec : s.recalOf port = some (fn, q, c, lane, false, left)) (hc : s.cmdOf fn q c.n = some c) (hst : c.status = 0)
    (hu : p.usable = true) (hact : p.recalActive = true) (hlane : nbit p.lanesUp lane = false)
    (hthree : 3 ≤ laneCount (setBits p.lanesUp lane lane 1)) :
    Answers (.laneRetrainDone port true) s [.fab, .cp] (fun t => t.Ended fn q c.n St.ok left 0 ∧
      nbit (t.portOf port).lanesUp lane = true ∧ (t.portOf port).recalActive = false) := by
  have hup := State.rejoined_lanesUp hp lane
  set u := (s.rejoined port lane).modPort port (fun x => { x with recalActive := false, recalLane := 0 }) with hu'
  have hu2 : u.portOf port = { (s.rejoined port lane).portOf port with recalActive := false, recalLane := 0 } := State.portOf_modPort_self ..
  have he : exec (.laneRetrainDone port true) s = .next (u.done fn q c.n left 0) := by
    change execLaneRetrainDone port true s = _
    unfold execLaneRetrainDone
    rw [hrec]
    refine (onlyIf_next (by simp [hp, hu, hact, hlane])).trans (congrArg _ (if_neg ?_))
    change ¬laneCount ((s.rejoined port lane).portOf port).lanesUp < 3
    rw [hup]
    omega
  have hcp : u.cp = s.cp := rfl
  refine ⟨_, he, ?_, ?_, ?_, ?_⟩
  · exact ((((s.only_sendOn port _).mono _ (by decide)).trans ((State.only_modPort ..).mono _ (by decide))).trans
      ((State.only_modPort ..).mono _ (by decide))).trans ((State.only_modCmd ..).mono _ (by decide))
  · exact State.finish_ended u fn q c.n c ⟨St.ok, left, 0⟩ (by rw [State.cmdOf_cp u s _ _ _ hcp, hc])
      (by rw [State.recalOf_running hrec]; decide) hst
  · change nbit (u.portOf port).lanesUp lane = true
    rw [hu2, hup, nbit_setBits _ _ _ _ (by decide), if_pos rfl]
    rfl
  · change (u.portOf port).recalActive = false
    rw [hu2]

end

/-! ### Credits (R405) -/

section
variable {s : State} {k : Nat}

theorem creditTimer_sends (hopen : (s.circOf k).state = 2) (hend : (s.circOf k).transit = false) (hkind : (s.circOf k).kind ≠ 2) :
    Answers (.creditTimer k) s [.fab] (fun t =>
      (t.circOf k).owed = (s.circOf k).owed - min (s.circOf k).owed 1024 ∧ (∀ j, j ≠ k → t.circOf j = s.circOf j) ∧
      t.portOf (s.circOf k).away.1 = (s.portOf (s.circOf k).away.1).send { (s.frame 0x14 (s.circOf k).away.2.2
        [w32 (min (s.circOf k).owed 1024)] []) with circuit := (s.circOf k).away.2.1 }) := by
  set n := min (s.circOf k).owed 1024
  set u := s.modCirc k (fun x => { x with owed := x.owed - n })
  have htree := State.treeOf_single hkind
  have hsend : s.sendCredit k = u.sendOn (s.circOf k).away.1 { (s.frame 0x14 (s.circOf k).away.2.2 [w32 n] []) with
      circuit := (s.circOf k).away.2.1 } := by
    have howed : s.owedOn k = (s.circOf k).owed := by
      rw [State.owedOn, htree]
      rfl
    have htake : s.takeOwed k n = u := by
      rw [State.takeOwed, htree]
      rfl
    unfold State.sendCredit
    dsimp only
    rw [howed, if_neg hkind, htake]
  have he : exec (.creditTimer k) s = .next (s.sendCredit k) := by
    change execCreditTimer k s = _
    rw [execCreditTimer, onlyIf_next (by simp [Circuit.receives, hopen, hend, hkind])]
  rw [hsend] at he
  refine ⟨_, he, (s.only_modCirc k _).trans (State.only_sendOn ..), ?_, fun j hj => ?_, ?_⟩
  · rw [State.circOf_sendOn, State.circOf_modCirc_self]
  · rw [State.circOf_sendOn, State.circOf_modCirc, if_neg hj]
  · rw [State.sendOn, State.portOf_modPort_self]
    rfl

/-- A sender that got no credits back frees its circuit, and nothing that the tear does takes an entry again. -/
theorem creditTimeout_frees (hopen : (s.circOf k).state = 2) (hend : (s.circOf k).transit = false) (hkind : (s.circOf k).kind ≠ 2)
    (hlack : (s.circOf k).avail < (s.circOf k).limit) :
    ∃ t, exec (.creditTimeout k) s = .next t ∧ (t.circOf k).state = 0 ∧ t.pending = s.pending := by
  have he : exec (.creditTimeout k) s = .next (s.tearHere k 4 0 none) := by
    change execCreditTimeout k s = _
    rw [execCreditTimeout, onlyIf_next (by simp [Circuit.sends, hopen, hend, hkind, hlack])]
  refine ⟨_, he, ?_, exec_pending he⟩
  have hused : (s.circOf k).state ≠ 0 := by rw [hopen]; decide
  have hfree := State.tearEntry_frees hused hkind 4 0 none
  unfold State.tearHere
  dsimp only
  rw [if_neg hused]
  split
  · exact (State.steady_endpointTorn ..).freed _ hfree
  · exact hfree

end

/-! ### Requests, a job's opening and the routing table (R399, R402, R408) -/

section
variable {s : State}

theorem peerRequestTimeout_resends {id : Nat} {r : PeerReq} (hr : s.fab.reqs.find? (fun r => r.id = id) = some r) (htry : r.tries = 1) :
    exec (.peerRequestTimeout id) s = .next (s.resend r 1) := by
  change execPeerRequestTimeout id s = _
  unfold execPeerRequestTimeout
  rw [hr]
  exact congrArg _ (if_pos htry)

theorem peerRequestTimeout_tears {id : Nat} {r : PeerReq} (hr : s.fab.reqs.find? (fun r => r.id = id) = some r) (htry : r.tries ≠ 1)
    (hlive : s.ctxLive r.ctx = true) : ∃ t, exec (.peerRequestTimeout id) s = .next t ∧ t.Torn r.ctx := by
  have he : exec (.peerRequestTimeout id) s = .next ((s.dropReq r).teardown r.ctx ⟨St.peerLost, r.chip, 0⟩ hitRunning) := by
    change execPeerRequestTimeout id s = _
    unfold execPeerRequestTimeout
    rw [hr]
    exact congrArg _ (if_neg htry)
  exact ⟨_, he, State.teardown_torn _ _ _ _ hlive⟩

theorem jobOpenTimeout_ends {fn q n : Nat} {c : Cmd} {id : Word} {j : Job} (hstart : s.started fn q n 0x70 = some c) (hst : c.status = 0)
    (hwork : c.work = .job id) (hjob : s.jobOf c.ctx = some j) (hnot : s.jobReady c.ctx j = false) :
    ∃ t, exec (.jobOpenTimeout fn q n) s = .next t ∧ t.Ended fn q n St.circuitsUnavailable 32 0 ∧ t.pending = s.pending := by
  have he : exec (.jobOpenTimeout fn q n) s = .next (s.endCmd fn q n ⟨St.circuitsUnavailable, 32, 0⟩) := by
    change execJobOpenTimeout fn q n s = _
    simp [execJobOpenTimeout, State.work, hstart, hwork, hjob, hnot]
  obtain ⟨hcmd, hrun, -⟩ := s.started_cases fn q n 0x70 c hstart
  exact ⟨_, he, (State.endCmd_ended_of _ hcmd (fun l a => by rw [hwork]; exact nofun) (by rw [hrun]; decide) hst).2, exec_pending he⟩

theorem routeDataWrite_sets {v : Word} {t : State} (hlive : s.hostLive = true) (ht : t = { s with fab := { s.fab with
      routes := tset 0 s.fab.routes s.fab.routeIndex (v.toNat % 2 ^ 23) } }) (hreach : t.unreach s.fab.routeIndex = false) :
    exec (.routeDataWrite v) s = .next t := by
  subst ht
  set t : State := { s with fab := { s.fab with routes := tset 0 s.fab.routes s.fab.routeIndex (v.toNat % 2 ^ 23) } } with ht
  have hsame : ∀ y, y ≠ s.fab.routeIndex → t.unreach y = s.unreach y := fun y hy => by
    have hroute : tget 0 t.fab.routes y = tget 0 s.fab.routes y := tget_tset_ne _ _ _ _ _ hy
    simp only [State.unreach, State.routeValid, State.cands, State.routeList, hroute]
    rfl
  have hnone : s.newlyLost t = [] := List.filter_eq_nil_iff.2 (fun y _ => by
    by_cases hy : y = s.fab.routeIndex
    · simp [hy, hreach]
    · simp [hsame y hy])
  change execRouteDataWrite v s = _
  rw [execRouteDataWrite, onlyIf_next hlive]
  change Host.Outcome.next (t.afterRoutes s) = _
  rw [State.afterRoutes, hnone]
  rfl

end

/-! ### O28 -/

/-- Settles O28, timer by timer. That a restored port starts again with both sequence numbers 0 is the model's choice (log entry 69). -/
theorem linkTimersAct : Obligations.LinkTimersAct := by
  unfold Obligations.LinkTimersAct
  intro s port p hp
  refine ⟨replayTimeout_replays hp, replayTimeout_downs hp, ackTimer_reports hp, fun lanes hu hlost => ⟨fun hnone => ?down, fun hsome hfew => ?few,
      lossOfLock_drops hp hu hlost⟩, fun k hopen hend hkind => ⟨creditTimer_sends hopen hend hkind, creditTimeout_frees hopen hend hkind⟩,
    fun id r hr => ⟨peerRequestTimeout_resends hr, peerRequestTimeout_tears hr⟩,
    fun fn q n c id j hstart hst hwork hjob hnot => jobOpenTimeout_ends hstart hst hwork hjob hnot,
    fun fn q c lane left hrec hc hst hu hact _ hlane hthree => laneRetrainDone_rejoins hp hrec hc hst hu hact hlane hthree,
    fun v t hlive ht hreach => routeDataWrite_sets hlive ht hreach,
    fun lanes chip nport hport hout hthree hlanes => neighbourLinkRestore_ups hp hport hout hthree hlanes⟩
  case down => rw [lossOfLock_row hp hu hlost, if_pos hnone]
  case few => rw [lossOfLock_row hp hu hlost, if_neg hsome, if_pos hfew]

end Sys2Proof.Machine
end
